-- ==== Sys2Proof/Word.lean ====
section
/-! DEFINITION. The machine's words and their plainest arithmetic: bytes, 32-bit words, 64-bit words
(spec/00_scope.md R3). -/

namespace Sys2Proof

/-- One byte of memory. -/
abbrev Byte := BitVec 8

/-- One register, one context register, one program counter. -/
abbrev Word := BitVec 32

/-- A register pair, a global address, a 64-bit device register. -/
abbrev DWord := BitVec 64

/-- The poison value of R6. -/
def poisonWord : Word := 0x7FC0DEAD#32

/-- The canonical NaN of R6. -/
def canonNaN : Word := 0x7FC00000#32

end Sys2Proof
end

