-- ==== Sys2Proof/Units.lean ====
section
/-! DEFINITION. Plain data that the operations and events of the opcode table carry: packets, flits and
link frames (spec/02_loop_fabric.md, spec/03_skovey_links.md), page mappings (spec/04_host_and_partitions.md
R76, spec/10_traps_reliability.md R180), share parties and round tags (spec/22_isa_shares.md). -/

namespace Sys2Proof

/-- R27: what the check bits of a flit show at a station. -/
inductive FlitError where
  | none | corrected | payload | sideband | header
deriving DecidableEq, Repr

/-- The name of a group of threads: its context, node reference (R110), team index and group index; a control
thread and a handler instance are groups of one thread with a mark of their own (R125). -/
inductive GroupKind where
  | lanes | control | handler
deriving DecidableEq, Repr

structure GKey where
  ctx : Nat
  node : Word
  team : Nat
  idx : Nat
  kind : GroupKind
deriving DecidableEq, Repr

/-- The name of a team. -/
structure TKey where
  ctx : Nat
  node : Word
  team : Nat
deriving DecidableEq, Repr

/-- Whose work a packet carries (R27, R39, R64): a thread of a group, and the engine command it elects, if any. -/
structure PktOwner where
  group : GKey
  thread : Nat
  cmd : Option Nat := none
deriving DecidableEq, Repr

/-- A packet that a unit has handed to its station's port (R32). `dev` names the destination device and is
0xFFFF for this device; `finalDie`, `finalSt`, `origDie` and `origSt` carry the two ends of a cross-die packet, which its
segments need (R26). Of the packets that make one link packet, `head` marks the first, which begins with the route
header (R32, R47). -/
structure Packet where
  cls : BitVec 2
  dstDie : Nat
  dstSt : Nat
  part : Nat
  body : List (BitVec 1024)
  finalDie : Nat
  finalSt : Nat
  origSt : Nat
  dev : BitVec 16 := 0xFFFF
  origDie : Nat := 0
  head : Bool := true
  owner : Option PktOwner := none
deriving DecidableEq, Repr

/-- One flit with its sideband, Table 2.3, and what its packet carries beside it. `refusals` counts the consecutive
refusals of R30; `refusedAt` is the f-cycle of the last one, and `aheadSince` that of the first one for being ahead (R37). -/
structure Flit where
  cls : BitVec 2
  first : Bool
  last : Bool
  index : BitVec 4
  tag : BitVec 8
  srcDie : BitVec 3
  srcSt : BitVec 6
  dstDie : BitVec 3
  dstSt : BitVec 6
  part : BitVec 4
  gen : BitVec 4
  payload : BitVec 1024
  finalDie : Nat
  finalSt : Nat
  origSt : Nat
  dev : BitVec 16
  refusals : Nat := 0
  origDie : Nat := 0
  head : Bool := true
  owner : Option PktOwner := none
  refusedAt : Option Nat := none
  aheadSince : Option Nat := none
deriving DecidableEq, Repr

/-- One frame of a link, Table 3.2: bytes 0-7, bytes 8-239 and bytes 240-255, each little-endian. -/
structure Frame where
  hdr : BitVec 64
  body : BitVec 1856
  tag : BitVec 128
deriving DecidableEq, Repr

/-- R4, R180. The sizes of a page. -/
inductive PageSize where
  | k64 | m2 | g1
deriving DecidableEq, Repr

/-- A page size in 64 KiB units. -/
def PageSize.units : PageSize → Nat
  | .k64 => 1
  | .m2 => 32
  | .g1 => 16384

/-- One mapping of a context's address-space description, in 64 KiB units (R180): `pages` units from virtual
unit `vpage` onto physical unit `ppage`, in pages of `size`; `present` is false while the system cores have not served it
yet. -/
structure Mapping where
  vpage : Nat
  ppage : Nat
  pages : Nat
  canRead : Bool
  canWrite : Bool
  present : Bool
  size : PageSize := .k64
deriving DecidableEq, Repr

/-- One party of a stile session (R77): device identity, partition and context. -/
structure Party where
  dev : BitVec 16
  part : Nat
  ctx : Nat
deriving DecidableEq, Repr

/-- The tag of a share round, Table 22.4. -/
structure RoundTag where
  lbase : Word
  seq : Nat
  sub : Nat
  op : Nat
  width : Nat
  n : Nat
  cursor : Word
deriving DecidableEq, Repr

/-- The device registers without an event of their own (R53, R67, R198): LNK_KEYLIM of a port, the error threshold, and those
of a context's window in a partition's VF, reached on a stream. -/
inductive DevReg where
  | keyLim | eccThreshold | window (part ctx stream : Nat)
deriving DecidableEq, Repr

/-- How a share round ends for a party (R371): the sums, or the trap of its share instruction. -/
inductive RoundAnswer where
  | sums (v : List Nat)
  | trap (code : BitVec 8)
deriving DecidableEq, Repr

/-- What comes back for the open share instruction of a group (R369, R372): `away` is what the home stile sent, where that
is one of another device. -/
structure ShareReply where
  group : GKey
  away : Option RoundAnswer
deriving DecidableEq, Repr

/-- A peer seen on a port during a job (R87). -/
structure Peer where
  dev : BitVec 16
  port : BitVec 8
  cert : BitVec 384
deriving DecidableEq, Repr

/-- How an SPDM session ends (R51): without agreement, or agreed with this device as its requester or its responder. -/
inductive SpdmEnd where
  | failed | requester | responder
deriving DecidableEq, Repr

/-- A remote grant (R331). -/
structure Grant where
  dev : BitVec 16
  part : BitVec 8
  owner : BitVec 384
  base : DWord
  size : Nat
  canRead : Bool
  canWrite : Bool
deriving DecidableEq, Repr

/-- A remote command as its destination knows it (R149, R331): the source device, the source partition and its owner
identity, and the number by which the source names the command. -/
structure RemoteCmd where
  dev : BitVec 16
  part : BitVec 8
  owner : BitVec 384
  cmd : Nat
deriving DecidableEq, Repr

/-- What a line of a remote command says of its source (R149, R331): the owner identity of the source partition, the number
of the command, and whether the line is its last. -/
structure RemoteSource where
  owner : BitVec 384
  cmd : Nat
  last : Bool
deriving DecidableEq, Repr

/-- A reassembly context whose idle limit has passed (R37, R58): its class, and the port whose context it is, none for a
station's. -/
structure IdleContext where
  cls : BitVec 2
  link : Option Nat
deriving DecidableEq, Repr

/-- A change of owner as the device operator asks for it (R72, R73): the new owner, none for a partition without one, and
whether the operator's signature holds. -/
structure OwnerRequest where
  owner : Option (BitVec 384)
  sigOk : Bool
deriving DecidableEq, Repr

/-- A basket batch whose turn has come (R146, R193): its number, and the place in its order of an entry whose target holds
poisoned data, if there is one. -/
structure BatchTurn where
  batch : Nat
  poisoned : Option Nat
deriving DecidableEq, Repr

end Sys2Proof
end

