-- ==== Sys2Proof/Syntax.lean ====
section
/-! DEFINITION. The abstract syntax: one constructor for each row of the opcode table. A row with an encoding
carries the fields of its word (spec/11_isa_encoding.md R205 to R228, spec/15_isa_control_sync.md R291,
spec/19_isa_engines_matrix.md R322, spec/20_isa_butterfly_factor.md R346, spec/22_isa_shares.md R373), each field
as wide as the word gives it and in the word's order from high to low; a row that is an event carries the plain
data that reaches the device with it. -/

namespace Sys2Proof

/-- One step of the device: an instruction of its instruction set, or an event. -/
inductive Instr where
  /-- MOV_A, R238. Copies register a to d. -/
  | movA (x : BitVec 2) (a : BitVec 6) (d : BitVec 6)
  /-- MOV_X, R238. Copies the permuted a to d. -/
  | movX (p : BitVec 6) (t : BitVec 4) (a : BitVec 6) (d : BitVec 6)
  /-- MOV_I, R238. Writes the sign-extended immediate to d. -/
  | movI (i : BitVec 10) (d : BitVec 6)
  /-- ADD_A, R238. d = A + B modulo 2^32. -/
  | addA (y : BitVec 2) (x : BitVec 2) (b : BitVec 6) (a : BitVec 6) (d : BitVec 6)
  /-- ADD_X, R238. d = P(a) + d modulo 2^32. -/
  | addX (p : BitVec 6) (t : BitVec 4) (a : BitVec 6) (d : BitVec 6)
  /-- ADD_I, R238. d = a + sext(imm10) modulo 2^32. -/
  | addI (i : BitVec 10) (a : BitVec 6) (d : BitVec 6)
  /-- SUB_A, R238. d = A - B modulo 2^32. -/
  | subA (y : BitVec 2) (x : BitVec 2) (b : BitVec 6) (a : BitVec 6) (d : BitVec 6)
  /-- SUB_X, R238. d = P(a) - d modulo 2^32. -/
  | subX (p : BitVec 6) (t : BitVec 4) (a : BitVec 6) (d : BitVec 6)
  /-- SUB_I, R238. d = a - sext(imm10) modulo 2^32. -/
  | subI (i : BitVec 10) (a : BitVec 6) (d : BitVec 6)
  /-- MULLO_A, R238. d = low 32 bits of A times B. -/
  | mulloA (y : BitVec 2) (x : BitVec 2) (b : BitVec 6) (a : BitVec 6) (d : BitVec 6)
  /-- MULLO_X, R238. d = low 32 bits of P(a) times d. -/
  | mulloX (p : BitVec 6) (t : BitVec 4) (a : BitVec 6) (d : BitVec 6)
  /-- MULLO_I, R238. d = low 32 bits of a times sext(imm10). -/
  | mulloI (i : BitVec 10) (a : BitVec 6) (d : BitVec 6)
  /-- MULHI, R238. d = high 32 bits of the signed product. -/
  | mulhi (y : BitVec 2) (x : BitVec 2) (b : BitVec 6) (a : BitVec 6) (d : BitVec 6)
  /-- MULHU, R238. d = high 32 bits of the unsigned product. -/
  | mulhu (y : BitVec 2) (x : BitVec 2) (b : BitVec 6) (a : BitVec 6) (d : BitVec 6)
  /-- MAD_A, R238. d = d + A times B, low 32 bits. -/
  | madA (y : BitVec 2) (x : BitVec 2) (b : BitVec 6) (a : BitVec 6) (d : BitVec 6)
  /-- MAD_I, R238. d = d + a times sext(imm10), low 32 bits. -/
  | madI (i : BitVec 10) (a : BitVec 6) (d : BitVec 6)
  /-- AND_A, R241. d = A AND B. -/
  | andA (y : BitVec 2) (x : BitVec 2) (b : BitVec 6) (a : BitVec 6) (d : BitVec 6)
  /-- AND_X, R241. d = P(a) AND d. -/
  | andX (p : BitVec 6) (t : BitVec 4) (a : BitVec 6) (d : BitVec 6)
  /-- AND_I, R241. d = a AND zext(imm10). -/
  | andI (i : BitVec 10) (a : BitVec 6) (d : BitVec 6)
  /-- OR_A, R241. d = A OR B. -/
  | orA (y : BitVec 2) (x : BitVec 2) (b : BitVec 6) (a : BitVec 6) (d : BitVec 6)
  /-- OR_X, R241. d = P(a) OR d. -/
  | orX (p : BitVec 6) (t : BitVec 4) (a : BitVec 6) (d : BitVec 6)
  /-- OR_I, R241. d = a OR zext(imm10). -/
  | orI (i : BitVec 10) (a : BitVec 6) (d : BitVec 6)
  /-- XOR_A, R241. d = A XOR B. -/
  | xorA (y : BitVec 2) (x : BitVec 2) (b : BitVec 6) (a : BitVec 6) (d : BitVec 6)
  /-- XOR_X, R241. d = P(a) XOR d. -/
  | xorX (p : BitVec 6) (t : BitVec 4) (a : BitVec 6) (d : BitVec 6)
  /-- XOR_I, R241. d = a XOR zext(imm10). -/
  | xorI (i : BitVec 10) (a : BitVec 6) (d : BitVec 6)
  /-- ANDN_A, R241. d = A AND NOT B. -/
  | andnA (y : BitVec 2) (x : BitVec 2) (b : BitVec 6) (a : BitVec 6) (d : BitVec 6)
  /-- ANDN_X, R241. d = P(a) AND NOT d. -/
  | andnX (p : BitVec 6) (t : BitVec 4) (a : BitVec 6) (d : BitVec 6)
  /-- ANDN_I, R241. d = a AND NOT zext(imm10). -/
  | andnI (i : BitVec 10) (a : BitVec 6) (d : BitVec 6)
  /-- SHL_A, R241. d = A shifted left by B[4:0]. -/
  | shlA (y : BitVec 2) (x : BitVec 2) (b : BitVec 6) (a : BitVec 6) (d : BitVec 6)
  /-- SHL_I, R241. d = a shifted left by imm10 (0-31). -/
  | shlI (i : BitVec 10) (a : BitVec 6) (d : BitVec 6)
  /-- SHR_A, R241. d = A shifted right with zero fill by B[4:0]. -/
  | shrA (y : BitVec 2) (x : BitVec 2) (b : BitVec 6) (a : BitVec 6) (d : BitVec 6)
  /-- SHR_I, R241. d = a shifted right with zero fill by imm10. -/
  | shrI (i : BitVec 10) (a : BitVec 6) (d : BitVec 6)
  /-- SRA_A, R241. d = A shifted right with sign fill by B[4:0]. -/
  | sraA (y : BitVec 2) (x : BitVec 2) (b : BitVec 6) (a : BitVec 6) (d : BitVec 6)
  /-- SRA_I, R241. d = a shifted right with sign fill by imm10. -/
  | sraI (i : BitVec 10) (a : BitVec 6) (d : BitVec 6)
  /-- MIN_A, R243. d = signed minimum of A and B. -/
  | minA (y : BitVec 2) (x : BitVec 2) (b : BitVec 6) (a : BitVec 6) (d : BitVec 6)
  /-- MIN_X, R243. d = signed minimum of P(a) and d. -/
  | minX (p : BitVec 6) (t : BitVec 4) (a : BitVec 6) (d : BitVec 6)
  /-- MIN_I, R243. d = signed minimum of a and sext(imm10). -/
  | minI (i : BitVec 10) (a : BitVec 6) (d : BitVec 6)
  /-- MAX_A, R243. d = signed maximum of A and B. -/
  | maxA (y : BitVec 2) (x : BitVec 2) (b : BitVec 6) (a : BitVec 6) (d : BitVec 6)
  /-- MAX_X, R243. d = signed maximum of P(a) and d. -/
  | maxX (p : BitVec 6) (t : BitVec 4) (a : BitVec 6) (d : BitVec 6)
  /-- MAX_I, R243. d = signed maximum of a and sext(imm10). -/
  | maxI (i : BitVec 10) (a : BitVec 6) (d : BitVec 6)
  /-- MINU_A, R243. d = unsigned minimum of A and B. -/
  | minuA (y : BitVec 2) (x : BitVec 2) (b : BitVec 6) (a : BitVec 6) (d : BitVec 6)
  /-- MINU_X, R243. d = unsigned minimum of P(a) and d. -/
  | minuX (p : BitVec 6) (t : BitVec 4) (a : BitVec 6) (d : BitVec 6)
  /-- MINU_I, R243. d = unsigned minimum of a and sext(imm10). -/
  | minuI (i : BitVec 10) (a : BitVec 6) (d : BitVec 6)
  /-- MAXU_A, R243. d = unsigned maximum of A and B. -/
  | maxuA (y : BitVec 2) (x : BitVec 2) (b : BitVec 6) (a : BitVec 6) (d : BitVec 6)
  /-- MAXU_X, R243. d = unsigned maximum of P(a) and d. -/
  | maxuX (p : BitVec 6) (t : BitVec 4) (a : BitVec 6) (d : BitVec 6)
  /-- MAXU_I, R243. d = unsigned maximum of a and sext(imm10). -/
  | maxuI (i : BitVec 10) (a : BitVec 6) (d : BitVec 6)
  /-- SEQ_A, R243. d = 1 if A equals B, else 0. -/
  | seqA (y : BitVec 2) (x : BitVec 2) (b : BitVec 6) (a : BitVec 6) (d : BitVec 6)
  /-- SEQ_I, R243. d = 1 if a equals sext(imm10), else 0. -/
  | seqI (i : BitVec 10) (a : BitVec 6) (d : BitVec 6)
  /-- SNE_A, R243. d = 1 if A differs from B, else 0. -/
  | sneA (y : BitVec 2) (x : BitVec 2) (b : BitVec 6) (a : BitVec 6) (d : BitVec 6)
  /-- SNE_I, R243. d = 1 if a differs from sext(imm10), else 0. -/
  | sneI (i : BitVec 10) (a : BitVec 6) (d : BitVec 6)
  /-- SLT_A, R243. d = 1 if A is less than B, signed. -/
  | sltA (y : BitVec 2) (x : BitVec 2) (b : BitVec 6) (a : BitVec 6) (d : BitVec 6)
  /-- SLT_I, R243. d = 1 if a is less than sext(imm10), signed. -/
  | sltI (i : BitVec 10) (a : BitVec 6) (d : BitVec 6)
  /-- SLE_A, R243. d = 1 if A is at most B, signed. -/
  | sleA (y : BitVec 2) (x : BitVec 2) (b : BitVec 6) (a : BitVec 6) (d : BitVec 6)
  /-- SLE_I, R243. d = 1 if a is at most sext(imm10), signed. -/
  | sleI (i : BitVec 10) (a : BitVec 6) (d : BitVec 6)
  /-- SLTU_A, R243. d = 1 if A is less than B, unsigned. -/
  | sltuA (y : BitVec 2) (x : BitVec 2) (b : BitVec 6) (a : BitVec 6) (d : BitVec 6)
  /-- SLTU_I, R243. d = 1 if a is less than sext(imm10), unsigned. -/
  | sltuI (i : BitVec 10) (a : BitVec 6) (d : BitVec 6)
  /-- SLEU_A, R243. d = 1 if A is at most B, unsigned. -/
  | sleuA (y : BitVec 2) (x : BitVec 2) (b : BitVec 6) (a : BitVec 6) (d : BitVec 6)
  /-- SLEU_I, R243. d = 1 if a is at most sext(imm10), unsigned. -/
  | sleuI (i : BitVec 10) (a : BitVec 6) (d : BitVec 6)
  /-- SELT, R244. Writes a to d in threads where b is nonzero. -/
  | selt (y : BitVec 2) (x : BitVec 2) (b : BitVec 6) (a : BitVec 6) (d : BitVec 6)
  /-- SELF, R244. Writes a to d in threads where b is zero. -/
  | self (y : BitVec 2) (x : BitVec 2) (b : BitVec 6) (a : BitVec 6) (d : BitVec 6)
  /-- POPC, R242. d = number of set bits of A. -/
  | popc (x : BitVec 2) (a : BitVec 6) (d : BitVec 6)
  /-- CLZ, R242. d = number of leading zero bits of A. -/
  | clz (x : BitVec 2) (a : BitVec 6) (d : BitVec 6)
  /-- BREV_A, R242. d = A with its bits reversed. -/
  | brevA (x : BitVec 2) (a : BitVec 6) (d : BitVec 6)
  /-- ADD64_A, R239. Pair d = pair a + sext(b) modulo 2^64. -/
  | add64A (y : BitVec 2) (x : BitVec 2) (b : BitVec 6) (a : BitVec 6) (d : BitVec 6)
  /-- ADD64_I, R239. Pair d = pair a + sext(imm10) modulo 2^64. -/
  | add64I (i : BitVec 10) (a : BitVec 6) (d : BitVec 6)
  /-- MADW, R240. Pair d += zext(a) times zext(b) modulo 2^64. -/
  | madw (y : BitVec 2) (x : BitVec 2) (b : BitVec 6) (a : BitVec 6) (d : BitVec 6)
  /-- FADD_A, R245. d = FP32 A + B rounded in CTX_ROUND. -/
  | faddA (y : BitVec 2) (x : BitVec 2) (b : BitVec 6) (a : BitVec 6) (d : BitVec 6)
  /-- FADD_X, R245. d = FP32 P(a) + d. -/
  | faddX (p : BitVec 6) (t : BitVec 4) (a : BitVec 6) (d : BitVec 6)
  /-- FSUB_A, R245. d = FP32 A - B. -/
  | fsubA (y : BitVec 2) (x : BitVec 2) (b : BitVec 6) (a : BitVec 6) (d : BitVec 6)
  /-- FSUB_X, R245. d = FP32 P(a) - d. -/
  | fsubX (p : BitVec 6) (t : BitVec 4) (a : BitVec 6) (d : BitVec 6)
  /-- FMUL_A, R245. d = FP32 A times B. -/
  | fmulA (y : BitVec 2) (x : BitVec 2) (b : BitVec 6) (a : BitVec 6) (d : BitVec 6)
  /-- FMUL_X, R245. d = FP32 P(a) times d. -/
  | fmulX (p : BitVec 6) (t : BitVec 4) (a : BitVec 6) (d : BitVec 6)
  /-- FMA_A, R245. d = d + A times B with one rounding. -/
  | fmaA (y : BitVec 2) (x : BitVec 2) (b : BitVec 6) (a : BitVec 6) (d : BitVec 6)
  /-- FMA_X, R245. d = d + P(a) times d with one rounding. -/
  | fmaX (p : BitVec 6) (t : BitVec 4) (a : BitVec 6) (d : BitVec 6)
  /-- FMIN_A, R246. d = FP32 minimum of A and B, NaN if either is NaN. -/
  | fminA (y : BitVec 2) (x : BitVec 2) (b : BitVec 6) (a : BitVec 6) (d : BitVec 6)
  /-- FMIN_X, R246. d = FP32 minimum of P(a) and d. -/
  | fminX (p : BitVec 6) (t : BitVec 4) (a : BitVec 6) (d : BitVec 6)
  /-- FMAX_A, R246. d = FP32 maximum of A and B, NaN if either is NaN. -/
  | fmaxA (y : BitVec 2) (x : BitVec 2) (b : BitVec 6) (a : BitVec 6) (d : BitVec 6)
  /-- FMAX_X, R246. d = FP32 maximum of P(a) and d. -/
  | fmaxX (p : BitVec 6) (t : BitVec 4) (a : BitVec 6) (d : BitVec 6)
  /-- FSEQ, R247. d = 1 if FP32 A equals B. -/
  | fseq (y : BitVec 2) (x : BitVec 2) (b : BitVec 6) (a : BitVec 6) (d : BitVec 6)
  /-- FSLT, R247. d = 1 if FP32 A is less than B. -/
  | fslt (y : BitVec 2) (x : BitVec 2) (b : BitVec 6) (a : BitVec 6) (d : BitVec 6)
  /-- FSLE, R247. d = 1 if FP32 A is at most B. -/
  | fsle (y : BitVec 2) (x : BitVec 2) (b : BitVec 6) (a : BitVec 6) (d : BitVec 6)
  /-- FSCALE_A, R248. d = A times 2^B, rounded once. -/
  | fscaleA (y : BitVec 2) (x : BitVec 2) (b : BitVec 6) (a : BitVec 6) (d : BitVec 6)
  /-- FSCALE_I, R248. d = a times 2^sext(imm10), rounded once. -/
  | fscaleI (i : BitVec 10) (a : BitVec 6) (d : BitVec 6)
  /-- BADD2_A, R249. Packed BF16 add of A and B per half, RNE. -/
  | badd2A (y : BitVec 2) (x : BitVec 2) (b : BitVec 6) (a : BitVec 6) (d : BitVec 6)
  /-- BADD2_X, R249. Packed BF16 add of P(a) and d per half. -/
  | badd2X (p : BitVec 6) (t : BitVec 4) (a : BitVec 6) (d : BitVec 6)
  /-- BMUL2_A, R249. Packed BF16 multiply of A and B per half. -/
  | bmul2A (y : BitVec 2) (x : BitVec 2) (b : BitVec 6) (a : BitVec 6) (d : BitVec 6)
  /-- BMUL2_X, R249. Packed BF16 multiply of P(a) and d per half. -/
  | bmul2X (p : BitVec 6) (t : BitVec 4) (a : BitVec 6) (d : BitVec 6)
  /-- BFMA2_A, R249. Packed BF16 fused multiply-add into d per half. -/
  | bfma2A (y : BitVec 2) (x : BitVec 2) (b : BitVec 6) (a : BitVec 6) (d : BitVec 6)
  /-- BFMA2_X, R249. Packed BF16 fused multiply-add of P(a) and d into d. -/
  | bfma2X (p : BitVec 6) (t : BitVec 4) (a : BitVec 6) (d : BitVec 6)
  /-- HFMA2_A, R249. Packed F16 fused multiply-add into d per half. -/
  | hfma2A (y : BitVec 2) (x : BitVec 2) (b : BitVec 6) (a : BitVec 6) (d : BitVec 6)
  /-- HFMA2_X, R249. Packed F16 fused multiply-add of P(a) and d into d. -/
  | hfma2X (p : BitVec 6) (t : BitVec 4) (a : BitVec 6) (d : BitVec 6)
  /-- HADD2_A, R249. Packed F16 add of A and B per half. -/
  | hadd2A (y : BitVec 2) (x : BitVec 2) (b : BitVec 6) (a : BitVec 6) (d : BitVec 6)
  /-- HADD2_X, R249. Packed F16 add of P(a) and d per half. -/
  | hadd2X (p : BitVec 6) (t : BitVec 4) (a : BitVec 6) (d : BitVec 6)
  /-- IADD2S_A, R250. Packed int16 saturating add of A and B. -/
  | iadd2sA (y : BitVec 2) (x : BitVec 2) (b : BitVec 6) (a : BitVec 6) (d : BitVec 6)
  /-- IADD2S_X, R250. Packed int16 saturating add of P(a) and d. -/
  | iadd2sX (p : BitVec 6) (t : BitVec 4) (a : BitVec 6) (d : BitVec 6)
  /-- ISUB2S_A, R250. Packed int16 saturating subtract A - B. -/
  | isub2sA (y : BitVec 2) (x : BitVec 2) (b : BitVec 6) (a : BitVec 6) (d : BitVec 6)
  /-- ISUB2S_X, R250. Packed int16 saturating subtract P(a) - d. -/
  | isub2sX (p : BitVec 6) (t : BitVec 4) (a : BitVec 6) (d : BitVec 6)
  /-- IDOT2_A, R251. d = sat32(d + two-term int16 dot product of A and B). -/
  | idot2A (y : BitVec 2) (x : BitVec 2) (b : BitVec 6) (a : BitVec 6) (d : BitVec 6)
  /-- IDOT2_X, R251. d = sat32(d + int16 dot product of P(a) and d). -/
  | idot2X (p : BitVec 6) (t : BitVec 4) (a : BitVec 6) (d : BitVec 6)
  /-- ISHR2R_A, R253. Shifts each int16 half by signed B[4:0], rounding right shifts and saturating left shifts. -/
  | ishr2rA (y : BitVec 2) (x : BitVec 2) (b : BitVec 6) (a : BitVec 6) (d : BitVec 6)
  /-- ISHR2R_I, R253. Shifts each int16 half by a signed 5-bit immediate. -/
  | ishr2rI (i : BitVec 5) (a : BitVec 6) (d : BitVec 6)
  /-- IPACK2S, R254. Packs sat16(A) and sat16(B) into the two halves of d. -/
  | ipack2s (y : BitVec 2) (x : BitVec 2) (b : BitVec 6) (a : BitVec 6) (d : BitVec 6)
  /-- IDOT4_A, R252. d = sat32(d + four-term signed byte dot product of A and B). -/
  | idot4A (y : BitVec 2) (x : BitVec 2) (b : BitVec 6) (a : BitVec 6) (d : BitVec 6)
  /-- IDOT4_X, R252. d = sat32(d + signed byte dot product of P(a) and d). -/
  | idot4X (p : BitVec 6) (t : BitVec 4) (a : BitVec 6) (d : BitVec 6)
  /-- CVT, R257. Converts each source element of a to the destination type in the selected rounding. -/
  | cvt (m : BitVec 2) (t : BitVec 4) (s : BitVec 4) (a : BitVec 6) (d : BitVec 6)
  /-- SFU, R261. Evaluates the selected special function on each element of a, correctly rounded. -/
  | sfu (f : BitVec 2) (n : BitVec 4) (a : BitVec 6) (d : BitVec 6)
  /-- REDG, R264. Reduces the issuing threads' values by the selected code and writes the result to each. -/
  | redg (c : BitVec 4) (a : BitVec 6) (d : BitVec 6)
  /-- SCANG, R266. Writes each issuing thread the selected prefix scan over the issue set in ascending L. -/
  | scang (c : BitVec 4) (a : BitVec 6) (d : BitVec 6)
  /-- SMXACC, R268. Folds value a into the running softmax state in pair d. -/
  | smxacc (x : BitVec 2) (a : BitVec 6) (d : BitVec 6)
  /-- SMXNORM, R269. d = EXP(a - m) / s with (m, s) from pair b. -/
  | smxnorm (y : BitVec 2) (x : BitVec 2) (b : BitVec 6) (a : BitVec 6) (d : BitVec 6)
  /-- TBL, R270. d = word a[7:0] of the team's live lookup table k. -/
  | tbl (k : BitVec 2) (a : BitVec 6) (d : BitVec 6)
  /-- LGET, R258. Reads register a of the group thread selected by b, or a part of it. -/
  | lget (y : BitVec 2) (x : BitVec 2) (b : BitVec 6) (a : BitVec 6) (d : BitVec 6)
  /-- RAND, R259. d = omix(seed, L times 2^32 + a + imm). -/
  | rand (i : BitVec 10) (a : BitVec 6) (d : BitVec 6)
  /-- MOV_16, R207. 16-bit form of A-form MOV d, s. -/
  | mov16 (l : BitVec 1) (s : BitVec 5) (d : BitVec 5)
  /-- ADD_16, R207. 16-bit form of ADD d, d, s. -/
  | add16 (l : BitVec 1) (s : BitVec 5) (d : BitVec 5)
  /-- SUB_16, R207. 16-bit form of SUB d, d, s. -/
  | sub16 (l : BitVec 1) (s : BitVec 5) (d : BitVec 5)
  /-- AND_16, R207. 16-bit form of AND d, d, s. -/
  | and16 (l : BitVec 1) (s : BitVec 5) (d : BitVec 5)
  /-- OR_16, R207. 16-bit form of OR d, d, s. -/
  | or16 (l : BitVec 1) (s : BitVec 5) (d : BitVec 5)
  /-- XOR_16, R207. 16-bit form of XOR d, d, s. -/
  | xor16 (l : BitVec 1) (s : BitVec 5) (d : BitVec 5)
  /-- SHL_16, R207. 16-bit form of SHL d, d, s. -/
  | shl16 (l : BitVec 1) (s : BitVec 5) (d : BitVec 5)
  /-- SHR_16, R207. 16-bit form of SHR d, d, s. -/
  | shr16 (l : BitVec 1) (s : BitVec 5) (d : BitVec 5)
  /-- SRA_16, R207. 16-bit form of SRA d, d, s. -/
  | sra16 (l : BitVec 1) (s : BitVec 5) (d : BitVec 5)
  /-- MULLO_16, R207. 16-bit form of MULLO d, d, s. -/
  | mullo16 (l : BitVec 1) (s : BitVec 5) (d : BitVec 5)
  /-- FADD_16, R207. 16-bit form of FADD d, d, s. -/
  | fadd16 (l : BitVec 1) (s : BitVec 5) (d : BitVec 5)
  /-- FSUB_16, R207. 16-bit form of FSUB d, d, s. -/
  | fsub16 (l : BitVec 1) (s : BitVec 5) (d : BitVec 5)
  /-- FMUL_16, R207. 16-bit form of FMUL d, d, s. -/
  | fmul16 (l : BitVec 1) (s : BitVec 5) (d : BitVec 5)
  /-- FMAX_16, R207. 16-bit form of FMAX d, d, s. -/
  | fmax16 (l : BitVec 1) (s : BitVec 5) (d : BitVec 5)
  /-- FMIN_16, R207. 16-bit form of FMIN d, d, s. -/
  | fmin16 (l : BitVec 1) (s : BitVec 5) (d : BitVec 5)
  /-- MOVI_16, R207. 16-bit move of a 6-bit signed immediate to d. -/
  | movi16 (i : BitVec 6) (d : BitVec 5)
  /-- MOVI, R228. d = sext(imm16). -/
  | movi (h : BitVec 16) (d : BitVec 6)
  /-- MOVHI, R228. d[31:16] = imm16, low half unchanged. -/
  | movhi (h : BitVec 16) (d : BitVec 6)
  /-- ADDI, R228. d = d + sext(imm16) modulo 2^32. -/
  | addi (h : BitVec 16) (d : BitVec 6)
  /-- MOVBF, R228. d = imm16 shifted left 16. -/
  | movbf (h : BitVec 16) (d : BitVec 6)
  /-- LPC, R228. d = PC + 2 times sext(imm16). -/
  | lpc (h : BitVec 16) (d : BitVec 6)
  /-- LDG_B, R278. Loads a global byte zero-extended into d, marked pending. -/
  | ldgB (k : BitVec 11) (a : BitVec 6) (d : BitVec 6)
  /-- LDG_SB, R278. Loads a global byte sign-extended into d. -/
  | ldgSb (k : BitVec 11) (a : BitVec 6) (d : BitVec 6)
  /-- LDG_H, R278. Loads a global halfword zero-extended into d. -/
  | ldgH (k : BitVec 11) (a : BitVec 6) (d : BitVec 6)
  /-- LDG_SH, R278. Loads a global halfword sign-extended into d. -/
  | ldgSh (k : BitVec 11) (a : BitVec 6) (d : BitVec 6)
  /-- LDG_W, R278. Loads a global word into d. -/
  | ldgW (k : BitVec 11) (a : BitVec 6) (d : BitVec 6)
  /-- LDG_D, R278. Loads a global doubleword into pair d. -/
  | ldgD (k : BitVec 11) (a : BitVec 6) (d : BitVec 6)
  /-- LDG_Q, R278. Loads 16 global bytes into quad d. -/
  | ldgQ (k : BitVec 11) (a : BitVec 6) (d : BitVec 6)
  /-- LDS_H, R278. Loads a scratch halfword zero-extended into d. -/
  | ldsH (k : BitVec 11) (a : BitVec 6) (d : BitVec 6)
  /-- LDS_W, R278. Loads a scratch word into d. -/
  | ldsW (k : BitVec 11) (a : BitVec 6) (d : BitVec 6)
  /-- LDS_D, R278. Loads a scratch doubleword into pair d. -/
  | ldsD (k : BitVec 11) (a : BitVec 6) (d : BitVec 6)
  /-- LDS_Q, R278. Loads 16 scratch bytes into quad d. -/
  | ldsQ (k : BitVec 11) (a : BitVec 6) (d : BitVec 6)
  /-- STG_B, R279. Stores d[7:0] to global memory in guarded threads. -/
  | stgB (k : BitVec 4) (n : BitVec 1) (g : BitVec 6) (a : BitVec 6) (d : BitVec 6)
  /-- STG_H, R279. Stores d[15:0] to global memory. -/
  | stgH (k : BitVec 4) (n : BitVec 1) (g : BitVec 6) (a : BitVec 6) (d : BitVec 6)
  /-- STG_W, R279. Stores word d to global memory. -/
  | stgW (k : BitVec 4) (n : BitVec 1) (g : BitVec 6) (a : BitVec 6) (d : BitVec 6)
  /-- STG_D, R279. Stores pair d to global memory. -/
  | stgD (k : BitVec 4) (n : BitVec 1) (g : BitVec 6) (a : BitVec 6) (d : BitVec 6)
  /-- STG_Q, R279. Stores quad d to global memory. -/
  | stgQ (k : BitVec 4) (n : BitVec 1) (g : BitVec 6) (a : BitVec 6) (d : BitVec 6)
  /-- STS_H, R279. Stores d[15:0] to scratch. -/
  | stsH (k : BitVec 4) (n : BitVec 1) (g : BitVec 6) (a : BitVec 6) (d : BitVec 6)
  /-- STS_W, R279. Stores word d to scratch. -/
  | stsW (k : BitVec 4) (n : BitVec 1) (g : BitVec 6) (a : BitVec 6) (d : BitVec 6)
  /-- STS_D, R279. Stores pair d to scratch. -/
  | stsD (k : BitVec 4) (n : BitVec 1) (g : BitVec 6) (a : BitVec 6) (d : BitVec 6)
  /-- STS_Q, R279. Stores quad d to scratch. -/
  | stsQ (k : BitVec 4) (n : BitVec 1) (g : BitVec 6) (a : BitVec 6) (d : BitVec 6)
  /-- AADD, R280. Atomically adds d to the word and returns the old value. -/
  | aadd (k : BitVec 4) (n : BitVec 1) (g : BitVec 6) (a : BitVec 6) (d : BitVec 6)
  /-- AMIN, R280. Atomic signed minimum, returning the old value. -/
  | amin (k : BitVec 4) (n : BitVec 1) (g : BitVec 6) (a : BitVec 6) (d : BitVec 6)
  /-- AMAX, R280. Atomic signed maximum, returning the old value. -/
  | amax (k : BitVec 4) (n : BitVec 1) (g : BitVec 6) (a : BitVec 6) (d : BitVec 6)
  /-- AAND, R280. Atomic AND, returning the old value. -/
  | aand (k : BitVec 4) (n : BitVec 1) (g : BitVec 6) (a : BitVec 6) (d : BitVec 6)
  /-- AOR, R280. Atomic OR, returning the old value. -/
  | aor (k : BitVec 4) (n : BitVec 1) (g : BitVec 6) (a : BitVec 6) (d : BitVec 6)
  /-- AXOR, R280. Atomic XOR, returning the old value. -/
  | axor (k : BitVec 4) (n : BitVec 1) (g : BitVec 6) (a : BitVec 6) (d : BitVec 6)
  /-- AXCH, R280. Atomic exchange of a word, returning the old value. -/
  | axch (k : BitVec 4) (n : BitVec 1) (g : BitVec 6) (a : BitVec 6) (d : BitVec 6)
  /-- ACAS, R280. Atomic compare-and-swap of a word with new in d and compare in d+1. -/
  | acas (k : BitVec 4) (n : BitVec 1) (g : BitVec 6) (a : BitVec 6) (d : BitVec 6)
  /-- AFADD, R282. Atomic FP32 add rounded RNE, returning the old value. -/
  | afadd (k : BitVec 4) (n : BitVec 1) (g : BitVec 6) (a : BitVec 6) (d : BitVec 6)
  /-- DRED, R283. Appends one deterministic reduction entry per guarded lane to the basket. -/
  | dred (k : BitVec 4) (n : BitVec 1) (g : BitVec 6) (a : BitVec 6) (d : BitVec 6)
  /-- ACAS_D, R280. Atomic 64-bit compare-and-swap with new in pair d and compare in pair d+2. -/
  | acasD (k : BitVec 4) (n : BitVec 1) (g : BitVec 6) (a : BitVec 6) (d : BitVec 6)
  /-- AXCH_D, R280. Atomic 64-bit exchange, returning the old value. -/
  | axchD (k : BitVec 4) (n : BitVec 1) (g : BitVec 6) (a : BitVec 6) (d : BitVec 6)
  /-- BRA, R292. Taken threads move to PC + 2 times sext(off18). -/
  | bra (k : BitVec 18) (n : BitVec 1) (g : BitVec 6)
  /-- CALL, R292. Taken threads write lk = PC + 4 and branch relative. -/
  | call (k : BitVec 18) (n : BitVec 1) (g : BitVec 6)
  /-- BRX, R292. Taken threads jump to the PC held in the named register. -/
  | brx (r : BitVec 6) (n : BitVec 1) (g : BitVec 6)
  /-- RET, R292. Taken threads jump to lk. -/
  | ret (n : BitVec 1) (g : BitVec 6)
  /-- EXIT, R292. Threads with a true guard exit. -/
  | exit (n : BitVec 1) (g : BitVec 6)
  /-- BRK, R293. Traps BREAK with detail 0 when some thread's guard is true. -/
  | brk (n : BitVec 1) (g : BitVec 6)
  /-- TLOAD, R328. Copies a box from global memory into scratch, zero-filling outside the extents. -/
  | tload (f : BitVec 2) (w : BitVec 6) (c : BitVec 6) (s : BitVec 6)
  /-- TSTORE, R328. Copies a scratch box to global memory, converting under CONV. -/
  | tstore (f : BitVec 2) (w : BitVec 6) (c : BitVec 6) (s : BitVec 6)
  /-- TGATHER, R328. Loads a box whose dim-1 rows come from an index vector. -/
  | tgather (f : BitVec 2) (w : BitVec 6) (c : BitVec 6) (s : BitVec 6)
  /-- TZERO, R329. Zeroes a global box through zero flags, or a scratch box. -/
  | tzero (f : BitVec 1) (w : BitVec 6) (c : BitVec 6) (s : BitVec 6)
  /-- TPREF, R329. Brings the box's global lines into L2 without changing values. -/
  | tpref (w : BitVec 6) (c : BitVec 6) (s : BitVec 6)
  /-- XPUT, R331. Writes a scratch box into a granted remote partition over Skovey links. -/
  | xput (f : BitVec 2) (w : BitVec 6) (c : BitVec 6) (s : BitVec 6)
  /-- XGET, R331. Reads a box from a granted remote partition into scratch. -/
  | xget (f : BitVec 2) (w : BitVec 6) (c : BitVec 6) (s : BitVec 6)
  /-- TSCAT, R328. Stores a scratch box to global rows chosen by an index vector. -/
  | tscat (f : BitVec 2) (w : BitVec 6) (c : BitVec 6) (s : BitVec 6)
  /-- MMA, R339. Adds the product of scratch tiles A and B into an accumulator tile. -/
  | mma (f : BitVec 4) (w : BitVec 6) (c : BitVec 6) (s : BitVec 6)
  /-- MMAR, R340. Adds the product of A from 64 threads' registers and scratch B into 64 tile rows. -/
  | mmar (f : BitVec 1) (f2 : BitVec 2) (w : BitVec 6) (c : BitVec 6) (s : BitVec 6)
  /-- MMAS, R341. Adds the product of dense A and structured-sparse B into a tile. -/
  | mmas (f : BitVec 4) (w : BitVec 6) (c : BitVec 6) (s : BitVec 6)
  /-- SMMA, R379. Multiplies shared matrices through one stile round using a MAT hamper entry. -/
  | smma (f : BitVec 1) (w : BitVec 6) (c : BitVec 6) (s : BitVec 6)
  /-- ACCALLOC, R337. Requests n contiguous accumulator slots on a pair, blocking until granted. -/
  | accalloc (f : BitVec 5) (w : BitVec 6)
  /-- ACCFREE, R338. Releases the slots of a handle after earlier commands on them complete. -/
  | accfree (w : BitVec 6)
  /-- ACCLD, R344. Loads a whole accumulator tile from scratch, widening to FP32. -/
  | accld (w : BitVec 6) (c : BitVec 6) (s : BitVec 6)
  /-- ACCST, R344. Stores a whole accumulator tile to scratch through an epilogue and conversion. -/
  | accst (f : BitVec 3) (w : BitVec 6) (c : BitVec 6) (s : BitVec 6)
  /-- BFLY, R350. Performs one FFT stage of a plan on the rows of a tile. -/
  | bfly (f : BitVec 5) (w : BitVec 6) (s : BitVec 6)
  /-- BTWID, R353. Multiplies tile elements by four-step twiddles. -/
  | btwid (f : BitVec 1) (w : BitVec 6) (s : BitVec 6)
  /-- BREV_ENG, R352. Reorders tile row elements by the plan's digit reversal. -/
  | brevEng (f : BitVec 1) (w : BitVec 6) (s : BitVec 6)
  /-- ATRANS, R354. Transposes the complex elements of a tile. -/
  | atrans (w : BitVec 6)
  /-- LUBEG, R355. Opens a factorising session, loading the tile into the arrays. -/
  | lubeg (w : BitVec 6) (s : BitVec 6)
  /-- LUSTEP, R357. Eliminates column k with the chosen or committed pivot. -/
  | lustep (w : BitVec 6) (s : BitVec 6)
  /-- LUCAND, R360. Writes the pivot key of the tile's best row and exports that row. -/
  | lucand (w : BitVec 6) (c : BitVec 6) (s : BitVec 6)
  /-- LUCOMMIT, R361. Commits the winning global row as the pivot of step k. -/
  | lucommit (w : BitVec 6) (c : BitVec 6) (s : BitVec 6)
  /-- LUEND, R362. Closes the session, writing the tile back in logical row order and the output record. -/
  | luend (w : BitVec 6) (c : BitVec 6) (s : BitVec 6)
  /-- SMUL, R374. Multiplies shares using one MUL triple per thread in one stile round. -/
  | smul (f : BitVec 2) (w : BitVec 6) (c : BitVec 6) (s : BitVec 6)
  /-- STRUNC, R375. Divides a shared value by 2^TSHIFT using a TRUNC pair. -/
  | strunc (f : BitVec 2) (w : BitVec 6) (s : BitVec 6)
  /-- SLTZ, R376. Produces shares of the sign test of a shared value over several rounds. -/
  | sltz (f : BitVec 2) (w : BitVec 6) (s : BitVec 6)
  /-- SLUT, R377. Looks up a shared byte in a team table using a LUT8 entry. -/
  | slut (t : BitVec 2) (f : BitVec 2) (w : BitVec 6) (s : BitVec 6)
  /-- SOPEN, R378. Reveals a shared value to the parties the policy names. -/
  | sopen (f : BitVec 2) (w : BitVec 6) (s : BitVec 6)
  /-- ACCROW, R345. Scales each tile row by a factor read from scratch. -/
  | accrow (w : BitVec 6) (c : BitVec 6) (s : BitVec 6)
  /-- NOP, R291. Does nothing. -/
  | nop
  /-- BARG, R297. Blocks each thread until every non-exited thread of the group has issued BARG. -/
  | barg
  /-- BART, R300. Arrives at a team barrier and waits for the phase to complete. -/
  | bart (i : BitVec 8)
  /-- BARARV, R300. Arrives at a team barrier and records the phase without blocking. -/
  | bararv (i : BitVec 8)
  /-- BARWT, R300. Blocks until the thread's recorded phase of the barrier has completed. -/
  | barwt (i : BitVec 4)
  /-- WAITC, R294. Blocks each thread until its outstanding counts are within the limits. -/
  | waitc (i : BitVec 10)
  /-- WAITW, R295. Blocks until a global word differs from d, then writes it to d. -/
  | waitw (a : BitVec 6) (d : BitVec 6)
  /-- SWAIT, R296. Blocks until a cairn's GEN differs from d, writing it, or traps on ERR. -/
  | swait (a : BitVec 6) (d : BitVec 6)
  /-- SYNCSET, R296. Sets a cairn's TARGET and clears COUNT and FLAGS. -/
  | syncset (a : BitVec 6) (d : BitVec 6)
  /-- MBR, R302. Takes the oldest word of mailbox k, blocking while it is empty. -/
  | mbr (k : BitVec 3) (d : BitVec 6)
  /-- MBW, R302. Appends a to mailbox k, blocking while it is full. -/
  | mbw (k : BitVec 3) (a : BitVec 6)
  /-- QROUTE, R303. Sets the thread's message route from pair a. -/
  | qroute (a : BitVec 6)
  /-- QSTAT, R307. Writes a queue or route statistic selected by the code. -/
  | qstat (i : BitVec 10) (d : BitVec 6)
  /-- YIELD, R308. Stops the group after retiring if its yield request is set. -/
  | yield
  /-- NAP, R308. Blocks each thread for k times 16 resident cycles. -/
  | nap (i : BitVec 10)
  /-- REGGROW, R122. Requests a larger register budget for the group, blocking until granted or failed. -/
  | reggrow (w : BitVec 1) (n : BitVec 6) (d : BitVec 6)
  /-- REGSHRINK, R122. Reduces the group's register budget, releasing registers. -/
  | regshrink (n : BitVec 6) (d : BitVec 6)
  /-- IDENT, R229. Writes the identity value selected by the code. -/
  | ident (i : BitVec 10) (d : BitVec 6)
  /-- TRAP, R312. Stops the group with USER_TRAP and a as detail. -/
  | trap (a : BitVec 6)
  /-- FLAGRD, R311. Writes the thread's or group's sticky flags to d. -/
  | flagrd (i : BitVec 10) (d : BitVec 6)
  /-- FLAGCLR, R311. Clears the mask bits in thread and group flags. -/
  | flagclr (i : BitVec 7)
  /-- CSRRD, R230. Reads a context register. -/
  | csrrd (i : BitVec 10) (d : BitVec 6)
  /-- CSRWR, R230. Writes a context register, visible to other threads within 256 cycles. -/
  | csrwr (i : BitVec 10) (a : BitVec 6)
  /-- ELECT, R310. Writes 1 to the lowest-L thread of the issue set and 0 to the others. -/
  | elect (d : BitVec 6)
  /-- VOTE, R310. Writes the same vote result over a to every issuing thread. -/
  | vote (i : BitVec 10) (a : BitVec 6) (d : BitVec 6)
  /-- DFLUSH, R314. Applies the basket entries of the issue set as one batch and retires after. -/
  | dflush
  /-- TBLLD, R271. Fills a lookup table's fill buffer from 1,024 scratch bytes. -/
  | tblld (k : BitVec 2) (a : BitVec 6)
  /-- STMAP, R287. Maps a run of team blocks as a stash window onto a global range. -/
  | stmap (i : BitVec 10) (a : BitVec 6) (d : BitVec 6)
  /-- STFLUSH, R288. Writes back and unmaps the stash window holding the address. -/
  | stflush (a : BitVec 6)
  /-- XFENCE, R150. Retires only when the group's earlier remote commands have completed. -/
  | xfence
  /-- LAUNCH, R313. Copies a node record into a device queue of the context and returns a status. -/
  | launch (q : BitVec 5) (a : BitVec 6) (d : BitVec 6)
  /-- MARK, R315. Writes a trace record to the context trace ring if enabled. -/
  | mark (i : BitVec 10) (a : BitVec 6)
  /-- PERFRD, R316. Reads a performance counter of the issuing group. -/
  | perfrd (i : BitVec 10) (d : BitVec 6)
  /-- DWSEL, R317. Selects a STOPPED group of the context on this core by thread L. -/
  | dwsel (a : BitVec 6) (d : BitVec 6)
  /-- DWRD, R317. Reads a debug-window word of the selected group. -/
  | dwrd (a : BitVec 6) (d : BitVec 6)
  /-- DWWR, R184. Writes a debug-window word of the selected group. -/
  | dwwr (a : BitVec 6) (d : BitVec 6)
  /-- DWRES, R185. Resumes the trapped issue set by retry, skip or a new PC and clears the stop flag. -/
  | dwres (i : BitVec 10) (a : BitVec 6)
  /-- DWKILL, R317. Exits every thread of the trapped group. -/
  | dwkill
  /-- DEVICE_RESET, R17. Power-on or device reset starts boot ROM, which runs the boot stages of Table 1.3 in order. -/
  | deviceReset
  /-- FIRMWARE_IMAGE_RECEIVED, R15. A fetched firmware image is checked for both signatures and the security version, and is accepted or rejected so that the next source is tried. -/
  | firmwareImageReceived (rsaOk slhOk : Bool) (version : Nat)
  /-- DIE_POWER_UP, R11. The stagger timer powers up the next die in ascending order, 2 ms after the previous one. -/
  | diePowerUp
  /-- CLUSTER_POWER_UP, R11. The stagger timer powers up the next cluster of a die, 50 us after the previous one. -/
  | clusterPowerUp (die : Nat)
  /-- BOOT_STAGE_COMPLETE, R17. A boot stage that took time, such as HBM training or link training, ends and the next stage starts, or the sequence stops in BOOT_FAIL. -/
  | bootStageComplete (ok : Bool)
  /-- COLUMN_RAMP_STEP, R11. Every 175 cycles of a ramp, a cluster enables 16 more matrix array columns, until all 128 run. -/
  | columnRampStep (cluster : Nat)
  /-- LIFECYCLE_TRANSITION, R19. An authorised lifecycle request terminates contexts, burns the state and WIPE_SET, zeroises keys, wipes memories, burns WIPE_DONE and restarts boot; other requests are refused. -/
  | lifecycleTransition (target : BitVec 2) (signer : Nat) (sigOk : Bool) (opKey : BitVec 384)
  /-- MCTP_STATUS_REQUEST, R16. An MCTP status request on the management port is answered, including the failed boot stage number. -/
  | mctpStatusRequest
  /-- PLDM_FIRMWARE_UPDATE, R14. A PLDM firmware-update request over MCTP delivers a firmware image to the device. -/
  | pldmFirmwareUpdate (rsaOk slhOk : Bool) (version : Nat)
  /-- PLDM_MONITORING, R14. A PLDM monitoring request is answered with device reports such as corrected error counts. -/
  | pldmMonitoring
  /-- SPDM_DEVICE_AUTHENTICATION, R14. An SPDM request on the management port authenticates the device and returns its certificates. -/
  | spdmDeviceAuthentication (slot : Nat)
  /-- FLIT_INJECT, R28. A station with a flit ready injects it into an empty, freed or self-reserved slot, choosing the class by the suspension and bulk-floor rules. -/
  | flitInject (spine : Bool) (die st loop : Nat) (ready : List Packet)
  /-- SLOT_RESERVE, R28. A station that has found no usable slot for one lap reserves the next unreserved passing slot. -/
  | slotReserve (spine : Bool) (die st loop : Nat)
  /-- FLIT_PASS_STATION, R27. A flit passes a station, which checks and corrects its sideband, payload and slot header. -/
  | flitPassStation (spine : Bool) (die st loop : Nat) (err : FlitError)
  /-- FLIT_AT_DESTINATION, R30. A flit passes its destination, which ejects it into the reassembly context or refuses it for another lap. -/
  | flitAtDestination (spine : Bool) (die st loop : Nat) (full busy : Bool)
  /-- REASSEMBLY_IDLE_TIMEOUT, R37. An OPEN context that accepts no flit for 2^16 f-cycles drops its flits, advances E and reports an uncorrectable fabric error. -/
  | reassemblyIdleTimeout (die st srcDie srcSt : Nat) (idle : IdleContext)
  /-- REASSEMBLY_AHEAD_TIMEOUT, R37. An IDLE context that has refused an ahead flit for 2^16 f-cycles jumps E to that tag and reports an uncorrectable fabric error. -/
  | reassemblyAheadTimeout (die st srcDie srcSt : Nat) (cls : BitVec 2)
  /-- LINK_FRAME_SEND, R46. A link sender emits the frame of each frame time: a sequenced or replayed flit, an unsequenced K flit, a NULL or a hold frame. -/
  | linkFrameSend (port : Nat)
  /-- LINK_FLIT_RECEIVE, R55. A received link flit is authenticated and accepted, acted on or dropped with a NAK by the receiver state table, and its ACK is taken. -/
  | linkFlitReceive (port : Nat) (frame : Frame) (room : Bool)
  /-- NAK_RECEIVE, R56. A NAK(E) releases acknowledged flits and restarts sequenced transmission from E, unless already restarted; 16 NAKs for one E take the link down. -/
  | nakReceive (port : Nat) (seq : BitVec 24)
  /-- NAK_RESEND_TIMEOUT, R55. A receiver in DROPPING with no acceptance for 2,048 f-cycles since its last NAK resends NAK(E). -/
  | nakResendTimeout (port : Nat)
  /-- PAUSE_RECEIVE, R59. A PAUSE(c) stops the sender from starting new flits of class c. -/
  | pauseReceive (port : Nat) (cls : BitVec 2)
  /-- RESUME_RECEIVE, R59. A RESUME(c) lets the sender start flits of class c again. -/
  | resumeReceive (port : Nat) (cls : BitVec 2)
  /-- FLOW_STATE_REPEAT, R59. Every 1 us a receiving port repeats its current PAUSE or RESUME state for each class. -/
  | flowStateRepeat (port : Nat)
  /-- KEYSW_RECEIVE, R54. A KEYSW accepted in sequence makes the named slot ACTIVE and the old slot EMPTY; an epoch mismatch takes the link down. -/
  | keyswReceive (port : Nat) (slot : Bool) (epoch : Word)
  /-- LINK_ABORT_RECEIVE, R58. A link ABORT discards the held flits of the named link packet. -/
  | linkAbortReceive (port : Nat) (cls : BitVec 2) (tag : BitVec 8)
  /-- KEY_SWITCH_POINT, R53. The active slot's counter reaches T; the sender sends KEYSW and switches slots if the other is LOADED, or else sets KEYLATE. -/
  | keySwitchPoint (port : Nat)
  /-- KEY_HOLD_POINT, R53. The active slot's counter reaches limit minus 1 without a switch; the sender sends hold frames until a key is loaded. -/
  | keyHoldPoint (port : Nat)
  /-- KEY_LOAD_TIMEOUT, R53. No key is loaded within 10 ms of KEYLATE, and the link goes down. -/
  | keyLoadTimeout (port : Nat)
  /-- KEY_LOAD, R54. The system cores load the next key into both ends' EMPTY slots once the sender holds an ACK covering the KEYSW. -/
  | keyLoad (port : Nat) (rx slot : Bool) (key : BitVec 256) (epoch salt : Word)
  /-- LINK_KEY_AGREEMENT, R51. The system cores run an SPDM session with the peer over plain frames and derive the link keys and salts. -/
  | linkKeyAgreement (port : Nat) (ended : SpdmEnd) (peer : Peer) (secret : BitVec 384) (epoch : Word)
  /-- FRAME_LOCK_LOSS, R44. Loss of frame lock takes the link down. -/
  | frameLockLoss (port : Nat)
  /-- LINK_DOWN_COMMAND, R63. A command from the system cores takes the link down. -/
  | linkDownCommand (port : Nat)
  /-- LINK_UP, R63. Link training completes; sequence numbers and tags restart at 0 and key agreement begins. -/
  | linkUp (port : Nat)
  /-- ROUTE_TABLE_WRITE, R60. The system cores write a route table entry of a link station after quiescing the affected port. -/
  | routeTableWrite (port : Nat) (dev : BitVec 16) (entry : BitVec 5)
  /-- DEVICE_IDENTITY_WRITE, R60. The system cores write the device's 16-bit identity at partition set-up. -/
  | deviceIdentityWrite (id : BitVec 16)
  /-- CTX_SUBMIT, R69. A write of the submit word sets the tail of a host queue, or is discarded and counted. -/
  | ctxSubmit (part ctx : Nat) (stream : Nat) (value : DWord)
  /-- QBASE_WRITE, R67. A write of QBASE(q) sets the ring base and zeroes both indices, or is discarded and counted when EN is 1 or it is unaligned. -/
  | qbaseWrite (part ctx q : Nat) (stream : Nat) (value : DWord)
  /-- QCFG_WRITE, R67. A write of QCFG(q) sets TICKETS, LOGSIZE, SRC and EN, zeroing indices if LOGSIZE or SRC change, or is discarded and counted. -/
  | qcfgWrite (part ctx q : Nat) (stream : Nat) (value : DWord)
  /-- FEATACK_WRITE, R71. A write of a FEATACK word is taken until the accepted set is latched, and ignored afterwards. -/
  | featackWrite (idx : Nat) (value : DWord)
  /-- REGISTER_WRITE, R53. A write to a device register with no behaviour of its own, such as LNK_KEYLIM, stores the value. -/
  | registerWrite (reg : DevReg) (idx : Nat) (value : DWord)
  /-- HOST_BAR2_READ, R134. A host read through BAR2 is a load event of the partition's single order. -/
  | hostBar2Read (part : Nat) (stream : Nat) (offset len : Nat) (poisoned : Bool)
  /-- HOST_BAR2_WRITE, R134. A host write through BAR2 is a store event of S, suppressed and counted under a live registration or a hamper. -/
  | hostBar2Write (part : Nat) (stream : Nat) (offset : Nat) (bytes : List Byte)
  /-- TDISP_REQUEST, R66. A TDISP request moves a VF between CONFIG_UNLOCKED, CONFIG_LOCKED and RUN. -/
  | tdispRequest (part : Nat) (req : BitVec 2) (stream : Nat)
  /-- VF_CONFIG_CHANGE, R66. An attempt to change the BARs or IDE binding of a VF in RUN moves it to ERROR. -/
  | vfConfigChange (part : Nat)
  /-- PARTITION_ASSIGN, R72. A signed operator request moves clusters, ranges, ports or contexts between FREE partitions and the unowned pool. -/
  | partitionAssign (src dst : Option Nat) (clusters ranges ports ctxs : List Nat) (sigOk : Bool)
  /-- PARTITION_RESET, R73. A partition reset terminates its contexts, closes its sessions, resets the fabric, wipes it, unlocks its VF and makes it ACTIVE or FREE. -/
  | partitionReset (part : Nat)
  /-- OWNER_CHANGE, R73. A change of owner resets the partition and writes the new owner identity. -/
  | ownerChange (part : Nat) (req : OwnerRequest)
  /-- CONTEXT_ACTIVATE, R75. An owner request makes a context ACTIVE with its seed, resources, code window, dump region and disabled queues. -/
  | contextActivate (part ctx : Nat) (seed : DWord) (cores : List Nat) (codeBase : DWord) (codeSize : Nat) (dumpBase : DWord) (dumpSize : Nat) (log : DWord) (maps : List Mapping) (sigOk : Bool)
  /-- CONTEXT_FREE, R75. An owner request returns a TERMINATED context to FREE, discarding its counters and final statement. -/
  | contextFree (ctx : Nat) (sigOk : Bool)
  /-- STILE_SESSION_OPEN, R77. With signed consents of every owner and checks passed, the system cores open a stile session and set CTX_PARTY and CTX_NPARTY. -/
  | stileSessionOpen (id ring deadline : Nat) (parties : List Party) (policy : List Nat) (consents : List Bool) (remoteOk : Bool)
  /-- HAMPER_REGION_NAME, R366. A party's owner names its hamper region, whose header the system cores check before admitting the party. -/
  | hamperRegionName (id party : Nat) (address : DWord)
  /-- CONSENT_WITHDRAW, R78. An owner withdraws consent from a stile session. -/
  | consentWithdraw (id party : Nat)
  /-- CORE_RECLAIM_REQUEST, R103. An owner request takes k cores from a context's allocation, evicting every team on them, or is refused. -/
  | coreReclaimRequest (ctx k deadline : Nat) (sigOk : Bool)
  /-- CORE_RETURN, R103. The owner returns vacated cores to the context's allocation. -/
  | coreReturn (ctx : Nat) (cores : List Nat) (sigOk : Bool)
  /-- YIELD_DEADLINE, R104. At the yield deadline, groups of an evicted team still running are stopped by force and running handlers are cut off. -/
  | yieldDeadline (ctx : Nat)
  /-- TEAM_EVICT_SAVE, R104. Once every group has exited or stopped and in-flight operations are done, the team's state is saved and it returns to the head of its node's undispatched teams. -/
  | teamEvictSave (team : TKey)
  /-- REMOTE_GRANT, R331. A signed REMOTE_GRANT request adds a grant to the partition's remote grant table. -/
  | remoteGrant (part : Nat) (grant : Grant) (sigOk : Bool)
  /-- REMOTE_REVOKE, R331. A REMOTE_REVOKE request removes a grant; commands already accepted complete. -/
  | remoteRevoke (part n : Nat) (sigOk : Bool)
  /-- DEBUG_BREAKPOINT_SET, R202. The host debugger sets a debug breakpoint (PC, lowest L, highest L) through the system cores. -/
  | debugBreakpointSet (ctx : Nat) (pc lo hi : Word)
  /-- TRACE_RING_ENABLE, R315. The host debugger enables a context trace ring through the system cores. -/
  | traceRingEnable (ctx size : Nat)
  /-- METERING_STATEMENT_REQUEST, R85. A signed request with a nonce produces a signed metering statement as a consistent cut. -/
  | meteringStatementRequest (ctx : Nat) (nonce : BitVec 256) (sigOk : Bool)
  /-- JOB_BEGIN, R87. A signed JOB_BEGIN opens a job and starts recording authenticated peers, or is refused while a job is open. -/
  | jobBegin (part : Nat) (job : DWord) (sigOk : Bool)
  /-- JOB_END, R88. A JOB_END closes the job and produces a signed job formation record of KIND 3. -/
  | jobEnd (part : Nat) (sigOk : Bool)
  /-- JOB_RECORD_REQUEST, R88. A signed owner request during an open job produces a job formation record of KIND 2. -/
  | jobRecordRequest (part : Nat) (sigOk : Bool)
  /-- NODE_CONSUME, R92. The scheduler consumes the next record of an enabled queue, checks it and makes it QUEUED or READY, and advances QHEAD. -/
  | nodeConsume (ctx q : Nat)
  /-- DISPATCH_OPPORTUNITY, R96. Every 32 cycles the partition's stride scheduler picks the eligible queue of least pass and dispatches its next team. -/
  | dispatchOpportunity (part : Nat)
  /-- CLUSTER_RESERVE, R99. After the least-pass queue's team has been skipped for 14,000 cycles, a cluster is reserved for it. -/
  | clusterReserve (part : Nat)
  /-- CONTROL_THREAD_START, R126. A control thread starts on the control core when a place is free, with budget 60 and zero registers. -/
  | controlThreadStart (team : TKey)
  /-- TEAM_RETIRE, R128. When all groups have retired, the control thread has exited and engine commands are complete, the team's resources return to the cluster. -/
  | teamRetire (team : TKey)
  /-- NODE_COMMIT, R94. Once reductions are flushed and staged writes committed, the node releases ranges and writes STATE 5. -/
  | nodeCommit (ctx : Nat) (node : Word)
  /-- ROLLBACK_REQUEUE, R94. Once teams are stopped and staging discarded, ATTEMPT increments and the node becomes READY with all teams undispatched. -/
  | rollbackRequeue (ctx : Nat) (node : Word)
  /-- HANDLER_START, R182. The control core starts a handler instance for the next queued trap record when it is free. -/
  | handlerStart (core : Nat)
  /-- WHISTLE_FIRE, R189. A waiting thread's count reaches LIMIT; its group traps BAR_TIMEOUT or WAIT_TIMEOUT and arrivals are withdrawn if a handler takes it. -/
  | whistleFire (g : GKey)
  /-- OWNER_TIMEOUT, R140. A thread blocked on an owner state for CTX_WHISTLE cycles faults OWNER_TIMEOUT precisely. -/
  | ownerTimeout (g : GKey)
  /-- NAP_EXPIRE, R308. A NAP's count of k times 16 resident cycles is reached and the thread becomes READY. -/
  | napExpire (g : GKey) (t : Nat)
  /-- LOAD_DATA_ARRIVAL, R278. Data of a load or value-returning atomic arrives and is written to its still-pending destination. -/
  | loadDataArrival (g : GKey) (t n : Nat) (poisoned : Bool)
  /-- STORE_PERFORMED, R284. An issued store's parts take their place in S and the store stops counting as outstanding. -/
  | storePerformed (g : GKey) (t : Nat)
  /-- WAITW_WAKE, R139. A blocked WAITW wakes after a store makes the word differ, and retires as a load of the new value. -/
  | waitwWake (g : GKey) (t : Nat)
  /-- REGGROW_GRANT, R122. Enough registers are free on every lane of the window, so a pending REGGROW is granted and its threads get status 1. -/
  | reggrowGrant (g : GKey)
  /-- ACCALLOC_GRANT, R337. Contiguous accumulator slots become free and a pending ACCALLOC is granted, the slots zeroed and the handle written. -/
  | accallocGrant (g : GKey)
  /-- TBLLD_COMPLETE, R271. Every table word is in the fill buffer of each core; TBLLD retires and the fill and live buffers exchange. -/
  | tblldComplete (g : GKey)
  /-- QUEUE_WORD_DELIVER, R305. A qs word arrives at its destination thread's receive queue, or is discarded and its window place returned. -/
  | queueWordDeliver (n : Nat)
  /-- BARRIER_PHASE_COMPLETE, R299. Every participant has arrived and any flush batch is applied; arrivals clear, the phase advances and waiting threads become READY. -/
  | barrierPhaseComplete (team : TKey) (id : Nat)
  /-- BASKET_BATCH_APPLY, R146. The L2 slices finish applying a basket batch in ascending (L, sequence) order, letting the flush point complete. -/
  | basketBatchApply (turn : BatchTurn)
  /-- ENGINE_COMMAND_START, R140. A queued engine command takes all its blocks at once and starts running. -/
  | engineCommandStart (core n : Nat)
  /-- ENGINE_COMMAND_COMPLETE, R325. An engine command's accesses end; its blocks return to T, flags go to the elected thread and its cairn gets the last arrival. -/
  | engineCommandComplete (core n : Nat) (upset : Nat)
  /-- REMOTE_LINE_WRITE, R149. An XPUT line arrives at the destination, is checked against the grant table and placed in its S as a store. -/
  | remoteLineWrite (part port : Nat) (peerPart : BitVec 8) (src : RemoteSource) (address : DWord) (bytes : List Byte)
  /-- REMOTE_LINE_READ, R149. An XGET line request arrives at the remote partition, is checked against the grant table and read as a load. -/
  | remoteLineRead (part port : Nat) (peerPart : BitVec 8) (src : RemoteSource) (address : DWord) (len : Nat)
  /-- REMOTE_ACK, R149. The destination's acknowledgement of an XPUT arrives, and its bytes arrive on the local cairn. -/
  | remoteAck (core n : Nat) (cause : Nat) (bytes : List Byte)
  /-- PAGE_FAULT_SERVICE, R180. The system cores serve a missing mapping; the access resumes or traps PAGE, or an engine reports CAUSE 3. -/
  | pageFaultService (ctx vpage : Nat) (ok : Bool)
  /-- STASH_WRITEBACK, R131. A dirty stash line is written back lazily at eviction. -/
  | stashWriteback (team : TKey) (line : Nat)
  /-- BANK_SPARING, R198. A bank's corrected errors exceed the threshold within an hour; its pages move to spares and it is re-encoded under a symbol code. -/
  | bankSparing (stack bank errors : Nat)
  /-- SHARE_CONTRIBUTION_ARRIVE, R369. A party's contribution arrives at the home stile and is matched by key. -/
  | shareContributionArrive (id party : Nat) (tag : RoundTag) (elems : List Nat)
  /-- SHARE_RESULT_RECEIVE, R372. A party receives a round's sums and its open share instruction continues to the next round or retires. -/
  | shareResultReceive (r : ShareReply)
  /-- ROUND_DEADLINE, R371. The round deadline passes with a party missing, and every contributor traps GATE_ABORT. -/
  | roundDeadline (id : Nat) (lbase : Word) (seq sub : Nat)
  /-- ABORT_HOLD_EXPIRY, R371. One deadline after an abort, the stile stops treating the key as aborted. -/
  | abortHoldExpiry (id : Nat) (lbase : Word) (seq sub : Nat)
  /-- STFLUSH_WRITEBACK_COMPLETE, R288. The write-back of every dirty line of a stash window that STFLUSH started finishes, and STFLUSH unmaps the window, returns its blocks to T zeroed and retires. -/
  | stflushWritebackComplete (g : GKey)
deriving DecidableEq, Repr

end Sys2Proof
end

