-- ==== Sys2Proof/Machine/State.lean ====
section
/-! DEFINITION. The state of the machine as plain data: everything the spec gives it, each field with the rule
that names it, its width and its value after reset. A field's docstring reads: rule, width, reset, meaning.
"DC <n>" marks a reset value that the spec does not give and log entry n chooses. "model" marks a field of the
model's own, which stands for a choice or an input the spec leaves open. -/

namespace Sys2Proof.Machine

open Host (Cell)

/-! ## Package, boot and lifecycle -/

/-- R18, Table 1.4. The lifecycle states. -/
inductive Lifecycle where
  | manufacture | provisioned | deployed | rma
deriving DecidableEq, Repr

/-- R16, R17. Where the boot sequence stands: not yet begun, in a stage of Table 1.3, stopped in BOOT_FAIL with
the stage that failed, or done. -/
inductive BootStatus where
  | off | stage (n : Nat) | failed (n : Nat) | ready
deriving DecidableEq, Repr

/-- R19. The device identity key, named by what it is derived from: the fused seed and the lifecycle state. -/
structure IdentityKey where
  seed : BitVec 256
  state : Lifecycle
deriving DecidableEq, Repr

/-- R14, R16. An answer on the management port. -/
inductive MgmtReply where
  | status (failedStage : Option Nat)
  | updateTaken
  | monitoring (corrected : Nat)
  | certificates (slot : Nat) (key : IdentityKey)
  | statement (bytes : List Byte)
deriving DecidableEq, Repr

/-- The one-time fuses and what manufacture fixes. A device reset leaves them as they are. R15 and R19 give neither the kind and width
of the two key hashes, here SHA-384, nor the width of the identity seed, here 256 bits.
Log entry 3 (DESIGN CHOICE). -/
structure Fuses where
  /-- R18 | 2 bits | MANUFACTURE (DC 3) | the lifecycle state. -/
  lifecycle : Lifecycle := .manufacture
  /-- R19 | 3 bits | 0 (DC 3) | WIPE_SET of PROVISIONED, DEPLOYED, RMA. -/
  wipeSet : List Bool := [false, false, false]
  /-- R19 | 3 bits | 0 (DC 3) | WIPE_DONE of PROVISIONED, DEPLOYED, RMA. -/
  wipeDone : List Bool := [false, false, false]
  /-- R18 | 384 bits | none (DC 3) | SHA-384 of the device operator's public key, burned with DEPLOYED. -/
  operatorKey : Option (BitVec 384) := none
  /-- R16 | 1 bit | management port first (DC 3) | the boot source fuse. -/
  mgmtFirst : Bool := true
  /-- R15 | number | 0 (DC 3) | the fused minimum security version. -/
  minVersion : Nat := 0
  /-- R15 | 384 bits (DC 3) | 0 (DC 3) | hash of the RSA-3072 public key, fused at manufacture: the model takes SHA-384. -/
  rsaKeyHash : BitVec 384 := 0
  /-- R15 | 384 bits (DC 3) | 0 (DC 3) | hash of the SLH-DSA public key, fused at manufacture: the model takes SHA-384. -/
  slhKeyHash : BitVec 384 := 0
  /-- R19 | 256 bits (DC 3) | 0 (DC 3) | the identity seed. -/
  seed : BitVec 256 := 0
deriving DecidableEq, Repr

/-- R198. Corrected errors of a bank, counted at a device time. -/
structure BankErrors where
  stack : Nat
  bank : Nat
  time : Nat
  count : Nat
deriving DecidableEq, Repr

/-- Boot ROM, power stagger, clocks and the management port. -/
structure Boot where
  /-- R17 | stage 0-5 | off | the stage of Table 1.3. -/
  status : BootStatus := .off
  /-- R16 | 1 bit | first source | how many sources have been rejected. -/
  tried : Nat := 0
  /-- R15 | number | none | security version of the accepted image. -/
  image : Option Nat := none
  /-- R15 | flags and number | none | an image delivered by PLDM and not yet checked. -/
  pending : Option (Bool × Bool × Nat) := none
  /-- R11 | 0-8 | 0 | dies powered up. -/
  diesUp : Nat := 0
  /-- R11 | ns | 0 | device time of the last die power-up. -/
  dieAt : Nat := 0
  /-- R11 | 8 x 0-8 | 0 | clusters powered up on each die. -/
  clustersUp : List Nat := List.replicate 8 0
  /-- R11 | 8 x ns | 0 | device time of each die's last cluster power-up. -/
  clusterAt : List Nat := List.replicate 8 0
  /-- R11 | 64 x 0-128 | 0 | matrix array columns running in each cluster. -/
  columns : List Nat := List.replicate 64 0
  /-- R11 | 64 x cycle | 0 | cycle of each cluster's last column step. -/
  columnAt : List Nat := List.replicate 64 0
  /-- R11 | 64 x cycle | 0 | cycle at which each cluster's matrix arrays last worked. -/
  arrayAt : List Nat := List.replicate 64 0
  /-- R11 | 64 bits | 0 | clusters whose column ramp is in progress. -/
  ramping : List Bool := List.replicate 64 false
  /-- R86 | 128 bits | 0 (DC 3) | BOOTNONCE, drawn at boot. -/
  nonce : BitVec 128 := 0
  /-- model, R86 | list | empty | the BOOTNONCEs of the boots so far, newest first. -/
  nonces : List (BitVec 128) := []
  /-- R86 | 64 bits | 0 | SEQ of the last statement. -/
  statementSeq : Nat := 0
  /-- R19 | 1 bit | true (DC 3) | the device holds keys other than the identity seed. -/
  keysHeld : Bool := true
  /-- R60 | 16 bits | 0xFFFF | device identity; 0xFFFF until written. -/
  devId : BitVec 16 := 0xFFFF
  /-- R198 | count | 0 | corrected memory errors, reported over PLDM. -/
  corrected : Nat := 0
  /-- R198 | 1-65535 | 8 | corrected errors of a bank within an hour before sparing. -/
  eccThreshold : Nat := 8
  /-- R198 | list | empty | the corrected errors of the last hour, by bank and time. -/
  eccs : List BankErrors := []
  /-- R198 | list of (stack, bank) | empty | banks re-encoded under the symbol code. -/
  spared : List (Nat × Nat) := []
  /-- R14, R16 | list | empty | answers on the management port, newest first. -/
  replies : List MgmtReply := []
deriving DecidableEq, Repr

/-! ## The loop fabric -/

/-- R28. A slot of a loop: its flit and its reservation (die, station). -/
structure Slot where
  spine : Bool
  die : Nat
  loop : Nat
  index : Nat
  flit : Option Flit := none
  reserved : Option (Nat × Nat) := none
deriving DecidableEq, Repr

/-- R33-R35, R38. A packet in a class queue of an injection port: the loop of its segment, and how far it is injected. -/
structure Sending where
  packet : Packet
  spine : Bool := false
  loop : Nat := 0
  sent : Nat := 0
  tag : BitVec 8 := 0
deriving DecidableEq, Repr

/-- R28, R33-R35. The injection port of a station. -/
structure InjPort where
  die : Nat
  st : Nat
  bulk : List Sending := []
  urgent : List Sending := []
  control : List Sending := []
  /-- R34 | 0-8 | 0 | U flits injected since the last B flit. -/
  uSinceB : Nat := 0
  /-- R28 | loop and f-cycle | none | the loop that its next flit waits for, and since when. -/
  waiting : Option (Bool × Nat × Nat) := none
  /-- R28 | list of loops | empty | the loops on which it holds a reservation. -/
  reserving : List (Bool × Nat) := []
deriving DecidableEq, Repr

/-- R27, R37. A stream: class, injecting station, destination station. -/
structure StreamKey where
  cls : BitVec 2
  srcDie : Nat
  srcSt : Nat
  dstDie : Nat
  dstSt : Nat
deriving DecidableEq, Repr

/-- R27. The next tag of a stream at its source. -/
structure StreamTag where
  key : StreamKey
  next : BitVec 8 := 0
  /-- R38 | f-cycle | - | start of the stream's last packet. -/
  startedAt : Nat := 0
deriving DecidableEq, Repr

/-- R37, Table 2.6. A reassembly context. -/
structure Reassembly where
  key : StreamKey
  expected : BitVec 8 := 0
  held : List Flit := []
  /-- R37 | f-cycle | 0 | when it last accepted a flit. -/
  lastAt : Nat := 0
  /-- R27 | tags | empty | packets ahead of E that a fabric error has aborted. -/
  aborted : List (BitVec 8) := []
deriving DecidableEq, Repr

/-- A report of the fabric: an uncorrectable error of a partition, or a fabric fault of a die (R27). -/
inductive FabricReport where
  | uncorrectable (part : Nat)
  | dieFault (die : Nat)
deriving DecidableEq, Repr

/-- R31. A packet handed to the receiving unit. -/
structure Delivered where
  die : Nat
  st : Nat
  cls : BitVec 2
  part : Nat
  body : List (BitVec 1024)
deriving DecidableEq, Repr

structure Fabric where
  /-- R22, R25, R28 | 8 x 56 x 16 and 48 x 32 slots | all empty | slots that hold a flit or a reservation; a slot
  not listed is empty. -/
  slots : List Slot := []
  /-- R33 | per station | no packet | injection ports with work or history. -/
  ports : List InjPort := []
  /-- R27 | 8 bits per stream | 0x00 | the next tag of each stream. -/
  tags : List StreamTag := []
  /-- R37 | per stream | IDLE, E = 0 | reassembly contexts; one not listed is IDLE with E = 0. -/
  contexts : List Reassembly := []
  /-- R40 | 16 x 4 bits | 0 (DC 4) | the current generation of each partition, the same in every station. -/
  gens : List (BitVec 4) := List.replicate 16 0
  /-- R27 | count | 0 | errors corrected at stations. -/
  corrected : Nat := 0
  /-- R27 | count | 0 | slot headers cleared. -/
  headerLost : Nat := 0
  /-- R37, R41 | count | 0 | stale flits discarded. -/
  stale : Nat := 0
  /-- R36 | count | 0 | K flits of unknown kind. -/
  unknownK : Nat := 0
  /-- R37 | count | 0 | packets dropped by ABORT or idleness. -/
  dropped : Nat := 0
  /-- R27 | list | empty | reports to the system cores, newest first. -/
  reports : List FabricReport := []
  /-- R31 | list | empty | packets delivered to units that have not taken them, newest first. -/
  delivered : List Delivered := []
deriving DecidableEq, Repr

/-! ## Skovey links -/

/-- R49. A key slot's state. -/
inductive SlotState where
  | empty | loaded | active
deriving DecidableEq, Repr

/-- R49. A key slot of one direction of a port. -/
structure KeySlot where
  /-- R49 | 2 bits | EMPTY | state. -/
  state : SlotState := .empty
  /-- R49 | 256 bits | 0 (DC 5) | key. -/
  key : BitVec 256 := 0
  /-- R49 | 32 bits | 0 (DC 5) | key epoch. -/
  epoch : Word := 0
  /-- R49 | 32 bits | 0 (DC 5) | salt. -/
  salt : Word := 0
  /-- R49 | 64 bits | 0 | invocation counter. -/
  counter : Nat := 0
deriving DecidableEq, Repr

/-- A link packet, or a sequenced control flit, waiting to be sent (R46, R47): class, payload words of each flit. -/
structure LinkPacket where
  cls : BitVec 2
  bodies : List (BitVec 1856)
  words : Nat := 29
  /-- model: the flits of the packet already sent. -/
  sent : Nat := 0
  tag : BitVec 8 := 0
  part : Nat := 0
  owner : Option PktOwner := none
  /-- R47 | 1 bit | false | it continues the link packet before it. -/
  more : Bool := false
deriving DecidableEq, Repr

/-- R32, R47. On-die packets of one source that a link station joins into a link packet: their class and source, and
the bytes so far. -/
structure Joining where
  cls : BitVec 2
  die : Nat
  st : Nat
  bytes : List Byte
  part : Nat
  owner : Option PktOwner
deriving DecidableEq, Repr

/-- R47. Link packets of one on-die packet that a receiver joins: the route header, the data bytes so far and the flits
that hold them. -/
structure Partial where
  header : BitVec 128
  data : List Byte
  flits : Nat
deriving DecidableEq, Repr

/-- R56. A sequenced flit held for replay, as plaintext. -/
structure Held where
  seq : BitVec 24
  hdr : BitVec 64
  body : BitVec 1856
  keysw : Option (Bool × Word) := none
  owner : Option PktOwner := none
deriving DecidableEq, Repr

/-- R58. A reassembly context of a link receiver. -/
structure LinkReassembly where
  expected : BitVec 8 := 0
  held : List (BitVec 1856) := []
  open' : Bool := false
  lastAt : Nat := 0
deriving DecidableEq, Repr

/-- One Skovey port (R43). -/
structure Port where
  /-- R43, Table 3.7 | 1 bit | 0 | UP. -/
  up : Bool := false
  /-- R49 | 2 slots | EMPTY | transmit key slots. -/
  tx : List KeySlot := [{}, {}]
  /-- R49 | 2 slots | EMPTY | receive key slots. -/
  rx : List KeySlot := [{}, {}]
  /-- R53, Table 3.6 | 64 bits | 0x10_0000_0000 | LNK_KEYLIM. -/
  keyLim : BitVec 64 := 0x1000000000
  /-- Table 3.7 | 32 bits | 0 | AUTHFAIL. -/
  authFail : BitVec 32 := 0
  /-- Table 3.7 | 16 bits | 0 | OVERRUN. -/
  overrun : BitVec 16 := 0
  /-- Table 3.7 | 8 bits | 0 | DOWNS. -/
  downs : BitVec 8 := 0
  /-- Table 3.7 | 1 bit | 0 | KEYLATE. -/
  keyLate : Bool := false
  /-- R53 | ns | none | when KEYLATE was set. -/
  keyLateAt : Option Nat := none
  /-- Table 3.7 | 1 bit | 0 | TXSLOT. -/
  txSlot : Bool := false
  /-- Table 3.7 | 1 bit | 0 | RXSLOT. -/
  rxSlot : Bool := false
  /-- R53 | 1 bit | false | the sender fills frames with hold frames. -/
  holding : Bool := false
  /-- R53 | flit | none | a KEYSW sent whose acknowledgement is awaited. -/
  keyswSeq : Option (BitVec 24) := none
  /-- R46 | 24 bits | 0 | next sequence number to assign. -/
  txSeq : BitVec 24 := 0
  /-- R56 | up to 64 flits | empty | the replay buffer, oldest first. -/
  replay : List Held := []
  /-- R56 | number | none | how many flits of the replay buffer are sent again, once a restart is in progress. -/
  resend : Option Nat := none
  /-- R56 | seq and f-cycle | none | the last restart. -/
  restart : Option (BitVec 24 × Nat) := none
  /-- R56 | seq and count | none | NAKs seen for one E. -/
  naks : Option (BitVec 24 × Nat) := none
  /-- R55 | 24 bits | 0 | next expected sequence number E. -/
  rxSeq : BitVec 24 := 0
  /-- R55 | 1 bit | NORMAL | the receiver is DROPPING. -/
  dropping : Bool := false
  /-- R55 | f-cycle | 0 | when the last NAK was sent. -/
  nakAt : Nat := 0
  /-- R48, R59 | list | empty | unsequenced K flits to send: code and argument. -/
  unseq : List (BitVec 8 × BitVec 24) := []
  /-- R59 | 2 x 1 bit | false | PAUSE(B), PAUSE(U) held by the sender. -/
  paused : List Bool := [false, false]
  /-- R59 | 2 x 1 bit | false | PAUSE state this receiver has sent for B and U. -/
  pausing : List Bool := [false, false]
  /-- R59 | ns | 0 | when the flow state was last repeated. -/
  flowAt : Nat := 0
  /-- R46, R57 | lists | empty | link packets and sequenced K flits to send. -/
  bulk : List LinkPacket := []
  urgent : List LinkPacket := []
  control : List LinkPacket := []
  /-- R57 | 0-8 | 0 | U flits since the last B flit. -/
  uSinceB : Nat := 0
  /-- R45 | 3 x 8 bits | 0 | next link packet tag of B, U, K. -/
  tags : List (BitVec 8) := [0, 0, 0]
  /-- R58 | 3 contexts | IDLE, E = 0 | reassembly of B, U, K. -/
  reasm : List LinkReassembly := [{}, {}, {}]
  /-- R58 | count | 0 | frames and packets dropped and counted. -/
  dropped : Nat := 0
  /-- R60 | 65,536 x 5 bits | 31 (DC 5) | route table; an identity not listed has entry 31, drop and count. -/
  routes : List (Nat × BitVec 5) := []
  /-- R61 | count | 0 | partition violations. -/
  violations : Nat := 0
  /-- R51 | identity | none | the peer that SPDM authenticated. -/
  peer : Option Peer := none
  /-- R51 | 384 bits | none | the exported master secret of its SPDM session. -/
  secret : Option (BitVec 384) := none
  /-- R51 | 1 bit | false | this device is the requester of its SPDM session. -/
  requester : Bool := false
  /-- R50 | list | empty | the secrets of its sessions since boot. -/
  secrets : List (BitVec 384) := []
  /-- R50 | direction and epoch | empty | the epochs of the keys loaded under the secret: true for the receiver. -/
  epochs : List (Bool × Word) := []
  /-- R32, R47 | list | empty | on-die packets that it joins into link packets. -/
  joining : List Joining := []
  /-- R47 | packet | none | U link packets that it joins before delivery. -/
  partial' : Option Partial := none
  /-- R46 | frame | none | the frame on the wire in the last frame time. -/
  wire : Option Frame := none
  /-- R55 | list | empty | link packets joined and handed on, newest first: class, first body, partition. -/
  received : List (BitVec 2 × List (BitVec 1856)) := []
  /-- R64 | list | empty | the owners told that a packet is lost with the outcome unknown, newest first. -/
  lost : List (Option PktOwner) := []
deriving DecidableEq, Repr

/-! ## Host, partitions and contexts -/

/-- R66. TDISP states of a VF. -/
inductive Tdisp where
  | unlocked | locked | run | error
deriving DecidableEq, Repr

/-- R72. States of a partition. -/
inductive PartState where
  | free | active | resetting
deriving DecidableEq, Repr

/-- R87. An open job. -/
structure Job where
  id : DWord
  begin' : Nat
  peers : List (Nat × List Peer × Bool) := []
deriving DecidableEq, Repr

/-- R99. A cluster reserved for the next team of a queue. -/
structure Reservation where
  ctx : Nat
  queue : Nat
  node : Word
  team : Nat
  cluster : Nat
deriving DecidableEq, Repr

structure Partition where
  /-- R72 | 2 bits | FREE | state. -/
  state : PartState := .free
  /-- R72 | 384 bits | none | owner identity. -/
  owner : Option (BitVec 384) := none
  /-- R72 | list of 0-63 | empty | clusters, ascending. -/
  clusters : List Nat := []
  /-- R72 | list of 0-767 | empty | HBM ranges, GiB numbers, ascending. -/
  ranges : List Nat := []
  /-- R72 | list of 0-23 | empty | link ports. -/
  ports : List Nat := []
  /-- R72 | list of 0-63 | empty | contexts. -/
  ctxs : List Nat := []
  /-- R67 | 32 bits | 0 | PART_BADSUB. -/
  badSub : BitVec 32 := 0
  /-- R66 | 2 bits | CONFIG_UNLOCKED | TDISP state of the VF. -/
  vf : Tdisp := .unlocked
  /-- R66 | number | 0 (DC 6) | the selective IDE stream bound to the VF. -/
  stream : Nat := 0
  /-- R66 | count | 0 | requests completed as Unsupported Request. -/
  unsupported : Nat := 0
  /-- R95 | 64 bits | 0 | the global pass G. -/
  pass : BitVec 64 := 0
  /-- R96 | cycle | 0 | the last dispatch opportunity. -/
  oppAt : Nat := 0
  /-- R99 | queue and cycle | none | the least-pass queue skipped since a cycle. -/
  skipped : Option (Nat × Nat × Nat) := none
  /-- R99 | list | empty | clusters reserved for the next teams of queues. -/
  reservations : List Reservation := []
  /-- R87 | job | none | the open job. -/
  job : Option Job := none
  /-- R331 | up to 16 | empty | the remote grant table. -/
  grants : List Grant := []
  /-- R331 | list | empty | remote commands accepted and not yet complete, each with the grants it was accepted under. -/
  incoming : List (RemoteCmd × List Grant) := []
  /-- R61 | count | 0 | partition violations counted. -/
  violations : Nat := 0
deriving DecidableEq, Repr

/-- R67, R68, R95, R97. One of the 32 queues of a context. -/
structure Queue where
  /-- Table 4.2 | 64 bits | 0 (DC 94) | QBASE. -/
  base : DWord := 0
  /-- Table 4.3 | 12 bits | 0x001 | TICKETS. -/
  tickets : BitVec 12 := 1
  /-- Table 4.3 | 4 bits | 0 | LOGSIZE. -/
  logSize : BitVec 4 := 0
  /-- Table 4.3 | 1 bit | 0 | SRC. -/
  src : Bool := false
  /-- Table 4.3 | 1 bit | 0 | EN. -/
  en : Bool := false
  /-- R68 | 32 bits | 0 | head, read as QHEAD. -/
  head : Word := 0
  /-- R68 | 32 bits | 0 | tail. -/
  tail : Word := 0
  /-- R95 | 64 bits | 0 | stride pass. -/
  pass : BitVec 64 := 0
  /-- R97 | 1 bit | false | in the eligible set. -/
  eligible : Bool := false
  /-- R97 | 64 bits | 0 | lead at leaving. -/
  lead : Nat := 0
  /-- R97 | 64 bits | 0 | G at leaving. -/
  gLeft : BitVec 64 := 0
deriving DecidableEq, Repr

/-- R75. States of a context. -/
inductive CtxState where
  | free | active | terminated
deriving DecidableEq, Repr

/-- R231. A write of a context register: its value, the thread that wrote it, the cycle. -/
structure CsrWrite where
  val : Word
  writer : GKey × Nat
  /-- L of the writer: of the writes of one cycle the highest stands. -/
  l : Word
  cycle : Nat
deriving DecidableEq, Repr

/-- R230, R231. A context register that programs write: a value that every thread has seen, and the writes since, newest
first, which a thread other than their writer may not see yet. -/
structure Csr where
  base : Word
  writes : List CsrWrite := []
deriving DecidableEq, Repr

/-- R182. A trap record. -/
structure TrapRec where
  code : BitVec 8
  control : Bool
  basket : Bool
  core : Nat
  pc : Word
  l : Word
  detail : Word
  time : Nat
  node : Word
  /-- model: the trapped group. -/
  group : GKey
deriving DecidableEq, Repr

/-- R202. A debug breakpoint. -/
structure Breakpoint where
  pc : Word
  lo : Word
  hi : Word
deriving DecidableEq, Repr

/-- R145, Table 8.14. A basket entry; `core` and `team` say where it lies. -/
structure BasketEntry where
  kind : BitVec 4
  target : DWord
  operand : DWord
  l : Word
  seq : Word
  node : Word
  team : Nat
  core : Nat
  /-- R145 | number | none | its place in the context's reduction log, once it has spilled. -/
  spilled : Option Nat := none
  /-- R146 | number | none | the batch it belongs to, once a flush point has gathered it. -/
  batch : Option Nat := none
deriving DecidableEq, Repr

structure Context where
  /-- R75 | 2 bits | FREE | state. -/
  state : CtxState := .free
  /-- R75 | 0-15 | 0 | its partition. -/
  part : Nat := 0
  /-- Table 4.2 | 32 bits | 0 (DC 94) | submit words discarded. -/
  badSubmit : BitVec 32 := 0
  /-- R67 | 32 queues | Table 4.3 | queues. -/
  queues : List Queue := List.replicate 32 {}
  /-- R75 | 64 bits | 0 | CTX_SEED. -/
  seed : DWord := 0
  /-- R75, R100 | core list | empty | the cores of its allocation, ascending. -/
  cores : List Nat := []
  /-- R103 | core list | empty | cores vacated and not yet returned. -/
  vacated : List Nat := []
  /-- R76 | 64 bits | 0 | CODEBASE. -/
  codeBase : DWord := 0
  /-- R76 | up to 4 GiB | 0 | CODESIZE. -/
  codeSize : Nat := 0
  /-- R188 | 64 bits | 0 | base of the dump region. -/
  dumpBase : DWord := 0
  /-- R188 | bytes | 0 | size of the dump region. -/
  dumpSize : Nat := 0
  /-- R145 | 64 bits | 0 | base of the reduction log. -/
  logBase : DWord := 0
  /-- R180 | list | empty | the address-space description. -/
  maps : List Mapping := []
  /-- Table 9.5 | 32 bits | 0 | CTX_ROUND. -/
  round : Csr := ⟨0, []⟩
  /-- Table 9.6 | 32 bits | 0 | CTX_FLAGS. -/
  flags : Word := 0
  /-- R235 | cycle and bits | none | the bits of CTX_FLAGS that operations have set in a cycle. -/
  raised : Nat × Word := (0, 0)
  /-- Table 10.5 | 32 bits | 0x0100_0000 | CTX_WHISTLE. -/
  whistle : Csr := ⟨0x01000000, []⟩
  /-- Table 10.2 | 32 bits | 0 | CTX_TRAPVEC. -/
  trapVec : Csr := ⟨0, []⟩
  /-- Table 8.1 | 32 bits | 16 | CTX_LEASE. -/
  lease : Csr := ⟨16, []⟩
  /-- Table 11.19 | 11 bits | 1,024 | CTX_QWIN. -/
  qwin : Nat := 1024
  /-- R77 | party | 0 | CTX_PARTY. -/
  party : Nat := 0
  /-- R78 | 0-4 | 0 | CTX_NPARTY. -/
  nparty : Nat := 0
  /-- R77 | number | none | the stile session it is in. -/
  session : Option Nat := none
  /-- R79 | 44 x 64 bits | 0 | metering counters, index 2c + b. -/
  meters : List Nat := List.replicate 44 0
  /-- R79 | 44 bits | 0 | SATMASK. -/
  satMask : List Bool := List.replicate 44 false
  /-- R86 | ns | 0 | TACTIVE. -/
  activeAt : Nat := 0
  /-- R85 | bytes | none | the final metering statement. -/
  final : Option (List Byte) := none
  /-- R182 | up to 16 | empty | the last trap records, oldest first. -/
  traps : List TrapRec := []
  /-- R202 | up to 8 | empty | debug breakpoints. -/
  breakpoints : List Breakpoint := []
  /-- R315 | records | none | capacity of the trace ring, once enabled. -/
  traceSize : Option Nat := none
  /-- R315 | 32-byte records | empty | trace records, oldest first. -/
  trace : List (List Byte) := []
  /-- R315 | count | 0 | records dropped. -/
  traceLost : Nat := 0
  /-- R145 | entries | empty | basket entries not yet applied, on the cores or in the reduction log. -/
  basket : List BasketEntry := []
  /-- R146 | batches | empty | batches gathered and not yet applied: their numbers. -/
  batches : List Nat := []
  /-- R146 | number | 0 | the next batch number (model). -/
  nextBatch : Nat := 0
  /-- R188 | list | empty | cairns named by SYNCSETs or engine commands: node, team, scratch address. -/
  cairns : List (Word × Nat × Word) := []
  /-- R188 | 1 bit | false | the dump has been written. -/
  dumped : Bool := false
deriving DecidableEq, Repr

/-! ## Nodes, teams, groups and threads -/

/-- R94, Table 6.5. Node states in the order of Table 6.4. -/
inductive NodeState where
  | queued | ready | running | sealed | committing | done | rolledBack | refused
deriving DecidableEq, Repr

/-- R89, Table 6.1. A node record as read at consumption. -/
structure NodeRec where
  entry : Word
  gx : Nat
  gy : Nat
  gz : Nat
  wcode : Nat
  groups : Nat
  prods : Nat
  cores : Nat
  regP : Nat
  regC : Nat
  scratch : Nat
  accSlots : Nat
  det : Bool
  restart : Bool
  preds : Nat
  seed : DWord
  succ : List Word
  /-- virtual base and length in bytes of each range in use. -/
  ranges : List (Nat × Nat)
  pool : Nat
deriving DecidableEq, Repr

/-- R94. A consumed node. -/
structure Node where
  ctx : Nat
  queue : Nat
  /-- R92 | 32 bits | - | ring index. -/
  index : Word
  /-- R110 | 32 bits | - | node reference. -/
  ref : Word
  /-- R89 | virtual address | - | address of its record. -/
  addr : Nat
  rec' : NodeRec
  state : NodeState
  attempt : Nat := 0
  /-- R102 | number | 0 | lowest team index never dispatched in this attempt. -/
  nextTeam : Nat := 0
  /-- R105 | list | empty | evicted teams, at the head of the undispatched teams. -/
  evicted : List Nat := []
  /-- R148 | 1 bit | false | its ranges are registered. -/
  registered : Bool := false
  /-- R194 | list | empty | staged pages: physical 64 KiB page and the bytes of its pre-image. -/
  staged : List (Nat × List Cell) := []
  /-- R197 | count | 0 | pages staged in this attempt. -/
  stagedCount : Nat := 0
  /-- R195 | 1-7 | 0 | sealing cause. -/
  sealCause : Nat := 0
  /-- R128 | count | 0 | teams retired in this attempt. -/
  retired : Nat := 0
  /-- R305 | words | empty | words delivered to teams not placed yet: L, word, sending team. -/
  early : List (Word × Word × TKey) := []
  /-- R145 | list | empty | DRED sequence numbers of threads: L and next number. -/
  dredSeqs : List (Word × Nat) := []
  /-- R199, R200 | ns | 0 | FAULT, IO and EXEC intervals so far. -/
  faultNs : Nat := 0
  ioNs : Nat := 0
  execNs : Nat := 0
deriving DecidableEq, Repr

/-- R140. The owner state of a plain scratch block; `stash` marks a block of a stash window (R131). -/
inductive Owner where
  | threads | reading (k : Nat) | writing | stash
deriving DecidableEq, Repr

/-- R131. A line of a stash window: scratch line number, dirty, and the bytes that global memory still holds. -/
structure StashLine where
  line : Nat
  dirty : Bool
  stale : List Byte
deriving DecidableEq, Repr

/-- R131, R287. A stash window: first block, blocks, global base. -/
structure StashWin where
  first : Nat
  count : Nat
  base : Nat
  lines : List StashLine := []
deriving DecidableEq, Repr

/-- R298. A team barrier. -/
structure Barrier where
  /-- R298 | 32 bits | 0 | phase. -/
  phase : Word := 0
  /-- R298 | 4 bits | none | bits [7:4] of the phase's first arrival. -/
  bits : Option (BitVec 4) := none
  /-- R298 | bit per thread | none | threads that have issued BART or BARARV in the phase: group, thread. -/
  came : List (Nat × Nat) := []
  /-- R146 | numbers | empty | of each thread that has come, by L: the DREDs it had made. -/
  marks : List (Word × Nat) := []
  /-- R298 | bit per group | none | groups that have arrived. -/
  arrived : List Nat := []
  /-- R188 | bits | none | role mask and bits of the last completed phase. -/
  last : BitVec 4 := 0
deriving DecidableEq, Repr

/-- R270, R271. A lookup table of a team: fill buffer and live buffer, by core of the set. -/
structure Table where
  fill : List Word := List.replicate 256 0
  live : List Word := List.replicate 256 0
  /-- R271 | group, thread and issue cycle | none | the TBLLD that fills the fill buffer. -/
  filler : Option (GKey × Nat × Nat) := none
  /-- R271 | 0-256 | 0 | words that it has read. -/
  filled : Nat := 0
  /-- R272 | cycle | none | the last cycle in which a TBL has read its live buffer. -/
  readAt : Option Nat := none
  /-- R377 | list | empty | open SLUTs that bind a buffer: the group, and whether the buffer is now the fill buffer. -/
  bound : List (GKey × Bool) := []
deriving DecidableEq, Repr

/-- R337. A grant of accumulator slots: pair of the team's core set, bank, first slot and slots; `freeing` from the
issue of its ACCFREE (R338). -/
structure AccGrant where
  pair : Nat
  bank : Nat
  slot : Nat
  count : Nat
  freeing : Bool := false
deriving DecidableEq, Repr

/-- R323. An engine command in a core's queue. -/
structure Cmd where
  /-- model | number | - | the order of issue. -/
  id : Nat
  /-- R322 | 0-30 | - | op5. -/
  op : Nat
  /-- R322 | 5 bits | - | the f field. -/
  f : BitVec 5
  /-- R322 | team | - | the team it belongs to. -/
  team : TKey
  /-- R323 | thread | - | the elected thread: group and thread. -/
  elected : GKey × Nat
  /-- R323 | words | - | operands read at issue: the register or registers of the fields w, s and c. -/
  w : Word
  s : List Word := []
  c : List Word := []
  /-- R326, R348, R355 | 64 bytes | - | the shape, plan or parameter record read at issue. -/
  record : List Byte := []
  /-- R340 | 64 x 64 bytes | - | MMAR: the rows of A read at issue. -/
  rows : List (List Byte) := []
  /-- R330, R344 | 2 bits | - | CTX_ROUND at issue. -/
  mode : Nat := 0
  /-- R330 | number | - | the conversion counter before the issue. -/
  conv0 : Nat := 0
  /-- R140 | block lists | - | blocks it reads and blocks it writes. -/
  reads : List Nat := []
  writes : List Nat := []
  /-- R142 | scratch address | none | its cairn. -/
  cairn : Option Word := none
  /-- R324 | pairs and slots | - | the accumulator slots it names. -/
  slots : List (Nat × Nat) := []
  /-- R342 | pair | none | the pair whose arrays it occupies. -/
  arrays : Option Nat := none
  /-- R140 | 1 bit | false | it has taken its blocks. -/
  running : Bool := false
  /-- R149 | bytes | none | XGET: data returned. -/
  remote : List Byte := []
  /-- R149, R332 | cause | 0 | XPUT, XGET: the error reported for it. -/
  cause : Nat := 0
  /-- R149 | 1 bit | false | XPUT, XGET: the acknowledgement has arrived. -/
  acked : Bool := false
  /-- R347 | PC and threads | - | the issue set, where its fetch is suspended. -/
  pc : Word := 0
  threads : List Nat := []
  /-- R192 | 1 bit | false | the product was retried once. -/
  retried : Bool := false
  /-- R379 | tag parts | none | SMMA: LBASE, SEQ and the MAT cursor before the issue. -/
  share : Option (Word × Nat × Nat) := none
  /-- R379 | ring elements | none | SMMA: the sums returned. -/
  sums : Option (List Nat) := none
  /-- R379 | session and ring elements | - | SMMA: its session, and the MAT entry read at issue. -/
  session : Nat := 0
  entry : List Nat := []
deriving DecidableEq, Repr

/-- R336. An accumulator tile: 128 rows of 256 words, in row-major order. -/
structure Tile where
  pair : Nat
  slot : Nat
  words : List Word
deriving DecidableEq, Repr

/-- R356. A pivot committed for a step: global row, the row from column k on, whether it is a row of this tile,
which one, and whether it was perturbed. -/
structure Pivot where
  row : Word
  p : List Word
  local' : Bool
  g : Nat
  perturbed : Bool
deriving DecidableEq, Repr

/-- R357, Table 20.8. A history entry. -/
structure LuEntry where
  row : Word
  step : Nat
  perturbed : Bool
  remote : Bool
  tie : Bool
deriving DecidableEq, Repr

/-- R355, R356. A factorising session of a team on one of its pairs, from the issue of its LUBEG. -/
structure LuSession where
  /-- model | number | - | the number of its LUBEG. -/
  id : Nat
  pair : Nat
  slot : Nat
  /-- R356 | 1 bit | false | LUBEG has run: the session holds the arrays. -/
  loaded : Bool := false
  /-- R356 | 1 bit | false | its LUEND has issued: it is no longer open. -/
  closing : Bool := false
  /-- Table 20.5 | parameters | - | ROWS, COLS, GROWBASE, TAU, GLIM. -/
  rows : Nat
  cols : Nat
  growBase : Nat
  tau : Word
  glim : Word
  /-- R355 | 128 x 256 words | tile | the tile in the processing elements, row-major. -/
  a : List Word := []
  /-- R355 | number | 0 | the step counter. -/
  k : Nat := 0
  /-- R357 | list | empty | the rename map: pivoted tile rows with their steps, in step order. -/
  pivoted : List (Nat × Nat) := []
  /-- R357 | list | empty | the pivot history. -/
  history : List LuEntry := []
  /-- R361 | pivot | none | the committed pivot of step k. -/
  committed : Option Pivot := none
  /-- R360 | 1 bit | false | the comparator tie recorded by LUCAND in step k. -/
  tie : Bool := false
  /-- R355, R359 | FP32 | - | MAXA0 and MAXA. -/
  maxA0 : Word := 0
  maxA : Word := 0
  /-- R358 | 1 bit and step | false | the stop flag and STOPSTEP. -/
  stopped : Bool := false
  stopStep : Nat := 0
deriving DecidableEq, Repr

structure Team where
  key : TKey
  /-- R100 | core list | - | the core set; of an evicted team, the one it left. -/
  cores : List Nat
  /-- R104 | 1 bit | false | evicted and saved. -/
  saved : Bool := false
  /-- R130 | 64 bits | - | scratch aperture base. -/
  aperture : DWord
  /-- R129 | blocks x 4 KiB | all zero | scratch bytes, by scratch address. -/
  scratch : List Cell := []
  /-- R140 | per block | T | owner states. -/
  owners : List Owner := []
  /-- R131 | list | empty | stash windows. -/
  windows : List StashWin := []
  /-- R298 | 16 barriers | phase 0 | team barriers. -/
  barriers : List Barrier := List.replicate 16 {}
  /-- R337 | list | empty | accumulator slots held. -/
  grants : List AccGrant := []
  /-- R336 | tiles | zero on grant | accumulator tiles held. -/
  tiles : List Tile := []
  /-- R325 | commands | empty | engine commands saved in queue order with an evicted team. -/
  commands : List Cmd := []
  /-- R270 | 4 tables | 0 | lookup tables. -/
  tables : List Table := List.replicate 4 {}
  /-- R304 | counts | 0 | words sent and not yet taken, by destination team. -/
  windowsUsed : List (Word × Nat × Nat) := []
  /-- R126 | 1 bit | false | a control thread waits for a place. -/
  controlWaits : Option Word := none
  /-- R355 | sessions | none | open factorising sessions. -/
  lus : List LuSession := []
  /-- R127 | words | empty | mailboxes saved with an evicted team, by the core's position in its core set. -/
  mailboxes : List (Nat × List (List Word)) := []
  /-- R102 | number | - | teams placed before it (R126 order). -/
  placed : Nat := 0
  /-- R128 | 1 bit | false | the control thread exists and has not exited. -/
  control : Bool := false
  /-- R103, R104 | cycle | none | its yield deadline, while the scheduler evicts it. -/
  evicting : Option Nat := none
  /-- R104 | 1 bit | false | the yield deadline has stopped its groups. -/
  late : Bool := false
deriving DecidableEq, Repr

/-- An access that waits on an owner state (R277), at the address that its instruction formed (R275), with what it does
when it may. -/
structure Access where
  load : Bool
  /-- R275 | 1 bit | - | a global address; else a scratch address. -/
  glob : Bool
  addr : Nat
  size : Nat
  /-- R136 | 1, 4, 8, 64 or 128 | 1 | the alignment that the instruction needs; 1 lets an access be split. -/
  align : Nat := 1
  regs : List Nat
  data : List Byte
  signed : Bool := false
  /-- atomic operation of Table 14.2, if the access is one. -/
  atomic : Option Nat := none
  /-- R277: the lanes that perform together with it, for an atomic. -/
  whole : List Nat := []
  /-- R111: the instruction that retires as a whole once the access may perform, where it does more than access. -/
  retry : Option Instr := none
  next : Word
deriving DecidableEq, Repr

/-- R111, Table 7.1. What a BLOCKED thread waits for, with the operands the instruction has read. -/
inductive Wait where
  | qr (i : Instr)
  | qrAll (scan : Bool) (code d : Nat) (set : List Nat)
  | qs (value : Word) (flags : BitVec 7) (cat inc : Nat) (next : Word)
  | mbr (d : Nat) (k : Nat)
  | mbw (k : Nat) (value : Word)
  | waitc (l s c t : Nat)
  | waitw (i : Instr) (d : Nat) (address : DWord) (compare : Word)
  | swait (d : Nat) (cairn : Word) (compare : Word)
  | barg
  | bart (id : Nat) (phase : Word)
  | barwt (id : Nat) (phase : Word)
  | reggrow (d : Nat) (n : Nat) (w : Bool)
  | accalloc (d : Nat) (n : Nat) (pair : Nat) (w : Bool)
  | tblld (k : Nat) (address : Word)
  | nap (cycles : Nat)
  | owner (a : Access)
  | stmap (first count : Nat) (base : Nat)
  | stflush (win : Nat)
deriving DecidableEq, Repr

/-- R111. A thread's own state; STOPPED is the group's stop flag. -/
inductive ThreadState where
  | ready | blocked (w : Wait) | exited
deriving DecidableEq, Repr

/-- R216, R278. An outstanding load or value-returning atomic: the registers and values it will write, its PC, and
whether the data has arrived. -/
structure LoadRec where
  vals : List (Nat × Word)
  pc : Word := 0
  /-- R278 | cycle | - | when it was performed. -/
  cycle : Nat := 0
  arrived : Bool := false
  /-- R216, R294 | 1 bit | true | it is an access of the thread; false for the mark of a thread whose guard is false. -/
  counts : Bool := true
deriving DecidableEq, Repr

/-- R279. Bytes of memory (`glob`, a physical address) or of scratch that a lane of a store has written. -/
structure Span where
  glob : Bool
  addr : Nat
  size : Nat
deriving DecidableEq, Repr

structure Thread where
  /-- R106, R208 | 60 x 32 bits | 0 (R102) | v0-v59. -/
  regs : List Word := List.replicate 60 0
  /-- R216 | 60 bits | 0 | pending marks. -/
  pend : List Bool := List.replicate 60 false
  /-- R213 | 60 bits | 0 | poison marks. -/
  pois : List Bool := List.replicate 60 false
  /-- R204 | 32 bits | ENTRY (R102) | program counter. -/
  pc : Word := 0
  /-- R111 | state | READY | state. -/
  state : ThreadState := .ready
  /-- R168, Table 9.6 | 7 bits | 0 | sticky flags. -/
  flags : BitVec 7 := 0
  /-- R311 | cycle and 7 bits | none | the flags that it has raised in a cycle. -/
  raised : Nat × BitVec 7 := (0, 0)
  /-- R303 | 2 words | none | message route. -/
  route : Option (Word × Word) := none
  /-- R305 | words | empty | receive queue: word, sending team. -/
  queue : List (Word × TKey) := []
  /-- R229 | 32 bits | none | latched high word of the cycle counter. -/
  latchCycle : Option Word := none
  /-- R229 | 32 bits | none | latched high word of the device time. -/
  latchTime : Option Word := none
  /-- R369 | number | 0 | share sequence number. -/
  shareSeq : Nat := 0
  /-- R167 | number | 0 | conversion counter. -/
  convs : Nat := 0
  /-- R294 | list | empty | loads not yet covered, oldest first. -/
  loads : List LoadRec := []
  /-- R294 | count | 0 | stores and DREDs outstanding. -/
  stores : Nat := 0
  /-- R294 | count | 0 | copy commands outstanding. -/
  copies : Nat := 0
  /-- R294 | count | 0 | other engine commands outstanding. -/
  tileOps : Nat := 0
  /-- R300 | 16 x 32 bits | none | phase recorded by BARARV or BART. -/
  phases : List (Option Word) := List.replicate 16 none
  /-- R189 | cycles | 0 | cycles waited, compared with LIMIT. -/
  waited : Nat := 0
  /-- R116 | cycle | 0 | cycle of its last issue. -/
  issued : Nat := 0
  /-- R168 | 7 bits | 0 | flags that its waiting instruction raises when it retires. -/
  owed : BitVec 7 := 0
  /-- R202 | breakpoints | empty | those that do not fire for the re-issue of the instruction at its PC. -/
  skip : List Breakpoint := []
  /-- R184 | registers and values | empty | window writes that wait for the data of a load. -/
  late : List (Nat × Word) := []
  /-- R279 | spans | empty | what higher-L lanes of the store at which it waits have written. -/
  higher : List Span := []
  /-- R270 | 256 words | none | the buffer that the TBL at which it waits reads. -/
  table : List Word := []
  /-- model, R193 | 1 bit | false | the word that the WAITW or SWAIT at its PC delivers is poisoned. -/
  tainted : Bool := false
deriving DecidableEq, Repr

/-- R372. A share instruction that is open: its operands, its entries and how far it has come. -/
structure ShareOp where
  op : Nat
  session : Nat
  width : Nat
  d : Nat
  table : Nat
  lbase : Word
  seq : Nat
  sub : Nat
  cursor : Word
  threads : List Nat
  x : List Nat
  y : List Nat
  /-- each thread's hamper entry, as ring elements. -/
  entries : List (List Nat)
  /-- SLTZ: the public sum of round 0 and the tree's nodes (Lf, Eq) of each thread. -/
  publics : List Nat := []
  tree : List (List (Nat × Nat)) := []
  /-- masked operands sent in the open round: a pair of triple index and operands per product. -/
  sent : List Nat := []
  /-- sums that the stile has returned, not yet used. -/
  sums : Option (List Nat) := none
  /-- SLUT: the live table bound at issue. -/
  bound : List Word := []
  /-- registers that a thread reads. -/
  reads : List Nat := []
  /-- pc after the instruction. -/
  next : Word := 0
deriving DecidableEq, Repr

/-- Why a group's fetch is suspended for a precise stop (R178, R180, R347, R372, R150, R146). -/
inductive Fetch where
  | page (vpage : Nat) (who : List Nat) (t : Nat)
  | engine (id : Nat) (next : Word) (threads : List Nat)
  | share (op : ShareOp)
  | fence (ids : List Nat) (next : Word) (threads : List Nat)
  | batch (ns : List Nat) (next : Word) (threads : List Nat)
deriving DecidableEq, Repr

/-- What a handler instance holds (R183, R184, R317). -/
structure HandlerData where
  trap : TrapRec
  /-- R317 | 1 bit | true | the record still holds the trapped group. -/
  holds : Bool := true
  /-- R184 | group | the trapped group | the selected group. -/
  sel : Option GKey := none
deriving DecidableEq, Repr

/-- R118, R260. A lane operation of a group: its cycle of issue, its threads, and the registers that it writes. -/
structure LaneRun where
  cycle : Nat
  set : List Nat
  regs : List Nat
deriving DecidableEq, Repr

structure Group where
  key : GKey
  /-- R107 | 8, 16, 32 or 64; 1 on the control core | - | threads. -/
  w : Nat
  /-- R107 | 0-255 | - | core. -/
  core : Nat
  /-- R107 | 0-127 | - | window base lane. -/
  base : Nat := 0
  /-- R106 | 0-15 | - | thread slot. -/
  slot : Nat := 0
  /-- R109 | 8-60 | role budget | register budget. -/
  budget : Nat
  /-- R109 | 1 bit | - | producer. -/
  producer : Bool := false
  /-- R112 | 1 bit | false | stop flag. -/
  stop : Bool := false
  /-- R185 | threads | empty | the trapped issue set. -/
  trapped : List Nat := []
  /-- R104 | 1 bit | false | yield request. -/
  yieldReq : Bool := false
  /-- R104 | 1 bit | false | the stop comes from YIELD or the deadline. -/
  yielded : Bool := false
  /-- R116 | 12 bits | 0 | issues modulo 4,096. -/
  issues : Nat := 0
  /-- R113 | cycle | placement | last-issue cycle. -/
  lastIssue : Nat := 0
  /-- R316 | 18 x 32 bits | 0 | performance counters. -/
  perf : List Nat := List.replicate 18 0
  /-- R168 | 7 bits | 0 | group flags. -/
  flags : BitVec 7 := 0
  /-- R311 | cycle and 7 bits | none | the flags raised in a cycle. -/
  raised : Nat × BitVec 7 := (0, 0)
  /-- R178 | hold | none | suspended fetch. -/
  fetch : Option Fetch := none
  /-- R276 | threads | empty | the threads of a suspended store whose lower parts have been performed. -/
  lowered : List Nat := []
  /-- R118 | 1 bit | false | it has issued in the present cycle. -/
  issuedNow : Bool := false
  /-- R169, R201 | thread and PC | none | the lowest thread of its last issue, and the PC of that instruction. -/
  issuedBy : Option (Nat × Word) := none
  /-- R118 | list | empty | the lane operations of the last 16 cycles, newest first. -/
  runs : List LaneRun := []
  /-- R183 | record | none | a handler instance's own data. -/
  handler : Option HandlerData := none
  /-- R106 | W threads | - | threads. -/
  threads : List Thread
deriving DecidableEq, Repr

/-! ## Cores and engines -/

structure Core where
  /-- R182 | records | empty | queued trap records, oldest first. -/
  trapQueue : List TrapRec := []
  /-- R127 | per context, 8 x 8 words | created empty | mailboxes: context and eight FIFOs. -/
  mailboxes : List (Nat × List (List Word)) := []
  /-- R323 | up to 32 | empty | engine queue, issue order. -/
  queue : List Cmd := []
  /-- R190 | 2 banks | free | on a leader core: the context that holds each accumulator bank. -/
  banks : List (Option Nat) := [none, none]
deriving DecidableEq, Repr

/-! ## The stile -/

/-- R369. A contribution under a key. -/
structure Contribution where
  party : Nat
  tag : RoundTag
  elems : List Nat
deriving DecidableEq, Repr

structure Round where
  lbase : Word
  seq : Nat
  sub : Nat
  parts : List Contribution := []
  /-- R371 | ns | - | arrival of the first contribution. -/
  firstAt : Nat
deriving DecidableEq, Repr

/-- R371, R372. An outcome under a key that a party has not taken yet. -/
structure StileResult where
  party : Nat
  lbase : Word
  seq : Nat
  sub : Nat
  res : RoundAnswer
deriving DecidableEq, Repr

/-- R371. An aborted key, and when its abort happened. -/
structure AbortHold where
  lbase : Word
  seq : Nat
  sub : Nat
  code : BitVec 8
  since : Nat
deriving DecidableEq, Repr

/-- R77, R369. A stile session. -/
structure Session where
  id : Nat
  ring : Nat
  /-- R371 | ns | 1 ms unless the body says otherwise | round deadline. -/
  deadline : Nat
  parties : List Party
  policy : List Nat
  opened : Bool := false
  /-- R78 | 1 bit | false | it has closed, and opens no more. -/
  closed : Bool := false
  /-- R366 | 64 bits per party | - | hamper header addresses. -/
  hampers : List (Nat × DWord) := []
  rounds : List Round := []
  results : List StileResult := []
  aborted : List AbortHold := []
deriving DecidableEq, Repr

/-! ## The whole machine -/

/-- R305. A qs word on its way: word, destination context, node, L, sending team. -/
structure QWord where
  value : Word
  ctx : Nat
  node : Word
  l : Word
  sender : TKey
  /-- the sending thread (order of R305). -/
  src : GKey × Nat
deriving DecidableEq, Repr

/-- A hardware upset that an issue meets: its two passes disagree once, or twice with the thread named (R119), or the word
that it waits for in a thread is poisoned (R193). -/
inductive Upset where
  | shadowOnce
  | shadowTwice (thread : Nat)
  | poisoned (thread : Nat)
deriving DecidableEq, Repr

/-- What the next step of the model does: an event; the issue slot of a half of a core (half 2 is its control core), with
the groups that a lane operation of their own still holds (Table 7.3, code 12) and the upsets that issues in it meet; or
nothing. -/
inductive Choice where
  | event (i : Instr)
  | issue (core half : Nat) (held : List Nat) (upsets : List (Nat × Upset))
  | idle
deriving DecidableEq, Repr, Inhabited

/-- R113. The last issue slot of a half of a core: its cycle, the groups held in it, and the cycle from which the half's
SFUs are free (R262). -/
structure IssueSlot where
  core : Nat
  half : Nat
  cycle : Nat
  held : List GKey := []
  sfuFree : Nat := 0
deriving DecidableEq, Repr

/-- R115. A member of an issue: the group, its issue set, whether it is the picked one, and its upset. -/
structure Member where
  group : GKey
  set : List Nat
  picked : Bool
  upset : Option Upset
deriving DecidableEq, Repr

/-- The group whose instruction is being executed, its issue set (R114), and the threads of a store whose lower parts an
earlier try has performed (R276). -/
structure Issue where
  g : Nat
  set : List Nat
  lowered : List Nat := []
deriving DecidableEq, Repr

/-- The state of the machine. -/
structure State where
  /-- R9 | ns | 0 | device time since boot ROM started. -/
  time : Nat := 0
  /-- model | number | 0 (DC 1) | steps taken; names the free values of a step. -/
  tick : Nat := 0
  /-- model | list | empty | choices of the next steps; when it is empty the free choice of Config decides. -/
  script : List Choice := []
  /-- R114 | group and threads | none | the issue in progress. -/
  cur : Option Issue := none
  /-- R113 | list | empty | the last issue slot of each half and control core. -/
  slots : List IssueSlot := []
  /-- R94, R193 | records | empty | uncorrectable errors consumed in the present cycle, oldest first. -/
  errors : List TrapRec := []
  /-- R115 | list | empty | the members of the last pick that have not issued yet, in the order of their issue. -/
  merging : List Member := []
  /-- R15-R20 | fuses | as manufactured | one-time fuses. -/
  fuses : Fuses := {}
  /-- R11-R19 | boot and management | Table 1.3 | boot, power and management. -/
  boot : Boot := {}
  /-- R21-R42 | fabric | empty | the loop fabric. -/
  fabric : Fabric := {}
  /-- R43-R64 | 24 ports | down | Skovey ports. -/
  ports : List Port := List.replicate 24 {}
  /-- R71 | 4 x 64 bits | 0 | FEATACK. -/
  featAck : List DWord := [0, 0, 0, 0]
  /-- R71 | 256 bits | none | the accepted set, once latched (bits 0-63). -/
  accepted : Option DWord := none
  /-- R65 | bytes | empty | data of the last BAR2 read. -/
  readData : List Byte := []
  /-- R193 | 1 bit | false | the last BAR2 read returned a poisoned TLP. -/
  readPoisoned : Bool := false
  /-- R149 | bytes | empty | data sent back by the last remote line read; empty where it was refused. -/
  remoteData : List Byte := []
  /-- R332 | cause | 0 | the cause answered to the last remote line. -/
  remoteCause : Nat := 0
  /-- R72 | 16 partitions | FREE | partitions. -/
  parts : List Partition := List.replicate 16 {}
  /-- R75 | 64 contexts | FREE | contexts. -/
  ctxs : List Context := List.replicate 64 {}
  /-- R94 | list | empty | consumed nodes. -/
  nodes : List Node := []
  /-- R108 | list | empty | teams placed or evicted. -/
  teams : List Team := []
  /-- R112 | list | empty | groups, control threads and handler instances. -/
  groups : List Group := []
  /-- R5 | 256 cores | idle | cores. -/
  cores : List Core := List.replicate 256 {}
  /-- R129, R134 | 768 GiB | all zero (R17, R74) | HBM bytes by physical address. -/
  mem : List Cell := []
  /-- R305 | list | empty | qs words on their way. -/
  net : List QWord := []
  /-- R377, R369 | list | empty | stile sessions. -/
  sessions : List Session := []
  /-- model | number | 0 | teams placed so far. -/
  placements : Nat := 0
  /-- model | number | 0 | engine commands issued so far. -/
  cmdIds : Nat := 0
deriving DecidableEq, Repr

/-- The one stop that the model has beside its refusals. -/
inductive Fault where
  /-- Raised by the meaning of an encoded instruction when no group is issuing: the spec gives an instruction an
  effect only on an issue set (R114). `step` never calls a meaning so. Safe. -/
  | noIssueSet
deriving DecidableEq, Repr

/-- Why the model gives no meaning. -/
inductive Refusal where
  /-- Raised by `exec` for an instruction that is not modelled yet. Safe. -/
  | notModelled (mnemonic : String)
deriving DecidableEq, Repr

/-- The machine right after reset: boot ROM has not begun, every register at its reset value, no memory listed. -/
def State.reset : State := {}

end Sys2Proof.Machine
end

