-- ==== Sys2Proof/Config.lean ====
section
/-! DEFINITION. What the spec leaves open, as constants without a body: nothing in Lean can evaluate one or prove a
value of it. The number of the step (State.tick) names a fresh value each time. -/

namespace Sys2Proof

namespace Config

open Sys2Proof.Machine

/-- Log entry 2 (DESIGN CHOICE). Nanoseconds of device time that pass at a step. -/
opaque elapsed : Nat → Nat

/-- Log entry 1 (DESIGN CHOICE). What happens at a step when no choice is scripted. -/
opaque choose : Nat → Choice

/-- Log entry 9 (DESIGN CHOICE), R130. The 4 MiB-aligned offset number of a new team's aperture base in the reserved range. -/
opaque aperture : Nat → Nat

/-- Log entry 10 (DESIGN CHOICE), R231. Whether a thread sees a write of a context register of the last 256 cycles: step,
register, number of the write among them, thread L. -/
opaque csrNew : Nat → Nat → Nat → Word → Bool

/-- Log entry 11 (DESIGN CHOICE), R131. Whether an engine sees, or leaves, the stash line's bytes: step and global line. -/
opaque stashSeen : Nat → Nat → Bool

/-- Log entry 16 (DESIGN CHOICE), R337. The bank that a first grant takes where both banks of a pair are free. -/
opaque accBank : Nat → Nat

/-- Log entry 12 (DESIGN CHOICE), R325. Whether a failed command had written a line: step and 128-byte line. -/
opaque partialWrites : Nat → Nat → Bool

/-- Log entry 13 (PRESUMED), R51. The bytes in which a key derivation writes the two identities, the two port
numbers, the direction and the epoch, for a key and for a salt. -/
opaque keyInfo : Bool → List Nat → List Byte

/-- Log entry 13, R86. The two signatures of a statement's bytes under the device attestation keys of an identity:
384 and 7,856 bytes. -/
opaque signRsa : IdentityKey → List Byte → BitVec 3072
opaque signSlh : IdentityKey → List Byte → BitVec 62848

/-- Log entry 13, R88. SHA-384 of the device's own leaf certificate, for an identity. -/
opaque selfCert : IdentityKey → BitVec 384

/-- Log entry 35 (DESIGN CHOICE), R186. The cycles that the system cores take to stop every group of a context. -/
opaque stopDelay : Nat → Nat

/-- Log entry 62 (DESIGN CHOICE), R271. The words of a table that a TBLLD reads in the time of a step: step, team index,
table. -/
opaque tableWords : Nat → Nat → Nat → Nat

/-- Log entry 81 (DESIGN CHOICE), R17, R52. The die of the peer that is attached to a port, if one is. -/
opaque attached : Nat → Option Nat

/-- Log entry 14 (DESIGN CHOICE), R86. BOOTNONCE of a boot, drawn at the step that starts boot ROM. -/
opaque bootNonce : Nat → BitVec 128

/-- Log entry 15 (DESIGN CHOICE), R59. Flits that a receiving port's buffer holds for one class. -/
opaque linkBuffer : Nat

end Config

end Sys2Proof
end

