-- ==== Sys2Proof/WellFormed.lean ====
section
/-! DEFINITION. Well-formed instructions: the checks of step 1 of Table 11.20 (spec/11_isa_encoding.md R232) that
depend on the word alone and are not already in the fixed bits of the word. An instruction that fails one raises
ILLEGAL_OP. Features and the kind of the issuing thread are checked where the instruction has its meaning. -/

namespace Sys2Proof

/-- R212. A reuse mark `m` on a field that names `r`: code 0b11 is reserved, and a mark other than 0b00 on a field
that names vz, qr or 63 is misplaced. -/
def markOk (m : BitVec 2) (r : BitVec 6) : Bool :=
  m ≠ 3 && (m = 0 || (r ≠ 61 && r ≠ 62 && r ≠ 63))

/-- R219, Table 11.7. Patterns 14 and 15 are reserved, and HSWP takes prm 0. -/
def patOk (pat : BitVec 4) (prm : BitVec 6) : Bool :=
  decide (pat.toNat ≤ 12) || (pat = 13 && prm = 0)

/-- R221, R256, Table 12.4. The supported pairs of a CVT: source and destination type codes. -/
def cvtPairOk (src dst : BitVec 4) : Bool :=
  match src.toNat with
  | 0 => [1, 2, 3, 4, 5, 7, 8, 9, 10, 11].contains dst.toNat
  | 1 | 2 | 3 | 4 | 5 => dst = 0
  | 6 => dst = 0 || dst = 2
  | 7 => [0, 8, 9, 10].contains dst.toNat
  | 8 => dst = 0 || dst = 7
  | 9 | 10 => dst = 0 || dst = 7
  | 11 => dst = 0
  | 12 => dst = 13 || dst = 14
  | 13 => dst = 12 || dst = 14
  | 14 => dst = 12 || dst = 13
  | _ => false

/-- The checks of each instruction; an event carries no word and passes. -/
def Instr.wf : Instr → Bool
  | .movA x a _ => markOk x a
  | .movX p t _ _ => patOk t p
  | .movI _ _ => true
  | .addA y x b a _ => markOk x a && markOk y b
  | .addX p t _ _ => patOk t p
  | .addI _ _ _ => true
  | .subA y x b a _ => markOk x a && markOk y b
  | .subX p t _ _ => patOk t p
  | .subI _ _ _ => true
  | .mulloA y x b a _ => markOk x a && markOk y b
  | .mulloX p t _ _ => patOk t p
  | .mulloI _ _ _ => true
  | .mulhi y x b a _ => markOk x a && markOk y b
  | .mulhu y x b a _ => markOk x a && markOk y b
  | .madA y x b a _ => markOk x a && markOk y b
  | .madI _ _ _ => true
  | .andA y x b a _ => markOk x a && markOk y b
  | .andX p t _ _ => patOk t p
  | .andI _ _ _ => true
  | .orA y x b a _ => markOk x a && markOk y b
  | .orX p t _ _ => patOk t p
  | .orI _ _ _ => true
  | .xorA y x b a _ => markOk x a && markOk y b
  | .xorX p t _ _ => patOk t p
  | .xorI _ _ _ => true
  | .andnA y x b a _ => markOk x a && markOk y b
  | .andnX p t _ _ => patOk t p
  | .andnI _ _ _ => true
  | .shlA y x b a _ => markOk x a && markOk y b
  | .shlI i _ _ => decide (i.toNat ≤ 31)
  | .shrA y x b a _ => markOk x a && markOk y b
  | .shrI i _ _ => decide (i.toNat ≤ 31)
  | .sraA y x b a _ => markOk x a && markOk y b
  | .sraI i _ _ => decide (i.toNat ≤ 31)
  | .minA y x b a _ => markOk x a && markOk y b
  | .minX p t _ _ => patOk t p
  | .minI _ _ _ => true
  | .maxA y x b a _ => markOk x a && markOk y b
  | .maxX p t _ _ => patOk t p
  | .maxI _ _ _ => true
  | .minuA y x b a _ => markOk x a && markOk y b
  | .minuX p t _ _ => patOk t p
  | .minuI _ _ _ => true
  | .maxuA y x b a _ => markOk x a && markOk y b
  | .maxuX p t _ _ => patOk t p
  | .maxuI _ _ _ => true
  | .seqA y x b a _ => markOk x a && markOk y b
  | .seqI _ _ _ => true
  | .sneA y x b a _ => markOk x a && markOk y b
  | .sneI _ _ _ => true
  | .sltA y x b a _ => markOk x a && markOk y b
  | .sltI _ _ _ => true
  | .sleA y x b a _ => markOk x a && markOk y b
  | .sleI _ _ _ => true
  | .sltuA y x b a _ => markOk x a && markOk y b
  | .sltuI _ _ _ => true
  | .sleuA y x b a _ => markOk x a && markOk y b
  | .sleuI _ _ _ => true
  | .selt y x b a _ => markOk x a && markOk y b
  | .self y x b a _ => markOk x a && markOk y b
  | .popc x a _ => markOk x a
  | .clz x a _ => markOk x a
  | .brevA x a _ => markOk x a
  | .add64A y x b a _ => markOk x a && markOk y b
  | .add64I _ _ _ => true
  | .madw y x b a _ => markOk x a && markOk y b
  | .faddA y x b a _ => markOk x a && markOk y b
  | .faddX p t _ _ => patOk t p
  | .fsubA y x b a _ => markOk x a && markOk y b
  | .fsubX p t _ _ => patOk t p
  | .fmulA y x b a _ => markOk x a && markOk y b
  | .fmulX p t _ _ => patOk t p
  | .fmaA y x b a _ => markOk x a && markOk y b
  | .fmaX p t _ _ => patOk t p
  | .fminA y x b a _ => markOk x a && markOk y b
  | .fminX p t _ _ => patOk t p
  | .fmaxA y x b a _ => markOk x a && markOk y b
  | .fmaxX p t _ _ => patOk t p
  | .fseq y x b a _ => markOk x a && markOk y b
  | .fslt y x b a _ => markOk x a && markOk y b
  | .fsle y x b a _ => markOk x a && markOk y b
  | .fscaleA y x b a _ => markOk x a && markOk y b
  | .fscaleI _ _ _ => true
  | .badd2A y x b a _ => markOk x a && markOk y b
  | .badd2X p t _ _ => patOk t p
  | .bmul2A y x b a _ => markOk x a && markOk y b
  | .bmul2X p t _ _ => patOk t p
  | .bfma2A y x b a _ => markOk x a && markOk y b
  | .bfma2X p t _ _ => patOk t p
  | .hfma2A y x b a _ => markOk x a && markOk y b
  | .hfma2X p t _ _ => patOk t p
  | .hadd2A y x b a _ => markOk x a && markOk y b
  | .hadd2X p t _ _ => patOk t p
  | .iadd2sA y x b a _ => markOk x a && markOk y b
  | .iadd2sX p t _ _ => patOk t p
  | .isub2sA y x b a _ => markOk x a && markOk y b
  | .isub2sX p t _ _ => patOk t p
  | .idot2A y x b a _ => markOk x a && markOk y b
  | .idot2X p t _ _ => patOk t p
  | .ishr2rA y x b a _ => markOk x a && markOk y b
  | .ishr2rI _ _ _ => true
  | .ipack2s y x b a _ => markOk x a && markOk y b
  | .idot4A y x b a _ => markOk x a && markOk y b
  | .idot4X p t _ _ => patOk t p
  | .cvt _ t s _ _ => cvtPairOk s t
  | .sfu f n _ _ => decide (n.toNat ≤ 10) && decide (f.toNat ≤ 1)
  | .redg c _ _ => decide (c.toNat ≤ 10)
  | .scang c _ _ => decide (c.toNat ≤ 3)
  | .smxacc x a _ => markOk x a
  | .smxnorm y x b a _ => markOk x a && markOk y b
  | .tbl _ _ _ => true
  | .lget y x b a _ => markOk x a && markOk y b
  | .rand _ _ _ => true
  | .mov16 l s d => l ≠ 0 || s ≠ 0 || d ≠ 0
  | .add16 _ _ _ => true
  | .sub16 _ _ _ => true
  | .and16 _ _ _ => true
  | .or16 _ _ _ => true
  | .xor16 _ _ _ => true
  | .shl16 _ _ _ => true
  | .shr16 _ _ _ => true
  | .sra16 _ _ _ => true
  | .mullo16 _ _ _ => true
  | .fadd16 _ _ _ => true
  | .fsub16 _ _ _ => true
  | .fmul16 _ _ _ => true
  | .fmax16 _ _ _ => true
  | .fmin16 _ _ _ => true
  | .movi16 _ _ => true
  | .movi _ _ => true
  | .movhi _ _ => true
  | .addi _ _ => true
  | .movbf _ _ => true
  | .lpc _ _ => true
  | .ldgB _ _ _ => true
  | .ldgSb _ _ _ => true
  | .ldgH _ _ _ => true
  | .ldgSh _ _ _ => true
  | .ldgW _ _ _ => true
  | .ldgD _ _ _ => true
  | .ldgQ _ _ _ => true
  | .ldsH _ _ _ => true
  | .ldsW _ _ _ => true
  | .ldsD _ _ _ => true
  | .ldsQ _ _ _ => true
  | .stgB _ _ _ _ _ => true
  | .stgH _ _ _ _ _ => true
  | .stgW _ _ _ _ _ => true
  | .stgD _ _ _ _ _ => true
  | .stgQ _ _ _ _ _ => true
  | .stsH _ _ _ _ _ => true
  | .stsW _ _ _ _ _ => true
  | .stsD _ _ _ _ _ => true
  | .stsQ _ _ _ _ _ => true
  | .aadd _ _ _ _ _ => true
  | .amin _ _ _ _ _ => true
  | .amax _ _ _ _ _ => true
  | .aand _ _ _ _ _ => true
  | .aor _ _ _ _ _ => true
  | .axor _ _ _ _ _ => true
  | .axch _ _ _ _ _ => true
  | .acas _ _ _ _ _ => true
  | .afadd _ _ _ _ _ => true
  | .dred k _ _ _ _ => decide (k.toNat ≤ 5)
  | .acasD _ _ _ _ _ => true
  | .axchD _ _ _ _ _ => true
  | .bra _ _ _ => true
  | .call _ _ _ => true
  | .brx _ _ _ => true
  | .ret _ _ => true
  | .exit _ _ => true
  | .brk _ _ => true
  | .tload f _ _ _ => f ≠ 3
  | .tstore _ _ _ _ => true
  | .tgather f _ _ _ => f ≠ 3
  | .tzero _ _ _ _ => true
  | .tpref _ _ _ => true
  | .xput _ _ _ _ => true
  | .xget f _ _ _ => f ≠ 3
  | .tscat _ _ _ _ => true
  | .mma _ _ _ _ => true
  | .mmar _ _ _ _ _ => true
  | .mmas _ _ _ _ => true
  | .smma _ _ _ _ => true
  | .accalloc f _ => decide (1 ≤ (f.extractLsb' 0 3).toNat ∧ (f.extractLsb' 0 3).toNat ≤ 4)
  | .accfree _ => true
  | .accld _ _ _ => true
  | .accst f _ _ _ => decide (f.toNat ≤ 4)
  | .bfly _ _ _ => true
  | .btwid _ _ _ => true
  | .brevEng _ _ _ => true
  | .atrans _ => true
  | .lubeg _ _ => true
  | .lustep _ _ => true
  | .lucand _ _ _ => true
  | .lucommit _ _ _ => true
  | .luend _ _ _ => true
  | .smul f _ _ _ => f ≠ 3
  | .strunc f _ _ => f ≠ 3
  | .sltz f _ _ => f ≠ 3
  | .slut _ f _ _ => f ≠ 3
  | .sopen f _ _ => f ≠ 3
  | .accrow _ _ _ => true
  | .nop => true
  | .barg => true
  | .bart i => (i.extractLsb' 4 2) ≠ 0
  | .bararv i => (i.extractLsb' 4 2) ≠ 0
  | .barwt _ => true
  | .waitc _ => true
  | .waitw _ _ => true
  | .swait _ _ => true
  | .syncset _ _ => true
  | .mbr _ _ => true
  | .mbw _ _ => true
  | .qroute _ => true
  | .qstat i _ => decide (i.toNat ≤ 3)
  | .yield => true
  | .nap _ => true
  | .reggrow _ _ _ => true
  | .regshrink _ _ => true
  | .ident i _ => decide (i.toNat ≤ 21)
  | .trap _ => true
  | .flagrd i _ => decide (i.toNat ≤ 1)
  | .flagclr _ => true
  | .csrrd i _ => decide (i.toNat ≤ 14)
  | .csrwr i _ => decide (i.toNat ≤ 3) || i = 12
  | .elect _ => true
  | .vote i _ _ => decide (i.toNat ≤ 4)
  | .dflush => true
  | .tblld _ _ => true
  | .stmap _ _ _ => true
  | .stflush _ => true
  | .xfence => true
  | .launch _ _ _ => true
  | .mark _ _ => true
  | .perfrd i _ => decide (i.toNat ≤ 17)
  | .dwsel _ _ => true
  | .dwrd _ _ => true
  | .dwwr _ _ => true
  | .dwres i a => decide (i.toNat ≤ 2) && (i = 2 || a = 62)
  | .dwkill => true
  | .deviceReset => true
  | .firmwareImageReceived _ _ _ => true
  | .diePowerUp => true
  | .clusterPowerUp _ => true
  | .bootStageComplete _ => true
  | .columnRampStep _ => true
  | .lifecycleTransition _ _ _ _ => true
  | .mctpStatusRequest => true
  | .pldmFirmwareUpdate _ _ _ => true
  | .pldmMonitoring => true
  | .spdmDeviceAuthentication _ => true
  | .flitInject _ _ _ _ _ => true
  | .slotReserve _ _ _ _ => true
  | .flitPassStation _ _ _ _ _ => true
  | .flitAtDestination _ _ _ _ _ _ => true
  | .reassemblyIdleTimeout _ _ _ _ _ => true
  | .reassemblyAheadTimeout _ _ _ _ _ => true
  | .linkFrameSend _ => true
  | .linkFlitReceive _ _ _ => true
  | .nakReceive _ _ => true
  | .nakResendTimeout _ => true
  | .pauseReceive _ _ => true
  | .resumeReceive _ _ => true
  | .flowStateRepeat _ => true
  | .keyswReceive _ _ _ => true
  | .linkAbortReceive _ _ _ => true
  | .keySwitchPoint _ => true
  | .keyHoldPoint _ => true
  | .keyLoadTimeout _ => true
  | .keyLoad _ _ _ _ _ _ => true
  | .linkKeyAgreement _ _ _ _ _ => true
  | .frameLockLoss _ => true
  | .linkDownCommand _ => true
  | .linkUp _ => true
  | .routeTableWrite _ _ _ => true
  | .deviceIdentityWrite _ => true
  | .ctxSubmit _ _ _ _ => true
  | .qbaseWrite _ _ _ _ _ => true
  | .qcfgWrite _ _ _ _ _ => true
  | .featackWrite _ _ => true
  | .registerWrite _ _ _ => true
  | .hostBar2Read _ _ _ _ _ => true
  | .hostBar2Write _ _ _ _ => true
  | .tdispRequest _ _ _ => true
  | .vfConfigChange _ => true
  | .partitionAssign _ _ _ _ _ _ _ => true
  | .partitionReset _ => true
  | .ownerChange _ _ => true
  | .contextActivate _ _ _ _ _ _ _ _ _ _ _ => true
  | .contextFree _ _ => true
  | .stileSessionOpen _ _ _ _ _ _ _ => true
  | .hamperRegionName _ _ _ => true
  | .consentWithdraw _ _ => true
  | .coreReclaimRequest _ _ _ _ => true
  | .coreReturn _ _ _ => true
  | .yieldDeadline _ => true
  | .teamEvictSave _ => true
  | .remoteGrant _ _ _ => true
  | .remoteRevoke _ _ _ => true
  | .debugBreakpointSet _ _ _ _ => true
  | .traceRingEnable _ _ => true
  | .meteringStatementRequest _ _ _ => true
  | .jobBegin _ _ _ => true
  | .jobEnd _ _ => true
  | .jobRecordRequest _ _ => true
  | .nodeConsume _ _ => true
  | .dispatchOpportunity _ => true
  | .clusterReserve _ => true
  | .controlThreadStart _ => true
  | .teamRetire _ => true
  | .nodeCommit _ _ => true
  | .rollbackRequeue _ _ => true
  | .handlerStart _ => true
  | .whistleFire _ => true
  | .ownerTimeout _ => true
  | .napExpire _ _ => true
  | .loadDataArrival _ _ _ _ => true
  | .storePerformed _ _ => true
  | .waitwWake _ _ => true
  | .reggrowGrant _ => true
  | .accallocGrant _ => true
  | .tblldComplete _ => true
  | .queueWordDeliver _ => true
  | .barrierPhaseComplete _ _ => true
  | .basketBatchApply _ => true
  | .engineCommandStart _ _ => true
  | .engineCommandComplete _ _ _ => true
  | .remoteLineWrite _ _ _ _ _ _ => true
  | .remoteLineRead _ _ _ _ _ _ => true
  | .remoteAck _ _ _ _ => true
  | .pageFaultService _ _ _ => true
  | .stashWriteback _ _ => true
  | .bankSparing _ _ _ => true
  | .shareContributionArrive _ _ _ _ => true
  | .shareResultReceive _ => true
  | .roundDeadline _ _ _ _ => true
  | .abortHoldExpiry _ _ _ _ => true
  | .stflushWritebackComplete _ => true

/-- An instruction that passes every check of step 1 on its word. -/
abbrev WellFormed (i : Instr) : Prop := i.wf = true

end Sys2Proof
end

