-- ==== Sys2Proof/Decode.lean ====
section
/-! DEFINITION. The decoder, total on any bytes, and the encoder, both from the encoding tables of
spec/11_isa_encoding.md (R203 to R207, R220, R224 to R228), spec/15_isa_control_sync.md (R291),
spec/19_isa_engines_matrix.md (R322), spec/20_isa_butterfly_factor.md (R346) and spec/22_isa_shares.md (R373).
A word that no row assigns is refused by name; every such word raises ILLEGAL_OP (R232). -/

namespace Sys2Proof

/-- Why some bytes are no instruction. -/
inductive DecodeError where
  /-- R203. The halfword 0x0000. -/
  | zeroHalfword
  /-- R203. Fewer bytes than the instruction's length. -/
  | truncated
  /-- R205, R220, R224 to R228. An op field that the class does not assign, or assigns in no such form. -/
  | unassigned (cls op : Nat)
  /-- R220, R226, R227. A bit that must hold a fixed value does not. -/
  | fixedField (cls op : Nat)
deriving DecidableEq, Repr

/-- Bits [lo + n - 1 : lo] of a word. -/
def bitsAt (w lo n : Nat) : BitVec n := BitVec.ofNat n (w / 2 ^ lo)

/-- A row whose fixed bits are checked. -/
def fixedOr (ok : Bool) (cls op : Nat) (i : Instr) : Except DecodeError Instr :=
  if ok then .ok i else .error (.fixedField cls op)

/-- R207. A 16-bit instruction. -/
def decode16 (w : Nat) : Except DecodeError Instr :=
  if w = 0 then .error .zeroHalfword else
  match w / 2 % 16 with
  | 0 => .ok (.mov16 (bitsAt w 15 1) (bitsAt w 10 5) (bitsAt w 5 5))
  | 1 => .ok (.add16 (bitsAt w 15 1) (bitsAt w 10 5) (bitsAt w 5 5))
  | 2 => .ok (.sub16 (bitsAt w 15 1) (bitsAt w 10 5) (bitsAt w 5 5))
  | 3 => .ok (.and16 (bitsAt w 15 1) (bitsAt w 10 5) (bitsAt w 5 5))
  | 4 => .ok (.or16 (bitsAt w 15 1) (bitsAt w 10 5) (bitsAt w 5 5))
  | 5 => .ok (.xor16 (bitsAt w 15 1) (bitsAt w 10 5) (bitsAt w 5 5))
  | 6 => .ok (.shl16 (bitsAt w 15 1) (bitsAt w 10 5) (bitsAt w 5 5))
  | 7 => .ok (.shr16 (bitsAt w 15 1) (bitsAt w 10 5) (bitsAt w 5 5))
  | 8 => .ok (.sra16 (bitsAt w 15 1) (bitsAt w 10 5) (bitsAt w 5 5))
  | 9 => .ok (.mullo16 (bitsAt w 15 1) (bitsAt w 10 5) (bitsAt w 5 5))
  | 10 => .ok (.fadd16 (bitsAt w 15 1) (bitsAt w 10 5) (bitsAt w 5 5))
  | 11 => .ok (.fsub16 (bitsAt w 15 1) (bitsAt w 10 5) (bitsAt w 5 5))
  | 12 => .ok (.fmul16 (bitsAt w 15 1) (bitsAt w 10 5) (bitsAt w 5 5))
  | 13 => .ok (.fmax16 (bitsAt w 15 1) (bitsAt w 10 5) (bitsAt w 5 5))
  | 14 => .ok (.fmin16 (bitsAt w 15 1) (bitsAt w 10 5) (bitsAt w 5 5))
  | _ => .ok (.movi16 (bitsAt w 10 6) (bitsAt w 5 5))

/-- Class A of the 32-bit formats (Table 11.2). -/
def decodeA (w : Nat) : Except DecodeError Instr :=
  match w / 16 % 64 with
  | 0 => fixedOr (w / 4194304 % 64 == 62 && w / 1073741824 % 4 == 0) 0 0 (.movA (bitsAt w 28 2) (bitsAt w 16 6) (bitsAt w 10 6))
  | 1 => .ok (.addA (bitsAt w 30 2) (bitsAt w 28 2) (bitsAt w 22 6) (bitsAt w 16 6) (bitsAt w 10 6))
  | 2 => .ok (.subA (bitsAt w 30 2) (bitsAt w 28 2) (bitsAt w 22 6) (bitsAt w 16 6) (bitsAt w 10 6))
  | 3 => .ok (.mulloA (bitsAt w 30 2) (bitsAt w 28 2) (bitsAt w 22 6) (bitsAt w 16 6) (bitsAt w 10 6))
  | 4 => .ok (.mulhi (bitsAt w 30 2) (bitsAt w 28 2) (bitsAt w 22 6) (bitsAt w 16 6) (bitsAt w 10 6))
  | 5 => .ok (.mulhu (bitsAt w 30 2) (bitsAt w 28 2) (bitsAt w 22 6) (bitsAt w 16 6) (bitsAt w 10 6))
  | 6 => .ok (.madA (bitsAt w 30 2) (bitsAt w 28 2) (bitsAt w 22 6) (bitsAt w 16 6) (bitsAt w 10 6))
  | 7 => .ok (.andA (bitsAt w 30 2) (bitsAt w 28 2) (bitsAt w 22 6) (bitsAt w 16 6) (bitsAt w 10 6))
  | 8 => .ok (.orA (bitsAt w 30 2) (bitsAt w 28 2) (bitsAt w 22 6) (bitsAt w 16 6) (bitsAt w 10 6))
  | 9 => .ok (.xorA (bitsAt w 30 2) (bitsAt w 28 2) (bitsAt w 22 6) (bitsAt w 16 6) (bitsAt w 10 6))
  | 10 => .ok (.andnA (bitsAt w 30 2) (bitsAt w 28 2) (bitsAt w 22 6) (bitsAt w 16 6) (bitsAt w 10 6))
  | 11 => .ok (.shlA (bitsAt w 30 2) (bitsAt w 28 2) (bitsAt w 22 6) (bitsAt w 16 6) (bitsAt w 10 6))
  | 12 => .ok (.shrA (bitsAt w 30 2) (bitsAt w 28 2) (bitsAt w 22 6) (bitsAt w 16 6) (bitsAt w 10 6))
  | 13 => .ok (.sraA (bitsAt w 30 2) (bitsAt w 28 2) (bitsAt w 22 6) (bitsAt w 16 6) (bitsAt w 10 6))
  | 14 => .ok (.minA (bitsAt w 30 2) (bitsAt w 28 2) (bitsAt w 22 6) (bitsAt w 16 6) (bitsAt w 10 6))
  | 15 => .ok (.maxA (bitsAt w 30 2) (bitsAt w 28 2) (bitsAt w 22 6) (bitsAt w 16 6) (bitsAt w 10 6))
  | 16 => .ok (.minuA (bitsAt w 30 2) (bitsAt w 28 2) (bitsAt w 22 6) (bitsAt w 16 6) (bitsAt w 10 6))
  | 17 => .ok (.maxuA (bitsAt w 30 2) (bitsAt w 28 2) (bitsAt w 22 6) (bitsAt w 16 6) (bitsAt w 10 6))
  | 18 => .ok (.seqA (bitsAt w 30 2) (bitsAt w 28 2) (bitsAt w 22 6) (bitsAt w 16 6) (bitsAt w 10 6))
  | 19 => .ok (.sneA (bitsAt w 30 2) (bitsAt w 28 2) (bitsAt w 22 6) (bitsAt w 16 6) (bitsAt w 10 6))
  | 20 => .ok (.sltA (bitsAt w 30 2) (bitsAt w 28 2) (bitsAt w 22 6) (bitsAt w 16 6) (bitsAt w 10 6))
  | 21 => .ok (.sleA (bitsAt w 30 2) (bitsAt w 28 2) (bitsAt w 22 6) (bitsAt w 16 6) (bitsAt w 10 6))
  | 22 => .ok (.sltuA (bitsAt w 30 2) (bitsAt w 28 2) (bitsAt w 22 6) (bitsAt w 16 6) (bitsAt w 10 6))
  | 23 => .ok (.sleuA (bitsAt w 30 2) (bitsAt w 28 2) (bitsAt w 22 6) (bitsAt w 16 6) (bitsAt w 10 6))
  | 24 => .ok (.selt (bitsAt w 30 2) (bitsAt w 28 2) (bitsAt w 22 6) (bitsAt w 16 6) (bitsAt w 10 6))
  | 25 => .ok (.self (bitsAt w 30 2) (bitsAt w 28 2) (bitsAt w 22 6) (bitsAt w 16 6) (bitsAt w 10 6))
  | 26 => fixedOr (w / 4194304 % 64 == 62 && w / 1073741824 % 4 == 0) 0 26 (.popc (bitsAt w 28 2) (bitsAt w 16 6) (bitsAt w 10 6))
  | 27 => fixedOr (w / 4194304 % 64 == 62 && w / 1073741824 % 4 == 0) 0 27 (.clz (bitsAt w 28 2) (bitsAt w 16 6) (bitsAt w 10 6))
  | 28 => fixedOr (w / 4194304 % 64 == 62 && w / 1073741824 % 4 == 0) 0 28 (.brevA (bitsAt w 28 2) (bitsAt w 16 6) (bitsAt w 10 6))
  | 29 => .ok (.add64A (bitsAt w 30 2) (bitsAt w 28 2) (bitsAt w 22 6) (bitsAt w 16 6) (bitsAt w 10 6))
  | 30 => .ok (.madw (bitsAt w 30 2) (bitsAt w 28 2) (bitsAt w 22 6) (bitsAt w 16 6) (bitsAt w 10 6))
  | 31 => .ok (.faddA (bitsAt w 30 2) (bitsAt w 28 2) (bitsAt w 22 6) (bitsAt w 16 6) (bitsAt w 10 6))
  | 32 => .ok (.fsubA (bitsAt w 30 2) (bitsAt w 28 2) (bitsAt w 22 6) (bitsAt w 16 6) (bitsAt w 10 6))
  | 33 => .ok (.fmulA (bitsAt w 30 2) (bitsAt w 28 2) (bitsAt w 22 6) (bitsAt w 16 6) (bitsAt w 10 6))
  | 34 => .ok (.fmaA (bitsAt w 30 2) (bitsAt w 28 2) (bitsAt w 22 6) (bitsAt w 16 6) (bitsAt w 10 6))
  | 35 => .ok (.fminA (bitsAt w 30 2) (bitsAt w 28 2) (bitsAt w 22 6) (bitsAt w 16 6) (bitsAt w 10 6))
  | 36 => .ok (.fmaxA (bitsAt w 30 2) (bitsAt w 28 2) (bitsAt w 22 6) (bitsAt w 16 6) (bitsAt w 10 6))
  | 37 => .ok (.fseq (bitsAt w 30 2) (bitsAt w 28 2) (bitsAt w 22 6) (bitsAt w 16 6) (bitsAt w 10 6))
  | 38 => .ok (.fslt (bitsAt w 30 2) (bitsAt w 28 2) (bitsAt w 22 6) (bitsAt w 16 6) (bitsAt w 10 6))
  | 39 => .ok (.fsle (bitsAt w 30 2) (bitsAt w 28 2) (bitsAt w 22 6) (bitsAt w 16 6) (bitsAt w 10 6))
  | 40 => .ok (.fscaleA (bitsAt w 30 2) (bitsAt w 28 2) (bitsAt w 22 6) (bitsAt w 16 6) (bitsAt w 10 6))
  | 41 => .ok (.badd2A (bitsAt w 30 2) (bitsAt w 28 2) (bitsAt w 22 6) (bitsAt w 16 6) (bitsAt w 10 6))
  | 42 => .ok (.bmul2A (bitsAt w 30 2) (bitsAt w 28 2) (bitsAt w 22 6) (bitsAt w 16 6) (bitsAt w 10 6))
  | 43 => .ok (.bfma2A (bitsAt w 30 2) (bitsAt w 28 2) (bitsAt w 22 6) (bitsAt w 16 6) (bitsAt w 10 6))
  | 44 => .ok (.hfma2A (bitsAt w 30 2) (bitsAt w 28 2) (bitsAt w 22 6) (bitsAt w 16 6) (bitsAt w 10 6))
  | 45 => .ok (.hadd2A (bitsAt w 30 2) (bitsAt w 28 2) (bitsAt w 22 6) (bitsAt w 16 6) (bitsAt w 10 6))
  | 46 => .ok (.iadd2sA (bitsAt w 30 2) (bitsAt w 28 2) (bitsAt w 22 6) (bitsAt w 16 6) (bitsAt w 10 6))
  | 47 => .ok (.isub2sA (bitsAt w 30 2) (bitsAt w 28 2) (bitsAt w 22 6) (bitsAt w 16 6) (bitsAt w 10 6))
  | 48 => .ok (.idot2A (bitsAt w 30 2) (bitsAt w 28 2) (bitsAt w 22 6) (bitsAt w 16 6) (bitsAt w 10 6))
  | 49 => .ok (.ishr2rA (bitsAt w 30 2) (bitsAt w 28 2) (bitsAt w 22 6) (bitsAt w 16 6) (bitsAt w 10 6))
  | 50 => .ok (.ipack2s (bitsAt w 30 2) (bitsAt w 28 2) (bitsAt w 22 6) (bitsAt w 16 6) (bitsAt w 10 6))
  | 51 => .ok (.idot4A (bitsAt w 30 2) (bitsAt w 28 2) (bitsAt w 22 6) (bitsAt w 16 6) (bitsAt w 10 6))
  | 56 => fixedOr (w / 4194304 % 64 == 62 && w / 1073741824 % 4 == 0) 0 56 (.smxacc (bitsAt w 28 2) (bitsAt w 16 6) (bitsAt w 10 6))
  | 57 => .ok (.smxnorm (bitsAt w 30 2) (bitsAt w 28 2) (bitsAt w 22 6) (bitsAt w 16 6) (bitsAt w 10 6))
  | 59 => .ok (.lget (bitsAt w 30 2) (bitsAt w 28 2) (bitsAt w 22 6) (bitsAt w 16 6) (bitsAt w 10 6))
  | op => .error (.unassigned 0 op)

/-- Class X of the 32-bit formats (Table 11.2). -/
def decodeX (w : Nat) : Except DecodeError Instr :=
  match w / 16 % 64 with
  | 0 => .ok (.movX (bitsAt w 26 6) (bitsAt w 22 4) (bitsAt w 16 6) (bitsAt w 10 6))
  | 1 => .ok (.addX (bitsAt w 26 6) (bitsAt w 22 4) (bitsAt w 16 6) (bitsAt w 10 6))
  | 2 => .ok (.subX (bitsAt w 26 6) (bitsAt w 22 4) (bitsAt w 16 6) (bitsAt w 10 6))
  | 3 => .ok (.mulloX (bitsAt w 26 6) (bitsAt w 22 4) (bitsAt w 16 6) (bitsAt w 10 6))
  | 7 => .ok (.andX (bitsAt w 26 6) (bitsAt w 22 4) (bitsAt w 16 6) (bitsAt w 10 6))
  | 8 => .ok (.orX (bitsAt w 26 6) (bitsAt w 22 4) (bitsAt w 16 6) (bitsAt w 10 6))
  | 9 => .ok (.xorX (bitsAt w 26 6) (bitsAt w 22 4) (bitsAt w 16 6) (bitsAt w 10 6))
  | 10 => .ok (.andnX (bitsAt w 26 6) (bitsAt w 22 4) (bitsAt w 16 6) (bitsAt w 10 6))
  | 14 => .ok (.minX (bitsAt w 26 6) (bitsAt w 22 4) (bitsAt w 16 6) (bitsAt w 10 6))
  | 15 => .ok (.maxX (bitsAt w 26 6) (bitsAt w 22 4) (bitsAt w 16 6) (bitsAt w 10 6))
  | 16 => .ok (.minuX (bitsAt w 26 6) (bitsAt w 22 4) (bitsAt w 16 6) (bitsAt w 10 6))
  | 17 => .ok (.maxuX (bitsAt w 26 6) (bitsAt w 22 4) (bitsAt w 16 6) (bitsAt w 10 6))
  | 31 => .ok (.faddX (bitsAt w 26 6) (bitsAt w 22 4) (bitsAt w 16 6) (bitsAt w 10 6))
  | 32 => .ok (.fsubX (bitsAt w 26 6) (bitsAt w 22 4) (bitsAt w 16 6) (bitsAt w 10 6))
  | 33 => .ok (.fmulX (bitsAt w 26 6) (bitsAt w 22 4) (bitsAt w 16 6) (bitsAt w 10 6))
  | 34 => .ok (.fmaX (bitsAt w 26 6) (bitsAt w 22 4) (bitsAt w 16 6) (bitsAt w 10 6))
  | 35 => .ok (.fminX (bitsAt w 26 6) (bitsAt w 22 4) (bitsAt w 16 6) (bitsAt w 10 6))
  | 36 => .ok (.fmaxX (bitsAt w 26 6) (bitsAt w 22 4) (bitsAt w 16 6) (bitsAt w 10 6))
  | 41 => .ok (.badd2X (bitsAt w 26 6) (bitsAt w 22 4) (bitsAt w 16 6) (bitsAt w 10 6))
  | 42 => .ok (.bmul2X (bitsAt w 26 6) (bitsAt w 22 4) (bitsAt w 16 6) (bitsAt w 10 6))
  | 43 => .ok (.bfma2X (bitsAt w 26 6) (bitsAt w 22 4) (bitsAt w 16 6) (bitsAt w 10 6))
  | 44 => .ok (.hfma2X (bitsAt w 26 6) (bitsAt w 22 4) (bitsAt w 16 6) (bitsAt w 10 6))
  | 45 => .ok (.hadd2X (bitsAt w 26 6) (bitsAt w 22 4) (bitsAt w 16 6) (bitsAt w 10 6))
  | 46 => .ok (.iadd2sX (bitsAt w 26 6) (bitsAt w 22 4) (bitsAt w 16 6) (bitsAt w 10 6))
  | 47 => .ok (.isub2sX (bitsAt w 26 6) (bitsAt w 22 4) (bitsAt w 16 6) (bitsAt w 10 6))
  | 48 => .ok (.idot2X (bitsAt w 26 6) (bitsAt w 22 4) (bitsAt w 16 6) (bitsAt w 10 6))
  | 51 => .ok (.idot4X (bitsAt w 26 6) (bitsAt w 22 4) (bitsAt w 16 6) (bitsAt w 10 6))
  | op => .error (.unassigned 1 op)

/-- Class I of the 32-bit formats (Table 11.2). -/
def decodeI (w : Nat) : Except DecodeError Instr :=
  match w / 16 % 64 with
  | 0 => fixedOr (w / 65536 % 64 == 62) 2 0 (.movI (bitsAt w 22 10) (bitsAt w 10 6))
  | 1 => .ok (.addI (bitsAt w 22 10) (bitsAt w 16 6) (bitsAt w 10 6))
  | 2 => .ok (.subI (bitsAt w 22 10) (bitsAt w 16 6) (bitsAt w 10 6))
  | 3 => .ok (.mulloI (bitsAt w 22 10) (bitsAt w 16 6) (bitsAt w 10 6))
  | 6 => .ok (.madI (bitsAt w 22 10) (bitsAt w 16 6) (bitsAt w 10 6))
  | 7 => .ok (.andI (bitsAt w 22 10) (bitsAt w 16 6) (bitsAt w 10 6))
  | 8 => .ok (.orI (bitsAt w 22 10) (bitsAt w 16 6) (bitsAt w 10 6))
  | 9 => .ok (.xorI (bitsAt w 22 10) (bitsAt w 16 6) (bitsAt w 10 6))
  | 10 => .ok (.andnI (bitsAt w 22 10) (bitsAt w 16 6) (bitsAt w 10 6))
  | 11 => .ok (.shlI (bitsAt w 22 10) (bitsAt w 16 6) (bitsAt w 10 6))
  | 12 => .ok (.shrI (bitsAt w 22 10) (bitsAt w 16 6) (bitsAt w 10 6))
  | 13 => .ok (.sraI (bitsAt w 22 10) (bitsAt w 16 6) (bitsAt w 10 6))
  | 14 => .ok (.minI (bitsAt w 22 10) (bitsAt w 16 6) (bitsAt w 10 6))
  | 15 => .ok (.maxI (bitsAt w 22 10) (bitsAt w 16 6) (bitsAt w 10 6))
  | 16 => .ok (.minuI (bitsAt w 22 10) (bitsAt w 16 6) (bitsAt w 10 6))
  | 17 => .ok (.maxuI (bitsAt w 22 10) (bitsAt w 16 6) (bitsAt w 10 6))
  | 18 => .ok (.seqI (bitsAt w 22 10) (bitsAt w 16 6) (bitsAt w 10 6))
  | 19 => .ok (.sneI (bitsAt w 22 10) (bitsAt w 16 6) (bitsAt w 10 6))
  | 20 => .ok (.sltI (bitsAt w 22 10) (bitsAt w 16 6) (bitsAt w 10 6))
  | 21 => .ok (.sleI (bitsAt w 22 10) (bitsAt w 16 6) (bitsAt w 10 6))
  | 22 => .ok (.sltuI (bitsAt w 22 10) (bitsAt w 16 6) (bitsAt w 10 6))
  | 23 => .ok (.sleuI (bitsAt w 22 10) (bitsAt w 16 6) (bitsAt w 10 6))
  | 29 => .ok (.add64I (bitsAt w 22 10) (bitsAt w 16 6) (bitsAt w 10 6))
  | 40 => .ok (.fscaleI (bitsAt w 22 10) (bitsAt w 16 6) (bitsAt w 10 6))
  | 49 => fixedOr (w / 134217728 % 32 == 0) 2 49 (.ishr2rI (bitsAt w 22 5) (bitsAt w 16 6) (bitsAt w 10 6))
  | 52 => .ok (.cvt (bitsAt w 30 2) (bitsAt w 26 4) (bitsAt w 22 4) (bitsAt w 16 6) (bitsAt w 10 6))
  | 53 => fixedOr (w / 67108864 % 16 == 0) 2 53 (.sfu (bitsAt w 30 2) (bitsAt w 22 4) (bitsAt w 16 6) (bitsAt w 10 6))
  | 54 => fixedOr (w / 67108864 % 64 == 0) 2 54 (.redg (bitsAt w 22 4) (bitsAt w 16 6) (bitsAt w 10 6))
  | 55 => fixedOr (w / 67108864 % 64 == 0) 2 55 (.scang (bitsAt w 22 4) (bitsAt w 16 6) (bitsAt w 10 6))
  | 58 => fixedOr (w / 16777216 % 256 == 0) 2 58 (.tbl (bitsAt w 22 2) (bitsAt w 16 6) (bitsAt w 10 6))
  | 60 => .ok (.rand (bitsAt w 22 10) (bitsAt w 16 6) (bitsAt w 10 6))
  | op => .error (.unassigned 2 op)

/-- Class M of the 32-bit formats (Table 11.2). -/
def decodeM (w : Nat) : Except DecodeError Instr :=
  match w / 16 % 32 with
  | 0 => .ok (.ldgB (bitsAt w 21 11) (bitsAt w 15 6) (bitsAt w 9 6))
  | 1 => .ok (.ldgSb (bitsAt w 21 11) (bitsAt w 15 6) (bitsAt w 9 6))
  | 2 => .ok (.ldgH (bitsAt w 21 11) (bitsAt w 15 6) (bitsAt w 9 6))
  | 3 => .ok (.ldgSh (bitsAt w 21 11) (bitsAt w 15 6) (bitsAt w 9 6))
  | 4 => .ok (.ldgW (bitsAt w 21 11) (bitsAt w 15 6) (bitsAt w 9 6))
  | 5 => .ok (.ldgD (bitsAt w 21 11) (bitsAt w 15 6) (bitsAt w 9 6))
  | 6 => .ok (.ldgQ (bitsAt w 21 11) (bitsAt w 15 6) (bitsAt w 9 6))
  | 7 => .ok (.ldsH (bitsAt w 21 11) (bitsAt w 15 6) (bitsAt w 9 6))
  | 8 => .ok (.ldsW (bitsAt w 21 11) (bitsAt w 15 6) (bitsAt w 9 6))
  | 9 => .ok (.ldsD (bitsAt w 21 11) (bitsAt w 15 6) (bitsAt w 9 6))
  | 10 => .ok (.ldsQ (bitsAt w 21 11) (bitsAt w 15 6) (bitsAt w 9 6))
  | 11 => .ok (.stgB (bitsAt w 28 4) (bitsAt w 27 1) (bitsAt w 21 6) (bitsAt w 15 6) (bitsAt w 9 6))
  | 12 => .ok (.stgH (bitsAt w 28 4) (bitsAt w 27 1) (bitsAt w 21 6) (bitsAt w 15 6) (bitsAt w 9 6))
  | 13 => .ok (.stgW (bitsAt w 28 4) (bitsAt w 27 1) (bitsAt w 21 6) (bitsAt w 15 6) (bitsAt w 9 6))
  | 14 => .ok (.stgD (bitsAt w 28 4) (bitsAt w 27 1) (bitsAt w 21 6) (bitsAt w 15 6) (bitsAt w 9 6))
  | 15 => .ok (.stgQ (bitsAt w 28 4) (bitsAt w 27 1) (bitsAt w 21 6) (bitsAt w 15 6) (bitsAt w 9 6))
  | 16 => .ok (.stsH (bitsAt w 28 4) (bitsAt w 27 1) (bitsAt w 21 6) (bitsAt w 15 6) (bitsAt w 9 6))
  | 17 => .ok (.stsW (bitsAt w 28 4) (bitsAt w 27 1) (bitsAt w 21 6) (bitsAt w 15 6) (bitsAt w 9 6))
  | 18 => .ok (.stsD (bitsAt w 28 4) (bitsAt w 27 1) (bitsAt w 21 6) (bitsAt w 15 6) (bitsAt w 9 6))
  | 19 => .ok (.stsQ (bitsAt w 28 4) (bitsAt w 27 1) (bitsAt w 21 6) (bitsAt w 15 6) (bitsAt w 9 6))
  | 20 => .ok (.aadd (bitsAt w 28 4) (bitsAt w 27 1) (bitsAt w 21 6) (bitsAt w 15 6) (bitsAt w 9 6))
  | 21 => .ok (.amin (bitsAt w 28 4) (bitsAt w 27 1) (bitsAt w 21 6) (bitsAt w 15 6) (bitsAt w 9 6))
  | 22 => .ok (.amax (bitsAt w 28 4) (bitsAt w 27 1) (bitsAt w 21 6) (bitsAt w 15 6) (bitsAt w 9 6))
  | 23 => .ok (.aand (bitsAt w 28 4) (bitsAt w 27 1) (bitsAt w 21 6) (bitsAt w 15 6) (bitsAt w 9 6))
  | 24 => .ok (.aor (bitsAt w 28 4) (bitsAt w 27 1) (bitsAt w 21 6) (bitsAt w 15 6) (bitsAt w 9 6))
  | 25 => .ok (.axor (bitsAt w 28 4) (bitsAt w 27 1) (bitsAt w 21 6) (bitsAt w 15 6) (bitsAt w 9 6))
  | 26 => .ok (.axch (bitsAt w 28 4) (bitsAt w 27 1) (bitsAt w 21 6) (bitsAt w 15 6) (bitsAt w 9 6))
  | 27 => .ok (.acas (bitsAt w 28 4) (bitsAt w 27 1) (bitsAt w 21 6) (bitsAt w 15 6) (bitsAt w 9 6))
  | 28 => .ok (.afadd (bitsAt w 28 4) (bitsAt w 27 1) (bitsAt w 21 6) (bitsAt w 15 6) (bitsAt w 9 6))
  | 29 => .ok (.dred (bitsAt w 28 4) (bitsAt w 27 1) (bitsAt w 21 6) (bitsAt w 15 6) (bitsAt w 9 6))
  | 30 => .ok (.acasD (bitsAt w 28 4) (bitsAt w 27 1) (bitsAt w 21 6) (bitsAt w 15 6) (bitsAt w 9 6))
  | 31 => .ok (.axchD (bitsAt w 28 4) (bitsAt w 27 1) (bitsAt w 21 6) (bitsAt w 15 6) (bitsAt w 9 6))
  | op => .error (.unassigned 3 op)

/-- Class B of the 32-bit formats (Table 11.2). -/
def decodeB (w : Nat) : Except DecodeError Instr :=
  match w / 16 % 8 with
  | 0 => .ok (.bra (bitsAt w 14 18) (bitsAt w 13 1) (bitsAt w 7 6))
  | 1 => .ok (.call (bitsAt w 14 18) (bitsAt w 13 1) (bitsAt w 7 6))
  | 2 => fixedOr (w / 1048576 % 4096 == 0) 4 2 (.brx (bitsAt w 14 6) (bitsAt w 13 1) (bitsAt w 7 6))
  | 3 => fixedOr (w / 16384 % 262144 == 0) 4 3 (.ret (bitsAt w 13 1) (bitsAt w 7 6))
  | 4 => fixedOr (w / 16384 % 262144 == 0) 4 4 (.exit (bitsAt w 13 1) (bitsAt w 7 6))
  | 5 => fixedOr (w / 16384 % 262144 == 0) 4 5 (.brk (bitsAt w 13 1) (bitsAt w 7 6))
  | op => .error (.unassigned 4 op)

/-- Class E of the 32-bit formats (Table 11.2). -/
def decodeE (w : Nat) : Except DecodeError Instr :=
  match w / 16 % 32 with
  | 0 => fixedOr (w / 536870912 % 8 == 0) 5 0 (.tload (bitsAt w 27 2) (bitsAt w 21 6) (bitsAt w 15 6) (bitsAt w 9 6))
  | 1 => fixedOr (w / 536870912 % 8 == 0) 5 1 (.tstore (bitsAt w 27 2) (bitsAt w 21 6) (bitsAt w 15 6) (bitsAt w 9 6))
  | 2 => fixedOr (w / 536870912 % 8 == 0) 5 2 (.tgather (bitsAt w 27 2) (bitsAt w 21 6) (bitsAt w 15 6) (bitsAt w 9 6))
  | 3 => fixedOr (w / 268435456 % 16 == 0) 5 3 (.tzero (bitsAt w 27 1) (bitsAt w 21 6) (bitsAt w 15 6) (bitsAt w 9 6))
  | 4 => fixedOr (w / 134217728 % 32 == 0) 5 4 (.tpref (bitsAt w 21 6) (bitsAt w 15 6) (bitsAt w 9 6))
  | 5 => fixedOr (w / 536870912 % 8 == 0) 5 5 (.xput (bitsAt w 27 2) (bitsAt w 21 6) (bitsAt w 15 6) (bitsAt w 9 6))
  | 6 => fixedOr (w / 536870912 % 8 == 0) 5 6 (.xget (bitsAt w 27 2) (bitsAt w 21 6) (bitsAt w 15 6) (bitsAt w 9 6))
  | 7 => fixedOr (w / 536870912 % 8 == 0) 5 7 (.tscat (bitsAt w 27 2) (bitsAt w 21 6) (bitsAt w 15 6) (bitsAt w 9 6))
  | 8 => fixedOr (w / 2147483648 % 2 == 0) 5 8 (.mma (bitsAt w 27 4) (bitsAt w 21 6) (bitsAt w 15 6) (bitsAt w 9 6))
  | 9 => fixedOr (w / 536870912 % 2 == 0 && w / 2147483648 % 2 == 0) 5 9 (.mmar (bitsAt w 30 1) (bitsAt w 27 2) (bitsAt w 21 6) (bitsAt w 15 6) (bitsAt w 9 6))
  | 10 => fixedOr (w / 2147483648 % 2 == 0) 5 10 (.mmas (bitsAt w 27 4) (bitsAt w 21 6) (bitsAt w 15 6) (bitsAt w 9 6))
  | 11 => fixedOr (w / 268435456 % 16 == 0) 5 11 (.smma (bitsAt w 27 1) (bitsAt w 21 6) (bitsAt w 15 6) (bitsAt w 9 6))
  | 12 => fixedOr (w / 512 % 4096 == 4030) 5 12 (.accalloc (bitsAt w 27 5) (bitsAt w 21 6))
  | 13 => fixedOr (w / 512 % 4096 == 4030 && w / 134217728 % 32 == 0) 5 13 (.accfree (bitsAt w 21 6))
  | 14 => fixedOr (w / 134217728 % 32 == 0) 5 14 (.accld (bitsAt w 21 6) (bitsAt w 15 6) (bitsAt w 9 6))
  | 15 => fixedOr (w / 1073741824 % 4 == 0) 5 15 (.accst (bitsAt w 27 3) (bitsAt w 21 6) (bitsAt w 15 6) (bitsAt w 9 6))
  | 16 => fixedOr (w / 32768 % 64 == 62) 5 16 (.bfly (bitsAt w 27 5) (bitsAt w 21 6) (bitsAt w 9 6))
  | 17 => fixedOr (w / 32768 % 64 == 62 && w / 134217728 % 8 == 0 && w / 2147483648 % 2 == 0) 5 17 (.btwid (bitsAt w 30 1) (bitsAt w 21 6) (bitsAt w 9 6))
  | 18 => fixedOr (w / 32768 % 64 == 62 && w / 268435456 % 16 == 0) 5 18 (.brevEng (bitsAt w 27 1) (bitsAt w 21 6) (bitsAt w 9 6))
  | 19 => fixedOr (w / 512 % 4096 == 4030 && w / 134217728 % 32 == 0) 5 19 (.atrans (bitsAt w 21 6))
  | 20 => fixedOr (w / 32768 % 64 == 62 && w / 134217728 % 32 == 0) 5 20 (.lubeg (bitsAt w 21 6) (bitsAt w 9 6))
  | 21 => fixedOr (w / 32768 % 64 == 62 && w / 134217728 % 32 == 0) 5 21 (.lustep (bitsAt w 21 6) (bitsAt w 9 6))
  | 22 => fixedOr (w / 134217728 % 32 == 0) 5 22 (.lucand (bitsAt w 21 6) (bitsAt w 15 6) (bitsAt w 9 6))
  | 23 => fixedOr (w / 134217728 % 32 == 0) 5 23 (.lucommit (bitsAt w 21 6) (bitsAt w 15 6) (bitsAt w 9 6))
  | 24 => fixedOr (w / 134217728 % 32 == 0) 5 24 (.luend (bitsAt w 21 6) (bitsAt w 15 6) (bitsAt w 9 6))
  | 25 => fixedOr (w / 536870912 % 8 == 0) 5 25 (.smul (bitsAt w 27 2) (bitsAt w 21 6) (bitsAt w 15 6) (bitsAt w 9 6))
  | 26 => fixedOr (w / 32768 % 64 == 62 && w / 536870912 % 8 == 0) 5 26 (.strunc (bitsAt w 27 2) (bitsAt w 21 6) (bitsAt w 9 6))
  | 27 => fixedOr (w / 32768 % 64 == 62 && w / 536870912 % 8 == 0) 5 27 (.sltz (bitsAt w 27 2) (bitsAt w 21 6) (bitsAt w 9 6))
  | 28 => fixedOr (w / 32768 % 64 == 62 && w / 2147483648 % 2 == 0) 5 28 (.slut (bitsAt w 29 2) (bitsAt w 27 2) (bitsAt w 21 6) (bitsAt w 9 6))
  | 29 => fixedOr (w / 32768 % 64 == 62 && w / 536870912 % 8 == 0) 5 29 (.sopen (bitsAt w 27 2) (bitsAt w 21 6) (bitsAt w 9 6))
  | 30 => fixedOr (w / 134217728 % 32 == 0) 5 30 (.accrow (bitsAt w 21 6) (bitsAt w 15 6) (bitsAt w 9 6))
  | op => .error (.unassigned 5 op)

/-- Class S of the 32-bit formats (Table 11.2). -/
def decodeS (w : Nat) : Except DecodeError Instr :=
  match w / 16 % 64 with
  | 0 => fixedOr (w / 1024 % 4194304 == 4030) 6 0 (.nop)
  | 1 => fixedOr (w / 1024 % 4194304 == 4030) 6 1 (.barg)
  | 2 => fixedOr (w / 1024 % 4096 == 4030 && w / 1073741824 % 4 == 0) 6 2 (.bart (bitsAt w 22 8))
  | 3 => fixedOr (w / 1024 % 4096 == 4030 && w / 1073741824 % 4 == 0) 6 3 (.bararv (bitsAt w 22 8))
  | 4 => fixedOr (w / 1024 % 4096 == 4030 && w / 67108864 % 64 == 0) 6 4 (.barwt (bitsAt w 22 4))
  | 5 => fixedOr (w / 1024 % 4096 == 4030) 6 5 (.waitc (bitsAt w 22 10))
  | 6 => fixedOr (w / 4194304 % 1024 == 0) 6 6 (.waitw (bitsAt w 16 6) (bitsAt w 10 6))
  | 7 => fixedOr (w / 4194304 % 1024 == 0) 6 7 (.swait (bitsAt w 16 6) (bitsAt w 10 6))
  | 8 => fixedOr (w / 4194304 % 1024 == 0) 6 8 (.syncset (bitsAt w 16 6) (bitsAt w 10 6))
  | 9 => fixedOr (w / 65536 % 64 == 62 && w / 33554432 % 128 == 0) 6 9 (.mbr (bitsAt w 22 3) (bitsAt w 10 6))
  | 10 => fixedOr (w / 1024 % 64 == 62 && w / 33554432 % 128 == 0) 6 10 (.mbw (bitsAt w 22 3) (bitsAt w 16 6))
  | 11 => fixedOr (w / 1024 % 64 == 62 && w / 4194304 % 1024 == 0) 6 11 (.qroute (bitsAt w 16 6))
  | 12 => fixedOr (w / 65536 % 64 == 62) 6 12 (.qstat (bitsAt w 22 10) (bitsAt w 10 6))
  | 13 => fixedOr (w / 1024 % 4194304 == 4030) 6 13 (.yield)
  | 14 => fixedOr (w / 1024 % 4096 == 4030) 6 14 (.nap (bitsAt w 22 10))
  | 15 => fixedOr (w / 65536 % 64 == 62 && w / 268435456 % 8 == 0) 6 15 (.reggrow (bitsAt w 31 1) (bitsAt w 22 6) (bitsAt w 10 6))
  | 16 => fixedOr (w / 65536 % 64 == 62 && w / 268435456 % 16 == 0) 6 16 (.regshrink (bitsAt w 22 6) (bitsAt w 10 6))
  | 17 => fixedOr (w / 65536 % 64 == 62) 6 17 (.ident (bitsAt w 22 10) (bitsAt w 10 6))
  | 18 => fixedOr (w / 1024 % 64 == 62 && w / 4194304 % 1024 == 0) 6 18 (.trap (bitsAt w 16 6))
  | 19 => fixedOr (w / 65536 % 64 == 62) 6 19 (.flagrd (bitsAt w 22 10) (bitsAt w 10 6))
  | 20 => fixedOr (w / 1024 % 4096 == 4030 && w / 536870912 % 8 == 0) 6 20 (.flagclr (bitsAt w 22 7))
  | 21 => fixedOr (w / 65536 % 64 == 62) 6 21 (.csrrd (bitsAt w 22 10) (bitsAt w 10 6))
  | 22 => fixedOr (w / 1024 % 64 == 62) 6 22 (.csrwr (bitsAt w 22 10) (bitsAt w 16 6))
  | 23 => fixedOr (w / 65536 % 65536 == 62) 6 23 (.elect (bitsAt w 10 6))
  | 24 => .ok (.vote (bitsAt w 22 10) (bitsAt w 16 6) (bitsAt w 10 6))
  | 25 => fixedOr (w / 1024 % 4194304 == 4030) 6 25 (.dflush)
  | 26 => fixedOr (w / 1024 % 64 == 62 && w / 16777216 % 256 == 0) 6 26 (.tblld (bitsAt w 22 2) (bitsAt w 16 6))
  | 27 => .ok (.stmap (bitsAt w 22 10) (bitsAt w 16 6) (bitsAt w 10 6))
  | 28 => fixedOr (w / 1024 % 64 == 62 && w / 4194304 % 1024 == 0) 6 28 (.stflush (bitsAt w 16 6))
  | 29 => fixedOr (w / 1024 % 4194304 == 4030) 6 29 (.xfence)
  | 30 => fixedOr (w / 134217728 % 32 == 0) 6 30 (.launch (bitsAt w 22 5) (bitsAt w 16 6) (bitsAt w 10 6))
  | 31 => fixedOr (w / 1024 % 64 == 62) 6 31 (.mark (bitsAt w 22 10) (bitsAt w 16 6))
  | 32 => fixedOr (w / 65536 % 64 == 62) 6 32 (.perfrd (bitsAt w 22 10) (bitsAt w 10 6))
  | 33 => fixedOr (w / 4194304 % 1024 == 0) 6 33 (.dwsel (bitsAt w 16 6) (bitsAt w 10 6))
  | 34 => fixedOr (w / 4194304 % 1024 == 0) 6 34 (.dwrd (bitsAt w 16 6) (bitsAt w 10 6))
  | 35 => fixedOr (w / 4194304 % 1024 == 0) 6 35 (.dwwr (bitsAt w 16 6) (bitsAt w 10 6))
  | 36 => fixedOr (w / 1024 % 64 == 62) 6 36 (.dwres (bitsAt w 22 10) (bitsAt w 16 6))
  | 37 => fixedOr (w / 1024 % 4194304 == 4030) 6 37 (.dwkill)
  | op => .error (.unassigned 6 op)

/-- Class W of the 32-bit formats (Table 11.2). -/
def decodeW (w : Nat) : Except DecodeError Instr :=
  match w / 16 % 64 with
  | 0 => .ok (.movi (bitsAt w 16 16) (bitsAt w 10 6))
  | 1 => .ok (.movhi (bitsAt w 16 16) (bitsAt w 10 6))
  | 2 => .ok (.addi (bitsAt w 16 16) (bitsAt w 10 6))
  | 3 => .ok (.movbf (bitsAt w 16 16) (bitsAt w 10 6))
  | 4 => .ok (.lpc (bitsAt w 16 16) (bitsAt w 10 6))
  | op => .error (.unassigned 7 op)

/-- R205. A 32-bit instruction. -/
def decode32 (w : Nat) : Except DecodeError Instr :=
  match w / 2 % 8 with
  | 0 => decodeA w
  | 1 => decodeX w
  | 2 => decodeI w
  | 3 => decodeM w
  | 4 => decodeB w
  | 5 => decodeE w
  | 6 => decodeS w
  | _ => decodeW w

/-- R203. The instruction at the head of a byte list, and the bytes after it. -/
def decode : List Byte → Except DecodeError (Instr × List Byte)
  | b0 :: b1 :: rest =>
    let h := b0.toNat + 256 * b1.toNat
    if h % 2 = 0 then (decode16 h).map fun i => (i, rest)
    else
      match rest with
      | b2 :: b3 :: rest' =>
        (decode32 (h + 65536 * b2.toNat + 16777216 * b3.toNat)).map fun i => (i, rest')
      | _ => .error .truncated
  | _ => .error .truncated

/-- The word of an instruction and its length in bytes, 2 or 4; 0 for an event, which has no word. -/
def encodeWord : Instr → Nat × Nat
  | .movA x a d => (260046849 + x.toNat * 268435456 + a.toNat * 65536 + d.toNat * 1024, 4)
  | .movX p t a d => (3 + p.toNat * 67108864 + t.toNat * 4194304 + a.toNat * 65536 + d.toNat * 1024, 4)
  | .movI i d => (4063237 + i.toNat * 4194304 + d.toNat * 1024, 4)
  | .addA y x b a d => (17 + y.toNat * 1073741824 + x.toNat * 268435456 + b.toNat * 4194304 + a.toNat * 65536 + d.toNat * 1024, 4)
  | .addX p t a d => (19 + p.toNat * 67108864 + t.toNat * 4194304 + a.toNat * 65536 + d.toNat * 1024, 4)
  | .addI i a d => (21 + i.toNat * 4194304 + a.toNat * 65536 + d.toNat * 1024, 4)
  | .subA y x b a d => (33 + y.toNat * 1073741824 + x.toNat * 268435456 + b.toNat * 4194304 + a.toNat * 65536 + d.toNat * 1024, 4)
  | .subX p t a d => (35 + p.toNat * 67108864 + t.toNat * 4194304 + a.toNat * 65536 + d.toNat * 1024, 4)
  | .subI i a d => (37 + i.toNat * 4194304 + a.toNat * 65536 + d.toNat * 1024, 4)
  | .mulloA y x b a d => (49 + y.toNat * 1073741824 + x.toNat * 268435456 + b.toNat * 4194304 + a.toNat * 65536 + d.toNat * 1024, 4)
  | .mulloX p t a d => (51 + p.toNat * 67108864 + t.toNat * 4194304 + a.toNat * 65536 + d.toNat * 1024, 4)
  | .mulloI i a d => (53 + i.toNat * 4194304 + a.toNat * 65536 + d.toNat * 1024, 4)
  | .mulhi y x b a d => (65 + y.toNat * 1073741824 + x.toNat * 268435456 + b.toNat * 4194304 + a.toNat * 65536 + d.toNat * 1024, 4)
  | .mulhu y x b a d => (81 + y.toNat * 1073741824 + x.toNat * 268435456 + b.toNat * 4194304 + a.toNat * 65536 + d.toNat * 1024, 4)
  | .madA y x b a d => (97 + y.toNat * 1073741824 + x.toNat * 268435456 + b.toNat * 4194304 + a.toNat * 65536 + d.toNat * 1024, 4)
  | .madI i a d => (101 + i.toNat * 4194304 + a.toNat * 65536 + d.toNat * 1024, 4)
  | .andA y x b a d => (113 + y.toNat * 1073741824 + x.toNat * 268435456 + b.toNat * 4194304 + a.toNat * 65536 + d.toNat * 1024, 4)
  | .andX p t a d => (115 + p.toNat * 67108864 + t.toNat * 4194304 + a.toNat * 65536 + d.toNat * 1024, 4)
  | .andI i a d => (117 + i.toNat * 4194304 + a.toNat * 65536 + d.toNat * 1024, 4)
  | .orA y x b a d => (129 + y.toNat * 1073741824 + x.toNat * 268435456 + b.toNat * 4194304 + a.toNat * 65536 + d.toNat * 1024, 4)
  | .orX p t a d => (131 + p.toNat * 67108864 + t.toNat * 4194304 + a.toNat * 65536 + d.toNat * 1024, 4)
  | .orI i a d => (133 + i.toNat * 4194304 + a.toNat * 65536 + d.toNat * 1024, 4)
  | .xorA y x b a d => (145 + y.toNat * 1073741824 + x.toNat * 268435456 + b.toNat * 4194304 + a.toNat * 65536 + d.toNat * 1024, 4)
  | .xorX p t a d => (147 + p.toNat * 67108864 + t.toNat * 4194304 + a.toNat * 65536 + d.toNat * 1024, 4)
  | .xorI i a d => (149 + i.toNat * 4194304 + a.toNat * 65536 + d.toNat * 1024, 4)
  | .andnA y x b a d => (161 + y.toNat * 1073741824 + x.toNat * 268435456 + b.toNat * 4194304 + a.toNat * 65536 + d.toNat * 1024, 4)
  | .andnX p t a d => (163 + p.toNat * 67108864 + t.toNat * 4194304 + a.toNat * 65536 + d.toNat * 1024, 4)
  | .andnI i a d => (165 + i.toNat * 4194304 + a.toNat * 65536 + d.toNat * 1024, 4)
  | .shlA y x b a d => (177 + y.toNat * 1073741824 + x.toNat * 268435456 + b.toNat * 4194304 + a.toNat * 65536 + d.toNat * 1024, 4)
  | .shlI i a d => (181 + i.toNat * 4194304 + a.toNat * 65536 + d.toNat * 1024, 4)
  | .shrA y x b a d => (193 + y.toNat * 1073741824 + x.toNat * 268435456 + b.toNat * 4194304 + a.toNat * 65536 + d.toNat * 1024, 4)
  | .shrI i a d => (197 + i.toNat * 4194304 + a.toNat * 65536 + d.toNat * 1024, 4)
  | .sraA y x b a d => (209 + y.toNat * 1073741824 + x.toNat * 268435456 + b.toNat * 4194304 + a.toNat * 65536 + d.toNat * 1024, 4)
  | .sraI i a d => (213 + i.toNat * 4194304 + a.toNat * 65536 + d.toNat * 1024, 4)
  | .minA y x b a d => (225 + y.toNat * 1073741824 + x.toNat * 268435456 + b.toNat * 4194304 + a.toNat * 65536 + d.toNat * 1024, 4)
  | .minX p t a d => (227 + p.toNat * 67108864 + t.toNat * 4194304 + a.toNat * 65536 + d.toNat * 1024, 4)
  | .minI i a d => (229 + i.toNat * 4194304 + a.toNat * 65536 + d.toNat * 1024, 4)
  | .maxA y x b a d => (241 + y.toNat * 1073741824 + x.toNat * 268435456 + b.toNat * 4194304 + a.toNat * 65536 + d.toNat * 1024, 4)
  | .maxX p t a d => (243 + p.toNat * 67108864 + t.toNat * 4194304 + a.toNat * 65536 + d.toNat * 1024, 4)
  | .maxI i a d => (245 + i.toNat * 4194304 + a.toNat * 65536 + d.toNat * 1024, 4)
  | .minuA y x b a d => (257 + y.toNat * 1073741824 + x.toNat * 268435456 + b.toNat * 4194304 + a.toNat * 65536 + d.toNat * 1024, 4)
  | .minuX p t a d => (259 + p.toNat * 67108864 + t.toNat * 4194304 + a.toNat * 65536 + d.toNat * 1024, 4)
  | .minuI i a d => (261 + i.toNat * 4194304 + a.toNat * 65536 + d.toNat * 1024, 4)
  | .maxuA y x b a d => (273 + y.toNat * 1073741824 + x.toNat * 268435456 + b.toNat * 4194304 + a.toNat * 65536 + d.toNat * 1024, 4)
  | .maxuX p t a d => (275 + p.toNat * 67108864 + t.toNat * 4194304 + a.toNat * 65536 + d.toNat * 1024, 4)
  | .maxuI i a d => (277 + i.toNat * 4194304 + a.toNat * 65536 + d.toNat * 1024, 4)
  | .seqA y x b a d => (289 + y.toNat * 1073741824 + x.toNat * 268435456 + b.toNat * 4194304 + a.toNat * 65536 + d.toNat * 1024, 4)
  | .seqI i a d => (293 + i.toNat * 4194304 + a.toNat * 65536 + d.toNat * 1024, 4)
  | .sneA y x b a d => (305 + y.toNat * 1073741824 + x.toNat * 268435456 + b.toNat * 4194304 + a.toNat * 65536 + d.toNat * 1024, 4)
  | .sneI i a d => (309 + i.toNat * 4194304 + a.toNat * 65536 + d.toNat * 1024, 4)
  | .sltA y x b a d => (321 + y.toNat * 1073741824 + x.toNat * 268435456 + b.toNat * 4194304 + a.toNat * 65536 + d.toNat * 1024, 4)
  | .sltI i a d => (325 + i.toNat * 4194304 + a.toNat * 65536 + d.toNat * 1024, 4)
  | .sleA y x b a d => (337 + y.toNat * 1073741824 + x.toNat * 268435456 + b.toNat * 4194304 + a.toNat * 65536 + d.toNat * 1024, 4)
  | .sleI i a d => (341 + i.toNat * 4194304 + a.toNat * 65536 + d.toNat * 1024, 4)
  | .sltuA y x b a d => (353 + y.toNat * 1073741824 + x.toNat * 268435456 + b.toNat * 4194304 + a.toNat * 65536 + d.toNat * 1024, 4)
  | .sltuI i a d => (357 + i.toNat * 4194304 + a.toNat * 65536 + d.toNat * 1024, 4)
  | .sleuA y x b a d => (369 + y.toNat * 1073741824 + x.toNat * 268435456 + b.toNat * 4194304 + a.toNat * 65536 + d.toNat * 1024, 4)
  | .sleuI i a d => (373 + i.toNat * 4194304 + a.toNat * 65536 + d.toNat * 1024, 4)
  | .selt y x b a d => (385 + y.toNat * 1073741824 + x.toNat * 268435456 + b.toNat * 4194304 + a.toNat * 65536 + d.toNat * 1024, 4)
  | .self y x b a d => (401 + y.toNat * 1073741824 + x.toNat * 268435456 + b.toNat * 4194304 + a.toNat * 65536 + d.toNat * 1024, 4)
  | .popc x a d => (260047265 + x.toNat * 268435456 + a.toNat * 65536 + d.toNat * 1024, 4)
  | .clz x a d => (260047281 + x.toNat * 268435456 + a.toNat * 65536 + d.toNat * 1024, 4)
  | .brevA x a d => (260047297 + x.toNat * 268435456 + a.toNat * 65536 + d.toNat * 1024, 4)
  | .add64A y x b a d => (465 + y.toNat * 1073741824 + x.toNat * 268435456 + b.toNat * 4194304 + a.toNat * 65536 + d.toNat * 1024, 4)
  | .add64I i a d => (469 + i.toNat * 4194304 + a.toNat * 65536 + d.toNat * 1024, 4)
  | .madw y x b a d => (481 + y.toNat * 1073741824 + x.toNat * 268435456 + b.toNat * 4194304 + a.toNat * 65536 + d.toNat * 1024, 4)
  | .faddA y x b a d => (497 + y.toNat * 1073741824 + x.toNat * 268435456 + b.toNat * 4194304 + a.toNat * 65536 + d.toNat * 1024, 4)
  | .faddX p t a d => (499 + p.toNat * 67108864 + t.toNat * 4194304 + a.toNat * 65536 + d.toNat * 1024, 4)
  | .fsubA y x b a d => (513 + y.toNat * 1073741824 + x.toNat * 268435456 + b.toNat * 4194304 + a.toNat * 65536 + d.toNat * 1024, 4)
  | .fsubX p t a d => (515 + p.toNat * 67108864 + t.toNat * 4194304 + a.toNat * 65536 + d.toNat * 1024, 4)
  | .fmulA y x b a d => (529 + y.toNat * 1073741824 + x.toNat * 268435456 + b.toNat * 4194304 + a.toNat * 65536 + d.toNat * 1024, 4)
  | .fmulX p t a d => (531 + p.toNat * 67108864 + t.toNat * 4194304 + a.toNat * 65536 + d.toNat * 1024, 4)
  | .fmaA y x b a d => (545 + y.toNat * 1073741824 + x.toNat * 268435456 + b.toNat * 4194304 + a.toNat * 65536 + d.toNat * 1024, 4)
  | .fmaX p t a d => (547 + p.toNat * 67108864 + t.toNat * 4194304 + a.toNat * 65536 + d.toNat * 1024, 4)
  | .fminA y x b a d => (561 + y.toNat * 1073741824 + x.toNat * 268435456 + b.toNat * 4194304 + a.toNat * 65536 + d.toNat * 1024, 4)
  | .fminX p t a d => (563 + p.toNat * 67108864 + t.toNat * 4194304 + a.toNat * 65536 + d.toNat * 1024, 4)
  | .fmaxA y x b a d => (577 + y.toNat * 1073741824 + x.toNat * 268435456 + b.toNat * 4194304 + a.toNat * 65536 + d.toNat * 1024, 4)
  | .fmaxX p t a d => (579 + p.toNat * 67108864 + t.toNat * 4194304 + a.toNat * 65536 + d.toNat * 1024, 4)
  | .fseq y x b a d => (593 + y.toNat * 1073741824 + x.toNat * 268435456 + b.toNat * 4194304 + a.toNat * 65536 + d.toNat * 1024, 4)
  | .fslt y x b a d => (609 + y.toNat * 1073741824 + x.toNat * 268435456 + b.toNat * 4194304 + a.toNat * 65536 + d.toNat * 1024, 4)
  | .fsle y x b a d => (625 + y.toNat * 1073741824 + x.toNat * 268435456 + b.toNat * 4194304 + a.toNat * 65536 + d.toNat * 1024, 4)
  | .fscaleA y x b a d => (641 + y.toNat * 1073741824 + x.toNat * 268435456 + b.toNat * 4194304 + a.toNat * 65536 + d.toNat * 1024, 4)
  | .fscaleI i a d => (645 + i.toNat * 4194304 + a.toNat * 65536 + d.toNat * 1024, 4)
  | .badd2A y x b a d => (657 + y.toNat * 1073741824 + x.toNat * 268435456 + b.toNat * 4194304 + a.toNat * 65536 + d.toNat * 1024, 4)
  | .badd2X p t a d => (659 + p.toNat * 67108864 + t.toNat * 4194304 + a.toNat * 65536 + d.toNat * 1024, 4)
  | .bmul2A y x b a d => (673 + y.toNat * 1073741824 + x.toNat * 268435456 + b.toNat * 4194304 + a.toNat * 65536 + d.toNat * 1024, 4)
  | .bmul2X p t a d => (675 + p.toNat * 67108864 + t.toNat * 4194304 + a.toNat * 65536 + d.toNat * 1024, 4)
  | .bfma2A y x b a d => (689 + y.toNat * 1073741824 + x.toNat * 268435456 + b.toNat * 4194304 + a.toNat * 65536 + d.toNat * 1024, 4)
  | .bfma2X p t a d => (691 + p.toNat * 67108864 + t.toNat * 4194304 + a.toNat * 65536 + d.toNat * 1024, 4)
  | .hfma2A y x b a d => (705 + y.toNat * 1073741824 + x.toNat * 268435456 + b.toNat * 4194304 + a.toNat * 65536 + d.toNat * 1024, 4)
  | .hfma2X p t a d => (707 + p.toNat * 67108864 + t.toNat * 4194304 + a.toNat * 65536 + d.toNat * 1024, 4)
  | .hadd2A y x b a d => (721 + y.toNat * 1073741824 + x.toNat * 268435456 + b.toNat * 4194304 + a.toNat * 65536 + d.toNat * 1024, 4)
  | .hadd2X p t a d => (723 + p.toNat * 67108864 + t.toNat * 4194304 + a.toNat * 65536 + d.toNat * 1024, 4)
  | .iadd2sA y x b a d => (737 + y.toNat * 1073741824 + x.toNat * 268435456 + b.toNat * 4194304 + a.toNat * 65536 + d.toNat * 1024, 4)
  | .iadd2sX p t a d => (739 + p.toNat * 67108864 + t.toNat * 4194304 + a.toNat * 65536 + d.toNat * 1024, 4)
  | .isub2sA y x b a d => (753 + y.toNat * 1073741824 + x.toNat * 268435456 + b.toNat * 4194304 + a.toNat * 65536 + d.toNat * 1024, 4)
  | .isub2sX p t a d => (755 + p.toNat * 67108864 + t.toNat * 4194304 + a.toNat * 65536 + d.toNat * 1024, 4)
  | .idot2A y x b a d => (769 + y.toNat * 1073741824 + x.toNat * 268435456 + b.toNat * 4194304 + a.toNat * 65536 + d.toNat * 1024, 4)
  | .idot2X p t a d => (771 + p.toNat * 67108864 + t.toNat * 4194304 + a.toNat * 65536 + d.toNat * 1024, 4)
  | .ishr2rA y x b a d => (785 + y.toNat * 1073741824 + x.toNat * 268435456 + b.toNat * 4194304 + a.toNat * 65536 + d.toNat * 1024, 4)
  | .ishr2rI i a d => (789 + i.toNat * 4194304 + a.toNat * 65536 + d.toNat * 1024, 4)
  | .ipack2s y x b a d => (801 + y.toNat * 1073741824 + x.toNat * 268435456 + b.toNat * 4194304 + a.toNat * 65536 + d.toNat * 1024, 4)
  | .idot4A y x b a d => (817 + y.toNat * 1073741824 + x.toNat * 268435456 + b.toNat * 4194304 + a.toNat * 65536 + d.toNat * 1024, 4)
  | .idot4X p t a d => (819 + p.toNat * 67108864 + t.toNat * 4194304 + a.toNat * 65536 + d.toNat * 1024, 4)
  | .cvt m t s a d => (837 + m.toNat * 1073741824 + t.toNat * 67108864 + s.toNat * 4194304 + a.toNat * 65536 + d.toNat * 1024, 4)
  | .sfu f n a d => (853 + f.toNat * 1073741824 + n.toNat * 4194304 + a.toNat * 65536 + d.toNat * 1024, 4)
  | .redg c a d => (869 + c.toNat * 4194304 + a.toNat * 65536 + d.toNat * 1024, 4)
  | .scang c a d => (885 + c.toNat * 4194304 + a.toNat * 65536 + d.toNat * 1024, 4)
  | .smxacc x a d => (260047745 + x.toNat * 268435456 + a.toNat * 65536 + d.toNat * 1024, 4)
  | .smxnorm y x b a d => (913 + y.toNat * 1073741824 + x.toNat * 268435456 + b.toNat * 4194304 + a.toNat * 65536 + d.toNat * 1024, 4)
  | .tbl k a d => (933 + k.toNat * 4194304 + a.toNat * 65536 + d.toNat * 1024, 4)
  | .lget y x b a d => (945 + y.toNat * 1073741824 + x.toNat * 268435456 + b.toNat * 4194304 + a.toNat * 65536 + d.toNat * 1024, 4)
  | .rand i a d => (965 + i.toNat * 4194304 + a.toNat * 65536 + d.toNat * 1024, 4)
  | .mov16 l s d => (0 + l.toNat * 32768 + s.toNat * 1024 + d.toNat * 32, 2)
  | .add16 l s d => (2 + l.toNat * 32768 + s.toNat * 1024 + d.toNat * 32, 2)
  | .sub16 l s d => (4 + l.toNat * 32768 + s.toNat * 1024 + d.toNat * 32, 2)
  | .and16 l s d => (6 + l.toNat * 32768 + s.toNat * 1024 + d.toNat * 32, 2)
  | .or16 l s d => (8 + l.toNat * 32768 + s.toNat * 1024 + d.toNat * 32, 2)
  | .xor16 l s d => (10 + l.toNat * 32768 + s.toNat * 1024 + d.toNat * 32, 2)
  | .shl16 l s d => (12 + l.toNat * 32768 + s.toNat * 1024 + d.toNat * 32, 2)
  | .shr16 l s d => (14 + l.toNat * 32768 + s.toNat * 1024 + d.toNat * 32, 2)
  | .sra16 l s d => (16 + l.toNat * 32768 + s.toNat * 1024 + d.toNat * 32, 2)
  | .mullo16 l s d => (18 + l.toNat * 32768 + s.toNat * 1024 + d.toNat * 32, 2)
  | .fadd16 l s d => (20 + l.toNat * 32768 + s.toNat * 1024 + d.toNat * 32, 2)
  | .fsub16 l s d => (22 + l.toNat * 32768 + s.toNat * 1024 + d.toNat * 32, 2)
  | .fmul16 l s d => (24 + l.toNat * 32768 + s.toNat * 1024 + d.toNat * 32, 2)
  | .fmax16 l s d => (26 + l.toNat * 32768 + s.toNat * 1024 + d.toNat * 32, 2)
  | .fmin16 l s d => (28 + l.toNat * 32768 + s.toNat * 1024 + d.toNat * 32, 2)
  | .movi16 i d => (30 + i.toNat * 1024 + d.toNat * 32, 2)
  | .movi h d => (15 + h.toNat * 65536 + d.toNat * 1024, 4)
  | .movhi h d => (31 + h.toNat * 65536 + d.toNat * 1024, 4)
  | .addi h d => (47 + h.toNat * 65536 + d.toNat * 1024, 4)
  | .movbf h d => (63 + h.toNat * 65536 + d.toNat * 1024, 4)
  | .lpc h d => (79 + h.toNat * 65536 + d.toNat * 1024, 4)
  | .ldgB k a d => (7 + k.toNat * 2097152 + a.toNat * 32768 + d.toNat * 512, 4)
  | .ldgSb k a d => (23 + k.toNat * 2097152 + a.toNat * 32768 + d.toNat * 512, 4)
  | .ldgH k a d => (39 + k.toNat * 2097152 + a.toNat * 32768 + d.toNat * 512, 4)
  | .ldgSh k a d => (55 + k.toNat * 2097152 + a.toNat * 32768 + d.toNat * 512, 4)
  | .ldgW k a d => (71 + k.toNat * 2097152 + a.toNat * 32768 + d.toNat * 512, 4)
  | .ldgD k a d => (87 + k.toNat * 2097152 + a.toNat * 32768 + d.toNat * 512, 4)
  | .ldgQ k a d => (103 + k.toNat * 2097152 + a.toNat * 32768 + d.toNat * 512, 4)
  | .ldsH k a d => (119 + k.toNat * 2097152 + a.toNat * 32768 + d.toNat * 512, 4)
  | .ldsW k a d => (135 + k.toNat * 2097152 + a.toNat * 32768 + d.toNat * 512, 4)
  | .ldsD k a d => (151 + k.toNat * 2097152 + a.toNat * 32768 + d.toNat * 512, 4)
  | .ldsQ k a d => (167 + k.toNat * 2097152 + a.toNat * 32768 + d.toNat * 512, 4)
  | .stgB k n g a d => (183 + k.toNat * 268435456 + n.toNat * 134217728 + g.toNat * 2097152 + a.toNat * 32768 + d.toNat * 512, 4)
  | .stgH k n g a d => (199 + k.toNat * 268435456 + n.toNat * 134217728 + g.toNat * 2097152 + a.toNat * 32768 + d.toNat * 512, 4)
  | .stgW k n g a d => (215 + k.toNat * 268435456 + n.toNat * 134217728 + g.toNat * 2097152 + a.toNat * 32768 + d.toNat * 512, 4)
  | .stgD k n g a d => (231 + k.toNat * 268435456 + n.toNat * 134217728 + g.toNat * 2097152 + a.toNat * 32768 + d.toNat * 512, 4)
  | .stgQ k n g a d => (247 + k.toNat * 268435456 + n.toNat * 134217728 + g.toNat * 2097152 + a.toNat * 32768 + d.toNat * 512, 4)
  | .stsH k n g a d => (263 + k.toNat * 268435456 + n.toNat * 134217728 + g.toNat * 2097152 + a.toNat * 32768 + d.toNat * 512, 4)
  | .stsW k n g a d => (279 + k.toNat * 268435456 + n.toNat * 134217728 + g.toNat * 2097152 + a.toNat * 32768 + d.toNat * 512, 4)
  | .stsD k n g a d => (295 + k.toNat * 268435456 + n.toNat * 134217728 + g.toNat * 2097152 + a.toNat * 32768 + d.toNat * 512, 4)
  | .stsQ k n g a d => (311 + k.toNat * 268435456 + n.toNat * 134217728 + g.toNat * 2097152 + a.toNat * 32768 + d.toNat * 512, 4)
  | .aadd k n g a d => (327 + k.toNat * 268435456 + n.toNat * 134217728 + g.toNat * 2097152 + a.toNat * 32768 + d.toNat * 512, 4)
  | .amin k n g a d => (343 + k.toNat * 268435456 + n.toNat * 134217728 + g.toNat * 2097152 + a.toNat * 32768 + d.toNat * 512, 4)
  | .amax k n g a d => (359 + k.toNat * 268435456 + n.toNat * 134217728 + g.toNat * 2097152 + a.toNat * 32768 + d.toNat * 512, 4)
  | .aand k n g a d => (375 + k.toNat * 268435456 + n.toNat * 134217728 + g.toNat * 2097152 + a.toNat * 32768 + d.toNat * 512, 4)
  | .aor k n g a d => (391 + k.toNat * 268435456 + n.toNat * 134217728 + g.toNat * 2097152 + a.toNat * 32768 + d.toNat * 512, 4)
  | .axor k n g a d => (407 + k.toNat * 268435456 + n.toNat * 134217728 + g.toNat * 2097152 + a.toNat * 32768 + d.toNat * 512, 4)
  | .axch k n g a d => (423 + k.toNat * 268435456 + n.toNat * 134217728 + g.toNat * 2097152 + a.toNat * 32768 + d.toNat * 512, 4)
  | .acas k n g a d => (439 + k.toNat * 268435456 + n.toNat * 134217728 + g.toNat * 2097152 + a.toNat * 32768 + d.toNat * 512, 4)
  | .afadd k n g a d => (455 + k.toNat * 268435456 + n.toNat * 134217728 + g.toNat * 2097152 + a.toNat * 32768 + d.toNat * 512, 4)
  | .dred k n g a d => (471 + k.toNat * 268435456 + n.toNat * 134217728 + g.toNat * 2097152 + a.toNat * 32768 + d.toNat * 512, 4)
  | .acasD k n g a d => (487 + k.toNat * 268435456 + n.toNat * 134217728 + g.toNat * 2097152 + a.toNat * 32768 + d.toNat * 512, 4)
  | .axchD k n g a d => (503 + k.toNat * 268435456 + n.toNat * 134217728 + g.toNat * 2097152 + a.toNat * 32768 + d.toNat * 512, 4)
  | .bra k n g => (9 + k.toNat * 16384 + n.toNat * 8192 + g.toNat * 128, 4)
  | .call k n g => (25 + k.toNat * 16384 + n.toNat * 8192 + g.toNat * 128, 4)
  | .brx r n g => (41 + r.toNat * 16384 + n.toNat * 8192 + g.toNat * 128, 4)
  | .ret n g => (57 + n.toNat * 8192 + g.toNat * 128, 4)
  | .exit n g => (73 + n.toNat * 8192 + g.toNat * 128, 4)
  | .brk n g => (89 + n.toNat * 8192 + g.toNat * 128, 4)
  | .tload f w c s => (11 + f.toNat * 134217728 + w.toNat * 2097152 + c.toNat * 32768 + s.toNat * 512, 4)
  | .tstore f w c s => (27 + f.toNat * 134217728 + w.toNat * 2097152 + c.toNat * 32768 + s.toNat * 512, 4)
  | .tgather f w c s => (43 + f.toNat * 134217728 + w.toNat * 2097152 + c.toNat * 32768 + s.toNat * 512, 4)
  | .tzero f w c s => (59 + f.toNat * 134217728 + w.toNat * 2097152 + c.toNat * 32768 + s.toNat * 512, 4)
  | .tpref w c s => (75 + w.toNat * 2097152 + c.toNat * 32768 + s.toNat * 512, 4)
  | .xput f w c s => (91 + f.toNat * 134217728 + w.toNat * 2097152 + c.toNat * 32768 + s.toNat * 512, 4)
  | .xget f w c s => (107 + f.toNat * 134217728 + w.toNat * 2097152 + c.toNat * 32768 + s.toNat * 512, 4)
  | .tscat f w c s => (123 + f.toNat * 134217728 + w.toNat * 2097152 + c.toNat * 32768 + s.toNat * 512, 4)
  | .mma f w c s => (139 + f.toNat * 134217728 + w.toNat * 2097152 + c.toNat * 32768 + s.toNat * 512, 4)
  | .mmar f f2 w c s => (155 + f.toNat * 1073741824 + f2.toNat * 134217728 + w.toNat * 2097152 + c.toNat * 32768 + s.toNat * 512, 4)
  | .mmas f w c s => (171 + f.toNat * 134217728 + w.toNat * 2097152 + c.toNat * 32768 + s.toNat * 512, 4)
  | .smma f w c s => (187 + f.toNat * 134217728 + w.toNat * 2097152 + c.toNat * 32768 + s.toNat * 512, 4)
  | .accalloc f w => (2063563 + f.toNat * 134217728 + w.toNat * 2097152, 4)
  | .accfree w => (2063579 + w.toNat * 2097152, 4)
  | .accld w c s => (235 + w.toNat * 2097152 + c.toNat * 32768 + s.toNat * 512, 4)
  | .accst f w c s => (251 + f.toNat * 134217728 + w.toNat * 2097152 + c.toNat * 32768 + s.toNat * 512, 4)
  | .bfly f w s => (2031883 + f.toNat * 134217728 + w.toNat * 2097152 + s.toNat * 512, 4)
  | .btwid f w s => (2031899 + f.toNat * 1073741824 + w.toNat * 2097152 + s.toNat * 512, 4)
  | .brevEng f w s => (2031915 + f.toNat * 134217728 + w.toNat * 2097152 + s.toNat * 512, 4)
  | .atrans w => (2063675 + w.toNat * 2097152, 4)
  | .lubeg w s => (2031947 + w.toNat * 2097152 + s.toNat * 512, 4)
  | .lustep w s => (2031963 + w.toNat * 2097152 + s.toNat * 512, 4)
  | .lucand w c s => (363 + w.toNat * 2097152 + c.toNat * 32768 + s.toNat * 512, 4)
  | .lucommit w c s => (379 + w.toNat * 2097152 + c.toNat * 32768 + s.toNat * 512, 4)
  | .luend w c s => (395 + w.toNat * 2097152 + c.toNat * 32768 + s.toNat * 512, 4)
  | .smul f w c s => (411 + f.toNat * 134217728 + w.toNat * 2097152 + c.toNat * 32768 + s.toNat * 512, 4)
  | .strunc f w s => (2032043 + f.toNat * 134217728 + w.toNat * 2097152 + s.toNat * 512, 4)
  | .sltz f w s => (2032059 + f.toNat * 134217728 + w.toNat * 2097152 + s.toNat * 512, 4)
  | .slut t f w s => (2032075 + t.toNat * 536870912 + f.toNat * 134217728 + w.toNat * 2097152 + s.toNat * 512, 4)
  | .sopen f w s => (2032091 + f.toNat * 134217728 + w.toNat * 2097152 + s.toNat * 512, 4)
  | .accrow w c s => (491 + w.toNat * 2097152 + c.toNat * 32768 + s.toNat * 512, 4)
  | .nop => (4126733, 4)
  | .barg => (4126749, 4)
  | .bart i => (4126765 + i.toNat * 4194304, 4)
  | .bararv i => (4126781 + i.toNat * 4194304, 4)
  | .barwt i => (4126797 + i.toNat * 4194304, 4)
  | .waitc i => (4126813 + i.toNat * 4194304, 4)
  | .waitw a d => (109 + a.toNat * 65536 + d.toNat * 1024, 4)
  | .swait a d => (125 + a.toNat * 65536 + d.toNat * 1024, 4)
  | .syncset a d => (141 + a.toNat * 65536 + d.toNat * 1024, 4)
  | .mbr k d => (4063389 + k.toNat * 4194304 + d.toNat * 1024, 4)
  | .mbw k a => (63661 + k.toNat * 4194304 + a.toNat * 65536, 4)
  | .qroute a => (63677 + a.toNat * 65536, 4)
  | .qstat i d => (4063437 + i.toNat * 4194304 + d.toNat * 1024, 4)
  | .yield => (4126941, 4)
  | .nap i => (4126957 + i.toNat * 4194304, 4)
  | .reggrow w n d => (4063485 + w.toNat * 2147483648 + n.toNat * 4194304 + d.toNat * 1024, 4)
  | .regshrink n d => (4063501 + n.toNat * 4194304 + d.toNat * 1024, 4)
  | .ident i d => (4063517 + i.toNat * 4194304 + d.toNat * 1024, 4)
  | .trap a => (63789 + a.toNat * 65536, 4)
  | .flagrd i d => (4063549 + i.toNat * 4194304 + d.toNat * 1024, 4)
  | .flagclr i => (4127053 + i.toNat * 4194304, 4)
  | .csrrd i d => (4063581 + i.toNat * 4194304 + d.toNat * 1024, 4)
  | .csrwr i a => (63853 + i.toNat * 4194304 + a.toNat * 65536, 4)
  | .elect d => (4063613 + d.toNat * 1024, 4)
  | .vote i a d => (397 + i.toNat * 4194304 + a.toNat * 65536 + d.toNat * 1024, 4)
  | .dflush => (4127133, 4)
  | .tblld k a => (63917 + k.toNat * 4194304 + a.toNat * 65536, 4)
  | .stmap i a d => (445 + i.toNat * 4194304 + a.toNat * 65536 + d.toNat * 1024, 4)
  | .stflush a => (63949 + a.toNat * 65536, 4)
  | .xfence => (4127197, 4)
  | .launch q a d => (493 + q.toNat * 4194304 + a.toNat * 65536 + d.toNat * 1024, 4)
  | .mark i a => (63997 + i.toNat * 4194304 + a.toNat * 65536, 4)
  | .perfrd i d => (4063757 + i.toNat * 4194304 + d.toNat * 1024, 4)
  | .dwsel a d => (541 + a.toNat * 65536 + d.toNat * 1024, 4)
  | .dwrd a d => (557 + a.toNat * 65536 + d.toNat * 1024, 4)
  | .dwwr a d => (573 + a.toNat * 65536 + d.toNat * 1024, 4)
  | .dwres i a => (64077 + i.toNat * 4194304 + a.toNat * 65536, 4)
  | .dwkill => (4127325, 4)
  | .deviceReset => (0, 0)
  | .firmwareImageReceived _ _ _ => (0, 0)
  | .diePowerUp => (0, 0)
  | .clusterPowerUp _ => (0, 0)
  | .bootStageComplete _ => (0, 0)
  | .columnRampStep _ => (0, 0)
  | .lifecycleTransition _ _ _ _ => (0, 0)
  | .mctpStatusRequest => (0, 0)
  | .pldmFirmwareUpdate _ _ _ => (0, 0)
  | .pldmMonitoring => (0, 0)
  | .spdmDeviceAuthentication _ => (0, 0)
  | .flitInject _ _ _ _ _ => (0, 0)
  | .slotReserve _ _ _ _ => (0, 0)
  | .flitPassStation _ _ _ _ _ => (0, 0)
  | .flitAtDestination _ _ _ _ _ _ => (0, 0)
  | .reassemblyIdleTimeout _ _ _ _ _ => (0, 0)
  | .reassemblyAheadTimeout _ _ _ _ _ => (0, 0)
  | .linkFrameSend _ => (0, 0)
  | .linkFlitReceive _ _ _ => (0, 0)
  | .nakReceive _ _ => (0, 0)
  | .nakResendTimeout _ => (0, 0)
  | .pauseReceive _ _ => (0, 0)
  | .resumeReceive _ _ => (0, 0)
  | .flowStateRepeat _ => (0, 0)
  | .keyswReceive _ _ _ => (0, 0)
  | .linkAbortReceive _ _ _ => (0, 0)
  | .keySwitchPoint _ => (0, 0)
  | .keyHoldPoint _ => (0, 0)
  | .keyLoadTimeout _ => (0, 0)
  | .keyLoad _ _ _ _ _ _ => (0, 0)
  | .linkKeyAgreement _ _ _ _ _ => (0, 0)
  | .frameLockLoss _ => (0, 0)
  | .linkDownCommand _ => (0, 0)
  | .linkUp _ => (0, 0)
  | .routeTableWrite _ _ _ => (0, 0)
  | .deviceIdentityWrite _ => (0, 0)
  | .ctxSubmit _ _ _ _ => (0, 0)
  | .qbaseWrite _ _ _ _ _ => (0, 0)
  | .qcfgWrite _ _ _ _ _ => (0, 0)
  | .featackWrite _ _ => (0, 0)
  | .registerWrite _ _ _ => (0, 0)
  | .hostBar2Read _ _ _ _ _ => (0, 0)
  | .hostBar2Write _ _ _ _ => (0, 0)
  | .tdispRequest _ _ _ => (0, 0)
  | .vfConfigChange _ => (0, 0)
  | .partitionAssign _ _ _ _ _ _ _ => (0, 0)
  | .partitionReset _ => (0, 0)
  | .ownerChange _ _ => (0, 0)
  | .contextActivate _ _ _ _ _ _ _ _ _ _ _ => (0, 0)
  | .contextFree _ _ => (0, 0)
  | .stileSessionOpen _ _ _ _ _ _ _ => (0, 0)
  | .hamperRegionName _ _ _ => (0, 0)
  | .consentWithdraw _ _ => (0, 0)
  | .coreReclaimRequest _ _ _ _ => (0, 0)
  | .coreReturn _ _ _ => (0, 0)
  | .yieldDeadline _ => (0, 0)
  | .teamEvictSave _ => (0, 0)
  | .remoteGrant _ _ _ => (0, 0)
  | .remoteRevoke _ _ _ => (0, 0)
  | .debugBreakpointSet _ _ _ _ => (0, 0)
  | .traceRingEnable _ _ => (0, 0)
  | .meteringStatementRequest _ _ _ => (0, 0)
  | .jobBegin _ _ _ => (0, 0)
  | .jobEnd _ _ => (0, 0)
  | .jobRecordRequest _ _ => (0, 0)
  | .nodeConsume _ _ => (0, 0)
  | .dispatchOpportunity _ => (0, 0)
  | .clusterReserve _ => (0, 0)
  | .controlThreadStart _ => (0, 0)
  | .teamRetire _ => (0, 0)
  | .nodeCommit _ _ => (0, 0)
  | .rollbackRequeue _ _ => (0, 0)
  | .handlerStart _ => (0, 0)
  | .whistleFire _ => (0, 0)
  | .ownerTimeout _ => (0, 0)
  | .napExpire _ _ => (0, 0)
  | .loadDataArrival _ _ _ _ => (0, 0)
  | .storePerformed _ _ => (0, 0)
  | .waitwWake _ _ => (0, 0)
  | .reggrowGrant _ => (0, 0)
  | .accallocGrant _ => (0, 0)
  | .tblldComplete _ => (0, 0)
  | .queueWordDeliver _ => (0, 0)
  | .barrierPhaseComplete _ _ => (0, 0)
  | .basketBatchApply _ => (0, 0)
  | .engineCommandStart _ _ => (0, 0)
  | .engineCommandComplete _ _ _ => (0, 0)
  | .remoteLineWrite _ _ _ _ _ _ => (0, 0)
  | .remoteLineRead _ _ _ _ _ _ => (0, 0)
  | .remoteAck _ _ _ _ => (0, 0)
  | .pageFaultService _ _ _ => (0, 0)
  | .stashWriteback _ _ => (0, 0)
  | .bankSparing _ _ _ => (0, 0)
  | .shareContributionArrive _ _ _ _ => (0, 0)
  | .shareResultReceive _ => (0, 0)
  | .roundDeadline _ _ _ _ => (0, 0)
  | .abortHoldExpiry _ _ _ _ => (0, 0)
  | .stflushWritebackComplete _ => (0, 0)

/-- The low `n` bytes of a number, lowest first. -/
def natBytes : Nat → Nat → List Byte
  | 0, _ => []
  | n + 1, w => BitVec.ofNat 8 w :: natBytes n (w / 256)

/-- The number that little-endian bytes hold. -/
def bytesNat : List Byte → Nat
  | [] => 0
  | b :: bs => b.toNat + 256 * bytesNat bs

/-- The words of an instruction as the device stores them, little-endian (spec/11_isa_encoding.md, Table 11.1). -/
def encode (i : Instr) : List Byte := natBytes (encodeWord i).2 (encodeWord i).1

/-- Whether the row has a word. -/
def Instr.encoded (i : Instr) : Bool := (encodeWord i).2 != 0

/-- The instruction that the decoder reads from a table word of `nbits` bits, every bit above them zero. -/
def decodeTableWord (nbits w : Nat) : Option Instr :=
  if nbits = 0 then none
  else
    match decode (natBytes 4 (w % 2 ^ nbits)) with
    | .ok (i, _) => some i
    | .error _ => none

end Sys2Proof
end

