-- ==== Sys2Proof/Machine/Flags.lean ====
section
/-! DEFINITION. Flags, number formats and rounding (spec/09_numbers.md R153 to R166): a value is taken exactly and
rounded once. -/

namespace Sys2Proof.Machine

/-- The seven sticky flags, Table 9.6. -/
abbrev Flags := BitVec 7

def fNX : Flags := 1
def fUF : Flags := 2
def fOF : Flags := 4
def fDZ : Flags := 8
def fIV : Flags := 16
def fSAT : Flags := 32
def fPZ : Flags := 64

/-- A flag if a condition holds. -/
def flagIf (c : Bool) (f : Flags) : Flags := if c then f else 0

/-- R163, Table 9.5. Rounding modes. -/
inductive Mode where
  | rne | rz | ru | rd
deriving DecidableEq, Repr

/-- Table 9.5. The mode that CTX_ROUND[1:0] names. -/
def modeOf (w : Word) : Mode :=
  match w.toNat % 4 with
  | 0 => .rne
  | 1 => .rz
  | 2 => .ru
  | _ => .rd

/-- A floating-point format of Table 9.1: mantissa bits, exponent of the smallest normal, codes without the sign bit
of the largest finite value, of infinity and of the generated NaN, bits, and whether NaNs have a quiet bit. -/
structure Fmt where
  mbits : Nat
  emin : Int
  maxCode : Nat
  infCode : Option Nat
  nanCode : Option Nat
  bits : Nat
  quietBit : Bool
deriving DecidableEq, Repr

def fmtF32 : Fmt := ⟨23, -126, 0x7F7FFFFF, some 0x7F800000, some 0x7FC00000, 32, true⟩
def fmtBF16 : Fmt := ⟨7, -126, 0x7F7F, some 0x7F80, some 0x7FC0, 16, true⟩
def fmtF16 : Fmt := ⟨10, -14, 0x7BFF, some 0x7C00, some 0x7E00, 16, true⟩
def fmtE4M3 : Fmt := ⟨3, -6, 0x7E, none, some 0x7F, 8, false⟩
def fmtE5M2 : Fmt := ⟨2, -14, 0x7B, some 0x7C, some 0x7E, 8, true⟩
def fmtE2M3 : Fmt := ⟨3, 0, 0x1F, none, none, 6, false⟩

/-- An exact value: a NaN (signalling or not), an infinity, or (-1)^neg * m * 2^e. -/
inductive Val where
  | nan (signalling : Bool)
  | inf (neg : Bool)
  | fin (neg : Bool) (m : Nat) (e : Int)
deriving DecidableEq, Repr

/-- R153. The value of a code of a format. -/
def Fmt.val (f : Fmt) (w : Nat) : Val :=
  let neg := w / 2 ^ (f.bits - 1) % 2 == 1
  let c := w % 2 ^ (f.bits - 1)
  if c ≤ f.maxCode then
    let e := c / 2 ^ f.mbits
    let m := c % 2 ^ f.mbits
    if e = 0 then .fin neg m (f.emin - f.mbits)
    else .fin neg (2 ^ f.mbits + m) (f.emin - f.mbits + (e - 1 : Nat))
  else if f.infCode = some c then .inf neg
  else .nan (f.quietBit && c / 2 ^ (f.mbits - 1) % 2 == 0)

/-- The sign bit of a format in place. -/
def Fmt.sign (f : Fmt) (neg : Bool) : Nat := if neg then 2 ^ (f.bits - 1) else 0

/-- R155. The generated NaN of a format; +0 in E2M3, which has none. -/
def Fmt.nan (f : Fmt) : Nat := f.nanCode.getD 0

/-- 2^k for a natural k, 1 for a negative one. -/
def pow2 (k : Int) : Nat := 2 ^ k.toNat

/-- floor(log2(n / d)) for positive n and d. -/
def ilog2 (n d : Nat) : Int :=
  let k : Int := (Nat.log2 n : Int) - (Nat.log2 d : Int)
  if d * pow2 k ≤ n * pow2 (-k) then k else k - 1

/-- n / d on the grid of 2^q, rounded in a mode under a sign: the multiple of 2^q and whether it is inexact. -/
def quantize (mode : Mode) (neg : Bool) (n d : Nat) (q : Int) : Nat × Bool :=
  let num := n * pow2 (-q)
  let den := d * pow2 q
  let lo := num / den
  let rem := num % den
  let up := match mode with
    | .rne => decide (den < 2 * rem) || (decide (2 * rem = den) && lo % 2 == 1)
    | .rz => false
    | .ru => !neg && decide (rem ≠ 0)
    | .rd => neg && decide (rem ≠ 0)
  (if up then lo + 1 else lo, decide (rem ≠ 0))

/-- The code of mag * 2^q in a format, q at or above the format's subnormal grid. -/
def Fmt.codeOf (f : Fmt) (mag : Nat) (q : Int) : Nat :=
  (q - (f.emin - f.mbits)).toNat * 2 ^ f.mbits + mag

/-- R156, R164. What an overflow delivers: mode-dependent where the format has an infinity and does not saturate. -/
def Fmt.overflow (f : Fmt) (saturate : Bool) (mode : Mode) (neg : Bool) : Nat :=
  match f.infCode with
  | none => f.sign neg + f.maxCode
  | some inf =>
    if saturate then f.sign neg + f.maxCode
    else
      match mode with
      | .rne => f.sign neg + inf
      | .rz => f.sign neg + f.maxCode
      | .ru => if neg then f.sign neg + f.maxCode else inf
      | .rd => if neg then f.sign neg + inf else f.maxCode

/-- R154, R156, R164. The exact value (-1)^neg * n / d, not zero, rounded once into a format. -/
def roundRat (f : Fmt) (saturate : Bool) (mode : Mode) (neg : Bool) (n d : Nat) : Nat × Flags :=
  let e := ilog2 n d
  let r := quantize mode neg n d (max e f.emin - f.mbits)
  let c := f.codeOf r.1 (max e f.emin - f.mbits)
  if f.maxCode < c then (f.overflow saturate mode neg, fOF ||| fNX)
  else
    let u := quantize mode neg n d (e - f.mbits)
    let tiny := decide (u.1 * pow2 (e - f.mbits - f.emin) < pow2 (-(e - f.mbits - f.emin)))
    (f.sign neg + c, flagIf r.2 fNX ||| flagIf (r.2 && tiny) fUF)

/-- Rounding of an exact dyadic value; a zero keeps its sign. -/
def roundDy (f : Fmt) (saturate : Bool) (mode : Mode) (neg : Bool) (m : Nat) (e : Int) : Nat × Flags :=
  if m = 0 then (f.sign neg, 0)
  else roundRat f saturate mode neg (m * pow2 e) (pow2 (-e))

/-- R156. The formats whose finite overflow saturates. -/
def Fmt.saturates (f : Fmt) : Bool := f.bits ≤ 8

/-- The exact sum of two finite values as an integer over 2^e. -/
def alignAdd (na : Bool) (ma : Nat) (ea : Int) (nb : Bool) (mb : Nat) (eb : Int) : Int × Int :=
  let e := min ea eb
  let a : Int := (ma * pow2 (ea - e) : Nat)
  let b : Int := (mb * pow2 (eb - e) : Nat)
  ((if na then -a else a) + (if nb then -b else b), e)

/-- R245. The sign of an exact zero that two zero or cancelling terms make. -/
def zeroSign (mode : Mode) (na nb : Bool) : Bool :=
  if na == nb then na else mode == .rd

/-- Whether a value is a signalling NaN. -/
def Val.isSig : Val → Bool
  | .nan s => s
  | _ => false

def Val.isNan : Val → Bool
  | .nan _ => true
  | _ => false

def Val.neg : Val → Val
  | .nan s => .nan s
  | .inf n => .inf (!n)
  | .fin n m e => .fin (!n) m e

def Val.isZero : Val → Bool
  | .fin _ m _ => m == 0
  | _ => false

def Val.signBit : Val → Bool
  | .nan _ => false
  | .inf n => n
  | .fin n _ _ => n

/-- The exact sum of two values before rounding: none for a NaN, with whether it is inf - inf. -/
inductive Exact where
  | nan (iv : Bool)
  | inf (neg : Bool)
  | num (neg : Bool) (m : Nat) (e : Int)
deriving DecidableEq, Repr

def exactAdd (mode : Mode) (a b : Val) : Exact :=
  match a, b with
  | .nan _, _ => .nan false
  | _, .nan _ => .nan false
  | .inf x, .inf y => if x == y then .inf x else .nan true
  | .inf x, .fin _ _ _ => .inf x
  | .fin _ _ _, .inf y => .inf y
  | .fin na ma ea, .fin nb mb eb =>
    let r := alignAdd na ma ea nb mb eb
    if r.1 = 0 then .num (zeroSign mode na nb) 0 0
    else .num (decide (r.1 < 0)) r.1.natAbs r.2

def exactMul (a b : Val) : Exact :=
  match a, b with
  | .nan _, _ => .nan false
  | _, .nan _ => .nan false
  | .inf x, .inf y => .inf (x != y)
  | .inf x, .fin y m _ => if m = 0 then .nan true else .inf (x != y)
  | .fin x m _, .inf y => if m = 0 then .nan true else .inf (x != y)
  | .fin x m e, .fin y m' e' => .num (x != y) (m * m') (e + e')

/-- An exact result as a value, for the next exact step. -/
def Exact.val : Exact → Val
  | .nan _ => .nan false
  | .inf n => .inf n
  | .num n m e => .fin n m e

/-- Delivery of an exact result in a format and mode (R155, R164). -/
def deliver (f : Fmt) (saturate : Bool) (mode : Mode) : Exact → Nat × Flags
  | .nan iv => (f.nan, flagIf iv fIV)
  | .inf n => match f.infCode with
    | some c => (f.sign n + c, 0)
    | none => (f.sign n + f.maxCode, fOF ||| fNX)
  | .num n m e => roundDy f saturate mode n m e

/-- R245. A + B in a format. -/
def fAdd (f : Fmt) (mode : Mode) (a b : Nat) : Nat × Flags :=
  let x := f.val a
  let y := f.val b
  let r := deliver f false mode (exactAdd mode x y)
  (r.1, r.2 ||| flagIf (x.isSig || y.isSig) fIV)

/-- R245. A - B in a format. -/
def fSub (f : Fmt) (mode : Mode) (a b : Nat) : Nat × Flags :=
  let x := f.val a
  let y := f.val b
  let r := deliver f false mode (exactAdd mode x y.neg)
  (r.1, r.2 ||| flagIf (x.isSig || y.isSig) fIV)

/-- R245. A * B in a format. -/
def fMul (f : Fmt) (mode : Mode) (a b : Nat) : Nat × Flags :=
  let x := f.val a
  let y := f.val b
  let r := deliver f false mode (exactMul x y)
  (r.1, r.2 ||| flagIf (x.isSig || y.isSig) fIV)

/-- R245. d + A * B in a format, one rounding; 0 * inf is invalid even where d is NaN. -/
def fFma (f : Fmt) (mode : Mode) (d a b : Nat) : Nat × Flags :=
  let x := f.val a
  let y := f.val b
  let z := f.val d
  let sig := flagIf (x.isSig || y.isSig || z.isSig) fIV
  match exactMul x y with
  | .nan true => (f.nan, sig ||| fIV)
  | p =>
    let r := deliver f false mode (exactAdd mode z p.val)
    (r.1, r.2 ||| sig)

/-- Order of two values that are not NaN, -0 below +0: true if the first is at or below the second. -/
def valLe (a b : Val) : Bool :=
  match a, b with
  | .nan _, _ => false
  | _, .nan _ => false
  | .inf true, _ => true
  | _, .inf false => true
  | .inf false, _ => false
  | _, .inf true => false
  | .fin na ma ea, .fin nb mb eb =>
    let r := alignAdd na ma ea (!nb) mb eb
    if r.1 = 0 then na || !nb else decide (r.1 < 0)

/-- Numeric comparison: less, equal, greater, or unordered. -/
def valCmp (a b : Val) : Option Ordering :=
  match a, b with
  | .nan _, _ => none
  | _, .nan _ => none
  | .inf x, .inf y => some (if x == y then .eq else if x then .lt else .gt)
  | .inf x, .fin _ _ _ => some (if x then .lt else .gt)
  | .fin _ _ _, .inf y => some (if y then .gt else .lt)
  | .fin na ma ea, .fin nb mb eb =>
    let r := alignAdd na ma ea (!nb) mb eb
    some (if r.1 < 0 then .lt else if r.1 = 0 then .eq else .gt)

/-- R246. FMIN and FMAX of a format. -/
def fMin (f : Fmt) (a b : Nat) : Nat × Flags :=
  let x := f.val a
  let y := f.val b
  (if x.isNan || y.isNan then f.nan else if valLe x y then a else b, flagIf (x.isSig || y.isSig) fIV)

def fMax (f : Fmt) (a b : Nat) : Nat × Flags :=
  let x := f.val a
  let y := f.val b
  (if x.isNan || y.isNan then f.nan else if valLe x y then b else a, flagIf (x.isSig || y.isSig) fIV)

/-- R247. A compare that holds for the orderings given. -/
def fCmp (f : Fmt) (holds : Ordering → Bool) (a b : Nat) : Nat × Flags :=
  let x := f.val a
  let y := f.val b
  (match valCmp x y with
   | some o => if holds o then 1 else 0
   | none => 0, flagIf (x.isSig || y.isSig) fIV)

/-- R248. A * 2^B, B a signed integer, rounded once. An exponent beyond 1,000 either way rounds as 1,000 does. -/
def fScale (mode : Mode) (a : Nat) (b : Int) : Nat × Flags :=
  match fmtF32.val a with
  | .nan s => (fmtF32.nan, flagIf s fIV)
  | .inf _ => (a, 0)
  | .fin n m e => if m = 0 then (a, 0) else roundDy fmtF32 false mode n m (e + max (-1000) (min 1000 b))

/-- The quotient of two FP32 values with the special cases and flags of IEEE 754 (R269). -/
def fDiv (mode : Mode) (a b : Nat) : Nat × Flags :=
  let x := fmtF32.val a
  let y := fmtF32.val b
  let sg := x.signBit != y.signBit
  match x, y with
  | .nan _, _ => (fmtF32.nan, fIV)
  | _, .nan _ => (fmtF32.nan, fIV)
  | .inf _, .inf _ => (fmtF32.nan, fIV)
  | .inf _, _ => (fmtF32.sign sg + 0x7F800000, 0)
  | .fin _ _ _, .inf _ => (fmtF32.sign sg, 0)
  | .fin _ m e, .fin _ m' e' =>
    if m' = 0 then
      if m = 0 then (fmtF32.nan, fIV) else (fmtF32.sign sg + 0x7F800000, fDZ)
    else if m = 0 then (fmtF32.sign sg, 0)
    else roundRat fmtF32 false mode sg (m * pow2 (e - e')) (m' * pow2 (e' - e))

/-- Clamp of an integer to a signed width. -/
def clampS (bits : Nat) (v : Int) : Int := max (-(2 ^ (bits - 1) : Int)) (min (2 ^ (bits - 1) - 1) v)

/-- sat16 and sat32 of R250 to R254, with SAT. -/
def satS (bits : Nat) (v : Int) : Int × Flags := (clampS bits v, flagIf (decide (clampS bits v ≠ v)) fSAT)

end Sys2Proof.Machine
end

