-- ==== Sys2Proof/Machine/Base.lean ====
section
/-! DEFINITION. Named reads and updates of the state: clocks (spec/01_package.md R9), contexts, nodes, teams, groups,
threads and registers (spec/07_execution_model.md R106 to R112, spec/11_isa_encoding.md R208), and memory as bytes
(spec/08_memory_model.md R129, R134). -/

namespace Sys2Proof.Machine

open Host (Cell)

/-! ## Clocks -/

/-- R9. The 700 MHz cycle count. -/
def State.cycle (s : State) : Nat := 7 * s.time / 10

/-- R2. The 1.4 GHz f-cycle count. -/
def State.fcycle (s : State) : Nat := 14 * s.time / 10

/-! ## Boot (R16) -/

/-- R16. The BOOT_FAIL state. -/
def BootStatus.isFailed : BootStatus → Bool
  | .failed _ => true
  | _ => false

/-- R16. Whether the system cores run: boot ROM has started and has not failed. -/
def BootStatus.live (b : BootStatus) : Bool := b != .off && !b.isFailed

/-! ## Parts of the state by name -/

def State.ctx (s : State) (c : Nat) : Context := s.ctxs.getD c {}
def State.modCtx (s : State) (c : Nat) (f : Context → Context) : State := { s with ctxs := s.ctxs.modify c f }
def State.part (s : State) (p : Nat) : Partition := s.parts.getD p {}
def State.modPart (s : State) (p : Nat) (f : Partition → Partition) : State := { s with parts := s.parts.modify p f }
def State.port (s : State) (p : Nat) : Port := s.ports.getD p {}
def State.modPort (s : State) (p : Nat) (f : Port → Port) : State := { s with ports := s.ports.modify p f }
def State.core (s : State) (c : Nat) : Core := s.cores.getD c {}
def State.modCore (s : State) (c : Nat) (f : Core → Core) : State := { s with cores := s.cores.modify c f }
def State.modGroup (s : State) (g : Nat) (f : Group → Group) : State := { s with groups := s.groups.modify g f }
def State.modFabric (s : State) (f : Fabric → Fabric) : State := { s with fabric := f s.fabric }
def State.modBoot (s : State) (f : Boot → Boot) : State := { s with boot := f s.boot }

def State.groupIdx? (s : State) (k : GKey) : Option Nat := s.groups.findIdx? (fun g => g.key == k)
def State.team? (s : State) (k : TKey) : Option Team := s.teams.find? (fun t => t.key == k)
def State.modTeam (s : State) (k : TKey) (f : Team → Team) : State :=
  { s with teams := s.teams.map fun t => if t.key == k then f t else t }
def State.node? (s : State) (c : Nat) (r : Word) : Option Node := s.nodes.find? (fun n => n.ctx == c && n.ref == r)
def State.modNode (s : State) (c : Nat) (r : Word) (f : Node → Node) : State :=
  { s with nodes := s.nodes.map fun n => if n.ctx == c && n.ref == r then f n else n }
def State.session? (s : State) (id : Nat) : Option Session := s.sessions.find? (fun x => x.id == id)
def State.modSession (s : State) (id : Nat) (f : Session → Session) : State :=
  { s with sessions := s.sessions.map fun x => if x.id == id then f x else x }

def gkeyTeam (k : GKey) : TKey := ⟨k.ctx, k.node, k.team⟩

def Group.modThread (g : Group) (t : Nat) (f : Thread → Thread) : Group := { g with threads := g.threads.modify t f }
def Group.thread (g : Group) (t : Nat) : Thread := g.threads.getD t {}
def State.modThread (s : State) (g t : Nat) (f : Thread → Thread) : State := s.modGroup g fun x => x.modThread t f

/-- R110. The logical identifier of thread t; a control thread and a handler are named by the team's base. -/
def gkeyL (k : GKey) (w t : Nat) : Word :=
  match k.kind with
  | .lanes => BitVec.ofNat 32 (k.team * 4096 + k.idx * w + t)
  | _ => BitVec.ofNat 32 (k.team * 4096)

def Group.l (g : Group) (t : Nat) : Word := gkeyL g.key g.w t

/-! ## Threads -/

/-- R203, R204. The PC n bytes on. A PC past the last is odd, and nothing is fetched there.
Log entry 77 (DEDUCED). -/
def pcAfter (pc : Word) (n : Nat) : Word := if pc.toNat + n < 2 ^ 32 then pc + BitVec.ofNat 32 n else 0xFFFFFFFF

/-- R182, R204. A PC as records and the window show it, modulo 2^32.
Log entry 77 (DEDUCED). -/
def shownPc (pc : Word) : Word := if pc.getLsbD 0 then 0 else pc

def Thread.isReady (th : Thread) : Bool := th.state == .ready
def Thread.isExited (th : Thread) : Bool := th.state == .exited
def Thread.isBlocked (th : Thread) : Bool :=
  match th.state with
  | .blocked _ => true
  | _ => false

/-- R208. The value that a register number reads in a thread: vz reads zero, qr the head of the receive queue. -/
def Thread.reg (th : Thread) (n : Nat) : Word :=
  if n < 60 then th.regs.getD n 0
  else if n = 61 then (th.queue.head?.map Prod.fst).getD 0
  else 0

/-- R208, R213. A write sets the register and ends its poison; vz discards. -/
def Thread.setReg (th : Thread) (n : Nat) (v : Word) : Thread :=
  if n < 60 then { th with regs := th.regs.set n v, pois := th.pois.set n false } else th

/-- R213. Last use poisons a register. -/
def Thread.poison (th : Thread) (n : Nat) : Thread :=
  if n < 60 then { th with regs := th.regs.set n poisonWord, pois := th.pois.set n true } else th

def Thread.isPoison (th : Thread) (n : Nat) : Bool := decide (n < 60) && th.pois.getD n false
def Thread.isPend (th : Thread) (n : Nat) : Bool := decide (n < 60) && th.pend.getD n false
def Thread.setPend (th : Thread) (n : Nat) (b : Bool) : Thread :=
  if n < 60 then { th with pend := th.pend.set n b } else th

/-- R209, R161. A pair, low word first; vz reads zero. -/
def Thread.pair (th : Thread) (n : Nat) : DWord :=
  if n < 60 then th.reg (n + 1) ++ th.reg n else 0

def Thread.setPair (th : Thread) (n : Nat) (v : DWord) : Thread :=
  if n < 60 then (th.setReg n (v.extractLsb' 0 32)).setReg (n + 1) (v.extractLsb' 32 32) else th

/-- The register numbers of an operand of a size; vz names none. -/
def regSpan (n size : Nat) : List Nat := if n < 60 then (List.range size).map (n + ·) else []

/-- Threads of a list, kept in ascending order (R114). -/
def Group.readyAt (g : Group) (pc : Word) : List Nat :=
  (List.range g.threads.length).filter fun t => (g.thread t).isReady && (g.thread t).pc == pc

/-! ## Instruction lengths -/

/-- R203. Length of an instruction in bytes. -/
def instrLen (i : Instr) : Nat := (encodeWord i).2

/-! ## Bytes in canonical form (R134: an address not listed reads zero) -/

/-- The byte at an address.
Log entry 18 (DEDUCED). -/
def cellsGet : List Cell → Nat → Byte
  | [], _ => 0
  | (k, b) :: r, a => if a < k then 0 else if a = k then b else cellsGet r a

/-- One byte written: a zero removes the entry. -/
def cellsSet : List Cell → Nat → Byte → List Cell
  | [], a, v => if v = 0 then [] else [(a, v)]
  | (k, b) :: r, a, v =>
    if a < k then (if v = 0 then (k, b) :: r else (a, v) :: (k, b) :: r)
    else if a = k then (if v = 0 then r else (a, v) :: r)
    else (k, b) :: cellsSet r a v

/-- Bytes written at consecutive addresses. -/
def cellsWrite (m : List Cell) (a : Nat) : List Byte → List Cell
  | [] => m
  | b :: bs => cellsWrite (cellsSet m a b) (a + 1) bs

/-- Bytes read at consecutive addresses. -/
def cellsRead (m : List Cell) (a : Nat) : Nat → List Byte
  | 0 => []
  | n + 1 => cellsGet m a :: cellsRead m (a + 1) n

/-- Every byte of [lo, hi) zero. -/
def cellsClear (m : List Cell) (lo hi : Nat) : List Cell := m.filter fun c => decide (c.1 < lo) || decide (hi ≤ c.1)

/-- The canonical form: addresses strictly rising, no entry that reads as an unlisted address does. -/
def cellsWf : List Cell → Bool
  | [] => true
  | [(_, b)] => b != 0
  | (k, b) :: (k', b') :: r => b != 0 && decide (k < k') && cellsWf ((k', b') :: r)

/-- The canonical form of the machine's memory and of every scratchpad. -/
def State.memWf (s : State) : Bool := cellsWf s.mem && s.teams.all fun t => cellsWf t.scratch

end Sys2Proof.Machine
end

