-- ==== Sys2Proof/Machine/Mem.lean ====
section
/-! DEFINITION. Addresses and what reaches them: translation (spec/10_traps_reliability.md R180), the scratch aperture
and stash windows (spec/08_memory_model.md R129 to R131), suppressed writes (R148, spec/22_isa_shares.md R368),
staging and sealing (spec/10_traps_reliability.md R194, R195), and reads and writes at a checked place. -/

namespace Sys2Proof.Machine

open Host (Cell)

/-! ## Trap codes (Table 10.1) -/

def tIllegalOp : BitVec 8 := 0x01
def tIllegalReg : BitVec 8 := 0x02
def tUnwaited : BitVec 8 := 0x03
def tMisalign : BitVec 8 := 0x04
def tNoncanon : BitVec 8 := 0x05
def tPerm : BitVec 8 := 0x06
def tPage : BitVec 8 := 0x07
def tOwnerTimeout : BitVec 8 := 0x08
def tEngSpec : BitVec 8 := 0x10
def tEngFault : BitVec 8 := 0x11
def tSparseMeta : BitVec 8 := 0x12
def tAccDeadlock : BitVec 8 := 0x18
def tRegDeadlock : BitVec 8 := 0x19
def tBarTimeout : BitVec 8 := 0x20
def tWaitTimeout : BitVec 8 := 0x21
def tSingular : BitVec 8 := 0x28
def tGrowth : BitVec 8 := 0x29
def tInvalidPivot : BitVec 8 := 0x2A
def tGateAbort : BitVec 8 := 0x30
def tGateDesync : BitVec 8 := 0x31
def tHamperEmpty : BitVec 8 := 0x32
def tRevealDenied : BitVec 8 := 0x33
def tDetIntrude : BitVec 8 := 0x38
def tUserTrap : BitVec 8 := 0x3C
def tBreak : BitVec 8 := 0x3D
def tMachineCheck : BitVec 8 := 0x3F

/-! ## Translation -/

/-- R211. Bits 63:57 of an address repeat bit 56. -/
def canonical (x : Nat) : Bool := x / 2 ^ 57 % 128 == (if x / 2 ^ 56 % 2 = 1 then 127 else 0)

/-- R180. The mapping of a virtual 64 KiB page. -/
def Context.mapping? (c : Context) (vpage : Nat) : Option Mapping :=
  c.maps.find? fun m => decide (m.vpage ≤ vpage) && decide (vpage < m.vpage + m.pages)

/-- The physical address that a mapping gives a virtual address. -/
def physOf (m : Mapping) (x : Nat) : Nat := (m.ppage + (x / 65536 - m.vpage)) * 65536 + x % 65536

/-- The physical address of a virtual address, mapped and present. -/
def Context.phys? (c : Context) (x : Nat) : Option Nat :=
  match c.mapping? (x / 65536) with
  | some m => if m.present then some (physOf m x) else none
  | none => none

/-- The virtual addresses at which a context maps a physical address. -/
def Context.virts (c : Context) (p : Nat) : List Nat :=
  (c.maps.filter fun m => decide (m.ppage ≤ p / 65536) && decide (p / 65536 < m.ppage + m.pages)).map fun m =>
    (m.vpage + (p / 65536 - m.ppage)) * 65536 + p % 65536

/-- R130. The reserved range of scratch apertures. -/
def inApertures (x : Nat) : Bool := x / 2 ^ 48 == 0xFF

/-- Bytes of a team's plain scratch space. -/
def Team.bytes (t : Team) : Nat := t.owners.length * 4096

/-- R140. The owner state of the block of a scratch address. -/
def Team.owner (t : Team) (a : Nat) : Owner := t.owners.getD (a / 4096) .threads

/-- R131. The stash window that holds a scratch address.
Log entry 41 (DEDUCED). -/
def Team.window? (t : Team) (a : Nat) : Option StashWin :=
  t.windows.find? fun w => decide (w.first * 4096 ≤ a) && decide (a < (w.first + w.count) * 4096)

/-- A place an access part reaches: memory at a physical address (with the scratch line of a stash access), or
scratch. -/
inductive Loc where
  | glob (phys : Nat) (vaddr : Nat) (line : Option Nat)
  | scr (a : Nat)
deriving DecidableEq, Repr

/-- What the checks of one part find. -/
inductive Chk where
  | ok (l : Loc)
  | fault (code : BitVec 8) (detail : Word)
  | page (vpage : Nat)
deriving DecidableEq, Repr

/-- PERM and PAGE of a global address outside the apertures, for a read or a write. -/
def checkMapped (c : Context) (x : Nat) (write : Bool) (line : Option Nat) : Chk :=
  match c.mapping? (x / 65536) with
  | none => .fault tPage (BitVec.ofNat 32 (x / 65536))
  | some m =>
    if (if write then m.canWrite else m.canRead) then
      if m.present then .ok (.glob (physOf m x) x line) else .page (x / 65536)
    else .fault tPerm (BitVec.ofNat 32 x)

/-- R130. Whether an address lies in a team's aperture. -/
def Team.inAperture (t : Team) (x : Nat) : Bool :=
  decide (t.aperture.toNat ≤ x) && decide (x < t.aperture.toNat + 4194304)

/-- The global address that a stash window gives a scratch address (R131). -/
def StashWin.target (w : StashWin) (a : Nat) : Nat := (w.base + (a - w.first * 4096)) % 2 ^ 64

/-- A scratch part that has so many windows to pass at most: windows that lead round in a circle reach no memory. Each takes one
block to one block. -/
def checkScratchIn (c : Context) (t : Team) (size : Nat) (write : Bool) : Nat → Nat → Chk
  | 0, a => .fault tPerm (BitVec.ofNat 32 a)
  | fuel + 1, a =>
    if t.bytes < a + size then .fault tPerm (BitVec.ofNat 32 (max a t.bytes))
    else
      match t.window? a with
      | some w =>
        let x := w.target a
        if !inApertures x then checkMapped c x write (some (a / 128))
        else if t.inAperture x then checkScratchIn c t size write fuel (x - t.aperture.toNat)
        else .fault tPerm (BitVec.ofNat 32 x)
      | none => .ok (.scr a)

/-- R129, R131, R275. A scratch part: beyond the last block it faults; in a stash window it is an access to the global
address, which R130 makes an access to the team's scratch, or a fault, where it lies in the reserved range.
Log entry 101 (DEDUCED). -/
def checkScratch (c : Context) (t : Team) (a size : Nat) (write : Bool) : Chk :=
  checkScratchIn c t size write (t.owners.length + 1) a

/-- R130, R211, R276. A global part. -/
def checkGlobal (c : Context) (t : Option Team) (x size align : Nat) (write : Bool) : Chk :=
  if !canonical x then .fault tNoncanon (BitVec.ofNat 32 (x / 2 ^ 32))
  else if x % align ≠ 0 then .fault tMisalign (BitVec.ofNat 32 x)
  else if inApertures x then
    match t with
    | none => .fault tPerm (BitVec.ofNat 32 x)
    | some tm =>
      if tm.inAperture x then checkScratch c tm (x - tm.aperture.toNat) size write
      else .fault tPerm (BitVec.ofNat 32 x)
  else checkMapped c x write none

/-- R135, R276. The parts of an access: one, or two where it crosses a 128-byte line. -/
def splitParts (a size : Nat) : List (Nat × Nat) :=
  if a % 128 + size ≤ 128 then [(a, size)]
  else [(a, 128 - a % 128), (a + (128 - a % 128), size - (128 - a % 128))]

/-! ## Suppressed writes -/

/-- R148. Whether a node's live registration covers a virtual byte of its context. -/
def Node.covers (n : Node) (x : Nat) : Bool :=
  n.registered && n.rec'.ranges.any fun r => decide (r.1 ≤ x) && decide (x < r.1 + r.2)

/-- R148. Whether a physical byte lies in a live registration of the partition. -/
def State.registered (s : State) (part phys : Nat) : Bool :=
  s.nodes.any fun n =>
    n.registered && (s.ctx n.ctx).part == part && ((s.ctx n.ctx).virts phys).any n.covers

/-- R367, Table 22.3. Ring elements of a hamper entry of kind j. -/
def entryElems (ring j : Nat) : Nat :=
  match j with
  | 0 => 3
  | 1 => (if ring = 16 then 64 else 16) * (128 + 256) + 128 * 256
  | 2 => 2
  | 3 => ring + 3 * (2 * ring - 3)
  | _ => 256

/-- The number that bytes of a context's memory hold at a virtual address, where it is mapped. -/
def State.virtNat (s : State) (c x n : Nat) : Nat :=
  match (s.ctx c).phys? x with
  | some p => bytesNat (cellsRead s.mem p n)
  | none => 0

/-- R368. Whether a virtual byte lies in the hamper at h: its header or an entry range. -/
def State.inHamper (s : State) (c ring h x : Nat) : Bool :=
  (decide (h ≤ x) && decide (x < h + 256)) ||
    (List.range 5).any fun j =>
      let b := s.virtNat c (h + 32 + 32 * j) 8
      let n := s.virtNat c (h + 40 + 32 * j) 4
      decide (b ≤ x) && decide (x < b + n * (entryElems ring j * (ring / 8)))

/-- R368. Whether a physical byte lies in the hamper of an open session's party in the partition. -/
def State.hampered (s : State) (part phys : Nat) : Bool :=
  s.sessions.any fun x =>
    x.opened && x.hampers.any fun h =>
      match x.parties[h.1]? with
      | some p => p.part == part && p.dev == s.boot.devId &&
          ((s.ctx p.ctx).virts phys).any fun v => s.inHamper p.ctx x.ring h.2.toNat v
      | none => false

/-! ## Staging and sealing -/

/-- R195, Table 10.6. A RUNNING node becomes SEALED: its pre-images are released. -/
def sealNode (cause : Nat) (n : Node) : Node :=
  if n.state == .running then { n with state := .sealed, sealCause := cause, staged := [] } else n

def State.seal (s : State) (c : Nat) (r : Word) (cause : Nat) : State := s.modNode c r (sealNode cause)

/-- The bytes of a 64 KiB physical page. -/
def pageCells (m : List Cell) (p : Nat) : List Cell := m.filter fun c => c.1 / 65536 == p

/-- Table 6.4. The number of a node state. -/
def NodeState.code : NodeState → Nat
  | .queued => 0
  | .ready => 1
  | .running => 2
  | .sealed => 3
  | .committing => 4
  | .done => 5
  | .rolledBack => 6
  | .refused => 7

/-- Table 6.4. The STATUS word of a node that is not refused. -/
def Node.status (n : Node) : Nat := n.attempt * 256 + n.state.code

/-- R194, R195 causes 5 and 6. What a write of an agent to a physical page does to a node: one that has staged the page
and is not the agent is sealed; the agent's own open node stages the page, or is sealed when its pool is exhausted. -/
def stageNode (mem : List Cell) (who : Option (Nat × Word)) (page : Nat) (n : Node) : Node :=
  if who == some (n.ctx, n.ref) then
    if n.state == .running && n.rec'.restart && !(n.staged.any fun p => p.1 == page) then
      if n.staged.length < n.rec'.pool then
        { n with staged := n.staged ++ [(page, pageCells mem page)], stagedCount := n.stagedCount + 1 }
      else sealNode 5 n
    else n
  else if n.staged.any fun p => p.1 == page then sealNode 6 n
  else n

/-- What a write of an agent to a physical page does to the nodes, and the nodes that it has just sealed. -/
def State.stageOnce (s : State) (who : Option (Nat × Word)) (page : Nat) : State × List Node :=
  let nodes := s.nodes.map (stageNode s.mem who page)
  ({ s with nodes := nodes }, ((s.nodes.zip nodes).filter fun p => p.1.state != p.2.state).map Prod.snd)

/-- Bytes put into memory, once staging and sealing are done. -/
def State.memWrite (s : State) (p : Nat) (bs : List Byte) : State := { s with mem := cellsWrite s.mem p bs }

/-- R90, R194. The STATUS stores of nodes that have just been sealed. Each is a store of the device, which stages its page
first, and the nodes that this seals store their STATUS before it; `true` marks one whose page is staged. A node is sealed
at most once. -/
def sealStores : Nat → List (Node × Bool) → State → State
  | 0, _, s => s
  | _, [], s => s
  | fuel + 1, (n, staged) :: ns, s =>
    match (s.ctx n.ctx).phys? (n.addr + 104) with
    | none => sealStores fuel ns s
    | some p =>
      if staged then sealStores fuel ns (s.memWrite p (natBytes 4 n.status))
      else
        let r := s.stageOnce none (p / 65536)
        sealStores fuel ((r.2.map fun m => (m, false)) ++ (n, true) :: ns) r.1

/-- What a write of an agent to a physical page does first.
Log entry 39 (DESIGN CHOICE). -/
def State.stageFor (s : State) (who : Option (Nat × Word)) (page : Nat) : State :=
  let r := s.stageOnce who page
  sealStores (2 * s.nodes.length) (r.2.map fun m => (m, false)) r.1

/-! ## Reads and writes at a checked place -/

/-- The stash line of a scratch line number in a window list, filled if it is not held (R131). -/
def fillLine (mem : List Cell) (phys line : Nat) (dirty : Bool) (ls : List StashLine) : List StashLine :=
  if ls.any fun l => l.line == line then
    ls.map fun l => if l.line == line then { l with dirty := l.dirty || dirty } else l
  else ls ++ [⟨line, dirty, cellsRead mem (phys - phys % 128) 128⟩]

/-- R131. A stash access holds its line from then on. -/
def State.touchLine (s : State) (t : TKey) (phys line : Nat) (dirty : Bool) : State :=
  s.modTeam t fun tm =>
    { tm with windows := tm.windows.map fun w =>
        if w.first * 32 ≤ line ∧ line < (w.first + w.count) * 32 then
          { w with lines := fillLine s.mem phys line dirty w.lines }
        else w }

/-- The bytes at a place. -/
def State.readLoc (s : State) (t : TKey) (l : Loc) (n : Nat) : List Byte :=
  match l with
  | .glob p _ _ => cellsRead s.mem p n
  | .scr a => cellsRead ((s.team? t).map Team.scratch |>.getD []) a n

/-- What a read leaves: a stash line it touches is held. -/
def State.afterRead (s : State) (t : TKey) (l : Loc) : State :=
  match l with
  | .glob p _ (some line) => s.touchLine t p line false
  | _ => s

/-- Bytes stored at a place, one event of S: staging and sealing come first. -/
def State.writeLoc (s : State) (t : TKey) (l : Loc) (bs : List Byte) : State :=
  match l with
  | .glob p _ line =>
    let s1 := s.stageFor (some (t.ctx, t.node)) (p / 65536)
    let s2 := match line with
      | some k => s1.touchLine t p k true
      | none => s1
    s2.memWrite p bs
  | .scr a => s.modTeam t fun tm => { tm with scratch := cellsWrite tm.scratch a bs }

/-- DET_INTRUDE and the hamper's PERM, for a write of n bytes at a place (R148, R368). -/
def State.writeBar (s : State) (part : Nat) (l : Loc) (n : Nat) : Option (BitVec 8 × Word) :=
  match l with
  | .glob p x _ =>
    if (List.range n).any fun k => s.hampered part (p + k) then some (tPerm, BitVec.ofNat 32 x)
    else if (List.range n).any fun k => s.registered part (p + k) then some (tDetIntrude, BitVec.ofNat 32 x)
    else none
  | .scr _ => none

end Sys2Proof.Machine
end

