-- ==== Sys2Proof/Machine/Dump.lean ====
section
/-! DEFINITION. Bytes that the device writes about a context: metering statements (spec/05_metering_attestation.md
R86), job formation records (R88) and the dump of a fatal trap (spec/10_traps_reliability.md R188). -/

namespace Sys2Proof.Machine

/-! ## Ordered lists -/

/-- Insertion by a key, after equal keys. -/
def insertBy {α : Type} (key : α → Nat) (x : α) : List α → List α
  | [] => [x]
  | y :: ys => if key x < key y then x :: y :: ys else y :: insertBy key x ys

/-- A list in ascending order of a key. -/
def sortBy {α : Type} (key : α → Nat) (l : List α) : List α := l.foldl (fun acc x => insertBy key x acc) []

/-- The element of least key, the first of equals. -/
def leastBy? {α : Type} (key : α → Nat) : List α → Option α
  | [] => none
  | x :: xs => match leastBy? key xs with
    | none => some x
    | some y => if key y < key x then some y else some x

/-! ## Group state (R112) -/

def Group.allExited (g : Group) : Bool := g.threads.all Thread.isExited
def Group.anyReady (g : Group) : Bool := g.threads.any Thread.isReady

/-- Table 7.2 in the numbers of Table 10.9: 0 READY, 1 BLOCKED, 2 STOPPED, 3 EXITED. -/
def Group.stateCode (g : Group) : Nat :=
  if g.stop then 2 else if g.allExited then 3 else if g.anyReady then 0 else 1

def ThreadState.code : ThreadState → Nat
  | .ready => 0
  | .blocked _ => 1
  | .exited => 2

/-- A list of marks as a number, bit n for the n-th. -/
def maskOf : List Bool → Nat
  | [] => 0
  | b :: bs => (if b then 1 else 0) + 2 * maskOf bs

/-! ## Metering statements and job records -/

/-- R19. The identity key of the device in its lifecycle state. -/
def Fuses.identity (f : Fuses) : IdentityKey := ⟨f.seed, f.lifecycle⟩

def certBytes (h : BitVec 384) : List Byte := natBytes 48 h.toNat

/-- Both signatures of R86 over a body. -/
def signed (s : State) (body : List Byte) : List Byte :=
  body ++ natBytes 384 (Config.signRsa s.fuses.identity body).toNat
    ++ natBytes 7856 (Config.signSlh s.fuses.identity body).toNat

/-- Table 5.4, bytes 0-487, with the SEQ given. -/
def statementBody (s : State) (c kind seq : Nat) (nonce : BitVec 256) : List Byte :=
  let x := s.ctx c
  natBytes 2 1 ++ natBytes 2 kind ++ natBytes 2 s.boot.devId.toNat ++ natBytes 1 x.part ++ natBytes 1 c
    ++ certBytes ((s.part x.part).owner.getD 0) ++ natBytes 16 s.boot.nonce.toNat ++ natBytes 8 seq
    ++ natBytes 8 x.activeAt ++ natBytes 8 s.time ++ natBytes 8 (maskOf x.satMask)
    ++ (x.meters.map (natBytes 8)).flatten ++ natBytes 32 nonce.toNat

/-- A metering statement; SEQ advances by one for each statement of the device. -/
def State.statement (s : State) (c kind : Nat) (nonce : BitVec 256) : State × List Byte :=
  let seq := s.boot.statementSeq + 1
  ({ s with boot := { s.boot with statementSeq := seq } }, signed s (statementBody s c kind seq nonce))

def peerBytes (p : Peer) : List Byte := natBytes 2 p.dev.toNat ++ natBytes 1 p.port.toNat ++ [0] ++ certBytes p.cert

/-- Table 5.5, one entry: port, peers seen, CHANGED, OVERFLOW, four peers. -/
def portEntry (j : Job) (port : Nat) : List Byte :=
  let e := (j.peers.find? fun p => p.1 == port).getD (port, [], false)
  let n := e.2.1.length
  natBytes 1 port ++ natBytes 1 n ++ natBytes 1 ((if 1 < n then 1 else 0) + (if e.2.2 then 2 else 0)) ++ [0]
    ++ (e.2.1.map peerBytes).flatten ++ List.replicate (52 * (4 - n)) 0

/-- A job formation record of KIND 2 or 3. -/
def State.jobRecord (s : State) (p kind : Nat) (j : Job) : State × List Byte :=
  let seq := s.boot.statementSeq + 1
  let ports := sortBy id (s.part p).ports
  let body := natBytes 2 1 ++ natBytes 2 kind ++ natBytes 2 s.boot.devId.toNat ++ natBytes 1 p
    ++ natBytes 1 ports.length ++ natBytes 8 j.id.toNat ++ natBytes 16 s.boot.nonce.toNat ++ natBytes 8 seq
    ++ natBytes 8 j.begin' ++ natBytes 8 s.time ++ certBytes (Config.selfCert s.fuses.identity)
    ++ (ports.map (portEntry j)).flatten
  ({ s with boot := { s.boot with statementSeq := seq } }, signed s body)

/-! ## The dump -/

/-- An ELF note: header, name "GWYNWICK" in 12 bytes, descriptor padded to a multiple of 4. -/
def elfNote (type : Nat) (desc : List Byte) : List Byte :=
  natBytes 4 9 ++ natBytes 4 desc.length ++ natBytes 4 type
    ++ [0x47, 0x57, 0x59, 0x4E, 0x57, 0x49, 0x43, 0x4B, 0, 0, 0, 0]
    ++ desc ++ List.replicate ((4 - desc.length % 4) % 4) 0

/-- Note 2, one record. -/
def trapBytes (r : TrapRec) : List Byte :=
  natBytes 1 r.code.toNat ++ natBytes 1 ((if r.control then 1 else 0) + (if r.basket then 2 else 0))
    ++ natBytes 2 r.core ++ natBytes 4 r.pc.toNat ++ natBytes 4 r.l.toNat ++ natBytes 4 r.detail.toNat
    ++ natBytes 8 r.time ++ natBytes 4 r.node.toNat ++ natBytes 4 0

/-- The request that a blocked thread of a group holds: REGGROW pending, ACCALLOC pending, number requested. -/
def Group.request (g : Group) : Nat × Nat :=
  (g.threads.findSome? fun th => match th.state with
    | .blocked (.reggrow _ n _) => some (2, n)
    | .blocked (.accalloc _ n _ _) => some (4, n)
    | _ => none).getD (0, 0)

/-- Note 3, one record. -/
def groupBytes (g : Group) : List Byte :=
  natBytes 4 (g.l 0).toNat ++ natBytes 1 g.w ++ natBytes 1 (if g.producer then 0 else 1) ++ natBytes 1 g.budget
    ++ natBytes 1 g.stateCode ++ natBytes 4 g.flags.toNat
    ++ natBytes 1 ((if g.yieldReq then 1 else 0) + g.request.1) ++ natBytes 1 g.request.2
    ++ natBytes 2 g.core ++ natBytes 2 g.issues ++ natBytes 2 0 ++ natBytes 4 g.key.node.toNat ++ natBytes 8 0

/-- Note 4, one record. -/
def threadBytes (g : Group) (t : Nat) : List Byte :=
  let th := g.thread t
  natBytes 4 (g.l t).toNat ++ natBytes 4 (shownPc th.pc).toNat
    ++ natBytes 1 (th.state.code + (if g.key.kind == .control then 128 else 0)) ++ natBytes 1 g.budget
    ++ natBytes 2 th.flags.toNat ++ natBytes 8 (maskOf th.pend) ++ natBytes 8 (maskOf th.pois)
    ++ natBytes 4 g.key.node.toNat ++ ((List.range g.budget).map fun n => natBytes 4 (th.regs.getD n 0).toNat).flatten

/-- The barrier that a thread waits at, if it waits at a team barrier. -/
def barrierWait (th : Thread) : Option Nat :=
  match th.state with
  | .blocked (.bart i _) => some i
  | .blocked (.barwt i _) => some i
  | _ => none

/-- The lane groups of a team, in ascending index. -/
def State.lanes (s : State) (k : TKey) : List Group :=
  sortBy (fun g => g.key.idx) (s.groups.filter fun g => gkeyTeam g.key == k && g.key.kind == .lanes)

/-- Note 5, one record, for a barrier in use. -/
def barrierBytes (s : State) (t : Team) (id : Nat) (b : Barrier) : List Byte :=
  let gs := s.lanes t.key
  let waiting := gs.filter fun g => g.threads.any fun th => barrierWait th == some id
  let shown := b.bits.getD b.last
  let exited := maskOf (gs.map Group.allExited)
  natBytes 4 t.key.team ++ natBytes 1 id
    ++ natBytes 1 (shown.toNat % 4 + (if b.bits.isSome then 4 else 0) + shown.toNat / 4 % 4 * 64)
    ++ natBytes 2 waiting.length ++ natBytes 4 b.phase.toNat ++ natBytes 4 t.key.node.toNat
    ++ natBytes 8 (maskOf (gs.map fun g => b.arrived.contains g.key.idx)) ++ natBytes 8 exited
    ++ (waiting.map fun g => natBytes 4 (g.l 0).toNat
        ++ natBytes 4 (((g.threads.find? fun th => barrierWait th == some id).map Thread.pc).getD 0).toNat).flatten

/-- Note 6, one record. The cairn of a team that has retired shows 16 zero bytes.
Log entry 109 (DESIGN CHOICE). -/
def cairnBytes (s : State) (c : Nat) (x : Word × Nat × Word) : List Byte :=
  natBytes 4 x.2.1 ++ natBytes 4 x.2.2.toNat
    ++ (match s.team? ⟨c, x.1, x.2.1⟩ with
        | some t => cellsRead t.scratch x.2.2.toNat 16
        | none => List.replicate 16 0)
    ++ natBytes 4 x.1.toNat ++ natBytes 4 0

/-- Note 1. -/
def ctxInfoBytes (s : State) (c : Nat) (r : TrapRec) (trunc : Bool) : List Byte :=
  let x := s.ctx c
  natBytes 2 s.boot.devId.toNat ++ natBytes 1 x.part ++ natBytes 1 c
    ++ (match s.node? c r.node with
        | some n => natBytes 4 n.index.toNat ++ natBytes 1 n.queue ++ natBytes 1 n.attempt
        | none => natBytes 4 0xFFFFFFFF ++ natBytes 1 0xFF ++ natBytes 1 0)
    ++ natBytes 1 r.code.toNat ++ natBytes 1 (if trunc then 1 else 0) ++ natBytes 4 0 ++ natBytes 8 r.time
    ++ natBytes 8 x.codeBase.toNat ++ natBytes 32 0

/-- Order of threads and groups in a dump: node reference, L base, control after lanes. -/
def groupOrder (g : Group) : Nat := (g.key.node.toNat * 2 ^ 32 + (g.l 0).toNat) * 2 + (if g.key.kind == .lanes then 0 else 1)

/-- R112. Whether a group is on its core: its team is placed and not evicted. -/
def State.onCore (s : State) (g : Group) : Bool :=
  match s.team? (gkeyTeam g.key) with
  | some t => !t.saved
  | none => false

/-- The notes of a dump, in table order. Of more than 4,096 cairns note 6 lists those named first.
Log entry 109 (DESIGN CHOICE). -/
def dumpNotes (s : State) (c : Nat) (r : TrapRec) (trunc : Bool) : List Byte :=
  let gs := sortBy groupOrder (s.groups.filter fun g =>
    g.key.ctx == c && g.key.kind != .handler && !g.allExited && s.onCore g)
  let lanes := gs.filter fun g => g.key.kind == .lanes
  let recs := sortBy (fun (p : Group × Nat) => (p.1.key.node.toNat * 2 ^ 32 + (p.1.l p.2).toNat) * 2
      + (if p.1.key.kind == .lanes then 0 else 1))
    ((gs.map fun g => (List.range g.threads.length).map fun t => (g, t)).flatten)
  let teams := sortBy (fun (t : Team) => t.key.node.toNat * 2 ^ 32 + t.key.team) (s.teams.filter fun t => t.key.ctx == c)
  let bars := (teams.map fun t => ((List.range 16).filter fun i =>
      let b := t.barriers.getD i {}
      b.phase != 0 || b.bits.isSome).map fun i => barrierBytes s t i (t.barriers.getD i {})).flatten
  let cairns := sortBy (fun (x : Word × Nat × Word) => (x.1.toNat * 2 ^ 32 + x.2.1) * 2 ^ 32 + x.2.2.toNat)
    ((s.ctx c).cairns.take 4096)
  elfNote 1 (ctxInfoBytes s c r trunc) ++ elfNote 2 ((s.ctx c).traps.map trapBytes).flatten
    ++ elfNote 3 (lanes.map groupBytes).flatten ++ elfNote 4 (recs.map fun p => threadBytes p.1 p.2).flatten
    ++ elfNote 5 bars.flatten ++ elfNote 6 (cairns.map (cairnBytes s c)).flatten

/-- The ELF64 header with the number of program headers. -/
def elfHeader (phnum : Nat) : List Byte :=
  [0x7F, 0x45, 0x4C, 0x46, 2, 1, 1, 0] ++ List.replicate 8 0 ++ natBytes 2 4 ++ natBytes 2 0x9C01 ++ natBytes 4 1
    ++ natBytes 8 0 ++ natBytes 8 64 ++ natBytes 8 0 ++ natBytes 4 0 ++ natBytes 2 64 ++ natBytes 2 56
    ++ natBytes 2 phnum ++ natBytes 2 0 ++ natBytes 2 0 ++ natBytes 2 0

/-- A program header. -/
def elfPhdr (type flags off vaddr size align : Nat) : List Byte :=
  natBytes 4 type ++ natBytes 4 flags ++ natBytes 8 off ++ natBytes 8 vaddr ++ natBytes 8 0 ++ natBytes 8 size
    ++ natBytes 8 size ++ natBytes 8 align

def roundUp16 (n : Nat) : Nat := (n + 15) / 16 * 16

/-- The PT_LOAD headers and the images, from a file offset. -/
def dumpImages : Nat → List Team → List Byte × List Byte
  | _, [] => ([], [])
  | off, t :: ts =>
    let o := roundUp16 off
    let r := dumpImages (o + t.bytes) ts
    (elfPhdr 1 6 o t.aperture.toNat t.bytes 1 ++ r.1,
      List.replicate (o - off) 0 ++ cellsRead t.scratch 0 t.bytes ++ r.2)

/-- R188. The whole dump file. -/
def dumpFile (s : State) (c : Nat) (r : TrapRec) (trunc : Bool) : List Byte :=
  let teams := sortBy (fun (t : Team) => t.key.node.toNat * 2 ^ 32 + t.key.team)
    (s.teams.filter fun t => t.key.ctx == c && !t.saved && t.bytes != 0)
  let notes := dumpNotes s c r trunc
  let start := 64 + 56 * (1 + teams.length)
  let imgs := dumpImages (start + notes.length) teams
  elfHeader (1 + teams.length) ++ elfPhdr 4 4 start 0 notes.length 4 ++ imgs.1 ++ notes ++ imgs.2

end Sys2Proof.Machine
end

