-- ==== Sys2Proof/Machine/Loops.lean ====
section
/-! DEFINITION. The parts of the loop fabric that hold packets (spec/02_loop_fabric.md R21 to R28, R32, R39): loops and
positions, the choice of a loop, slots and injection ports, and the abort of half-sent packets. -/

namespace Sys2Proof.Machine

/-! ## Loops and positions (R22 to R26) -/

/-- R24. Inverses modulo 7. -/
def inv7 (n : Nat) : Nat :=
  match n with
  | 1 => 1
  | 2 => 4
  | 3 => 5
  | 4 => 2
  | 5 => 3
  | _ => 6

/-- R24. The loop of a pair of distinct stations of one die. -/
def loopSelect (s t : Nat) : Nat :=
  let bs := s % 9
  let bt := t % 9
  if bs % 7 = bt % 7 then 49 + bs % 7
  else
    let m := (t / 9 + 7 - s / 9 % 7) * inv7 ((bt + 7 - bs % 7) % 7) % 7
    7 * m + (s / 9 + 49 - m * bs % 7) % 7

/-- R22, R25. The lap of a loop. -/
def lap (spine : Bool) : Nat := if spine then 32 else 16

/-- R23, R25, Table 2.2. The position of a station on a loop. -/
def position (spine : Bool) (die st loop : Nat) : Nat :=
  if spine then 4 * die
  else
    let a := st / 9
    let b := st % 9
    if loop < 49 then b else if loop < 51 then (if b = loop - 49 then a else 7 + a) else 2 * a

/-- R23, R25. Whether a station number is that of a member of a loop. -/
def member (spine : Bool) (st loop : Nat) : Bool :=
  let a := st / 9
  let b := st % 9
  if spine then decide (loop < 48) && st == 57 + loop % 4
  else if loop < 49 then (a + 63 - loop / 7 * b) % 7 == loop % 7
  else decide (loop < 56) && b % 7 == loop - 49

/-- R21, R23, R25. Whether a station of a die, one of the 63 of the 8 dies, is a member of a loop. -/
def seated (spine : Bool) (die st loop : Nat) : Bool := decide (die < 8) && decide (st < 63) && member spine st loop

/-- R26. The next segment of a packet at a station: its loop, and the station at its end. -/
def nextHop (die st : Nat) (p : Packet) : Option (Bool × Nat × Nat × Nat) :=
  if p.finalDie = die then
    if p.finalSt = st then none else some (false, loopSelect st p.finalSt, die, p.finalSt)
  else
    let k := (p.origSt + p.finalDie) % 4
    if st = 57 + k then some (true, k + 4 * ((p.origSt + p.finalSt) % 12), p.finalDie, st)
    else some (false, loopSelect st (57 + k), die, 57 + k)

/-! ## Slots (R28) -/

/-- The slot that passes a station at an f-cycle. -/
def slotIndex (spine : Bool) (pos fcycle : Nat) : Nat := (pos + lap spine - fcycle % lap spine) % lap spine

def Slot.isAt (x : Slot) (spine : Bool) (die loop i : Nat) : Bool :=
  x.spine == spine && (spine || x.die == die) && x.loop == loop && x.index == i

/-- The slot that passes a station now; one not listed is empty and unreserved. -/
def State.slotAt (s : State) (spine : Bool) (die st loop : Nat) : Slot :=
  let i := slotIndex spine (position spine die st loop) s.fcycle
  (s.fabric.slots.find? fun x => x.isAt spine die loop i).getD
    { spine := spine, die := if spine then 0 else die, loop := loop, index := i }

/-- A slot put back: one that is empty and unreserved is not listed. -/
def Fabric.putSlot (f : Fabric) (x : Slot) : Fabric :=
  let rest := f.slots.filter fun y => !y.isAt x.spine x.die x.loop x.index
  { f with slots := if x.flit.isNone && x.reserved.isNone then rest else x :: rest }

/-! ## Injection ports (R32, R33) -/

def InjPort.isAt (p : InjPort) (die st : Nat) : Bool := p.die == die && p.st == st

/-- The injection port of a station: one for all its loops.
Log entry 83 (DEDUCED). -/
def Fabric.port (f : Fabric) (die st : Nat) : InjPort := (f.ports.find? fun p => p.isAt die st).getD { die := die, st := st }

def Fabric.putPort (f : Fabric) (p : InjPort) : Fabric := { f with ports := p :: f.ports.filter fun q => !q.isAt p.die p.st }

/-- R32, Table 2.4. The lengths of a class in flits. -/
def lengthOk (cls : BitVec 2) (n : Nat) : Bool :=
  match cls.toNat with
  | 0 => decide (1 ≤ n ∧ n ≤ 16)
  | 1 => decide (1 ≤ n ∧ n ≤ 4)
  | 2 => n == 1
  | _ => false

/-- Byte k of a flit's payload. -/
def payloadByte (w : BitVec 1024) (k : Nat) : Nat := w.toNat / 2 ^ (8 * k) % 256

/-- R36. The payload of a K ABORT, and the class and tag that one names. -/
def abortBody (cls : BitVec 2) (tag : BitVec 8) : BitVec 1024 := BitVec.ofNat 1024 (1 + 256 * cls.toNat + 65536 * tag.toNat)
def abortOf (w : BitVec 1024) : Option (Nat × Nat) :=
  if payloadByte w 0 = 1 then some (payloadByte w 1, payloadByte w 2) else none

/-- The class whose flit a port injects next: K before U before B, with the bulk floor of R34. -/
def InjPort.nextClass (q : InjPort) : Option Nat :=
  if !q.control.isEmpty then some 2
  else match q.urgent with
    | u :: _ =>
      if u.sent = 0 && !q.bulk.isEmpty && decide (8 < q.uSinceB + u.packet.body.length) then some 0 else some 1
    | [] => if q.bulk.isEmpty then none else some 0

def InjPort.queueOf (q : InjPort) (c : Nat) : List Sending := if c = 0 then q.bulk else if c = 1 then q.urgent else q.control

def InjPort.setQueue (q : InjPort) (c : Nat) (l : List Sending) : InjPort :=
  if c = 0 then { q with bulk := l } else if c = 1 then { q with urgent := l } else { q with control := l }

/-- The packet whose flit a port injects next. -/
def InjPort.next (q : InjPort) : Option Sending := q.nextClass.bind fun c => (q.queueOf c).head?

/-- R28. The wait of a port whose queues have changed: another next flit has not waited yet. -/
def InjPort.rewait (q old : InjPort) : InjPort := if q.next == old.next then q else { q with waiting := none }

/-- R39. The half-sent packet that an ABORT names is injected no further. -/
def dropAborted (p : Packet) (q : InjPort) : InjPort :=
  match if p.cls = 2 then p.body.head?.bind abortOf else none with
  | none => q
  | some a =>
    let keep := fun (x : Sending) =>
      !(decide (0 < x.sent) && x.tag.toNat == a.2 && x.packet.dstDie == p.dstDie && x.packet.dstSt == p.dstSt)
    match a.1 with
    | 0 => { q with bulk := q.bulk.filter keep }
    | 1 => { q with urgent := q.urgent.filter keep }
    | _ => q

/-- A packet that joins the queue of its class. -/
def InjPort.push (q : InjPort) (x : Sending) : InjPort :=
  match x.packet.cls.toNat with
  | 0 => { q with bulk := q.bulk ++ [x] }
  | 1 => { q with urgent := q.urgent ++ [x] }
  | _ => ({ dropAborted x.packet q with control := q.control ++ [x] } : InjPort).rewait q

/-- A packet that a station has for its next segment joins the station's port; one that breaks Table 2.4 or R21, or has
arrived, does not. -/
def Fabric.send (f : Fabric) (die st : Nat) (p : Packet) : Fabric :=
  match nextHop die st p with
  | none => f
  | some h =>
    if lengthOk p.cls p.body.length && decide (p.finalDie < 8) && decide (p.finalSt < 63) && decide (p.part < 16) then
      f.putPort ((f.port die st).push { packet := { p with dstDie := h.2.2.1, dstSt := h.2.2.2 }, spine := h.1, loop := h.2.1 })
    else f

/-! ## Streams and their tags (R27) -/

/-- R27. The stream of a packet from a station. -/
def streamOf (die st : Nat) (p : Packet) : StreamKey := ⟨p.cls, die, st, p.dstDie, p.dstSt⟩

def Fabric.tagOf (f : Fabric) (k : StreamKey) : StreamTag := (f.tags.find? fun t => t.key == k).getD { key := k }

/-! ## Packets that are cancelled (R39) -/

/-- The K ABORT of a half-sent packet: to its destination, on its loop. -/
def Sending.abort (x : Sending) : Sending :=
  { packet := { x.packet with cls := 2, body := [abortBody x.packet.cls x.tag] }, spine := x.spine, loop := x.loop }

/-- R39. A port cancels packets: those it has not begun go, one half sent is injected no further and aborted where
`tell` says so. -/
def InjPort.cancel (q : InjPort) (dead tell : Sending → Bool) : InjPort :=
  let aborts := ((q.bulk ++ q.urgent).filter fun x => dead x && decide (0 < x.sent) && tell x).map Sending.abort
  ({ q with
    bulk := q.bulk.filter fun x => !dead x
    urgent := q.urgent.filter fun x => !dead x
    control := q.control ++ aborts } : InjPort).rewait q

/-- R48, Table 3.5. The link ABORT of a link packet of a class. -/
def linkAbort (cls : Nat) (tag : BitVec 8) (part : Nat) : LinkPacket :=
  { cls := 2, bodies := [BitVec.ofNat 1856 (1 + 256 * cls + 65536 * tag.toNat)], words := 1, part := part }

/-- R39, R47, R58. A link port cancels packets: a half-sent one ends with a link ABORT. One of which a whole link packet has
gone ends with the ABORT of the link packet to come, which takes the next tag. -/
def Port.cancel (p : Port) (dead : Option PktOwner → Bool) : Port :=
  let half := (p.bulk ++ p.urgent).filter fun x => dead x.owner && decide (0 < x.sent)
  let rest := p.urgent.head?.filter fun x => dead x.owner && x.more && x.sent == 0
  let aborts := half.map (fun x => linkAbort x.cls.toNat x.tag x.part)
    ++ rest.toList.map fun x => linkAbort 1 (p.tags.getD 1 0) x.part
  { p with
    bulk := p.bulk.filter fun x => !dead x.owner
    urgent := p.urgent.filter fun x => !dead x.owner
    joining := p.joining.filter fun x => !dead x.owner
    tags := if rest.isSome then p.tags.modify 1 (· + 1) else p.tags
    control := p.control ++ aborts }

/-- R39, R196. The packets of an owner that is reset or cancelled are sent no further. -/
def State.cancelPackets (s : State) (dead : PktOwner → Bool) : State :=
  { s with
    fabric := { s.fabric with ports := s.fabric.ports.map fun q => q.cancel (fun x => x.packet.owner.any dead) (fun _ => true) }
    ports := s.ports.map fun p => p.cancel fun o => o.any dead }

end Sys2Proof.Machine
end

