-- ==== Sys2Proof/Machine/Ops.lean ====
section
/-! DEFINITION. Shared operations: flags and metering, context registers, the end of a context, taking a trap
(spec/10_traps_reliability.md R182 to R188), machine checks and rollback (R193, R196), and the frame in which every
encoded instruction has its meaning. -/

namespace Sys2Proof.Machine

open Host (Cell)

/-! ## Features, context registers, identity -/

/-- R71. Whether a feature is in the accepted set. -/
def State.feature (s : State) (n : Nat) : Bool := (s.accepted.getD 0).getLsbD n

/-- The value that stands in a context register. -/
def Csr.val (r : Csr) : Word := (r.writes.head?.map CsrWrite.val).getD r.base

/-- R231. The newest of some writes that a thread sees: its own at once, another's from the 256th cycle, before that
perhaps. -/
def seenWrite (s : State) (reg : Nat) (who : GKey × Nat) (l base : Word) : List CsrWrite → Word
  | [] => base
  | w :: ws =>
    if w.writer == who || decide (w.cycle + 256 ≤ s.cycle) || Config.csrNew s.tick reg ws.length l then w.val
    else seenWrite s reg who l base ws

/-- R231. The value of a context register that a thread sees. -/
def Csr.see (r : Csr) (s : State) (reg : Nat) (who : GKey × Nat) (l : Word) : Word := seenWrite s reg who l r.base r.writes

/-- R167, R259. The launch seed of a node: its SEED, or CTX_SEED where that is 0. -/
def State.seedOf (s : State) (c : Nat) (ref : Word) : DWord :=
  match s.node? c ref with
  | some n => if n.rec'.seed = 0 then (s.ctx c).seed else n.rec'.seed
  | none => (s.ctx c).seed

/-- R163. The rounding mode of CTX_ROUND as a thread sees it. -/
def State.mode (s : State) (g : Group) (t : Nat) : Mode :=
  modeOf ((s.ctx g.key.ctx).round.see s 0 (g.key, t) (g.l t))

/-! ## Flags and metering -/

/-- R235, R311. The flags raised in a cycle, once some more are. -/
def raisedNow {n : Nat} (cycle : Nat) (f : BitVec n) (old : Nat × BitVec n) : Nat × BitVec n :=
  if f = 0 then old else if old.1 = cycle then (cycle, old.2 ||| f) else (cycle, f)

/-- R168, R235. Bits of CTX_FLAGS set in a cycle. -/
def Context.raiseBits (cycle : Nat) (f : Flags) (c : Context) : Context :=
  let v := f.zeroExtend 32
  { c with flags := c.flags ||| v, raised := raisedNow cycle v c.raised }

/-- R168. Sticky flags of a thread set in a cycle. -/
def Thread.raiseBits (cycle : Nat) (f : Flags) (th : Thread) : Thread :=
  { th with flags := th.flags ||| f, raised := raisedNow cycle f th.raised }

/-- R168. Group flags set in a cycle. -/
def Group.raiseBits (cycle : Nat) (f : Flags) (g : Group) : Group :=
  { g with flags := g.flags ||| f, raised := raisedNow cycle f g.raised }

/-- R168. Flags of a retiring instruction: the thread's, the group's and CTX_FLAGS. -/
def State.raise (s : State) (g t : Nat) (f : Flags) : State :=
  match s.groups[g]? with
  | some gr =>
    (s.modGroup g fun x => (x.modThread t (Thread.raiseBits s.cycle f)).raiseBits s.cycle f).modCtx gr.key.ctx
      (Context.raiseBits s.cycle f)
  | none => s

/-- R80. A counter raised by an increment, saturating.
Log entry 79 (DEDUCED). -/
def meterAdd (i inc : Nat) (c : Context) : Context :=
  { c with
    meters := c.meters.modify i fun v => min (v + inc) (2 ^ 64 - 1)
    satMask := c.satMask.modify i fun b => b || decide (2 ^ 64 - 1 < c.meters.getD i 0 + inc) }

/-- R82. The bank of a node's counts. -/
def State.bank (s : State) (c : Nat) (ref : Word) : Nat :=
  match s.node? c ref with
  | some n => if n.attempt = 0 then 0 else 1
  | none => 0

/-- R79 to R82. An increment of a category for work of a node. -/
def State.meter (s : State) (k : GKey) (cat inc : Nat) : State :=
  if inc = 0 then s else s.modCtx k.ctx (meterAdd (2 * cat + s.bank k.ctx k.node) inc)

/-! ## Stores by the device -/

/-- A store of the device itself at a virtual address of a context, one event of S; nothing where it is unmapped. -/
def State.devStore (s : State) (c x : Nat) (bs : List Byte) : State :=
  match (s.ctx c).phys? x with
  | some p => (s.stageFor none (p / 65536)).memWrite p bs
  | none => s

/-- A long write of the device, byte by byte. -/
def State.devStoreLong (s : State) (c x : Nat) : List Byte → State
  | [] => s
  | b :: bs => (s.devStore c x [b]).devStoreLong c (x + 1) bs

/-- R90, Table 6.4. STATUS of a node written to its record. -/
def State.putStatus (s : State) (c : Nat) (ref : Word) : State :=
  match s.node? c ref with
  | some n => s.devStore c (n.addr + 104) (natBytes 4 n.status)
  | none => s

/-- A node's state changed and its STATUS written. -/
def State.setNodeState (s : State) (c : Nat) (ref : Word) (st : NodeState) : State :=
  (s.modNode c ref fun n => { n with state := st }).putStatus c ref

/-- R195. A RUNNING node sealed by a cause, with its STATUS. -/
def State.sealNow (s : State) (c : Nat) (ref : Word) (cause : Nat) : State :=
  match s.node? c ref with
  | some n => if n.state == .running then (s.seal c ref cause).putStatus c ref else s
  | none => s

/-! ## Message windows (R304, R305) -/

/-- Words that a team has sent to a team and that are not yet taken. -/
def Team.inFlight (t : Team) (node : Word) (team : Nat) : Nat :=
  ((t.windowsUsed.find? fun w => w.1 == node && w.2.1 == team).map fun w => w.2.2).getD 0

def bumpWindow (up : Bool) (node : Word) (team : Nat) (l : List (Word × Nat × Nat)) : List (Word × Nat × Nat) :=
  if l.any fun w => w.1 == node && w.2.1 == team then
    l.map fun w => if w.1 == node && w.2.1 == team then (w.1, w.2.1, if up then w.2.2 + 1 else w.2.2 - 1) else w
  else if up then l ++ [(node, team, 1)] else l

/-- A window place taken, or given back, by a sending team toward a destination team.
Log entry 78 (DEDUCED). -/
def State.window (s : State) (sender : TKey) (up : Bool) (node : Word) (team : Nat) : State :=
  s.modTeam sender fun t => { t with windowsUsed := bumpWindow up node team t.windowsUsed }

/-! ## The phases of team barriers (R298, R299) -/

/-- Whether a group's role is in the role mask of a phase's bits. -/
def Group.inMask (g : Group) (bits : BitVec 4) : Bool := if g.producer then bits.getLsbD 0 else bits.getLsbD 1

/-- R298. Whether every participant of the open phase has arrived, or counts as arrived. -/
def Barrier.complete (b : Barrier) (gs : List Group) : Bool :=
  match b.bits with
  | none => false
  | some bits => gs.all fun g => !g.inMask bits || b.arrived.contains g.key.idx || (bits.getLsbD 2 && g.allExited)

/-- R146. The entries that a phase with the flush bit gathers: of its participants, made before each thread's arrival. -/
def flushEntry (k : TKey) (b : Barrier) (gs : List Group) (e : BasketEntry) : Bool :=
  let bits := b.bits.getD 0
  e.node == k.node && e.team == k.team
    && (gs.any fun g => g.inMask bits && (List.range g.threads.length).any fun t => g.l t == e.l)
    && (match b.marks.find? fun m => m.1 == e.l with
      | some m => decide (e.seq.toNat < m.2)
      | none => true)

/-- R146, R299 step 1. The basket entries that a complete phase still waits for: none without the flush bit. -/
def State.phaseEntries (s : State) (k : TKey) (b : Barrier) (gs : List Group) : List BasketEntry :=
  if (b.bits.getD 0).getLsbD 3 then (s.ctx k.ctx).basket.filter (flushEntry k b gs) else []

/-- R299. Whether the open phase of a barrier is over: every participant has arrived, and its entries have been applied. -/
def State.phaseOver (s : State) (k : TKey) (b : Barrier) : Bool :=
  let gs := s.lanes k
  b.complete gs && (s.phaseEntries k b gs).isEmpty

/-- R111, R298. A phase of a team on cores is over: it ends before time passes. -/
def State.phasesOver (s : State) : Bool := s.teams.any fun t => !t.saved && t.barriers.any (s.phaseOver t.key)

/-! ## Waits and their limits (R189, R140) -/

/-- What a BLOCKED thread waits for. -/
def Thread.wait? (th : Thread) : Option Wait :=
  match th.state with
  | .blocked w => some w
  | _ => none

/-- R189. The limit that a thread compares its count with. -/
def State.limit (s : State) (g : Group) (t : Nat) : Nat :=
  max 1024 ((s.ctx g.key.ctx).whistle.see s 2 (g.key, t) (g.l t)).toNat

/-- Whether the whistle counts a wait.
Log entry 61 (DEDUCED). -/
def Wait.counted : Wait → Bool
  | .nap _ | .owner _ | .stmap _ _ _ | .stflush _ => false
  | _ => true

/-- Whether a wait is at a WAITW. -/
def Wait.onWord : Wait → Bool
  | .waitw _ _ _ _ => true
  | _ => false

/-- Whether a wait is an owner-state wait (R140, R287). -/
def Wait.ownerWait : Wait → Bool
  | .owner _ | .stmap _ _ _ => true
  | _ => false

/-- Table 7.3. The code of a wait. -/
def Wait.code : Wait → Nat
  | .barg | .bart _ _ | .barwt _ _ => 3
  | .waitc _ _ _ _ | .tblld _ _ => 4
  | .qr _ | .qrAll _ _ _ _ | .qs _ _ _ _ _ => 5
  | .mbr _ _ | .mbw _ _ => 6
  | .swait _ _ _ => 7
  | .waitw _ _ _ _ => 8
  | .owner _ | .stmap _ _ _ | .stflush _ => 9
  | .reggrow _ _ _ | .accalloc _ _ _ _ => 10
  | .nap _ => 11

/-- R299. Whether a wait is at a barrier whose phase is over, so that it ends at once. -/
def State.waitOver (s : State) (g : Group) (w : Wait) : Bool :=
  match w with
  | .bart id _ | .barwt id _ => (s.team? (gkeyTeam g.key)).any fun t => s.phaseOver t.key (t.barriers.getD id {})
  | _ => false

/-- R189, R140. The cycles that may pass before the count of a thread's wait reaches its limit. -/
def State.limitLeft (s : State) (g : Group) (t : Nat) : Option Nat :=
  match (g.thread t).wait? with
  | some w => if (w.counted || w.ownerWait) && !s.waitOver g w then some (s.limit g t - (g.thread t).waited) else none
  | none => none

/-- Table 10.1, the detail of BAR_TIMEOUT at a team barrier. -/
def barDetail (id : Nat) (b : Barrier) (gs : List Group) : Word :=
  let bits := b.bits.getD b.last
  let mine := gs.filter fun g => g.inMask bits
  BitVec.ofNat 32 (id + 16 * (mine.filter fun g => b.arrived.contains g.key.idx).length
    + 2048 * (mine.filter Group.allExited).length)

/-- Table 10.1. The code and detail of a whistle trap. -/
def State.whistleTrap (s : State) (g : Group) (w : Wait) : BitVec 8 × Word :=
  match w with
  | .bart id _ | .barwt id _ =>
    (tBarTimeout, barDetail id (((s.team? (gkeyTeam g.key)).map fun t => t.barriers.getD id {}).getD {}) (s.lanes (gkeyTeam g.key)))
  | .barg =>
    (tBarTimeout, BitVec.ofNat 32 (16 * (g.threads.filter fun th => th.state == .blocked .barg).length
      + 2048 * (g.threads.filter Thread.isExited).length + 2 ^ 18))
  | w => (tWaitTimeout, BitVec.ofNat 32 w.code)

/-- R129, R130. The plain scratch address that a scratch address reaches, past the windows onto the team's own scratch. -/
def State.plainAddr (s : State) (k : TKey) (a : Nat) : Nat :=
  match (s.team? k).map fun t => checkScratch (s.ctx k.ctx) t a 1 false with
  | some (.ok (.scr b)) => b
  | _ => a

/-- R140, Table 10.1. The scratch address at which a thread waits on an owner state: of an access through the aperture, the
first byte there. -/
def State.waitAddr (s : State) (k : GKey) (w : Wait) : Nat :=
  match w with
  | .owner x =>
    s.plainAddr (gkeyTeam k)
      (if x.glob then x.addr - ((s.team? (gkeyTeam k)).map fun t => t.aperture.toNat).getD 0 else x.addr)
  | .stmap f _ _ => f * 4096
  | _ => 0

/-- Table 10.1. The code and detail of the trap of a wait that has reached its limit. -/
def State.limitTrap (s : State) (g : Group) (w : Wait) : BitVec 8 × Word :=
  if w.ownerWait then (tOwnerTimeout, BitVec.ofNat 32 (s.waitAddr g.key w)) else s.whistleTrap g w

/-! ## Trap records (R182) -/

/-- R182. The record of a trap at thread t of a group. -/
def State.record (s : State) (gr : Group) (t : Nat) (code : BitVec 8) (detail : Word) (basket : Bool) : TrapRec :=
  { code := code, control := gr.key.kind == .control, basket := basket, core := gr.core, pc := shownPc (gr.thread t).pc,
    l := gr.l t, detail := detail, time := s.time, node := gr.key.node, group := gr.key }

/-- The context keeps its last 16 trap records. -/
def keepTrap (r : TrapRec) (c : Context) : Context :=
  let l := c.traps ++ [r]
  { c with traps := l.drop (l.length - 16) }

/-- Order of R182: trap cycle, L, node reference. -/
def trapOrder (r : TrapRec) : Nat := (7 * r.time / 10 * 2 ^ 32 + r.l.toNat) * 2 ^ 32 + r.node.toNat

/-! ## The end of teams and contexts -/

/-- Whether a team of a context, placed and not evicted, occupies a core. -/
def State.occupied (s : State) (c i : Nat) : Bool := s.teams.any fun t => t.key.ctx == c && !t.saved && t.cores.contains i

/-- R127. The evicted team of a context, of the lowest team index, that occupied a core; its mailboxes there. Of two nodes' teams of
one index the first in State.teams.
Log entry 107 (DESIGN CHOICE). -/
def State.heir (s : State) (c i : Nat) : Option (TKey × Nat × List (List Word)) :=
  match leastBy? (fun (t : Team) => t.key.team) (s.teams.filter fun t => t.key.ctx == c && t.saved && t.cores.contains i) with
  | none => none
  | some t => ((s.core i).mailboxes.find? fun m => m.1 == c).map fun m => (t.key, t.cores.idxOf i, m.2)

/-- R104, R127. The mailboxes of a core that a context leaves are saved with its heir, if an eviction left it one. -/
def State.bequeath (s : State) (c : Nat) : List Nat → State
  | [] => s
  | i :: is =>
    let s1 := if s.occupied c i then s else match s.heir c i with
      | some h => s.modTeam h.1 fun t => { t with mailboxes := t.mailboxes ++ [h.2] }
      | none => s
    s1.bequeath c is

/-- A core that no team of a context occupies any more: its banks (R190) and mailboxes (R127). -/
def leaveCore (s : State) (c : Nat) (i : Nat) (x : Core) : Core :=
  if s.occupied c i then x
  else { x with banks := x.banks.map fun b => if b == some c then none else b,
                mailboxes := x.mailboxes.filter fun m => m.1 != c }

def mapCores (s : State) (f : Nat → Core → Core) : State := { s with cores := s.cores.mapIdx f }

/-- Words waiting in the receive queues of a team go: their window places return (R305). -/
def State.dropQueues (s : State) (k : TKey) : State :=
  let ws := ((s.groups.filter fun g => gkeyTeam g.key == k).map fun g => (g.threads.map Thread.queue).flatten).flatten
  ws.foldl (fun s w => s.window w.2 false k.node k.team) s

/-- R128, R196. A team with its groups, its control thread, its handler instances, its trap records and its engine
commands leaves the machine. -/
def State.freeTeam (s : State) (k : TKey) : State :=
  let s1 := s.dropQueues k
  let cores := ((s.team? k).map Team.cores).getD []
  let s2 := { s1 with groups := s1.groups.filter fun g => gkeyTeam g.key != k,
                      teams := s1.teams.filter fun t => t.key != k }.bequeath k.ctx cores
  mapCores s2 fun i x => leaveCore s2 k.ctx i
    { x with queue := x.queue.filter fun q => q.team != k,
             trapQueue := x.trapQueue.filter fun r => gkeyTeam r.group != k }

/-- R371. The contributors of an open round receive a trap. -/
def Round.fail (r : Round) (code : BitVec 8) : List StileResult :=
  r.parts.map fun p => ⟨p.party, r.lbase, r.seq, r.sub, .trap code⟩

/-- R78, R371. A stile session closes, and opens no more: its open rounds end in GATE_ABORT at once.
Log entry 71 (DEDUCED). -/
def State.closeSession (s : State) (id : Nat) : State :=
  let ours := (s.ctxs.zipIdx.filter fun p => p.1.session == some id).map Prod.snd
  ours.foldl (fun s c => s.modCtx c fun x => { x with session := none, party := 0, nparty := 0 })
    (s.modSession id fun x =>
      { x with opened := false, closed := true, rounds := [], results := x.results ++ (x.rounds.map fun r => r.fail tGateAbort).flatten })

/-- R75, R85, R94. A context becomes TERMINATED: its work leaves the machine, its session closes, and the final
statement is made. -/
def State.terminate (s : State) (c : Nat) : State :=
  let keys := (s.teams.filter fun t => t.key.ctx == c).map Team.key
  let s1 := keys.foldl (fun s k => s.freeTeam k) s
  let s2 := { s1 with
    nodes := s1.nodes.filter fun n => n.ctx != c
    groups := s1.groups.filter fun g => g.key.ctx != c
    net := s1.net.filter fun w => w.ctx != c }
  let ours := (s2.sessions.filter fun x =>
    !x.closed && x.parties.any fun p => p.dev == s2.boot.devId && p.ctx == c).map Session.id
  let s3 := ours.foldl (fun s id => s.closeSession id) (s2.cancelPackets fun o => o.group.ctx == c)
  let s4 := s3.modCtx c fun x =>
    { x with state := .terminated, session := none, party := 0, nparty := 0, basket := [], batches := [] }
  let r := s4.statement c 1 0
  r.1.modCtx c fun x => { x with final := some r.2 }

/-- R186, R321. The records of the whistle and owner-state traps that groups of a context still take while the system cores
stop it: where the least count of a group reaches its limit within the cycles that this lasts.
Log entry 35 (DESIGN CHOICE). -/
def State.lateRecords (s : State) (c : Nat) : List TrapRec :=
  s.groups.filterMap fun g =>
    if g.key.ctx == c && s.onCore g && !g.stop then
      (leastBy? (fun (t : Nat) => (s.limitLeft g t).getD (2 ^ 64)) (List.range g.threads.length)).bind fun t =>
        match s.limitLeft g t, (g.thread t).wait? with
        | some n, some w =>
          if n ≤ Config.stopDelay s.tick then
            let d := s.limitTrap g w
            some { s.record g t d.1 d.2 false with time := max s.time ((10 * (s.cycle + n) + 6) / 7) }
          else none
        | _, _ => none
    else none

/-- R182. Records that a context keeps, in the order of their traps. -/
def keepTraps (rs : List TrapRec) (c : Context) : Context := sortBy trapOrder rs |>.foldl (fun c r => keepTrap r c) c

/-- R186. A fatal trap: every group stops, the dump is written, the context becomes TERMINATED. The records of the cycle of
the fatal trap stand in the order of R182. -/
def State.fatal (s : State) (c : Nat) (r : TrapRec) : State :=
  let late := s.lateRecords c
  let order := fun (x : Context) => if late.isEmpty then x else { x with traps := sortBy trapOrder x.traps }
  let s1 := { s.modCtx c (fun x => order (keepTraps late x)) with
    groups := s.groups.map fun g => if g.key.ctx == c then { g with stop := true } else g }
  let size := (s.ctx c).dumpSize
  let file := dumpFile s1 c r false
  let kept := if file.length ≤ size then file else (dumpFile s1 c r true).take size
  ((s1.devStoreLong c (s.ctx c).dumpBase.toNat kept).modCtx c fun x => { x with dumped := true }).terminate c

/-! ## Taking a trap -/

/-- R183, R187. Whether a trap of a group is fatal: no handler is installed, or the group is a handler instance. -/
def State.trapIsFatal (s : State) (gr : Group) : Bool :=
  gr.key.kind == .handler || !(s.ctx gr.key.ctx).trapVec.val.getLsbD 0

/-- R178, R182, R187. Taking a trap: group g stops at the PC of its thread t with `set` as its trapped issue set, and
the record goes to the control core of its core; the trap is fatal where no handler is installed, and in a handler. -/
def State.takeTrap (s : State) (g : Nat) (set : List Nat) (t : Nat) (code : BitVec 8) (detail : Word)
    (basket : Bool := false) : State :=
  match s.groups[g]? with
  | none => s
  | some gr =>
    let c := gr.key.ctx
    let r := s.record gr t code detail basket
    let s1 := (s.modGroup g fun x => { x with stop := true, trapped := set, fetch := none, lowered := [] }).modCtx c (keepTrap r)
    if s.trapIsFatal gr then s1.fatal c r
    else s1.modCore gr.core fun x => { x with trapQueue := x.trapQueue ++ [r] }

/-- R185, R202. A thread of the trapped issue set moves to a PC; breakpoints that stopped it are passed over where it
issues its instruction again. -/
def Thread.resume (again : Bool) (pc : Word) (th : Thread) : Thread :=
  { th with pc := pc, state := .ready, owed := 0, skip := if again then th.skip else [], higher := [], table := [], tainted := false }

/-- R185. The return from a trap: the threads of the trapped issue set move to a PC, and the stop flag clears. -/
def State.resume (s : State) (g : Nat) (again : Bool) (pc : Thread → Word) : State :=
  s.modGroup g fun gr =>
    { gr with
      stop := false
      yielded := false
      trapped := []
      threads := gr.threads.mapIdx fun t th => if gr.trapped.contains t then th.resume again (pc th) else th }

/-! ## Waits -/

/-- A thread that goes on at a PC: what its instruction has kept while it waited is done with. -/
def Thread.goOn (th : Thread) (pc : Word) : Thread :=
  { th with state := .ready, pc := pc, waited := 0, owed := 0, skip := [], higher := [], table := [], tainted := false }

/-- A thread that waits. -/
def Thread.block (th : Thread) (w : Wait) : Thread :=
  { th with state := .blocked w, waited := 0, owed := 0, skip := [] }

/-- The threads that wait, in a way of a kind, in the instruction at which a thread stands. -/
def Group.waitSet (g : Group) (kind : Wait → Bool) (t : Nat) : List Nat :=
  (List.range g.threads.length).filter fun u => (g.thread u).wait?.any kind && (g.thread u).pc == (g.thread t).pc

/-- R184. A window write that has waited for the data of a register. -/
def Thread.writeLate (th : Thread) (r : Nat) : Thread :=
  match th.late.find? fun x => x.1 == r with
  | some x => { (th.setReg r x.2).setPend r false with late := th.late.filter fun y => y.1 != r }
  | none => th

/-- R140. A load's destination stops being pending where its access is given up; a window write that waited for its data
takes place (R184). -/
def Thread.dropAccess (th : Thread) : Thread :=
  match th.state with
  | .blocked (.owner x) => x.regs.foldl (fun th r => (th.setPend r false).writeLate r) th
  | _ => th

/-- Threads whose wait ends without retiring, for a trap that a handler takes. -/
def Group.unblock (gr : Group) (set : List Nat) : Group :=
  { gr with threads := gr.threads.mapIdx fun t th => if set.contains t then { th with state := .ready, waited := 0, owed := 0 } else th }

/-- A trap at a waiting instruction: its threads stand at it without having retired it, unless the trap is fatal. -/
def State.trapWait (s : State) (g : Nat) (set : List Nat) (t : Nat) (code : BitVec 8) (detail : Word) : State :=
  match s.groups[g]? with
  | none => s
  | some gr =>
    let s1 := if s.trapIsFatal gr then s else s.modGroup g fun x => x.unblock set
    s1.takeTrap g set t code detail

/-! ## Rollback and machine checks -/

/-- R196. One staged page returns to its pre-image, as one store of S. -/
def restorePage (m : List Cell) (p : Nat × List Cell) : List Cell :=
  p.2.foldl (fun m c => cellsSet m c.1 c.2) (cellsClear m (p.1 * 65536) (p.1 * 65536 + 65536))

/-- R196. A node rolls back: its teams and commands go, its basket entries and staging are discarded, its ranges are
released, and it is ROLLEDBACK. Words on their way to it from other nodes stay (R305).
Log entry 78 (DEDUCED). -/
def State.rollback (s : State) (c : Nat) (ref : Word) : State :=
  match s.node? c ref with
  | none => s
  | some n =>
    let keys := (s.teams.filter fun t => t.key.ctx == c && t.key.node == ref).map Team.key
    let s1 := (keys.foldl (fun s k => s.freeTeam k) s).cancelPackets fun o => o.group.ctx == c && o.group.node == ref
    let s2 := s1.modCtx c fun x => { x with basket := x.basket.filter fun e => e.node != ref }
    let own := fun (k : TKey) => k.ctx == c && k.node == ref
    let s3 := { s2 with
      net := s2.net.filter fun w => !(w.ctx == c && w.node == ref && own w.sender)
      mem := n.staged.foldl restorePage s2.mem
      errors := s2.errors.filter fun r => !(r.group.ctx == c && r.node == ref) }
    let s4 := s3.modNode c ref fun x =>
      { x with registered := false, staged := [], stagedCount := 0, evicted := [], early := x.early.filter (fun w => !own w.2.2),
               dredSeqs := [], nextTeam := 0, retired := 0 }
    s4.setNodeState c ref .rolledBack

/-- R94, R193. A machine check takes effect: rollback of a RUNNING node with ATTEMPT below 3, else a fatal trap with code
0x3F and the record given. -/
def State.takeError (s : State) (r : TrapRec) : State :=
  let c := r.group.ctx
  match s.node? c r.node with
  | some n =>
    if n.state == .running && decide (n.attempt < 3) then s.rollback c r.node
    else (s.modCtx c (keepTrap r)).fatal c r
  | none => (s.modCtx c (keepTrap r)).fatal c r

/-- Whether an uncorrectable error of a node has been consumed in the present cycle. -/
def State.erring (s : State) (c : Nat) (ref : Word) : Bool := s.errors.any fun r => r.group.ctx == c && r.node == ref

/-- The list of consumed errors emptied. -/
def State.noErrors (s : State) : State := { s with errors := [] }

/-- R94, Table 6.5. The errors consumed in a cycle take effect as it ends: after the sealing events of the cycle, and before
the retirement of a team or the completion of the node, which wait for them.
Log entry 97 (DEDUCED). -/
def State.takeErrors (s : State) : State :=
  s.errors.foldl (fun s r => if s.erring r.group.ctx r.node && (s.ctx r.group.ctx).state == .active then s.takeError r else s)
    s |>.noErrors

/-- R193. A machine check of work of a node, at the group of the record: the group goes no further, and the error is
consumed, if none of the node is yet. -/
def State.checkNode (s : State) (r : TrapRec) : State :=
  { s with
    errors := if s.erring r.group.ctx r.node then s.errors else s.errors ++ [r]
    groups := s.groups.map fun g => if g.key == r.group then { g with stop := true } else g }

/-- R193. A machine check at thread t of a group, at an instruction of it; `source` is the detail of Table 10.1.
Log entry 38 (DEDUCED). -/
def State.machineCheckAt (s : State) (g t : Nat) (source pc : Word) : State :=
  match s.groups[g]? with
  | some gr => s.checkNode { s.record gr t tMachineCheck source false with pc := shownPc pc }
  | none => s

/-- R193. A machine check at the instruction at which a thread stands. -/
def State.machineCheck (s : State) (g t : Nat) (source : Word) : State :=
  s.machineCheckAt g t source (((s.groups[g]?).map fun gr => (gr.thread t).pc).getD 0)

/-! ## The frame of an instruction -/

/-- The instruction that an issue executes: its group, its issue set, its PC, its length and its word (Table 10.1,
detail of ILLEGAL_OP). -/
structure Act where
  g : Nat
  set : List Nat
  /-- R276: the threads of a store whose lower parts have been performed. -/
  lowered : List Nat
  instr : Instr
  pc : Word
  len : Nat
  word : Word
deriving DecidableEq, Repr

/-- PC of the next instruction (R203). -/
def Act.next (a : Act) : Word := pcAfter a.pc a.len

/-- The lowest-L thread of the issue set. -/
def Act.lead (a : Act) : Nat := a.set.headD 0

/-- A trap on the whole issue set that names thread t. -/
def Act.trap (a : Act) (s : State) (t : Nat) (code : BitVec 8) (detail : Word) : State :=
  s.takeTrap a.g a.set t code detail

/-- Step 1 of Table 11.20: ILLEGAL_OP on the issue set. -/
def Act.illegal (a : Act) (s : State) : State := a.trap s a.lead tIllegalOp a.word

/-- R114. The meaning of an encoded instruction on the issue set in progress; a word that fails step 1 of Table 11.20
traps ILLEGAL_OP. The issue ends with it. -/
def withIssue (i : Instr) (s : State) (f : Act → Group → State → State) : Host.Outcome State Fault Refusal :=
  match s.cur with
  | none => .fault .noIssueSet
  | some c =>
    match s.groups[c.g]? with
    | none => .fault .noIssueSet
    | some gr =>
      let a : Act := { g := c.g, set := c.set, lowered := c.lowered, instr := i, pc := (gr.thread (c.set.headD 0)).pc,
                       len := instrLen i, word := BitVec.ofNat 32 (encodeWord i).1 }
      let s1 := { s with cur := none }
      .next (if i.wf then f a gr s1 else a.illegal s1)

/-- The meaning of an event: always a next state. -/
def event (s : State) : Host.Outcome State Fault Refusal := .next s

/-- The threads of the issue set go on to the next instruction. -/
def Act.retire (a : Act) (s : State) : State :=
  s.modGroup a.g fun gr => a.set.foldl (fun gr t => gr.modThread t fun th => { th with pc := a.next }) gr

end Sys2Proof.Machine
end

