-- ==== Sys2Proof/Machine/Boot.lean ====
section
/-! DEFINITION. The meanings of the events of power, boot, lifecycle and the management port
(spec/01_package.md R11 to R20), and of bank sparing (spec/10_traps_reliability.md R198). -/

namespace Sys2Proof.Machine

/-! ## Fuses (R18 to R20) -/

def Lifecycle.code : Lifecycle → Nat
  | .manufacture => 0
  | .provisioned => 1
  | .deployed => 2
  | .rma => 3

def lifecycleOf (n : Nat) : Lifecycle :=
  match n with
  | 0 => .manufacture
  | 1 => .provisioned
  | 2 => .deployed
  | _ => .rma

/-- R19. A wipe is pending when WIPE_SET of the current state is burned and its WIPE_DONE is not. -/
def Fuses.wipePending (f : Fuses) : Bool :=
  let i := f.lifecycle.code - 1
  f.lifecycle != .manufacture && f.wipeSet.getD i false && !f.wipeDone.getD i false

/-- WIPE_DONE of the current state burned. -/
def Fuses.burnDone (f : Fuses) : Fuses :=
  if f.lifecycle == .manufacture then f else { f with wipeDone := f.wipeDone.set (f.lifecycle.code - 1) true }

/-- Table 1.4. Who authorises a transition: 0 the manufacturing key, 1 the owner provisioning key. -/
def transitionSigner (src dst : Lifecycle) : Option Nat :=
  match src, dst with
  | .manufacture, .provisioned => some 0
  | .provisioned, .deployed | .provisioned, .rma | .deployed, .rma => some 1
  | _, _ => none

/-- R18, R19. The fuses of a new state: the state with its WIPE_SET, and the operator key with DEPLOYED. -/
def Fuses.burnState (f : Fuses) (dst : Lifecycle) (opKey : BitVec 384) : Fuses :=
  { f with
    lifecycle := dst
    wipeSet := f.wipeSet.set (dst.code - 1) true
    operatorKey := if dst == .deployed then some opKey else f.operatorKey }

/-! ## Boot -/

/-- R86. A BOOTNONCE that no earlier boot has used: the value drawn, or the next one after it that is free. -/
def freshNonce (used : List (BitVec 128)) (r : BitVec 128) : BitVec 128 :=
  (((List.range (used.length + 1)).map fun i => r + BitVec.ofNat 128 i).find? fun n => !used.contains n).getD r

/-- R17, R20. Boot ROM starts on given fuses: it completes a pending wipe, and every register is as after reset. A wipe
covers system-core memory, and with it an image that PLDM has delivered (R19). The choices of the next steps, which are
the model's, go on.
Log entry 47 (DEDUCED). -/
def State.restart (s : State) (f : Fuses) (wiped : Bool) : State :=
  let wipe := wiped || f.wipePending
  let nonce := freshNonce s.boot.nonces (Config.bootNonce s.tick)
  { State.reset with
    fuses := if wipe then f.burnDone else f
    tick := s.tick
    script := s.script
    mem := if wipe then [] else s.mem
    boot := { status := .stage 0, nonce := nonce, nonces := nonce :: s.boot.nonces, pending := if wipe then none else s.boot.pending,
              keysHeld := s.boot.keysHeld && !wipe } }

/-- DEVICE_RESET, R17. Power-on or device reset starts boot ROM. -/
def execDeviceReset (s : State) : Host.Outcome State Fault Refusal := event (s.restart s.fuses false)

/-- R15. Whether boot ROM accepts an image. -/
def Fuses.accepts (f : Fuses) (rsaOk slhOk : Bool) (version : Nat) : Bool :=
  rsaOk && slhOk && decide (f.minVersion ≤ version)

/-- R16. Whether the source now tried is the management port. -/
def State.atMgmt (s : State) : Bool := s.fuses.mgmtFirst == (s.boot.tried == 0)

/-- R15, R16. An image of the source now tried is accepted, or the next source is tried, or boot fails in stage 0. -/
def State.judgeImage (s : State) (rsaOk slhOk : Bool) (version : Nat) : State :=
  if s.fuses.accepts rsaOk slhOk version then
    s.modBoot fun b => { b with status := .stage 1, image := some version }
  else if s.boot.tried = 0 then s.modBoot fun b => { b with tried := 1 }
  else s.modBoot fun b => { b with tried := 2, status := .failed 0 }

/-- FIRMWARE_IMAGE_RECEIVED, R15. A fetched image is checked; the management port's image is the one that a PLDM
update delivered, where one waits. -/
def execFirmwareImageReceived (rsaOk slhOk : Bool) (version : Nat) (s : State) : Host.Outcome State Fault Refusal :=
  event (if s.boot.status == .stage 0 then
      match s.boot.pending with
      | some p =>
        if s.atMgmt then (s.modBoot fun b => { b with pending := none }).judgeImage p.1 p.2.1 p.2.2
        else s.judgeImage rsaOk slhOk version
      | none => s.judgeImage rsaOk slhOk version
    else s)

/-- DIE_POWER_UP, R11. The next die powers up, 2 ms after the one before it. -/
def execDiePowerUp (s : State) : Host.Outcome State Fault Refusal :=
  event (if s.boot.status == .stage 1 && decide (s.boot.diesUp < 8)
      && (s.boot.diesUp == 0 || decide (s.boot.dieAt + 2000000 ≤ s.time)) then
      s.modBoot fun b => { b with diesUp := b.diesUp + 1, dieAt := s.time }
    else s)

/-- CLUSTER_POWER_UP, R11. The next cluster of a die powers up, 50 us after the one before it. -/
def execClusterPowerUp (die : Nat) (s : State) : Host.Outcome State Fault Refusal :=
  let n := s.boot.clustersUp.getD die 8
  event (if s.boot.status == .stage 1 && decide (die < s.boot.diesUp) && decide (n < 8)
      && (n == 0 || decide (s.boot.clusterAt.getD die 0 + 50000 ≤ s.time)) then
      s.modBoot fun b => { b with clustersUp := b.clustersUp.set die (n + 1), clusterAt := b.clusterAt.set die s.time }
    else s)

/-- R17 stage 4. A link is trained, its peer authenticated and a key ACTIVE in both directions. -/
def Port.agreed (p : Port) : Bool :=
  p.up && p.peer.isSome && p.tx.any (·.state == .active) && p.rx.any (·.state == .active)

/-- R17. Whether a stage that took time may end: stage 0 ends with an accepted image, stage 1 when every die and
cluster is up, stage 4 when every port that has a peer has trained and agreed its first keys.
Log entry 81 (DESIGN CHOICE). -/
def State.stageDone (s : State) (n : Nat) : Bool :=
  match n with
  | 0 => false
  | 1 => s.boot.diesUp == 8 && s.boot.clustersUp.all (· == 8)
  | 4 => s.ports.zipIdx.all fun p => p.1.agreed || (Config.attached p.2).isNone
  | _ => true

/-- Table 1.3. What the end of a stage leaves: stage 2 flags all memory zero, stage 3 clears registers, scratchpads
and accumulators. -/
def State.stageEffect (s : State) (n : Nat) : State :=
  match n with
  | 2 => { s with mem := [] }
  | 3 => { s with teams := [], groups := [], cores := List.replicate 256 {} }
  | _ => s

/-- BOOT_STAGE_COMPLETE, R17. A stage ends and the next starts, or the sequence stops in BOOT_FAIL. -/
def execBootStageComplete (ok : Bool) (s : State) : Host.Outcome State Fault Refusal :=
  event (match s.boot.status with
    | .stage n =>
      if !ok then s.modBoot fun b => { b with status := .failed n }
      else if s.stageDone n then
        (s.stageEffect n).modBoot fun b => { b with status := if n = 5 then .ready else .stage (n + 1) }
      else s
    | _ => s)

/-- COLUMN_RAMP_STEP, R11. A cluster enables 16 more matrix array columns, 175 cycles after the last. -/
def execColumnRampStep (cluster : Nat) (s : State) : Host.Outcome State Fault Refusal :=
  let n := s.boot.columns.getD cluster 128
  event (if s.boot.ramping.getD cluster false && decide (s.boot.columnAt.getD cluster 0 + 175 ≤ s.cycle) then
      s.modBoot fun b => { b with columns := b.columns.set cluster (min 128 (n + 16)), columnAt := b.columnAt.set cluster s.cycle,
                                  ramping := b.ramping.set cluster (decide (n + 16 < 128)) }
    else s)

/-! ## Lifecycle -/

/-- LIFECYCLE_TRANSITION, R18, R19. An authorised request burns the new state, wipes the device and restarts boot;
any other is refused. The system cores take requests from READY on.
Log entry 82 (DESIGN CHOICE). -/
def execLifecycleTransition (target : BitVec 2) (signer : Nat) (sigOk : Bool) (opKey : BitVec 384) (s : State) :
    Host.Outcome State Fault Refusal :=
  let dst := lifecycleOf target.toNat
  event (if s.boot.status == .ready && sigOk && transitionSigner s.fuses.lifecycle dst == some signer then
      s.restart (s.fuses.burnState dst opKey) true
    else s)

/-! ## Management port -/

/-- R14, R16. Whether the management port answers a message that BOOT_FAIL does not. -/
def State.mgmtLive (s : State) : Bool := s.boot.status.live

def State.reply (s : State) (r : MgmtReply) : State := s.modBoot fun b => { b with replies := r :: b.replies }

/-- MCTP_STATUS_REQUEST, R16, R17. Answered from the start of boot ROM, with the stage that failed. -/
def execMctpStatusRequest (s : State) : Host.Outcome State Fault Refusal :=
  event (match s.boot.status with
    | .off => s
    | .failed n => s.reply (.status (some n))
    | _ => s.reply (.status none))

/-- PLDM_FIRMWARE_UPDATE, R14, R16. Delivers a firmware image, also in BOOT_FAIL. -/
def execPldmFirmwareUpdate (rsaOk slhOk : Bool) (version : Nat) (s : State) : Host.Outcome State Fault Refusal :=
  event (if s.boot.status == .off then s
    else (s.modBoot fun b => { b with pending := some (rsaOk, slhOk, version) }).reply .updateTaken)

/-- PLDM_MONITORING, R14, R198. Answered with the corrected error count. -/
def execPldmMonitoring (s : State) : Host.Outcome State Fault Refusal :=
  event (if s.mgmtLive then s.reply (.monitoring (s.boot.corrected + s.fabric.corrected)) else s)

/-- SPDM_DEVICE_AUTHENTICATION, R14, R19. Answered with the certificates of a slot, of the lifecycle state's identity. -/
def execSpdmDeviceAuthentication (slot : Nat) (s : State) : Host.Outcome State Fault Refusal :=
  event (if s.mgmtLive then s.reply (.certificates slot s.fuses.identity) else s)

/-! ## Reliability -/

/-- R198. The corrected errors of the last hour of device time. -/
def lastHour (t : Nat) (l : List BankErrors) : List BankErrors := l.filter fun e => decide (t ≤ e.time + 3600000000000)

/-- R198. The corrected errors that a list holds of a bank. -/
def bankErrors (stack bank : Nat) (l : List BankErrors) : Nat :=
  ((l.filter fun e => e.stack == stack && e.bank == bank).map BankErrors.count).sum

/-- BANK_SPARING, R198. Corrected errors of a bank are counted; where those of an hour exceed the threshold the bank is
re-encoded under the symbol code, keeping contents and mappings. -/
def execBankSparing (stack bank errors : Nat) (s : State) : Host.Outcome State Fault Refusal :=
  event (s.modBoot fun b =>
    let l := lastHour s.time (⟨stack, bank, s.time, errors⟩ :: b.eccs)
    { b with
      corrected := b.corrected + errors
      eccs := l
      spared := if b.eccThreshold < bankErrors stack bank l && !b.spared.contains (stack, bank) then b.spared ++ [(stack, bank)]
        else b.spared })

end Sys2Proof.Machine
end

