-- ==== Sys2Proof/Machine/Sfu.lean ====
section
/-! DEFINITION. The special functions of spec/09_numbers.md R177, each correctly rounded: a function is enclosed
between two fixed-point bounds, with more bits until both bounds round to the same code (log entry 17). The twiddle
tables of spec/20_isa_butterfly_factor.md R349 use the same bounds. -/

namespace Sys2Proof.Machine

/-! ## Fixed point: an integer v stands for v / 2^p -/

/-- Product of two fixed-point numbers, rounded down. -/
def fxMul (p : Nat) (a b : Int) : Int := (a * b).fdiv (2 ^ p)

/-- The Taylor sum of exp at r, 0 ≤ r < 1, from term k on: fuel terms. -/
def fxExpLoop (p : Nat) (r : Int) : Nat → Nat → Int → Int → Int
  | 0, _, _, acc => acc
  | fuel + 1, k, term, acc =>
    let t := (fxMul p term r).fdiv (k : Int)
    fxExpLoop p r fuel (k + 1) t (acc + t)

def fxExp (p : Nat) (r : Int) : Int := fxExpLoop p r (p / 3 + 20) 1 (2 ^ p) (2 ^ p)

/-- atanh series: sum of x^(2k+1) / (2k+1), |x| at most 1/3. -/
def fxAtanhLoop (p : Nat) (x2 : Int) : Nat → Nat → Int → Int → Int
  | 0, _, _, acc => acc
  | fuel + 1, k, pw, acc =>
    let t := fxMul p pw x2
    fxAtanhLoop p x2 fuel (k + 2) t (acc + t.fdiv (k : Int))

def fxAtanh (p : Nat) (x : Int) : Int := fxAtanhLoop p (fxMul p x x) (p / 3 + 20) 3 x x

/-- ln 2 = 2 atanh (1/3). -/
def fxLn2 (p : Nat) : Int := 2 * fxAtanh p ((2 ^ p : Int).fdiv 3)

/-- atan (1/n) by its series. -/
def fxAtanInv (p n : Nat) : Int :=
  let x : Int := (2 ^ p : Int).fdiv n
  fxAtanhLoop p (-(2 ^ p : Int).fdiv (n * n)) (p / 3 + 20) 3 x x

/-- pi by Machin's formula. -/
def fxPi (p : Nat) : Int := 4 * (4 * fxAtanInv p 5 - fxAtanInv p 239)

/-- sin and cos of r, 0 ≤ r < 1: the terms r^k / k! with signs. -/
def fxTrigLoop (p : Nat) (r2 : Int) : Nat → Nat → Int → Int → Int
  | 0, _, _, acc => acc
  | fuel + 1, k, term, acc =>
    let t := -((fxMul p term r2).fdiv ((k * (k + 1) : Nat) : Int))
    fxTrigLoop p r2 fuel (k + 2) t (acc + t)

def fxSin (p : Nat) (r : Int) : Int := fxTrigLoop p (fxMul p r r) (p / 6 + 12) 2 r r
def fxCos (p : Nat) (r : Int) : Int := fxTrigLoop p (fxMul p r r) (p / 6 + 12) 1 (2 ^ p) (2 ^ p)

/-- m * 2^e in fixed point, rounded down. -/
def fxOf (p : Nat) (m : Int) (e : Int) : Int := (m * (pow2 (e + p) : Nat)).fdiv (pow2 (-(e + p)))

/-- exp (x / 2^p) as a mantissa in fixed point and a power of two: x = k ln 2 + r. -/
def fxExpK (p : Nat) (x : Int) : Int × Int :=
  let l := fxLn2 p
  let k := x.fdiv l
  (fxExp p (x - k * l), k)

/-- ln of m * 2^e, m > 0, in fixed point. -/
def fxLn (p : Nat) (m : Nat) (e : Int) : Int :=
  let k : Int := ilog2 m 1
  let y := fxOf p m (-k)
  let one : Int := 2 ^ p
  let half := decide (4 * one < 3 * y)
  let z := if half then y.fdiv 2 else y
  let a := ((z - one) * one).fdiv (z + one)
  2 * fxAtanh p a + (k + e + (if half then 1 else 0)) * fxLn2 p

/-- erf of z in fixed point, z ≥ 0: 2 / sqrt pi * sum of (-1)^k z^(2k+1) / (k! (2k+1)). -/
def fxErfLoop (p : Nat) (z2 : Int) : Nat → Nat → Int → Int → Int
  | 0, _, _, acc => acc
  | fuel + 1, k, term, acc =>
    let t := -((fxMul p term z2).fdiv (k : Int))
    fxErfLoop p z2 fuel (k + 1) t (acc + t.fdiv ((2 * k + 1 : Nat) : Int))

/-- Square root of a fixed-point number. -/
def fxSqrt (p : Nat) (a : Int) : Int := (Nat.sqrt (a.toNat * 2 ^ p) : Nat)

def fxErf (p : Nat) (z : Int) : Int :=
  let s := fxErfLoop p (fxMul p z z) (4 * p) 1 z z
  (2 * s * 2 ^ p).fdiv (fxSqrt p (fxPi p))

/-! ## Enclosures -/

/-- An enclosure of a real number: between lo and hi, times 2^e; both of one sign. -/
structure Encl where
  lo : Int
  hi : Int
  e : Int
deriving DecidableEq, Repr

/-- An approximation with an error bound. -/
def Encl.around (v err e : Int) : Encl := ⟨v - err, v + err, e⟩

/-- The code that both bounds round to, if they do. -/
def Encl.code (c : Encl) (mode : Mode) : Option (Nat × Flags) :=
  let r := fun (v : Int) => roundDy fmtF32 false mode (decide (v < 0)) v.natAbs c.e
  if c.lo ≤ 0 ∧ 0 ≤ c.hi then none
  else if r c.lo = r c.hi then some (r c.hi) else none

/-- Bounds with more bits until they decide; the last approximation if they never do.
Log entry 17 (DEDUCED). -/
def ziv (f : Nat → Encl) : List Nat → Nat × Flags
  | [] => let c := f 1600; roundDy fmtF32 false .rne (decide (c.hi < 0)) c.hi.natAbs c.e
  | p :: ps =>
    match (f p).code .rne with
    | some r => r
    | none => ziv f ps

/-- The precisions tried. -/
def zivBits : List Nat := [120, 240, 480, 960, 1600]

/-- A correctly rounded function without NX and UF (R177); OF stays. -/
def sfuRound (f : Nat → Encl) : Nat × Flags :=
  let r := ziv f zivBits
  (r.1, r.2 &&& fOF)

/-- exp of m * 2^e with p bits. -/
def expEncl (m : Int) (e : Int) (p : Nat) : Encl :=
  let q := p + 16
  let r := fxExpK (q + 160) (fxOf (q + 160) m e)
  Encl.around r.1 (2 ^ 40) (r.2 - (q + 160))

/-- 2 to the power m * 2^e. -/
def ex2Encl (m : Int) (e : Int) (p : Nat) : Encl :=
  let q := p + 40
  let x := fxOf q m e
  let k := x.fdiv (2 ^ q)
  Encl.around (fxExp q (fxMul q (x - k * 2 ^ q) (fxLn2 q))) (2 ^ 24) (k - q)

/-- log2 of m * 2^e, m > 0. -/
def lg2Encl (m : Nat) (e : Int) (p : Nat) : Encl :=
  let q := p + 60
  Encl.around ((fxLn q m e * 2 ^ q).fdiv (fxLn2 q)) (2 ^ 30) (-q)

/-- sin (pi x) for x = m * 2^e in (0, 1/2), not an endpoint; cos (pi x) is sin of pi (1/2 - x). -/
def sinpiEncl (m : Nat) (e : Int) (p : Nat) : Encl :=
  let g : Nat := (-(ilog2 m 1 + e)).toNat
  let q := p + 40 + g
  let x := fxOf q m e
  if 4 * x ≤ 2 ^ q then Encl.around (fxSin q (fxMul q x (fxPi q))) (2 ^ 20) (-q)
  else Encl.around (fxCos q (fxMul q ((2 ^ q : Int).fdiv 2 - x) (fxPi q))) (2 ^ 20) (-q)

/-- tanh of m * 2^e, m > 0 and the value in [2^-12, 32). -/
def tanhEncl (m : Nat) (e : Int) (p : Nat) : Encl :=
  let q := p + 120
  let r := fxExpK q (fxOf q (-(m : Int)) (e + 1))
  let t := fxOf q r.1 (r.2 - q)
  Encl.around (((2 ^ q - t) * 2 ^ q).fdiv (2 ^ q + t)) (2 ^ 40) (-q)

/-- 1 / (1 + exp (-x)) for x = m * 2^e, |x| < 128. -/
def sigmEncl (m : Int) (e : Int) (p : Nat) : Encl :=
  let q := p + 320
  let r := fxExpK q (fxOf q (-m) e)
  if r.2 ≤ 0 then
    let t := fxOf q r.1 (r.2 - q)
    Encl.around ((2 ^ q * 2 ^ q : Int).fdiv (2 ^ q + t)) (2 ^ 40) (-q)
  else
    -- exp (-x) = r.1 * 2^(r.2 - q): divide both sides by 2^r.2
    let o := fxOf q 1 (-r.2)
    Encl.around ((2 ^ q * 2 ^ q : Int).fdiv (r.1 + o)) (2 ^ 40) (-q - r.2)

/-- x / 2 * (1 + erf (x / sqrt 2)) for x = m * 2^e, |x| < 32, x not 0. -/
def geluEncl (m : Int) (e : Int) (p : Nat) : Encl :=
  let g : Nat := (-(ilog2 m.natAbs 1 + e)).toNat
  let q := p + 1200 + 2 * g
  let z := (fxOf q m.natAbs e * 2 ^ q).fdiv (fxSqrt q (2 * 2 ^ q))
  let er := fxErf q z
  let s := if m < 0 then 2 ^ q - er else 2 ^ q + er
  Encl.around (m * s) (m.natAbs * 2 ^ 600) (e - 1 - q)

/-- FP32 codes of 1 and 1/2. -/
def one32 : Nat := 0x3F800000
def half32 : Nat := 0x3F000000
def inf32 : Nat := 0x7F800000
def sign32 : Nat := 0x80000000

/-- R177. A function whose NaN input gives the generated NaN. -/
def sfuVal (a : Nat) (f : Bool → Nat → Int → Nat × Flags) (onInf : Bool → Nat × Flags) : Nat × Flags :=
  match fmtF32.val a with
  | .nan s => (fmtF32.nan, flagIf s fIV)
  | .inf n => onInf n
  | .fin n m e => f n m e

/-- A signed mantissa. -/
def smant (n : Bool) (m : Nat) : Int := if n then -(m : Int) else m

/-- Whether m * 2^e is an integer, and then which. -/
def dyInt? (m : Nat) (e : Int) : Option Nat :=
  if m * pow2 e % pow2 (-e) = 0 then some (m * pow2 e / pow2 (-e)) else none

def sfuExp (a : Nat) : Nat × Flags :=
  sfuVal a
    (fun n m e =>
      if m = 0 then (one32, 0)
      else if !n && decide (0x42B17218 ≤ a) then (inf32, fOF)
      else if n && decide (105 * pow2 (-e) ≤ m * pow2 e) then (0, 0)
      else sfuRound (expEncl (smant n m) e))
    (fun n => if n then (0, 0) else (inf32, fOF))

def sfuEx2 (a : Nat) : Nat × Flags :=
  sfuVal a
    (fun n m e =>
      if m = 0 then (one32, 0)
      else if !n && decide (128 * pow2 (-e) ≤ m * pow2 e) then (inf32, fOF)
      else if n && decide (151 * pow2 (-e) ≤ m * pow2 e) then (0, 0)
      else match dyInt? m e with
        | some k => let r := roundDy fmtF32 false .rne false 1 (if n then -(k : Int) else k); (r.1, r.2 &&& fOF)
        | none => sfuRound (ex2Encl (smant n m) e))
    (fun n => if n then (0, 0) else (inf32, fOF))

def sfuLg2 (a : Nat) : Nat × Flags :=
  sfuVal a
    (fun n m e =>
      if m = 0 then (sign32 + inf32, fDZ)
      else if n then (fmtF32.nan, fIV)
      else if 2 ^ Nat.log2 m = m then
        let k : Int := (Nat.log2 m : Int) + e
        ((roundDy fmtF32 false .rne (decide (k < 0)) k.natAbs 0).1, 0)
      else sfuRound (lg2Encl m e))
    (fun n => if n then (fmtF32.nan, fIV) else (inf32, 0))

def sfuRcp (a : Nat) : Nat × Flags :=
  sfuVal a
    (fun n m e =>
      if m = 0 then (fmtF32.sign n + inf32, fDZ)
      else let r := roundRat fmtF32 false .rne n (pow2 (-e)) (m * pow2 e); (r.1, r.2 &&& fOF))
    (fun n => (fmtF32.sign n, 0))

/-- floor (sqrt (n / d) * 2^q) and whether the root is exact there. -/
def rootAt (n d : Nat) (q : Nat) : Nat × Bool :=
  let t := n * 2 ^ (2 * q) / d
  let r := Nat.sqrt t
  (r, decide (r * r * d = n * 2 ^ (2 * q)))

/-- The square root of n / d rounded once: a root that is not exact is moved off every tie by a sticky bit. -/
def roundRoot (mode : Mode) (n d : Nat) : Nat × Flags :=
  let r := rootAt n d 200
  roundRat fmtF32 false mode false (if r.2 then 2 * r.1 else 2 * r.1 + 1) (2 ^ 201)

def sfuRsq (a : Nat) : Nat × Flags :=
  sfuVal a
    (fun n m e =>
      if m = 0 then (fmtF32.sign n + inf32, fDZ)
      else if n then (fmtF32.nan, fIV)
      else let r := roundRoot .rne (pow2 (-e)) (m * pow2 e); (r.1, 0))
    (fun n => if n then (fmtF32.nan, fIV) else (0, 0))

def sfuSqrt (mode : Mode) (a : Nat) : Nat × Flags :=
  sfuVal a
    (fun n m e =>
      if m = 0 then (a, 0)
      else if n then (fmtF32.nan, fIV)
      else roundRoot mode (m * pow2 e) (pow2 (-e)))
    (fun n => if n then (fmtF32.nan, fIV) else (a, 0))

/-- |x| mod 2 on the grid of x, e ≤ -2. -/
def mod2 (m : Nat) (e : Int) : Nat := m % pow2 (1 - e)

/-- sin (pi x) for |x| = m * 2^e, with the sign of the sine for positive x. -/
def sinpiAbs (m : Nat) (e : Int) : Bool × (Nat × Flags) :=
  let e' := min e (-2)
  let r := mod2 (m * pow2 (e - e')) e'
  let one := pow2 (-e')
  let neg := decide (one ≤ r)
  let f := r % one
  let half := one / 2
  if f = 0 then (false, (0, 0))
  else if f = half then (neg, (one32, 0))
  else (neg, sfuRound (sinpiEncl (if f < half then f else one - f) e'))

def sfuSinpi (a : Nat) : Nat × Flags :=
  sfuVal a
    (fun n m e =>
      let r := sinpiAbs m e
      if r.2.1 = 0 then (fmtF32.sign n, 0)
      else (fmtF32.sign (n != r.1) + r.2.1, r.2.2))
    (fun _ => (fmtF32.nan, fIV))

def sfuCospi (a : Nat) : Nat × Flags :=
  sfuVal a
    (fun _ m e =>
      let e' := min e (-2)
      let x := m * pow2 (e - e')
      let r := sinpiAbs (x + pow2 (-e') / 2) e'
      if r.2.1 = 0 then (0, 0)
      else (fmtF32.sign r.1 + r.2.1, r.2.2))
    (fun _ => (fmtF32.nan, fIV))

def sfuTanh (a : Nat) : Nat × Flags :=
  sfuVal a
    (fun n m e =>
      if m * pow2 e * 4096 < pow2 (-e) then (a, 0)
      else if 32 * pow2 (-e) ≤ m * pow2 e then (fmtF32.sign n + one32, 0)
      else let r := sfuRound (tanhEncl m e); (fmtF32.sign n + r.1, r.2))
    (fun n => (fmtF32.sign n + one32, 0))

def sfuSigm (a : Nat) : Nat × Flags :=
  sfuVal a
    (fun n m e =>
      if m = 0 then (half32, 0)
      else if 128 * pow2 (-e) ≤ m * pow2 e then (if n then 0 else one32, 0)
      else sfuRound (sigmEncl (smant n m) e))
    (fun n => if n then (0, 0) else (one32, 0))

def sfuGelu (a : Nat) : Nat × Flags :=
  sfuVal a
    (fun n m e =>
      if m = 0 then (a, 0)
      else if 32 * pow2 (-e) ≤ m * pow2 e then (if n then sign32 else a, 0)
      else sfuRound (geluEncl (smant n m) e))
    (fun n => if n then (sign32, 0) else (inf32, 0))

/-- Table 11.10. The functions by their code. -/
def sfuFn (mode : Mode) (fn : Nat) (a : Nat) : Nat × Flags :=
  match fn with
  | 0 => sfuEx2 a
  | 1 => sfuLg2 a
  | 2 => sfuRcp a
  | 3 => sfuRsq a
  | 4 => sfuSqrt mode a
  | 5 => sfuSinpi a
  | 6 => sfuCospi a
  | 7 => sfuTanh a
  | 8 => sfuSigm a
  | 9 => sfuGelu a
  | _ => sfuExp a

/-- R261. A function of a BF16 half: widened, evaluated and rounded to BF16. -/
def sfuHalf (mode : Mode) (fn : Nat) (h : Nat) : Nat × Flags :=
  let y := sfuFn mode fn (h * 65536)
  match fmtF32.val y.1 with
  | .nan _ => (0x7FC0, y.2)
  | .inf n => (fmtBF16.sign n + 0x7F80, y.2)
  | .fin n m e => let r := roundDy fmtBF16 false .rne n m e; (r.1, y.2 ||| r.2)

/-! ## Twiddles (R349) -/

/-- The integer nearest to (num / den) * 2^30 of sin (2 pi num / den) or its cosine, num < den, 8 dividing 4 den. -/
def sin30 (num den : Nat) : Int :=
  -- angle in units of half turns: x = 2 num / den
  let q := 128
  let r := (2 * num) % (2 * den)
  let neg := decide (den ≤ r)
  let f := r % den
  let g := if 2 * f ≤ den then f else den - f
  -- sin (pi g / den), 0 ≤ g / den ≤ 1/2
  let v :=
    if 4 * g ≤ den then fxSin q ((fxPi q * g).fdiv den)
    else fxCos q ((fxPi q * ((den : Int) - 2 * g)).fdiv (2 * den))
  let n := (v + 2 ^ 97).fdiv (2 ^ 98)
  if neg then -n else n

/-- e^(-2 pi i num / den) in signed 1.30, both parts. -/
def cis30 (num den : Nat) : Int × Int := (sin30 (4 * num + den) (4 * den), -(sin30 num den))

end Sys2Proof.Machine
end

