-- ==== Sys2Proof/Machine/Alu.lean ====
section
/-! DEFINITION. What each lane operation computes from its operands, with the flags it raises
(spec/12_isa_lane_ops.md R238 to R259, spec/13_isa_rows_special.md R261 to R269). Nothing here reads the state. -/

namespace Sys2Proof.Machine

/-- Low and high halves of a word. -/
def lo16 (w : Word) : BitVec 16 := w.extractLsb' 0 16
def hi16 (w : Word) : BitVec 16 := w.extractLsb' 16 16

/-- A word from two halves. -/
def halves (lo hi : BitVec 16) : Word := hi ++ lo

/-- Byte k of a word. -/
def byteOf (w : Word) (k : Nat) : Byte := w.extractLsb' (8 * k) 8

/-- A 64-bit value of a pair, low word first (R161). -/
def pairOf (lo hi : Word) : DWord := hi ++ lo
def loWord (d : DWord) : Word := d.extractLsb' 0 32
def hiWord (d : DWord) : Word := d.extractLsb' 32 32

/-- 1 or 0. -/
def bit (c : Bool) : Word := if c then 1 else 0

/-! ## Integer operations (R238, R241 to R243) -/

def aluMulhi (a b : Word) : Word := BitVec.ofInt 32 ((a.toInt * b.toInt).fdiv (2 ^ 32))
def aluMulhu (a b : Word) : Word := BitVec.ofNat 32 (a.toNat * b.toNat / 2 ^ 32)
def aluMad (d a b : Word) : Word := d + a * b
def aluAndn (a b : Word) : Word := a &&& ~~~b
def aluShl (a b : Word) : Word := a <<< (b.toNat % 32)
def aluShr (a b : Word) : Word := a >>> (b.toNat % 32)
def aluSra (a b : Word) : Word := a.sshiftRight (b.toNat % 32)
def aluMin (a b : Word) : Word := if a.toInt ≤ b.toInt then a else b
def aluMax (a b : Word) : Word := if a.toInt ≤ b.toInt then b else a
def aluMinu (a b : Word) : Word := if a.toNat ≤ b.toNat then a else b
def aluMaxu (a b : Word) : Word := if a.toNat ≤ b.toNat then b else a
def aluSeq (a b : Word) : Word := bit (a == b)
def aluSne (a b : Word) : Word := bit (a != b)
def aluSlt (a b : Word) : Word := bit (decide (a.toInt < b.toInt))
def aluSle (a b : Word) : Word := bit (decide (a.toInt ≤ b.toInt))
def aluSltu (a b : Word) : Word := bit (decide (a.toNat < b.toNat))
def aluSleu (a b : Word) : Word := bit (decide (a.toNat ≤ b.toNat))

/-- Set bits of a number, over its low n bits. -/
def popBits : Nat → Nat → Nat
  | 0, _ => 0
  | n + 1, w => w % 2 + popBits n (w / 2)

def aluPopc (a : Word) : Word := BitVec.ofNat 32 (popBits 32 a.toNat)
def aluClz (a : Word) : Word := if a = 0 then 32 else BitVec.ofNat 32 (31 - Nat.log2 a.toNat)

/-- Reversal of the low n bits. -/
def revBits : Nat → Nat → Nat
  | 0, _ => 0
  | n + 1, w => w % 2 * 2 ^ n + revBits n (w / 2)

def aluBrev (a : Word) : Word := BitVec.ofNat 32 (revBits 32 a.toNat)

/-- R239. Pair plus a sign-extended word. -/
def aluAdd64 (x : DWord) (b : Word) : DWord := x + b.signExtend 64

/-- R240. Pair plus the unsigned product of two words. -/
def aluMadw (d : DWord) (a b : Word) : DWord := d + a.zeroExtend 64 * b.zeroExtend 64

/-! ## FP32 (R245 to R248) -/

/-- A result of the number formats as a word. -/
def asWord (r : Nat × Flags) : Word × Flags := (BitVec.ofNat 32 r.1, r.2)

def aluFadd (mode : Mode) (a b : Word) : Word × Flags := asWord (fAdd fmtF32 mode a.toNat b.toNat)
def aluFsub (mode : Mode) (a b : Word) : Word × Flags := asWord (fSub fmtF32 mode a.toNat b.toNat)
def aluFmul (mode : Mode) (a b : Word) : Word × Flags := asWord (fMul fmtF32 mode a.toNat b.toNat)
def aluFma (mode : Mode) (d a b : Word) : Word × Flags := asWord (fFma fmtF32 mode d.toNat a.toNat b.toNat)
def aluFmin (a b : Word) : Word × Flags := asWord (fMin fmtF32 a.toNat b.toNat)
def aluFmax (a b : Word) : Word × Flags := asWord (fMax fmtF32 a.toNat b.toNat)
def aluFseq (a b : Word) : Word × Flags := asWord (fCmp fmtF32 (fun o => o == .eq) a.toNat b.toNat)
def aluFslt (a b : Word) : Word × Flags := asWord (fCmp fmtF32 (fun o => o == .lt) a.toNat b.toNat)
def aluFsle (a b : Word) : Word × Flags := asWord (fCmp fmtF32 (fun o => o != .gt) a.toNat b.toNat)
def aluFscale (mode : Mode) (a b : Word) : Word × Flags := asWord (fScale mode a.toNat b.toInt)

/-! ## Packed formats (R249 to R254) -/

/-- An operation on each half, the flags of both ORed. -/
def perHalf (f : Nat → Nat → Nat → Nat × Flags) (d a b : Word) : Word × Flags :=
  let l := f (lo16 d).toNat (lo16 a).toNat (lo16 b).toNat
  let h := f (hi16 d).toNat (hi16 a).toNat (hi16 b).toNat
  (halves (BitVec.ofNat 16 l.1) (BitVec.ofNat 16 h.1), l.2 ||| h.2)

def aluBadd2 (a b : Word) : Word × Flags := perHalf (fun _ x y => fAdd fmtBF16 .rne x y) 0 a b
def aluBmul2 (a b : Word) : Word × Flags := perHalf (fun _ x y => fMul fmtBF16 .rne x y) 0 a b
def aluBfma2 (d a b : Word) : Word × Flags := perHalf (fun z x y => fFma fmtBF16 .rne z x y) d a b
def aluHfma2 (d a b : Word) : Word × Flags := perHalf (fun z x y => fFma fmtF16 .rne z x y) d a b
def aluHadd2 (a b : Word) : Word × Flags := perHalf (fun _ x y => fAdd fmtF16 .rne x y) 0 a b

/-- A signed result of a half, saturated. -/
def half16 (v : Int) : BitVec 16 × Flags := (BitVec.ofInt 16 (clampS 16 v), (satS 16 v).2)

/-- Two saturated halves. -/
def pack16 (l h : Int) : Word × Flags := (halves (half16 l).1 (half16 h).1, (half16 l).2 ||| (half16 h).2)

def aluIadd2s (a b : Word) : Word × Flags :=
  pack16 ((lo16 a).toInt + (lo16 b).toInt) ((hi16 a).toInt + (hi16 b).toInt)
def aluIsub2s (a b : Word) : Word × Flags :=
  pack16 ((lo16 a).toInt - (lo16 b).toInt) ((hi16 a).toInt - (hi16 b).toInt)

/-- A 32-bit saturated result. -/
def pack32 (v : Int) : Word × Flags := (BitVec.ofInt 32 (clampS 32 v), (satS 32 v).2)

def aluIdot2 (d a b : Word) : Word × Flags :=
  pack32 (d.toInt + (lo16 a).toInt * (lo16 b).toInt + (hi16 a).toInt * (hi16 b).toInt)

def aluIdot4 (d a b : Word) : Word × Flags :=
  pack32 (d.toInt + (byteOf a 0).toInt * (byteOf b 0).toInt + (byteOf a 1).toInt * (byteOf b 1).toInt
    + (byteOf a 2).toInt * (byteOf b 2).toInt + (byteOf a 3).toInt * (byteOf b 3).toInt)

/-- R253. One half shifted right by a signed count with round half up, or left. -/
def shr2r (n : Int) (x : Int) : Int :=
  if 0 < n then (x + 2 ^ (n.toNat - 1)).fdiv (2 ^ n.toNat) else x * 2 ^ (-n).toNat

def aluIshr2r (a b : Word) : Word × Flags :=
  let n := (b.extractLsb' 0 5).toInt
  pack16 (shr2r n (lo16 a).toInt) (shr2r n (hi16 a).toInt)

def aluIpack2s (a b : Word) : Word × Flags := pack16 a.toInt b.toInt

/-! ## Conversions (R255 to R257, R158, R160, R165, R166) -/

/-- Table 9.3. Levels of the QN4 codebook, times 2^11. -/
def qn4Levels : List Int :=
  [-2048, -1424, -1072, -808, -584, -380, -187, 0, 163, 329, 504, 692, 904, 1152, 1480, 2048]

def qn4Level (c : Nat) : Int := qn4Levels.getD (c % 16) 0

/-- An integer times 2^e as a value; zero is +0. -/
def valOfInt (v : Int) (e : Int) : Val := .fin (decide (v < 0)) v.natAbs e

/-- How a conversion rounds: in a mode, or stochastically with a drawn value. -/
inductive CvtMode where
  | std (m : Mode)
  | stoch (rnd : Nat)
deriving DecidableEq, Repr

/-- Table 11.9. The float format of a type code, if it is one (elements of the packed types included). -/
def fmtOfType (t : Nat) : Option Fmt :=
  match t with
  | 0 => some fmtF32
  | 1 | 12 => some fmtBF16
  | 2 | 13 => some fmtF16
  | 3 | 14 => some fmtE4M3
  | 4 => some fmtE5M2
  | 5 => some fmtE2M3
  | _ => none

/-- R255. The exact value of a source element, given in the low bits of x. -/
def cvtSource (t : Nat) (x : Word) : Val :=
  match t with
  | 6 => valOfInt (qn4Level (x.toNat % 16)) (-11)
  | 7 => valOfInt x.toInt 0
  | 8 => valOfInt x.toNat 0
  | 9 => valOfInt (lo16 x).toInt 0
  | 10 => valOfInt (byteOf x 0).toInt 0
  | 11 => valOfInt (byteOf x 0).toInt (-6)
  | t => match fmtOfType t with
    | some f => f.val (x.toNat % 2 ^ f.bits)
    | none => .nan false

/-- R166. A magnitude n / d on the grid of 2^q, rounded up when the drawn value is below the fraction. -/
def quantizeStoch (rnd n d : Nat) (q : Int) : Nat × Bool :=
  let num := n * pow2 (-q)
  let den := d * pow2 q
  let rem := num % den
  (if rnd < rem * 2 ^ 32 / den then num / den + 1 else num / den, decide (rem ≠ 0))

/-- R166. Stochastic rounding of a finite value into a float format. -/
def roundStoch (f : Fmt) (rnd : Nat) (neg : Bool) (m : Nat) (e : Int) : Nat × Flags :=
  if m = 0 then (f.sign neg, 0)
  else
    let n := m * pow2 e
    let d := pow2 (-e)
    let k := ilog2 n d
    let q := max k f.emin - f.mbits
    let r := quantizeStoch rnd n d q
    let c := f.codeOf r.1 q
    if f.maxCode < c then (f.sign neg + (if f.saturates then f.maxCode else f.infCode.getD f.maxCode), fOF ||| fNX)
    else
      let u := quantizeStoch rnd n d (k - f.mbits)
      let tiny := decide (u.1 * pow2 (k - f.mbits - f.emin) < pow2 (-(k - f.mbits - f.emin)))
      (f.sign neg + c, flagIf r.2 fNX ||| flagIf (r.2 && tiny) fUF)

/-- Rounding of a finite value into a float format as a conversion does it. -/
def cvtRound (f : Fmt) (mode : CvtMode) (neg : Bool) (m : Nat) (e : Int) : Nat × Flags :=
  match mode with
  | .std md => roundDy f f.saturates md neg m e
  | .stoch r => roundStoch f r neg m e

/-- Table 12.5. A value converted to a float format.
Log entry 67 (DEDUCED). -/
def cvtToFloat (f : Fmt) (mode : CvtMode) (v : Val) : Nat × Flags :=
  match v with
  | .nan s => match f.nanCode with
    | some c => (c, flagIf s fIV)
    | none => (0, fIV)
  | .inf n => match f.infCode with
    | some c => (f.sign n + c, 0)
    | none => (f.sign n + f.maxCode, fOF ||| fNX)
  | .fin n m e => cvtRound f mode n m e

/-- The integer that a finite value rounds to, and whether it was inexact. -/
def roundInt (mode : CvtMode) (neg : Bool) (m : Nat) (e : Int) : Int × Bool :=
  let n := m * pow2 e
  let d := pow2 (-e)
  let r := match mode with
    | .std md => quantize md neg n d 0
    | .stoch rnd => quantizeStoch rnd n d 0
  (if neg then -(r.1 : Int) else r.1, r.2)

/-- R165, R158. A value converted to an integer range: the clamp flag, and NX only without a clamp. -/
def cvtToInt (lo hi : Int) (clampFlag : Flags) (shift : Int) (mode : CvtMode) (v : Val) : Int × Flags :=
  match v with
  | .nan _ => (0, fIV)
  | .inf n => (if n then lo else hi, clampFlag)
  | .fin n m e =>
    let r := roundInt mode n m (e + shift)
    if r.1 < lo then (lo, clampFlag)
    else if hi < r.1 then (hi, clampFlag)
    else (r.1, flagIf r.2 fNX)

/-- Table 12.5. One element converted to the destination type t, as its placed bits. -/
def cvtElem (mode : CvtMode) (t : Nat) (v : Val) : Word × Flags :=
  match t with
  | 7 => let r := cvtToInt (-2147483648) 2147483647 fIV 0 mode v; (BitVec.ofInt 32 r.1, r.2)
  | 8 => let r := cvtToInt 0 4294967295 fIV 0 mode v; (BitVec.ofInt 32 r.1, r.2)
  | 9 => let r := cvtToInt (-32768) 32767 fIV 0 mode v; (BitVec.ofInt 32 r.1, r.2)
  | 10 => let r := cvtToInt (-128) 127 fIV 0 mode v; (BitVec.ofInt 32 r.1, r.2)
  | 11 => let r := cvtToInt (-127) 127 fSAT 6 mode v; (BitVec.ofInt 32 r.1, r.2)
  | t => match fmtOfType t with
    | some f => asWord (cvtToFloat f mode v)
    | none => (0, 0)

/-- R257. Whether a pair names a packed type: two elements, else one. -/
def cvtElems (src dst : Nat) : Nat := if 12 ≤ src || 12 ≤ dst then 2 else 1

/-- R255. Element j of a source register. -/
def cvtPick (src : Nat) (x : Word) (j : Nat) : Word :=
  match src with
  | 12 | 13 => x >>> (16 * j)
  | 14 => x >>> (8 * j)
  | _ => x

/-- R255, R257. A register converted, with the mode of each element. -/
def cvtWord (src dst : Nat) (mode : Nat → CvtMode) (x : Word) : Word × Flags :=
  let e := fun j => cvtElem (mode j) dst (cvtSource src (cvtPick src x j))
  if cvtElems src dst = 1 then e 0
  else ((e 0).1 ||| ((e 1).1 <<< (if dst = 14 then 8 else 16)), (e 0).2 ||| (e 1).2)

/-! ## OMIX (R101) -/

/-- One round of the counter-based generator. -/
def omixRound (k x : DWord) : DWord :=
  let y := x * 0xD1B54A32D192ED03 + k
  y ^^^ (y >>> 29)

def omix (k x : DWord) : Word := hiWord (omixRound k (omixRound k (omixRound k (omixRound k x))))

/-! ## Exact sums (R174, R264, R265) -/

/-- The exact sum of finite terms over a common exponent. -/
def sumFin : List (Bool × Nat × Int) → Int × Int
  | [] => (0, 0)
  | (n, m, e) :: ts =>
    let r := sumFin ts
    let e' := min e r.2
    let x : Int := (m * pow2 (e - e') : Nat)
    ((if n then -x else x) + r.1 * (pow2 (r.2 - e') : Nat), e')

/-- The finite terms of a list of values. -/
def finTerms : List Val → List (Bool × Nat × Int)
  | [] => []
  | .fin n m e :: vs => (n, m, e) :: finTerms vs
  | _ :: vs => finTerms vs

/-- Exact sum of values: NaN and infinities first, those of both signs with IV; an exact zero is -0 only when every term
is -0 and `keep`. -/
def exactSum (keep : Bool) (vs : List Val) : Exact :=
  let pos := vs.any (fun v => v == .inf false)
  let neg := vs.any (fun v => v == .inf true)
  if vs.any Val.isNan then .nan (pos && neg)
  else
    if pos && neg then .nan true
    else if pos then .inf false
    else if neg then .inf true
    else
      let r := sumFin (finTerms vs)
      if r.1 = 0 then .num (keep && vs.all (fun v => v.isZero && v.signBit)) 0 0
      else .num (decide (r.1 < 0)) r.1.natAbs r.2

/-- R264, code 1. -/
def redgAddx (d : Word) (xs : List Word) : Word × Flags :=
  let vs := (d :: xs).map fun w => fmtF32.val w.toNat
  let r := deliver fmtF32 false .rne (exactSum true vs)
  asWord (r.1, r.2 ||| flagIf (vs.any Val.isSig) fIV)

/-- The square of the exact difference of two values. -/
def sqDiff (x d : Val) : Exact :=
  match exactAdd .rne x d.neg with
  | .nan iv => .nan iv
  | .inf _ => .inf false
  | .num _ m e => .num false (m * m) (e + e)

def Exact.isBad : Exact → Bool
  | .nan true => true
  | _ => false

/-- R264, code 10. The sum over the threads of the squared difference of each thread's x and d. -/
def redgSsq (ds xs : List Word) : Word × Flags :=
  let dvs := ds.map fun w => fmtF32.val w.toNat
  let vs := xs.map fun w => fmtF32.val w.toNat
  let qs := (vs.zip dvs).map fun p => sqDiff p.1 p.2
  let r := deliver fmtF32 false .rne (exactSum false (qs.map Exact.val))
  asWord (r.1, r.2 ||| flagIf (vs.any Val.isSig || dvs.any Val.isSig || qs.any Exact.isBad) fIV)

/-- Fold of FMAX or FMIN over a list, with the flags of its steps. -/
def foldF (f : Word → Word → Word × Flags) : List Word → Word × Flags
  | [] => (0, 0)
  | [x] => f x x
  | x :: xs => let r := foldF f xs; let y := f x r.1; (y.1, y.2 ||| r.2)

/-- Fold of an integer operation over a list. -/
def foldI (f : Word → Word → Word) : List Word → Word
  | [] => 0
  | [x] => x
  | x :: xs => f x (foldI f xs)

/-- EXP (rne_f32 (x - m)), the flags dropped. -/
def expDiff (x m : Word) : Nat := (sfuExp (fSub fmtF32 .rne x.toNat m.toNat).1).1

/-- FP32 predicates. -/
def isNan32 (w : Word) : Bool := (fmtF32.val w.toNat).isNan
def isPInf32 (w : Word) : Bool := w == 0x7F800000
def isNInf32 (w : Word) : Bool := w == 0xFF800000

/-- A sum of products s_t * e_t of R265: 0 * inf is NaN with IV; only OF and IV are raised. -/
def sumProd (ps : List (Word × Nat)) : Word × Flags :=
  let ts := ps.map fun p => exactMul (fmtF32.val p.1.toNat) (fmtF32.val p.2)
  let e := exactSum false (ts.map Exact.val)
  let r := deliver fmtF32 false .rne e
  asWord (r.1, (r.2 &&& (fOF ||| fIV)) ||| flagIf (ts.any Exact.isBad) fIV)

/-- R265. The merged softmax state of a list of states. -/
def smxMerge (ps : List (Word × Word)) : (Word × Word) × Flags :=
  let m := (foldF aluFmax (ps.map Prod.fst)).1
  if isNan32 m || isPInf32 m || ps.any (fun p => isNan32 p.2) then ((canonNaN, canonNaN), fIV)
  else if isNInf32 m then ((m, 0), 0)
  else
    let r := sumProd (ps.map fun p => (p.2, expDiff p.1 m))
    ((m, r.1), r.2)

/-- R268. A softmax state folded with a value. -/
def smxAcc (m s x : Word) : (Word × Word) × Flags :=
  if isNan32 x || isNan32 m || isNan32 s || isPInf32 x || isPInf32 m then ((canonNaN, canonNaN), fIV)
  else if isNInf32 x then ((m, s), 0)
  else
    let m' := (aluFmax m x).1
    let r := sumProd [(s, expDiff m m'), (BitVec.ofNat 32 one32, expDiff x m')]
    ((m', r.1), r.2)

/-- R269. EXP (x - m) / s. -/
def smxNorm (x m s : Word) : Word × Flags := asWord (fDiv .rne (expDiff x m) s.toNat)

/-- R266. FADD in RNE that a scan step makes; the first value passes through, a NaN made canonical. -/
def scanFirst (y : Word) : Word × Flags :=
  match fmtF32.val y.toNat with
  | .nan s => (canonNaN, flagIf s fIV)
  | _ => (y, 0)

/-- An inclusive scan from an accumulator. -/
def scanFrom (f : Word → Word → Word × Flags) (acc : Word) : List Word → List (Word × Flags)
  | [] => []
  | y :: ys => let r := f acc y; r :: scanFrom f r.1 ys

def scanIncl (first : Word → Word × Flags) (f : Word → Word → Word × Flags) : List Word → List (Word × Flags)
  | [] => []
  | y :: ys => first y :: scanFrom f (first y).1 ys

/-- R266. The exclusive integer scan. -/
def scanExcl (acc : Word) : List Word → List (Word × Flags)
  | [] => []
  | y :: ys => (acc, 0) :: scanExcl (acc + y) ys

/-- R266. A scan by its code. -/
def scang (code : Nat) (ys : List Word) : List (Word × Flags) :=
  match code with
  | 0 => scanIncl (fun y => (y, 0)) (fun a y => (a + y, 0)) ys
  | 1 => scanExcl 0 ys
  | 2 => scanIncl scanFirst (aluFadd .rne) ys
  | _ => scanIncl (fun y => aluFmax y y) aluFmax ys

/-- R264. A reduction by its code for a thread whose d is given; `ds` and `xs` are the d and the x of every thread. -/
def redg (code : Nat) (d : Word) (ds xs : List Word) : Word × Flags :=
  match code with
  | 0 => (foldI (· + ·) xs, 0)
  | 1 => redgAddx d xs
  | 2 => foldF aluFmax xs
  | 3 => foldF aluFmin xs
  | 4 => (foldI aluMax xs, 0)
  | 5 => (foldI aluMin xs, 0)
  | 6 => (foldI (· &&& ·) xs, 0)
  | 7 => (foldI (· ||| ·) xs, 0)
  | 8 => (foldI (· ^^^ ·) xs, 0)
  | _ => redgSsq ds xs

/-- R261. SFU on a word: input form 0 is FP32, 1 is BF16x2. -/
def sfuWord (mode : Mode) (form fn : Nat) (a : Word) : Word × Flags :=
  if form = 0 then asWord (sfuFn mode fn a.toNat)
  else
    let l := sfuHalf mode fn (lo16 a).toNat
    let h := sfuHalf mode fn (hi16 a).toNat
    (halves (BitVec.ofNat 16 l.1) (BitVec.ofNat 16 h.1), l.2 ||| h.2)

/-- R258. The part of a source register that LGET takes. -/
def lgetPart (b x : Word) : Word :=
  match b.toNat / 256 % 4 with
  | 0 => x
  | 1 => (lo16 x).zeroExtend 32
  | 2 => (hi16 x).zeroExtend 32
  | _ => halves (hi16 x) (lo16 x)

end Sys2Proof.Machine
end

