-- ==== Sys2Proof/Machine/Access.lean ====
section
/-! DEFINITION. Thread accesses to memory and scratch (spec/14_isa_memory.md R275 to R282, spec/08_memory_model.md
R134 to R140): their parts, their checks in rounds, the owner states that hold them, and how each is performed. -/

namespace Sys2Proof.Machine

/-! ## Parts and checks -/

/-- R140, Table 8.2. Whether an owner state lets a thread load, or store, perform. -/
def Owner.allows (o : Owner) (write : Bool) : Bool :=
  match o with
  | .threads | .stash => true
  | .reading _ => !write
  | .writing => false

/-- An address as an instruction forms it: global, or scratch (R275). -/
structure Target where
  glob : Bool
  addr : Nat
  size : Nat
  align : Nat := 1
deriving DecidableEq, Repr

/-- R276. The parts of an access; an atomic or a DRED is one part. -/
def Target.parts (x : Target) : List (Nat × Nat) :=
  if x.align = 1 then splitParts x.addr x.size else [(x.addr, x.size)]

/-- The checks of one part for a thread of a group: NONCANON, MISALIGN, PERM, PAGE, then the writes that are suppressed. -/
def State.checkPart (s : State) (k : GKey) (x : Target) (write : Bool) (p : Nat × Nat) : Chk :=
  let c := s.ctx k.ctx
  let r :=
    if x.glob then checkGlobal c (s.team? (gkeyTeam k)) (p.1 % 2 ^ 64) p.2 x.align write
    else match s.team? (gkeyTeam k) with
      | some t => checkScratch c t (p.1 % 2 ^ 32) p.2 write
      | none => .fault tPerm (BitVec.ofNat 32 p.1)
  match r with
  | .ok l =>
    if write then match s.writeBar c.part l p.2 with
      | some f => .fault f.1 f.2
      | none => r
    else r
  | _ => r

/-- R179. What two checks of one thread find, in their order. -/
def Chk.and (c d : Chk) : Chk :=
  match c with
  | .ok _ => d
  | _ => c

/-- The first thread of a list whose check is not passed. -/
def firstBad (f : Nat → Chk) : List Nat → Option (Nat × Chk)
  | [] => none
  | t :: ts => match f t with
    | .ok _ => firstBad f ts
    | c => some (t, c)

/-- What a check that is not passed does: a trap of the threads `who`, or a wait for the page that suspends fetch
(R178, R180), with the threads whose lower parts have been performed (R276). -/
def Act.stopAt (a : Act) (s : State) (who : List Nat) (t : Nat) (c : Chk) (lowered : List Nat := []) : State :=
  match c with
  | .fault k d => s.takeTrap a.g who t k d
  | .page v => s.modGroup a.g fun g => { g with fetch := some (.page v who t), lowered := lowered }
  | .ok _ => s

/-- The place of a part whose check has passed. -/
def Chk.loc (c : Chk) : Option Loc :=
  match c with
  | .ok l => some l
  | _ => none

/-- The places of an access with their sizes, for an access whose checks have passed. -/
def State.places (s : State) (k : GKey) (x : Target) (write : Bool) : List (Loc × Nat) :=
  x.parts.filterMap fun p => (s.checkPart k x write p).loc.map fun l => (l, p.2)

/-- R277. Whether the owner states let an access perform. -/
def State.mayPerform (s : State) (k : GKey) (write : Bool) (ls : List (Loc × Nat)) : Bool :=
  ls.all fun l => match l.1 with
    | .scr a => match s.team? (gkeyTeam k) with
      | some t => (t.owner a).allows write
      | none => true
    | .glob _ _ _ => true

/-- R276 steps 1 to 3. The checks in rounds over the issue set; `who` is the set that a trap stops, `lowered` the threads
whose lower parts `lower` performs. A state that has stopped, or the state in which the accesses go on.
Log entry 24 (DEDUCED).
Log entry 72 (DEDUCED). -/
def Act.rounds (a : Act) (s : State) (who : List Nat) (lo hi : Nat → Chk) (lowered : List Nat := [])
    (lower : State → State := id) : State × Bool :=
  match firstBad lo a.set with
  | some b => (a.stopAt s who b.1 b.2 a.lowered, false)
  | none =>
    let s1 := lower s
    match firstBad hi a.set with
    | some b => (a.stopAt s1 who b.1 b.2 (a.lowered ++ lowered), false)
    | none => (s1, true)

/-- The first register of a list of (thread, register) that is pending. -/
def pendingIn (gr : Group) : List (Nat × Nat) → Option Nat
  | [] => none
  | p :: ps => if (gr.thread p.1).isPend p.2 then some p.2 else pendingIn gr ps

/-- R217. The check of a list of registers of a thread. -/
def pendChk (gr : Group) (regs : List (Nat × Nat)) : Chk :=
  match pendingIn gr regs with
  | some r => .fault tUnwaited (BitVec.ofNat 32 r)
  | none => .ok (.scr 0)

/-- The check of the first part of an access, and of the second where it has one. -/
def State.lowCheck (s : State) (k : GKey) (write : Bool) (x : Target) : Chk :=
  match x.parts with
  | p :: _ => s.checkPart k x write p
  | [] => .ok (.scr 0)

def State.highCheck (s : State) (k : GKey) (write : Bool) (x : Target) : Chk :=
  match x.parts with
  | _ :: p :: _ => s.checkPart k x write p
  | _ => .ok (.scr 0)

/-! ## Performing -/

/-- The bytes at places, in order. -/
def State.readPlaces (s : State) (k : TKey) (ls : List (Loc × Nat)) : List Byte :=
  (ls.map fun l => s.readLoc k l.1 l.2).flatten

def State.touchPlaces (s : State) (k : TKey) (ls : List (Loc × Nat)) : State := ls.foldl (fun s l => s.afterRead k l.1) s

/-- Bytes stored at places, in order.
Log entry 21 (DESIGN CHOICE). -/
def State.writePlaces (s : State) (k : TKey) : List (Loc × Nat) → List Byte → State
  | [], _ => s
  | l :: ls, bs => (s.writeLoc k l.1 (bs.take l.2)).writePlaces k ls (bs.drop l.2)

/-- Consecutive words of bytes, for the registers given. -/
def wordsOf : List Nat → List Byte → List (Nat × Word)
  | [], _ => []
  | r :: rs, bs => (r, BitVec.ofNat 32 (bytesNat (bs.take 4))) :: wordsOf rs (bs.drop 4)

/-- R278. What a load of some bytes writes: bytes and halfwords extended. -/
def loadVals (signed : Bool) (regs : List Nat) (bs : List Byte) : List (Nat × Word) :=
  if signed then
    let v := bytesNat bs
    let bits := 8 * bs.length
    regs.map fun r => (r, BitVec.ofInt 32 (if 2 ^ (bits - 1) ≤ v then (v : Int) - 2 ^ bits else v))
  else wordsOf regs bs

/-- R278. A load performed for a thread: its value is fixed, and its data is on its way.
Log entry 22 (DEDUCED). -/
def State.doLoad (s : State) (g t : Nat) (k : TKey) (ls : List (Loc × Nat)) (signed : Bool) (regs : List Nat) : State :=
  let vals := loadVals signed regs (s.readPlaces k ls)
  (s.touchPlaces k ls).modThread g t fun th => { th with loads := th.loads ++ [{ vals := vals, pc := th.pc, cycle := s.cycle }] }

/-- The bytes of a place of some size. -/
def placeSpan (l : Loc × Nat) : Span :=
  match l.1 with
  | .glob p _ _ => ⟨true, p, l.2⟩
  | .scr a => ⟨false, a, l.2⟩

/-- Whether some bytes take in byte i of a place. -/
def Span.holds (x : Span) (l : Span) (i : Nat) : Bool :=
  x.glob == l.glob && decide (x.addr ≤ l.addr + i) && decide (l.addr + i < x.addr + x.size)

/-- R279. The bytes that a lane of a store writes at a place: a byte that a higher-L lane has written stays as it is. -/
def State.yieldBytes (s : State) (k : TKey) (above : List Span) (l : Loc × Nat) (bs : List Byte) : List Byte :=
  if above.isEmpty then bs
  else
    let old := s.readLoc k l.1 l.2
    bs.mapIdx fun i b => if above.any fun p => p.holds (placeSpan l) i then old.getD i b else b

/-- R279. The same, at places in order. -/
def State.yieldAll (s : State) (k : TKey) (above : List Span) : List (Loc × Nat) → List Byte → List Byte
  | [], bs => bs
  | l :: ls, bs => s.yieldBytes k above l (bs.take l.2) ++ s.yieldAll k above ls (bs.drop l.2)

/-- The lower threads that still wait in the store that a thread performs. -/
def Group.below (gr : Group) (t : Nat) : List Nat :=
  (List.range t).filter fun u =>
    (gr.thread u).isBlocked && (gr.thread u).pc == (gr.thread t).pc && (gr.thread u).issued == (gr.thread t).issued

/-- R279. What a lane of a store has written stands against the lower lanes that still wait. -/
def State.overWrite (s : State) (g t : Nat) (ls : List (Loc × Nat)) : State :=
  match s.groups[g]? with
  | some gr => (gr.below t).foldl (fun s u => s.modThread g u fun th => { th with higher := th.higher ++ ls.map placeSpan }) s
  | none => s

/-- R279. A store performed for a thread. -/
def State.doStore (s : State) (g t : Nat) (k : TKey) (ls : List (Loc × Nat)) (data : List Byte) : State :=
  (s.writePlaces k ls data).modThread g t fun th => { th with stores := th.stores + 1 }

/-- Table 14.2, 32-bit forms, by op5: the new value where there is one, with the flags of AFADD. -/
def atomicNew (op : Nat) (m d cmp : Word) : Option Word × Flags :=
  match op with
  | 20 => (some (m + d), 0)
  | 21 => (some (aluMin m d), 0)
  | 22 => (some (aluMax m d), 0)
  | 23 => (some (m &&& d), 0)
  | 24 => (some (m ||| d), 0)
  | 25 => (some (m ^^^ d), 0)
  | 26 => (some d, 0)
  | 27 => (if m = cmp then some d else none, 0)
  | _ => let r := aluFadd .rne m d; (some r.1, r.2)

/-- Table 14.2, 64-bit forms. -/
def atomicNewD (op : Nat) (m d cmp : DWord) : Option DWord :=
  if op = 30 then (if m = cmp then some d else none) else some d

/-- Old bytes, new bytes where there is a write, and flags, of an atomic lane. `data` holds d, then the compare. -/
def atomicBytes (op : Nat) (old data : List Byte) : Option (List Byte) × Flags :=
  if op = 30 ∨ op = 31 then
    ((atomicNewD op (BitVec.ofNat 64 (bytesNat old)) (BitVec.ofNat 64 (bytesNat (data.take 8)))
        (BitVec.ofNat 64 (bytesNat (data.drop 8)))).map fun v => natBytes 8 v.toNat, 0)
  else
    let r := atomicNew op (BitVec.ofNat 32 (bytesNat old)) (BitVec.ofNat 32 (bytesNat (data.take 4)))
      (BitVec.ofNat 32 (bytesNat (data.drop 4)))
    (r.1.map fun v => natBytes 4 v.toNat, r.2)

/-- R280. An atomic lane performed: one event of S. -/
def State.doAtomic (s : State) (g t : Nat) (k : TKey) (ls : List (Loc × Nat)) (op : Nat) (data : List Byte)
    (regs : List Nat) : State :=
  let old := s.readPlaces k ls
  let r := atomicBytes op old data
  let s1 := match r.1 with
    | some bs => s.writePlaces k ls bs
    | none => s.touchPlaces k ls
  (s1.modThread g t fun th => { th with loads := th.loads ++ [{ vals := wordsOf regs old, pc := th.pc, cycle := s.cycle }] }).raise g t r.2

/-! ## Accesses that wait on an owner state (R140, R277) -/

/-- The access of a blocked thread, as a target. -/
def Access.target (x : Access) : Target := { glob := x.glob, addr := x.addr, size := x.size, align := x.align }

def Access.write (x : Access) : Bool := !x.load

/-- Whether a blocked access may perform now. -/
def State.accessReady (s : State) (k : GKey) (x : Access) : Bool :=
  s.mayPerform k x.write (s.places k x.target x.write)

/-- The check of a blocked access when its wait ends. -/
def State.accessCheck (s : State) (k : GKey) (x : Access) : Chk :=
  (s.lowCheck k x.write x.target).and (s.highCheck k x.write x.target)

/-- R279. What higher-L lanes of a store have written that a thread waits to perform. -/
def State.overOf (s : State) (g t : Nat) : List Span := ((s.groups[g]?).map fun gr => (gr.thread t).higher).getD []

/-- A blocked access whose check has passed performs. -/
def State.performAccess (s : State) (g t : Nat) (k : GKey) (x : Access) : State :=
  let ls := s.places k x.target x.write
  match x.atomic with
  | some op => s.doAtomic g t (gkeyTeam k) ls op x.data x.regs
  | none =>
    if x.load then s.doLoad g t (gkeyTeam k) ls x.signed x.regs
    else (s.doStore g t (gkeyTeam k) ls (s.yieldAll (gkeyTeam k) (s.overOf g t) ls x.data)).overWrite g t ls

/-- R178. What a check that fails when a wait ends does: a trap of the threads `set`, or a wait for the page, after which
the threads `who` issue the instruction again. -/
def State.stopWait (s : State) (g t : Nat) (set who : List Nat) (c : Chk) : State :=
  let drop := fun (s : State) (us : List Nat) => us.foldl (fun s u => s.modThread g u Thread.dropAccess) s
  match c with
  | .fault k d => (drop s set).trapWait g set t k d
  | .page v => (drop s who).modGroup g fun x => { x.unblock who with fetch := some (.page v who t) }
  | .ok _ => s

/-- R277. What a check that fails when an owner-state wait ends does: a trap stops the threads that still wait in the
instruction. -/
def State.stopAccess (s : State) (g t : Nat) (who : List Nat) (c : Chk) : State :=
  match s.groups[g]? with
  | none => s
  | some gr => s.stopWait g t (gr.waitSet Wait.ownerWait t) who c

/-- R168. The flags that a waiting instruction owes are raised at its retirement. -/
def State.pay (s : State) (g t : Nat) : State :=
  match s.groups[g]? with
  | some gr => s.raise g t (gr.thread t).owed
  | none => s

/-- A blocked access performs: its thread becomes READY at the next instruction. -/
def State.doAccess (s : State) (g t : Nat) (k : GKey) (x : Access) : State :=
  match s.accessCheck k x with
  | .ok _ => ((s.performAccess g t k x).pay g t).modThread g t fun th => th.goOn x.next
  | c => s.stopAccess g t [t] c

end Sys2Proof.Machine
end

