-- ==== Sys2Proof/Machine/Operands.lean ====
section
/-! DEFINITION. Operands of every form: register fields and their checks (spec/11_isa_encoding.md R208 to R218), the
ports qs and qr (R210, spec/15_isa_control_sync.md R303 to R306), permutations (R219), last use and poison (R213,
R214), and how a thread finishes an operation that writes registers. -/

namespace Sys2Proof.Machine

/-! ## Register fields -/

/-- A register field of an instruction: its number, the registers it spans, what it does, which ports may stand there
(Table 11.5), and whether the thread's own register is meant (a crossbar operand is read in other threads). -/
structure Field where
  num : Nat
  size : Nat := 1
  read : Bool := true
  write : Bool := false
  qs : Bool := false
  qr : Bool := false
  own : Bool := true
deriving DecidableEq, Repr

/-- A source that may be qr. -/
def srcF (n : BitVec 6) : Field := { num := n.toNat, qr := true }
/-- A source that may not be a port. -/
def regF (n : BitVec 6) (size : Nat := 1) : Field := { num := n.toNat, size := size }
/-- A destination that may be qs. -/
def dstF (n : BitVec 6) : Field := { num := n.toNat, read := false, write := true, qs := true }
/-- A destination that may not be a port. -/
def outF (n : BitVec 6) (size : Nat := 1) : Field := { num := n.toNat, size := size, read := false, write := true }
/-- A destination that the operation also reads. -/
def updF (n : BitVec 6) (size : Nat := 1) : Field := { num := n.toNat, size := size, write := true }

/-- R209. The detail of ILLEGAL_REG for a field under a budget, if it faults. -/
def Field.fault (b : Nat) (f : Field) : Option Word :=
  let n := f.num
  let bad := some (BitVec.ofNat 32 n)
  if n = 63 then bad
  else if n = 62 then none
  else if n = 61 then (if f.qr && f.size == 1 then none else bad)
  else if n = 60 then (if f.qs && f.size == 1 then none else bad)
  else if b ≤ n then bad
  else if n % f.size ≠ 0 then bad
  else if b < n + f.size then some (BitVec.ofNat 32 b)
  else none

/-- The fault of the first field of a list that faults.
Log entry 7 (DEDUCED). -/
def fieldsFault (b : Nat) : List Field → Option Word
  | [] => none
  | f :: fs => match f.fault b with
    | some d => some d
    | none => fieldsFault b fs

/-- The registers of the thread's own that a list of fields reads or writes. -/
def ownRegs (fs : List Field) : List Nat := ((fs.filter Field.own).map fun f => regSpan f.num f.size).flatten

/-- The registers of the thread's own that a list of fields reads. -/
def ownReads (fs : List Field) : List Nat :=
  ((fs.filter fun f => f.own && f.read).map fun f => regSpan f.num f.size).flatten

/-! ## Pending registers and poison -/

/-- R217. The lowest thread of a list that meets a pending register, and that register. -/
def firstPending (gr : Group) (regs : Nat → List (Nat × Nat)) : List Nat → Option (Nat × Nat)
  | [] => none
  | t :: ts => match pendingIn gr (regs t) with
    | some r => some (t, r)
    | none => firstPending gr regs ts

/-- R213. PZ where one of the registers read is poisoned. -/
def poisonFlag (gr : Group) (reads : List (Nat × Nat)) : Flags :=
  flagIf (reads.any fun p => (gr.thread p.1).isPoison p.2) fPZ

/-- Registers of thread t. -/
def inThread (t : Nat) (l : List Nat) : List (Nat × Nat) := l.map fun r => (t, r)

/-! ## Permutations (R219, Table 11.7) -/

/-- The halfword k of a sequence of registers, one for each thread. -/
def halfOf (gr : Group) (r : Nat) (k : Nat) : BitVec 16 :=
  let w := (gr.thread (k / 2)).reg r
  if k % 2 = 0 then lo16 w else hi16 w

/-- The byte k of a sequence of registers. -/
def byteSeq (gr : Group) (r : Nat) (k : Nat) : Byte := byteOf ((gr.thread (k / 4)).reg r) (k % 4)

/-- Source of a whole-register pattern for thread i: none where the pattern fills with zero. -/
def permSource (pat p w i : Nat) : Option Nat :=
  match pat with
  | 0 => some ((i + p) % w)
  | 1 => some ((i + w - p % w) % w)
  | 2 => some (p % w)
  | 3 => some (i ^^^ (p &&& (w - 1)))
  | 4 => some (i ^^^ (2 ^ min p (Nat.log2 w) - 1))
  | 5 => if w ≤ i + p then none else some (i + p)
  | 6 => some (min (i + p) (w - 1))
  | 7 => if i < p then none else some (i - p)
  | 8 => some (i - p)
  | _ => some i

/-- Halfword k of the result sequence of ESLZ, ECAT or ESDZ: the register number and halfword it comes from. -/
def permHalf (pat p w a d k : Nat) : Option (Nat × Nat) :=
  match pat with
  | 9 => if 2 * w ≤ k + p then none else some (a, k + p)
  | 10 =>
    if 4 * w ≤ k + p then none
    else if 2 * w ≤ k + p then some (d, k + p - 2 * w)
    else some (a, k + p)
  | _ => if k < p then none else some (a, k - p)

/-- Byte k of the result sequence of BCAT. -/
def permByte (p w a d k : Nat) : Option (Nat × Nat) :=
  if 8 * w ≤ k + p then none
  else if 4 * w ≤ k + p then some (d, k + p - 4 * w)
  else some (a, k + p)

def halfVal (gr : Group) (x : Option (Nat × Nat)) : BitVec 16 :=
  match x with
  | some (r, k) => halfOf gr r k
  | none => 0

def byteVal (gr : Group) (x : Option (Nat × Nat)) : Byte :=
  match x with
  | some (r, k) => byteSeq gr r k
  | none => 0

/-- P(a) of thread i. -/
def permValue (gr : Group) (pat p a d i : Nat) : Word :=
  if pat = 9 ∨ pat = 10 ∨ pat = 11 then
    halves (halfVal gr (permHalf pat p gr.w a d (2 * i))) (halfVal gr (permHalf pat p gr.w a d (2 * i + 1)))
  else if pat = 12 then
    byteVal gr (permByte p gr.w a d (4 * i + 3)) ++ byteVal gr (permByte p gr.w a d (4 * i + 2))
      ++ byteVal gr (permByte p gr.w a d (4 * i + 1)) ++ byteVal gr (permByte p gr.w a d (4 * i))
  else
    match permSource pat p gr.w i with
    | some j =>
      let x := (gr.thread j).reg a
      if pat = 13 then halves (hi16 x) (lo16 x) else x
    | none => 0

/-- The (thread, register) pairs that P(a) of thread i reads. -/
def permReads (w pat p a d i : Nat) : List (Nat × Nat) :=
  if pat = 9 ∨ pat = 10 ∨ pat = 11 then
    [permHalf pat p w a d (2 * i), permHalf pat p w a d (2 * i + 1)].filterMap fun x => x.map fun y => (y.2 / 2, y.1)
  else if pat = 12 then
    [permByte p w a d (4 * i), permByte p w a d (4 * i + 1), permByte p w a d (4 * i + 2),
      permByte p w a d (4 * i + 3)].filterMap fun x => x.map fun y => (y.2 / 4, y.1)
  else
    match permSource pat p w i with
    | some j => [(j, a)]
    | none => []

/-! ## Queue words -/

/-- R303. Where a thread's route leads: destination node and L. -/
def Thread.dest (th : Thread) (k : GKey) : Option (Word × Word) :=
  th.route.map fun r => (if r.2 = 0xFFFFFFFF then k.node else r.2, r.1)

/-- R304. Whether the window toward the destination has room. -/
def State.windowRoom (s : State) (k : GKey) (d : Word × Word) : Bool :=
  match s.team? (gkeyTeam k) with
  | some t => decide (t.inFlight d.1 (d.2.toNat / 4096) < (s.ctx k.ctx).qwin)
  | none => false

/-- R304. One word leaves a thread for its route; a word to another node seals the node first. -/
def State.sendWord (s : State) (k : GKey) (t : Nat) (d : Word × Word) (v : Word) : State :=
  let s1 := if d.1 = k.node then s else s.sealNow k.ctx k.node 4
  let s2 := s1.window (gkeyTeam k) true d.1 (d.2.toNat / 4096)
  { s2 with net := s2.net ++ [⟨v, k.ctx, d.1, d.2, gkeyTeam k, (k, t)⟩] }

/-- R305. A thread takes the oldest word of its queue, and the sender's window place returns. -/
def State.takeWord (s : State) (g t : Nat) (k : GKey) : State :=
  match ((s.groups[g]?).map fun gr => (gr.thread t).queue).getD [] with
  | [] => s
  | w :: rest => (s.modThread g t fun th => { th with queue := rest }).window w.2 false k.node k.team

/-! ## How a thread finishes -/

/-- What an operation gives in one thread: register writes, a word for qs, flags, and stochastic roundings made. -/
structure LaneRes where
  writes : List (Nat × Word) := []
  send : Option Word := none
  flags : Flags := 0
  convs : Nat := 0
deriving DecidableEq, Repr

/-- A single result for a destination field: qs sends it, vz discards it. -/
def oneRes (d : Nat) (r : Word × Flags) : LaneRes :=
  if d = 60 then { send := some r.1, flags := r.2 }
  else if d < 60 then { writes := [(d, r.1)], flags := r.2 }
  else { flags := r.2 }

/-- A pair result. -/
def pairRes (d : Nat) (v : DWord) (f : Flags := 0) : LaneRes :=
  if d < 60 then { writes := [(d, loWord v), (d + 1, hiWord v)], flags := f } else { flags := f }

/-- Poison first, then the writes (R214). -/
def Thread.apply (th : Thread) (kills : List Nat) (r : LaneRes) : Thread :=
  let th1 := kills.foldl (fun th n => th.poison n) th
  let th2 := r.writes.foldl (fun th w => th.setReg w.1 w.2) th1
  { th2 with convs := (th2.convs + r.convs) % 2 ^ 32 }

/-- Retirement of one thread: flags, metering (R168, R81) and the next PC. -/
def State.finish (s : State) (g t : Nat) (k : GKey) (f : Flags) (cat inc : Nat) (next : Word) : State :=
  ((s.raise g t f).meter k cat inc).modThread g t fun th => th.goOn next

/-- One thread applies its result and retires, or waits for room in its window (R304).
Log entry 8 (DEDUCED). -/
def State.deliver (s : State) (g t : Nat) (k : GKey) (kills : List Nat) (r : LaneRes) (cat inc : Nat) (next : Word) : State :=
  let s1 := s.modThread g t fun th => th.apply kills r
  match r.send with
  | none => s1.finish g t k r.flags cat inc next
  | some v =>
    match ((s1.groups[g]?).bind fun gr => (gr.thread t).dest k) with
    | none => s1.finish g t k r.flags cat inc next
    | some d =>
      if s1.windowRoom k d then (s1.sendWord k t d v).finish g t k r.flags cat inc next
      else s1.modThread g t fun th => th.block (.qs v r.flags cat inc next)

end Sys2Proof.Machine
end

