-- ==== Sys2Proof/Machine/Waits.lean ====
section
/-! DEFINITION. Cairns (spec/08_memory_model.md R142 to R144), mailboxes (spec/15_isa_control_sync.md R302), coverage by
WAITC (R294), and the end of waits whose condition comes to hold within a step (spec/07_execution_model.md R111). -/

namespace Sys2Proof.Machine

open Host (Cell)

/-! ## Cairns -/

/-- Word i of the cairn at a scratch address: TARGET, COUNT, GEN, FLAGS (Table 8.3). -/
def cairnWord (m : List Cell) (a i : Nat) : Nat := bytesNat (cellsRead m (a + 4 * i) 4)

def cairnErr (m : List Cell) (a : Nat) : Bool := cairnWord m a 3 % 2 == 1
def cairnCause (m : List Cell) (a : Nat) : Nat := cairnWord m a 3 / 16 % 16

/-- A cairn's COUNT, GEN and FLAGS written. -/
def cairnPut (m : List Cell) (a count gen flags : Nat) : List Cell :=
  cellsWrite m (a + 4) (natBytes 4 count ++ natBytes 4 gen ++ natBytes 4 flags)

/-- Table 8.5, SYNCSET. -/
def cairnSet (m : List Cell) (a t : Nat) : List Cell :=
  cairnPut (cellsWrite m a (natBytes 4 t)) a 0 (cairnWord m a 2) 0

/-- Table 8.5, an error report of cause c. -/
def cairnReport (m : List Cell) (a c : Nat) : List Cell :=
  if cairnErr m a then m else cairnPut m a 0 (cairnWord m a 2 + 1) (16 * c + 1)

/-- Table 8.5, an arrival of n bytes; with a TARGET of 0 every arrival is an overshoot (R143).
Log entry 73 (DEDUCED). -/
def cairnArrive (m : List Cell) (a n : Nat) : List Cell :=
  if cairnErr m a then m
  else
    let sum := cairnWord m a 1 + n
    if sum < cairnWord m a 0 then cairnPut m a sum (cairnWord m a 2) (cairnWord m a 3)
    else if sum = cairnWord m a 0 ∧ 0 < sum then cairnPut m a 0 (cairnWord m a 2 + 1) (cairnWord m a 3)
    else cairnPut m a 0 (cairnWord m a 2 + 1) 17

/-- The scratch bytes of a team. -/
def State.scratch (s : State) (k : TKey) : List Cell := ((s.team? k).map Team.scratch).getD []

def State.modScratch (s : State) (k : TKey) (f : List Cell → List Cell) : State :=
  s.modTeam k fun t => { t with scratch := f t.scratch }

/-- R296. A cairn address of a team: MISALIGN, or PERM outside its plain blocks. -/
def State.cairnCheck (s : State) (k : TKey) (a : Nat) : Option (BitVec 8 × Word) :=
  if a % 16 ≠ 0 then some (tMisalign, BitVec.ofNat 32 a)
  else match s.team? k with
    | some t => if t.bytes < a + 16 || t.owner a == .stash then some (tPerm, BitVec.ofNat 32 a) else none
    | none => some (tPerm, BitVec.ofNat 32 a)

/-- R188. A cairn named by the context. -/
def State.nameCairn (s : State) (k : TKey) (a : Word) : State :=
  s.modCtx k.ctx fun c => if c.cairns.contains (k.node, k.team, a) then c else { c with cairns := c.cairns ++ [(k.node, k.team, a)] }

/-! ## Mailboxes -/

/-- R127. The words of mailbox k of a context on a core, oldest first. -/
def Core.mailbox (x : Core) (c k : Nat) : List Word :=
  match x.mailboxes.find? fun m => m.1 == c with
  | some m => m.2.getD k []
  | none => []

def Core.setMailbox (x : Core) (c k : Nat) (w : List Word) : Core :=
  if x.mailboxes.any fun m => m.1 == c then
    { x with mailboxes := x.mailboxes.map fun m => if m.1 == c then (m.1, m.2.set k w) else m }
  else { x with mailboxes := x.mailboxes ++ [(c, (List.replicate 8 []).set k w)] }

/-! ## WAITC -/

/-- R216, R294. The accesses of the thread, oldest first. -/
def Thread.accesses (th : Thread) : List LoadRec := th.loads.filter LoadRec.counts

/-- R216, R294. What a WAITC with load field l covers: the accesses not among the l most recent, and every mark without an
access of the thread; nothing for 7.
Log entry 25 (DEDUCED). -/
def Thread.covered (th : Thread) (l : Nat) : List LoadRec :=
  if l = 7 then [] else (th.loads.filter fun r => !r.counts) ++ th.accesses.take (th.accesses.length - l)

/-- What it leaves outstanding. -/
def Thread.uncovered (th : Thread) (l : Nat) : List LoadRec :=
  if l = 7 then th.loads else th.accesses.drop (th.accesses.length - l)

/-- R294. Whether a thread's outstanding counts are within the limits: the covered loads' data has arrived, and the
stores, copies and other commands outstanding are few enough. -/
def Thread.waitcHolds (th : Thread) (l s c t : Nat) : Bool :=
  (th.covered l).all LoadRec.arrived && (s = 7 || th.stores ≤ s) && (c = 3 || th.copies ≤ c) && (t = 3 || th.tileOps ≤ t)

/-- R294. Retirement of a WAITC: the covered loads stop being pending. -/
def Thread.cover (th : Thread) (l : Nat) : Thread :=
  let th1 := ((th.covered l).map fun r => r.vals.map Prod.fst).flatten.foldl (fun th n => th.setPend n false) th
  { th1 with loads := th.uncovered l }

/-! ## Reductions whose operand is qr -/

/-- The registers of a thread that REDG reads beside its operand: the old d of codes 1 and 10. -/
def groupReads (scan : Bool) (code d : Nat) : List Nat := if !scan && (code == 1 || code == 10) then regSpan d 1 else []

/-- R263, R264, R266. The results of REDG or SCANG over a set, in its order, for operand values x: register writes, and
flags, of which a REDG raises all in every thread, with PZ for its old d.
Log entry 66 (DEDUCED). -/
def groupOp (scan : Bool) (code d : Nat) (gr : Group) (set : List Nat) (x : Nat → Word) : List LaneRes :=
  let xs := set.map x
  if scan then (scang code xs).map (oneRes d)
  else
    let ds := set.map fun t => (gr.thread t).reg d
    let rs := ds.map fun v => redg code v ds xs
    let f := rs.foldl (fun f r => f ||| r.2) 0
    rs.map fun r => oneRes d (r.1, f)

/-- R83. The category of REDG and SCANG codes. -/
def groupCat (scan : Bool) (code : Nat) : Nat :=
  if scan then (if code = 2 ∨ code = 3 then 0 else 12)
  else if code = 1 ∨ code = 2 ∨ code = 3 ∨ code = 9 ∨ code = 10 then 0 else 12

/-- Results delivered to the threads of a set in ascending order. -/
def State.deliverAll (s : State) (g : Nat) (k : GKey) (kills : List Nat) (cat inc : Nat) (next : Word) :
    List Nat → List LaneRes → State
  | t :: ts, r :: rs => (s.deliver g t k kills r cat inc next).deliverAll g k kills cat inc next ts rs
  | _, _ => s

/-! ## What queued commands want -/

/-- Blocks that some bytes of scratch touch. -/
def spanBlocks (a n : Nat) : List Nat := if n = 0 then [] else (List.range ((a + n - 1) / 4096 - a / 4096 + 1)).map (a / 4096 + ·)

/-- Table 19.8. Fields of a handle. -/
def hPair (h : Word) : Nat := h.toNat / 512 % 2
def hSlot (h : Word) : Nat := h.toNat % 16

/-- R356, R360, R361. The session in which a factorising command was issued: the last one opened on its tile before it. -/
def Team.sessionOf (t : Team) (e : Cmd) : Option LuSession :=
  leastBy? (fun (x : LuSession) => e.id - x.id)
    (t.lus.filter fun x => x.pair == hPair e.w && x.slot == hSlot e.w && decide (x.id < e.id))

/-- R140, R360, R361. The blocks that a queued command wants: of a factorising command, those of the whole span that it may
use in its session. -/
def Cmd.wants (e : Cmd) (t : Team) : List Nat :=
  let lu := if e.op = 22 ∨ e.op = 23 then
      match t.sessionOf e, e.c with
      | some x, a :: _ => spanBlocks a.toNat (4 * (x.cols - x.k))
      | _, _ => []
    else []
  e.reads ++ e.writes ++ lu

/-! ## The end of waits -/

/-- R287. Whether a stash window may be mapped: every block is in T and no command of the team names one. -/
def State.blocksFree (s : State) (k : TKey) (first count : Nat) : Bool :=
  match s.team? k with
  | some t =>
    let named := ((s.cores.map Core.queue).flatten.filter fun q => q.team == k).flatMap fun q => q.wants t
    (List.range count).all fun i => t.owners.getD (first + i) .writing == .threads && !named.contains (first + i)
  | none => false

/-- R287. The blocks become a stash window, in one event; their plain contents are discarded. -/
def mapWindow (first count base : Nat) (t : Team) : Team :=
  { t with
    owners := t.owners.mapIdx fun i o => if first ≤ i ∧ i < first + count then .stash else o
    windows := t.windows ++ [⟨first, count, base, []⟩]
    scratch := cellsClear t.scratch (first * 4096) ((first + count) * 4096) }

/-- Whether the wait of a thread may end now, of the waits that end within a step. -/
def State.wakes (s : State) (gr : Group) (t : Nat) : Bool :=
  let th := gr.thread t
  let k := gkeyTeam gr.key
  match th.state with
  | .blocked w =>
    match w with
    | .qrAll _ _ _ set => set.all fun t => !(gr.thread t).queue.isEmpty
    | .qs _ _ _ _ _ => match th.dest gr.key with
      | some d => s.windowRoom gr.key d
      | none => false
    | .mbr _ m => !((s.core gr.core).mailbox gr.key.ctx m).isEmpty
    | .mbw m _ => decide (((s.core gr.core).mailbox gr.key.ctx m).length < 8)
    | .waitc l st c tl => th.waitcHolds l st c tl
    | .swait _ a cmp => cairnWord (s.scratch k) a.toNat 2 != cmp.toNat || cairnErr (s.scratch k) a.toNat
    | .barg => gr.threads.all fun x => x.isExited || x.state == .blocked .barg
    | .bart i p | .barwt i p => match s.team? k with
      | some tm => (tm.barriers.getD i {}).phase != p
      | none => false
    | .owner x =>
      if x.retry.isSome then false
      else if x.whole.isEmpty then s.accessReady gr.key x
      else x.whole.all fun u => match (gr.thread u).state with
        | .blocked (.owner y) => s.accessReady gr.key y
        | _ => true
    | .stmap f n _ => s.blocksFree k f n
    | .qr _ | .waitw _ _ _ _ | .reggrow _ _ _ | .accalloc _ _ _ _ | .tblld _ _ | .nap _ | .stflush _ => false
  | _ => false

/-- R144. The trap of a SWAIT that would retire with ERR set. -/
def cairnTrap (m : List Cell) (a : Nat) : BitVec 8 × Word :=
  let c := cairnCause m a
  (if c = 4 then tSparseMeta else tEngFault, BitVec.ofNat 32 (a + c))

/-- The lanes of a waiting atomic perform, in ascending L. -/
def State.doLanes (s : State) (g : Nat) (k : GKey) : List Nat → State
  | [] => s
  | t :: ts =>
    match s.groups[g]? with
    | some gr => match (gr.thread t).state with
      | .blocked (.owner x) => (s.doAccess g t k x).doLanes g k ts
      | _ => s.doLanes g k ts
    | none => s.doLanes g k ts

/-- The check of the access at which a thread waits. -/
def State.laneCheck (s : State) (g : Nat) (k : GKey) (t : Nat) : Chk :=
  match s.groups[g]? with
  | some gr => match (gr.thread t).state with
    | .blocked (.owner x) => s.accessCheck k x
    | _ => .ok (.scr 0)
  | none => .ok (.scr 0)

/-- R277. The lanes of a waiting atomic are checked, and perform together. -/
def State.doWhole (s : State) (g : Nat) (k : GKey) (set : List Nat) : State :=
  match firstBad (s.laneCheck g k) set with
  | some b => s.stopAccess g b.1 set b.2
  | none => s.doLanes g k set

/-- The threads that hold the same wait as thread t in the same instruction: those of its issue set. -/
def Group.sameWait (gr : Group) (t : Nat) : List Nat :=
  (List.range gr.threads.length).filter fun u =>
    (gr.thread u).state == (gr.thread t).state && (gr.thread u).pc == (gr.thread t).pc
      && (gr.thread u).issued == (gr.thread t).issued

/-- R287, R288. Threads of a group go on, with the flags that their instructions owe. -/
def State.endWait (s : State) (g : Nat) (set : List Nat) : State :=
  set.foldl (fun s t => (s.pay g t).modThread g t fun x => x.goOn (pcAfter x.pc 4)) s

/-- The wait of a thread ends: its instruction retires for it (R111). -/
def State.wake (s : State) (g : Nat) (gr : Group) (t : Nat) : State :=
  let th := gr.thread t
  let k := gkeyTeam gr.key
  let next := pcAfter th.pc 4
  match th.state with
  | .blocked w =>
    match w with
    | .qrAll scan code d set =>
      let pz := fun (u : Nat) => poisonFlag gr (inThread u (groupReads scan code d))
      let rs := (set.zip (groupOp scan code d gr set fun u => (gr.thread u).reg 61)).map fun p =>
        { p.2 with flags := p.2.flags ||| pz p.1 }
      let s1 := set.foldl (fun s u => s.takeWord g u gr.key) s
      s1.deliverAll g gr.key [] (groupCat scan code) 1 next set rs
    | .qs v f cat inc nx => match th.dest gr.key with
      | some d => (s.sendWord gr.key t d v).finish g t gr.key f cat inc nx
      | none => s
    | .mbr d m => match (s.core gr.core).mailbox gr.key.ctx m with
      | v :: rest => ((s.modCore gr.core fun x => x.setMailbox gr.key.ctx m rest).modThread g t fun th =>
          (th.setReg d v).goOn next)
      | [] => s
    | .mbw m v => ((s.modCore gr.core fun x => x.setMailbox gr.key.ctx m (x.mailbox gr.key.ctx m ++ [v])).pay g t).modThread
        g t fun th => th.goOn next
    | .waitc l _ _ _ => s.modThread g t fun th => (th.cover l).goOn next
    | .swait d a _ =>
      let m := s.scratch k
      if th.tainted then s.machineCheck g t 3
      else if cairnErr m a.toNat then
        let e := cairnTrap m a.toNat
        let set := (List.range gr.threads.length).filter fun u => (gr.thread u).pc == th.pc && (gr.thread u).isBlocked
        s.takeTrap g set t e.1 e.2
      else (s.pay g t).modThread g t fun th => (th.setReg d (BitVec.ofNat 32 (cairnWord m a.toNat 2))).goOn next
    | .barg => ((List.range gr.threads.length).filter fun u => (gr.thread u).state == .blocked .barg).foldl
        (fun s u => s.modThread g u fun x => x.goOn (pcAfter x.pc 4)) s
    | .bart _ _ | .barwt _ _ => s.modThread g t fun th => th.goOn next
    | .owner x => if x.whole.isEmpty then s.doAccess g t gr.key x else s.doWhole g gr.key x.whole
    | .stmap f n b => (s.modTeam k (mapWindow f n b)).endWait g (gr.sameWait t)
    | .qr _ | .waitw _ _ _ _ | .reggrow _ _ _ | .accalloc _ _ _ _ | .tblld _ _ | .nap _ | .stflush _ => s
  | _ => s

/-- Whether a group's waits may end: it is resident and not stopped. -/
def State.active (s : State) (gr : Group) : Bool :=
  !gr.stop && (match s.team? (gkeyTeam gr.key) with
    | some t => !t.saved
    | none => false)

/-- The waits that may end now: group, thread. -/
def State.wakeable (s : State) : List (Nat × Group × Nat) :=
  (s.groups.zipIdx.map fun p =>
    if s.active p.1 then ((List.range p.1.threads.length).filter (s.wakes p.1)).map fun t => (p.2, p.1, t) else []).flatten

/-- Order of service: node reference, then L (R302). -/
def wakeOrder (x : Nat × Group × Nat) : Nat := x.2.1.key.node.toNat * 2 ^ 32 + (x.2.1.l x.2.2).toNat

/-- Waits end one after another, the lowest first. -/
def State.settleN : Nat → State → State
  | 0, s => s
  | n + 1, s => match leastBy? wakeOrder s.wakeable with
    | none => s
    | some x => (s.wake x.1 x.2.1 x.2.2).settleN n

/-- Threads that wait. -/
def State.blockedCount (s : State) : Nat :=
  (s.groups.map fun g => (g.threads.filter Thread.isBlocked).length).sum

/-- R111. Every wait whose condition holds ends, in ascending order, each on the state that the earlier ones left. -/
def State.settle (s : State) : State := settleN s.blockedCount s

/-! ## Waits whose instruction retires as a whole (R111) -/

/-- The instruction that a waiting thread retires now: one that reads qr, where a word has come, or one whose first
access the owner states permit. -/
def State.dueInstr (s : State) (gr : Group) (t : Nat) : Option Instr :=
  let th := gr.thread t
  match th.state with
  | .blocked w =>
    match w with
    | .qr i => if th.queue.isEmpty then none else some i
    | .owner x => if s.accessReady gr.key x then x.retry else none
    | _ => none
  | _ => none

/-- The threads that retire a waiting instruction now: group, thread. -/
def State.dueThreads (s : State) : List (Nat × Group × Nat) :=
  (s.groups.zipIdx.map fun p =>
    if s.active p.1 then ((List.range p.1.threads.length).filter fun t => (s.dueInstr p.1 t).isSome).map fun t => (p.2, p.1, t)
    else []).flatten

end Sys2Proof.Machine
end

