-- ==== Sys2Proof/Machine/Lane.lean ====
section
/-! DEFINITION. How a lane operation runs on its issue set (spec/12_isa_lane_ops.md R235 to R237, R244): decode checks
in the order of Table 11.20, words of qr, one result for each thread from the registers as they stood, and
retirement. -/

namespace Sys2Proof.Machine

/-- A lane operation: the features and the kind of thread it needs, its register fields in the order of their checks,
the registers it reads in other threads, its last-use marks, its results, and its metering. -/
structure LaneOp where
  need : List Nat := []
  noHandler : Bool := false
  fields : List Field
  cross : Group → Nat → List (Nat × Nat) := fun _ _ => []
  kills : List Nat := []
  eval : State → Group → List Nat → List LaneRes
  cat : Nat := 12
  inc : Nat := 0
  /-- REDG or SCANG whose operand may be qr: scan, code, destination. -/
  combine : Option (Bool × Nat × Nat) := none

def LaneOp.takesQr (op : LaneOp) : Bool := op.fields.any fun f => f.num == 61
def LaneOp.sends (op : LaneOp) : Bool := op.fields.any fun f => f.num == 60

/-- The registers that thread t reads or writes, for R217, and those that it reads, for R213. -/
def LaneOp.regs (op : LaneOp) (gr : Group) (t : Nat) : List (Nat × Nat) := op.cross gr t ++ inThread t (ownRegs op.fields)
def LaneOp.reads (op : LaneOp) (gr : Group) (t : Nat) : List (Nat × Nat) := op.cross gr t ++ inThread t (ownReads op.fields)

/-- R304, R217. What a thread meets: a write of qs without a route, then a pending register. -/
def LaneOp.threadCheck (op : LaneOp) (gr : Group) (t : Nat) : Chk :=
  if op.sends && (gr.thread t).route.isNone then .fault tIllegalReg 60 else pendChk gr (op.regs gr t)

/-- Table 11.20, steps 1, 2 and 4, of a lane operation: the trap it meets, with the lowest thread that meets one (R179). -/
def LaneOp.check (op : LaneOp) (a : Act) (gr : Group) (s : State) : Option (Nat × BitVec 8 × Word) :=
  if !(op.need.all s.feature) || (op.noHandler && gr.key.kind == .handler) then some (a.lead, tIllegalOp, a.word)
  else
    match fieldsFault gr.budget op.fields with
    | some d => some (a.lead, tIllegalReg, d)
    | none =>
      match firstBad (op.threadCheck gr) a.set with
      | some (t, .fault k d) => some (t, k, d)
      | _ => none

/-- The results of a list of threads, with PZ. -/
def LaneOp.results (op : LaneOp) (s : State) (gr : Group) (set : List Nat) : List LaneRes :=
  (set.zip (op.eval s gr set)).map fun p => { p.2 with flags := p.2.flags ||| poisonFlag gr (op.reads gr p.1) }

/-- The threads of a list whose receive queue is empty, and the others. -/
def starved (gr : Group) (set : List Nat) : List Nat := set.filter fun t => (gr.thread t).queue.isEmpty
def fed (gr : Group) (set : List Nat) : List Nat := set.filter fun t => !(gr.thread t).queue.isEmpty

/-- Threads of a list that begin to wait. -/
def State.blockAll (s : State) (g : Nat) (set : List Nat) (w : Wait) : State :=
  set.foldl (fun s t => s.modThread g t fun th => th.block w) s

/-- R210. A lane operation one of whose operands is qr: each thread that holds a word runs, the others wait; a
combining operation waits whole. -/
def LaneOp.runQr (op : LaneOp) (a : Act) (gr : Group) (s : State) : State :=
  match op.combine with
  | some m =>
    if (starved gr a.set).isEmpty then
      let s1 := a.set.foldl (fun s t => s.takeWord a.g t gr.key) s
      (s1.deliverAll a.g gr.key op.kills op.cat op.inc a.next a.set (op.results s gr a.set)).settle
    else (s.blockAll a.g a.set (.qrAll m.1 m.2.1 m.2.2 a.set)).settle
  | none =>
    let run := fed gr a.set
    let s1 := s.blockAll a.g (starved gr a.set) (.qr a.instr)
    let s2 := run.foldl (fun s t => s.takeWord a.g t gr.key) s1
    (s2.deliverAll a.g gr.key op.kills op.cat op.inc a.next run (op.results s gr run)).settle

/-- A lane operation on an issue set. -/
def LaneOp.run (op : LaneOp) (a : Act) (gr : Group) (s : State) : State :=
  match op.check a gr s with
  | some x => a.trap s x.1 x.2.1 x.2.2
  | none =>
    if op.takesQr then op.runQr a gr s
    else s.deliverAll a.g gr.key op.kills op.cat op.inc a.next a.set (op.results s gr a.set)

/-- The meaning of an instruction that is a lane operation. -/
def laneExec (i : Instr) (op : LaneOp) (s : State) : Host.Outcome State Fault Refusal := withIssue i s op.run

/-! ## Operand forms -/

/-- What an operation computes in a thread from the rounding mode, d, A and B. -/
abbrev LaneFn := Mode → Word → Word → Word → Word × Flags

/-- A mark 0b10 on a field poisons its registers (R212). -/
def kill (m : BitVec 2) (n : BitVec 6) (size : Nat := 1) : List Nat := if m = 2 then regSpan n.toNat size else []

/-- Results thread by thread. -/
def perThread (f : State → Group → Nat → LaneRes) (s : State) (gr : Group) (set : List Nat) : List LaneRes :=
  set.map (f s gr)

/-- A form: d, a, b. -/
def formA (f : LaneFn) (reads : Bool) (cat inc : Nat) (y x : BitVec 2) (b a d : BitVec 6) : LaneOp where
  fields := [srcF a, srcF b, if reads then updF d else dstF d]
  kills := kill x a ++ kill y b
  eval := perThread fun s gr t =>
    let th := gr.thread t
    oneRes d.toNat (f (s.mode gr t) (th.reg d.toNat) (th.reg a.toNat) (th.reg b.toNat))
  cat := cat
  inc := inc

/-- A form of an operation that takes no b: d, a. -/
def formA1 (f : LaneFn) (cat inc : Nat) (x : BitVec 2) (a d : BitVec 6) : LaneOp where
  fields := [srcF a, dstF d]
  kills := kill x a
  eval := perThread fun s gr t => oneRes d.toNat (f (s.mode gr t) 0 ((gr.thread t).reg a.toNat) 0)
  cat := cat
  inc := inc

/-- X form (R219, R237): A is P(a), B is the old d. -/
def formX (f : LaneFn) (cat inc : Nat) (p : BitVec 6) (pat : BitVec 4) (a d : BitVec 6) : LaneOp where
  fields := [{ num := a.toNat, own := false }, updF d]
  cross := fun gr t => permReads gr.w pat.toNat p.toNat a.toNat d.toNat t
  eval := perThread fun s gr t =>
    let dv := (gr.thread t).reg d.toNat
    oneRes d.toNat (f (s.mode gr t) dv (permValue gr pat.toNat p.toNat a.toNat d.toNat t) dv)
  cat := cat
  inc := inc

/-- X form of MOV: the old d is an operand only of the patterns that append it. -/
def formXMov (p : BitVec 6) (pat : BitVec 4) (a d : BitVec 6) : LaneOp where
  fields := [{ num := a.toNat, own := false }, outF d]
  cross := fun gr t => permReads gr.w pat.toNat p.toNat a.toNat d.toNat t
  eval := perThread fun _ gr t => oneRes d.toNat (permValue gr pat.toNat p.toNat a.toNat d.toNat t, 0)

/-- I form: d, a, an extended immediate. -/
def formI (f : LaneFn) (reads : Bool) (cat inc : Nat) (imm : Word) (a d : BitVec 6) : LaneOp where
  fields := [srcF a, if reads then updF d else dstF d]
  eval := perThread fun s gr t =>
    let th := gr.thread t
    oneRes d.toNat (f (s.mode gr t) (th.reg d.toNat) (th.reg a.toNat) imm)
  cat := cat
  inc := inc

/-- W form and MOV with an immediate: d from its old value and the PC. -/
def formW (f : Word → Word → Word) (reads : Bool) (d : BitVec 6) : LaneOp where
  fields := [if reads then updF d else dstF d]
  eval := perThread fun _ gr t =>
    let th := gr.thread t
    oneRes d.toNat (f (th.reg d.toNat) th.pc, 0)

/-- Sign and zero extension of an imm10. -/
def sx (i : BitVec 10) : Word := i.signExtend 32
def zx (i : BitVec 10) : Word := i.zeroExtend 32

/-- The fields of a 16-bit instruction: registers v0 to v31, and the mark that L stands for (R207). -/
def reg16 (n : BitVec 5) : BitVec 6 := n.zeroExtend 6
def mark16 (l : BitVec 1) : BitVec 2 := if l = 1 then 2 else 0

/-! ## Operations with a guard operand (R244) -/

/-- R217. What a thread of a guarded instruction meets: a pending guard, then a pending one of the other registers that it
reads. -/
def guardedCheck (gr : Group) (g : BitVec 6) (regs : Nat → List Nat) (t : Nat) : Chk :=
  (pendChk gr (inThread t (regSpan g.toNat 1))).and (pendChk gr (inThread t (regs t)))

/-- R185, R217. The set that a trap of a guarded instruction stops: the whole issue set where a guard is pending in one of
its threads and so is not evaluated; else the threads `who` whose guard is true.
Log entry 25 (DEDUCED). -/
def guardedSet (gr : Group) (g : BitVec 6) (set who : List Nat) : List Nat :=
  if set.any fun t => (gr.thread t).isPend g.toNat then set else who

/-- R244. What the threads of a SELT or SELF meet first: a pending condition in some thread, before any is evaluated; then
another pending register of a thread that selects. -/
def selectBad (gr : Group) (b : BitVec 6) (regs : Nat → List Nat) (set : List Nat) : Option (Nat × Chk) :=
  match firstBad (fun t => pendChk gr (inThread t (regSpan b.toNat 1))) set with
  | some x => some x
  | none => firstBad (fun t => pendChk gr (inThread t (regs t))) set

/-- SELT and SELF: b is the guard; a is read, and d written, only where the condition holds. -/
def selectRun (onTrue : Bool) (y x : BitVec 2) (b a d : BitVec 6) (act : Act) (gr : Group) (s : State) : State :=
  let guardRegs := regSpan b.toNat 1
  let holds := fun t => ((gr.thread t).reg b.toNat != 0) == onTrue
  let sel := act.set.filter holds
  let marks := kill x a ++ kill y b
  match fieldsFault gr.budget [srcF a, regF b, updF d] with
  | some r => act.trap s act.lead tIllegalReg r
  | none =>
    match selectBad gr b (fun t => if holds t then regSpan a.toNat 1 ++ regSpan d.toNat 1 else []) act.set with
    | some (t, .fault k v) => s.takeTrap act.g (guardedSet gr b act.set sel) t k v
    | _ =>
      let wait := if a = 61 then starved gr sel else []
      let run := act.set.filter fun t => !wait.contains t
      let res := run.map fun t =>
        if holds t then
          let r := oneRes d.toNat ((gr.thread t).reg a.toNat, 0)
          { r with flags := poisonFlag gr (inThread t (guardRegs ++ regSpan a.toNat 1)) }
        else {}
      let s1 := s.blockAll act.g wait (.qr act.instr)
      let s2 := if a = 61 then (run.filter holds).foldl (fun s t => s.takeWord act.g t gr.key) s1 else s1
      let s3 := s2.deliverAll act.g gr.key marks 12 0 act.next run res
      let s4 := s3.meter gr.key 12 (run.filter holds).length
      if a = 61 then s4.settle else s4

end Sys2Proof.Machine
end

