-- ==== Sys2Proof/Machine/MemOps.lean ====
section
/-! DEFINITION. The meanings of loads, stores, atomics, deterministic reductions and stash windows
(spec/14_isa_memory.md R274 to R289). -/

namespace Sys2Proof.Machine

/-! ## Addresses (R275) -/

/-- A global address from a pair, or a scratch address from a register, and an offset in bytes. -/
def formAddr (glob : Bool) (th : Thread) (a : Nat) (off : Int) : Nat :=
  if glob then (BitVec.ofInt 64 ((th.pair a).toNat + off)).toNat else (BitVec.ofInt 32 ((th.reg a).toNat + off)).toNat

/-- Marks of the destination registers of a list of threads (R216). -/
def State.markAll (s : State) (g : Nat) (set regs : List Nat) : State :=
  set.foldl (fun s t => s.modThread g t fun th => regs.foldl (fun th r => th.setPend r true) th) s

/-- PZ for the threads of a list that read a poisoned register. -/
def State.raisePoison (s : State) (g : Nat) (gr : Group) (set : List Nat) (reads : Nat → List (Nat × Nat)) : State :=
  set.foldl (fun s t => s.raise g t (poisonFlag gr (reads t))) s

/-- R168. Threads of a list owe PZ at the retirement of their waiting instruction, where they have read a poisoned
register. -/
def State.owePoison (s : State) (g : Nat) (gr : Group) (set : List Nat) (reads : Nat → List (Nat × Nat)) : State :=
  set.foldl (fun s t => s.modThread g t fun th => { th with owed := poisonFlag gr (reads t) }) s

/-- Threads of a list that go on. -/
def State.goAll (s : State) (g : Nat) (set : List Nat) (pc : Word) : State :=
  set.foldl (fun s t => s.modThread g t fun th => th.goOn pc) s

/-- The threads of an issue set that are not in a list. -/
def others (set who : List Nat) : List Nat := set.filter fun t => !who.contains t

/-- The access of a target that waits on an owner state. -/
def Target.waiting (x : Target) (load : Bool) (next : Word) : Access :=
  { load := load, glob := x.glob, addr := x.addr, size := x.size, align := x.align, regs := [], data := [], next := next }

/-- R277, R168. A thread begins to wait on an owner state, and owes PZ. -/
def State.waitOwner (s : State) (g t : Nat) (x : Access) (pz : Flags) : State :=
  s.modThread g t fun th => { th.block (.owner x) with owed := pz }

/-! ## Loads (R278) -/

/-- A load: global or scratch, its size, sign extension, offset in units of the size, base, destination. -/
def loadRun (glob signed : Bool) (z : Nat) (off : BitVec 11) (b d : BitVec 6) (a : Act) (gr : Group) (s : State) : State :=
  let n := max 1 (z / 4)
  let fs := [regF b (if glob then 2 else 1), outF d n]
  match fieldsFault gr.budget fs with
  | some r => a.trap s a.lead tIllegalReg r
  | none =>
    let tgt := fun t => ({ glob := glob, addr := formAddr glob (gr.thread t) b.toNat (off.toInt * z), size := z } : Target)
    let r := a.rounds s a.set
      (fun t => (pendChk gr (inThread t (ownRegs fs))).and (s.lowCheck gr.key false (tgt t)))
      (fun t => s.highCheck gr.key false (tgt t))
    if !r.2 then r.1
    else
      let regs := regSpan d.toNat n
      let reads := fun t => inThread t (ownReads fs)
      let ls := fun t => s.places gr.key (tgt t) false
      let ready := a.set.filter fun t => s.mayPerform gr.key false (ls t)
      let s1 := (s.raisePoison a.g gr ready reads).markAll a.g a.set regs
      let s2 := ready.foldl (fun s t =>
        (s.doLoad a.g t (gkeyTeam gr.key) (ls t) signed regs).modThread a.g t fun th => th.goOn a.next) s1
      (others a.set ready).foldl (fun s t =>
        s.waitOwner a.g t { (tgt t).waiting true a.next with regs := regs, signed := signed } (poisonFlag gr (reads t))) s2

/-! ## Guarded accesses (R218, R120) -/

/-- The threads whose guard is true. -/
def guarded (gr : Group) (n : BitVec 1) (g : BitVec 6) (set : List Nat) : List Nat :=
  set.filter fun t => ((gr.thread t).reg g.toNat != 0) != (n == 1)

/-- R179, R217. What a thread of a guarded access meets first: a pending guard; where the guard is true, another pending
register, then what the access itself meets. -/
def accessChk (gr : Group) (g : BitVec 6) (fs : List Field) (who : List Nat) (f : Nat → Chk) (t : Nat) : Chk :=
  (guardedCheck gr g (fun t => if who.contains t then ownRegs fs else []) t).and
    (if who.contains t then f t else .ok (.scr 0))

/-- Steps 2 and 4 of Table 11.20 for a guarded instruction without an access: a state that has trapped, or none. -/
def guardChecks (a : Act) (gr : Group) (s : State) (n : BitVec 1) (g : BitVec 6) (fs : List Field) : Option State :=
  match fieldsFault gr.budget fs with
  | some r => some (a.trap s a.lead tIllegalReg r)
  | none =>
    let who := guarded gr n g a.set
    match firstBad (accessChk gr g fs who fun _ => .ok (.scr 0)) a.set with
    | some (t, .fault k v) => some (s.takeTrap a.g (guardedSet gr g a.set who) t k v)
    | _ => none

/-! ## Stores (R279) -/

/-- The bytes that a thread stores: the low bytes of a register, or of consecutive registers. -/
def storeBytes (th : Thread) (d z : Nat) : List Byte :=
  if z ≤ 4 then natBytes z (th.reg d).toNat
  else ((List.range (z / 4)).map fun j => natBytes 4 (if d < 60 then th.reg (d + j) else 0).toNat).flatten

/-- Whether an access crosses a line, so that it has an upper part. -/
def Target.crosses (x : Target) : Bool := decide (1 < x.parts.length)

/-- The upper part of a crossing access, as an access of its own. -/
def Target.upper (x : Target) : Target :=
  match x.parts with
  | [_, p] => { x with addr := p.1, size := p.2 }
  | _ => x

/-- R276 step 2. The lower parts of the accesses of a list, which cross; `higher` is what higher-L lanes have written. -/
def State.lowerParts (s : State) (k : TKey) (ls : Nat → List (Loc × Nat)) (higher : Nat → List Span) (data : Nat → List Byte)
    (who : List Nat) : State :=
  who.foldl (fun s t => s.writePlaces k ((ls t).take 1) (s.yieldAll k (higher t) ((ls t).take 1) (data t))) s

/-- R276 step 4. A thread stores its single part, or the upper part of a crossing access; `above` is what higher-L lanes have
written. -/
def State.storeRest (s : State) (g t : Nat) (k : TKey) (cross : Bool) (ls : List (Loc × Nat)) (above : List Span)
    (data : List Byte) : State :=
  let n := if cross then 1 else 0
  let rest := data.drop ((ls.take n).map Prod.snd).sum
  match ls.drop n with
  | [] => s.doStore g t k [] rest
  | l :: _ => s.doStore g t k [l] (s.yieldBytes k above l rest)

/-- A store: global or scratch, its size, offset in units of the size, guard, base, data register. A thread whose lower
part an earlier try has performed stores its upper part only (R276). -/
def storeRun (glob : Bool) (z : Nat) (off : BitVec 4) (n : BitVec 1) (g b d : BitVec 6) (a : Act) (gr : Group)
    (s : State) : State :=
  let fs := [regF b (if glob then 2 else 1), regF g,
    { num := d.toNat, size := max 1 (z / 4), qr := z = 4 }]
  match fieldsFault gr.budget fs with
  | some r => a.trap s a.lead tIllegalReg r
  | none =>
    let who := guarded gr n g a.set
    let whole := fun t => ({ glob := glob, addr := formAddr glob (gr.thread t) b.toNat ((off.toNat * z : Nat) : Int), size := z } : Target)
    let tgt := fun t => if a.lowered.contains t then (whole t).upper else whole t
    let data := fun t => (storeBytes (gr.thread t) d.toNat z).drop (z - (tgt t).size)
    let wait := if d = 61 then starved gr who else []
    let run := others who wait
    let reads := fun t => inThread t (ownReads fs)
    let ls := fun t => s.places gr.key (tgt t) true
    let ready := run.filter fun t => s.mayPerform gr.key true (ls t)
    let low := ready.filter fun t => (tgt t).crosses
    let higher := fun t => (gr.thread t).higher
    let above := fun t => higher t ++
      ((low ++ a.lowered).filter (t < ·)).flatMap fun u => ((s.places gr.key (whole u) true).take 1).map placeSpan
    let r := a.rounds s (guardedSet gr g a.set who) (accessChk gr g fs who fun t => s.lowCheck gr.key true (tgt t))
      (fun t => if who.contains t then s.highCheck gr.key true (tgt t) else .ok (.scr 0))
      low (fun s => s.lowerParts (gkeyTeam gr.key) ls higher data low)
    if !r.2 then r.1
    else
      let s1 := (r.1.raisePoison a.g gr ready reads).goAll a.g (others a.set who) a.next
      let s2 := s1.blockAll a.g wait (.qr a.instr)
      let s3 := if d = 61 then run.foldl (fun s t => s.takeWord a.g t gr.key) s2 else s2
      let s4 := (others run ready).foldl (fun s t =>
        s.waitOwner a.g t { (tgt t).waiting false a.next with data := data t } (poisonFlag gr (reads t))) s3
      let s5 := ready.foldl (fun s t =>
        ((s.storeRest a.g t (gkeyTeam gr.key) (tgt t).crosses (ls t) (above t) (data t)).overWrite a.g t (ls t)).modThread a.g t
          fun th => th.goOn a.next) s4
      if d = 61 then s5.settle else s5

/-! ## Atomics (R280 to R282) -/

/-- Registers that an atomic's d spans, and those that its old value is written to. -/
def atomicSpan (op : Nat) : Nat := if op = 30 then 4 else if op = 27 ∨ op = 31 then 2 else 1

/-- R216. A thread whose guard is false holds the mark of an atomic that acts in another thread of the issue set: there is
no access of its own behind it.
Log entry 25 (DEDUCED). -/
def Thread.markOnly (regs : List Nat) (th : Thread) : Thread :=
  { th with loads := th.loads ++ [{ vals := regs.map fun r => (r, th.reg r), pc := th.pc, arrived := true, counts := false }] }

/-- An atomic by its op5. Where its guard holds in no thread it marks d pending in none.
Log entry 25 (DEDUCED). -/
def atomicRun (op : Nat) (off : BitVec 4) (n : BitVec 1) (g b d : BitVec 6) (a : Act) (gr : Group) (s : State) : State :=
  let z : Nat := if op = 30 ∨ op = 31 then 8 else 4
  let fs := [regF b 2, regF g, updF d (atomicSpan op)]
  match fieldsFault gr.budget fs with
  | some r => a.trap s a.lead tIllegalReg r
  | none =>
    let who := guarded gr n g a.set
    let tgt := fun t =>
      ({ glob := true, addr := formAddr true (gr.thread t) b.toNat ((off.toNat * z : Nat) : Int), size := z, align := z } : Target)
    let data := fun t => storeBytes (gr.thread t) d.toNat (4 * atomicSpan op)
    let regs := regSpan d.toNat (z / 4)
    let reads := fun t => inThread t (ownReads fs)
    let ls := fun t => s.places gr.key (tgt t) true
    let r := a.rounds s (guardedSet gr g a.set who) (accessChk gr g fs who fun t => s.lowCheck gr.key true (tgt t))
      (fun _ => .ok (.scr 0))
    if !r.2 then r.1
    else if who.isEmpty then s.goAll a.g a.set a.next
    else
      let idle := others a.set who
      let marked := fun (s : State) =>
        ((idle.foldl (fun s t => s.modThread a.g t (Thread.markOnly regs)) s).goAll a.g idle a.next).markAll a.g a.set regs
      if who.all fun t => s.mayPerform gr.key true (ls t) then
        who.foldl (fun s t => (s.doAtomic a.g t (gkeyTeam gr.key) (ls t) op (data t) regs).modThread a.g t fun th => th.goOn a.next)
          (marked (s.raisePoison a.g gr who reads))
      else
        who.foldl (fun s t => s.waitOwner a.g t
          { (tgt t).waiting false a.next with regs := regs, data := data t, atomic := some op, whole := who } (poisonFlag gr (reads t)))
          (marked s)

/-! ## Deterministic reductions (R283, R145) -/

/-- The sequence number that a thread's next DRED takes. -/
def Node.dredSeq (n : Node) (l : Word) : Nat := ((n.dredSeqs.find? fun x => x.1 == l).map Prod.snd).getD 0

def bumpSeq (l : Word) (xs : List (Word × Nat)) : List (Word × Nat) :=
  if xs.any fun x => x.1 == l then xs.map fun x => if x.1 == l then (x.1, x.2 + 1) else x else xs ++ [(l, 1)]

/-- R145. Entries in the basket of a core, of every context. -/
def State.inBasket (s : State) (core : Nat) : Nat :=
  (s.ctxs.map fun c => (c.basket.filter fun e => e.core == core && e.spilled.isNone).length).sum

/-- R145. Places in use of a context's reduction log. -/
def Context.logPlaces (c : Context) : List Nat := c.basket.filterMap BasketEntry.spilled

/-- The lowest free place of a context's reduction log, if one is free.
Log entry 95 (DESIGN CHOICE). -/
def Context.logFree (c : Context) : Option Nat :=
  let used := c.logPlaces
  if used.length < 2 ^ 20 then (List.range (used.length + 1)).find? fun i => !used.contains i else none

/-- R145. Whether an entry of a core finds room after `before` others of its instruction. -/
def State.basketRoom (s : State) (c core before : Nat) : Bool :=
  let here := s.inBasket core
  decide (here + before < 2048)
    || decide ((s.ctx c).logPlaces.length + (here + before - max here 2048) < 2 ^ 20)

/-- The checks of one DRED lane, in the order of R283; last the hamper of R368. -/
def State.dredCheck (s : State) (gr : Group) (node : Node) (z x : Nat) : Chk :=
  let d := BitVec.ofNat 32 x
  if !canonical x then .fault tNoncanon (BitVec.ofNat 32 (x / 2 ^ 32))
  else if x % z ≠ 0 then .fault tMisalign d
  else if inApertures x then .fault tPerm d
  else if !((List.range z).all fun i => node.covers (x + i)) then .fault tDetIntrude d
  else
    let c := s.ctx gr.key.ctx
    match checkMapped c x true none with
    | .ok l => match l with
      | .glob p _ _ => if (List.range z).any fun i => s.hampered c.part (p + i) then .fault tPerm d else .ok l
      | .scr _ => .ok l
    | r => r

/-- The lanes of a DRED that find the basket and the log full, or their sequence exhausted: the first of a list. -/
def State.firstFull (s : State) (gr : Group) (node : Node) : Nat → List Nat → Option Nat
  | _, [] => none
  | i, t :: ts =>
    if !s.basketRoom gr.key.ctx gr.core i || decide (2 ^ 32 ≤ node.dredSeq (gr.l t)) then some t else s.firstFull gr node (i + 1) ts

/-- Table 8.14. The 32 bytes of an entry. -/
def BasketEntry.bytes (e : BasketEntry) : List Byte :=
  natBytes 8 (e.kind.toNat * 2 ^ 60 + e.target.toNat % 2 ^ 57) ++ natBytes 8 e.operand.toNat ++ natBytes 4 e.l.toNat
    ++ natBytes 4 e.seq.toNat ++ natBytes 8 0

/-- R145. An entry at its place of the context's reduction log, where it has one. -/
def State.logWrite (s : State) (c : Nat) (e : BasketEntry) : State :=
  match e.spilled with
  | some i => s.devStoreLong c ((s.ctx c).logBase.toNat + 32 * i) e.bytes
  | none => s

/-- One entry made. -/
def State.addEntry (s : State) (a : Act) (gr : Group) (kind z x : Nat) (d t : Nat) : State :=
  let th := gr.thread t
  let seq := ((s.node? gr.key.ctx gr.key.node).map fun n => n.dredSeq (gr.l t)).getD 0
  let e : BasketEntry :=
    { kind := BitVec.ofNat 4 kind, target := BitVec.ofNat 64 x,
      operand := if z = 8 then th.pair d else (th.reg d).zeroExtend 64, l := gr.l t, seq := BitVec.ofNat 32 seq,
      node := gr.key.node, team := gr.key.team, core := gr.core,
      spilled := if s.inBasket gr.core < 2048 then none else (s.ctx gr.key.ctx).logFree }
  let s1 := (s.logWrite gr.key.ctx e).modCtx gr.key.ctx fun c => { c with basket := c.basket ++ [e] }
  let s2 := s1.modNode gr.key.ctx gr.key.node fun n => { n with dredSeqs := bumpSeq (gr.l t) n.dredSeqs }
  s2.modThread a.g t fun th => { th with stores := th.stores + 1 }

/-- DRED. -/
def dredRun (kind : BitVec 4) (n : BitVec 1) (g b d : BitVec 6) (a : Act) (gr : Group) (s : State) : State :=
  match s.node? gr.key.ctx gr.key.node with
  | none => a.illegal s
  | some node =>
    if !s.feature 9 || !node.rec'.det || gr.key.kind != .lanes then a.illegal s
    else
      let z := if kind = 5 then 8 else 4
      let fs := [regF b 2, regF g, regF d (z / 4)]
      match fieldsFault gr.budget fs with
      | some r => a.trap s a.lead tIllegalReg r
      | none =>
        let who := guarded gr n g a.set
        let addr := fun t => ((gr.thread t).pair b.toNat).toNat
        let r := a.rounds s (guardedSet gr g a.set who) (accessChk gr g fs who fun t => s.dredCheck gr node z (addr t))
          (fun _ => .ok (.scr 0))
        if !r.2 then r.1
        else
          match s.firstFull gr node 0 who with
          | some t => s.takeTrap a.g who t tPage 0x0D0F true
          | none =>
            let s1 := s.raisePoison a.g gr who fun t => inThread t (ownReads fs)
            (who.foldl (fun s t => s.addEntry a gr kind.toNat z (addr t) d.toNat t) s1).goAll a.g a.set a.next

/-! ## Stash windows (R286 to R288) -/

/-- R287 step 1. The first offending scratch address of a run of blocks. -/
def stmapBad (t : Team) (first count : Nat) : Option Nat :=
  ((List.range count).find? fun i =>
    decide (t.owners.length ≤ first + i) || t.owners.getD (first + i) .threads == .stash).map fun i => (first + i) * 4096

/-- Whether two runs of addresses, each given by its start and length, share an address. -/
def runsMeet (a b : Nat × Nat) : Bool := decide (0 < a.2) && decide (0 < b.2) && decide (a.1 < b.1 + b.2) && decide (b.1 < a.1 + a.2)

/-- A range of virtual addresses reduced modulo 2^64 (R211). -/
def virtRuns (base len : Nat) : List (Nat × Nat) :=
  if base + len ≤ 2 ^ 64 then [(base, len)] else [(base, 2 ^ 64 - base), (0, base + len - 2 ^ 64)]

/-- The physical addresses to which a context maps a range, present or not: one run for each mapping that it meets. -/
def Context.physRuns (c : Context) (r : Nat × Nat) : List (Nat × Nat) :=
  c.maps.filterMap fun m =>
    let lo := max r.1 (m.vpage * 65536)
    let hi := min (r.1 + r.2) ((m.vpage + m.pages) * 65536)
    if lo < hi then some (physOf m lo, hi - lo) else none

/-- R148. Whether a range of a context overlaps a live registration of its partition: at the same addresses of the same
context, or at the same physical addresses. -/
def State.rangeRegistered (s : State) (c base len : Nat) : Bool :=
  let mine := virtRuns base len
  let phys := mine.flatMap (s.ctx c).physRuns
  s.nodes.any fun n => n.registered && (s.ctx n.ctx).part == (s.ctx c).part && n.rec'.ranges.any fun r =>
    (n.ctx == c && mine.any (runsMeet r))
      || ((s.ctx n.ctx).physRuns r).any fun p => phys.any (runsMeet p)

/-- STMAP, once per issue set through its lowest-L thread.
Log entry 28 (DEDUCED). -/
def stmapRun (i : BitVec 10) (b d : BitVec 6) (a : Act) (gr : Group) (s : State) : State :=
  if !s.feature 12 || gr.key.kind == .handler then a.illegal s
  else
    let fs := [regF b 2, regF d]
    match fieldsFault gr.budget fs with
    | some r => a.trap s a.lead tIllegalReg r
    | none =>
      match firstPending gr (fun t => inThread t (ownRegs fs)) [a.lead] with
      | some p => a.trap s p.1 tUnwaited (BitVec.ofNat 32 p.2)
      | none =>
        let th := gr.thread a.lead
        let first := (th.reg d.toNat).toNat / 4096
        let count := i.toNat + 1
        let base := (th.pair b.toNat).toNat / 4096 * 4096
        match s.team? (gkeyTeam gr.key) with
        | none => a.trap s a.lead tPerm (BitVec.ofNat 32 (first * 4096))
        | some t =>
          match stmapBad t first count with
          | some x => a.trap s a.lead tPerm (BitVec.ofNat 32 x)
          | none =>
            let last := (base + count * 4096 - 1) % 2 ^ 64
            if !canonical base then a.trap s a.lead tNoncanon (BitVec.ofNat 32 (base / 2 ^ 32))
            else if !canonical last then a.trap s a.lead tNoncanon (BitVec.ofNat 32 (last / 2 ^ 32))
            else if s.rangeRegistered gr.key.ctx base (count * 4096) then a.trap s a.lead tDetIntrude (BitVec.ofNat 32 base)
            else
              ((s.blockAll a.g a.set (.stmap first count base)).owePoison a.g gr [a.lead]
                fun t => inThread t (ownReads fs)).settle

/-- STFLUSH, once per issue set through its lowest-L thread. -/
def stflushRun (b : BitVec 6) (a : Act) (gr : Group) (s : State) : State :=
  if !s.feature 12 || gr.key.kind == .handler then a.illegal s
  else
    let fs := [regF b]
    match fieldsFault gr.budget fs with
    | some r => a.trap s a.lead tIllegalReg r
    | none =>
      match firstPending gr (fun t => inThread t (ownRegs fs)) [a.lead] with
      | some p => a.trap s p.1 tUnwaited (BitVec.ofNat 32 p.2)
      | none =>
        let x := ((gr.thread a.lead).reg b.toNat).toNat
        let reads := fun t => inThread t (ownReads fs)
        match (s.team? (gkeyTeam gr.key)).bind fun t => t.window? x with
        | some w => (s.blockAll a.g a.set (.stflush w.first)).owePoison a.g gr [a.lead] reads
        | none => (s.raisePoison a.g gr [a.lead] reads).goAll a.g a.set a.next

/-! ## The instructions -/

/-- LDG_B, R278. Loads a global byte zero-extended into d, marked pending. -/
def execLdgB (k : BitVec 11) (a : BitVec 6) (d : BitVec 6) (s : State) : Host.Outcome State Fault Refusal :=
  withIssue (.ldgB k a d) s (loadRun true false 1 k a d)

/-- LDG_SB, R278. Loads a global byte sign-extended into d. -/
def execLdgSb (k : BitVec 11) (a : BitVec 6) (d : BitVec 6) (s : State) : Host.Outcome State Fault Refusal :=
  withIssue (.ldgSb k a d) s (loadRun true true 1 k a d)

/-- LDG_H, R278. Loads a global halfword zero-extended into d. -/
def execLdgH (k : BitVec 11) (a : BitVec 6) (d : BitVec 6) (s : State) : Host.Outcome State Fault Refusal :=
  withIssue (.ldgH k a d) s (loadRun true false 2 k a d)

/-- LDG_SH, R278. Loads a global halfword sign-extended into d. -/
def execLdgSh (k : BitVec 11) (a : BitVec 6) (d : BitVec 6) (s : State) : Host.Outcome State Fault Refusal :=
  withIssue (.ldgSh k a d) s (loadRun true true 2 k a d)

/-- LDG_W, R278. Loads a global word into d. -/
def execLdgW (k : BitVec 11) (a : BitVec 6) (d : BitVec 6) (s : State) : Host.Outcome State Fault Refusal :=
  withIssue (.ldgW k a d) s (loadRun true false 4 k a d)

/-- LDG_D, R278. Loads a global doubleword into pair d. -/
def execLdgD (k : BitVec 11) (a : BitVec 6) (d : BitVec 6) (s : State) : Host.Outcome State Fault Refusal :=
  withIssue (.ldgD k a d) s (loadRun true false 8 k a d)

/-- LDG_Q, R278. Loads 16 global bytes into quad d. -/
def execLdgQ (k : BitVec 11) (a : BitVec 6) (d : BitVec 6) (s : State) : Host.Outcome State Fault Refusal :=
  withIssue (.ldgQ k a d) s (loadRun true false 16 k a d)

/-- LDS_H, R278. Loads a scratch halfword zero-extended into d. -/
def execLdsH (k : BitVec 11) (a : BitVec 6) (d : BitVec 6) (s : State) : Host.Outcome State Fault Refusal :=
  withIssue (.ldsH k a d) s (loadRun false false 2 k a d)

/-- LDS_W, R278. Loads a scratch word into d. -/
def execLdsW (k : BitVec 11) (a : BitVec 6) (d : BitVec 6) (s : State) : Host.Outcome State Fault Refusal :=
  withIssue (.ldsW k a d) s (loadRun false false 4 k a d)

/-- LDS_D, R278. Loads a scratch doubleword into pair d. -/
def execLdsD (k : BitVec 11) (a : BitVec 6) (d : BitVec 6) (s : State) : Host.Outcome State Fault Refusal :=
  withIssue (.ldsD k a d) s (loadRun false false 8 k a d)

/-- LDS_Q, R278. Loads 16 scratch bytes into quad d. -/
def execLdsQ (k : BitVec 11) (a : BitVec 6) (d : BitVec 6) (s : State) : Host.Outcome State Fault Refusal :=
  withIssue (.ldsQ k a d) s (loadRun false false 16 k a d)

/-- STG_B, R279. Stores d[7:0] to global memory in guarded threads. -/
def execStgB (k : BitVec 4) (n : BitVec 1) (g : BitVec 6) (a : BitVec 6) (d : BitVec 6) (s : State) : Host.Outcome State Fault Refusal :=
  withIssue (.stgB k n g a d) s (storeRun true 1 k n g a d)

/-- STG_H, R279. Stores d[15:0] to global memory. -/
def execStgH (k : BitVec 4) (n : BitVec 1) (g : BitVec 6) (a : BitVec 6) (d : BitVec 6) (s : State) : Host.Outcome State Fault Refusal :=
  withIssue (.stgH k n g a d) s (storeRun true 2 k n g a d)

/-- STG_W, R279. Stores word d to global memory. -/
def execStgW (k : BitVec 4) (n : BitVec 1) (g : BitVec 6) (a : BitVec 6) (d : BitVec 6) (s : State) : Host.Outcome State Fault Refusal :=
  withIssue (.stgW k n g a d) s (storeRun true 4 k n g a d)

/-- STG_D, R279. Stores pair d to global memory. -/
def execStgD (k : BitVec 4) (n : BitVec 1) (g : BitVec 6) (a : BitVec 6) (d : BitVec 6) (s : State) : Host.Outcome State Fault Refusal :=
  withIssue (.stgD k n g a d) s (storeRun true 8 k n g a d)

/-- STG_Q, R279. Stores quad d to global memory. -/
def execStgQ (k : BitVec 4) (n : BitVec 1) (g : BitVec 6) (a : BitVec 6) (d : BitVec 6) (s : State) : Host.Outcome State Fault Refusal :=
  withIssue (.stgQ k n g a d) s (storeRun true 16 k n g a d)

/-- STS_H, R279. Stores d[15:0] to scratch. -/
def execStsH (k : BitVec 4) (n : BitVec 1) (g : BitVec 6) (a : BitVec 6) (d : BitVec 6) (s : State) : Host.Outcome State Fault Refusal :=
  withIssue (.stsH k n g a d) s (storeRun false 2 k n g a d)

/-- STS_W, R279. Stores word d to scratch. -/
def execStsW (k : BitVec 4) (n : BitVec 1) (g : BitVec 6) (a : BitVec 6) (d : BitVec 6) (s : State) : Host.Outcome State Fault Refusal :=
  withIssue (.stsW k n g a d) s (storeRun false 4 k n g a d)

/-- STS_D, R279. Stores pair d to scratch. -/
def execStsD (k : BitVec 4) (n : BitVec 1) (g : BitVec 6) (a : BitVec 6) (d : BitVec 6) (s : State) : Host.Outcome State Fault Refusal :=
  withIssue (.stsD k n g a d) s (storeRun false 8 k n g a d)

/-- STS_Q, R279. Stores quad d to scratch. -/
def execStsQ (k : BitVec 4) (n : BitVec 1) (g : BitVec 6) (a : BitVec 6) (d : BitVec 6) (s : State) : Host.Outcome State Fault Refusal :=
  withIssue (.stsQ k n g a d) s (storeRun false 16 k n g a d)

/-- AADD, R280. Atomically adds d to the word and returns the old value. -/
def execAadd (k : BitVec 4) (n : BitVec 1) (g : BitVec 6) (a : BitVec 6) (d : BitVec 6) (s : State) : Host.Outcome State Fault Refusal :=
  withIssue (.aadd k n g a d) s (atomicRun 20 k n g a d)

/-- AMIN, R280. Atomic signed minimum, returning the old value. -/
def execAmin (k : BitVec 4) (n : BitVec 1) (g : BitVec 6) (a : BitVec 6) (d : BitVec 6) (s : State) : Host.Outcome State Fault Refusal :=
  withIssue (.amin k n g a d) s (atomicRun 21 k n g a d)

/-- AMAX, R280. Atomic signed maximum, returning the old value. -/
def execAmax (k : BitVec 4) (n : BitVec 1) (g : BitVec 6) (a : BitVec 6) (d : BitVec 6) (s : State) : Host.Outcome State Fault Refusal :=
  withIssue (.amax k n g a d) s (atomicRun 22 k n g a d)

/-- AAND, R280. Atomic AND, returning the old value. -/
def execAand (k : BitVec 4) (n : BitVec 1) (g : BitVec 6) (a : BitVec 6) (d : BitVec 6) (s : State) : Host.Outcome State Fault Refusal :=
  withIssue (.aand k n g a d) s (atomicRun 23 k n g a d)

/-- AOR, R280. Atomic OR, returning the old value. -/
def execAor (k : BitVec 4) (n : BitVec 1) (g : BitVec 6) (a : BitVec 6) (d : BitVec 6) (s : State) : Host.Outcome State Fault Refusal :=
  withIssue (.aor k n g a d) s (atomicRun 24 k n g a d)

/-- AXOR, R280. Atomic XOR, returning the old value. -/
def execAxor (k : BitVec 4) (n : BitVec 1) (g : BitVec 6) (a : BitVec 6) (d : BitVec 6) (s : State) : Host.Outcome State Fault Refusal :=
  withIssue (.axor k n g a d) s (atomicRun 25 k n g a d)

/-- AXCH, R280. Atomic exchange of a word, returning the old value. -/
def execAxch (k : BitVec 4) (n : BitVec 1) (g : BitVec 6) (a : BitVec 6) (d : BitVec 6) (s : State) : Host.Outcome State Fault Refusal :=
  withIssue (.axch k n g a d) s (atomicRun 26 k n g a d)

/-- ACAS, R280. Atomic compare-and-swap of a word with new in d and compare in d+1. -/
def execAcas (k : BitVec 4) (n : BitVec 1) (g : BitVec 6) (a : BitVec 6) (d : BitVec 6) (s : State) : Host.Outcome State Fault Refusal :=
  withIssue (.acas k n g a d) s (atomicRun 27 k n g a d)

/-- AFADD, R282. Atomic FP32 add rounded RNE, returning the old value. -/
def execAfadd (k : BitVec 4) (n : BitVec 1) (g : BitVec 6) (a : BitVec 6) (d : BitVec 6) (s : State) : Host.Outcome State Fault Refusal :=
  withIssue (.afadd k n g a d) s (atomicRun 28 k n g a d)

/-- ACAS_D, R280. Atomic 64-bit compare-and-swap with new in pair d and compare in pair d+2. -/
def execAcasD (k : BitVec 4) (n : BitVec 1) (g : BitVec 6) (a : BitVec 6) (d : BitVec 6) (s : State) : Host.Outcome State Fault Refusal :=
  withIssue (.acasD k n g a d) s (atomicRun 30 k n g a d)

/-- AXCH_D, R280. Atomic 64-bit exchange, returning the old value. -/
def execAxchD (k : BitVec 4) (n : BitVec 1) (g : BitVec 6) (a : BitVec 6) (d : BitVec 6) (s : State) : Host.Outcome State Fault Refusal :=
  withIssue (.axchD k n g a d) s (atomicRun 31 k n g a d)

/-- DRED, R283. Appends one deterministic reduction entry per guarded lane to the basket. -/
def execDred (k : BitVec 4) (n : BitVec 1) (g : BitVec 6) (a : BitVec 6) (d : BitVec 6) (s : State) : Host.Outcome State Fault Refusal :=
  withIssue (.dred k n g a d) s (dredRun k n g a d)

/-- STMAP, R287. Maps a run of team blocks as a stash window onto a global range. -/
def execStmap (i : BitVec 10) (a : BitVec 6) (d : BitVec 6) (s : State) : Host.Outcome State Fault Refusal :=
  withIssue (.stmap i a d) s (stmapRun i a d)

/-- STFLUSH, R288. Writes back and unmaps the stash window holding the address. -/
def execStflush (a : BitVec 6) (s : State) : Host.Outcome State Fault Refusal :=
  withIssue (.stflush a) s (stflushRun a)

end Sys2Proof.Machine
end

