-- ==== Sys2Proof/Machine/Control.lean ====
section
/-! DEFINITION. The meanings of the branches (spec/15_isa_control_sync.md R292, R293), and what an exit does to the
barriers of a team (R297, R298) and to a handler instance (spec/10_traps_reliability.md R183). -/

namespace Sys2Proof.Machine

/-! ## Arrivals at team barriers (R298) -/

/-- R298. A group has arrived when every one of its threads that has not exited has come; an all-exited group has not. -/
def Barrier.reached (b : Barrier) (g : Group) : Bool :=
  !g.allExited && (List.range g.threads.length).all fun t => (g.thread t).isExited || b.came.contains (g.key.idx, t)

/-- The arrivals of a phase after a thread has come or exited. -/
def refreshBarrier (gs : List Group) (b : Barrier) : Barrier :=
  match b.bits with
  | none => b
  | some bits =>
    { b with arrived := b.arrived ++ ((gs.filter fun g =>
        g.inMask bits && b.reached g && !b.arrived.contains g.key.idx).map fun g => g.key.idx) }

/-- R298. The arrivals of every barrier of a team. -/
def State.refreshArrivals (s : State) (k : TKey) : State :=
  let gs := s.lanes k
  s.modTeam k fun t => { t with barriers := t.barriers.map (refreshBarrier gs) }

/-! ## Exits -/

/-- R183, R187. The end of a handler instance: the trap is fatal if its group is still stopped by it. -/
def State.endHandler (s : State) (gr : Group) : State :=
  let s1 := { s with groups := s.groups.filter fun g => g.key != gr.key }
  match gr.handler with
  | none => s1
  | some h =>
    if h.holds && (s1.groups.any fun g => g.key == h.trap.group && g.stop) then s1.fatal gr.key.ctx h.trap else s1

/-- What follows an exit of threads of a group. -/
def State.afterExit (s : State) (g : Nat) : State :=
  match s.groups[g]? with
  | none => s
  | some gr =>
    match gr.key.kind with
    | .handler => if gr.allExited then s.endHandler gr else s
    | .control => (s.modTeam (gkeyTeam gr.key) fun t => { t with control := !gr.allExited }).settle
    | .lanes => (s.refreshArrivals (gkeyTeam gr.key)).settle

/-! ## Branches -/

/-- R204. A PC with bit 0 cleared. -/
def evenPc (w : Word) : Word := w &&& 0xFFFFFFFE

/-- A branch: the threads whose guard is true take `taken`, the others go to PC + 4. `regs` are the registers that a
taken thread reads, and `fs` the fields that are checked. -/
def branchRun (n : BitVec 1) (g : BitVec 6) (fs : List Field) (taken : Act → Thread → Thread) (a : Act) (gr : Group)
    (s : State) : State :=
  match guardChecks a gr s n g (regF g :: fs) with
  | some s' => s'
  | none =>
    let who := guarded gr n g a.set
    let s1 := s.raisePoison a.g gr who fun t => inThread t (ownReads (regF g :: fs))
    (who.foldl (fun s t => s.modThread a.g t fun th => taken a (th.goOn th.pc)) s1).goAll a.g (others a.set who) a.next

/-- BRA, R292. Taken threads move to PC + 2 times sext(off18). -/
def execBra (k : BitVec 18) (n : BitVec 1) (g : BitVec 6) (s : State) : Host.Outcome State Fault Refusal :=
  withIssue (.bra k n g) s
    (branchRun n g [] fun a th => { th with pc := a.pc + (2 : Word) * k.signExtend 32 })

/-- CALL, R292. Taken threads write lk = PC + 4 and branch relative. -/
def execCall (k : BitVec 18) (n : BitVec 1) (g : BitVec 6) (s : State) : Host.Outcome State Fault Refusal :=
  withIssue (.call k n g) s
    (branchRun n g [outF 59] fun a th => { th.setReg 59 (a.pc + 4) with pc := a.pc + (2 : Word) * k.signExtend 32 })

/-- BRX, R292. Taken threads jump to the PC held in the named register. -/
def execBrx (r : BitVec 6) (n : BitVec 1) (g : BitVec 6) (s : State) : Host.Outcome State Fault Refusal :=
  withIssue (.brx r n g) s (branchRun n g [regF r] fun _ th => { th with pc := evenPc (th.reg r.toNat) })

/-- RET, R292. Taken threads jump to lk. -/
def execRet (n : BitVec 1) (g : BitVec 6) (s : State) : Host.Outcome State Fault Refusal :=
  withIssue (.ret n g) s (branchRun n g [regF 59] fun _ th => { th with pc := evenPc (th.reg 59) })

/-- EXIT, R292. Threads with a true guard exit. -/
def execExit (n : BitVec 1) (g : BitVec 6) (s : State) : Host.Outcome State Fault Refusal :=
  withIssue (.exit n g) s fun a gr s =>
    match guardChecks a gr s n g [regF g] with
    | some s' => s'
    | none =>
      let s1 := branchRun n g [] (fun _ th => { th with state := .exited }) a gr s
      if (guarded gr n g a.set).isEmpty then s1 else s1.afterExit a.g

/-- BRK, R293. Traps BREAK with detail 0 where some thread's guard is true; the others go on. -/
def execBrk (n : BitVec 1) (g : BitVec 6) (s : State) : Host.Outcome State Fault Refusal :=
  withIssue (.brk n g) s fun a gr s =>
    match guardChecks a gr s n g [regF g] with
    | some s' => s'
    | none =>
      match guarded gr n g a.set with
      | [] => s.goAll a.g a.set a.next
      | t :: ts => (s.goAll a.g (others a.set (t :: ts)) a.next).takeTrap a.g (t :: ts) t tBreak 0

end Sys2Proof.Machine
end

