-- ==== Sys2Proof/Machine/Sync.lean ====
section
/-! DEFINITION. The meanings of the waiting instructions: barriers, WAITC, WAITW, cairns, mailboxes, queues, YIELD and
NAP (spec/15_isa_control_sync.md R294 to R308). -/

namespace Sys2Proof.Machine

/-! ## The frame of a system instruction -/

/-- Steps 1 and 2 of Table 11.20 for a system instruction: `ill` for step 1, then the fields. A state that has trapped, or
none. -/
def sysFields (ill : Bool) (fs : List Field) (a : Act) (gr : Group) (s : State) : Option State :=
  if ill then some (a.illegal s) else (fieldsFault gr.budget fs).map fun r => a.trap s a.lead tIllegalReg r

/-- Steps 1, 2 and 4 of Table 11.20: also the registers in the threads `who` that act. -/
def sysChecks (ill : Bool) (fs : List Field) (who : List Nat) (a : Act) (gr : Group) (s : State) : Option State :=
  match sysFields ill fs a gr s with
  | some s' => some s'
  | none => (firstPending gr (fun t => inThread t (ownRegs fs)) who).map fun p =>
      a.trap s p.1 tUnwaited (BitVec.ofNat 32 p.2)

/-- A system instruction of which each thread of the set acts: its checks, PZ for what it reads, then its effect. -/
def sysRun (ill : Group → State → Bool) (fs : List Field) (f : Act → Group → State → State) (a : Act) (gr : Group)
    (s : State) : State :=
  match sysChecks (ill gr s) fs a.set a gr s with
  | some s' => s'
  | none => f a gr (s.raisePoison a.g gr a.set fun t => inThread t (ownReads fs))

/-- A system instruction whose effect makes the checks of step 4 and later itself, thread by thread (R179), and raises PZ
where it retires (R168). -/
def sysBare (ill : Group → State → Bool) (fs : List Field) (f : Act → Group → State → State) (a : Act) (gr : Group)
    (s : State) : State :=
  match sysFields (ill gr s) fs a gr s with
  | some s' => s'
  | none => f a gr s

/-- What a thread meets at a system instruction: a pending register, then what the instruction itself checks. -/
def sysChk (gr : Group) (fs : List Field) (f : Nat → Chk) (t : Nat) : Chk := (pendChk gr (inThread t (ownRegs fs))).and (f t)

/-- PZ of a thread that has read some fields. -/
def sysPoison (gr : Group) (fs : List Field) (t : Nat) : Flags := poisonFlag gr (inThread t (ownReads fs))

/-- A system instruction that acts once, through the lowest-L thread (R291). -/
def onceRun (ill : Group → State → Bool) (fs : List Field) (f : Act → Group → State → State) (a : Act) (gr : Group)
    (s : State) : State :=
  match sysChecks (ill gr s) fs [a.lead] a gr s with
  | some s' => s'
  | none => f a gr (s.raisePoison a.g gr [a.lead] fun t => inThread t (ownReads fs))

def legal (_ : Group) (_ : State) : Bool := false
def notLanes (gr : Group) (_ : State) : Bool := gr.key.kind != .lanes
def inHandler (gr : Group) (_ : State) : Bool := gr.key.kind == .handler
def outsideHandler (gr : Group) (_ : State) : Bool := gr.key.kind != .handler

/-- A thread's update, then on to the next instruction. -/
def Act.each (a : Act) (s : State) (f : Nat → Thread → Thread) : State :=
  a.set.foldl (fun s t => s.modThread a.g t fun th => (f t th).goOn a.next) s

/-- NOP, R291. Does nothing. -/
def execNop (s : State) : Host.Outcome State Fault Refusal :=
  withIssue .nop s (sysRun legal [] fun a _ s => a.each s fun _ th => th)

/-! ## Barriers -/

/-- BARG, R297. Blocks each thread until every non-exited thread of the group has issued BARG. -/
def execBarg (s : State) : Host.Outcome State Fault Refusal :=
  withIssue .barg s (sysRun notLanes [] fun a _ s => (s.blockAll a.g a.set .barg).settle)

/-- R298. A BART or BARARV that does not arrive: its bits differ from the open phase's, or its group takes no part. -/
def barrierIllegal (i : BitVec 8) (gr : Group) (s : State) : Bool :=
  let bits := i.extractLsb' 4 4
  let open' := ((s.team? (gkeyTeam gr.key)).bind fun t => (t.barriers.getD (i.toNat % 16) {}).bits).getD bits
  notLanes gr s || open' != bits || !gr.inMask bits

/-- R298, R300. Threads come to a barrier, and record its phase.
Log entry 27 (DEDUCED). -/
def State.come (s : State) (a : Act) (gr : Group) (id : Nat) (bits : BitVec 4) : State :=
  let phase := ((s.team? (gkeyTeam gr.key)).map fun t => (t.barriers.getD id {}).phase).getD 0
  let made := fun (l : Word) => ((s.node? gr.key.ctx gr.key.node).map fun n => n.dredSeq l).getD 0
  let marks := a.set.map fun u => (gr.l u, made (gr.l u))
  let s1 := s.modTeam (gkeyTeam gr.key) fun t => { t with barriers := t.barriers.modify id fun b =>
    { b with bits := some (b.bits.getD bits), came := b.came ++ a.set.map fun u => (gr.key.idx, u), marks := b.marks ++ marks } }
  let s2 := a.set.foldl (fun s t => s.modThread a.g t fun th => { th with phases := th.phases.set id (some phase) }) s1
  s2.refreshArrivals (gkeyTeam gr.key)

/-- BART, R300. Arrives at a team barrier and waits for the phase to complete. -/
def execBart (i : BitVec 8) (s : State) : Host.Outcome State Fault Refusal :=
  withIssue (.bart i) s (sysRun (barrierIllegal i) [] fun a gr s =>
    let phase := ((s.team? (gkeyTeam gr.key)).map fun t => (t.barriers.getD (i.toNat % 16) {}).phase).getD 0
    (s.come a gr (i.toNat % 16) (i.extractLsb' 4 4)).blockAll a.g a.set (.bart (i.toNat % 16) phase))

/-- BARARV, R300. Arrives at a team barrier and records the phase without blocking. -/
def execBararv (i : BitVec 8) (s : State) : Host.Outcome State Fault Refusal :=
  withIssue (.bararv i) s (sysRun (barrierIllegal i) [] fun a gr s =>
    (s.come a gr (i.toNat % 16) (i.extractLsb' 4 4)).goAll a.g a.set a.next)

/-- BARWT, R300. Blocks until the thread's recorded phase of the barrier has completed. -/
def execBarwt (i : BitVec 4) (s : State) : Host.Outcome State Fault Refusal :=
  withIssue (.barwt i) s (sysRun notLanes [] fun a gr s =>
    let phase := ((s.team? (gkeyTeam gr.key)).map fun t => (t.barriers.getD i.toNat {}).phase).getD 0
    a.set.foldl (fun s t =>
      if (gr.thread t).phases.getD i.toNat none = some phase then
        s.modThread a.g t fun th => th.block (.barwt i.toNat phase)
      else s.modThread a.g t fun th => th.goOn a.next) s)

/-! ## WAITC, WAITW -/

/-- WAITC, R294. Blocks each thread until its outstanding counts are within the limits. -/
def execWaitc (i : BitVec 10) (s : State) : Host.Outcome State Fault Refusal :=
  withIssue (.waitc i) s (sysRun legal [] fun a _ s =>
    let l := (i.extractLsb' 0 3).toNat
    let st := (i.extractLsb' 3 3).toNat
    let c := (i.extractLsb' 6 2).toNat
    let t := (i.extractLsb' 8 2).toNat
    a.set.foldl (fun s u => s.modThread a.g u fun th =>
      if th.waitcHolds l st c t then (th.cover l).goOn a.next else th.block (.waitc l st c t)) s)

/-- R139, R295. The word that a WAITW reads, where the owner state permits it. -/
def State.waitWord (s : State) (k : GKey) (x : Target) : Option Word :=
  let ls := s.places k x false
  if s.mayPerform k false ls then some (BitVec.ofNat 32 (bytesNat (s.readPlaces (gkeyTeam k) ls))) else none

/-- A WAITW retires as a load of the new value, if the word differs. -/
def State.waitwTry (s : State) (g t : Nat) (k : GKey) (d : Nat) (x : Nat) (cmp : Word) (next : Word) : Option State :=
  let tgt : Target := { glob := true, addr := x, size := 4, align := 4 }
  match s.waitWord k tgt with
  | some v =>
    if v = cmp then none
    else some ((s.touchPlaces (gkeyTeam k) (s.places k tgt false)).modThread g t fun th => (th.setReg d v).goOn next)
  | none => none

/-- R193. Whether a WAITW at its issue would deliver a poisoned word to a thread. -/
def State.waitwPoisoned (s : State) (gr : Group) (x : Nat → Nat) (d t : Nat) : Bool :=
  (gr.thread t).tainted
    && (s.waitWord gr.key { glob := true, addr := x t, size := 4, align := 4 }).any fun v => v != (gr.thread t).reg d

/-- WAITW, R295. Blocks until a global word differs from d, then writes it to d. Where the owner state of the word's block
refuses a load, the thread waits on that (R140), and the instruction retires as a whole after it. Poisoned data that it would
deliver is a machine check (R193). -/
def execWaitw (a : BitVec 6) (d : BitVec 6) (s : State) : Host.Outcome State Fault Refusal :=
  withIssue (.waitw a d) s (sysBare legal [regF a 2, updF d] fun act gr s =>
    let fs := [regF a 2, updF d]
    let x := fun t => ((gr.thread t).pair a.toNat).toNat
    let tgt := fun t => ({ glob := true, addr := x t, size := 4, align := 4 } : Target)
    let r := act.rounds s act.set (sysChk gr fs fun t => s.lowCheck gr.key false (tgt t)) (fun _ => .ok (.scr 0))
    if !r.2 then r.1
    else match act.set.find? (s.waitwPoisoned gr x d.toNat) with
    | some t => s.machineCheck act.g t 3
    | none => act.set.foldl (fun s t =>
      let cmp := (gr.thread t).reg d.toNat
      let pz := sysPoison gr fs t
      if s.mayPerform gr.key false (s.places gr.key (tgt t) false) then
        match s.waitwTry act.g t gr.key d.toNat (x t) cmp act.next with
        | some s' => s'.raise act.g t pz
        | none => s.modThread act.g t fun th => { th.block (.waitw act.instr d.toNat (BitVec.ofNat 64 (x t)) cmp) with owed := pz }
      else s.waitOwner act.g t { (tgt t).waiting true act.next with retry := some act.instr } pz) s)

/-! ## Cairns (R296) -/

/-- The check of the cairn address in a register of a thread. -/
def State.cairnChk (s : State) (gr : Group) (a t : Nat) : Chk :=
  match s.cairnCheck (gkeyTeam gr.key) ((gr.thread t).reg a).toNat with
  | some f => .fault f.1 f.2
  | none => .ok (.scr 0)

/-- SWAIT, R296. Blocks until a cairn's GEN differs from d, writing it, or traps on ERR; a poisoned cairn is a machine check at
its end (R193). -/
def execSwait (a : BitVec 6) (d : BitVec 6) (s : State) : Host.Outcome State Fault Refusal :=
  withIssue (.swait a d) s (sysBare legal [regF a, updF d] fun act gr s =>
    let fs := [regF a, updF d]
    match firstBad (sysChk gr fs (s.cairnChk gr a.toNat)) act.set with
    | some b => act.stopAt s act.set b.1 b.2
    | none =>
      let m := s.scratch (gkeyTeam gr.key)
      let x := fun t => ((gr.thread t).reg a.toNat).toNat
      let gen := fun t => BitVec.ofNat 32 (cairnWord m (x t) 2)
      let ends := fun t => cairnErr m (x t) || gen t != (gr.thread t).reg d.toNat
      match act.set.find? fun t => (gr.thread t).tainted && ends t, act.set.find? fun t => cairnErr m (x t) with
      | some t, _ => s.machineCheck act.g t 3
      | none, some t => let e := cairnTrap m (x t); act.trap s t e.1 e.2
      | none, none =>
        act.set.foldl (fun s t =>
          let cmp := (gr.thread t).reg d.toNat
          let pz := sysPoison gr fs t
          if gen t = cmp then
            s.modThread act.g t fun th => { th.block (.swait d.toNat (BitVec.ofNat 32 (x t)) cmp) with owed := pz }
          else (s.raise act.g t pz).modThread act.g t fun th => (th.setReg d.toNat (gen t)).goOn act.next) s)

/-- SYNCSET, R296. Sets a cairn's TARGET and clears COUNT and FLAGS. -/
def execSyncset (a : BitVec 6) (d : BitVec 6) (s : State) : Host.Outcome State Fault Refusal :=
  withIssue (.syncset a d) s (sysBare legal [regF a, regF d] fun act gr s =>
    match firstBad (sysChk gr [regF a, regF d] (s.cairnChk gr a.toNat)) act.set with
    | some b => act.stopAt s act.set b.1 b.2
    | none =>
      let k := gkeyTeam gr.key
      let s := act.set.foldl (fun s t => s.raise act.g t (sysPoison gr [regF a, regF d] t)) s
      (act.set.foldl (fun s t =>
        let x := (gr.thread t).reg a.toNat
        (s.modScratch k fun m => cairnSet m x.toNat ((gr.thread t).reg d.toNat).toNat).nameCairn k x) s).goAll act.g act.set act.next)

/-! ## Mailboxes (R302) -/

/-- MBR, R302. Takes the oldest word of mailbox k, blocking while it is empty. -/
def execMbr (k : BitVec 3) (d : BitVec 6) (s : State) : Host.Outcome State Fault Refusal :=
  withIssue (.mbr k d) s (sysRun legal [outF d] fun a gr s =>
    (a.set.foldl (fun s t =>
      match (s.core gr.core).mailbox gr.key.ctx k.toNat with
      | v :: rest =>
        (s.modCore gr.core fun x => x.setMailbox gr.key.ctx k.toNat rest).modThread a.g t fun th =>
          (th.setReg d.toNat v).goOn a.next
      | [] => s.modThread a.g t fun th => th.block (.mbr d.toNat k.toNat)) s).settle)

/-- MBW, R302. Appends a to mailbox k, blocking while it is full. -/
def execMbw (k : BitVec 3) (a : BitVec 6) (s : State) : Host.Outcome State Fault Refusal :=
  withIssue (.mbw k a) s (sysBare legal [srcF a] fun act gr s =>
    match firstBad (sysChk gr [srcF a] fun _ => .ok (.scr 0)) act.set with
    | some b => act.stopAt s act.set b.1 b.2
    | none =>
      let wait := if a = 61 then starved gr act.set else []
      let s1 := s.blockAll act.g wait (.qr act.instr)
      ((others act.set wait).foldl (fun s t =>
        let v := (gr.thread t).reg a.toNat
        let pz := sysPoison gr [srcF a] t
        let s2 := if a = 61 then s.takeWord act.g t gr.key else s
        let box := (s2.core gr.core).mailbox gr.key.ctx k.toNat
        if box.length < 8 then
          ((s2.modCore gr.core fun x => x.setMailbox gr.key.ctx k.toNat (box ++ [v])).raise act.g t pz).modThread act.g t
            fun th => th.goOn act.next
        else s2.modThread act.g t fun th => { th.block (.mbw k.toNat v) with owed := pz }) s1).settle)

/-! ## Queues (R303, R307) -/

/-- QROUTE, R303. Sets the thread's message route from pair a. -/
def execQroute (a : BitVec 6) (s : State) : Host.Outcome State Fault Refusal :=
  withIssue (.qroute a) s (sysRun legal [regF a 2] fun act gr s =>
    act.each s fun t th => { th with route := some (loWord ((gr.thread t).pair a.toNat), hiWord ((gr.thread t).pair a.toNat)) })

/-- R307. The statistics of a thread's queue and route. -/
def State.qstat (s : State) (gr : Group) (t code : Nat) : Word :=
  let th := gr.thread t
  match code with
  | 0 => BitVec.ofNat 32 (min th.queue.length 0xFFFFFFFF)
  | 1 => match th.dest gr.key, s.team? (gkeyTeam gr.key) with
    | some d, some tm => BitVec.ofNat 32 ((s.ctx gr.key.ctx).qwin - tm.inFlight d.1 (d.2.toNat / 4096))
    | _, _ => 0
  | 2 => (th.route.map Prod.fst).getD 0
  | _ => (th.route.map Prod.snd).getD 0

/-- QSTAT, R307. Writes a queue or route statistic selected by the code. -/
def execQstat (i : BitVec 10) (d : BitVec 6) (s : State) : Host.Outcome State Fault Refusal :=
  withIssue (.qstat i d) s (sysRun legal [outF d] fun a gr s =>
    a.each s fun t th => th.setReg d.toNat (s.qstat gr t i.toNat))

/-! ## YIELD, NAP (R308) -/

/-- YIELD, R308. Stops the group after retiring if its yield request is set. -/
def execYield (s : State) : Host.Outcome State Fault Refusal :=
  withIssue .yield s (sysRun legal [] fun a gr s =>
    let s1 := s.goAll a.g a.set a.next
    if gr.yieldReq then s1.modGroup a.g fun g => { g with stop := true, yielded := true } else s1)

/-- NAP, R308. Blocks each thread for k times 16 resident cycles. -/
def execNap (i : BitVec 10) (s : State) : Host.Outcome State Fault Refusal :=
  withIssue (.nap i) s (sysRun legal [] fun a _ s =>
    if i = 0 then s.goAll a.g a.set a.next else s.blockAll a.g a.set (.nap (16 * i.toNat)))

end Sys2Proof.Machine
end

