-- ==== Sys2Proof/Machine/System.lean ====
section
/-! DEFINITION. The meanings of the other system instructions: register budgets (spec/07_execution_model.md R122,
R123), identity and context registers (spec/11_isa_encoding.md R229 to R231), votes, flags, TRAP, LAUNCH, fences, trace
and counters (spec/15_isa_control_sync.md R309 to R316), and TBLLD (spec/13_isa_rows_special.md R271). -/

namespace Sys2Proof.Machine

open Host (Cell)

/-! ## Register budgets (R122, R123) -/

/-- R109, R128. Registers of a lane of a core that groups hold, until their team retires. -/
def State.laneUse (s : State) (core lane : Nat) : Nat :=
  (s.groups.map fun g =>
    if g.key.kind == .lanes && g.core == core && s.active { g with stop := false } && decide (g.base ≤ lane)
        && decide (lane < g.base + g.w) then g.budget else 0).sum

/-- R122. Whether every lane of a group's window has room for a budget. -/
def State.growRoom (s : State) (gr : Group) (n : Nat) : Bool :=
  (List.range gr.w).all fun i => decide (s.laneUse gr.core (gr.base + i) + (n - gr.budget) ≤ 1024)

/-- Registers from b up read as zero and lose their marks. -/
def Thread.clearFrom (b : Nat) (th : Thread) : Thread :=
  { th with
    regs := th.regs.mapIdx fun i v => if b ≤ i then 0 else v
    pend := th.pend.mapIdx fun i v => if b ≤ i then false else v
    pois := th.pois.mapIdx fun i v => if b ≤ i then false else v }

/-- The budget of a granted REGGROW: the new registers of every thread read as zero. A budget that is large enough stays. -/
def Group.grow (gr : Group) (n : Nat) : Group :=
  if n ≤ gr.budget then gr else { gr with budget := n, threads := gr.threads.map (Thread.clearFrom gr.budget) }

/-- The threads that wait at a REGGROW to n, in one of which `w` is its .w modifier. -/
def growWait (n : Nat) (th : Thread) : Option (Nat × Bool) :=
  match th.state with
  | .blocked (.reggrow d m w) => if m = n then some (d, w) else none
  | _ => none

/-- Threads that wait at a REGGROW to n receive a status and retire. -/
def Group.endGrow (gr : Group) (n : Nat) (status : Word) : Group :=
  let f := fun (th : Thread) => match growWait n th with
    | some p => (th.setReg p.1 status).goOn (pcAfter th.pc 4)
    | none => th
  { gr with threads := gr.threads.map f }

/-- The budgets that the threads of a group ask for, with the issue cycle of each. -/
def Group.asks (gr : Group) : List (Nat × Nat) :=
  gr.threads.filterMap fun th => match th.state with
    | .blocked (.reggrow _ n _) => some (n, th.issued)
    | _ => none

/-- REGGROW and REGSHRINK: steps 2, 3 and 4 of Table 11.20. -/
def budgetChecks (n d : BitVec 6) (a : Act) (gr : Group) (s : State) : Option State :=
  match fieldsFault gr.budget [outF d] with
  | some r => some (a.trap s a.lead tIllegalReg r)
  | none =>
    if n.toNat % 4 ≠ 0 ∨ n.toNat < 8 ∨ 60 < n.toNat then some (a.illegal s)
    else (firstPending gr (fun t => inThread t (regSpan d.toNat 1)) a.set).map fun p =>
      a.trap s p.1 tUnwaited (BitVec.ofNat 32 p.2)

/-- R122. The pending REGGROWs that can be granted: group, budget, issue cycle. -/
def State.growable (s : State) : List (Nat × Group × Nat × Nat) :=
  s.groups.zipIdx.flatMap fun p =>
    if s.active p.1 then (p.1.asks.filter fun q => s.growRoom p.1 q.1).map fun q => (p.2, p.1, q.1, q.2) else []

/-- Order of R122: the issue cycle, then L. -/
def growOrder (x : Nat × Group × Nat × Nat) : Nat := x.2.2.2 * 2 ^ 32 + (x.2.1.l 0).toNat

/-- R122. One pending REGGROW granted. -/
def State.grantOne (s : State) (g n : Nat) : State := s.modGroup g fun x => (x.grow n).endGrow n 1

/-- R122. Every pending REGGROW that can be granted is granted, in the order of their issue cycles. -/
def State.growN : Nat → State → State
  | 0, s => s
  | n + 1, s => match leastBy? growOrder s.growable with
    | some x => (s.grantOne x.1 x.2.2.1).growN n
    | none => s

/-- Requests of the machine that are pending. -/
def State.askCount (s : State) : Nat := (s.groups.map fun g => g.asks.length).sum

def State.growAll (s : State) : State := State.growN s.askCount s

/-- REGGROW, R122. Requests a larger register budget for the group, blocking until granted or failed. -/
def execReggrow (w : BitVec 1) (n : BitVec 6) (d : BitVec 6) (s : State) : Host.Outcome State Fault Refusal :=
  withIssue (.reggrow w n d) s fun a gr s =>
    match budgetChecks n d a gr s with
    | some s' => s'
    | none =>
      if n.toNat ≤ gr.budget then a.each s fun _ th => th.setReg d.toNat 1
      else (s.blockAll a.g a.set (.reggrow d.toNat n.toNat (w == 1))).growAll

/-- The lowest released register that is pending in some thread. -/
def Group.lostPending (gr : Group) (n : Nat) : Option Nat :=
  (List.range (gr.budget - n)).findSome? fun i =>
    if gr.threads.any fun th => th.isPend (n + i) then some (n + i) else none

/-- REGSHRINK, R122. Reduces the group's register budget, releasing registers. -/
def execRegshrink (n : BitVec 6) (d : BitVec 6) (s : State) : Host.Outcome State Fault Refusal :=
  withIssue (.regshrink n d) s fun a gr s =>
    match budgetChecks n d a gr s with
    | some s' => s'
    | none =>
      match gr.lostPending n.toNat with
      | some r => a.trap s a.lead tUnwaited (BitVec.ofNat 32 r)
      | none =>
        let s1 := a.each s fun _ th => th.setReg d.toNat 1
        if n.toNat < gr.budget then
          s1.modGroup a.g fun x => { x with budget := n.toNat, threads := x.threads.map (Thread.clearFrom n.toNat) }
        else s1

/-- REGGROW_GRANT, R122. Enough registers are free on every lane of the window of a group, so its pending REGGROW is
granted, and with it, in the order of their issue cycles, every other one that can be. -/
def execReggrowGrant (g : GKey) (s : State) : Host.Outcome State Fault Refusal :=
  event (if s.growable.any fun x => x.2.1.key == g then s.growAll else s)

/-- R128. Every group of a team has retired, its control thread has exited, and its commands are complete. -/
def State.mayRetire (s : State) (t : Team) : Bool :=
  !t.saved && !t.control && t.controlWaits.isNone && t.commands.isEmpty
    && (s.groups.all fun g => gkeyTeam g.key != t.key || g.key.kind == .control
        || (g.key.kind == .lanes && g.allExited && !g.stop))
    && !(s.cores.any fun x => x.queue.any fun q => q.team == t.key)

/-- R128. Whether a team retires now, so that what it holds returns. -/
def State.retiring (s : State) (k : TKey) : Bool := (s.team? k).any s.mayRetire

/-- R112, R123. The groups that are resident on a half of a core and hold registers of it: those that have not retired, and
those of a team that retires now, whose registers return with it.
Log entry 30 (DEDUCED). -/
def State.halfGroups (s : State) (core half : Nat) : List (Group × Nat) :=
  s.groups.zipIdx.filter fun p =>
    p.1.key.kind == .lanes && p.1.core == core && p.1.base / 64 == half && s.active { p.1 with stop := false }
      && (!p.1.allExited || s.retiring (gkeyTeam p.1.key))

/-- R123. A pending request of a half in deadlock fails: status 0, or REG_DEADLOCK under .w. -/
def State.failGrow (s : State) (g : Nat) (gr : Group) : State :=
  match gr.asks.getLast? with
  | none => s
  | some p =>
    let set := (List.range gr.threads.length).filter fun t => (growWait p.1 (gr.thread t)).isSome
    let w := set.any fun t => ((growWait p.1 (gr.thread t)).map Prod.snd).getD false
    if w then s.trapWait g set (set.headD 0) tRegDeadlock (BitVec.ofNat 32 p.1)
    else s.modGroup g fun x => x.endGrow p.1 0

/-- R123. The failing group of a half, where a deadlock exists. -/
def State.growLoser (s : State) (core half : Nat) : Option (Group × Nat) :=
  let gs := s.halfGroups core half
  let asking := gs.filter fun p => !p.1.asks.isEmpty
  if gs.all (fun p => p.1.stateCode == 1) && asking.all fun p => p.1.asks.all fun q => !s.growRoom p.1 q.1 then
    leastBy? (fun (p : Group × Nat) => 2 ^ 80 - (((p.1.l 0).toNat * 64 + p.1.key.ctx) * 2 ^ 32 + p.1.key.node.toNat)) asking
  else none

/-- R123. The test, made again after every change.
Log entry 30 (DEDUCED). -/
def State.growTest : Nat → State → State
  | 0, s => s
  | n + 1, s =>
    match (List.range 512).findSome? fun i => s.growLoser (i / 2) (i % 2) with
    | some p => (s.failGrow p.2 p.1).growTest n
    | none => s

/-- R122, R123, after a step: what can be granted is granted, then the deadlock test is made; nothing is to do where no
thread waits at a REGGROW. -/
def State.growDeadlocks (s : State) : State :=
  if s.askCount = 0 then s else (s.growAll.growTest s.askCount).growAll

/-! ## IDENT (R229, R126) -/

/-- The launch of a group: width, groups, grid and reference of its node (Table 11.17). -/
def State.identValue (s : State) (gr : Group) (t code : Nat) : Word :=
  let k := gr.key
  let c := s.ctx k.ctx
  let n := s.node? k.ctx k.node
  let r := n.map Node.rec'
  let gx := (r.map NodeRec.gx).getD 1
  let gy := (r.map NodeRec.gy).getD 1
  let gz := (r.map NodeRec.gz).getD 1
  let word := BitVec.ofNat 32
  let ap := ((s.team? (gkeyTeam k)).map fun t => t.aperture.toNat).getD 0
  let control := k.kind == .control
  match code with
  | 0 => if control then 0 else word t
  | 1 => if control then 0xFFFFFFFF else word k.idx
  | 2 => word k.team
  | 3 => word (k.team % gx)
  | 4 => word (k.team / gx % gy)
  | 5 => word (k.team / (gx * gy))
  | 6 => word (if control then (r.map fun r => 8 * 2 ^ (r.wcode % 4)).getD 0 else gr.w)
  | 7 => word ((r.map NodeRec.groups).getD 0)
  | 8 => if control then (if (r.map NodeRec.prods).getD 0 = 0 then 1 else 0) else (if gr.producer then 0 else 1)
  | 9 => gr.l t
  | 10 => (n.map Node.index).getD 0
  | 11 => word ((n.map fun n => n.queue + 32 * k.ctx + 2048 * n.attempt).getD 0)
  | 12 => word gr.core
  | 13 => word c.party
  | 14 => word c.nparty
  | 15 => word ap
  | 16 => word (ap / 2 ^ 32)
  | 17 => word s.cycle
  | 18 => (gr.thread t).latchCycle.getD (word (s.cycle / 2 ^ 32))
  | 19 => word s.time
  | 20 => (gr.thread t).latchTime.getD (word (s.time / 2 ^ 32))
  | 21 => word (gx * gy * gz)
  | _ => 0

/-- In a handler instance, codes 0-9, 15, 16 and 21 read 0. -/
def handlerZero (code : Nat) : Bool := decide (code ≤ 9) || code == 15 || code == 16 || code == 21

/-- The latches of the 64-bit counters. -/
def State.identLatch (s : State) (code : Nat) (th : Thread) : Thread :=
  match code with
  | 17 => { th with latchCycle := some (BitVec.ofNat 32 (s.cycle / 2 ^ 32)) }
  | 18 => { th with latchCycle := none }
  | 19 => { th with latchTime := some (BitVec.ofNat 32 (s.time / 2 ^ 32)) }
  | 20 => { th with latchTime := none }
  | _ => th

/-- IDENT, R229. Writes the identity value selected by the code. -/
def execIdent (i : BitVec 10) (d : BitVec 6) (s : State) : Host.Outcome State Fault Refusal :=
  withIssue (.ident i d) s (sysRun legal [outF d] fun a gr s =>
    let zero := gr.key.kind == .handler && handlerZero i.toNat
    a.each s fun t th => (s.identLatch i.toNat th).setReg d.toNat (if zero then 0 else s.identValue gr t i.toNat))

/-! ## Context registers (R230, R231, R183, R197) -/

/-- CTX_STAGE of a node (Table 10.7). -/
def stageWord (n : Node) : Nat :=
  min n.stagedCount 0xFFFF * 65536 + n.sealCause * 256
    + (if n.state == .running then 1 else if n.sealCause = 0 then 0 else 2)

/-- CTX_TRAPINFO register 8 + k of the record being handled (R183). -/
def trapInfo (r : TrapRec) (k : Nat) : Word :=
  match k with
  | 0 => r.code.zeroExtend 32 + (if r.control then 0x100 else 0) + (if r.basket then 0x200 else 0)
  | 1 => r.pc
  | 2 => r.l
  | _ => r.detail

/-- The value that a thread reads from a context register. -/
def State.csrValue (s : State) (gr : Group) (t n : Nat) : Word :=
  let c := s.ctx gr.key.ctx
  let who := (gr.key, t)
  let l := gr.l t
  match n with
  | 0 => c.round.see s 0 who l
  | 1 => c.flags
  | 2 => c.whistle.see s 2 who l
  | 3 => c.trapVec.see s 3 who l
  | 4 => loWord c.seed
  | 5 => BitVec.ofNat 32 c.party
  | 6 => BitVec.ofNat 32 c.nparty
  | 7 => loWord (s.accepted.getD 0)
  | 8 | 9 | 10 | 11 => match gr.handler with
    | some h => trapInfo h.trap (n - 8)
    | none => 0
  | 12 => c.lease.see s 12 who l
  | 13 => BitVec.ofNat 32 c.qwin
  | 14 =>
    if gr.key.kind == .handler then 0
    else BitVec.ofNat 32 (((s.node? gr.key.ctx gr.key.node).map stageWord).getD 0)
  | _ => 0

/-- CSRRD, R230. Reads a context register. -/
def execCsrrd (i : BitVec 10) (d : BitVec 6) (s : State) : Host.Outcome State Fault Refusal :=
  withIssue (.csrrd i d) s (sysRun legal [outF d] fun a gr s =>
    a.each s fun t th => th.setReg d.toNat (s.csrValue gr t i.toNat))

/-- R231. A write among those before it, newest first: of the writes of one cycle the one of the highest L stands. -/
def putWrite (w : CsrWrite) : List CsrWrite → List CsrWrite
  | [] => [w]
  | x :: xs => if x.cycle = w.cycle ∧ w.l.toNat < x.l.toNat then x :: putWrite w xs else w :: x :: xs

/-- R231. A context register written by a thread of some L: the values that others may still see are kept. -/
def Csr.write (r : Csr) (s : State) (who : GKey × Nat) (l v : Word) : Csr :=
  let live := r.writes.takeWhile fun w => decide (s.cycle < w.cycle + 256)
  { base := ((r.writes.drop live.length).head?.map CsrWrite.val).getD r.base, writes := putWrite ⟨v, who, l, s.cycle⟩ live }

/-- What CSRWR stores: Tables 9.5, 9.6, 10.5, 10.2 and 8.1. A bit of CTX_FLAGS that an operation sets in the same cycle
stays 1 (R235).
Log entry 31 (DEDUCED). -/
def State.csrWrite (s : State) (k : GKey) (t : Nat) (l : Word) (n : Nat) (v : Word) : State :=
  s.modCtx k.ctx fun c =>
    match n with
    | 0 => { c with round := c.round.write s (k, t) l (v &&& 3) }
    | 1 => { c with flags := (c.flags &&& ~~~v) ||| (if c.raised.1 = s.cycle then c.raised.2 else 0) }
    | 2 => { c with whistle := c.whistle.write s (k, t) l v }
    | 3 => { c with trapVec := c.trapVec.write s (k, t) l v }
    | 12 => { c with lease := c.lease.write s (k, t) l (if v &&& 63 = 0 then 1 else v &&& 63) }
    | _ => c

/-- CSRWR, R230. Writes a context register, visible to other threads within 256 cycles. -/
def execCsrwr (i : BitVec 10) (a : BitVec 6) (s : State) : Host.Outcome State Fault Refusal :=
  withIssue (.csrwr i a) s (sysRun legal [regF a] fun act gr s =>
    (act.set.foldl (fun s t => s.csrWrite gr.key t (gr.l t) i.toNat ((gr.thread t).reg a.toNat)) s).goAll act.g act.set act.next)

/-! ## Flags, votes, TRAP -/

/-- TRAP, R312. Stops the group with USER_TRAP and a as detail. -/
def execTrap (a : BitVec 6) (s : State) : Host.Outcome State Fault Refusal :=
  withIssue (.trap a) s (sysBare legal [regF a] fun act gr s =>
    match pendingIn gr (inThread act.lead (ownRegs [regF a])) with
    | some r => act.trap s act.lead tUnwaited (BitVec.ofNat 32 r)
    | none => act.trap s act.lead tUserTrap ((gr.thread act.lead).reg a.toNat))

/-- FLAGRD, R311. Writes the thread's or group's sticky flags to d. -/
def execFlagrd (i : BitVec 10) (d : BitVec 6) (s : State) : Host.Outcome State Fault Refusal :=
  withIssue (.flagrd i d) s (sysRun legal [outF d] fun a gr s =>
    a.each s fun _ th => th.setReg d.toNat ((if i = 0 then th.flags else gr.flags).zeroExtend 32))

/-- R311. Flags after some are cleared: one that is set in the same cycle ends set. -/
def clearFlags (cycle : Nat) (mask flags : Flags) (raised : Nat × Flags) : Flags :=
  (flags &&& ~~~mask) ||| (if raised.1 = cycle then raised.2 else 0)

/-- FLAGCLR, R311. Clears the mask bits in thread and group flags. -/
def execFlagclr (i : BitVec 7) (s : State) : Host.Outcome State Fault Refusal :=
  withIssue (.flagclr i) s (sysRun legal [] fun a _ s =>
    a.each (s.modGroup a.g fun x => { x with flags := clearFlags s.cycle i x.flags x.raised }) fun _ th =>
      { th with flags := clearFlags s.cycle i th.flags th.raised })

/-- ELECT, R310. Writes 1 to the lowest-L thread of the issue set and 0 to the others. -/
def execElect (d : BitVec 6) (s : State) : Host.Outcome State Fault Refusal :=
  withIssue (.elect d) s (sysRun legal [outF d] fun a _ s =>
    a.each s fun t th => th.setReg d.toNat (if t = a.lead then 1 else 0))

/-- R310. The result of a vote over the values of the issuing threads, each with its number in the group. -/
def voteResult (code : Nat) (xs : List (Nat × Word)) : Word :=
  let bits := fun (lo : Nat) => BitVec.ofNat 32
    ((xs.map fun p => if p.2 != 0 && decide (lo ≤ p.1) && decide (p.1 < lo + 32) then 2 ^ (p.1 - lo) else 0).sum)
  match code with
  | 0 => if xs.all fun p => p.2 != 0 then 1 else 0
  | 1 => if xs.any fun p => p.2 != 0 then 1 else 0
  | 2 => bits 0
  | 3 => bits 32
  | _ => match xs with
    | [] => 1
    | p :: _ => if xs.all fun q => q.2 == p.2 then 1 else 0

/-- VOTE, R310. Writes the same vote result over a to every issuing thread. -/
def execVote (i : BitVec 10) (a : BitVec 6) (d : BitVec 6) (s : State) : Host.Outcome State Fault Refusal :=
  withIssue (.vote i a d) s (sysRun legal [regF a, outF d] fun act gr s =>
    let r := voteResult i.toNat (act.set.map fun t => (t, (gr.thread t).reg a.toNat))
    act.each s fun _ th => th.setReg d.toNat r)

/-! ## Flush and fence -/

/-- R146. Entries of a node that pass a test become one batch; its number is 0-based over the batches of the context,
which its low six bits name.
Log entry 64 (DESIGN CHOICE). -/
def State.makeBatch (s : State) (c : Nat) (p : BasketEntry → Bool) : Nat × State :=
  let n := c + 64 * (s.ctx c).nextBatch
  (n, s.modCtx c fun x =>
    { x with
      nextBatch := x.nextBatch + 1
      batches := x.batches ++ [n]
      basket := x.basket.map fun e => if e.batch.isNone && p e then { e with batch := some n } else e })

/-- A node that every team has left, or that has none: COMMITTING, with the final batch of its entries (R146). -/
def State.startCommit (s : State) (c : Nat) (ref : Word) : State :=
  let s1 := s.setNodeState c ref .committing
  if (s1.ctx c).basket.any fun e => e.node == ref && e.batch.isNone then (s1.makeBatch c fun e => e.node == ref).2 else s1

/-- The batches, not yet applied, that hold entries of a context that pass a test. -/
def Context.batchesOf (c : Context) (p : BasketEntry → Bool) : List Nat := ((c.basket.filter p).filterMap BasketEntry.batch).eraseDups

/-- DFLUSH, R314. Applies the basket entries of the issue set as one batch and retires after its entries are applied. -/
def execDflush (s : State) : Host.Outcome State Fault Refusal :=
  withIssue .dflush s (onceRun legal [] fun a gr s =>
    let det := ((s.node? gr.key.ctx gr.key.node).map fun n => n.rec'.det).getD false
    let ls := if gr.key.kind == .lanes then a.set.map gr.l else []
    let mine := fun (e : BasketEntry) => e.node == gr.key.node && ls.contains e.l
    if det && (s.ctx gr.key.ctx).basket.any mine then
      let s1 := if (s.ctx gr.key.ctx).basket.any fun e => e.batch.isNone && mine e then (s.makeBatch gr.key.ctx mine).2 else s
      s1.modGroup a.g fun g => { g with fetch := some (.batch ((s1.ctx gr.key.ctx).batchesOf mine) a.next a.set) }
    else s.goAll a.g a.set a.next)

/-- R150. The remote commands of a group that have not completed. -/
def State.remoteCmds (s : State) (k : GKey) : List Nat :=
  ((s.cores.map fun x => x.queue.filter fun q => q.elected.1 == k && (q.op == 5 || q.op == 6)).flatten).map Cmd.id

/-- XFENCE, R150. Retires only when the group's earlier remote commands have completed. -/
def execXfence (s : State) : Host.Outcome State Fault Refusal :=
  withIssue .xfence s (sysRun (fun _ s => !s.feature 11) [] fun a gr s =>
    match s.remoteCmds gr.key with
    | [] => s.goAll a.g a.set a.next
    | ids => s.modGroup a.g fun g => { g with fetch := some (.fence ids a.next a.set) })

/-! ## TBLLD (R271) -/

/-- Word i of a table source, as an access. -/
def tableWord (x i : Nat) : Target := { glob := false, addr := x + 4 * i, size := 4 }

/-- The check of word i of a table source. -/
def State.tableCheck (s : State) (k : GKey) (x i : Nat) : Chk := s.checkPart k (tableWord x i) false (x + 4 * i, 4)

/-- TBLLD, R271. Fills a lookup table's fill buffer from 1,024 scratch bytes. -/
def execTblld (k : BitVec 2) (a : BitVec 6) (s : State) : Host.Outcome State Fault Refusal :=
  withIssue (.tblld k a) s (sysBare inHandler [regF a] fun act gr s =>
    let x := ((gr.thread act.lead).reg a.toNat).toNat / 4 * 4
    match pendingIn gr (inThread act.lead (ownRegs [regF a])), firstBad (s.tableCheck gr.key x) (List.range 256) with
    | some r, _ => act.trap s act.lead tUnwaited (BitVec.ofNat 32 r)
    | none, some b => act.stopAt s act.set act.lead b.2
    | none, none => (s.blockAll act.g act.set (.tblld k.toNat (BitVec.ofNat 32 x))).owePoison act.g gr [act.lead]
        fun t => inThread t (ownReads [regF a]))

/-- The table and the source that a thread's TBLLD names. -/
def Thread.fills (th : Thread) : Option (Nat × Word) :=
  match th.state with
  | .blocked (.tblld k a) => some (k, a)
  | _ => none

/-- The pending TBLLDs of a team: group, thread, table, source, cycle of issue.
Log entry 62 (DESIGN CHOICE). -/
def State.pendingFills (s : State) (k : TKey) : List (Nat × Nat × Nat × Word × Nat) :=
  (s.groups.zipIdx.filter fun p => gkeyTeam p.1.key == k).flatMap fun p =>
    (List.range p.1.threads.length).filterMap fun t =>
      ((p.1.thread t).fills).map fun f => (p.2, t, f.1, f.2, (p.1.thread t).issued)

/-- R271. The TBLLD of a table that is served next: the first issued, then the lowest L. -/
def State.nextFill (s : State) (k : TKey) (table : Nat) : Option (Nat × Nat × Nat × Word × Nat) :=
  leastBy? (fun (x : Nat × Nat × Nat × Word × Nat) =>
    x.2.2.2.2 * 2 ^ 32 + (((s.groups[x.1]?).map fun g => (g.l x.2.1).toNat).getD 0))
    ((s.pendingFills k).filter fun x => x.2.2.1 == table)

/-- R271, R134. Word i of a table source is read, one load event of S, into the fill buffer. -/
def State.fillWord (s : State) (k : GKey) (table x i : Nat) : State :=
  let ls := s.places k (tableWord x i) false
  let w := BitVec.ofNat 32 (bytesNat (s.readPlaces (gkeyTeam k) ls))
  (s.touchPlaces (gkeyTeam k) ls).modTeam (gkeyTeam k) fun t =>
    { t with tables := t.tables.modify table fun b => { b with fill := b.fill.set i w, filled := i + 1 } }

/-- R271. The next words of a table source are read, at most n of them, in ascending address; an owner state that refuses
one holds the rest (R140). -/
def State.fillWords (g t table x : Nat) : Nat → State → State
  | 0, s => s
  | n + 1, s =>
    match s.groups[g]? with
    | none => s
    | some gr =>
      let i := ((s.team? (gkeyTeam gr.key)).map fun tm => (tm.tables.getD table {}).filled).getD 256
      if 256 ≤ i then s
      else
        match s.tableCheck gr.key x i with
        | .ok _ =>
          if s.mayPerform gr.key false (s.places gr.key (tableWord x i) false) then
            fillWords g t table x n (s.fillWord gr.key table x i)
          else s
        | c => s.stopWait g t (gr.sameWait t) (gr.sameWait t) c

/-- R271. The TBLLD that a table serves reads its next words, at most n; a fill that would overwrite a buffer which an open
SLUT has bound does not begin (R377). -/
def State.serveFill (s : State) (k : TKey) (table n : Nat) : State :=
  match s.team? k, s.nextFill k table with
  | some tm, some x =>
    let b := tm.tables.getD table {}
    match s.groups[x.1]? with
    | none => s
    | some gr =>
      if !s.active gr || b.bound.any Prod.snd then s
      else
        let job := some (gr.key, x.2.1, x.2.2.2.2)
        let start := fun (y : Table) => if y.filler == job then y else { y with filler := job, filled := 0 }
        State.fillWords x.1 x.2.1 table x.2.2.2.1.toNat (min n 256) (s.modTeam k fun t => { t with tables := t.tables.modify table start })
  | _, _ => s

/-- R271. The words that TBLLDs read in the time of a step. -/
def State.fillTables (s : State) : State :=
  if s.groups.any fun g => g.threads.any fun th => th.fills.isSome then
    (s.teams.zipIdx.flatMap fun p => (List.range 4).map fun i => (p.1.key, p.2, i)).foldl
      (fun s x => s.serveFill x.1 x.2.2 (Config.tableWords s.tick x.2.1 x.2.2)) s
  else s

/-- R271. The fill buffer is full, and the buffers exchange. -/
def Table.exchange (t : Table) : Table :=
  { t with fill := t.live, live := t.fill, filler := none, filled := 0, bound := t.bound.map fun b => (b.1, !b.2) }

/-- R271, R272. A TBLLD whose words are all in the fill buffer retires for its threads together, in a cycle in which no TBL
has read the table. -/
def State.endFill (s : State) (i : Nat) (gr : Group) (t table : Nat) : State :=
  let k := gkeyTeam gr.key
  let b : Table := ((s.team? k).map fun tm => tm.tables.getD table {}).getD {}
  if b.filled = 256 ∧ b.filler = some (gr.key, t, (gr.thread t).issued) ∧ b.readAt ≠ some s.cycle then
    let s1 := s.modTeam k fun tm => { tm with tables := tm.tables.modify table Table.exchange }
    (s1.pay i t).goAll i (gr.sameWait t) (pcAfter (gr.thread t).pc 4)
  else s

/-! ## LAUNCH (R313) -/

def Queue.size (q : Queue) : Nat := 2 ^ (q.logSize.toNat + 4)

/-- Address of the record of a ring index, and of its time record (R199). -/
def Queue.slot (q : Queue) (i : Word) : Nat := q.base.toNat + 128 * (i.toNat % q.size)
def Queue.timeSlot (q : Queue) (i : Word) : Nat := q.base.toNat + 128 * q.size + 64 * (i.toNat % q.size)

def Context.queue (c : Context) (q : Nat) : Queue := c.queues.getD q {}
def Context.modQueue (c : Context) (q : Nat) (f : Queue → Queue) : Context := { c with queues := c.queues.modify q f }

/-- Whether a queue takes a launch: its status is 1. -/
def Queue.takes (q : Queue) : Bool := q.en && q.src && (q.tail - q.head).toNat != q.size

/-- The slot of a queue after some launches, as an access of 128 bytes. -/
def Queue.slotTarget (q : Queue) (n : Nat) : Target :=
  { glob := true, addr := q.slot (q.tail + BitVec.ofNat 32 n) % 2 ^ 64, size := 128, align := 128 }

/-- Whether a queue takes a launch after n others. -/
def Queue.takesAfter (q : Queue) (n : Nat) : Bool := q.en && q.src && decide ((q.tail - q.head).toNat + n < q.size)

/-- R91. The check of the slot that a thread's launch is stored to, where the queue takes it: `before` are the threads of
the set before it whose records may be read now. -/
def State.slotChk (s : State) (k : GKey) (q : Nat) (before : Nat) : Chk :=
  let qu := (s.ctx k.ctx).queue q
  if qu.takesAfter before then s.lowCheck k true (qu.slotTarget before) else .ok (.scr 0)

/-- The launch of one thread: its status and the state it leaves. The record is stored as a store of the thread (R91).
Log entry 34 (DEDUCED). -/
def State.launchOne (s : State) (k : GKey) (q : Nat) (ls : List (Loc × Nat)) : Word × State :=
  let qu := (s.ctx k.ctx).queue q
  if !qu.en || !qu.src then (2, s)
  else if !qu.takes then (0, s)
  else
    let bs := s.readPlaces (gkeyTeam k) ls
    let s1 := (s.sealNow k.ctx k.node 4).touchPlaces (gkeyTeam k) ls
    let s2 := s1.writePlaces (gkeyTeam k) (s1.places k (qu.slotTarget 0) true) bs
    let s3 := s2.devStore k.ctx (qu.timeSlot qu.tail) (natBytes 8 s.time)
    (1, s3.modCtx k.ctx fun c => c.modQueue q fun x => { x with tail := x.tail + 1 })

/-- LAUNCH, R313. Copies a node record into a device queue of the context and returns a status. A thread whose record lies
in a block that refuses it waits, and the instruction retires as a whole for it after the wait (R277). -/
def execLaunch (q : BitVec 5) (a : BitVec 6) (d : BitVec 6) (s : State) : Host.Outcome State Fault Refusal :=
  withIssue (.launch q a d) s (sysBare inHandler [regF a 2, outF d] fun act gr s =>
    let fs := [regF a 2, outF d]
    let tgt := fun t => ({ glob := true, addr := ((gr.thread t).pair a.toNat).toNat, size := 128, align := 128 } : Target)
    let now := fun t => s.mayPerform gr.key false (s.places gr.key (tgt t) false)
    let slot := fun t => if now t then s.slotChk gr.key q.toNat ((act.set.filter fun u => decide (u < t) && now u).length) else .ok (.scr 0)
    let r := act.rounds s act.set (sysChk gr fs fun t => (s.lowCheck gr.key false (tgt t)).and (slot t)) (fun _ => .ok (.scr 0))
    if !r.2 then r.1
    else act.set.foldl (fun s t =>
      let ls := s.places gr.key (tgt t) false
      if !((s.ctx gr.key.ctx).queue q.toNat).takes || s.mayPerform gr.key false ls then
        let x := s.launchOne gr.key q.toNat ls
        (x.2.raise act.g t (sysPoison gr fs t)).modThread act.g t fun th => (th.setReg d.toNat x.1).goOn act.next
      else s.waitOwner act.g t { (tgt t).waiting true act.next with retry := some act.instr } 0) s)

/-! ## MARK, PERFRD -/

/-- Table 15.4. -/
def traceRecord (s : State) (a : Act) (gr : Group) (id value : Word) : List Byte :=
  natBytes 1 gr.key.ctx ++ natBytes 1 (if gr.key.kind == .control then 1 else 0) ++ natBytes 2 gr.core
    ++ natBytes 4 (gr.l a.lead).toNat ++ natBytes 4 a.pc.toNat ++ natBytes 2 id.toNat ++ natBytes 2 a.set.length
    ++ natBytes 4 value.toNat ++ natBytes 4 gr.key.node.toNat ++ natBytes 8 s.time

/-- A record for the trace ring: none without a ring; a full ring drops and counts it. -/
def addTrace (r : List Byte) (c : Context) : Context :=
  match c.traceSize with
  | none => c
  | some n => if c.trace.length < n then { c with trace := c.trace ++ [r] } else { c with traceLost := c.traceLost + 1 }

/-- MARK, R315. Writes a trace record to the context trace ring if enabled. -/
def execMark (i : BitVec 10) (a : BitVec 6) (s : State) : Host.Outcome State Fault Refusal :=
  withIssue (.mark i a) s (onceRun legal [regF a] fun act gr s =>
    (s.modCtx gr.key.ctx (addTrace (traceRecord s act gr (i.zeroExtend 32) ((gr.thread act.lead).reg a.toNat)))).goAll
      act.g act.set act.next)

/-- PERFRD, R316. Reads a performance counter of the issuing group. -/
def execPerfrd (i : BitVec 10) (d : BitVec 6) (s : State) : Host.Outcome State Fault Refusal :=
  withIssue (.perfrd i d) s (sysRun legal [outF d] fun a gr s =>
    a.each s fun _ th => th.setReg d.toNat (BitVec.ofNat 32 (gr.perf.getD i.toNat 0)))

end Sys2Proof.Machine
end

