-- ==== Sys2Proof/Machine/Debug.lean ====
section
/-! DEFINITION. The meanings of the debug-window instructions, which run in a trap handler instance
(spec/10_traps_reliability.md R184, R185, spec/15_isa_control_sync.md R317). -/

namespace Sys2Proof.Machine

/-! ## Fetching a halfword of the code window (R76, R204) -/

/-- The byte of a context's code window at an offset, where it can be read. -/
def State.codeByte (s : State) (c off : Nat) : Option Byte :=
  if off < (s.ctx c).codeSize then
    ((s.ctx c).phys? ((s.ctx c).codeBase.toNat + off)).map fun p => cellsGet s.mem p
  else none

/-- R203. The length of the instruction at a PC, by bit 0 of its first halfword; 4 where it cannot be read. -/
def State.lengthAt (s : State) (c : Nat) (pc : Word) : Nat :=
  match s.codeByte c pc.toNat with
  | some b => if b.getLsbD 0 then 4 else 2
  | none => 4

/-! ## The selected group -/

/-- R184. Whether a group is a STOPPED group of a handler's context on its core; an evicted group is on none. -/
def State.inReach (s : State) (me g : Group) : Bool :=
  g.key.ctx == me.key.ctx && g.core == me.core && g.key.kind != .handler && g.stop && s.active { g with stop := false }

/-- R317. The groups of a context on a core that are STOPPED and hold thread L. -/
def State.selectable (s : State) (me : Group) (l : Word) : List Group :=
  s.groups.filter fun g => s.inReach me g && (List.range g.threads.length).any fun t => g.l t == l

/-- The group that DWSEL selects: of the trapped group's node if one is, else of the lowest node reference; a lane
group before the control thread that shares its L.
Log entry 33 (DEDUCED). -/
def State.selection (s : State) (me : Group) (l : Word) : Option GKey :=
  let gs := s.selectable me l
  let mine := gs.filter fun g => g.key.node == me.key.node
  (leastBy? (fun (g : Group) => g.key.node.toNat * 2 + (if g.key.kind == .lanes then 0 else 1))
    (if mine.isEmpty then gs else mine)).map Group.key

/-- DWSEL, R317. Selects a STOPPED group of the context on this core by thread L. -/
def execDwsel (a : BitVec 6) (d : BitVec 6) (s : State) : Host.Outcome State Fault Refusal :=
  withIssue (.dwsel a d) s (sysRun outsideHandler [regF a, outF d] fun act gr s =>
    match s.selection gr ((gr.thread act.lead).reg a.toNat) with
    | some k =>
      act.each (s.modGroup act.g fun g => { g with handler := g.handler.map fun h => { h with sel := some k } }) fun _ th =>
        th.setReg d.toNat 1
    | none => act.each s fun _ th => th.setReg d.toNat 0)

/-- The number of the selected group, while it is STOPPED. -/
def State.selected (s : State) (me : Group) : Option Nat :=
  (me.handler.bind HandlerData.sel).bind fun k => s.groups.findIdx? fun g => g.key == k && s.inReach me g

/-- R317. A group that leaves STOPPED is selected no longer. -/
def State.deselect (s : State) (k : GKey) : State :=
  let f := fun (g : Group) => { g with handler := g.handler.map fun h => if h.sel == some k then { h with sel := none } else h }
  { s with groups := s.groups.map f }

/-! ## The window (Table 10.3) -/

/-- Marks 32k to 32k + 31 as a word. -/
def markWord (l : List Bool) (k : Nat) : Word := BitVec.ofNat 32 (maskOf ((l.drop (32 * k)).take 32))

/-- A word of the window. -/
def Group.windowRead (g : Group) (a : Word) : Word :=
  let space := a.toNat / 2 ^ 28
  let i := a.toNat % 2 ^ 28
  let word := BitVec.ofNat 32
  match space with
  | 0 => if i / 64 < g.threads.length ∧ i % 64 < g.budget then (g.thread (i / 64)).reg (i % 64) else 0
  | 1 => if i < g.threads.length then shownPc (g.thread i).pc else 0
  | 2 => if i < g.threads.length then word (g.thread i).state.code else 0
  | 3 => if i < g.threads.length then (g.thread i).flags.zeroExtend 32 else 0
  | 4 => if i / 2 < g.threads.length then markWord (g.thread (i / 2)).pend (i % 2) else 0
  | 5 => if i / 2 < g.threads.length then markWord (g.thread (i / 2)).pois (i % 2) else 0
  | 6 => match i with
    | 0 => word g.budget
    | 1 => g.l 0
    | 2 => word g.w
    | 3 => word g.issues
    | _ => 0
  | _ => 0

/-- R184. Whether the data of a pending register is still to come: a load of it is on its way, or waits on an owner
state. -/
def Thread.awaited (n : Nat) (th : Thread) : Bool :=
  th.isPend n && (th.loads.any (fun r => !r.arrived && r.vals.any fun p => p.1 == n)
    || (match th.state with
      | .blocked (.owner x) => x.regs.contains n
      | _ => false))

/-- R184. A register that the window writes: its poison and its pending mark go. While a load's data is still to come, the
write waits for it. -/
def Thread.windowSet (n : Nat) (v : Word) (th : Thread) : Thread :=
  if th.awaited n then { th with late := th.late.filter (fun p => p.1 != n) ++ [(n, v)] }
  else (th.setPend n false).setReg n v

/-- A word of the window written; anything that is not RW discards it. -/
def Group.windowWrite (g : Group) (a v : Word) : Group :=
  let space := a.toNat / 2 ^ 28
  let i := a.toNat % 2 ^ 28
  match space with
  | 0 => if i % 64 < g.budget then g.modThread (i / 64) (Thread.windowSet (i % 64) v) else g
  | 1 => g.modThread i fun th => { th with pc := v &&& 0xFFFFFFFE }
  | 3 => g.modThread i fun th => { th with flags := v.extractLsb' 0 7 }
  | _ => g

/-- DWRD, R317. Reads a debug-window word of the selected group. -/
def execDwrd (a : BitVec 6) (d : BitVec 6) (s : State) : Host.Outcome State Fault Refusal :=
  withIssue (.dwrd a d) s (sysRun outsideHandler [regF a, outF d] fun act gr s =>
    let v := (((s.selected gr).bind fun i => s.groups[i]?).map fun g => g.windowRead ((gr.thread act.lead).reg a.toNat)).getD 0
    act.each s fun _ th => th.setReg d.toNat v)

/-- DWWR, R184. Writes a debug-window word of the selected group. -/
def execDwwr (a : BitVec 6) (d : BitVec 6) (s : State) : Host.Outcome State Fault Refusal :=
  withIssue (.dwwr a d) s (sysRun outsideHandler [regF a, regF d] fun act gr s =>
    let th := gr.thread act.lead
    let s1 := match s.selected gr with
      | some i => s.modGroup i fun g => g.windowWrite (th.reg a.toNat) (th.reg d.toNat)
      | none => s
    s1.goAll act.g act.set act.next)

/-! ## DWRES, DWKILL (R185) -/

/-- The first DWRES or DWKILL ends the record's hold on its group. -/
def endHold (g : Group) : Group := { g with handler := g.handler.map fun h => { h with holds := false } }

/-- The trapped group, while the record holds it. -/
def State.heldGroup (s : State) (me : Group) : Option (Nat × HandlerData) :=
  match me.handler with
  | some h => if h.holds then (s.groupIdx? h.trap.group).map fun i => (i, h) else none
  | none => none

/-- The PC at which a thread of the trapped issue set goes on. -/
def resumePc (s : State) (c k : Nat) (v : Word) (th : Thread) : Word :=
  match k with
  | 0 => th.pc
  | 1 => pcAfter th.pc (s.lengthAt c th.pc)
  | _ => v &&& 0xFFFFFFFE

/-- DWRES, R185. Resumes the trapped issue set by retry, skip or a new PC and clears the stop flag. -/
def execDwres (i : BitVec 10) (a : BitVec 6) (s : State) : Host.Outcome State Fault Refusal :=
  withIssue (.dwres i a) s (sysRun outsideHandler [regF a] fun act gr s =>
    let s0 := s.goAll act.g act.set act.next
    match s0.heldGroup gr with
    | none => s0
    | some x =>
      let s1 := (s0.modGroup act.g endHold).deselect x.2.trap.group
      let again := i == 0 && x.2.trap.code == tBreak && x.2.trap.detail == 1
      (s1.resume x.1 again (resumePc s gr.key.ctx i.toNat ((gr.thread act.lead).reg a.toNat))).settle)

/-- DWKILL, R317. Exits every thread of the trapped group. -/
def execDwkill (s : State) : Host.Outcome State Fault Refusal :=
  withIssue .dwkill s (sysRun outsideHandler [] fun act gr s =>
    let s0 := s.goAll act.g act.set act.next
    match s0.heldGroup gr with
    | none => s0
    | some x =>
      let s1 := (s0.modGroup act.g endHold).deselect x.2.trap.group
      let dead := fun (th : Thread) => { th with state := ThreadState.exited }
      (s1.modGroup x.1 fun g =>
        { g with stop := false, yielded := false, trapped := [], fetch := none, threads := g.threads.map dead }).afterExit x.1)

end Sys2Proof.Machine
end

