-- ==== Sys2Proof/Machine/Matrix.lean ====
section
/-! DEFINITION. The arithmetic of matrix products: formats and specs (spec/19_isa_engines_matrix.md R333 to R335),
operand elements and scales (spec/09_numbers.md R157 to R162), chunks (R170 to R173), sparse lines (R175, R176) and the
tile updates of R339 to R345. -/

namespace Sys2Proof.Machine

open Host (Cell)

/-! ## Formats (Table 19.7) -/

/-- Bits per element of a format code. -/
def mxBits (fmt : Nat) : Nat := [16, 16, 8, 8, 6, 4, 8, 8, 8, 32, 16, 32, 8].getD fmt 8
/-- K of an MMA. -/
def mxK (fmt : Nat) : Nat := [128, 128, 256, 256, 256, 512, 256, 256, 256, 32, 64, 16, 256].getD fmt 0
/-- K' of an MMAR; 0 where the format has none. -/
def mxKr (fmt : Nat) : Nat := [32, 32, 64, 64, 0, 0, 64].getD fmt 0
/-- The feature that a format needs, if any. -/
def mxFeature (fmt : Nat) : Option Nat :=
  if fmt = 2 ∨ fmt = 3 ∨ fmt = 4 ∨ fmt = 12 then some 6 else if fmt = 5 then some 5 else if fmt = 7 ∨ fmt = 8 then some 7 else none
/-- R84. The metering category of a format. -/
def mxCat (fmt : Nat) : Nat := [2, 3, 4, 5, 6, 7, 8, 9, 10, 1, 13, 14, 4].getD fmt 0
/-- R335. Elements of a scale block and bytes of a scale entry; none where the format has no scale. -/
def mxScale (fmt : Nat) : Option (Nat × Nat) :=
  if fmt = 4 ∨ fmt = 8 ∨ fmt = 12 then some (32, 1) else if fmt = 7 then some (32, 4) else if fmt = 5 then some (64, 1) else none

/-! ## Operands (Tables 19.5 and 19.6, R335) -/

/-- A dense operand: format, K, base of each half, pitch, and whether its stored rows are indexed by k. -/
structure Opnd where
  fmt : Nat
  k : Nat
  bases : List Nat
  pitch : Nat
  byK : Bool
deriving DecidableEq, Repr

/-- Spec fields. -/
def specFmt (w0 : Word) : Nat := w0.toNat / 2 ^ 28
def specN (w0 : Word) : Nat := w0.toNat / 2 ^ 22 % 4
def specAddr (w0 : Word) : Nat := w0.toNat % 2 ^ 22
def specTPitch (w1 : Word) : Nat := w1.toNat / 2 ^ 16
def specPitch (w1 : Word) : Nat := w1.toNat % 2 ^ 16

def Opnd.rowsN (o : Opnd) : Nat := if o.byK then o.k else 128
def Opnd.rowBytes (o : Opnd) : Nat := ((if o.byK then 128 else o.k) * mxBits o.fmt + 7) / 8
def Opnd.sbase (o : Opnd) (b : Nat) : Nat := b + o.rowsN * o.pitch

/-- Bytes of the scales of one half. -/
def Opnd.scaleBytes (o : Opnd) : Nat :=
  match mxScale o.fmt with
  | some (blk, e) => o.k / blk * 128 * e + (if o.fmt = 5 then 512 else 0)
  | none => 0

/-- The spans of bytes that the operand occupies. -/
def Opnd.spans (o : Opnd) : List (Nat × Nat) :=
  (o.bases.map fun b =>
    (List.range o.rowsN).map (fun r => (b + r * o.pitch, o.rowBytes))
      ++ (if o.scaleBytes = 0 then [] else [(o.sbase b, o.scaleBytes)])).flatten

/-- The dense operand of a spec pair; `isA` for A, `tr` transposed. -/
def Opnd.ofSpec (isA tr : Bool) (k : Nat) (w0 w1 : Word) : Opnd :=
  { fmt := specFmt w0, k := k, pitch := specPitch w1, byK := if isA then tr else !tr
    bases := if isA then [specAddr w0] else [specAddr w0, specAddr w0 + 16 * specTPitch w1] }

/-- R333 to R335. Fields of a dense spec that refuse the command, its bytes apart. -/
def Opnd.bad (o : Opnd) (isA tr : Bool) (w0 w1 : Word) : Bool :=
  decide (specAddr w0 % 16 ≠ 0) || decide (o.pitch % 16 ≠ 0) || decide (o.pitch < o.rowBytes) || decide (specN w0 ≠ 0)
    || (tr && decide (mxBits o.fmt < 8)) || (isA && decide (specTPitch w1 ≠ 0))

/-- R162. Element e of packed elements of a width at an address. -/
def rawElem (m : List Cell) (a e bits : Nat) : Nat :=
  if 8 ≤ bits then bytesNat (cellsRead m (a + e * (bits / 8)) (bits / 8))
  else bytesNat (cellsRead m (a + e * bits / 8) 2) / 2 ^ (e * bits % 8) % 2 ^ bits

/-- The code of element k of row or column n. -/
def Opnd.code (o : Opnd) (m : List Cell) (n k : Nat) : Nat :=
  let b := o.bases.getD (n / 128) 0
  if o.byK then rawElem m (b + k * o.pitch) (n % 128) (mxBits o.fmt) else rawElem m (b + n % 128 * o.pitch) k (mxBits o.fmt)

/-- The scale entry of row or column n for the chunk at k0. -/
def Opnd.scaleCode (o : Opnd) (m : List Cell) (n k0 : Nat) : Nat :=
  match mxScale o.fmt with
  | some (blk, e) => rawElem m (o.sbase (o.bases.getD (n / 128) 0) + (k0 / blk * 128 + n % 128) * e) 0 (8 * e)
  | none => 0

/-- R160. The FP32 superblock scale of row or column n. -/
def Opnd.superScale (o : Opnd) (m : List Cell) (n : Nat) : Nat :=
  bytesNat (cellsRead m (o.sbase (o.bases.getD (n / 128) 0) + o.k / 64 * 128 + 4 * (n % 128)) 4)

/-! ## Elements and scales -/

/-- One element: an exact value, an unset position of a sparse operand (R341), an integer, or a finite FP32 value split in
two (R173). -/
inductive Elem where
  | val (v : Val)
  | unset
  | int (i : Int)
  | split (x x1 x2 : Val)
deriving DecidableEq, Repr

/-- R173. x1 = rz_bf16(x), x2 = rz_bf16(x - x1); an infinity or a NaN is not split. -/
def splitF32 (w : Nat) : Elem :=
  match fmtF32.val w with
  | .fin n m e =>
    let x1 := fmtBF16.val (roundDy fmtBF16 false .rz n m e).1
    let d := exactAdd .rne (.fin n m e) x1.neg
    .split (.fin n m e) x1 (fmtBF16.val (deliver fmtBF16 false .rz d).1)
  | v => .val v

/-- A signed integer from a code of some bits. -/
def signedCode (bits c : Nat) : Int := if 2 ^ (bits - 1) ≤ c then (c : Int) - 2 ^ bits else c

/-- The element of a code; `desc` is the ZP8 descriptor of its block. -/
def elemOf (fmt desc c : Nat) : Elem :=
  match fmt with
  | 0 => .val (fmtBF16.val c)
  | 1 => .val (fmtF16.val c)
  | 2 | 12 => .val (fmtE4M3.val c)
  | 3 => .val (fmtE5M2.val c)
  | 4 => .val (fmtE2M3.val c)
  | 5 => .val (valOfInt (qn4Level c) (-11))
  | 6 => .int (signedCode 8 c)
  | 7 => .val (valOfInt ((c : Int) - (desc / 2 ^ 16 % 256 : Nat)) 0)
  | 8 => .val (valOfInt (signedCode 8 c) (-6))
  | 9 => splitF32 c
  | _ => .int c

/-- R157, R159, R160. The scale of a chunk, from its entry and the superblock scale, with OF where its own product
overflows (R164). -/
def scaleVal (fmt q super : Nat) : Option (Val × Flags) :=
  match fmt with
  | 4 | 8 | 12 => some (if q = 255 then .nan false else .fin false 1 ((q : Int) - 127), 0)
  | 7 => some (if q / 2 ^ 24 ≠ 0 then .nan false else fmtF16.val (q % 2 ^ 16), 0)
  | 5 =>
    let r := deliver fmtF32 false .rne (exactMul (fmtF32.val super) (.fin false (q + 1) 0))
    some (match fmtF32.val r.1 with
      | .fin n m e => .fin n m (e - 8)
      | v => v, r.2 &&& fOF)
  | _ => none

/-- Element k of row or column n of an operand, and its scale for a chunk. -/
def Opnd.elem (o : Opnd) (m : List Cell) (n k : Nat) : Elem :=
  elemOf o.fmt (if o.fmt = 7 then o.scaleCode m n (k / 32 * 32) else 0) (o.code m n k)

def Opnd.scale (o : Opnd) (m : List Cell) (n k0 : Nat) : Option (Val × Flags) :=
  scaleVal o.fmt (o.scaleCode m n k0) (if o.fmt = 5 then o.superScale m n else 0)

/-! ## Chunks (R170 to R173) -/

/-- The exact term of two elements; an unset position gives a zero term, unless the other element is a NaN (R171).
Log entry 96 (DEDUCED). -/
def elemTerm (a b : Elem) : Exact :=
  match a, b with
  | .val x, .val y => exactMul x y
  | .val x, .unset => if x.isNan then .nan false else .num x.signBit 0 0
  | .split x x1 x2, .split y y1 y2 =>
    match exactAdd .rne (exactAdd .rne (exactMul x1 y1).val (exactMul x1 y2).val).val (exactMul x2 y1).val with
    | .num _ 0 _ => .num (x.signBit != y.signBit) 0 0
    | p => p
  | .split x _ _, .val y => exactMul x y
  | .val x, .split y _ _ => exactMul x y
  | _, _ => .num false 0 0

def Exact.negIf (c : Bool) (p : Exact) : Exact :=
  match p with
  | .nan iv => .nan iv
  | .inf n => .inf (n != c)
  | .num n m e => .num (n != c) m e

/-- floor(log2) of the largest magnitude among finite terms that are not zero. -/
def maxExp : List Exact → Option Int
  | [] => none
  | .num _ m e :: ps =>
    if m = 0 then maxExp ps
    else
      let k := (Nat.log2 m : Int) + e
      match maxExp ps with
      | some j => some (max k j)
      | none => some k
  | _ :: ps => maxExp ps

/-- R170. A term truncated toward zero to a multiple of 2^g, in units of 2^g. -/
def trunc0 (g : Int) (p : Exact) : Int :=
  match p with
  | .num n m e =>
    let v : Int := (m * pow2 (e - g) / pow2 (g - e) : Nat)
    if n then -v else v
  | _ => 0

/-- Whether an exact result is a NaN. -/
def Exact.isNan : Exact → Bool
  | .nan _ => true
  | _ => false

/-- The sum of a chunk's terms before its scales; none for a NaN (R171). -/
def chunkSum (ps : List Exact) : Option Val :=
  if ps.any Exact.isNan then none
  else
    let up := ps.any fun p => p == .inf false
    let down := ps.any fun p => p == .inf true
    if up && down then none
    else if up || down then some (.inf down)
    else
      match maxExp ps with
      | none => some (.fin (ps.all fun p => match p with
          | .num n _ _ => n
          | _ => false) 0 0)
      | some e => some (valOfInt ((ps.map (trunc0 (e - 47))).sum) (e - 47))

/-- An exact product by a scale; none for a NaN. -/
def applyScale (s : Option Val) (sc : Option Val) : Option Val :=
  match s, sc with
  | none, _ => none
  | some v, none => some v
  | some v, some c => match exactMul v c with
    | .nan _ => none
    | p => some p.val

/-- R171. The addition of a chunk into an FP32 word: IV and OF only. -/
def addChunk (c : Nat) (s : Option Val) : Nat × Flags :=
  match s with
  | none => (fmtF32.nan, fIV)
  | some v =>
    let x := fmtF32.val c
    let r := deliver fmtF32 false .rne (exactAdd .rne x v)
    (r.1, (r.2 &&& (fIV ||| fOF)) ||| flagIf x.isSig fIV)

/-- Integers of a chunk. -/
def elemInt (e : Elem) : Int :=
  match e with
  | .int i => i
  | _ => 0

def intSum (neg : Bool) (xs : List (Elem × Elem)) : Int :=
  let t := (xs.map fun p => elemInt p.1 * elemInt p.2).sum
  if neg then -t else t

/-- R339. One chunk of an output element: format, sign, elements, the two scales, the word so far. -/
def chunkStep (fmt : Nat) (neg : Bool) (xs : List (Elem × Elem)) (sa sb : Option (Val × Flags)) (c : Nat) : Nat × Flags :=
  match fmt with
  | 6 => let r := pack32 ((BitVec.ofNat 32 c).toInt + intSum neg xs); (r.1.toNat, r.2)
  | 10 => (((c : Int) + intSum neg xs) % 2 ^ 16 |>.toNat, 0)
  | 11 => (((c : Int) + intSum neg xs) % 2 ^ 32 |>.toNat, 0)
  | _ =>
    let s := chunkSum (xs.map fun p => (elemTerm p.1 p.2).negIf neg)
    let r := addChunk c (applyScale (applyScale s (sa.map Prod.fst)) (sb.map Prod.fst))
    (r.1, r.2 ||| (sa.map Prod.snd).getD 0 ||| (sb.map Prod.snd).getD 0)

/-- The chunks of one output element in ascending k0, over a source of elements and scales. -/
def outElem (fmt : Nat) (neg : Bool) (k : Nat) (a b : Nat → Elem) (sa sb : Nat → Option (Val × Flags)) (c : Nat) : Nat × Flags :=
  (List.range ((k + 31) / 32)).foldl (fun acc i =>
    let ks := (List.range (min 32 (k - 32 * i))).map (32 * i + ·)
    let r := chunkStep fmt neg (ks.map fun j => (a j, b j)) (sa (32 * i)) (sb (32 * i)) acc.1
    (r.1, acc.2 ||| r.2)) (c, 0)

/-! ## Tiles: 128 rows of 256 words, row-major -/

/-- Every word of a tile updated, with the flags of all. -/
def tileMap (t : List Word) (f : Nat → Nat → Word → Word × Flags) : List Word × Flags :=
  let rs := t.mapIdx fun i w => f (i / 256) (i % 256) w
  (rs.map Prod.fst, (rs.map Prod.snd).foldl (· ||| ·) 0)

/-- R339, R340, R341. A product into a tile: rows of A by tile row, columns of B. -/
def product (fmt : Nat) (clear neg : Bool) (k : Nat) (row : Nat → Option Nat) (a : Nat → Nat → Elem)
    (sa : Nat → Nat → Option (Val × Flags)) (b : Nat → Nat → Elem) (sb : Nat → Nat → Option (Val × Flags)) (t : List Word) : List Word × Flags :=
  tileMap t fun i j w =>
    match row i with
    | none => (w, 0)
    | some n => asWord (outElem fmt neg k (a n) (b j) (sa n) (sb j) (if clear then 0 else w.toNat))

/-- MMA over two dense operands in scratch. -/
def productDense (m : List Cell) (oa ob : Opnd) (clear neg : Bool) (t : List Word) : List Word × Flags :=
  product oa.fmt clear neg oa.k some (oa.elem m) (oa.scale m) (ob.elem m) (ob.scale m) t

/-- R340. MMAR: A from 64 rows of 64 bytes. -/
def productRegs (m : List Cell) (rows : List (List Byte)) (ob : Opnd) (clear hi neg : Bool) (t : List Word) : List Word × Flags :=
  let bits := mxBits ob.fmt
  let code := fun (n k : Nat) => bytesNat (((rows.getD n []).drop (k * (bits / 8))).take (bits / 8))
  product ob.fmt clear neg ob.k (fun i => if hi then (if 64 ≤ i then some (i - 64) else none) else if i < 64 then some i else none)
    (fun n k => elemOf ob.fmt 0 (code n k)) (fun _ _ => none) (ob.elem m) (ob.scale m) t

/-! ## Sparse operands (R175, R176, R341) -/

/-- One byte into a CRC-16 of polynomial 0x1021. -/
def crcBits : Nat → Nat → Nat
  | 0, c => c
  | n + 1, c => crcBits n (if 0x8000 ≤ c then (c * 2 % 65536) ^^^ 0x1021 else c * 2)

def crc16 (bs : List Byte) : Nat := bs.foldl (fun c b => crcBits 8 (c ^^^ (b.toNat * 256))) 0xFFFF

/-- N of an NCODE; element bytes of FMT 0-3. -/
def sparseN (ncode : Nat) : Nat := 12 * (ncode + 1)
def sparseSize (fmt : Nat) : Nat := if fmt < 2 then 2 else 1
/-- Table 9.8. Groups that a line can hold, and bytes of a group. -/
def sparseMax (fmt ncode : Nat) : Nat :=
  if fmt < 2 then [4, 2, 1].getD ncode 1 else [6, 4, 2].getD ncode 1
def sparseG (fmt ncode : Nat) : Nat := 6 + sparseN ncode * sparseSize fmt
/-- Table 19.9. Groups of a column, its logical rows and its lines. -/
def sparseGroups (fmt ncode : Nat) : Nat := if fmt < 2 then [10, 6, 4].getD ncode 4 else [20, 10, 8].getD ncode 8
def sparseK (fmt ncode : Nat) : Nat := 48 * sparseGroups fmt ncode
def sparseLines (fmt ncode : Nat) : Nat := (sparseGroups fmt ncode + sparseMax fmt ncode - 1) / sparseMax fmt ncode

/-- Groups that line i of a column holds: every line is full except the last. -/
def sparseInLine (fmt ncode i : Nat) : Nat := min (sparseMax fmt ncode) (sparseGroups fmt ncode - i * sparseMax fmt ncode)

/-- The bitmap of group g of a line. -/
def sparseBitmap (line : List Byte) (fmt ncode g : Nat) : Nat := bytesNat ((line.drop (8 + g * sparseG fmt ncode)).take 6)

/-- Set bits of a number below bit n. -/
def bitsBelow (w : Nat) : Nat → Nat
  | 0 => 0
  | n + 1 => bitsBelow w n + w / 2 ^ n % 2

/-- R176, R341. Whether a line passes its check. -/
def sparseOk (line : List Byte) (fmt ncode i : Nat) : Bool :=
  let at' := fun n => (line.getD n 0).toNat
  at' 0 == fmt && at' 1 == ncode && at' 2 == sparseInLine fmt ncode i && at' 3 == 0 && at' 4 == 0 && at' 5 == 0
    && bytesNat ((line.drop 6).take 2) == crc16 (line.take 6 ++ line.drop 8)
    && (List.range (at' 2)).all fun g => bitsBelow (sparseBitmap line fmt ncode g) 48 == sparseN ncode

/-- The bytes of line i of column j of a sparse operand. -/
def sparseLine (m : List Cell) (bases : List Nat) (pitch j i : Nat) : List Byte :=
  cellsRead m (bases.getD (j / 128) 0 + j % 128 * pitch + 128 * i) 128

/-- Element k of column j: the value at the position of its set bit, or an unset position. -/
def sparseElem (m : List Cell) (bases : List Nat) (pitch fmt ncode j k : Nat) : Elem :=
  let u := k / 48
  let line := sparseLine m bases pitch j (u / sparseMax fmt ncode)
  let g := u % sparseMax fmt ncode
  let bm := sparseBitmap line fmt ncode g
  if bm / 2 ^ (k % 48) % 2 = 1 then
    let z := sparseSize fmt
    elemOf fmt 0 (bytesNat ((line.drop (8 + g * sparseG fmt ncode + 6 + bitsBelow bm (k % 48) * z)).take z))
  else .unset

/-- Whether every line of both halves passes. -/
def sparseAll (m : List Cell) (bases : List Nat) (pitch fmt ncode : Nat) : Bool :=
  (List.range 256).all fun j => (List.range (sparseLines fmt ncode)).all fun i =>
    sparseOk (sparseLine m bases pitch j i) fmt ncode i

/-- R341. MMAS. -/
def productSparse (m : List Cell) (oa : Opnd) (bases : List Nat) (pitch ncode : Nat) (clear neg : Bool) (t : List Word) :
    List Word × Flags :=
  product oa.fmt clear neg oa.k some (oa.elem m) (fun _ _ => none) (sparseElem m bases pitch oa.fmt ncode) (fun _ _ => none) t

/-! ## Accumulator transfers (R343 to R345) -/

/-- Bytes of an element of a transfer TYPE. -/
def xferSize (type : Nat) : Nat := if type = 0 ∨ type = 7 then 4 else if type = 1 ∨ type = 2 then 2 else 1

/-- R344. A tile word from a scratch element: floats widen exactly. -/
def accLoad (type : Nat) (v : Nat) : Word × Flags :=
  match type with
  | 1 => asWord (cvtToFloat fmtF32 (.std .rne) (fmtBF16.val v))
  | 2 => asWord (cvtToFloat fmtF32 (.std .rne) (fmtF16.val v))
  | _ => (BitVec.ofNat 32 v, 0)

/-- A word as a value to convert. -/
def wordVal (w : Word) : Val := fmtF32.val w.toNat

/-- R344, relu. -/
def relu (type : Nat) (x : Word) : Word :=
  if type = 7 then (if 0 < x.toInt then x else 0)
  else match wordVal x with
    | .nan _ => x
    | .inf n => if n then 0 else x
    | .fin n m _ => if n || m == 0 then 0 else x

/-- The exact value before the conversion of one element, for none, relu and scale, with flags of the step itself. -/
def epiVal (ep type : Nat) (scale x : Word) : Val × Flags :=
  match ep with
  | 1 => (wordVal (relu type x), 0)
  | 2 => match exactMul (wordVal x) (wordVal scale) with
    | .nan iv => (.nan ((wordVal x).isSig || (wordVal scale).isSig), flagIf iv fIV)
    | p => (p.val, 0)
  | _ => (wordVal x, 0)

/-- R344. One element stored: its bits and flags.
Log entry 74 (DEDUCED). -/
def accStore (type : Nat) (mode : CvtMode) (v : Val) : Nat × Flags :=
  match fmtOfType type with
  | some f => cvtToFloat f mode v
  | none => (0, 0)

/-- R344, smx: one row and its state (m, s): the values e_j, the new state, flags. -/
def smxRow (m s : Word) (xs : List Word) : List Word × (Word × Word) × Flags :=
  if (xs.any isNan32) || isNan32 m || isNan32 s || (xs.any isPInf32) || isPInf32 m then
    (xs.map fun _ => 0x7FC00000, (0x7FC00000, 0x7FC00000), fIV)
  else
    let mx := (foldF aluFmax (m :: xs)).1
    if isNInf32 mx then (xs.map fun _ => 0, (m, s), 0)
    else
      let es := xs.map fun x => BitVec.ofNat 32 (expDiff x mx)
      let r := sumProd ((s, expDiff m mx) :: es.map fun e => (0x3F800000, e.toNat))
      (es, (mx, r.1), r.2)

/-- R345. A tile word by its row's factor. -/
def rowScale (v x : Word) : Word × Flags := aluFmul .rne x v

end Sys2Proof.Machine
end

