-- ==== Sys2Proof/Machine/Butterfly.lean ====
section
/-! DEFINITION. The arithmetic of butterfly commands: plans, twiddles and tile updates
(spec/20_isa_butterfly_factor.md R348 to R354). -/

namespace Sys2Proof.Machine

/-! ## Plans (Table 20.3) -/

/-- A field of a little-endian record. -/
def recNat (r : List Byte) (off n : Nat) : Nat := bytesNat ((r.drop off).take n)

structure Plan where
  n : Nat
  stages : Nat
  dir : Nat
  row0 : Nat
  nrows : Nat
  ntot : Nat
  radix : List Nat
  shift : Nat
deriving DecidableEq, Repr

def Plan.ofRecord (r : List Byte) : Plan :=
  { n := recNat r 0 2, stages := recNat r 2 1, dir := recNat r 3 1, row0 := recNat r 4 1, nrows := recNat r 5 1
    ntot := recNat r 6 2, radix := (List.range 7).map fun i => recNat r (8 + i) 1, shift := recNat r 16 2 }

/-- R349. The length that every transform divides. -/
def twiddleBase : Nat := 737280

/-- Whether a plan record keeps its limits (R348). -/
def planOk (r : List Byte) : Bool :=
  let p := Plan.ofRecord r
  decide (2 ≤ p.n) && decide (p.n ≤ 128) && decide (twiddleBase % p.n = 0) && decide (1 ≤ p.stages) && decide (p.stages ≤ 7)
    && decide (p.dir ≤ 1) && decide (p.row0 ≤ 127) && decide (1 ≤ p.nrows) && decide (p.row0 + p.nrows ≤ 128)
    && (p.ntot == 0 || (decide (2 ≤ p.ntot) && decide (p.ntot ≤ 16384) && decide (twiddleBase % p.ntot = 0)))
    && ((p.radix.take p.stages).all fun x => [2, 3, 4, 5, 8].contains x) && ((p.radix.drop p.stages).all fun x => x == 0)
    && (p.radix.take p.stages).foldl (· * ·) 1 == p.n && recNat r 15 1 == 0
    && decide (p.shift < 2 ^ (2 * p.stages)) && ((r.drop 18).all fun b => b == 0)

/-! ## Twiddles (R349) -/

/-- w(m): both components in FP32. -/
def twiddle (m : Nat) : Nat × Nat :=
  let c := cis30 (m / 720) 1024
  let f := cis30 (m % 720) twiddleBase
  let re := c.1 * f.1 - c.2 * f.2
  let im := c.1 * f.2 + c.2 * f.1
  ((roundDy fmtF32 false .rne (decide (re < 0)) re.natAbs (-60)).1, (roundDy fmtF32 false .rne (decide (im < 0)) im.natAbs (-60)).1)

/-- tw(x, M), conjugated in an inverse command, as values. -/
def tw (inverse : Bool) (x len : Nat) : Val × Val :=
  let w := twiddle (x % len * (twiddleBase / len))
  (fmtF32.val w.1, if inverse then (fmtF32.val w.2).neg else fmtF32.val w.2)

/-! ## Sums (R351) -/

/-- One rounding of a sum of terms times 2^-shift: a NaN sets IV, an overflow OF; an exact zero is +0. -/
def bflyRound (shift : Nat) (ps : List Exact) : Nat × Flags :=
  if ps.any Exact.isNan then (fmtF32.nan, fIV)
  else
    let up := ps.any fun p => p == .inf false
    let down := ps.any fun p => p == .inf true
    if up && down then (fmtF32.nan, fIV)
    else if up || down then (fmtF32.sign down + 0x7F800000, 0)
    else
      match ps.foldl (fun acc p => exactAdd .rne acc.val p.val) (.num false 0 0) with
      | .num n m e =>
        if m = 0 then (0, 0)
        else let r := roundDy fmtF32 false .rne n m (e - shift); (r.1, r.2 &&& fOF)
      | _ => (0, 0)

/-- The terms of the real or imaginary part of x * w. -/
def cmulTerms (imag : Bool) (x w : Val × Val) : List Exact :=
  if imag then [exactMul x.1 w.2, exactMul x.2 w.1] else [exactMul x.1 w.1, (exactMul x.2 w.2).negIf true]

/-- Element e of row r of a tile. -/
def tileElem (t : List Word) (r e : Nat) : Val × Val :=
  (fmtF32.val (t.getD (r * 256 + 2 * e) 0).toNat, fmtF32.val (t.getD (r * 256 + 2 * e + 1) 0).toNat)

/-! ## BFLY, BREV, BTWID, ATRANS -/

/-- R350. The digit reversal of a plan. -/
def drevFrom (n : Nat) : List Nat → Nat → Nat → Nat
  | [], _, _ => 0
  | r :: rs, den, i => i % r * (n / (den * r)) + drevFrom n rs (den * r) (i / r)

def Plan.drev (p : Plan) (i : Nat) : Nat := drevFrom p.n (p.radix.take p.stages) 1 i

/-- Component `imag` of output o of stage k on row r. -/
def Plan.stageOut (p : Plan) (inverse : Bool) (k : Nat) (t : List Word) (r o : Nat) (imag : Bool) : Nat × Flags :=
  let len := p.n / (p.radix.take k).foldl (· * ·) 1
  let rad := p.radix.getD k 1
  let span := len / rad
  let b := o / len * len
  let q := o % len / span
  let n := o % len % span
  bflyRound (p.shift / 4 ^ k % 4)
    ((List.range rad).map fun j => cmulTerms imag (tileElem t r (b + n + j * span)) (tw inverse ((j * span + n) * q) len)).flatten

/-- Whether a word of a tile lies in the rows and elements of a plan. -/
def Plan.holds (p : Plan) (r j : Nat) : Bool := decide (p.row0 ≤ r) && decide (r < p.row0 + p.nrows) && decide (j / 2 < p.n)

def Plan.inverse (p : Plan) (f3 : Bool) : Bool := (p.dir == 1) != f3

/-- BFLY, R350. -/
def bfly (p : Plan) (f3 f4 : Bool) (k : Nat) (t : List Word) : List Word × Flags :=
  tileMap t fun r j w =>
    if p.holds r j then
      asWord (p.stageOut (p.inverse f3) k t r (if f4 then p.drev (j / 2) else j / 2) (j % 2 == 1))
    else (w, 0)

/-- The element that a reordering by drev brings to position i: the position given, or its inverse. -/
def Plan.brevFrom (p : Plan) (dir : Bool) (i : Nat) : Nat :=
  if dir then ((List.range p.n).find? fun x => p.drev x == i).getD i else p.drev i

/-- BREV, R352. -/
def brev (p : Plan) (dir : Bool) (t : List Word) : List Word :=
  (tileMap t fun r j w => (if p.holds r j then t.getD (r * 256 + 2 * p.brevFrom dir (j / 2) + j % 2) 0 else w, 0)).1

/-- BTWID, R353. -/
def btwid (p : Plan) (f3 : Bool) (t : List Word) : List Word × Flags :=
  tileMap t fun r j w =>
    if p.holds r j then
      asWord (bflyRound 0 (cmulTerms (j % 2 == 1) (tileElem t r (j / 2)) (tw (p.inverse f3) ((r - p.row0) * (j / 2)) p.ntot)))
    else (w, 0)

/-- ATRANS, R354. -/
def atrans (t : List Word) : List Word := (tileMap t fun r j _ => (t.getD (j / 2 * 256 + 2 * r + j % 2) 0, 0)).1

end Sys2Proof.Machine
end

