-- ==== Sys2Proof/Machine/Factor.lean ====
section
/-! DEFINITION. The arithmetic of factorising sessions (spec/20_isa_butterfly_factor.md R355 to R362). -/

namespace Sys2Proof.Machine

/-! ## Magnitudes and division -/

/-- |a| of an FP32 word as its code, in the order of magnitudes. -/
def mag (w : Word) : Nat := w.toNat % 2 ^ 31

/-- The larger of two magnitudes, a NaN taking no part. -/
def magMax (m : Nat) (w : Word) : Nat := if isNan32 w then m else max m (mag w)

/-- l = x / P, correctly rounded by RNE with the flags of IEEE 754 (R357). -/
def luDiv (x p : Word) : Word × Flags :=
  if isNan32 x || isNan32 p then (0x7FC00000, flagIf ((fmtF32.val x.toNat).isSig || (fmtF32.val p.toNat).isSig) fIV)
  else asWord (fDiv .rne x.toNat p.toNat)

/-! ## Parameters (Table 20.5) -/

def luParamsOk (r : List Byte) : Bool :=
  let rows := recNat r 0 2
  let cols := recNat r 2 2
  decide (1 ≤ rows) && decide (rows ≤ 128) && decide (1 ≤ cols) && decide (cols ≤ 256)
    && decide (recNat r 4 4 + rows ≤ 2 ^ 31) && decide (recNat r 8 4 < 0x7F800000) && decide (recNat r 12 4 ≤ 0x7F800000)
    && ((r.drop 16).all fun b => b == 0)

/-- The session that LUBEG opens. -/
def LuSession.open' (id : Nat) (r : List Byte) (pair slot : Nat) : LuSession :=
  { id := id, pair := pair, slot := slot, rows := recNat r 0 2, cols := recNat r 2 2, growBase := recNat r 4 4
    tau := BitVec.ofNat 32 (recNat r 8 4), glim := BitVec.ofNat 32 (recNat r 12 4) }

/-! ## The tile in the processing elements -/

def LuSession.at' (s : LuSession) (r j : Nat) : Word := s.a.getD (r * 256 + j) 0

/-- R355. LUBEG runs: it loads the tile and takes MAXA0. -/
def LuSession.load (s : LuSession) (tile : List Word) : LuSession :=
  let s1 := { s with a := tile, loaded := true }
  let m := ((List.range s.rows).map fun r => (List.range s.cols).map fun j => s1.at' r j).flatten.foldl magMax 0
  { s1 with maxA0 := BitVec.ofNat 32 m, maxA := BitVec.ofNat 32 m }

/-- The unpivoted active rows. -/
def LuSession.unpivoted (s : LuSession) : List Nat :=
  (List.range s.rows).filter fun r => !(s.pivoted.any fun p => p.1 == r)

/-- The row of largest |a[r][k]|, ties to the lowest. -/
def LuSession.best (s : LuSession) : List Nat → Nat
  | [] => 0
  | [r] => r
  | r :: rs => let b := s.best rs; if mag (s.at' b s.k) ≤ mag (s.at' r s.k) then r else b

/-- A comparator tie among rows. -/
def LuSession.tieOf (s : LuSession) (u : List Nat) (g : Nat) : Bool :=
  decide (2 ≤ (u.filter fun r => mag (s.at' r s.k) == mag (s.at' g s.k)).length)

/-- What a precise factorising command gives: a refusal, a trap with its detail, or the session and what it leaves. -/
inductive LuRes where
  | refuse
  | trap (code : BitVec 8) (step : Nat)
  | done (s : LuSession) (flags : Flags) (count : Nat) (key : DWord) (out : Option (List Word))
deriving DecidableEq, Repr

/-- A command that leaves the session as it is. -/
def LuRes.idle (s : LuSession) : LuRes := .done s 0 0 0 none

/-- R358. What becomes of a pivot: a trap or stop, or the pivot and whether it was perturbed. -/
inductive Singular where
  | trap | stop | use (p : Word) (perturbed : Bool)
deriving DecidableEq, Repr

def LuSession.singular (s : LuSession) (p ctl : Word) : Singular :=
  if mag s.tau < mag p then .use p false
  else
    match ctl.toNat % 4 with
    | 0 => .trap
    | 2 => .stop
    | _ => .use ((p &&& 0x80000000) ||| s.tau) true

/-- A control word outside Table 20.6. -/
def ctlBad (ctl : Word) : Bool := decide (8 ≤ ctl.toNat) || decide (ctl.toNat % 4 = 3)

/-- R358. The stop of a session at step k. -/
def LuSession.stop (s : LuSession) : LuSession := { s with stopped := true, stopStep := s.k }

/-! ## LUSTEP (R357, R359) -/

/-- One updated row: the new words of columns k on, with flags. -/
def LuSession.updateRow (s : LuSession) (r : Nat) (p : List Word) : List (Word × Flags) :=
  let l := luDiv (s.at' r s.k) (p.headD 0)
  l :: ((p.drop 1).mapIdx fun i pj => aluFma .rne (s.at' r (s.k + 1 + i)) (l.1 ^^^ 0x80000000) pj)

/-- Words of a row from column k on replaced. -/
def putRow (a : List Word) (r k : Nat) (xs : List Word) : List Word :=
  a.mapIdx fun i w => if r * 256 + k ≤ i ∧ i < r * 256 + k + xs.length then xs.getD (i - (r * 256 + k)) w else w

/-- R359. Whether MAX' exceeds GLIM times MAXA0, where the limit is checked. -/
def LuSession.grows (s : LuSession) (m : Nat) (ctl : Word) : Bool :=
  let m0 := mag s.maxA0
  decide (0 < m0) && decide (m0 < 0x7F800000) && !ctl.getLsbD 2
    && (match exactMul (fmtF32.val s.glim.toNat) (fmtF32.val m0) with
        | .nan _ => false
        | p => valCmp (fmtF32.val m) p.val == some .gt)

/-- The elimination of column k by a pivot. -/
def LuSession.eliminate (s : LuSession) (pv : Pivot) (tie write : Bool) (ctl : Word) : LuRes :=
  let rows := s.unpivoted.filter fun r => !(pv.local' && r == pv.g)
  let news := rows.map fun r => (r, s.updateRow r pv.p)
  let p := pv.p.headD 0
  let m0 := if pv.perturbed && pv.local' then magMax (mag s.maxA) p else mag s.maxA
  let m := (news.map fun x => (x.2.drop 1).map Prod.fst).flatten.foldl magMax m0
  if s.grows m ctl then .trap tGrowth s.k
  else
    let a1 := news.foldl (fun a x => putRow a x.1 s.k (x.2.map Prod.fst)) s.a
    let a2 := if write then putRow a1 pv.g s.k [p] else a1
    let fl := ((news.map fun x => x.2.map Prod.snd).flatten).foldl (· ||| ·) 0
    .done { s with
        a := a2, maxA := BitVec.ofNat 32 m, k := s.k + 1, committed := none, tie := false
        pivoted := if pv.local' then s.pivoted ++ [(pv.g, s.k)] else s.pivoted
        history := s.history ++ [⟨pv.row, s.k, pv.perturbed, !pv.local', tie⟩] }
      fl (rows.length + 2 * rows.length * (s.cols - s.k - 1)) 0 none

/-- Columns k on of an active row. -/
def LuSession.rowFrom (s : LuSession) (r : Nat) : List Word := (List.range (s.cols - s.k)).map fun j => s.at' r (s.k + j)

/-- LUSTEP, R357. -/
def LuSession.step (s : LuSession) (ctl : Word) : LuRes :=
  if s.stopped then .idle s
  else if s.k = s.cols then .refuse
  else
    match s.committed with
    | some pv => s.eliminate pv s.tie false ctl
    | none =>
      let u := s.unpivoted
      if u.isEmpty then .refuse
      else if u.any fun r => isNan32 (s.at' r s.k) then .trap tInvalidPivot s.k
      else
        let g := s.best u
        match s.singular (s.at' g s.k) ctl with
        | .trap => .trap tSingular s.k
        | .stop => .idle s.stop
        | .use p perturbed =>
          s.eliminate { row := BitVec.ofNat 32 (s.growBase + g), p := p :: (s.rowFrom g).drop 1, local' := true, g := g,
                        perturbed := perturbed } (s.tieOf u g) perturbed ctl

/-! ## LUCAND, LUCOMMIT (R360, R361) -/

/-- LUCAND, R360. The key, and the row that it exports. -/
def LuSession.cand (s : LuSession) : LuRes :=
  if s.stopped then .idle s
  else if s.k = s.cols then .refuse
  else
    let u := s.unpivoted
    if u.isEmpty then .idle s
    else if u.any fun r => isNan32 (s.at' r s.k) then .trap tInvalidPivot s.k
    else
      let g := s.best u
      .done { s with tie := s.tieOf u g } 0 0
        (pairOf (0xFFFFFFFF - BitVec.ofNat 32 (s.growBase + g)) (BitVec.ofNat 32 (mag (s.at' g s.k)))) (some (s.rowFrom g))

/-- Whether a global row lies in the tile. -/
def LuSession.isLocal (s : LuSession) (row : Word) : Bool :=
  decide (s.growBase ≤ row.toNat) && decide (row.toNat < s.growBase + s.rows)

/-- LUCOMMIT, R361. `remote` is the row read from scratch for a remote pivot. -/
def LuSession.commit (s : LuSession) (row ctl : Word) (remote : List Word) : LuRes :=
  if s.stopped then .idle s
  else if s.k = s.cols || s.committed.isSome then .refuse
  else
    let here := s.isLocal row
    let g := row.toNat - s.growBase
    if here && (s.pivoted.any fun p => p.1 == g) then .refuse
    else
      let p := if here then s.rowFrom g else remote
      if isNan32 (p.headD 0) then .trap tInvalidPivot s.k
      else
        match s.singular (p.headD 0) ctl with
        | .trap => .trap tSingular s.k
        | .stop => .idle s.stop
        | .use x perturbed =>
          .idle { s with
            a := if here && perturbed then putRow s.a g s.k [x] else s.a
            committed := some { row := row, p := x :: p.drop 1, local' := here, g := g, perturbed := perturbed } }

/-! ## LUEND (R362) -/

/-- The tile rows in logical order. -/
def LuSession.order (s : LuSession) : List Nat :=
  s.pivoted.map Prod.fst ++ s.unpivoted ++ (List.range (128 - s.rows)).map (s.rows + ·)

/-- The tile that LUEND writes back. -/
def LuSession.writeBack (s : LuSession) : List Word :=
  (s.order.map fun r => (List.range 256).map fun j => s.at' r j).flatten

/-- R359. The reported growth. -/
def LuSession.growth (s : LuSession) : Word := if mag s.maxA0 = 0 then 0 else (luDiv s.maxA s.maxA0).1

/-- Table 20.8. -/
def LuSession.output (s : LuSession) : List Byte :=
  natBytes 2 s.k ++ natBytes 1 (if s.stopped then 1 else 0) ++ natBytes 1 s.stopStep ++ natBytes 4 s.growth.toNat
    ++ natBytes 4 s.maxA0.toNat ++ natBytes 4 s.maxA.toNat
    ++ (s.history.map fun h => natBytes 4 h.row.toNat ++ natBytes 2 h.step
        ++ natBytes 1 ((if h.perturbed then 1 else 0) + (if h.remote then 2 else 0) + (if h.tie then 4 else 0))
        ++ natBytes 1 0).flatten

end Sys2Proof.Machine
end

