-- ==== Sys2Proof/Machine/Rows.lean ====
section
/-! DEFINITION. The meanings of the 64-bit operations (spec/12_isa_lane_ops.md R239, R240), conversions (R255 to R257),
LGET and RAND (R258, R259), and of special functions, reductions, softmax state and table lookups
(spec/13_isa_rows_special.md R261 to R270). -/

namespace Sys2Proof.Machine

/-! ## 64-bit pairs -/

/-- ADD64_A, R239. Pair d = pair a + sext(b) modulo 2^64. -/
def execAdd64A (y : BitVec 2) (x : BitVec 2) (b : BitVec 6) (a : BitVec 6) (d : BitVec 6) (s : State) :
    Host.Outcome State Fault Refusal :=
  laneExec (.add64A y x b a d)
    { fields := [regF a 2, srcF b, outF d 2], kills := kill x a 2 ++ kill y b, inc := 1
      eval := perThread fun _ gr t =>
        pairRes d.toNat (aluAdd64 ((gr.thread t).pair a.toNat) ((gr.thread t).reg b.toNat)) } s

/-- ADD64_I, R239. Pair d = pair a + sext(imm10) modulo 2^64. -/
def execAdd64I (i : BitVec 10) (a : BitVec 6) (d : BitVec 6) (s : State) : Host.Outcome State Fault Refusal :=
  laneExec (.add64I i a d)
    { fields := [regF a 2, outF d 2], inc := 1
      eval := perThread fun _ gr t => pairRes d.toNat (aluAdd64 ((gr.thread t).pair a.toNat) (sx i)) } s

/-- MADW, R240. Pair d += zext(a) times zext(b) modulo 2^64. -/
def execMadw (y : BitVec 2) (x : BitVec 2) (b : BitVec 6) (a : BitVec 6) (d : BitVec 6) (s : State) :
    Host.Outcome State Fault Refusal :=
  laneExec (.madw y x b a d)
    { fields := [srcF a, srcF b, updF d 2], kills := kill x a ++ kill y b, inc := 2
      eval := perThread fun _ gr t =>
        let th := gr.thread t
        pairRes d.toNat (aluMadw (th.pair d.toNat) (th.reg a.toNat) (th.reg b.toNat)) } s

/-! ## Conversions -/

/-- R71, Table 11.9. The features that a CVT needs: its types', and stochastic rounding. -/
def cvtNeed (m : BitVec 2) (t src : BitVec 4) : List Nat :=
  let f := fun (c : Nat) => match c with
    | 3 | 4 | 5 | 14 => [6]
    | 6 => [5]
    | 11 => [7]
    | _ => []
  f t.toNat ++ f src.toNat ++ (if m = 3 then [8] else [])

/-- R167, R259. The key and L that a thread's generators use; a handler instance uses CTX_SEED and L = 0. -/
def State.genSeed (s : State) (gr : Group) : DWord :=
  if gr.key.kind == .handler then (s.ctx gr.key.ctx).seed else s.seedOf gr.key.ctx gr.key.node

def Group.genL (gr : Group) (t : Nat) : Word := if gr.key.kind == .handler then 0 else gr.l t

/-- R167. The n-th stochastic value of a thread. -/
def stochastic (seed : DWord) (l : Word) (n : Nat) : Nat :=
  (omix (seed ^^^ 0x5A5A5A5A5A5A5A5A) (l ++ BitVec.ofNat 32 n)).toNat

/-- R221. The rounding of element j of a thread's conversion. -/
def cvtMode (m : BitVec 2) (s : State) (gr : Group) (t j : Nat) : CvtMode :=
  match m.toNat with
  | 0 => .std (s.mode gr t)
  | 1 => .std .rne
  | 2 => .std .rz
  | _ => .stoch (stochastic (s.genSeed gr) (gr.genL t) ((gr.thread t).convs + j))

/-- Table 5.3. The category of a CVT destination. -/
def cvtCat (t : Nat) : Nat :=
  match t with
  | 0 => 0
  | 1 | 12 => 2
  | 2 | 13 => 3
  | 3 | 14 => 4
  | 4 => 5
  | 5 => 6
  | 6 => 7
  | 7 | 8 => 12
  | 9 => 11
  | 10 => 8
  | _ => 10

/-- CVT, R257. Converts each source element of a to the destination type in the selected rounding. -/
def execCvt (m : BitVec 2) (t : BitVec 4) (src : BitVec 4) (a : BitVec 6) (d : BitVec 6) (s : State) :
    Host.Outcome State Fault Refusal :=
  laneExec (.cvt m t src a d)
    { need := cvtNeed m t src, fields := [srcF a, dstF d], cat := cvtCat t.toNat, inc := cvtElems src.toNat t.toNat
      eval := perThread fun s gr u =>
        { oneRes d.toNat (cvtWord src.toNat t.toNat (cvtMode m s gr u) ((gr.thread u).reg a.toNat)) with
          convs := if m = 3 then cvtElems src.toNat t.toNat else 0 } } s

/-! ## Special functions -/

/-- SFU, R261. Evaluates the selected special function on each element of a, correctly rounded. -/
def execSfu (f : BitVec 2) (n : BitVec 4) (a : BitVec 6) (d : BitVec 6) (s : State) : Host.Outcome State Fault Refusal :=
  laneExec (.sfu f n a d)
    { fields := [srcF a, dstF d], cat := 16, inc := if f = 0 then 1 else 2
      eval := perThread fun s gr t => oneRes d.toNat (sfuWord (s.mode gr t) f.toNat n.toNat ((gr.thread t).reg a.toNat)) } s

/-! ## Reductions and scans -/

/-- R265. REDG code 9: every thread of the set receives the merged state. -/
def redgSmx (a d : Nat) (gr : Group) (set : List Nat) : List LaneRes :=
  let r := smxMerge (set.map fun t => (loWord ((gr.thread t).pair a), hiWord ((gr.thread t).pair a)))
  set.map fun _ => pairRes d (pairOf r.1.1 r.1.2) r.2

/-- REDG, R264. Reduces the issuing threads' values by the selected code and writes the result to each. -/
def execRedg (c : BitVec 4) (a : BitVec 6) (d : BitVec 6) (s : State) : Host.Outcome State Fault Refusal :=
  laneExec (.redg c a d)
    (if c = 9 then
      { fields := [regF a 2, outF d 2], cat := 0, inc := 1, eval := fun _ gr set => redgSmx a.toNat d.toNat gr set }
    else
      { fields := [srcF a, if c = 1 ∨ c = 10 then updF d else dstF d], cat := groupCat false c.toNat, inc := 1
        combine := some (false, c.toNat, d.toNat)
        eval := fun _ gr set => groupOp false c.toNat d.toNat gr set fun t => (gr.thread t).reg a.toNat }) s

/-- SCANG, R266. Writes each issuing thread the selected prefix scan over the issue set in ascending L. -/
def execScang (c : BitVec 4) (a : BitVec 6) (d : BitVec 6) (s : State) : Host.Outcome State Fault Refusal :=
  laneExec (.scang c a d)
    { fields := [srcF a, dstF d], cat := groupCat true c.toNat, inc := 1, combine := some (true, c.toNat, d.toNat)
      eval := fun _ gr set => groupOp true c.toNat d.toNat gr set fun t => (gr.thread t).reg a.toNat } s

/-! ## Softmax state -/

/-- SMXACC, R268. Folds value a into the running softmax state in pair d. -/
def execSmxacc (x : BitVec 2) (a : BitVec 6) (d : BitVec 6) (s : State) : Host.Outcome State Fault Refusal :=
  laneExec (.smxacc x a d)
    { fields := [srcF a, updF d 2], kills := kill x a, cat := 16, inc := 1
      eval := perThread fun _ gr t =>
        let th := gr.thread t
        let r := smxAcc (loWord (th.pair d.toNat)) (hiWord (th.pair d.toNat)) (th.reg a.toNat)
        pairRes d.toNat (pairOf r.1.1 r.1.2) r.2 } s

/-- SMXNORM, R269. d = EXP(a - m) / s with (m, s) from pair b. -/
def execSmxnorm (y : BitVec 2) (x : BitVec 2) (b : BitVec 6) (a : BitVec 6) (d : BitVec 6) (s : State) :
    Host.Outcome State Fault Refusal :=
  laneExec (.smxnorm y x b a d)
    { fields := [srcF a, regF b 2, dstF d], kills := kill x a ++ kill y b 2, cat := 16, inc := 1
      eval := perThread fun _ gr t =>
        let th := gr.thread t
        oneRes d.toNat (smxNorm (th.reg a.toNat) (loWord (th.pair b.toNat)) (hiWord (th.pair b.toNat))) } s

/-! ## Tables, LGET, RAND -/

/-- R270. The live buffer of a lookup table of a group's team. -/
def State.liveTable (s : State) (k : GKey) (table : Nat) : List Word :=
  ((s.team? (gkeyTeam k)).map fun tm => (tm.tables.getD table {}).live).getD []

/-- R270. A thread that waits for a word of qr keeps the buffer that its TBL reads. -/
def Thread.keepTable (live : List Word) (th : Thread) : Thread :=
  match th.state with
  | .blocked (.qr _) => { th with table := if th.table = [] then live else th.table }
  | _ => th

/-- R270, R272. TBL as a lane operation: every thread reads the buffer that was live at the issue. -/
def tblOp (k : BitVec 2) (a d : BitVec 6) : LaneOp where
  noHandler := true
  fields := [srcF a, dstF d]
  inc := 1
  eval := perThread fun s gr t =>
    let kept := (gr.thread t).table
    let live := if kept = [] then s.liveTable gr.key k.toNat else kept
    oneRes d.toNat (live.getD (((gr.thread t).reg a.toNat).toNat % 256) 0, 0)

/-- R270. The threads of a set that wait in a TBL keep the buffer. -/
def State.keepTables (s : State) (g : Nat) (set : List Nat) (live : List Word) : State :=
  s.modGroup g fun x => { x with threads := x.threads.mapIdx fun t th => if set.contains t then th.keepTable live else th }

/-- R272. A lookup table notes the cycle in which a TBL reads it. -/
def State.noteTable (s : State) (k : TKey) (table : Nat) : State :=
  s.modTeam k fun t => { t with tables := t.tables.modify table fun b => { b with readAt := some s.cycle } }

/-- TBL, R270. d = word a[7:0] of the team's live lookup table k. -/
def execTbl (k : BitVec 2) (a : BitVec 6) (d : BitVec 6) (s : State) : Host.Outcome State Fault Refusal :=
  withIssue (.tbl k a d) s fun act gr s =>
    let op := tblOp k a d
    let s1 := op.run act gr s
    if (op.check act gr s).isSome then s1
    else (if a = 61 then s1.keepTables act.g act.set (s.liveTable gr.key k.toNat) else s1).noteTable (gkeyTeam gr.key) k.toNat

/-- R258. The thread that LGET reads. -/
def lgetSource (gr : Group) (b t : Nat) : Nat := ((gr.thread t).reg b).toNat % 64 % gr.w

/-- LGET, R258. Reads register a of the group thread selected by b, or a part of it; a pending b selects none (R217). -/
def execLget (y : BitVec 2) (x : BitVec 2) (b : BitVec 6) (a : BitVec 6) (d : BitVec 6) (s : State) :
    Host.Outcome State Fault Refusal :=
  laneExec (.lget y x b a d)
    { fields := [{ num := a.toNat, own := false }, srcF b, dstF d], kills := kill x a ++ kill y b
      cross := fun gr t =>
        if (b = 61 ∧ (gr.thread t).queue.isEmpty) ∨ (gr.thread t).isPend b.toNat then []
        else [(lgetSource gr b.toNat t, a.toNat)]
      eval := perThread fun _ gr t =>
        oneRes d.toNat
          (lgetPart ((gr.thread t).reg b.toNat) ((gr.thread (lgetSource gr b.toNat t)).reg a.toNat), 0) } s

/-- RAND, R259. d = omix(seed, L times 2^32 + a + imm). -/
def execRand (i : BitVec 10) (a : BitVec 6) (d : BitVec 6) (s : State) : Host.Outcome State Fault Refusal :=
  laneExec (.rand i a d)
    { fields := [srcF a, dstF d]
      eval := perThread fun s gr t =>
        oneRes d.toNat (omix (s.genSeed gr) (gr.genL t ++ ((gr.thread t).reg a.toNat + sx i)), 0) } s

end Sys2Proof.Machine
end

