-- ==== Sys2Proof/Machine/Shares.lean ====
section
/-! DEFINITION. Share arithmetic and the stile (spec/22_isa_shares.md R365 to R378): hampers, the rounds of the share lane
operations, and what the stile does with contributions. SMMA (R379) is issued in Engines. -/

namespace Sys2Proof.Machine

/-! ## Rings, hampers -/

/-- An integer in a ring of k bits. -/
def ringMod (k : Nat) (v : Int) : Nat := (v % 2 ^ k).toNat

/-- R365. The share that a thread holds in a register or pair. -/
def Thread.share (th : Thread) (width n : Nat) : Nat :=
  if width = 64 then (th.pair n).toNat else (th.reg n).toNat % 2 ^ width

/-- R365. A share as register writes. -/
def shareWrites (width n v : Nat) : List (Nat × Word) :=
  if 60 ≤ n then []
  else if width = 64 then [(n, BitVec.ofNat 32 v), (n + 1, BitVec.ofNat 32 (v / 2 ^ 32))]
  else [(n, BitVec.ofNat 32 v)]

/-- The open session of a context, with the context's party and the address of its hamper (R366). -/
def State.shareSession (s : State) (c : Nat) : Option (Session × Nat × Nat) :=
  match (s.ctx c).session with
  | none => none
  | some id =>
    match s.session? id with
    | none => none
    | some x =>
      if !x.opened then none
      else some (x, (s.ctx c).party, ((x.hampers.find? fun h => h.1 == (s.ctx c).party).map fun h => h.2.toNat).getD 0)

/-- The party of a context of this device in a session. -/
def Session.partyOf (x : Session) (dev : BitVec 16) (c : Nat) : Option Nat :=
  x.parties.findIdx? fun p => p.dev == dev && p.ctx == c

/-- Table 22.5. The hamper kind that an op5 consumes. -/
def hamperKind (op : Nat) : Option Nat :=
  match op with
  | 25 => some 0
  | 11 => some 1
  | 26 => some 2
  | 27 => some 3
  | 28 => some 4
  | _ => none

/-- R369. The cursor of the kind that an op consumes, or REVEALS, from the header at h. -/
def State.hamperCursor (s : State) (c h op : Nat) : Word :=
  match hamperKind op with
  | some j => BitVec.ofNat 32 (s.virtNat c (h + 44 + 32 * j) 4)
  | none => BitVec.ofNat 32 (s.virtNat c (h + 8) 8)

/-- The first address of each 64 KiB page that some bytes touch. -/
def pageStarts (a n : Nat) : List Nat :=
  if n = 0 then [] else (List.range ((a + n - 1) / 65536 - a / 65536 + 1)).map fun i => if i = 0 then a else (a / 65536 + i) * 65536

/-- R373 check 5. The bytes of entries, read as loads of the elected thread. -/
def State.readable (s : State) (k : GKey) (a n : Nat) : Chk :=
  ((pageStarts a n).findSome? fun x =>
    match checkGlobal (s.ctx k.ctx) (s.team? (gkeyTeam k)) x 1 1 false with
    | .ok _ => none
    | r => some r).getD (.ok (.scr 0))

/-- R367. The elements of entry i of kind j. -/
def State.hamperEntry (s : State) (c h ring j i : Nat) : List Nat :=
  let e := ring / 8
  let m := entryElems ring j
  let b := s.virtNat c (h + 32 + 32 * j) 8 + i * (m * e)
  (List.range m).map fun q => s.virtNat c (b + q * e) e

/-- R373 checks 4 and 5 for n entries of the kind of an op: what stops, or the cursor and the entries. -/
def State.takeEntries (s : State) (k : GKey) (h ring op n : Nat) : Chk × List (List Nat) :=
  match hamperKind op with
  | none => (.ok (.scr 0), List.replicate n [])
  | some j =>
    let cur := (s.hamperCursor k.ctx h op).toNat
    let count := s.virtNat k.ctx (h + 40 + 32 * j) 4
    if count < cur + n then (.fault tHamperEmpty (BitVec.ofNat 32 cur), [])
    else
      let z := entryElems ring j * (ring / 8)
      match s.readable k (s.virtNat k.ctx (h + 32 + 32 * j) 8 + cur * z) (n * z) with
      | .ok l => (.ok l, (List.range n).map fun i => s.hamperEntry k.ctx h ring j (cur + i))
      | r => (r, [])

/-- R368. A store of the device itself into a hamper header, by a team's thread. -/
def State.hamperStore (s : State) (k : GKey) (x n v : Nat) : State :=
  match (s.ctx k.ctx).phys? x with
  | some p => s.writeLoc (gkeyTeam k) (.glob p x none) (natBytes n v)
  | none => s

/-- R373, R378. The issue of a share instruction: the node is sealed, the cursor or REVEALS advances, and so does the
sequence number of the lowest-L thread. -/
def State.consume (s : State) (k : GKey) (g t h op n : Nat) : State :=
  let s1 := s.sealNow k.ctx k.node 2
  let s2 := match hamperKind op with
    | some j => s1.hamperStore k (h + 44 + 32 * j) 4 ((s.hamperCursor k.ctx h op).toNat + n)
    | none => s1.hamperStore k (h + 8) 8 (s.virtNat k.ctx (h + 8) 8 + 1)
  s2.modThread g t fun th => { th with shareSeq := (th.shareSeq + 1) % 2 ^ 32 }

/-! ## Products (R374) -/

/-- d and e of a product of shares x, y under a triple a, b, c. -/
def mulSend (k : Nat) (p : Nat × Nat) (tr : Nat × Nat × Nat) : List Nat :=
  [ringMod k ((p.1 : Int) - tr.1), ringMod k ((p.2 : Int) - tr.2.1)]

/-- The share of the product from the sums D and E. -/
def mulOut (k : Nat) (first : Bool) (tr : Nat × Nat × Nat) (d e : Nat) : Nat :=
  (tr.2.2 + d * tr.2.1 + e * tr.1 + (if first then d * e else 0)) % 2 ^ k

/-- Triple i of an entry whose triples begin at an element. -/
def tripleAt (entry : List Nat) (off i : Nat) : Nat × Nat × Nat :=
  (entry.getD (off + 3 * i) 0, entry.getD (off + 3 * i + 1) 0, entry.getD (off + 3 * i + 2) 0)

/-! ## The comparison tree (R376) -/

/-- The leaves under the public sum c, in a ring of k bits. -/
def sltzLeaves (k : Nat) (first : Bool) (entry : List Nat) (c : Nat) : List (Nat × Nat) :=
  (List.range (k - 1)).map fun j =>
    let r := entry.getD j 0
    if c / 2 ^ j % 2 = 0 then (r, ringMod k ((if first then 1 else 0) - r)) else (0, r)

/-- The products of a level of nodes, or the last product at the root. -/
def sltzPairs (k : Nat) (entry : List Nat) (nodes : List (Nat × Nat)) : List (Nat × Nat) :=
  if nodes.length ≤ 1 then [(entry.getD (k - 1) 0, (nodes.getD 0 (0, 0)).1)]
  else ((List.range (nodes.length / 2)).map fun i =>
    let lo := nodes.getD (2 * i) (0, 0)
    let hi := nodes.getD (2 * i + 1) (0, 0)
    [(hi.2, lo.1), (hi.2, lo.2)]).flatten

/-- The triples of the products of a level: two were used for each node that has gone. -/
def sltzTriple (k : Nat) (entry : List Nat) (nodes : List (Nat × Nat)) (i : Nat) : Nat × Nat × Nat :=
  tripleAt entry k (2 * (k - 1 - nodes.length) + i)

def sltzSend (k : Nat) (entry : List Nat) (nodes : List (Nat × Nat)) : List Nat :=
  ((sltzPairs k entry nodes).mapIdx fun i p => mulSend k p (sltzTriple k entry nodes i)).flatten

/-- The products of a level from its sums. -/
def sltzProducts (k : Nat) (first : Bool) (entry : List Nat) (nodes : List (Nat × Nat)) (sums : List Nat) : List Nat :=
  (sltzPairs k entry nodes).mapIdx fun i _ =>
    mulOut k first (sltzTriple k entry nodes i) (sums.getD (2 * i) 0) (sums.getD (2 * i + 1) 0)

/-- The next level of nodes. -/
def sltzLevel (k : Nat) (nodes : List (Nat × Nat)) (prods : List Nat) : List (Nat × Nat) :=
  (List.range (nodes.length / 2)).map (fun i =>
    (((nodes.getD (2 * i + 1) (0, 0)).1 + prods.getD (2 * i) 0) % 2 ^ k, prods.getD (2 * i + 1) 0))
  ++ nodes.drop (2 * (nodes.length / 2))

/-- The result at the root. -/
def sltzResult (k : Nat) (first : Bool) (entry : List Nat) (c lf prod : Nat) : Nat :=
  let t := ringMod k ((entry.getD (k - 1) 0 : Int) + lf - 2 * prod)
  if c / 2 ^ (k - 1) % 2 = 0 then t else ringMod k ((if first then 1 else 0) - (t : Int))

/-! ## Rounds of one instruction -/

/-- The elements that thread j sends in round 0. -/
def shareFirst (op k x y : Nat) (entry : List Nat) : List Nat :=
  match op with
  | 25 => mulSend k (x, y) (tripleAt entry 0 0)
  | 26 => [(x + entry.getD 0 0) % 2 ^ k]
  | 27 => [(x + ((List.range k).map fun j => entry.getD j 0 * 2 ^ j).sum) % 2 ^ k]
  | 28 => [(x + (entry.mapIdx fun i u => i * u).sum) % 256]
  | _ => [x % 2 ^ k]

/-- What a thread does with the sums of a round: its result, or the public sum and the nodes that it goes on with. -/
inductive ShareStep where
  | done (v : Nat)
  | more (c : Nat) (nodes : List (Nat × Nat))
deriving DecidableEq, Repr

/-- R374 to R378. One thread receives the sums of a round. `shift` is TSHIFT, `named` whether the policy names the party. -/
def shareNext (op k shift : Nat) (first named : Bool) (table : List Word) (entry : List Nat) (c : Nat)
    (nodes : List (Nat × Nat)) (sums : List Nat) : ShareStep :=
  let s0 := sums.getD 0 0
  match op with
  | 25 => .done (mulOut k first (tripleAt entry 0 0) s0 (sums.getD 1 0))
  | 26 => .done (ringMod k ((if first then ((s0 / 2 ^ shift : Nat) : Int) else 0) - entry.getD 1 0))
  | 27 =>
    if nodes.isEmpty then .more s0 (sltzLeaves k first entry s0)
    else
      let prods := sltzProducts k first entry nodes sums
      if nodes.length ≤ 1 then .done (sltzResult k first entry c (nodes.getD 0 (0, 0)).1 (prods.getD 0 0))
      else .more c (sltzLevel k nodes prods)
  | 28 => .done ((entry.mapIdx fun i u => ((table.getD ((s0 + 256 - i) % 256) 0).toNat % 2 ^ k) * u).sum % 2 ^ k)
  | _ => .done (if named then s0 else 0)

/-- Elements of a list for thread j of n. -/
def chunkOf (l : List Nat) (n j : Nat) : List Nat := (l.drop (j * (l.length / n))).take (l.length / n)

/-- The results of the threads of a list of steps, if every one is done. -/
def shareResults : List ShareStep → Option (List Nat)
  | [] => some []
  | .done v :: xs => (shareResults xs).map fun l => v :: l
  | .more _ _ :: _ => none

def ShareStep.public : ShareStep → Nat
  | .more c _ => c
  | .done _ => 0

def ShareStep.nodes : ShareStep → List (Nat × Nat)
  | .more _ n => n
  | .done _ => []

/-- The steps of every thread of an open instruction. -/
def ShareOp.steps (o : ShareOp) (shift : Nat) (first named : Bool) (sums : List Nat) : List ShareStep :=
  (List.range o.threads.length).map fun j =>
    shareNext o.op o.width shift first named o.bound (o.entries.getD j []) (o.publics.getD j 0) (o.tree.getD j [])
      (chunkOf sums o.threads.length j)

/-- The next round of an instruction that goes on. -/
def ShareOp.goOn (o : ShareOp) (st : List ShareStep) : ShareOp :=
  { o with
    sub := o.sub + 1
    publics := st.map ShareStep.public
    tree := st.map ShareStep.nodes
    sent := (st.mapIdx fun j x => sltzSend o.width (o.entries.getD j []) x.nodes).flatten }

/-- Table 22.4. The tag of the open round. -/
def ShareOp.tag (o : ShareOp) : RoundTag :=
  { lbase := o.lbase, seq := o.seq, sub := o.sub, op := o.op, width := o.width, n := o.threads.length, cursor := o.cursor }

/-- Table 22.5. Elements that a thread sends in all. -/
def shareWords (op k : Nat) : Nat := if op = 25 then 2 else if op = 27 then 4 * k - 5 else 1

/-- R84. The category of a session ring. -/
def ringCat (k : Nat) : Nat := if k = 16 then 13 else if k = 32 then 14 else 15

/-! ## Issue (R373) -/

def shareWidth (f : BitVec 2) : Nat := 16 * 2 ^ f.toNat

/-- The fields of a share lane operation. -/
def shareFields (op : Nat) (f : BitVec 2) (w c r : BitVec 6) : List Field :=
  let z := if f = 2 then 2 else 1
  [outF w z, regF r z] ++ (if op = 25 then [regF c z] else [])

/-- A share lane operation: op5, width, table, destination, y, x. -/
def shareRun (op : Nat) (f table : BitVec 2) (w c r : BitVec 6) (a : Act) (gr : Group) (s : State) : State :=
  let k := shareWidth f
  let key := gr.key
  let fs := shareFields op f w c r
  if !s.feature 4 || key.kind != .lanes then a.illegal s
  else
    match fieldsFault gr.budget fs with
    | some d => a.trap s a.lead tIllegalReg d
    | none =>
      match firstPending gr (fun t => inThread t (ownRegs fs)) a.set with
      | some p => a.trap s p.1 tUnwaited (BitVec.ofNat 32 p.2)
      | none =>
        match s.shareSession key.ctx with
        | none => a.trap s a.lead tGateAbort 0
        | some ss =>
          let h := ss.2.2
          let cur := s.hamperCursor key.ctx h op
          if ss.1.ring ≠ k then a.trap s a.lead tGateDesync cur
          else if op = 29 ∧ ss.1.policy = [] then a.trap s a.lead tRevealDenied cur
          else
            match s.takeEntries key h k op a.set.length with
            | (.ok _, es) =>
              let xs := a.set.map fun t => (gr.thread t).share k r.toNat
              let ys := a.set.map fun t => if op = 25 then (gr.thread t).share k c.toNat else 0
              let live := if op = 28 then (((s.team? (gkeyTeam key)).map fun t => (t.tables.getD table.toNat {}).live).getD []) else []
              let o : ShareOp :=
                { op := op, session := ss.1.id, width := k, d := w.toNat, table := table.toNat, lbase := gr.l a.lead
                  seq := (gr.thread a.lead).shareSeq, sub := 0, cursor := cur, threads := a.set, x := xs, y := ys
                  entries := es, bound := live, reads := ownReads fs, next := a.next
                  sent := ((xs.zip ys).mapIdx fun j p => shareFirst op k p.1 p.2 (es.getD j [])).flatten }
              let s1 := s.consume key a.g a.lead h op a.set.length
              let s2 := if op = 28 then
                  s1.modTeam (gkeyTeam key) fun t =>
                    { t with tables := t.tables.modify table.toNat fun x => { x with bound := x.bound ++ [(key, false)] } }
                else s1
              s2.modGroup a.g fun x => { x with fetch := some (.share o) }
            | (r, _) => a.stopAt s a.set a.lead r

/-- SMUL, R374. Multiplies shares using one MUL triple per thread in one stile round. -/
def execSmul (f : BitVec 2) (w : BitVec 6) (c : BitVec 6) (r : BitVec 6) (s : State) : Host.Outcome State Fault Refusal :=
  withIssue (.smul f w c r) s (shareRun 25 f 0 w c r)

/-- STRUNC, R375. Divides a shared value by 2^TSHIFT using a TRUNC pair. -/
def execStrunc (f : BitVec 2) (w : BitVec 6) (r : BitVec 6) (s : State) : Host.Outcome State Fault Refusal :=
  withIssue (.strunc f w r) s (shareRun 26 f 0 w 62 r)

/-- SLTZ, R376. Produces shares of the sign test of a shared value over several rounds. -/
def execSltz (f : BitVec 2) (w : BitVec 6) (r : BitVec 6) (s : State) : Host.Outcome State Fault Refusal :=
  withIssue (.sltz f w r) s (shareRun 27 f 0 w 62 r)

/-- SLUT, R377. Looks up a shared byte in a team table using a LUT8 entry. -/
def execSlut (t : BitVec 2) (f : BitVec 2) (w : BitVec 6) (r : BitVec 6) (s : State) : Host.Outcome State Fault Refusal :=
  withIssue (.slut t f w r) s (shareRun 28 f t w 62 r)

/-- SOPEN, R378. Reveals a shared value to the parties the policy names. -/
def execSopen (f : BitVec 2) (w : BitVec 6) (r : BitVec 6) (s : State) : Host.Outcome State Fault Refusal :=
  withIssue (.sopen f w r) s (shareRun 29 f 0 w 62 r)

/-! ## SMMA's exchange (R379) -/

/-- K of a MAT entry, and the operands of an SMMA.
Log entry 69 (DEDUCED). -/
def matK (fmt : Nat) : Nat := if fmt = 10 then 64 else 16
def Cmd.smmaA (c : Cmd) : Opnd := Opnd.ofSpec true false (matK (specFmt (c.s.getD 0 0))) (c.s.getD 0 0) (c.s.getD 1 0)
def Cmd.smmaB (c : Cmd) : Opnd := Opnd.ofSpec false false (matK (specFmt (c.s.getD 0 0))) (c.c.getD 0 0) (c.c.getD 1 0)
def Cmd.ring (c : Cmd) : Nat := if specFmt (c.s.getD 0 0) = 10 then 16 else 32

/-- D row-major, then E row-major, over the scratch bytes of the team. -/
def Cmd.smmaSend (c : Cmd) (m : List Host.Cell) : List Nat :=
  let k := matK (specFmt (c.s.getD 0 0))
  let diff := fun (x : Nat) (i : Nat) => ringMod c.ring ((x : Int) - c.entry.getD i 0)
  ((List.range 128).map fun i => (List.range k).map fun q => diff (c.smmaA.code m i q) (i * k + q)).flatten
    ++ ((List.range k).map fun q => (List.range 256).map fun j => diff (c.smmaB.code m j q) (128 * k + q * 256 + j)).flatten

/-- The elements that an SMMA sends. -/
def Cmd.smmaLen (c : Cmd) : Nat := 384 * matK (specFmt (c.s.getD 0 0))

/-- The tag of an SMMA's round. -/
def Cmd.smmaTag (c : Cmd) : RoundTag :=
  let sh := c.share.getD (0, 0, 0)
  { lbase := sh.1, seq := sh.2.1, sub := 0, op := 11, width := c.ring, n := 1, cursor := BitVec.ofNat 32 sh.2.2 }

/-- The tile after an SMMA whose sums have come back. -/
def smmaTile (c : Cmd) (first : Bool) (sums : List Nat) (t : List Word) : List Word :=
  let k := matK (specFmt (c.s.getD 0 0))
  (tileMap t fun i j w =>
    let d := fun q => sums.getD (i * k + q) 0
    let e := fun q => sums.getD (128 * k + q * 256 + j) 0
    let a := fun q => c.entry.getD (i * k + q) 0
    let b := fun q => c.entry.getD (128 * k + q * 256 + j) 0
    let v := (if c.f.getLsbD 0 then 0 else w.toNat) + c.entry.getD (384 * k + i * 256 + j) 0
      + ((List.range k).map fun q => d q * b q + a q * e q + (if first then d q * e q else 0)).sum
    (BitVec.ofNat 32 (v % 2 ^ c.ring), 0)).1

/-! ## The stile (R369 to R371) -/

def Round.is (r : Round) (lbase : Word) (seq sub : Nat) : Bool := r.lbase == lbase && r.seq == seq && r.sub == sub
def StileResult.is (r : StileResult) (party : Nat) (lbase : Word) (seq sub : Nat) : Bool :=
  r.party == party && r.lbase == lbase && r.seq == seq && r.sub == sub
def AbortHold.is (r : AbortHold) (lbase : Word) (seq sub : Nat) : Bool := r.lbase == lbase && r.seq == seq && r.sub == sub

/-- R370. The sums of a complete round. -/
def roundSums (k op : Nat) (parts : List Contribution) : List Nat :=
  let m := if op = 28 then 256 else 2 ^ k
  let n := ((parts.head?.map Contribution.elems).getD []).length
  (List.range n).map fun i => ((parts.map fun p => p.elems.getD i 0).sum) % m

/-- R371. How a round ends to which every party has contributed. -/
def roundEnd (k : Nat) (r : Round) : List StileResult :=
  let tags := r.parts.map Contribution.tag
  let equal := tags.all fun t => some t == tags.head?
  if equal then r.parts.map fun p => ⟨p.party, r.lbase, r.seq, r.sub, .sums (roundSums k p.tag.op r.parts)⟩
  else if tags.any fun t => t.op == 29 then r.fail tRevealDenied
  else r.fail tGateDesync

/-- R371. A round whose deadline has passed: its contributors receive GATE_ABORT, and the key stays aborted. -/
def Session.expire (x : Session) (now : Nat) (r : Round) : Session :=
  { x with
    rounds := x.rounds.filter fun q => !q.is r.lbase r.seq r.sub
    results := x.results ++ r.fail tGateAbort
    aborted := x.aborted ++ [⟨r.lbase, r.seq, r.sub, tGateAbort, now⟩] }

/-- The rounds of a session whose deadline has passed expire; aborted keys whose time is over are forgotten. -/
def Session.tidy (x : Session) (now : Nat) : Session :=
  let late := x.rounds.filter fun r => decide (r.firstAt + x.deadline ≤ now)
  let x1 := late.foldl (fun x r => x.expire (r.firstAt + x.deadline) r) x
  { x1 with aborted := x1.aborted.filter fun a => decide (now < a.since + x.deadline) }

/-- R369. A contribution reaches the stile. -/
def Session.arrive (x0 : Session) (now party : Nat) (tag : RoundTag) (elems : List Nat) : Session :=
  let x := x0.tidy now
  let answer := fun code => { x with results := x.results ++ [⟨party, tag.lbase, tag.seq, tag.sub, .trap code⟩] }
  if !x.opened then answer tGateAbort
  else
    match x.aborted.find? fun a => a.is tag.lbase tag.seq tag.sub with
    | some a => answer a.code
    | none =>
      let old := (x.rounds.find? fun r => r.is tag.lbase tag.seq tag.sub).getD
        { lbase := tag.lbase, seq := tag.seq, sub := tag.sub, firstAt := now }
      let r := { old with parts := old.parts ++ [⟨party, tag, elems⟩] }
      let rest := x.rounds.filter fun q => !q.is tag.lbase tag.seq tag.sub
      if r.parts.length < x.parties.length then { x with rounds := rest ++ [r] }
      else { x with rounds := rest, results := x.results ++ roundEnd x.ring r }

/-- R369. Answers to parties of other devices leave at once; those to parties of this one are held for them (R372). -/
def Session.sendAway (x : Session) (dev : BitVec 16) : Session :=
  { x with results := x.results.filter fun r => match x.parties[r.party]? with
      | some p => p.dev == dev
      | none => false }

/-- Whether a party has a contribution or an answer under a key already. -/
def Session.knows (x : Session) (party : Nat) (tag : RoundTag) : Bool :=
  (x.rounds.any fun r => r.is tag.lbase tag.seq tag.sub && r.parts.any fun p => p.party == party)
    || x.results.any fun r => r.is party tag.lbase tag.seq tag.sub

/-- The contributions that the open share instructions of a context in a session have sent. -/
def State.sentBy (s : State) (c id : Nat) : List (RoundTag × List Nat) :=
  (s.groups.filterMap fun g =>
    match g.fetch with
    | some (.share o) => if g.key.ctx = c ∧ o.session = id then some (o.tag, o.sent) else none
    | _ => none)
  ++ (s.cores.flatMap Core.queue ++ s.teams.flatMap Team.commands).filterMap fun q =>
      if q.team.ctx = c ∧ q.op = 11 ∧ q.running ∧ q.session = id ∧ q.sums = none then
        some (q.smmaTag, q.smmaSend (s.scratch q.team))
      else none

/-! ### The home stile and its packets (R369) -/

/-- R369. The device of a session's home stile. -/
def Session.homeOf (x : Session) : BitVec 16 := ((x.parties.head?).map Party.dev).getD 0xFFFF

/-- R21, R369. The die of the home stile: the lowest-numbered die of party 0's partition.
Log entry 104 (DESIGN CHOICE). -/
def State.homeDie (s : State) (x : Session) : Nat :=
  (sortBy id (((x.parties.head?).map fun p => (s.part p.part).clusters.map (· / 8)).getD [])).headD 0

/-- R32, R369. The class of the packets of a round: B for SMMA, U for every other. -/
def roundClass (op : Nat) : BitVec 2 := if op = 11 then 0 else 1

/-- R31. A packet of a class and a partition that has come to a station, taken by its unit. -/
def State.takePacket (s : State) (die st : Nat) (cls : BitVec 2) (part : Nat) : Option State :=
  (s.fabric.delivered.find? fun d => d.die == die && d.st == st && d.cls == cls && d.part == part).map fun d =>
    s.modFabric fun f => { f with delivered := f.delivered.erase d }

/-- R369. The packet in which a party's contribution comes to the home stile: of its own partition where the party is of this
device, else of the partition that its link packet named, party 0's.
Log entry 104 (DESIGN CHOICE). -/
def State.takeRound (s : State) (x : Session) (p : Party) (op : Nat) : Option State :=
  let part := if p.dev = s.boot.devId then p.part else ((x.parties.head?).map Party.part).getD 0
  s.takePacket (s.homeDie x) 62 (roundClass op) part

/-- SHARE_CONTRIBUTION_ARRIVE, R369. A contribution arrives at the home stile, in a packet. One of a party of this device is
the one that its open instruction sent. -/
def execShareContributionArrive (id party : Nat) (tag : RoundTag) (elems : List Nat) (s : State) :
    Host.Outcome State Fault Refusal :=
  event (match s.session? id with
    | none => s
    | some x =>
      match x.parties[party]? with
      | none => s
      | some p =>
        let real := p.dev != s.boot.devId || (s.sentBy p.ctx id).contains (tag, elems)
        if real && !x.knows party tag && x.homeOf == s.boot.devId then
          match s.takeRound x p tag.op with
          | none => s
          | some s1 => s1.modSession id fun x => (x.arrive s.time party tag elems).sendAway s.boot.devId
        else s)

/-- ROUND_DEADLINE, R371. The round deadline passes with a party missing. -/
def execRoundDeadline (id : Nat) (lbase : Word) (seq sub : Nat) (s : State) : Host.Outcome State Fault Refusal :=
  event (match s.session? id with
    | none => s
    | some x =>
      match x.rounds.find? fun r => r.is lbase seq sub with
      | none => s
      | some r => if r.firstAt + x.deadline ≤ s.time then s.modSession id fun x => (x.expire s.time r).sendAway s.boot.devId else s)

/-- ABORT_HOLD_EXPIRY, R371. One deadline after an abort, the stile stops treating the key as aborted. -/
def execAbortHoldExpiry (id : Nat) (lbase : Word) (seq sub : Nat) (s : State) : Host.Outcome State Fault Refusal :=
  event (s.modSession id fun x =>
    { x with aborted := x.aborted.filter fun a => !(a.is lbase seq sub && decide (a.since + x.deadline ≤ s.time)) })

end Sys2Proof.Machine
end

