-- ==== Sys2Proof/Machine/Engines.lean ====
section
/-! DEFINITION. The issue of engine commands: their checks, the shape, plan and parameter records, and the queue
(spec/19_isa_engines_matrix.md R322 to R345, spec/20_isa_butterfly_factor.md R346 to R362). How a queued command starts
and completes is in EngineRun. -/

namespace Sys2Proof.Machine

open Host (Cell)

/-! ## Scratch spans, cairns, handles -/

/-- Whether some bytes lie in plain blocks of a team. -/
def Team.plain (t : Team) (a n : Nat) : Bool :=
  decide (a + n ≤ t.bytes) && (spanBlocks a n).all fun b => t.owners.getD b .stash != .stash

/-- Blocks of several spans, each once. -/
def blocksOf (l : List (Nat × Nat)) : List Nat := (l.map fun p => spanBlocks p.1 p.2).flatten.eraseDups

/-- R323. A cairn address that the command accepts. -/
def Team.cairnOk (t : Team) (a : Nat) : Bool := a % 16 == 0 && t.plain a 16

/-- R322, R323. The cairn of a cairn register: none for vz; refused where it breaks R323. -/
def Team.cairnReg (t : Team) (th : Thread) (r : BitVec 6) : Option (Option Word) :=
  if r = 62 then some none
  else if t.cairnOk (th.reg r.toNat).toNat then some (some (th.reg r.toNat)) else none

/-- Table 19.8. The count of a handle. -/
def hCount (h : Word) : Nat := h.toNat / 16 % 16

/-- R336, R338. Whether a team holds a slot of a pair that no ACCFREE has named. -/
def Team.holds (t : Team) (pair slot : Nat) : Bool :=
  t.grants.any fun g => g.pair == pair && !g.freeing && decide (g.slot ≤ slot) && decide (slot < g.slot + g.count)

/-- R336. A handle that names a held tile, its upper bits zero. -/
def Team.handleOk (t : Team) (h : Word) : Bool := decide (h.toNat < 1024) && t.holds (hPair h) (hSlot h)

/-- R356. The open session of a team on a pair. -/
def Team.openLu? (t : Team) (pair : Nat) : Option LuSession := t.lus.find? fun x => x.pair == pair && !x.closing

/-- The register n + i of a pair or quad operand; vz reads zero. -/
def Thread.quad (th : Thread) (n : BitVec 6) (i : Nat) : Word := if n.toNat < 60 then th.reg (n.toNat + i) else 0

def Thread.quadList (th : Thread) (n : BitVec 6) (k : Nat) : List Word := (List.range k).map fun i => th.quad n i

/-! ## The frame of a command (R323) -/

/-- What the checks of a command find: ILLEGAL_OP for a format code, ENG_SPEC, another trap or a missing page, a record
that an engine is writing, or the command with the stochastic values that it takes. -/
inductive CmdRes where
  | illegal
  | refuse
  | stop (c : Chk)
  | wait (record : Nat)
  | go (c : Cmd) (draws : Nat)
deriving DecidableEq, Repr

/-- A command of an issue set, its elected thread the lowest. -/
def newCmd (op : Nat) (f : BitVec 5) (w : Word) (a : Act) (gr : Group) (s : State) : Cmd :=
  { id := s.cmdIds, op := op, f := f, team := gkeyTeam gr.key, elected := (gr.key, a.lead), w := w, pc := a.pc, threads := a.set
    mode := ((s.ctx gr.key.ctx).round.see s 0 (gr.key, a.lead) (gr.l a.lead)).toNat % 4
    conv0 := (gr.thread a.lead).convs }

/-- R294. Copy commands are counted apart from the others. -/
def copyOp (op : Nat) : Bool := decide (op < 8)

/-- R347, R379. The commands that hold fetch until they complete. -/
def preciseOp (op : Nat) : Bool := op == 11 || op == 21 || op == 22 || op == 23

/-- R323. The engine queue of a core is full. -/
def queueFull (x : Core) : Bool := decide (32 ≤ x.queue.length)

/-- A command enters its core's queue; it is counted, and its cairn is named. -/
def State.enqueue (s : State) (gr : Group) (g : Nat) (c : Cmd) (draws : Nat) : State :=
  let s1 := { s.modCore gr.core fun x => { x with queue := x.queue ++ [c] } with cmdIds := s.cmdIds + 1 }
  let s2 := s1.modThread g c.elected.2 fun th =>
    { th with
      copies := th.copies + (if copyOp c.op then 1 else 0)
      tileOps := th.tileOps + (if copyOp c.op then 0 else 1)
      convs := (th.convs + draws) % 2 ^ 32 }
  match c.cairn with
  | some x => s2.nameCairn c.team x
  | none => s2

/-- What the issue of a command leaves in its team: a session opened or closing, a grant that is being freed. -/
def Team.afterIssue (t : Team) (c : Cmd) : Team :=
  match c.op with
  | 13 => { t with grants := t.grants.map fun g =>
      if g.pair == hPair c.w && g.slot == hSlot c.w && g.count == hCount c.w then { g with freeing := true } else g }
  | 20 => { t with lus := t.lus ++ [LuSession.open' c.id c.record (hPair c.w) (hSlot c.w)] }
  | 24 => { t with lus := t.lus.map fun x => if x.pair == hPair c.w && !x.closing then { x with closing := true } else x }
  | _ => t

/-- R379. The issue of an SMMA consumes its MAT entry. -/
def State.consumeMat (s : State) (k : GKey) (g t op : Nat) : State :=
  if op = 11 then
    match s.shareSession k.ctx with
    | some ss => s.consume k g t ss.2.2 11 1
    | none => s
  else s

/-- The leader core of a pair of a team's core set. -/
def Team.leader? (t : Team) (pair : Nat) : Option Nat := t.cores[2 * pair]?

/-- Every command in a queue. -/
def State.allCmds (s : State) : List Cmd := (s.cores.map Core.queue).flatten

/-- The leader core whose arrays a command occupies. -/
def State.arraysOf (s : State) (c : Cmd) : Option Nat :=
  match c.arrays with
  | some p => (s.team? c.team).bind fun t => t.leader? p
  | none => none

/-- R11. Whether a command runs on matrix arrays of a cluster. -/
def State.arraysBusy (s : State) (cluster : Nat) : Bool :=
  s.cores.any fun x => x.queue.any fun e => e.running && (s.arraysOf e).any fun l => l / 4 == cluster

/-- R11. A matrix command issues in a cluster: its columns ramp if its arrays have been idle for 10 us or have not
run since boot. -/
def startRamp (cluster cycle : Nat) (busy : Bool) (b : Boot) : Boot :=
  if !busy && !b.ramping.getD cluster false
      && (b.columns.getD cluster 0 = 0 || decide (b.arrayAt.getD cluster 0 + 7000 ≤ cycle)) then
    { b with
      ramping := b.ramping.set cluster true
      columns := b.columns.set cluster 0
      columnAt := b.columnAt.set cluster cycle }
  else b

/-- R11. The ramp that the issue of a command starts. -/
def State.rampFor (s : State) (core op : Nat) : State :=
  if 8 ≤ op ∧ op ≤ 11 then s.modBoot (startRamp (core / 4) s.cycle (s.arraysBusy (core / 4))) else s

/-- The command issues. -/
def issueCmd (c : Cmd) (draws : Nat) (a : Act) (gr : Group) (s : State) : State :=
  let s0 := s.rampFor gr.core c.op
  let s1 := ((s0.consumeMat gr.key a.g a.lead c.op).enqueue gr a.g c draws).modTeam c.team fun t => t.afterIssue c
  if preciseOp c.op then s1.modGroup a.g fun x => { x with fetch := some (.engine c.id a.next a.set) }
  else s1.goAll a.g a.set a.next

/-- An engine command: the feature it needs, its register fields, the registers its elected thread reads or writes,
those it reads, and its checks. It raises PZ where it retires: a command that holds fetch owes it (R168). -/
def engRun (op : Nat) (need : List Nat) (fs : List Field) (regs reads : Group → Nat → List (Nat × Nat))
    (prep : Act → Group → Team → State → CmdRes) (a : Act) (gr : Group) (s : State) : State :=
  if !need.all s.feature then a.illegal s
  else
    match fieldsFault gr.budget fs with
    | some r => a.trap s a.lead tIllegalReg r
    | none =>
      match firstPending gr (regs gr) [a.lead] with
      | some p => a.trap s a.lead tUnwaited (BitVec.ofNat 32 p.2)
      | none =>
        match s.team? (gkeyTeam gr.key) with
        | none => a.trap s a.lead tEngSpec (BitVec.ofNat 32 op)
        | some t =>
          match prep a gr t s with
          | .illegal => a.illegal s
          | .refuse => a.trap s a.lead tEngSpec (BitVec.ofNat 32 op)
          | .stop r => a.stopAt s a.set a.lead r
          | .wait x => s.blockAll a.g a.set (.owner
              { load := true, glob := false, addr := x, size := 64, regs := [], data := [], whole := a.set, retry := some a.instr
                next := a.next })
          | .go c draws =>
            if queueFull (s.core gr.core) then s
            else
              let pz := poisonFlag gr (reads gr a.lead)
              issueCmd c draws a gr (if preciseOp op then s.modThread a.g a.lead fun th => { th with owed := pz } else s.raise a.g a.lead pz)

/-- A command that reads its register fields in the elected thread only. -/
def cmdRun (op : Nat) (need : List Nat) (fs : List Field) (prep : Act → Group → Team → State → CmdRes) (a : Act)
    (gr : Group) (s : State) : State :=
  engRun op need fs (fun _ t => inThread t (ownRegs fs)) (fun _ t => inThread t (ownReads fs)) prep a gr s

/-- R326, R348. A record of 64 bytes that the elected thread reads: its bytes, or what stops it. -/
def withRecord (t : Team) (x : Nat) (f : List Byte → CmdRes) : CmdRes :=
  if x % 64 ≠ 0 || !t.plain x 64 then .refuse
  else if !(t.owner x).allows false then .wait x
  else f (cellsRead t.scratch x 64)

/-! ## Shape records (Table 19.3) -/

structure Shape where
  base : Nat
  ext : List Nat
  str1 : Int
  str2 : Int
  box0 : Nat
  box1 : Nat
  box2 : Nat
  esize : Nat
  conv : Nat
  spitch : Nat
  splane : Nat
  gidx : Nat
  dev : Nat
  rpart : Nat
deriving DecidableEq, Repr

def Shape.ofRecord (r : List Byte) : Shape :=
  { base := recNat r 0 8, ext := [recNat r 8 4, recNat r 12 4, recNat r 16 4]
    str1 := signedCode 64 (recNat r 20 8), str2 := signedCode 64 (recNat r 28 8)
    box0 := recNat r 36 2, box1 := recNat r 38 2, box2 := recNat r 40 2, esize := recNat r 42 1, conv := recNat r 43 1
    spitch := recNat r 44 4, splane := recNat r 48 4, gidx := recNat r 52 4, dev := recNat r 56 2, rpart := recNat r 58 1 }

/-- Bytes of a scratch element, and of a global one. -/
def Shape.ssize (h : Shape) : Nat := 2 ^ h.esize
def Shape.gtype (h : Shape) : Nat := h.conv / 16
def Shape.gsize (h : Shape) : Nat :=
  if h.conv = 0 then h.ssize else if h.gtype = 1 ∨ h.gtype = 2 then 2 else 1

/-- Elements of the box, and the bytes that arrive on the cairn. -/
def Shape.count (h : Shape) : Nat := h.box0 * h.box1 * h.box2
def Shape.bytes (h : Shape) : Nat := h.count * h.ssize

/-- R327. The scratch span of the box at c3. -/
def Shape.spanLen (h : Shape) : Nat := (h.box2 - 1) * h.splane + (h.box1 - 1) * h.spitch + h.box0 * h.ssize

/-- The commands whose rows come from an index vector, that write global memory, and that use the scratch box. -/
def gathers (op : Nat) : Bool := op == 2 || op == 7
def stores (op : Nat) : Bool := op == 1 || op == 5 || op == 7
def scratchBox (op : Nat) (f : BitVec 5) : Bool := op != 4 && !(op == 3 && !f.getLsbD 0)

/-- Limits of Table 19.3, its CONV apart. -/
def Shape.limits (h : Shape) (r : List Byte) (op : Nat) : Bool :=
  h.ext.all (fun e => decide (1 ≤ e)) && decide (1 ≤ h.box0) && decide (h.box0 ≤ 4096) && decide (1 ≤ h.box1)
    && decide (h.box1 ≤ 4096) && decide (1 ≤ h.box2) && decide (h.box2 ≤ 256) && decide (h.esize ≤ 4)
    && h.spitch % 16 == 0 && decide (h.box0 * h.ssize ≤ h.spitch) && h.splane % 16 == 0
    && (h.box2 == 1 || decide (h.box1 * h.spitch ≤ h.splane))
    && (if gathers op then h.gidx % 4 == 0 else h.gidx == 0)
    && (op == 5 || op == 6 || (h.dev == 0 && h.rpart == 0)) && ((r.drop 59).all fun b => b == 0)

/-- R326. What CONV may hold. -/
def Shape.convOk (h : Shape) (op : Nat) : Bool :=
  h.conv == 0 || (stores op && h.esize == 2 && h.conv % 16 == 0 && decide (1 ≤ h.gtype) && decide (h.gtype ≤ 4))

/-- R71. A format code in CONV of a feature that is not accepted. -/
def Shape.convIllegal (h : Shape) (s : State) : Bool :=
  !((cvtNeed 0 (BitVec.ofNat 4 (h.conv / 16)) (BitVec.ofNat 4 (h.conv % 16))).all s.feature)

/-- R326. One dimension of the box inside the extents: its first and last index, if any. -/
def insideDim (c : Int) (box ext : Nat) : Option (Int × Int) :=
  let lo := max c 0
  let hi := min (c + box) ext - 1
  if lo ≤ hi then some (lo, hi) else none

/-- R326. The ends of the bytes that the box can touch, before the modulo; none for a box wholly outside. -/
def Shape.reach (h : Shape) (op : Nat) (c : List Int) : Option (Int × Int) :=
  let d1 := if gathers op then some (0, ((h.ext.getD 1 0 : Nat) : Int) - 1) else insideDim (c.getD 1 0) h.box1 (h.ext.getD 1 0)
  match insideDim (c.getD 0 0) h.box0 (h.ext.getD 0 0), d1, insideDim (c.getD 2 0) h.box2 (h.ext.getD 2 0) with
  | some x, some y, some z =>
    let ends := fun (p : Int × Int) (m : Int) => (min (p.1 * m) (p.2 * m), max (p.1 * m) (p.2 * m))
    let e0 := ends x h.gsize
    let e1 := ends y h.str1
    let e2 := ends z h.str2
    some (h.base + e0.1 + e1.1 + e2.1, h.base + e0.2 + e1.2 + e2.2 + h.gsize - 1)
  | _, _, _ => none

/-- R326. The addresses of the box: canonical, aligned to the global element, in one range. -/
def Shape.rangeOk (h : Shape) (op : Nat) (c : List Int) : Bool :=
  canonical h.base && h.base % h.gsize == 0 && h.str1 % (h.gsize : Int) == 0 && h.str2 % (h.gsize : Int) == 0
    && match h.reach op c with
      | none => true
      | some p => decide (0 ≤ p.1) && decide (p.2 < 2 ^ 64) && canonical p.1.toNat && canonical p.2.toNat

/-- R327. The coordinates of a command: signed c0, c1, c2. -/
def Cmd.coords (c : Cmd) : List Int := (c.c.take 3).map BitVec.toInt
def Cmd.box (c : Cmd) : Nat := (c.c.getD 3 0).toNat

/-- Copy commands, R326 to R331: the checks. -/
def copyPrep (op : Nat) (f : BitVec 5) (w c r : BitVec 6) (a : Act) (gr : Group) (t : Team) (s : State) : CmdRes :=
  let th := gr.thread a.lead
  withRecord t (th.reg r.toNat).toNat fun bs =>
    let h := Shape.ofRecord bs
    if h.convIllegal s then .illegal
    else
      match t.cairnReg th w with
      | none => .refuse
      | some cn =>
        let cs := th.quadList c 4
        let box := (cs.getD 3 0).toNat
        let uses := scratchBox op f
        let span := if uses then [(box, h.spanLen)] else []
        let index := if gathers op then [(h.gidx, 4 * h.box1)] else []
        let stoch := stores op && f.toNat % 4 == 3
        if h.limits bs op && h.convOk op && h.rangeOk op ((cs.take 3).map BitVec.toInt)
            && (!uses || box % 16 == 0) && (span ++ index).all (fun p => t.plain p.1 p.2)
            && !((blocksOf span).any fun b => (blocksOf index).contains b) && (!stoch || s.feature 8) then
          .go { newCmd op f (th.reg w.toNat) a gr s with
                s := [th.reg r.toNat], c := cs, record := bs, cairn := cn
                reads := if stores op then blocksOf (span ++ index) else blocksOf index
                writes := if stores op then [] else blocksOf span }
              (if stoch && h.conv != 0 then h.count else 0)
        else .refuse

/-- A copy command. -/
def copyRun (op : Nat) (need : List Nat) (f : BitVec 5) (w c r : BitVec 6) : Act → Group → State → State :=
  cmdRun op need [regF w, regF r, regF c 4] (copyPrep op f w c r)

/-- TLOAD, R328. Copies a box from global memory into scratch, zero-filling outside the extents. -/
def execTload (f : BitVec 2) (w : BitVec 6) (c : BitVec 6) (r : BitVec 6) (s : State) : Host.Outcome State Fault Refusal :=
  withIssue (.tload f w c r) s (copyRun 0 [] (f.zeroExtend 5) w c r)

/-- TSTORE, R328. Copies a scratch box to global memory, converting under CONV. -/
def execTstore (f : BitVec 2) (w : BitVec 6) (c : BitVec 6) (r : BitVec 6) (s : State) : Host.Outcome State Fault Refusal :=
  withIssue (.tstore f w c r) s (copyRun 1 [] (f.zeroExtend 5) w c r)

/-- TGATHER, R328. Loads a box whose dim-1 rows come from an index vector. -/
def execTgather (f : BitVec 2) (w : BitVec 6) (c : BitVec 6) (r : BitVec 6) (s : State) : Host.Outcome State Fault Refusal :=
  withIssue (.tgather f w c r) s (copyRun 2 [] (f.zeroExtend 5) w c r)

/-- TZERO, R329. Zeroes a global box through zero flags, or a scratch box. -/
def execTzero (f : BitVec 1) (w : BitVec 6) (c : BitVec 6) (r : BitVec 6) (s : State) : Host.Outcome State Fault Refusal :=
  withIssue (.tzero f w c r) s (copyRun 3 [] (f.zeroExtend 5) w c r)

/-- TPREF, R329. Brings the box's global lines into L2 without changing values. -/
def execTpref (w : BitVec 6) (c : BitVec 6) (r : BitVec 6) (s : State) : Host.Outcome State Fault Refusal :=
  withIssue (.tpref w c r) s (copyRun 4 [] 0 w c r)

/-- XPUT, R331. Writes a scratch box into a granted remote partition over Skovey links. -/
def execXput (f : BitVec 2) (w : BitVec 6) (c : BitVec 6) (r : BitVec 6) (s : State) : Host.Outcome State Fault Refusal :=
  withIssue (.xput f w c r) s (copyRun 5 [11] (f.zeroExtend 5) w c r)

/-- XGET, R331. Reads a box from a granted remote partition into scratch. -/
def execXget (f : BitVec 2) (w : BitVec 6) (c : BitVec 6) (r : BitVec 6) (s : State) : Host.Outcome State Fault Refusal :=
  withIssue (.xget f w c r) s (copyRun 6 [11] (f.zeroExtend 5) w c r)

/-- TSCAT, R328. Stores a scratch box to global rows chosen by an index vector. -/
def execTscat (f : BitVec 2) (w : BitVec 6) (c : BitVec 6) (r : BitVec 6) (s : State) : Host.Outcome State Fault Refusal :=
  withIssue (.tscat f w c r) s (copyRun 7 [] (f.zeroExtend 5) w c r)

/-! ## Matrix products -/

/-- A format code of a feature that is not accepted (R71). -/
def fmtIllegal (s : State) (fmt : Nat) : Bool :=
  match mxFeature fmt with
  | some n => !s.feature n
  | none => false

/-- A matrix or butterfly command on a handle: the team holds the tile, and has no session open on the pair (R356). -/
def Team.tileFree (t : Team) (h : Word) : Bool := t.handleOk h && (t.openLu? (hPair h)).isNone

/-- R341. The columns of a sparse B: the bytes of each. -/
def sparseSpans (bases : List Nat) (pitch lines : Nat) : List (Nat × Nat) :=
  (bases.map fun b => (List.range 128).map fun j => (b + j * pitch, 128 * lines)).flatten

/-- The bases of the two halves of a B spec. -/
def specHalves (w0 w1 : Word) : List Nat := [specAddr w0, specAddr w0 + 16 * specTPitch w1]

/-- MMA and MMAS, R339, R341: the checks. -/
def mmaPrep (op : Nat) (f : BitVec 4) (w c r : BitVec 6) (a : Act) (gr : Group) (t : Team) (s : State) : CmdRes :=
  let th := gr.thread a.lead
  let h := th.reg w.toNat
  let sa := th.quadList r 2
  let sb := th.quadList c 2
  let a0 := sa.getD 0 0
  let b0 := sb.getD 0 0
  let b1 := sb.getD 1 0
  let fmt := specFmt b0
  let sparse := op == 10
  let cn := BitVec.ofNat 32 (h.toNat / 2 ^ 14 * 16)
  let k := if sparse then sparseK fmt (specN b0) else mxK fmt
  let oa := Opnd.ofSpec true (f.getLsbD 1) k a0 (sa.getD 1 0)
  let ob := Opnd.ofSpec false (f.getLsbD 2) k b0 b1
  let spans := oa.spans ++ (if sparse then sparseSpans (specHalves b0 b1) (specPitch b1) (sparseLines fmt (specN b0)) else ob.spans)
  let hOk :=
    if sparse then h.toNat / 1024 % 16 == 0 && t.cairnOk cn.toNat && t.tileFree (BitVec.ofNat 32 (h.toNat % 1024)) else t.tileFree h
  let bOk :=
    if sparse then
      decide (fmt ≤ 3) && !f.getLsbD 2 && decide (specN b0 ≤ 2) && specAddr b0 % 16 == 0 && specPitch b1 % 128 == 0
        && decide (128 * sparseLines fmt (specN b0) ≤ specPitch b1)
    else !ob.bad false (f.getLsbD 2) b0 b1
  if fmtIllegal s (specFmt a0) || fmtIllegal s fmt then .illegal
  else if decide (fmt ≤ 12) && specFmt a0 == fmt && hOk && bOk && !oa.bad true (f.getLsbD 1) a0 (sa.getD 1 0)
      && spans.all fun p => t.plain p.1 p.2 then
    .go { newCmd op (f.zeroExtend 5) h a gr s with
          s := sa, c := sb, reads := blocksOf spans, slots := [(hPair h, hSlot h)], arrays := some (hPair h)
          cairn := if sparse then some cn else none } 0
  else .refuse

/-- MMA, R339. Adds the product of scratch tiles A and B into an accumulator tile. -/
def execMma (f : BitVec 4) (w : BitVec 6) (c : BitVec 6) (r : BitVec 6) (s : State) : Host.Outcome State Fault Refusal :=
  withIssue (.mma f w c r) s (cmdRun 8 [] [regF w, regF r 2, regF c 2] (mmaPrep 8 f w c r))

/-- MMAS, R341. Adds the product of dense A and structured-sparse B into a tile. -/
def execMmas (f : BitVec 4) (w : BitVec 6) (c : BitVec 6) (r : BitVec 6) (s : State) : Host.Outcome State Fault Refusal :=
  withIssue (.mmas f w c r) s (cmdRun 10 [1] [regF w, regF r 2, regF c 2] (mmaPrep 10 f w c r))

/-- R340. The fields of an MMAR: 16 registers from s on, without an alignment of their own.
Log entry 42 (DEDUCED). -/
def mmarFields (w c r : BitVec 6) : List Field :=
  [regF w] ++ (if r.toNat < 60 then (List.range 16).map fun q => ({ num := r.toNat + q } : Field)
    else [regF r]) ++ [regF c 2]

/-- Registers that an MMAR reads: those of its elected thread, and A in every thread of the group. -/
def mmarRegs (w c r : BitVec 6) (gr : Group) (t : Nat) : List (Nat × Nat) :=
  inThread t (regSpan w.toNat 1)
    ++ ((List.range gr.threads.length).map fun u => inThread u ((regSpan r.toNat 16).filter fun n => n < 60)).flatten
    ++ inThread t (regSpan c.toNat 2)

/-- MMAR, R340: the checks. -/
def mmarPrep (neg : BitVec 1) (f2 : BitVec 2) (w c r : BitVec 6) (a : Act) (gr : Group) (t : Team) (s : State) : CmdRes :=
  let th := gr.thread a.lead
  let h := th.reg w.toNat
  let b0 := th.quad c 0
  let b1 := th.quad c 1
  let fmt := specFmt b0
  let k := mxKr fmt
  let ob := Opnd.ofSpec false false k b0 b1
  if fmtIllegal s fmt then .illegal
  else if decide (k ≠ 0) && gr.w == 64 && t.tileFree h && !ob.bad false false b0 b1 && ob.spans.all fun p => t.plain p.1 p.2 then
    .go { newCmd 9 ((neg ++ (0 : BitVec 1) ++ f2).zeroExtend 5) h a gr s with
          c := [b0, b1], reads := blocksOf ob.spans, slots := [(hPair h, hSlot h)], arrays := some (hPair h)
          rows := gr.threads.map fun x => ((List.range 16).map fun q => natBytes 4 (x.quad r q).toNat).flatten } 0
  else .refuse

/-- MMAR, R340. Adds the product of A from 64 threads' registers and scratch B into 64 tile rows. -/
def execMmar (f : BitVec 1) (f2 : BitVec 2) (w : BitVec 6) (c : BitVec 6) (r : BitVec 6) (s : State) :
    Host.Outcome State Fault Refusal :=
  withIssue (.mmar f f2 w c r) s
    (engRun 9 [] (mmarFields w c r) (mmarRegs w c r) (mmarRegs w c r) (mmarPrep f f2 w c r))

/-- SMMA, R379: the checks. -/
def smmaPrep (f : BitVec 1) (w c r : BitVec 6) (a : Act) (gr : Group) (t : Team) (s : State) : CmdRes :=
  let th := gr.thread a.lead
  let h := th.reg w.toNat
  let sa := th.quadList r 2
  let sb := th.quadList c 2
  let a0 := sa.getD 0 0
  let b0 := sb.getD 0 0
  match s.shareSession gr.key.ctx with
  | none => .stop (.fault tGateAbort 0)
  | some ss =>
    let ring := ss.1.ring
    let cmd : Cmd := { newCmd 11 (f.zeroExtend 5) h a gr s with s := sa, c := sb }
    let spans := cmd.smmaA.spans ++ cmd.smmaB.spans
    if fmtIllegal s (specFmt a0) || fmtIllegal s (specFmt b0) then .illegal
    else if ring != 64 && specFmt a0 == (if ring = 16 then 10 else 11) && specFmt b0 == specFmt a0 && t.tileFree h
        && !cmd.smmaA.bad true false a0 (sa.getD 1 0) && !cmd.smmaB.bad false false b0 (sb.getD 1 0)
        && spans.all fun p => t.plain p.1 p.2 then
      match s.takeEntries gr.key ss.2.2 ring 11 1 with
      | (.ok _, es) =>
        .go { cmd with
              reads := blocksOf spans, slots := [(hPair h, hSlot h)], arrays := some (hPair h), session := ss.1.id
              share := some (gr.l a.lead, th.shareSeq, (s.hamperCursor gr.key.ctx ss.2.2 11).toNat), entry := es.getD 0 [] } 0
      | (q, _) => .stop q
    else .refuse

/-- SMMA, R379. Multiplies shared matrices through one stile round using a MAT hamper entry. -/
def execSmma (f : BitVec 1) (w : BitVec 6) (c : BitVec 6) (r : BitVec 6) (s : State) : Host.Outcome State Fault Refusal :=
  withIssue (.smma f w c r) s (cmdRun 11 [4] [regF w, regF r 2, regF c 2] (smmaPrep f w c r))

/-! ## Accumulator slots (R336 to R338, R124) -/

/-- Slots in use in a bank of a leader core. -/
def State.slotsUsed (s : State) (leader bank : Nat) : List Nat :=
  (s.teams.map fun t =>
    if t.saved then []
    else ((t.grants.filter fun g => t.leader? g.pair == some leader && g.bank == bank).map fun g =>
      (List.range g.count).map (g.slot + ·)).flatten).flatten

/-- The lowest run of n free slots. -/
def freeRun (used : List Nat) (n : Nat) : Option Nat :=
  (List.range (5 - n)).find? fun i => (List.range n).all fun j => !used.contains (i + j)

/-- R337. The bank and first slot of a grant that can be made, where one can. -/
def State.accPlace (s : State) (t : Team) (pair n : Nat) : Option (Nat × Nat) :=
  match t.leader? pair with
  | none => none
  | some l =>
    let banks := (s.core l).banks
    let try' := fun b => (freeRun (s.slotsUsed l b) n).map fun x => (b, x)
    match t.grants.find? fun g => g.pair == pair with
    | some g => try' g.bank
    | none =>
      let mine := (List.range 2).filter fun b => banks.getD b none == some t.key.ctx
      if mine.isEmpty then
        match (List.range 2).filter fun b => banks.getD b none == none with
        | [] => none
        | [b] => try' b
        | _ => try' (Config.accBank s.tick % 2)
      else mine.findSome? try'

/-- A pending ACCALLOC: its group, its wait, its PC and its cycle of issue. -/
structure AccAsk where
  g : Nat
  key : GKey
  d : Nat
  n : Nat
  pair : Nat
  w : Bool
  pc : Word
  at' : Nat
  l : Word
deriving DecidableEq, Repr

/-- The requests of a group, one for each issue that waits. -/
def accAsks (p : Group × Nat) : List AccAsk :=
  ((List.range p.1.threads.length).filterMap fun t =>
    let th := p.1.thread t
    match th.state with
    | .blocked (.accalloc d n pair w) => some ⟨p.2, p.1.key, d, n, pair, w, th.pc, th.issued, p.1.l t⟩
    | _ => none).foldl (fun acc x =>
      if acc.any fun y => y.d == x.d && y.n == x.n && y.pair == x.pair && y.w == x.w && y.pc == x.pc && y.at' == x.at' then acc
      else acc ++ [x]) []

/-- Every pending request of a team that is not evicted. -/
def State.accAll (s : State) : List AccAsk :=
  ((s.groups.zipIdx.filter fun p => match s.team? (gkeyTeam p.1.key) with
    | some t => !t.saved
    | none => false).map accAsks).flatten

/-- The threads of a request. -/
def AccAsk.threads (x : AccAsk) (gr : Group) : List Nat :=
  (List.range gr.threads.length).filter fun t =>
    let th := gr.thread t
    th.state == .blocked (.accalloc x.d x.n x.pair x.w) && th.pc == x.pc && th.issued == x.at'

/-- The leader core that a request wants slots of. -/
def State.askLeader (s : State) (x : AccAsk) : Option Nat := (s.team? (gkeyTeam x.key)).bind fun t => t.leader? x.pair

def State.askPlace (s : State) (x : AccAsk) : Option (Nat × Nat) := (s.team? (gkeyTeam x.key)).bind fun t => s.accPlace t x.pair x.n

/-- R337. A grant: the bank is held, the tiles are zero, and the handle goes to every thread of the issue set. -/
def State.accGrant (s : State) (x : AccAsk) (p : Nat × Nat) : State :=
  let h := BitVec.ofNat 32 (x.pair * 512 + p.1 * 256 + x.n * 16 + p.2)
  let s1 := match s.askLeader x with
    | some l => s.modCore l fun c => { c with banks := c.banks.set p.1 (some x.key.ctx) }
    | none => s
  let s2 := s1.modTeam (gkeyTeam x.key) fun t =>
    { t with
      grants := t.grants ++ [⟨x.pair, p.1, p.2, x.n, false⟩]
      tiles := t.tiles ++ (List.range x.n).map fun i => ⟨x.pair, p.2 + i, List.replicate 32768 0⟩ }
  match s2.groups[x.g]? with
  | some gr => (x.threads gr).foldl (fun s t => s.modThread x.g t fun th => (th.setReg x.d h).goOn (pcAfter th.pc 4)) s2
  | none => s2

/-- R337. The first request in issue order that can be granted.
Log entry 43 (DEDUCED). -/
def State.accNext (s : State) : Option (AccAsk × (Nat × Nat)) :=
  leastBy? (fun (y : AccAsk × (Nat × Nat)) => (y.1.at' * 2 ^ 32 + y.1.l.toNat) * 64 + y.1.key.ctx)
    (s.accAll.filterMap fun x => (s.askPlace x).map fun p => (x, p))

/-- R337. Every request that can be granted is granted. -/
def State.accGrants : Nat → State → State
  | 0, s => s
  | n + 1, s => match s.accNext with
    | some y => (s.accGrant y.1 y.2).accGrants n
    | none => s

/-- Slots that a team holds. -/
def Team.heldSlots (t : Team) : Nat := (t.grants.map AccGrant.count).sum

/-- ACCALLOC, R337. Requests n contiguous accumulator slots on a pair, blocking until granted. -/
def execAccalloc (f : BitVec 5) (w : BitVec 6) (s : State) : Host.Outcome State Fault Refusal :=
  withIssue (.accalloc f w) s (onceRun legal [outF w] fun a gr s =>
    let n := f.toNat % 8
    let pair := f.toNat / 16
    match s.team? (gkeyTeam gr.key) with
    | none => a.trap s a.lead tEngSpec 12
    | some t =>
      let slots := ((s.node? gr.key.ctx gr.key.node).map fun x => x.rec'.accSlots).getD 0
      if slots < t.heldSlots + n || decide (t.cores.length < 2 * pair + 2) then a.trap s a.lead tEngSpec 12
      else
        let stamp := fun (x : Thread) => { x with issued := s.cycle }
        let s1 := a.set.foldl (fun s u => s.modThread a.g u stamp)
          (s.blockAll a.g a.set (.accalloc w.toNat n pair (f.getLsbD 3)))
        s1.accGrants s1.accAll.length)

/-- ACCALLOC_GRANT, R337. The request that stands first among those that can be granted, if it is the group's. -/
def execAccallocGrant (g : GKey) (s : State) : Host.Outcome State Fault Refusal :=
  event (match s.accNext with
    | some y => if y.1.key == g then s.accGrant y.1 y.2 else s
    | none => s)

/-- R124. Whether some group of a team has a READY thread. -/
def State.teamReady (s : State) (k : TKey) : Bool :=
  s.groups.any fun g => gkeyTeam g.key == k && g.key.kind != .handler && !g.stop && g.anyReady

/-- R124. The request of a leader core that fails, where a deadlock exists. Of those equal in team index and context number the
first in State.groups.
Log entry 107 (DESIGN CHOICE). -/
def State.accLoser (s : State) (leader : Nat) : Option AccAsk :=
  let asks := s.accAll.filter fun x => s.askLeader x == some leader
  let keys := (s.teams.filter fun t => !t.saved && (t.grants.any (fun g => t.leader? g.pair == some leader)
    || asks.any fun x => gkeyTeam x.key == t.key)).map Team.key
  if keys.any (fun k => s.teamReady k || s.retiring k) || asks.any (fun x => (s.askPlace x).isSome) then none
  else leastBy? (fun (x : AccAsk) => 2 ^ 60 - (x.key.team * 64 + x.key.ctx)) asks

/-- R124. A failed request: status 0, or ACC_DEADLOCK under .w. -/
def State.accFail (s : State) (x : AccAsk) : State :=
  match s.groups[x.g]? with
  | none => s
  | some gr =>
    let set := x.threads gr
    if x.w then s.trapWait x.g set (set.headD 0) tAccDeadlock (BitVec.ofNat 32 x.n)
    else set.foldl (fun s t => s.modThread x.g t fun th => (th.setReg x.d 0).goOn (pcAfter th.pc 4)) s

/-- R124. The test, made again after every failure. -/
def State.accTest : Nat → State → State
  | 0, s => s
  | n + 1, s =>
    match (s.accAll.filterMap s.askLeader).findSome? s.accLoser with
    | some x => (s.accFail x).accTest n
    | none => s

/-- R124, after a step: nothing is to test where no thread waits at an ACCALLOC. -/
def State.accDeadlocks (s : State) : State := s.accTest s.accAll.length

/-- ACCFREE, R338: the checks. -/
def freePrep (w : BitVec 6) (a : Act) (gr : Group) (t : Team) (s : State) : CmdRes :=
  let h := (gr.thread a.lead).reg w.toNat
  let slots := (List.range (hCount h)).map (hSlot h + ·)
  if decide (h.toNat < 1024)
      && (t.grants.any fun g => g.pair == hPair h && g.slot == hSlot h && g.count == hCount h && !g.freeing)
      && (match t.openLu? (hPair h) with
          | some x => !slots.contains x.slot
          | none => true) then
    .go { newCmd 13 0 h a gr s with slots := slots.map fun i => (hPair h, i) } 0
  else .refuse

/-- ACCFREE, R338. Releases the slots of a handle after earlier commands on them complete. -/
def execAccfree (w : BitVec 6) (s : State) : Host.Outcome State Fault Refusal :=
  withIssue (.accfree w) s (cmdRun 13 [] [regF w] (freePrep w))

/-! ## Accumulator transfers (R343 to R345) -/

/-- A transfer command may name a handle whose tile no open session of the team holds (R356). -/
def Team.xferOk (t : Team) (h : Word) : Bool :=
  t.handleOk h && (match t.openLu? (hPair h) with
    | some x => x.slot != hSlot h
    | none => true)

/-- Fields of a transfer word (Table 19.10). -/
def xType (x : Word) : Nat := x.toNat / 2 ^ 16 % 16
def xRnd (x : Word) : Nat := x.toNat / 2 ^ 20 % 4
def xPitch (x : Word) : Nat := x.toNat % 2 ^ 16

/-- ACCLD and ACCST, R343: the checks. -/
def xferPrep (op : Nat) (ep : BitVec 3) (w c r : BitVec 6) (a : Act) (gr : Group) (t : Team) (s : State) : CmdRes :=
  let th := gr.thread a.lead
  let h := th.reg w.toNat
  let q := th.quadList c 4
  let base := (q.getD 0 0).toNat
  let x := q.getD 1 0
  let vec := (q.getD 3 0).toNat
  let type := xType x
  let z := xferSize type
  let region := (base, 127 * xPitch x + 256 * z)
  let vecs := if 3 ≤ ep.toNat then [(vec, 1024)] else []
  let types := if op = 14 then [0, 1, 2, 7] else [0, 1, 2, 3, 4, 7]
  if (type = 3 || type = 4) && !s.feature 6 then .illegal
  else
    match t.cairnReg th r with
    | none => .refuse
    | some cn =>
      if t.xferOk h && decide (x.toNat < 2 ^ 22) && types.contains type && (op == 15 || xRnd x == 0) && xPitch x % 16 == 0
          && decide (256 * z ≤ xPitch x) && base % 16 == 0 && (type != 7 || decide (ep.toNat ≤ 1))
          && (xRnd x != 3 || s.feature 8) && vecs.all (fun p => p.1 % 16 == 0) && (region :: vecs).all fun p => t.plain p.1 p.2 then
        .go { newCmd op (ep.zeroExtend 5) h a gr s with
              c := q, cairn := cn, slots := [(hPair h, hSlot h)]
              reads := if op = 14 then blocksOf [region] else if ep = 4 then blocksOf vecs else []
              writes := if op = 14 then [] else blocksOf (if ep = 3 then region :: vecs else [region]) }
            (if op = 15 && xRnd x = 3 && type ≠ 7 then 32768 else 0)
      else .refuse

/-- ACCLD, R344. Loads a whole accumulator tile from scratch, widening to FP32. -/
def execAccld (w : BitVec 6) (c : BitVec 6) (r : BitVec 6) (s : State) : Host.Outcome State Fault Refusal :=
  withIssue (.accld w c r) s (cmdRun 14 [] [regF w, regF r, regF c 4] (xferPrep 14 0 w c r))

/-- ACCST, R344. Stores a whole accumulator tile to scratch through an epilogue and conversion. -/
def execAccst (f : BitVec 3) (w : BitVec 6) (c : BitVec 6) (r : BitVec 6) (s : State) : Host.Outcome State Fault Refusal :=
  withIssue (.accst f w c r) s (cmdRun 15 [] [regF w, regF r, regF c 4] (xferPrep 15 f w c r))

/-- ACCROW, R345: the checks. -/
def rowPrep (w c r : BitVec 6) (a : Act) (gr : Group) (t : Team) (s : State) : CmdRes :=
  let th := gr.thread a.lead
  let h := th.reg w.toNat
  let x := (th.reg c.toNat).toNat
  match t.cairnReg th r with
  | none => .refuse
  | some cn =>
    if t.xferOk h && x % 16 == 0 && t.plain x 512 then
      .go { newCmd 30 0 h a gr s with
            c := [th.reg c.toNat], cairn := cn, slots := [(hPair h, hSlot h)], reads := blocksOf [(x, 512)] } 0
    else .refuse

/-- ACCROW, R345. Scales each tile row by a factor read from scratch. -/
def execAccrow (w : BitVec 6) (c : BitVec 6) (r : BitVec 6) (s : State) : Host.Outcome State Fault Refusal :=
  withIssue (.accrow w c r) s (cmdRun 30 [] [regF w, regF r, regF c] (rowPrep w c r))

/-! ## Butterfly commands (R346 to R354) -/

/-- BFLY, BTWID and BREV: the checks. -/
def planPrep (op : Nat) (f : BitVec 5) (w r : BitVec 6) (a : Act) (gr : Group) (t : Team) (s : State) : CmdRes :=
  let th := gr.thread a.lead
  let h := th.reg w.toNat
  withRecord t (th.reg r.toNat).toNat fun bs =>
    let p := Plan.ofRecord bs
    let k := f.toNat % 8
    let own :=
      if op = 16 then decide (k < p.stages) && (!f.getLsbD 4 || k + 1 == p.stages)
      else if op = 17 then p.ntot != 0 && p.ntot % p.n == 0
      else true
    if t.tileFree h && planOk bs && own then
      .go { newCmd op f h a gr s with
            s := [th.reg r.toNat], record := bs, slots := [(hPair h, hSlot h)], arrays := some (hPair h) } 0
    else .refuse

/-- BFLY, R350. Performs one FFT stage of a plan on the rows of a tile. -/
def execBfly (f : BitVec 5) (w : BitVec 6) (r : BitVec 6) (s : State) : Host.Outcome State Fault Refusal :=
  withIssue (.bfly f w r) s (cmdRun 16 [2] [regF w, regF r] (planPrep 16 f w r))

/-- BTWID, R353. Multiplies tile elements by four-step twiddles. -/
def execBtwid (f : BitVec 1) (w : BitVec 6) (r : BitVec 6) (s : State) : Host.Outcome State Fault Refusal :=
  withIssue (.btwid f w r) s (cmdRun 17 [2] [regF w, regF r] (planPrep 17 ((f ++ (0 : BitVec 3)).zeroExtend 5) w r))

/-- BREV as an engine command, R352. Reorders tile row elements by the plan's digit reversal. -/
def execBrevEng (f : BitVec 1) (w : BitVec 6) (r : BitVec 6) (s : State) : Host.Outcome State Fault Refusal :=
  withIssue (.brevEng f w r) s (cmdRun 18 [2] [regF w, regF r] (planPrep 18 (f.zeroExtend 5) w r))

/-- ATRANS, R354: the checks. -/
def transPrep (w : BitVec 6) (a : Act) (gr : Group) (t : Team) (s : State) : CmdRes :=
  let h := (gr.thread a.lead).reg w.toNat
  if t.tileFree h then
    .go { newCmd 19 0 h a gr s with slots := [(hPair h, hSlot h)], arrays := some (hPair h) } 0
  else .refuse

/-- ATRANS, R354. Transposes the complex elements of a tile. -/
def execAtrans (w : BitVec 6) (s : State) : Host.Outcome State Fault Refusal :=
  withIssue (.atrans w) s (cmdRun 19 [2] [regF w] (transPrep w))

/-! ## Factorising commands (R355 to R362) -/

/-- LUBEG, R355: the checks. -/
def lubegPrep (w r : BitVec 6) (a : Act) (gr : Group) (t : Team) (s : State) : CmdRes :=
  let th := gr.thread a.lead
  let h := th.reg w.toNat
  withRecord t (th.reg r.toNat).toNat fun bs =>
    if t.tileFree h && luParamsOk bs then
      .go { newCmd 20 0 h a gr s with
            s := [th.reg r.toNat], record := bs, slots := [(hPair h, hSlot h)], arrays := some (hPair h) } 0
    else .refuse

/-- LUBEG, R355. Opens a factorising session, loading the tile into the arrays. -/
def execLubeg (w : BitVec 6) (r : BitVec 6) (s : State) : Host.Outcome State Fault Refusal :=
  withIssue (.lubeg w r) s (cmdRun 20 [3] [regF w, regF r] (lubegPrep w r))

/-- R356. The open session that a handle names. -/
def Team.luOf? (t : Team) (h : Word) : Option LuSession :=
  if t.handleOk h then (t.openLu? (hPair h)).bind fun x => if x.slot == hSlot h then some x else none else none

/-- A command of an open session, once its own checks pass. -/
def luCmd (op : Nat) (h : Word) (ss cs : List Word) (a : Act) (gr : Group) (s : State) : Cmd :=
  { newCmd op 0 h a gr s with s := ss, c := cs, slots := [(hPair h, hSlot h)], arrays := some (hPair h) }

/-- LUSTEP, R357, Table 20.6: the checks at issue. -/
def lustepPrep (w r : BitVec 6) (a : Act) (gr : Group) (t : Team) (s : State) : CmdRes :=
  let th := gr.thread a.lead
  if (t.luOf? (th.reg w.toNat)).isSome && !ctlBad (th.reg r.toNat) then
    .go (luCmd 21 (th.reg w.toNat) [th.reg r.toNat] [] a gr s) 0
  else .refuse

/-- LUSTEP, R357. Eliminates column k with the chosen or committed pivot. -/
def execLustep (w : BitVec 6) (r : BitVec 6) (s : State) : Host.Outcome State Fault Refusal :=
  withIssue (.lustep w r) s (cmdRun 21 [3] [regF w, regF r] (lustepPrep w r))

/-- LUCAND, R360: the checks at issue. `s` of the command holds the number of the key pair. -/
def lucandPrep (w c r : BitVec 6) (a : Act) (gr : Group) (t : Team) (s : State) : CmdRes :=
  let th := gr.thread a.lead
  if (t.luOf? (th.reg w.toNat)).isSome && (c == 62 || (th.reg c.toNat).toNat % 16 == 0) then
    .go (luCmd 22 (th.reg w.toNat) [r.zeroExtend 32] (if c = 62 then [] else [th.reg c.toNat]) a gr s) 0
  else .refuse

/-- LUCAND, R360. Writes the pivot key of the tile's best row and exports that row. -/
def execLucand (w : BitVec 6) (c : BitVec 6) (r : BitVec 6) (s : State) : Host.Outcome State Fault Refusal :=
  withIssue (.lucand w c r) s (cmdRun 22 [3] [regF w, outF r 2, regF c] (lucandPrep w c r))

/-- LUCOMMIT, R361: the checks at issue. -/
def lucommitPrep (w c r : BitVec 6) (a : Act) (gr : Group) (t : Team) (s : State) : CmdRes :=
  let th := gr.thread a.lead
  let row := th.quad r 0
  let ctl := th.quad r 1
  match t.luOf? (th.reg w.toNat) with
  | none => .refuse
  | some x =>
    if !ctlBad ctl && (x.isLocal row || c != 62) then
      .go (luCmd 23 (th.reg w.toNat) [row, ctl] (if c = 62 then [] else [th.reg c.toNat]) a gr s) 0
    else .refuse

/-- LUCOMMIT, R361. Commits the winning global row as the pivot of step k. -/
def execLucommit (w : BitVec 6) (c : BitVec 6) (r : BitVec 6) (s : State) : Host.Outcome State Fault Refusal :=
  withIssue (.lucommit w c r) s (cmdRun 23 [3] [regF w, regF r 2, regF c] (lucommitPrep w c r))

/-- LUEND, R362: the checks. -/
def luendPrep (w c r : BitVec 6) (a : Act) (gr : Group) (t : Team) (s : State) : CmdRes :=
  let th := gr.thread a.lead
  let out := (th.reg r.toNat).toNat
  match t.luOf? (th.reg w.toNat), t.cairnReg th c with
  | some x, some cn =>
    if out % 16 == 0 && t.plain out (16 + 8 * x.cols) then
      .go { luCmd 24 (th.reg w.toNat) [th.reg r.toNat] [] a gr s with
            cairn := cn, writes := blocksOf [(out, 16 + 8 * x.cols)] } 0
    else .refuse
  | _, _ => .refuse

/-- LUEND, R362. Closes the session, writing the tile back in logical row order and the output record. -/
def execLuend (w : BitVec 6) (c : BitVec 6) (r : BitVec 6) (s : State) : Host.Outcome State Fault Refusal :=
  withIssue (.luend w c r) s (cmdRun 24 [3] [regF w, regF r, regF c] (luendPrep w c r))

end Sys2Proof.Machine
end

