-- ==== Sys2Proof/Machine/EngineRun.lean ====
section
/-! DEFINITION. How a queued engine command starts and completes (spec/08_memory_model.md R140 to R144,
spec/19_isa_engines_matrix.md R324, R325, R328 to R332, R339 to R345, spec/20_isa_butterfly_factor.md R350 to R362), and
what the groups that wait for one do. A command's accesses, effects and completion are one event (log entry 32). -/

namespace Sys2Proof.Machine

open Host (Cell)

/-! ## Starting (R140, R324, R342, R356) -/

/-- R356. The team and session that hold the arrays of a leader core: among the teams there with a loaded session, the one
placed first. -/
def State.arrayHolder (s : State) (leader : Nat) : Option (TKey × LuSession) :=
  (leastBy? (fun (p : Team × LuSession) => p.1.placed)
    ((s.teams.map fun t => if t.saved then [] else (t.lus.filter fun x => x.loaded && t.leader? x.pair == some leader).map
      fun x => (t, x)).flatten)).map fun p => (p.1.key, p.2)

/-- The session that a command of ops 21 to 24 acts on. -/
def Team.runLu? (t : Team) (c : Cmd) : Option LuSession :=
  t.lus.find? fun x => x.loaded && x.pair == hPair c.w && x.slot == hSlot c.w

/-- R360, R361. The span that a LUCAND or LUCOMMIT uses with the step its session holds. -/
def luSpan (c : Cmd) (x : LuSession) : List (Nat × Nat) :=
  let used := (c.op == 22 || (c.op == 23 && !x.isLocal (c.s.getD 0 0))) && !x.stopped
  match c.c with
  | [] => []
  | a :: _ => if used then [(a.toNat, 4 * (x.cols - x.k))] else []

/-- The blocks that a command reads and writes when it starts; a span that leaves the plain blocks takes none, and the
command is refused as it runs (R361). -/
def Cmd.blocks (c : Cmd) (t : Team) : List Nat × List Nat :=
  match t.runLu? c with
  | some x =>
    let b := blocksOf ((luSpan c x).filter fun p => t.plain p.1 p.2)
    if c.op = 22 then ([], b) else if c.op = 23 then (b, []) else (c.reads, c.writes)
  | none => (c.reads, c.writes)

/-- R140. Whether every block may be taken at once. -/
def Team.mayTake (t : Team) (b : List Nat × List Nat) : Bool :=
  (b.2.all fun i => t.owners.getD i .writing == .threads)
    && b.1.all fun i => match t.owners.getD i .writing with
      | .threads => true
      | .reading _ => true
      | _ => b.2.contains i && t.owners.getD i .writing == .threads

/-- R140. The blocks are taken. -/
def takeBlock (b : List Nat × List Nat) (i : Nat) (o : Owner) : Owner :=
  if b.2.contains i then .writing
  else if b.1.contains i then match o with
    | .reading k => .reading (k + 1)
    | _ => .reading 1
  else o

/-- R140. The blocks return. -/
def returnBlock (b : List Nat × List Nat) (i : Nat) (o : Owner) : Owner :=
  if b.2.contains i then .threads
  else if b.1.contains i then match o with
    | .reading (k + 2) => .reading (k + 1)
    | _ => .threads
  else o

def common (a b : List Nat) : Bool := a.any fun x => b.contains x

/-- R140, R324, R356. Whether an earlier command of the team holds a command back: one that wants a common block and has
not taken it, one that names a common slot, or a factorising command on the arrays. -/
def Cmd.behind (c e : Cmd) (t : Team) : Bool :=
  e.team == c.team && decide (e.id < c.id)
    && ((!e.running && common (c.wants t) (e.wants t))
      || (e.slots.any fun x => c.slots.contains x)
      || (c.arrays.isSome && e.arrays == c.arrays && decide (20 ≤ e.op) && decide (e.op ≤ 24)))

/-- R342, R356. Whether the arrays that a command needs are free for it. -/
def State.arraysFree (s : State) (c : Cmd) : Bool :=
  match s.arraysOf c with
  | none => true
  | some l =>
    match s.arrayHolder l with
    | none => !(s.allCmds.any fun e => e.running && s.arraysOf e == some l)
    | some h => h.1 == c.team && decide (21 ≤ c.op) && decide (c.op ≤ 24)
        && !(s.allCmds.any fun e => e.running && e.op != 11 && s.arraysOf e == some l)

/-- R342, R372. Whether the arrays of a running command are its own: an SMMA that an eviction saved open waits, where its
team has come back, for the commands and the session that it finds there, and for an earlier such SMMA. -/
def State.arraysOwn (s : State) (c : Cmd) : Bool :=
  c.op != 11 || match s.arraysOf c with
    | none => true
    | some l => (s.arrayHolder l).isNone
        && !(s.allCmds.any fun e => e.running && e.id != c.id && s.arraysOf e == some l && (e.op != 11 || decide (e.id < c.id)))

/-- Whether a queued command may start.
Log entry 32 (DESIGN CHOICE). -/
def State.mayStart (s : State) (c : Cmd) : Bool :=
  match s.team? c.team with
  | none => false
  | some t =>
    let b := c.blocks t
    !c.running && !t.saved && !(s.allCmds.any fun e => c.behind e t) && s.arraysFree c && t.mayTake b

/-- The n-th command of a core's queue replaced. -/
def State.setCmd (s : State) (core n : Nat) (c : Cmd) : State := s.modCore core fun x => { x with queue := x.queue.set n c }
def State.dropCmd (s : State) (core n : Nat) : State := s.modCore core fun x => { x with queue := x.queue.eraseIdx n }

/-- R11. The arrays of a cluster work. -/
def State.arraysWork (s : State) (c : Cmd) : State :=
  match s.arraysOf c with
  | some l => s.modBoot fun b => { b with arrayAt := b.arrayAt.set (l / 4) s.cycle }
  | none => s

/-- ENGINE_COMMAND_START, R140. A queued engine command takes all its blocks at once and starts running. A remote command
seals its node before any packet leaves (R331). -/
def execEngineCommandStart (core n : Nat) (s : State) : Host.Outcome State Fault Refusal :=
  event (match (s.core core).queue[n]? with
    | none => s
    | some c =>
      if s.mayStart c then
        let b := ((s.team? c.team).map fun t => c.blocks t).getD ([], [])
        let s1 := if c.op = 5 ∨ c.op = 6 then s.sealNow c.team.ctx c.team.node 1 else s
        let s2 := s1.modTeam c.team fun t => { t with owners := t.owners.mapIdx (takeBlock b) }
        (s2.setCmd core n { c with running := true, reads := b.1, writes := b.2 }).arraysWork c
      else s)

/-! ## Global lines of an engine -/

/-- R131. A physical line that a stash window of the device holds: team, scratch line, stash line. -/
def State.heldLine (s : State) (line : Nat) : Option (TKey × StashLine) :=
  s.teams.findSome? fun t => t.windows.findSome? fun w => w.lines.findSome? fun l =>
    match (s.ctx t.key.ctx).phys? ((w.base + (l.line - w.first * 32) * 128) % 2 ^ 64) with
    | some p => if p / 128 = line then some (t.key, l) else none
    | none => none

/-- R131, R141. Bytes that an engine reads within one line: of a held line, the stash's or those before it. -/
def State.engRead (s : State) (p n : Nat) : List Byte :=
  match s.heldLine (p / 128) with
  | some h => if Config.stashSeen s.tick (p / 128) then cellsRead s.mem p n else (h.2.stale.drop (p % 128)).take n
  | none => cellsRead s.mem p n

/-- Bytes of a line replaced. -/
def patch (l : List Byte) (off : Nat) (bs : List Byte) : List Byte := l.take off ++ bs ++ l.drop (off + bs.length)

/-- The bytes before the stash of a held line changed, and the line clean or as dirty as it was. -/
def State.setStale (s : State) (h : TKey × StashLine) (f : StashLine → StashLine) : State :=
  s.modTeam h.1 fun t => { t with windows := t.windows.map fun w =>
    { w with lines := w.lines.map fun l => if l.line == h.2.line then f l else l } }

/-- R131, R141, R194. Bytes that an engine writes within one line, with staging and sealing first: of a held line, either
the engine's bytes stand or the stash line's do. -/
def State.engWrite (s : State) (k : TKey) (p : Nat) (bs : List Byte) : State :=
  let s1 := s.stageFor (some (k.ctx, k.node)) (p / 65536)
  match s1.heldLine (p / 128) with
  | none => { s1 with mem := cellsWrite s1.mem p bs }
  | some h =>
    let line := patch h.2.stale (p % 128) bs
    let s2 := s1.setStale h fun l => { l with stale := line }
    if Config.stashSeen s.tick (p / 128) then s2
    else { s2 with mem := cellsWrite s2.mem (p / 128 * 128) line }

/-- R148. Whether a physical line holds a registered byte of the partition. -/
def State.lineRegistered (s : State) (part line : Nat) : Bool := (List.range 128).any fun i => s.registered part (line * 128 + i)

/-! ## Copies (R327 to R332) -/

/-- One box element: its linear index, scratch address, and global address where it is inside. -/
structure BoxElem where
  n : Nat
  saddr : Nat
  gaddr : Option Nat
deriving DecidableEq, Repr

/-- R327. Element n of a command's box; m is the team's scratch, which holds the index vector. -/
def Cmd.elem (c : Cmd) (h : Shape) (m : List Cell) (n : Nat) : BoxElem :=
  let i0 := n % h.box0
  let i1 := n / h.box0 % h.box1
  let i2 := n / (h.box0 * h.box1)
  let g0 := c.coords.getD 0 0 + i0
  let g1 := if gathers c.op then signedCode 32 (bytesNat (cellsRead m (h.gidx + 4 * i1) 4)) else c.coords.getD 1 0 + i1
  let g2 := c.coords.getD 2 0 + i2
  let ext := fun i => ((h.ext.getD i 0 : Nat) : Int)
  let inside := decide (0 ≤ g0) && decide (g0 < ext 0) && decide (0 ≤ g1) && decide (g1 < ext 1) && decide (0 ≤ g2) && decide (g2 < ext 2)
  { n := n, saddr := c.box + i2 * h.splane + i1 * h.spitch + i0 * h.ssize
    gaddr := if inside then some ((h.base + g0 * h.gsize + g1 * h.str1 + g2 * h.str2) % 2 ^ 64).toNat else none }

def Cmd.shape (c : Cmd) : Shape := Shape.ofRecord c.record

/-- The elements of a copy command's box, in linear order. -/
def Cmd.elems (c : Cmd) (m : List Cell) : List BoxElem := (List.range c.shape.count).map (c.elem c.shape m)

/-- Whether a command accesses this device's global memory, and whether it writes it. -/
def Cmd.local' (c : Cmd) : Bool := c.op == 0 || c.op == 1 || c.op == 2 || c.op == 7 || (c.op == 3 && !c.f.getLsbD 0)
def Cmd.writesGlobal (c : Cmd) : Bool := c.op == 1 || c.op == 3 || c.op == 7

/-- R332. What the translation of an element finds: a write into a hamper is barred as well (R368). -/
def State.engCheck (s : State) (c : Cmd) (x : Nat) : Chk :=
  match checkMapped (s.ctx c.team.ctx) x c.writesGlobal none with
  | .ok l =>
    match l with
    | .glob p _ _ =>
      if c.writesGlobal && (List.range c.shape.gsize).any fun i => s.hampered (s.ctx c.team.ctx).part (p + i) then
        .fault tPerm (BitVec.ofNat 32 x)
      else .ok l
    | _ => .ok l
  | r => r

/-- The checks of the elements inside the box.
Log entry 45 (DEDUCED). -/
def State.engChecks (s : State) (c : Cmd) : List Chk :=
  if c.local' then (c.elems (s.scratch c.team)).filterMap fun e => e.gaddr.map (s.engCheck c) else []

def Chk.isPage : Chk → Bool
  | .page _ => true
  | _ => false

def Chk.isFault : Chk → Bool
  | .fault _ _ => true
  | _ => false

/-- R167, R330. The n-th stochastic value that a command takes. -/
def State.cmdDraw (s : State) (c : Cmd) (n : Nat) : Nat :=
  match s.groups.find? fun g => g.key == c.elected.1 with
  | some gr => stochastic (s.genSeed gr) (gr.genL c.elected.2) ((c.conv0 + n) % 2 ^ 32)
  | none => 0

/-- R221. The rounding of element n under a two-bit rounding field. -/
def State.cmdMode (s : State) (c : Cmd) (field n : Nat) : CvtMode :=
  match field with
  | 0 => .std (modeOf (BitVec.ofNat 32 c.mode))
  | 1 => .std .rne
  | 2 => .std .rz
  | _ => .stoch (s.cmdDraw c n)

/-- R330. The bytes that an element stores, with flags. -/
def State.convElem (s : State) (c : Cmd) (n : Nat) (bs : List Byte) : List Byte × Flags :=
  let h := c.shape
  if h.conv = 0 then (bs, 0)
  else
    let r := accStore h.gtype (s.cmdMode c (c.f.toNat % 4) n) (fmtF32.val (bytesNat bs))
    (natBytes h.gsize r.1, r.2)

/-- The 128-byte line that an element's access is made to, global or scratch. -/
def Cmd.lineOf (c : Cmd) (e : BoxElem) : Nat := (if c.writesGlobal then e.gaddr.getD e.saddr else e.saddr) / 128

/-- One element of a copy command, with the flags so far. -/
def State.copyElem (s : State) (c : Cmd) (e : BoxElem) : State × Flags :=
  let h := c.shape
  let k := c.team
  let put := fun (s : State) bs => s.modScratch k fun m => cellsWrite m e.saddr bs
  let phys := e.gaddr.bind (s.ctx k.ctx).phys?
  match c.op with
  | 0 | 2 => match phys with
    | some p => (put s (s.engRead p h.gsize), 0)
    | none => (put s (List.replicate h.ssize 0), 0)
  | 6 => match e.gaddr with
    | some _ => (put s ((c.remote.drop (e.n * h.gsize)).take h.gsize), 0)
    | none => (put s (List.replicate h.ssize 0), 0)
  | 1 | 5 | 7 => match e.gaddr with
    | none => (s, 0)
    | some _ =>
      let r := s.convElem c e.n (cellsRead (s.scratch k) e.saddr h.ssize)
      match phys with
      | some p =>
        if c.op = 5 || s.lineRegistered (s.ctx k.ctx).part (p / 128) then (s, r.2) else (s.engWrite k p r.1, r.2)
      | none => (s, r.2)
  | 3 =>
    if c.f.getLsbD 0 then (put s (List.replicate h.ssize 0), 0)
    else match phys with
      | some p =>
        if s.lineRegistered (s.ctx k.ctx).part (p / 128) then (s, 0) else (s.engWrite k p (List.replicate h.gsize 0), 0)
      | none => (s, 0)
  | _ => (s, 0)

/-- R332, R325. Whether an element may be accessed: outside the extents it has no global access, and inside its translation
must permit one. -/
def State.elemOk (s : State) (c : Cmd) (e : BoxElem) : Bool :=
  !c.local' || e.gaddr.all fun x => match s.engCheck c x with
    | .ok _ => true
    | _ => false

/-- Elements in linear order; of a command that fails, those of the lines that it had written, none of which the failure
concerns. -/
def State.copyElems (c : Cmd) (all : Bool) : List BoxElem → State → Flags → State × Flags
  | [], s, f => (s, f)
  | e :: es, s, f =>
    if all || (Config.partialWrites s.tick (c.lineOf e) && s.elemOk c e) then
      let r := s.copyElem c e
      State.copyElems c all es r.1 (f ||| r.2)
    else State.copyElems c all es s f

/-! ## What a command leaves when it completes -/

/-- What a completed command gives: the state with its writes, flags, the error cause (0 for none), the bytes that arrive
on its cairn, and metering. -/
structure CmdEnd where
  s : State
  flags : Flags := 0
  cause : Nat := 0
  bytes : Nat := 0
  meters : List (Nat × Nat) := []

/-- R328 to R332. -/
def State.endCopy (s : State) (c : Cmd) : CmdEnd :=
  let es := c.elems (s.scratch c.team)
  let inside := es.filter fun e => e.gaddr.isSome
  let skipped := c.local' && c.writesGlobal && inside.any fun e => match e.gaddr.bind (s.ctx c.team.ctx).phys? with
    | some p => s.lineRegistered (s.ctx c.team.ctx).part (p / 128)
    | none => false
  let cause := if c.cause ≠ 0 then c.cause else if (s.engChecks c).any Chk.isFault then 3 else 0
  let r := State.copyElems c (cause == 0 || (c.op == 5 && cause == 5)) es s 0
  { s := r.1, flags := r.2, cause := if cause ≠ 0 then cause else if skipped then 5 else 0, bytes := c.shape.bytes
    meters := if c.op = 5 ∨ c.op = 6 then [(21, inside.length * c.shape.gsize)] else [] }

/-- The words of the tile that a command names. -/
def Team.tile (t : Team) (pair slot : Nat) : List Word :=
  ((t.tiles.find? fun x => x.pair == pair && x.slot == slot).map Tile.words).getD []

def setTile (pair slot : Nat) (ws : List Word) (t : Team) : Team :=
  { t with tiles := t.tiles.map fun x => if x.pair == pair && x.slot == slot then { x with words := ws } else x }

/-- A command that replaces its tile. -/
def State.endTile (s : State) (c : Cmd) (r : List Word × Flags) (cat inc bytes : Nat) : CmdEnd :=
  { s := s.modTeam c.team (setTile (hPair c.w) (hSlot c.w) r.1), flags := r.2, bytes := bytes
    meters := if inc = 0 then [] else [(cat, inc)] }

/-- R339 to R341. -/
def State.endProduct (s : State) (c : Cmd) (t : Team) : CmdEnd :=
  let tile := t.tile (hPair c.w) (hSlot c.w)
  let b0 := c.c.getD 0 0
  let b1 := c.c.getD 1 0
  let fmt := specFmt b0
  let m := t.scratch
  let clear := c.f.getLsbD 0
  let neg := c.f.getLsbD 3
  let oa := fun k => Opnd.ofSpec true (c.f.getLsbD 1) k (c.s.getD 0 0) (c.s.getD 1 0)
  match c.op with
  | 8 =>
    let k := mxK fmt
    s.endTile c (productDense m (oa k) (Opnd.ofSpec false (c.f.getLsbD 2) k b0 b1) clear neg tile) (mxCat fmt) (65536 * k) 0
  | 9 =>
    let k := mxKr fmt
    s.endTile c (productRegs m c.rows (Opnd.ofSpec false false k b0 b1) clear (c.f.getLsbD 1) neg tile) (mxCat fmt) (65536 * (k / 2)) 0
  | _ =>
    let nc := specN b0
    let k := sparseK fmt nc
    if sparseAll m (specHalves b0 b1) (specPitch b1) fmt nc then
      s.endTile c (productSparse m (oa k) (specHalves b0 b1) (specPitch b1) nc clear neg tile) (mxCat fmt)
        (65536 * k * sparseN nc / 48) (256 * sparseLines fmt nc * 128)
    else { s := s, cause := 4 }

/-- R344. One row of an ACCST: the values to convert, flags, and the new row state. -/
def accstRow (ep type : Nat) (scale : Word) (xs : List Word) (m v : Word) : List Val × Flags × Option (Word × Word) :=
  match ep with
  | 3 => let r := smxRow m v xs; (r.1.map wordVal, r.2.2, some r.2.1)
  | 4 => let ys := xs.map fun x => smxNorm x m v; (ys.map fun y => wordVal y.1, (ys.map Prod.snd).foldl (· ||| ·) 0, none)
  | _ => let ys := xs.map (epiVal ep type scale); (ys.map Prod.fst, (ys.map Prod.snd).foldl (· ||| ·) 0, none)

/-- R343, R344. Row r of an ACCST into scratch bytes. -/
def State.accstPut (s : State) (c : Cmd) (tile : List Word) (m : List Cell) (r : Nat) : List Cell × Flags :=
  let x := c.c.getD 1 0
  let type := xType x
  let z := xferSize type
  let base := (c.c.getD 0 0).toNat + r * xPitch x
  let xs := (tile.drop (r * 256)).take 256
  if type = 7 then (cellsWrite m base (xs.map fun w => natBytes 4 (if c.f.toNat = 1 then relu 7 w else w).toNat).flatten, 0)
  else
    let st := (c.c.getD 3 0).toNat + 8 * r
    let w := fun a => BitVec.ofNat 32 (bytesNat (cellsRead m a 4))
    let row := accstRow c.f.toNat type (c.c.getD 2 0) xs (w st) (w (st + 4))
    let ys := row.1.mapIdx fun j v => accStore type (s.cmdMode c (xRnd x) (256 * r + j)) v
    let m1 := cellsWrite m base (ys.map fun y => natBytes z y.1).flatten
    let m2 := match row.2.2 with
      | some p => cellsWrite m1 st (natBytes 4 p.1.toNat ++ natBytes 4 p.2.toNat)
      | none => m1
    (m2, (ys.map Prod.snd).foldl (· ||| ·) row.2.1)

/-- ACCST, R344, rows in order. -/
def State.endAccst (s : State) (c : Cmd) (t : Team) : CmdEnd :=
  let tile := t.tile (hPair c.w) (hSlot c.w)
  let r := (List.range 128).foldl (fun (acc : List Cell × Flags) i =>
    let q := s.accstPut c tile acc.1 i
    (q.1, acc.2 ||| q.2)) (t.scratch, 0)
  { s := s.modScratch c.team fun _ => r.1, flags := r.2, bytes := 32768 * xferSize (xType (c.c.getD 1 0))
    meters := if c.f.toNat = 0 then [] else [(17, 32768)] }

/-- ACCLD, R344. -/
def State.endAccld (s : State) (c : Cmd) (t : Team) : CmdEnd :=
  let x := c.c.getD 1 0
  let z := xferSize (xType x)
  let base := (c.c.getD 0 0).toNat
  s.endTile c (tileMap (t.tile (hPair c.w) (hSlot c.w)) fun i j _ =>
    accLoad (xType x) (bytesNat (cellsRead t.scratch (base + i * xPitch x + j * z) z))) 0 0 (32768 * z)

/-- ACCROW, R345. -/
def State.endAccrow (s : State) (c : Cmd) (t : Team) : CmdEnd :=
  let base := (c.c.getD 0 0).toNat
  s.endTile c (tileMap (t.tile (hPair c.w) (hSlot c.w)) fun i _ w =>
    rowScale (BitVec.ofNat 32 (bytesNat (cellsRead t.scratch (base + 4 * i) 4))) w) 17 32768 512

/-- R350 to R354. -/
def State.endBfly (s : State) (c : Cmd) (t : Team) : CmdEnd :=
  let p := Plan.ofRecord c.record
  let tile := t.tile (hPair c.w) (hSlot c.w)
  match c.op with
  | 16 => s.endTile c (bfly p (c.f.getLsbD 3) (c.f.getLsbD 4) (c.f.toNat % 8) tile) 18 (p.n * p.nrows) 0
  | 17 => s.endTile c (btwid p (c.f.getLsbD 3) tile) 18 (p.n * p.nrows) 0
  | 18 => s.endTile c (brev p (c.f.getLsbD 0) tile, 0) 0 0 0
  | _ => s.endTile c (atrans tile, 0) 0 0 0

/-- R338. The grant of an ACCFREE is released, and its tiles are lost. -/
def releaseGrant (h : Word) (t : Team) : Team :=
  { t with
    grants := t.grants.filter fun g => !(g.freeing && g.pair == hPair h && g.slot == hSlot h && g.count == hCount h)
    tiles := t.tiles.filter fun x => !(x.pair == hPair h && decide (hSlot h ≤ x.slot) && decide (x.slot < hSlot h + hCount h)) }

/-- R362. LUEND. -/
def State.endLuend (s : State) (c : Cmd) (t : Team) : CmdEnd :=
  match t.runLu? c with
  | none => { s := s }
  | some x =>
    let out := (c.s.getD 0 0).toNat
    let s1 := s.modTeam c.team fun t =>
      { setTile x.pair x.slot x.writeBack t with lus := t.lus.filter fun y => y.id != x.id }
    { s := s1.modScratch c.team fun m => cellsWrite m out x.output, bytes := 16 + 8 * x.k }

/-- R355. LUBEG runs: it loads its own session. -/
def loadLu (c : Cmd) (t : Team) : Team :=
  { t with lus := t.lus.map fun x => if x.id == c.id then x.load (t.tile x.pair x.slot) else x }

/-- R357, R360, R361. A precise factorising command on its session, over the scratch of the team. -/
def luResult (c : Cmd) (t : Team) (x : LuSession) : LuRes :=
  if (luSpan c x).any (fun p => !t.plain p.1 p.2) then .refuse
  else
    match c.op with
    | 21 => x.step (c.s.getD 0 0)
    | 22 => x.cand
    | _ =>
      let a := (c.c.getD 0 0).toNat
      x.commit (c.s.getD 0 0) (c.s.getD 1 0)
        ((List.range (x.cols - x.k)).map fun j => BitVec.ofNat 32 (bytesNat (cellsRead t.scratch (a + 4 * j) 4)))

/-- R379. The party 0 of an SMMA's session adds the product of the sums. -/
def State.firstParty (s : State) (c id : Nat) : Bool :=
  match s.session? id with
  | some x => x.partyOf s.boot.devId c == some 0
  | none => false

/-- The end of a command that is not precise, or of an SMMA with its sums. -/
def State.endCmd (s : State) (c : Cmd) (t : Team) : CmdEnd :=
  match c.op with
  | 0 | 1 | 2 | 3 | 4 | 5 | 6 | 7 => s.endCopy c
  | 8 | 9 | 10 => s.endProduct c t
  | 11 =>
    let k := matK (specFmt (c.s.getD 0 0))
    let e := s.endTile c (smmaTile c (s.firstParty c.team.ctx c.session) (c.sums.getD []) (t.tile (hPair c.w) (hSlot c.w)), 0) 0 0 0
    { e with meters := [(ringCat c.ring, 65536 * k), (20, 384 * k)] }
  | 13 => { s := s.modTeam c.team (releaseGrant c.w) }
  | 14 => s.endAccld c t
  | 15 => s.endAccst c t
  | 20 => { s := s.modTeam c.team (loadLu c) }
  | 24 => s.endLuend c t
  | 30 => s.endAccrow c t
  | _ => s.endBfly c t

/-! ## Completion (R325) -/

/-- The group that issued a command. -/
def State.issuer (s : State) (c : Cmd) : Option Nat := s.groupIdx? c.elected.1

/-- R325. A command is over: its blocks return, its place in the queue is free, and WAITC stops counting it. -/
def State.leaveCmd (s : State) (core n : Nat) (c : Cmd) : State :=
  let s1 := (s.dropCmd core n).modTeam c.team fun t => { t with owners := t.owners.mapIdx (returnBlock (c.reads, c.writes)) }
  match s1.issuer c with
  | none => s1
  | some g => s1.modThread g c.elected.2 fun th =>
      { th with copies := th.copies - (if copyOp c.op then 1 else 0), tileOps := th.tileOps - (if copyOp c.op then 0 else 1) }

/-- Groups that a command held go on; an XFENCE whose last command has gone retires (R150). -/
def Group.release (live : List Nat) (gr : Group) : Group :=
  let move := fun (next : Word) (ts : List Nat) =>
    { gr with fetch := none, threads := gr.threads.mapIdx fun t th => if ts.contains t && !th.isExited then th.goOn next else th }
  match gr.fetch with
  | some (.fence ids next ts) => if common ids live then gr else move next ts
  | some (.engine id next ts) => if live.contains id then gr else move next ts
  | _ => gr

/-- What waits on the completion of a command goes on. -/
def State.afterCmd (s : State) : State :=
  let live := s.allCmds.map Cmd.id ++ (s.teams.map fun t => t.commands.map Cmd.id).flatten
  { s with groups := s.groups.map (Group.release live) }.settle

/-- R325. The end of a command in order: blocks, flags, cairn, counts. Metering is taken unless it failed (R81); the bytes
of a remote command are always counted (R84). -/
def State.finishCmd (core n : Nat) (c : Cmd) (e : CmdEnd) : State :=
  let k := c.elected.1
  let s1 := e.s.leaveCmd core n c
  let s2 := match s1.issuer c with
    | some g => (if preciseOp c.op then s1.pay g c.elected.2 else s1).raise g c.elected.2 e.flags
    | none => s1
  let s3 := match c.cairn with
    | some a => s2.modScratch c.team fun m =>
        if e.cause = 0 then cairnArrive m a.toNat e.bytes else cairnReport m a.toNat e.cause
    | none => s2
  let s4 := if e.cause = 0 ∨ c.op = 5 ∨ c.op = 6 then e.meters.foldl (fun s p => s.meter k p.1 p.2) s3 else s3
  s4.afterCmd

/-- A precise command ends in a trap at its PC; the command has no effect (R347). -/
def State.trapCmd (s : State) (core n : Nat) (c : Cmd) (code : BitVec 8) (detail : Word) : State :=
  let s1 := s.leaveCmd core n c
  match s1.issuer c with
  | none => s1
  | some g => (s1.takeTrap g c.threads c.elected.2 code detail).settle

/-- R357, R360, R361. The end of a precise factorising command. -/
def State.finishLu (s : State) (core n : Nat) (c : Cmd) (t : Team) : State :=
  match t.runLu? c with
  | none => s.trapCmd core n c tEngSpec (BitVec.ofNat 32 c.op)
  | some x =>
    match luResult c t x with
    | .refuse => s.trapCmd core n c tEngSpec (BitVec.ofNat 32 c.op)
    | .trap code k => s.trapCmd core n c code (BitVec.ofNat 32 k)
    | .done y flags count key out =>
      let s1 := s.modTeam c.team fun t => { t with lus := t.lus.map fun z =>
        if z.id == x.id then y else z }
      let s2 := match out, c.c with
        | some ws, a :: _ => s1.modScratch c.team fun m => cellsWrite m a.toNat (ws.map fun w => natBytes 4 w.toNat).flatten
        | _, _ => s1
      let s3 := match s2.issuer c with
        | some g =>
          if c.op = 22 then
            c.threads.foldl (fun s u => s.modThread g u fun th => th.setPair (c.s.getD 0 62).toNat key) s2
          else s2
        | none => s2
      State.finishCmd core n c { s := s3, flags := flags, meters := if count = 0 then [] else [(19, count)] }

/-- Whether a running command may complete now. -/
def State.mayEnd (s : State) (c : Cmd) : Bool :=
  c.running && (!(c.op == 5 || c.op == 6) || c.acked) && (c.op != 11 || c.sums.isSome) && !(s.engChecks c).any Chk.isPage
    && (s.team? c.team).isSome && s.arraysOwn c

/-- R192. The commands that form a product. -/
def Cmd.isProduct (c : Cmd) : Bool := c.op == 8 || c.op == 9 || c.op == 10 || c.op == 11

/-- R193. A machine check at the elected thread of a command. -/
def State.cmdCheck (s : State) (c : Cmd) (source : Word) : State :=
  match s.issuer c with
  | some g => s.machineCheckAt g c.elected.2 source c.pc
  | none => s

/-- ENGINE_COMMAND_COMPLETE, R325. An engine command's accesses end. `upset` is 1 where a product's checksum does not
match (R192), 2 where the command consumes poisoned data (R193). -/
def execEngineCommandComplete (core n : Nat) (upset : Nat) (s : State) : Host.Outcome State Fault Refusal :=
  event (match (s.core core).queue[n]? with
    | none => s
    | some c =>
      if !s.mayEnd c then s
      else if upset = 1 && c.isProduct then
        if c.retried then s.cmdCheck c 2 else s.setCmd core n { c with retried := true }
      else if upset = 2 then s.cmdCheck c 3
      else
        match s.team? c.team with
        | none => s
        | some t =>
          let s1 := s.arraysWork c
          if c.op = 21 ∨ c.op = 22 ∨ c.op = 23 then s1.finishLu core n c t else State.finishCmd core n c (s1.endCmd c t))

/-! ## Answers to share instructions (R371, R372) -/

/-- The answer that waits for a party under a key, and the session without it. -/
def State.takeAnswer (s : State) (id party : Nat) (lbase : Word) (seq sub : Nat) : Option (RoundAnswer × State) :=
  match s.session? id with
  | none => none
  | some x =>
    (x.results.find? fun r => r.is party lbase seq sub).map fun r =>
      (r.res, s.modSession id fun x => { x with results := x.results.filter fun q => !q.is party lbase seq sub })

/-- R377. A SLUT's buffer is no longer bound. -/
def unbind (k : GKey) (table : Nat) (t : Team) : Team :=
  { t with tables := t.tables.modify table fun x => { x with bound := x.bound.filter fun b => b.1 != k } }

/-- R374 to R378. A share instruction retires: its results, PZ for its operands, metering. -/
def State.finishShare (s : State) (g : Nat) (k : GKey) (o : ShareOp) (vs : List Nat) : State :=
  match s.groups[g]? with
  | none => s
  | some gr =>
    let s1 := (s.modGroup g fun x => { x with fetch := none }).modTeam (gkeyTeam k) (unbind k o.table)
    let inc := if o.op = 25 then 2 else 1
    ((o.threads.zip vs).foldl (fun s p =>
      let s2 := s.modThread g p.1 fun th => (shareWrites o.width o.d p.2).foldl (fun th w => th.setReg w.1 w.2) th
      let s3 := (s2.meter k (ringCat o.width) inc).meter k 20 (shareWords o.op o.width)
      s3.finish g p.1 k (poisonFlag gr (inThread p.1 o.reads)) 0 0 o.next) s1).settle

/-- The sums of a round come back to an open share instruction. -/
def State.shareSums (s : State) (g : Nat) (k : GKey) (o : ShareOp) (x : Session) (sums : List Nat) : State :=
  let party := (x.partyOf s.boot.devId k.ctx).getD 0
  let h := ((x.hampers.find? fun h => h.1 == party).map fun h => h.2.toNat).getD 0
  let st := o.steps (s.virtNat k.ctx (h + 3) 1) (party == 0) (x.policy.contains party) sums
  match shareResults st with
  | some vs => s.finishShare g k o vs
  | none => s.modGroup g fun gr => { gr with fetch := some (.share (o.goOn st)) }

/-- R369, R371. What a home stile of another device may have sent for a round of n elements. -/
def answerFits (n : Nat) (a : RoundAnswer) : Bool :=
  match a with
  | .sums v => v.length == n
  | .trap code => code == tGateAbort || code == tGateDesync || code == tRevealDenied

/-- R369, R372. The answer of the home stile to a party, for a round of n elements under a key: the one held there, or, from
another device, the one sent. It arrives as a packet at the station of a core.
Log entry 104 (DESIGN CHOICE). -/
def State.takeReply (s : State) (core : Nat) (x : Session) (party n : Nat) (tag : RoundTag) (away : Option RoundAnswer) :
    Option (RoundAnswer × State) :=
  match s.takePacket (core / 32) (core % 32) (roundClass tag.op) (((x.parties[party]?).map Party.part).getD 0) with
  | none => none
  | some s1 =>
    if x.homeOf == s.boot.devId then s1.takeAnswer x.id party tag.lbase tag.seq tag.sub
    else (away.filter (answerFits n)).map fun a => (a, s1)

/-- SHARE_RESULT_RECEIVE, R372. A party receives a round's sums and its open share instruction continues to the next round
or retires, or it traps. -/
def execShareResultReceive (r : ShareReply) (s : State) : Host.Outcome State Fault Refusal :=
  let g := r.group
  event (match s.groupIdx? g with
    | none => s
    | some i =>
      match s.groups[i]? with
      | none => s
      | some gr =>
        if !s.active gr then s
        else
          match gr.fetch with
          | some (.share o) =>
            match s.session? o.session with
            | none => s
            | some x =>
              match s.takeReply gr.core x ((x.partyOf s.boot.devId g.ctx).getD 0) o.sent.length o.tag r.away with
              | none => s
              | some (.sums v, s1) => s1.shareSums i g o x v
              | some (.trap code, s1) =>
                (s1.modTeam (gkeyTeam g) (unbind g o.table)).takeTrap i o.threads (o.threads.headD 0) code o.cursor
          | some (.engine id _ _) =>
            match (s.core gr.core).queue.findIdx? fun c => c.id == id && c.op == 11 && c.running && c.sums.isNone with
            | none => s
            | some n =>
              match (s.core gr.core).queue[n]? with
              | none => s
              | some c =>
                match s.session? c.session with
                | none => s
                | some x =>
                  match s.takeReply gr.core x ((x.partyOf s.boot.devId g.ctx).getD 0) c.smmaLen c.smmaTag r.away with
                  | none => s
                  | some (.sums v, s1) => s1.setCmd gr.core n { c with sums := some v }
                  | some (.trap code, s1) => s1.trapCmd gr.core n c code c.smmaTag.cursor
          | _ => s)

/-! ## Remote lines (R149, R331) -/

/-- REMOTE_ACK, R149. The answer to a running XPUT or XGET: its cause (0, 2, 3 or 5), and for an XGET the data of the box, the
element of linear index i at byte i times the element size.
Log entry 46 (DESIGN CHOICE). -/
def execRemoteAck (core n : Nat) (cause : Nat) (bytes : List Byte) (s : State) : Host.Outcome State Fault Refusal :=
  event (match (s.core core).queue[n]? with
    | none => s
    | some c =>
      if c.running && !c.acked && (c.op == 5 || c.op == 6) then
        s.setCmd core n { c with acked := true, cause := if cause = 2 ∨ cause = 3 ∨ cause = 5 then cause else 0, remote := bytes }
      else s)

/-- R331. A grant that names the source of a command. -/
def grantNames (r : RemoteCmd) (g : Grant) : Bool := g.dev == r.dev && g.part == r.part && g.owner == r.owner

/-- R331. A grant that admits a command's access to some bytes. -/
def grantAdmits (r : RemoteCmd) (a n : Nat) (write : Bool) (g : Grant) : Bool :=
  grantNames r g && decide (g.base.toNat ≤ a) && decide (a + n ≤ g.base.toNat + g.size) && (if write then g.canWrite else g.canRead)

/-- R331. The grants that a command may use: those of the table, and those it was accepted under. -/
def Partition.grantsFor (p : Partition) (r : RemoteCmd) : List Grant :=
  p.grants ++ ((p.incoming.find? fun x => x.1 == r).map Prod.snd).getD []

/-- R331. Whether a partition admits a command's access to some bytes: one line, under a grant. -/
def Partition.admits (p : Partition) (r : RemoteCmd) (a n : Nat) (write : Bool) : Bool :=
  decide (a % 128 + n ≤ 128) && (p.grantsFor r).any (grantAdmits r a n write)

/-- R331. A command is accepted with its first line, under the grants of that time; with its last line it is complete. -/
def Partition.accept (r : RemoteCmd) (last : Bool) (p : Partition) : Partition :=
  if last then { p with incoming := p.incoming.filter fun x => x.1 != r }
  else if p.incoming.any fun x => x.1 == r then p
  else { p with incoming := p.incoming ++ [(r, p.grants.filter (grantNames r))] }

/-- The physical address that a partition's contexts give a virtual address: those that are ACTIVE, the lowest first. -/
def State.partPhys (s : State) (part a : Nat) (write : Bool) : Option (Nat × Nat) :=
  (List.range 64).findSome? fun c =>
    let x := s.ctx c
    if x.state == .active && x.part == part then
      match checkMapped x a write none with
      | .ok (.glob p _ _) => some (c, p)
      | _ => none
    else none

/-- Bytes stored by an agent outside the nodes of the device, one event of S: staging nodes are sealed. -/
def State.outsideStore (s : State) (p : Nat) (bs : List Byte) : State :=
  let s1 := s.stageFor none (p / 65536)
  { s1 with mem := cellsWrite s1.mem p bs }

/-- R51, R61, R331. The command of a line that arrives on a port of a partition, from the peer that SPDM authenticated
there.
Log entry 46 (DESIGN CHOICE). -/
def State.remoteCmd (s : State) (part port : Nat) (peerPart : BitVec 8) (owner : BitVec 384) (cmd : Nat) : Option RemoteCmd :=
  if (s.part part).ports.contains port then (s.port port).peer.map fun p => ⟨p.dev, peerPart, owner, cmd⟩ else none

/-- REMOTE_LINE_WRITE, R149. An XPUT line arrives at the destination, is checked against the grant table and placed in its S
as a store. A line that is refused, or that cannot be translated, is answered with cause 3, one under a registration with
cause 5 (R332); a hamper refuses it (R368). -/
def execRemoteLineWrite (part port : Nat) (peerPart : BitVec 8) (src : RemoteSource) (address : DWord)
    (bytes : List Byte) (s : State) : Host.Outcome State Fault Refusal :=
  event (match s.remoteCmd part port peerPart src.owner src.cmd with
    | none => s
    | some r =>
      if (s.part part).admits r address.toNat bytes.length true then
        let s1 := s.modPart part (Partition.accept r src.last)
        match s1.partPhys part address.toNat true with
        | none => { s1 with remoteCause := 3 }
        | some p =>
          if (List.range bytes.length).any fun i => s1.hampered part (p.2 + i) then { s1 with remoteCause := 3 }
          else if (List.range bytes.length).any fun i => s1.registered part (p.2 + i) then { s1 with remoteCause := 5 }
          else { s1.outsideStore p.2 bytes with remoteCause := 0 }
      else { s with remoteCause := 3 })

/-- REMOTE_LINE_READ, R149. An XGET line request arrives at the remote partition, is checked against the grant table and
read as a load; the data is the last remote data of the device. -/
def execRemoteLineRead (part port : Nat) (peerPart : BitVec 8) (src : RemoteSource) (address : DWord)
    (len : Nat) (s : State) : Host.Outcome State Fault Refusal :=
  event (match s.remoteCmd part port peerPart src.owner src.cmd with
    | none => s
    | some r =>
      if (s.part part).admits r address.toNat len false then
        let s1 := s.modPart part (Partition.accept r src.last)
        match s1.partPhys part address.toNat false with
        | some p => { s1 with remoteData := cellsRead s.mem p.2 len, remoteCause := 0 }
        | none => { s1 with remoteData := [], remoteCause := 3 }
      else { s with remoteData := [], remoteCause := 3 })

end Sys2Proof.Machine
end

