-- ==== Sys2Proof/Machine/Crypto.lean ====
section
/-! DEFINITION. The cryptographic functions that spec/03_skovey_links.md R45, R50 and R51 name: AES-256-GCM, and
HKDF-SHA-384. The spec names them and their standards (FIPS 197, SP 800-38D, FIPS 180-4, RFC 2104, RFC 5869) define
them. Log entry 13 (PRESUMED). -/

namespace Sys2Proof.Machine

/-! ## AES-256 -/

/-- Multiplication by x modulo x^8 + x^4 + x^3 + x + 1. -/
def xtime (a : Byte) : Byte := (a <<< 1) ^^^ (if a.getLsbD 7 then 0x1B else 0)

/-- Product of two bytes in the field of AES. -/
def gfMul (a b : Byte) : Byte :=
  ((List.range 8).foldl (fun (r : Byte × Byte) i => (if b.getLsbD i then r.1 ^^^ r.2 else r.1, xtime r.2)) (0, a)).1

/-- The inverse of a byte, and zero for zero: its 254th power. -/
def gfInv (a : Byte) : Byte :=
  let a2 := gfMul a a
  let a3 := gfMul a2 a
  let a6 := gfMul a3 a3
  let a7 := gfMul a6 a
  let a14 := gfMul a7 a7
  let a15 := gfMul a14 a
  let a30 := gfMul a15 a15
  let a31 := gfMul a30 a
  let a62 := gfMul a31 a31
  let a63 := gfMul a62 a
  let a126 := gfMul a63 a63
  gfMul (gfMul a126 a) (gfMul a126 a)

def sbox (a : Byte) : Byte :=
  let b := gfInv a
  b ^^^ b.rotateLeft 1 ^^^ b.rotateLeft 2 ^^^ b.rotateLeft 3 ^^^ b.rotateLeft 4 ^^^ 0x63

def xorBytes (a b : List Byte) : List Byte := List.zipWith (· ^^^ ·) a b

/-- The bytes of a number, the most significant first. -/
def bigBytes (n v : Nat) : List Byte := (natBytes n v).reverse

/-- The number that bytes spell, the most significant first. -/
def bigNat (bs : List Byte) : Nat := bs.foldl (fun n b => n * 256 + b.toNat) 0

/-- One more word of the key schedule; the words so far, the newest first. -/
def keyWord (ws : List (List Byte)) (i : Nat) : List (List Byte) :=
  let t := ws.headD []
  let t1 :=
    if i % 8 = 0 then xorBytes ((t.rotateLeft 1).map sbox) [(List.range (i / 8 - 1)).foldl (fun c _ => xtime c) 1, 0, 0, 0]
    else if i % 8 = 4 then t.map sbox
    else t
  xorBytes (ws.getD 7 []) t1 :: ws

/-- The 15 round keys of a 32-byte key. -/
def roundKeys (key : List Byte) : List (List Byte) :=
  let first := ((List.range 8).map fun i => (key.drop (4 * i)).take 4).reverse
  let ws := ((List.range 52).foldl (fun ws i => keyWord ws (i + 8)) first).reverse
  (List.range 15).map fun r => ((ws.drop (4 * r)).take 4).flatten

def subShift (s : List Byte) : List Byte := (List.range 16).map fun i => sbox (s.getD ((i + 4 * (i % 4)) % 16) 0)

def mixColumns (s : List Byte) : List Byte :=
  (List.range 16).map fun i =>
    let at' := fun j => s.getD (i / 4 * 4 + (i + j) % 4) 0
    gfMul 2 (at' 0) ^^^ gfMul 3 (at' 1) ^^^ at' 2 ^^^ at' 3

/-- FIPS 197. A block encrypted under round keys. -/
def aesBlock (keys : List (List Byte)) (block : List Byte) : List Byte :=
  let start := xorBytes block (keys.headD [])
  let mid := ((keys.drop 1).take 13).foldl (fun s k => xorBytes (mixColumns (subShift s)) k) start
  xorBytes (subShift mid) (keys.getD 14 [])

/-! ## GCM -/

/-- The product of GHASH: bit 127 of a block is its first bit. -/
def ghashMul (x y : BitVec 128) : BitVec 128 :=
  ((List.range 128).foldl (fun (r : BitVec 128 × BitVec 128) i =>
    (if x.getLsbD (127 - i) then r.1 ^^^ r.2 else r.1,
      (r.2 >>> 1) ^^^ (if r.2.getLsbD 0 then BitVec.ofNat 128 (0xE1 * 2 ^ 120) else 0))) (0, y)).1

/-- Bytes in blocks of 16, the last padded with zeros. -/
def chunksOf (bs : List Byte) : List (BitVec 128) :=
  (List.range ((bs.length + 15) / 16)).map fun i =>
    let b := (bs.drop (16 * i)).take 16
    BitVec.ofNat 128 (bigNat (b ++ List.replicate (16 - b.length) 0))

def ghash (h : BitVec 128) (xs : List (BitVec 128)) : BitVec 128 := xs.foldl (fun y x => ghashMul (y ^^^ x) h) 0

/-- The key stream of GCM under a 96-bit IV, for n bytes. -/
def gcmStream (keys : List (List Byte)) (iv : List Byte) (n : Nat) : List Byte :=
  (((List.range ((n + 15) / 16)).map fun i => aesBlock keys (iv ++ bigBytes 4 (i + 2))).flatten).take n

/-- SP 800-38D. The tag of a header and a ciphertext. -/
def gcmTag (keys : List (List Byte)) (iv aad text : List Byte) : List Byte :=
  let h := BitVec.ofNat 128 (bigNat (aesBlock keys (List.replicate 16 0)))
  let lens := BitVec.ofNat 128 (aad.length * 8 * 2 ^ 64 + text.length * 8)
  xorBytes (bigBytes 16 (ghash h (chunksOf aad ++ chunksOf text ++ [lens])).toNat) (aesBlock keys (iv ++ [0, 0, 0, 1]))

/-- R45, R50. Ciphertext and tag of a flit: its key and IV, its header and its payload. Keys and IVs are strings of
bytes, the most significant first; header, payload and tag stand in byte order. -/
def gcmSeal (key : BitVec 256) (iv : BitVec 96) (hdr : BitVec 64) (body : BitVec 1856) : BitVec 1856 × BitVec 128 :=
  let keys := roundKeys (bigBytes 32 key.toNat)
  let v := bigBytes 12 iv.toNat
  let text := xorBytes (natBytes 232 body.toNat) (gcmStream keys v 232)
  (BitVec.ofNat 1856 (bytesNat text), BitVec.ofNat 128 (bytesNat (gcmTag keys v (natBytes 8 hdr.toNat) text)))

/-- R45, R50. The payload of a flit whose tag is right. -/
def gcmOpen (key : BitVec 256) (iv : BitVec 96) (hdr : BitVec 64) (body : BitVec 1856) (tag : BitVec 128) :
    Option (BitVec 1856) :=
  let p := (gcmSeal key iv hdr body).1
  if (gcmSeal key iv hdr p).2 = tag then some p else none

/-! ## SHA-384, HMAC and HKDF -/

/-- The k-th root of a number below 2^(k * bits), rounded down. -/
def rootOf (k bits n : Nat) : Nat :=
  (List.range bits).foldl (fun r i => if (r + 2 ^ (bits - 1 - i)) ^ k ≤ n then r + 2 ^ (bits - 1 - i) else r) 0

def isPrime (n : Nat) : Bool := decide (2 ≤ n) && (List.range n).all fun d => decide (d < 2) || n % d != 0

def primes : List Nat := (List.range 410).filter isPrime

/-- The round constants: the first 64 fraction bits of the cube roots of the first 80 primes. -/
def shaConsts : List DWord := primes.map fun p => BitVec.ofNat 64 (rootOf 3 68 (p * 2 ^ 192))

/-- The first hash value: the first 64 fraction bits of the square roots of the 9th to the 16th prime. -/
def shaStart : List DWord := ((primes.drop 8).take 8).map fun p => BitVec.ofNat 64 (rootOf 2 68 (p * 2 ^ 128))

/-- The 80 words of a block's schedule. -/
def shaWords (block : List Byte) : List DWord :=
  let first := ((List.range 16).map fun i => BitVec.ofNat 64 (bigNat ((block.drop (8 * i)).take 8))).reverse
  ((List.range 64).foldl (fun (ws : List DWord) _ =>
    let a := ws.getD 14 0
    let b := ws.getD 1 0
    let s0 := a.rotateRight 1 ^^^ a.rotateRight 8 ^^^ (a >>> 7)
    let s1 := b.rotateRight 19 ^^^ b.rotateRight 61 ^^^ (b >>> 6)
    (ws.getD 15 0 + s0 + ws.getD 6 0 + s1) :: ws) first).reverse

/-- One round on the eight working words. -/
def shaRound (v : List DWord) (kw : DWord × DWord) : List DWord :=
  let x := fun i => v.getD i 0
  let e := x 4
  let a := x 0
  let s1 := e.rotateRight 14 ^^^ e.rotateRight 18 ^^^ e.rotateRight 41
  let t1 := x 7 + s1 + ((e &&& x 5) ^^^ (~~~e &&& x 6)) + kw.1 + kw.2
  let s0 := a.rotateRight 28 ^^^ a.rotateRight 34 ^^^ a.rotateRight 39
  let t2 := s0 + ((a &&& x 1) ^^^ (a &&& x 2) ^^^ (x 1 &&& x 2))
  [t1 + t2, a, x 1, x 2, x 3 + t1, e, x 5, x 6]

def shaBlock (h : List DWord) (block : List Byte) : List DWord :=
  List.zipWith (· + ·) h ((shaConsts.zip (shaWords block)).foldl shaRound h)

/-- FIPS 180-4. SHA-384 of bytes. -/
def sha384 (m : List Byte) : List Byte :=
  let pad := (239 - m.length % 128) % 128
  let all := m ++ [0x80] ++ List.replicate pad 0 ++ bigBytes 16 (8 * m.length)
  let h := (List.range (all.length / 128)).foldl (fun h i => shaBlock h ((all.drop (128 * i)).take 128)) shaStart
  (h.map fun w => bigBytes 8 w.toNat).flatten.take 48

/-- RFC 2104. HMAC-SHA-384. -/
def hmac384 (key m : List Byte) : List Byte :=
  let k0 := if 128 < key.length then sha384 key else key
  let k := k0 ++ List.replicate (128 - k0.length) 0
  sha384 (k.map (· ^^^ 0x5C) ++ sha384 (k.map (· ^^^ 0x36) ++ m))

/-- RFC 5869. HKDF-SHA-384 without a salt, for at most 48 bytes of output. -/
def hkdf384 (secret info : List Byte) (n : Nat) : List Byte :=
  (hmac384 (hmac384 (List.replicate 48 0) secret) (info ++ [1])).take n

/-- R51. The label "skovey". -/
def skoveyLabel : List Byte := [0x73, 0x6B, 0x6F, 0x76, 0x65, 0x79]

/-- R51. The key of a direction: from the session's exported master secret, the label, and the two identities, the two
port numbers, the direction and the epoch. -/
def linkKey (secret : BitVec 384) (context : List Nat) : BitVec 256 :=
  BitVec.ofNat 256 (bigNat (hkdf384 (bigBytes 48 secret.toNat) (skoveyLabel ++ Config.keyInfo false context) 32))

/-- R51. The salt, derived in the same way. -/
def linkSalt (secret : BitVec 384) (context : List Nat) : Word :=
  BitVec.ofNat 32 (bigNat (hkdf384 (bigBytes 48 secret.toNat) (skoveyLabel ++ Config.keyInfo true context) 4))

end Sys2Proof.Machine
end

