-- ==== Sys2Proof/Machine/Fabric.lean ====
section
/-! DEFINITION. The loop fabric (spec/02_loop_fabric.md R26 to R42): injection, passage, ejection and reassembly, errors, the
reset of a partition, and the meanings of its events. -/

namespace Sys2Proof.Machine

/-! ## What a port injects (R33 to R35) -/

/-- The class whose flit a port may inject next on a loop. -/
def InjPort.nextOn (q : InjPort) (spine : Bool) (loop : Nat) : Option Nat :=
  q.nextClass.bind fun c =>
    match (if c = 0 then q.bulk else if c = 1 then q.urgent else q.control).head? with
    | some x => if x.spine == spine && x.loop == loop then some c else none
    | none => none

/-- R38. Whether a packet of a stream may start at an f-cycle. -/
def Fabric.mayStart (f : Fabric) (spine : Bool) (k : StreamKey) (fcycle : Nat) : Bool :=
  match f.tags.find? fun t => t.key == k with
  | some t => decide (t.startedAt + (if spine then 2 else 1) ≤ fcycle)
  | none => true

/-- A packet starts: it takes the next tag of its stream. -/
def Fabric.startPacket (f : Fabric) (k : StreamKey) (fcycle : Nat) : BitVec 8 × Fabric :=
  let t := f.tagOf k
  (t.next, { f with tags := { t with next := t.next + 1, startedAt := fcycle } :: f.tags.filter fun x => x.key != k })

/-- Table 2.3. The next flit of a packet in progress. -/
def flitOf (die st : Nat) (gen : BitVec 4) (x : Sending) : Flit :=
  { cls := x.packet.cls, first := x.sent == 0, last := x.sent + 1 == x.packet.body.length, index := BitVec.ofNat 4 x.sent,
    tag := x.tag, srcDie := BitVec.ofNat 3 die, srcSt := BitVec.ofNat 6 st, dstDie := BitVec.ofNat 3 x.packet.dstDie,
    dstSt := BitVec.ofNat 6 x.packet.dstSt, part := BitVec.ofNat 4 x.packet.part, gen := gen,
    payload := x.packet.body.getD x.sent 0, finalDie := x.packet.finalDie, finalSt := x.packet.finalSt,
    origSt := x.packet.origSt, dev := x.packet.dev, origDie := x.packet.origDie, head := x.packet.head, owner := x.packet.owner }

/-- R28. Whether a station may use a slot. -/
def Slot.usable (x : Slot) (die st : Nat) : Bool := x.flit.isNone && (x.reserved.isNone || x.reserved == some (die, st))

/-- R28. A station's own reserved slot that passes it empty is reserved no longer. -/
def Fabric.unreserve (f : Fabric) (q : InjPort) (x : Slot) : Fabric :=
  if x.flit.isNone && x.reserved == some (q.die, q.st) then
    (f.putPort { q with reserving := q.reserving.erase (x.spine, x.loop) }).putSlot { x with reserved := none }
  else f

/-- A port injects a flit of class c into a slot. A packet that R38 does not let start yet leaves the slot, which was
usable, and waits anew. -/
def Fabric.inject (f : Fabric) (q : InjPort) (x : Slot) (c fcycle : Nat) : Fabric :=
  match q.queueOf c with
  | [] => f
  | y :: rest =>
    let k := streamOf q.die q.st y.packet
    if y.sent = 0 && !f.mayStart y.spine k fcycle then
      let q1 := { q with waiting := none }
      (f.putPort q1).unreserve q1 x
    else
      let st := if y.sent = 0 then f.startPacket k fcycle else (y.tag, f)
      let y1 := { y with tag := st.1 }
      let fl := flitOf q.die q.st (st.2.gens.getD y.packet.part 0) y1
      let q1 := q.setQueue c (if fl.last then rest else { y1 with sent := y1.sent + 1 } :: rest)
      let q2 := { q1 with
        uSinceB := if q1.bulk.isEmpty || c = 0 then 0 else if c = 1 then q.uSinceB + 1 else q.uSinceB
        waiting := none
        reserving := if x.reserved.isNone then q1.reserving else q1.reserving.erase (x.spine, x.loop) }
      (st.2.putPort q2).putSlot { x with flit := some fl, reserved := none }

/-- R28, R29. Since when the next flit of a port waits for a loop. -/
def InjPort.waitFor (q : InjPort) (spine : Bool) (loop fcycle : Nat) : InjPort :=
  match q.waiting with
  | some w => if w.1 == spine && w.2.1 == loop then q else { q with waiting := some (spine, loop, fcycle) }
  | none => { q with waiting := some (spine, loop, fcycle) }

/-- R195, cause 1. The node whose work a packet carries through a Skovey port is sealed. -/
def State.sealOwner (s : State) (o : Option PktOwner) : State :=
  match o with
  | some x => s.sealNow x.group.ctx x.group.node 1
  | none => s

/-- R60. Whether a device identity names another device. -/
def State.isAway (s : State) (dev : BitVec 16) : Bool := dev != 0xFFFF && dev != s.boot.devId

/-- R195. Packets that a unit hands over: the node of one bound for another device is sealed before it goes. -/
def State.handOver (s : State) (die st : Nat) (ready : List Packet) : State :=
  let s1 := (ready.filter fun p => s.isAway p.dev).foldl (fun s p => s.sealOwner p.owner) s
  s1.modFabric fun f => ready.foldl (fun f p => f.send die st { p with origDie := die, origSt := st }) f

/-- FLIT_INJECT, R28. A station with a flit ready for a loop injects it into a usable slot that passes. `ready` lists the
packets that the unit hands over now.
Log entry 48 (DESIGN CHOICE). -/
def execFlitInject (spine : Bool) (die st loop : Nat) (ready : List Packet) (s : State) : Host.Outcome State Fault Refusal :=
  event (
    if !seated spine die st loop then s
    else
      let s1 := s.handOver die st ready
      let q := s1.fabric.port die st
      let x := s1.slotAt spine die st loop
      match q.nextOn spine loop with
      | none => s1.modFabric fun f => f.unreserve q x
      | some c =>
        if x.usable die st then s1.modFabric fun f => f.inject q x c s.fcycle
        else s1.modFabric fun f => f.putPort (q.waitFor spine loop s.fcycle))

/-- SLOT_RESERVE, R28. A station that has found no usable slot for one lap reserves the passing slot, if it is not
reserved; it holds at most one reservation per loop. -/
def execSlotReserve (spine : Bool) (die st loop : Nat) (s : State) : Host.Outcome State Fault Refusal :=
  event (
    let q := s.fabric.port die st
    let x := s.slotAt spine die st loop
    match q.waiting with
    | some w =>
      if seated spine die st loop && (q.nextOn spine loop).isSome && w.1 == spine && w.2.1 == loop && !q.reserving.contains (spine, loop)
          && x.reserved.isNone && decide (w.2.2 + lap spine ≤ s.fcycle) then
        s.modFabric fun f =>
          (f.putPort { q with reserving := (spine, loop) :: q.reserving }).putSlot { x with reserved := some (die, st) }
      else s
    | none => s)

/-! ## Reassembly (R37, Table 2.6) -/

def Fabric.context (f : Fabric) (k : StreamKey) : Reassembly := (f.contexts.find? fun c => c.key == k).getD { key := k }

def Fabric.putContext (f : Fabric) (c : Reassembly) : Fabric :=
  { f with contexts := c :: f.contexts.filter fun d => d.key != c.key }

def flitStream (x : Flit) : StreamKey := ⟨x.cls, x.srcDie.toNat, x.srcSt.toNat, x.dstDie.toNat, x.dstSt.toNat⟩

/-- How a tag stands to the expected one: 0 equal, 1 ahead, 2 behind. -/
def tagStand (t e : BitVec 8) : Nat := if t = e then 0 else if (t - e).toNat < 128 then 1 else 2

/-- A packet's flits that are all held: 0 to the LAST index. -/
def wholePacket (l : List Flit) : Bool :=
  match l.find? Flit.last with
  | some z => (List.range (z.index.toNat + 1)).all fun i => l.any fun x => x.index.toNat == i
  | none => false

/-- The flits of a whole packet in index order. -/
def inOrder (l : List Flit) : List (BitVec 1024) :=
  (List.range l.length).filterMap fun i => (l.find? fun x => x.index.toNat == i).map Flit.payload

/-- E passes over the tags of packets that an error has aborted. -/
def Reassembly.pass (c : Reassembly) : Nat → Reassembly
  | 0 => c
  | n + 1 =>
    if c.aborted.contains c.expected then
      ({ c with expected := c.expected + 1, aborted := c.aborted.erase c.expected } : Reassembly).pass n
    else c

/-- The context after the packet it expects has been delivered or dropped. -/
def Reassembly.advance (c : Reassembly) : Reassembly :=
  ({ c with expected := c.expected + 1, held := [] } : Reassembly).pass c.aborted.length

/-- A packet of a stream will never be whole: its held flits go, and E passes over its tag, now or when it comes to it. -/
def Reassembly.skip (c : Reassembly) (tag : BitVec 8) : Reassembly :=
  match tagStand tag c.expected with
  | 0 => c.advance
  | 1 => if c.aborted.contains tag then c else { c with aborted := tag :: c.aborted }
  | _ => c

/-- Row 6 of Table 2.6 for the context of a stream: the held flits of packet E are discarded. A packet ahead of E, which a
fabric error cuts (R27), is passed over when E comes to it. -/
def Fabric.abort (f : Fabric) (k : StreamKey) (tag : BitVec 8) : Fabric :=
  let c := f.context k
  if tagStand tag c.expected = 2 then { f with stale := f.stale + 1 }
  else { f.putContext (c.skip tag) with dropped := f.dropped + 1 }

/-! ## Link packets (R32, R47) -/

/-- R47. The payloads of a link packet's flits: the route header and 216 data bytes in the first, 232 data bytes in
each later one. -/
def linkBodies (header data len : Nat) : List (BitVec 1856) :=
  (List.range 64).filterMap fun i =>
    if i = 0 then some (BitVec.ofNat 1856 (header + data % 2 ^ 1728 * 2 ^ 128))
    else if 216 + 232 * (i - 1) < len then some (BitVec.ofNat 1856 (data / 2 ^ (8 * (216 + 232 * (i - 1)))))
    else none

/-- R47. The data bytes that a link packet of a class holds at most. -/
def linkRoom (cls : BitVec 2) : Nat := if cls = 1 then 216 + 232 else 216 + 232 * 63

/-- Table 3.4. A route header with another LEN, and the LEN of one. -/
def headerWith (h len : Nat) : Nat := h % 2 ^ 80 + len * 2 ^ 80 + h / 2 ^ 96 * 2 ^ 96
def headerLen (h : Nat) : Nat := h / 2 ^ 80 % 65536

/-- R47. The link packets of a class that carry data under a route header. A U packet that fills a link packet is continued
in the next, which may hold no data.
Log entry 87 (DESIGN CHOICE). -/
def linkPackets (cls : BitVec 2) (part : Nat) (owner : Option PktOwner) (h : Nat) (data : List Byte) : List LinkPacket :=
  let room := linkRoom cls
  (List.range (if cls = 1 then data.length / room + 1 else 1)).map fun i =>
    let bs := (data.drop (room * i)).take room
    let last := if bs.length ≤ 216 then 16 + bs.length else (bs.length - 216 - 1) % 232 + 1
    { cls := cls, bodies := linkBodies (headerWith h bs.length) (bytesNat bs) bs.length, words := (last + 7) / 8, part := part,
      owner := owner, more := decide (0 < i) }

/-- A link packet that joins the queue of its class at a port. -/
def Port.push (p : Port) (x : LinkPacket) : Port :=
  match x.cls.toNat with
  | 0 => { p with bulk := p.bulk ++ [x] }
  | 1 => { p with urgent := p.urgent ++ [x] }
  | _ => { p with control := p.control ++ [x] }

/-- R32. An on-die packet reaches a link station to be sent on: it joins the packets of its source until the data that
the route header in the first one's first 16 bytes announces are there, and they leave as link packets. -/
def Port.join (p : Port) (x : Flit) (body : List (BitVec 1024)) : Port :=
  let ours := fun (j : Joining) => j.cls == x.cls && j.die == x.origDie && j.st == x.origSt
  let rest := p.joining.filter fun j => !ours j
  match if x.head then some [] else (p.joining.find? ours).map Joining.bytes with
  | none => p
  | some old =>
    let bytes := old ++ (body.map fun w => natBytes 128 w.toNat).flatten
    let h := bytesNat (bytes.take 16)
    if 16 + headerLen h ≤ bytes.length then
      (linkPackets x.cls x.part.toNat x.owner h ((bytes.drop 16).take (headerLen h))).foldl Port.push { p with joining := rest }
    else { p with joining := ⟨x.cls, x.origDie, x.origSt, bytes, x.part.toNat, x.owner⟩ :: rest }

/-- R49. Whether a direction has a key in use. -/
def keyed (l : List KeySlot) : Bool := l.any fun k => k.state == .active

/-- R32, R52. Whether a packet at its link station goes on over the link: it is bound for another device, or it is bulk of
the system cores' key agreement, which has no key yet. -/
def State.leaves (s : State) (port : Nat) (x : Flit) : Bool :=
  s.isAway x.dev || (x.cls == 0 && !keyed (s.port port).tx)

/-- R26, R31. A whole packet reaches the end of its segment: a spine station queues the next segment, a link station
sends it on over its link, its node sealed (R195), any other unit receives it. -/
def State.deliverPacket (s : State) (die st : Nat) (x : Flit) (body : List (BitVec 1024)) : State :=
  let p : Packet := { cls := x.cls, dstDie := die, dstSt := st, part := x.part.toNat, body := body, finalDie := x.finalDie,
                      finalSt := x.finalSt, origSt := x.origSt, dev := x.dev, origDie := x.origDie, head := x.head,
                      owner := x.owner }
  let port := 3 * die + (st - 54)
  if 57 ≤ st ∧ st ≤ 60 then s.modFabric fun f => f.send die st p
  else if 54 ≤ st ∧ st ≤ 56 ∧ s.leaves port x then (s.sealOwner x.owner).modPort port fun q => q.join x body
  else s.modFabric fun f => { f with delivered := ⟨die, st, x.cls, x.part.toNat, body⟩ :: f.delivered }

/-- The flit leaves its slot, or stays in it with one more refusal. -/
def State.eject (s : State) (x : Slot) : State := s.modFabric fun f => f.putSlot { x with flit := none }
def State.refuse (s : State) (x : Slot) : State :=
  s.modFabric fun f => f.putSlot { x with flit := x.flit.map fun y =>
    { y with refusals := y.refusals + 1, refusedAt := some s.fcycle } }

/-- Table 2.6. A flit ahead of E is refused; it notes since when. -/
def State.refuseAhead (s : State) (x : Slot) : State :=
  s.refuse { x with flit := x.flit.map fun y => { y with aheadSince := some (y.aheadSince.getD s.fcycle) } }

/-- Table 2.6. A flit with TAG = E is stored; a whole packet is delivered. -/
def State.acceptFlit (s : State) (die st : Nat) (fl : Flit) (c : Reassembly) : State :=
  let held := c.held ++ [fl]
  if wholePacket held then (s.modFabric fun f => f.putContext c.advance).deliverPacket die st fl (inOrder held)
  else s.modFabric fun f => f.putContext { c with held := held, lastAt := s.fcycle }

/-- R36, R37. A K flit with TAG = E: an ABORT acts on the context it names, or is refused while that context expects an
earlier packet; an unknown kind is discarded and counted. -/
def State.acceptK (s : State) (x : Slot) (fl : Flit) (c : Reassembly) : State :=
  let done := (s.eject x).modFabric fun f => f.putContext c.advance
  match abortOf fl.payload with
  | none => done.modFabric fun f => { f with unknownK := f.unknownK + 1 }
  | some a =>
    let k : StreamKey := { flitStream fl with cls := BitVec.ofNat 2 a.1 }
    if tagStand (BitVec.ofNat 8 a.2) (s.fabric.context k).expected = 1 then s.refuseAhead x
    else done.modFabric fun f => f.abort k (BitVec.ofNat 8 a.2)

/-- R30. Whether the destination refuses a flit of the expected packet: its buffer is full and the flit has not been
refused before, or the write port of a message-queue sink is busy and it has been refused fewer than four times. The
message-queue sinks are the core stations, for class U.
Log entry 84 (DEDUCED). -/
def refuses (fl : Flit) (full busy : Bool) : Bool :=
  fl.cls != 2 && ((full && fl.refusals == 0) || (busy && fl.cls == 1 && decide (fl.dstSt.toNat < 32) && decide (fl.refusals < 4)))

/-! ## Old generations (R40 to R42) -/

/-- Table 2.1. Whether a partition owns a station: a core of its clusters, or the link station of a port of its. -/
def Partition.ownsStation (p : Partition) (die st : Nat) : Bool :=
  if st < 32 then p.clusters.contains (8 * die + st / 4)
  else if 54 ≤ st ∧ st ≤ 56 then p.ports.contains (3 * die + (st - 54))
  else false

def Partition.ownsEnd (p : Partition) (k : StreamKey) : Bool :=
  p.ownsStation k.srcDie k.srcSt || p.ownsStation k.dstDie k.dstSt

/-- R41. Whether a flit is of an old generation of its partition. -/
def State.oldFlit (s : State) (fl : Flit) : Bool := fl.gen != s.fabric.gens.getD fl.part.toNat 0

/-- R41, R42. An old flit is discarded. On a stream with no end in its partition, which the reset left at its tag, the flit's
packet and the packet that it aborts are passed over, so that they hold up no other.
Log entry 85 (DEDUCED). -/
def State.discardOld (s : State) (x : Slot) (fl : Flit) : State :=
  let k := flitStream fl
  let skip := fun (f : Fabric) (k : StreamKey) (t : BitVec 8) => f.putContext ((f.context k).skip t)
  (s.eject x).modFabric fun f =>
    let g := { f with stale := f.stale + 1 }
    if (s.part fl.part.toNat).ownsEnd k then g
    else match if fl.cls = 2 then abortOf fl.payload else none with
      | some a => skip (skip g k fl.tag) { k with cls := BitVec.ofNat 2 a.1 } (BitVec.ofNat 8 a.2)
      | none => skip g k fl.tag

/-- R30, R37, R41. What a destination does with a flit that passes it. -/
def State.atDestination (s : State) (x : Slot) (die st : Nat) (fl : Flit) (full busy : Bool) : State :=
  if s.oldFlit fl then s.discardOld x fl
  else
    let c := s.fabric.context (flitStream fl)
    match tagStand fl.tag c.expected with
    | 2 => (s.eject x).modFabric fun f => { f with stale := f.stale + 1 }
    | 1 => s.refuseAhead x
    | _ =>
      if fl.cls = 2 then s.acceptK x fl c
      else if refuses fl full busy then s.refuse x
      else (s.eject x).acceptFlit die st fl c

/-- FLIT_AT_DESTINATION, R30. A flit passes its destination, which ejects it or refuses it, once in a pass. -/
def execFlitAtDestination (spine : Bool) (die st loop : Nat) (full busy : Bool) (s : State) :
    Host.Outcome State Fault Refusal :=
  event (
    let x := s.slotAt spine die st loop
    match x.flit with
    | none => s
    | some fl =>
      if seated spine die st loop && fl.dstDie.toNat == die && fl.dstSt.toNat == st && fl.refusedAt != some s.fcycle then
        s.atDestination x die st fl full busy
      else s)

/-! ## Errors and timeouts (R27, R37) -/

def Fabric.report (f : Fabric) (r : FabricReport) : Fabric := { f with reports := r :: f.reports }

/-- R27, R193. An uncorrectable fabric error is reported against a partition, and is a machine check of the work that the
flit carries, at its thread or its command's elected thread.
Log entry 86 (DEDUCED). -/
def State.fabricError (s : State) (part : Nat) (owner : Option PktOwner) : State :=
  let s1 := s.modFabric fun f => f.report (.uncorrectable part)
  match owner.bind fun o => (s1.groupIdx? o.group).map fun g => (g, o.thread) with
  | some g => s1.machineCheck g.1 g.2 4
  | none => s1

/-- The reservation of a cleared slot is lost to its holder, which reserves again. -/
def Fabric.lostReservation (f : Fabric) (x : Slot) : Fabric :=
  match x.reserved with
  | some r =>
    let q := f.port r.1 r.2
    f.putPort { q with reserving := q.reserving.erase (x.spine, x.loop) }
  | none => f

/-- FLIT_PASS_STATION, R27. A flit, or an empty slot, passes a station, which checks and corrects it. An old flit (R41) is
discarded as such, its error reported. -/
def execFlitPassStation (spine : Bool) (die st loop : Nat) (err : FlitError) (s : State) : Host.Outcome State Fault Refusal :=
  event (
    let x := s.slotAt spine die st loop
    if !seated spine die st loop then s
    else
      match err with
      | .none => s
      | .corrected => s.modFabric fun f => { f with corrected := f.corrected + 1 }
      | .payload =>
        match x.flit with
        | none => s
        | some fl =>
          if s.oldFlit fl then (s.discardOld x fl).fabricError fl.part.toNat none
          else ((s.eject x).modFabric fun f => f.abort (flitStream fl) fl.tag).fabricError fl.part.toNat fl.owner
      | .sideband => if x.flit.isNone then s else (s.eject x).modFabric fun f => f.report (.dieFault die)
      | .header => s.modFabric fun f =>
          let g := { (f.lostReservation x).putSlot { x with flit := none, reserved := none } with headerLost := f.headerLost + 1 }
          if x.flit.isSome then g.report (.dieFault die) else g)

/-- R37, R58. Whether 2^16 f-cycles have passed. -/
def State.idleFor (s : State) (t : Nat) : Bool := decide (t + 65536 ≤ s.fcycle)

/-- R37, row 7. An OPEN context that accepts no flit for 2^16 f-cycles drops its flits. -/
def State.idleFabric (s : State) (k : StreamKey) : State :=
  let c := s.fabric.context k
  match c.held with
  | [] => s
  | fl :: _ =>
    if s.idleFor c.lastAt then
      (s.modFabric fun f => { f.putContext c.advance with dropped := f.dropped + 1 }).fabricError fl.part.toNat fl.owner
    else s

/-- The tag with which a flit stands ahead in a stream: its own, or that of the packet it aborts. -/
def aheadTag (k : StreamKey) (e : BitVec 8) (fl : Flit) : Option (BitVec 8) :=
  if flitStream fl == k then (if tagStand fl.tag e = 1 then some fl.tag else none)
  else match if fl.cls = 2 && { flitStream fl with cls := k.cls } == k then abortOf fl.payload else none with
    | some a =>
      if a.1 = k.cls.toNat ∧ tagStand (BitVec.ofNat 8 a.2) e = 1 then some (BitVec.ofNat 8 a.2) else none
    | none => none

/-- R37, row 8. E jumps to a tag: packets before it are passed over. -/
def Reassembly.jump (c : Reassembly) (t : BitVec 8) : Reassembly :=
  { c with expected := t, aborted := c.aborted.filter fun a => tagStand a t = 1 }

/-- REASSEMBLY_AHEAD_TIMEOUT, R37. A flit that passes has stood ahead of an IDLE context for 2^16 f-cycles: E jumps to its
tag, and the flit is handled by the other rows. -/
def execReassemblyAheadTimeout (die st srcDie srcSt : Nat) (cls : BitVec 2) (s : State) : Host.Outcome State Fault Refusal :=
  event (
    let k : StreamKey := ⟨cls, srcDie, srcSt, die, st⟩
    let c := s.fabric.context k
    let passing := fun (x : Slot) => seated x.spine die st x.loop
      && x.isAt x.spine die x.loop (slotIndex x.spine (position x.spine die st x.loop) s.fcycle)
    let due := fun (x : Slot) => match x.flit with
      | some fl => passing x && !s.oldFlit fl && (aheadTag k c.expected fl).isSome && fl.aheadSince.any s.idleFor
      | none => false
    match if c.held.isEmpty then s.fabric.slots.find? due else none with
    | some x =>
      match x.flit.bind fun fl => (aheadTag k c.expected fl).map fun t => (fl, t) with
      | some y =>
        let s1 := s.modFabric fun f => { f.putContext (c.jump y.2) with dropped := f.dropped + 1 }
        (s1.atDestination x die st y.1 false false).fabricError y.1.part.toNat y.1.owner
      | none => s
    | none => s)

/-! ## The reset of a partition (R40) -/

/-- R40 steps 1 to 3, R42. The injection queues of the partition's stations go, and its packets at the others; its
generation advances in every station, and every stream with an end in it starts again at tag 0. -/
def Fabric.resetPart (f : Fabric) (n : Nat) (p : Partition) : Fabric :=
  let ends := fun (q : InjPort) (x : Sending) => p.ownsEnd (streamOf q.die q.st x.packet)
  let owns := fun (r : Nat × Nat) => p.ownsStation r.1 r.2
  { f with
    ports := (f.ports.filter fun q => !p.ownsStation q.die q.st).map fun q =>
      let q1 := { q with control := q.control.filter fun x => !ends q x }
      q1.cancel (fun x => x.packet.part == n || ends q x) fun x => !ends q x
    slots := (f.slots.map fun x => if x.reserved.any owns then { x with reserved := none } else x).filter fun x =>
      x.flit.isSome || x.reserved.isSome
    gens := f.gens.modify n (· + 1)
    contexts := f.contexts.filter fun c => !p.ownsEnd c.key
    tags := f.tags.map fun t => if p.ownsEnd t.key then { t with next := 0 } else t }

end Sys2Proof.Machine
end

