-- ==== Sys2Proof/Machine/Links.lean ====
section
/-! DEFINITION. Skovey links (spec/03_skovey_links.md R43 to R64): frames, key slots, acceptance and replay, flow, routing,
and the meanings of the link events. -/

namespace Sys2Proof.Machine

/-! ## Headers and frames (R45, R52) -/

/-- Table 3.3. A header word; FIRST, LAST and TAG stand in `mark` as the ten bits from bit 52 on. -/
def linkHeader (cls mark seq : Nat) (kslot sq : Bool) (words : Nat) (ack : Option Nat) (plain : Bool) : BitVec 64 :=
  BitVec.ofNat 64 (cls * 2 ^ 62 + mark * 2 ^ 52 + seq * 2 ^ 28 + (if kslot then 2 ^ 27 else 0) + (if sq then 2 ^ 26 else 0)
    + words * 2 ^ 21 + (match ack with
      | some a => 2 ^ 20 + a % 16384 * 2 ^ 6
      | none => 0) + (if plain then 32 else 0))

def hdrCls (h : BitVec 64) : BitVec 2 := h.extractLsb' 62 2
def hdrLast (h : BitVec 64) : Bool := h.getLsbD 60
def hdrTag (h : BitVec 64) : BitVec 8 := h.extractLsb' 52 8
def hdrSeq (h : BitVec 64) : BitVec 24 := h.extractLsb' 28 24
def hdrSlot (h : BitVec 64) : Bool := h.getLsbD 27
def hdrSq (h : BitVec 64) : Bool := h.getLsbD 26
def hdrAck (h : BitVec 64) : Option Nat := if h.getLsbD 20 then some (h.toNat / 64 % 16384) else none
def hdrPlain (h : BitVec 64) : Bool := h.getLsbD 5
def hdrReserved (h : BitVec 64) : Nat := h.toNat % 32

/-- R52. One bit of the CRC-32 of IEEE 802.3, reflected. -/
def crcBit (c : Nat) : Nat := if c % 2 = 1 then c / 2 ^^^ 0xEDB88320 else c / 2

def crcByte (c : Nat) (b : Byte) : Nat := (List.range 8).foldl (fun c _ => crcBit c) (c ^^^ b.toNat)

def crc32 (bs : List Byte) : Nat := bs.foldl crcByte 0xFFFFFFFF ^^^ 0xFFFFFFFF

/-- R52. A plain frame, with the CRC of its first 240 bytes. -/
def plainFrame (h : BitVec 64) (body : BitVec 1856) : Frame :=
  ⟨h, body, BitVec.ofNat 128 (crc32 (natBytes 8 h.toNat ++ natBytes 232 body.toNat))⟩

/-- R52. A hold frame. -/
def holdFrame : Frame := plainFrame (linkHeader 3 0 0 false false 0 none true) 0

/-- R50. The IV of a slot's next frame. -/
def KeySlot.iv (k : KeySlot) : BitVec 96 := k.salt ++ BitVec.ofNat 64 k.counter

/-! ## Key slots (R49, R53) -/

def slotNum (b : Bool) : Nat := if b then 1 else 0

/-- The slot of a direction that is ACTIVE. -/
def activeSlot (l : List KeySlot) : Option Bool :=
  if (l.getD 0 {}).state == .active then some false else if (l.getD 1 {}).state == .active then some true else none

/-- R53. The limit, and the switch point T. -/
def Port.limit (p : Port) : Nat := max 0x20000 (p.keyLim.toNat % 2 ^ 48)
def Port.switchAt (p : Port) : Nat := p.limit - 65536

/-- The old slot becomes EMPTY and the new one ACTIVE. -/
def switchSlots (new : Bool) (l : List KeySlot) : List KeySlot :=
  (l.set (slotNum (!new)) {}).modify (slotNum new) fun k => { k with state := .active }

/-! ## The end of a link (R63, R64, R78) -/

/-- R47. The queued link packets of on-die packets that a port has begun to send: one with a flit sent, and one that continues
such a packet. `going` says that the packet before the queue has begun. -/
def begunIn (going : Bool) : List LinkPacket → List (LinkPacket × Bool)
  | [] => []
  | x :: rest =>
    let b := decide (0 < x.sent) || (x.more && going)
    (x, b) :: begunIn b rest

def begun (l : List LinkPacket) : List LinkPacket := ((begunIn true l).filter Prod.snd).map Prod.fst
def unbegun (l : List LinkPacket) : List LinkPacket := ((begunIn true l).filter fun x => !x.2).map Prod.fst

/-- R64. The owners of the packets of B and U that a port has begun and no ACK covers wholly: the last flit of a link packet
is held for replay, or part of the packet is still to be sent, or has not yet reached the port. -/
def Port.unsure (p : Port) : List (Option PktOwner) :=
  (p.replay.filter fun h => hdrLast h.hdr && decide (hdrCls h.hdr < 2)).map Held.owner ++
    (begun p.bulk ++ begun p.urgent).map LinkPacket.owner ++ p.joining.map Joining.owner

/-- R63. Everything a link loses when it goes down. Packets of B and U that it has not begun to send stay queued.
Log entry 88 (DESIGN CHOICE). -/
def Port.drop (p : Port) : Port :=
  { p with
    up := false, tx := [{}, {}], rx := [{}, {}], downs := if p.downs = 255 then 255 else p.downs + 1, keyLate := false,
    keyLateAt := none, holding := false, keyswSeq := none, replay := [], resend := none, restart := none, naks := none,
    dropping := false, unseq := [], paused := [false, false], pausing := [false, false],
    bulk := unbegun p.bulk
    urgent := unbegun p.urgent
    control := [], joining := []
    uSinceB := 0, reasm := [{}, {}, {}], peer := none, secret := none, requester := false, epochs := [], partial' := none,
    lost := p.unsure ++ p.lost }

/-- The entry of a route table for a device: 31, drop and count, where none is written.
Log entry 5 (DESIGN CHOICE). -/
def Port.route (p : Port) (dev : BitVec 16) : Nat :=
  ((p.routes.find? fun r => r.1 == dev.toNat).map fun r => r.2.toNat).getD 31

/-- R60. The port that a link station sends a device's packets through. -/
def Port.output (p : Port) (dev : BitVec 16) : Option Nat := if p.route dev < 24 then some (p.route dev) else none

/-- R60, R77. Whether a port of a partition leads to a device: it is its peer's, or the partition's route to it leaves there. -/
def State.leadsTo (s : State) (part port : Nat) (dev : BitVec 16) : Bool :=
  (s.part part).ports.contains port
    && ((s.port port).peer.map Peer.dev == some dev || (s.part part).ports.any fun q => (s.port q).output dev == some port)

/-- R77, R78. Whether a port lies on the path between the parties of a session: the partition of a party of this device
owns it, and it leads to the device of another party. -/
def State.onPath (s : State) (port : Nat) (x : Session) : Bool :=
  x.parties.any fun a => a.dev == s.boot.devId && x.parties.any fun b => b.dev != s.boot.devId && s.leadsTo a.part port b.dev

/-- R77. Whether each party of this device has a link towards each party of another: up, and with a peer that SPDM has
authenticated. -/
def State.pathOk (s : State) (parties : List Party) : Bool :=
  parties.all fun a => a.dev != s.boot.devId || parties.all fun b => b.dev == s.boot.devId ||
    (s.part a.part).ports.any fun q => (s.port q).up && (s.port q).peer.isSome && s.leadsTo a.part q b.dev

/-- R64, R332. The copy commands of a list are told that their packets are lost: error cause 2. -/
def tellLost (ids : List Nat) (l : List Cmd) : List Cmd :=
  l.map fun c => if ids.contains c.id then { c with cause := 2, acked := true } else c

/-- R64. The units whose packets a link has lost are told. -/
def State.tellOwners (s : State) (l : List (Option PktOwner)) : State :=
  let ids := l.filterMap fun o => o.bind PktOwner.cmd
  { s with cores := s.cores.map fun x => { x with queue := tellLost ids x.queue }
           teams := s.teams.map fun t => { t with commands := tellLost ids t.commands } }

/-- R63, R64, R78. A link goes down: the owners of lost packets are told, and sessions on its path close. -/
def State.linkDown (s : State) (port : Nat) : State :=
  if (s.port port).up then
    let ids := (s.sessions.filter fun x => !x.closed && s.onPath port x).map Session.id
    ids.foldl (fun s id => s.closeSession id) ((s.modPort port Port.drop).tellOwners (s.port port).unsure)
  else s

/-- FRAME_LOCK_LOSS, R44. The link goes down. -/
def execFrameLockLoss (port : Nat) (s : State) : Host.Outcome State Fault Refusal := event (s.linkDown port)

/-- LINK_DOWN_COMMAND, R63. The link goes down. -/
def execLinkDownCommand (port : Nat) (s : State) : Host.Outcome State Fault Refusal := event (s.linkDown port)

/-- LINK_UP, R63. Sequence numbers and tags start at 0. -/
def execLinkUp (port : Nat) (s : State) : Host.Outcome State Fault Refusal :=
  event (if (s.port port).up then s
    else s.modPort port fun p =>
      { p with up := true, txSeq := 0, rxSeq := 0, tags := [0, 0, 0], reasm := [{}, {}, {}], nakAt := s.fcycle, flowAt := s.time })

/-! ## What a sender sends (R46, R53, R56, R57) -/

/-- A frame of a sender: its header without key slot, ACK and PLAIN, and its payload. -/
def Port.emit (p : Port) (cls mark seq : Nat) (sq : Bool) (words : Nat) (body : BitVec 1856) : Port :=
  let ack := some (p.rxSeq.toNat % 16384)
  match activeSlot p.tx with
  | none => { p with wire := some (plainFrame (linkHeader cls mark seq false sq words ack true) body) }
  | some i =>
    let k := p.tx.getD (slotNum i) {}
    let h := linkHeader cls mark seq i sq words ack false
    let c := gcmSeal k.key k.iv h body
    { p with wire := some ⟨h, c.1, c.2⟩, tx := p.tx.set (slotNum i) { k with counter := k.counter + 1 } }

/-- A new sequenced flit: it takes the next sequence number and is held for replay. -/
def Port.sendNew (p : Port) (cls mark words : Nat) (body : BitVec 1856) (keysw : Option (Bool × Word))
    (owner : Option PktOwner := none) : Port :=
  let h := linkHeader cls mark p.txSeq.toNat false true words none false
  { p.emit cls mark p.txSeq.toNat true words body with
    txSeq := p.txSeq + 1
    replay := p.replay ++ [⟨p.txSeq, h, body, keysw, owner⟩] }

/-- The payload of a link K flit: its kind and its bytes from 1 on. -/
def kBody (kind : Nat) (rest : Nat) : BitVec 1856 := BitVec.ofNat 1856 (kind + 256 * rest)

/-- Table 3.5. KEYSW: byte 1 the new slot, bytes 4 to 7 the epoch. -/
def keyswBody (slot : Bool) (epoch : Word) : BitVec 1856 := kBody 5 (slotNum slot + epoch.toNat * 2 ^ 24)

/-- The next K tag of the port, with FIRST and LAST. -/
def Port.kMark (p : Port) : Nat := 768 + (p.tags.getD 2 0).toNat

def Port.bumpTag (p : Port) (c : Nat) : Port := { p with tags := p.tags.modify c (· + 1) }

/-- R53 steps 1 and 2, R52. KEYSW is sent under the old slot, or as a plain frame where none is ACTIVE; the old slot
becomes EMPTY and the new one ACTIVE. -/
def Port.keySwitch (p : Port) (new : Bool) : Port :=
  let e := (p.tx.getD (slotNum new) {}).epoch
  let q := (p.sendNew 2 p.kMark 1 (keyswBody new e) (some (new, e))).bumpTag 2
  { q with tx := switchSlots new q.tx, txSlot := new, keyLate := false, keyLateAt := none, holding := false,
           keyswSeq := some p.txSeq }

/-- R53. Whether the slot beside the ACTIVE one is LOADED. -/
def Port.nextLoaded (p : Port) : Bool :=
  match activeSlot p.tx with
  | some i => (p.tx.getD (slotNum (!i)) {}).state == .loaded
  | none => false

/-- The slot that a KEYSW may name now: slot 0 while none is ACTIVE, else the other slot from the switch point on;
LOADED, with room in the replay buffer (R56). A replay in progress does not hold it back. -/
def Port.switchTo (p : Port) : Option Bool :=
  if 64 ≤ p.replay.length then none
  else match activeSlot p.tx with
    | none => if (p.tx.getD 0 {}).state == .loaded then some false else none
    | some i =>
      if decide (p.switchAt ≤ (p.tx.getD (slotNum i) {}).counter) && (p.tx.getD (slotNum (!i)) {}).state == .loaded
      then some (!i) else none

/-- R53. The counter of the ACTIVE slot. -/
def Port.counter (p : Port) : Option Nat := (activeSlot p.tx).map fun i => (p.tx.getD (slotNum i) {}).counter

/-- R53 step 3. The switch point is reached: KEYLATE is set where no key is loaded. -/
def Port.late (p : Port) (now : Nat) : Port :=
  if p.keyLate || p.nextLoaded then p else { p with keyLate := true, keyLateAt := some now }

/-- R57, R59. The class of the next new flit: K, then U before B with the bulk floor; a paused class starts none, and a U
packet that is half sent holds B back. While B is paused no floor flit can be sent, and U goes on; while U is paused its
bound on B does not hold, and B goes on.
Log entry 89 (DESIGN CHOICE). -/
def Port.nextClass (p : Port) : Option Nat :=
  let b := !p.bulk.isEmpty && !p.paused.getD 0 false
  let floor := if b then some 0 else none
  if !p.control.isEmpty then some 2
  else match p.urgent with
    | u :: _ =>
      if p.paused.getD 1 false then (if u.sent = 0 then floor else none)
      else if u.sent = 0 && b && decide (8 < p.uSinceB + u.bodies.length) then some 0 else some 1
    | [] => floor

def Port.queueOf (p : Port) (c : Nat) : List LinkPacket := if c = 0 then p.bulk else if c = 1 then p.urgent else p.control

def Port.setQueue (p : Port) (c : Nat) (l : List LinkPacket) : Port :=
  if c = 0 then { p with bulk := l } else if c = 1 then { p with urgent := l } else { p with control := l }

/-- A new sequenced flit of a class. -/
def Port.sendClass (p : Port) (c : Nat) : Port :=
  match p.queueOf c with
  | [] => p
  | x :: rest =>
    let p1 := if x.sent = 0 then p.bumpTag c else p
    let tag := if x.sent = 0 then p.tags.getD c 0 else x.tag
    let last := x.sent + 1 == x.bodies.length
    let mark := (if x.sent = 0 then 512 else 0) + (if last then 256 else 0) + tag.toNat
    let q := p1.sendNew c mark (if last then x.words else 29) (x.bodies.getD x.sent 0) none x.owner
    let q1 := q.setQueue c (if last then rest else { x with sent := x.sent + 1, tag := tag } :: rest)
    { q1 with uSinceB := if q1.bulk.isEmpty || c = 0 then 0 else if c = 1 then p.uSinceB + 1 else p.uSinceB }

/-- R56. The next flit of a replay. -/
def Port.sendAgain (p : Port) (i : Nat) : Port :=
  match p.replay[i]? with
  | none => { p with resend := none }
  | some h =>
    let mark := h.hdr.toNat / 2 ^ 52 % 1024
    { p.emit (hdrCls h.hdr).toNat mark h.seq.toNat true (h.hdr.toNat / 2 ^ 21 % 32) h.body with
      resend := if i + 1 < p.replay.length then some (i + 1) else none }

/-- R46. A NULL flit, with the next number to be assigned as its SEQ. -/
def Port.sendNull (p : Port) : Port := p.emit 3 0 p.txSeq.toNat false 0 0

/-- Byte k of a flit's payload. -/
def bodyByte (b : BitVec 1856) (k : Nat) : Nat := b.toNat / 2 ^ (8 * k) % 256

/-- R52. Whether the first flit of a link packet is one of key agreement: bulk whose route header names station 61 of a die. -/
def forSystem (cls : BitVec 2) (body : BitVec 1856) (die : Option Nat) : Bool :=
  cls == 0 && some (bodyByte body 4) == die && bodyByte body 5 == 61

/-- R51, R52. What a direction without an ACTIVE key sends beside KEYSW: the packets of key agreement, in plain frames,
before any other. They are bound for the peer's die. -/
def Port.sendPlain (p : Port) (peerDie : Option Nat) : Port :=
  let ours := fun (x : LinkPacket) => forSystem x.cls (x.bodies.headD 0) peerDie
  let q := { p with bulk := p.bulk.filter ours ++ p.bulk.filter fun x => !ours x }
  if q.bulk.head?.any ours && !q.paused.getD 0 false then q.sendClass 0 else q.sendNull

/-- R46, R56. The frame of a frame time: an unsequenced K flit, which is a packet of its own with TAG 0; a replayed flit; a
new flit; or NULL. A direction without a key sends PAUSE and RESUME too, in plain frames (log entry 99).
Log entry 90 (DESIGN CHOICE). -/
def Port.sendFrame (p : Port) (peerDie : Option Nat) : Port :=
  match p.unseq with
  | k :: rest => { p.emit 2 768 p.txSeq.toNat false 1 (kBody k.1.toNat k.2.toNat) with unseq := rest }
  | [] =>
    match p.resend with
    | some i => p.sendAgain i
    | none =>
      if 64 ≤ p.replay.length then p.sendNull
      else if (activeSlot p.tx).isNone then p.sendPlain peerDie
      else match p.nextClass with
        | some c => p.sendClass c
        | none => p.sendNull

/-- R53 step 4. A hold frame, from counter limit - 1 on. -/
def Port.hold (p : Port) (now : Nat) : Port := { p.late now with wire := some holdFrame, holding := true }

/-- R52, R53. The frame that a sender emits now: KEYSW where it may switch, a hold frame from counter limit - 1 on, else
the frame of R46; from T on without a loaded slot KEYLATE is set.
Log entry 49 (DEDUCED). -/
def Port.frame (p : Port) (peerDie : Option Nat) (now : Nat) : Port :=
  match p.switchTo with
  | some new => p.keySwitch new
  | none =>
    match p.counter with
    | some c =>
      if p.limit - 1 ≤ c then p.hold now
      else if p.switchAt ≤ c then (p.late now).sendFrame peerDie
      else p.sendFrame peerDie
    | none => p.sendFrame peerDie

/-- LINK_FRAME_SEND, R46. A link sender emits the frame of a frame time. -/
def execLinkFrameSend (port : Nat) (s : State) : Host.Outcome State Fault Refusal :=
  event (if (s.port port).up then s.modPort port fun p => p.frame (Config.attached port) s.time else s)

/-- KEY_SWITCH_POINT, R53. At the switch point the sender sends KEYSW and switches slots, or sets KEYLATE. -/
def execKeySwitchPoint (port : Nat) (s : State) : Host.Outcome State Fault Refusal :=
  event (
    let p := s.port port
    match p.counter with
    | some c =>
      if p.up && decide (p.switchAt ≤ c) then s.modPort port fun p => match p.switchTo with
        | some new => p.keySwitch new
        | none => p.late s.time
      else s
    | none => s)

/-- KEY_HOLD_POINT, R53. At limit - 1 without a switch the sender sends hold frames. -/
def execKeyHoldPoint (port : Nat) (s : State) : Host.Outcome State Fault Refusal :=
  event (
    let p := s.port port
    match p.counter with
    | some c =>
      if p.up && decide (p.limit - 1 ≤ c) && p.switchTo.isNone then
        s.modPort port fun p => p.hold s.time
      else s
    | none => s)

/-- KEY_LOAD_TIMEOUT, R53. No key is loaded within 10 ms of KEYLATE, and the link goes down. -/
def execKeyLoadTimeout (port : Nat) (s : State) : Host.Outcome State Fault Refusal :=
  event (match (s.port port).keyLateAt with
    | some t => if t + 10000000 ≤ s.time then s.linkDown port else s
    | none => s)

/-- A key loaded into an EMPTY slot, its counter at 0. -/
def loadSlot (slot : Bool) (key : BitVec 256) (epoch salt : Word) (l : List KeySlot) : List KeySlot :=
  l.modify (slotNum slot) fun k => if k.state == .empty then ⟨.loaded, key, epoch, salt, 0⟩ else k

/-- R51. What a key of a direction is derived from beside the secret: the identities and the ports of the session's requester
and of its responder, the direction, 0 from the requester and 1 to it, and the epoch.
Log entry 50 (DEDUCED). -/
def keyContext (s : State) (port : Nat) (peer : Peer) (rx : Bool) (epoch : Word) : List Nat :=
  let me := s.boot.devId.toNat
  let first := (s.port port).requester
  let ends := if first then [me, peer.dev.toNat, port, peer.port.toNat] else [peer.dev.toNat, me, peer.port.toNat, port]
  ends ++ [if first == rx then 1 else 0, epoch.toNat]

/-- R51. The key and the salt that a port's session gives a direction for an epoch. -/
def State.keyOf (s : State) (port : Nat) (rx : Bool) (epoch : Word) : Option (BitVec 256 × Word) :=
  match (s.port port).secret, (s.port port).peer with
  | some z, some peer =>
    let c := keyContext s port peer rx epoch
    some (linkKey z c, linkSalt z c)
  | _, _ => none

/-- R50, R51. A key of an epoch, derived from the port's session, loaded into an EMPTY slot of a direction; an epoch
that the session has used in the direction is refused, so no key and IV pair comes twice. -/
def State.loadKey (s : State) (port : Nat) (rx slot : Bool) (epoch : Word) : State :=
  let p := s.port port
  match s.keyOf port rx epoch with
  | some (key, salt) =>
    let l := if rx then p.rx else p.tx
    if p.epochs.contains (rx, epoch) || (l.getD (slotNum slot) {}).state != .empty then s
    else
      let l1 := loadSlot slot key epoch salt l
      (s.modPort port fun p =>
        let q := { p with epochs := (rx, epoch) :: p.epochs }
        if rx then { q with rx := l1 } else { q with tx := l1, keyLateAt := none }).modBoot fun b => { b with keysHeld := true }
  | none => s

/-- KEY_LOAD, R51, R54. The system cores load the next key of the session, with its salt, into an EMPTY slot of a direction,
into a sender's once it holds an ACK that covers its KEYSW. A key or a salt that the session does not give is not loaded. -/
def execKeyLoad (port : Nat) (rx slot : Bool) (key : BitVec 256) (epoch salt : Word) (s : State) : Host.Outcome State Fault Refusal :=
  event (
    let p := s.port port
    if p.up && (rx || p.keyswSeq.isNone) && s.boot.status.live && s.keyOf port rx epoch == some (key, salt) then
      s.loadKey port rx slot epoch
    else s)

/-- R87. A peer recorded for a port of an open job: up to four, then OVERFLOW. -/
def recordPeer (port : Nat) (x : Peer) (j : Job) : Job :=
  let e := (j.peers.find? fun p => p.1 == port).getD (port, [], false)
  let e1 := if e.2.1.contains x then e else if e.2.1.length < 4 then (port, e.2.1 ++ [x], e.2.2) else (port, e.2.1, true)
  { j with peers := e1 :: j.peers.filter fun p => p.1 != port }

/-- The partition that owns a port. -/
def State.portOwner (s : State) (port : Nat) : Option Nat := s.parts.findIdx? fun p => p.ports.contains port

/-- LINK_KEY_AGREEMENT, R51, R52. An SPDM session with the peer, whose master secret no earlier session of the port had,
gives both directions the key of slot 0; during an open job the peer is recorded (R87).
Log entry 50 (DEDUCED). -/
def execLinkKeyAgreement (port : Nat) (ended : SpdmEnd) (peer : Peer) (secret : BitVec 384) (epoch : Word) (s : State) :
    Host.Outcome State Fault Refusal :=
  event (
    let p := s.port port
    if !p.up || ended == .failed || (activeSlot p.tx).isSome || p.secrets.contains secret || !s.boot.status.live then s
    else
      let s1 := s.modPort port fun p =>
        { p with peer := some peer, secret := some secret, requester := ended == .requester, secrets := secret :: p.secrets,
                 epochs := [] }
      let s2 := (s1.loadKey port false false epoch).loadKey port true false epoch
      match s2.portOwner port with
      | some n => s2.modPart n fun x => { x with job := x.job.map (recordPeer port peer) }
      | none => s2)

/-! ## ACK, NAK and flow (R55, R56, R59) -/

/-- Flits of the replay buffer that a number releases: those before it. -/
def releasedBy (n : BitVec 24) (l : List Held) : Nat := (l.takeWhile fun h => 0 < (n - h.seq).toNat && (n - h.seq).toNat ≤ 64).length

/-- R56. Every flit before E is released; an advance clears the count of NAKs. -/
def Port.release (p : Port) (n : Nat) : Port :=
  if n = 0 then p
  else
    let gone := (p.replay.take n).map Held.seq
    { p with
      replay := p.replay.drop n
      resend := p.resend.bind fun i => if i < n then (if n < p.replay.length then some 0 else none) else some (i - n)
      naks := none
      keyswSeq := p.keyswSeq.bind fun q => if gone.contains q then none else some q }

/-- R45, R55. An ACK: the low 14 bits of the next number that the peer expects. -/
def Port.takeAck (p : Port) (a : Nat) : Port :=
  p.release (p.replay.takeWhile fun h =>
    let d := (a + 16384 - h.seq.toNat % 16384) % 16384
    decide (0 < d) && decide (d ≤ 64)).length

/-- R56. A NAK(E): release, then restart from E, unless restarted from E within the last 2,048 f-cycles. -/
def Port.takeNak (p : Port) (e : BitVec 24) (fcycle : Nat) : Port :=
  let q := p.release (releasedBy e p.replay)
  let seen := match q.naks with
    | some x => if x.1 = e then x.2 + 1 else 1
    | none => 1
  let again := match q.restart with
    | some r => r.1 != e || decide (r.2 + 2048 < fcycle)
    | none => true
  let q1 := { q with naks := some (e, seen) }
  if again then { q1 with resend := if q1.replay.isEmpty then none else some 0, restart := some (e, fcycle) } else q1

/-- R56, R63. A NAK at a port; 16 NAKs for one E take the link down. -/
def State.nak (s : State) (port : Nat) (e : BitVec 24) : State :=
  let s1 := s.modPort port fun p => p.takeNak e s.fcycle
  match (s1.port port).naks with
  | some x => if 16 ≤ x.2 then s1.linkDown port else s1
  | none => s1

/-- NAK_RECEIVE, R56. -/
def execNakReceive (port : Nat) (seq : BitVec 24) (s : State) : Host.Outcome State Fault Refusal :=
  event (if (s.port port).up then s.nak port seq else s)

/-- R55. The receiver sends NAK(E). -/
def Port.sendNak (p : Port) (fcycle : Nat) : Port := { p with unseq := p.unseq ++ [(2, p.rxSeq)], nakAt := fcycle, dropping := true }

/-- NAK_RESEND_TIMEOUT, R55. A receiver in DROPPING resends NAK(E) 2,048 f-cycles after the last. -/
def execNakResendTimeout (port : Nat) (s : State) : Host.Outcome State Fault Refusal :=
  event (
    let p := s.port port
    if p.up && p.dropping && decide (p.nakAt + 2048 ≤ s.fcycle) then s.modPort port fun p => p.sendNak s.fcycle else s)

/-- R59. PAUSE or RESUME of class B or U held by the sender. -/
def State.setPaused (s : State) (port : Nat) (cls : BitVec 2) (b : Bool) : State :=
  if cls.toNat < 2 then s.modPort port fun p => { p with paused := p.paused.set cls.toNat b } else s

/-- PAUSE_RECEIVE, R59. The sender starts no new flit of the class. -/
def execPauseReceive (port : Nat) (cls : BitVec 2) (s : State) : Host.Outcome State Fault Refusal :=
  event (s.setPaused port cls true)

/-- RESUME_RECEIVE, R59. The sender may start flits of the class again. -/
def execResumeReceive (port : Nat) (cls : BitVec 2) (s : State) : Host.Outcome State Fault Refusal :=
  event (s.setPaused port cls false)

/-- R59. The flow states of both classes, as K flits to send. -/
def Port.flowFlits (p : Port) : List (BitVec 8 × BitVec 24) :=
  [(if p.pausing.getD 0 false then 3 else 4, 0), (if p.pausing.getD 1 false then 3 else 4, 1)]

/-- FLOW_STATE_REPEAT, R59. Every 1 us a receiving port repeats its state for each class, whether a key is ACTIVE or not.
Log entry 99 (DESIGN CHOICE). -/
def execFlowStateRepeat (port : Nat) (s : State) : Host.Outcome State Fault Refusal :=
  event (
    let p := s.port port
    if p.up && decide (p.flowAt + 1000 ≤ s.time) then
      s.modPort port fun p => { p with unseq := p.unseq ++ p.flowFlits, flowAt := s.time }
    else s)

/-- R59. The flits that a class's buffer holds: those of the packet that its context holds open, and of link packets that
wait to be joined with the next (R47).
Log entry 91 (DESIGN CHOICE). -/
def Port.holds (p : Port) (c : Nat) : Nat :=
  (p.reasm.getD c {}).held.length + (if c = 1 then (p.partial'.map Partial.flits).getD 0 else 0)

/-- R59. PAUSE when the free buffer of a class falls below one quarter, RESUME when it rises above one half. -/
def Port.flow (p : Port) (c : Nat) : Port :=
  let free := Config.linkBuffer - p.holds c
  let was := p.pausing.getD c false
  if !was && decide (4 * free < Config.linkBuffer) then
    { p with pausing := p.pausing.set c true, unseq := p.unseq ++ [(3, BitVec.ofNat 24 c)] }
  else if was && decide (Config.linkBuffer < 2 * free) then
    { p with pausing := p.pausing.set c false, unseq := p.unseq ++ [(4, BitVec.ofNat 24 c)] }
  else p

def Port.flows (p : Port) : Port := (p.flow 0).flow 1

/-! ## Keys at the receiver (R54) -/

/-- R54. KEYSW accepted in sequence: the named slot becomes ACTIVE and the old one EMPTY; a wrong epoch takes the link
down, and so does an EMPTY slot, which has none.
Log entry 92 (DESIGN CHOICE). -/
def State.keysw (s : State) (port : Nat) (slot : Bool) (epoch : Word) : State :=
  let k := (s.port port).rx.getD (slotNum slot) {}
  if k.state == .empty || k.epoch != epoch then s.linkDown port
  else s.modPort port fun p => { p with rx := switchSlots slot p.rx, rxSlot := slot }

/-- KEYSW_RECEIVE, R54. -/
def execKeyswReceive (port : Nat) (slot : Bool) (epoch : Word) (s : State) : Host.Outcome State Fault Refusal :=
  event (if (s.port port).up then s.keysw port slot epoch else s)

/-! ## Reassembly and routing (R47, R58, R60, R61) -/

/-- R58. The link packet that a context holds open is dropped. -/
def LinkReassembly.drop (c : LinkReassembly) : LinkReassembly :=
  { c with expected := c.expected + 1, held := [], open' := false }

/-- R47, R58. The link packet that a port's context of a class holds open, or comes to, is dropped and counted, and with it
the link packets that wait to be joined with it. -/
def Port.dropPacket (p : Port) (cls : BitVec 2) : Port :=
  Port.flows { p with
    reasm := p.reasm.set cls.toNat (p.reasm.getD cls.toNat {}).drop
    partial' := if cls = 1 then none else p.partial'
    dropped := p.dropped + 1 }

/-- R58. A link ABORT discards the held flits of the named link packet. -/
def Port.abort (p : Port) (cls : BitVec 2) (tag : BitVec 8) : Port :=
  if cls.toNat < 3 && (p.reasm.getD cls.toNat {}).expected == tag then p.dropPacket cls else { p with dropped := p.dropped + 1 }

/-- LINK_ABORT_RECEIVE, R58. -/
def execLinkAbortReceive (port : Nat) (cls : BitVec 2) (tag : BitVec 8) (s : State) : Host.Outcome State Fault Refusal :=
  event (if (s.port port).up then s.modPort port fun p => p.abort cls tag else s)

/-- R58. Row 7 of Table 2.6 for a port's context of a class. -/
def State.idleLink (s : State) (port : Nat) (cls : BitVec 2) : State :=
  let c := (s.port port).reasm.getD cls.toNat {}
  if c.open' && s.idleFor c.lastAt then
    let s1 := s.modPort port fun p => p.dropPacket cls
    match s.portOwner port with
    | some n => s1.fabricError n none
    | none => s1
  else s

/-- REASSEMBLY_IDLE_TIMEOUT, R37, R58. An OPEN context of a station, or of a link port, has accepted no flit for 2^16
f-cycles. -/
def execReassemblyIdleTimeout (die st srcDie srcSt : Nat) (idle : IdleContext) (s : State) : Host.Outcome State Fault Refusal :=
  event (match idle.link with
    | none => s.idleFabric ⟨idle.cls, srcDie, srcSt, die, st⟩
    | some port => s.idleLink port idle.cls)

/-- R39, R40, R58, the last row of Table 2.6. A port of a partition that is reset abandons what it has to send, and its
contexts return to IDLE with E = 0. Its own link packets take the tags that follow.
Log entry 100 (DEDUCED). -/
def Port.abandon (p : Port) : Port :=
  Port.flows { p.cancel (fun _ => true) with partial' := none, reasm := [{}, {}, {}] }

/-- The data bytes of a link packet, after its route header. -/
def linkData (bodies : List (BitVec 1856)) : List Byte := ((bodies.map fun b => natBytes 232 b.toNat).flatten).drop 16

/-- The bytes of a flit on a die; short data end in zeros. -/
def dieFlits : Nat → List Byte → List (BitVec 1024)
  | 0, _ => []
  | n + 1, bs => BitVec.ofNat 1024 (bytesNat (bs.take 128)) :: dieFlits n (bs.drop 128)

/-- R32. Bytes as the bodies of on-die packets of at most n flits each. -/
def dieBodies (bs : List Byte) (n : Nat) : List (List (BitVec 1024)) :=
  let flits := dieFlits ((bs.length + 127) / 128) bs
  (List.range ((flits.length + n - 1) / n)).map fun i => (flits.drop (n * i)).take n

/-- The largest number of flits of an on-die packet of a class. -/
def maxFlits (cls : BitVec 2) : Nat := if cls = 0 then 16 else if cls = 1 then 4 else 1

/-- R61. Whether a packet for a partition may be delivered to a station: no core or link station of another. -/
def Partition.mayReach (p : Partition) (die st : Nat) : Bool :=
  p.ownsStation die st || !(decide (st < 32) || (decide (54 ≤ st) && decide (st ≤ 56)))

/-- A packet dropped and counted as a partition violation. -/
def State.violate (s : State) (port : Nat) (owner : Option Nat) : State :=
  let s1 := s.modPort port fun p => { p with violations := p.violations + 1 }
  match owner with
  | some n => s1.modPart n fun p => { p with violations := p.violations + 1 }
  | none => s1

/-- R60, R61. A packet that a port has received, its link packets joined, is delivered to this device, forwarded with its
route header, or dropped. -/
def State.routePacket (s : State) (port : Nat) (cls : BitVec 2) (header : BitVec 128) (data : List Byte) : State :=
  let byte := fun (k : Nat) => header.toNat / 2 ^ (8 * k) % 256
  let dev := BitVec.ofNat 16 header.toNat
  let die := byte 4
  let st := byte 5
  let here := (port / 3, 54 + port % 3)
  let head := headerWith header.toNat data.length
  match s.portOwner port with
  | none => s.violate port none
  | some n =>
    let packet := fun (fd fs : Nat) (dv : BitVec 16) (i : Nat) (body : List (BitVec 1024)) =>
      ({ cls := cls, dstDie := fd, dstSt := fs, part := n, body := body, finalDie := fd, finalSt := fs, origSt := here.2, dev := dv,
         origDie := here.1, head := i == 0 } : Packet)
    let send := fun (fd fs : Nat) (dv : BitVec 16) (all : List (List (BitVec 1024))) =>
      s.modFabric fun f => all.zipIdx.foldl (fun f b => f.send here.1 here.2 (packet fd fs dv b.2 b.1)) f
    let p := s.part n
    let r := (s.port port).route dev
    if r = 30 then
      if byte 8 = n && p.mayReach die st then send die st 0xFFFF (dieBodies data (maxFlits cls)) else s.violate port (some n)
    else if r = port then s.modPort port fun q => (linkPackets cls n none head data).foldl Port.push q
    else if r < 24 then
      if p.ports.contains r then send (r / 3) (54 + r % 3) dev (dieBodies (natBytes 16 head ++ data) (maxFlits cls))
      else s.violate port (some n)
    else s.modPort port fun p => { p with dropped := p.dropped + 1 }

/-- R47. A link packet with the link packets of the same on-die packet before it; none while it is continued in the next.
Log entry 87 (DESIGN CHOICE). -/
def Port.unsplit (p : Port) (cls : BitVec 2) (bodies : List (BitVec 1856)) : Option (BitVec 128 × List Byte) × Port :=
  let h := (bodies.headD 0).setWidth 128
  let data := (linkData bodies).take (headerLen h.toNat)
  if cls = 1 then
    let x : Partial := match p.partial' with
      | some y => ⟨y.header, y.data ++ data, y.flits + bodies.length⟩
      | none => ⟨h, data, bodies.length⟩
    if headerLen h.toNat = linkRoom 1 then (none, { p with partial' := some x })
    else (some (x.header, x.data), { p with partial' := none })
  else (some (h, data), p)

/-- R47, R52, R58. A joined link packet: while no key is ACTIVE it is for the system cores alone, else it is routed once its
on-die packet is whole. -/
def State.joined (s : State) (port : Nat) (cls : BitVec 2) (bodies : List (BitVec 1856)) : State :=
  let take := s.modPort port fun p => { p with received := (cls, bodies) :: p.received }
  if (activeSlot (s.port port).rx).isNone then
    if forSystem cls (bodies.headD 0) (some (port / 3)) then take
    else s.modPort port fun p => { p with dropped := p.dropped + 1 }
  else
    let r := (take.port port).unsplit cls bodies
    let s1 := take.modPort port fun _ => r.2
    match r.1 with
    | some x => s1.routePacket port cls x.1 x.2
    | none => s1

/-- R48. An accepted sequenced K flit. -/
def State.linkK (s : State) (port : Nat) (body : BitVec 1856) : State :=
  match bodyByte body 0 with
  | 1 => s.modPort port fun p => p.abort (BitVec.ofNat 2 (bodyByte body 1)) (BitVec.ofNat 8 (bodyByte body 2))
  | 5 => s.keysw port (bodyByte body 1 % 2 == 1) (BitVec.ofNat 32 (body.toNat / 2 ^ 32))
  | _ => s.modPort port fun p => { p with dropped := p.dropped + 1 }

/-- R58. An accepted flit in the reassembly context of its class. -/
def State.linkAccept (s : State) (port : Nat) (h : BitVec 64) (body : BitVec 1856) : State :=
  let c := (hdrCls h).toNat
  let r := (s.port port).reasm.getD c {}
  if hdrTag h ≠ r.expected then s.modPort port fun p => { p with dropped := p.dropped + 1 }
  else
    let done := fun (p : Port) => { p with reasm := p.reasm.set c { expected := r.expected + 1 } }
    if c = 2 then (s.modPort port done).linkK port body
    else if hdrLast h then ((s.modPort port done).joined port (hdrCls h) (r.held ++ [body]))
    else s.modPort port fun p =>
      { p with reasm := p.reasm.set c { r with held := r.held ++ [body], open' := true, lastAt := s.fcycle } }

/-! ## Acceptance (R50, R52, R54, R55) -/

/-- What a receiver makes of a frame: it fails authentication, is a hold frame, or is a flit with its payload. -/
inductive Received where
  | bad
  | hold
  | flit (body : BitVec 1856)
deriving DecidableEq, Repr

/-- R52. A plain frame checked by its CRC. -/
def plainCheck (f : Frame) : Received := if plainFrame f.hdr f.body == f then .flit f.body else .bad

/-- R52, R54. A frame authenticated: a plain frame by its CRC while no key is ACTIVE, an encrypted one by the slot that
KSLOT names. -/
def Port.authenticate (p : Port) (f : Frame) : Received :=
  if hdrPlain f.hdr then
    if (activeSlot p.rx).isNone then plainCheck f else if f == holdFrame then .hold else .bad
  else
    let k := p.rx.getD (slotNum (hdrSlot f.hdr)) {}
    if k.state == .empty then .bad
    else match gcmOpen k.key k.iv f.hdr f.body f.tag with
      | some b => .flit b
      | none => .bad

/-- R50. The receiver's counter of the slot that a frame names: it counts every frame, authenticated or failed, but hold
frames and the plain frames of a direction without an ACTIVE key. -/
def Port.countFrame (p : Port) (f : Frame) : Port :=
  if f == holdFrame || (hdrPlain f.hdr && (activeSlot p.rx).isNone) then p
  else { p with rx := p.rx.modify (slotNum (hdrSlot f.hdr)) fun k =>
    if k.state == .empty then k else { k with counter := k.counter + 1 } }

/-- R55. A frame that is dropped: the first one sends NAK(E) and enters DROPPING. -/
def Port.dropFrame (p : Port) (fcycle : Nat) : Port := if p.dropping then p else p.sendNak fcycle

/-- R48, R55. An unsequenced flit that authenticates. -/
def State.unsequenced (s : State) (port : Nat) (h : BitVec 64) (body : BitVec 1856) : State :=
  if hdrCls h = 3 then s
  else
    match if hdrCls h = 2 then bodyByte body 0 else 0 with
    | 2 => s.nak port (BitVec.ofNat 24 (body.toNat / 256))
    | 3 => s.setPaused port (BitVec.ofNat 2 (bodyByte body 1)) true
    | 4 => s.setPaused port (BitVec.ofNat 2 (bodyByte body 1)) false
    | _ => s.modPort port fun p => { p with dropped := p.dropped + 1 }

/-- R55. A flit that authenticates, its ACK taken: the rows of the table. -/
def State.linkFlit (s : State) (port : Nat) (h : BitVec 64) (body : BitVec 1856) (room : Bool) : State :=
  let p := s.port port
  let drop := s.modPort port fun p => p.dropFrame s.fcycle
  if hdrReserved h ≠ 0 then drop
  else if !hdrSq h then s.unsequenced port h body
  else if hdrSeq h ≠ p.rxSeq then drop
  else if !room then
    if p.dropping then s
    else s.modPort port fun p =>
      ({ p with overrun := if p.overrun = 0xFFFF then p.overrun else p.overrun + 1 } : Port).sendNak s.fcycle
  else
    ((s.modPort port fun p => { p with rxSeq := p.rxSeq + 1, dropping := false }).linkAccept port h body).modPort port Port.flows

/-- LINK_FLIT_RECEIVE, R55. A received frame is authenticated, its ACK taken, and accepted, acted on or dropped. `room`
says whether its class has buffer space. -/
def execLinkFlitReceive (port : Nat) (frame : Frame) (room : Bool) (s : State) : Host.Outcome State Fault Refusal :=
  event (
    let p := s.port port
    if !p.up then s
    else
      let s1 := s.modPort port fun p => p.countFrame frame
      match p.authenticate frame with
      | .hold => s1
      | .bad => s1.modPort port fun p =>
          ({ p with authFail := if p.authFail = 0xFFFFFFFF then p.authFail else p.authFail + 1 } : Port).dropFrame s.fcycle
      | .flit body =>
        let s2 := match hdrAck frame.hdr with
          | some a => s1.modPort port fun p => p.takeAck a
          | none => s1
        s2.linkFlit port frame.hdr body room)

/-! ## The status word (Table 3.7) -/

/-- Table 3.7. LNK_STAT. -/
def Port.stat (p : Port) : DWord :=
  p.authFail ++ p.overrun ++ p.downs ++ 0#4 ++ BitVec.ofBool p.keyLate ++ BitVec.ofBool p.txSlot ++ BitVec.ofBool p.rxSlot
    ++ BitVec.ofBool p.up

/-! ## Identity and routes (R60) -/

/-- Whether nothing is queued or unacknowledged at a port. -/
def Port.quiet (p : Port) : Bool := p.bulk.isEmpty && p.urgent.isEmpty && p.control.isEmpty && p.replay.isEmpty

/-- ROUTE_TABLE_WRITE, R60. The system cores write an entry of a link station, once the ports that the old and the new
entry route through are quiet. -/
def execRouteTableWrite (port : Nat) (dev : BitVec 16) (entry : BitVec 5) (s : State) : Host.Outcome State Fault Refusal :=
  event (
    let quiet := fun (n : Nat) => decide (24 ≤ n) || (s.port n).quiet
    if s.boot.status.live && quiet ((s.port port).route dev) && quiet entry.toNat then
      s.modPort port fun p =>
        let rest := p.routes.filter fun r => r.1 != dev.toNat
        { p with routes := if entry = 31 then rest else (dev.toNat, entry) :: rest }
    else s)

/-- DEVICE_IDENTITY_WRITE, R60. The system cores write the device identity; 0xFFFF is never assigned. -/
def execDeviceIdentityWrite (id : BitVec 16) (s : State) : Host.Outcome State Fault Refusal :=
  event (if id = 0xFFFF || !s.boot.status.live then s else s.modBoot fun b => { b with devId := id })

end Sys2Proof.Machine
end

