-- ==== Sys2Proof/Machine/HostSide.lean ====
section
/-! DEFINITION. The host's side of the device: virtual functions and context windows, BAR2, TDISP and feature
negotiation (spec/04_host_and_partitions.md R65 to R71), with the meanings of the host's events. -/

namespace Sys2Proof.Machine

/-! ## Access to a virtual function (R65, R66) -/

/-- What a request to a partition's VF meets: it is served, reads as a constant and discards writes, or completes as
Unsupported Request. -/
inductive VfAccess where
  | serve
  | const (b : Byte)
  | unsupported
deriving DecidableEq, Repr

/-- R16, R65, R66. A FREE partition's VF reads as zero, one in ERROR as ones, one in RUN serves only its own stream. Of a
FREE partition in ERROR, FREE decides.
Log entry 93 (DESIGN CHOICE). -/
def State.vfAccess (s : State) (part stream : Nat) : VfAccess :=
  let p := s.part part
  if s.boot.status != .ready || p.state == .free then .const 0
  else if p.vf == .error then .const 0xFF
  else if p.vf == .run && p.stream != stream then .unsupported
  else .serve

def State.countUnsupported (s : State) (part : Nat) : State := s.modPart part fun p => { p with unsupported := p.unsupported + 1 }

/-- R67. A host write that is discarded and counted in PART_BADSUB. -/
def State.badWrite (s : State) (part : Nat) : State :=
  s.modPart part fun p => { p with badSub := if p.badSub = 0xFFFFFFFF then p.badSub else p.badSub + 1 }

/-- R67, R73. A write to a window register: it takes effect where the VF serves it and the context is ACTIVE in the
partition. -/
def State.windowWrite (s : State) (part ctx stream : Nat) (f : State → State) : State :=
  match s.vfAccess part stream with
  | .const _ => s
  | .unsupported => s.countUnsupported part
  | .serve =>
    if (s.part part).state == .resetting then s
    else if (s.ctx ctx).state == .active && (s.ctx ctx).part == part then f s
    else s.badWrite part

/-! ## Context windows (R67 to R69) -/

/-- R69. Whether a submit word is taken. -/
def Queue.submitOk (q : Queue) (value : DWord) : Bool :=
  let tail := value.extractLsb' 32 32
  value.extractLsb' 5 27 == 0 && q.en && !q.src && decide ((tail - q.head).toNat ≤ q.size) && decide ((tail - q.tail).toNat < 2 ^ 31)

/-- R69. A submit word sets the tail of a host queue, or is discarded and counted in CTX_HSTAT. -/
def State.putSubmit (s : State) (ctx : Nat) (value : DWord) : State :=
  let q := value.toNat % 32
  if ((s.ctx ctx).queue q).submitOk value then
    s.modCtx ctx fun c => c.modQueue q fun x => { x with tail := value.extractLsb' 32 32 }
  else s.modCtx ctx fun c => { c with badSubmit := if c.badSubmit = 0xFFFFFFFF then c.badSubmit else c.badSubmit + 1 }

/-- R67, R68. QBASE(q) set, with both indices 0; a write with EN = 1, an unaligned one and one of no queue are discarded. -/
def State.putQbase (s : State) (part ctx q : Nat) (value : DWord) : State :=
  if 32 ≤ q || ((s.ctx ctx).queue q).en || value.toNat % 128 ≠ 0 then s.badWrite part
  else s.modCtx ctx fun c => c.modQueue q fun x => { x with base := value, head := 0, tail := 0 }

/-- R67, R68, Table 4.3. QCFG(q) set; a write with EN = 1 that changes LOGSIZE or SRC and one of no queue are discarded. -/
def State.putQcfg (s : State) (part ctx q : Nat) (value : DWord) : State :=
  let x := (s.ctx ctx).queue q
  let size := value.extractLsb' 16 4
  let src := value.getLsbD 1
  let changes := size != x.logSize || src != x.src
  if 32 ≤ q || (x.en && changes) then s.badWrite part
  else s.modCtx ctx fun c => c.modQueue q fun x =>
    { x with
      tickets := value.extractLsb' 20 12, logSize := size, src := src, en := value.getLsbD 0
      head := if changes then 0 else x.head
      tail := if changes then 0 else x.tail }

/-- CTX_SUBMIT, R69. Sets the tail of a host queue, or is discarded and counted. -/
def execCtxSubmit (part ctx : Nat) (stream : Nat) (value : DWord) (s : State) : Host.Outcome State Fault Refusal :=
  event (s.windowWrite part ctx stream fun s => s.putSubmit ctx value)

/-- QBASE_WRITE, R67, R68. Sets the ring base and zeroes both indices, or is discarded and counted. -/
def execQbaseWrite (part ctx q : Nat) (stream : Nat) (value : DWord) (s : State) : Host.Outcome State Fault Refusal :=
  event (s.windowWrite part ctx stream fun s => s.putQbase part ctx q value)

/-- QCFG_WRITE, R67, R68. Sets TICKETS, LOGSIZE, SRC and EN, or is discarded and counted. -/
def execQcfgWrite (part ctx q : Nat) (stream : Nat) (value : DWord) (s : State) : Host.Outcome State Fault Refusal :=
  event (s.windowWrite part ctx stream fun s => s.putQcfg part ctx q value)

/-- R67, Table 4.2. A write at an offset of a window: of CTX_SUBMIT, QBASE(q) or QCFG(q) as those registers take it; of a
read-only register, or of any other offset, it is discarded and counted. -/
def State.windowStore (s : State) (part ctx stream offset : Nat) (value : DWord) : State :=
  s.windowWrite part ctx stream fun s =>
    if offset = 0 then s.putSubmit ctx value
    else if 0x100 ≤ offset ∧ offset < 0x300 ∧ offset % 16 = 0 then s.putQbase part ctx ((offset - 0x100) / 16) value
    else if 0x100 ≤ offset ∧ offset < 0x300 ∧ offset % 16 = 8 then s.putQcfg part ctx ((offset - 0x100) / 16) value
    else s.badWrite part

/-- R67, Table 4.2. What a read of a window register returns, where the VF serves it.
Log entry 54 (DEDUCED). -/
def State.windowReg (s : State) (part ctx offset : Nat) : DWord :=
  let c := s.ctx ctx
  let live := c.state == .active && c.part == part
  let q := c.queue ((offset - 0x100) / 16)
  if offset = 8 then
    c.badSubmit ++ (if c.state == .free then 0#32 else if c.state == .active then 1#32 else 2#32)
  else if offset = 0x10 then (s.part part).badSub.zeroExtend 64
  else if !live then 0
  else if 0x100 ≤ offset ∧ offset < 0x300 then
    if offset % 16 = 0 then q.base
    else if offset % 16 = 8 then
      BitVec.ofNat 64 (q.tickets.toNat * 2 ^ 20 + q.logSize.toNat * 2 ^ 16 + (if q.src then 2 else 0) + (if q.en then 1 else 0))
    else 0
  else if 0x300 ≤ offset ∧ offset < 0x400 ∧ offset % 8 = 0 then (c.queue ((offset - 0x300) / 8)).head.zeroExtend 64
  else 0

/-- R65, R66, R67. A host read of a window register: what it returns, none where it completes as Unsupported Request, which is
counted. -/
def State.windowRead (s : State) (part ctx stream offset : Nat) : State × Option DWord :=
  match s.vfAccess part stream with
  | .const b => (s, some (BitVec.ofNat 64 (bytesNat (List.replicate 8 b))))
  | .unsupported => (s.countUnsupported part, none)
  | .serve => (s, some (s.windowReg part ctx offset))

/-! ## PF0 (R71, Table 3.6, R198) -/

/-- R71. The offered features. -/
def offered : DWord := 0x1FFF

/-- FEATACK_WRITE, R71. Taken until the accepted set is latched. -/
def execFeatackWrite (idx : Nat) (value : DWord) (s : State) : Host.Outcome State Fault Refusal :=
  event (if s.boot.status == .ready && s.accepted.isNone then { s with featAck := s.featAck.set idx value } else s)

/-- The registers of PF0 that the host driver reads. -/
inductive PfReg where
  | feat (i : Nat) | featAck (i : Nat) | lnkStat (port : Nat)
deriving DecidableEq, Repr

/-- R71, Tables 3.6, 3.7, 4.6. What a read of a register returns once boot has reached READY: FEAT0 to FEAT3 the features
offered, FEATACK0 to FEATACK3 what was written, LNK_STAT of a port. -/
def State.pfRead (s : State) (r : PfReg) : Option DWord :=
  if s.boot.status != .ready then none
  else some (match r with
    | .feat i => if i = 0 then offered else 0
    | .featAck i => if i = 0 then s.featAck.getD 0 0 &&& 0xFFFFFFFF else 0
    | .lnkStat n => (s.port n).stat)

/-- Table 3.6. What the system cores, and no other agent, read in LNK_KEYLIM of a port. -/
def State.keyLimRead (s : State) (port : Nat) : Option DWord :=
  if s.boot.status != .ready then none else some (s.port port).keyLim

/-- REGISTER_WRITE. A write to a device register: LNK_KEYLIM of port idx (R53, Table 3.6), the threshold of R198, or the
register at offset idx of a context window (R67). -/
def execRegisterWrite (reg : DevReg) (idx : Nat) (value : DWord) (s : State) : Host.Outcome State Fault Refusal :=
  event (if s.boot.status != .ready then s else match reg with
    | .keyLim => s.modPort idx fun p => { p with keyLim := value &&& 0xFFFFFFFFFFFF }
    | .eccThreshold => if 1 ≤ value.toNat ∧ value.toNat ≤ 65535 then s.modBoot fun b => { b with eccThreshold := value.toNat } else s
    | .window part ctx stream => s.windowStore part ctx stream idx value)

/-! ## BAR2 (R65, R134) -/

/-- R65. The physical address of an offset of a partition's aperture: its ranges in ascending address order. -/
def Partition.barPhys (p : Partition) (offset : Nat) : Option Nat :=
  (sortBy id p.ranges)[offset / 2 ^ 30]?.map fun r => r * 2 ^ 30 + offset % 2 ^ 30

/-- The physical addresses of a run of bytes of the aperture; none where it reaches beyond the ranges.
Log entry 52 (DESIGN CHOICE). -/
def Partition.barRun (p : Partition) (offset len : Nat) : Option (List Nat) :=
  (List.range len).mapM fun i => p.barPhys (offset + i)

/-- R195, cause 3. Nodes that have staged a page which the host reads or writes are sealed. -/
def State.sealStaged (s : State) (pages : List Nat) : State :=
  (s.nodes.filter fun n => n.state == .running && n.staged.any fun p => pages.contains p.1).foldl
    (fun s n => s.sealNow n.ctx n.ref 3) s

/-- HOST_BAR2_READ, R134. A load event of the partition's order. `poisoned` marks data found uncorrectable (R193). -/
def execHostBar2Read (part : Nat) (stream : Nat) (offset len : Nat) (poisoned : Bool) (s : State) :
    Host.Outcome State Fault Refusal :=
  event (match s.vfAccess part stream with
    | .const b => { s with readData := List.replicate len b, readPoisoned := false }
    | .unsupported => { s.countUnsupported part with readData := [], readPoisoned := false }
    | .serve =>
      match (s.part part).barRun offset len with
      | none => { s with readData := List.replicate len 0, readPoisoned := false }
      | some ps =>
        { s.sealStaged (ps.map (· / 65536)) with readData := ps.map (cellsGet s.mem), readPoisoned := poisoned })

/-- HOST_BAR2_WRITE, R134. A store event of S; suppressed and counted where a byte of it lies under a live registration
(R148) or in a hamper (R368). -/
def execHostBar2Write (part : Nat) (stream : Nat) (offset : Nat) (bytes : List Byte) (s : State) :
    Host.Outcome State Fault Refusal :=
  event (match s.vfAccess part stream with
    | .const _ => s
    | .unsupported => s.countUnsupported part
    | .serve =>
      match (s.part part).barRun offset bytes.length with
      | none => s
      | some ps =>
        if ps.any fun p => s.registered part p || s.hampered part p then s.badWrite part
        else
          let pages := (ps.map (· / 65536)).dedup
          let s1 := pages.foldl (fun s p => s.stageFor none p) (s.sealStaged pages)
          { s1 with mem := (ps.zip bytes).foldl (fun m x => cellsSet m x.1 x.2) s1.mem })

/-! ## TDISP (R66) -/

/-- TDISP_REQUEST, R66. Request 0 locks a VF and binds its stream, 1 starts it, 2 stops it; other requests, and those
that its state does not allow, are refused.
Log entry 51 (PRESUMED). -/
def execTdispRequest (part : Nat) (req : BitVec 2) (stream : Nat) (s : State) : Host.Outcome State Fault Refusal :=
  event (if s.boot.status != .ready then s else s.modPart part fun p =>
    match req.toNat, p.vf with
    | 0, .unlocked => { p with vf := .locked, stream := stream }
    | 1, .locked => { p with vf := .run }
    | 2, .locked | 2, .run => { p with vf := .unlocked }
    | _, _ => p)

/-- VF_CONFIG_CHANGE, R66. A change of the BARs or the IDE binding of a VF in RUN moves it to ERROR. -/
def execVfConfigChange (part : Nat) (s : State) : Host.Outcome State Fault Refusal :=
  event (if s.boot.status != .ready then s else s.modPart part fun p => if p.vf == .run then { p with vf := .error } else p)

end Sys2Proof.Machine
end

