-- ==== Sys2Proof/Machine/Partitions.lean ====
section
/-! DEFINITION. Partitions, contexts, stile sessions, grants, debugging, metering requests and jobs
(spec/04_host_and_partitions.md R72 to R78, spec/05_metering_attestation.md R85 to R88, spec/19_isa_engines_matrix.md R331,
spec/22_isa_shares.md R366, spec/10_traps_reliability.md R202), with the meanings of their events. -/

namespace Sys2Proof.Machine

open Host (Cell)

/-! ## Partitions (R72 to R74) -/

/-- R18, R72. Whether the device operator key authorises anything.
Log entry 53 (DEDUCED). -/
def State.operatorLive (s : State) : Bool := s.boot.status == .ready && s.fuses.lifecycle == .deployed

def addSorted (a b : List Nat) : List Nat := sortBy id (a ++ b.filter fun x => !a.contains x)

/-- The resources of a list that a partition, or no partition, owns. -/
def State.ownsAll (s : State) (src : Option Nat) (f : Partition → List Nat) (xs : List Nat) : Bool :=
  match src with
  | some p => xs.all fun x => (f (s.part p)).contains x
  | none => xs.all fun x => !(s.parts.any fun p => (f p).contains x)

/-- R72. Whether a partition is one that resources may leave or enter. -/
def State.mayMove (s : State) (p : Option Nat) : Bool :=
  match p with
  | some n => decide (n < 16) && (s.part n).state == .free
  | none => true

/-- R87. The peers that are authenticated on some ports are recorded for a job. -/
def State.seenPeers (s : State) (ports : List Nat) (j : Job) : Job :=
  (ports.filterMap fun q => (s.port q).peer.map fun x => (q, x)).foldl (fun j p => recordPeer p.1 p.2 j) j

/-- PARTITION_ASSIGN, R72. A request signed with the device operator key moves resources between FREE partitions and the
unowned pool. Contexts that move are FREE, and the peers of ports that come to a partition with an open job are recorded (R87).
Log entry 105 (DESIGN CHOICE). -/
def execPartitionAssign (src dst : Option Nat) (clusters ranges ports ctxs : List Nat) (sigOk : Bool) (s : State) :
    Host.Outcome State Fault Refusal :=
  let bounded := clusters.all (· < 64) && ranges.all (· < 768) && ports.all (· < 24) && ctxs.all (· < 64)
  event (if s.operatorLive && sigOk && bounded && s.mayMove src && s.mayMove dst && src != dst
      && s.ownsAll src Partition.clusters clusters && s.ownsAll src Partition.ranges ranges
      && s.ownsAll src Partition.ports ports && s.ownsAll src Partition.ctxs ctxs
      && ctxs.all (fun c => (s.ctx c).state == .free) then
      let s1 := match src with
        | some p => s.modPart p fun x =>
            { x with
              clusters := x.clusters.filter fun c => !clusters.contains c
              ranges := x.ranges.filter fun c => !ranges.contains c
              ports := x.ports.filter fun c => !ports.contains c
              ctxs := x.ctxs.filter fun c => !ctxs.contains c }
        | none => s
      match dst with
      | some p =>
        ctxs.foldl (fun s c => s.modCtx c fun x => { x with part := p }) (s1.modPart p fun x =>
          { x with
            clusters := addSorted x.clusters clusters
            ranges := addSorted x.ranges ranges
            ports := addSorted x.ports ports
            ctxs := addSorted x.ctxs ctxs
            job := x.job.map (s.seenPeers ports) })
      | none => s1
    else s)

/-- R74. The wipe of a partition's HBM ranges. -/
def wipeRanges (ranges : List Nat) (m : List Cell) : List Cell :=
  ranges.foldl (fun m r => cellsClear m (r * 2 ^ 30) ((r + 1) * 2 ^ 30)) m

/-- R74. The cores of the wiped clusters: nothing is left in their queues, mailboxes and accumulator banks. -/
def wipeCores (clusters : List Nat) (s : State) : State :=
  mapCores s fun i x => if clusters.contains (i / 4) then {} else x

/-- R73 steps 2 and 3. The contexts end without dumps, and the sessions with a party in the partition close. -/
def State.endPart (s : State) (n : Nat) : State :=
  let live := (s.ctxs.zipIdx.filter fun p => p.1.state == .active && p.1.part == n).map Prod.snd
  let s1 := live.foldl (fun s c => s.terminate c) s
  let ids := (s1.sessions.filter fun x => !x.closed && x.parties.any fun p => p.dev == s1.boot.devId && p.part == n).map Session.id
  ids.foldl (fun s id => s.closeSession id) s1

/-- R73. A partition reset, to an owner that it has or is given: contexts, sessions, fabric, wipe, VF; then ACTIVE if it
has an owner, with PART_BADSUB 0 (R67) and the global pass 0 (R95), and FREE otherwise. -/
def State.resetPart (s : State) (n : Nat) (owner : Option (BitVec 384)) : State :=
  let p := s.part n
  let s1 := (s.modPart n fun x => { x with state := .resetting }).endPart n
  let s2 := p.ports.foldl (fun s i => s.modPort i Port.abandon) (s1.modFabric fun f => f.resetPart n p)
  let s3 := wipeCores p.clusters { s2 with mem := wipeRanges p.ranges s2.mem }
  s3.modPart n fun x =>
    { x with
      vf := .unlocked, stream := 0, grants := [], incoming := [], reservations := [], skipped := none, owner := owner
      state := if owner.isSome then .active else .free
      pass := if owner.isSome then 0 else x.pass
      badSub := if owner.isSome then 0 else x.badSub }

/-- PARTITION_RESET, R73. -/
def execPartitionReset (part : Nat) (s : State) : Host.Outcome State Fault Refusal :=
  event (if s.boot.status == .ready && decide (part < 16) then s.resetPart part (s.part part).owner else s)

/-- OWNER_CHANGE, R72, R73. A request signed with the device operator key: a reset followed by the new owner identity. -/
def execOwnerChange (part : Nat) (req : OwnerRequest) (s : State) : Host.Outcome State Fault Refusal :=
  event (if s.operatorLive && req.sigOk && decide (part < 16) then s.resetPart part req.owner else s)

/-! ## Contexts (R71, R75, R76) -/

/-- R71. The accepted set that the first activation latches. -/
def State.latched (s : State) : DWord := s.accepted.getD (s.featAck.getD 0 0 &&& offered)

/-- R130, R180. A mapping that the description of a context may hold: whole pages of its size, aligned to it on both
sides, in the partition's ranges and outside the range of scratch apertures. -/
def mappingOk (ranges : List Nat) (m : Mapping) : Bool :=
  let u := m.size.units
  decide (0 < m.pages) && m.vpage % u == 0 && m.ppage % u == 0 && m.pages % u == 0 && ((List.range (m.pages / 16384 + 2)).all fun i =>
    let page := m.ppage + min (16384 * i) (m.pages - 1)
    ranges.contains (page / 16384))
    && (decide (m.vpage + m.pages ≤ 0xFF00000000) || decide (0x10000000000 ≤ m.vpage))

/-- R75, R76, R145, R188. What an activation request must say. -/
def State.activationOk (s : State) (part ctx : Nat) (cores : List Nat) (codeBase : DWord) (codeSize : Nat)
    (maps : List Mapping) : Bool :=
  let p := s.part part
  s.boot.status == .ready && p.state == .active && p.ctxs.contains ctx && (s.ctx ctx).state == .free
    && (s.latched).getLsbD 0 && cores.all (fun c => p.clusters.contains (c / 4)) && codeBase.toNat % 65536 == 0
    && codeSize % 65536 == 0 && decide (65536 ≤ codeSize) && decide (codeSize ≤ 2 ^ 32) && maps.all (mappingOk p.ranges)

/-- CONTEXT_ACTIVATE, R75. A request of the partition's owner makes a context ACTIVE; without feature 0 it is refused
(R71). Its count of discarded submit words starts at 0, and its queues at their reset values.
Log entry 94 (DESIGN CHOICE). -/
def execContextActivate (part ctx : Nat) (seed : DWord) (cores : List Nat) (codeBase : DWord) (codeSize : Nat)
    (dumpBase : DWord) (dumpSize : Nat) (log : DWord) (maps : List Mapping) (sigOk : Bool) (s : State) :
    Host.Outcome State Fault Refusal :=
  event (if sigOk && s.activationOk part ctx cores codeBase codeSize maps then
      { s with accepted := some s.latched }.modCtx ctx fun _ =>
        { state := .active, part := part, seed := seed, cores := addSorted [] cores, codeBase := codeBase, codeSize := codeSize,
          dumpBase := dumpBase, dumpSize := dumpSize, logBase := log, maps := maps, activeAt := s.time }
    else s)

/-- CONTEXT_FREE, R75. A TERMINATED context returns to FREE; its counters and final statement go (R79). -/
def execContextFree (ctx : Nat) (sigOk : Bool) (s : State) : Host.Outcome State Fault Refusal :=
  event (if sigOk && (s.ctx ctx).state == .terminated then s.modCtx ctx fun c => { part := c.part } else s)

/-! ## Stile sessions (R77, R78, R366) -/

/-- R77. What the system cores check of a party of this device. -/
def State.partyOk (s : State) (p : Party) : Bool :=
  let c := s.ctx p.ctx
  p.dev != s.boot.devId || (c.state == .active && c.part == p.part && s.feature 4 && c.session.isNone)

/-- R77. What the session body must say. -/
def sessionOk (ring : Nat) (parties : List Party) (policy : List Nat) (consents : List Bool) : Bool :=
  let n := parties.length
  decide (2 ≤ n) && decide (n ≤ 4) && (ring == 16 || ring == 32 || ring == 64) && consents.length == n && consents.all id
    && policy.all (· < n) && (parties.map fun p => (p.dev, p.part)).Nodup

/-- Whether a session id is in use: by a session that has not closed, or by answers that a party has not taken yet.
Log entry 71 (DEDUCED). -/
def State.sessionHeld (s : State) (id : Nat) : Bool := s.sessions.any fun x => x.id == id && (!x.closed || !x.results.isEmpty)

/-- STILE_SESSION_OPEN, R77. With every consent and check, the session is made; it opens when every party of this device
has named its hamper (R366). `remoteOk` says that the link paths to other devices exist beyond this device's own ports. A
deadline of 0
stands for the default of 1 ms (R371). -/
def execStileSessionOpen (id ring deadline : Nat) (parties : List Party) (policy : List Nat) (consents : List Bool)
    (remoteOk : Bool) (s : State) : Host.Outcome State Fault Refusal :=
  event (if s.boot.status == .ready && sessionOk ring parties policy consents && parties.all s.partyOk
      && (remoteOk || parties.all fun p => p.dev == s.boot.devId) && s.pathOk parties
      && !s.sessionHeld id then
      { s with sessions := { id := id, ring := ring, deadline := if deadline = 0 then 1000000 else deadline, parties := parties,
                             policy := policy } :: s.sessions.filter fun x => x.id != id }
    else s)

/-- R366, R367, Table 22.2. The header of a hamper, checked against the session. -/
def hamperOk (ring : Nat) (h : List Byte) : Bool :=
  let at' := fun (o n : Nat) => bytesNat ((h.drop o).take n)
  h.length == 256 && at' 0 2 == 1 && at' 2 1 == ring && decide (1 ≤ at' 3 1) && decide (at' 3 1 < ring) && at' 4 4 == 0
    && at' 16 16 == 0 && at' 192 64 == 0 && (ring != 64 || at' 72 4 == 0)
    && (List.range 5).all fun j => at' (32 + 32 * j) 8 % 64 == 0 && at' (48 + 32 * j) 16 == 0

/-- The bytes of a context's memory at a virtual address; none where a byte is not mapped. -/
def State.virtBytes (s : State) (c x n : Nat) : Option (List Byte) :=
  (List.range n).mapM fun i => ((s.ctx c).phys? (x + i)).map (cellsGet s.mem)

/-- R77. The session opens: CTX_PARTY and CTX_NPARTY of its contexts are set.
Log entry 55 (DEDUCED). -/
def State.openSession (s : State) (x : Session) : State :=
  let s1 := s.modSession x.id fun y => { y with opened := true }
  (x.parties.zipIdx.filter fun p => p.1.dev == s.boot.devId).foldl
    (fun s p => s.modCtx p.1.ctx fun c => { c with session := some x.id, party := p.2, nparty := x.parties.length }) s1

/-- HAMPER_REGION_NAME, R366. A party names its hamper; a header that breaks the session's terms keeps the session from
opening. -/
def execHamperRegionName (id party : Nat) (address : DWord) (s : State) : Host.Outcome State Fault Refusal :=
  event (match s.session? id with
    | none => s
    | some x =>
      match x.parties[party]? with
      | none => s
      | some p =>
        if x.opened || x.closed || p.dev != s.boot.devId then s
        else
          let good := decide (address.toNat % 256 = 0) && (match s.virtBytes p.ctx address.toNat 256 with
            | some h => hamperOk x.ring h
            | none => false)
          if !good || !(x.parties.all s.partyOk) then { s with sessions := s.sessions.filter fun y => y.id != id }
          else
            let y := { x with hampers := (party, address) :: x.hampers.filter fun h => h.1 != party }
            let s1 := s.modSession id fun _ => y
            if y.parties.zipIdx.all fun q => q.1.dev != s.boot.devId || y.hampers.any fun h => h.1 == q.2 then s1.openSession y
            else s1)

/-- CONSENT_WITHDRAW, R78. An owner withdraws consent, and the session closes. -/
def execConsentWithdraw (id party : Nat) (s : State) : Host.Outcome State Fault Refusal :=
  event (match s.session? id with
    | some x => if !x.closed && decide (party < x.parties.length) then s.closeSession id else s
    | none => s)

/-! ## Remote grants (R331) -/

/-- REMOTE_GRANT, R331. The owner of a partition grants a peer rights to a virtual range; at most 16 grants. -/
def execRemoteGrant (part : Nat) (grant : Grant) (sigOk : Bool) (s : State) : Host.Outcome State Fault Refusal :=
  event (if sigOk && (s.part part).state == .active && decide ((s.part part).grants.length < 16)
      && decide (grant.base.toNat % 65536 = 0) && decide (grant.size % 65536 = 0) then
      s.modPart part fun p => { p with grants := p.grants ++ [grant] }
    else s)

/-- REMOTE_REVOKE, R331. A grant is removed. -/
def execRemoteRevoke (part n : Nat) (sigOk : Bool) (s : State) : Host.Outcome State Fault Refusal :=
  event (if sigOk then s.modPart part fun p => { p with grants := p.grants.eraseIdx n } else s)

/-! ## Debugging (R202, R315) -/

/-- DEBUG_BREAKPOINT_SET, R202. The host debugger sets a breakpoint of a context, up to eight. -/
def execDebugBreakpointSet (ctx : Nat) (pc lo hi : Word) (s : State) : Host.Outcome State Fault Refusal :=
  event (if (s.ctx ctx).state == .active && decide ((s.ctx ctx).breakpoints.length < 8) then
      s.modCtx ctx fun c => { c with breakpoints := c.breakpoints ++ [⟨pc, lo, hi⟩] }
    else s)

/-- TRACE_RING_ENABLE, R315. The host debugger enables a trace ring of a context, for `size` records. -/
def execTraceRingEnable (ctx size : Nat) (s : State) : Host.Outcome State Fault Refusal :=
  event (if (s.ctx ctx).state == .active then s.modCtx ctx fun c => { c with traceSize := some size, trace := [], traceLost := 0 } else s)

/-! ## Metering statements and jobs (R85 to R88) -/

def State.answer (s : State) (bs : List Byte) : State := s.modBoot fun b => { b with replies := .statement bs :: b.replies }

/-- METERING_STATEMENT_REQUEST, R85. A signed request of the partition owner or the device operator is answered with a
statement of its own; the final statement of a TERMINATED context stays held beside it. -/
def execMeteringStatementRequest (ctx : Nat) (nonce : BitVec 256) (sigOk : Bool) (s : State) :
    Host.Outcome State Fault Refusal :=
  event (if sigOk && (s.ctx ctx).state != .free then
      let r := s.statement ctx 0 nonce
      r.1.answer r.2
    else s)

/-- JOB_BEGIN, R87. The partition owner opens a job, where none is open. -/
def execJobBegin (part : Nat) (job : DWord) (sigOk : Bool) (s : State) : Host.Outcome State Fault Refusal :=
  event (if sigOk && (s.part part).state == .active && (s.part part).job.isNone then
      s.modPart part fun p => { p with job := some (s.seenPeers (s.part part).ports ⟨job, s.time, []⟩) }
    else s)

/-- JOB_END, R88. The job closes with its record. -/
def execJobEnd (part : Nat) (sigOk : Bool) (s : State) : Host.Outcome State Fault Refusal :=
  event (match (s.part part).job with
    | some j =>
      if sigOk then
        let r := s.jobRecord part 3 j
        (r.1.answer r.2).modPart part fun p => { p with job := none }
      else s
    | none => s)

/-- JOB_RECORD_REQUEST, R88. A record of the open job. -/
def execJobRecordRequest (part : Nat) (sigOk : Bool) (s : State) : Host.Outcome State Fault Refusal :=
  event (match (s.part part).job with
    | some j =>
      if sigOk then
        let r := s.jobRecord part 2 j
        r.1.answer r.2
      else s
    | none => s)

end Sys2Proof.Machine
end

