-- ==== Sys2Proof/Machine/Hold.lean ====
section
/-! DEFINITION. The hold of a group by a lane operation of its own (spec/07_execution_model.md Table 7.3 code 12,
spec/12_isa_lane_ops.md R260): the registers that a lane operation writes, and the (thread, register) pairs that the next
instruction reads. -/

namespace Sys2Proof.Machine

/-- A register field of a word, from a bit on (Tables 11.1 to 11.4). -/
def field6 (w lo : Nat) : Nat := w / 2 ^ lo % 64

/-- The four low bits of a 32-bit word, its class: A 1, X 3, I 5, M 7, B 9, E 11, S 13, W 15. -/
def wordClass (w : Nat) : Nat := w % 16

/-- The registers that a lane operation writes: none for an instruction of another class. -/
def laneWrites (i : Instr) : List Nat :=
  let w := (encodeWord i).1
  let op := w / 16 % 64
  let pair := op == 29 || op == 30 || op == 56 || (op == 54 && w / 2 ^ 22 % 16 == 9)
  if (encodeWord i).2 = 2 then regSpan (w / 32 % 32) 1
  else match wordClass w with
    | 1 | 5 => regSpan (field6 w 10) (if pair then 2 else 1)
    | 3 | 15 => regSpan (field6 w 10) 1
    | _ => []

/-- R218. The guard of an instruction: its register, and whether a thread acts where it is not 0 (SELT and SELF, R244). -/
def guardOf (w : Nat) : Option (Nat × Bool) :=
  match wordClass w with
  | 1 => if w / 16 % 64 = 24 then some (field6 w 22, true) else if w / 16 % 64 = 25 then some (field6 w 22, false) else none
  | 7 => if 11 ≤ w / 16 % 32 then some (field6 w 21, w / 2 ^ 27 % 2 == 0) else none
  | 9 => some (field6 w 7, w / 2 ^ 13 % 2 == 0)
  | _ => none

/-- An instruction whose registers are read in the lowest-L thread alone (R291, R323). -/
def readsOnce (w : Nat) : Bool :=
  let op := w / 16 % 64
  (wordClass w == 11 && decide (w / 16 % 32 < 25 ∨ w / 16 % 32 = 30))
    || (wordClass w == 13 && (op == 18 || op == 26 || op == 27 || op == 28 || op == 31))

/-- The registers that an A, I or W form reads in its thread beside its guard. -/
def laneReads (w : Nat) : List Nat :=
  let op := w / 16 % 64
  let a := field6 w 16
  let b := field6 w 22
  let d := field6 w 10
  let c := w / 2 ^ 22 % 16
  let upd := op == 6 || op == 24 || op == 25 || op == 34 || op == 43 || op == 44 || op == 48 || op == 51
  match wordClass w with
  | 1 =>
    (if op = 59 then [] else regSpan a (if op = 29 then 2 else 1)) ++ regSpan b (if op = 57 then 2 else 1)
      ++ regSpan d (if op = 30 ∨ op = 56 then 2 else if upd then 1 else 0)
  | 5 =>
    regSpan a (if op = 29 ∨ (op = 54 ∧ c = 9) then 2 else 1)
      ++ regSpan d (if op = 6 ∨ (op = 54 ∧ (c = 1 ∨ c = 10)) then 1 else 0)
  | _ => regSpan d (if w / 16 % 64 = 1 ∨ w / 16 % 64 = 2 then 1 else 0)

/-- The registers that an M form reads in its thread beside its guard. -/
def accessReads (w : Nat) : List Nat :=
  let op := w / 16 % 32
  let data := match op with
    | 14 | 18 | 27 | 31 => 2
    | 15 | 19 | 30 => 4
    | 29 => if w / 2 ^ 28 = 5 then 2 else 1
    | _ => if 11 ≤ op then 1 else 0
  regSpan (field6 w 15) (if 7 ≤ op ∧ op ≤ 10 ∨ 16 ≤ op ∧ op ≤ 19 then 1 else 2) ++ regSpan (field6 w 9) data

/-- The registers that an E form reads: w, s, c, of some sizes. -/
def engineReads (w : Nat) : List Nat :=
  let op := w / 16 % 32
  let z := if w / 2 ^ 27 % 4 = 2 then 2 else 1
  let spans : Nat × Nat × Nat :=
    if op ≤ 7 then (1, 1, 4)
    else if op = 8 ∨ op = 10 ∨ op = 11 then (1, 2, 2)
    else if op = 9 then (1, 16, 2)
    else if op = 12 then (0, 0, 0)
    else if op = 14 ∨ op = 15 then (1, 1, 4)
    else if op = 23 then (1, 2, 1)
    else if op = 22 then (1, 0, 1)
    else if 25 ≤ op ∧ op ≤ 29 then (0, z, if op = 25 then z else 0)
    else (1, 1, 1)
  regSpan (field6 w 21) spans.1 ++ regSpan (field6 w 9) spans.2.1 ++ regSpan (field6 w 15) spans.2.2

/-- The registers that an S form reads. -/
def systemReads (w : Nat) : List Nat :=
  let a := field6 w 16
  let d := field6 w 10
  match w / 16 % 64 with
  | 6 => regSpan a 2 ++ regSpan d 1
  | 7 | 8 | 35 => regSpan a 1 ++ regSpan d 1
  | 10 | 18 | 22 | 24 | 26 | 28 | 31 | 33 | 34 | 36 => regSpan a 1
  | 11 | 30 => regSpan a 2
  | 27 => regSpan a 2 ++ regSpan d 1
  | _ => []

/-- The registers that an instruction reads in a thread that acts, beside its guard and what it reads in other threads. -/
def instrReads (i : Instr) : List Nat :=
  let w := (encodeWord i).1
  if (encodeWord i).2 = 2 then
    (if w / 2 % 16 = 15 then [] else regSpan (w / 1024 % 32) 1)
      ++ (if w / 2 % 16 = 0 ∨ w / 2 % 16 = 15 then [] else regSpan (w / 32 % 32) 1)
  else match wordClass w with
    | 3 => if w / 16 % 64 = 0 then [] else regSpan (field6 w 10) 1
    | 7 => accessReads w
    | 9 => if w / 16 % 8 = 2 then regSpan (w / 2 ^ 14 % 64) 1 else if w / 16 % 8 = 3 then [59] else []
    | 11 => engineReads w
    | 13 => systemReads w
    | _ => laneReads w

/-- The (thread, register) pairs that an instruction reads in other threads: those of a permutation, and of LGET. -/
def crossReads (gr : Group) (i : Instr) (t : Nat) : List (Nat × Nat) :=
  let w := (encodeWord i).1
  let a := field6 w 16
  match wordClass w with
  | 3 => permReads gr.w (w / 2 ^ 22 % 16) (w / 2 ^ 26) a (field6 w 10) t
  | 1 => if w / 16 % 64 = 59 then [(((gr.thread t).reg (field6 w 22)).toNat % 64 % gr.w, a)] else []
  | _ => []

/-- Every (thread, register) pair that an instruction reads on an issue set. -/
def readPairs (gr : Group) (i : Instr) (set : List Nat) : List (Nat × Nat) :=
  let w := (encodeWord i).1
  let acts := if readsOnce w then set.take 1 else match guardOf w with
    | some g => set.filter fun t => ((gr.thread t).reg g.1 != 0) == g.2
    | none => set
  let guards := match guardOf w with
    | some g => set.flatMap fun t => inThread t (regSpan g.1 1)
    | none => []
  guards ++ acts.flatMap fun t => inThread t (instrReads i) ++ crossReads gr i t

/-- R260. A lane operation that issues on a set is noted for the 16 cycles that it may last (R104). -/
def Group.noteRun (cycle : Nat) (set : List Nat) (i : Instr) (g : Group) : Group :=
  let old := g.runs.filter fun r => decide (cycle < r.cycle + 16)
  { g with runs := if laneWrites i = [] then old else ⟨cycle, set, laneWrites i⟩ :: old }

/-- R118, R260. An instruction reads a result of a lane operation of the group that may not have finished. -/
def Group.mayWait (cycle : Nat) (set : List Nat) (i : Instr) (g : Group) : Bool :=
  g.runs.any fun r => decide (cycle < r.cycle + 16) &&
    (readPairs g i set).any fun p => r.set.contains p.1 && r.regs.contains p.2

end Sys2Proof.Machine
end

