-- ==== Sys2Proof/Machine/Time.lean ====
section
/-! DEFINITION. Time between two steps: the device time (spec/01_package.md R9), the cycles that waits have lasted
(spec/10_traps_reliability.md R189, spec/15_isa_control_sync.md R308), the performance counters
(spec/07_execution_model.md R118, spec/15_isa_control_sync.md R316) and the intervals of the launch time record
(spec/10_traps_reliability.md R200). -/

namespace Sys2Proof.Machine

/-! ## Issue state codes (R118) -/

/-- The threads whose instruction suspends fetch. -/
def Fetch.threads : Fetch → List Nat
  | .page _ who _ => who
  | .engine _ _ ts | .fence _ _ ts | .batch _ _ ts => ts
  | .share o => o.threads

/-- Table 7.3. The code of a group in a cycle in which it does not issue, the lowest that applies; `held` where a resource
hold applies to its next instruction. -/
def Group.issueCode (g : Group) (held : Bool) : Nat :=
  if g.stop then 1
  else if g.fetch.isSome then 2
  else if g.anyReady then (if held then 12 else 13)
  else if g.allExited then 14
  else ((g.threads.filterMap Thread.wait?).map Wait.code).foldl min 11

/-- The counter of a code raised by some cycles. -/
def Group.tally (g : Group) (code n : Nat) : Group := { g with perf := g.perf.modify code (· + n) }

/-! ## The passing of time -/

/-- R189, R308. Cycles in which a group is resident and not STOPPED lengthen the waits of its threads. -/
def Group.wait (n : Nat) (g : Group) : Group :=
  { g with threads := g.threads.map fun th => if th.isBlocked then { th with waited := th.waited + n } else th }

/-- A resident group when n cycles end: its counters and its waits. The first of the cycles has code 0 where the group
issued in it, picked or merged (R118). -/
def Group.pass (n : Nat) (held : Bool) (g : Group) : Group :=
  if n = 0 then g
  else
    let code := g.issueCode held
    let g1 := if g.issuedNow then (g.tally 0 1).tally code (n - 1) else g.tally code n
    let g2 := { g1 with issuedNow := false }
    if g.stop then g2 else g2.wait n

/-- R200. A thread of the node waits on page-fault service. -/
def State.inFault (s : State) (n : Node) : Bool :=
  s.groups.any fun g => g.key.ctx == n.ctx && g.key.node == n.ref && (match g.fetch with
    | some (.page _ _ _) => true
    | _ => false)

/-- R200. An engine command of the node waits on a link transfer. -/
def State.inLink (s : State) (n : Node) : Bool :=
  s.cores.any fun x => x.queue.any fun q =>
    q.team.ctx == n.ctx && q.team.node == n.ref && (q.op == 5 || q.op == 6) && q.running && !q.acked

/-- R200. A team of the node is dispatched, or the node is COMMITTING. -/
def State.inExec (s : State) (n : Node) : Bool :=
  n.state == .committing || s.teams.any fun t => t.key.ctx == n.ctx && t.key.node == n.ref && !t.saved

/-- R200. Nanoseconds counted in the first interval that matches. -/
def State.passNode (s : State) (dt : Nat) (n : Node) : Node :=
  if n.state == .done || n.state == .refused then n
  else if s.inFault n then { n with faultNs := n.faultNs + dt }
  else if s.inLink n then { n with ioNs := n.ioNs + dt }
  else if s.inExec n then { n with execNs := n.execNs + dt }
  else n

/-- R189, R140, R308. The cycles that may pass before a thread's wait reaches its limit. -/
def State.waitLeft (s : State) (g : Group) (t : Nat) : Option Nat :=
  match (g.thread t).wait? with
  | some (.nap n) => some (n - (g.thread t).waited)
  | _ => s.limitLeft g t

/-- The least of some numbers, if there is one. -/
def leastOf (l : List Nat) : Option Nat := leastBy? id l

/-- R104. The cycles that may pass before the yield deadline of a team that is not saved. -/
def State.yieldLeft (s : State) (t : Team) : Option Nat :=
  if t.saved || t.late then none else t.evicting.map fun d => d - s.cycle

/-- The cycles that may pass before a wait of some thread on a core reaches its limit, at which it ends or traps, or a
yield deadline comes. -/
def State.timeLeft (s : State) : Option Nat :=
  leastOf ((s.groups.flatMap fun g =>
    if s.onCore g && !g.stop then (List.range g.threads.length).filterMap (s.waitLeft g) else [])
    ++ s.teams.filterMap s.yieldLeft)

/-- The last nanosecond of a cycle (R9). -/
def cycleEnd (c : Nat) : Nat := (10 * (c + 1) - 1) / 7

/-- The device time after the time that Config leaves free has passed from a time, but for no more than some cycles. -/
def timeAfter (time cycle dt : Nat) (most : Option Nat) : Nat :=
  match most with
  | some n => min (time + dt) (cycleEnd (cycle + n))
  | none => time + dt

/-- The time that follows a step: the step's number advances, and with it the time by what Config leaves free, but for
`most` cycles at most. `held` tells the groups whose next instruction meets a resource hold.
Log entry 2 (DESIGN CHOICE). -/
def State.pass (s : State) (most : Option Nat) (held : Group → Bool) : State :=
  let t := timeAfter s.time s.cycle (Config.elapsed s.tick) most
  let s1 := { s with tick := s.tick + 1, time := t }
  let n := s1.cycle - s.cycle
  { s1 with
    nodes := s.nodes.map (s.passNode (t - s.time))
    groups := s.groups.map fun g => if s.onCore g then g.pass n (held g) else g }

end Sys2Proof.Machine
end

