-- ==== Sys2Proof/Machine/Issue.lean ====
section
/-! DEFINITION. How a step chooses what runs: the pick and the merge of a half (spec/07_execution_model.md R113 to R116,
R125), the fetch (spec/11_isa_encoding.md R203, R204, spec/04_host_and_partitions.md R76), breakpoints
(spec/10_traps_reliability.md R202) and the shadow pass (spec/07_execution_model.md R119). -/

namespace Sys2Proof.Machine

/-! ## Fetch -/

/-- What a fetch finds: an instruction, a word that is none, a trap, or a page that is being served. -/
inductive Fetched where
  | instr (i : Instr)
  | bad (word : Word)
  | fault (code : BitVec 8) (detail : Word)
  | page (vpage : Nat)
deriving DecidableEq, Repr

/-- The byte at an offset of the code window, or what stops its fetch.
Log entry 23 (DESIGN CHOICE). -/
def State.fetchByte (s : State) (c off : Nat) : Except Fetched Byte :=
  let x := s.ctx c
  if x.codeSize ≤ off then .error (.fault tPerm (BitVec.ofNat 32 off))
  else
    match checkMapped x (x.codeBase.toNat + off) false none with
    | .ok (.glob p _ _) => .ok (cellsGet s.mem p)
    | .fault k d => .error (.fault k d)
    | .page v => .error (.page v)
    | .ok (.scr _) => .error (.fault tPerm (BitVec.ofNat 32 off))

/-- n bytes at an offset of the code window, the first that stops the fetch ending it. -/
def State.fetchBytes (s : State) (c off : Nat) : Nat → Except Fetched (List Byte)
  | 0 => .ok []
  | n + 1 =>
    match s.fetchByte c off with
    | .error e => .error e
    | .ok b => match s.fetchBytes c (off + 1) n with
      | .error e => .error e
      | .ok bs => .ok (b :: bs)

/-- Bytes that are an instruction, or the word that is none. -/
def fetchDecode (bs : List Byte) : Fetched :=
  match decode bs with
  | .ok r => .instr r.1
  | .error _ => .bad (BitVec.ofNat 32 (bytesNat bs))

/-- R203, R204. The instruction at a PC of a context's code window; past the last PC there is none. -/
def State.fetchAt (s : State) (c : Nat) (pc : Word) : Fetched :=
  if pc.getLsbD 0 then .fault tPerm (shownPc pc)
  else
    match s.fetchBytes c pc.toNat 2 with
    | .error e => e
    | .ok bs =>
      if bytesNat bs % 2 = 0 then fetchDecode bs
      else match s.fetchBytes c (pc.toNat + 2) 2 with
        | .error e => e
        | .ok rest => fetchDecode (bs ++ rest)

/-! ## Issue sets (R114, R116) -/

/-- R116. The issue at which the count returns to 0 is a sweep. -/
def Group.sweeping (g : Group) : Bool := g.issues == 4095

/-- Order of R116 among READY threads: the longest without issuing, the highest PC, the lowest L. -/
def Group.sweepKey (g : Group) (t : Nat) : Nat :=
  ((g.thread t).issued * 2 ^ 32 + (2 ^ 32 - 1 - (g.thread t).pc.toNat)) * 64 + t

/-- The READY threads of a group. -/
def Group.ready (g : Group) : List Nat := (List.range g.threads.length).filter fun t => (g.thread t).isReady

/-- The PC of a group's next issue. -/
def Group.issuePc (g : Group) : Option Word :=
  (leastBy? (fun t => if g.sweeping then g.sweepKey t else (g.thread t).pc.toNat) g.ready).map fun t => (g.thread t).pc

/-- R114, R116. The issue set of a group's next issue, in ascending L. -/
def Group.issueSet (g : Group) : List Nat :=
  match g.issuePc with
  | some pc => g.readyAt pc
  | none => []

/-! ## The pick (R113, R125) -/

/-- The half of a core on which a group issues; 2 is the control core. -/
def Group.half (g : Group) : Nat := if g.key.kind == .lanes then g.base / 64 else 2

/-- Whether a group is READY: it is resident, not stopped, its fetch is not suspended and a thread is READY; a control
thread only while no handler runs on its core. -/
def State.canIssue (s : State) (g : Group) : Bool :=
  s.active g && g.fetch.isNone && g.anyReady &&
    (g.key.kind != .control ||
      !((s.groups.any fun h => h.key.kind == .handler && h.core == g.core)
        || (s.teams.any fun t => t.key == gkeyTeam g.key && t.controlWaits.isSome)))

/-! ### Resource holds (Table 7.3, code 12) -/

/-- The instruction at which a group issues next, where its fetch gives one. -/
def State.nextInstr (s : State) (g : Group) : Option Instr :=
  match g.issuePc with
  | some pc => match s.fetchAt g.key.ctx pc with
    | .instr i => some i
    | _ => none
  | none => none

/-- An instruction that enters the engine command queue. -/
def takesQueue (i : Instr) : Bool :=
  let w := (encodeWord i).1
  let op := w / 16 % 32
  w % 16 == 11 && (op == 30 || (decide (op ≤ 24) && op != 12))

/-- The group's next instruction finds the engine command queue of its core full. -/
def State.queueHeld (s : State) (g : Group) : Bool := queueFull (s.core g.core) && (s.nextInstr g).any takesQueue

/-- R138. The loads, atomics and stores of a core that are outstanding. -/
def State.requests (s : State) (core : Nat) : Nat :=
  (s.groups.map fun g => if g.core == core then
    (g.threads.map fun th => (th.loads.filter fun r => r.counts && !r.arrived).length + th.stores).sum else 0).sum

/-- A load, a store, an atomic or a DRED. -/
def isRequest (i : Instr) : Bool := (encodeWord i).1 % 16 == 7

/-- The core's 2,048 outstanding requests are in use, and the group's next instruction makes another. -/
def State.requestHeld (s : State) (g : Group) : Bool := decide (2048 ≤ s.requests g.core) && (s.nextInstr g).any isRequest

/-- R262. The cycles that an SFU takes for one thread of an instruction; 0 for one that uses none. -/
def sfuCycles (i : Instr) : Nat :=
  match i with
  | .sfu f _ _ _ => if f = 0 then 1 else 2
  | .smxacc .. => 2
  | .smxnorm .. => 1
  | .redg c _ _ => if c = 9 then 1 else 0
  | _ => 0

/-- The last issue slot of a half. -/
def State.slot? (s : State) (core half : Nat) : Option IssueSlot :=
  s.slots.find? fun x => x.core == core && x.half == half

/-- R262. The half's SFUs are taken, and the group's next instruction uses them. -/
def State.sfuHeld (s : State) (g : Group) : Bool :=
  match s.slot? g.core g.half with
  | some x => decide (s.cycle < x.sfuFree) && (s.nextInstr g).any fun i => sfuCycles i != 0
  | none => false

/-- R260. The group's next instruction may have to wait for a result of a lane operation of its own, which lasts at most 16
cycles (R104). -/
def State.laneHeld (s : State) (g : Group) : Bool := (s.nextInstr g).any fun i => g.mayWait s.cycle g.issueSet i

/-- The holds that the state decides. -/
def State.resourceHeld (s : State) (g : Group) : Bool := s.queueHeld g || s.requestHeld g || s.sfuHeld g

/-- Whether a group meets a resource hold at a pick, at which `held` names the groups that a lane operation of their own
holds.
Log entry 19 (DESIGN CHOICE). -/
def State.heldAt (s : State) (held : List Nat) (p : Group × Nat) : Bool :=
  s.resourceHeld p.1 || (held.contains p.2 && s.laneHeld p.1)

/-- The groups of a half that are READY. -/
def State.readyOn (s : State) (core half : Nat) : List (Group × Nat) :=
  s.groups.zipIdx.filter fun p => p.1.core == core && p.1.half == half && s.canIssue p.1

/-- R113. The issuable groups of a half. -/
def State.issuable (s : State) (core half : Nat) (held : List Nat) : List (Group × Nat) :=
  (s.readyOn core half).filter fun p => !s.heldAt held p

/-- Order of R113: the earliest last issue, the lowest window base, the lowest slot; of control threads the lowest team. -/
def pickKey (p : Group × Nat) : Nat :=
  if p.1.key.kind == .lanes then (p.1.lastIssue * 128 + p.1.base) * 16 + p.1.slot
  else p.1.lastIssue * 2 ^ 20 + p.1.key.team

/-- R113. A half picks at most once in a cycle.
Log entry 20 (DEDUCED). -/
def State.slotOpen (s : State) (core half : Nat) : Bool :=
  match s.slot? core half with
  | some x => decide (x.cycle < s.cycle)
  | none => true

/-! ### Merging (R115) -/

/-- Windows without a common lane. -/
def disjoint (a b : Nat × Nat) : Bool := decide (a.1 + a.2 ≤ b.1) || decide (b.1 + b.2 ≤ a.1)

/-- R115. Nothing merges with a sweep, with an E-form or an S-form instruction, or on a control core. -/
def closedSlot (g : Group) (f : Fetched) : Bool :=
  g.sweeping || g.half == 2 || (match f with
    | .instr i => (encodeWord i).1 % 16 == 11 || (encodeWord i).1 % 16 == 13
    | .bad w => w.toNat % 16 == 11 || w.toNat % 16 == 13
    | _ => false)

/-- R115. Whether a group merges with a picked one, beside the groups merged already. -/
def mergesWith (first : Group) (done : List (Group × Nat)) (g : Group) : Bool :=
  !g.sweeping && g.key.ctx == first.key.ctx && g.key.node == first.key.node && g.issuePc == first.issuePc
    && done.all fun p => disjoint (p.1.base, p.1.w) (g.base, g.w)

/-- R115. The groups that merge, of the candidates in the order of R113. -/
def mergeAll (first : Group) : List (Group × Nat) → List (Group × Nat) → List (Group × Nat)
  | done, [] => done
  | done, p :: ps => if mergesWith first done p.1 then mergeAll first (done ++ [p]) ps else mergeAll first done ps

/-- The lowest L of a group's issue set. -/
def Group.issueL (g : Group) : Nat := (g.l (g.issueSet.headD 0)).toNat

/-- R113, R115. The members of a half's issue in a cycle, in ascending order of their lowest L; the picked one is told
apart. -/
def State.members (s : State) (core half : Nat) (held : List Nat) (upsets : List (Nat × Upset)) : List Member :=
  match sortBy pickKey (s.issuable core half held) with
  | [] => []
  | p :: ps =>
    let f := match p.1.issuePc with
      | some pc => s.fetchAt p.1.key.ctx pc
      | none => .bad 0
    let all := if closedSlot p.1 f then [p] else mergeAll p.1 [p] ps
    (sortBy (fun (q : Group × Nat) => q.1.issueL) all).map fun q =>
      { group := q.1.key, set := q.1.issueSet, picked := q.2 == p.2
        upset := (upsets.find? fun u => u.1 == q.2).map Prod.snd }

/-- R262. The cycle from which a half's SFUs are free after an issue: an SFU takes the threads of its four lanes one after
another. -/
def State.sfuFreeAfter (s : State) (ms : List Member) : Nat :=
  let lanes := ms.flatMap fun m => match s.groups.find? fun g => g.key == m.group with
    | some g =>
      let n := ((s.nextInstr g).map sfuCycles).getD 0
      m.set.map fun t => ((g.base + t) / 4, n)
    | none => []
  s.cycle + (lanes.map fun p => ((lanes.filter fun q => q.1 == p.1).map Prod.snd).sum).foldl max 0

/-- R113. The slot of a half in the present cycle, with the members that issue in it. -/
def State.openSlot (s : State) (core half : Nat) (held : List Nat) (ms : List Member) : State :=
  let free := ((s.slot? core half).map IssueSlot.sfuFree).getD 0
  let x : IssueSlot :=
    { core := core, half := half, cycle := s.cycle
      held := ((s.readyOn core half).filter (s.heldAt held)).map fun p => p.1.key
      sfuFree := max free (s.sfuFreeAfter ms) }
  { s with slots := x :: s.slots.filter (fun y => !(y.core == core && y.half == half)), merging := ms }

/-! ## The issue -/

/-- R113, R116, R169, R316. What an issue counts: the group's issues, its last-issue cycle, its threads' last issue, and what
a sample of the issue names.
Log entry 68 (DEDUCED). -/
def Group.count (cycle : Nat) (picked : Bool) (set : List Nat) (g : Group) : Group :=
  { (g.tally 15 1).tally 16 (if picked then 1 else 0) with
    issues := (g.issues + 1) % 4096
    lastIssue := cycle
    issuedNow := true
    issuedBy := some (set.headD 0, (g.thread (set.headD 0)).pc)
    lowered := g.lowered.filter fun t => !set.contains t
    threads := g.threads.mapIdx fun t th => if set.contains t then { th with issued := cycle } else th }

/-- R202. Whether a breakpoint stops a thread at a PC. -/
def Breakpoint.stops (g : Group) (pc : Word) (t : Nat) (b : Breakpoint) : Bool :=
  b.pc == pc && decide (b.lo ≤ g.l t) && decide (g.l t ≤ b.hi) && !(g.thread t).skip.contains b

/-- R202. The lowest thread of an issue set that a breakpoint stops, and the breakpoint. -/
def State.breakAt (s : State) (g : Group) (pc : Word) (set : List Nat) : Option (Nat × Breakpoint) :=
  set.findSome? fun t => ((s.ctx g.key.ctx).breakpoints.find? (Breakpoint.stops g pc t)).map fun b => (t, b)

/-- R202. An issue set that a breakpoint stops before it issues; the breakpoint does not stop its re-issue. -/
def State.takeBreak (s : State) (g : Nat) (set : List Nat) (x : Nat × Breakpoint) : State :=
  set.foldl (fun s t => s.modThread g t fun th => { th with skip := th.skip ++ [x.2] }) s |>.takeTrap g set x.1 tBreak 1

/-- What is left of a step: an instruction to execute, or a state that is done. -/
inductive StepPlan where
  | run (i : Instr) (s : State)
  | done (s : State)
deriving DecidableEq, Repr

/-- R193. WAITW and SWAIT deliver a word that the thread waits for. -/
def waitsWord (i : Instr) : Bool :=
  match i with
  | .waitw _ _ | .swait _ _ => true
  | _ => false

/-- R119, R193. An issue under an upset: a first mismatch replays, a second is a machine check with source 1; the word that a
thread waits for is poisoned.
Log entry 102 (DESIGN CHOICE). -/
def State.underUpset (s : State) (i : Instr) (g : Nat) (set lowered : List Nat) (u : Option Upset) : StepPlan :=
  match u with
  | none => .run i { s with cur := some ⟨g, set, lowered⟩ }
  | some .shadowOnce => .run i { s.modGroup g (fun x => x.tally 17 1) with cur := some ⟨g, set, lowered⟩ }
  | some (.poisoned t) =>
    let taint := fun (th : Thread) => { th with tainted := true }
    .run i { (if waitsWord i && set.contains t then s.modThread g t taint else s) with cur := some ⟨g, set, lowered⟩ }
  | some (.shadowTwice t) => .done (s.machineCheck g (if set.contains t then t else set.headD 0) 1)

/-- The issue of a member. -/
def State.issueGroup (s : State) (g : Nat) (gr : Group) (set : List Nat) (picked : Bool) (u : Option Upset) : StepPlan :=
  let pc := (gr.thread (set.headD 0)).pc
  match s.breakAt gr pc set with
  | some x => .done (s.takeBreak g set x)
  | none =>
    let s1 := s.modGroup g (Group.count s.cycle picked set)
    match s.fetchAt gr.key.ctx pc with
    | .instr i => (s1.modGroup g (Group.noteRun s.cycle set i)).underUpset i g set (gr.lowered.filter fun t => set.contains t) u
    | .bad w => .done (s1.takeTrap g set (set.headD 0) tIllegalOp w)
    | .fault k d => .done (s.takeTrap g set (set.headD 0) k d)
    | .page v => .done (s.modGroup g fun x => { x with fetch := some (.page v set (set.headD 0)) })

/-- R115. The next member of an issue: nothing where an earlier one has stopped or removed it. -/
def State.issueMember (s : State) (m : Member) (rest : List Member) : StepPlan :=
  let s1 := { s with merging := rest }
  match s1.groupIdx? m.group with
  | none => .done s1
  | some i => match s1.groups[i]? with
    | none => .done s1
    | some gr =>
      if s1.canIssue gr && !m.set.isEmpty && m.set.all fun t => (gr.thread t).isReady then s1.issueGroup i gr m.set m.picked m.upset
      else .done s1

/-- R111. A waiting thread retires the instruction that it waits in: the threads for which it does so together. -/
def State.retireDue (s : State) (x : Nat × Group × Nat) (i : Instr) : StepPlan :=
  let mine := match (x.2.1.thread x.2.2).state with
    | .blocked (.owner y) => if y.whole.isEmpty then [x.2.2] else y.whole.filter fun t => (x.2.1.thread t).state == ThreadState.blocked (.owner y)
    | _ => [x.2.2]
  let free := fun (th : Thread) => { th with state := ThreadState.ready, waited := 0, owed := 0 }
  let s1 := s.modGroup x.1 (Group.noteRun s.cycle mine i)
  .run i { mine.foldl (fun (s : State) t => s.modThread x.1 t free) s1 with cur := some ⟨x.1, mine, []⟩ }

/-- The issue slot of a half in the present cycle, if it has not been used. -/
def State.issue (s : State) (core half : Nat) (held : List Nat) (upsets : List (Nat × Upset)) : StepPlan :=
  if s.slotOpen core half then
    let ms := s.members core half held upsets
    let s1 := s.openSlot core half held ms
    match ms with
    | [] => .done s1
    | m :: rest => s1.issueMember m rest
  else .done s

/-- What a step does: boot ROM starts on power-on (R17); the members of an issue issue back to back (R115), and an
instruction whose wait has ended retires (R111), before anything else; then the head of the script decides, or the free
choice of Config. An event is a row without an encoding; only an issue runs an encoded instruction.
Log entry 40 (DESIGN CHOICE). -/
def State.plan (s : State) : StepPlan :=
  if s.boot.status == .off then .run .deviceReset s
  else
    match s.merging with
    | m :: rest => s.issueMember m rest
    | [] =>
      match leastBy? wakeOrder s.dueThreads with
      | some x => match s.dueInstr x.2.1 x.2.2 with
        | some i => s.retireDue x i
        | none => .done s
      | none =>
        let c := s.script.headD (Config.choose s.tick)
        let s1 := { s with script := s.script.drop 1 }
        match c with
        | .event i => if (encodeWord i).2 = 0 then .run i s1 else .done s1
        | .issue core half held upsets => s1.issue core half held upsets
        | .idle => .done s1

/-! ## What follows a step -/

/-- A group of a half that could still issue in the present cycle. -/
def State.mustPick (s : State) (g : Group) : Bool := s.canIssue g && s.slotOpen g.core g.half && !s.resourceHeld g

/-- R113. The cycles that may pass after a step: none while a half has not picked, one while a group can issue. -/
def State.pickLeft (s : State) : Option Nat :=
  if s.groups.any s.mustPick then some 0 else if s.groups.any s.canIssue then some 1 else none

/-- Whether a resource hold applies to a group (Table 7.3, code 12). -/
def State.heldNow (s : State) (g : Group) : Bool :=
  s.resourceHeld g || (match s.slot? g.core g.half with
    | some x => x.cycle == s.cycle && x.held.contains g.key
    | none => false)

/-- The least of two bounds. -/
def least2 (a b : Option Nat) : Option Nat :=
  match a, b with
  | some x, some y => some (min x y)
  | some x, none => some x
  | none, y => y

/-- R11. The arrays of a cluster on which a command runs have worked up to the present cycle. -/
def State.keepArrays (s : State) : State :=
  let busy := s.allCmds.filterMap fun e => if e.running then (s.arraysOf e).map (· / 4) else none
  if busy.isEmpty then s
  else s.modBoot fun b => { b with arrayAt := b.arrayAt.mapIdx fun i c => if busy.contains i then s.cycle else c }

/-- The teams of a node. -/
def NodeRec.count (r : NodeRec) : Nat := r.gx * r.gy * r.gz

/-- R94. The nodes of which every team has retired. -/
def State.retiredNodes (s : State) : List Node :=
  s.nodes.filter fun n => (n.state == .running || n.state == .sealed) && n.retired == n.rec'.count

/-- R94, Table 6.5. As a cycle ends, what reached a node in it takes effect in the order of the table's rows: the errors
consumed, then the completion of its teams. The sealing events have done so as they came.
Log entry 97 (DEDUCED). -/
def State.endCycle (s : State) : State :=
  let s1 := if s.errors.isEmpty then s else s.takeErrors
  s1.retiredNodes.foldl (fun s n => s.startCommit n.ctx n.ref) s1

/-- The cycles that may pass after a step: none while the phase of a barrier is over (R299). -/
def State.mostCycles (s : State) : Option Nat := if s.phasesOver then some 0 else least2 s.pickLeft s.timeLeft

/-- Time passes after a step; where a cycle ends with it, what is left to its end takes effect first. -/
def State.endStep (s : State) : State :=
  let most := s.mostCycles
  let t := timeAfter s.time s.cycle (Config.elapsed s.tick) most
  let s1 := if 7 * t / 10 == s.cycle then s else s.endCycle
  (s1.pass most s1.heldNow).keepArrays

/-- What follows a step. While members of an issue are left, or an instruction whose wait has ended, nothing: they belong
to the same moment. Then what waits for registers or accumulator slots is granted or fails (R122 to R124), tables fill
(R271), and time passes. -/
def State.after (s : State) : State :=
  if !s.merging.isEmpty || !s.dueThreads.isEmpty then { s with tick := s.tick + 1 }
  else s.growDeadlocks.accDeadlocks.fillTables.endStep

/-! ## Samples (R169, R201) -/

/-- R201. What a sample of a group names: the context, the control mark, the node, the lowest L of the issue set, the PC of
that thread and the state code of Table 7.3. -/
structure Sample where
  ctx : Nat
  control : Bool
  node : Word
  l : Word
  pc : Word
  code : Nat
deriving DecidableEq, Repr

/-- R169, R201. The thread that a sample of a group names in a cycle in which it does not issue: the lowest of the set that is
STOPPED, or whose fetch is suspended, or that issues next; else of those that wait at the instruction that gives the code.
Log entry 103 (DEDUCED). -/
def Group.sampled (g : Group) (code : Nat) : Nat :=
  let all := List.range g.threads.length
  let waits := all.filter fun t => (g.thread t).wait?.any fun w => w.code == code
  let live := all.filter fun t => !(g.thread t).isExited
  let set := if g.stop && !g.trapped.isEmpty then g.trapped
    else match g.fetch with
      | some f => f.threads
      | none => if !g.issueSet.isEmpty then g.issueSet else if !waits.isEmpty then waits else live
  (sortBy id set).headD 0

/-- R118, R201. The sample of a group in the present cycle. -/
def State.sample (s : State) (g : Group) : Sample :=
  let code := if g.issuedNow then 0 else g.issueCode (s.heldNow g)
  let at' := match g.issuedNow, g.issuedBy with
    | true, some p => p
    | _, _ => (g.sampled code, (g.thread (g.sampled code)).pc)
  { ctx := g.key.ctx, control := g.key.kind == .control, node := g.key.node, l := g.l at'.1, pc := shownPc at'.2, code := code }

/-- R118. The samples of the groups that are resident on cores. -/
def State.samples (s : State) : List Sample := (s.groups.filter s.onCore).map s.sample

end Sys2Proof.Machine
end

