-- ==== Sys2Proof/Machine/Scheduler.lean ====
section
/-! DEFINITION. Where teams are placed and which queue dispatches (spec/06_scheduler.md R95 to R102, R105): fitting a
team to a cluster, the stride scheduler, the reservation of R99, and the placement of new and returning teams. -/

namespace Sys2Proof.Machine

/-! ## Fitting a team to cores (R100) -/

/-- What a lane group takes of a core (R107, R109). -/
structure Occ where
  core : Nat
  base : Nat
  w : Nat
  slot : Nat
  budget : Nat
  /-- R112. The group is resident: it has not retired. -/
  live : Bool := true
deriving DecidableEq, Repr

/-- R128. The places of the lane groups of the teams on cores: they are held until the team retires. -/
def State.occs (s : State) : List Occ :=
  (s.groups.filter fun g => g.key.kind == .lanes && s.onCore g).map fun g =>
    { core := g.core, base := g.base, w := g.w, slot := g.slot, budget := g.budget, live := !g.allExited }

/-- The lowest thread slot that is free on every lane of a window. -/
def freeSlot (occ : List Occ) (core b w : Nat) : Option Nat :=
  (List.range 16).find? fun n =>
    !(occ.any fun o => o.core == core && o.slot == n && !disjoint (o.base, o.w) (b, w))

/-- Registers of a lane that are taken. -/
def laneTaken (occ : List Occ) (core lane : Nat) : Nat :=
  (occ.map fun o => if o.core == core && decide (o.base ≤ lane) && decide (lane < o.base + o.w) then o.budget else 0).sum

/-- Whether every lane of a window has registers for a budget. -/
def lanesRoom (occ : List Occ) (core b w budget : Nat) : Bool :=
  (List.range w).all fun i => decide (laneTaken occ core (b + i) + budget ≤ 1024)

/-- The free windows of a half for a group: slot and base. -/
def freeWindows (occ : List Occ) (core half w budget : Nat) : List (Nat × Nat) :=
  (List.range (64 / w)).filterMap fun i =>
    let b := 64 * half + i * w
    if lanesRoom occ core b w budget then (freeSlot occ core b w).map fun n => (n, b) else none

/-- The place of a group on a core: the first half that has a free window; the lowest slot, then the lowest lane.
Log entry 56 (DEDUCED). -/
def findPlace (occ : List Occ) (core w budget : Nat) : Option Occ :=
  ([0, 1].findSome? fun half => leastBy? (fun (p : Nat × Nat) => p.1 * 128 + p.2) (freeWindows occ core half w budget)).map
    fun p => { core := core, base := p.2, w := w, slot := p.1, budget := budget }

/-- A team that asks for a place: its node's needs, the index, width and budget of each group, and the accumulator
slots that it holds by pair. -/
structure TeamAsk where
  ctx : Nat
  node : Word
  team : Nat
  cores : Nat
  groups : List (Nat × Nat × Nat)
  blocks : Nat
  acc : Bool
  held : List (Nat × List Nat) := []
  det : Bool
deriving DecidableEq, Repr

/-- Groups placed in ascending order, each on the core at its position of the set. -/
def placeAll (cores : List Nat) (occ : List Occ) : List (Nat × Nat × Nat) → Option (List (Nat × Occ))
  | [] => some []
  | g :: gs =>
    match findPlace occ (cores.getD (g.1 % cores.length) 0) g.2.1 g.2.2 with
    | none => none
    | some o => (placeAll cores (o :: occ) gs).map fun r => (g.1, o) :: r

/-- The sets of cores in a cluster that a team may span. -/
def coreSets (n : Nat) : List (List Nat) :=
  match n with
  | 1 => [[0], [1], [2], [3]]
  | 2 => [[0, 1], [2, 3]]
  | 3 => [[0, 1, 2], [1, 2, 3]]
  | _ => [[0, 1, 2, 3]]

/-- Whether the leader cores of a set have a bank for a team: a free one, or one that the context holds with the team's
slots free in it. -/
def State.banksFit (s : State) (x : TeamAsk) (cores : List Nat) : Bool :=
  !x.acc || (List.range (cores.length / 2)).all fun p =>
    let l := cores.getD (2 * p) 0
    let slots := ((x.held.find? fun h => h.1 == p).map Prod.snd).getD []
    (List.range 2).any fun b => match (s.core l).banks.getD b none with
      | none => true
      | some c => c == x.ctx && slots.all fun n => !(s.slotsUsed l b).contains n

/-- Owner blocks of a cluster that teams hold. -/
def State.blocksTaken (s : State) (cluster : Nat) : Nat :=
  (s.teams.map fun t => if !t.saved && t.cores.any (fun c => c / 4 == cluster) then t.owners.length else 0).sum

/-- Threads resident on some cores. -/
def threadsOn (occ : List Occ) (cores : List Nat) : Nat := (occ.map fun o => if o.live && cores.contains o.core then o.w else 0).sum

/-- The core set and the places that a team takes on a cluster, among the cores given: of the sets that fit, the one with
the fewest resident threads. `empty` leaves out what is resident. -/
def State.fitCluster (s : State) (empty : Bool) (cores : List Nat) (x : TeamAsk) (k : Nat) :
    Option (List Nat × List (Nat × Occ)) :=
  let occ := if empty then [] else s.occs.filter fun o => o.core / 4 == k
  if decide (1024 < x.blocks + (if empty then 0 else s.blocksTaken k)) then none
  else
    let fits := (coreSets x.cores).filterMap fun set =>
      let cs := set.map (4 * k + ·)
      if cs.all (cores.contains ·) && (empty || s.banksFit x cs) then (placeAll cs occ x.groups).map fun r => (cs, r) else none
    leastBy? (fun (r : List Nat × List (Nat × Occ)) => threadsOn occ r.1) fits

/-- The clusters of some cores. -/
def clustersOf (cores : List Nat) : List Nat := (sortBy id (cores.map (· / 4))).eraseDups

/-- R101. The place of a team in its context's allocation, outside the clusters `bar`. -/
def State.findTeam (s : State) (x : TeamAsk) (bar : List Nat) : Option (List Nat × List (Nat × Occ)) :=
  let c := s.ctx x.ctx
  let fit := fun k => if bar.contains k then none else s.fitCluster false c.cores x k
  let ks := clustersOf c.cores
  if x.det then
    if ks.isEmpty then none
    else (List.range 64).findSome? fun j =>
      fit (ks.getD ((omix (s.seedOf x.ctx x.node) (BitVec.ofNat 64 (x.team * 2 ^ 32 + j))).toNat % ks.length) 0)
  else
    (leastBy? (fun (p : Nat × (List Nat × List (Nat × Occ))) => threadsOn s.occs ((List.range 4).map (4 * p.1 + ·)))
      (ks.filterMap fun k => (fit k).map fun r => (k, r))).map Prod.snd

/-! ## The next team of a queue (R96, R105) -/

def NodeRec.width (r : NodeRec) : Nat := 8 * 2 ^ r.wcode

/-- A team that no attempt has dispatched yet. -/
def newAsk (c : Nat) (ref : Word) (r : NodeRec) (team : Nat) : TeamAsk :=
  { ctx := c, node := ref, team := team, cores := r.cores
    groups := (List.range r.groups).map fun g => (g, r.width, if g < r.prods then r.regP else r.regC)
    blocks := r.scratch, acc := decide (0 < r.accSlots), det := r.det }

/-- The slots that a team holds on a pair. -/
def Team.slotsOn (t : Team) (p : Nat) : List Nat :=
  ((t.grants.filter fun g => g.pair == p).map fun g => (List.range g.count).map (g.slot + ·)).flatten

/-- An evicted team: its groups, at their budgets, and its accumulator slots.
Log entry 57 (DEDUCED). -/
def State.oldAsk (s : State) (n : Node) (t : Team) : TeamAsk :=
  { newAsk n.ctx n.ref n.rec' t.key.team with
    groups := (s.lanes t.key).map fun g => (g.key.idx, g.w, g.budget)
    held := [(0, t.slotsOn 0), (1, t.slotsOn 1)] }

/-- R148. A READY node that a live registration holds back. -/
def State.held (s : State) (n : Node) : Bool :=
  n.state == .ready && n.rec'.det && n.rec'.ranges.any fun r => s.rangeRegistered n.ctx r.1 r.2

/-- Whether a node can supply a team. -/
def State.supplies (s : State) (n : Node) : Bool :=
  (n.state == .ready || n.state == .running || n.state == .sealed)
    && (!n.evicted.isEmpty || decide (n.nextTeam < n.rec'.count)) && !s.held n

/-- The next team of a queue, with its node: an evicted team first. -/
def State.nextTeam (s : State) (c q : Nat) : Option (Node × TeamAsk) :=
  match s.nodes.find? fun n => n.ctx == c && n.queue == q && s.supplies n with
  | none => none
  | some n => match leastBy? id n.evicted with
    | none => some (n, newAsk c n.ref n.rec' n.nextTeam)
    | some i => (s.team? ⟨c, n.ref, i⟩).map fun t => (n, s.oldAsk n t)

/-! ## Placing -/

/-- R130. The aperture base that a new team gets: the first free one from where Config points. -/
def State.newAperture (s : State) (c : Nat) : DWord :=
  let taken := (s.teams.filter fun t => t.key.ctx == c).map Team.aperture
  let base := fun i => BitVec.ofNat 64 (0x00FF000000000000 + (Config.aperture s.tick + i) % 2 ^ 26 * 4194304)
  ((List.range (taken.length + 1)).map base).find? (fun a => !taken.contains a) |>.getD 0x00FF000000000000

/-- R126. The starting PC of a kernel's control thread. -/
def State.controlPc (s : State) (c : Nat) (entry : Word) : Option Word :=
  if entry.toNat < 4 then none
  else match (List.range 4).mapM fun i => s.codeByte c (entry.toNat - 4 + i) with
    | some bs => if bytesNat bs % 2 = 0 then some (BitVec.ofNat 32 (bytesNat bs)) else none
    | none => none

/-- R102, R109. A new group at its place, with the words that came for it (R305).
Log entry 75 (DEDUCED). -/
def newGroup (n : Node) (team cycle : Nat) (p : Nat × Occ) : Group :=
  let k : GKey := ⟨n.ctx, n.ref, team, p.1, .lanes⟩
  let words := fun t => (n.early.filter fun w => w.1 == gkeyL k p.2.w t).map Prod.snd
  { key := k, w := p.2.w, core := p.2.core, base := p.2.base, slot := p.2.slot, budget := p.2.budget
    producer := decide (p.1 < n.rec'.prods), lastIssue := cycle
    threads := (List.range p.2.w).map fun t => { pc := n.rec'.entry, issued := cycle, queue := words t } }

/-- R126. Places of a control core that are taken. -/
def State.controlsOn (s : State) (core : Nat) : Nat :=
  (s.groups.filter fun g => g.key.kind == .control && g.core == core && !g.allExited
    && (match s.team? (gkeyTeam g.key) with
      | some t => !t.saved && t.controlWaits.isNone
      | none => false)).length

/-- R126. A team placed earlier waits for a control thread place on a core. -/
def State.controlAhead (s : State) (core placed : Nat) : Bool :=
  s.teams.any fun t => !t.saved && t.controlWaits.isSome && t.cores.head? == some core && decide (t.placed < placed)

/-- Whether a team's control thread may start on its lowest-numbered core.
Log entry 60 (DEDUCED). -/
def State.controlRoom (s : State) (t : Team) : Bool :=
  let core := t.cores.headD 0
  decide (s.controlsOn core < 16) && !s.controlAhead core t.placed

/-- R126. The control thread of a team starts at a PC; a restored one goes on where it stood. -/
def State.startControl (s : State) (k : TKey) (core : Nat) (pc : Word) : State :=
  let s1 := s.modTeam k fun t => { t with controlWaits := none, control := true }
  let key : GKey := ⟨k.ctx, k.node, k.team, 0, .control⟩
  if s.groups.any fun g => g.key == key then s1
  else { s1 with groups := s1.groups ++ [{ key := key, w := 1, core := core, budget := 60, lastIssue := s.cycle
                                           threads := [{ pc := pc, issued := s.cycle }] }] }

/-- The control thread of a team that has just been placed starts, or waits for a place. -/
def State.controlOf (s : State) (k : TKey) (pc : Word) : State :=
  let s1 := s.modTeam k fun t => { t with controlWaits := some pc, control := true }
  match s1.team? k with
  | some t => if s1.controlRoom t then s1.startControl k (t.cores.headD 0) pc else s1
  | none => s1

/-- R94, Table 6.5. What the first dispatch of a node's attempt does. -/
def State.firstDispatch (s : State) (n : Node) : State :=
  if n.state == .ready then
    let s1 := s.modNode n.ctx n.ref fun x => { x with registered := x.rec'.det, sealCause := 0 }
    let s2 := s1.setNodeState n.ctx n.ref .running
    if n.rec'.restart then s2 else s2.sealNow n.ctx n.ref 7
  else s

/-- R102. A new team placed. -/
def State.placeNew (s : State) (n : Node) (team : Nat) (cores : List Nat) (places : List (Nat × Occ)) : State :=
  let k : TKey := ⟨n.ctx, n.ref, team⟩
  let t : Team := { key := k, cores := cores, aperture := s.newAperture n.ctx, owners := List.replicate n.rec'.scratch .threads,
                    placed := s.placements }
  let s1 := { s with teams := s.teams ++ [t], groups := s.groups ++ places.map (newGroup n team s.cycle),
                     placements := s.placements + 1 }
  let s2 := s1.modNode n.ctx n.ref fun x =>
    { x with nextTeam := x.nextTeam + 1, early := x.early.filter fun w => w.1.toNat / 4096 != team }
  match s.controlPc n.ctx n.rec'.entry with
  | some pc => s2.controlOf k pc
  | none => s2

/-! ## Restoring a team (R105) -/

/-- A group at its new place; the scheduler's stops end. -/
def restoreGroup (cycle core : Nat) (places : List (Nat × Occ)) (g : Group) : Group :=
  let g1 := { g with core := core, lastIssue := cycle, yieldReq := false, yielded := false, stop := g.stop && !g.yielded }
  match places.find? fun p => p.1 == g.key.idx && g.key.kind == .lanes with
  | some p => { g1 with base := p.2.base, slot := p.2.slot }
  | none => g1

/-- The bank that a pair of a returning team takes: one that the context holds with the slots free, else a free one. -/
def State.bankFor (s : State) (c l : Nat) (slots : List Nat) : Nat :=
  let bank := fun b => (s.core l).banks.getD b none
  match (List.range 2).find? fun b => bank b == some c && slots.all fun n => !(s.slotsUsed l b).contains n with
  | some b => b
  | none => match (List.range 2).filter fun b => bank b == none with
    | [b] => b
    | _ => Config.accBank s.tick % 2

/-- The slots of a pair return into a bank. -/
def State.retakeBank (s : State) (k : TKey) (pair : Nat) : State :=
  match s.team? k with
  | none => s
  | some t => match t.leader? pair with
    | none => s
    | some l =>
      if (t.slotsOn pair).isEmpty then s
      else
        let b := s.bankFor k.ctx l (t.slotsOn pair)
        let bank := fun (g : AccGrant) => if g.pair == pair then { g with bank := b } else g
        (s.modTeam k fun t => { t with grants := t.grants.map bank }).modCore l fun x =>
          { x with banks := x.banks.set b (some k.ctx) }

/-- R127. Saved mailbox words stand before the words that a core's mailboxes hold. -/
def putMailbox (c : Nat) (saved : List (List Word)) (x : Core) : Core :=
  (List.range 8).foldl (fun x i => x.setMailbox c i (saved.getD i [] ++ x.mailbox c i)) x

/-- R191. The trap records of a team's groups move to the control cores of their new cores. -/
def State.moveRecords (s : State) (k : TKey) : State :=
  let recs := ((s.cores.map fun x => x.trapQueue.filter fun r => gkeyTeam r.group == k)).flatten
  let place := fun (r : TrapRec) => (s.groups.find? fun g => g.key == r.group).map Group.core
  mapCores s fun i x =>
    { x with trapQueue := (x.trapQueue.filter fun r => gkeyTeam r.group != k) ++ recs.filter fun r => place r == some i }

/-- R325. The saved commands of a team enter the queue of their group's core again. -/
def State.requeue (s : State) : List Cmd → State
  | [] => s
  | c :: cs =>
    let s1 := match s.groups.find? fun g => g.key == c.elected.1 with
      | some g => s.modCore g.core fun x => { x with queue := x.queue ++ [c] }
      | none => s
    s1.requeue cs

/-- R105. An evicted team placed again, as it stood. -/
def State.placeOld (s : State) (n : Node) (t : Team) (cores : List Nat) (places : List (Nat × Occ)) : State :=
  let k := t.key
  let coreOf := fun (g : Group) => if g.key.kind == .lanes then cores.getD (g.key.idx % cores.length) 0 else cores.headD 0
  let live := fun (g : Group) => gkeyTeam g.key == k && g.key.kind == .control && !g.allExited
  let back := fun (g : Group) => if gkeyTeam g.key == k then restoreGroup s.cycle (coreOf g) places g else g
  let s1 := s.modTeam k fun x =>
    { x with cores := cores, saved := false, evicting := none, late := false, mailboxes := [], commands := [], placed := s.placements }
  let s2 := { s1 with
    placements := s.placements + 1
    groups := s1.groups.map back }
  let s3 := s2.modNode n.ctx n.ref fun x => { x with evicted := x.evicted.filter (· != k.team) }
  let s4 := (s3.retakeBank k 0).retakeBank k 1
  let s5 := t.mailboxes.foldr (fun m s => s.modCore (cores.getD m.1 0) (putMailbox k.ctx m.2)) s4
  let s6 := (s5.moveRecords k).requeue (sortBy Cmd.id t.commands)
  let waits := t.controlWaits.isSome || s6.groups.any live
  if waits then s6.controlOf k (t.controlWaits.getD 0) else s6

/-! ## The stride scheduler (R95 to R99) -/

/-- Signed difference of two passes. -/
def passDiff (a b : BitVec 64) : Int := (a - b).toInt

/-- R97. The pass of a queue: its own while it is eligible, else what it would return with. -/
def Queue.effPass (q : Queue) (g : BitVec 64) : BitVec 64 :=
  if q.eligible then q.pass else g + BitVec.ofNat 64 (q.lead - (g - q.gLeft).toNat)

/-- R97. A queue before an opportunity, in or out of the eligible set. -/
def Queue.settle (q : Queue) (g : BitVec 64) (elig : Bool) : Queue :=
  if elig && !q.eligible then { q with pass := q.effPass g, eligible := true }
  else if !elig && q.eligible then { q with lead := (passDiff q.pass g).toNat, gLeft := g, eligible := false }
  else q

/-- The queues of a partition that have a next team, in order: context, queue, node, team. -/
def State.contenders (s : State) (part : Nat) : List (Nat × Nat × Node × TeamAsk) :=
  (List.range 64).flatMap fun c =>
    if (s.ctx c).state == .active && (s.ctx c).part == part then
      (List.range 32).filterMap fun q =>
        if ((s.ctx c).queue q).en then (s.nextTeam c q).map fun p => (c, q, p.1, p.2) else none
    else []

/-- The queue of least pass of a list, the first of equals; passes compare by their signed difference from G. -/
def State.leastPass (s : State) (g : BitVec 64) (l : List (Nat × Nat × Node × TeamAsk)) : Option (Nat × Nat × Node × TeamAsk) :=
  leastBy? (fun (x : Nat × Nat × Node × TeamAsk) =>
    (passDiff (((s.ctx x.1).queue x.2.1).effPass g) g + 2 ^ 63).toNat) l

/-- A reservation for the next team of a contending queue. -/
def Reservation.isFor (r : Reservation) (x : Nat × Nat × Node × TeamAsk) : Bool :=
  r.ctx == x.1 && r.queue == x.2.1 && r.node == x.2.2.2.node && r.team == x.2.2.2.team

/-- R99. The reservations that still stand: those of queues whose next team has not changed. -/
def State.reserved (s : State) (part : Nat) (l : List (Nat × Nat × Node × TeamAsk)) : List Reservation :=
  (s.part part).reservations.filter fun r => l.any r.isFor

/-- R99. The clusters that reservations keep from a team: those reserved for others, and not for it. -/
def barFor (rs : List Reservation) (x : Nat × Nat × Node × TeamAsk) : List Nat :=
  let mine := (rs.filter fun r => r.isFor x).map Reservation.cluster
  (rs.map Reservation.cluster).filter fun k => !mine.contains k

/-- R99. Since when the queue of least pass has been skipped. -/
def skippedNow (old : Option (Nat × Nat × Nat)) (least : Option (Nat × Nat × Node × TeamAsk)) (fits : Bool) (cycle : Nat) :
    Option (Nat × Nat × Nat) :=
  match least with
  | none => none
  | some x =>
    if fits then none
    else match old with
      | some o => if o.1 = x.1 ∧ o.2.1 = x.2.1 then some o else some (x.1, x.2.1, cycle)
      | none => some (x.1, x.2.1, cycle)

/-- The winner dispatches its team: its charge, G, the placement, and the node's first dispatch. -/
def State.dispatch (s : State) (part : Nat) (x : Nat × Nat × Node × TeamAsk) (cores : List Nat) (places : List (Nat × Occ)) :
    State :=
  let q := (s.ctx x.1).queue x.2.1
  let stride := 2 ^ 20 / (q.tickets.toNat + 1)
  let s1 := s.modPart part fun p =>
    { p with
      pass := q.pass
      reservations := p.reservations.filter fun r => !r.isFor x }
  let s2 := s1.modCtx x.1 fun c => c.modQueue x.2.1 fun y => { y with pass := y.pass + BitVec.ofNat 64 (stride * x.2.2.2.cores) }
  let s3 := s2.firstDispatch x.2.2.1
  match s3.team? ⟨x.1, x.2.2.1.ref, x.2.2.2.team⟩ with
  | some t => s3.placeOld x.2.2.1 t cores places
  | none => s3.placeNew x.2.2.1 x.2.2.2.team cores places

/-- R96. One dispatch opportunity.
Log entry 65 (DEDUCED). -/
def State.opportunity (s : State) (part : Nat) : State :=
  let l := s.contenders part
  let r := s.reserved part l
  let fits := l.filterMap fun x => (s.findTeam x.2.2.2 (barFor r x)).map fun p => (x, p)
  let inFits := fun (c q : Nat) => fits.any fun y => y.1.1 == c && y.1.2.1 == q
  let g := (s.part part).pass
  let least := s.leastPass g l
  let skip := skippedNow (s.part part).skipped least ((least.map fun x => inFits x.1 x.2.1).getD true) s.cycle
  let s1 := s.modPart part fun p => { p with oppAt := s.cycle, reservations := r, skipped := skip }
  let tune := fun (c : Nat) (x : Context) =>
    if x.state == .active && x.part == part then { x with queues := x.queues.mapIdx fun q y => y.settle g (inFits c q) } else x
  let s2 := { s1 with ctxs := s1.ctxs.mapIdx tune }
  match s2.leastPass g (fits.map Prod.fst) with
  | none => s2
  | some x => match fits.find? fun y => y.1 == x with
    | some y => (s2.dispatch part x y.2.1 y.2.2).settle
    | none => s2

/-- DISPATCH_OPPORTUNITY, R96. Every 32 cycles the eligible queue of least pass dispatches its next team onto a fitting
cluster. -/
def execDispatchOpportunity (part : Nat) (s : State) : Host.Outcome State Fault Refusal :=
  event (if decide (part < 16) && (s.part part).state == .active && decide ((s.part part).oppAt + 32 ≤ s.cycle) then
      s.opportunity part
    else s)

/-- R99. The lowest cluster of the allocation on which a team would fit if nothing were resident there. -/
def State.emptyCluster (s : State) (x : TeamAsk) : Option Nat :=
  (clustersOf (s.ctx x.ctx).cores).find? fun k => (s.fitCluster true (s.ctx x.ctx).cores x k).isSome

/-- CLUSTER_RESERVE, R99. A least-pass queue skipped for not fitting during 14,000 cycles gets a cluster reserved. -/
def execClusterReserve (part : Nat) (s : State) : Host.Outcome State Fault Refusal :=
  let l := s.contenders part
  event (match (s.part part).skipped, s.leastPass (s.part part).pass l with
    | some k, some x =>
      if decide (part < 16) && (s.part part).state == .active && k.1 == x.1 && k.2.1 == x.2.1
          && decide (k.2.2 + 14000 ≤ s.cycle) && !((s.reserved part l).any fun r => r.isFor x)
          && (s.findTeam x.2.2.2 (barFor (s.reserved part l) x)).isNone then
        match s.emptyCluster x.2.2.2 with
        | some c => s.modPart part fun p =>
            { p with reservations := s.reserved part l ++ [⟨x.1, x.2.1, x.2.2.2.node, x.2.2.2.team, c⟩] }
        | none => s
      else s
    | _, _ => s)

/-- CONTROL_THREAD_START, R126. A waiting control thread starts when a place frees, in the order of team placement. -/
def execControlThreadStart (team : TKey) (s : State) : Host.Outcome State Fault Refusal :=
  event (match s.team? team with
    | some t => match t.controlWaits with
      | some pc => if !t.saved && s.controlRoom t then s.startControl team (t.cores.headD 0) pc else s
      | none => s
    | none => s)

end Sys2Proof.Machine
end

