-- ==== Sys2Proof/Machine/Nodes.lean ====
section
/-! DEFINITION. The life of a node: consumption and refusal (spec/06_scheduler.md R89 to R94), the retirement of its
teams (spec/07_execution_model.md R128), completion with its time record (spec/10_traps_reliability.md R199, R200) and
the notice to successors (R93), and the re-queue after a rollback. -/

namespace Sys2Proof.Machine

/-! ## Node records (Table 6.1) -/

/-- Table 6.3. A reduction-target range in use: its virtual base, sign-extended from bit 56, and its length in bytes. -/
def rangeOf (v : Nat) : Option (Nat × Nat) :=
  if v % 2 ^ 19 = 0 then none
  else
    let base := v / 2 ^ 19 * 4096
    some (if base / 2 ^ 56 = 0 then base else base + (2 ^ 64 - 2 ^ 57), v % 2 ^ 19 * 4096)

/-- Table 6.1. The fields of a record. -/
def parseRec (r : List Byte) : NodeRec :=
  { entry := BitVec.ofNat 32 (recNat r 0 4), gx := recNat r 4 2, gy := recNat r 6 2, gz := recNat r 8 2
    wcode := recNat r 10 1 % 4, groups := recNat r 11 1, prods := recNat r 12 1, cores := recNat r 13 1
    regP := recNat r 14 1, regC := recNat r 15 1, scratch := recNat r 16 2, accSlots := recNat r 18 1
    det := recNat r 19 1 % 2 == 1, restart := recNat r 19 1 / 2 % 2 == 1, preds := recNat r 20 2
    seed := BitVec.ofNat 64 (recNat r 24 8)
    succ := (List.range (min (recNat r 22 1) 8)).map fun i => BitVec.ofNat 32 (recNat r (32 + 4 * i) 4)
    ranges := (List.range 4).filterMap fun i => rangeOf (recNat r (64 + 8 * i) 8), pool := recNat r 96 4 }

/-- A register budget of Table 6.1. -/
def budgetOk (n : Nat) : Bool := n % 4 == 0 && decide (8 ≤ n) && decide (n ≤ 60)

/-- Table 6.6, ERR 1. Every field is in its range, and what must be zero is. -/
def recOk (r : List Byte) : Bool :=
  let x := parseRec r
  let nsucc := recNat r 22 1
  x.entry.toNat % 2 == 0 && x.gy != 0 && x.gz != 0 && recNat r 10 1 / 4 == 0 && x.groups != 0 && decide (x.groups ≤ 64)
    && decide (x.prods ≤ x.groups) && x.cores != 0 && decide (x.cores ≤ 4) && budgetOk x.regP && budgetOk x.regC
    && decide (x.scratch ≤ 1024) && decide (x.accSlots ≤ 4) && recNat r 19 1 / 4 == 0 && decide (nsucc ≤ 8)
    && recNat r 23 1 == 0 && (List.range 8).all (fun i => decide (i < nsucc) || recNat r (32 + 4 * i) 4 == 0)
    && recNat r 104 4 == 0 && recNat r 112 16 == 0

/-- Table 6.6, ERR 3. A feature that the record needs and the accepted set lacks. -/
def State.lacks (s : State) (r : List Byte) : Bool :=
  let x := parseRec r
  (x.det && !s.feature 9) || (x.restart && !s.feature 10)
    || (List.range 32).any fun i => (BitVec.ofNat 32 (recNat r 108 4)).getLsbD i && !s.feature i

/-- Table 6.6, ERR 4. A team of the node would not fit an empty cluster. -/
def State.tooBig (s : State) (x : NodeRec) : Bool :=
  (decide (0 < x.accSlots) && (x.cores == 1 || x.cores == 3))
    || (s.fitCluster true [0, 1, 2, 3] (newAsk 0 0 x 0) 0).isNone

/-- R92, Table 6.6. The code of the first check, in the order of the table, that a record fails; 0 where it passes all.
Log entry 106 (DESIGN CHOICE). -/
def State.refusal (s : State) (c : Nat) (r : List Byte) : Nat :=
  let x := parseRec r
  if !recOk r then 1
  else if 2 ^ 20 < x.count then 2
  else if s.lacks r then 3
  else if decide (0 < x.count) && s.tooBig x then 4
  else if x.preds < recNat r 100 4 then 5
  else if x.succ.any fun w => !((s.ctx c).queue (w.toNat / 2 ^ 27)).en then 6
  else 0

/-! ## Time records (Table 10.8) -/

/-- R199, R200. What the device writes into a node's time record when it reaches DONE or REFUSED. -/
def State.putTime (s : State) (n : Node) (state : Nat) : State :=
  let x := ((s.ctx n.ctx).queue n.queue).timeSlot n.index
  let entry := s.virtNat n.ctx x 8
  let rest := s.time - entry - n.faultNs - n.ioNs - n.execNs
  s.devStore n.ctx (x + 8)
    (natBytes 8 s.time ++ natBytes 8 rest ++ natBytes 8 n.faultNs ++ natBytes 8 n.ioNs ++ natBytes 8 n.execNs
      ++ natBytes 4 n.queue ++ natBytes 4 n.index.toNat ++ natBytes 1 n.attempt ++ natBytes 1 state ++ natBytes 6 0)

/-! ## Transitions (Table 6.5) -/

/-- A QUEUED node whose predecessors have all reached DONE becomes READY; a node with no teams goes on to COMMITTING. -/
def State.wakeNode (s : State) (n : Node) : State :=
  if n.state == .queued && s.virtNat n.ctx (n.addr + 100) 4 == n.rec'.preds then
    let s1 := s.setNodeState n.ctx n.ref .ready
    if n.rec'.count = 0 then s1.startCommit n.ctx n.ref else s1
  else s

/-! ## Consumption (R92) -/

/-- R92. The record at the head of a queue is consumed. -/
def State.consumeRec (s : State) (c q : Nat) (r : List Byte) : State :=
  let qu := (s.ctx c).queue q
  let err := s.refusal c r
  let n : Node := { ctx := c, queue := q, index := qu.head, ref := BitVec.ofNat 32 (q * 2 ^ 27 + qu.head.toNat % 2 ^ 27),
                    addr := qu.slot qu.head, rec' := parseRec r, state := .queued }
  let s1 := s.modCtx c fun x => x.modQueue q fun y => { y with head := y.head + 1 }
  if err = 0 then
    let s2 := { s1 with nodes := s1.nodes ++ [n] }
    (s2.putStatus c n.ref).wakeNode n
  else (s1.putTime n 7).devStore c (n.addr + 104) (natBytes 4 (err * 65536 + 7))

/-- NODE_CONSUME, R92. The scheduler consumes a queue's next record, validates it, and marks it QUEUED, READY or REFUSED.
Log entry 58 (DESIGN CHOICE). -/
def execNodeConsume (ctx q : Nat) (s : State) : Host.Outcome State Fault Refusal :=
  let c := s.ctx ctx
  let qu := c.queue q
  event (if decide (ctx < 64) && decide (q < 32) && c.state == .active && qu.en && qu.head != qu.tail
      && decide ((s.nodes.filter fun n => n.ctx == ctx && n.queue == q).length < 256) then
      match s.virtBytes ctx (qu.slot qu.head) 128 with
      | some r => s.consumeRec ctx q r
      | none => s
    else s)

/-! ## Retirement (R128) -/

/-- R145. An entry of the basket moves to a place of the log, and stays in the basket of its core where the log is full.
Log entry 108 (DESIGN CHOICE). -/
def State.spillEntry (s : State) (c : Nat) (e : BasketEntry) : State :=
  match (s.ctx c).logFree with
  | none => s
  | some i =>
    let e1 := { e with spilled := some i }
    (s.logWrite c e1).modCtx c fun x => { x with basket := x.basket.map fun y => if y == e then e1 else y }

/-- R145. The unflushed entries of a team that retires move to the log. -/
def State.spillTeam (s : State) (k : TKey) : State :=
  ((s.ctx k.ctx).basket.filter fun e => e.node == k.node && e.team == k.team && e.spilled.isNone).foldl
    (fun s e => s.spillEntry k.ctx e) s

/-- TEAM_RETIRE, R128. A team retires when its groups, its control thread and its engine commands are done; the last one
takes its node to COMMITTING as the cycle ends (R94). -/
def execTeamRetire (team : TKey) (s : State) : Host.Outcome State Fault Refusal :=
  event (match s.team? team with
    | none => s
    | some t =>
      if s.mayRetire t && !s.erring team.ctx team.node then
        (((s.spillTeam team).freeTeam team).modNode team.ctx team.node fun n => { n with retired := n.retired + 1 }).settle
      else s)

/-! ## Completion (R93, R94) -/

/-- R93. One successor notified: ARRIVED of its record is one more, and it is READY when all its predecessors are DONE. -/
def State.notify (s : State) (c : Nat) (w : Word) : State :=
  let addr := ((s.ctx c).queue (w.toNat / 2 ^ 27)).slot (BitVec.ofNat 32 (w.toNat % 2 ^ 27))
  let s1 := s.devStore c (addr + 100) (natBytes 4 ((s.virtNat c (addr + 100) 4 + 1) % 2 ^ 32))
  match s1.nodes.find? fun n => n.ctx == c && n.queue == w.toNat / 2 ^ 27 && n.addr == addr with
  | some n => s1.wakeNode n
  | none => s1

/-- R90, R94. The completion of a node: its ranges are released, its time record and STATE = 5 written, its successors
notified; it is then no longer among the unfinished nodes. -/
def State.commitNode (s : State) (n : Node) : State :=
  let s1 := s.modNode n.ctx n.ref fun x => { x with registered := false, staged := [] }
  let s2 := (s1.putTime n 5).setNodeState n.ctx n.ref .done
  let s3 := n.rec'.succ.foldl (fun s w => s.notify n.ctx w) s2
  { s3 with nodes := s3.nodes.filter fun x => !(x.ctx == n.ctx && x.ref == n.ref) }

/-- NODE_COMMIT, R94. A COMMITTING node whose reductions have all been applied is DONE. -/
def execNodeCommit (ctx : Nat) (node : Word) (s : State) : Host.Outcome State Fault Refusal :=
  event (match s.node? ctx node with
    | some n =>
      if n.state == .committing && (s.ctx ctx).state == .active && !((s.ctx ctx).basket.any fun e => e.node == node)
          && !s.erring ctx node then s.commitNode n
      else s
    | none => s)

/-- ROLLBACK_REQUEUE, R94. A rolled-back node is READY again, with its next attempt and all its teams undispatched. -/
def execRollbackRequeue (ctx : Nat) (node : Word) (s : State) : Host.Outcome State Fault Refusal :=
  event (match s.node? ctx node with
    | some n =>
      if n.state == .rolledBack then
        (s.modNode ctx node fun x => { x with attempt := x.attempt + 1, sealCause := 0 }).setNodeState ctx node .ready
      else s
    | none => s)

end Sys2Proof.Machine
end

