-- ==== Sys2Proof/Machine/ExecEvents.lean ====
section
/-! DEFINITION. Events of execution: the start of a trap handler (spec/10_traps_reliability.md R182, R183), the whistle
and owner timeouts (R189, spec/08_memory_model.md R140), and the ends of waits that no step ends by itself. -/

namespace Sys2Proof.Machine

open Host (Cell)

/-! ## Handlers (R182, R183) -/

/-- R182, R191. Records whose group is on its core: its team is neither evicted nor stopped by the yield deadline. -/
def State.deliverable (s : State) (r : TrapRec) : Bool :=
  match s.team? (gkeyTeam r.group) with
  | some t => !t.saved && !t.late
  | none => false

/-- R183. The instance that handles a record. -/
def handlerGroup (r : TrapRec) (core cycle : Nat) (pc : Word) : Group :=
  { key := { r.group with kind := .handler }, w := 1, core := core, budget := 60, lastIssue := cycle
    handler := some { trap := r, sel := some r.group }, threads := [{ pc := pc, issued := cycle }] }

/-- HANDLER_START, R182. The control core of a core starts the context's handler for its next trap record; a trap is fatal
if no handler is installed any more.
Log entry 29 (DEDUCED). -/
def execHandlerStart (core : Nat) (s : State) : Host.Outcome State Fault Refusal :=
  event (if s.groups.any fun g => g.key.kind == .handler && g.core == core then s
    else match leastBy? trapOrder ((s.core core).trapQueue.filter s.deliverable) with
      | none => s
      | some r =>
        let vec := (s.ctx r.group.ctx).trapVec.val
        let s1 := s.modCore core fun x => { x with trapQueue := x.trapQueue.erase r }
        if vec.getLsbD 0 then { s1 with groups := s1.groups ++ [handlerGroup r core s.cycle (vec &&& 0xFFFFFFFE)] }
        else s1.fatal r.group.ctx r)

/-! ## The whistle (R189) -/

/-- The first thread of a group whose wait of a kind has reached its limit. -/
def State.overdue (s : State) (g : Group) (kind : Wait → Bool) : Option Nat :=
  (List.range g.threads.length).find? fun t => ((g.thread t).wait?.any kind) && s.limitLeft g t == some 0

/-- R189. The arrival of a group at a barrier withdrawn, for threads that will arrive again; a phase that no thread has
come to is open no longer. -/
def Barrier.withdraw (b : Barrier) (g : Group) (set : List Nat) : Barrier :=
  let came := b.came.filter fun p => !(p.1 == g.key.idx && set.contains p.2)
  { b with
    came := came
    marks := b.marks.filter fun m => !(set.any fun t => g.l t == m.1)
    arrived := b.arrived.filter (· != g.key.idx)
    bits := if came.isEmpty then none else b.bits }

/-- What a whistle trap that a handler takes does to the barrier of its wait. -/
def State.withdraw (s : State) (g : Group) (w : Wait) (set : List Nat) : State :=
  match w with
  | .bart id _ => s.modTeam (gkeyTeam g.key) fun t => { t with barriers := t.barriers.modify id fun b => b.withdraw g set }
  | _ => s

/-- The counts of a group's waiting threads start again. -/
def Group.recount (g : Group) : Group :=
  { g with threads := g.threads.map fun th => if th.wait?.any fun w => w.code != 11 then { th with waited := 0 } else th }

/-- WHISTLE_FIRE, R189. A waiting thread's count reaches the limit and its group traps BAR_TIMEOUT or WAIT_TIMEOUT. -/
def execWhistleFire (g : GKey) (s : State) : Host.Outcome State Fault Refusal :=
  event (match s.groupIdx? g with
    | none => s
    | some i => match s.groups[i]? with
      | none => s
      | some gr =>
        if !s.active gr then s
        else match s.overdue gr Wait.counted with
          | none => s
          | some t =>
            let w := ((gr.thread t).wait?).getD .barg
            let set := gr.waitSet Wait.counted t
            let d := s.whistleTrap gr w
            if s.trapIsFatal gr then s.takeTrap i set t d.1 d.2
            else ((s.withdraw gr w set).modGroup i Group.recount).trapWait i set t d.1 d.2)

/-- OWNER_TIMEOUT, R140. A thread blocked on an owner state up to the limit faults; the threads that had not performed
form the trapped issue set. -/
def execOwnerTimeout (g : GKey) (s : State) : Host.Outcome State Fault Refusal :=
  event (match s.groupIdx? g with
    | none => s
    | some i => match s.groups[i]? with
      | none => s
      | some gr =>
        if !s.active gr then s
        else match s.overdue gr Wait.ownerWait with
          | none => s
          | some t =>
            let set := gr.waitSet Wait.ownerWait t
            let d := s.limitTrap gr (((gr.thread t).wait?).getD .barg)
            (set.foldl (fun s u => s.modThread i u Thread.dropAccess) s).trapWait i set t d.1 d.2)

/-! ## Time, loads, stores, words of memory -/

/-- A thread of a resident group that is not stopped, with the number of its group. -/
def State.waiter (s : State) (g : GKey) (t : Nat) : Option (Nat × Group × Thread) :=
  match s.groupIdx? g with
  | none => none
  | some i => match s.groups[i]? with
    | none => none
    | some gr => if s.active gr && decide (t < gr.threads.length) then some (i, gr, gr.thread t) else none

/-- NAP_EXPIRE, R308. A thread has counted its NAP's resident unstopped cycles, and NAP retires. -/
def execNapExpire (g : GKey) (t : Nat) (s : State) : Host.Outcome State Fault Refusal :=
  event (match s.waiter g t with
    | none => s
    | some x => match x.2.2.state with
      | .blocked (.nap n) => if n ≤ x.2.2.waited then s.modThread x.1 t fun th => th.goOn (pcAfter th.pc 4) else s
      | _ => s)

/-- R216, R278. A value of a load reaches a register that still waits for it; a window write that waits for it then takes
place (R184). -/
def Thread.land (th : Thread) (v : Nat × Word) : Thread := if th.isPend v.1 then (th.setReg v.1 v.2).writeLate v.1 else th

/-- R216, R278. The data of the accesses that a thread made at a PC in a cycle arrives; an exited thread takes none. -/
def Thread.arrive (pc : Word) (cycle : Nat) (th : Thread) : Thread :=
  let mine := fun (r : LoadRec) => r.pc == pc && r.cycle == cycle && !r.arrived
  let th1 := if th.isExited then th else ((th.loads.filter mine).flatMap LoadRec.vals).foldl Thread.land th
  { th1 with loads := th1.loads.map fun r => if mine r then { r with arrived := true } else r }

/-- LOAD_DATA_ARRIVAL, R278. An outstanding load's data arrives and is written to the pending registers, for every thread
whose access was performed with it; poisoned data is a machine check at the load (R193).
Log entry 22 (DEDUCED).
Log entry 76 (DEDUCED). -/
def execLoadDataArrival (g : GKey) (t n : Nat) (poisoned : Bool) (s : State) : Host.Outcome State Fault Refusal :=
  event (match s.groupIdx? g with
    | none => s
    | some i => match (s.groups[i]?).bind fun gr => (gr.thread t).loads[n]? with
      | none => s
      | some r =>
        if r.arrived then s
        else if poisoned then s.machineCheckAt i t 3 r.pc
        else (s.modGroup i fun x => { x with threads := x.threads.map (Thread.arrive r.pc r.cycle) }).settle)

/-- STORE_PERFORMED, R284. An outstanding store's every part is in S. -/
def execStorePerformed (g : GKey) (t : Nat) (s : State) : Host.Outcome State Fault Refusal :=
  event (match s.groupIdx? g with
    | none => s
    | some i => (s.modThread i t fun th => { th with stores := th.stores - 1 }).settle)

/-- R139, R295. A WAITW whose word differs ends as a load of the new value; where the owner state of the word's block
refuses the load, the thread waits on that (R140). A poisoned word is a machine check (R193). -/
def State.endWaitw (s : State) (g t : Nat) (gr : Group) (i : Instr) (d : Nat) (x : Nat) (cmp : Word) : State :=
  let tgt : Target := { glob := true, addr := x, size := 4, align := 4 }
  let next := pcAfter (gr.thread t).pc 4
  match s.lowCheck gr.key false tgt with
  | .ok _ =>
    let ls := s.places gr.key tgt false
    let v := BitVec.ofNat 32 (bytesNat (s.readPlaces (gkeyTeam gr.key) ls))
    if v = cmp then s
    else if s.mayPerform gr.key false ls then
      if (gr.thread t).tainted then s.machineCheck g t 3
      else ((s.touchPlaces (gkeyTeam gr.key) ls).pay g t).modThread g t fun th => (th.setReg d v).goOn next
    else s.waitOwner g t { tgt.waiting true next with retry := some i } (gr.thread t).owed
  | c => s.stopWait g t (gr.waitSet Wait.onWord t) [t] c

/-- WAITW_WAKE, R139. The global word that a WAITW watches differs from the compared value; WAITW retires as a load of the
new value. -/
def execWaitwWake (g : GKey) (t : Nat) (s : State) : Host.Outcome State Fault Refusal :=
  event (match s.waiter g t with
    | none => s
    | some x => match x.2.2.state with
      | .blocked (.waitw i d a cmp) => s.endWaitw x.1 t x.2.1 i d a.toNat cmp
      | _ => s)

/-! ## Lookup tables (R271 to R273) -/

/-- R271. The TBLLD of a table that is served next, if it is a group's, reads its last words and ends. It waits while an open
SLUT has bound the buffer. -/
def State.completeFill (s : State) (i : Nat) (table : Nat) : State :=
  match s.groups[i]? with
  | none => s
  | some gr =>
    let k := gkeyTeam gr.key
    match s.nextFill k table with
    | some x =>
      if x.1 = i && s.active gr && !((s.team? k).any fun tm => (tm.tables.getD table {}).bound.any Prod.snd) then
        (s.serveFill k table 256).endFill i gr x.2.1 table
      else s
    | none => s

/-- TBLLD_COMPLETE, R271. The words of tables that are still to be read are read, and with every word in the fill buffers a
TBLLD of the group retires and the buffers exchange, table by table. -/
def execTblldComplete (g : GKey) (s : State) : Host.Outcome State Fault Refusal :=
  event (match s.groupIdx? g with
    | some i => (List.range 4).foldl (fun s table => s.completeFill i table) s
    | none => s)

/-! ## Queue words (R305) -/

/-- R305. Where a word goes: to a thread of a group, or before its team to its node; none where it is discarded.
Log entry 37 (DEDUCED). -/
def State.receiver (s : State) (w : QWord) : Option (Option (GKey × Nat)) :=
  match s.node? w.ctx w.node with
  | none => none
  | some n =>
    let team := w.l.toNat / 4096
    let off := w.l.toNat % 4096
    if n.state == .done || n.state == .refused || decide (n.rec'.count ≤ team) || decide (n.rec'.groups * n.rec'.width ≤ off) then none
    else if s.teams.any fun t => t.key == ⟨w.ctx, w.node, team⟩ then
      some (some (⟨w.ctx, w.node, team, off / n.rec'.width, .lanes⟩, off % n.rec'.width))
    else if team < n.nextTeam then none
    else some none

/-- QUEUE_WORD_DELIVER, R305. A queue word reaches its destination thread's receive queue, or is discarded and its window
place returns; words of one sender to one receiver arrive in order. -/
def execQueueWordDeliver (n : Nat) (s : State) : Host.Outcome State Fault Refusal :=
  event (match s.net[n]? with
    | none => s
    | some w =>
      if (s.net.take n).any fun x => x.src == w.src && x.ctx == w.ctx && x.node == w.node && x.l == w.l then s
      else
        let s1 := { s with net := s.net.eraseIdx n }
        match s1.receiver w with
        | none => (s1.window w.sender false w.node (w.l.toNat / 4096)).settle
        | some none => s1.modNode w.ctx w.node fun x => { x with early := x.early ++ [(w.l, w.value, w.sender)] }
        | some (some p) => match s1.groupIdx? p.1 with
          | some i => (s1.modThread i p.2 fun th => { th with queue := th.queue ++ [(w.value, w.sender)] }).settle
          | none => s1)

/-! ## Barriers and batches (R146, R299) -/

/-- R299. The phase of a barrier ends. -/
def Barrier.advance (b : Barrier) : Barrier :=
  { b with phase := b.phase + 1, last := b.bits.getD b.last, bits := none, came := [], marks := [], arrived := [] }

/-- BARRIER_PHASE_COMPLETE, R299. Every participant has arrived: the entries of the phase are gathered into a batch and
applied first, then the phase advances and the waiting threads become READY. -/
def execBarrierPhaseComplete (team : TKey) (id : Nat) (s : State) : Host.Outcome State Fault Refusal :=
  event (match s.team? team with
    | none => s
    | some t =>
      let b := t.barriers.getD id {}
      let gs := s.lanes team
      if t.saved || !b.complete gs then s
      else match s.phaseEntries team b gs with
        | [] => (s.modTeam team fun t => { t with barriers := t.barriers.modify id Barrier.advance }).settle
        | es => if es.any fun e => e.batch.isNone then (s.makeBatch team.ctx (flushEntry team b gs)).2 else s)

/-- Table 8.6. The bytes that an entry leaves in its target. -/
def applyEntry (kind : BitVec 4) (operand : DWord) (old : List Byte) : List Byte :=
  let t := BitVec.ofNat 32 (bytesNat old)
  let v := loWord operand
  match kind.toNat with
  | 0 => natBytes 4 (aluFadd .rne t v).1.toNat
  | 1 => natBytes 4 (aluBadd2 t v).1.toNat
  | 2 => natBytes 4 (t + v).toNat
  | 3 => natBytes 4 (aluFmin t v).1.toNat
  | 4 => natBytes 4 (aluFmax t v).1.toNat
  | _ => natBytes 8 (BitVec.ofNat 64 (bytesNat old) + operand).toNat

/-- R146. One entry applied: one read-modify-write of its target. -/
def State.applyOne (s : State) (c : Nat) (e : BasketEntry) : State :=
  match (s.ctx c).phys? e.target.toNat with
  | none => s
  | some p => s.engWrite ⟨c, e.node, e.team⟩ p (applyEntry e.kind e.operand (s.engRead p (if e.kind = 5 then 8 else 4)))

/-- The entries of a batch in the order of their application: L, then sequence number. -/
def batchEntries (c : Context) (n : Nat) : List BasketEntry :=
  sortBy (fun (e : BasketEntry) => e.l.toNat * 2 ^ 32 + e.seq.toNat) (c.basket.filter fun e => e.batch == some n)

/-- R146. A DFLUSH retires when the last of its batches has been applied. -/
def Group.endFlush (n : Nat) (g : Group) : Group :=
  match g.fetch with
  | some (.batch ns next threads) =>
    match ns.filter (· != n) with
    | [] => { g with fetch := none, threads := g.threads.mapIdx fun t th => if threads.contains t then th.goOn next else th }
    | rest => { g with fetch := some (.batch rest next threads) }
  | _ => g

/-- R146. A batch has been applied: its entries leave the basket and the log. -/
def State.endBatch (s : State) (n : Nat) : State :=
  let s1 := s.modCtx (n % 64) fun x =>
    { x with batches := x.batches.filter (· != n), basket := x.basket.filter fun e => e.batch != some n }
  { s1 with groups := s1.groups.map (Group.endFlush n) }

/-- R193. The record of a machine check at the application of a basket entry, which names the thread that made it.
Log entry 98 (DEDUCED). -/
def State.entryRecord (s : State) (c : Nat) (e : BasketEntry) : TrapRec :=
  let w := ((s.node? c e.node).map fun n => n.rec'.width).getD 8
  { code := tMachineCheck, control := false, basket := false, core := e.core, pc := 0, l := e.l, detail := 3, time := s.time,
    node := e.node, group := ⟨c, e.node, e.team, e.l.toNat % 4096 / w, .lanes⟩ }

/-- R147. Whether the turn of a batch has come: no batch made before it holds entries of a team that it holds entries of. -/
def Context.inTurn (c : Context) (n : Nat) : Bool :=
  let early := (c.basket.filter fun e => e.batch.any fun m => (c.batches.takeWhile (· != n)).contains m).map fun e => (e.node, e.team)
  (c.basket.filter fun e => e.batch == some n).all fun e => !early.contains (e.node, e.team)

/-- BASKET_BATCH_APPLY, R146. The L2 applies a basket batch in ascending order, each entry one read-modify-write in S; the
batches of one team keep their order (R147). An entry whose target holds poisoned data is a machine check (R193); the batch
is then not applied. -/
def execBasketBatchApply (turn : BatchTurn) (s : State) : Host.Outcome State Fault Refusal :=
  let n := turn.batch
  let c := n % 64
  event (if (s.ctx c).batches.contains n && (s.ctx c).inTurn n then
      let es := batchEntries (s.ctx c) n
      match turn.poisoned.bind fun i => es[i]? with
      | some e => s.checkNode (s.entryRecord c e)
      | none => (es.foldl (fun s e => s.applyOne c e) s).endBatch n
    else s)

/-! ## Page faults (R180) -/

/-- R180. The page of a mapping, of the mapping's size, that holds a 64 KiB unit: its first unit. -/
def pageBase (m : Mapping) (vpage : Nat) : Nat := m.vpage + (vpage - m.vpage) / m.size.units * m.size.units

/-- A mapping with the page that holds a unit apart from the pages before and after it. -/
def splitMapping (vpage : Nat) (mid : Mapping → Option Mapping) (m : Mapping) : List Mapping :=
  if m.vpage ≤ vpage ∧ vpage < m.vpage + m.pages then
    let k := pageBase m vpage - m.vpage
    let n := min m.size.units (m.pages - k)
    (if k = 0 then [] else [{ m with pages := k }])
      ++ (mid { m with vpage := m.vpage + k, ppage := m.ppage + k, pages := n }).toList
      ++ (if k + n = m.pages then [] else
        [{ m with vpage := m.vpage + k + n, ppage := m.ppage + k + n, pages := m.pages - k - n }])
  else [m]

/-- A group's wait for a page of n units from `base`, if it waits for one: the unit, its threads, the thread that met it. -/
def Group.pageWait (g : Group) (base n : Nat) : Option (Nat × List Nat × Nat) :=
  match g.fetch with
  | some (.page v who t) => if base ≤ v ∧ v < base + n then some (v, who, t) else none
  | _ => none

/-- PAGE, for every group that waits for a page that cannot be served. -/
def State.failPage (s : State) (base n : Nat) : List GKey → State
  | [] => s
  | k :: ks =>
    let s1 := match s.groupIdx? k with
      | none => s
      | some i => match (s.groups[i]?).bind fun g => g.pageWait base n with
        | some w => s.takeTrap i w.2.1 w.2.2 tPage (BitVec.ofNat 32 w.1)
        | none => s
    s1.failPage base n ks

/-- PAGE_FAULT_SERVICE, R180. The system cores serve a missing page and fetch resumes, or the instruction traps PAGE.
Log entry 63 (DEDUCED). -/
def execPageFaultService (ctx vpage : Nat) (ok : Bool) (s : State) : Host.Outcome State Fault Refusal :=
  event (match (s.ctx ctx).mapping? vpage with
    | none => s
    | some m =>
      if m.present then s
      else
        let mid := fun (x : Mapping) => if ok then some { x with present := true } else none
        let s1 := s.modCtx ctx fun c => { c with maps := (c.maps.map (splitMapping vpage mid)).flatten }
        let base := pageBase m vpage
        let n := m.size.units
        let waits := fun (g : Group) => g.key.ctx == ctx && (g.pageWait base n).isSome
        let free := fun (g : Group) => if waits g then { g with fetch := none } else g
        if ok then { s1 with groups := s1.groups.map free }
        else s1.failPage base n ((s1.groups.filter waits).map Group.key))

/-! ## Stash lines (R131, R288) -/

/-- STASH_WRITEBACK, R131. A line of a stash window is written back and no longer held. -/
def execStashWriteback (team : TKey) (line : Nat) (s : State) : Host.Outcome State Fault Refusal :=
  event (s.modTeam team fun t => { t with windows := t.windows.map fun w => { w with lines := w.lines.filter fun l => l.line != line } })

/-- R288 step 3. A stash window unmapped: its blocks return to T and read as zero. -/
def unmapWindow (first : Nat) (t : Team) : Team :=
  match t.windows.find? fun w => w.first == first with
  | none => t
  | some w =>
    { t with
      windows := t.windows.filter fun x => x.first != first
      owners := t.owners.mapIdx fun i o => if w.first ≤ i ∧ i < w.first + w.count then .threads else o
      scratch := cellsClear t.scratch (w.first * 4096) ((w.first + w.count) * 4096) }

/-- STFLUSH_WRITEBACK_COMPLETE, R288. Every dirty line of the window is in global memory; STFLUSH unmaps it and retires. -/
def execStflushWritebackComplete (g : GKey) (s : State) : Host.Outcome State Fault Refusal :=
  event (match s.groupIdx? g with
    | none => s
    | some i => match s.groups[i]? with
      | none => s
      | some gr =>
        let first := gr.threads.findSome? fun th => match th.state with
          | .blocked (.stflush f) => some f
          | _ => none
        match first with
        | some f =>
          let set := (List.range gr.threads.length).filter fun t => (gr.thread t).state == .blocked (.stflush f)
          if s.active gr then ((s.modTeam (gkeyTeam g) (unmapWindow f)).endWait i set).settle else s
        | none => s)

end Sys2Proof.Machine
end

