-- ==== Sys2Proof/Machine/Evict.lean ====
section
/-! DEFINITION. Spatial pre-emption (spec/06_scheduler.md R103 to R105): the request for cores, the yield deadline, the
save of an evicted team (spec/10_traps_reliability.md R190, R191, spec/14_isa_memory.md R285, R289), and the return of
cores. -/

namespace Sys2Proof.Machine

/-! ## The request (R103, R104) -/

/-- The teams that an eviction of some cores takes. -/
def State.takenBy (s : State) (c : Nat) (cores : List Nat) : List TKey :=
  (s.teams.filter fun t => t.key.ctx == c && !t.saved && t.cores.any (cores.contains ·)).map Team.key

/-- R104 step 1. The groups of some teams are asked to yield by a cycle; of two deadlines the earlier one stands. -/
def State.askYield (s : State) (keys : List TKey) (d : Nat) : State :=
  { s with
    teams := s.teams.map fun t => if keys.contains t.key then { t with evicting := some (min d (t.evicting.getD d)) } else t
    groups := s.groups.map fun g =>
      if keys.contains (gkeyTeam g.key) && g.key.kind != .handler then { g with yieldReq := true } else g }

/-- CORE_RECLAIM_REQUEST, R103. A request of the partition's owner takes the k highest-numbered cores from a context's
allocation, with a yield deadline of 700 to 2^24 cycles; 0 stands for the default of 14,000.
Log entry 59 (DEDUCED). -/
def execCoreReclaimRequest (ctx k deadline : Nat) (sigOk : Bool) (s : State) : Host.Outcome State Fault Refusal :=
  let c := s.ctx ctx
  let d := if deadline = 0 then 14000 else deadline
  event (if decide (ctx < 64) && sigOk && c.state == .active && decide (k ≤ c.cores.length) && decide (700 ≤ d)
      && decide (d ≤ 2 ^ 24) then
      let sorted := sortBy id c.cores
      let gone := sorted.drop (sorted.length - k)
      let s1 := s.modCtx ctx fun x =>
        { x with cores := sorted.take (sorted.length - k), vacated := sortBy id (x.vacated ++ gone) }
      s1.askYield (s1.takenBy ctx gone) (s.cycle + d)
    else s)

/-- CORE_RETURN, R103. Vacated cores return to the allocation. -/
def execCoreReturn (ctx : Nat) (cores : List Nat) (sigOk : Bool) (s : State) : Host.Outcome State Fault Refusal :=
  event (if decide (ctx < 64) && sigOk && (s.ctx ctx).state == .active && cores.all ((s.ctx ctx).vacated.contains ·) then
      s.modCtx ctx fun x =>
        { x with cores := sortBy id (x.cores ++ cores.eraseDups), vacated := x.vacated.filter fun i => !cores.contains i }
    else s)

/-! ## The deadline (R104 step 3, R191) -/

/-- R104 step 3. The teams of a context whose yield deadline has come. -/
def State.dueTeams (s : State) (c : Nat) : List TKey :=
  (s.teams.filter fun t => t.key.ctx == c && !t.saved && !t.late && t.evicting.any fun d => decide (d ≤ s.cycle)).map Team.key

/-- R191. The handlers for groups of some teams are cut off; their records are delivered again. -/
def State.cutHandlers (s : State) (keys : List TKey) : State :=
  let cut := fun (g : Group) => g.key.kind == .handler && keys.contains (gkeyTeam g.key)
  let back := (s.groups.filter cut).filterMap fun g => g.handler.map fun h => (g.core, h.trap)
  let again := fun (i : Nat) (x : Core) => { x with trapQueue := (back.filter fun p => p.1 == i).map Prod.snd ++ x.trapQueue }
  mapCores { s with groups := s.groups.filter fun g => !cut g } again

/-- R104 step 3. Groups of some teams that still run are stopped by force, at an instruction boundary. -/
def State.forceStop (s : State) (keys : List TKey) : State :=
  let force := fun (g : Group) =>
    if keys.contains (gkeyTeam g.key) && !g.stop && !g.allExited then { g with stop := true, yielded := true } else g
  { s with
    groups := s.groups.map force
    teams := s.teams.map fun t => if keys.contains t.key then { t with late := true } else t }

/-- YIELD_DEADLINE, R104. Groups of the affected teams that still run are stopped by force. -/
def execYieldDeadline (ctx : Nat) (s : State) : Host.Outcome State Fault Refusal :=
  event ((s.cutHandlers (s.dueTeams ctx)).forceStop (s.dueTeams ctx))

/-! ## The save (R104 steps 3 to 5) -/

/-- R285. The data of every issued load is in its registers, which stay pending, and every store has been performed; a
TBLLD that has not retired is issued again (R273). -/
def Thread.save (th : Thread) : Thread :=
  let vals := (th.loads.filter fun r => !r.arrived).map LoadRec.vals
  let th1 := if th.isExited then th else vals.flatten.foldl Thread.land th
  let state := match th1.state with
    | .blocked (.tblld _ _) => ThreadState.ready
    | x => x
  { th1 with loads := th1.loads.map fun r => { r with arrived := true }, stores := 0, state := state }

/-- A group that is saved: an instruction that waited for a page is issued again. -/
def Group.save (g : Group) : Group :=
  let fetch := match g.fetch with
    | some (.page _ _ _) => none
    | x => x
  { g with threads := g.threads.map Thread.save, fetch := fetch, runs := [] }

/-- R372. An SMMA that waits for the sums of its round: it is saved open, with the blocks that it holds. -/
def Cmd.isOpen (q : Cmd) : Bool := q.op == 11 && q.sums.isNone

/-- R104 step 3. Whether a team may be saved: every group has exited or stopped at YIELD, or the deadline has passed, and
its running commands are over (step 4) or open share instructions (R372). -/
def State.maySave (s : State) (t : Team) : Bool :=
  t.evicting.isSome && !t.saved
    && (s.groups.all fun g => gkeyTeam g.key != t.key || (g.key.kind != .handler && (g.allExited || (g.stop && (t.late || g.yielded)))))
    && !(s.cores.any fun x => x.queue.any fun q => q.team == t.key && q.running && !q.isOpen)

/-- R190. An accumulator bank whose slots an eviction has saved, and in which its context holds no other, is freed.
Log entry 44 (DEDUCED). -/
def State.freeBanks (s : State) (c : Nat) (i : Nat) (x : Core) : Core :=
  { x with banks := x.banks.mapIdx fun b h => if h == some c && (s.slotsUsed i b).isEmpty then none else h }

/-- R104 step 5. A team saved: its loads, stores and stash lines are complete, its queued commands go with it, and its
places on the cores are free. -/
def State.saveTeam (s : State) (t : Team) : State :=
  let k := t.key
  let cmds := ((s.cores.map fun x => x.queue.filter fun q => q.team == k)).flatten
  let s1 := s.modTeam k fun x =>
    { x with saved := true, commands := sortBy Cmd.id cmds, windows := x.windows.map fun w => { w with lines := [] } }
  let put := fun (g : Group) => if gkeyTeam g.key == k then g.save else g
  let leave := fun (x : Core) => { x with queue := x.queue.filter fun q => q.team != k }
  let s2 := { s1 with groups := s1.groups.map put, cores := s1.cores.map leave }
  let s3 := (s2.bequeath k.ctx t.cores).modNode k.ctx k.node fun n => { n with evicted := n.evicted ++ [k.team] }
  let banks := fun (i : Nat) (x : Core) => leaveCore s3 k.ctx i (if t.cores.contains i then s3.freeBanks k.ctx i x else x)
  mapCores s3 banks

/-- TEAM_EVICT_SAVE, R104. A stopped team is saved and its node lists it as undispatched again. -/
def execTeamEvictSave (team : TKey) (s : State) : Host.Outcome State Fault Refusal :=
  event (match s.team? team with
    | some t => if s.maySave t then (s.saveTeam t).settle else s
    | none => s)

end Sys2Proof.Machine
end

