-- ==== Sys2Proof/Machine/LaneFp.lean ====
section
/-! DEFINITION. The meanings of the FP32 operations (spec/12_isa_lane_ops.md R245 to R248). -/

namespace Sys2Proof.Machine

/-- R245. What FADD computes. -/
def fnFadd : LaneFn := fun m _ a b => aluFadd m a b

/-- FADD_A, R245. d = FP32 A + B rounded in CTX_ROUND. -/
def execFaddA (y : BitVec 2) (x : BitVec 2) (b : BitVec 6) (a : BitVec 6) (d : BitVec 6) (s : State) : Host.Outcome State Fault Refusal :=
  laneExec (.faddA y x b a d) (formA fnFadd false 0 1 y x b a d) s

/-- FADD_X, R245. d = FP32 P(a) + d. -/
def execFaddX (p : BitVec 6) (t : BitVec 4) (a : BitVec 6) (d : BitVec 6) (s : State) : Host.Outcome State Fault Refusal :=
  laneExec (.faddX p t a d) (formX fnFadd 0 1 p t a d) s

/-- R245. What FSUB computes. -/
def fnFsub : LaneFn := fun m _ a b => aluFsub m a b

/-- FSUB_A, R245. d = FP32 A - B. -/
def execFsubA (y : BitVec 2) (x : BitVec 2) (b : BitVec 6) (a : BitVec 6) (d : BitVec 6) (s : State) : Host.Outcome State Fault Refusal :=
  laneExec (.fsubA y x b a d) (formA fnFsub false 0 1 y x b a d) s

/-- FSUB_X, R245. d = FP32 P(a) - d. -/
def execFsubX (p : BitVec 6) (t : BitVec 4) (a : BitVec 6) (d : BitVec 6) (s : State) : Host.Outcome State Fault Refusal :=
  laneExec (.fsubX p t a d) (formX fnFsub 0 1 p t a d) s

/-- R245. What FMUL computes. -/
def fnFmul : LaneFn := fun m _ a b => aluFmul m a b

/-- FMUL_A, R245. d = FP32 A times B. -/
def execFmulA (y : BitVec 2) (x : BitVec 2) (b : BitVec 6) (a : BitVec 6) (d : BitVec 6) (s : State) : Host.Outcome State Fault Refusal :=
  laneExec (.fmulA y x b a d) (formA fnFmul false 0 1 y x b a d) s

/-- FMUL_X, R245. d = FP32 P(a) times d. -/
def execFmulX (p : BitVec 6) (t : BitVec 4) (a : BitVec 6) (d : BitVec 6) (s : State) : Host.Outcome State Fault Refusal :=
  laneExec (.fmulX p t a d) (formX fnFmul 0 1 p t a d) s

/-- R245. What FMA computes. -/
def fnFma : LaneFn := fun m d a b => aluFma m d a b

/-- FMA_A, R245. d = d + A times B with one rounding. -/
def execFmaA (y : BitVec 2) (x : BitVec 2) (b : BitVec 6) (a : BitVec 6) (d : BitVec 6) (s : State) : Host.Outcome State Fault Refusal :=
  laneExec (.fmaA y x b a d) (formA fnFma true 0 2 y x b a d) s

/-- FMA_X, R245. d = d + P(a) times d with one rounding. -/
def execFmaX (p : BitVec 6) (t : BitVec 4) (a : BitVec 6) (d : BitVec 6) (s : State) : Host.Outcome State Fault Refusal :=
  laneExec (.fmaX p t a d) (formX fnFma 0 2 p t a d) s

/-- R246. What FMIN computes. -/
def fnFmin : LaneFn := fun _ _ a b => aluFmin a b

/-- FMIN_A, R246. d = FP32 minimum of A and B, NaN if either is NaN. -/
def execFminA (y : BitVec 2) (x : BitVec 2) (b : BitVec 6) (a : BitVec 6) (d : BitVec 6) (s : State) : Host.Outcome State Fault Refusal :=
  laneExec (.fminA y x b a d) (formA fnFmin false 0 1 y x b a d) s

/-- FMIN_X, R246. d = FP32 minimum of P(a) and d. -/
def execFminX (p : BitVec 6) (t : BitVec 4) (a : BitVec 6) (d : BitVec 6) (s : State) : Host.Outcome State Fault Refusal :=
  laneExec (.fminX p t a d) (formX fnFmin 0 1 p t a d) s

/-- R246. What FMAX computes. -/
def fnFmax : LaneFn := fun _ _ a b => aluFmax a b

/-- FMAX_A, R246. d = FP32 maximum of A and B, NaN if either is NaN. -/
def execFmaxA (y : BitVec 2) (x : BitVec 2) (b : BitVec 6) (a : BitVec 6) (d : BitVec 6) (s : State) : Host.Outcome State Fault Refusal :=
  laneExec (.fmaxA y x b a d) (formA fnFmax false 0 1 y x b a d) s

/-- FMAX_X, R246. d = FP32 maximum of P(a) and d. -/
def execFmaxX (p : BitVec 6) (t : BitVec 4) (a : BitVec 6) (d : BitVec 6) (s : State) : Host.Outcome State Fault Refusal :=
  laneExec (.fmaxX p t a d) (formX fnFmax 0 1 p t a d) s

/-- R247. What FSEQ computes. -/
def fnFseq : LaneFn := fun _ _ a b => aluFseq a b

/-- FSEQ, R247. d = 1 if FP32 A equals B. -/
def execFseq (y : BitVec 2) (x : BitVec 2) (b : BitVec 6) (a : BitVec 6) (d : BitVec 6) (s : State) : Host.Outcome State Fault Refusal :=
  laneExec (.fseq y x b a d) (formA fnFseq false 0 1 y x b a d) s

/-- R247. What FSLT computes. -/
def fnFslt : LaneFn := fun _ _ a b => aluFslt a b

/-- FSLT, R247. d = 1 if FP32 A is less than B. -/
def execFslt (y : BitVec 2) (x : BitVec 2) (b : BitVec 6) (a : BitVec 6) (d : BitVec 6) (s : State) : Host.Outcome State Fault Refusal :=
  laneExec (.fslt y x b a d) (formA fnFslt false 0 1 y x b a d) s

/-- R247. What FSLE computes. -/
def fnFsle : LaneFn := fun _ _ a b => aluFsle a b

/-- FSLE, R247. d = 1 if FP32 A is at most B. -/
def execFsle (y : BitVec 2) (x : BitVec 2) (b : BitVec 6) (a : BitVec 6) (d : BitVec 6) (s : State) : Host.Outcome State Fault Refusal :=
  laneExec (.fsle y x b a d) (formA fnFsle false 0 1 y x b a d) s

/-- R248. What FSCALE computes. -/
def fnFscale : LaneFn := fun m _ a b => aluFscale m a b

/-- FSCALE_A, R248. d = A times 2^B, rounded once. -/
def execFscaleA (y : BitVec 2) (x : BitVec 2) (b : BitVec 6) (a : BitVec 6) (d : BitVec 6) (s : State) : Host.Outcome State Fault Refusal :=
  laneExec (.fscaleA y x b a d) (formA fnFscale false 0 1 y x b a d) s

/-- FSCALE_I, R248. d = a times 2^sext(imm10), rounded once. -/
def execFscaleI (i : BitVec 10) (a : BitVec 6) (d : BitVec 6) (s : State) : Host.Outcome State Fault Refusal :=
  laneExec (.fscaleI i a d) (formI fnFscale false 0 1 (sx i) a d) s

end Sys2Proof.Machine
end

