-- ==== Sys2Proof/Machine/LaneInt.lean ====
section
/-! DEFINITION. The meanings of the integer operations (spec/12_isa_lane_ops.md R238, R241 to R244). -/

namespace Sys2Proof.Machine

/-- R238. What MOV computes. -/
def fnMov : LaneFn := fun _ _ a _ => (a, 0)

/-- MOV_A, R238. Copies register a to d. -/
def execMovA (x : BitVec 2) (a : BitVec 6) (d : BitVec 6) (s : State) : Host.Outcome State Fault Refusal :=
  laneExec (.movA x a d) (formA1 fnMov 12 0 x a d) s

/-- MOV_X, R238. Copies the permuted a to d. -/
def execMovX (p : BitVec 6) (t : BitVec 4) (a : BitVec 6) (d : BitVec 6) (s : State) : Host.Outcome State Fault Refusal :=
  laneExec (.movX p t a d) (formXMov p t a d) s

/-- MOV_I, R238. Writes the sign-extended immediate to d. -/
def execMovI (i : BitVec 10) (d : BitVec 6) (s : State) : Host.Outcome State Fault Refusal :=
  laneExec (.movI i d) (formW (fun _ _ => sx i) false d) s

/-- R238. What ADD computes. -/
def fnAdd : LaneFn := fun _ _ a b => (a + b, 0)

/-- ADD_A, R238. d = A + B modulo 2^32. -/
def execAddA (y : BitVec 2) (x : BitVec 2) (b : BitVec 6) (a : BitVec 6) (d : BitVec 6) (s : State) : Host.Outcome State Fault Refusal :=
  laneExec (.addA y x b a d) (formA fnAdd false 12 1 y x b a d) s

/-- ADD_X, R238. d = P(a) + d modulo 2^32. -/
def execAddX (p : BitVec 6) (t : BitVec 4) (a : BitVec 6) (d : BitVec 6) (s : State) : Host.Outcome State Fault Refusal :=
  laneExec (.addX p t a d) (formX fnAdd 12 1 p t a d) s

/-- ADD_I, R238. d = a + sext(imm10) modulo 2^32. -/
def execAddI (i : BitVec 10) (a : BitVec 6) (d : BitVec 6) (s : State) : Host.Outcome State Fault Refusal :=
  laneExec (.addI i a d) (formI fnAdd false 12 1 (sx i) a d) s

/-- R238. What SUB computes. -/
def fnSub : LaneFn := fun _ _ a b => (a - b, 0)

/-- SUB_A, R238. d = A - B modulo 2^32. -/
def execSubA (y : BitVec 2) (x : BitVec 2) (b : BitVec 6) (a : BitVec 6) (d : BitVec 6) (s : State) : Host.Outcome State Fault Refusal :=
  laneExec (.subA y x b a d) (formA fnSub false 12 1 y x b a d) s

/-- SUB_X, R238. d = P(a) - d modulo 2^32. -/
def execSubX (p : BitVec 6) (t : BitVec 4) (a : BitVec 6) (d : BitVec 6) (s : State) : Host.Outcome State Fault Refusal :=
  laneExec (.subX p t a d) (formX fnSub 12 1 p t a d) s

/-- SUB_I, R238. d = a - sext(imm10) modulo 2^32. -/
def execSubI (i : BitVec 10) (a : BitVec 6) (d : BitVec 6) (s : State) : Host.Outcome State Fault Refusal :=
  laneExec (.subI i a d) (formI fnSub false 12 1 (sx i) a d) s

/-- R238. What MULLO computes. -/
def fnMullo : LaneFn := fun _ _ a b => (a * b, 0)

/-- MULLO_A, R238. d = low 32 bits of A times B. -/
def execMulloA (y : BitVec 2) (x : BitVec 2) (b : BitVec 6) (a : BitVec 6) (d : BitVec 6) (s : State) : Host.Outcome State Fault Refusal :=
  laneExec (.mulloA y x b a d) (formA fnMullo false 12 1 y x b a d) s

/-- MULLO_X, R238. d = low 32 bits of P(a) times d. -/
def execMulloX (p : BitVec 6) (t : BitVec 4) (a : BitVec 6) (d : BitVec 6) (s : State) : Host.Outcome State Fault Refusal :=
  laneExec (.mulloX p t a d) (formX fnMullo 12 1 p t a d) s

/-- MULLO_I, R238. d = low 32 bits of a times sext(imm10). -/
def execMulloI (i : BitVec 10) (a : BitVec 6) (d : BitVec 6) (s : State) : Host.Outcome State Fault Refusal :=
  laneExec (.mulloI i a d) (formI fnMullo false 12 1 (sx i) a d) s

/-- R238. What MULHI computes. -/
def fnMulhi : LaneFn := fun _ _ a b => (aluMulhi a b, 0)

/-- MULHI, R238. d = high 32 bits of the signed product. -/
def execMulhi (y : BitVec 2) (x : BitVec 2) (b : BitVec 6) (a : BitVec 6) (d : BitVec 6) (s : State) : Host.Outcome State Fault Refusal :=
  laneExec (.mulhi y x b a d) (formA fnMulhi false 12 1 y x b a d) s

/-- R238. What MULHU computes. -/
def fnMulhu : LaneFn := fun _ _ a b => (aluMulhu a b, 0)

/-- MULHU, R238. d = high 32 bits of the unsigned product. -/
def execMulhu (y : BitVec 2) (x : BitVec 2) (b : BitVec 6) (a : BitVec 6) (d : BitVec 6) (s : State) : Host.Outcome State Fault Refusal :=
  laneExec (.mulhu y x b a d) (formA fnMulhu false 12 1 y x b a d) s

/-- R238. What MAD computes. -/
def fnMad : LaneFn := fun _ d a b => (aluMad d a b, 0)

/-- MAD_A, R238. d = d + A times B, low 32 bits. -/
def execMadA (y : BitVec 2) (x : BitVec 2) (b : BitVec 6) (a : BitVec 6) (d : BitVec 6) (s : State) : Host.Outcome State Fault Refusal :=
  laneExec (.madA y x b a d) (formA fnMad true 12 2 y x b a d) s

/-- MAD_I, R238. d = d + a times sext(imm10), low 32 bits. -/
def execMadI (i : BitVec 10) (a : BitVec 6) (d : BitVec 6) (s : State) : Host.Outcome State Fault Refusal :=
  laneExec (.madI i a d) (formI fnMad true 12 2 (sx i) a d) s

/-- R241. What AND computes. -/
def fnAnd : LaneFn := fun _ _ a b => (a &&& b, 0)

/-- AND_A, R241. d = A AND B. -/
def execAndA (y : BitVec 2) (x : BitVec 2) (b : BitVec 6) (a : BitVec 6) (d : BitVec 6) (s : State) : Host.Outcome State Fault Refusal :=
  laneExec (.andA y x b a d) (formA fnAnd false 12 1 y x b a d) s

/-- AND_X, R241. d = P(a) AND d. -/
def execAndX (p : BitVec 6) (t : BitVec 4) (a : BitVec 6) (d : BitVec 6) (s : State) : Host.Outcome State Fault Refusal :=
  laneExec (.andX p t a d) (formX fnAnd 12 1 p t a d) s

/-- AND_I, R241. d = a AND zext(imm10). -/
def execAndI (i : BitVec 10) (a : BitVec 6) (d : BitVec 6) (s : State) : Host.Outcome State Fault Refusal :=
  laneExec (.andI i a d) (formI fnAnd false 12 1 (zx i) a d) s

/-- R241. What OR computes. -/
def fnOr : LaneFn := fun _ _ a b => (a ||| b, 0)

/-- OR_A, R241. d = A OR B. -/
def execOrA (y : BitVec 2) (x : BitVec 2) (b : BitVec 6) (a : BitVec 6) (d : BitVec 6) (s : State) : Host.Outcome State Fault Refusal :=
  laneExec (.orA y x b a d) (formA fnOr false 12 1 y x b a d) s

/-- OR_X, R241. d = P(a) OR d. -/
def execOrX (p : BitVec 6) (t : BitVec 4) (a : BitVec 6) (d : BitVec 6) (s : State) : Host.Outcome State Fault Refusal :=
  laneExec (.orX p t a d) (formX fnOr 12 1 p t a d) s

/-- OR_I, R241. d = a OR zext(imm10). -/
def execOrI (i : BitVec 10) (a : BitVec 6) (d : BitVec 6) (s : State) : Host.Outcome State Fault Refusal :=
  laneExec (.orI i a d) (formI fnOr false 12 1 (zx i) a d) s

/-- R241. What XOR computes. -/
def fnXor : LaneFn := fun _ _ a b => (a ^^^ b, 0)

/-- XOR_A, R241. d = A XOR B. -/
def execXorA (y : BitVec 2) (x : BitVec 2) (b : BitVec 6) (a : BitVec 6) (d : BitVec 6) (s : State) : Host.Outcome State Fault Refusal :=
  laneExec (.xorA y x b a d) (formA fnXor false 12 1 y x b a d) s

/-- XOR_X, R241. d = P(a) XOR d. -/
def execXorX (p : BitVec 6) (t : BitVec 4) (a : BitVec 6) (d : BitVec 6) (s : State) : Host.Outcome State Fault Refusal :=
  laneExec (.xorX p t a d) (formX fnXor 12 1 p t a d) s

/-- XOR_I, R241. d = a XOR zext(imm10). -/
def execXorI (i : BitVec 10) (a : BitVec 6) (d : BitVec 6) (s : State) : Host.Outcome State Fault Refusal :=
  laneExec (.xorI i a d) (formI fnXor false 12 1 (zx i) a d) s

/-- R241. What ANDN computes. -/
def fnAndn : LaneFn := fun _ _ a b => (aluAndn a b, 0)

/-- ANDN_A, R241. d = A AND NOT B. -/
def execAndnA (y : BitVec 2) (x : BitVec 2) (b : BitVec 6) (a : BitVec 6) (d : BitVec 6) (s : State) : Host.Outcome State Fault Refusal :=
  laneExec (.andnA y x b a d) (formA fnAndn false 12 1 y x b a d) s

/-- ANDN_X, R241. d = P(a) AND NOT d. -/
def execAndnX (p : BitVec 6) (t : BitVec 4) (a : BitVec 6) (d : BitVec 6) (s : State) : Host.Outcome State Fault Refusal :=
  laneExec (.andnX p t a d) (formX fnAndn 12 1 p t a d) s

/-- ANDN_I, R241. d = a AND NOT zext(imm10). -/
def execAndnI (i : BitVec 10) (a : BitVec 6) (d : BitVec 6) (s : State) : Host.Outcome State Fault Refusal :=
  laneExec (.andnI i a d) (formI fnAndn false 12 1 (zx i) a d) s

/-- R241. What SHL computes. -/
def fnShl : LaneFn := fun _ _ a b => (aluShl a b, 0)

/-- SHL_A, R241. d = A shifted left by B[4:0]. -/
def execShlA (y : BitVec 2) (x : BitVec 2) (b : BitVec 6) (a : BitVec 6) (d : BitVec 6) (s : State) : Host.Outcome State Fault Refusal :=
  laneExec (.shlA y x b a d) (formA fnShl false 12 1 y x b a d) s

/-- SHL_I, R241. d = a shifted left by imm10 (0-31). -/
def execShlI (i : BitVec 10) (a : BitVec 6) (d : BitVec 6) (s : State) : Host.Outcome State Fault Refusal :=
  laneExec (.shlI i a d) (formI fnShl false 12 1 (zx i) a d) s

/-- R241. What SHR computes. -/
def fnShr : LaneFn := fun _ _ a b => (aluShr a b, 0)

/-- SHR_A, R241. d = A shifted right with zero fill by B[4:0]. -/
def execShrA (y : BitVec 2) (x : BitVec 2) (b : BitVec 6) (a : BitVec 6) (d : BitVec 6) (s : State) : Host.Outcome State Fault Refusal :=
  laneExec (.shrA y x b a d) (formA fnShr false 12 1 y x b a d) s

/-- SHR_I, R241. d = a shifted right with zero fill by imm10. -/
def execShrI (i : BitVec 10) (a : BitVec 6) (d : BitVec 6) (s : State) : Host.Outcome State Fault Refusal :=
  laneExec (.shrI i a d) (formI fnShr false 12 1 (zx i) a d) s

/-- R241. What SRA computes. -/
def fnSra : LaneFn := fun _ _ a b => (aluSra a b, 0)

/-- SRA_A, R241. d = A shifted right with sign fill by B[4:0]. -/
def execSraA (y : BitVec 2) (x : BitVec 2) (b : BitVec 6) (a : BitVec 6) (d : BitVec 6) (s : State) : Host.Outcome State Fault Refusal :=
  laneExec (.sraA y x b a d) (formA fnSra false 12 1 y x b a d) s

/-- SRA_I, R241. d = a shifted right with sign fill by imm10. -/
def execSraI (i : BitVec 10) (a : BitVec 6) (d : BitVec 6) (s : State) : Host.Outcome State Fault Refusal :=
  laneExec (.sraI i a d) (formI fnSra false 12 1 (zx i) a d) s

/-- R243. What MIN computes. -/
def fnMin : LaneFn := fun _ _ a b => (aluMin a b, 0)

/-- MIN_A, R243. d = signed minimum of A and B. -/
def execMinA (y : BitVec 2) (x : BitVec 2) (b : BitVec 6) (a : BitVec 6) (d : BitVec 6) (s : State) : Host.Outcome State Fault Refusal :=
  laneExec (.minA y x b a d) (formA fnMin false 12 1 y x b a d) s

/-- MIN_X, R243. d = signed minimum of P(a) and d. -/
def execMinX (p : BitVec 6) (t : BitVec 4) (a : BitVec 6) (d : BitVec 6) (s : State) : Host.Outcome State Fault Refusal :=
  laneExec (.minX p t a d) (formX fnMin 12 1 p t a d) s

/-- MIN_I, R243. d = signed minimum of a and sext(imm10). -/
def execMinI (i : BitVec 10) (a : BitVec 6) (d : BitVec 6) (s : State) : Host.Outcome State Fault Refusal :=
  laneExec (.minI i a d) (formI fnMin false 12 1 (sx i) a d) s

/-- R243. What MAX computes. -/
def fnMax : LaneFn := fun _ _ a b => (aluMax a b, 0)

/-- MAX_A, R243. d = signed maximum of A and B. -/
def execMaxA (y : BitVec 2) (x : BitVec 2) (b : BitVec 6) (a : BitVec 6) (d : BitVec 6) (s : State) : Host.Outcome State Fault Refusal :=
  laneExec (.maxA y x b a d) (formA fnMax false 12 1 y x b a d) s

/-- MAX_X, R243. d = signed maximum of P(a) and d. -/
def execMaxX (p : BitVec 6) (t : BitVec 4) (a : BitVec 6) (d : BitVec 6) (s : State) : Host.Outcome State Fault Refusal :=
  laneExec (.maxX p t a d) (formX fnMax 12 1 p t a d) s

/-- MAX_I, R243. d = signed maximum of a and sext(imm10). -/
def execMaxI (i : BitVec 10) (a : BitVec 6) (d : BitVec 6) (s : State) : Host.Outcome State Fault Refusal :=
  laneExec (.maxI i a d) (formI fnMax false 12 1 (sx i) a d) s

/-- R243. What MINU computes. -/
def fnMinu : LaneFn := fun _ _ a b => (aluMinu a b, 0)

/-- MINU_A, R243. d = unsigned minimum of A and B. -/
def execMinuA (y : BitVec 2) (x : BitVec 2) (b : BitVec 6) (a : BitVec 6) (d : BitVec 6) (s : State) : Host.Outcome State Fault Refusal :=
  laneExec (.minuA y x b a d) (formA fnMinu false 12 1 y x b a d) s

/-- MINU_X, R243. d = unsigned minimum of P(a) and d. -/
def execMinuX (p : BitVec 6) (t : BitVec 4) (a : BitVec 6) (d : BitVec 6) (s : State) : Host.Outcome State Fault Refusal :=
  laneExec (.minuX p t a d) (formX fnMinu 12 1 p t a d) s

/-- MINU_I, R243. d = unsigned minimum of a and sext(imm10). -/
def execMinuI (i : BitVec 10) (a : BitVec 6) (d : BitVec 6) (s : State) : Host.Outcome State Fault Refusal :=
  laneExec (.minuI i a d) (formI fnMinu false 12 1 (sx i) a d) s

/-- R243. What MAXU computes. -/
def fnMaxu : LaneFn := fun _ _ a b => (aluMaxu a b, 0)

/-- MAXU_A, R243. d = unsigned maximum of A and B. -/
def execMaxuA (y : BitVec 2) (x : BitVec 2) (b : BitVec 6) (a : BitVec 6) (d : BitVec 6) (s : State) : Host.Outcome State Fault Refusal :=
  laneExec (.maxuA y x b a d) (formA fnMaxu false 12 1 y x b a d) s

/-- MAXU_X, R243. d = unsigned maximum of P(a) and d. -/
def execMaxuX (p : BitVec 6) (t : BitVec 4) (a : BitVec 6) (d : BitVec 6) (s : State) : Host.Outcome State Fault Refusal :=
  laneExec (.maxuX p t a d) (formX fnMaxu 12 1 p t a d) s

/-- MAXU_I, R243. d = unsigned maximum of a and sext(imm10). -/
def execMaxuI (i : BitVec 10) (a : BitVec 6) (d : BitVec 6) (s : State) : Host.Outcome State Fault Refusal :=
  laneExec (.maxuI i a d) (formI fnMaxu false 12 1 (sx i) a d) s

/-- R243. What SEQ computes. -/
def fnSeq : LaneFn := fun _ _ a b => (aluSeq a b, 0)

/-- SEQ_A, R243. d = 1 if A equals B, else 0. -/
def execSeqA (y : BitVec 2) (x : BitVec 2) (b : BitVec 6) (a : BitVec 6) (d : BitVec 6) (s : State) : Host.Outcome State Fault Refusal :=
  laneExec (.seqA y x b a d) (formA fnSeq false 12 1 y x b a d) s

/-- SEQ_I, R243. d = 1 if a equals sext(imm10), else 0. -/
def execSeqI (i : BitVec 10) (a : BitVec 6) (d : BitVec 6) (s : State) : Host.Outcome State Fault Refusal :=
  laneExec (.seqI i a d) (formI fnSeq false 12 1 (sx i) a d) s

/-- R243. What SNE computes. -/
def fnSne : LaneFn := fun _ _ a b => (aluSne a b, 0)

/-- SNE_A, R243. d = 1 if A differs from B, else 0. -/
def execSneA (y : BitVec 2) (x : BitVec 2) (b : BitVec 6) (a : BitVec 6) (d : BitVec 6) (s : State) : Host.Outcome State Fault Refusal :=
  laneExec (.sneA y x b a d) (formA fnSne false 12 1 y x b a d) s

/-- SNE_I, R243. d = 1 if a differs from sext(imm10), else 0. -/
def execSneI (i : BitVec 10) (a : BitVec 6) (d : BitVec 6) (s : State) : Host.Outcome State Fault Refusal :=
  laneExec (.sneI i a d) (formI fnSne false 12 1 (sx i) a d) s

/-- R243. What SLT computes. -/
def fnSlt : LaneFn := fun _ _ a b => (aluSlt a b, 0)

/-- SLT_A, R243. d = 1 if A is less than B, signed. -/
def execSltA (y : BitVec 2) (x : BitVec 2) (b : BitVec 6) (a : BitVec 6) (d : BitVec 6) (s : State) : Host.Outcome State Fault Refusal :=
  laneExec (.sltA y x b a d) (formA fnSlt false 12 1 y x b a d) s

/-- SLT_I, R243. d = 1 if a is less than sext(imm10), signed. -/
def execSltI (i : BitVec 10) (a : BitVec 6) (d : BitVec 6) (s : State) : Host.Outcome State Fault Refusal :=
  laneExec (.sltI i a d) (formI fnSlt false 12 1 (sx i) a d) s

/-- R243. What SLE computes. -/
def fnSle : LaneFn := fun _ _ a b => (aluSle a b, 0)

/-- SLE_A, R243. d = 1 if A is at most B, signed. -/
def execSleA (y : BitVec 2) (x : BitVec 2) (b : BitVec 6) (a : BitVec 6) (d : BitVec 6) (s : State) : Host.Outcome State Fault Refusal :=
  laneExec (.sleA y x b a d) (formA fnSle false 12 1 y x b a d) s

/-- SLE_I, R243. d = 1 if a is at most sext(imm10), signed. -/
def execSleI (i : BitVec 10) (a : BitVec 6) (d : BitVec 6) (s : State) : Host.Outcome State Fault Refusal :=
  laneExec (.sleI i a d) (formI fnSle false 12 1 (sx i) a d) s

/-- R243. What SLTU computes. -/
def fnSltu : LaneFn := fun _ _ a b => (aluSltu a b, 0)

/-- SLTU_A, R243. d = 1 if A is less than B, unsigned. -/
def execSltuA (y : BitVec 2) (x : BitVec 2) (b : BitVec 6) (a : BitVec 6) (d : BitVec 6) (s : State) : Host.Outcome State Fault Refusal :=
  laneExec (.sltuA y x b a d) (formA fnSltu false 12 1 y x b a d) s

/-- SLTU_I, R243. d = 1 if a is less than sext(imm10), unsigned. -/
def execSltuI (i : BitVec 10) (a : BitVec 6) (d : BitVec 6) (s : State) : Host.Outcome State Fault Refusal :=
  laneExec (.sltuI i a d) (formI fnSltu false 12 1 (sx i) a d) s

/-- R243. What SLEU computes. -/
def fnSleu : LaneFn := fun _ _ a b => (aluSleu a b, 0)

/-- SLEU_A, R243. d = 1 if A is at most B, unsigned. -/
def execSleuA (y : BitVec 2) (x : BitVec 2) (b : BitVec 6) (a : BitVec 6) (d : BitVec 6) (s : State) : Host.Outcome State Fault Refusal :=
  laneExec (.sleuA y x b a d) (formA fnSleu false 12 1 y x b a d) s

/-- SLEU_I, R243. d = 1 if a is at most sext(imm10), unsigned. -/
def execSleuI (i : BitVec 10) (a : BitVec 6) (d : BitVec 6) (s : State) : Host.Outcome State Fault Refusal :=
  laneExec (.sleuI i a d) (formI fnSleu false 12 1 (sx i) a d) s

/-- SELT, R244. Writes a to d in threads where b is nonzero.
Log entry 26 (DEDUCED). -/
def execSelt (y : BitVec 2) (x : BitVec 2) (b : BitVec 6) (a : BitVec 6) (d : BitVec 6) (s : State) : Host.Outcome State Fault Refusal :=
  withIssue (.selt y x b a d) s (selectRun true y x b a d)

/-- SELF, R244. Writes a to d in threads where b is zero. -/
def execSelf (y : BitVec 2) (x : BitVec 2) (b : BitVec 6) (a : BitVec 6) (d : BitVec 6) (s : State) : Host.Outcome State Fault Refusal :=
  withIssue (.self y x b a d) s (selectRun false y x b a d)

/-- R242. What POPC computes. -/
def fnPopc : LaneFn := fun _ _ a _ => (aluPopc a, 0)

/-- POPC, R242. d = number of set bits of A. -/
def execPopc (x : BitVec 2) (a : BitVec 6) (d : BitVec 6) (s : State) : Host.Outcome State Fault Refusal :=
  laneExec (.popc x a d) (formA1 fnPopc 12 1 x a d) s

/-- R242. What CLZ computes. -/
def fnClz : LaneFn := fun _ _ a _ => (aluClz a, 0)

/-- CLZ, R242. d = number of leading zero bits of A. -/
def execClz (x : BitVec 2) (a : BitVec 6) (d : BitVec 6) (s : State) : Host.Outcome State Fault Refusal :=
  laneExec (.clz x a d) (formA1 fnClz 12 1 x a d) s

/-- R242. What BREV computes. -/
def fnBrev : LaneFn := fun _ _ a _ => (aluBrev a, 0)

/-- BREV_A, R242. d = A with its bits reversed. -/
def execBrevA (x : BitVec 2) (a : BitVec 6) (d : BitVec 6) (s : State) : Host.Outcome State Fault Refusal :=
  laneExec (.brevA x a d) (formA1 fnBrev 12 1 x a d) s

end Sys2Proof.Machine
end

