-- ==== Sys2Proof/Machine/LanePacked.lean ====
section
/-! DEFINITION. The meanings of the packed 16-bit and 8-bit operations (spec/12_isa_lane_ops.md R249 to R254). -/

namespace Sys2Proof.Machine

/-- R249. What BADD2 computes. -/
def fnBadd2 : LaneFn := fun _ _ a b => aluBadd2 a b

/-- BADD2_A, R249. Packed BF16 add of A and B per half, RNE. -/
def execBadd2A (y : BitVec 2) (x : BitVec 2) (b : BitVec 6) (a : BitVec 6) (d : BitVec 6) (s : State) : Host.Outcome State Fault Refusal :=
  laneExec (.badd2A y x b a d) (formA fnBadd2 false 2 2 y x b a d) s

/-- BADD2_X, R249. Packed BF16 add of P(a) and d per half. -/
def execBadd2X (p : BitVec 6) (t : BitVec 4) (a : BitVec 6) (d : BitVec 6) (s : State) : Host.Outcome State Fault Refusal :=
  laneExec (.badd2X p t a d) (formX fnBadd2 2 2 p t a d) s

/-- R249. What BMUL2 computes. -/
def fnBmul2 : LaneFn := fun _ _ a b => aluBmul2 a b

/-- BMUL2_A, R249. Packed BF16 multiply of A and B per half. -/
def execBmul2A (y : BitVec 2) (x : BitVec 2) (b : BitVec 6) (a : BitVec 6) (d : BitVec 6) (s : State) : Host.Outcome State Fault Refusal :=
  laneExec (.bmul2A y x b a d) (formA fnBmul2 false 2 2 y x b a d) s

/-- BMUL2_X, R249. Packed BF16 multiply of P(a) and d per half. -/
def execBmul2X (p : BitVec 6) (t : BitVec 4) (a : BitVec 6) (d : BitVec 6) (s : State) : Host.Outcome State Fault Refusal :=
  laneExec (.bmul2X p t a d) (formX fnBmul2 2 2 p t a d) s

/-- R249. What BFMA2 computes. -/
def fnBfma2 : LaneFn := fun _ d a b => aluBfma2 d a b

/-- BFMA2_A, R249. Packed BF16 fused multiply-add into d per half. -/
def execBfma2A (y : BitVec 2) (x : BitVec 2) (b : BitVec 6) (a : BitVec 6) (d : BitVec 6) (s : State) : Host.Outcome State Fault Refusal :=
  laneExec (.bfma2A y x b a d) (formA fnBfma2 true 2 4 y x b a d) s

/-- BFMA2_X, R249. Packed BF16 fused multiply-add of P(a) and d into d. -/
def execBfma2X (p : BitVec 6) (t : BitVec 4) (a : BitVec 6) (d : BitVec 6) (s : State) : Host.Outcome State Fault Refusal :=
  laneExec (.bfma2X p t a d) (formX fnBfma2 2 4 p t a d) s

/-- R249. What HFMA2 computes. -/
def fnHfma2 : LaneFn := fun _ d a b => aluHfma2 d a b

/-- HFMA2_A, R249. Packed F16 fused multiply-add into d per half. -/
def execHfma2A (y : BitVec 2) (x : BitVec 2) (b : BitVec 6) (a : BitVec 6) (d : BitVec 6) (s : State) : Host.Outcome State Fault Refusal :=
  laneExec (.hfma2A y x b a d) (formA fnHfma2 true 3 4 y x b a d) s

/-- HFMA2_X, R249. Packed F16 fused multiply-add of P(a) and d into d. -/
def execHfma2X (p : BitVec 6) (t : BitVec 4) (a : BitVec 6) (d : BitVec 6) (s : State) : Host.Outcome State Fault Refusal :=
  laneExec (.hfma2X p t a d) (formX fnHfma2 3 4 p t a d) s

/-- R249. What HADD2 computes. -/
def fnHadd2 : LaneFn := fun _ _ a b => aluHadd2 a b

/-- HADD2_A, R249. Packed F16 add of A and B per half. -/
def execHadd2A (y : BitVec 2) (x : BitVec 2) (b : BitVec 6) (a : BitVec 6) (d : BitVec 6) (s : State) : Host.Outcome State Fault Refusal :=
  laneExec (.hadd2A y x b a d) (formA fnHadd2 false 3 2 y x b a d) s

/-- HADD2_X, R249. Packed F16 add of P(a) and d per half. -/
def execHadd2X (p : BitVec 6) (t : BitVec 4) (a : BitVec 6) (d : BitVec 6) (s : State) : Host.Outcome State Fault Refusal :=
  laneExec (.hadd2X p t a d) (formX fnHadd2 3 2 p t a d) s

/-- R250. What IADD2S computes. -/
def fnIadd2s : LaneFn := fun _ _ a b => aluIadd2s a b

/-- IADD2S_A, R250. Packed int16 saturating add of A and B. -/
def execIadd2sA (y : BitVec 2) (x : BitVec 2) (b : BitVec 6) (a : BitVec 6) (d : BitVec 6) (s : State) : Host.Outcome State Fault Refusal :=
  laneExec (.iadd2sA y x b a d) (formA fnIadd2s false 11 2 y x b a d) s

/-- IADD2S_X, R250. Packed int16 saturating add of P(a) and d. -/
def execIadd2sX (p : BitVec 6) (t : BitVec 4) (a : BitVec 6) (d : BitVec 6) (s : State) : Host.Outcome State Fault Refusal :=
  laneExec (.iadd2sX p t a d) (formX fnIadd2s 11 2 p t a d) s

/-- R250. What ISUB2S computes. -/
def fnIsub2s : LaneFn := fun _ _ a b => aluIsub2s a b

/-- ISUB2S_A, R250. Packed int16 saturating subtract A - B. -/
def execIsub2sA (y : BitVec 2) (x : BitVec 2) (b : BitVec 6) (a : BitVec 6) (d : BitVec 6) (s : State) : Host.Outcome State Fault Refusal :=
  laneExec (.isub2sA y x b a d) (formA fnIsub2s false 11 2 y x b a d) s

/-- ISUB2S_X, R250. Packed int16 saturating subtract P(a) - d. -/
def execIsub2sX (p : BitVec 6) (t : BitVec 4) (a : BitVec 6) (d : BitVec 6) (s : State) : Host.Outcome State Fault Refusal :=
  laneExec (.isub2sX p t a d) (formX fnIsub2s 11 2 p t a d) s

/-- R251. What IDOT2 computes. -/
def fnIdot2 : LaneFn := fun _ d a b => aluIdot2 d a b

/-- IDOT2_A, R251. d = sat32(d + two-term int16 dot product of A and B). -/
def execIdot2A (y : BitVec 2) (x : BitVec 2) (b : BitVec 6) (a : BitVec 6) (d : BitVec 6) (s : State) : Host.Outcome State Fault Refusal :=
  laneExec (.idot2A y x b a d) (formA fnIdot2 true 11 4 y x b a d) s

/-- IDOT2_X, R251. d = sat32(d + int16 dot product of P(a) and d). -/
def execIdot2X (p : BitVec 6) (t : BitVec 4) (a : BitVec 6) (d : BitVec 6) (s : State) : Host.Outcome State Fault Refusal :=
  laneExec (.idot2X p t a d) (formX fnIdot2 11 4 p t a d) s

/-- R252. What IDOT4 computes. -/
def fnIdot4 : LaneFn := fun _ d a b => aluIdot4 d a b

/-- IDOT4_A, R252. d = sat32(d + four-term signed byte dot product of A and B). -/
def execIdot4A (y : BitVec 2) (x : BitVec 2) (b : BitVec 6) (a : BitVec 6) (d : BitVec 6) (s : State) : Host.Outcome State Fault Refusal :=
  laneExec (.idot4A y x b a d) (formA fnIdot4 true 8 8 y x b a d) s

/-- IDOT4_X, R252. d = sat32(d + signed byte dot product of P(a) and d). -/
def execIdot4X (p : BitVec 6) (t : BitVec 4) (a : BitVec 6) (d : BitVec 6) (s : State) : Host.Outcome State Fault Refusal :=
  laneExec (.idot4X p t a d) (formX fnIdot4 8 8 p t a d) s

/-- R253. What ISHR2R computes. -/
def fnIshr2r : LaneFn := fun _ _ a b => aluIshr2r a b

/-- ISHR2R_A, R253. Shifts each int16 half by signed B[4:0], rounding right shifts and saturating left shifts. -/
def execIshr2rA (y : BitVec 2) (x : BitVec 2) (b : BitVec 6) (a : BitVec 6) (d : BitVec 6) (s : State) : Host.Outcome State Fault Refusal :=
  laneExec (.ishr2rA y x b a d) (formA fnIshr2r false 11 2 y x b a d) s

/-- ISHR2R_I, R253. Shifts each int16 half by a signed 5-bit immediate. -/
def execIshr2rI (i : BitVec 5) (a : BitVec 6) (d : BitVec 6) (s : State) : Host.Outcome State Fault Refusal :=
  laneExec (.ishr2rI i a d) (formI fnIshr2r false 11 2 (i.zeroExtend 32) a d) s

/-- R254. What IPACK2S computes. -/
def fnIpack2s : LaneFn := fun _ _ a b => aluIpack2s a b

/-- IPACK2S, R254. Packs sat16(A) and sat16(B) into the two halves of d. -/
def execIpack2s (y : BitVec 2) (x : BitVec 2) (b : BitVec 6) (a : BitVec 6) (d : BitVec 6) (s : State) : Host.Outcome State Fault Refusal :=
  laneExec (.ipack2s y x b a d) (formA fnIpack2s false 11 2 y x b a d) s

end Sys2Proof.Machine
end

