-- ==== Sys2Proof/Machine/LaneWide.lean ====
section
/-! DEFINITION. The 16-bit forms (spec/11_isa_encoding.md R207) and the wide immediates (R228). -/

namespace Sys2Proof.Machine

/-- R207. The A form d, d, s that a 16-bit operation stands for. -/
def form16 (f : LaneFn) (cat : Nat) (l : BitVec 1) (s d : BitVec 5) : LaneOp :=
  formA f false cat 1 (mark16 l) 0 (reg16 s) (reg16 d) (reg16 d)

/-- MOV_16, R207. 16-bit form of A-form MOV d, s. -/
def execMov16 (l : BitVec 1) (r : BitVec 5) (d : BitVec 5) (s : State) : Host.Outcome State Fault Refusal :=
  laneExec (.mov16 l r d) (formA1 fnMov 12 0 (mark16 l) (reg16 r) (reg16 d)) s

/-- ADD_16, R207. 16-bit form of ADD d, d, s. -/
def execAdd16 (l : BitVec 1) (r : BitVec 5) (d : BitVec 5) (s : State) : Host.Outcome State Fault Refusal :=
  laneExec (.add16 l r d) (form16 fnAdd 12 l r d) s

/-- SUB_16, R207. 16-bit form of SUB d, d, s. -/
def execSub16 (l : BitVec 1) (r : BitVec 5) (d : BitVec 5) (s : State) : Host.Outcome State Fault Refusal :=
  laneExec (.sub16 l r d) (form16 fnSub 12 l r d) s

/-- AND_16, R207. 16-bit form of AND d, d, s. -/
def execAnd16 (l : BitVec 1) (r : BitVec 5) (d : BitVec 5) (s : State) : Host.Outcome State Fault Refusal :=
  laneExec (.and16 l r d) (form16 fnAnd 12 l r d) s

/-- OR_16, R207. 16-bit form of OR d, d, s. -/
def execOr16 (l : BitVec 1) (r : BitVec 5) (d : BitVec 5) (s : State) : Host.Outcome State Fault Refusal :=
  laneExec (.or16 l r d) (form16 fnOr 12 l r d) s

/-- XOR_16, R207. 16-bit form of XOR d, d, s. -/
def execXor16 (l : BitVec 1) (r : BitVec 5) (d : BitVec 5) (s : State) : Host.Outcome State Fault Refusal :=
  laneExec (.xor16 l r d) (form16 fnXor 12 l r d) s

/-- SHL_16, R207. 16-bit form of SHL d, d, s. -/
def execShl16 (l : BitVec 1) (r : BitVec 5) (d : BitVec 5) (s : State) : Host.Outcome State Fault Refusal :=
  laneExec (.shl16 l r d) (form16 fnShl 12 l r d) s

/-- SHR_16, R207. 16-bit form of SHR d, d, s. -/
def execShr16 (l : BitVec 1) (r : BitVec 5) (d : BitVec 5) (s : State) : Host.Outcome State Fault Refusal :=
  laneExec (.shr16 l r d) (form16 fnShr 12 l r d) s

/-- SRA_16, R207. 16-bit form of SRA d, d, s. -/
def execSra16 (l : BitVec 1) (r : BitVec 5) (d : BitVec 5) (s : State) : Host.Outcome State Fault Refusal :=
  laneExec (.sra16 l r d) (form16 fnSra 12 l r d) s

/-- MULLO_16, R207. 16-bit form of MULLO d, d, s. -/
def execMullo16 (l : BitVec 1) (r : BitVec 5) (d : BitVec 5) (s : State) : Host.Outcome State Fault Refusal :=
  laneExec (.mullo16 l r d) (form16 fnMullo 12 l r d) s

/-- FADD_16, R207. 16-bit form of FADD d, d, s. -/
def execFadd16 (l : BitVec 1) (r : BitVec 5) (d : BitVec 5) (s : State) : Host.Outcome State Fault Refusal :=
  laneExec (.fadd16 l r d) (form16 fnFadd 0 l r d) s

/-- FSUB_16, R207. 16-bit form of FSUB d, d, s. -/
def execFsub16 (l : BitVec 1) (r : BitVec 5) (d : BitVec 5) (s : State) : Host.Outcome State Fault Refusal :=
  laneExec (.fsub16 l r d) (form16 fnFsub 0 l r d) s

/-- FMUL_16, R207. 16-bit form of FMUL d, d, s. -/
def execFmul16 (l : BitVec 1) (r : BitVec 5) (d : BitVec 5) (s : State) : Host.Outcome State Fault Refusal :=
  laneExec (.fmul16 l r d) (form16 fnFmul 0 l r d) s

/-- FMAX_16, R207. 16-bit form of FMAX d, d, s. -/
def execFmax16 (l : BitVec 1) (r : BitVec 5) (d : BitVec 5) (s : State) : Host.Outcome State Fault Refusal :=
  laneExec (.fmax16 l r d) (form16 fnFmax 0 l r d) s

/-- FMIN_16, R207. 16-bit form of FMIN d, d, s. -/
def execFmin16 (l : BitVec 1) (r : BitVec 5) (d : BitVec 5) (s : State) : Host.Outcome State Fault Refusal :=
  laneExec (.fmin16 l r d) (form16 fnFmin 0 l r d) s

/-- MOVI_16, R207. 16-bit move of a 6-bit signed immediate to d. -/
def execMovi16 (i : BitVec 6) (d : BitVec 5) (s : State) : Host.Outcome State Fault Refusal :=
  laneExec (.movi16 i d) (formW (fun _ _ => i.signExtend 32) false (reg16 d)) s

/-- MOVI, R228. d = sext(imm16). -/
def execMovi (h : BitVec 16) (d : BitVec 6) (s : State) : Host.Outcome State Fault Refusal :=
  laneExec (.movi h d) (formW (fun _ _ => h.signExtend 32) false d) s

/-- MOVHI, R228. d[31:16] = imm16, low half unchanged. -/
def execMovhi (h : BitVec 16) (d : BitVec 6) (s : State) : Host.Outcome State Fault Refusal :=
  laneExec (.movhi h d) (formW (fun o _ => h ++ lo16 o) true d) s

/-- ADDI, R228. d = d + sext(imm16) modulo 2^32. -/
def execAddi (h : BitVec 16) (d : BitVec 6) (s : State) : Host.Outcome State Fault Refusal :=
  laneExec (.addi h d) (formW (fun o _ => o + h.signExtend 32) true d) s

/-- MOVBF, R228. d = imm16 shifted left 16. -/
def execMovbf (h : BitVec 16) (d : BitVec 6) (s : State) : Host.Outcome State Fault Refusal :=
  laneExec (.movbf h d) (formW (fun _ _ => h ++ (0 : BitVec 16)) false d) s

/-- LPC, R228. d = PC + 2 times sext(imm16). -/
def execLpc (h : BitVec 16) (d : BitVec 6) (s : State) : Host.Outcome State Fault Refusal :=
  laneExec (.lpc h d) (formW (fun _ pc => pc + (2 : Word) * h.signExtend 32) false d) s

end Sys2Proof.Machine
end

