-- ==== Sys2Proof/Machine/Dispatch.lean ====
section
/-! DEFINITION. The dispatch: one arm per constructor of Instr, each one direct call of its meaning. -/

namespace Sys2Proof.Machine

def exec (i : Instr) (s : State) : Host.Outcome State Fault Refusal :=
  match i with
  | .movA x a d => Sys2Proof.Machine.execMovA x a d s
  | .movX p t a d => Sys2Proof.Machine.execMovX p t a d s
  | .movI im d => Sys2Proof.Machine.execMovI im d s
  | .addA y x b a d => Sys2Proof.Machine.execAddA y x b a d s
  | .addX p t a d => Sys2Proof.Machine.execAddX p t a d s
  | .addI im a d => Sys2Proof.Machine.execAddI im a d s
  | .subA y x b a d => Sys2Proof.Machine.execSubA y x b a d s
  | .subX p t a d => Sys2Proof.Machine.execSubX p t a d s
  | .subI im a d => Sys2Proof.Machine.execSubI im a d s
  | .mulloA y x b a d => Sys2Proof.Machine.execMulloA y x b a d s
  | .mulloX p t a d => Sys2Proof.Machine.execMulloX p t a d s
  | .mulloI im a d => Sys2Proof.Machine.execMulloI im a d s
  | .mulhi y x b a d => Sys2Proof.Machine.execMulhi y x b a d s
  | .mulhu y x b a d => Sys2Proof.Machine.execMulhu y x b a d s
  | .madA y x b a d => Sys2Proof.Machine.execMadA y x b a d s
  | .madI im a d => Sys2Proof.Machine.execMadI im a d s
  | .andA y x b a d => Sys2Proof.Machine.execAndA y x b a d s
  | .andX p t a d => Sys2Proof.Machine.execAndX p t a d s
  | .andI im a d => Sys2Proof.Machine.execAndI im a d s
  | .orA y x b a d => Sys2Proof.Machine.execOrA y x b a d s
  | .orX p t a d => Sys2Proof.Machine.execOrX p t a d s
  | .orI im a d => Sys2Proof.Machine.execOrI im a d s
  | .xorA y x b a d => Sys2Proof.Machine.execXorA y x b a d s
  | .xorX p t a d => Sys2Proof.Machine.execXorX p t a d s
  | .xorI im a d => Sys2Proof.Machine.execXorI im a d s
  | .andnA y x b a d => Sys2Proof.Machine.execAndnA y x b a d s
  | .andnX p t a d => Sys2Proof.Machine.execAndnX p t a d s
  | .andnI im a d => Sys2Proof.Machine.execAndnI im a d s
  | .shlA y x b a d => Sys2Proof.Machine.execShlA y x b a d s
  | .shlI im a d => Sys2Proof.Machine.execShlI im a d s
  | .shrA y x b a d => Sys2Proof.Machine.execShrA y x b a d s
  | .shrI im a d => Sys2Proof.Machine.execShrI im a d s
  | .sraA y x b a d => Sys2Proof.Machine.execSraA y x b a d s
  | .sraI im a d => Sys2Proof.Machine.execSraI im a d s
  | .minA y x b a d => Sys2Proof.Machine.execMinA y x b a d s
  | .minX p t a d => Sys2Proof.Machine.execMinX p t a d s
  | .minI im a d => Sys2Proof.Machine.execMinI im a d s
  | .maxA y x b a d => Sys2Proof.Machine.execMaxA y x b a d s
  | .maxX p t a d => Sys2Proof.Machine.execMaxX p t a d s
  | .maxI im a d => Sys2Proof.Machine.execMaxI im a d s
  | .minuA y x b a d => Sys2Proof.Machine.execMinuA y x b a d s
  | .minuX p t a d => Sys2Proof.Machine.execMinuX p t a d s
  | .minuI im a d => Sys2Proof.Machine.execMinuI im a d s
  | .maxuA y x b a d => Sys2Proof.Machine.execMaxuA y x b a d s
  | .maxuX p t a d => Sys2Proof.Machine.execMaxuX p t a d s
  | .maxuI im a d => Sys2Proof.Machine.execMaxuI im a d s
  | .seqA y x b a d => Sys2Proof.Machine.execSeqA y x b a d s
  | .seqI im a d => Sys2Proof.Machine.execSeqI im a d s
  | .sneA y x b a d => Sys2Proof.Machine.execSneA y x b a d s
  | .sneI im a d => Sys2Proof.Machine.execSneI im a d s
  | .sltA y x b a d => Sys2Proof.Machine.execSltA y x b a d s
  | .sltI im a d => Sys2Proof.Machine.execSltI im a d s
  | .sleA y x b a d => Sys2Proof.Machine.execSleA y x b a d s
  | .sleI im a d => Sys2Proof.Machine.execSleI im a d s
  | .sltuA y x b a d => Sys2Proof.Machine.execSltuA y x b a d s
  | .sltuI im a d => Sys2Proof.Machine.execSltuI im a d s
  | .sleuA y x b a d => Sys2Proof.Machine.execSleuA y x b a d s
  | .sleuI im a d => Sys2Proof.Machine.execSleuI im a d s
  | .selt y x b a d => Sys2Proof.Machine.execSelt y x b a d s
  | .self y x b a d => Sys2Proof.Machine.execSelf y x b a d s
  | .popc x a d => Sys2Proof.Machine.execPopc x a d s
  | .clz x a d => Sys2Proof.Machine.execClz x a d s
  | .brevA x a d => Sys2Proof.Machine.execBrevA x a d s
  | .add64A y x b a d => Sys2Proof.Machine.execAdd64A y x b a d s
  | .add64I im a d => Sys2Proof.Machine.execAdd64I im a d s
  | .madw y x b a d => Sys2Proof.Machine.execMadw y x b a d s
  | .faddA y x b a d => Sys2Proof.Machine.execFaddA y x b a d s
  | .faddX p t a d => Sys2Proof.Machine.execFaddX p t a d s
  | .fsubA y x b a d => Sys2Proof.Machine.execFsubA y x b a d s
  | .fsubX p t a d => Sys2Proof.Machine.execFsubX p t a d s
  | .fmulA y x b a d => Sys2Proof.Machine.execFmulA y x b a d s
  | .fmulX p t a d => Sys2Proof.Machine.execFmulX p t a d s
  | .fmaA y x b a d => Sys2Proof.Machine.execFmaA y x b a d s
  | .fmaX p t a d => Sys2Proof.Machine.execFmaX p t a d s
  | .fminA y x b a d => Sys2Proof.Machine.execFminA y x b a d s
  | .fminX p t a d => Sys2Proof.Machine.execFminX p t a d s
  | .fmaxA y x b a d => Sys2Proof.Machine.execFmaxA y x b a d s
  | .fmaxX p t a d => Sys2Proof.Machine.execFmaxX p t a d s
  | .fseq y x b a d => Sys2Proof.Machine.execFseq y x b a d s
  | .fslt y x b a d => Sys2Proof.Machine.execFslt y x b a d s
  | .fsle y x b a d => Sys2Proof.Machine.execFsle y x b a d s
  | .fscaleA y x b a d => Sys2Proof.Machine.execFscaleA y x b a d s
  | .fscaleI im a d => Sys2Proof.Machine.execFscaleI im a d s
  | .badd2A y x b a d => Sys2Proof.Machine.execBadd2A y x b a d s
  | .badd2X p t a d => Sys2Proof.Machine.execBadd2X p t a d s
  | .bmul2A y x b a d => Sys2Proof.Machine.execBmul2A y x b a d s
  | .bmul2X p t a d => Sys2Proof.Machine.execBmul2X p t a d s
  | .bfma2A y x b a d => Sys2Proof.Machine.execBfma2A y x b a d s
  | .bfma2X p t a d => Sys2Proof.Machine.execBfma2X p t a d s
  | .hfma2A y x b a d => Sys2Proof.Machine.execHfma2A y x b a d s
  | .hfma2X p t a d => Sys2Proof.Machine.execHfma2X p t a d s
  | .hadd2A y x b a d => Sys2Proof.Machine.execHadd2A y x b a d s
  | .hadd2X p t a d => Sys2Proof.Machine.execHadd2X p t a d s
  | .iadd2sA y x b a d => Sys2Proof.Machine.execIadd2sA y x b a d s
  | .iadd2sX p t a d => Sys2Proof.Machine.execIadd2sX p t a d s
  | .isub2sA y x b a d => Sys2Proof.Machine.execIsub2sA y x b a d s
  | .isub2sX p t a d => Sys2Proof.Machine.execIsub2sX p t a d s
  | .idot2A y x b a d => Sys2Proof.Machine.execIdot2A y x b a d s
  | .idot2X p t a d => Sys2Proof.Machine.execIdot2X p t a d s
  | .ishr2rA y x b a d => Sys2Proof.Machine.execIshr2rA y x b a d s
  | .ishr2rI im a d => Sys2Proof.Machine.execIshr2rI im a d s
  | .ipack2s y x b a d => Sys2Proof.Machine.execIpack2s y x b a d s
  | .idot4A y x b a d => Sys2Proof.Machine.execIdot4A y x b a d s
  | .idot4X p t a d => Sys2Proof.Machine.execIdot4X p t a d s
  | .cvt m t r a d => Sys2Proof.Machine.execCvt m t r a d s
  | .sfu f n a d => Sys2Proof.Machine.execSfu f n a d s
  | .redg c a d => Sys2Proof.Machine.execRedg c a d s
  | .scang c a d => Sys2Proof.Machine.execScang c a d s
  | .smxacc x a d => Sys2Proof.Machine.execSmxacc x a d s
  | .smxnorm y x b a d => Sys2Proof.Machine.execSmxnorm y x b a d s
  | .tbl k a d => Sys2Proof.Machine.execTbl k a d s
  | .lget y x b a d => Sys2Proof.Machine.execLget y x b a d s
  | .rand im a d => Sys2Proof.Machine.execRand im a d s
  | .mov16 l r d => Sys2Proof.Machine.execMov16 l r d s
  | .add16 l r d => Sys2Proof.Machine.execAdd16 l r d s
  | .sub16 l r d => Sys2Proof.Machine.execSub16 l r d s
  | .and16 l r d => Sys2Proof.Machine.execAnd16 l r d s
  | .or16 l r d => Sys2Proof.Machine.execOr16 l r d s
  | .xor16 l r d => Sys2Proof.Machine.execXor16 l r d s
  | .shl16 l r d => Sys2Proof.Machine.execShl16 l r d s
  | .shr16 l r d => Sys2Proof.Machine.execShr16 l r d s
  | .sra16 l r d => Sys2Proof.Machine.execSra16 l r d s
  | .mullo16 l r d => Sys2Proof.Machine.execMullo16 l r d s
  | .fadd16 l r d => Sys2Proof.Machine.execFadd16 l r d s
  | .fsub16 l r d => Sys2Proof.Machine.execFsub16 l r d s
  | .fmul16 l r d => Sys2Proof.Machine.execFmul16 l r d s
  | .fmax16 l r d => Sys2Proof.Machine.execFmax16 l r d s
  | .fmin16 l r d => Sys2Proof.Machine.execFmin16 l r d s
  | .movi16 im d => Sys2Proof.Machine.execMovi16 im d s
  | .movi h d => Sys2Proof.Machine.execMovi h d s
  | .movhi h d => Sys2Proof.Machine.execMovhi h d s
  | .addi h d => Sys2Proof.Machine.execAddi h d s
  | .movbf h d => Sys2Proof.Machine.execMovbf h d s
  | .lpc h d => Sys2Proof.Machine.execLpc h d s
  | .ldgB k a d => Sys2Proof.Machine.execLdgB k a d s
  | .ldgSb k a d => Sys2Proof.Machine.execLdgSb k a d s
  | .ldgH k a d => Sys2Proof.Machine.execLdgH k a d s
  | .ldgSh k a d => Sys2Proof.Machine.execLdgSh k a d s
  | .ldgW k a d => Sys2Proof.Machine.execLdgW k a d s
  | .ldgD k a d => Sys2Proof.Machine.execLdgD k a d s
  | .ldgQ k a d => Sys2Proof.Machine.execLdgQ k a d s
  | .ldsH k a d => Sys2Proof.Machine.execLdsH k a d s
  | .ldsW k a d => Sys2Proof.Machine.execLdsW k a d s
  | .ldsD k a d => Sys2Proof.Machine.execLdsD k a d s
  | .ldsQ k a d => Sys2Proof.Machine.execLdsQ k a d s
  | .stgB k n g a d => Sys2Proof.Machine.execStgB k n g a d s
  | .stgH k n g a d => Sys2Proof.Machine.execStgH k n g a d s
  | .stgW k n g a d => Sys2Proof.Machine.execStgW k n g a d s
  | .stgD k n g a d => Sys2Proof.Machine.execStgD k n g a d s
  | .stgQ k n g a d => Sys2Proof.Machine.execStgQ k n g a d s
  | .stsH k n g a d => Sys2Proof.Machine.execStsH k n g a d s
  | .stsW k n g a d => Sys2Proof.Machine.execStsW k n g a d s
  | .stsD k n g a d => Sys2Proof.Machine.execStsD k n g a d s
  | .stsQ k n g a d => Sys2Proof.Machine.execStsQ k n g a d s
  | .aadd k n g a d => Sys2Proof.Machine.execAadd k n g a d s
  | .amin k n g a d => Sys2Proof.Machine.execAmin k n g a d s
  | .amax k n g a d => Sys2Proof.Machine.execAmax k n g a d s
  | .aand k n g a d => Sys2Proof.Machine.execAand k n g a d s
  | .aor k n g a d => Sys2Proof.Machine.execAor k n g a d s
  | .axor k n g a d => Sys2Proof.Machine.execAxor k n g a d s
  | .axch k n g a d => Sys2Proof.Machine.execAxch k n g a d s
  | .acas k n g a d => Sys2Proof.Machine.execAcas k n g a d s
  | .afadd k n g a d => Sys2Proof.Machine.execAfadd k n g a d s
  | .dred k n g a d => Sys2Proof.Machine.execDred k n g a d s
  | .acasD k n g a d => Sys2Proof.Machine.execAcasD k n g a d s
  | .axchD k n g a d => Sys2Proof.Machine.execAxchD k n g a d s
  | .bra k n g => Sys2Proof.Machine.execBra k n g s
  | .call k n g => Sys2Proof.Machine.execCall k n g s
  | .brx r n g => Sys2Proof.Machine.execBrx r n g s
  | .ret n g => Sys2Proof.Machine.execRet n g s
  | .exit n g => Sys2Proof.Machine.execExit n g s
  | .brk n g => Sys2Proof.Machine.execBrk n g s
  | .tload f w c r => Sys2Proof.Machine.execTload f w c r s
  | .tstore f w c r => Sys2Proof.Machine.execTstore f w c r s
  | .tgather f w c r => Sys2Proof.Machine.execTgather f w c r s
  | .tzero f w c r => Sys2Proof.Machine.execTzero f w c r s
  | .tpref w c r => Sys2Proof.Machine.execTpref w c r s
  | .xput f w c r => Sys2Proof.Machine.execXput f w c r s
  | .xget f w c r => Sys2Proof.Machine.execXget f w c r s
  | .tscat f w c r => Sys2Proof.Machine.execTscat f w c r s
  | .mma f w c r => Sys2Proof.Machine.execMma f w c r s
  | .mmar f f2 w c r => Sys2Proof.Machine.execMmar f f2 w c r s
  | .mmas f w c r => Sys2Proof.Machine.execMmas f w c r s
  | .smma f w c r => Sys2Proof.Machine.execSmma f w c r s
  | .accalloc f w => Sys2Proof.Machine.execAccalloc f w s
  | .accfree w => Sys2Proof.Machine.execAccfree w s
  | .accld w c r => Sys2Proof.Machine.execAccld w c r s
  | .accst f w c r => Sys2Proof.Machine.execAccst f w c r s
  | .bfly f w r => Sys2Proof.Machine.execBfly f w r s
  | .btwid f w r => Sys2Proof.Machine.execBtwid f w r s
  | .brevEng f w r => Sys2Proof.Machine.execBrevEng f w r s
  | .atrans w => Sys2Proof.Machine.execAtrans w s
  | .lubeg w r => Sys2Proof.Machine.execLubeg w r s
  | .lustep w r => Sys2Proof.Machine.execLustep w r s
  | .lucand w c r => Sys2Proof.Machine.execLucand w c r s
  | .lucommit w c r => Sys2Proof.Machine.execLucommit w c r s
  | .luend w c r => Sys2Proof.Machine.execLuend w c r s
  | .smul f w c r => Sys2Proof.Machine.execSmul f w c r s
  | .strunc f w r => Sys2Proof.Machine.execStrunc f w r s
  | .sltz f w r => Sys2Proof.Machine.execSltz f w r s
  | .slut t f w r => Sys2Proof.Machine.execSlut t f w r s
  | .sopen f w r => Sys2Proof.Machine.execSopen f w r s
  | .accrow w c r => Sys2Proof.Machine.execAccrow w c r s
  | .nop => Sys2Proof.Machine.execNop s
  | .barg => Sys2Proof.Machine.execBarg s
  | .bart im => Sys2Proof.Machine.execBart im s
  | .bararv im => Sys2Proof.Machine.execBararv im s
  | .barwt im => Sys2Proof.Machine.execBarwt im s
  | .waitc im => Sys2Proof.Machine.execWaitc im s
  | .waitw a d => Sys2Proof.Machine.execWaitw a d s
  | .swait a d => Sys2Proof.Machine.execSwait a d s
  | .syncset a d => Sys2Proof.Machine.execSyncset a d s
  | .mbr k d => Sys2Proof.Machine.execMbr k d s
  | .mbw k a => Sys2Proof.Machine.execMbw k a s
  | .qroute a => Sys2Proof.Machine.execQroute a s
  | .qstat im d => Sys2Proof.Machine.execQstat im d s
  | .yield => Sys2Proof.Machine.execYield s
  | .nap im => Sys2Proof.Machine.execNap im s
  | .reggrow w n d => Sys2Proof.Machine.execReggrow w n d s
  | .regshrink n d => Sys2Proof.Machine.execRegshrink n d s
  | .ident im d => Sys2Proof.Machine.execIdent im d s
  | .trap a => Sys2Proof.Machine.execTrap a s
  | .flagrd im d => Sys2Proof.Machine.execFlagrd im d s
  | .flagclr im => Sys2Proof.Machine.execFlagclr im s
  | .csrrd im d => Sys2Proof.Machine.execCsrrd im d s
  | .csrwr im a => Sys2Proof.Machine.execCsrwr im a s
  | .elect d => Sys2Proof.Machine.execElect d s
  | .vote im a d => Sys2Proof.Machine.execVote im a d s
  | .dflush => Sys2Proof.Machine.execDflush s
  | .tblld k a => Sys2Proof.Machine.execTblld k a s
  | .stmap im a d => Sys2Proof.Machine.execStmap im a d s
  | .stflush a => Sys2Proof.Machine.execStflush a s
  | .xfence => Sys2Proof.Machine.execXfence s
  | .launch q a d => Sys2Proof.Machine.execLaunch q a d s
  | .mark im a => Sys2Proof.Machine.execMark im a s
  | .perfrd im d => Sys2Proof.Machine.execPerfrd im d s
  | .dwsel a d => Sys2Proof.Machine.execDwsel a d s
  | .dwrd a d => Sys2Proof.Machine.execDwrd a d s
  | .dwwr a d => Sys2Proof.Machine.execDwwr a d s
  | .dwres im a => Sys2Proof.Machine.execDwres im a s
  | .dwkill => Sys2Proof.Machine.execDwkill s
  | .deviceReset => Sys2Proof.Machine.execDeviceReset s
  | .firmwareImageReceived rsaOk slhOk version => Sys2Proof.Machine.execFirmwareImageReceived rsaOk slhOk version s
  | .diePowerUp => Sys2Proof.Machine.execDiePowerUp s
  | .clusterPowerUp die => Sys2Proof.Machine.execClusterPowerUp die s
  | .bootStageComplete ok => Sys2Proof.Machine.execBootStageComplete ok s
  | .columnRampStep cluster => Sys2Proof.Machine.execColumnRampStep cluster s
  | .lifecycleTransition target signer sigOk opKey => Sys2Proof.Machine.execLifecycleTransition target signer sigOk opKey s
  | .mctpStatusRequest => Sys2Proof.Machine.execMctpStatusRequest s
  | .pldmFirmwareUpdate rsaOk slhOk version => Sys2Proof.Machine.execPldmFirmwareUpdate rsaOk slhOk version s
  | .pldmMonitoring => Sys2Proof.Machine.execPldmMonitoring s
  | .spdmDeviceAuthentication slot => Sys2Proof.Machine.execSpdmDeviceAuthentication slot s
  | .flitInject spine die st loop ready => Sys2Proof.Machine.execFlitInject spine die st loop ready s
  | .slotReserve spine die st loop => Sys2Proof.Machine.execSlotReserve spine die st loop s
  | .flitPassStation spine die st loop err => Sys2Proof.Machine.execFlitPassStation spine die st loop err s
  | .flitAtDestination spine die st loop full busy => Sys2Proof.Machine.execFlitAtDestination spine die st loop full busy s
  | .reassemblyIdleTimeout die st srcDie srcSt idle => Sys2Proof.Machine.execReassemblyIdleTimeout die st srcDie srcSt idle s
  | .reassemblyAheadTimeout die st srcDie srcSt cls => Sys2Proof.Machine.execReassemblyAheadTimeout die st srcDie srcSt cls s
  | .linkFrameSend port => Sys2Proof.Machine.execLinkFrameSend port s
  | .linkFlitReceive port frame room => Sys2Proof.Machine.execLinkFlitReceive port frame room s
  | .nakReceive port seq => Sys2Proof.Machine.execNakReceive port seq s
  | .nakResendTimeout port => Sys2Proof.Machine.execNakResendTimeout port s
  | .pauseReceive port cls => Sys2Proof.Machine.execPauseReceive port cls s
  | .resumeReceive port cls => Sys2Proof.Machine.execResumeReceive port cls s
  | .flowStateRepeat port => Sys2Proof.Machine.execFlowStateRepeat port s
  | .keyswReceive port slot epoch => Sys2Proof.Machine.execKeyswReceive port slot epoch s
  | .linkAbortReceive port cls tag => Sys2Proof.Machine.execLinkAbortReceive port cls tag s
  | .keySwitchPoint port => Sys2Proof.Machine.execKeySwitchPoint port s
  | .keyHoldPoint port => Sys2Proof.Machine.execKeyHoldPoint port s
  | .keyLoadTimeout port => Sys2Proof.Machine.execKeyLoadTimeout port s
  | .keyLoad port rx slot key epoch salt => Sys2Proof.Machine.execKeyLoad port rx slot key epoch salt s
  | .linkKeyAgreement port ended peer secret epoch => Sys2Proof.Machine.execLinkKeyAgreement port ended peer secret epoch s
  | .frameLockLoss port => Sys2Proof.Machine.execFrameLockLoss port s
  | .linkDownCommand port => Sys2Proof.Machine.execLinkDownCommand port s
  | .linkUp port => Sys2Proof.Machine.execLinkUp port s
  | .routeTableWrite port dev entry => Sys2Proof.Machine.execRouteTableWrite port dev entry s
  | .deviceIdentityWrite id => Sys2Proof.Machine.execDeviceIdentityWrite id s
  | .ctxSubmit part ctx stream value => Sys2Proof.Machine.execCtxSubmit part ctx stream value s
  | .qbaseWrite part ctx q stream value => Sys2Proof.Machine.execQbaseWrite part ctx q stream value s
  | .qcfgWrite part ctx q stream value => Sys2Proof.Machine.execQcfgWrite part ctx q stream value s
  | .featackWrite idx value => Sys2Proof.Machine.execFeatackWrite idx value s
  | .registerWrite reg idx value => Sys2Proof.Machine.execRegisterWrite reg idx value s
  | .hostBar2Read part stream offset len poisoned => Sys2Proof.Machine.execHostBar2Read part stream offset len poisoned s
  | .hostBar2Write part stream offset bytes => Sys2Proof.Machine.execHostBar2Write part stream offset bytes s
  | .tdispRequest part req stream => Sys2Proof.Machine.execTdispRequest part req stream s
  | .vfConfigChange part => Sys2Proof.Machine.execVfConfigChange part s
  | .partitionAssign src dst clusters ranges ports ctxs sigOk => Sys2Proof.Machine.execPartitionAssign src dst clusters ranges ports ctxs sigOk s
  | .partitionReset part => Sys2Proof.Machine.execPartitionReset part s
  | .ownerChange part req => Sys2Proof.Machine.execOwnerChange part req s
  | .contextActivate part ctx seed cores codeBase codeSize dumpBase dumpSize log maps sigOk => Sys2Proof.Machine.execContextActivate part ctx seed cores codeBase codeSize dumpBase dumpSize log maps sigOk s
  | .contextFree ctx sigOk => Sys2Proof.Machine.execContextFree ctx sigOk s
  | .stileSessionOpen id ring deadline parties policy consents remoteOk => Sys2Proof.Machine.execStileSessionOpen id ring deadline parties policy consents remoteOk s
  | .hamperRegionName id party address => Sys2Proof.Machine.execHamperRegionName id party address s
  | .consentWithdraw id party => Sys2Proof.Machine.execConsentWithdraw id party s
  | .coreReclaimRequest ctx k deadline sigOk => Sys2Proof.Machine.execCoreReclaimRequest ctx k deadline sigOk s
  | .coreReturn ctx cores sigOk => Sys2Proof.Machine.execCoreReturn ctx cores sigOk s
  | .yieldDeadline ctx => Sys2Proof.Machine.execYieldDeadline ctx s
  | .teamEvictSave team => Sys2Proof.Machine.execTeamEvictSave team s
  | .remoteGrant part grant sigOk => Sys2Proof.Machine.execRemoteGrant part grant sigOk s
  | .remoteRevoke part n sigOk => Sys2Proof.Machine.execRemoteRevoke part n sigOk s
  | .debugBreakpointSet ctx pc lo hi => Sys2Proof.Machine.execDebugBreakpointSet ctx pc lo hi s
  | .traceRingEnable ctx size => Sys2Proof.Machine.execTraceRingEnable ctx size s
  | .meteringStatementRequest ctx nonce sigOk => Sys2Proof.Machine.execMeteringStatementRequest ctx nonce sigOk s
  | .jobBegin part job sigOk => Sys2Proof.Machine.execJobBegin part job sigOk s
  | .jobEnd part sigOk => Sys2Proof.Machine.execJobEnd part sigOk s
  | .jobRecordRequest part sigOk => Sys2Proof.Machine.execJobRecordRequest part sigOk s
  | .nodeConsume ctx q => Sys2Proof.Machine.execNodeConsume ctx q s
  | .dispatchOpportunity part => Sys2Proof.Machine.execDispatchOpportunity part s
  | .clusterReserve part => Sys2Proof.Machine.execClusterReserve part s
  | .controlThreadStart team => Sys2Proof.Machine.execControlThreadStart team s
  | .teamRetire team => Sys2Proof.Machine.execTeamRetire team s
  | .nodeCommit ctx node => Sys2Proof.Machine.execNodeCommit ctx node s
  | .rollbackRequeue ctx node => Sys2Proof.Machine.execRollbackRequeue ctx node s
  | .handlerStart core => Sys2Proof.Machine.execHandlerStart core s
  | .whistleFire g => Sys2Proof.Machine.execWhistleFire g s
  | .ownerTimeout g => Sys2Proof.Machine.execOwnerTimeout g s
  | .napExpire g t => Sys2Proof.Machine.execNapExpire g t s
  | .loadDataArrival g t n poisoned => Sys2Proof.Machine.execLoadDataArrival g t n poisoned s
  | .storePerformed g t => Sys2Proof.Machine.execStorePerformed g t s
  | .waitwWake g t => Sys2Proof.Machine.execWaitwWake g t s
  | .reggrowGrant g => Sys2Proof.Machine.execReggrowGrant g s
  | .accallocGrant g => Sys2Proof.Machine.execAccallocGrant g s
  | .tblldComplete g => Sys2Proof.Machine.execTblldComplete g s
  | .queueWordDeliver n => Sys2Proof.Machine.execQueueWordDeliver n s
  | .barrierPhaseComplete team id => Sys2Proof.Machine.execBarrierPhaseComplete team id s
  | .basketBatchApply turn => Sys2Proof.Machine.execBasketBatchApply turn s
  | .engineCommandStart core n => Sys2Proof.Machine.execEngineCommandStart core n s
  | .engineCommandComplete core n upset => Sys2Proof.Machine.execEngineCommandComplete core n upset s
  | .remoteLineWrite part port peerPart src address bytes => Sys2Proof.Machine.execRemoteLineWrite part port peerPart src address bytes s
  | .remoteLineRead part port peerPart src address len => Sys2Proof.Machine.execRemoteLineRead part port peerPart src address len s
  | .remoteAck core n cause bytes => Sys2Proof.Machine.execRemoteAck core n cause bytes s
  | .pageFaultService ctx vpage ok => Sys2Proof.Machine.execPageFaultService ctx vpage ok s
  | .stashWriteback team line => Sys2Proof.Machine.execStashWriteback team line s
  | .bankSparing stack bank errors => Sys2Proof.Machine.execBankSparing stack bank errors s
  | .shareContributionArrive id party tag elems => Sys2Proof.Machine.execShareContributionArrive id party tag elems s
  | .shareResultReceive r => Sys2Proof.Machine.execShareResultReceive r s
  | .roundDeadline id lbase seq sub => Sys2Proof.Machine.execRoundDeadline id lbase seq sub s
  | .abortHoldExpiry id lbase seq sub => Sys2Proof.Machine.execAbortHoldExpiry id lbase seq sub s
  | .stflushWritebackComplete g => Sys2Proof.Machine.execStflushWritebackComplete g s

end Sys2Proof.Machine
end

