-- ==== Sys2Proof/Machine/Place.lean ====
section
/-! DEFINITION. An instruction placed where the next step fetches: into the code window at the PC of the group whose
issue the script asks for next, or, in a machine that runs no group (as after reset), into a machine that boot, context
activation, submission and dispatch have made ready to run one group of eight threads on core 0. It stands for the
load of a program from outside (log entry 40). -/

namespace Sys2Proof.Machine

/-- The record of the node that the ready machine runs. -/
def readyRec : NodeRec :=
  { entry := 0, gx := 1, gy := 1, gz := 1, wcode := 0, groups := 1, prods := 0, cores := 1, regP := 60, regC := 60,
    scratch := 16, accSlots := 0, det := false, restart := false, preds := 0, seed := 1, succ := [], ranges := [], pool := 0 }

/-- The name of its team. -/
def readyTeam : TKey := ⟨0, 0, 0⟩

/-- Its one group, at PC 0 of the code window. -/
def readyGroup : Group :=
  { key := ⟨0, 0, 0, 0, .lanes⟩, w := 8, core := 0, budget := 60, threads := List.replicate 8 {} }

/-- The context that runs it: one page of code and one page of data. -/
def readyCtx (c : Context) : Context :=
  { c with
    state := .active
    seed := 1
    cores := [0]
    codeBase := 0x10000
    codeSize := 0x10000
    maps := [⟨1, 0, 1, true, true, true, .k64⟩, ⟨2, 1, 1, true, true, true, .k64⟩] }

/-- The machine with one group ready to run at PC 0. -/
def State.makeReady (s : State) : State :=
  { s with
    boot := { s.boot with status := .ready }
    script := [.issue 0 0 [] []]
    slots := []
    accepted := some 0x1FFF
    parts := s.parts.modify 0 fun p => { p with state := .active, owner := some 0, clusters := [0], ranges := [0], ctxs := [0] }
    ctxs := s.ctxs.modify 0 readyCtx
    nodes := { ctx := 0, queue := 0, index := 0, ref := 0, addr := 0x20000, rec' := readyRec, state := .running } :: s.nodes
    teams := { key := readyTeam, cores := [0], aperture := 0x00FF000000000000, owners := List.replicate 16 .threads } :: s.teams
    groups := readyGroup :: s.groups }

/-- The member that the next step issues, where the script or an issue in progress names one. -/
def State.nextMember (s : State) : Option Member :=
  if s.boot.status == .off then none
  else match s.merging with
    | m :: _ => some m
    | [] =>
      if !s.dueThreads.isEmpty then none
      else match s.script.head? with
        | some (.issue core half held upsets) => if s.slotOpen core half then (s.members core half held upsets).head? else none
        | _ => none

/-- The physical address of the PC that the next step fetches at, where it issues without an upset or a breakpoint. -/
def State.nextFetch (s : State) : Option Nat :=
  s.nextMember.bind fun m => (s.groups.find? fun g => g.key == m.group).bind fun g =>
    let pc := (g.thread (m.set.headD 0)).pc
    let runs := s.canIssue g && !m.set.isEmpty && m.set.all fun t => (g.thread t).isReady
    if runs && m.upset.isNone && (s.breakAt g pc m.set).isNone then
      (s.ctx g.key.ctx).phys? ((s.ctx g.key.ctx).codeBase.toNat + pc.toNat)
    else none

/-- The state with an instruction's bytes where the next step fetches. -/
def State.placeWord (s : State) (nbits w : Nat) : State :=
  match s.nextFetch with
  | some p => { s with mem := cellsWrite s.mem p (natBytes 4 (w % 2 ^ nbits)) }
  | none => let s1 := s.makeReady; { s1 with mem := cellsWrite s1.mem 0 (natBytes 4 (w % 2 ^ nbits)) }

end Sys2Proof.Machine
end

