-- ==== Sys2Proof/Machine/Step.lean ====
section
/-! DEFINITION. One step of the machine: what is planned, executed, and what follows it. Everything a test could show
wrong stands in the files it calls. -/

namespace Sys2Proof.Machine

/-- One step: next, fault or refusal. -/
def step (s : State) : Host.Outcome State Fault Refusal :=
  match s.plan with
  | .done s1 => .next s1.after
  | .run i s1 =>
    match exec i s1 with
    | .next s2 => .next s2.after
    | .fault r => .fault r
    | .refused r => .refused r

/-- The state with an instruction stored where step fetches its next instruction. -/
def State.withFetchWord (s : State) (nbits w : Nat) : State := s.placeWord nbits w

end Sys2Proof.Machine
end

