-- ==== Sys2Proof/Safety.lean ====
section
/-! DEFINITION. The terms that statements use: safe runs and the invariant, an issue in progress, and closed forms of
what an issue leaves behind, written thread by thread. -/

namespace Sys2Proof.Safety

open Sys2Proof.Machine

/-! ## Safe runs -/

/-- R114. A step begins with no issue in progress. -/
def Idle (s : State) : Prop := s.cur = none

/-- The invariant of the model: memory and every scratchpad in canonical form, and no issue in progress. -/
def Inv (s : State) : Prop := s.memWf = true ∧ Idle s

/-- A run of k steps ends in a next state. -/
def Completes (k : Nat) (s : State) : Prop := ∃ s', Sys2Proof.core.run k s = .next s'

/-- Every run from a state completes. -/
def Safe (s : State) : Prop := ∀ k, Completes k s

/-! ## An issue in progress -/

/-- R114. Group number g, which is gr, is issuing the threads of `set`, in ascending order; no part of its instruction has
been performed in an earlier try (R276). -/
structure Issuing (s : State) (g : Nat) (set : List Nat) (gr : Group) : Prop where
  cur : s.cur = some { g := g, set := set }
  group : s.groups[g]? = some gr
  rising : set.Pairwise (· < ·)
  nonempty : set ≠ []

/-- The state with the issue ended. -/
def idle (s : State) : State := { s with cur := none }

/-- R113 to R115. In the state s, s0 is that in which a step issues the member m, of group number g, which is gr: the next member of
a pick, or the first of the pick that the step makes. -/
structure Begins (s s0 : State) (m : Member) (g : Nat) (gr : Group) : Prop where
  running : s.boot.status ≠ .off
  picked : (∃ rest, s.merging = m :: rest ∧ s0 = { s with merging := rest }) ∨
    ∃ core half held upsets rest, s.merging = [] ∧ s.dueThreads = [] ∧
      s.script.headD (Config.choose s.tick) = .issue core half held upsets ∧
      ({ s with script := s.script.drop 1 } : State).slotOpen core half = true ∧
      ({ s with script := s.script.drop 1 } : State).members core half held upsets = m :: rest ∧
      s0 = { ({ s with script := s.script.drop 1 } : State).openSlot core half held (m :: rest) with merging := rest }
  index : s0.groupIdx? m.group = some g
  group : s0.groups[g]? = some gr
  free : s0.canIssue gr = true
  nonempty : m.set ≠ []
  ready : ∀ t ∈ m.set, (gr.thread t).isReady = true

/-- The PC of the issue set, and that of the instruction after i. -/
def pcOf (gr : Group) (set : List Nat) : Word := (gr.thread (set.headD 0)).pc
def nextPc (i : Instr) (gr : Group) (set : List Nat) : Word := pcAfter (pcOf gr set) (instrLen i)

/-- The issue of i: what its meaning knows of it. -/
def theAct (i : Instr) (g : Nat) (set : List Nat) (gr : Group) : Act :=
  { g := g, set := set, lowered := [], instr := i, pc := pcOf gr set, len := instrLen i, word := BitVec.ofNat 32 (encodeWord i).1 }

/-- R217. No register of a list is pending in its thread. -/
def NonePending (gr : Group) (l : List (Nat × Nat)) : Prop := ∀ p ∈ l, (gr.thread p.1).isPend p.2 = false

/-- The conditions under which a lane operation without qr or qs executes: its features are accepted (R71), its kind of
thread may run it, its fields are legal under the budget (R209), and nothing it reads or writes is pending (R217). -/
structure Clear (op : LaneOp) (s : State) (gr : Group) (set : List Nat) : Prop where
  features : ∀ n ∈ op.need, s.feature n = true
  kind : op.noHandler = true → gr.key.kind ≠ .handler
  fields : fieldsFault gr.budget op.fields = none
  noQr : op.takesQr = false
  noQs : op.sends = false
  ready : ∀ t ∈ set, NonePending gr (op.regs gr t)

/-! ## What a retiring issue leaves -/

/-- The results of an issue, thread by thread. -/
abbrev Results := List (Nat × LaneRes)

/-- The result of thread u, if it is one of the threads. -/
def resultOf (res : Results) (u : Nat) : Option LaneRes := (res.find? fun p => p.1 == u).map Prod.snd

/-- The flags of all threads, ORed. -/
def allFlags (res : Results) : Flags := (res.map fun p => p.2.flags).foldr (· ||| ·) 0

/-- A thread that retires with a result: last-use marks poison, then its registers are written; its flags are raised, and
it goes on at the next PC. -/
def retiredThread (cycle : Nat) (marks : List Nat) (next : Word) (r : LaneRes) (th : Thread) : Thread :=
  ((th.apply marks r).raiseBits cycle r.flags).goOn next

/-- The group: the threads that have results retire, the others are as they were. -/
def retiredGroup (cycle : Nat) (marks : List Nat) (next : Word) (res : Results) (gr : Group) : Group :=
  Group.raiseBits cycle (allFlags res) { gr with
    threads := gr.threads.mapIdx fun u th => match resultOf res u with
      | some r => retiredThread cycle marks next r th
      | none => th }

/-- R80. n increments of a meter. -/
def countIn (n i inc : Nat) (c : Context) : Context := if inc = 0 then c else (meterAdd i inc)^[n] c

/-- R168, R81, R203. The state after an issue of group g retires with results: the group's threads, its flags and its
context's flags and meter have changed, and nothing else has. -/
def retired (s : State) (g : Nat) (gr : Group) (marks : List Nat) (next : Word) (cat inc : Nat) (res : Results) : State :=
  { s with
    groups := s.groups.modify g (retiredGroup s.cycle marks next res)
    ctxs := s.ctxs.modify gr.key.ctx fun c =>
      countIn res.length (2 * cat + s.bank gr.key.ctx gr.key.node) inc (c.raiseBits s.cycle (allFlags res)) }

/-- A lane operation retired by every thread of an issue set. -/
def retiredLane (op : LaneOp) (i : Instr) (s : State) (g : Nat) (gr : Group) (set : List Nat) : State :=
  retired (idle s) g gr op.kills (nextPc i gr set) op.cat op.inc (set.zip (op.results (idle s) gr set))

/-! ## What each lane instruction computes

A and B are the values of its operands, D the old value of d, M the rounding mode. -/

/-- R238, R241 to R243. Integer operations on A and B, with the old d where the operation takes it. -/
def intAForm : Instr → Option LaneOp
  | .addA y x b a d => some (formA (fun _ _ A B => (A + B, 0)) false 12 1 y x b a d)
  | .subA y x b a d => some (formA (fun _ _ A B => (A - B, 0)) false 12 1 y x b a d)
  | .mulloA y x b a d => some (formA (fun _ _ A B => (A * B, 0)) false 12 1 y x b a d)
  | .mulhi y x b a d => some (formA (fun _ _ A B => (BitVec.ofInt 32 ((A.toInt * B.toInt).fdiv (2 ^ 32)), 0)) false 12 1 y x b a d)
  | .mulhu y x b a d => some (formA (fun _ _ A B => (BitVec.ofNat 32 (A.toNat * B.toNat / 2 ^ 32), 0)) false 12 1 y x b a d)
  | .madA y x b a d => some (formA (fun _ D A B => (D + A * B, 0)) true 12 2 y x b a d)
  | .andA y x b a d => some (formA (fun _ _ A B => (A &&& B, 0)) false 12 1 y x b a d)
  | .orA y x b a d => some (formA (fun _ _ A B => (A ||| B, 0)) false 12 1 y x b a d)
  | .xorA y x b a d => some (formA (fun _ _ A B => (A ^^^ B, 0)) false 12 1 y x b a d)
  | .andnA y x b a d => some (formA (fun _ _ A B => (A &&& ~~~B, 0)) false 12 1 y x b a d)
  | .shlA y x b a d => some (formA (fun _ _ A B => (A <<< (B.toNat % 32), 0)) false 12 1 y x b a d)
  | .shrA y x b a d => some (formA (fun _ _ A B => (A >>> (B.toNat % 32), 0)) false 12 1 y x b a d)
  | .sraA y x b a d => some (formA (fun _ _ A B => (A.sshiftRight (B.toNat % 32), 0)) false 12 1 y x b a d)
  | .minA y x b a d => some (formA (fun _ _ A B => (if A.toInt ≤ B.toInt then A else B, 0)) false 12 1 y x b a d)
  | .maxA y x b a d => some (formA (fun _ _ A B => (if A.toInt ≤ B.toInt then B else A, 0)) false 12 1 y x b a d)
  | .minuA y x b a d => some (formA (fun _ _ A B => (if A.toNat ≤ B.toNat then A else B, 0)) false 12 1 y x b a d)
  | .maxuA y x b a d => some (formA (fun _ _ A B => (if A.toNat ≤ B.toNat then B else A, 0)) false 12 1 y x b a d)
  | .seqA y x b a d => some (formA (fun _ _ A B => (bit (A == B), 0)) false 12 1 y x b a d)
  | .sneA y x b a d => some (formA (fun _ _ A B => (bit (A != B), 0)) false 12 1 y x b a d)
  | .sltA y x b a d => some (formA (fun _ _ A B => (bit (decide (A.toInt < B.toInt)), 0)) false 12 1 y x b a d)
  | .sleA y x b a d => some (formA (fun _ _ A B => (bit (decide (A.toInt ≤ B.toInt)), 0)) false 12 1 y x b a d)
  | .sltuA y x b a d => some (formA (fun _ _ A B => (bit (decide (A.toNat < B.toNat)), 0)) false 12 1 y x b a d)
  | .sleuA y x b a d => some (formA (fun _ _ A B => (bit (decide (A.toNat ≤ B.toNat)), 0)) false 12 1 y x b a d)
  | .movA x a d => some (formA1 (fun _ _ A _ => (A, 0)) 12 0 x a d)
  | .popc x a d => some (formA1 (fun _ _ A _ => (BitVec.ofNat 32 (popBits 32 A.toNat), 0)) 12 1 x a d)
  | .clz x a d => some (formA1 (fun _ _ A _ => (if A = 0 then 32 else BitVec.ofNat 32 (31 - Nat.log2 A.toNat), 0)) 12 1 x a d)
  | .brevA x a d => some (formA1 (fun _ _ A _ => (BitVec.ofNat 32 (revBits 32 A.toNat), 0)) 12 1 x a d)
  | _ => none

/-- R207. The 16-bit integer operations d, d, s. -/
def int16Form : Instr → Option LaneOp
  | .add16 l r d => some (formA (fun _ _ A B => (A + B, 0)) false 12 1 (mark16 l) 0 (reg16 r) (reg16 d) (reg16 d))
  | .sub16 l r d => some (formA (fun _ _ A B => (A - B, 0)) false 12 1 (mark16 l) 0 (reg16 r) (reg16 d) (reg16 d))
  | .mullo16 l r d => some (formA (fun _ _ A B => (A * B, 0)) false 12 1 (mark16 l) 0 (reg16 r) (reg16 d) (reg16 d))
  | .and16 l r d => some (formA (fun _ _ A B => (A &&& B, 0)) false 12 1 (mark16 l) 0 (reg16 r) (reg16 d) (reg16 d))
  | .or16 l r d => some (formA (fun _ _ A B => (A ||| B, 0)) false 12 1 (mark16 l) 0 (reg16 r) (reg16 d) (reg16 d))
  | .xor16 l r d => some (formA (fun _ _ A B => (A ^^^ B, 0)) false 12 1 (mark16 l) 0 (reg16 r) (reg16 d) (reg16 d))
  | .shl16 l r d => some (formA (fun _ _ A B => (A <<< (B.toNat % 32), 0)) false 12 1 (mark16 l) 0 (reg16 r) (reg16 d) (reg16 d))
  | .shr16 l r d => some (formA (fun _ _ A B => (A >>> (B.toNat % 32), 0)) false 12 1 (mark16 l) 0 (reg16 r) (reg16 d) (reg16 d))
  | .sra16 l r d => some (formA (fun _ _ A B => (A.sshiftRight (B.toNat % 32), 0)) false 12 1 (mark16 l) 0 (reg16 r) (reg16 d) (reg16 d))
  | .mov16 l r d => some (formA1 (fun _ _ A _ => (A, 0)) 12 0 (mark16 l) (reg16 r) (reg16 d))
  | _ => none

/-- R238, R241, R243, R228. Operations with an immediate. -/
def intIForm : Instr → Option LaneOp
  | .addI i a d => some (formI (fun _ _ A B => (A + B, 0)) false 12 1 (sx i) a d)
  | .subI i a d => some (formI (fun _ _ A B => (A - B, 0)) false 12 1 (sx i) a d)
  | .mulloI i a d => some (formI (fun _ _ A B => (A * B, 0)) false 12 1 (sx i) a d)
  | .madI i a d => some (formI (fun _ D A B => (D + A * B, 0)) true 12 2 (sx i) a d)
  | .andI i a d => some (formI (fun _ _ A B => (A &&& B, 0)) false 12 1 (zx i) a d)
  | .orI i a d => some (formI (fun _ _ A B => (A ||| B, 0)) false 12 1 (zx i) a d)
  | .xorI i a d => some (formI (fun _ _ A B => (A ^^^ B, 0)) false 12 1 (zx i) a d)
  | .andnI i a d => some (formI (fun _ _ A B => (A &&& ~~~B, 0)) false 12 1 (zx i) a d)
  | .shlI i a d => some (formI (fun _ _ A B => (A <<< (B.toNat % 32), 0)) false 12 1 (zx i) a d)
  | .shrI i a d => some (formI (fun _ _ A B => (A >>> (B.toNat % 32), 0)) false 12 1 (zx i) a d)
  | .sraI i a d => some (formI (fun _ _ A B => (A.sshiftRight (B.toNat % 32), 0)) false 12 1 (zx i) a d)
  | .minI i a d => some (formI (fun _ _ A B => (if A.toInt ≤ B.toInt then A else B, 0)) false 12 1 (sx i) a d)
  | .maxI i a d => some (formI (fun _ _ A B => (if A.toInt ≤ B.toInt then B else A, 0)) false 12 1 (sx i) a d)
  | .minuI i a d => some (formI (fun _ _ A B => (if A.toNat ≤ B.toNat then A else B, 0)) false 12 1 (sx i) a d)
  | .maxuI i a d => some (formI (fun _ _ A B => (if A.toNat ≤ B.toNat then B else A, 0)) false 12 1 (sx i) a d)
  | .seqI i a d => some (formI (fun _ _ A B => (bit (A == B), 0)) false 12 1 (sx i) a d)
  | .sneI i a d => some (formI (fun _ _ A B => (bit (A != B), 0)) false 12 1 (sx i) a d)
  | .sltI i a d => some (formI (fun _ _ A B => (bit (decide (A.toInt < B.toInt)), 0)) false 12 1 (sx i) a d)
  | .sleI i a d => some (formI (fun _ _ A B => (bit (decide (A.toInt ≤ B.toInt)), 0)) false 12 1 (sx i) a d)
  | .sltuI i a d => some (formI (fun _ _ A B => (bit (decide (A.toNat < B.toNat)), 0)) false 12 1 (sx i) a d)
  | .sleuI i a d => some (formI (fun _ _ A B => (bit (decide (A.toNat ≤ B.toNat)), 0)) false 12 1 (sx i) a d)
  | .movI i d => some (formW (fun _ _ => sx i) false d)
  | .movi16 i d => some (formW (fun _ _ => i.signExtend 32) false (reg16 d))
  | .movi h d => some (formW (fun _ _ => h.signExtend 32) false d)
  | .movhi h d => some (formW (fun old _ => h ++ lo16 old) true d)
  | .addi h d => some (formW (fun old _ => old + h.signExtend 32) true d)
  | .movbf h d => some (formW (fun _ _ => h ++ (0 : BitVec 16)) false d)
  | .lpc h d => some (formW (fun _ pc => pc + (2 : Word) * h.signExtend 32) false d)
  | _ => none

/-- R219, R237. Operations whose first operand goes through the crossbar: A is P(a), B and D are the old d. -/
def crossForm : Instr → Option LaneOp
  | .addX p t a d => some (formX (fun _ _ A B => (A + B, 0)) 12 1 p t a d)
  | .subX p t a d => some (formX (fun _ _ A B => (A - B, 0)) 12 1 p t a d)
  | .mulloX p t a d => some (formX (fun _ _ A B => (A * B, 0)) 12 1 p t a d)
  | .andX p t a d => some (formX (fun _ _ A B => (A &&& B, 0)) 12 1 p t a d)
  | .orX p t a d => some (formX (fun _ _ A B => (A ||| B, 0)) 12 1 p t a d)
  | .xorX p t a d => some (formX (fun _ _ A B => (A ^^^ B, 0)) 12 1 p t a d)
  | .andnX p t a d => some (formX (fun _ _ A B => (A &&& ~~~B, 0)) 12 1 p t a d)
  | .minX p t a d => some (formX (fun _ _ A B => (if A.toInt ≤ B.toInt then A else B, 0)) 12 1 p t a d)
  | .maxX p t a d => some (formX (fun _ _ A B => (if A.toInt ≤ B.toInt then B else A, 0)) 12 1 p t a d)
  | .minuX p t a d => some (formX (fun _ _ A B => (if A.toNat ≤ B.toNat then A else B, 0)) 12 1 p t a d)
  | .maxuX p t a d => some (formX (fun _ _ A B => (if A.toNat ≤ B.toNat then B else A, 0)) 12 1 p t a d)
  | .faddX p t a d => some (formX (fun M _ A B => asWord (fAdd fmtF32 M A.toNat B.toNat)) 0 1 p t a d)
  | .fsubX p t a d => some (formX (fun M _ A B => asWord (fSub fmtF32 M A.toNat B.toNat)) 0 1 p t a d)
  | .fmulX p t a d => some (formX (fun M _ A B => asWord (fMul fmtF32 M A.toNat B.toNat)) 0 1 p t a d)
  | .fmaX p t a d => some (formX (fun M D A B => asWord (fFma fmtF32 M D.toNat A.toNat B.toNat)) 0 2 p t a d)
  | .fminX p t a d => some (formX (fun _ _ A B => asWord (fMin fmtF32 A.toNat B.toNat)) 0 1 p t a d)
  | .fmaxX p t a d => some (formX (fun _ _ A B => asWord (fMax fmtF32 A.toNat B.toNat)) 0 1 p t a d)
  | .badd2X p t a d => some (formX (fun _ _ A B => perHalf (fun _ x y => fAdd fmtBF16 .rne x y) 0 A B) 2 2 p t a d)
  | .bmul2X p t a d => some (formX (fun _ _ A B => perHalf (fun _ x y => fMul fmtBF16 .rne x y) 0 A B) 2 2 p t a d)
  | .bfma2X p t a d => some (formX (fun _ D A B => perHalf (fun z x y => fFma fmtBF16 .rne z x y) D A B) 2 4 p t a d)
  | .hfma2X p t a d => some (formX (fun _ D A B => perHalf (fun z x y => fFma fmtF16 .rne z x y) D A B) 3 4 p t a d)
  | .hadd2X p t a d => some (formX (fun _ _ A B => perHalf (fun _ x y => fAdd fmtF16 .rne x y) 0 A B) 3 2 p t a d)
  | .iadd2sX p t a d => some (formX (fun _ _ A B => pack16 ((lo16 A).toInt + (lo16 B).toInt) ((hi16 A).toInt + (hi16 B).toInt)) 11 2 p t a d)
  | .isub2sX p t a d => some (formX (fun _ _ A B => pack16 ((lo16 A).toInt - (lo16 B).toInt) ((hi16 A).toInt - (hi16 B).toInt)) 11 2 p t a d)
  | .idot2X p t a d => some (formX (fun _ D A B => pack32 (D.toInt + (lo16 A).toInt * (lo16 B).toInt + (hi16 A).toInt * (hi16 B).toInt)) 11 4 p t a d)
  | .idot4X p t a d => some (formX (fun _ D A B => pack32 (D.toInt + (byteOf A 0).toInt * (byteOf B 0).toInt + (byteOf A 1).toInt * (byteOf B 1).toInt
        + (byteOf A 2).toInt * (byteOf B 2).toInt + (byteOf A 3).toInt * (byteOf B 3).toInt)) 8 8 p t a d)
  | .movX p t a d => some (formXMov p t a d)
  | _ => none

/-- R245 to R248. FP32 operations; M is the rounding mode of CTX_ROUND. -/
def fpForm : Instr → Option LaneOp
  | .faddA y x b a d => some (formA (fun M _ A B => asWord (fAdd fmtF32 M A.toNat B.toNat)) false 0 1 y x b a d)
  | .fadd16 l r d => some (formA (fun M _ A B => asWord (fAdd fmtF32 M A.toNat B.toNat)) false 0 1 (mark16 l) 0 (reg16 r) (reg16 d) (reg16 d))
  | .fsubA y x b a d => some (formA (fun M _ A B => asWord (fSub fmtF32 M A.toNat B.toNat)) false 0 1 y x b a d)
  | .fsub16 l r d => some (formA (fun M _ A B => asWord (fSub fmtF32 M A.toNat B.toNat)) false 0 1 (mark16 l) 0 (reg16 r) (reg16 d) (reg16 d))
  | .fmulA y x b a d => some (formA (fun M _ A B => asWord (fMul fmtF32 M A.toNat B.toNat)) false 0 1 y x b a d)
  | .fmul16 l r d => some (formA (fun M _ A B => asWord (fMul fmtF32 M A.toNat B.toNat)) false 0 1 (mark16 l) 0 (reg16 r) (reg16 d) (reg16 d))
  | .fmaA y x b a d => some (formA (fun M D A B => asWord (fFma fmtF32 M D.toNat A.toNat B.toNat)) true 0 2 y x b a d)
  | .fminA y x b a d => some (formA (fun _ _ A B => asWord (fMin fmtF32 A.toNat B.toNat)) false 0 1 y x b a d)
  | .fmin16 l r d => some (formA (fun _ _ A B => asWord (fMin fmtF32 A.toNat B.toNat)) false 0 1 (mark16 l) 0 (reg16 r) (reg16 d) (reg16 d))
  | .fmaxA y x b a d => some (formA (fun _ _ A B => asWord (fMax fmtF32 A.toNat B.toNat)) false 0 1 y x b a d)
  | .fmax16 l r d => some (formA (fun _ _ A B => asWord (fMax fmtF32 A.toNat B.toNat)) false 0 1 (mark16 l) 0 (reg16 r) (reg16 d) (reg16 d))
  | .fseq y x b a d => some (formA (fun _ _ A B => asWord (fCmp fmtF32 (fun o => o == .eq) A.toNat B.toNat)) false 0 1 y x b a d)
  | .fslt y x b a d => some (formA (fun _ _ A B => asWord (fCmp fmtF32 (fun o => o == .lt) A.toNat B.toNat)) false 0 1 y x b a d)
  | .fsle y x b a d => some (formA (fun _ _ A B => asWord (fCmp fmtF32 (fun o => o != .gt) A.toNat B.toNat)) false 0 1 y x b a d)
  | .fscaleA y x b a d => some (formA (fun M _ A B => asWord (fScale M A.toNat B.toInt)) false 0 1 y x b a d)
  | .fscaleI i a d => some (formI (fun M _ A B => asWord (fScale M A.toNat B.toInt)) false 0 1 (sx i) a d)
  | _ => none

/-- R249 to R254. Packed operations. -/
def packedForm : Instr → Option LaneOp
  | .badd2A y x b a d => some (formA (fun _ _ A B => perHalf (fun _ x y => fAdd fmtBF16 .rne x y) 0 A B) false 2 2 y x b a d)
  | .bmul2A y x b a d => some (formA (fun _ _ A B => perHalf (fun _ x y => fMul fmtBF16 .rne x y) 0 A B) false 2 2 y x b a d)
  | .bfma2A y x b a d => some (formA (fun _ D A B => perHalf (fun z x y => fFma fmtBF16 .rne z x y) D A B) true 2 4 y x b a d)
  | .hfma2A y x b a d => some (formA (fun _ D A B => perHalf (fun z x y => fFma fmtF16 .rne z x y) D A B) true 3 4 y x b a d)
  | .hadd2A y x b a d => some (formA (fun _ _ A B => perHalf (fun _ x y => fAdd fmtF16 .rne x y) 0 A B) false 3 2 y x b a d)
  | .iadd2sA y x b a d => some (formA (fun _ _ A B => pack16 ((lo16 A).toInt + (lo16 B).toInt) ((hi16 A).toInt + (hi16 B).toInt)) false 11 2 y x b a d)
  | .isub2sA y x b a d => some (formA (fun _ _ A B => pack16 ((lo16 A).toInt - (lo16 B).toInt) ((hi16 A).toInt - (hi16 B).toInt)) false 11 2 y x b a d)
  | .idot2A y x b a d => some (formA (fun _ D A B => pack32 (D.toInt + (lo16 A).toInt * (lo16 B).toInt + (hi16 A).toInt * (hi16 B).toInt)) true 11 4 y x b a d)
  | .idot4A y x b a d => some (formA (fun _ D A B => pack32 (D.toInt + (byteOf A 0).toInt * (byteOf B 0).toInt + (byteOf A 1).toInt * (byteOf B 1).toInt
        + (byteOf A 2).toInt * (byteOf B 2).toInt + (byteOf A 3).toInt * (byteOf B 3).toInt)) true 8 8 y x b a d)
  | .ishr2rA y x b a d => some (formA (fun _ _ A B => aluIshr2r A B) false 11 2 y x b a d)
  | .ipack2s y x b a d => some (formA (fun _ _ A B => aluIpack2s A B) false 11 2 y x b a d)
  | .ishr2rI i a d => some (formI (fun _ _ A B => aluIshr2r A B) false 11 2 (i.zeroExtend 32) a d)
  | _ => none

/-- R239, R240, R257 to R259, R261, R268 to R270. Pairs, conversions, special functions, softmax state, tables, other threads' registers and the generator. -/
def specialForm : Instr → Option LaneOp
  | .add64A y x b a d => some
      { fields := [regF a 2, srcF b, outF d 2], kills := kill x a 2 ++ kill y b, inc := 1
        eval := perThread fun _ gr t => pairRes d.toNat ((gr.thread t).pair a.toNat + ((gr.thread t).reg b.toNat).signExtend 64) }
  | .add64I i a d => some
      { fields := [regF a 2, outF d 2], inc := 1
        eval := perThread fun _ gr t => pairRes d.toNat ((gr.thread t).pair a.toNat + (sx i).signExtend 64) }
  | .madw y x b a d => some
      { fields := [srcF a, srcF b, updF d 2], kills := kill x a ++ kill y b, inc := 2
        eval := perThread fun _ gr t =>
          let th := gr.thread t
          pairRes d.toNat (th.pair d.toNat + (th.reg a.toNat).zeroExtend 64 * (th.reg b.toNat).zeroExtend 64) }
  | .cvt m t src a d => some
      { need := cvtNeed m t src, fields := [srcF a, dstF d], cat := cvtCat t.toNat, inc := cvtElems src.toNat t.toNat
        eval := perThread fun s gr u =>
          let r := cvtWord src.toNat t.toNat (cvtMode m s gr u) ((gr.thread u).reg a.toNat)
          let made := if m = 3 then cvtElems src.toNat t.toNat else 0
          { oneRes d.toNat r with convs := made } }
  | .sfu f n a d => some
      { fields := [srcF a, dstF d], cat := 16, inc := if f = 0 then 1 else 2
        eval := perThread fun s gr t => oneRes d.toNat (sfuWord (s.mode gr t) f.toNat n.toNat ((gr.thread t).reg a.toNat)) }
  | .smxacc x a d => some
      { fields := [srcF a, updF d 2], kills := kill x a, cat := 16, inc := 1
        eval := perThread fun _ gr t =>
          let th := gr.thread t
          let r := smxAcc (loWord (th.pair d.toNat)) (hiWord (th.pair d.toNat)) (th.reg a.toNat)
          pairRes d.toNat (pairOf r.1.1 r.1.2) r.2 }
  | .smxnorm y x b a d => some
      { fields := [srcF a, regF b 2, dstF d], kills := kill x a ++ kill y b 2, cat := 16, inc := 1
        eval := perThread fun _ gr t =>
          let th := gr.thread t
          oneRes d.toNat (smxNorm (th.reg a.toNat) (loWord (th.pair b.toNat)) (hiWord (th.pair b.toNat))) }
  | .tbl k a d => some
      { noHandler := true, fields := [srcF a, dstF d], inc := 1
        eval := perThread fun s gr t =>
          let kept := (gr.thread t).table
          let live := if kept = [] then ((s.team? (gkeyTeam gr.key)).map fun tm => (tm.tables.getD k.toNat {}).live).getD [] else kept
          oneRes d.toNat (live.getD (((gr.thread t).reg a.toNat).toNat % 256) 0, 0) }
  | .lget y x b a d => some
      { fields := [{ num := a.toNat, own := false }, srcF b, dstF d], kills := kill x a ++ kill y b
        cross := fun gr t =>
          if (b = 61 ∧ (gr.thread t).queue.isEmpty) ∨ (gr.thread t).isPend b.toNat then [] else [(lgetSource gr b.toNat t, a.toNat)]
        eval := perThread fun _ gr t =>
          oneRes d.toNat (lgetPart ((gr.thread t).reg b.toNat) ((gr.thread (lgetSource gr b.toNat t)).reg a.toNat), 0) }
  | .rand i a d => some
      { fields := [srcF a, dstF d]
        eval := perThread fun s gr t =>
          oneRes d.toNat (omix (s.genSeed gr) (gr.genL t ++ ((gr.thread t).reg a.toNat + sx i)), 0) }
  | _ => none

/-- R264 to R266. Reductions and scans over the issue set. -/
def groupForm : Instr → Option LaneOp
  | .redg c a d => some
      (if c = 9 then
        { fields := [regF a 2, outF d 2], cat := 0, inc := 1, eval := fun _ gr set => redgSmx a.toNat d.toNat gr set }
      else
        { fields := [srcF a, if c = 1 ∨ c = 10 then updF d else dstF d], cat := groupCat false c.toNat, inc := 1
          combine := some (false, c.toNat, d.toNat)
          eval := fun _ gr set => groupOp false c.toNat d.toNat gr set fun t => (gr.thread t).reg a.toNat })
  | .scang c a d => some
      { fields := [srcF a, dstF d], cat := groupCat true c.toNat, inc := 1, combine := some (true, c.toNat, d.toNat)
        eval := fun _ gr set => groupOp true c.toNat d.toNat gr set fun t => (gr.thread t).reg a.toNat }
  | _ => none

/-! ## Threads updated together, flags raised together -/

/-- The threads of a set of a group updated, each by its own function. -/
def onGroup (set : List Nat) (f : Nat → Thread → Thread) (gr : Group) : Group :=
  { gr with threads := gr.threads.mapIdx fun u th => if set.contains u then f u th else th }

/-- The threads of a set updated; nothing else changes. -/
def onThreads (s : State) (g : Nat) (set : List Nat) (f : Nat → Thread → Thread) : State :=
  { s with groups := s.groups.modify g (onGroup set f) }

/-- Flags ORed over a list of threads. -/
def orFlags (set : List Nat) (fl : Nat → Flags) : Flags := (set.map fl).foldr (· ||| ·) 0

/-- Flags raised in a cycle in the threads of a set and in their group. -/
def flagGroup (cycle : Nat) (set : List Nat) (fl : Nat → Flags) (gr : Group) : Group :=
  (onGroup set (fun u th => th.raiseBits cycle (fl u)) gr).raiseBits cycle (orFlags set fl)

/-- R168. Flags raised for the threads of a set: in each thread, in the group, and in CTX_FLAGS; nothing else changes. -/
def flagged (s : State) (g : Nat) (gr : Group) (set : List Nat) (fl : Nat → Flags) : State :=
  { s with
    groups := s.groups.modify g (flagGroup s.cycle set fl)
    ctxs := s.ctxs.modify gr.key.ctx (Context.raiseBits s.cycle (orFlags set fl)) }

/-- R213. PZ raised for the threads of a set that read a poisoned register of some fields. -/
def poisoned (s : State) (g : Nat) (gr : Group) (set : List Nat) (fs : List Field) : State :=
  flagged s g gr set fun t => poisonFlag gr (inThread t (ownReads fs))

/-- The conditions under which an instruction with some fields executes: they are legal, and nothing that the threads
`who` read or write is pending. -/
structure Usable (fs : List Field) (gr : Group) (who : List Nat) : Prop where
  fields : fieldsFault gr.budget fs = none
  ready : ∀ t ∈ who, NonePending gr (inThread t (ownRegs fs))

/-! ## What the system instructions that only read do -/

/-- A system instruction in which every thread of the issue set updates itself: its fields, and the update from the state
in which PZ has been raised. -/
structure SysForm where
  fields : List Field
  update : State → Group → List Nat → Nat → Thread → Thread

/-- R310. The value of a vote by its code, over the issuing threads and their values. -/
def votes (code : Nat) (set : List Nat) (x : Nat → Word) : Word :=
  if code = 0 then bit (set.all fun t => x t != 0)
  else if code = 1 then bit (set.any fun t => x t != 0)
  else if code = 2 then BitVec.ofNat 32 ((set.map fun t => if x t ≠ 0 ∧ t < 32 then 2 ^ t else 0).sum)
  else if code = 3 then BitVec.ofNat 32 ((set.map fun t => if x t ≠ 0 ∧ 32 ≤ t ∧ t < 64 then 2 ^ (t - 32) else 0).sum)
  else bit (set.all fun t => x t == x (set.headD 0))

/-- R229 to R231, R291, R303, R307, R310, R311, R316. -/
def sysForm : Instr → Option SysForm
  | .nop => some { fields := [], update := fun _ _ _ _ th => th }
  | .elect d => some { fields := [outF d], update := fun _ _ set t th => th.setReg d.toNat (if t = set.headD 0 then 1 else 0) }
  | .vote i a d => some
      { fields := [regF a, outF d]
        update := fun _ gr set _ th => th.setReg d.toNat (votes i.toNat set fun t => (gr.thread t).reg a.toNat) }
  | .flagrd i d => some
      { fields := [outF d]
        update := fun _ gr _ _ th => th.setReg d.toNat ((if i = 0 then th.flags else gr.flags).zeroExtend 32) }
  | .ident i d => some
      { fields := [outF d]
        update := fun s gr _ t th => (s.identLatch i.toNat th).setReg d.toNat
          (if gr.key.kind = .handler ∧ (i.toNat ≤ 9 ∨ i.toNat = 15 ∨ i.toNat = 16 ∨ i.toNat = 21) then 0 else s.identValue gr t i.toNat) }
  | .csrrd i d => some { fields := [outF d], update := fun s gr _ t th => th.setReg d.toNat (s.csrValue gr t i.toNat) }
  | .qroute a => some
      { fields := [regF a 2]
        update := fun _ gr _ t th =>
          let p := (gr.thread t).pair a.toNat
          { th with route := some (loWord p, hiWord p) } }
  | .qstat i d => some { fields := [outF d], update := fun s gr _ t th => th.setReg d.toNat (s.qstat gr t i.toNat) }
  | .perfrd i d => some
      { fields := [outF d], update := fun _ gr _ _ th => th.setReg d.toNat (BitVec.ofNat 32 (gr.perf.getD i.toNat 0)) }
  | _ => none

/-! ## Loads, stores and atomics -/

/-- The checks of an access of thread t have passed (R276): those of its lower part and of its upper part, if any. -/
def Reaches (s : State) (k : GKey) (write : Bool) (x : Target) : Prop :=
  (∃ l, s.lowCheck k write x = .ok l) ∧ ∃ l, s.highCheck k write x = .ok l

/-- A load: global or scratch, sign extension, bytes, offset, base and destination. -/
structure LoadForm where
  glob : Bool
  signed : Bool := false
  size : Nat
  off : BitVec 11
  base : BitVec 6
  d : BitVec 6

/-- R278. The loads. -/
def loadForm : Instr → Option LoadForm
  | .ldgB k a d => some { glob := true, size := 1, off := k, base := a, d := d }
  | .ldgSb k a d => some { glob := true, signed := true, size := 1, off := k, base := a, d := d }
  | .ldgH k a d => some { glob := true, size := 2, off := k, base := a, d := d }
  | .ldgSh k a d => some { glob := true, signed := true, size := 2, off := k, base := a, d := d }
  | .ldgW k a d => some { glob := true, size := 4, off := k, base := a, d := d }
  | .ldgD k a d => some { glob := true, size := 8, off := k, base := a, d := d }
  | .ldgQ k a d => some { glob := true, size := 16, off := k, base := a, d := d }
  | .ldsH k a d => some { glob := false, size := 2, off := k, base := a, d := d }
  | .ldsW k a d => some { glob := false, size := 4, off := k, base := a, d := d }
  | .ldsD k a d => some { glob := false, size := 8, off := k, base := a, d := d }
  | .ldsQ k a d => some { glob := false, size := 16, off := k, base := a, d := d }
  | _ => none

/-- Registers of a load: the base, and as many as its bytes fill. -/
def LoadForm.fields (F : LoadForm) : List Field :=
  [regF F.base (if F.glob then 2 else 1), outF F.d (max 1 (F.size / 4))]
def LoadForm.regs (F : LoadForm) : List Nat := regSpan F.d.toNat (max 1 (F.size / 4))

/-- R275. The address of thread t: its base plus the offset in units of the size. -/
def LoadForm.target (F : LoadForm) (gr : Group) (t : Nat) : Target :=
  { glob := F.glob, addr := formAddr F.glob (gr.thread t) F.base.toNat (F.off.toInt * F.size), size := F.size }

/-- R216, R278. A thread after its load has performed: the destination is pending, and the value is on its way. -/
def LoadForm.issued (F : LoadForm) (bytes : List Byte) (cycle : Nat) (next : Word) (th : Thread) : Thread :=
  let marked := F.regs.foldl (fun th r => th.setPend r true) th
  let arriving : LoadRec := { vals := loadVals F.signed F.regs bytes, pc := th.pc, cycle := cycle }
  Thread.goOn { marked with loads := marked.loads ++ [arriving] } next

/-- R216, R277. A thread whose load waits on an owner state: its destination is pending, and PZ is owed. -/
def LoadForm.waits (F : LoadForm) (gr : Group) (next : Word) (t : Nat) (th : Thread) : Thread :=
  let marked := F.regs.foldl (fun th r => th.setPend r true) th
  let access := { (F.target gr t).waiting true next with regs := F.regs, signed := F.signed }
  { marked.block (.owner access) with owed := poisonFlag gr (inThread t (ownReads F.fields)) }

/-- A guarded access: global or scratch, bytes, offset, sense and register of the guard, base, data register. -/
structure StoreForm where
  glob : Bool
  size : Nat
  off : BitVec 4
  n : BitVec 1
  guard : BitVec 6
  base : BitVec 6
  d : BitVec 6

/-- R279. The stores. -/
def storeForm : Instr → Option StoreForm
  | .stgB k n g a d => some { glob := true, size := 1, off := k, n := n, guard := g, base := a, d := d }
  | .stgH k n g a d => some { glob := true, size := 2, off := k, n := n, guard := g, base := a, d := d }
  | .stgW k n g a d => some { glob := true, size := 4, off := k, n := n, guard := g, base := a, d := d }
  | .stgD k n g a d => some { glob := true, size := 8, off := k, n := n, guard := g, base := a, d := d }
  | .stgQ k n g a d => some { glob := true, size := 16, off := k, n := n, guard := g, base := a, d := d }
  | .stsH k n g a d => some { glob := false, size := 2, off := k, n := n, guard := g, base := a, d := d }
  | .stsW k n g a d => some { glob := false, size := 4, off := k, n := n, guard := g, base := a, d := d }
  | .stsD k n g a d => some { glob := false, size := 8, off := k, n := n, guard := g, base := a, d := d }
  | .stsQ k n g a d => some { glob := false, size := 16, off := k, n := n, guard := g, base := a, d := d }
  | _ => none

def StoreForm.fields (F : StoreForm) : List Field :=
  [regF F.base (if F.glob then 2 else 1), regF F.guard, { num := F.d.toNat, size := max 1 (F.size / 4), qr := F.size = 4 }]

/-- R275. The address of thread t. -/
def StoreForm.target (F : StoreForm) (gr : Group) (t : Nat) : Target :=
  { glob := F.glob, addr := formAddr F.glob (gr.thread t) F.base.toNat ((F.off.toNat * F.size : Nat) : Int), size := F.size }

/-- The threads that store, those whose guard is true (R218), and the bytes that a thread stores. -/
def StoreForm.who (F : StoreForm) (gr : Group) (set : List Nat) : List Nat := guarded gr F.n F.guard set
def StoreForm.bytes (F : StoreForm) (gr : Group) (t : Nat) : List Byte := storeBytes (gr.thread t) F.d.toNat F.size

/-- R277. A thread whose store waits on an owner state, with its bytes. -/
def StoreForm.waits (F : StoreForm) (gr : Group) (next : Word) (t : Nat) (th : Thread) : Thread :=
  let access := { (F.target gr t).waiting false next with data := F.bytes gr t }
  { th.block (.owner access) with owed := poisonFlag gr (inThread t (ownReads F.fields)) }

/-- The conditions under which a guarded instruction executes: its fields are legal, no guard is pending, and nothing that
a thread whose guard is true reads or writes is pending. -/
structure GuardUsable (fs : List Field) (n : BitVec 1) (g : BitVec 6) (gr : Group) (set : List Nat) : Prop where
  fields : fieldsFault gr.budget fs = none
  guards : ∀ t ∈ set, NonePending gr (inThread t (regSpan g.toNat 1))
  ready : ∀ t ∈ guarded gr n g set, NonePending gr (inThread t (ownRegs fs))

/-- The byte at a memory address lies outside some places. -/
def OutsideMem (ls : List (Loc × Nat)) (a : Nat) : Prop :=
  ∀ l ∈ ls, match l.1 with
    | .glob p _ _ => ¬(p ≤ a ∧ a < p + l.2)
    | .scr _ => True

/-- The byte at a scratch address lies outside some places. -/
def OutsideScratch (ls : List (Loc × Nat)) (a : Nat) : Prop :=
  ∀ l ∈ ls, match l.1 with
    | .glob _ _ _ => True
    | .scr p => ¬(p ≤ a ∧ a < p + l.2)

/-- A memory address lies outside the STATUS words of the nodes: a store that seals a node writes its STATUS (R195). -/
def OutsideStatus (s : State) (a : Nat) : Prop :=
  ∀ n ∈ s.nodes, ∀ p, (s.ctx n.ctx).phys? (n.addr + 104) = some p → ¬(p ≤ a ∧ a < p + 4)

/-- A node but for what staging and sealing change, and a team but for its scratch bytes and the stash lines it holds. -/
def plainNode (n : Node) : Node := { n with state := .queued, sealCause := 0, staged := [], stagedCount := 0 }
def plainTeam (t : Team) : Team :=
  let bare := fun (w : StashWin) => { w with lines := [] }
  { t with scratch := [], windows := t.windows.map bare }

/-- s' differs from s only by stores of a team at some places: in those bytes of memory and of the team's scratchpad, in the
STATUS words of nodes, and in what staging, sealing and stash windows hold. -/
structure OnlyStores (k : TKey) (ls : List (Loc × Nat)) (s s' : State) : Prop where
  rest : s' = { s with mem := s'.mem, nodes := s'.nodes, teams := s'.teams }
  nodes : s'.nodes.map plainNode = s.nodes.map plainNode
  teams : s'.teams.map plainTeam = s.teams.map plainTeam
  wf : s.memWf = true → s'.memWf = true
  mem : s.memWf = true → ∀ a, OutsideMem ls a → OutsideStatus s a → cellsGet s'.mem a = cellsGet s.mem a
  scratch : s.memWf = true → ∀ k' a, (k' = k → OutsideScratch ls a) → cellsGet (s'.scratch k') a = cellsGet (s.scratch k') a

/-- Two places have no byte in common. -/
def Apart (x y : Loc × Nat) : Prop :=
  match x.1, y.1 with
  | .glob p _ _, .glob q _ _ => p + x.2 ≤ q ∨ q + y.2 ≤ p
  | .scr p, .scr q => p + x.2 ≤ q ∨ q + y.2 ≤ p
  | _, _ => True

/-- A place has no byte in common with the STATUS words of the nodes. -/
def ApartStatus (s : State) (x : Loc × Nat) : Prop :=
  match x.1 with
  | .glob p _ _ => ∀ a, p ≤ a → a < p + x.2 → OutsideStatus s a
  | .scr _ => True

/-- R279. What the lanes of a store have written stands against the lower threads, not of its issue set, that still wait in
the same store. -/
def overwritten (s : State) (g : Nat) (gr : Group) (places : Nat → List (Loc × Nat)) (set who : List Nat) : State :=
  who.foldl (fun s t => onThreads s g (others (gr.below t) set) fun _ th =>
    { th with higher := th.higher ++ (places t).map placeSpan }) s

/-- The threads after a store: those that stored count it, and all go on. -/
def storedThreads (s : State) (g : Nat) (gr : Group) (places : Nat → List (Loc × Nat)) (set who : List Nat) (next : Word) : State :=
  onThreads (overwritten (onThreads s g (others set who) fun _ th => th.goOn next) g gr places set who) g who fun _ th =>
    Thread.goOn { th with stores := th.stores + 1 } next

/-- An atomic: its op5, its fields, and what it stores, if anything, and raises, from the old value, d and the compare. -/
structure AtomicForm where
  op : Nat
  off : BitVec 4
  n : BitVec 1
  guard : BitVec 6
  base : BitVec 6
  d : BitVec 6
  new : DWord → DWord → DWord → Option DWord × Flags

/-- A 32-bit operation as one on the low words. -/
def onWords (f : Word → Word → Word → Option Word × Flags) (m d c : DWord) : Option DWord × Flags :=
  let r := f (loWord m) (loWord d) (loWord c)
  (r.1.map fun v => v.zeroExtend 64, r.2)

/-- R280, R282. The atomics. -/
def atomicForm : Instr → Option AtomicForm
  | .aadd k n g a d => some ⟨20, k, n, g, a, d, onWords fun m v _ => (some (m + v), 0)⟩
  | .amin k n g a d => some ⟨21, k, n, g, a, d, onWords fun m v _ => (some (if m.toInt ≤ v.toInt then m else v), 0)⟩
  | .amax k n g a d => some ⟨22, k, n, g, a, d, onWords fun m v _ => (some (if m.toInt ≤ v.toInt then v else m), 0)⟩
  | .aand k n g a d => some ⟨23, k, n, g, a, d, onWords fun m v _ => (some (m &&& v), 0)⟩
  | .aor k n g a d => some ⟨24, k, n, g, a, d, onWords fun m v _ => (some (m ||| v), 0)⟩
  | .axor k n g a d => some ⟨25, k, n, g, a, d, onWords fun m v _ => (some (m ^^^ v), 0)⟩
  | .axch k n g a d => some ⟨26, k, n, g, a, d, onWords fun _ v _ => (some v, 0)⟩
  | .acas k n g a d => some ⟨27, k, n, g, a, d, onWords fun m v c => (if m = c then some v else none, 0)⟩
  | .afadd k n g a d => some ⟨28, k, n, g, a, d, onWords fun m v _ =>
      (some (BitVec.ofNat 32 (fAdd fmtF32 .rne m.toNat v.toNat).1), (fAdd fmtF32 .rne m.toNat v.toNat).2)⟩
  | .acasD k n g a d => some ⟨30, k, n, g, a, d, fun m v c => (if m = c then some v else none, 0)⟩
  | .axchD k n g a d => some ⟨31, k, n, g, a, d, fun _ v _ => (some v, 0)⟩
  | _ => none

/-- Bytes of the target: 8 for the 64-bit forms. -/
def AtomicForm.size (F : AtomicForm) : Nat := if F.op = 30 ∨ F.op = 31 then 8 else 4
/-- Registers that d spans: with a compare, twice those of the target. -/
def AtomicForm.span (F : AtomicForm) : Nat := if F.op = 30 then 4 else if F.op = 27 ∨ F.op = 31 then 2 else 1
def AtomicForm.fields (F : AtomicForm) : List Field := [regF F.base 2, regF F.guard, updF F.d F.span]
def AtomicForm.regs (F : AtomicForm) : List Nat := regSpan F.d.toNat (F.size / 4)
def AtomicForm.who (F : AtomicForm) (gr : Group) (set : List Nat) : List Nat := guarded gr F.n F.guard set
def AtomicForm.target (F : AtomicForm) (gr : Group) (t : Nat) : Target :=
  { glob := true, addr := formAddr true (gr.thread t) F.base.toNat ((F.off.toNat * F.size : Nat) : Int), size := F.size,
    align := F.size }

/-- The bytes stored, if any, and the flags raised, for the bytes that stood at the target and the registers of a thread. -/
def AtomicForm.stored (F : AtomicForm) (th : Thread) (old : List Byte) : Option (List Byte) × Flags :=
  let data := storeBytes th F.d.toNat (4 * F.span)
  let num := fun (bs : List Byte) => BitVec.ofNat 64 (bytesNat bs)
  let r := F.new (num old) (num (data.take F.size)) (num (data.drop F.size))
  (r.1.map fun v => natBytes F.size v.toNat, r.2)

/-- R216, R280. A thread after its lane has performed: the old value is on its way to the destination, pending. -/
def AtomicForm.issued (F : AtomicForm) (old : List Byte) (cycle : Nat) (next : Word) (th : Thread) : Thread :=
  let marked := F.regs.foldl (fun th r => th.setPend r true) th
  let arriving : LoadRec := { vals := wordsOf F.regs old, pc := th.pc, cycle := cycle }
  Thread.goOn { marked with loads := marked.loads ++ [arriving] } next

/-- R216. A thread whose guard is false, beside threads in which the atomic acts: the destination is pending, with what stands
in it on its way, and no access of its own. -/
def AtomicForm.marked (F : AtomicForm) (next : Word) (th : Thread) : Thread :=
  let marked := F.regs.foldl (fun th r => th.setPend r true) th
  let standing : LoadRec :=
    { vals := F.regs.map fun r => (r, th.reg r), pc := th.pc, arrived := true, counts := false }
  Thread.goOn { marked with loads := marked.loads ++ [standing] } next

/-- What becomes of a thread whose guard is false, where the atomic acts in the threads `who`: no mark where it acts in none. -/
def AtomicForm.pass (F : AtomicForm) (who : List Nat) (next : Word) (th : Thread) : Thread :=
  if who = [] then th.goOn next else F.marked next th

/-- R277. A thread of an atomic that waits whole, with its lanes `who`. -/
def AtomicForm.waits (F : AtomicForm) (gr : Group) (who : List Nat) (next : Word) (t : Nat) (th : Thread) : Thread :=
  let marked := F.regs.foldl (fun th r => th.setPend r true) th
  let access := { (F.target gr t).waiting false next with
    regs := F.regs, data := storeBytes (gr.thread t) F.d.toNat (4 * F.span), atomic := some F.op, whole := who }
  { marked.block (.owner access) with owed := poisonFlag gr (inThread t (ownReads F.fields)) }

/-- R280, R281. The lane of thread t of an atomic: one access that takes the bytes it finds as its old value. -/
def AtomicForm.lane (F : AtomicForm) (g : Nat) (gr : Group) (places : Nat → List (Loc × Nat)) (cycle : Nat) (next : Word)
    (s : State) (t : Nat) : State :=
  let k := gkeyTeam gr.key
  let old := s.readPlaces k (places t)
  let new := F.stored (gr.thread t) old
  let s1 := match new.1 with
    | some bs => s.writePlaces k (places t) bs
    | none => s.touchPlaces k (places t)
  flagged (onThreads s1 g [t] fun _ th => F.issued old cycle next th) g gr [t] fun _ => new.2

/-- R178, R180. What a check that is not passed leaves: the threads `set` stopped by a trap at thread t, or the group's fetch
suspended until the page of thread t is served. -/
def stopped (s : State) (g : Nat) (set : List Nat) (t : Nat) (x : Chk) : State :=
  match x with
  | .fault c d => s.takeTrap g set t c d
  | .page v => s.modGroup g fun gr => { gr with fetch := some (.page v set t), lowered := [] }
  | .ok _ => s

/-- R168. Threads that have read the fields `fs` and wait: PZ for what was poisoned stands until their instruction retires. -/
def owing (s : State) (g : Nat) (gr : Group) (set : List Nat) (fs : List Field) : State :=
  onThreads s g set fun t th => { th with owed := poisonFlag gr (inThread t (ownReads fs)) }

/-! ## Control, waits and system instructions -/

/-- A system instruction i with some fields executes for the whole issue set. -/
structure Runs (i : Instr) (fs : List Field) (s : State) (g : Nat) (set : List Nat) (gr : Group) : Prop where
  issuing : Issuing s g set gr
  wf : i.wf = true
  usable : Usable fs gr set

/-- A system instruction i that acts through its lowest thread executes (R291). -/
structure RunsOnce (i : Instr) (fs : List Field) (s : State) (g : Nat) (set : List Nat) (gr : Group) : Prop where
  issuing : Issuing s g set gr
  wf : i.wf = true
  usable : Usable fs gr [set.headD 0]

/-- A guarded instruction i executes: `fs` are its further fields. -/
structure RunsIf (i : Instr) (fs : List Field) (n : BitVec 1) (guard : BitVec 6) (s : State) (g : Nat) (set : List Nat)
    (gr : Group) : Prop where
  issuing : Issuing s g set gr
  wf : i.wf = true
  usable : GuardUsable fs n guard gr set

/-- The state from which an instruction of a whole issue set acts: PZ raised for what its threads read (R213). -/
def acting (fs : List Field) (s : State) (g : Nat) (set : List Nat) (gr : Group) : State := poisoned (idle s) g gr set fs

/-- The lowest thread of an issue set. -/
abbrev leadOf (set : List Nat) : Nat := set.headD 0

/-- A branch: the sense and register of its guard, its further fields, and a taken thread from the PC of the branch. -/
structure BranchForm where
  n : BitVec 1
  guard : BitVec 6
  more : List Field
  taken : Word → Thread → Thread

def BranchForm.fields (F : BranchForm) : List Field := regF F.guard :: F.more

/-- R292. The branches: a target relative to their PC in halfwords, or a PC in a register with bit 0 cleared. -/
def branchForm : Instr → Option BranchForm
  | .bra k n g => some { n := n, guard := g, more := [], taken := fun pc th => th.goOn (pc + 2 * k.signExtend 32) }
  | .call k n g => some
      { n := n, guard := g, more := [outF 59]
        taken := fun pc th => (th.setReg 59 (pc + 4)).goOn (pc + 2 * k.signExtend 32) }
  | .brx r n g => some
      { n := n, guard := g, more := [regF r], taken := fun _ th => th.goOn (th.reg r.toNat &&& 0xFFFFFFFE) }
  | .ret n g => some { n := n, guard := g, more := [regF 59], taken := fun _ th => th.goOn (th.reg 59 &&& 0xFFFFFFFE) }
  | _ => none

/-- A thread whose EXIT has a true guard. -/
def exitThread (th : Thread) : Thread := { th.goOn th.pc with state := .exited }

/-- A guarded issue: the threads whose guard is true become `yes`, the others go on. -/
def splitThreads (s : State) (g : Nat) (set who : List Nat) (next : Word) (yes : Thread → Thread) : State :=
  onThreads s g set fun t th => if t ∈ who then yes th else th.goOn next

/-- R123, R122. A legal register budget: a multiple of 4 from 8 to 60. -/
def LegalBudget (n : BitVec 6) : Prop := n.toNat % 4 = 0 ∧ 8 ≤ n.toNat ∧ n.toNat ≤ 60

/-- No thread of the machine waits. -/
def NoneWait (s : State) : Prop := ∀ x ∈ s.groups, ∀ th ∈ x.threads, th.isBlocked = false

/-- The aligned global word at an address. -/
def wordTarget (x : DWord) : Target := { glob := true, addr := x.toNat, size := 4, align := 4 }

/-- R313. The record of 128 bytes at an address. -/
def recordTarget (x : DWord) : Target := { glob := true, addr := x.toNat, size := 128, align := 128 }

/-- Table 15.4. The trace record that MARK writes. -/
def markRecord (s : State) (gr : Group) (set : List Nat) (id value : Word) : List Byte :=
  natBytes 1 gr.key.ctx ++ natBytes 1 (if gr.key.kind = .control then 1 else 0) ++ natBytes 2 gr.core
    ++ natBytes 4 (gr.l (leadOf set)).toNat ++ natBytes 4 (pcOf gr set).toNat ++ natBytes 2 id.toNat ++ natBytes 2 set.length
    ++ natBytes 4 value.toNat ++ natBytes 4 gr.key.node.toNat ++ natBytes 8 s.time

/-! ## Select, and lane operations with ports -/

/-- The threads of an issue set in which the guard of SELT (on true) or SELF holds. -/
def chosen (onTrue : Bool) (b : BitVec 6) (gr : Group) (set : List Nat) : List Nat :=
  set.filter fun t => decide ((gr.thread t).reg b.toNat ≠ 0) == onTrue

/-- R244. What a chosen thread of SELT or SELF gives: a to d, and PZ for a poisoned a or b. -/
def selectRes (b a d : BitVec 6) (gr : Group) (t : Nat) : LaneRes :=
  let f := poisonFlag gr (inThread t (regSpan b.toNat 1 ++ regSpan a.toNat 1))
  if d.toNat < 60 then { writes := [(d.toNat, (gr.thread t).reg a.toNat)], flags := f } else { flags := f }

/-- The conditions under which SELT or SELF executes: legal fields, no pending guard, and no pending a or d in a chosen
thread. -/
structure Selects (onTrue : Bool) (b a d : BitVec 6) (gr : Group) (set : List Nat) : Prop where
  fields : fieldsFault gr.budget [srcF a, regF b, updF d] = none
  guards : ∀ t ∈ set, NonePending gr (inThread t (regSpan b.toNat 1))
  ready : ∀ t ∈ chosen onTrue b gr set, NonePending gr (inThread t (regSpan a.toNat 1 ++ regSpan d.toNat 1))

/-- The registers that a last-use mark poisons (R212). -/
def marked (m : BitVec 2) (n : BitVec 6) : List Nat := if m = 2 then regSpan n.toNat 1 else []

/-- The lane instructions, by the tables above. -/
def laneForm (i : Instr) : Option LaneOp :=
  (((((((intAForm i).or (int16Form i)).or (intIForm i)).or (crossForm i)).or (fpForm i)).or (packedForm i)).or (specialForm i)).or
    (groupForm i)

/-- R270, R272. What a lane instruction leaves beside its results: the lookup table of a TBL notes the cycle, and where a is qr
its threads that wait keep the buffer that was live at the issue, in s0. -/
def noted (i : Instr) (s0 : State) (g : Nat) (gr : Group) (set : List Nat) (s : State) : State :=
  match i with
  | .tbl k a _ =>
    let live := ((s0.team? (gkeyTeam gr.key)).map fun tm => (tm.tables.getD k.toNat {}).live).getD []
    let keep := fun (th : Thread) => match th.state with
      | .blocked (.qr _) => { th with table := if th.table = [] then live else th.table }
      | _ => th
    (if a = 61 then onThreads s g set fun _ th => keep th else s).modTeam (gkeyTeam gr.key) fun t =>
      { t with tables := t.tables.modify k.toNat fun b => { b with readAt := some s.cycle } }
  | _ => s

/-- A thread that reads qr: the oldest word of its queue goes. -/
def takesWord (th : Thread) : Thread := { th with queue := th.queue.tail }

/-- R210, R305. Threads that each take the oldest word of their queue, and give the sender its window place back. -/
def tookWords (s : State) (g : Nat) (gr : Group) (set : List Nat) : State :=
  set.foldl (fun s t => match (gr.thread t).queue with
    | w :: _ => (onThreads s g [t] fun _ => takesWord).window w.2 false gr.key.node gr.key.team
    | [] => s) s

/-- R304. One thread of a lane operation with its result: a word for qs leaves along the thread's route, and the thread goes on; it
waits where the window has no room. -/
def laneEnds (op : LaneOp) (g : Nat) (gr : Group) (next : Word) (s : State) (p : Nat × LaneRes) : State :=
  match p.2.send, (gr.thread p.1).dest gr.key with
  | some v, some d =>
    let s1 := onThreads s g [p.1] fun _ th => th.apply op.kills p.2
    if s.windowRoom gr.key d then (s1.sendWord gr.key p.1 d v).finish g p.1 gr.key p.2.flags op.cat op.inc next
    else onThreads s1 g [p.1] fun _ th => th.block (.qs v p.2.flags op.cat op.inc next)
  | _, _ => retired s g gr op.kills next op.cat op.inc [p]

/-- The threads of an issue set whose queue is empty wait; the others take a word each. -/
def fedThreads (i : Instr) (s : State) (g : Nat) (gr : Group) (set : List Nat) : State :=
  tookWords (onThreads s g (starved gr set) fun _ th => th.block (.qr i)) g gr (fed gr set)

/-- Register numbers are legal, features are accepted and the kind of thread may run a lane operation. -/
structure LaneReady (op : LaneOp) (s : State) (gr : Group) : Prop where
  features : ∀ n ∈ op.need, s.feature n = true
  kind : op.noHandler = true → gr.key.kind ≠ .handler
  fields : fieldsFault gr.budget op.fields = none

/-! ## Deterministic reductions and stash windows -/

/-- R283. Bytes of the target of a DRED kind. -/
def dredSize (kind : BitVec 4) : Nat := if kind = 5 then 8 else 4
/-- Its fields: base, guard, data. -/
def dredFields (kind : BitVec 4) (g a d : BitVec 6) : List Field := [regF a 2, regF g, regF d (dredSize kind / 4)]

/-- R145, Table 8.14. The basket entry of thread t, whose DREDs of the node so far number `seq`. -/
def dredEntry (gr : Group) (kind : BitVec 4) (a d : BitVec 6) (t seq : Nat) (spilled : Option Nat) : BasketEntry :=
  { kind := kind, target := (gr.thread t).pair a.toNat,
    operand := if kind = 5 then (gr.thread t).pair d.toNat else ((gr.thread t).reg d.toNat).zeroExtend 64,
    l := gr.l t, seq := BitVec.ofNat 32 seq, node := gr.key.node, team := gr.key.team, core := gr.core, spilled := spilled }

/-- R287. The first block, the number of blocks and the global base of a STMAP. -/
def mapFirst (gr : Group) (set : List Nat) (d : BitVec 6) : Nat := ((gr.thread (leadOf set)).reg d.toNat).toNat / 4096
def mapBase (gr : Group) (set : List Nat) (a : BitVec 6) : Nat := ((gr.thread (leadOf set)).pair a.toNat).toNat / 4096 * 4096

/-! ## Engine commands and shares -/

/-- An engine command: its op5, the features it needs, its register fields, the registers that may not be pending and those
that it reads for a thread, and its own checks. -/
structure EngForm where
  op : Nat
  need : List Nat
  fields : List Field
  regs : Group → Nat → List (Nat × Nat)
  reads : Group → Nat → List (Nat × Nat)
  prep : Act → Group → Team → State → CmdRes

/-- A command whose elected thread alone reads its fields. -/
def engOf (op : Nat) (need : List Nat) (fs : List Field) (prep : Act → Group → Team → State → CmdRes) : Option EngForm :=
  some ⟨op, need, fs, fun _ t => inThread t (ownRegs fs), fun _ t => inThread t (ownReads fs), prep⟩

/-- Tables 19.1 and 20.1. The engine commands. -/
def engForm : Instr → Option EngForm
  | .tload f w c r => engOf 0 [] [regF w, regF r, regF c 4] (copyPrep 0 (f.zeroExtend 5) w c r)
  | .tstore f w c r => engOf 1 [] [regF w, regF r, regF c 4] (copyPrep 1 (f.zeroExtend 5) w c r)
  | .tgather f w c r => engOf 2 [] [regF w, regF r, regF c 4] (copyPrep 2 (f.zeroExtend 5) w c r)
  | .tzero f w c r => engOf 3 [] [regF w, regF r, regF c 4] (copyPrep 3 (f.zeroExtend 5) w c r)
  | .tpref w c r => engOf 4 [] [regF w, regF r, regF c 4] (copyPrep 4 0 w c r)
  | .xput f w c r => engOf 5 [11] [regF w, regF r, regF c 4] (copyPrep 5 (f.zeroExtend 5) w c r)
  | .xget f w c r => engOf 6 [11] [regF w, regF r, regF c 4] (copyPrep 6 (f.zeroExtend 5) w c r)
  | .tscat f w c r => engOf 7 [] [regF w, regF r, regF c 4] (copyPrep 7 (f.zeroExtend 5) w c r)
  | .mma f w c r => engOf 8 [] [regF w, regF r 2, regF c 2] (mmaPrep 8 f w c r)
  | .mmar f f2 w c r => some ⟨9, [], mmarFields w c r, mmarRegs w c r, mmarRegs w c r, mmarPrep f f2 w c r⟩
  | .mmas f w c r => engOf 10 [1] [regF w, regF r 2, regF c 2] (mmaPrep 10 f w c r)
  | .smma f w c r => engOf 11 [4] [regF w, regF r 2, regF c 2] (smmaPrep f w c r)
  | .accfree w => engOf 13 [] [regF w] (freePrep w)
  | .accld w c r => engOf 14 [] [regF w, regF r, regF c 4] (xferPrep 14 0 w c r)
  | .accst f w c r => engOf 15 [] [regF w, regF r, regF c 4] (xferPrep 15 f w c r)
  | .bfly f w r => engOf 16 [2] [regF w, regF r] (planPrep 16 f w r)
  | .btwid f w r => engOf 17 [2] [regF w, regF r] (planPrep 17 ((f ++ (0 : BitVec 3)).zeroExtend 5) w r)
  | .brevEng f w r => engOf 18 [2] [regF w, regF r] (planPrep 18 (f.zeroExtend 5) w r)
  | .atrans w => engOf 19 [2] [regF w] (transPrep w)
  | .lubeg w r => engOf 20 [3] [regF w, regF r] (lubegPrep w r)
  | .lustep w r => engOf 21 [3] [regF w, regF r] (lustepPrep w r)
  | .lucand w c r => engOf 22 [3] [regF w, outF r 2, regF c] (lucandPrep w c r)
  | .lucommit w c r => engOf 23 [3] [regF w, regF r 2, regF c] (lucommitPrep w c r)
  | .luend w c r => engOf 24 [3] [regF w, regF r, regF c] (luendPrep w c r)
  | .accrow w c r => engOf 30 [] [regF w, regF r, regF c] (rowPrep w c r)
  | _ => none

/-- An engine command i passes the checks that all commands share (R323): its features, its fields, nothing pending; tm is
its team. -/
structure EngClear (F : EngForm) (i : Instr) (s : State) (g : Nat) (set : List Nat) (gr : Group) (tm : Team) : Prop where
  issuing : Issuing s g set gr
  wf : i.wf = true
  features : ∀ n ∈ F.need, s.feature n = true
  fields : fieldsFault gr.budget F.fields = none
  ready : NonePending gr (F.regs gr (leadOf set))
  team : s.team? (gkeyTeam gr.key) = some tm

/-- The state in which a command enters its queue: PZ raised for what its elected thread reads, or, where the command retires
when it completes, owed until then (R168). -/
def EngForm.acting (F : EngForm) (s : State) (g : Nat) (set : List Nat) (gr : Group) : State :=
  let pz := poisonFlag gr (F.reads gr (leadOf set))
  if F.op = 11 ∨ F.op = 21 ∨ F.op = 22 ∨ F.op = 23 then onThreads (idle s) g [leadOf set] fun _ th => { th with owed := pz }
  else (idle s).raise g (leadOf set) pz

/-- What a command whose record an engine is writing waits for: the record at a scratch address. -/
def recordWait (i : Instr) (gr : Group) (set : List Nat) (x : Nat) : Wait :=
  .owner { load := true, glob := false, addr := x, size := 64, regs := [], data := [], whole := set, retry := some i
           next := nextPc i gr set }

/-- A share lane operation: its op5, width code, table, and registers. -/
structure ShareForm where
  op : Nat
  width : BitVec 2
  table : BitVec 2
  d : BitVec 6
  y : BitVec 6
  x : BitVec 6

/-- Table 22.5. The share lane operations. -/
def shareForm : Instr → Option ShareForm
  | .smul f w c r => some ⟨25, f, 0, w, c, r⟩
  | .strunc f w r => some ⟨26, f, 0, w, 62, r⟩
  | .sltz f w r => some ⟨27, f, 0, w, 62, r⟩
  | .slut t f w r => some ⟨28, f, t, w, 62, r⟩
  | .sopen f w r => some ⟨29, f, 0, w, 62, r⟩
  | _ => none

def ShareForm.fields (F : ShareForm) : List Field := shareFields F.op F.width F.d F.y F.x
def ShareForm.bits (F : ShareForm) : Nat := 16 * 2 ^ F.width.toNat

/-- R370, R374 to R378. What thread t sends in the first round, from its share x, its y and its hamper entry. -/
def ShareForm.first (F : ShareForm) (th : Thread) (e : List Nat) : List Nat :=
  let k := F.bits
  let x := th.share k F.x.toNat
  if F.op = 25 then [ringMod k ((x : Int) - e.getD 0 0), ringMod k ((th.share k F.y.toNat : Int) - e.getD 1 0)]
  else if F.op = 26 then [(x + e.getD 0 0) % 2 ^ k]
  else if F.op = 27 then [(x + ((List.range k).map fun j => e.getD j 0 * 2 ^ j).sum) % 2 ^ k]
  else if F.op = 28 then [(x + (e.mapIdx fun i u => i * u).sum) % 256]
  else [x % 2 ^ k]

/-! ## Checks before an instruction acts (Table 11.20) -/

/-- What an instruction's steps 1 and 2 ask for: features that are accepted, a kind of thread, and legal register fields. -/
structure DecodeForm where
  need : List Nat := []
  runsIn : GKey → Bool := fun _ => true
  fields : List Field

/-- Tables 14.1, 15.1, 19.1, 20.1 and 22.5. The instructions of the families M, S, B and E that name a register: loads, stores, atomics,
branches, waits, mailboxes, context registers, the debug window, engine commands and shares. -/
def decodeForm (i : Instr) : Option DecodeForm :=
  match loadForm i, storeForm i, atomicForm i, branchForm i, engForm i, shareForm i with
  | some F, _, _, _, _, _ => some { fields := F.fields }
  | _, some F, _, _, _, _ => some { fields := F.fields }
  | _, _, some F, _, _, _ => some { fields := F.fields }
  | _, _, _, some F, _, _ => some { fields := F.fields }
  | _, _, _, _, some F, _ => some { need := F.need, fields := F.fields }
  | _, _, _, _, _, some F => some { need := [4], runsIn := fun k => k.kind == .lanes, fields := F.fields }
  | _, _, _, _, _, _ =>
    match i with
    | .exit _ g => some { fields := [regF g] }
    | .brk _ g => some { fields := [regF g] }
    | .elect d => some { fields := [outF d] }
    | .vote _ a d => some { fields := [regF a, outF d] }
    | .flagrd _ d => some { fields := [outF d] }
    | .ident _ d => some { fields := [outF d] }
    | .csrrd _ d => some { fields := [outF d] }
    | .csrwr _ a => some { fields := [regF a] }
    | .qroute a => some { fields := [regF a 2] }
    | .qstat _ d => some { fields := [outF d] }
    | .perfrd _ d => some { fields := [outF d] }
    | .waitw a d => some { fields := [regF a 2, updF d] }
    | .swait a d => some { fields := [regF a, updF d] }
    | .syncset a d => some { fields := [regF a, regF d] }
    | .mbr _ d => some { fields := [outF d] }
    | .mbw _ a => some { fields := [srcF a] }
    | .trap a => some { fields := [regF a] }
    | .mark _ a => some { fields := [regF a] }
    | .accalloc _ w => some { fields := [outF w] }
    | .reggrow _ _ d => some { fields := [outF d] }
    | .regshrink _ d => some { fields := [outF d] }
    | .launch _ a d => some { runsIn := fun k => k.kind != .handler, fields := [regF a 2, outF d] }
    | .tblld _ a => some { runsIn := fun k => k.kind != .handler, fields := [regF a] }
    | .stmap _ a d => some { need := [12], runsIn := fun k => k.kind != .handler, fields := [regF a 2, regF d] }
    | .stflush a => some { need := [12], runsIn := fun k => k.kind != .handler, fields := [regF a] }
    | .dwsel a d => some { runsIn := fun k => k.kind == .handler, fields := [regF a, outF d] }
    | .dwrd a d => some { runsIn := fun k => k.kind == .handler, fields := [regF a, outF d] }
    | .dwwr a d => some { runsIn := fun k => k.kind == .handler, fields := [regF a, regF d] }
    | .dwres _ a => some { runsIn := fun k => k.kind == .handler, fields := [regF a] }
    | _ => none

/-- A guarded instruction: the sense and register of its guard, its fields, and what the access of a thread meets first. -/
structure GuardForm where
  n : BitVec 1
  guard : BitVec 6
  fields : List Field
  access : State → Group → Nat → Chk := fun _ _ _ => .ok (.scr 0)

/-- Stores, atomics and branches. -/
def guardForm (i : Instr) : Option GuardForm :=
  match storeForm i, atomicForm i, branchForm i with
  | some F, _, _ => some ⟨F.n, F.guard, F.fields, fun s gr t => s.lowCheck gr.key true (F.target gr t)⟩
  | _, some F, _ => some ⟨F.n, F.guard, F.fields, fun s gr t => s.lowCheck gr.key true (F.target gr t)⟩
  | _, _, some F => some { n := F.n, guard := F.guard, fields := F.fields }
  | _, _, _ => none

/-- R217. The registers in which a system, engine or share instruction may meet a pending one, thread by thread, and whether only
its lowest thread reads them. -/
def pendForm (i : Instr) : Option ((Group → Nat → List (Nat × Nat)) × Bool) :=
  match sysForm i, engForm i, shareForm i with
  | some F, _, _ => some (fun _ t => inThread t (ownRegs F.fields), false)
  | _, some F, _ => some (F.regs, true)
  | _, _, some F => some (fun _ t => inThread t (ownRegs F.fields), false)
  | _, _, _ =>
    match i with
    | .csrwr _ a => some (fun _ t => inThread t (ownRegs [regF a]), false)
    | .mbr _ d => some (fun _ t => inThread t (ownRegs [outF d]), false)
    | .mark _ a => some (fun _ t => inThread t (ownRegs [regF a]), true)
    | .accalloc _ w => some (fun _ t => inThread t (ownRegs [outF w]), true)
    | .trap a => some (fun _ t => inThread t (ownRegs [regF a]), true)
    | _ => none

/-! ## The host -/

/-- R65, R66. A partition's virtual function serves a request of a stream: it is not FREE or in ERROR, and in RUN the stream is
its own. -/
structure Serves (s : State) (part stream : Nat) : Prop where
  ready : s.boot.status = .ready
  given : (s.part part).state ≠ .free
  vf : (s.part part).vf ≠ .error
  own : (s.part part).vf = .run → (s.part part).stream = stream

/-- R67, R73. A window write reaches a context: its partition serves it and is in no reset, and the context is ACTIVE there. -/
structure Writable (s : State) (part ctx stream : Nat) : Prop where
  serves : Serves s part stream
  settled : (s.part part).state ≠ .resetting
  active : (s.ctx ctx).state = .active
  there : (s.ctx ctx).part = part

/-- R67. A discarded write counted in PART_BADSUB, which saturates. -/
def badSubmit (s : State) (part : Nat) : State :=
  s.modPart part fun p => { p with badSub := if p.badSub = 0xFFFFFFFF then p.badSub else p.badSub + 1 }

/-- No stile session that is open or pending names a context of this device. -/
def NoSession (s : State) (c : Nat) : Prop :=
  ∀ x ∈ s.sessions, x.closed = false → ∀ p ∈ x.parties, p.dev = s.boot.devId → p.ctx ≠ c

/-- What remains of a context that becomes TERMINATED: no session, no basket; and a final statement. -/
structure Ended (s' : State) (c : Nat) : Prop where
  state : (s'.ctx c).state = .terminated
  session : (s'.ctx c).session = none
  final : (s'.ctx c).final.isSome = true
  groups : ∀ g ∈ s'.groups, g.key.ctx ≠ c
  nodes : ∀ n ∈ s'.nodes, n.ctx ≠ c
end Sys2Proof.Safety
end

