-- ==== Sys2Proof/Certificates/Slice0/Obligations.lean ====
section
/-! DEFINITION. The statements for the provers, from the numbered rules of spec/. Vocabulary in Sys2Proof.Safety. -/

section

open Sys2Proof Sys2Proof.Machine Sys2Proof.Safety

/-! ## Encoding -/

/-- Tables 11.1, 12.1, 13.1, 14.1, 15.1, 16, 19.1 and 20.1. Words that the spec writes out decode to their instructions. R203. The halfword 0x0000 and a truncated instruction are none; an even first halfword is a 16-bit instruction. -/
def Obligations.WordsDecode : Prop :=
  (decode (natBytes 4 0x80810C11) = .ok (.addA 2 0 2 1 3, []) ∧
  decode (natBytes 4 0x04021403) = .ok (.movX 1 0 2 5, []) ∧
  decode (natBytes 4 0xFF461815) = .ok (.addI 0x3FD 6 6, []) ∧
  decode (natBytes 4 0x29220ED7) = .ok (.stgW 2 1 9 4 7, []) ∧
  decode (natBytes 4 0xFFFF3F09) = .ok (.bra 0x3FFFC 1 62, []) ∧
  decode (natBytes 4 0x1234200F) = .ok (.movi 0x1234 8, []) ∧
  decode (natBytes 4 0x033E295D) = .ok (.csrrd 12 10, []) ∧
  decode (natBytes 4 0x40C22221) = .ok (.fmaA 1 0 3 2 8, []) ∧
  decode (natBytes 4 0x00420647) = .ok (.ldgW 2 4 3, []) ∧
  decode (natBytes 4 0x0FC20DB7) = .ok (.acas 0 1 62 4 6, []) ∧
  decode (natBytes 4 0x0C7EF82D) = .ok (.bart 0x31, []) ∧
  decode (natBytes 4 0x0864040B) = .ok (.tload 1 3 8 2, []) ∧
  decode (natBytes 4 0x0A83088B) = .ok (.mma 1 20 6 4, []) ∧
  decode (natBytes 4 0x0282916B) = .ok (.lucand 20 5 8, [])) ∧
  (∀ rest, decode ((0 : Byte) :: 0 :: rest) = .error .zeroHalfword) ∧
  (∀ b0 b1 i rest, b0.getLsbD 0 = false → decode [b0, b1] = .ok (i, rest) → instrLen i = 2 ∧ rest = []) ∧
  (∀ b0 b1 b2, b0.getLsbD 0 = true → decode [b0, b1, b2] = .error .truncated) ∧
  ∀ b0 b1 b2 b3 i rest, b0.getLsbD 0 = true → decode [b0, b1, b2, b3] = .ok (i, rest) → instrLen i = 4 ∧ rest = []

/-- R203 to R207, R220, R224 to R228. A well-formed instruction that has a word decodes from its word to itself, whatever
bytes follow. -/
def Obligations.DecodeEncode : Prop :=
  ∀ i : Instr, i.encoded = true → i.wf = true → ∀ rest, decode (encode i ++ rest) = .ok (i, rest)

/-! ## The step -/

/-- R113 to R115, R203. A step runs the instruction that the bytes at a member's PC decode to, on the member's issue set: the next
member of a pick, back to back, else the first of the pick that the step makes. R202. Where a breakpoint stops a thread of the set,
the set traps BREAK instead, at the lowest such thread; R204. where a byte of the instruction lies outside the code window, or past
its last PC, PERM; R203. where the bytes are no instruction, ILLEGAL_OP with them; R180. where the page is not there, its fetch waits
for it. R111. Where an instruction whose wait has ended retires, a step runs that, before any issue or event, and log entry 8
(DEDUCED) is that it does so at once; R115. an event it takes where the script or the free choice gives one, and log entry 1 (DESIGN
CHOICE) is that these pick the issue or the event. Then follows what follows every step. R17. Before boot ROM has begun, a step is
the device reset that begins it (log entry 40, DESIGN CHOICE). -/
def Obligations.StepRunsDecoded : Prop :=
  let finish := fun (o : Host.Outcome State Fault Refusal) => match o with
    | .next t => Host.Outcome.next t.after
    | .fault r => .fault r
    | .refused r => .refused r
  (∀ (s s0 : State) (m : Member) (g : Nat) (gr : Group), Begins s s0 m g gr →
    let pc := pcOf gr m.set
    let counted := s0.modGroup g (Group.count s0.cycle m.picked m.set)
    let trapped := fun (code : BitVec 8) (d : Nat) =>
      Host.Outcome.next ((counted.takeTrap g m.set (m.set.headD 0) code (BitVec.ofNat 32 d)).after)
    (s0.breakAt gr pc m.set = none →
      (∀ (bs : List Byte) (i : Instr), pc.getLsbD 0 = false → m.upset = none →
        s0.fetchBytes gr.key.ctx pc.toNat bs.length = .ok bs → decode bs = .ok (i, []) →
        step s = finish (exec i { counted.modGroup g (Group.noteRun s0.cycle m.set i) with
          cur := some ⟨g, m.set, gr.lowered.filter fun t => m.set.contains t⟩ })) ∧
      (pc.getLsbD 0 = true → step s = trapped tPerm (shownPc pc).toNat) ∧
      (∀ (n : Nat) (bs : List Byte), pc.getLsbD 0 = false → n < 4 → (2 ≤ n → (bs.headD 0).getLsbD 0 = true) →
        s0.fetchBytes gr.key.ctx pc.toNat n = .ok bs → (s0.ctx gr.key.ctx).codeSize ≤ pc.toNat + n →
        step s = trapped tPerm (pc.toNat + n)) ∧
      (∀ bs : List Byte, pc.getLsbD 0 = false → bs.length = (if (bs.headD 0).getLsbD 0 then 4 else 2) →
        s0.fetchBytes gr.key.ctx pc.toNat bs.length = .ok bs → (∀ r, decode bs ≠ .ok r) →
        step s = trapped tIllegalOp (bytesNat bs)) ∧
      ∀ v, s0.fetchAt gr.key.ctx pc = .page v →
        step s = .next (s0.modGroup g fun x => { x with fetch := some (.page v m.set (m.set.headD 0)) }).after) ∧
    ∀ t ∈ m.set, m.set.Pairwise (· < ·) →
      (∀ u ∈ m.set, u < t → ∀ b ∈ (s0.ctx gr.key.ctx).breakpoints, b.stops gr pc u = false) →
      (∃ b ∈ (s0.ctx gr.key.ctx).breakpoints, b.stops gr pc t = true) →
      ∃ b ∈ (s0.ctx gr.key.ctx).breakpoints, b.stops gr pc t = true ∧
        step s = .next ((onThreads s0 g m.set fun _ th => { th with skip := th.skip ++ [b] }).takeTrap g m.set t tBreak 1).after) ∧
  (∀ (s s1 : State) (x : Nat × Group × Nat) (i : Instr), s.boot.status ≠ .off → s.merging = [] →
    leastBy? wakeOrder s.dueThreads = some x → s.dueInstr x.2.1 x.2.2 = some i → s.retireDue x i = .run i s1 →
    step s = finish (exec i s1)) ∧
  (∀ (s : State) (i : Instr), s.boot.status ≠ .off → s.merging = [] → s.dueThreads = [] →
    s.script.headD (Config.choose s.tick) = .event i → (encodeWord i).2 = 0 →
    step s = finish (exec i { s with script := s.script.drop 1 })) ∧
  ∀ s : State, s.boot.status = .off → step s = .next (s.restart s.fuses false).after

/-- R113, R115, R116. The members of a half's issue: groups of the half that are READY under no resource hold, each with the issue
set of its next issue. The picked one issued the longest ago, then has the lowest window base, then the lowest slot. Beside it
stand only groups of its context and node at its PC, in windows without a common lane, and every group that could merge but for
those. They issue in ascending order of their lowest L. -/
def Obligations.GroupsPicked : Prop :=
  ∀ (s : State) (core half : Nat) (held : List Nat) (upsets : List (Nat × Upset)),
    let ready := fun (p : Group × Nat) =>
      p ∈ s.groups.zipIdx ∧ p.1.core = core ∧ p.1.half = half ∧ s.canIssue p.1 = true ∧ s.heldAt held p = false
    let ms := s.members core half held upsets
    ((∀ p, ¬ ready p) → ms = []) ∧
    ((∃ p, ready p) → ∃ (first : Group × Nat) (all : List (Group × Nat)), first ∈ all ∧
      ms = all.map (fun p => ⟨p.1.key, p.1.issueSet, p.2 == first.2, (upsets.find? fun u => u.1 == p.2).map Prod.snd⟩) ∧
      (∀ p ∈ all, ready p) ∧ (∀ p, ready p → pickKey first ≤ pickKey p) ∧
      (all.map fun p => p.1.issueL).Pairwise (· ≤ ·) ∧
      (∀ p ∈ all, p.1.issuePc = first.1.issuePc ∧ p.1.key.ctx = first.1.key.ctx ∧ p.1.key.node = first.1.key.node) ∧
      (∀ p ∈ all, ∀ q ∈ all, p ≠ q → disjoint (p.1.base, p.1.w) (q.1.base, q.1.w) = true) ∧
      ∀ p, ready p → p ∉ all → mergesWith first.1 all p.1 = false ∨
        closedSlot first.1 (match first.1.issuePc with
          | some pc => s.fetchAt first.1.key.ctx pc
          | none => .bad 0) = true)

/-! ## Reset -/

/-- R17, R49, R60, R66, R71, R72, R74, R75, Tables 3.6, 4.3, 8.1, 9.5, 9.6, 10.2, 10.5 and 11.19. What reset leaves: no group, team
or node, device identity 0xFFFF (R60), every partition, context, queue and link port in its first state, and every context
register at its reset value. That memory reads as zero before boot stage 2 wipes it is the model's choice, log entry 18 (DEDUCED). -/
def Obligations.ResetLeaves : Prop :=
  let s := State.reset
  s.time = 0 ∧ s.boot.status = .off ∧ s.boot.devId = 0xFFFF ∧ s.accepted = none ∧ s.featAck = [0, 0, 0, 0] ∧
  s.groups = [] ∧ s.teams = [] ∧ s.nodes = [] ∧ s.sessions = [] ∧ s.net = [] ∧ (∀ a, cellsGet s.mem a = 0) ∧
  s.cores.length = 256 ∧ s.ports.length = 24 ∧ s.parts.length = 16 ∧ s.ctxs.length = 64 ∧
  (∀ c ∈ s.ctxs, c.state = .free ∧ c.queues.length = 32 ∧ c.round.val = 0 ∧ c.flags = 0 ∧ c.whistle.val = 0x01000000 ∧
    c.trapVec.val = 0 ∧ c.lease.val = 16 ∧ c.qwin = 1024 ∧ c.session = none ∧
    ∀ q ∈ c.queues, q.en = false ∧ q.src = false ∧ q.logSize = 0 ∧ q.tickets = 1) ∧
  (∀ p ∈ s.parts, p.state = .free ∧ p.vf = .unlocked ∧ p.badSub = 0) ∧
  (∀ p ∈ s.ports, p.up = false ∧ p.keyLim = 0x1000000000 ∧ ∀ k ∈ p.tx ++ p.rx, k.state = .empty ∧ k.counter = 0) ∧
  ∀ x ∈ s.cores, x.queue = [] ∧ x.trapQueue = [] ∧ x.banks = [none, none]

/-- The invariant of the model holds after reset. -/
def Obligations.ResetInvariant : Prop := Inv State.reset

/-! ## Lane operations

Each of these statements says, for every form of its instructions and every state in which the issue is clear of traps and
ports, the whole next state: the result in each thread, PZ and the flags of the operation, last-use marks, metering and the
PC; and that nothing else changes, but for the cycle that the lookup table of a TBL notes (R272). -/

/-- R207, R219, R228, R237, R238, R241 to R243. Integer operations d, a, b, their 16-bit and immediate forms, and the operations whose
operand is a permutation of a register across the group. -/
def Obligations.IntegerOps : Prop :=
  ∀ (i : Instr) (op : LaneOp) (s : State) (g : Nat) (set : List Nat) (gr : Group),
    (intAForm i = some op ∨ int16Form i = some op ∨ intIForm i = some op ∨ crossForm i = some op) →
    Issuing s g set gr → i.wf = true → Clear op s gr set → exec i s = .next (noted i (idle s) g gr set (retiredLane op i s g gr set))

/-- R245 to R254. Floating-point and packed operations, and rounding shifts. -/
def Obligations.FloatOps : Prop :=
  ∀ (i : Instr) (op : LaneOp) (s : State) (g : Nat) (set : List Nat) (gr : Group),
    (fpForm i = some op ∨ packedForm i = some op) →
    Issuing s g set gr → i.wf = true → Clear op s gr set → exec i s = .next (noted i (idle s) g gr set (retiredLane op i s g gr set))

/-- R239, R240, R255 to R270. Conversions, special functions, 64-bit operations, RAND, TBL and the rest that works thread by
thread, and the operations that combine the values of the whole issue set. -/
def Obligations.SpecialOps : Prop :=
  ∀ (i : Instr) (op : LaneOp) (s : State) (g : Nat) (set : List Nat) (gr : Group),
    (specialForm i = some op ∨ groupForm i = some op) →
    Issuing s g set gr → i.wf = true → Clear op s gr set → exec i s = .next (noted i (idle s) g gr set (retiredLane op i s g gr set))

/-- R244. SELT and SELF write a to d in the threads whose condition holds, poison their marks in every thread, and set PZ in
the threads that select; every thread goes on, and the selecting ones are metered. R210. Where a is qr, a selecting thread whose queue
is empty waits, and the others take a word each. -/
def Obligations.SelectWrites : Prop :=
  ∀ (i : Instr) (onTrue : Bool) (y x : BitVec 2) (b a d : BitVec 6) (s : State) (g : Nat) (set : List Nat) (gr : Group),
    (if onTrue = true then i = .selt y x b a d else i = .self y x b a d) → Issuing s g set gr → i.wf = true →
    Selects onTrue b a d gr set →
    let wait := if a = 61 then starved gr (chosen onTrue b gr set) else []
    let who := others (chosen onTrue b gr set) wait
    let res := (others set wait).map fun t => (t, if t ∈ who then selectRes b a d gr t else {})
    let s0 := if a = 61 then tookWords (onThreads (idle s) g wait fun _ th => th.block (.qr i)) g gr who else idle s
    let s1 := (retired s0 g gr (marked x a ++ marked y b) (nextPc i gr set) 12 0 res).meter gr.key 12 who.length
    exec i s = .next (if a = 61 then s1.settle else s1)

/-- R208, R210, R305. A lane operation, with or without its ports: where an operand is qr, the threads of the issue set whose queue is
empty wait, and the others take a word each and give the senders their window places back; R210, R303, R304. where the destination is
qs, each thread's result leaves along its route if the window toward the destination team has room, else the thread waits with it, in
ascending order. R263. REDG and SCANG with qr wait whole while one thread's queue is empty. That a thread so waits, with its result or
its instruction, is log entry 8 (DEDUCED). -/
def Obligations.QueuePorts : Prop :=
  ∀ (i : Instr) (op : LaneOp) (s : State) (g : Nat) (set : List Nat) (gr : Group), laneForm i = some op → Issuing s g set gr →
    i.wf = true → LaneReady op s gr → (∀ t ∈ set, op.threadCheck gr t = .ok (.scr 0)) →
    let next := nextPc i gr set
    let ends := fun (s0 : State) (run : List Nat) => (run.zip (op.results (idle s) gr run)).foldl (laneEnds op g gr next) s0
    (op.takesQr = false → exec i s = .next (noted i (idle s) g gr set (ends (idle s) set))) ∧
    (op.takesQr = true → op.combine = none →
      exec i s = .next (noted i (idle s) g gr set (ends (fedThreads i (idle s) g gr set) (fed gr set)).settle)) ∧
    ∀ scan code d, op.takesQr = true → op.combine = some (scan, code, d) →
      exec i s = .next (if starved gr set = [] then (ends (tookWords (idle s) g gr set) set).settle
        else (onThreads (idle s) g set fun _ th => th.block (.qrAll scan code d set)).settle)

/-- Table 11.20, R71, R209, R217. The traps of a lane operation, in their order: ILLEGAL_OP with its word where a feature
is not accepted or a handler may not run it, ILLEGAL_REG with its detail where a field is bad, UNWAITED with the register
where the lowest thread meets one that is pending. R304. A write of qs in a thread without a route is ILLEGAL_REG with detail 60, and
with one, a pending register is UNWAITED as before. Which of several bad fields or pending registers the detail names is log entry 7
(DEDUCED). R232, Table 11.20. A word with a reserved field that is not zero traps ILLEGAL_OP with that word, for every instruction that has
one, and so does one whose feature is not accepted or whose kind of thread may not run it; R209. then a bad register field is
ILLEGAL_REG; R217, R218. then, in the lowest thread that meets one, a pending register is UNWAITED: of a load the base and the
destination; of a guarded instruction the guard, which stops the whole issue set, and where no guard is pending and a thread's holds,
its other registers, which stop the threads whose guard holds; of a system, engine or share instruction its registers. Log
entry 25 (DEDUCED) is which threads the trap of a guarded instruction stops. -/
def Obligations.LaneTraps : Prop :=
  (∀ (i : Instr) (op : LaneOp) (s : State) (g : Nat) (set : List Nat) (gr : Group), laneForm i = some op → Issuing s g set gr →
    i.wf = true →
    let featured := (∀ n ∈ op.need, s.feature n = true) ∧ (op.noHandler = true → gr.key.kind ≠ .handler)
    (¬ featured → exec i s = .next ((idle s).takeTrap g set (leadOf set) 0x01 (BitVec.ofNat 32 (encodeWord i).1))) ∧
    (∀ r, featured → fieldsFault gr.budget op.fields = some r → exec i s = .next ((idle s).takeTrap g set (leadOf set) 0x02 r)) ∧
    (∀ t n, featured → fieldsFault gr.budget op.fields = none → op.sends = false →
      firstPending gr (op.regs gr) set = some (t, n) → exec i s = .next ((idle s).takeTrap g set t 0x03 (BitVec.ofNat 32 n))) ∧
    ∀ t before after, featured → fieldsFault gr.budget op.fields = none → op.sends = true → set = before ++ t :: after →
      (∀ u ∈ before, (gr.thread u).route ≠ none ∧ NonePending gr (op.regs gr u)) →
      ((gr.thread t).route = none → exec i s = .next ((idle s).takeTrap g set t 0x02 60)) ∧
      ∀ n, (gr.thread t).route ≠ none → pendingIn gr (op.regs gr t) = some n →
        exec i s = .next ((idle s).takeTrap g set t 0x03 (BitVec.ofNat 32 n))) ∧
  (∀ (i : Instr) (s : State) (g : Nat) (set : List Nat) (gr : Group), i.encoded = true → i.wf = false → Issuing s g set gr →
    exec i s = .next ((idle s).takeTrap g set (leadOf set) 0x01 (BitVec.ofNat 32 (encodeWord i).1))) ∧
  (∀ (i : Instr) (F : DecodeForm) (s : State) (g : Nat) (set : List Nat) (gr : Group), decodeForm i = some F → Issuing s g set gr →
    i.wf = true →
    let runs := (∀ n ∈ F.need, s.feature n = true) ∧ F.runsIn gr.key = true
    (¬ runs → exec i s = .next ((idle s).takeTrap g set (leadOf set) 0x01 (BitVec.ofNat 32 (encodeWord i).1))) ∧
    ∀ r, runs → fieldsFault gr.budget F.fields = some r → exec i s = .next ((idle s).takeTrap g set (leadOf set) 0x02 r)) ∧
  (∀ (i : Instr) (F : LoadForm) (s : State) (g : Nat) (set : List Nat) (gr : Group) (t n : Nat) (before after : List Nat),
    loadForm i = some F → Issuing s g set gr → i.wf = true → fieldsFault gr.budget F.fields = none → set = before ++ t :: after →
    (∀ u ∈ before, NonePending gr (inThread u (ownRegs F.fields)) ∧ ∃ l, s.lowCheck gr.key false (F.target gr u) = .ok l) →
    pendingIn gr (inThread t (ownRegs F.fields)) = some n →
    exec i s = .next ((idle s).takeTrap g set t 0x03 (BitVec.ofNat 32 n))) ∧
  (∀ (i : Instr) (F : GuardForm) (s : State) (g : Nat) (set : List Nat) (gr : Group) (t n : Nat) (before after : List Nat),
    guardForm i = some F → Issuing s g set gr → i.wf = true → fieldsFault gr.budget F.fields = none → set = before ++ t :: after →
    let who := guarded gr F.n F.guard set
    (∀ u ∈ before, NonePending gr (inThread u (regSpan F.guard.toNat 1)) ∧
      (u ∈ who → NonePending gr (inThread u (ownRegs F.fields)) ∧ ∃ l, F.access s gr u = .ok l)) →
    (pendingIn gr (inThread t (regSpan F.guard.toNat 1)) = some n →
      exec i s = .next ((idle s).takeTrap g set t 0x03 (BitVec.ofNat 32 n))) ∧
    ((∀ u ∈ set, (gr.thread u).isPend F.guard.toNat = false) → t ∈ who → pendingIn gr (inThread t (ownRegs F.fields)) = some n →
      exec i s = .next ((idle s).takeTrap g who t 0x03 (BitVec.ofNat 32 n)))) ∧
  ∀ (i : Instr) (D : DecodeForm) (regs : Group → Nat → List (Nat × Nat)) (one : Bool) (s : State) (g : Nat) (set : List Nat) (gr : Group)
    (t n : Nat), pendForm i = some (regs, one) → decodeForm i = some D → Issuing s g set gr → i.wf = true →
    (∀ n ∈ D.need, s.feature n = true) → D.runsIn gr.key = true → fieldsFault gr.budget D.fields = none →
    firstPending gr (regs gr) (if one then [leadOf set] else set) = some (t, n) →
    exec i s = .next ((idle s).takeTrap g set t 0x03 (BitVec.ofNat 32 n))

/-- R208, R209. What a register field finds: 63 and a port in the wrong place are ILLEGAL_REG with the number, vz never
faults, and a register from the budget up, an odd pair and a span beyond the budget are ILLEGAL_REG. R208, R213. Reading and writing a register: a write is read back and ends the poison, another register keeps its value,
vz reads 0 and discards, and a last use leaves 0x7FC0DEAD. -/
def Obligations.Registers : Prop :=
  (∀ (b : Nat) (f : Field), b ≤ 60 → 0 < f.size →
    (f.num = 63 → f.fault b = some 63) ∧ (f.num = 62 → f.fault b = none) ∧
    (f.num = 61 → f.fault b = if f.qr = true ∧ f.size = 1 then none else some 61) ∧
    (f.num = 60 → f.fault b = if f.qs = true ∧ f.size = 1 then none else some 60) ∧
    (f.num < 60 → b ≤ f.num → f.fault b = some (BitVec.ofNat 32 f.num)) ∧
    (f.num < b → f.num % f.size ≠ 0 → f.fault b = some (BitVec.ofNat 32 f.num)) ∧
    (f.num < b → f.num % f.size = 0 → b < f.num + f.size → f.fault b = some (BitVec.ofNat 32 b)) ∧
    (f.num % f.size = 0 → f.num + f.size ≤ b → f.fault b = none)) ∧
  ∀ (th : Thread) (n m : Nat) (v : Word), th.regs.length = 60 → th.pois.length = 60 →
    (n < 60 → (th.setReg n v).reg n = v ∧ (th.setReg n v).isPoison n = false) ∧
    (m ≠ n → (th.setReg n v).reg m = th.reg m) ∧
    th.reg 62 = 0 ∧ th.setReg 62 v = th ∧
    (n < 60 → (th.poison n).reg n = 0x7FC0DEAD ∧ (th.poison n).isPoison n = true)


/-! ## Loads, stores, atomics -/

/-- R275, R278, R216. A load whose checks pass and that the owner states let perform: each thread's destination is pending
with the bytes of its target on their way, extended as the form says; no byte of memory or scratch changes. That these bytes are those
of the issue is log entry 22 (DEDUCED): R134 lets them be taken until the data arrives. -/
def Obligations.LoadsLoad : Prop :=
  ∀ (i : Instr) (F : LoadForm) (s : State) (g : Nat) (set : List Nat) (gr : Group),
    loadForm i = some F → Issuing s g set gr → i.wf = true → Usable F.fields gr set →
    (∀ t ∈ set, Reaches s gr.key false (F.target gr t)) →
    (∀ t ∈ set, s.mayPerform gr.key false (s.places gr.key (F.target gr t) false) = true) →
    let places := fun t => s.places gr.key (F.target gr t) false
    exec i s = .next (onThreads ((poisoned (idle s) g gr set F.fields).touchPlaces (gkeyTeam gr.key) (set.map places).flatten) g set
      fun t th => F.issued (s.readPlaces (gkeyTeam gr.key) (places t)) s.cycle (nextPc i gr set) th)

/-- R275, R279, R120. A store whose checks pass and that the owner states let perform completes: its threads go on, those
with a true guard count a store, and of memory and scratch only the bytes of their targets change, apart from the STATUS
words of nodes that the store seals; what a lane has written stands against lower threads that still wait in the same store (R279).
R210. Of a store of qr, the threads whose queue is empty wait, and the others take a word each, give the window places back, and store.
That the bytes of the lanes are written at the issue is log entry 21 (DESIGN CHOICE). -/
def Obligations.StoresStore : Prop :=
  ∀ (i : Instr) (F : StoreForm) (s : State) (g : Nat) (set : List Nat) (gr : Group),
    storeForm i = some F → Issuing s g set gr → i.wf = true → GuardUsable F.fields F.n F.guard gr set →
    (∀ t ∈ F.who gr set, Reaches s gr.key true (F.target gr t)) →
    let places := fun t => s.places gr.key (F.target gr t) true
    let wait := if F.d = 61 then starved gr (F.who gr set) else []
    let run := others (F.who gr set) wait
    (∀ t ∈ run, s.mayPerform gr.key true (places t) = true) →
    let block := fun (_ : Nat) (th : Thread) => th.block (.qr i)
    let waiting := onThreads (poisoned (idle s) g gr run F.fields) g wait block
    let base := if F.d = 61 then tookWords waiting g gr run else waiting
    ∃ s', exec i s = .next (if F.d = 61 then s'.settle else s') ∧
      OnlyStores (gkeyTeam gr.key) (run.map places).flatten
        (storedThreads base g (onGroup wait block gr) places (others set wait) run (nextPc i gr set)) s'

/-- R275, R279. The bytes that the store of one thread leaves at its target are those of its data register, but for those that a
higher lane of the same store has written while it waited, where no stile session is open, and the target shares no byte with itself
or a STATUS word. -/
def Obligations.StoredValue : Prop :=
  ∀ (i : Instr) (F : StoreForm) (s : State) (g : Nat) (set : List Nat) (gr : Group) (t : Nat),
    storeForm i = some F → Issuing s g set gr → i.wf = true → GuardUsable F.fields F.n F.guard gr set → F.d ≠ 61 →
    F.who gr set = [t] → Reaches s gr.key true (F.target gr t) →
    let places := s.places gr.key (F.target gr t) true
    s.mayPerform gr.key true places = true → s.memWf = true → (∀ x ∈ s.sessions, x.opened = false) → places.Pairwise Apart →
    (∀ x ∈ places, ApartStatus s x) →
    ∃ s', exec i s = .next s' ∧
      ((gr.thread t).higher = [] → s'.readPlaces (gkeyTeam gr.key) places = F.bytes gr t) ∧
      s'.readPlaces (gkeyTeam gr.key) places = s.yieldAll (gkeyTeam gr.key) (gr.thread t).higher places (F.bytes gr t)

/-- R280, R281, R282, R120, Table 14.2. An atomic: its lanes act in ascending L, each with a true guard one access that takes the bytes it
finds as its old value, on its way to d, stores what the form makes of them, and raises the flags of AFADD; so a lane's old value is
what the lanes before it have left. Only the bytes of their targets change, apart from the STATUS words of nodes that it seals. R216.
The destination is pending in the other threads too, without an access of their own (log entry 25, DEDUCED), and in none where no
guard holds. That the lanes act and take their values at the issue is log entries 21 (DESIGN CHOICE) and 22 (DEDUCED). -/
def Obligations.AtomicsComplete : Prop :=
  ∀ (i : Instr) (F : AtomicForm) (s : State) (g : Nat) (set : List Nat) (gr : Group),
    atomicForm i = some F → Issuing s g set gr → i.wf = true → GuardUsable F.fields F.n F.guard gr set →
    (∀ t ∈ F.who gr set, Reaches s gr.key true (F.target gr t)) →
    (∀ t ∈ F.who gr set, s.mayPerform gr.key true (s.places gr.key (F.target gr t) true) = true) →
    let who := F.who gr set
    let next := nextPc i gr set
    let places := fun t => s.places gr.key (F.target gr t) true
    let s1 := onThreads (poisoned (idle s) g gr who F.fields) g (others set who) fun _ th => F.pass who next th
    let s' := who.foldl (F.lane g gr places s.cycle next) s1
    exec i s = .next s' ∧
    (s.memWf = true →
      (∀ a, OutsideMem (who.map places).flatten a → OutsideStatus s a → cellsGet s'.mem a = cellsGet s.mem a) ∧
      ∀ k' a, (k' = gkeyTeam gr.key → OutsideScratch (who.map places).flatten a) → cellsGet (s'.scratch k') a = cellsGet (s.scratch k') a)

/-- R145, R283. DRED in a lane group of a deterministic node adds one basket entry for each thread with a true guard, in
ascending L; an entry that finds the 2,048 places of its core's basket taken goes to the lowest free place of the context's
reduction log (log entry 95), and no other byte of memory changes. -/
def Obligations.DredAppends : Prop :=
  ∀ (s : State) (g : Nat) (set : List Nat) (gr : Group) (kind : BitVec 4) (n : BitVec 1) (gd a d : BitVec 6) (node : Node),
    RunsIf (.dred kind n gd a d) (dredFields kind gd a d) n gd s g set gr → gr.key.kind = .lanes → s.feature 9 = true →
    s.node? gr.key.ctx gr.key.node = some node → node.rec'.det = true →
    let who := guarded gr n gd set
    let act := theAct (.dred kind n gd a d) g set gr
    let entry := fun (s : State) (t : Nat) => s.addEntry act gr kind.toNat (dredSize kind) ((gr.thread t).pair a.toNat).toNat d.toNat t
    (∀ t ∈ who, ∃ l, s.dredCheck gr node (dredSize kind) ((gr.thread t).pair a.toNat).toNat = .ok l) →
    s.firstFull gr node 0 who = none →
    exec (.dred kind n gd a d) s = .next (onThreads (who.foldl entry (poisoned (idle s) g gr who (dredFields kind gd a d))) g set
      fun _ th => th.goOn (nextPc (.dred kind n gd a d) gr set)) ∧
    ∀ (s1 : State) (t : Nat),
      let seq := ((s1.node? gr.key.ctx gr.key.node).map fun n => n.dredSeq (gr.l t)).getD 0
      let e := dredEntry gr kind a d t seq (if s1.inBasket gr.core < 2048 then none else (s1.ctx gr.key.ctx).logFree)
      entry s1 t = onThreads ((((s1.logWrite gr.key.ctx e).modCtx gr.key.ctx fun c => { c with basket := c.basket ++ [e] }).modNode gr.key.ctx gr.key.node
        fun n => { n with dredSeqs := bumpSeq (gr.l t) n.dredSeqs })) g [t] fun _ th => { th with stores := th.stores + 1 }

/-- R286 to R288. STMAP that its checks let pass waits for its blocks, and maps them at once where they are in state T, no
command names them and no other thread waits; STFLUSH waits for the write-back of the window that holds its address, and
goes on where none does. A poisoned register that they read raises PZ when they retire (R168). R287 and R288 block a thread; that the
threads of the issue set wait and go on together is log entry 28 (DEDUCED). -/
def Obligations.StashWindows : Prop :=
  (∀ (s : State) (g : Nat) (set : List Nat) (gr : Group) (im : BitVec 10) (a d : BitVec 6) (t : Team),
    RunsOnce (.stmap im a d) [regF a 2, regF d] s g set gr → s.feature 12 = true → gr.key.kind ≠ .handler →
    s.team? (gkeyTeam gr.key) = some t →
    let first := mapFirst gr set d
    let base := mapBase gr set a
    let count := im.toNat + 1
    let fs := [regF a 2, regF d]
    stmapBad t first count = none → canonical base = true → canonical ((base + count * 4096 - 1) % 2 ^ 64) = true →
    s.rangeRegistered gr.key.ctx base (count * 4096) = false →
    exec (.stmap im a d) s = .next
      (owing (onThreads (idle s) g set fun _ th => th.block (.stmap first count base)) g gr [leadOf set] fs).settle ∧
    (NoneWait s → s.active gr = true → s.blocksFree (gkeyTeam gr.key) first count = true →
      (∀ t ∈ set, t < gr.threads.length ∧ (gr.thread t).pc = pcOf gr set ∧ (gr.thread t).issued = (gr.thread (leadOf set)).issued) →
      exec (.stmap im a d) s = .next
        (onThreads ((poisoned (idle s) g gr [leadOf set] fs).modTeam (gkeyTeam gr.key) (mapWindow first count base)) g set
          fun _ th => th.goOn (pcAfter th.pc 4)))) ∧
  ∀ (s : State) (g : Nat) (set : List Nat) (gr : Group) (a : BitVec 6),
    RunsOnce (.stflush a) [regF a] s g set gr → s.feature 12 = true → gr.key.kind ≠ .handler →
    let x := ((gr.thread (leadOf set)).reg a.toNat).toNat
    exec (.stflush a) s = .next (match (s.team? (gkeyTeam gr.key)).bind fun t => t.window? x with
      | some w => owing (onThreads (idle s) g set fun _ th => th.block (.stflush w.first)) g gr [leadOf set] [regF a]
      | none => onThreads (poisoned (idle s) g gr [leadOf set] [regF a]) g set fun _ th => th.goOn (nextPc (.stflush a) gr set))

/-- R211, R129, R130, R180, R275. What the check of a part finds: NONCANON with the high word, MISALIGN, PERM outside the
team's own aperture or past its scratch, PAGE with the page where none is mapped, PERM where the mapping denies it, a wait
where the page is not present, and else the place. R131. A part in a stash window is an access to the window's global address; where
that lies in the reserved range of R130 it is PERM, or scratch of the team's own aperture (log entry 101, DEDUCED). R276, R178, R180.
A load, store or atomic whose check fails in its lowest such thread traps there with the check's code and detail, all its performing
threads stopped and no byte stored, or holds the group's fetch for a page that is mapped and not present. Where the lower parts pass
and an upper part fails, the lower parts that the owner states let perform are stored, and nothing else. R140, R277. An access whose checks pass and that the owner states do not let perform: the threads of a load or store whose bytes
lie in a block that refuses them wait, with the destination of a load pending, and the others perform theirs; an atomic waits whole,
with its destination pending in every thread. What they read poisoned they owe as PZ until they retire (R168). -/
def Obligations.AddressChecks : Prop :=
  ((∀ (c : Context) (t : Option Team) (x size align : Nat) (w : Bool),
    (canonical x = false → checkGlobal c t x size align w = .fault 0x05 (BitVec.ofNat 32 (x / 2 ^ 32))) ∧
    (canonical x = true → x % align ≠ 0 → checkGlobal c t x size align w = .fault 0x04 (BitVec.ofNat 32 x)) ∧
    (canonical x = true → x % align = 0 → inApertures x = false → checkGlobal c t x size align w = checkMapped c x w none) ∧
    (canonical x = true → x % align = 0 → inApertures x = true →
      (∀ tm, t = some tm → ¬(tm.aperture.toNat ≤ x ∧ x < tm.aperture.toNat + 0x400000)) →
      checkGlobal c t x size align w = .fault 0x06 (BitVec.ofNat 32 x)) ∧
    ∀ tm, canonical x = true → x % align = 0 → inApertures x = true → t = some tm → tm.aperture.toNat ≤ x →
      x < tm.aperture.toNat + 0x400000 → checkGlobal c t x size align w = checkScratch c tm (x - tm.aperture.toNat) size w) ∧
  (∀ (c : Context) (x : Nat) (w : Bool) (line : Option Nat),
    (c.mapping? (x / 65536) = none → checkMapped c x w line = .fault 0x07 (BitVec.ofNat 32 (x / 65536))) ∧
    ∀ m, c.mapping? (x / 65536) = some m → checkMapped c x w line =
      if (if w = true then m.canWrite else m.canRead) = true then
        if m.present = true then .ok (.glob ((m.ppage + (x / 65536 - m.vpage)) * 65536 + x % 65536) x line) else .page (x / 65536)
      else .fault 0x06 (BitVec.ofNat 32 x)) ∧
  ∀ (c : Context) (t : Team) (a size : Nat) (w : Bool),
    (t.owners.length * 4096 < a + size →
      checkScratch c t a size w = .fault 0x06 (BitVec.ofNat 32 (max a (t.owners.length * 4096)))) ∧
    (a + size ≤ t.owners.length * 4096 → t.window? a = none → checkScratch c t a size w = .ok (.scr a)) ∧
    ∀ v, 0 < size → a + size ≤ t.owners.length * 4096 → t.window? a = some v →
      let x := (v.base + (a - v.first * 4096)) % 2 ^ 64
      let own := t.aperture.toNat ≤ x ∧ x < t.aperture.toNat + 0x400000
      (inApertures x = false → checkScratch c t a size w = checkMapped c x w (some (a / 128))) ∧
      (inApertures x = true → ¬ own → checkScratch c t a size w = .fault 0x06 (BitVec.ofNat 32 x)) ∧
      (inApertures x = true → own → t.window? (x - t.aperture.toNat) = none →
        checkScratch c t a size w = checkScratch c t (x - t.aperture.toNat) size w)) ∧
  (∀ (i : Instr) (F : LoadForm) (s : State) (g : Nat) (set : List Nat) (gr : Group) (t : Nat) (x : Chk), loadForm i = some F →
    Issuing s g set gr → i.wf = true → Usable F.fields gr set →
    firstBad (fun t => s.lowCheck gr.key false (F.target gr t)) set = some (t, x) → exec i s = .next (stopped (idle s) g set t x)) ∧
  (∀ (i : Instr) (F : StoreForm) (s : State) (g : Nat) (set : List Nat) (gr : Group) (t : Nat) (x : Chk), storeForm i = some F →
    Issuing s g set gr → i.wf = true → GuardUsable F.fields F.n F.guard gr set →
    firstBad (fun t => s.lowCheck gr.key true (F.target gr t)) (F.who gr set) = some (t, x) →
    exec i s = .next (stopped (idle s) g (F.who gr set) t x)) ∧
  (∀ (i : Instr) (F : AtomicForm) (s : State) (g : Nat) (set : List Nat) (gr : Group) (t : Nat) (x : Chk), atomicForm i = some F →
    Issuing s g set gr → i.wf = true → GuardUsable F.fields F.n F.guard gr set →
    firstBad (fun t => s.lowCheck gr.key true (F.target gr t)) (F.who gr set) = some (t, x) →
    exec i s = .next (stopped (idle s) g (F.who gr set) t x)) ∧
  (∀ (i : Instr) (F : LoadForm) (s : State) (g : Nat) (set : List Nat) (gr : Group) (t : Nat) (x : Chk), loadForm i = some F →
    Issuing s g set gr → i.wf = true → Usable F.fields gr set →
    (∀ u ∈ set, ∃ l, s.lowCheck gr.key false (F.target gr u) = .ok l) →
    firstBad (fun t => s.highCheck gr.key false (F.target gr t)) set = some (t, x) → exec i s = .next (stopped (idle s) g set t x)) ∧
  (∀ (i : Instr) (F : StoreForm) (s : State) (g : Nat) (set : List Nat) (gr : Group) (t : Nat) (x : Chk), storeForm i = some F →
    Issuing s g set gr → i.wf = true → GuardUsable F.fields F.n F.guard gr set → F.d ≠ 61 →
    (∀ u ∈ F.who gr set, ∃ l, s.lowCheck gr.key true (F.target gr u) = .ok l) →
    firstBad (fun t => s.highCheck gr.key true (F.target gr t)) (F.who gr set) = some (t, x) →
    let who := F.who gr set
    let places := fun t => s.places gr.key (F.target gr t) true
    let low := who.filter fun u => (F.target gr u).crosses && s.mayPerform gr.key true (places u)
    ∃ s', OnlyStores (gkeyTeam gr.key) (low.map fun u => (places u).take 1).flatten (idle s) s' ∧
      exec i s = .next (match x with
        | .page v => s'.modGroup g fun gr => { gr with fetch := some (.page v who t), lowered := low }
        | x => stopped s' g who t x)) ∧
  (∀ (i : Instr) (F : LoadForm) (s : State) (g : Nat) (set : List Nat) (gr : Group),
    loadForm i = some F → Issuing s g set gr → i.wf = true → Usable F.fields gr set →
    (∀ t ∈ set, Reaches s gr.key false (F.target gr t)) →
    let k := gkeyTeam gr.key
    let places := fun t => s.places gr.key (F.target gr t) false
    let run := set.filter fun t => s.mayPerform gr.key false (places t)
    exec i s = .next (onThreads (onThreads ((poisoned (idle s) g gr run F.fields).touchPlaces k (run.map places).flatten) g run
      fun t th => F.issued (s.readPlaces k (places t)) s.cycle (nextPc i gr set) th) g (others set run) (F.waits gr (nextPc i gr set)))) ∧
  (∀ (i : Instr) (F : StoreForm) (s : State) (g : Nat) (set : List Nat) (gr : Group),
    storeForm i = some F → Issuing s g set gr → i.wf = true → GuardUsable F.fields F.n F.guard gr set → F.d ≠ 61 →
    (∀ t ∈ F.who gr set, Reaches s gr.key true (F.target gr t)) →
    let next := nextPc i gr set
    let places := fun t => s.places gr.key (F.target gr t) true
    let run := (F.who gr set).filter fun t => s.mayPerform gr.key true (places t)
    let wait := others (F.who gr set) run
    ∃ s', exec i s = .next s' ∧ OnlyStores (gkeyTeam gr.key) (run.map places).flatten
      (storedThreads (onThreads (poisoned (idle s) g gr run F.fields) g wait (F.waits gr next)) g (onGroup wait (F.waits gr next) gr)
        places (others set wait) run next) s') ∧
  ∀ (i : Instr) (F : AtomicForm) (s : State) (g : Nat) (set : List Nat) (gr : Group),
    atomicForm i = some F → Issuing s g set gr → i.wf = true → GuardUsable F.fields F.n F.guard gr set →
    let who := F.who gr set
    let next := nextPc i gr set
    (∀ t ∈ who, Reaches s gr.key true (F.target gr t)) →
    (∃ t ∈ who, s.mayPerform gr.key true (s.places gr.key (F.target gr t) true) = false) →
    exec i s = .next (onThreads (onThreads (idle s) g (others set who) fun _ th => F.marked next th) g who (F.waits gr who next))

/-- R134, R135. Bytes written at consecutive addresses read back, and every other byte reads as before. R17, R74. Memory is wiped to
zero; that an address which nothing has written reads 0, and the one canonical form, which is kept and in which memories that read
alike are equal, are the model's choice, log entry 18 (DEDUCED). -/
def Obligations.MemoryHolds : Prop :=
  (∀ (m : List Host.Cell) (a : Nat) (bs : List Byte), cellsWf m = true →
    cellsWf (cellsWrite m a bs) = true ∧ cellsRead (cellsWrite m a bs) a bs.length = bs ∧
    ∀ b, b < a ∨ a + bs.length ≤ b → cellsGet (cellsWrite m a bs) b = cellsGet m b) ∧
  (∀ a, cellsGet [] a = 0) ∧
  ∀ m m' : List Host.Cell, cellsWf m = true → cellsWf m' = true → (∀ a, cellsGet m a = cellsGet m' a) → m = m'
/-! ## Branches and exits -/

/-- R292. Threads with a true guard branch, the others go on; CALL writes lk = PC + 4. R292, R298. Threads with a true guard become EXITED; then waits of their team that the exit ends, end. In a lane group
whose team has no barrier phase in progress, and with no other thread waiting, nothing else changes. -/
def Obligations.BranchesAndExits : Prop :=
  (∀ (i : Instr) (F : BranchForm) (s : State) (g : Nat) (set : List Nat) (gr : Group),
    branchForm i = some F → RunsIf i F.fields F.n F.guard s g set gr →
    let who := guarded gr F.n F.guard set
    exec i s = .next (splitThreads (poisoned (idle s) g gr who F.fields) g set who (nextPc i gr set) (F.taken (pcOf gr set)))) ∧
  ∀ (s : State) (g : Nat) (set : List Nat) (gr : Group) (n : BitVec 1) (gd : BitVec 6),
    RunsIf (.exit n gd) [regF gd] n gd s g set gr →
    let who := guarded gr n gd set
    let after := splitThreads (poisoned (idle s) g gr who [regF gd]) g set who (nextPc (.exit n gd) gr set) exitThread
    exec (.exit n gd) s = .next (if who = [] then after else after.afterExit g) ∧
    (gr.key.kind = .lanes → NoneWait s →
      (∀ t ∈ s.teams, t.key = gkeyTeam gr.key → ∀ b ∈ t.barriers, b.bits = none) → exec (.exit n gd) s = .next after)

/-- R293, R312. BRK traps BREAK, detail 0, on the threads whose guard is true, and the others go on; TRAP traps
USER_TRAP with a of its lowest thread as detail. -/
def Obligations.BreakAndTrap : Prop :=
  (∀ (s : State) (g : Nat) (set : List Nat) (gr : Group) (n : BitVec 1) (gd : BitVec 6),
    RunsIf (.brk n gd) [regF gd] n gd s g set gr →
    exec (.brk n gd) s = .next (match guarded gr n gd set with
      | [] => onThreads (idle s) g set fun _ th => th.goOn (nextPc (.brk n gd) gr set)
      | t :: ts => (onThreads (idle s) g (others set (t :: ts)) fun _ th => th.goOn (nextPc (.brk n gd) gr set)).takeTrap
          g (t :: ts) t 0x3D 0)) ∧
  ∀ (s : State) (g : Nat) (set : List Nat) (gr : Group) (a : BitVec 6),
    RunsOnce (.trap a) [regF a] s g set gr →
    exec (.trap a) s = .next ((idle s).takeTrap g set (leadOf set) 0x3C ((gr.thread (leadOf set)).reg a.toNat))

/-! ## Waits -/

/-- R297. BARG blocks its threads; when every thread of the group that has not exited is blocked in it, and no other
thread of the machine waits, they all go on past it. -/
def Obligations.BargMeets : Prop :=
  ∀ (s : State) (g : Nat) (set : List Nat) (gr : Group),
    Runs .barg [] s g set gr → gr.key.kind = .lanes →
    let blocked := onThreads (idle s) g set fun _ th => th.block .barg
    exec .barg s = .next blocked.settle ∧
    (s.active gr = true → (∀ t ∈ set, (gr.thread t).state = .ready) →
      (∀ t, t < gr.threads.length → t ∈ set ∨ (gr.thread t).state = .exited ∨ (gr.thread t).state = .blocked .barg) →
      (∀ j x, s.groups[j]? = some x → j ≠ g → ∀ th ∈ x.threads, th.isBlocked = false) →
      exec .barg s = .next (onThreads (idle s) g (List.range gr.threads.length) fun _ th =>
        if th.state = .exited then th else th.goOn (pcAfter th.pc 4)))

/-- R298, R300. BART and BARARV come to a team barrier: the phase's bits are set, the threads are counted, and each records
the phase; BART then waits for the phase and BARARV goes on. BARWT waits while its recorded phase is open. R298, R300. What coming to
a barrier changes: the phase's bits are those of the first thread to come, each thread is counted and records the phase, and then the
groups of the role mask whose threads have all come or exited have arrived. R298 takes the bits of the first arrival of a group; that
the first thread to come fixes them is log entry 27 (DEDUCED). -/
def Obligations.TeamBarriers : Prop :=
  ((∀ (s : State) (g : Nat) (set : List Nat) (gr : Group) (im : BitVec 8),
    Runs (.bart im) [] s g set gr → barrierIllegal im gr s = false →
    let phase := ((s.team? (gkeyTeam gr.key)).map fun t => (t.barriers.getD (im.toNat % 16) {}).phase).getD 0
    exec (.bart im) s = .next (onThreads ((idle s).come (theAct (.bart im) g set gr) gr (im.toNat % 16) (im.extractLsb' 4 4)) g set
      fun _ th => th.block (.bart (im.toNat % 16) phase))) ∧
  (∀ (s : State) (g : Nat) (set : List Nat) (gr : Group) (im : BitVec 8),
    Runs (.bararv im) [] s g set gr → barrierIllegal im gr s = false →
    exec (.bararv im) s = .next (onThreads
      ((idle s).come (theAct (.bararv im) g set gr) gr (im.toNat % 16) (im.extractLsb' 4 4)) g set
      fun _ th => th.goOn (nextPc (.bararv im) gr set))) ∧
  ∀ (s : State) (g : Nat) (set : List Nat) (gr : Group) (im : BitVec 4),
    Runs (.barwt im) [] s g set gr → gr.key.kind = .lanes →
    let phase := ((s.team? (gkeyTeam gr.key)).map fun t => (t.barriers.getD im.toNat {}).phase).getD 0
    exec (.barwt im) s = .next (onThreads (idle s) g set fun t th =>
      if (gr.thread t).phases.getD im.toNat none = some phase then th.block (.barwt im.toNat phase)
      else th.goOn (nextPc (.barwt im) gr set))) ∧
  (∀ (s : State) (a : Act) (gr : Group) (id : Nat) (bits : BitVec 4), a.set.Nodup →
    let k := gkeyTeam gr.key
    let phase := ((s.team? k).map fun t => (t.barriers.getD id {}).phase).getD 0
    let made := fun (l : Word) => ((s.node? gr.key.ctx gr.key.node).map fun n => n.dredSeq l).getD 0
    let comes := fun (b : Barrier) => { b with
      bits := some (b.bits.getD bits)
      came := b.came ++ a.set.map fun u => (gr.key.idx, u)
      marks := b.marks ++ a.set.map fun u => (gr.l u, made (gr.l u)) }
    s.come a gr id bits = (onThreads (s.modTeam k fun t => { t with barriers := t.barriers.modify id comes }) a.g a.set fun _ th =>
      { th with phases := th.phases.set id (some phase) }).refreshArrivals k) ∧
  ∀ (gs : List Group) (b : Barrier) (bits : BitVec 4) (n : Nat), b.bits = some bits →
    (n ∈ (refreshBarrier gs b).arrived ↔ n ∈ b.arrived ∨ ∃ x ∈ gs, x.key.idx = n ∧
      (if x.producer = true then bits.getLsbD 0 else bits.getLsbD 1) = true ∧ x.allExited = false ∧
      ∀ t, t < x.threads.length → (x.thread t).isExited = true ∨ (n, t) ∈ b.came)

/-- R294. WAITC goes on where the outstanding counts of a thread are within its limits, its covered registers no longer
pending, and blocks where they are not. R295. WAITW reads a global word in each thread; a word that differs from d is written to d, as by a load, and the
thread goes on; an equal one blocks it, and what was poisoned raises PZ at its retirement (R168). R193. A poisoned word that it would
deliver is a machine check (which words are poisoned is log entry 102, DESIGN CHOICE). R308. YIELD goes on, and stops its group where its yield request is set; NAP k blocks for 16k cycles, and NAP 0 goes on. -/
def Obligations.WaitsBlock : Prop :=
  (∀ (s : State) (g : Nat) (set : List Nat) (gr : Group) (im : BitVec 10), Runs (.waitc im) [] s g set gr →
    let l := (im.extractLsb' 0 3).toNat
    let st := (im.extractLsb' 3 3).toNat
    let c := (im.extractLsb' 6 2).toNat
    let t := (im.extractLsb' 8 2).toNat
    exec (.waitc im) s = .next (onThreads (idle s) g set fun _ th =>
      if ((th.covered l).all LoadRec.arrived = true ∧ (st = 7 ∨ th.stores ≤ st) ∧ (c = 3 ∨ th.copies ≤ c) ∧ (t = 3 ∨ th.tileOps ≤ t))
      then (th.cover l).goOn (nextPc (.waitc im) gr set) else th.block (.waitc l st c t))) ∧
  (∀ (s : State) (g : Nat) (set : List Nat) (gr : Group) (a d : BitVec 6), Runs (.waitw a d) [regF a 2, updF d] s g set gr →
    let x := fun t => (gr.thread t).pair a.toNat
    let places := fun t => s.places gr.key (wordTarget (x t)) false
    let word := fun t => BitVec.ofNat 32 (bytesNat (s.readPlaces (gkeyTeam gr.key) (places t)))
    let cmp := fun t => (gr.thread t).reg d.toNat
    let changed := set.filter fun t => word t ≠ cmp t
    (∀ t ∈ set, Reaches s gr.key false (wordTarget (x t))) → (∀ t ∈ set, s.mayPerform gr.key false (places t) = true) →
    (∀ t rest, changed.filter (fun t => (gr.thread t).tainted) = t :: rest →
      exec (.waitw a d) s = .next ((idle s).machineCheck g t 3)) ∧
    ((∀ t ∈ changed, (gr.thread t).tainted = false) → exec (.waitw a d) s = .next (onThreads
      ((poisoned (idle s) g gr changed [regF a 2, updF d]).touchPlaces (gkeyTeam gr.key) (changed.map places).flatten) g set fun t th =>
        if word t = cmp t then
          { th.block (.waitw (.waitw a d) d.toNat (x t) (cmp t)) with owed := poisonFlag gr (inThread t (ownReads [regF a 2, updF d])) }
        else (th.setReg d.toNat (word t)).goOn (nextPc (.waitw a d) gr set)))) ∧
  (∀ (s : State) (g : Nat) (set : List Nat) (gr : Group), Runs .yield [] s g set gr →
    let on := onThreads (idle s) g set fun _ th => th.goOn (nextPc .yield gr set)
    exec .yield s = .next (if gr.yieldReq = true then on.modGroup g fun x => { x with stop := true, yielded := true } else on)) ∧
  ∀ (s : State) (g : Nat) (set : List Nat) (gr : Group) (im : BitVec 10), Runs (.nap im) [] s g set gr →
    exec (.nap im) s = .next (onThreads (idle s) g set fun _ th =>
      if im = 0 then th.goOn (nextPc (.nap im) gr set) else th.block (.nap (16 * im.toNat)))

/-- R296. SWAIT writes the GEN of a cairn that differs from d to d and goes on, and blocks where it is equal. R144. Where ERR is 1 in a
thread's cairn it traps, ENG_FAULT, or SPARSE_META for CAUSE 4, with the cairn's address plus CAUSE as detail. R193. A poisoned cairn at
its end is a machine check. R296. SYNCSET of one thread sets a cairn and names it. R143, Table 8.5. The words of a cairn after SYNCSET,
after an arrival of bytes, and after an error report; no byte outside the cairn changes. That an arrival of 0 bytes at a TARGET of 0 is
an overshoot too is log entry 73 (DEDUCED). -/
def Obligations.Cairns : Prop :=
  (∀ (s : State) (g : Nat) (set : List Nat) (gr : Group) (a d : BitVec 6), Runs (.swait a d) [regF a, updF d] s g set gr →
    let m := s.scratch (gkeyTeam gr.key)
    let x := fun t => (gr.thread t).reg a.toNat
    let gen := fun t => BitVec.ofNat 32 (cairnWord m (x t).toNat 2)
    (∀ t ∈ set, s.cairnCheck (gkeyTeam gr.key) (x t).toNat = none) →
    let ends := set.filter fun t => cairnErr m (x t).toNat || gen t != (gr.thread t).reg d.toNat
    (∀ t rest, ends.filter (fun t => (gr.thread t).tainted) = t :: rest → exec (.swait a d) s = .next ((idle s).machineCheck g t 3)) ∧
    (∀ t rest, (∀ u ∈ ends, (gr.thread u).tainted = false) → set.filter (fun t => cairnErr m (x t).toNat) = t :: rest →
      let cause := cairnCause m (x t).toNat
      exec (.swait a d) s = .next ((idle s).takeTrap g set t (if cause = 4 then 0x12 else 0x11)
        (BitVec.ofNat 32 ((x t).toNat + cause)))) ∧
    let moved := set.filter fun t => gen t ≠ (gr.thread t).reg d.toNat
    ((∀ u ∈ ends, (gr.thread u).tainted = false) → (∀ t ∈ set, cairnErr m (x t).toNat = false) →
      exec (.swait a d) s = .next (onThreads (poisoned (idle s) g gr moved [regF a, updF d]) g set fun t th =>
      if gen t = (gr.thread t).reg d.toNat then
        { th.block (.swait d.toNat (x t) ((gr.thread t).reg d.toNat)) with
          owed := poisonFlag gr (inThread t (ownReads [regF a, updF d])) }
      else (th.setReg d.toNat (gen t)).goOn (nextPc (.swait a d) gr set)))) ∧
  (∀ (s : State) (g : Nat) (t : Nat) (gr : Group) (a d : BitVec 6), Runs (.syncset a d) [regF a, regF d] s g [t] gr →
    let k := gkeyTeam gr.key
    let x := (gr.thread t).reg a.toNat
    s.cairnCheck k x.toNat = none →
    exec (.syncset a d) s = .next (onThreads
      (((acting [regF a, regF d] s g [t] gr).modScratch k fun m => cairnSet m x.toNat ((gr.thread t).reg d.toNat).toNat).nameCairn k x)
      g [t] fun _ th => th.goOn (nextPc (.syncset a d) gr [t]))) ∧
  ∀ (m : List Host.Cell) (a : Nat), cellsWf m = true →
    (∀ t, t < 2 ^ 32 → let m' := cairnSet m a t
      cairnWord m' a 0 = t ∧ cairnWord m' a 1 = 0 ∧ cairnWord m' a 2 = cairnWord m a 2 ∧ cairnWord m' a 3 = 0) ∧
    (∀ n, let m' := cairnArrive m a n
      let sum := cairnWord m a 1 + n
      cairnWord m' a 0 = cairnWord m a 0 ∧
      (cairnErr m a = true → m' = m) ∧
      (cairnErr m a = false → sum < cairnWord m a 0 →
        cairnWord m' a 1 = sum ∧ cairnWord m' a 2 = cairnWord m a 2 ∧ cairnWord m' a 3 = cairnWord m a 3) ∧
      (cairnErr m a = false → sum = cairnWord m a 0 → 0 < sum →
        cairnWord m' a 1 = 0 ∧ cairnWord m' a 2 = (cairnWord m a 2 + 1) % 2 ^ 32 ∧ cairnWord m' a 3 = cairnWord m a 3) ∧
      (cairnErr m a = false → cairnWord m a 0 < sum ∨ cairnWord m a 0 = 0 →
        cairnWord m' a 1 = 0 ∧ cairnWord m' a 2 = (cairnWord m a 2 + 1) % 2 ^ 32 ∧ cairnErr m' a = true ∧ cairnCause m' a = 1)) ∧
    (∀ c, cairnErr m a = true → cairnReport m a c = m) ∧
    (∀ c, c < 16 → cairnErr m a = false → let m' := cairnReport m a c
      cairnWord m' a 0 = cairnWord m a 0 ∧ cairnWord m' a 1 = 0 ∧ cairnWord m' a 2 = (cairnWord m a 2 + 1) % 2 ^ 32 ∧
        cairnErr m' a = true ∧ cairnCause m' a = c) ∧
    ∀ b, b < a ∨ a + 16 ≤ b →
      (∀ t, cellsGet (cairnSet m a t) b = cellsGet m b) ∧ (∀ n, cellsGet (cairnArrive m a n) b = cellsGet m b) ∧
        ∀ c, cellsGet (cairnReport m a c) b = cellsGet m b

/-- R302. MBR takes the oldest word of a mailbox that holds one, and blocks its thread at an empty one; MBW appends to one that holds
fewer than 8, and blocks its thread, with its word, at a full one; with qr as its word it blocks first on that (R210). The threads of an
issue set act in ascending order, each on the mailbox that those before it left; then the waits that this ends, end. With no thread
waiting, nothing else changes in an issue of one thread. -/
def Obligations.MailboxesPass : Prop :=
  (∀ (s : State) (g : Nat) (t : Nat) (gr : Group) (k : BitVec 3) (d : BitVec 6),
    Runs (.mbr k d) [outF d] s g [t] gr → NoneWait s →
    exec (.mbr k d) s = .next (match (s.core gr.core).mailbox gr.key.ctx k.toNat with
      | v :: rest => onThreads ((idle s).modCore gr.core fun x => x.setMailbox gr.key.ctx k.toNat rest) g [t] fun _ th =>
          (th.setReg d.toNat v).goOn (nextPc (.mbr k d) gr [t])
      | [] => onThreads (idle s) g [t] fun _ th => th.block (.mbr d.toNat k.toNat))) ∧
  (∀ (s : State) (g : Nat) (t : Nat) (gr : Group) (k : BitVec 3) (a : BitVec 6),
    Runs (.mbw k a) [srcF a] s g [t] gr → NoneWait s →
    let box := (s.core gr.core).mailbox gr.key.ctx k.toNat
    let v := (gr.thread t).reg a.toNat
    let fed := fun (s : State) => if a = 61 then tookWords s g gr [t] else s
    (a = 61 → (gr.thread t).queue = [] → exec (.mbw k a) s = .next (onThreads (idle s) g [t] fun _ th => th.block (.qr (.mbw k a)))) ∧
    ((a = 61 → (gr.thread t).queue ≠ []) → box.length < 8 →
      exec (.mbw k a) s = .next (onThreads ((fed (acting [srcF a] s g [t] gr)).modCore gr.core fun x =>
        x.setMailbox gr.key.ctx k.toNat (box ++ [v])) g [t] fun _ th => th.goOn (nextPc (.mbw k a) gr [t]))) ∧
    ((a = 61 → (gr.thread t).queue ≠ []) → 8 ≤ box.length →
      exec (.mbw k a) s = .next (owing (onThreads (fed (idle s)) g [t] fun _ th => th.block (.mbw k.toNat v)) g gr [t] [srcF a]))) ∧
  (∀ (s : State) (g : Nat) (set : List Nat) (gr : Group) (k : BitVec 3) (d : BitVec 6),
    Runs (.mbr k d) [outF d] s g set gr →
    let lane := fun (s : State) (t : Nat) => match (s.core gr.core).mailbox gr.key.ctx k.toNat with
      | v :: rest => onThreads (s.modCore gr.core fun x => x.setMailbox gr.key.ctx k.toNat rest) g [t] fun _ th =>
          (th.setReg d.toNat v).goOn (nextPc (.mbr k d) gr set)
      | [] => onThreads s g [t] fun _ th => th.block (.mbr d.toNat k.toNat)
    exec (.mbr k d) s = .next (set.foldl lane (idle s)).settle) ∧
  ∀ (s : State) (g : Nat) (set : List Nat) (gr : Group) (k : BitVec 3) (a : BitVec 6),
    Runs (.mbw k a) [srcF a] s g set gr → a ≠ 61 →
    let lane := fun (s : State) (t : Nat) =>
      let box := (s.core gr.core).mailbox gr.key.ctx k.toNat
      let v := (gr.thread t).reg a.toNat
      let pz := poisonFlag gr (inThread t (ownReads [srcF a]))
      if box.length < 8 then
        onThreads (flagged (s.modCore gr.core fun x => x.setMailbox gr.key.ctx k.toNat (box ++ [v])) g gr [t] fun _ => pz) g [t] fun _ th =>
          th.goOn (nextPc (.mbw k a) gr set)
      else onThreads s g [t] fun _ th => { th.block (.mbw k.toNat v) with owed := pz }
    exec (.mbw k a) s = .next (set.foldl lane (idle s)).settle

/-! ## System instructions -/

/-- R229 to R231, R291, R303, R307, R310, R311, R316. NOP, ELECT, VOTE, FLAGRD, IDENT, CSRRD, QROUTE, QSTAT and PERFRD: each
thread of the issue set updates itself and goes on, and nothing else changes. -/
def Obligations.SystemReads : Prop :=
  ∀ (i : Instr) (F : SysForm) (s : State) (g : Nat) (set : List Nat) (gr : Group),
    sysForm i = some F → Runs i F.fields s g set gr →
    let s1 := acting F.fields s g set gr
    exec i s = .next (onThreads s1 g set fun t th => (F.update s1 gr set t th).goOn (nextPc i gr set))

/-- R311, R230, R315. FLAGCLR clears flags of the group and of the issuing threads, but for those that are set in the same cycle; CSRWR
writes a context register, for
each thread in ascending order; MARK adds one record to the trace ring. -/
def Obligations.SystemWrites : Prop :=
  (∀ (s : State) (g : Nat) (set : List Nat) (gr : Group) (im : BitVec 7), Runs (.flagclr im) [] s g set gr →
    let left := fun (flags : Flags) (raised : Nat × Flags) => (flags &&& ~~~im) ||| (if raised.1 = s.cycle then raised.2 else 0)
    exec (.flagclr im) s = .next (onThreads ((idle s).modGroup g fun x => { x with flags := left x.flags x.raised }) g set fun _ th =>
      Thread.goOn { th with flags := left th.flags th.raised } (nextPc (.flagclr im) gr set))) ∧
  (∀ (s : State) (g : Nat) (set : List Nat) (gr : Group) (im : BitVec 10) (a : BitVec 6), Runs (.csrwr im a) [regF a] s g set gr →
    exec (.csrwr im a) s = .next (onThreads
      (set.foldl (fun s t => s.csrWrite gr.key t (gr.l t) im.toNat ((gr.thread t).reg a.toNat)) (acting [regF a] s g set gr)) g set fun _ th =>
      th.goOn (nextPc (.csrwr im a) gr set))) ∧
  ∀ (s : State) (g : Nat) (set : List Nat) (gr : Group) (im : BitVec 10) (a : BitVec 6), RunsOnce (.mark im a) [regF a] s g set gr →
    let record := markRecord s gr set (im.zeroExtend 32) ((gr.thread (leadOf set)).reg a.toNat)
    let add := fun (c : Context) => match c.traceSize with
      | none => c
      | some n => if c.trace.length < n then { c with trace := c.trace ++ [record] } else { c with traceLost := c.traceLost + 1 }
    exec (.mark im a) s = .next (onThreads ((poisoned (idle s) g gr [leadOf set] [regF a]).modCtx gr.key.ctx add) g set fun _ th =>
      th.goOn (nextPc (.mark im a) gr set))

/-- R231. After a CSRWR of CTX_ROUND, CTX_WHISTLE, CTX_TRAPVEC or CTX_LEASE, the writing thread sees the new value at once,
every other thread from 256 cycles on, and before that the new value or one that stood before; the writer before it sees its
own value or the new one; but of the writes of one cycle that of the highest L stands. Which values those other threads may still see is
the history that log entry 10 (DESIGN CHOICE) keeps. R230, Tables 8.1, 9.5, 9.6, 10.2 and 10.5. What CSRWR stores: the low two bits of
CTX_ROUND, CTX_FLAGS with the written ones cleared but for those that an operation sets in the same cycle (R235), at once for every
reader, which is log entry 31 (DEDUCED), CTX_WHISTLE and CTX_TRAPVEC whole, and CTX_LEASE in six bits with 0 stored as 1; only the
context of the group changes. -/
def Obligations.ContextRegisters : Prop :=
  (∀ (s : State) (r : Csr) (n : Nat) (who : GKey × Nat) (lw v : Word),
    let r' := r.write s who lw v
    let higher := fun (w : CsrWrite) => w.cycle = s.cycle ∧ lw.toNat < w.l.toNat
    ((∀ w ∈ r.writes, ¬ higher w) → ∀ (s' : State) (l : Word), r'.see s' n who l = v ∧
      ∀ other, s.cycle + 256 ≤ s'.cycle → r'.see s' n other l = v) ∧
    (∀ (w : CsrWrite) (ws : List CsrWrite), r.writes = w :: ws → higher w → (∀ x ∈ ws, ¬ higher x) → ∀ (s' : State) (l : Word),
      (r'.see s' n who l = v ∨ r'.see s' n who l = w.val) ∧ ∀ other, s.cycle + 256 ≤ s'.cycle → r'.see s' n other l = w.val) ∧
    (∀ (s' : State) (other : GKey × Nat) (l : Word), r'.see s' n other l = v ∨ r'.see s' n other l = r.base ∨
      ∃ w ∈ r.writes, r'.see s' n other l = w.val) ∧
    ∀ (s' : State) (w : CsrWrite) (ws : List CsrWrite) (l : Word), r.writes = w :: ws →
      r'.see s' n w.writer l = v ∨ r'.see s' n w.writer l = w.val) ∧
  ∀ (s : State) (k : GKey) (t : Nat) (lw v : Word), k.ctx < s.ctxs.length →
    let c0 := s.ctx k.ctx
    let c := fun (n : Nat) => (s.csrWrite k t lw n v).ctx k.ctx
    let first := fun (r : Csr) => ∀ w ∈ r.writes, ¬(w.cycle = s.cycle ∧ lw.toNat < w.l.toNat)
    (first c0.round → (c 0).round.val = v &&& 3) ∧
    (c 1).flags = (c0.flags &&& ~~~v) ||| (if c0.raised.1 = s.cycle then c0.raised.2 else 0) ∧
    (first c0.whistle → (c 2).whistle.val = v) ∧ (first c0.trapVec → (c 3).trapVec.val = v) ∧
    (first c0.lease → (c 12).lease.val = (if v &&& 63 = 0 then 1 else v &&& 63)) ∧
    ∀ n, (∀ j, j ≠ k.ctx → (s.csrWrite k t lw n v).ctx j = s.ctx j) ∧ { s.csrWrite k t lw n v with ctxs := s.ctxs } = s

/-- R122. REGGROW to a budget that the group already has writes 1; otherwise its threads block, and every pending request for
which there is room in every lane of the group's window is granted: with no other thread waiting, its own at once, the new
registers reading zero. R122. REGSHRINK writes 1 and releases the registers from n up, which no thread may have pending. -/
def Obligations.RegisterBudgets : Prop :=
  (∀ (s : State) (g : Nat) (set : List Nat) (gr : Group) (w : BitVec 1) (n d : BitVec 6), Runs (.reggrow w n d) [outF d] s g set gr →
    LegalBudget n →
    let i := Instr.reggrow w n d
    let blocked := onThreads (idle s) g set fun _ th => th.block (.reggrow d.toNat n.toNat (w == 1))
    (n.toNat ≤ gr.budget → exec i s = .next (onThreads (idle s) g set fun _ th => (th.setReg d.toNat 1).goOn (nextPc i gr set))) ∧
    (gr.budget < n.toNat → exec i s = .next blocked.growAll) ∧
    (gr.budget < n.toNat → NoneWait s → s.growRoom gr n.toNat = false → exec i s = .next blocked) ∧
    (gr.budget < n.toNat → NoneWait s → s.growRoom gr n.toNat = true → s.active gr = true → (∀ t ∈ set, t < gr.threads.length) →
      exec i s = .next (onThreads
        ((idle s).modGroup g fun x => { x with budget := n.toNat, threads := x.threads.map (Thread.clearFrom x.budget) }) g set
          fun _ th => (th.setReg d.toNat 1).goOn (pcAfter th.pc 4)))) ∧
  ∀ (s : State) (g : Nat) (set : List Nat) (gr : Group) (n d : BitVec 6), Runs (.regshrink n d) [outF d] s g set gr →
    LegalBudget n → (∀ th ∈ gr.threads, ∀ r, n.toNat ≤ r → r < gr.budget → th.isPend r = false) →
    let on := onThreads (idle s) g set fun _ th => (th.setReg d.toNat 1).goOn (nextPc (.regshrink n d) gr set)
    exec (.regshrink n d) s = .next
      (if n.toNat < gr.budget then
        on.modGroup g fun x => { x with budget := n.toNat, threads := x.threads.map (Thread.clearFrom n.toNat) }
       else on)

/-- R314, R150, R271. DFLUSH makes the unbatched basket entries of its threads one batch and holds the fetch of its group
until every batch with an entry of theirs is applied, and goes on where they have none; XFENCE holds the fetch until the group's remote commands have completed, and goes on
where there are none; TBLLD of 1,024 bytes that may be read blocks its threads until the table is loaded. -/
def Obligations.FencesHold : Prop :=
  (∀ (s : State) (g : Nat) (set : List Nat) (gr : Group), RunsOnce .dflush [] s g set gr →
    let mine := fun (e : BasketEntry) => e.node == gr.key.node && (gr.key.kind == .lanes && (set.map gr.l).contains e.l)
    let det := ((s.node? gr.key.ctx gr.key.node).map fun n => n.rec'.det).getD false
    exec .dflush s = .next
      (if det = true ∧ ∃ e ∈ (s.ctx gr.key.ctx).basket, mine e = true then
        let s1 := if ∃ e ∈ (s.ctx gr.key.ctx).basket, e.batch = none ∧ mine e = true then ((idle s).makeBatch gr.key.ctx mine).2 else idle s
        s1.modGroup g fun x => { x with fetch := some (.batch ((s1.ctx gr.key.ctx).batchesOf mine) (nextPc .dflush gr set) set) }
       else onThreads (idle s) g set fun _ th => th.goOn (nextPc .dflush gr set))) ∧
  (∀ (s : State) (g : Nat) (set : List Nat) (gr : Group), Runs .xfence [] s g set gr → s.feature 11 = true →
    exec .xfence s = .next (if s.remoteCmds gr.key = [] then onThreads (idle s) g set fun _ th => th.goOn (nextPc .xfence gr set)
      else (idle s).modGroup g fun x => { x with fetch := some (.fence (s.remoteCmds gr.key) (nextPc .xfence gr set) set) })) ∧
  ∀ (s : State) (g : Nat) (set : List Nat) (gr : Group) (k : BitVec 2) (a : BitVec 6), RunsOnce (.tblld k a) [regF a] s g set gr →
    gr.key.kind ≠ .handler →
    let x := ((gr.thread (leadOf set)).reg a.toNat).toNat / 4 * 4
    (∀ j, j < 256 → ∃ l, s.checkPart gr.key { glob := false, addr := x + 4 * j, size := 4 } false (x + 4 * j, 4) = .ok l) →
    exec (.tblld k a) s = .next (owing
      (onThreads (idle s) g set fun _ th => th.block (.tblld k.toNat (BitVec.ofNat 32 x))) g gr [leadOf set] [regF a])

/-- R313, R91. LAUNCH of one thread: 2 where the queue takes no launches, 0 where it is full, and 1 with the record and its
time stored in the ring and the tail moved by one. LAUNCH of an issue set completes, each thread in ascending order with the
status that the queue has for it, and the tail moves by one for each 1. -/
def Obligations.LaunchQueues : Prop :=
  (∀ (s : State) (g : Nat) (t : Nat) (gr : Group) (q : BitVec 5) (a d : BitVec 6),
    Runs (.launch q a d) [regF a 2, outF d] s g [t] gr → gr.key.kind ≠ .handler →
    let tgt := recordTarget ((gr.thread t).pair a.toNat)
    let k := gkeyTeam gr.key
    let ls := s.places gr.key tgt false
    let qu := (s.ctx gr.key.ctx).queue q.toNat
    let fin := fun (s : State) (v : Word) => onThreads (poisoned s g gr [t] [regF a 2, outF d]) g [t]
      fun _ th => (th.setReg d.toNat v).goOn (nextPc (.launch q a d) gr [t])
    Reaches s gr.key false tgt →
    ((qu.en = false ∨ qu.src = false) → exec (.launch q a d) s = .next (fin (idle s) 2)) ∧
    (qu.en = true → qu.src = true → (qu.tail - qu.head).toNat = qu.size → exec (.launch q a d) s = .next (fin (idle s) 0)) ∧
    (qu.en = true → qu.src = true → (qu.tail - qu.head).toNat ≠ qu.size → s.mayPerform gr.key false ls = true →
      Reaches s gr.key true (qu.slotTarget 0) →
      let s1 := ((idle s).sealNow gr.key.ctx gr.key.node 4).touchPlaces k ls
      let s2 := s1.writePlaces k (s1.places gr.key (qu.slotTarget 0) true) (s.readPlaces k ls)
      let s3 := s2.devStore gr.key.ctx (qu.timeSlot qu.tail) (natBytes 8 s.time)
      exec (.launch q a d) s = .next
        (fin (s3.modCtx gr.key.ctx fun c => c.modQueue q.toNat fun x => { x with tail := x.tail + 1 }) 1))) ∧
  ∀ (s : State) (g : Nat) (set : List Nat) (gr : Group) (q : BitVec 5) (a d : BitVec 6),
    Runs (.launch q a d) [regF a 2, outF d] s g set gr → gr.key.kind ≠ .handler →
    let tgt := fun t => recordTarget ((gr.thread t).pair a.toNat)
    let qu := (s.ctx gr.key.ctx).queue q.toNat
    let used := (qu.tail - qu.head).toNat
    let takes := fun (n : Nat) => qu.en = true ∧ qu.src = true ∧ used + n < qu.size
    qu.size < 2 ^ 32 → used ≤ qu.size → (∀ n, n < set.length → Reaches s gr.key true (qu.slotTarget n)) →
    (∀ t ∈ set, Reaches s gr.key false (tgt t) ∧ s.mayPerform gr.key false (s.places gr.key (tgt t) false) = true) →
    ∃ (s' : State) (status : Nat → Word), exec (.launch q a d) s = .next s' ∧
      s'.groups = (onThreads (acting [regF a 2, outF d] s g set gr) g set fun t th =>
        (th.setReg d.toNat (status t)).goOn (nextPc (.launch q a d) gr set)).groups ∧
      (∀ t n, set[n]? = some t → (takes n → status t = 1) ∧ (qu.en = false ∨ qu.src = false → status t = 2) ∧
        (qu.en = true → qu.src = true → qu.size ≤ used + n → status t = 0)) ∧
      ((s'.ctx gr.key.ctx).queue q.toNat).tail =
        qu.tail + BitVec.ofNat 32 (if qu.en = true ∧ qu.src = true then min set.length (qu.size - used) else 0)

/-! ## The debug window -/

/-- R317, R184. In a handler, DWSEL selects a stopped group of the context on its core that holds thread L, and writes 1, or
0 where there is none; DWRD reads a word of the selected group's window, and DWWR writes one. R185, R317. DWRES and DWKILL go on; while the record of the handler holds its group, DWRES resumes the trapped threads
at their PC, after their instruction, or at a, and clears the stop, and DWKILL exits every thread of the group; either ends
the hold, and the selection of that group. Then the waits that this ends, end. R317, R184. Outside a handler, the debug-window instructions trap ILLEGAL_OP with their word. -/
def Obligations.DebugWindow : Prop :=
  ((∀ (s : State) (g : Nat) (set : List Nat) (gr : Group) (a d : BitVec 6), Runs (.dwsel a d) [regF a, outF d] s g set gr →
    gr.key.kind = .handler →
    let s1 := acting [regF a, outF d] s g set gr
    exec (.dwsel a d) s = .next (match s1.selection gr ((gr.thread (leadOf set)).reg a.toNat) with
      | some k => onThreads (s1.modGroup g fun x => { x with handler := x.handler.map fun h => { h with sel := some k } }) g set fun _ th =>
          (th.setReg d.toNat 1).goOn (nextPc (.dwsel a d) gr set)
      | none => onThreads s1 g set fun _ th => (th.setReg d.toNat 0).goOn (nextPc (.dwsel a d) gr set))) ∧
  (∀ (s : State) (g : Nat) (set : List Nat) (gr : Group) (a d : BitVec 6), Runs (.dwrd a d) [regF a, outF d] s g set gr →
    gr.key.kind = .handler →
    let s1 := acting [regF a, outF d] s g set gr
    let v := match (s1.selected gr).bind fun i => s1.groups[i]? with
      | some x => x.windowRead ((gr.thread (leadOf set)).reg a.toNat)
      | none => 0
    exec (.dwrd a d) s = .next (onThreads s1 g set fun _ th => (th.setReg d.toNat v).goOn (nextPc (.dwrd a d) gr set))) ∧
  ∀ (s : State) (g : Nat) (set : List Nat) (gr : Group) (a d : BitVec 6), Runs (.dwwr a d) [regF a, regF d] s g set gr →
    gr.key.kind = .handler →
    let s1 := acting [regF a, regF d] s g set gr
    let th0 := gr.thread (leadOf set)
    exec (.dwwr a d) s = .next (onThreads (match s1.selected gr with
      | some i => s1.modGroup i fun x => x.windowWrite (th0.reg a.toNat) (th0.reg d.toNat)
      | none => s1) g set fun _ th => th.goOn (nextPc (.dwwr a d) gr set))) ∧
  ((∀ (s : State) (g : Nat) (set : List Nat) (gr : Group) (im : BitVec 10) (a : BitVec 6), Runs (.dwres im a) [regF a] s g set gr →
    gr.key.kind = .handler →
    let s0 := onThreads (acting [regF a] s g set gr) g set fun _ th => th.goOn (nextPc (.dwres im a) gr set)
    let v := (gr.thread (leadOf set)).reg a.toNat
    (s0.heldGroup gr = none → exec (.dwres im a) s = .next s0) ∧
    ∀ j h, s0.heldGroup gr = some (j, h) →
      let s1 := (s0.modGroup g endHold).deselect h.trap.group
      let pc := fun (th : Thread) => if im = 0 then th.pc
        else if im = 1 then pcAfter th.pc (s1.lengthAt gr.key.ctx th.pc) else v &&& 0xFFFFFFFE
      let again := im = 0 && h.trap.code == 0x3D && h.trap.detail == 1
      exec (.dwres im a) s = .next ((s1.modGroup j fun x => { x with
        stop := false
        yielded := false
        trapped := []
        threads := x.threads.mapIdx fun t th => if x.trapped.contains t then
          { th with pc := pc th, state := .ready, owed := 0, skip := if again = true then th.skip else []
                    higher := [], table := [], tainted := false } else th }).settle)) ∧
  ∀ (s : State) (g : Nat) (set : List Nat) (gr : Group), Runs .dwkill [] s g set gr → gr.key.kind = .handler →
    let s0 := onThreads (idle s) g set fun _ th => th.goOn (nextPc .dwkill gr set)
    (s0.heldGroup gr = none → exec .dwkill s = .next s0) ∧
    ∀ j h, s0.heldGroup gr = some (j, h) →
      exec .dwkill s = .next ((((s0.modGroup g endHold).deselect h.trap.group).modGroup j fun x => { x with
        stop := false
        yielded := false
        trapped := []
        fetch := none
        threads := x.threads.map fun (th : Thread) => { th with state := .exited } }).afterExit j)) ∧
  ∀ (i : Instr) (s : State) (g : Nat) (set : List Nat) (gr : Group), Issuing s g set gr → gr.key.kind ≠ .handler →
    ((∃ a d, i = .dwsel a d ∨ i = .dwrd a d ∨ i = .dwwr a d) ∨ (∃ im a, i = .dwres im a) ∨ i = .dwkill) →
    exec i s = .next ((idle s).takeTrap g set (leadOf set) 0x01 (BitVec.ofNat 32 (encodeWord i).1))


/-! ## Traps -/

/-- R178, R182, Table 10.1. Taking a trap that is not fatal: the group stops with its trapped issue set, the context keeps the
record among its last 16, the record joins the queue of the group's core, and nothing else changes. -/
def Obligations.TrapEntry : Prop :=
  ∀ (s : State) (g : Nat) (set : List Nat) (gr : Group) (t : Nat) (code : BitVec 8) (detail : Word),
    s.groups[g]? = some gr → gr.key.kind ≠ .handler → (s.ctx gr.key.ctx).trapVec.val.getLsbD 0 = true →
    let r : TrapRec :=
      { code := code, control := gr.key.kind == .control, basket := false, core := gr.core, pc := shownPc (gr.thread t).pc, l := gr.l t
        detail := detail, time := s.time, node := gr.key.node, group := gr.key }
    let keep := fun (c : Context) => { c with traps := (c.traps ++ [r]).drop (c.traps.length - 15) }
    s.takeTrap g set t code detail = { s with
      groups := s.groups.modify g fun x => { x with stop := true, trapped := set, fetch := none, lowered := [] }
      ctxs := s.ctxs.modify gr.key.ctx keep
      cores := s.cores.modify gr.core fun x => { x with trapQueue := x.trapQueue ++ [r] } }

/-- R186, R187, R75. A trap with no handler installed, or in a handler instance, is fatal: the dump is written, the context is
TERMINATED with a final statement, and no group, team, node or word in flight of it is left; the groups, nodes (but for
what the dump's writes stage or seal), words and contexts of others stay. The context takes part in no stile session. That all of
this is done at once, with a final statement that is held, is log entry 35 (DESIGN CHOICE). -/
def Obligations.FatalTrap : Prop :=
  ∀ (s : State) (g : Nat) (set : List Nat) (gr : Group) (t : Nat) (code : BitVec 8) (detail : Word),
    s.groups[g]? = some gr → (gr.key.kind = .handler ∨ (s.ctx gr.key.ctx).trapVec.val.getLsbD 0 = false) →
    gr.key.ctx < s.ctxs.length → NoSession s gr.key.ctx →
    let c := gr.key.ctx
    let s' := s.takeTrap g set t code detail
    (s'.ctx c).state = .terminated ∧ (s'.ctx c).dumped = true ∧ (s'.ctx c).final.isSome = true ∧ (s'.ctx c).basket = [] ∧
    s'.groups = (s.groups.filter fun x => x.key.ctx != c) ∧ (∀ x ∈ s'.teams, x.key.ctx ≠ c) ∧
    s'.nodes.map plainNode = (s.nodes.filter fun x => x.ctx != c).map plainNode ∧ s'.net = (s.net.filter fun w => w.ctx != c) ∧
    ∀ j, j ≠ c → s'.ctx j = s.ctx j

/-! ## Engines -/

/-- R323, R217. An engine command that passes its checks, with room in the queue of its core, issues: its command, with its
elected thread the lowest, enters. R323, R71, R326. A command whose checks fail traps on its issue set, ENG_SPEC with its op5 as detail, or ILLEGAL_OP for a
format code of a feature that is not accepted, or with the code of what a read of its operands meets; one for which the queue has no room, or whose record an engine is writing, waits
with nothing issued. -/
def Obligations.EngineIssues : Prop :=
  (∀ (i : Instr) (F : EngForm) (s : State) (g : Nat) (set : List Nat) (gr : Group) (tm : Team) (c : Cmd) (draws : Nat),
    engForm i = some F → EngClear F i s g set gr tm → F.prep (theAct i g set gr) gr tm (idle s) = .go c draws →
    (s.core gr.core).queue.length < 32 →
    exec i s = .next (issueCmd c draws (theAct i g set gr) gr (F.acting s g set gr)) ∧
    c.op = F.op ∧ c.team = gkeyTeam gr.key ∧ c.elected = (gr.key, leadOf set) ∧ c.id = s.cmdIds ∧ c.threads = set) ∧
  ∀ (i : Instr) (F : EngForm) (s : State) (g : Nat) (set : List Nat) (gr : Group) (tm : Team),
    engForm i = some F → EngClear F i s g set gr tm →
    let res := F.prep (theAct i g set gr) gr tm (idle s)
    (res = .refuse → exec i s = .next ((idle s).takeTrap g set (leadOf set) 0x10 (BitVec.ofNat 32 F.op))) ∧
    (res = .illegal → exec i s = .next ((idle s).takeTrap g set (leadOf set) 0x01 (BitVec.ofNat 32 (encodeWord i).1))) ∧
    (∀ x, res = .stop x → exec i s = .next (stopped (idle s) g set (leadOf set) x)) ∧
    (∀ x, res = .wait x → exec i s = .next (onThreads (idle s) g set fun _ th => th.block (recordWait i gr set x))) ∧
    ∀ c draws, res = .go c draws → 32 ≤ (s.core gr.core).queue.length → exec i s = .next (idle s)

/-- R323, R294, R347, R379. What a command other than SMMA does as it issues: it joins the queue of its core, its elected
thread counts it, and the group goes on, or its fetch is held until the command completes; memory, nodes, other groups and
other teams stay. -/
def Obligations.CommandEnters : Prop :=
  ∀ (s : State) (c : Cmd) (draws : Nat) (a : Act) (gr : Group),
    s.groups[a.g]? = some gr → a.set ≠ [] → (∀ t ∈ a.set, t < gr.threads.length) → c.elected.2 = a.lead → c.op ≠ 11 →
    let s' := issueCmd c draws a gr s
    s'.mem = s.mem ∧ s'.nodes = s.nodes ∧ s'.cmdIds = s.cmdIds + 1 ∧
    s'.cores = s.cores.modify gr.core (fun x => { x with queue := x.queue ++ [c] }) ∧
    (∀ j, j ≠ a.g → s'.groups[j]? = s.groups[j]?) ∧ (∀ k, k ≠ c.team → s'.team? k = s.team? k) ∧
    (∀ x, c.cairn = some x → c.team.ctx < s.ctxs.length →
      (c.team.node, c.team.team, x) ∈ (s'.ctx c.team.ctx).cairns) ∧
    ∃ gr', s'.groups[a.g]? = some gr' ∧
      gr'.fetch = (if c.op = 21 ∨ c.op = 22 ∨ c.op = 23 then some (.engine c.id a.next a.set) else gr.fetch) ∧
      (∀ u, u ∉ a.set → gr'.thread u = gr.thread u) ∧
      (gr'.thread a.lead).copies = (gr.thread a.lead).copies + (if c.op < 8 then 1 else 0) ∧
      (gr'.thread a.lead).tileOps = (gr.thread a.lead).tileOps + (if c.op < 8 then 0 else 1) ∧
      ∀ u ∈ a.set, (gr'.thread u).regs = (gr.thread u).regs ∧
        (gr'.thread u).pc = if c.op = 21 ∨ c.op = 22 ∨ c.op = 23 then (gr.thread u).pc else a.next

/-- R337, Table 19.8. ACCALLOC of a placed team, with slots free for it and no other thread waiting: the bank is the
context's, the slots are the team's with every word 0, and w is the handle in every thread; past ACCSLOTS, or on a pair that
the team does not have, it traps ENG_SPEC. -/
def Obligations.AccallocGrants : Prop :=
  ∀ (s : State) (g : Nat) (set : List Nat) (gr : Group) (tm : Team) (f : BitVec 5) (w : BitVec 6) (node : Node),
    RunsOnce (.accalloc f w) [outF w] s g set gr → s.team? (gkeyTeam gr.key) = some tm →
    s.node? gr.key.ctx gr.key.node = some node →
    let n := f.toNat % 8
    let pair := f.toNat / 16
    ((node.rec'.accSlots < tm.heldSlots + n ∨ tm.cores.length < 2 * pair + 2) →
      exec (.accalloc f w) s = .next ((idle s).takeTrap g set (leadOf set) 0x10 12)) ∧
    ∀ l bank slot, tm.heldSlots + n ≤ node.rec'.accSlots → 2 * pair + 2 ≤ tm.cores.length → tm.saved = false → NoneWait s →
      (∀ t ∈ set, t < gr.threads.length ∧ (gr.thread t).pc = pcOf gr set) → tm.cores[2 * pair]? = some l →
      s.accPlace tm pair n = some (bank, slot) →
      let handle : Word := BitVec.ofNat 32 (pair * 512 + bank * 256 + n * 16 + slot)
      exec (.accalloc f w) s = .next (onThreads
        (((idle s).modCore l fun x => { x with banks := x.banks.set bank (some gr.key.ctx) }).modTeam (gkeyTeam gr.key) fun t =>
          { t with
            grants := t.grants ++ [⟨pair, bank, slot, n, false⟩]
            tiles := t.tiles ++ (List.range n).map fun i => ⟨pair, slot + i, List.replicate 32768 0⟩ }) g set
        fun _ th => (Thread.setReg { th with issued := s.cycle } w.toNat handle).goOn (nextPc (.accalloc f w) gr set))

/-! ## Shares -/

/-- R366, R368, R370, R373. A share lane operation in an open session of its width issues: its node is sealed and its entries
consumed, its group's fetch is held, and round 0 of its threads is sent; its failing checks trap in their order, and an entry on a page that is not present holds the fetch. -/
def Obligations.SharesIssue : Prop :=
  ∀ (i : Instr) (F : ShareForm) (s : State) (g : Nat) (set : List Nat) (gr : Group),
    shareForm i = some F → Runs i F.fields s g set gr → s.feature 4 = true → gr.key.kind = .lanes →
    let trap := fun code detail => (idle s).takeTrap g set (leadOf set) code detail
    (s.shareSession gr.key.ctx = none → exec i s = .next (trap 0x30 0)) ∧
    ∀ x party h, s.shareSession gr.key.ctx = some (x, party, h) →
      let cur := s.hamperCursor gr.key.ctx h F.op
      let got := s.takeEntries gr.key h F.bits F.op set.length
      (x.ring ≠ F.bits → exec i s = .next (trap 0x31 cur)) ∧
      (x.ring = F.bits → F.op = 29 → x.policy = [] → exec i s = .next (trap 0x33 cur)) ∧
      (x.ring = F.bits → (F.op = 29 → x.policy ≠ []) → (∀ y, got.1 = y → (∀ l, y ≠ .ok l) → exec i s = .next (stopped (idle s) g set (leadOf set) y)) ∧
        ∀ l, got.1 = .ok l → ∃ o : ShareOp,
          exec i s = .next (State.modGroup
            (let s1 := (idle s).consume gr.key g (leadOf set) h F.op set.length
             if F.op = 28 then s1.modTeam (gkeyTeam gr.key) fun t =>
               { t with tables := t.tables.modify F.table.toNat fun y => { y with bound := y.bound ++ [(gr.key, false)] } }
             else s1) g fun y => { y with fetch := some (.share o) }) ∧
          o.op = F.op ∧ o.session = x.id ∧ o.width = F.bits ∧ o.threads = set ∧ o.lbase = gr.l (leadOf set) ∧
          o.seq = (gr.thread (leadOf set)).shareSeq ∧ o.sub = 0 ∧ o.cursor = cur ∧ o.next = nextPc i gr set ∧
          o.sent = (set.mapIdx fun j t => F.first (gr.thread t) (got.2.getD j [])).flatten)

/-- R365, R374. Products of shares: over the parties, the results of SMUL sum to the product of the summed operands, where the
parties' MUL entries are shares of a triple. -/
def Obligations.SharesMultiply : Prop :=
  ∀ (k : Nat) (ps : List ((Nat × Nat) × (Nat × Nat × Nat))), ps ≠ [] →
    let sum := fun (f : (Nat × Nat) × (Nat × Nat × Nat) → Nat) => (ps.map f).sum
    let sent := ps.map fun p => mulSend k p.1 p.2
    let d := (sent.map fun l => l.getD 0 0).sum % 2 ^ k
    let e := (sent.map fun l => l.getD 1 0).sum % 2 ^ k
    sum (fun p => p.2.2.2) % 2 ^ k = (sum (fun p => p.2.1) * sum (fun p => p.2.2.1)) % 2 ^ k →
    (ps.mapIdx fun j p => mulOut k (j == 0) p.2 d e).sum % 2 ^ k = (sum (fun p => p.1.1) * sum (fun p => p.1.2)) % 2 ^ k

/-! ## Boot and management -/

/-- R11, R15 to R17, R20. Device reset starts boot ROM, completing a pending wipe; an image of stage 0 is accepted or the next
source is tried; dies, clusters and array columns come up in their steps; a stage that ends starts the next, with its effect,
and one that fails stops the boot. Stage 4 ends when every port with a peer has trained and agreed its first keys (log
entry 81, DESIGN CHOICE). A reset keeps an image that PLDM has delivered, and memory until stage 2 clears it, unless a wipe is pending
(log entry 47, DEDUCED). -/
def Obligations.BootAdvances : Prop :=
  (∀ s : State, ∃ t, exec .deviceReset s = .next t ∧ t.boot.status = .stage 0 ∧ t.groups = [] ∧ t.teams = [] ∧ t.nodes = [] ∧
    t.net = [] ∧ (∀ c ∈ t.ctxs, c.state = .free) ∧
    t.fuses = (if s.fuses.wipePending = true then s.fuses.burnDone else s.fuses) ∧
    t.boot.pending = (if s.fuses.wipePending = true then none else s.boot.pending) ∧
    t.mem = if s.fuses.wipePending = true then [] else s.mem) ∧
  (∀ (s : State) (rsaOk slhOk : Bool) (v : Nat), s.boot.status = .stage 0 → s.boot.pending = none →
    exec (.firmwareImageReceived rsaOk slhOk v) s = .next (s.modBoot fun b =>
      if rsaOk = true ∧ slhOk = true ∧ s.fuses.minVersion ≤ v then { b with status := .stage 1, image := some v }
      else if b.tried = 0 then { b with tried := 1 } else { b with tried := 2, status := .failed 0 })) ∧
  (∀ s : State, s.boot.status = .stage 1 → s.boot.diesUp < 8 → (s.boot.diesUp = 0 ∨ s.boot.dieAt + 2000000 ≤ s.time) →
    exec .diePowerUp s = .next (s.modBoot fun b => { b with diesUp := b.diesUp + 1, dieAt := s.time })) ∧
  (∀ (s : State) (die : Nat), s.boot.status = .stage 1 → die < s.boot.diesUp → s.boot.clustersUp.getD die 8 < 8 →
    (s.boot.clustersUp.getD die 8 = 0 ∨ s.boot.clusterAt.getD die 0 + 50000 ≤ s.time) →
    exec (.clusterPowerUp die) s = .next (s.modBoot fun b =>
      { b with clustersUp := b.clustersUp.set die (s.boot.clustersUp.getD die 8 + 1), clusterAt := b.clusterAt.set die s.time })) ∧
  (∀ (s : State) (n : Nat), s.boot.status = .stage n →
    exec (.bootStageComplete false) s = .next (s.modBoot fun b => { b with status := .failed n }) ∧
    (n = 1 → s.boot.diesUp = 8 → (∀ k ∈ s.boot.clustersUp, k = 8) →
      exec (.bootStageComplete true) s = .next (s.modBoot fun b => { b with status := .stage 2 })) ∧
    (n = 2 → exec (.bootStageComplete true) s = .next ({ s with mem := [] }.modBoot fun b => { b with status := .stage 3 })) ∧
    (n = 3 → exec (.bootStageComplete true) s = .next
      ({ s with teams := [], groups := [], cores := List.replicate 256 {} }.modBoot fun b => { b with status := .stage 4 })) ∧
    (n = 4 → exec (.bootStageComplete true) s = .next
      (if ∀ p ∈ s.ports.zipIdx, p.1.agreed = true ∨ Config.attached p.2 = none then s.modBoot fun b => { b with status := .stage 5 } else s)) ∧
    (n = 5 → exec (.bootStageComplete true) s = .next (s.modBoot fun b => { b with status := .ready }))) ∧
  ∀ (s : State) (cl : Nat), s.boot.ramping.getD cl false = true → s.boot.columnAt.getD cl 0 + 175 ≤ s.cycle →
    exec (.columnRampStep cl) s = .next (s.modBoot fun b =>
      let n := s.boot.columns.getD cl 128
      { b with
        columns := b.columns.set cl (min 128 (n + 16))
        columnAt := b.columnAt.set cl s.cycle
        ramping := b.ramping.set cl (decide (n + 16 < 128)) })

/-- R14, R16, R18, R19, R198. An authorised lifecycle transition burns the new state, wipes the device, changes its identity and
restarts the boot from READY (log entry 82); one that is not authorised changes nothing. The management port answers; a bank whose corrected errors of the last hour
of device time exceed the threshold is spared. -/
def Obligations.ManagementActs : Prop :=
  (∀ (s : State) (target : BitVec 2) (signer : Nat) (sigOk : Bool) (key : BitVec 384),
    let f := s.fuses.burnState (lifecycleOf target.toNat) key
    (s.boot.status = .ready → sigOk = true → transitionSigner s.fuses.lifecycle (lifecycleOf target.toNat) = some signer →
      ∃ t, exec (.lifecycleTransition target signer sigOk key) s = .next t ∧ t.fuses.lifecycle = lifecycleOf target.toNat ∧
        t.fuses.wipeSet = f.wipeSet ∧ t.fuses.operatorKey = f.operatorKey ∧ t.fuses.wipeDone = f.wipeDone.set ((lifecycleOf target.toNat).code - 1) true ∧ t.mem = [] ∧
        t.boot.status = .stage 0 ∧ t.boot.pending = none ∧ t.fuses.identity ≠ s.fuses.identity ∧ t.groups = [] ∧
        ∀ c ∈ t.ctxs, c.state = .free) ∧
    ((sigOk = false ∨ transitionSigner s.fuses.lifecycle (lifecycleOf target.toNat) ≠ some signer) →
      exec (.lifecycleTransition target signer sigOk key) s = .next s)) ∧
  (∀ s : State, s.boot.status ≠ .off →
    exec .mctpStatusRequest s = .next (s.modBoot fun b => { b with replies := MgmtReply.status (match s.boot.status with
      | .failed n => some n
      | _ => none) :: b.replies })) ∧
  (∀ (s : State) (r q : Bool) (v : Nat), s.boot.status ≠ .off →
    exec (.pldmFirmwareUpdate r q v) s = .next (s.modBoot fun b =>
      { b with pending := some (r, q, v), replies := MgmtReply.updateTaken :: b.replies })) ∧
  (∀ s : State, s.boot.status ≠ .off → (∀ n, s.boot.status ≠ .failed n) →
    exec .pldmMonitoring s = .next (s.modBoot fun b =>
      { b with replies := MgmtReply.monitoring (s.boot.corrected + s.fabric.corrected) :: b.replies }) ∧
    ∀ slot, exec (.spdmDeviceAuthentication slot) s = .next (s.modBoot fun b =>
      { b with replies := MgmtReply.certificates slot s.fuses.identity :: b.replies })) ∧
  ∀ (s : State) (stack bank errors : Nat),
    let hour := (⟨stack, bank, s.time, errors⟩ :: s.boot.eccs).filter fun (e : BankErrors) => decide (s.time ≤ e.time + 3600000000000)
    let count := ((hour.filter fun (e : BankErrors) => e.stack = stack ∧ e.bank = bank).map BankErrors.count).sum
    ∃ t, exec (.bankSparing stack bank errors) s = .next t ∧ t.boot.corrected = s.boot.corrected + errors ∧ t.boot.eccs = hour ∧
      (∀ x, x ∈ t.boot.spared ↔ x ∈ s.boot.spared ∨ (x = (stack, bank) ∧ s.boot.eccThreshold < count)) ∧
      { t with boot := s.boot } = s

/-! ## The loop fabric -/

/-- R27, R28, R33, R38, Table 2.3. A station with a flit ready injects it into a usable slot that passes it: the flit of its packet,
with the stream's next tag where the packet starts; where the slot is not usable it notes since when it waits, and after a lap
it reserves the slot; its own reserved slot that passes and takes no flit is reserved no longer, because nothing is ready or because
a packet may not start yet (R38). A station has one port for its loops (log entry 83, DEDUCED). -/
def Obligations.FlitsInject : Prop :=
  (∀ (s : State) (spine : Bool) (die st loop c : Nat) (y : Sending) (rest : List Sending),
    let q := s.fabric.port die st
    let x := s.slotAt spine die st loop
    let k := streamOf die st y.packet
    seated spine die st loop = true → q.nextOn spine loop = some c → q.queueOf c = y :: rest → x.flit = none →
    (x.reserved = none ∨ x.reserved = some (die, st)) → (y.sent = 0 → s.fabric.mayStart y.spine k s.fcycle = true) →
    let tag := if y.sent = 0 then (s.fabric.tagOf k).next else y.tag
    let last := decide (y.sent + 1 = y.packet.body.length)
    ∃ t fl, exec (.flitInject spine die st loop []) s = .next t ∧ t.slotAt spine die st loop = { x with flit := some fl, reserved := none } ∧
      fl.cls = y.packet.cls ∧ fl.first = decide (y.sent = 0) ∧ fl.last = last ∧ fl.index = BitVec.ofNat 4 y.sent ∧ fl.tag = tag ∧
      fl.payload = y.packet.body.getD y.sent 0 ∧ fl.part = BitVec.ofNat 4 y.packet.part ∧
      fl.gen = s.fabric.gens.getD y.packet.part 0 ∧ fl.dstDie = BitVec.ofNat 3 y.packet.dstDie ∧ fl.dstSt = BitVec.ofNat 6 y.packet.dstSt ∧
      (t.fabric.tagOf k).next = (s.fabric.tagOf k).next + (if y.sent = 0 then 1 else 0) ∧
      (t.fabric.port die st).queueOf c = (if last = true then rest else { y with tag := tag, sent := y.sent + 1 } :: rest) ∧
      { t with fabric := s.fabric } = s) ∧
  (∀ (s : State) (spine : Bool) (die st loop : Nat),
    let q := s.fabric.port die st
    let x := s.slotAt spine die st loop
    seated spine die st loop = true →
    (∀ c, q.nextOn spine loop = some c → x.usable die st = false → exec (.flitInject spine die st loop []) s =
      .next (s.modFabric fun f => f.putPort (q.waitFor spine loop s.fcycle))) ∧
    (∀ c y rest, q.nextOn spine loop = some c → q.queueOf c = y :: rest → x.usable die st = true → y.sent = 0 →
      s.fabric.mayStart y.spine (streamOf die st y.packet) s.fcycle = false → exec (.flitInject spine die st loop []) s =
        .next (s.modFabric fun f => (f.putPort { q with waiting := none }).unreserve { q with waiting := none } x)) ∧
    (q.nextOn spine loop = none → x.flit = none → x.reserved = some (die, st) → exec (.flitInject spine die st loop []) s =
      .next (s.modFabric fun f =>
        (f.putPort { q with reserving := q.reserving.erase (x.spine, x.loop) }).putSlot { x with reserved := none }))) ∧
  ∀ (s : State) (spine : Bool) (die st loop c w : Nat),
    let q := s.fabric.port die st
    let x := s.slotAt spine die st loop
    seated spine die st loop = true → q.nextOn spine loop = some c → q.waiting = some (spine, loop, w) → w + lap spine ≤ s.fcycle →
    (spine, loop) ∉ q.reserving → x.reserved = none →
    exec (.slotReserve spine die st loop) s = .next (s.modFabric fun f =>
      (f.putPort { q with reserving := (spine, loop) :: q.reserving }).putSlot { x with reserved := some (die, st) })

/-- R27, R30, R37, R41, R193, Table 2.6. A flit at its destination, once in a pass: one of an old generation or of an earlier
packet is discarded, one of a later packet is refused, one of the expected packet is held, or, with the packet whole, delivered
in order to its unit. A station corrects, drops or reports errors, and an uncorrectable one is a machine check of the work that
the flit carries; a stream that stalls for 2^16 f-cycles drops its packet, and an idle one for which a flit passes that has stood ahead for as long jumps
to its tag. An error is reported alone where the flit carries no work, and else stops the thread that sent it (log entry 86, DEDUCED),
its source 4 as detail (log entry 38, DEDUCED). -/
def Obligations.FlitsArrive : Prop :=
  (∀ (s : State) (spine : Bool) (die st loop : Nat) (full busy : Bool) (fl : Flit),
    let x := s.slotAt spine die st loop
    let c := s.fabric.context (flitStream fl)
    let gone := (s.modFabric fun f => f.putSlot { x with flit := none })
    let now := exec (.flitAtDestination spine die st loop full busy) s
    let stale := now = .next (gone.modFabric fun f => { f with stale := f.stale + 1 })
    x.flit = some fl → seated spine die st loop = true → fl.dstDie.toNat = die → fl.dstSt.toNat = st →
    (fl.refusedAt = some s.fcycle → now = .next s) ∧
    (fl.refusedAt ≠ some s.fcycle →
      (fl.gen ≠ s.fabric.gens.getD fl.part.toNat 0 → (s.part fl.part.toNat).ownsEnd (flitStream fl) = true → stale) ∧
      (fl.gen = s.fabric.gens.getD fl.part.toNat 0 →
        (tagStand fl.tag c.expected = 2 → stale) ∧
        (tagStand fl.tag c.expected = 1 → now = .next (s.modFabric fun f => f.putSlot { x with
          flit := some { fl with aheadSince := some (fl.aheadSince.getD s.fcycle), refusals := fl.refusals + 1,
                                 refusedAt := some s.fcycle } })) ∧
        (fl.tag = c.expected → fl.cls ≠ 2 → refuses fl full busy = true → now = .next (s.modFabric fun f => f.putSlot { x with
          flit := some { fl with refusals := fl.refusals + 1, refusedAt := some s.fcycle } })) ∧
        (fl.tag = c.expected → fl.cls ≠ 2 → refuses fl full busy = false →
          (wholePacket (c.held ++ [fl]) = false → now = .next (gone.modFabric fun f =>
            f.putContext { c with held := c.held ++ [fl], lastAt := s.fcycle })) ∧
          (wholePacket (c.held ++ [fl]) = true → st < 54 → now = .next (gone.modFabric fun f =>
            let g := f.putContext c.advance
            { g with delivered := ⟨die, st, fl.cls, fl.part.toNat, inOrder (c.held ++ [fl])⟩ :: g.delivered })))))) ∧
  (∀ (s : State) (spine : Bool) (die st loop : Nat) (fl : Flit),
    let x := s.slotAt spine die st loop
    let gone := (s.modFabric fun f => f.putSlot { x with flit := none })
    x.flit = some fl → seated spine die st loop = true →
    exec (.flitPassStation spine die st loop .none) s = .next s ∧
    exec (.flitPassStation spine die st loop .corrected) s = .next (s.modFabric fun f => { f with corrected := f.corrected + 1 }) ∧
    (fl.gen = s.fabric.gens.getD fl.part.toNat 0 → exec (.flitPassStation spine die st loop .payload) s =
      .next ((gone.modFabric fun f => f.abort (flitStream fl) fl.tag).fabricError fl.part.toNat fl.owner)) ∧
    exec (.flitPassStation spine die st loop .sideband) s = .next (gone.modFabric fun f => { f with reports := .dieFault die :: f.reports }) ∧
    (fl.gen ≠ s.fabric.gens.getD fl.part.toNat 0 → exec (.flitPassStation spine die st loop .payload) s =
      .next ((s.discardOld x fl).fabricError fl.part.toNat none)) ∧
    (x.reserved = none → exec (.flitPassStation spine die st loop .header) s = .next (gone.modFabric fun f =>
      { f with headerLost := f.headerLost + 1, reports := .dieFault die :: f.reports }))) ∧
  (∀ (s : State) (spine : Bool) (die st loop : Nat),
    let x := s.slotAt spine die st loop
    x.flit = none → x.reserved = none → seated spine die st loop = true →
    exec (.flitPassStation spine die st loop .header) s =
      .next (s.modFabric fun f => { f.putSlot x with headerLost := f.headerLost + 1 })) ∧
  (∀ (s : State) (part : Nat),
    let told := s.modFabric fun f => { f with reports := .uncorrectable part :: f.reports }
    s.fabricError part none = told ∧
    ∀ o g, s.groupIdx? o.group = some g → s.fabricError part (some o) = told.machineCheck g o.thread 4) ∧
  (∀ (s : State) (die st srcDie srcSt : Nat) (cls : BitVec 2) (fl : Flit) (rest : List Flit),
    let c := s.fabric.context ⟨cls, srcDie, srcSt, die, st⟩
    c.held = fl :: rest → c.lastAt + 65536 ≤ s.fcycle →
    exec (.reassemblyIdleTimeout die st srcDie srcSt ⟨cls, none⟩) s =
      .next ((s.modFabric fun f => { f.putContext c.advance with dropped := f.dropped + 1 }).fabricError fl.part.toNat fl.owner)) ∧
  (∀ c : Reassembly, c.aborted = [] → c.advance = { c with expected := c.expected + 1, held := [] }) ∧
  ∀ (s : State) (die st srcDie srcSt : Nat) (cls : BitVec 2),
    let k : StreamKey := ⟨cls, srcDie, srcSt, die, st⟩
    let c := s.fabric.context k
    let ahead := fun (x : Slot) (fl : Flit) (tag : BitVec 8) =>
      x ∈ s.fabric.slots ∧ x.flit = some fl ∧ seated x.spine die st x.loop = true ∧
      x.isAt x.spine die x.loop (slotIndex x.spine (position x.spine die st x.loop) s.fcycle) = true ∧
      fl.gen = s.fabric.gens.getD fl.part.toNat 0 ∧ aheadTag k c.expected fl = some tag ∧
      ∃ since, fl.aheadSince = some since ∧ since + 65536 ≤ s.fcycle
    let now := exec (.reassemblyAheadTimeout die st srcDie srcSt cls) s
    ((c.held ≠ [] ∨ ∀ x fl tag, ¬ ahead x fl tag) → now = .next s) ∧
    (c.held = [] → ∀ x fl tag, ahead x fl tag → ∃ x' fl' tag', ahead x' fl' tag' ∧
      now = .next (((s.modFabric fun f => { f.putContext (c.jump tag') with dropped := f.dropped + 1 }).atDestination
        x' die st fl' false false).fabricError fl'.part.toNat fl'.owner))

/-! ## Links -/

/-- R46, R50, R52, R53, R55, R58. The frame of a frame time: under an ACTIVE key below its switch point, the next flit of the
next class takes the next sequence number, is sealed under the key's counter and held for replay; with nothing to send, a NULL
flit goes. A sequenced flit that authenticates with the expected number is accepted; one with another number is dropped, the
first with a NAK. -/
def Obligations.LinkFlits : Prop :=
  (∀ (s : State) (n : Nat) (i : Bool) (c : Nat) (x : LinkPacket) (rest : List LinkPacket), n < s.ports.length →
    let p := s.port n
    let k := p.tx.getD (slotNum i) {}
    let tag := if x.sent = 0 then p.tags.getD c 0 else x.tag
    let last := decide (x.sent + 1 = x.bodies.length)
    let mark := (if x.sent = 0 then 512 else 0) + (if last = true then 256 else 0) + tag.toNat
    let words := if last = true then x.words else 29
    let body := x.bodies.getD x.sent 0
    let h := linkHeader c mark p.txSeq.toNat i true words (some (p.rxSeq.toNat % 16384)) false
    p.up = true → activeSlot p.tx = some i → k.counter < p.switchAt → p.unseq = [] → p.resend = none → p.replay.length < 64 →
    p.tx.length = 2 → p.nextClass = some c → p.queueOf c = x :: rest →
    ∃ t, exec (.linkFrameSend n) s = .next t ∧ { t with ports := s.ports } = s ∧ (∀ j, j ≠ n → t.port j = s.port j) ∧
      (t.port n).wire = some ⟨h, (gcmSeal k.key k.iv h body).1, (gcmSeal k.key k.iv h body).2⟩ ∧
      (t.port n).txSeq = p.txSeq + 1 ∧ ((t.port n).tx.getD (slotNum i) {}).counter = k.counter + 1 ∧
      (t.port n).replay = p.replay ++ [⟨p.txSeq, linkHeader c mark p.txSeq.toNat false true words none false, body, none, x.owner⟩] ∧
      (t.port n).queueOf c = (if last = true then rest else { x with sent := x.sent + 1, tag := tag } :: rest)) ∧
  (∀ (s : State) (n : Nat) (i : Bool), let p := s.port n
    let k := p.tx.getD (slotNum i) {}
    let h := linkHeader 3 0 p.txSeq.toNat i false 0 (some (p.rxSeq.toNat % 16384)) false
    p.up = true → activeSlot p.tx = some i → k.counter < p.switchAt → p.unseq = [] → p.resend = none → p.nextClass = none →
    exec (.linkFrameSend n) s = .next (s.modPort n fun p => { p with
      wire := some ⟨h, (gcmSeal k.key k.iv h 0).1, (gcmSeal k.key k.iv h 0).2⟩
      tx := p.tx.set (slotNum i) { k with counter := k.counter + 1 } })) ∧
  (∀ (s : State) (n : Nat) (f : Frame) (body : BitVec 1856), let p := s.port n
    let q := p.countFrame f
    let c := (hdrCls f.hdr).toNat
    let r := p.reasm.getD c {}
    p.up = true → p.authenticate f = .flit body → hdrAck f.hdr = none → hdrReserved f.hdr = 0 → hdrSq f.hdr = true → c < 2 →
    (hdrSeq f.hdr = p.rxSeq → hdrTag f.hdr = r.expected → hdrLast f.hdr = false →
      exec (.linkFlitReceive n f true) s = .next (s.modPort n fun _ => Port.flows { q with
        rxSeq := p.rxSeq + 1
        dropping := false
        reasm := p.reasm.set c { r with held := r.held ++ [body], open' := true, lastAt := s.fcycle } })) ∧
    (hdrSeq f.hdr ≠ p.rxSeq → p.dropping = false → exec (.linkFlitReceive n f true) s = .next (s.modPort n fun _ =>
      { q with unseq := p.unseq ++ [(2, p.rxSeq)], nakAt := s.fcycle, dropping := true })))

/-- R49 to R54. Key slots: a key derived from the session's secret for an epoch that the session has not used in the direction
is loaded into an EMPTY slot, and no other key is; at the switch point KEYSW is sent and the new slot is ACTIVE, or
KEYLATE is set; from limit - 1 on hold frames are sent, and 10 ms after KEYLATE the link goes down; an accepted KEYSW with the
slot's epoch makes it ACTIVE, one with another takes the link down; SPDM gives slot 0 of both directions their keys, which differ by
the direction. A KEYSW that names an EMPTY slot takes the link down (log entry 92, DESIGN CHOICE); a switch clears KEYLATE (log entry
49, DEDUCED); and a session with the secret of an earlier one of the port is refused (log entry 50, DEDUCED). -/
def Obligations.LinkKeys : Prop :=
  (∀ (s : State) (n : Nat) (slot : Bool) (epoch : Word) (z : BitVec 384) (peer : Peer), let p := s.port n
    let held := fun (s : State) => s.modBoot fun b => { b with keysHeld := true }
    let key := fun rx => linkKey z (keyContext s n peer rx epoch)
    let salt := fun rx => linkSalt z (keyContext s n peer rx epoch)
    let load := fun rx l => loadSlot slot (key rx) epoch (salt rx) l
    p.up = true → s.boot.status.live = true → p.secret = some z → p.peer = some peer →
    ((true, epoch) ∉ p.epochs → (p.rx.getD (slotNum slot) {}).state = .empty → exec (.keyLoad n true slot (key true) epoch (salt true)) s =
      .next (held (s.modPort n fun p => { p with epochs := (true, epoch) :: p.epochs, rx := load true p.rx }))) ∧
    ((false, epoch) ∉ p.epochs → (p.tx.getD (slotNum slot) {}).state = .empty → p.keyswSeq = none →
      exec (.keyLoad n false slot (key false) epoch (salt false)) s = .next (held (s.modPort n fun p =>
        { p with epochs := (false, epoch) :: p.epochs, tx := load false p.tx, keyLateAt := none }))) ∧
    (∀ rx k v, (rx, epoch) ∈ p.epochs ∨ k ≠ key rx ∨ v ≠ salt rx → exec (.keyLoad n rx slot k epoch v) s = .next s) ∧
    ∀ (key : BitVec 256) (salt : Word) (l : List KeySlot), slotNum slot < l.length → (l.getD (slotNum slot) {}).state = .empty →
      (loadSlot slot key epoch salt l).getD (slotNum slot) {} = ⟨.loaded, key, epoch, salt, 0⟩) ∧
  (∀ (s : State) (n : Nat) (i : Bool), n < s.ports.length → let p := s.port n
    p.up = true → p.tx.length = 2 → activeSlot p.tx = some i → p.switchAt ≤ (p.tx.getD (slotNum i) {}).counter → p.replay.length < 64 →
    ((p.tx.getD (slotNum (!i)) {}).state = .loaded → ∃ t, exec (.keySwitchPoint n) s = .next t ∧
      ((t.port n).tx.getD (slotNum (!i)) {}).state = .active ∧ ((t.port n).tx.getD (slotNum i) {}).state = .empty ∧
      (t.port n).keyswSeq = some p.txSeq ∧ (t.port n).txSeq = p.txSeq + 1 ∧ (t.port n).keyLate = false ∧
      { t with ports := s.ports } = s) ∧
    ((p.tx.getD (slotNum (!i)) {}).state ≠ .loaded → p.keyLate = false →
      exec (.keySwitchPoint n) s = .next (s.modPort n fun p => { p with keyLate := true, keyLateAt := some s.time }) ∧
      (p.limit - 1 ≤ (p.tx.getD (slotNum i) {}).counter → exec (.keyHoldPoint n) s =
        .next (s.modPort n fun p => { p with keyLate := true, keyLateAt := some s.time, wire := some holdFrame, holding := true })))) ∧
  (∀ (s : State) (n t : Nat), (s.port n).keyLateAt = some t → t + 10000000 ≤ s.time →
    exec (.keyLoadTimeout n) s = .next (s.linkDown n)) ∧
  (∀ (s : State) (n : Nat) (slot : Bool) (epoch : Word), (s.port n).up = true → let k := (s.port n).rx.getD (slotNum slot) {}
    exec (.keyswReceive n slot epoch) s = .next (if k.state ≠ .empty ∧ k.epoch = epoch then
      s.modPort n fun p => { p with rx := switchSlots slot p.rx, rxSlot := slot } else s.linkDown n)) ∧
  ∀ (s : State) (n : Nat) (peer : Peer) (secret : BitVec 384) (epoch : Word), n < s.ports.length →
    (s.port n).up = true → (s.port n).tx = [{}, {}] → (s.port n).rx = [{}, {}] → s.boot.status.live = true →
    let agree := fun (ended : SpdmEnd) => exec (.linkKeyAgreement n ended peer secret epoch) s
    let key := fun (ends : List Nat) (way : Nat) => linkKey secret (ends ++ [way, epoch.toNat])
    let gives := fun (t : State) (ends : List Nat) (way back : Nat) =>
      (t.port n).peer = some peer ∧ ((t.port n).tx.getD 0 {}).state = .loaded ∧ ((t.port n).rx.getD 0 {}).state = .loaded ∧
      ((t.port n).tx.getD 0 {}).epoch = epoch ∧ ((t.port n).tx.getD 0 {}).counter = 0 ∧
      ((t.port n).tx.getD 0 {}).key = key ends way ∧ ((t.port n).rx.getD 0 {}).key = key ends back ∧
      { t with ports := s.ports, boot := s.boot, parts := s.parts } = s
    agree .failed = .next s ∧ (secret ∈ (s.port n).secrets → ∀ ended, agree ended = .next s) ∧
    (secret ∉ (s.port n).secrets →
      (∃ t, agree .requester = .next t ∧ gives t [s.boot.devId.toNat, peer.dev.toNat, n, peer.port.toNat] 0 1) ∧
      ∃ t, agree .responder = .next t ∧ gives t [peer.dev.toNat, s.boot.devId.toNat, peer.port.toNat, n] 1 0)

/-- R44, R55, R56, R58 to R60, R63. A link comes up with its numbers at 0, and down with its keys, buffers and half-sent packets
lost, and the commands whose packets may be lost told so (R64); NAK and flow flits act at the sender and are sent by the receiver; ABORT drops the packet it names, as 2^16 f-cycles without a
flit do; the system cores
write the identity, and a route once its ports are quiet. -/
def Obligations.LinksRun : Prop :=
  (∀ (s : State) (n : Nat), (s.port n).up = false → exec (.linkUp n) s = .next (s.modPort n fun p =>
    { p with up := true, txSeq := 0, rxSeq := 0, tags := [0, 0, 0], reasm := [{}, {}, {}], nakAt := s.fcycle, flowAt := s.time })) ∧
  (∀ (i : Instr) (s : State) (n : Nat), i = .linkDownCommand n ∨ i = .frameLockLoss n → n < s.ports.length → (s.port n).up = true →
    ∃ t, exec i s = .next t ∧ (t.port n).up = false ∧ (t.port n).tx = [{}, {}] ∧ (t.port n).rx = [{}, {}] ∧ (t.port n).replay = [] ∧
      (t.port n).control = [] ∧ (t.port n).joining = [] ∧ (t.port n).partial' = none ∧ (t.port n).peer = none ∧
      (∀ x, x ∈ (t.port n).bulk ∨ x ∈ (t.port n).urgent → x.sent = 0) ∧
      (t.port n).downs.toNat = min 255 ((s.port n).downs.toNat + 1) ∧ (∀ j, j ≠ n → t.port j = s.port j) ∧
      t.cores = (s.tellOwners (s.port n).unsure).cores ∧ t.teams = (s.tellOwners (s.port n).unsure).teams ∧
      { t with ports := s.ports, ctxs := s.ctxs, sessions := s.sessions, cores := s.cores, teams := s.teams } = s) ∧
  (∀ (s : State) (n : Nat) (e : BitVec 24) (x : Held) (rest : List Held), n < s.ports.length → (s.port n).up = true → (s.port n).naks = none → (s.port n).restart = none →
    (s.port n).replay = x :: rest → x.seq = e →
    exec (.nakReceive n e) s = .next (s.modPort n fun p => { p with naks := some (e, 1), resend := some 0, restart := some (e, s.fcycle) })) ∧
  (∀ (s : State) (n : Nat), (s.port n).up = true → (s.port n).dropping = true → (s.port n).nakAt + 2048 ≤ s.fcycle →
    exec (.nakResendTimeout n) s = .next (s.modPort n fun p => { p with unseq := p.unseq ++ [(2, p.rxSeq)], nakAt := s.fcycle, dropping := true })) ∧
  (∀ (s : State) (n : Nat) (cls : BitVec 2), cls.toNat < 2 →
    exec (.pauseReceive n cls) s = .next (s.modPort n fun p => { p with paused := p.paused.set cls.toNat true }) ∧
    exec (.resumeReceive n cls) s = .next (s.modPort n fun p => { p with paused := p.paused.set cls.toNat false })) ∧
  (∀ (s : State) (n : Nat), (s.port n).up = true → (s.port n).flowAt + 1000 ≤ s.time →
    exec (.flowStateRepeat n) s = .next (s.modPort n fun p => { p with
      unseq := p.unseq ++ [(if p.pausing.getD 0 false = true then 3 else 4, 0), (if p.pausing.getD 1 false = true then 3 else 4, 1)]
      flowAt := s.time })) ∧
  (∀ (s : State) (n : Nat) (cls : BitVec 2) (tag : BitVec 8), (s.port n).up = true → cls.toNat < 3 →
    let c := (s.port n).reasm.getD cls.toNat {}
    exec (.linkAbortReceive n cls tag) s = .next (s.modPort n fun p =>
      if c.expected = tag then
        Port.flows { p with
          reasm := p.reasm.set cls.toNat { c with expected := c.expected + 1, held := [], open' := false }, dropped := p.dropped + 1
          partial' := if cls = 1 then none else p.partial' }
      else { p with dropped := p.dropped + 1 })) ∧
  (∀ (s : State) (n m die st srcDie srcSt : Nat) (cls : BitVec 2), let c := (s.port n).reasm.getD cls.toNat {}
    c.open' = true → c.lastAt + 65536 ≤ s.fcycle → s.portOwner n = some m →
    exec (.reassemblyIdleTimeout die st srcDie srcSt ⟨cls, some n⟩) s = .next ((s.modPort n fun p => Port.flows { p with
      reasm := p.reasm.set cls.toNat { c with expected := c.expected + 1, held := [], open' := false }
      dropped := p.dropped + 1
      partial' := if cls = 1 then none else p.partial' }).fabricError m none)) ∧
  (∀ (s : State) (n : Nat) (dev : BitVec 16) (entry : BitVec 5), s.boot.status.live = true →
    (∀ r, r = (s.port n).route dev ∨ r = entry.toNat → 24 ≤ r ∨ (s.port r).quiet = true) → n < s.ports.length →
    ∃ t, exec (.routeTableWrite n dev entry) s = .next t ∧ (t.port n).route dev = entry.toNat ∧
      (∀ other, other ≠ dev → (t.port n).route other = (s.port n).route other) ∧ { t with ports := s.ports } = s) ∧
  ∀ (s : State) (id : BitVec 16), exec (.deviceIdentityWrite id) s =
    .next (if id = 0xFFFF ∨ s.boot.status.live = false then s else s.modBoot fun b => { b with devId := id })

/-! ## The host, partitions and contexts -/

/-- R53, R66 to R69, R71. Writes of the host: a submit word moves a tail, QBASE and QCFG set up a queue, and what breaks
their terms is discarded and counted, as is a write to any other offset of a window; another stream's write is an Unsupported
Request; FEATACK is taken until the set is latched, LNK_KEYLIM and the sparing threshold are stored; TDISP locks, starts and stops a
function, and a change of its configuration in RUN is an ERROR. The codes 0, 1 and 2 of TDISP's requests are log entry 51 (PRESUMED). -/
def Obligations.HostWrites : Prop :=
  (∀ (s : State) (part ctx stream : Nat) (v : DWord), Writable s part ctx stream →
    let q := (s.ctx ctx).queue (v.toNat % 32)
    let tail := v.extractLsb' 32 32
    let ok := v.extractLsb' 5 27 = 0 ∧ q.en = true ∧ q.src = false ∧ (tail - q.head).toNat ≤ 2 ^ (q.logSize.toNat + 4) ∧
      (tail - q.tail).toNat < 2 ^ 31
    (ok → exec (.ctxSubmit part ctx stream v) s = .next (s.modCtx ctx fun c => c.modQueue (v.toNat % 32) fun x => { x with tail := tail })) ∧
    (¬ ok → exec (.ctxSubmit part ctx stream v) s = .next (s.modCtx ctx fun c =>
      { c with badSubmit := if c.badSubmit = 0xFFFFFFFF then c.badSubmit else c.badSubmit + 1 }))) ∧
  (∀ (s : State) (part ctx stream off : Nat) (v : DWord), let write := fun (o : Nat) => exec (.registerWrite (.window part ctx stream) o v) s
    (Writable s part ctx stream → write 0 = exec (.ctxSubmit part ctx stream v) s ∧
      (∀ q, q < 32 → write (0x100 + 16 * q) = exec (.qbaseWrite part ctx q stream v) s ∧
        write (0x108 + 16 * q) = exec (.qcfgWrite part ctx q stream v) s) ∧
      (off ≠ 0 → (∀ q, q < 32 → off ≠ 0x100 + 16 * q ∧ off ≠ 0x108 + 16 * q) → write off = .next (badSubmit s part)) ∧
      ∀ q, 32 ≤ q → exec (.qbaseWrite part ctx q stream v) s = .next (badSubmit s part) ∧
        exec (.qcfgWrite part ctx q stream v) s = .next (badSubmit s part)) ∧
    (s.boot.status = .ready → (s.part part).state ≠ .free → (s.part part).vf = .run → (s.part part).stream ≠ stream →
      write off = .next (s.modPart part fun p => { p with unsupported := p.unsupported + 1 }))) ∧
  (∀ (s : State) (part ctx q stream : Nat) (v : DWord), q < 32 → Writable s part ctx stream →
    let x := (s.ctx ctx).queue q
    let size := v.extractLsb' 16 4
    let moved := decide (size ≠ x.logSize ∨ v.getLsbD 1 ≠ x.src)
    exec (.qbaseWrite part ctx q stream v) s = .next (if x.en = true ∨ v.toNat % 128 ≠ 0 then badSubmit s part
      else s.modCtx ctx fun c => c.modQueue q fun x => { x with base := v, head := 0, tail := 0 }) ∧
    exec (.qcfgWrite part ctx q stream v) s = .next (if x.en = true ∧ moved = true then badSubmit s part
      else s.modCtx ctx fun c => c.modQueue q fun x => { x with
        tickets := v.extractLsb' 20 12, logSize := size, src := v.getLsbD 1, en := v.getLsbD 0
        head := if moved = true then 0 else x.head, tail := if moved = true then 0 else x.tail })) ∧
  (∀ (s : State) (i : Nat) (v : DWord), exec (.featackWrite i v) s =
    .next (if s.boot.status = .ready ∧ s.accepted = none then { s with featAck := s.featAck.set i v } else s)) ∧
  (∀ (s : State) (i : Nat) (v : DWord), s.boot.status = .ready →
    exec (.registerWrite .keyLim i v) s = .next (s.modPort i fun p => { p with keyLim := v &&& 0xFFFFFFFFFFFF }) ∧
    (1 ≤ v.toNat → v.toNat ≤ 65535 → exec (.registerWrite .eccThreshold i v) s = .next (s.modBoot fun b => { b with eccThreshold := v.toNat }))) ∧
  ∀ (s : State) (part stream : Nat), s.boot.status = .ready → let vf := (s.part part).vf
    (vf = .unlocked → exec (.tdispRequest part 0 stream) s = .next (s.modPart part fun p => { p with vf := .locked, stream := stream })) ∧
    (vf = .locked → exec (.tdispRequest part 1 stream) s = .next (s.modPart part fun p => { p with vf := .run })) ∧
    (vf = .locked ∨ vf = .run → exec (.tdispRequest part 2 stream) s = .next (s.modPart part fun p => { p with vf := .unlocked })) ∧
    (vf = .run → exec (.vfConfigChange part) s = .next (s.modPart part fun p => { p with vf := .error })) ∧
    (vf ≠ .run → exec (.vfConfigChange part) s = .next s)

/-- R65, R66, R134, R148, R195, R368. BAR2 reads and writes the partition's ranges where its function serves them; a read leaves
memory, and a write changes no other byte but STATUS words of nodes; a write that meets a registration or a hamper in some byte is
suppressed whole and counted once (log entry 52, DESIGN CHOICE). BAR2 and the windows of a FREE function read zeros, also where it is in
ERROR (log entry 93, DESIGN CHOICE), those of one in ERROR ones, and an access of another stream in RUN is an Unsupported Request, and
counted. -/
def Obligations.HostMemory : Prop :=
  (∀ (s : State) (part stream off len : Nat) (poisoned : Bool) (ps : List Nat), Serves s part stream →
    (s.part part).barRun off len = some ps → (∀ n ∈ s.nodes, n.staged = []) →
    exec (.hostBar2Read part stream off len poisoned) s =
      .next { s with readData := ps.map (cellsGet s.mem), readPoisoned := poisoned }) ∧
  (∀ (s : State) (part stream off : Nat) (bytes : List Byte) (ps : List Nat), Serves s part stream →
    (s.part part).barRun off bytes.length = some ps →
    let blocked := ps.any fun p => s.registered part p || s.hampered part p
    (blocked = true → exec (.hostBar2Write part stream off bytes) s = .next (badSubmit s part)) ∧
    (blocked = false → s.memWf = true → ∃ t, exec (.hostBar2Write part stream off bytes) s = .next t ∧
      t.nodes.map plainNode = s.nodes.map plainNode ∧ { t with mem := s.mem, nodes := s.nodes } = s ∧
      (∀ a, a ∉ ps → OutsideStatus s a → cellsGet t.mem a = cellsGet s.mem a) ∧
      (ps.Nodup → ∀ (i p : Nat) (b : Byte), ps[i]? = some p → bytes[i]? = some b → cellsGet t.mem p = b))) ∧
  ∀ (s : State) (part stream off len : Nat) (bytes : List Byte), s.boot.status = .ready →
    ((s.part part).state = .free →
      exec (.hostBar2Read part stream off len false) s = .next { s with readData := List.replicate len 0, readPoisoned := false } ∧
      exec (.hostBar2Write part stream off bytes) s = .next s) ∧
    ((s.part part).state ≠ .free → (s.part part).vf = .error →
      exec (.hostBar2Read part stream off len false) s = .next { s with readData := List.replicate len 0xFF, readPoisoned := false } ∧
      exec (.hostBar2Write part stream off bytes) s = .next s) ∧
    ((s.part part).state ≠ .free → (s.part part).vf = .run → (s.part part).stream ≠ stream →
      let counted := s.modPart part fun p => { p with unsupported := p.unsupported + 1 }
      exec (.hostBar2Write part stream off bytes) s = .next counted ∧
      ∀ poisoned, exec (.hostBar2Read part stream off len poisoned) s = .next { counted with readData := [], readPoisoned := false }) ∧
    ∀ ctx, let read := s.windowRead part ctx stream off
      ((s.part part).state = .free → read = (s, some 0)) ∧
      ((s.part part).state ≠ .free → (s.part part).vf = .error → read = (s, some 0xFFFFFFFFFFFFFFFF)) ∧
      ((s.part part).state ≠ .free → (s.part part).vf = .run → (s.part part).stream ≠ stream →
        read = (s.modPart part fun p => { p with unsupported := p.unsupported + 1 }, none)) ∧
      (Serves s part stream → read = (s, some (s.windowReg part ctx off)) ∧ s.windowReg part ctx 0x10 = (s.part part).badSub.zeroExtend 64 ∧
        ((s.ctx ctx).state ≠ .active → s.windowReg part ctx 0x100 = 0 ∧ s.windowReg part ctx 0x300 = 0) ∧
        ((s.ctx ctx).state = .active → (s.ctx ctx).part = part → ∀ q, q < 32 →
          s.windowReg part ctx (0x100 + 16 * q) = ((s.ctx ctx).queue q).base ∧
          s.windowReg part ctx (0x300 + 8 * q) = ((s.ctx ctx).queue q).head.zeroExtend 64))

/-- R72 to R76, R331. Resources move between FREE partitions and the pool under the operator's signature; a reset ends the
partition's contexts, wipes its memory and cores, clears its function and leaves it ACTIVE, with pass 0 (R95), if it has an
owner, which changes only under the operator's signature, in DEPLOYED, and leaves the partition ACTIVE where it names an owner (log
entry 53, DEDUCED); an owner's
request activates a FREE context and frees a TERMINATED one; grants are added and removed. -/
def Obligations.PartitionsChange : Prop :=
  (∀ (s : State) (dst : Nat) (clusters ranges ports ctxs : List Nat),
    s.boot.status = .ready → s.fuses.lifecycle = .deployed → dst < 16 → (s.part dst).state = .free →
    (∀ x ∈ clusters, x < 64 ∧ ∀ p ∈ s.parts, x ∉ p.clusters) → (∀ x ∈ ranges, x < 768 ∧ ∀ p ∈ s.parts, x ∉ p.ranges) →
    (∀ x ∈ ports, x < 24 ∧ ∀ p ∈ s.parts, x ∉ p.ports) → (∀ x ∈ ctxs, x < 64 ∧ (s.ctx x).state = .free ∧ ∀ p ∈ s.parts, x ∉ p.ctxs) →
    dst < s.parts.length → ∃ t, exec (.partitionAssign none (some dst) clusters ranges ports ctxs true) s = .next t ∧
      (∀ x, (x ∈ (t.part dst).clusters ↔ x ∈ (s.part dst).clusters ∨ x ∈ clusters) ∧
        (x ∈ (t.part dst).ranges ↔ x ∈ (s.part dst).ranges ∨ x ∈ ranges) ∧ (x ∈ (t.part dst).ports ↔ x ∈ (s.part dst).ports ∨ x ∈ ports) ∧
        (x ∈ (t.part dst).ctxs ↔ x ∈ (s.part dst).ctxs ∨ x ∈ ctxs)) ∧
      (∀ j, j ≠ dst → t.part j = s.part j) ∧ { t with parts := s.parts, ctxs := s.ctxs } = s) ∧
  (∀ (i : Instr) (s : State) (n : Nat) (owner : Option (BitVec 384)), s.boot.status = .ready → n < 16 → n < s.parts.length →
    (i = .partitionReset n ∧ owner = (s.part n).owner ∨ i = .ownerChange n ⟨owner, true⟩ ∧ s.fuses.lifecycle = .deployed) → s.memWf = true →
    (∀ c, c < s.ctxs.length → (s.ctx c).state = .active → (s.ctx c).part ≠ n) → (∀ x ∈ s.sessions, x.closed = true) →
    ∃ t, exec i s = .next t ∧ (t.part n).owner = owner ∧ (t.part n).state = (if owner.isSome then .active else .free) ∧
      (∀ j, j ≠ n → t.part j = s.part j) ∧ (owner.isSome = true → (t.part n).pass = 0 ∧ (t.part n).badSub = 0) ∧
      (t.part n).vf = .unlocked ∧ (t.part n).grants = [] ∧ (t.part n).clusters = (s.part n).clusters ∧
      (∀ a, cellsGet t.mem a = if a / 2 ^ 30 ∈ (s.part n).ranges then 0 else cellsGet s.mem a) ∧
      (∀ k, k < s.cores.length → t.core k = if k / 4 ∈ (s.part n).clusters then {} else s.core k) ∧
      { t with parts := s.parts, mem := s.mem, cores := s.cores, fabric := s.fabric, ports := s.ports } = s) ∧
  (∀ (s : State) (n : Nat) (owner : Option (BitVec 384)), exec (.ownerChange n ⟨owner, false⟩) s = .next s) ∧
  (∀ (s : State) (n c : Nat), s.boot.status = .ready → n < 16 →
    c < s.ctxs.length → (s.ctx c).state = .active → (s.ctx c).part = n →
    ∃ t, exec (.partitionReset n) s = .next t ∧ Ended t c) ∧
  (∀ (s : State) (part ctx : Nat) (seed : DWord) (cores : List Nat) (codeBase dumpBase log : DWord) (codeSize dumpSize : Nat)
      (maps : List Mapping),
    let set := s.accepted.getD (s.featAck.getD 0 0 &&& 0x1FFF)
    s.boot.status = .ready → (s.part part).state = .active → ctx ∈ (s.part part).ctxs → (s.ctx ctx).state = .free →
    set.getLsbD 0 = true → (∀ c ∈ cores, c / 4 ∈ (s.part part).clusters) → codeBase.toNat % 65536 = 0 → codeSize % 65536 = 0 →
    65536 ≤ codeSize → codeSize ≤ 2 ^ 32 → (∀ m ∈ maps, mappingOk (s.part part).ranges m = true) → ctx < s.ctxs.length →
    ∃ t, exec (.contextActivate part ctx seed cores codeBase codeSize dumpBase dumpSize log maps true) s = .next t ∧
      t.accepted = some set ∧ (t.ctx ctx).state = .active ∧ (t.ctx ctx).part = part ∧ (t.ctx ctx).seed = seed ∧
      (t.ctx ctx).maps = maps ∧ (t.ctx ctx).codeBase = codeBase ∧ (t.ctx ctx).codeSize = codeSize ∧ (t.ctx ctx).flags = 0 ∧
      (t.ctx ctx).trapVec.val = 0 ∧ (∀ q ∈ (t.ctx ctx).queues, q.en = false) ∧ (∀ j, j ≠ ctx → t.ctx j = s.ctx j) ∧
      { t with accepted := s.accepted, ctxs := s.ctxs } = s) ∧
  (∀ (s : State) (ctx : Nat), (s.ctx ctx).state = .terminated →
    exec (.contextFree ctx true) s = .next (s.modCtx ctx fun c => { part := c.part })) ∧
  ∀ (s : State) (part n : Nat) (g : Grant),
    ((s.part part).state = .active → (s.part part).grants.length < 16 → g.base.toNat % 65536 = 0 → g.size % 65536 = 0 →
      exec (.remoteGrant part g true) s = .next (s.modPart part fun p => { p with grants := p.grants ++ [g] })) ∧
    exec (.remoteRevoke part n true) s = .next (s.modPart part fun p => { p with grants := p.grants.eraseIdx n })

/-- R77, R78, R366, R369 to R371. A session with every consent, and a link to each party of another device, is made; it opens with the
last hamper of this device (log entry 55, DEDUCED); a withdrawn consent closes it for good and fails its open rounds (log entry 71,
DEDUCED). A contribution that has come to the home stile in its packet (log entry 104, DESIGN CHOICE) joins its round, which ends with
the last party's; in a closed session, or under an aborted key, it is answered at once; the parties of one tag get their sums; a round
past its deadline fails and its key stays aborted for one deadline. -/
def Obligations.SessionsMeet : Prop :=
  (∀ (s : State) (id ring deadline : Nat) (parties : List Party) (policy : List Nat) (consents : List Bool),
    s.boot.status = .ready → sessionOk ring parties policy consents = true → (∀ p ∈ parties, s.partyOk p = true) →
    (∀ x ∈ s.sessions, x.id ≠ id) →
    (s.pathOk parties = false → exec (.stileSessionOpen id ring deadline parties policy consents true) s = .next s) ∧
    (s.pathOk parties = true → ∃ t x, exec (.stileSessionOpen id ring deadline parties policy consents true) s = .next t ∧ t.session? id = some x ∧
      x.ring = ring ∧ x.deadline = (if deadline = 0 then 1000000 else deadline) ∧ x.parties = parties ∧ x.policy = policy ∧
      x.opened = false ∧ { t with sessions := s.sessions } = s)) ∧
  (∀ (s : State) (id n : Nat) (x : Session) (p : Party) (a : DWord) (h : List Byte), s.session? id = some x → x.opened = false → x.closed = false →
    x.parties[n]? = some p → p.dev = s.boot.devId → a.toNat % 256 = 0 → s.virtBytes p.ctx a.toNat 256 = some h →
    hamperOk x.ring h = true → (∀ q ∈ x.parties, s.partyOk q = true) → x.id = id →
    ∃ t y, exec (.hamperRegionName id n a) s = .next t ∧ t.session? id = some y ∧ (n, a) ∈ y.hampers ∧
      (y.opened = true ↔ ∀ j q, x.parties[j]? = some q → q.dev = s.boot.devId → j = n ∨ ∃ b, (j, b) ∈ x.hampers)) ∧
  (∀ (s : State) (id n : Nat) (x : Session), s.session? id = some x → n < x.parties.length → x.closed = false →
    exec (.consentWithdraw id n) s = .next (s.closeSession id)) ∧
  (∀ (s : State) (id : Nat) (x : Session), s.session? id = some x →
    (x.closed = true → ∀ n a, exec (.hamperRegionName id n a) s = .next s) ∧
    ∃ y, (s.closeSession id).session? id = some y ∧ y.opened = false ∧ y.closed = true ∧ y.rounds = [] ∧
      ∀ r ∈ x.rounds, ∀ p ∈ r.parts, (⟨p.party, r.lbase, r.seq, r.sub, .trap 0x30⟩ : StileResult) ∈ y.results) ∧
  (∀ (s : State) (id n : Nat) (x : Session) (p : Party) (tag : RoundTag) (elems : List Nat), s.session? id = some x → x.id = id →
    x.parties[n]? = some p → (p.dev ≠ s.boot.devId ∨ (tag, elems) ∈ s.sentBy p.ctx id) → x.knows n tag = false →
    x.homeOf = s.boot.devId → (∀ r ∈ x.rounds, s.time < r.firstAt + x.deadline) → (∀ a ∈ x.aborted, s.time < a.since + x.deadline) →
    let home := ((x.parties.head?).map Party.part).getD 0
    let packet := s.fabric.delivered.find? fun d => d.die == s.homeDie x && d.st == 62 && d.cls == (if tag.op = 11 then 0 else 1) &&
      d.part == (if p.dev = s.boot.devId then p.part else home)
    let now := exec (.shareContributionArrive id n tag elems) s
    (packet = none → now = .next s) ∧
    ∀ d, packet = some d →
      let s1 := s.modFabric fun f => { f with delivered := f.delivered.erase d }
      let becomes := fun (y : Session) => ∃ t, now = .next t ∧ t.session? id = some (y.sendAway s.boot.devId) ∧
        { t with sessions := s1.sessions } = s1
      let answered := fun (code : BitVec 8) =>
        becomes { x with results := x.results ++ [⟨n, tag.lbase, tag.seq, tag.sub, .trap code⟩] }
      let old := (x.rounds.find? fun r => r.is tag.lbase tag.seq tag.sub).getD
        { lbase := tag.lbase, seq := tag.seq, sub := tag.sub, firstAt := s.time }
      let r := { old with parts := old.parts ++ [⟨n, tag, elems⟩] }
      let rest := x.rounds.filter fun q => !q.is tag.lbase tag.seq tag.sub
      (x.opened = false → answered 0x30) ∧
      (x.opened = true → ∀ a, (x.aborted.find? fun a => a.is tag.lbase tag.seq tag.sub) = some a → answered a.code) ∧
      (x.opened = true → (x.aborted.find? fun a => a.is tag.lbase tag.seq tag.sub) = none →
        (r.parts.length < x.parties.length → becomes { x with rounds := rest ++ [r] }) ∧
        (x.parties.length ≤ r.parts.length → becomes { x with rounds := rest, results := x.results ++ roundEnd x.ring r }))) ∧
  (∀ (k : Nat) (r : Round), (∀ p ∈ r.parts, ∀ q ∈ r.parts, p.tag = q.tag) →
    roundEnd k r = r.parts.map fun p => ⟨p.party, r.lbase, r.seq, r.sub, .sums (roundSums k p.tag.op r.parts)⟩) ∧
  ∀ (s : State) (id : Nat) (lbase : Word) (seq sub : Nat) (x : Session), s.session? id = some x → x.id = id →
    (∀ r, (x.rounds.find? fun r => r.is lbase seq sub) = some r → r.firstAt + x.deadline ≤ s.time →
      ∃ t y, exec (.roundDeadline id lbase seq sub) s = .next t ∧ t.session? id = some y ∧ (∀ q ∈ y.rounds, q.is lbase seq sub = false) ∧
        (⟨r.lbase, r.seq, r.sub, 0x30, s.time⟩ : AbortHold) ∈ y.aborted ∧ { t with sessions := s.sessions } = s) ∧
    exec (.abortHoldExpiry id lbase seq sub) s = .next (s.modSession id fun y =>
      { y with aborted := y.aborted.filter fun a => !(a.is lbase seq sub && decide (a.since + y.deadline ≤ s.time)) })

/-- R85 to R88, R202, R315. A signed request is answered with a metering statement, a new one also where the context is TERMINATED
and its final statement is held (log entry 35, DESIGN CHOICE); a job is opened, recorded and closed with
its record, each with the next statement number; the debugger sets breakpoints and a trace ring. -/
def Obligations.RecordsAnswer : Prop :=
  (∀ (s : State) (c : Nat) (nonce : BitVec 256), (s.ctx c).state ≠ .free → ∃ bs, exec (.meteringStatementRequest c nonce true) s =
    .next (s.modBoot fun b => { b with statementSeq := b.statementSeq + 1, replies := .statement bs :: b.replies })) ∧
  (∀ (s : State) (n : Nat) (job : DWord), (s.part n).state = .active → (s.part n).job = none → n < s.parts.length →
    ∃ j, exec (.jobBegin n job true) s = .next (s.modPart n fun p => { p with job := some j }) ∧ j.id = job ∧ j.begin' = s.time ∧
      ∀ q ∈ (s.part n).ports, ∀ x, (s.port q).peer = some x → (q, [x], false) ∈ j.peers) ∧
  (∀ (s : State) (n : Nat) (j : Job), (s.part n).job = some j →
    (∃ bs, exec (.jobRecordRequest n true) s =
      .next (s.modBoot fun b => { b with statementSeq := b.statementSeq + 1, replies := .statement bs :: b.replies })) ∧
    ∃ bs, exec (.jobEnd n true) s = .next ((s.modBoot fun b =>
      { b with statementSeq := b.statementSeq + 1, replies := .statement bs :: b.replies }).modPart n fun p => { p with job := none })) ∧
  ∀ (s : State) (c : Nat), (s.ctx c).state = .active →
    (∀ pc lo hi, (s.ctx c).breakpoints.length < 8 → exec (.debugBreakpointSet c pc lo hi) s =
      .next (s.modCtx c fun x => { x with breakpoints := x.breakpoints ++ [⟨pc, lo, hi⟩] })) ∧
    ∀ size, exec (.traceRingEnable c size) s =
      .next (s.modCtx c fun x => { x with traceSize := some size, trace := [], traceLost := 0 })

/-! ## Nodes and teams -/

/-- R90 to R94, R128, Tables 6.4 to 6.6. NODE_CONSUME completes wherever an ACTIVE context's enabled queue has a record to read and
fewer than 256 unfinished nodes: the head moves by one and the record is refused with the code of its first failing check, or is
an unfinished node. A node whose predecessors are done is READY. TEAM_RETIRE completes for a team whose groups, control thread and
commands are done, of a node without an error in the cycle: the team is gone. As the cycle ends, an error of a RUNNING node rolls it
back, and only then a node of which every team has retired is COMMITTING (log entry 97, DEDUCED). NODE_COMMIT completes for a
COMMITTING node whose basket entries are all applied: its ranges are released, its time record and STATE = 5 are written, ARRIVED of
each successor is one more, which wakes it with its last predecessor, and the node leaves State.nodes (log entry 64, DESIGN CHOICE).
ROLLBACK_REQUEUE completes for a ROLLED_BACK node: it is READY with its next attempt. The order of the checks is log entry 106, and the
waiting of a record that cannot be read log entry 58 (DESIGN CHOICE). -/
def Obligations.NodesLive : Prop :=
  (∀ (s : State) (c q : Nat) (r : List Byte), let qu := (s.ctx c).queue q
    let addr := qu.slot qu.head
    c < 64 → q < 32 → (s.ctx c).state = .active → qu.en = true → qu.head ≠ qu.tail →
    (s.nodes.filter fun n => n.ctx == c && n.queue == q).length < 256 → s.virtBytes c addr 128 = some r →
    ∃ t, exec (.nodeConsume c q) s = .next t ∧ ((t.ctx c).queue q).head = qu.head + 1 ∧ t.groups = s.groups ∧ t.teams = s.teams ∧
      (s.refusal c r = 0 → ∃ n ∈ t.nodes, n.ctx = c ∧ n.queue = q ∧ n.ref = BitVec.ofNat 32 (q * 2 ^ 27 + qu.head.toNat % 2 ^ 27) ∧
        n.addr = addr ∧ n.rec' = parseRec r ∧ (n.state = .queued ∨ n.state = .ready ∨ n.state = .committing)) ∧
      (s.refusal c r ≠ 0 → t.nodes.map plainNode = s.nodes.map plainNode ∧
        ∀ p, s.memWf = true → (s.ctx c).phys? (addr + 104) = some p → cellsRead t.mem p 4 = natBytes 4 (s.refusal c r * 65536 + 7))) ∧
  (∀ (s : State) (n : Node), n.state = .queued → (s.virtNat n.ctx (n.addr + 100) 4 = n.rec'.preds → 0 < n.rec'.count →
      s.wakeNode n = s.setNodeState n.ctx n.ref .ready) ∧
    (s.virtNat n.ctx (n.addr + 100) 4 ≠ n.rec'.preds → s.wakeNode n = s)) ∧
  (∀ (s : State) (k : TKey) (tm : Team), s.team? k = some tm → s.mayRetire tm = true → s.erring k.ctx k.node = false →
    ∃ t : State, exec (.teamRetire k) s = .next t.settle ∧ (NoneWait s → t.settle = t) ∧ t.team? k = none ∧
      (∀ x ∈ t.groups, gkeyTeam x.key ≠ k) ∧
      ∀ n, s.node? k.ctx k.node = some n → ∃ m, t.node? k.ctx k.node = some m ∧ m.retired = n.retired + 1 ∧
        (m.state = n.state ∨ n.state = .running ∧ m.state = .sealed)) ∧
  (∀ (s : State) (k : TKey) (tm : Team), s.team? k = some tm → s.erring k.ctx k.node = true → exec (.teamRetire k) s = .next s) ∧
  (∀ (s : State) (c : Nat) (ref : Word) (n : Node), s.node? c ref = some n →
    (s.errors = [] → (n.state = .running ∨ n.state = .sealed) → n.retired = n.rec'.count →
      ∃ m, s.endCycle.node? c ref = some m ∧ m.state = .committing) ∧
    ∀ r, s.errors = [r] → r.group.ctx = c → r.node = ref → (s.ctx c).state = .active → n.state = .running → n.attempt < 3 →
      ∃ m, s.endCycle.node? c ref = some m ∧ m.state = .rolledBack) ∧
  (∀ (s : State) (c : Nat) (ref : Word) (n : Node), s.node? c ref = some n → n.state = .committing → (s.ctx c).state = .active →
    (∀ e ∈ (s.ctx c).basket, e.node ≠ ref) → s.erring c ref = false →
    let s1 := ((s.modNode c ref fun x => { x with registered := false, staged := [] }).putTime n 5).setNodeState c ref .done
    let s2 := n.rec'.succ.foldl (fun s w => s.notify c w) s1
    exec (.nodeCommit c ref) s = .next { s2 with nodes := s2.nodes.filter fun x => !(x.ctx == c && x.ref == ref) } ∧
    s2.groups = s.groups ∧ s2.teams = s.teams ∧
    (∃ m, s1.node? c ref = some m ∧ m.state = .done ∧ m.registered = false ∧ m.rec' = n.rec') ∧
    ∀ p, s.memWf = true → (s.ctx c).phys? (n.addr + 104) = some p → cellsRead s1.mem p 4 = natBytes 4 (n.attempt * 256 + 5)) ∧
  (∀ (s : State) (c : Nat) (w : Word),
    let addr := ((s.ctx c).queue (w.toNat / 2 ^ 27)).slot (BitVec.ofNat 32 (w.toNat % 2 ^ 27))
    let arrived := natBytes 4 ((s.virtNat c (addr + 100) 4 + 1) % 2 ^ 32)
    let s1 := s.devStore c (addr + 100) arrived
    let found := s1.nodes.find? fun n => n.ctx == c && n.queue == w.toNat / 2 ^ 27 && n.addr == addr
    (∀ p, s.memWf = true → (s.ctx c).phys? (addr + 100) = some p → cellsRead s1.mem p 4 = arrived) ∧
    (found = none → s.notify c w = s1) ∧ ∀ m, found = some m → s.notify c w = s1.wakeNode m) ∧
  ∀ (s : State) (c : Nat) (ref : Word) (n : Node), s.node? c ref = some n → n.state = .rolledBack →
    let t := (s.modNode c ref fun x => { x with attempt := x.attempt + 1, sealCause := 0 }).setNodeState c ref .ready
    exec (.rollbackRequeue c ref) s = .next t ∧ ∃ m, t.node? c ref = some m ∧ m.state = .ready ∧ m.attempt = n.attempt + 1 ∧
      m.sealCause = 0 ∧ m.rec' = n.rec' ∧ t.groups = s.groups ∧ t.teams = s.teams

/-- R96 to R105, R126, R191. The one queue with a team that fits dispatches it: its groups stand at their places at the entry,
its pass advances by its stride, and G is its pass. A skipped queue gets a cluster; a waiting control thread starts; a reclaim
takes the highest cores and asks their groups to yield, an earlier deadline standing and 14,000 cycles for a deadline of 0 (log entry
59, DEDUCED); the deadline stops them by force; a stopped team is saved; cores return. An opportunity comes 32 cycles after the one
before it (log entry 65, DEDUCED). -/
def Obligations.TeamsMove : Prop :=
  (∀ (s : State) (part c q : Nat) (n : Node) (ask : TeamAsk) (cores : List Nat) (places : List (Nat × Occ)),
    part < 16 → (s.part part).state = .active → (s.part part).oppAt + 32 ≤ s.cycle → s.contenders part = [(c, q, n, ask)] →
    (s.part part).reservations = [] → s.findTeam ask [] = some (cores, places) → s.team? ⟨c, n.ref, ask.team⟩ = none →
    c < s.ctxs.length → n.ctx = c → NoneWait s →
    ∃ t tm, exec (.dispatchOpportunity part) s = .next t ∧ (t.part part).oppAt = s.cycle ∧ tm ∈ t.teams ∧
      tm.key = ⟨c, n.ref, ask.team⟩ ∧ tm.cores = cores ∧ tm.saved = false ∧ tm.scratch = [] ∧
      tm.owners = List.replicate n.rec'.scratch .threads ∧
      (∀ p ∈ places, ∃ x ∈ t.groups, x.key = ⟨c, n.ref, ask.team, p.1, .lanes⟩ ∧ x.core = p.2.core ∧ x.base = p.2.base ∧
        x.slot = p.2.slot ∧ x.w = p.2.w ∧ x.budget = p.2.budget ∧ x.threads.length = p.2.w ∧
        ∀ th ∈ x.threads, th.pc = n.rec'.entry ∧ th.state = .ready) ∧
      (((s.ctx c).queue q).eligible = true → ((s.ctx c).queue q).en = true → (s.ctx c).state = .active → (s.ctx c).part = part →
        (t.part part).pass = ((s.ctx c).queue q).pass ∧ ((t.ctx c).queue q).pass = ((s.ctx c).queue q).pass +
          BitVec.ofNat 64 (2 ^ 20 / (((s.ctx c).queue q).tickets.toNat + 1) * ask.cores))) ∧
  (∀ (s : State) (part c q since cl : Nat) (n : Node) (ask : TeamAsk), let l := s.contenders part
    let r := s.reserved part l
    part < 16 → (s.part part).state = .active → (s.part part).skipped = some (c, q, since) → since + 14000 ≤ s.cycle →
    s.leastPass (s.part part).pass l = some (c, q, n, ask) → (∀ x ∈ r, x.isFor (c, q, n, ask) = false) →
    s.findTeam ask (barFor r (c, q, n, ask)) = none → s.emptyCluster ask = some cl →
    exec (.clusterReserve part) s =
      .next (s.modPart part fun p => { p with reservations := r ++ [⟨c, q, ask.node, ask.team, cl⟩] })) ∧
  (∀ (s : State) (k : TKey) (tm : Team) (pc : Word), s.team? k = some tm → tm.controlWaits = some pc → tm.saved = false →
    s.controlRoom tm = true → let key : GKey := ⟨k.ctx, k.node, k.team, 0, .control⟩
    let s1 := s.modTeam k fun t => { t with controlWaits := none, control := true }
    ((∃ x ∈ s.groups, x.key = key) → exec (.controlThreadStart k) s = .next s1) ∧
    ((∀ x ∈ s.groups, x.key ≠ key) → exec (.controlThreadStart k) s = .next { s1 with
      groups := s.groups ++ [{ key := key, w := 1, core := tm.cores.headD 0, budget := 60, lastIssue := s.cycle
                               threads := [{ pc := pc, issued := s.cycle }] }] })) ∧
  (∀ (s : State) (c k d : Nat), let d' := if d = 0 then 14000 else d
    let sorted := sortBy id (s.ctx c).cores
    let gone := sorted.drop (sorted.length - k)
    c < 64 → (s.ctx c).state = .active → k ≤ (s.ctx c).cores.length → 700 ≤ d' → d' ≤ 2 ^ 24 →
    ∃ t, exec (.coreReclaimRequest c k d true) s = .next t ∧ (t.ctx c).cores = sorted.take (sorted.length - k) ∧
      (t.ctx c).vacated = sortBy id ((s.ctx c).vacated ++ gone) ∧
      { t with ctxs := s.ctxs, teams := s.teams, groups := s.groups } = s ∧
      ∀ tm ∈ s.teams, tm.key.ctx = c → tm.saved = false → (∃ i ∈ tm.cores, i ∈ gone) →
        { tm with evicting := some (min (s.cycle + d') (tm.evicting.getD (s.cycle + d'))) } ∈ t.teams ∧
        ∀ x ∈ t.groups, gkeyTeam x.key = tm.key → x.key.kind ≠ .handler → x.yieldReq = true) ∧
  (∀ (s : State) (c k d : Nat), (s.ctx c).cores.length < k → exec (.coreReclaimRequest c k d true) s = .next s) ∧
  (∀ (s : State) (c : Nat) (cores : List Nat), c < 64 → (s.ctx c).state = .active → (∀ i ∈ cores, i ∈ (s.ctx c).vacated) →
    exec (.coreReturn c cores true) s = .next (s.modCtx c fun x =>
      { x with cores := sortBy id (x.cores ++ cores.eraseDups), vacated := x.vacated.filter fun i => !cores.contains i })) ∧
  (∀ (s : State) (c : Nat), ∃ t, exec (.yieldDeadline c) s = .next t ∧ t.ctxs = s.ctxs ∧ t.nodes = s.nodes ∧ t.mem = s.mem ∧
    ∀ tm ∈ s.teams, tm.key.ctx = c → tm.saved = false → tm.late = false → (∃ d, tm.evicting = some d ∧ d ≤ s.cycle) →
      { tm with late := true } ∈ t.teams ∧
      ∀ x ∈ t.groups, gkeyTeam x.key = tm.key → x.key.kind ≠ .handler ∧ (x.stop = true ∨ x.allExited = true)) ∧
  ∀ (s : State) (k : TKey) (tm : Team), s.team? k = some tm → s.maySave tm = true →
    ∃ t : State, exec (.teamEvictSave k) s = .next t.settle ∧ (NoneWait s → t.settle = t) ∧
      (∃ tm', t.team? k = some tm' ∧ tm'.saved = true) ∧ t.mem = s.mem ∧
      (∀ n, s.node? k.ctx k.node = some n → ∃ m, t.node? k.ctx k.node = some m ∧ m.evicted = n.evicted ++ [k.team]) ∧
      (∀ x ∈ t.cores, ∀ q ∈ x.queue, q.team ≠ k) ∧
      ∀ x ∈ t.groups, gkeyTeam x.key = k → ∀ th ∈ x.threads, th.stores = 0 ∧ ∀ r ∈ th.loads, r.arrived = true

/-! ## Events of execution -/

/-- R140, R182, R183, R189. A core with no handler running starts the handler of its first record, with W = 1, a budget of 60 and
every register zero, at HPC; a wait that reaches its limit traps BAR_TIMEOUT or WAIT_TIMEOUT, one on an owner state
OWNER_TIMEOUT, whose detail is the scratch address, through a window onto the team's own scratch the one that it leads to (log entry
101, DEDUCED). -/
def Obligations.TrapsHandled : Prop :=
  (∀ (s : State) (core : Nat) (r : TrapRec), (∀ x ∈ s.groups, x.key.kind = .handler → x.core ≠ core) →
    leastBy? trapOrder ((s.core core).trapQueue.filter s.deliverable) = some r → let vec := (s.ctx r.group.ctx).trapVec.val
    vec.getLsbD 0 = true → exec (.handlerStart core) s = .next { s.modCore core fun x => { x with trapQueue := x.trapQueue.erase r } with
      groups := s.groups ++ [{ key := { r.group with kind := .handler }, w := 1, core := core, budget := 60, lastIssue := s.cycle
                               handler := some { trap := r, sel := some r.group }
                               threads := [{ pc := vec &&& 0xFFFFFFFE, issued := s.cycle }] }] }) ∧
  (∀ (s : State) (g : GKey) (i t : Nat) (gr : Group) (w : Wait), s.groupIdx? g = some i → s.groups[i]? = some gr →
    s.active gr = true → s.overdue gr Wait.counted = some t → (gr.thread t).state = .blocked w → s.trapIsFatal gr = false →
    let set := gr.waitSet Wait.counted t
    let d := s.whistleTrap gr w
    exec (.whistleFire g) s =
      .next ((((s.withdraw gr w set).modGroup i Group.recount).modGroup i fun x => x.unblock set).takeTrap i set t d.1 d.2) ∧
    d.1 = (match w with
      | .bart _ _ | .barwt _ _ | .barg => 0x20
      | _ => 0x21)) ∧
  ∀ (s : State) (g : GKey) (i t : Nat) (gr : Group) (x : Access), s.groupIdx? g = some i → s.groups[i]? = some gr →
    s.active gr = true → s.overdue gr Wait.ownerWait = some t → (gr.thread t).state = .blocked (.owner x) →
    let set := gr.waitSet Wait.ownerWait t
    exec (.ownerTimeout g) s =
      .next ((onThreads s i set fun _ th => th.dropAccess).trapWait i set t 0x08 (BitVec.ofNat 32
        (s.plainAddr (gkeyTeam gr.key)
          (if x.glob then x.addr - ((s.team? (gkeyTeam gr.key)).map fun tm => tm.aperture.toNat).getD 0 else x.addr))))

/-- R111, R122, R131, R139, R140, R184, R193, R216, R271, R278, R284, R288, R305, R308, R337. The events that end waits and
outstanding accesses: a counted NAP, a load's data, a performed store, a changed word, a granted budget or accumulator, a filled
table that no TBL has read in the cycle, a delivered word, a flushed window. Each has its effect, and then every wait that this ends,
ends. A poisoned word that WAITW would deliver is a machine check. That the data of a whole issue set arrives in one event is log entry
22, that a write-back only drops the line log entry 41 (DEDUCED), and which TBLLD of a table is served first log entry 62 (DESIGN
CHOICE). -/
def Obligations.WaitsEnd : Prop :=
  (∀ (s : State) (g : GKey) (i t : Nat) (gr : Group), s.groupIdx? g = some i → s.groups[i]? = some gr → t < gr.threads.length →
    let th0 := gr.thread t
    (∀ n, s.active gr = true → th0.state = .blocked (.nap n) → n ≤ th0.waited →
      exec (.napExpire g t) s = .next (onThreads s i [t] fun _ th => th.goOn (pcAfter th.pc 4))) ∧
    (∀ n r, th0.loads[n]? = some r → r.arrived = false →
      exec (.loadDataArrival g t n false) s = .next (s.modGroup i fun x =>
        { x with threads := x.threads.map (Thread.arrive r.pc r.cycle) }).settle ∧
      exec (.loadDataArrival g t n true) s = .next (s.machineCheckAt i t 3 r.pc) ∧
      ∀ (th : Thread) x v, (th.loads.filter fun q => q.pc == r.pc && q.cycle == r.cycle && !q.arrived) = [r] → r.vals = [(x, v)] → x < 60 →
        th.regs.length = 60 → th.isExited = false → th.isPend x = true →
        ((∀ p ∈ th.late, p.1 ≠ x) → (th.arrive r.pc r.cycle).reg x = v) ∧
        ∀ p, (th.late.find? fun q => q.1 == x) = some p → (th.arrive r.pc r.cycle).reg x = p.2 ∧
          (th.pend.length = 60 → (th.arrive r.pc r.cycle).isPend x = false)) ∧
    exec (.storePerformed g t) s = .next (onThreads s i [t] fun _ th => { th with stores := th.stores - 1 }).settle ∧
    (∀ ins d a cmp, s.active gr = true → th0.state = .blocked (.waitw ins d a cmp) → Reaches s gr.key false (wordTarget a) →
      let ls := s.places gr.key (wordTarget a) false
      let v := BitVec.ofNat 32 (bytesNat (s.readPlaces (gkeyTeam gr.key) ls))
      (v = cmp → exec (.waitwWake g t) s = .next s) ∧
      (v ≠ cmp → s.mayPerform gr.key false ls = true → th0.tainted = true → exec (.waitwWake g t) s = .next (s.machineCheck i t 3)) ∧
      (v ≠ cmp → s.mayPerform gr.key false ls = true → th0.tainted = false →
        exec (.waitwWake g t) s = .next (onThreads (flagged (s.touchPlaces (gkeyTeam gr.key) ls) i gr [t] fun _ => th0.owed) i [t]
          fun _ th => (th.setReg d v).goOn (pcAfter th0.pc 4))) ∧
      (v ≠ cmp → s.mayPerform gr.key false ls = false →
        exec (.waitwWake g t) s = .next (onThreads s i [t] fun _ th =>
          { th.block (.owner { (wordTarget a).waiting true (pcAfter th0.pc 4) with retry := some ins }) with owed := th0.owed })))) ∧
  (∀ (s : State) (g : GKey), (∃ x ∈ s.growable, x.2.1.key = g) → exec (.reggrowGrant g) s = .next s.growAll) ∧
  (∀ (s : State) (g : GKey) (i n since : Nat) (gr : Group), s.groupIdx? g = some i → s.groups[i]? = some gr → s.active gr = true →
    gr.asks = [(n, since)] → (∀ j x, s.groups[j]? = some x → j ≠ i → x.asks = []) → gr.budget < n → s.growRoom gr n = true →
    exec (.reggrowGrant g) s = .next (s.modGroup i fun x => { x with
      budget := n
      threads := x.threads.map fun th => match growWait n th with
        | some p => ((th.clearFrom gr.budget).setReg p.1 1).goOn (pcAfter th.pc 4)
        | none => th.clearFrom gr.budget })) ∧
  (∀ (s : State) (y : AccAsk) (p : Nat × Nat), s.accNext = some (y, p) → exec (.accallocGrant y.key) s = .next (s.accGrant y p)) ∧
  (∀ (s : State) (g : GKey) (i t table at' : Nat) (gr : Group) (tm : Team) (a : Word),
    s.groupIdx? g = some i → s.groups[i]? = some gr → s.active gr = true → s.team? (gkeyTeam g) = some tm →
    s.pendingFills (gkeyTeam g) = [(i, t, table, a, at')] → table < 4 → table < tm.tables.length →
    (∀ x ∈ s.teams, x.key = gkeyTeam g → x = tm) →
    let b := tm.tables.getD table {}
    (∀ x ∈ b.bound, x.2 = false) →
    let swap := fun (s : State) (words : List Word) => onThreads (flagged (s.modTeam (gkeyTeam g) fun tm =>
        { tm with tables := tm.tables.modify table fun x => { x with
            fill := x.live, live := words, filler := none, filled := 0, bound := x.bound.map fun b => (b.1, !b.2) } })
      i gr [t] fun _ => (gr.thread t).owed) i [t] fun _ th => th.goOn (pcAfter th.pc 4)
    let ls := fun j => s.places gr.key (tableWord a.toNat j) false
    (b.filler = some (gr.key, t, at') → b.filled = 256 →
      exec (.tblldComplete g) s = .next (if b.readAt = some s.cycle then s else swap s b.fill)) ∧
    (b.filler = none → b.readAt ≠ some s.cycle → b.fill.length = 256 → (∀ j, j < 256 → (∃ l, s.tableCheck gr.key a.toNat j = .ok l) ∧
        s.mayPerform gr.key false (ls j) = true) →
      exec (.tblldComplete g) s = .next (swap (s.touchPlaces (gkeyTeam g) ((List.range 256).flatMap ls))
        ((List.range 256).map fun j => BitVec.ofNat 32 (bytesNat (s.readPlaces (gkeyTeam g) (ls j))))))) ∧
  (∀ (s : State) (n : Nat) (w : QWord), s.net[n]? = some w →
    (∀ x ∈ s.net.take n, x.src ≠ w.src ∨ x.ctx ≠ w.ctx ∨ x.node ≠ w.node ∨ x.l ≠ w.l) →
    let s1 := { s with net := s.net.eraseIdx n }
    (∀ p i, s.receiver w = some (some p) → s.groupIdx? p.1 = some i →
      exec (.queueWordDeliver n) s = .next (onThreads s1 i [p.2] fun _ th => { th with queue := th.queue ++ [(w.value, w.sender)] }).settle) ∧
    (s.receiver w = some none → exec (.queueWordDeliver n) s = .next (s1.modNode w.ctx w.node fun x =>
      { x with early := x.early ++ [(w.l, w.value, w.sender)] })) ∧
    (s.receiver w = none → exec (.queueWordDeliver n) s = .next (s1.window w.sender false w.node (w.l.toNat / 4096)).settle)) ∧
  (∀ (s : State) (g : GKey) (i f t : Nat) (gr : Group), s.groupIdx? g = some i → s.groups[i]? = some gr → s.active gr = true →
    t < gr.threads.length → (gr.thread t).state = .blocked (.stflush f) →
    (∀ th ∈ gr.threads, ∀ f', th.state = .blocked (.stflush f') → f' = f) →
    let set := (List.range gr.threads.length).filter fun u => (gr.thread u).state == .blocked (.stflush f)
    exec (.stflushWritebackComplete g) s = .next (onThreads (flagged (s.modTeam (gkeyTeam g) (unmapWindow f)) i gr set
      fun u => (gr.thread u).owed) i set fun _ th => th.goOn (pcAfter th.pc 4)).settle) ∧
  ∀ (s : State) (k : TKey) (line : Nat), exec (.stashWriteback k line) s = .next (s.modTeam k fun t => { t with
    windows := t.windows.map fun w => { w with lines := w.lines.filter fun l => l.line != line } })

/-- R140, R146, R147, R149, R180, R192, R193, R299, R325, R331, R332, R347, R372. What completes work: a barrier's last arrival, the entries
of its flush first; a basket batch, entry by entry; an engine command that takes its blocks, one that ends, and one whose
product or data is bad; a remote answer, and the lines of a peer that a grant admits; a served page, of its mapping's size; the
sums of a round, in their packet. The batches of one team are applied in their order (R147). That a command performs its accesses and
completes in one event (log entry 32), the way a peer is named (log entry 46) and the packets of a round (log entry 104) are DESIGN
CHOICES; the record of a machine check at a batch (log entry 98) and the service of exactly one page, an unresolvable one removed (log
entry 63), are DEDUCED. -/
def Obligations.WorkCompletes : Prop :=
  (∀ (s : State) (k : TKey) (id : Nat) (tm : Team), let b := tm.barriers.getD id {}
    let es := if (b.bits.getD 0).getLsbD 3 then (s.ctx k.ctx).basket.filter (flushEntry k b (s.lanes k)) else []
    s.team? k = some tm → tm.saved = false → b.complete (s.lanes k) = true →
    (es = [] → exec (.barrierPhaseComplete k id) s = .next ((s.modTeam k fun t => { t with barriers := t.barriers.modify id fun b =>
        { b with phase := b.phase + 1, last := b.bits.getD b.last, bits := none, came := [], marks := [], arrived := [] } }).settle)) ∧
    (es ≠ [] → (∀ e ∈ es, e.batch ≠ none) → exec (.barrierPhaseComplete k id) s = .next s) ∧
    ((∃ e ∈ es, e.batch = none) →
      exec (.barrierPhaseComplete k id) s = .next (s.makeBatch k.ctx (flushEntry k b (s.lanes k))).2)) ∧
  (∀ (s : State) (n : Nat), n ∈ (s.ctx (n % 64)).batches → let es := batchEntries (s.ctx (n % 64)) n
    let done := es.foldl (fun s e => s.applyOne (n % 64) e) s
    let kept := done.modCtx (n % 64) fun x =>
      { x with batches := x.batches.filter (· != n), basket := x.basket.filter fun e => e.batch != some n }
    let turn := ∀ e ∈ (s.ctx (n % 64)).basket, e.batch = some n → ∀ f ∈ (s.ctx (n % 64)).basket, ∀ m, f.batch = some m →
      m ∈ ((s.ctx (n % 64)).batches.takeWhile (· != n)) → (e.node, e.team) ≠ (f.node, f.team)
    (turn → exec (.basketBatchApply ⟨n, none⟩) s = .next { kept with groups := kept.groups.map (Group.endFlush n) } ∧
      ∀ (j : Nat) (e : BasketEntry), es[j]? = some e →
        exec (.basketBatchApply ⟨n, some j⟩) s = .next (s.checkNode (s.entryRecord (n % 64) e))) ∧
    (¬ turn → ∀ p, exec (.basketBatchApply ⟨n, p⟩) s = .next s) ∧
    es.Pairwise fun e f => e.l.toNat * 2 ^ 32 + e.seq.toNat ≤ f.l.toNat * 2 ^ 32 + f.seq.toNat) ∧
  (∀ (s : State) (core n : Nat) (c : Cmd) (tm : Team), (s.core core).queue[n]? = some c → s.team? c.team = some tm →
    (s.mayStart c = true →
      let s1 := if c.op = 5 ∨ c.op = 6 then s.sealNow c.team.ctx c.team.node 1 else s
      exec (.engineCommandStart core n) s = .next
        (((s1.modTeam c.team fun t => { t with owners := t.owners.mapIdx (takeBlock (c.blocks tm)) }).setCmd core n
          { c with running := true, reads := (c.blocks tm).1, writes := (c.blocks tm).2 }).arraysWork c)) ∧
    (s.mayEnd c = true → (c.op = 21 ∨ c.op = 22 ∨ c.op = 23 →
        exec (.engineCommandComplete core n 0) s = .next ((s.arraysWork c).finishLu core n c tm)) ∧
      (c.op ≠ 21 → c.op ≠ 22 → c.op ≠ 23 →
        exec (.engineCommandComplete core n 0) s = .next (State.finishCmd core n c ((s.arraysWork c).endCmd c tm))) ∧
      (c.isProduct = true → c.retried = false →
        exec (.engineCommandComplete core n 1) s = .next (s.setCmd core n { c with retried := true })) ∧
      (c.isProduct = true → c.retried = true → exec (.engineCommandComplete core n 1) s = .next (s.cmdCheck c 2)) ∧
      exec (.engineCommandComplete core n 2) s = .next (s.cmdCheck c 3)) ∧
    (c.running = true → c.acked = false → c.op = 5 ∨ c.op = 6 → ∀ cause bytes, exec (.remoteAck core n cause bytes) s =
      .next (s.setCmd core n { c with
        acked := true, cause := if cause = 2 ∨ cause = 3 ∨ cause = 5 then cause else 0, remote := bytes }))) ∧
  (∀ (core n : Nat) (c : Cmd) (e : CmdEnd), NoneWait e.s → (e.s.team? c.team).isSome = true → core < e.s.cores.length →
    let t := State.finishCmd core n c e
    (t.core core).queue = (e.s.core core).queue.eraseIdx n ∧ t.mem = e.s.mem ∧
    t.scratch c.team = match c.cairn with
      | some a => if e.cause = 0 then cairnArrive (e.s.scratch c.team) a.toNat e.bytes else cairnReport (e.s.scratch c.team) a.toNat e.cause
      | none => e.s.scratch c.team) ∧
  (∀ (s : State) (part port cmd : Nat) (peerPart : BitVec 8) (owner : BitVec 384) (last : Bool) (a : DWord) (bytes : List Byte) (len : Nat),
    let write := exec (.remoteLineWrite part port peerPart ⟨owner, cmd, last⟩ a bytes) s
    let read := exec (.remoteLineRead part port peerPart ⟨owner, cmd, last⟩ a len) s
    (s.remoteCmd part port peerPart owner cmd = none → write = .next s ∧ read = .next s) ∧
    ∀ r, s.remoteCmd part port peerPart owner cmd = some r →
      let s1 := s.modPart part (Partition.accept r last)
      ((s.part part).admits r a.toNat bytes.length true = false → write = .next { s with remoteCause := 3 }) ∧
      ((s.part part).admits r a.toNat bytes.length true = true →
        (s.partPhys part a.toNat true = none → write = .next { s1 with remoteCause := 3 }) ∧
        ∀ c p, s.partPhys part a.toNat true = some (c, p) →
          ((∃ i, i < bytes.length ∧ s.hampered part (p + i) = true) → write = .next { s1 with remoteCause := 3 }) ∧
          ((∀ i, i < bytes.length → s.hampered part (p + i) = false) →
            ((∃ i, i < bytes.length ∧ s.registered part (p + i) = true) → write = .next { s1 with remoteCause := 5 }) ∧
            ((∀ i, i < bytes.length → s.registered part (p + i) = false) →
              write = .next { s1.outsideStore p bytes with remoteCause := 0 }))) ∧
      ((s.part part).admits r a.toNat len false = false → read = .next { s with remoteData := [], remoteCause := 3 }) ∧
      ((s.part part).admits r a.toNat len false = true →
        (s.partPhys part a.toNat false = none → read = .next { s1 with remoteData := [], remoteCause := 3 }) ∧
        ∀ c p, s.partPhys part a.toNat false = some (c, p) →
          read = .next { s1 with remoteData := cellsRead s.mem p len, remoteCause := 0 })) ∧
  (∀ (s : State) (c v : Nat) (m : Mapping), (s.ctx c).mapping? v = some m → m.present = false → c < s.ctxs.length →
    let base := pageBase m v
    let n := m.size.units
    base ≤ v ∧ v < base + n ∧
    (∃ t, exec (.pageFaultService c v true) s = .next t ∧ (∀ u, base ≤ u → u < base + n → u < m.vpage + m.pages →
        (s.ctx c).mapping? u = some m → ∃ m', (t.ctx c).mapping? u = some m' ∧ m'.present = true ∧
          m'.ppage + (u - m'.vpage) = m.ppage + (u - m.vpage)) ∧ t.mem = s.mem ∧
      ∀ x ∈ t.groups, x.key.ctx = c → x.pageWait base n = none) ∧
    ((∀ x ∈ s.groups, x.pageWait base n = none) → ∃ t, exec (.pageFaultService c v false) s = .next t ∧ t.groups = s.groups ∧
      (t.ctx c).mapping? v = none)) ∧
  ∀ (s : State) (r : ShareReply) (i : Nat) (gr : Group) (x : Session), s.groupIdx? r.group = some i → s.groups[i]? = some gr →
    s.active gr = true → let me := (x.partyOf s.boot.devId r.group.ctx).getD 0
    let packet := fun (cls : BitVec 2) => s.takePacket (gr.core / 32) (gr.core % 32) cls (((x.parties[me]?).map Party.part).getD 0)
    let now := exec (.shareResultReceive r) s
    (∀ o : ShareOp, gr.fetch = some (.share o) → s.session? o.session = some x → o.op ≠ 11 →
      let failed := fun (s : State) code =>
        (s.modTeam (gkeyTeam r.group) (unbind r.group o.table)).takeTrap i o.threads (o.threads.headD 0) code o.cursor
      (packet 1 = none → now = .next s) ∧
      ∀ s0, packet 1 = some s0 →
        (x.homeOf = s.boot.devId →
          (∀ v s1, s0.takeAnswer x.id me o.lbase o.seq o.sub = some (.sums v, s1) → now = .next (s1.shareSums i r.group o x v)) ∧
          ∀ code s1, s0.takeAnswer x.id me o.lbase o.seq o.sub = some (.trap code, s1) → now = .next (failed s1 code)) ∧
        (x.homeOf ≠ s.boot.devId →
          (∀ v, r.away = some (.sums v) → v.length = o.sent.length → now = .next (s0.shareSums i r.group o x v)) ∧
          ∀ code, r.away = some (.trap code) → code = 0x30 ∨ code = 0x31 ∨ code = 0x33 → now = .next (failed s0 code))) ∧
    ∀ id next ts n c s0 s1 v, gr.fetch = some (.engine id next ts) → (s.core gr.core).queue[n]? = some c → s.session? c.session = some x →
      ((s.core gr.core).queue.findIdx? fun c => c.id == id && c.op == 11 && c.running && c.sums.isNone) = some n →
      packet 0 = some s0 → x.homeOf = s.boot.devId →
      s0.takeAnswer x.id me c.smmaTag.lbase c.smmaTag.seq 0 = some (.sums v, s1) →
      now = .next (s1.setCmd gr.core n { c with sums := some v })

/-! ## The invariant -/

/-- R114, R134, R135. Every step keeps the invariant: memory and every scratchpad stay in canonical form, and no issue is left in
progress. -/
def Obligations.StepKeepsInvariant : Prop :=
  ∀ s s' : State, Inv s → step s = .next s' → Inv s'

end
end

