-- ==== Sys2Proof/Laws/Memory.lean ====
section
/-! SUPPORT. Bytes in canonical form: every operation keeps the form, and a read after a write gives what was written at the
bytes written and what was there before elsewhere. -/

namespace Sys2Proof.Laws

open Sys2Proof.Machine
open Host (Cell)

/-- Every address of a list is at least lo. -/
def From (lo : Nat) (m : List Cell) : Prop := ∀ c ∈ m, lo ≤ c.1

/-- The canonical form, cell by cell. -/
theorem wf_cons (k : Nat) (b : Byte) (r : List Cell) :
    cellsWf ((k, b) :: r) = true ↔ b ≠ 0 ∧ From (k + 1) r ∧ cellsWf r = true := by
  induction r generalizing k b with
  | nil => simp [cellsWf, From]
  | cons c r ih =>
    obtain ⟨k', b'⟩ := c
    simp only [cellsWf, Bool.and_eq_true, decide_eq_true_eq, bne_iff_ne, ne_eq]
    constructor
    · rintro ⟨⟨h1, h2⟩, h3⟩
      refine ⟨h1, ?_, h3⟩
      obtain ⟨-, h4, -⟩ := (ih k' b').1 h3
      intro c hc
      rcases List.mem_cons.1 hc with rfl | hc
      · exact h2
      · exact Nat.le_trans (by omega) (h4 c hc)
    · rintro ⟨h1, h2, h3⟩
      exact ⟨⟨h1, h2 (k', b') (by simp)⟩, h3⟩

theorem wf_tail {c : Cell} {r : List Cell} (h : cellsWf (c :: r) = true) : cellsWf r = true := ((wf_cons c.1 c.2 r).1 h).2.2

/-- Below every listed address memory reads as zero. -/
theorem get_below (m : List Cell) (a : Nat) (h : From (a + 1) m) : cellsGet m a = 0 := by
  cases m with
  | nil => rfl
  | cons c r => have := h c (by simp); simp only [cellsGet, if_pos (show a < c.1 by omega)]

theorem set_from (lo : Nat) (m : List Cell) (a : Nat) (v : Byte) (h : From lo m) (ha : lo ≤ a) : From lo (cellsSet m a v) := by
  induction m with
  | nil => unfold cellsSet; split <;> intro c hc <;> simp_all
  | cons c r ih =>
    obtain ⟨k, b⟩ := c
    have hr : From lo r := fun c hc => h c (by simp [hc])
    unfold cellsSet
    split
    · split
      · exact h
      · intro c hc; rcases List.mem_cons.1 hc with rfl | hc
        · exact ha
        · exact h c hc
    · split
      · split
        · exact hr
        · intro c hc; rcases List.mem_cons.1 hc with rfl | hc
          · exact ha
          · exact hr c hc
      · intro c hc; rcases List.mem_cons.1 hc with rfl | hc
        · exact h _ (by simp)
        · exact ih hr c hc

/-- Writing a byte keeps the canonical form. -/
theorem set_wf (m : List Cell) (a : Nat) (v : Byte) (h : cellsWf m = true) : cellsWf (cellsSet m a v) = true := by
  induction m with
  | nil => unfold cellsSet; split <;> simp_all [cellsWf]
  | cons c r ih =>
    obtain ⟨k, b⟩ := c
    obtain ⟨hb, hf, hr⟩ := (wf_cons k b r).1 h
    unfold cellsSet
    split
    · split
      · exact h
      · refine (wf_cons a v _).2 ⟨‹_›, ?_, h⟩
        intro c hc; rcases List.mem_cons.1 hc with rfl | hc
        · show a + 1 ≤ k; omega
        · have := hf c hc; omega
    · split
      · split
        · exact hr
        · subst_vars; exact (wf_cons _ v _).2 ⟨‹_›, hf, hr⟩
      · exact (wf_cons k b _).2 ⟨hb, set_from _ _ _ _ hf (by omega), ih hr⟩

/-- A byte written reads back, and every other byte reads as before. -/
theorem get_set (m : List Cell) (a b : Nat) (v : Byte) (h : cellsWf m = true) :
    cellsGet (cellsSet m a v) b = if b = a then v else cellsGet m b := by
  induction m with
  | nil =>
    unfold cellsSet; split
    · subst_vars; simp [cellsGet]
    · simp only [cellsGet]; split
      · rw [if_neg (by omega)]
      · rfl
  | cons c r ih =>
    obtain ⟨k, w⟩ := c
    obtain ⟨hb, hf, hr⟩ := (wf_cons k w r).1 h
    unfold cellsSet
    split
    · split
      · subst_vars; split
        · subst_vars; simp [cellsGet, *]
        · rfl
      · simp only [cellsGet]; split
        · rw [if_neg (by omega), if_pos (by omega)]
        · rfl
    · split
      · subst_vars
        split
        · subst_vars
          by_cases hbk : b = k
          · subst hbk; simp [get_below r b hf]
          · rw [if_neg hbk]
            simp only [cellsGet]
            split
            · exact get_below r b fun c hc => by have := hf c hc; omega
            · simp
        · simp only [cellsGet]; split
          · rw [if_neg (by omega)]
          · split
            · subst_vars; simp
            · simp_all
      · simp only [cellsGet]
        split
        · rw [if_neg (by omega)]
        · split
          · subst_vars; rw [if_neg (by omega)]
          · exact ih hr

theorem write_wf (bs : List Byte) (m : List Cell) (a : Nat) (h : cellsWf m = true) : cellsWf (cellsWrite m a bs) = true := by
  induction bs generalizing m a with
  | nil => exact h
  | cons b bs ih => exact ih _ _ (set_wf m a b h)

/-- Bytes written at consecutive addresses read back; every other byte reads as before. -/
theorem get_write (bs : List Byte) (m : List Cell) (a b : Nat) (h : cellsWf m = true) :
    cellsGet (cellsWrite m a bs) b = if a ≤ b ∧ b < a + bs.length then bs.getD (b - a) 0 else cellsGet m b := by
  induction bs generalizing m a with
  | nil => rw [if_neg (by simp)]; rfl
  | cons c bs ih =>
    rw [cellsWrite, ih _ _ (set_wf m a c h), get_set m a b c h]
    by_cases h1 : b = a
    · subst h1; rw [if_neg (by omega), if_pos rfl, if_pos (by simp)]; simp
    · by_cases h2 : a + 1 ≤ b ∧ b < a + 1 + bs.length
      · have e : b - a = (b - (a + 1)) + 1 := by omega
        rw [if_pos h2, if_pos (by simp; omega), e, List.getD_cons_succ]
      · rw [if_neg h2, if_neg h1, if_neg (by simp; omega)]

/-- What is read where bytes have just been written is what was written. -/
theorem read_write (bs : List Byte) (m : List Cell) (a : Nat) (h : cellsWf m = true) :
    cellsRead (cellsWrite m a bs) a bs.length = bs := by
  have key : ∀ (n k : Nat), k + n = bs.length → cellsRead (cellsWrite m a bs) (a + k) n = bs.drop k := by
    intro n
    induction n with
    | zero => intro k hk; simp [cellsRead, List.drop_eq_nil_of_le (Nat.le_of_eq (by omega : bs.length = k))]
    | succ n ih =>
      intro k hk
      rw [cellsRead, get_write bs m a _ h, if_pos (by omega), Nat.add_assoc, ih (k + 1) (by omega)]
      have hk' : k < bs.length := by omega
      rw [List.drop_eq_getElem_cons hk', Nat.add_sub_cancel_left, List.getD_eq_getElem?_getD, List.getElem?_eq_getElem hk']
      rfl
  have := key bs.length 0 (by omega)
  simpa using this

theorem filter_from (lo : Nat) (m : List Cell) (p : Cell → Bool) (h : From lo m) : From lo (m.filter p) :=
  fun c hc => h c (List.mem_of_mem_filter hc)

/-- Keeping some of the cells keeps the canonical form. -/
theorem filter_wf (m : List Cell) (p : Cell → Bool) (h : cellsWf m = true) : cellsWf (m.filter p) = true := by
  induction m with
  | nil => rfl
  | cons c r ih =>
    obtain ⟨hb, hf, hr⟩ := (wf_cons c.1 c.2 r).1 h
    rw [List.filter_cons]; split
    · exact (wf_cons c.1 c.2 _).2 ⟨hb, filter_from _ _ _ hf, ih hr⟩
    · exact ih hr

theorem clear_wf (m : List Cell) (lo hi : Nat) (h : cellsWf m = true) : cellsWf (cellsClear m lo hi) = true := filter_wf _ _ h

/-- Folding writes that keep the form keeps it. -/
theorem foldl_wf {α : Type} (f : List Cell → α → List Cell) (hf : ∀ m x, cellsWf m = true → cellsWf (f m x) = true)
    (l : List α) (m : List Cell) (h : cellsWf m = true) : cellsWf (l.foldl f m) = true := by
  induction l generalizing m with
  | nil => exact h
  | cons x l ih => exact ih _ (hf m x h)

end Sys2Proof.Laws
end

