-- ==== Sys2Proof/Laws/Lane.lean ====
section
/-! SUPPORT. Lists updated at one place, and the closed form of what a retiring issue leaves: delivering results thread by
thread is the one update `retired`, and every lane operation that is clear of traps and ports retires so. -/

namespace Sys2Proof.Laws

open Sys2Proof.Machine Sys2Proof.Safety

theorem modify_modify {α} (l : List α) (i : Nat) (f g : α → α) : (l.modify i f).modify i g = l.modify i (fun x => g (f x)) := by
  apply List.ext_getElem?; intro j
  simp only [List.getElem?_modify]
  by_cases h : i = j <;> simp [h, Function.comp_def]

theorem modify_congr {α} (l : List α) (i : Nat) (f g : α → α) (h : ∀ x, l[i]? = some x → f x = g x) : l.modify i f = l.modify i g := by
  apply List.ext_getElem?; intro j
  simp only [List.getElem?_modify]
  by_cases hij : i = j
  · subst hij
    cases hx : l[i]? with
    | none => simp
    | some x => simp [h x hx]
  · simp [hij]

/-- Pending marks of a list of registers set or cleared: nothing else of the thread changes. -/
theorem foldl_setPend (l : List Nat) (b : Bool) (th : Thread) : l.foldl (fun th r => th.setPend r b) th =
    { th with pend := l.foldl (fun p r => if r < 60 then p.set r b else p) th.pend } := by
  induction l generalizing th with
  | nil => rfl
  | cons r l ih =>
    rw [List.foldl_cons, ih, List.foldl_cons]
    unfold Thread.setPend
    split <;> rfl
theorem foldl_setPend_pc (l : List Nat) (th : Thread) : (l.foldl (fun th r => th.setPend r true) th).pc = th.pc := by
  rw [foldl_setPend]

/-! ### Flags raised twice in a cycle are those raised once together -/

theorem raisedNow_zero {w : Nat} (n : Nat) (o : Nat × BitVec w) : raisedNow n 0 o = o := if_pos rfl
theorem raisedNow_raisedNow {w : Nat} (n : Nat) (f h : BitVec w) (o : Nat × BitVec w) :
    raisedNow n f (raisedNow n h o) = raisedNow n (h ||| f) o := by
  by_cases hh : h = 0
  · subst hh; rw [raisedNow_zero, show (0 : BitVec w) ||| f = f from BitVec.zero_or]
  by_cases hf : f = 0
  · subst hf; rw [raisedNow_zero, show h ||| (0 : BitVec w) = h from BitVec.or_zero]
  have ho : h ||| f ≠ 0 := fun e => hh (BitVec.or_eq_zero_iff.1 e).1
  simp only [raisedNow, hh, hf, ho, if_false]
  split <;> simp [BitVec.or_assoc]

theorem raiseBits_zero (n : Nat) (c : Context) : c.raiseBits n 0 = c := by
  simp only [Context.raiseBits, show (0 : Flags).zeroExtend 32 = (0 : BitVec 32) from rfl, raisedNow_zero]
  simp
theorem raiseBits_raiseBits (n : Nat) (f h : Flags) (c : Context) :
    (c.raiseBits n h).raiseBits n f = c.raiseBits n (h ||| f) := by
  simp [Context.raiseBits, raisedNow_raisedNow, BitVec.or_assoc]
theorem groupRaise_zero (n : Nat) (x : Group) : x.raiseBits n 0 = x := by
  simp only [Group.raiseBits, raisedNow_zero]
  simp
theorem threadRaise_zero (n : Nat) (th : Thread) : th.raiseBits n 0 = th := by
  simp only [Thread.raiseBits, raisedNow_zero]
  simp
theorem groupRaise_groupRaise (n : Nat) (f h : Flags) (x : Group) :
    (x.raiseBits n h).raiseBits n f = x.raiseBits n (h ||| f) := by
  simp [Group.raiseBits, raisedNow_raisedNow, BitVec.or_assoc]
theorem groupRaise_threads (n : Nat) (f : Flags) (x : Group) : (x.raiseBits n f).threads = x.threads := rfl
theorem groupRaise_key (n : Nat) (f : Flags) (x : Group) : (x.raiseBits n f).key = x.key := rfl

theorem retiredGroup_one (n marks next) (t : Nat) (r : LaneRes) (x : Group) :
    (((x.modThread t fun th => th.apply marks r).modThread t (Thread.raiseBits n r.flags)).raiseBits n r.flags).modThread t
      (fun th => th.goOn next) = retiredGroup n marks next [(t, r)] x := by
  have h : (x.threads.modify t fun th => ((th.apply marks r).raiseBits n r.flags).goOn next) =
      x.threads.mapIdx fun u th => match resultOf [(t, r)] u with
        | some r => retiredThread n marks next r th
        | none => th := by
    apply List.ext_getElem?; intro j
    simp only [List.getElem?_modify, List.getElem?_mapIdx, resultOf, List.find?]
    by_cases h : t = j
    · subst h; cases x.threads[t]? <;> simp [retiredThread]
    · have : (t == j) = false := by simpa using h
      cases x.threads[j]? <;> simp [h, this]
  have hf : allFlags [(t, r)] = r.flags := by simp [allFlags]
  unfold retiredGroup
  rw [hf]
  refine Eq.trans ?_ (congrArg (fun l => Group.raiseBits n r.flags { x with threads := l }) h)
  simp only [Group.modThread, Group.raiseBits, modify_modify]

theorem ctx_one (i inc n : Nat) (r : LaneRes) (t : Nat) (c : Context) (hi : inc ≠ 0) :
   meterAdd i inc (c.raiseBits n r.flags) = countIn [(t, r)].length i inc (c.raiseBits n (allFlags [(t, r)])) := by
  simp [countIn, hi, allFlags]

theorem deliver_eq (s : State) (g t : Nat) (gr : Group) (marks cat inc next) (r : LaneRes) (hg : s.groups[g]? = some gr) (hs : r.send = none) :
    s.deliver g t gr.key marks r cat inc next = retired s g gr marks next cat inc [(t, r)] := by
  simp only [State.deliver, hs, State.finish]
  have h1 : (s.modThread g t fun th => th.apply marks r).groups[g]? = some (gr.modThread t fun th => th.apply marks r) := by
    simp [State.modThread, State.modGroup, hg]
  have hk : (gr.modThread t fun th => th.apply marks r).key = gr.key := rfl
  have h2 : (fun x : Group => (((x.modThread t fun th => th.apply marks r).modThread t
      (Thread.raiseBits s.cycle r.flags)).raiseBits s.cycle r.flags).modThread t fun th => th.goOn next) =
      retiredGroup s.cycle marks next [(t, r)] := by funext x; exact retiredGroup_one ..
  simp only [State.raise, h1, hk]
  by_cases hi : inc = 0
  · simp only [State.meter, hi, if_true, retired, countIn, State.modThread, State.modGroup, State.modCtx, modify_modify]
    congr 1
    · simp [allFlags]; rfl
    · exact congrArg _ h2
  · simp only [State.meter, hi, if_false, retired, State.modThread, State.modGroup, State.modCtx, modify_modify]
    congr 1
    · congr 1; funext x; rw [← ctx_one _ _ _ _ _ _ hi]; rfl
    · exact congrArg _ h2

theorem retiredGroup_cons (n marks next) (p : Nat × LaneRes) (rest : Results) (hp : ∀ q ∈ rest, q.1 ≠ p.1) (x : Group) :
    retiredGroup n marks next rest (retiredGroup n marks next [p] x) = retiredGroup n marks next (p :: rest) x := by
  have hf : allFlags [p] ||| allFlags rest = allFlags (p :: rest) := by simp [allFlags]
  simp only [retiredGroup]
  rw [← hf, ← groupRaise_groupRaise]
  congr 1
  simp only [Group.raiseBits, Group.mk.injEq, true_and]
  apply List.ext_getElem?; intro j
  simp only [List.getElem?_mapIdx, resultOf, List.find?, Option.map_map]
  cases x.threads[j]? with
  | none => rfl
  | some th =>
    simp only [Option.map_some, Function.comp]
    by_cases h : p.1 == j
    · have hn : rest.find? (fun q => q.1 == j) = none := by
        simp only [List.find?_eq_none]; intro q hq hqj; exact hp q hq ((beq_iff_eq.1 hqj).trans (beq_iff_eq.1 h).symm)
      simp [h, hn]
    · simp [h]

theorem countIn_cons (n i inc) (c : Context) : countIn n i inc (countIn 1 i inc c) = countIn (n + 1) i inc c := by
  unfold countIn; split
  · rfl
  · simp [Function.iterate_succ]

theorem raiseBits_countIn (n i inc m) (f : Flags) (c : Context) :
    (countIn n i inc c).raiseBits m f = countIn n i inc (c.raiseBits m f) := by
  unfold countIn; split
  · rfl
  · induction n generalizing c with
    | zero => rfl
    | succ n ih => simp only [Function.iterate_succ, Function.comp]; rw [ih]; rfl
theorem allFlags_cons (p rest) : allFlags (p :: rest) = p.2.flags ||| allFlags rest := by simp [allFlags]

theorem bank_groups (s : State) (gs : List Group) (cs : List Context) (c : Nat) (r : Word) :
    ({ s with groups := gs, ctxs := cs } : State).bank c r = s.bank c r := rfl
theorem cycle_groups (s : State) (gs : List Group) (cs : List Context) :
    ({ s with groups := gs, ctxs := cs } : State).cycle = s.cycle := rfl

theorem retired_cons (s : State) (g gr marks next cat inc) (p : Nat × LaneRes) (rest : Results) (hp : ∀ q ∈ rest, q.1 ≠ p.1) :
    retired (retired s g gr marks next cat inc [p]) g gr marks next cat inc rest = retired s g gr marks next cat inc (p :: rest) := by
  unfold retired
  simp only [modify_modify]
  congr 1
  · congr 1; funext c
    simp only [cycle_groups, bank_groups]
    rw [raiseBits_countIn, raiseBits_raiseBits, List.length_singleton, countIn_cons, allFlags_cons, allFlags_cons, List.length_cons]
    simp [allFlags]
  · congr 1; funext x; exact retiredGroup_cons _ _ _ _ _ hp _

theorem retiredGroup_nil (n marks next x) : retiredGroup n marks next [] x = x := by
  have h : (x.threads.mapIdx fun u th => match resultOf [] u with
      | some r => retiredThread n marks next r th
      | none => th) = x.threads := by
    apply List.ext_getElem?; intro j
    cases h : x.threads[j]? <;> simp [resultOf, h]
  unfold retiredGroup
  exact (congrArg (fun ts => Group.raiseBits n 0 { x with threads := ts }) h).trans (groupRaise_zero n x)
theorem retired_nil (s : State) (g gr marks next cat inc) : retired s g gr marks next cat inc [] = s := by
  unfold retired
  have h1 : (fun c : Context => countIn ([] : Results).length (2 * cat + s.bank gr.key.ctx gr.key.node) inc (c.raiseBits s.cycle (allFlags []))) = id := by
    funext c; simp [countIn, allFlags]; exact raiseBits_zero ..
  have h2 : retiredGroup s.cycle marks next [] = id := by funext x; exact retiredGroup_nil ..
  rw [h1, h2]; simp

theorem deliverAll_eq (ts : List Nat) (rs : List LaneRes) (s : State) (g : Nat) (gr : Group) (marks cat inc next)
    (hg : ∃ gr', s.groups[g]? = some gr' ∧ gr'.key = gr.key) (hn : ts.Nodup) (hs : ∀ r ∈ rs, r.send = none) :
    s.deliverAll g gr.key marks cat inc next ts rs = retired s g gr marks next cat inc (ts.zip rs) := by
  induction ts generalizing rs s with
  | nil => rw [List.zip_nil_left, retired_nil]; rfl
  | cons t ts ih =>
    cases rs with
    | nil => rw [List.zip_nil_right, retired_nil]; rfl
    | cons r rs =>
      obtain ⟨gr', hg, hk⟩ := hg
      have he : retired s g gr' marks next cat inc [(t, r)] = retired s g gr marks next cat inc [(t, r)] := by
        simp only [retired, hk]
      rw [State.deliverAll, ← hk, deliver_eq _ _ _ gr' _ _ _ _ _ hg (hs r (by simp)), hk, he, ih, List.zip_cons_cons, retired_cons]
      · intro q hq e
        have hm := (List.of_mem_zip (show (q.1, q.2) ∈ ts.zip rs from hq)).1
        rw [e] at hm; exact (List.nodup_cons.1 hn).1 hm
      · exact ⟨retiredGroup s.cycle marks next [(t, r)] gr', by simp [retired, hg], hk⟩
      · exact (List.nodup_cons.1 hn).2
      · intro r' hr'; exact hs r' (by simp [hr'])

/-! ## Lane operations -/

theorem pendingIn_none (gr : Group) (l : List (Nat × Nat)) (h : NonePending gr l) : pendingIn gr l = none := by
  induction l with
  | nil => rfl
  | cons p l ih =>
    rw [pendingIn, h p (by simp)]
    exact ih fun q hq => h q (by simp [hq])
theorem firstPending_none (gr : Group) (regs : Nat → List (Nat × Nat)) (set : List Nat)
    (h : ∀ t ∈ set, NonePending gr (regs t)) : firstPending gr regs set = none := by
  induction set with
  | nil => rfl
  | cons t ts ih =>
    rw [firstPending, pendingIn_none _ _ (h t (by simp))]
    exact ih fun u hu => h u (by simp [hu])
theorem pendChk_ok (gr : Group) (l : List (Nat × Nat)) (h : NonePending gr l) : pendChk gr l = .ok (.scr 0) := by
  rw [pendChk, pendingIn_none _ _ h]

theorem firstBad_none (f : Nat → Chk) (set : List Nat) (h : ∀ t ∈ set, ∃ l, f t = .ok l) : firstBad f set = none := by
  induction set with
  | nil => rfl
  | cons t ts ih =>
    obtain ⟨l, hl⟩ := h t (by simp)
    rw [firstBad, hl]
    exact ih fun u hu => h u (by simp [hu])

/-- The first thread of a list whose check is not passed, where the ones before it pass. -/
theorem firstBad_append (f : Nat → Chk) (l r : List Nat) (h : ∀ t ∈ l, ∃ x, f t = .ok x) : firstBad f (l ++ r) = firstBad f r := by
  induction l with
  | nil => rfl
  | cons t ts ih =>
    obtain ⟨x, hx⟩ := h t (by simp)
    rw [List.cons_append, firstBad, hx]
    exact ih fun u hu => h u (by simp [hu])

theorem clear_check (op : LaneOp) (a : Act) (gr : Group) (s : State) (h : Clear op s gr a.set) : op.check a gr s = none := by
  unfold LaneOp.check
  have h1 : op.need.all s.feature = true := by simpa using h.features
  have h2 : (op.noHandler && gr.key.kind == .handler) = false := by
    cases hn : op.noHandler
    · rfl
    · simpa using h.kind hn
  rw [h1, h2, h.fields, firstBad_none]
  · rfl
  · intro t ht
    exact ⟨.scr 0, by simp [LaneOp.threadCheck, h.noQs, pendChk_ok _ _ (h.ready t ht)]⟩

/-- Register fields that name no qs send nothing. -/
def Quiet (op : LaneOp) : Prop :=
  op.sends = false → ∀ s gr set, ∀ r ∈ op.eval s gr set, r.send = none

theorem withIssue_eq (i : Instr) (s : State) (f : Act → Group → State → State) (g : Nat) (set : List Nat) (gr : Group)
    (h : Issuing s g set gr) (hw : i.wf = true) :
    withIssue i s f = .next (f (theAct i g set gr) gr (idle s)) := by
  simp [withIssue, h.cur, h.group, hw, theAct, pcOf, idle]

theorem idle_group {s : State} {g : Nat} {set : List Nat} {gr : Group} (h : Issuing s g set gr) : (idle s).groups[g]? = some gr :=
  h.group
theorem theAct_lead (i : Instr) (g : Nat) (set : List Nat) (gr : Group) : (theAct i g set gr).lead = set.headD 0 := rfl

theorem rising_nodup {l : List Nat} (h : l.Pairwise (· < ·)) : l.Nodup := h.imp fun h => Nat.ne_of_lt h

/-- A lane operation clear of traps and ports retires. -/
theorem laneRun_eq (i : Instr) (op : LaneOp) (s : State) (g : Nat) (set : List Nat) (gr : Group)
    (h : Issuing s g set gr) (hc : Clear op s gr set) (hq : Quiet op) :
    op.run (theAct i g set gr) gr (idle s) = retiredLane op i s g gr set := by
  rw [LaneOp.run, clear_check op _ gr (idle s) ⟨hc.1, hc.2, hc.3, hc.4, hc.5, hc.6⟩]
  simp only [hc.noQr, Bool.false_eq_true, if_false]
  rw [deliverAll_eq (theAct i g set gr).set _ (idle s) (theAct i g set gr).g gr _ _ _ _ ⟨gr, h.group, rfl⟩
    (rising_nodup h.rising)]
  · rfl
  · intro r hr
    simp only [LaneOp.results, List.mem_map] at hr
    obtain ⟨p, hp, rfl⟩ := hr
    exact hq hc.noQs _ _ _ p.2 (List.of_mem_zip (show (p.1, p.2) ∈ _ from hp)).2

theorem laneExec_eq (i : Instr) (op : LaneOp) (s : State) (g : Nat) (set : List Nat) (gr : Group)
    (h : Issuing s g set gr) (hw : i.wf = true) (hc : Clear op s gr set) (hq : Quiet op) :
    laneExec i op s = .next (retiredLane op i s g gr set) := by
  rw [laneExec, withIssue_eq i s _ g set gr h hw, laneRun_eq i op s g set gr h hc hq]

/-- A TBL is its lane operation and, where it meets no trap, what it notes. -/
theorem exec_tbl (k a d s) : exec (.tbl k a d) s = withIssue (.tbl k a d) s fun act gr s =>
    let op := tblOp k a d
    if (op.check act gr s).isSome then op.run act gr s else noted (.tbl k a d) s act.g gr act.set (op.run act gr s) := by
  show execTbl k a d s = _
  unfold execTbl
  refine congrArg (withIssue (.tbl k a d) s) ?_
  funext act gr s
  dsimp only
  split
  · rfl
  · by_cases ha : a = 61
    · simp only [noted, ha, if_true]; rfl
    · simp only [noted, ha, if_false]; rfl

/-- The meaning of every lane instruction is the one shared operation, and of TBL what it notes beside it. -/
theorem exec_lane (i : Instr) (op : LaneOp) (s : State) (h : laneForm i = some op) :
    exec i s = withIssue i s fun a gr s =>
      if (op.check a gr s).isSome then op.run a gr s else noted i s a.g gr a.set (op.run a gr s) := by
  cases i <;> first | (cases h; done) | (cases h; simp only [noted, ite_self]; rfl) | (cases h; exact exec_tbl _ _ _ _)

/-- A lane instruction that meets a trap takes it, and nothing else happens. -/
theorem exec_lane_trap (i : Instr) (op : LaneOp) (s : State) (g : Nat) (set : List Nat) (gr : Group) (x : Nat × BitVec 8 × Word)
    (hf : laneForm i = some op) (h : Issuing s g set gr) (hw : i.wf = true)
    (hx : op.check (theAct i g set gr) gr (idle s) = some x) : exec i s = .next ((theAct i g set gr).trap (idle s) x.1 x.2.1 x.2.2) := by
  rw [exec_lane i op s hf, withIssue_eq i s _ g set gr h hw]
  simp only [hx, Option.isSome_some, if_true, LaneOp.run]

/-- A lane instruction that meets none runs. -/
theorem exec_lane_clear (i : Instr) (op : LaneOp) (s : State) (g : Nat) (set : List Nat) (gr : Group) (hf : laneForm i = some op)
    (h : Issuing s g set gr) (hw : i.wf = true) (hc : Clear op s gr set) (hq : Quiet op) :
    exec i s = .next (noted i (idle s) g gr set (retiredLane op i s g gr set)) := by
  have hk := clear_check op (theAct i g set gr) gr (idle s) ⟨hc.1, hc.2, hc.3, hc.4, hc.5, hc.6⟩
  rw [exec_lane i op s hf, withIssue_eq i s _ g set gr h hw, laneRun_eq i op s g set gr h hc hq, hk]
  rfl

theorem oneRes_send (d : Nat) (r : Word × Flags) (h : d ≠ 60) : (oneRes d r).send = none := by
  unfold oneRes; split
  · contradiction
  · split <;> rfl
theorem pairRes_send (d : Nat) (v : DWord) (f : Flags) : (pairRes d v f).send = none := by unfold pairRes; split <;> rfl

theorem quiet_perThread (op : LaneOp) (f : State → Group → Nat → LaneRes) (he : op.eval = perThread f)
    (hf : op.sends = false → ∀ s gr t, (f s gr t).send = none) : Quiet op := by
  intro hs s gr set r hr
  rw [he] at hr
  simp only [perThread, List.mem_map] at hr
  obtain ⟨t, -, rfl⟩ := hr
  exact hf hs s gr t

/-- A field of an operation that sends nothing is not qs. -/
theorem sends_ne {op : LaneOp} (hs : op.sends = false) {f : Field} (hf : f ∈ op.fields) : f.num ≠ 60 := by
  intro h
  have : op.sends = true := List.any_eq_true.2 ⟨f, hf, by simp [h]⟩
  simp [hs] at this

theorem quiet_groupOp {scan : Bool} {code d : Nat} (h : d ≠ 60) (gr : Group) (set : List Nat) (x : Nat → Word) :
    ∀ r ∈ groupOp scan code d gr set x, r.send = none := by
  intro r hr
  unfold groupOp at hr
  split at hr <;> simp only [List.mem_map, List.map_map] at hr <;> obtain ⟨v, -, rfl⟩ := hr <;> exact oneRes_send _ _ h

theorem quiet_formA {f rd cat inc y x b a d} : Quiet (formA f rd cat inc y x b a d) := by
  refine quiet_perThread _ _ rfl fun h s gr t => oneRes_send _ _ ?_
  cases rd <;> simpa [LaneOp.sends, formA, srcF, dstF, updF] using fun hd => by simp_all [LaneOp.sends, formA, srcF, dstF, updF]
theorem quiet_formA1 {f cat inc x a d} : Quiet (formA1 f cat inc x a d) := by
  refine quiet_perThread _ _ rfl fun h s gr t => oneRes_send _ _ ?_
  intro hd; simp_all [LaneOp.sends, formA1, srcF, dstF]
theorem quiet_formX {f cat inc p pat a d} : Quiet (formX f cat inc p pat a d) := by
  refine quiet_perThread _ _ rfl fun h s gr t => oneRes_send _ _ ?_
  intro hd; simp_all [LaneOp.sends, formX, updF]
theorem quiet_formXMov {p pat a d} : Quiet (formXMov p pat a d) := by
  refine quiet_perThread _ _ rfl fun h s gr t => oneRes_send _ _ ?_
  intro hd; simp_all [LaneOp.sends, formXMov, outF]
theorem quiet_formI {f rd cat inc im a d} : Quiet (formI f rd cat inc im a d) := by
  refine quiet_perThread _ _ rfl fun h s gr t => oneRes_send _ _ ?_
  intro hd; cases rd <;> simp_all [LaneOp.sends, formI, srcF, dstF, updF]
theorem quiet_formW {f rd d} : Quiet (formW f rd d) := by
  refine quiet_perThread _ _ rfl fun h s gr t => oneRes_send _ _ ?_
  intro hd; cases rd <;> simp_all [LaneOp.sends, formW, dstF, updF]

end Sys2Proof.Laws
end

