-- ==== Sys2Proof/Laws/Threads.lean ====
section
/-! SUPPORT. Updates of the threads of an issue set one after another are one update; PZ raised thread by thread is one
raise of flags; and the frames of system instructions and branches, clear of traps. -/

namespace Sys2Proof.Laws

open Sys2Proof.Machine Sys2Proof.Safety

/-! ## Folds over the threads of a set -/

theorem onGroup_nil (f : Nat → Thread → Thread) : onGroup [] f = id := by
  funext gr
  have h : (gr.threads.mapIdx fun u th => if ([] : List Nat).contains u then f u th else th) = gr.threads := by
    apply List.ext_getElem?; intro j; simp
  unfold onGroup; rw [h]; rfl

theorem onGroup_cons (t : Nat) (ts : List Nat) (f : Nat → Thread → Thread) (h : t ∉ ts) (gr : Group) :
    onGroup ts f (gr.modThread t (f t)) = onGroup (t :: ts) f gr := by
  simp only [onGroup, Group.modThread]; congr 1
  apply List.ext_getElem?; intro j
  simp only [List.getElem?_mapIdx, List.getElem?_modify]
  by_cases hj : t = j
  · subst hj; cases gr.threads[t]? <;> simp [h]
  · have h2 : ¬ j = t := fun e => hj e.symm
    cases gr.threads[j]? <;> simp [hj, h2]

theorem onGroup_single (t : Nat) (f : Thread → Thread) (gr : Group) : gr.modThread t f = onGroup [t] (fun _ => f) gr := by
  rw [← onGroup_cons t [] (fun _ => f) (by simp), onGroup_nil]; rfl

theorem onThreads_nil (s : State) (g : Nat) (f : Nat → Thread → Thread) : onThreads s g [] f = s := by
  unfold onThreads; rw [onGroup_nil]; simp

theorem onThreads_cons (s : State) (g t : Nat) (ts : List Nat) (f : Nat → Thread → Thread) (h : t ∉ ts) :
    onThreads (s.modThread g t (f t)) g ts f = onThreads s g (t :: ts) f := by
  simp only [onThreads, State.modThread, State.modGroup, modify_modify, onGroup_cons t ts f h]

theorem foldl_modThread (set : List Nat) (s : State) (g : Nat) (f : Nat → Thread → Thread) (h : set.Nodup) :
    set.foldl (fun s t => s.modThread g t (f t)) s = onThreads s g set f := by
  induction set generalizing s with
  | nil => rw [onThreads_nil]; rfl
  | cons t ts ih =>
    rw [List.foldl_cons, ih _ (List.nodup_cons.1 h).2, onThreads_cons _ _ _ _ _ (List.nodup_cons.1 h).1]

theorem goAll_eq (s : State) (g : Nat) (set : List Nat) (pc : Word) (h : set.Nodup) :
    s.goAll g set pc = onThreads s g set fun _ th => th.goOn pc := foldl_modThread _ _ _ _ h
theorem blockAll_eq (s : State) (g : Nat) (set : List Nat) (w : Wait) (h : set.Nodup) :
    s.blockAll g set w = onThreads s g set fun _ th => th.block w := foldl_modThread _ _ _ _ h
theorem each_eq (a : Act) (s : State) (f : Nat → Thread → Thread) (h : a.set.Nodup) :
    a.each s f = onThreads s a.g a.set fun t th => (f t th).goOn a.next := foldl_modThread _ _ _ (fun t th => (f t th).goOn a.next) h

/-! ## Flags -/

theorem flagGroup_nil (n : Nat) (fl : Nat → Flags) : flagGroup n [] fl = id := by
  funext x
  unfold flagGroup; rw [onGroup_nil]; exact groupRaise_zero n x

theorem flagged_nil (s : State) (g : Nat) (gr : Group) (fl : Nat → Flags) : flagged s g gr [] fl = s := by
  have h3 : Context.raiseBits s.cycle (orFlags [] fl) = id := by funext c; exact raiseBits_zero ..
  unfold flagged; rw [flagGroup_nil, h3]; simp

theorem flagGroup_cons (n t : Nat) (ts : List Nat) (fl : Nat → Flags) (h : t ∉ ts) (x : Group) :
    flagGroup n ts fl (flagGroup n [t] (fun _ => fl t) x) = flagGroup n (t :: ts) fl x := by
  have h1 := onGroup_cons t ts (fun u th => th.raiseBits n (fl u)) h x
  have h2 : (orFlags [t] fun _ => fl t) ||| orFlags ts fl = orFlags (t :: ts) fl := by simp [orFlags]
  rw [onGroup_single] at h1
  unfold flagGroup
  rw [← h2, ← groupRaise_groupRaise, ← h1]; rfl

theorem raise_eq (s : State) (g t : Nat) (gr : Group) (f : Flags) (h : ∃ x, s.groups[g]? = some x ∧ x.key = gr.key) :
    s.raise g t f = flagged s g gr [t] fun _ => f := by
  obtain ⟨x, hx, hk⟩ := h
  have h2 : (orFlags [t] fun _ => f) = f := by simp [orFlags]
  have h1 : ∀ y : Group, (y.modThread t (Thread.raiseBits s.cycle f)).raiseBits s.cycle f = flagGroup s.cycle [t] (fun _ => f) y := by
    intro y; unfold flagGroup; rw [onGroup_single, h2]
  simp only [State.raise, hx, hk, flagged, State.modCtx, State.modGroup, h1, h2]

theorem flagged_cons (s : State) (g : Nat) (gr : Group) (t : Nat) (ts : List Nat) (fl : Nat → Flags) (h : t ∉ ts) :
    flagged (flagged s g gr [t] fun _ => fl t) g gr ts fl = flagged s g gr (t :: ts) fl := by
  have h1 : ∀ n c, Context.raiseBits n (orFlags ts fl) (Context.raiseBits n (orFlags [t] fun _ => fl t) c)
      = Context.raiseBits n (orFlags (t :: ts) fl) c := by
    intro n c; rw [raiseBits_raiseBits]; simp [orFlags]
  simp only [flagged, modify_modify, flagGroup_cons _ t ts fl h, cycle_groups, h1]

theorem flagged_group (s : State) (g : Nat) (gr x : Group) (set : List Nat) (fl : Nat → Flags) (h : s.groups[g]? = some x) :
    ∃ y, (flagged s g gr set fl).groups[g]? = some y ∧ y.key = x.key := ⟨flagGroup s.cycle set fl x, by simp [flagged, h], rfl⟩

theorem raisePoison_eq (set : List Nat) (s : State) (g : Nat) (gr : Group) (reads : Nat → List (Nat × Nat)) (hn : set.Nodup)
    (h : ∃ x, s.groups[g]? = some x ∧ x.key = gr.key) :
    s.raisePoison g gr set reads = flagged s g gr set fun t => poisonFlag gr (reads t) := by
  unfold State.raisePoison
  induction set generalizing s with
  | nil => rw [flagged_nil]; rfl
  | cons t ts ih =>
    rw [List.foldl_cons, raise_eq s g t gr _ h, ih _ (List.nodup_cons.1 hn).2]
    · exact flagged_cons s g gr t ts (fun t => poisonFlag gr (reads t)) (List.nodup_cons.1 hn).1
    · obtain ⟨x, hx, hk⟩ := h
      obtain ⟨y, hy, hyk⟩ := flagged_group s g gr x [t] (fun _ => poisonFlag gr (reads t)) hx
      exact ⟨y, hy, hyk.trans hk⟩

/-! ## System instructions -/

theorem sysChecks_none (ill : Bool) (fs : List Field) (who : List Nat) (a : Act) (gr : Group) (s : State) (hi : ill = false)
    (h : Usable fs gr who) : sysChecks ill fs who a gr s = none := by
  simp [sysChecks, sysFields, hi, h.fields, firstPending_none _ _ _ h.ready]

theorem sysRun_eq (ill : Group → State → Bool) (fs : List Field) (f : Act → Group → State → State) (a : Act) (gr : Group)
    (s : State) (hi : ill gr s = false) (h : Usable fs gr a.set) (hn : a.set.Nodup)
    (hg : s.groups[a.g]? = some gr) : sysRun ill fs f a gr s = f a gr (poisoned s a.g gr a.set fs) := by
  rw [sysRun, sysChecks_none _ _ _ _ _ _ hi h, raisePoison_eq _ _ _ _ _ hn ⟨gr, hg, rfl⟩]; rfl

theorem onceRun_eq (ill : Group → State → Bool) (fs : List Field) (f : Act → Group → State → State) (a : Act) (gr : Group)
    (s : State) (hi : ill gr s = false) (h : Usable fs gr [a.lead])
    (hg : s.groups[a.g]? = some gr) : onceRun ill fs f a gr s = f a gr (poisoned s a.g gr [a.lead] fs) := by
  rw [onceRun, sysChecks_none _ _ _ _ _ _ hi h, raisePoison_eq _ _ _ _ _ (List.nodup_singleton _) ⟨gr, hg, rfl⟩]; rfl

/-- A system instruction in which every thread of the issue set updates itself. -/
theorem sysEach_eq (i : Instr) (s : State) (g : Nat) (set : List Nat) (gr : Group) (fs : List Field)
    (u : State → Group → List Nat → Nat → Thread → Thread) (h : Issuing s g set gr) (hw : i.wf = true) (hu : Usable fs gr set)
    (f : Act → Group → State → State)
    (hf : ∀ (a : Act) (s' : State), a.g = g → a.set = set → f a gr s' = a.each s' (u s' gr set)) :
    withIssue i s (sysRun legal fs f) = .next (onThreads (poisoned (idle s) g gr set fs) g set fun t th =>
      (u (poisoned (idle s) g gr set fs) gr set t th).goOn (nextPc i gr set)) := by
  rw [withIssue_eq i s _ g set gr h hw, sysRun_eq legal fs f (theAct i g set gr) gr (idle s) rfl hu (rising_nodup h.rising)
    (idle_group h), hf _ _ rfl rfl, each_eq _ _ _ (rising_nodup h.rising)]
  rfl

end Sys2Proof.Laws
end

