-- ==== Sys2Proof/Laws/Access.lean ====
section
/-! SUPPORT. What the places of an access depend on: not on threads, nor on the lines that stash windows hold; so accesses
of an issue set that read are performed at the places that they had before any of them. -/

namespace Sys2Proof.Laws

open Sys2Proof.Machine Sys2Proof.Safety

/-! ## The part of the state that accesses depend on -/

def bareWin (w : StashWin) : StashWin := { w with lines := [] }
def bareTeam (t : Team) : Team := { t with windows := t.windows.map bareWin }
def bareCtx (c : Context) : Context := { c with flags := 0, raised := (0, 0) }
def bare (s : State) : State := { s with cur := none, groups := [], teams := s.teams.map bareTeam, ctxs := s.ctxs.map bareCtx }

theorem ctx_bare (s : State) (c : Nat) : (bare s).ctx c = bareCtx (s.ctx c) := by
  show (s.ctxs.map bareCtx).getD c {} = bareCtx (s.ctxs.getD c {})
  simp only [List.getD_eq_getElem?_getD, List.getElem?_map]
  cases s.ctxs[c]? <;> rfl

theorem find_map_bare (k : TKey) (l : List Team) :
    (l.map bareTeam).find? (fun t => t.key == k) = (l.find? fun t => t.key == k).map bareTeam := by
  induction l with
  | nil => rfl
  | cons t l ih =>
    simp only [List.map_cons, List.find?_cons]
    have : (bareTeam t).key = t.key := rfl
    rw [this]; split
    · rfl
    · exact ih

theorem team_bare (s : State) (k : TKey) : (bare s).team? k = (s.team? k).map bareTeam := find_map_bare k s.teams

theorem window_bare (t : Team) (a : Nat) : (bareTeam t).window? a = (t.window? a).map bareWin := by
  unfold Team.window?
  show (t.windows.map bareWin).find? _ = _
  induction t.windows with
  | nil => rfl
  | cons w l ih =>
    simp only [List.map_cons, List.find?_cons]
    have h1 : (bareWin w).first = w.first := rfl
    have h2 : (bareWin w).count = w.count := rfl
    rw [h1, h2]; split
    · rfl
    · exact ih

theorem checkScratchIn_bare (c : Context) (t : Team) (n : Nat) (w : Bool) (fuel a : Nat) :
    checkScratchIn c (bareTeam t) n w fuel a = checkScratchIn c t n w fuel a := by
  induction fuel generalizing a with
  | zero => rfl
  | succ fuel ih =>
    simp only [checkScratchIn, window_bare, ih, show (bareTeam t).bytes = t.bytes from rfl,
      show ∀ x, (bareTeam t).inAperture x = t.inAperture x from fun _ => rfl, show (bareTeam t).aperture = t.aperture from rfl]
    split
    · rfl
    · cases t.window? a <;> rfl

theorem checkScratch_bare (c : Context) (t : Team) (a n : Nat) (w : Bool) :
    checkScratch c (bareTeam t) a n w = checkScratch c t a n w := by
  unfold checkScratch
  rw [show (bareTeam t).owners = t.owners from rfl]
  exact checkScratchIn_bare ..

/-- A check of a scratch part asks its context for its mappings alone. -/
theorem checkScratchIn_ctx (c c' : Context) (h : ∀ x w l, checkMapped c x w l = checkMapped c' x w l) (t : Team) (n : Nat)
    (w : Bool) (fuel a : Nat) : checkScratchIn c t n w fuel a = checkScratchIn c' t n w fuel a := by
  induction fuel generalizing a with
  | zero => rfl
  | succ fuel ih => simp only [checkScratchIn, h, ih]
theorem checkGlobal_ctx (c c' : Context) (h : ∀ x w l, checkMapped c x w l = checkMapped c' x w l) (t : Option Team)
    (x n al : Nat) (w : Bool) : checkGlobal c t x n al w = checkGlobal c' t x n al w := by
  simp only [checkGlobal, checkScratch, checkScratchIn_ctx c c' h, h]

theorem checkGlobal_bare (c : Context) (t : Option Team) (x n al : Nat) (w : Bool) :
    checkGlobal c (t.map bareTeam) x n al w = checkGlobal c t x n al w := by
  unfold checkGlobal
  cases t with
  | none => rfl
  | some t =>
    simp only [Option.map_some, checkScratch_bare]
    rfl

theorem virtNat_bare (s : State) (c x n : Nat) : (bare s).virtNat c x n = s.virtNat c x n := by
  unfold State.virtNat; rw [ctx_bare]; rfl

theorem hampered_bare (s : State) (part p : Nat) : (bare s).hampered part p = s.hampered part p := by
  unfold State.hampered State.inHamper; simp only [ctx_bare, virtNat_bare]; rfl

theorem registered_bare (s : State) (part p : Nat) : (bare s).registered part p = s.registered part p := by
  unfold State.registered; simp only [ctx_bare]; rfl

theorem writeBar_bare (s : State) (part : Nat) (l : Loc) (n : Nat) : (bare s).writeBar part l n = s.writeBar part l n := by
  unfold State.writeBar; simp only [hampered_bare, registered_bare]

theorem mapped_bare (c : Context) (x : Nat) (w : Bool) (l : Option Nat) : checkMapped (bareCtx c) x w l = checkMapped c x w l := rfl

theorem checkPart_bare (s : State) (k : GKey) (x : Target) (w : Bool) (p : Nat × Nat) :
    (bare s).checkPart k x w p = s.checkPart k x w p := by
  unfold State.checkPart
  simp only [team_bare, ctx_bare, writeBar_bare]
  have hg : ∀ t al, checkGlobal (bareCtx (s.ctx k.ctx)) t (p.1 % 2 ^ 64) p.2 al w
      = checkGlobal (s.ctx k.ctx) t (p.1 % 2 ^ 64) p.2 al w := fun _ _ => checkGlobal_ctx _ _ (mapped_bare _) ..
  have hs : ∀ t a, checkScratch (bareCtx (s.ctx k.ctx)) t a p.2 w = checkScratch (s.ctx k.ctx) t a p.2 w :=
    fun _ _ => checkScratchIn_ctx _ _ (mapped_bare _) ..
  have hp : (bareCtx (s.ctx k.ctx)).part = (s.ctx k.ctx).part := rfl
  simp only [hg, hs, hp, checkGlobal_bare]
  cases s.team? (gkeyTeam k) with
  | none => rfl
  | some t => simp only [Option.map_some, checkScratch_bare]

theorem places_bare (s : State) (k : GKey) (x : Target) (w : Bool) : (bare s).places k x w = s.places k x w := by
  unfold State.places; simp only [checkPart_bare]

theorem mayPerform_bare (s : State) (k : GKey) (w : Bool) (ls : List (Loc × Nat)) :
    (bare s).mayPerform k w ls = s.mayPerform k w ls := by
  unfold State.mayPerform
  congr 1; funext l
  cases l.1 with
  | glob => rfl
  | scr a =>
    simp only [team_bare]
    cases s.team? (gkeyTeam k) <;> rfl

theorem readPlaces_bare (s : State) (k : TKey) (ls : List (Loc × Nat)) : (bare s).readPlaces k ls = s.readPlaces k ls := by
  unfold State.readPlaces
  congr 1; apply List.map_congr_left; intro l _
  cases l.1 with
  | glob => rfl
  | scr a =>
    simp only [State.readLoc, team_bare]
    cases s.team? k <;> rfl

/-- Two states that agree but for threads and held stash lines agree on places, owner states and bytes. -/
structure SameView (s s' : State) : Prop where
  eq : bare s = bare s'

theorem SameView.places {s s' : State} (h : SameView s s') (k x w) : s.places k x w = s'.places k x w := by
  rw [← places_bare s, h.eq, places_bare]
theorem SameView.lowCheck {s s' : State} (h : SameView s s') (k w x) : s.lowCheck k w x = s'.lowCheck k w x := by
  unfold State.lowCheck
  cases x.parts with
  | nil => rfl
  | cons p ps => show s.checkPart k x w p = s'.checkPart k x w p; rw [← checkPart_bare s, h.eq, checkPart_bare]
theorem SameView.mayPerform {s s' : State} (h : SameView s s') (k w ls) : s.mayPerform k w ls = s'.mayPerform k w ls := by
  rw [← mayPerform_bare s, h.eq, mayPerform_bare]
theorem SameView.readPlaces {s s' : State} (h : SameView s s') (k ls) : s.readPlaces k ls = s'.readPlaces k ls := by
  rw [← readPlaces_bare s, h.eq, readPlaces_bare]
theorem SameView.refl (s : State) : SameView s s := ⟨rfl⟩
theorem SameView.trans {a b c : State} (h : SameView a b) (h' : SameView b c) : SameView a c := ⟨h.eq.trans h'.eq⟩

theorem view_modGroup (s : State) (g : Nat) (f : Group → Group) : SameView (s.modGroup g f) s := ⟨rfl⟩
theorem view_onThreads (s : State) (g : Nat) (set : List Nat) (f : Nat → Thread → Thread) : SameView (onThreads s g set f) s := ⟨rfl⟩

theorem view_flagged (s : State) (g : Nat) (gr : Group) (set : List Nat) (fl : Nat → Flags) : SameView (flagged s g gr set fl) s := by
  refine ⟨?_⟩
  have h : (s.ctxs.modify gr.key.ctx (Context.raiseBits s.cycle (orFlags set fl))).map bareCtx = s.ctxs.map bareCtx := by
    apply List.ext_getElem?; intro j
    simp only [List.getElem?_map, List.getElem?_modify]
    cases s.ctxs[j]? with
    | none => rfl
    | some c => by_cases e : gr.key.ctx = j <;> simp [e, bareCtx, Context.raiseBits]
  unfold bare flagged; simp only [h]

theorem bare_touchLine (s : State) (t : TKey) (p l : Nat) (d : Bool) : bare (s.touchLine t p l d) = bare s := by
  unfold bare State.touchLine State.modTeam
  have : (s.teams.map fun tm => if tm.key == t then { tm with windows := tm.windows.map fun w =>
        if w.first * 32 ≤ l ∧ l < (w.first + w.count) * 32 then { w with lines := fillLine s.mem p l d w.lines } else w } else tm).map
        bareTeam = s.teams.map bareTeam := by
    rw [List.map_map]; apply List.map_congr_left; intro tm _
    simp only [Function.comp]
    split
    · simp only [bareTeam]; congr 1
      rw [List.map_map]; apply List.map_congr_left; intro w _
      simp only [Function.comp]; split <;> rfl
    · rfl
  simp only [this]

theorem view_touch (s : State) (k : TKey) (ls : List (Loc × Nat)) : SameView (s.touchPlaces k ls) s := by
  unfold State.touchPlaces
  induction ls generalizing s with
  | nil => exact .refl s
  | cons l ls ih =>
    refine (ih _).trans ⟨?_⟩
    show bare (s.afterRead k l.1) = bare s
    unfold State.afterRead
    split
    · exact bare_touchLine ..
    · rfl

theorem touch_modThread (s : State) (k : TKey) (ls : List (Loc × Nat)) (g t : Nat) (f : Thread → Thread) :
    (s.modThread g t f).touchPlaces k ls = (s.touchPlaces k ls).modThread g t f := by
  unfold State.touchPlaces
  induction ls generalizing s with
  | nil => rfl
  | cons l ls ih =>
    rw [List.foldl_cons, List.foldl_cons, ← ih]
    congr 1
    show (s.modThread g t f).afterRead k l.1 = (s.afterRead k l.1).modThread g t f
    unfold State.afterRead; split <;> rfl

theorem touch_append (s : State) (k : TKey) (l l' : List (Loc × Nat)) : s.touchPlaces k (l ++ l') = (s.touchPlaces k l).touchPlaces k l' :=
  List.foldl_append ..

theorem touch_onThreads (s : State) (k : TKey) (ls : List (Loc × Nat)) (g : Nat) (set : List Nat) (f : Nat → Thread → Thread) :
    (onThreads s g set f).touchPlaces k ls = onThreads (s.touchPlaces k ls) g set f := by
  unfold State.touchPlaces
  induction ls generalizing s with
  | nil => rfl
  | cons l ls ih =>
    rw [List.foldl_cons, List.foldl_cons, ← ih]
    congr 1
    show (onThreads s g set f).afterRead k l.1 = onThreads (s.afterRead k l.1) g set f
    unfold State.afterRead; split <;> rfl

theorem firstPending_usable {fs : List Field} {gr : Group} {who : List Nat} (h : Usable fs gr who) :
    firstPending gr (fun t => inThread t (ownRegs fs)) who = none := firstPending_none _ _ _ h.ready

theorem view_idle (s : State) : SameView (idle s) s := ⟨rfl⟩

theorem onThreads_onThreads (s : State) (g : Nat) (set : List Nat) (f h : Nat → Thread → Thread) :
    onThreads (onThreads s g set f) g set h = onThreads s g set fun t th => h t (f t th) := by
  simp only [onThreads, modify_modify]
  congr 2; funext gr
  unfold onGroup; simp only [List.mapIdx_mapIdx, Function.comp_def]
  congr 1
  apply List.ext_getElem?; intro j
  simp only [List.getElem?_mapIdx]
  cases gr.threads[j]? with
  | none => rfl
  | some th => simp only [Option.map_some]; split <;> simp_all

/-- Threads that each read and then update themselves: all reads are of the state before. -/
theorem foldl_reads (ts : List Nat) (s0 s : State) (hv : SameView s s0) (g : Nat) (k : TKey) (hn : ts.Nodup)
    (step : State → Nat → State) (L : Nat → List (Loc × Nat)) (f : Nat → Thread → Thread)
    (hs : ∀ t ∈ ts, ∀ s, SameView s s0 → step s t = (s.touchPlaces k (L t)).modThread g t (f t)) :
    ts.foldl step s = onThreads (s.touchPlaces k (ts.map L).flatten) g ts f := by
  induction ts generalizing s with
  | nil => rw [onThreads_nil]; rfl
  | cons t ts ih =>
    rw [List.foldl_cons, hs t (by simp) s hv, ih _ _ (List.nodup_cons.1 hn).2]
    · rw [touch_modThread, onThreads_cons _ _ _ _ _ (List.nodup_cons.1 hn).1, List.map_cons, List.flatten_cons, touch_append]
    · intro u hu; exact hs u (by simp [hu])
    · exact (view_modGroup _ _ _).trans ((view_touch _ _ _).trans hv)

theorem SameView.cycle {s s' : State} (h : SameView s s') : s.cycle = s'.cycle := by
  have := congrArg State.cycle h.eq
  exact this

theorem and_ok {c d : Chk} (hc : ∃ x, c = .ok x) (hd : ∃ x, d = .ok x) : ∃ x, c.and d = .ok x := by
  obtain ⟨x, rfl⟩ := hc
  exact hd

theorem rounds_ok (a : Act) (s : State) (who : List Nat) (lo hi : Nat → Chk) (low : List Nat) (lower : State → State)
    (h1 : ∀ t ∈ a.set, ∃ x, lo t = .ok x) (h2 : ∀ t ∈ a.set, ∃ x, hi t = .ok x) :
    a.rounds s who lo hi low lower = (lower s, true) := by
  unfold Act.rounds; rw [firstBad_none _ _ h1]; simp only [firstBad_none _ _ h2]

/-- R276, R278. A load whose checks pass and that no owner state holds: every thread reads the state before the issue. -/
theorem load_eq (i : Instr) (F : LoadForm) (s : State) (g : Nat) (set : List Nat) (gr : Group)
  (h : Issuing s g set gr) (hw : i.wf = true) (hu : Usable F.fields gr set)
  (hr : ∀ t ∈ set, Reaches s gr.key false (F.target gr t))
  (hm : ∀ t ∈ set, s.mayPerform gr.key false (s.places gr.key (F.target gr t) false) = true) :
  withIssue i s (loadRun F.glob F.signed F.size F.off F.base F.d) = .next (onThreads ((poisoned (idle s) g gr set F.fields).touchPlaces (gkeyTeam gr.key)
    (set.map fun t => s.places gr.key (F.target gr t) false).flatten) g set
    fun t th => F.issued (s.readPlaces (gkeyTeam gr.key) (s.places gr.key (F.target gr t) false)) s.cycle (nextPc i gr set) th) := by
  rw [withIssue_eq i s _ g set gr h hw]
  have hf : fieldsFault gr.budget [regF F.base (if F.glob then 2 else 1), outF F.d (max 1 (F.size / 4))] = none := hu.fields
  have hn := rising_nodup h.rising
  have ht : ∀ t, ({ glob := F.glob, addr := formAddr F.glob (gr.thread t) F.base.toNat (F.off.toInt * F.size), size := F.size } : Target)
      = F.target gr t := fun _ => rfl
  have hR := rounds_ok (theAct i g set gr) (idle s) set
    (fun t => (pendChk gr (inThread t (ownRegs [regF F.base (if F.glob then 2 else 1), outF F.d (max 1 (F.size / 4))]))).and
      ((idle s).lowCheck gr.key false (F.target gr t)))
    (fun t => (idle s).highCheck gr.key false (F.target gr t)) [] id
    (fun t ht => and_ok ⟨_, pendChk_ok _ _ (hu.ready t ht)⟩ (hr t ht).1) (fun t ht => (hr t ht).2)
  have hm' : (set.filter fun t => (idle s).mayPerform gr.key false ((idle s).places gr.key (F.target gr t) false)) = set :=
    List.filter_eq_self.2 hm
  have ho : others set set = [] := by simp [others]
  unfold loadRun
  simp only [hf, ht, show (theAct i g set gr).set = set from rfl, show (theAct i g set gr).g = g from rfl, hR, hm', ho]
  simp only [Bool.not_true, Bool.false_eq_true, if_false, id, List.foldl_nil]
  rw [raisePoison_eq _ _ _ _ _ hn ⟨gr, idle_group h, rfl⟩]
  have hmk : ∀ s0 : State, s0.markAll g set (regSpan F.d.toNat (max 1 (F.size / 4)))
      = onThreads s0 g set fun _ th => F.regs.foldl (fun th r => th.setPend r true) th :=
    fun s0 => foldl_modThread set s0 g (fun _ th => F.regs.foldl (fun th r => th.setPend r true) th) hn
  rw [hmk]
  rw [foldl_reads set s _ ?_ g (gkeyTeam gr.key) hn _ (fun t => s.places gr.key (F.target gr t) false) (fun t th =>
    Thread.goOn { th with loads := th.loads ++ [({ vals := loadVals F.signed F.regs (s.readPlaces (gkeyTeam gr.key) (s.places gr.key (F.target gr t) false)), pc := th.pc, cycle := s.cycle } : LoadRec)] } (nextPc i gr set))]
  · rw [touch_onThreads, onThreads_onThreads]
    refine congrArg Host.Outcome.next (congrArg (onThreads _ g set) ?_)
    funext t th
    simp only [LoadForm.issued, foldl_setPend_pc]
  · intro t ht s' hv
    unfold State.doLoad
    rw [hv.readPlaces, hv.cycle]
    simp only [State.modThread, State.modGroup, modify_modify]
    congr 2
    funext x; simp only [Group.modThread, modify_modify]; rfl
  · exact (view_onThreads _ _ _ _).trans ((view_flagged _ _ _ _ _).trans ⟨rfl⟩)

end Sys2Proof.Laws
end

