-- ==== Sys2Proof/Laws/Stores.lean ====
section
/-! SUPPORT. What storing at checked places does: `OnlyStores` for one place, for a list of places, and for the threads of an
issue set one after another; and that the bytes stored read back. -/

namespace Sys2Proof.Laws

open Sys2Proof.Machine Sys2Proof.Safety
open Host (Cell)

/-! ## OnlyStores composes -/

theorem outsideMem_sub {l l' : List (Loc × Nat)} {a : Nat} (h : OutsideMem l' a) (hs : ∀ x ∈ l, x ∈ l') : OutsideMem l a :=
  fun x hx => h x (hs x hx)
theorem outsideScratch_sub {l l' : List (Loc × Nat)} {a : Nat} (h : OutsideScratch l' a) (hs : ∀ x ∈ l, x ∈ l') :
    OutsideScratch l a := fun x hx => h x (hs x hx)

theorem onlyStores_refl (k : TKey) (ls : List (Loc × Nat)) (s : State) : OnlyStores k ls s s :=
  ⟨rfl, rfl, rfl, id, fun _ _ _ _ => rfl, fun _ _ _ _ => rfl⟩

theorem plain_ctx {n m : Node} (h : plainNode n = plainNode m) : n.ctx = m.ctx ∧ n.addr = m.addr := by
  have h1 := congrArg Node.ctx h
  have h2 := congrArg Node.addr h
  exact ⟨h1, h2⟩

theorem status_eq {s s' : State} (hr : s' = { s with mem := s'.mem, nodes := s'.nodes, teams := s'.teams })
    (hn : s'.nodes.map plainNode = s.nodes.map plainNode) (a : Nat) (h : OutsideStatus s a) : OutsideStatus s' a := by
  intro n hmem p hp
  have hc : s'.ctxs = s.ctxs := by rw [hr]
  have h1 : plainNode n ∈ s.nodes.map plainNode := hn ▸ List.mem_map_of_mem hmem
  obtain ⟨m, hm, e⟩ := List.mem_map.1 h1
  have e1 : m.ctx = n.ctx := (plain_ctx e).1
  have e2 : m.addr = n.addr := (plain_ctx e).2
  have hcx : s'.ctx n.ctx = s.ctx m.ctx := by unfold State.ctx; rw [hc, e1]
  rw [hcx, ← e2] at hp
  exact h m hm p hp

theorem onlyStores_trans {k : TKey} {ls : List (Loc × Nat)} {a b c : State} (h : OnlyStores k ls a b) (h' : OnlyStores k ls b c) :
    OnlyStores k ls a c where
  rest := by
    have e := h'.rest
    rw [h.rest] at e
    exact e
  nodes := h'.nodes.trans h.nodes
  teams := h'.teams.trans h.teams
  wf hw := h'.wf (h.wf hw)
  mem hw x h1 h2 := (h'.mem (h.wf hw) x h1 (status_eq h.rest h.nodes x h2)).trans (h.mem hw x h1 h2)
  scratch hw k' x h1 := (h'.scratch (h.wf hw) k' x h1).trans (h.scratch hw k' x h1)

theorem onlyStores_mono {k : TKey} {l l' : List (Loc × Nat)} {a b : State} (h : OnlyStores k l a b) (hs : ∀ x ∈ l, x ∈ l') :
    OnlyStores k l' a b :=
  ⟨h.rest, h.nodes, h.teams, h.wf, fun hw x h1 => h.mem hw x (outsideMem_sub h1 hs),
    fun hw k' x h1 => h.scratch hw k' x fun e => outsideScratch_sub (h1 e) hs⟩

/-! ## One place -/

theorem memWf_iff (s : State) : s.memWf = true ↔ cellsWf s.mem = true ∧ ∀ t ∈ s.teams, cellsWf t.scratch = true := by
  simp [State.memWf, List.all_eq_true]

theorem stageNode_plain (m : List Cell) (w : Option (Nat × Word)) (p : Nat) (n : Node) :
    plainNode (stageNode m w p n) = plainNode n := by
  unfold stageNode sealNode
  split
  · split
    · split
      · rfl
      · split <;> rfl
    · rfl
  · split
    · split <;> rfl
    · rfl

/-- A node that is, but for what staging and sealing change, one of a state. -/
def Known (s : State) (n : Node) : Prop := ∃ m ∈ s.nodes, plainNode m = plainNode n

theorem known_only {k : TKey} {ls : List (Loc × Nat)} {s s' : State} (h : OnlyStores k ls s s') {n : Node} (hn : Known s n) :
    Known s' n := by
  obtain ⟨m, hm, e⟩ := hn
  have h1 : plainNode m ∈ s'.nodes.map plainNode := h.nodes ▸ List.mem_map_of_mem hm
  obtain ⟨m', hm', e'⟩ := List.mem_map.1 h1
  exact ⟨m', hm', e'.trans e⟩

theorem stageOnce_only (s : State) (k : TKey) (ls : List (Loc × Nat)) (who : Option (Nat × Word)) (page : Nat) :
    OnlyStores k ls s (s.stageOnce who page).1 := by
  refine ⟨rfl, ?_, rfl, id, fun _ _ _ _ => rfl, fun _ _ _ _ => rfl⟩
  show (s.nodes.map (stageNode s.mem who page)).map plainNode = _
  rw [List.map_map]; exact List.map_congr_left fun n _ => stageNode_plain ..

theorem stageOnce_known (s : State) (who : Option (Nat × Word)) (page : Nat) : ∀ n ∈ (s.stageOnce who page).2, Known s n := by
  intro n hn
  unfold State.stageOnce at hn
  simp only [List.mem_map] at hn
  obtain ⟨p, hp, rfl⟩ := hn
  have hp := List.mem_of_mem_filter hp
  rw [List.zip_map_right] at hp
  obtain ⟨q, hq, rfl⟩ := List.mem_map.1 hp
  have hself : ∀ x ∈ s.nodes.zip s.nodes, x.1 = x.2 ∧ x.1 ∈ s.nodes := by
    intro x hx
    obtain ⟨i, hi⟩ := List.mem_iff_getElem?.1 hx
    rw [List.getElem?_zip_eq_some] at hi
    exact ⟨Option.some.inj (hi.1.symm.trans hi.2), List.mem_of_getElem? hi.1⟩
  obtain ⟨e, hm⟩ := hself q hq
  exact ⟨q.1, hm, by simp only [Prod.map]; rw [stageNode_plain, e]⟩

/-- The STATUS store of a node of the state. -/
theorem statusWrite_only (s : State) (k : TKey) (ls : List (Loc × Nat)) (n : Node) (hn : Known s n) (p v : Nat)
    (hp : (s.ctx n.ctx).phys? (n.addr + 104) = some p) : OnlyStores k ls s (s.memWrite p (natBytes 4 v)) := by
  refine ⟨rfl, rfl, rfl, ?_, ?_, fun _ _ _ _ => rfl⟩
  · intro hw; rw [memWf_iff] at hw ⊢; exact ⟨write_wf _ _ _ hw.1, hw.2⟩
  · intro hw a _ ha
    obtain ⟨m, hm, e⟩ := hn
    have hc := plain_ctx e
    rw [← hc.1, ← hc.2] at hp
    refine (get_write _ _ _ _ ((memWf_iff s).1 hw).1).trans (if_neg ?_)
    simpa [natBytes] using ha m hm p hp

theorem sealStores_only (fuel : Nat) (l : List (Node × Bool)) (s : State) (k : TKey) (ls : List (Loc × Nat))
    (h : ∀ x ∈ l, Known s x.1) : OnlyStores k ls s (sealStores fuel l s) := by
  induction fuel generalizing l s with
  | zero => exact onlyStores_refl ..
  | succ fuel ih =>
    cases l with
    | nil => exact onlyStores_refl ..
    | cons x l =>
      obtain ⟨n, staged⟩ := x
      have hl : ∀ x ∈ l, Known s x.1 := fun x hx => h x (by simp [hx])
      simp only [sealStores]
      split
      · exact ih _ _ hl
      · rename_i p hp
        split
        · have h1 := statusWrite_only s k ls n (h (n, staged) (by simp)) p n.status hp
          exact onlyStores_trans h1 (ih _ _ fun x hx => known_only h1 (hl x hx))
        · have h1 := stageOnce_only s k ls none (p / 65536)
          refine onlyStores_trans h1 (ih _ _ fun x hx => known_only h1 ?_)
          rcases List.mem_append.1 hx with hx | hx
          · obtain ⟨m, hm, rfl⟩ := List.mem_map.1 hx
            exact stageOnce_known s none (p / 65536) m hm
          · rcases List.mem_cons.1 hx with rfl | hx
            · exact h (n, staged) (by simp)
            · exact hl x hx

/-- R194, R195, R90. What a store does first: it stages, seals, and stores the STATUS of the nodes it seals. -/
theorem stageFor_only (s : State) (k : TKey) (ls : List (Loc × Nat)) (who : Option (Nat × Word)) (page : Nat) :
    OnlyStores k ls s (s.stageFor who page) := by
  have h1 := stageOnce_only s k ls who page
  refine onlyStores_trans h1 (sealStores_only _ _ _ k ls fun x hx => known_only h1 ?_)
  obtain ⟨m, hm, rfl⟩ := List.mem_map.1 hx
  exact stageOnce_known s who page m hm

theorem map_team_scratch (s : State) (k' : TKey) (f : Team → Team) (hk : ∀ t, (f t).key = t.key) :
    ((s.teams.map f).find? fun t => t.key == k') = (s.teams.find? fun t => t.key == k').map f := by
  induction s.teams with
  | nil => rfl
  | cons t l ih =>
    simp only [List.map_cons, List.find?_cons, hk]
    split
    · rfl
    · exact ih

theorem touchLine_only (s : State) (k t : TKey) (ls : List (Loc × Nat)) (p l : Nat) (d : Bool) :
    OnlyStores k ls s (s.touchLine t p l d) := by
  have hp : ∀ tm : Team, plainTeam (if tm.key == t then { tm with windows := tm.windows.map fun w =>
        if w.first * 32 ≤ l ∧ l < (w.first + w.count) * 32 then { w with lines := fillLine s.mem p l d w.lines } else w } else tm)
      = plainTeam tm := by
    intro tm; split
    · simp only [plainTeam]; congr 1
      rw [List.map_map]; apply List.map_congr_left; intro w _
      simp only [Function.comp]; split <;> rfl
    · rfl
  refine ⟨rfl, rfl, ?_, ?_, fun _ _ _ _ => rfl, ?_⟩
  · unfold State.touchLine State.modTeam
    simp only [List.map_map]
    exact List.map_congr_left fun tm _ => hp tm
  · intro hw
    rw [memWf_iff] at hw ⊢
    refine ⟨hw.1, ?_⟩
    intro tm htm
    unfold State.touchLine State.modTeam at htm
    obtain ⟨x, hx, rfl⟩ := List.mem_map.1 htm
    have := hw.2 x hx
    split <;> exact this
  · intro _ k' a _
    unfold State.scratch State.team? State.touchLine State.modTeam
    simp only
    rw [map_team_scratch s k' _ (fun tm => by split <;> rfl)]
    cases s.teams.find? fun t => t.key == k' with
    | none => rfl
    | some tm => simp only [Option.map_some, Option.getD_some]; split <;> rfl

theorem memWrite_only (s : State) (k : TKey) (p v n : Nat) (line : Option Nat) (bs : List Byte) (hb : bs.length ≤ n) :
    OnlyStores k [(Loc.glob p v line, n)] s (s.memWrite p bs) := by
  refine ⟨rfl, rfl, rfl, ?_, ?_, fun _ _ _ _ => rfl⟩
  · intro hw; rw [memWf_iff] at hw ⊢; exact ⟨write_wf _ _ _ hw.1, hw.2⟩
  · intro hw a ha _
    have hm := ((memWf_iff s).1 hw).1
    have := ha (Loc.glob p v line, n) (by simp)
    simp only at this
    exact (get_write bs s.mem p a hm).trans (if_neg fun h => this ⟨h.1, by omega⟩)

/-- R276, R195. Storing bytes at one place. -/
theorem writeLoc_only (s : State) (k : TKey) (l : Loc) (n : Nat) (bs : List Byte) (hb : bs.length ≤ n) :
    OnlyStores k [(l, n)] s (s.writeLoc k l bs) := by
  cases l with
  | glob p v line =>
    cases line with
    | none => exact onlyStores_trans (stageFor_only ..) (memWrite_only (hb := hb) ..)
    | some q =>
      exact onlyStores_trans
        (onlyStores_trans (stageFor_only s k _ (some (k.ctx, k.node)) (p / 65536)) (touchLine_only _ k k _ p q true))
        (memWrite_only (hb := hb) ..)
  | scr p =>
    refine ⟨rfl, rfl, ?_, ?_, fun _ _ _ _ => rfl, ?_⟩
    · unfold State.writeLoc State.modTeam
      simp only [List.map_map]
      exact List.map_congr_left fun tm _ => by simp only [Function.comp]; split <;> rfl
    · intro hw
      rw [memWf_iff] at hw ⊢
      refine ⟨hw.1, ?_⟩
      intro tm htm
      unfold State.writeLoc State.modTeam at htm
      obtain ⟨x, hx, rfl⟩ := List.mem_map.1 htm
      have := hw.2 x hx
      split
      · exact write_wf _ _ _ this
      · exact this
    · intro hw k' a ha
      unfold State.scratch State.team? State.writeLoc State.modTeam
      simp only
      rw [map_team_scratch s k' _ (fun tm => by split <;> rfl)]
      cases hf : s.teams.find? fun t => t.key == k' with
      | none => rfl
      | some tm =>
        simp only [Option.map_some, Option.getD_some]
        split
        · have hk : tm.key = k' := by simpa using List.find?_some hf
          have hkk : tm.key = k := by simpa using ‹(tm.key == k) = true›
          have hwf := ((memWf_iff s).1 hw).2 tm (List.mem_of_find?_eq_some hf)
          have := ha (hk.symm.trans hkk) (Loc.scr p, n) (by simp)
          simp only at this
          exact (get_write bs tm.scratch p a hwf).trans (if_neg fun h => this ⟨h.1, by omega⟩)
        · rfl

/-- Storing bytes at a list of places. -/
theorem writePlaces_only (k : TKey) (ls : List (Loc × Nat)) (s : State) (bs : List Byte) :
    OnlyStores k ls s (s.writePlaces k ls bs) := by
  induction ls generalizing s bs with
  | nil => exact onlyStores_refl ..
  | cons l ls ih =>
    rw [State.writePlaces]
    exact onlyStores_trans (onlyStores_mono (writeLoc_only s k l.1 l.2 (bs.take l.2) (by simp)) (by simp))
      (onlyStores_mono (ih _ _) fun x hx => by simp [hx])

/-! ## The places of later stores -/

/-- Two states agree on what addresses translate to, on the owner states and on the windows of scratchpads. -/
structure Looks (s s' : State) : Prop where
  ctxs : s'.ctxs.map bareCtx = s.ctxs.map bareCtx
  teams : s'.teams.map plainTeam = s.teams.map plainTeam

theorem looks_refl (s : State) : Looks s s := ⟨rfl, rfl⟩
theorem looks_trans {a b c : State} (h : Looks a b) (h' : Looks b c) : Looks a c := ⟨h'.1.trans h.1, h'.2.trans h.2⟩
theorem looks_stores {k : TKey} {ls : List (Loc × Nat)} {s s' : State} (h : OnlyStores k ls s s') : Looks s s' :=
  ⟨by rw [h.rest], h.teams⟩

theorem looks_ctx {s s' : State} (h : Looks s s') (c : Nat) : bareCtx (s'.ctx c) = bareCtx (s.ctx c) := by
  rw [← ctx_bare, ← ctx_bare]; unfold State.ctx bare; simp only [h.ctxs]

theorem looks_team {s s' : State} (h : Looks s s') (k : TKey) : (s'.team? k).map plainTeam = (s.team? k).map plainTeam := by
  have e : ∀ l : List Team, (l.map plainTeam).find? (fun t => t.key == k) = (l.find? fun t => t.key == k).map plainTeam := by
    intro l
    induction l with
    | nil => rfl
    | cons t l ih =>
      simp only [List.map_cons, List.find?_cons]
      have : (plainTeam t).key = t.key := rfl
      rw [this]; split
      · rfl
      · exact ih
  unfold State.team?; rw [← e, ← e, h.teams]

theorem looks_view {s s' : State} (h : SameView s' s) : Looks s s' := by
  have e := h.eq
  refine ⟨congrArg State.ctxs e, ?_⟩
  have e2 : s'.teams.map bareTeam = s.teams.map bareTeam := congrArg State.teams e
  have e3 := congrArg (List.map fun t : Team => ({ t with scratch := [] } : Team)) e2
  rw [List.map_map, List.map_map] at e3
  exact e3

theorem guarded_nodup {gr : Group} {n : BitVec 1} {gd : BitVec 6} {set : List Nat} (h : set.Nodup) : (guarded gr n gd set).Nodup := h.filter _
theorem others_nodup {set who : List Nat} (h : set.Nodup) : (others set who).Nodup := h.filter _

/-! ## Threads that store one after another -/

theorem onlyStores_onThreads {k : TKey} {ls : List (Loc × Nat)} {a b : State} (h : OnlyStores k ls a b) (g : Nat)
    (set : List Nat) (f : Nat → Thread → Thread) : OnlyStores k ls (onThreads a g set f) (onThreads b g set f) where
  rest := by
    have e := h.rest
    have h2 := congrArg (fun x : State => onThreads x g set f) e
    exact h2
  nodes := h.nodes
  teams := h.teams
  wf := h.wf
  mem := h.mem
  scratch := h.scratch

theorem modThread_onThreads (s : State) (g t : Nat) (f : Thread → Thread) : s.modThread g t f = onThreads s g [t] fun _ => f := by
  unfold State.modThread State.modGroup onThreads
  congr 2; funext x; exact onGroup_single t f x

theorem onThreads_one (s : State) (g t : Nat) (f : Nat → Thread → Thread) : onThreads s g [t] (fun _ => f t) = onThreads s g [t] f := by
  unfold onThreads
  congr 2; funext x
  simp only [onGroup]; congr 1
  apply List.ext_getElem?; intro j
  simp only [List.getElem?_mapIdx]
  cases x.threads[j]? with
  | none => rfl
  | some th => by_cases h : j = t <;> simp [h]

theorem onGroup_comm (A B : List Nat) (F H : Nat → Thread → Thread) (hd : ∀ t ∈ A, t ∉ B) (x : Group) :
    onGroup B H (onGroup A F x) = onGroup A F (onGroup B H x) := by
  simp only [onGroup]; congr 1
  apply List.ext_getElem?; intro j
  simp only [List.getElem?_mapIdx]
  cases x.threads[j]? with
  | none => rfl
  | some th =>
    simp only [Option.map_some]
    by_cases h : j ∈ A
    · have := hd j h; simp [h, this]
    · simp [h]

theorem onThreads_comm (s : State) (g : Nat) (A B : List Nat) (F H : Nat → Thread → Thread) (hd : ∀ t ∈ A, t ∉ B) :
    onThreads (onThreads s g A F) g B H = onThreads (onThreads s g B H) g A F := by
  simp only [onThreads, modify_modify]
  congr 2; funext x; exact onGroup_comm A B F H hd x

theorem thread_onGroup (A : List Nat) (F : Nat → Thread → Thread) (x : Group) (u : Nat) :
    (onGroup A F x).thread u = if u ∈ A ∧ u < x.threads.length then F u (x.thread u) else x.thread u := by
  unfold Group.thread onGroup
  simp only [List.getD_eq_getElem?_getD, List.getElem?_mapIdx]
  by_cases hu : u < x.threads.length
  · simp only [List.getElem?_eq_getElem hu, Option.map_some, Option.getD_some, hu, and_true, List.contains_iff_mem]
  · simp [hu]

/-- A group in which the threads of an issue set other than `ts` have gone on. -/
structure Going (gr : Group) (set ts : List Nat) (x : Group) : Prop where
  free : ∀ u, u ∉ set → (x.thread u).isBlocked = (gr.thread u).isBlocked
  gone : ∀ u, u ∈ set → u ∉ ts → (x.thread u).isBlocked = false
  pc : ∀ u, u ∉ set ∨ u ∈ ts → (x.thread u).pc = (gr.thread u).pc
  issued : ∀ u, (x.thread u).issued = (gr.thread u).issued

theorem going_below {gr x : Group} {set ts : List Nat} {t : Nat} (h : Going gr set (t :: ts) x)
    (hr : (t :: ts).Pairwise (· < ·)) : x.below t = others (gr.below t) set := by
  unfold Group.below others
  rw [List.filter_filter]
  apply List.filter_congr
  intro u hu
  have hut : u < t := List.mem_range.1 hu
  have hn : u ∉ t :: ts := by
    intro hm
    rcases List.mem_cons.1 hm with e | hm
    · omega
    · have := (List.pairwise_cons.1 hr).1 u hm; omega
  rw [h.pc t (.inr (by simp)), h.issued, h.issued]
  by_cases hm : u ∈ set
  · rw [h.gone u hm hn]; simp [hm]
  · rw [h.free u hm, h.pc u (.inl hm)]; simp [hm]

theorem going_threads {gr x y : Group} {set ts : List Nat} (e : y.threads = x.threads) (h : Going gr set ts x) : Going gr set ts y := by
  have ht : ∀ u, y.thread u = x.thread u := fun u => by unfold Group.thread; rw [e]
  exact ⟨fun u hu => by rw [ht]; exact h.free u hu, fun u hu hn => by rw [ht]; exact h.gone u hu hn,
    fun u hu => by rw [ht]; exact h.pc u hu, fun u => by rw [ht]; exact h.issued u⟩

/-- The threads of a set that go on. -/
theorem going_on {gr x : Group} {set ts : List Nat} (h : Going gr set ts x) (A : List Nat) (F : Nat → Thread → Thread)
    (hA : ∀ u ∈ A, u ∈ set) (hF : ∀ u th, (F u th).isBlocked = false ∧ (F u th).issued = th.issued) :
    Going gr set (others ts A) (onGroup A F x) := by
  refine ⟨fun u hu => ?_, fun u hu hn => ?_, fun u hu => ?_, fun u => ?_⟩
  · rw [thread_onGroup, if_neg fun e => hu (hA u e.1)]; exact h.free u hu
  · rw [thread_onGroup]; split
    · exact (hF _ _).1
    · rename_i hc
      by_cases hm : u ∈ A
      · have hl : x.threads.length ≤ u := Nat.le_of_not_lt fun e => hc ⟨hm, e⟩
        have : x.thread u = {} := by unfold Group.thread; simp [List.getD_eq_getElem?_getD, List.getElem?_eq_none hl]
        rw [this]; rfl
      · exact h.gone u hu fun hm' => hn (by simp [others, hm', hm])
  · rw [thread_onGroup, if_neg]
    · exact h.pc u (hu.imp id fun hm => List.mem_of_mem_filter hm)
    · rintro ⟨hm, -⟩
      rcases hu with hu | hu
      · exact hu (hA u hm)
      · simp [others, hm] at hu
  · rw [thread_onGroup]; split
    · rw [(hF _ _).2]; exact h.issued u
    · exact h.issued u

/-- Threads updated in nothing that a wait in a store shows. -/
theorem going_keep {gr x : Group} {set ts : List Nat} (h : Going gr set ts x) (A : List Nat) (F : Nat → Thread → Thread)
    (hF : ∀ u th, (F u th).isBlocked = th.isBlocked ∧ (F u th).pc = th.pc ∧ (F u th).issued = th.issued) :
    Going gr set ts (onGroup A F x) := by
  refine ⟨fun u hu => ?_, fun u hu hn => ?_, fun u hu => ?_, fun u => ?_⟩ <;> rw [thread_onGroup] <;> split
  · rw [(hF _ _).1]; exact h.free u hu
  · exact h.free u hu
  · rw [(hF _ _).1]; exact h.gone u hu hn
  · exact h.gone u hu hn
  · rw [(hF _ _).2.1]; exact h.pc u hu
  · exact h.pc u hu
  · rw [(hF _ _).2.2]; exact h.issued u
  · exact h.issued u

theorem others_others (set : List Nat) (p : Nat → Bool) : others set (others set (set.filter p)) = set.filter p := by
  unfold others
  apply List.filter_congr
  intro u hu
  cases hp : p u
  · have h1 : u ∉ set.filter p := by simp [hp]
    simp [hp, hu]
  · simp [hp]

theorem others_cons {t : Nat} {ts : List Nat} (h : (t :: ts).Nodup) : others (t :: ts) [t] = ts := by
  have hn := (List.nodup_cons.1 h).1
  have : ts.filter (fun u => !([t] : List Nat).contains u) = ts := by
    apply List.filter_eq_self.2; intro u hu
    have : u ≠ t := fun e => hn (e ▸ hu)
    simp [this]
  simpa [others] using this

theorem onlyStores_overwritten {k : TKey} {L : List (Loc × Nat)} {a b : State} {g : Nat} (gr : Group) (P : Nat → List (Loc × Nat))
    (set us : List Nat) (h : OnlyStores k L a b) : OnlyStores k L (overwritten a g gr P set us) (overwritten b g gr P set us) := by
  induction us generalizing a b with
  | nil => exact h
  | cons u us ih => exact ih (onlyStores_onThreads h g _ _)

/-- Threads of an issue set that each store at places of theirs, write over lower threads that wait, and go on. -/
theorem foldl_stores (gr : Group) (set ts : List Nat) (s0 s : State) (hv : Looks s0 s) (g : Nat) (k : TKey)
    (hn : ts.Pairwise (· < ·)) (hts : ∀ t ∈ ts, t ∈ set) (hg : ∃ x, s.groups[g]? = some x ∧ Going gr set ts x)
    (step : State → Nat → State) (L : List (Loc × Nat)) (f : Nat → Thread → Thread)
    (hf : ∀ t th, (f t th).isBlocked = false ∧ (f t th).issued = th.issued) (P : Nat → List (Loc × Nat))
    (hs : ∀ t ∈ ts, ∀ s x, Looks s0 s → s.groups[g]? = some x → OnlyStores k L
      (onThreads (onThreads s g (x.below t) fun _ th => { th with higher := th.higher ++ (P t).map placeSpan }) g [t] f) (step s t)) :
    OnlyStores k L (onThreads (overwritten s g gr P set ts) g ts f) (ts.foldl step s) := by
  induction ts generalizing s with
  | nil => rw [onThreads_nil]; exact onlyStores_refl ..
  | cons t ts ih =>
    obtain ⟨x, hx, hgo⟩ := hg
    have hnd : (t :: ts).Nodup := hn.imp fun h => Nat.ne_of_lt h
    have h1 := hs t (by simp) s x hv hx
    rw [going_below hgo hn] at h1
    have h2 : Looks s0 (step s t) := looks_trans hv (looks_trans (looks_view ((view_onThreads _ _ _ _).trans (view_onThreads _ _ _ _)))
      (looks_stores h1))
    have hg2 : ∃ y, (step s t).groups[g]? = some y ∧ Going gr set ts y := by
      refine ⟨onGroup [t] f (onGroup (others (gr.below t) set) (fun _ th => { th with higher := th.higher ++ (P t).map placeSpan }) x), ?_, ?_⟩
      · rw [h1.rest]; simp [onThreads, hx]
      · have := going_on (going_keep hgo (others (gr.below t) set) (fun _ th => { th with higher := th.higher ++ (P t).map placeSpan })
          fun _ _ => ⟨rfl, rfl, rfl⟩) [t] f (fun u hu => hts u (by simp at hu; simp [hu])) hf
        rwa [others_cons hnd] at this
    have h3 := ih _ h2 (List.pairwise_cons.1 hn).2 (fun u hu => hts u (by simp [hu])) hg2 fun u hu => hs u (by simp [hu])
    have comm : ∀ (us : List Nat) (a : State), (∀ u ∈ us, u ∈ t :: ts) → overwritten (onThreads a g [t] f) g gr P set us = onThreads (overwritten a g gr P set us) g [t] f := by
      intro us
      induction us with
      | nil => intro a _; rfl
      | cons u us ihu =>
        intro a hu
        unfold overwritten at ihu ⊢
        rw [List.foldl_cons, List.foldl_cons, ← ihu _ fun v hv => hu v (by simp [hv])]
        congr 1
        exact onThreads_comm _ _ _ _ _ _ fun v hv he => by
          have hv : v = t := by simpa using hv
          subst hv
          have := hts v (by simp)
          simp [others, this] at he
    have h4 := onlyStores_onThreads (onlyStores_overwritten (g := g) gr P set ts h1) g ts f
    rw [comm ts _ fun u hu => by simp [hu]] at h4
    rw [List.foldl_cons]
    refine onlyStores_trans ?_ h3
    have e : onThreads (overwritten s g gr P set (t :: ts)) g (t :: ts) f
        = onThreads (onThreads (overwritten (onThreads s g (others (gr.below t) set) fun _ th => { th with higher := th.higher ++ (P t).map placeSpan })
          g gr P set ts) g [t] f) g ts f := by
      rw [← onThreads_cons _ _ _ _ _ (List.nodup_cons.1 hnd).1, modThread_onThreads _ _ _ (f t), onThreads_one]; rfl
    rw [e]; exact h4

theorem doStore_only (s : State) (g t : Nat) (k : TKey) (ls L : List (Loc × Nat)) (data : List Byte) (hs : ∀ x ∈ ls, x ∈ L) :
    OnlyStores k L (s.modThread g t fun th => { th with stores := th.stores + 1 }) (s.doStore g t k ls data) := by
  unfold State.doStore
  rw [modThread_onThreads, modThread_onThreads]
  exact onlyStores_onThreads (onlyStores_mono (writePlaces_only k ls s data) hs) g [t] _

theorem lowerParts_only (k : TKey) (ls : Nat → List (Loc × Nat)) (higher : Nat → List Span) (data : Nat → List Byte)
    (L : List (Loc × Nat)) (ts : List Nat) (s : State) (hs : ∀ t ∈ ts, ∀ x ∈ ls t, x ∈ L) :
    OnlyStores k L s (s.lowerParts k ls higher data ts) := by
  unfold State.lowerParts
  induction ts generalizing s with
  | nil => exact onlyStores_refl ..
  | cons t ts ih =>
    exact onlyStores_trans (onlyStores_mono (writePlaces_only ..) fun x hx => hs t (by simp) x (List.mem_of_mem_take hx))
      (ih _ fun u hu => hs u (by simp [hu]))

/-- A thread of a guarded access passes: no guard is pending, and where the guard is true nothing else, and its access
passes. -/
theorem accessChk_ok {gr : Group} {n : BitVec 1} {gd : BitVec 6} {fs : List Field} {set : List Nat} {f : Nat → Chk}
    (h : GuardUsable fs n gd gr set) (hf : ∀ t ∈ guarded gr n gd set, ∃ l, f t = .ok l) :
    ∀ t ∈ set, ∃ l, accessChk gr gd fs (guarded gr n gd set) f t = .ok l := by
  intro t ht
  unfold accessChk guardedCheck
  refine and_ok (and_ok ⟨_, pendChk_ok _ _ (h.guards t ht)⟩ ⟨.scr 0, ?_⟩) ?_
  · by_cases hw : t ∈ guarded gr n gd set
    · simp only [show (guarded gr n gd set).contains t = true by simpa using hw, if_true]; exact pendChk_ok _ _ (h.ready t hw)
    · simp only [show ¬(guarded gr n gd set).contains t = true by simpa using hw]; rfl
  · by_cases hw : t ∈ guarded gr n gd set
    · rw [if_pos (by simpa using hw)]; exact hf t hw
    · rw [if_neg (by simpa using hw)]; exact ⟨_, rfl⟩

/-- Guard checks pass. -/
theorem guardChecks_none (a : Act) (gr : Group) (s : State) (n : BitVec 1) (gd : BitVec 6) (fs : List Field)
    (h : GuardUsable fs n gd gr a.set) : guardChecks a gr s n gd fs = none := by
  unfold guardChecks
  rw [h.fields]
  simp only [firstBad_none _ _ (accessChk_ok h fun _ _ => ⟨.scr 0, rfl⟩)]

theorem storeRest_only (s : State) (g t : Nat) (k : TKey) (x : Bool) (ls L : List (Loc × Nat)) (above : List Span) (data : List Byte)
    (hs : ∀ x ∈ ls, x ∈ L) :
    OnlyStores k L (s.modThread g t fun th => { th with stores := th.stores + 1 }) (s.storeRest g t k x ls above data) := by
  unfold State.storeRest
  simp only
  generalize hd : ls.drop _ = rest
  cases rest with
  | nil => exact doStore_only s g t k _ L _ fun y hy => by simp at hy
  | cons l r =>
    refine doStore_only s g t k _ L _ fun y hy => hs y (List.mem_of_mem_drop (i := if x = true then 1 else 0) ?_)
    simp only [List.mem_singleton] at hy
    rw [hd, hy]; simp

/-- R279. What a lane of a store has written stands against the lower threads that wait in it. -/
theorem overWrite_eq (s : State) (g t : Nat) (ls : List (Loc × Nat)) (x : Group) (h : s.groups[g]? = some x) :
    s.overWrite g t ls = onThreads s g (x.below t) fun _ th => { th with higher := th.higher ++ ls.map placeSpan } := by
  unfold State.overWrite
  rw [h]
  exact foldl_modThread _ s g (fun _ th => { th with higher := th.higher ++ ls.map placeSpan }) (List.nodup_range.filter _)

/-- A lane of a store: it stores, what it has written stands against the lower lanes, and it goes on. -/
theorem storeLane_only (s : State) (g t : Nat) (k : TKey) (c : Bool) (ls L : List (Loc × Nat)) (above : List Span) (data : List Byte)
    (next : Word) (hs : ∀ x ∈ ls, x ∈ L) (x : Group) (h : s.groups[g]? = some x) :
    OnlyStores k L (onThreads (onThreads s g (x.below t) fun _ th => { th with higher := th.higher ++ ls.map placeSpan }) g [t]
        fun _ th => Thread.goOn { th with stores := th.stores + 1 } next)
      (((s.storeRest g t k c ls above data).overWrite g t ls).modThread g t fun th => th.goOn next) := by
  have h1 := storeRest_only s g t k c ls L above data hs
  rw [modThread_onThreads] at h1
  have hx : (s.storeRest g t k c ls above data).groups[g]? = some (onGroup [t] (fun _ th => { th with stores := th.stores + 1 }) x) := by
    rw [h1.rest]; simp [onThreads, h]
  have hb : (onGroup [t] (fun _ th => { th with stores := th.stores + 1 }) x).below t = x.below t := by
    have : ∀ u, ((onGroup [t] (fun _ th => { th with stores := th.stores + 1 }) x).thread u).isBlocked = (x.thread u).isBlocked ∧
        ((onGroup [t] (fun _ th => { th with stores := th.stores + 1 }) x).thread u).pc = (x.thread u).pc ∧
        ((onGroup [t] (fun _ th => { th with stores := th.stores + 1 }) x).thread u).issued = (x.thread u).issued := by
      intro u; rw [thread_onGroup]; split <;> exact ⟨rfl, rfl, rfl⟩
    unfold Group.below; simp only [this]
  rw [overWrite_eq _ _ _ _ _ hx, hb, modThread_onThreads]
  have h2 := onlyStores_onThreads (onlyStores_onThreads h1 g (x.below t) fun _ th => { th with higher := th.higher ++ ls.map placeSpan }) g [t]
    fun _ th => th.goOn next
  have hnb : ∀ u ∈ [t], u ∉ x.below t := by
    intro u hu he
    have hu : u = t := by simpa using hu
    subst hu
    have := List.mem_range.1 (List.mem_of_mem_filter he)
    omega
  rw [onThreads_comm _ _ [t] _ _ _ hnb, onThreads_onThreads] at h2
  exact h2

theorem onlyStores_flagged {k : TKey} {ls : List (Loc × Nat)} {a b : State} (h : OnlyStores k ls a b) (g : Nat) (gr : Group)
    (set : List Nat) (fl : Nat → Flags) : OnlyStores k ls (flagged a g gr set fl) (flagged b g gr set fl) := by
  refine ⟨?_, h.nodes, h.teams, h.wf, ?_, h.scratch⟩
  · have h2 := congrArg (fun x : State => flagged x g gr set fl) h.rest
    exact h2
  · intro hw x h1 h2
    refine h.mem hw x h1 ?_
    intro n hn p hp
    refine h2 n hn p ?_
    have e := looks_ctx (looks_view (view_flagged a g gr set fl)) n.ctx
    have e2 : (bareCtx ((flagged a g gr set fl).ctx n.ctx)).phys? (n.addr + 104) = (bareCtx (a.ctx n.ctx)).phys? (n.addr + 104) := by rw [e]
    exact e2.trans hp

/-- R276, R279. A store of data in registers whose checks pass: the guard-true threads store, and every thread goes on. -/
theorem store_eq (i : Instr) (F : StoreForm) (s : State) (g : Nat) (set : List Nat) (gr : Group)
  (h : Issuing s g set gr) (hw : i.wf = true) (hu : GuardUsable F.fields F.n F.guard gr set) (hq : F.d ≠ 61)
  (hr : ∀ t ∈ F.who gr set, Reaches s gr.key true (F.target gr t))
  (hm : ∀ t ∈ F.who gr set, s.mayPerform gr.key true (s.places gr.key (F.target gr t) true) = true) :
  ∃ s', withIssue i s (storeRun F.glob F.size F.off F.n F.guard F.base F.d) = .next s' ∧
    OnlyStores (gkeyTeam gr.key) ((F.who gr set).map fun t => s.places gr.key (F.target gr t) true).flatten
      (storedThreads (poisoned (idle s) g gr (F.who gr set) F.fields) g gr (fun t => s.places gr.key (F.target gr t) true) set (F.who gr set)
        (nextPc i gr set)) s' := by
  rw [withIssue_eq i s _ g set gr h hw]
  have hn := rising_nodup h.rising
  have ht : ∀ t, ({ glob := F.glob, addr := formAddr F.glob (gr.thread t) F.base.toNat ((F.off.toNat * F.size : Nat) : Int), size := F.size } : Target)
      = F.target gr t := fun _ => rfl
  have hwho : guarded gr F.n F.guard set = F.who gr set := rfl
  have ho : others (F.who gr set) [] = F.who gr set := by simp [others]
  have hoo : others (F.who gr set) (F.who gr set) = [] := by simp [others]
  have hnw : (F.who gr set).Nodup := guarded_nodup hn
  have hrw : (F.who gr set).Pairwise (· < ·) := h.rising.filter _
  have hf : fieldsFault gr.budget [regF F.base (if F.glob then 2 else 1), regF F.guard,
     { num := F.d.toNat, size := max 1 (F.size / 4), qr := F.size = 4 }] = none := hu.fields
  have hm' : ((F.who gr set).filter fun t => (idle s).mayPerform gr.key true ((idle s).places gr.key (F.target gr t) true)) = F.who gr set :=
    List.filter_eq_self.2 hm
  generalize hL : ((F.who gr set).map fun t => s.places gr.key (F.target gr t) true).flatten = L
  have hin : ∀ t ∈ F.who gr set, ∀ x ∈ s.places gr.key (F.target gr t) true, x ∈ L := by
    intro t ht x hx; rw [← hL]; exact List.mem_flatten.2 ⟨_, List.mem_map_of_mem ht, hx⟩
  have hR := fun low lower => rounds_ok (theAct i g set gr) (idle s) (guardedSet gr F.guard set (F.who gr set))
    (accessChk gr F.guard F.fields (F.who gr set) fun t => (idle s).lowCheck gr.key true (F.target gr t))
    (fun t => if (F.who gr set).contains t then (idle s).highCheck gr.key true (F.target gr t) else .ok (.scr 0)) low lower
    (accessChk_ok hu fun t ht => (hr t ht).1) (fun t _ => by
      by_cases hw : t ∈ F.who gr set
      · exact ⟨(hr t hw).2.choose, by rw [if_pos (by simpa using hw)]; exact (hr t hw).2.choose_spec⟩
      · exact ⟨_, if_neg (by simpa using hw)⟩)
  refine ⟨_, rfl, ?_⟩
  unfold storeRun
  simp only [show (theAct i g set gr).lowered = [] from rfl, show ∀ t, (([] : List Nat).contains t) = false from fun _ => rfl,
    Bool.false_eq_true, if_false, hf, ht, show (theAct i g set gr).set = set from rfl, show (theAct i g set gr).g = g from rfl, hwho,
    if_neg hq, ho, hm', hoo, List.foldl_nil]
  rw [show ([regF F.base (if F.glob = true then 2 else 1), regF F.guard,
     { num := F.d.toNat, size := max 1 (F.size / 4), qr := F.size = 4 }] : List Field) = F.fields from rfl, hR]
  simp only [Bool.not_true, Bool.false_eq_true, if_false]
  have hl := lowerParts_only (gkeyTeam gr.key) (fun t => (idle s).places gr.key (F.target gr t) true) (fun t => (gr.thread t).higher)
    (fun t => (storeBytes (gr.thread t) F.d.toNat F.size).drop (F.size - (F.target gr t).size)) L
    ((F.who gr set).filter fun t => (F.target gr t).crosses) (idle s) fun t ht => hin t (List.mem_of_mem_filter ht)
  generalize (idle s).lowerParts (gkeyTeam gr.key) (fun t => (idle s).places gr.key (F.target gr t) true) (fun t => (gr.thread t).higher)
    (fun t => (storeBytes (gr.thread t) F.d.toNat F.size).drop (F.size - (F.target gr t).size))
    ((F.who gr set).filter fun t => (F.target gr t).crosses) = w at hl ⊢
  have hwg : w.groups[g]? = some gr := by rw [hl.rest]; exact h.group
  rw [raisePoison_eq _ _ _ _ _ hnw ⟨gr, hwg, rfl⟩, goAll_eq _ _ _ _ (others_nodup hn), blockAll_eq _ _ _ _ List.nodup_nil, onThreads_nil]
  have hbase := onlyStores_onThreads (onlyStores_flagged hl g gr (F.who gr set) fun t => poisonFlag gr (inThread t (ownReads F.fields))) g
    (others set (F.who gr set)) fun _ th => th.goOn (nextPc i gr set)
  have hgo : Going gr set (F.who gr set) (onGroup (others set (F.who gr set)) (fun _ th => th.goOn (nextPc i gr set))
      (flagGroup w.cycle (F.who gr set) (fun t => poisonFlag gr (inThread t (ownReads F.fields))) gr)) := by
    have h0 : Going gr set set gr := ⟨fun _ _ => rfl, fun u hu hn => absurd hu hn, fun _ _ => rfl, fun _ => rfl⟩
    have h1 : Going gr set set (flagGroup w.cycle (F.who gr set) (fun t => poisonFlag gr (inThread t (ownReads F.fields))) gr) :=
      going_threads (groupRaise_threads ..) <| going_keep h0 (F.who gr set) (fun u th => th.raiseBits w.cycle (poisonFlag gr (inThread u (ownReads F.fields)))) fun _ _ => ⟨rfl, rfl, rfl⟩
    have h2 := going_on h1 (others set (F.who gr set)) (fun _ th => th.goOn (nextPc i gr set)) (fun u hu => List.mem_of_mem_filter hu)
      fun _ _ => ⟨rfl, rfl⟩
    have e : others set (others set (F.who gr set)) = F.who gr set := others_others ..
    rwa [e] at h2
  have hgg : (onThreads (flagged w g gr (F.who gr set) fun t => poisonFlag gr (inThread t (ownReads F.fields))) g (others set (F.who gr set))
      fun _ th => th.goOn (nextPc i gr set)).groups[g]? = some (onGroup (others set (F.who gr set)) (fun _ th => th.goOn (nextPc i gr set))
      (flagGroup w.cycle (F.who gr set) (fun t => poisonFlag gr (inThread t (ownReads F.fields))) gr)) := by
    simp only [onThreads, flagged, List.getElem?_modify, hwg]; simp
  refine onlyStores_trans ?_ (foldl_stores gr set (F.who gr set) _ _ (looks_refl _) g (gkeyTeam gr.key) hrw
    (fun t ht => List.mem_of_mem_filter ht) ⟨_, hgg, hgo⟩ _ L (fun _ th => Thread.goOn { th with stores := th.stores + 1 } (nextPc i gr set)) (fun _ _ => ⟨rfl, rfl⟩)
    (fun t => s.places gr.key (F.target gr t) true) fun t ht s' x _ hx =>
      storeLane_only s' g t (gkeyTeam gr.key) _ _ L _ _ (nextPc i gr set) (fun y hy => hin t ht y hy) x hx)
  exact onlyStores_onThreads (onlyStores_overwritten (g := g) gr _ set _ hbase) g (F.who gr set) _

end Sys2Proof.Laws
end

