-- ==== Sys2Proof/Laws/Atomics.lean ====
section
/-! SUPPORT. The atomics of chapter 14: what `atomicRun` does when it answers a next state. -/
namespace Sys2Proof.Laws
open Sys2Proof.Machine Sys2Proof.Safety

theorem loWord_ofNat (n : Nat) : loWord (BitVec.ofNat 64 n) = BitVec.ofNat 32 n := by
  apply BitVec.eq_of_toNat_eq; simp [loWord]

theorem word_bytes (x : Option Word) :
    (x.map fun v => natBytes 4 v.toNat) = (x.map fun v => v.zeroExtend 64).map fun (v : DWord) => natBytes 4 v.toNat := by
  cases x with
  | none => rfl
  | some v =>
    have h : (v.zeroExtend 64).toNat = v.toNat := by
      rw [BitVec.toNat_setWidth]; exact Nat.mod_eq_of_lt (by have := v.isLt; omega)
    simp only [Option.map_some, h]

/-- A 32-bit atomic in the two spellings. -/
theorem word_stored (op : Nat) (h1 : ¬(op = 30 ∨ op = 31)) (f : Word → Word → Word → Option Word × Flags)
    (hf : ∀ m d c, atomicNew op m d c = f m d c) (old data : List Byte) :
    atomicBytes op old data =
      let r := onWords f (BitVec.ofNat 64 (bytesNat old)) (BitVec.ofNat 64 (bytesNat (data.take 4))) (BitVec.ofNat 64 (bytesNat (data.drop 4)))
      (r.1.map fun v => natBytes 4 v.toNat, r.2) := by
  simp only [atomicBytes, if_neg h1, hf, onWords, loWord_ofNat, word_bytes]

theorem word_form (F : AtomicForm) (f : Word → Word → Word → Option Word × Flags) (h4 : F.size = 4)
    (h1 : ¬(F.op = 30 ∨ F.op = 31)) (hn : F.new = onWords f) (hf : ∀ m d c, atomicNew F.op m d c = f m d c) (th : Thread) (old : List Byte) :
    atomicBytes F.op old (storeBytes th F.d.toNat (4 * F.span)) = F.stored th old := by
  rw [word_stored F.op h1 f hf]
  unfold AtomicForm.stored
  rw [h4, hn]

theorem dword_form (F : AtomicForm) (h8 : F.size = 8) (h1 : F.op = 30 ∨ F.op = 31)
    (hn : ∀ m d c, F.new m d c = (atomicNewD F.op m d c, 0)) (th : Thread) (old : List Byte) :
    atomicBytes F.op old (storeBytes th F.d.toNat (4 * F.span)) = F.stored th old := by
  unfold atomicBytes AtomicForm.stored
  rw [if_pos h1, h8]; simp only [hn]

/-- Table 14.2 in the two spellings. -/
theorem stored_eq (i : Instr) (F : AtomicForm) (h : atomicForm i = some F) (th : Thread) (old : List Byte) :
    atomicBytes F.op old (storeBytes th F.d.toNat (4 * F.span)) = F.stored th old := by
  cases i <;> cases h <;> first
    | exact word_form _ _ rfl (by simp) rfl (fun _ _ _ => rfl) _ _
    | exact dword_form _ rfl (by simp) (fun _ _ _ => rfl) _ _

/-- Flags raised and other threads' updates commute. -/
theorem flagged_onThreads (s : State) (g : Nat) (gr : Group) (ts us : List Nat) (f : Nat → Thread → Thread) (fl : Nat → Flags)
    (hd : ∀ t ∈ us, t ∉ ts) : onThreads (flagged s g gr ts fl) g us f = flagged (onThreads s g us f) g gr ts fl := by
  have h : ∀ x, onGroup us f (flagGroup s.cycle ts fl x) = flagGroup s.cycle ts fl (onGroup us f x) := by
    intro x
    have e := onGroup_comm us ts f (fun u th => th.raiseBits s.cycle (fl u)) hd x
    unfold flagGroup
    rw [e]; rfl
  simp only [flagged, onThreads, modify_modify, h]
  rfl

/-- Raising the flags of a thread that then goes on. -/
theorem raise_goOn (s : State) (g t : Nat) (gr : Group) (fl : Flags) (f h : Thread → Thread)
    (hh : ∀ th, h ((f th).raiseBits s.cycle fl) = (h (f th)).raiseBits s.cycle fl)
    (hg : ∃ x, s.groups[g]? = some x ∧ x.key = gr.key) :
    ((s.modThread g t f).raise g t fl).modThread g t h = flagged (onThreads s g [t] fun _ th => h (f th)) g gr [t] fun _ => fl := by
  obtain ⟨x, hx, hk⟩ := hg
  rw [raise_eq _ g t gr fl ⟨x.modThread t f, by simp [State.modThread, State.modGroup, hx], hk⟩, modThread_onThreads, modThread_onThreads]
  simp only [flagged, onThreads, modify_modify]
  congr 2; funext y
  have e : onGroup [t] (fun _ => h) (onGroup [t] (fun _ th => th.raiseBits s.cycle fl) (onGroup [t] (fun _ => f) y))
      = onGroup [t] (fun _ th => th.raiseBits s.cycle fl) (onGroup [t] (fun _ th => h (f th)) y) := by
    simp only [onGroup]; congr 1
    apply List.ext_getElem?; intro j
    simp only [List.getElem?_mapIdx]
    cases y.threads[j]? with
    | none => rfl
    | some th => by_cases hj : j = t <;> simp [hj, hh]
  exact congrArg (Group.raiseBits s.cycle (orFlags [t] fun _ => fl)) e

/-- Where an atomic lane goes on: one event, the old value on its way, the flags raised. -/
theorem doAtomic_eq (s : State) (g t : Nat) (gr : Group) (k : TKey) (ls : List (Loc × Nat)) (op : Nat) (data : List Byte) (regs : List Nat)
    (next : Word) (hg : ∃ x, s.groups[g]? = some x ∧ x.key = gr.key) :
    (s.doAtomic g t k ls op data regs).modThread g t (fun th => th.goOn next) =
      flagged (onThreads (match (atomicBytes op (s.readPlaces k ls) data).1 with
          | some bs => s.writePlaces k ls bs
          | none => s.touchPlaces k ls) g [t] fun _ th =>
        Thread.goOn { th with loads := th.loads ++ [({ vals := wordsOf regs (s.readPlaces k ls), pc := th.pc, cycle := s.cycle } : LoadRec)] } next) g gr [t]
        fun _ => (atomicBytes op (s.readPlaces k ls) data).2 := by
  unfold State.doAtomic
  have hg' : ∃ x, (match (atomicBytes op (s.readPlaces k ls) data).1 with
          | some bs => s.writePlaces k ls bs
          | none => s.touchPlaces k ls).groups[g]? = some x ∧ x.key = gr.key := by
    split
    · rw [(writePlaces_only k ls s _).rest]; exact hg
    · have : (s.touchPlaces k ls).groups = s.groups := by
        unfold State.touchPlaces
        have : ∀ (l : List (Loc × Nat)) (s : State), (l.foldl (fun s l => s.afterRead k l.1) s).groups = s.groups := by
          intro l; induction l with
          | nil => intro s; rfl
          | cons x l ih =>
            intro s; rw [List.foldl_cons, ih]
            unfold State.afterRead; split <;> rfl
        exact this ls s
      rw [this]; exact hg
  exact raise_goOn _ g t gr _ (fun th => { th with loads := th.loads ++ [({ vals := wordsOf regs (s.readPlaces k ls), pc := th.pc, cycle := s.cycle } : LoadRec)] })
    (fun th => th.goOn next) (fun _ => rfl) hg'

theorem sealStores_onThreads (fuel : Nat) (l : List (Node × Bool)) (s : State) (g : Nat) (set : List Nat) (f : Nat → Thread → Thread) :
    sealStores fuel l (onThreads s g set f) = onThreads (sealStores fuel l s) g set f := by
  induction fuel generalizing l s with
  | zero => rfl
  | succ fuel ih =>
    cases l with
    | nil => rfl
    | cons x l =>
      obtain ⟨n, staged⟩ := x
      simp only [sealStores]
      rw [show (onThreads s g set f).ctx n.ctx = s.ctx n.ctx from rfl]
      cases (s.ctx n.ctx).phys? (n.addr + 104) with
      | none => exact ih l s
      | some p =>
        cases staged with
        | true => exact ih l (s.memWrite p (natBytes 4 n.status))
        | false => exact ih _ (s.stageOnce none (p / 65536)).1

theorem write_loc_onThreads (s : State) (k : TKey) (l : Loc) (bs : List Byte) (g : Nat) (set : List Nat) (f : Nat → Thread → Thread) :
    (onThreads s g set f).writeLoc k l bs = onThreads (s.writeLoc k l bs) g set f := by
  unfold State.writeLoc
  split
  · have h : ∀ w p, (onThreads s g set f).stageFor w p = onThreads (s.stageFor w p) g set f := fun w p =>
      sealStores_onThreads _ _ (s.stageOnce w p).1 g set f
    simp only [h]
    split <;> rfl
  · rfl

theorem write_onThreads (s : State) (k : TKey) (ls : List (Loc × Nat)) (bs : List Byte) (g : Nat) (set : List Nat) (f : Nat → Thread → Thread) :
    (onThreads s g set f).writePlaces k ls bs = onThreads (s.writePlaces k ls bs) g set f := by
  induction ls generalizing s bs with
  | nil => rfl
  | cons l ls ih =>
    rw [State.writePlaces, State.writePlaces, ← ih]
    congr 1
    exact write_loc_onThreads ..

/-- Marks on a whole issue set, after updates of the threads that are not in a list. -/
theorem marks_split (s : State) (g : Nat) (set who : List Nat) (m f h : Nat → Thread → Thread) (hw : ∀ t ∈ who, t ∈ set) :
    onThreads (onThreads (onThreads s g (others set who) m) g (others set who) f) g set h =
      onThreads (onThreads s g (others set who) fun t th => h t (f t (m t th))) g who h := by
  simp only [onThreads, modify_modify]
  congr 2; funext x
  have e : (onGroup set h (onGroup (others set who) f (onGroup (others set who) m x))).threads =
      (onGroup who h (onGroup (others set who) (fun t th => h t (f t (m t th))) x)).threads := by
    apply List.ext_getElem?; intro j
    simp only [onGroup, List.getElem?_mapIdx]
    cases x.threads[j]? with
    | none => rfl
    | some th =>
      simp only [Option.map_some]
      by_cases h1 : j ∈ who
      · have := hw j h1; simp [h1, this, others]
      · by_cases h2 : j ∈ set <;> simp [h1, h2, others]
  have e2 : ∀ ts', onGroup set h (onGroup (others set who) f (onGroup (others set who) m x)) = { x with threads := ts' } ↔
      (onGroup set h (onGroup (others set who) f (onGroup (others set who) m x))).threads = ts' := by
    intro ts'; constructor
    · intro h; exact congrArg Group.threads h
    · intro h; rw [← h]; rfl
  exact (e2 _).2 e

theorem guarded_sub {gr : Group} {n : BitVec 1} {gd : BitVec 6} {set : List Nat} : ∀ t ∈ guarded gr n gd set, t ∈ set := by
  intro t h; unfold guarded at h; exact List.mem_of_mem_filter h

/-- R216. The marks of an atomic: the threads in which it acts, and the others, which go on. -/
theorem atomicMarks_eq (F : AtomicForm) (s : State) (g : Nat) (gr : Group) (set : List Nat) (next : Word) (hn : set.Nodup) :
    (((others set (F.who gr set)).foldl (fun s t => s.modThread g t (Thread.markOnly F.regs)) s).goAll g (others set (F.who gr set)) next).markAll
        g set F.regs =
      onThreads (onThreads s g (others set (F.who gr set)) fun _ th => F.marked next th) g (F.who gr set) fun _ th =>
        F.regs.foldl (fun th r => th.setPend r true) th := by
  have hmk : ∀ s0 : State, s0.markAll g set F.regs = onThreads s0 g set fun _ th => F.regs.foldl (fun th r => th.setPend r true) th :=
    fun s0 => foldl_modThread set s0 g (fun _ th => F.regs.foldl (fun th r => th.setPend r true) th) hn
  rw [foldl_modThread (others set (F.who gr set)) s g (fun _ => Thread.markOnly F.regs) (others_nodup hn),
    goAll_eq _ _ _ _ (others_nodup hn), hmk, marks_split s g set (F.who gr set) _ _ _ guarded_sub]
  congr 2
  funext t th
  simp only [foldl_setPend, AtomicForm.marked]
  rfl

/-- The checks of an atomic pass where every thread whose guard is true reaches its target. -/
theorem atomicRounds (i : Instr) (F : AtomicForm) (s : State) (g : Nat) (set : List Nat) (gr : Group)
    (hu : GuardUsable F.fields F.n F.guard gr set) (hr : ∀ t ∈ F.who gr set, Reaches s gr.key true (F.target gr t)) :
    (theAct i g set gr).rounds (idle s) (guardedSet gr F.guard set (F.who gr set))
      (accessChk gr F.guard F.fields (F.who gr set) fun t => (idle s).lowCheck gr.key true (F.target gr t)) (fun _ => .ok (.scr 0)) =
      (idle s, true) :=
  rounds_ok (theAct i g set gr) (idle s) _ _ _ _ _ (accessChk_ok hu fun t ht => (hr t ht).1) fun _ _ => ⟨_, rfl⟩

/-- Where an atomic acts in some thread and its checks pass: marks, then one event for each thread. -/
theorem atomicRun_eq (i : Instr) (F : AtomicForm) (s : State) (g : Nat) (set : List Nat) (gr : Group)
    (h : Issuing s g set gr) (hu : GuardUsable F.fields F.n F.guard gr set) (hwho : F.who gr set ≠ [])
    (hr : ∀ t ∈ F.who gr set, Reaches s gr.key true (F.target gr t))
    (hm : ∀ t ∈ F.who gr set, s.mayPerform gr.key true (s.places gr.key (F.target gr t) true) = true) :
    atomicRun F.op F.off F.n F.guard F.base F.d (theAct i g set gr) gr (idle s) =
      (F.who gr set).foldl (fun s' t => (s'.doAtomic g t (gkeyTeam gr.key) (s.places gr.key (F.target gr t) true) F.op
          (storeBytes (gr.thread t) F.d.toNat (4 * F.span)) F.regs).modThread g t fun th => th.goOn (nextPc i gr set))
        (onThreads (onThreads (poisoned (idle s) g gr (F.who gr set) F.fields) g (others set (F.who gr set)) fun _ th =>
          F.pass (F.who gr set) (nextPc i gr set) th) g (F.who gr set) fun _ th => F.regs.foldl (fun th r => th.setPend r true) th) := by
  have hn := rising_nodup h.rising
  have hnw : (F.who gr set).Nodup := guarded_nodup hn
  have hp : ∀ th, F.pass (F.who gr set) (nextPc i gr set) th = F.marked (nextPc i gr set) th := fun th => if_neg hwho
  have hf : fieldsFault gr.budget [regF F.base 2, regF F.guard, updF F.d (atomicSpan F.op)] = none := hu.fields
  have hz : (if F.op = 30 ∨ F.op = 31 then 8 else 4) = F.size := rfl
  have ht : ∀ t, ({ glob := true, addr := formAddr true (gr.thread t) F.base.toNat ((F.off.toNat * F.size : Nat) : Int), size := F.size, align := F.size } : Target)
      = F.target gr t := fun _ => rfl
  have hall : ((F.who gr set).all fun u => (idle s).mayPerform gr.key true ((idle s).places gr.key (F.target gr u) true)) = true :=
    List.all_eq_true.2 hm
  have hempty : (F.who gr set).isEmpty = false := by simpa using hwho
  unfold atomicRun
  simp only [hf, hz, ht, show (theAct i g set gr).set = set from rfl, show (theAct i g set gr).g = g from rfl,
    show guarded gr F.n F.guard set = F.who gr set from rfl]
  rw [show ([regF F.base 2, regF F.guard, updF F.d (atomicSpan F.op)] : List Field) = F.fields from rfl, atomicRounds i F s g set gr hu hr,
    show regSpan F.d.toNat (F.size / 4) = F.regs from rfl]
  simp only [Bool.not_true, Bool.false_eq_true, if_false, hempty, hall, if_true]
  rw [raisePoison_eq _ _ _ _ _ hnw ⟨gr, idle_group h, rfl⟩, atomicMarks_eq F _ g gr set _ hn]
  simp only [hp]
  rfl

/-- Spec lemma of `atomicRun` for one executing thread: the stored bytes too. -/
theorem atomicLane_eq (i : Instr) (F : AtomicForm) (s : State) (g : Nat) (set : List Nat) (gr : Group) (t : Nat)
    (hF : atomicForm i = some F) (h : Issuing s g set gr) (hw : i.wf = true) (hu : GuardUsable F.fields F.n F.guard gr set) (ho : F.who gr set = [t])
    (hr : Reaches s gr.key true (F.target gr t)) (hm : s.mayPerform gr.key true (s.places gr.key (F.target gr t) true) = true) :
    withIssue i s (atomicRun F.op F.off F.n F.guard F.base F.d) =
      let k := gkeyTeam gr.key
      let places := s.places gr.key (F.target gr t) true
      let old := s.readPlaces k places
      let new := F.stored (gr.thread t) old
      let next := nextPc i gr set
      let s1 := onThreads (poisoned (idle s) g gr [t] F.fields) g (others set [t]) fun _ th => F.marked next th
      let s2 := match new.1 with
        | some bs => s1.writePlaces k places bs
        | none => s1.touchPlaces k places
      .next (flagged (onThreads s2 g [t] fun _ th => F.issued old s.cycle next th) g gr [t] fun _ => new.2) := by
  rw [withIssue_eq i s _ g set gr h hw, atomicRun_eq i F s g set gr h hu (by rw [ho]; simp) (by rw [ho]; simpa using hr) (by rw [ho]; simpa using hm)]
  rw [ho, List.foldl_cons, List.foldl_nil]
  generalize hx : onThreads (onThreads (poisoned (idle s) g gr [t] F.fields) g (others set [t]) fun _ th => F.pass [t] (nextPc i gr set) th) g [t]
    (fun _ th => F.regs.foldl (fun th r => th.setPend r true) th) = x
  have hv : SameView x s := by
    rw [← hx]
    exact (view_onThreads _ _ _ _).trans ((view_onThreads _ _ _ _).trans ((view_flagged _ _ _ _ _).trans (view_idle s)))
  have hgx : ∃ y, x.groups[g]? = some y ∧ y.key = gr.key := by
    rw [← hx]; simp [onThreads, poisoned, flagged, idle, h.group]; rfl
  rw [doAtomic_eq (hg := hgx), hv.readPlaces, hv.cycle, stored_eq i F hF, ← hx]
  have hmk : ∀ (o : List Byte) (th : Thread), Thread.goOn { F.regs.foldl (fun th r => th.setPend r true) th with
      loads := (F.regs.foldl (fun th r => th.setPend r true) th).loads ++ [({ vals := wordsOf F.regs o, pc := (F.regs.foldl (fun th r => th.setPend r true) th).pc, cycle := s.cycle } : LoadRec)] }
      (nextPc i gr set) = F.issued o s.cycle (nextPc i gr set) th := by
    intro o th; simp only [foldl_setPend_pc]; rfl
  have hp : ∀ th, F.pass [t] (nextPc i gr set) th = F.marked (nextPc i gr set) th := fun _ => if_neg (by simp)
  dsimp only
  rcases F.stored (gr.thread t) (s.readPlaces (gkeyTeam gr.key) (s.places gr.key (F.target gr t) true)) with ⟨o, b⟩
  cases o with
  | some bs => simp only [write_onThreads, onThreads_onThreads, hmk, hp]
  | none => simp only [touch_onThreads, onThreads_onThreads, hmk, hp]

theorem onThreads_congr (s : State) (g : Nat) (ts : List Nat) (f h : Nat → Thread → Thread) (hh : ∀ t ∈ ts, f t = h t) :
    onThreads s g ts f = onThreads s g ts h := by
  have : onGroup ts f = onGroup ts h := by
    funext gr; unfold onGroup; congr 1
    apply List.ext_getElem?; intro j
    simp only [List.getElem?_mapIdx]
    cases gr.threads[j]? with
    | none => rfl
    | some th =>
      simp only [Option.map_some]
      by_cases hj : j ∈ ts
      · simp [hj, hh j hj]
      · simp [hj]
  unfold onThreads; rw [this]

theorem flagged_congr (s : State) (g : Nat) (gr : Group) (ts : List Nat) (f h : Nat → Flags) (hh : ∀ t ∈ ts, f t = h t) :
    flagged s g gr ts f = flagged s g gr ts h := by
  have e : orFlags ts f = orFlags ts h := by unfold orFlags; rw [List.map_congr_left hh]
  have : flagGroup s.cycle ts f = flagGroup s.cycle ts h := by
    funext x
    have := onThreads_congr { s with groups := [x] } 0 ts (fun u th => th.raiseBits s.cycle (f u))
      (fun u th => th.raiseBits s.cycle (h u)) fun t ht => by rw [hh t ht]
    have h2 : onGroup ts (fun u th => th.raiseBits s.cycle (f u)) x = onGroup ts (fun u th => th.raiseBits s.cycle (h u)) x := by
      have h3 := congrArg State.groups this
      simpa [onThreads] using h3
    unfold flagGroup; rw [h2, e]
  unfold flagged; rw [this, e]

/-- Threads that each store, read and raise flags, and then update themselves by what they read. -/
theorem foldl_atomics (ts : List Nat) (s0 s : State) (hv : Looks s0 s) (hc : s.cycle = s0.cycle) (g : Nat) (gr : Group) (k : TKey)
    (hn : ts.Nodup) (hg : ∃ x, s.groups[g]? = some x ∧ x.key = gr.key)
    (step : State → Nat → State) (L : List (Loc × Nat)) (f : List Byte → Thread → Thread)
    (hs : ∀ t ∈ ts, ∀ s, Looks s0 s → s.cycle = s0.cycle → (∃ x, s.groups[g]? = some x ∧ x.key = gr.key) →
      ∃ (o : List Byte) (b : Flags), OnlyStores k L (flagged (onThreads s g [t] fun _ th => f o th) g gr [t] fun _ => b) (step s t)) :
    ∃ (old : Nat → List Byte) (fl : Nat → Flags), OnlyStores k L (flagged (onThreads s g ts fun t th => f (old t) th) g gr ts fl) (ts.foldl step s) := by
  induction ts generalizing s with
  | nil => exact ⟨fun _ => [], fun _ => 0, by rw [onThreads_nil, flagged_nil]; exact onlyStores_refl ..⟩
  | cons t ts ih =>
    obtain ⟨o, b, h1⟩ := hs t (by simp) s hv hc hg
    have hnt := (List.nodup_cons.1 hn).1
    have h2 : Looks s0 (step s t) :=
      looks_trans hv (looks_trans (looks_view ((view_flagged _ _ _ _ _).trans (view_onThreads _ _ _ _))) (looks_stores h1))
    have hg2 : ∃ x, (step s t).groups[g]? = some x ∧ x.key = gr.key := by
      obtain ⟨x, hx, hk⟩ := hg
      rw [h1.rest]
      exact ⟨flagGroup s.cycle [t] (fun _ => b) (onGroup [t] (fun _ th => f o th) x), by simp [flagged, onThreads, hx]; rfl, hk⟩
    have hc2 : (step s t).cycle = s0.cycle := by rw [h1.rest]; exact hc
    obtain ⟨old, fl, h3⟩ := ih _ h2 hc2 (List.nodup_cons.1 hn).2 hg2 fun u hu => hs u (by simp [hu])
    refine ⟨fun u => if u = t then o else old u, fun u => if u = t then b else fl u, ?_⟩
    have h4 := onlyStores_flagged (onlyStores_onThreads h1 g ts fun u th => f (old u) th) g gr ts fl
    have hne : ∀ u ∈ ts, u ≠ t := fun u hu e => hnt (e ▸ hu)
    have e : flagged (onThreads (flagged (onThreads s g [t] fun _ th => f o th) g gr [t] fun _ => b) g ts fun u th => f (old u) th) g gr ts fl
        = flagged (onThreads s g (t :: ts) fun u th => f (if u = t then o else old u) th) g gr (t :: ts) fun u => if u = t then b else fl u := by
      rw [flagged_onThreads _ _ _ _ _ _ _ (fun u hu => by simpa using hne u hu), ← flagged_cons _ _ _ _ _ _ hnt, ← onThreads_cons _ _ _ _ _ hnt,
        modThread_onThreads, flagged_congr _ _ _ ts fl (fun u => if u = t then b else fl u) (fun u hu => by simp [hne u hu]),
        onThreads_congr _ _ ts (fun u th => f (old u) th) (fun u th => f (if u = t then o else old u) th) (fun u hu => by simp [hne u hu])]
      simp
    rw [← e]
    exact onlyStores_trans h4 h3

theorem touch_only (s : State) (k : TKey) (ls L : List (Loc × Nat)) : OnlyStores k L s (s.touchPlaces k ls) := by
  unfold State.touchPlaces
  induction ls generalizing s with
  | nil => exact onlyStores_refl ..
  | cons l ls ih =>
    refine onlyStores_trans ?_ (ih _)
    show OnlyStores k L s (s.afterRead k l.1)
    unfold State.afterRead; split
    · exact touchLine_only ..
    · exact onlyStores_refl ..

/-- Spec lemma of `atomicRun`: every effect but the bytes stored, and no byte outside the threads' targets. -/
theorem atomic_eq (i : Instr) (F : AtomicForm) (s : State) (g : Nat) (set : List Nat) (gr : Group)
    (h : Issuing s g set gr) (hw : i.wf = true) (hu : GuardUsable F.fields F.n F.guard gr set)
    (hr : ∀ t ∈ F.who gr set, Reaches s gr.key true (F.target gr t))
    (hm : ∀ t ∈ F.who gr set, s.mayPerform gr.key true (s.places gr.key (F.target gr t) true) = true) :
    ∃ (s' : State) (old : Nat → List Byte) (fl : Nat → Flags), withIssue i s (atomicRun F.op F.off F.n F.guard F.base F.d) = .next s' ∧
    OnlyStores (gkeyTeam gr.key) ((F.who gr set).map fun t => s.places gr.key (F.target gr t) true).flatten
      (flagged (onThreads (onThreads (poisoned (idle s) g gr (F.who gr set) F.fields) g (others set (F.who gr set))
        fun _ th => F.pass (F.who gr set) (nextPc i gr set) th) g (F.who gr set) fun t th => F.issued (old t) s.cycle (nextPc i gr set) th) g gr (F.who gr set) fl) s' := by
  rw [withIssue_eq i s _ g set gr h hw]
  have hn := rising_nodup h.rising
  have hnw : (F.who gr set).Nodup := guarded_nodup hn
  by_cases hwho : F.who gr set = []
  · refine ⟨_, fun _ => [], fun _ => 0, rfl, ?_⟩
    have hf : fieldsFault gr.budget [regF F.base 2, regF F.guard, updF F.d (atomicSpan F.op)] = none := hu.fields
    have ht : ∀ t, ({ glob := true, addr := formAddr true (gr.thread t) F.base.toNat ((F.off.toNat * F.size : Nat) : Int), size := F.size, align := F.size } : Target)
        = F.target gr t := fun _ => rfl
    have he : atomicRun F.op F.off F.n F.guard F.base F.d (theAct i g set gr) gr (idle s) = (idle s).goAll g set (nextPc i gr set) := by
      unfold atomicRun
      simp only [hf, show (if F.op = 30 ∨ F.op = 31 then 8 else 4) = F.size from rfl, ht, show (theAct i g set gr).set = set from rfl,
        show (theAct i g set gr).g = g from rfl, show guarded gr F.n F.guard set = F.who gr set from rfl]
      rw [show ([regF F.base 2, regF F.guard, updF F.d (atomicSpan F.op)] : List Field) = F.fields from rfl, atomicRounds i F s g set gr hu hr]
      simp only [Bool.not_true, Bool.false_eq_true, if_false, hwho, List.isEmpty_nil, if_true]
      rfl
    rw [he, hwho, goAll_eq _ _ _ _ hn, onThreads_nil, flagged_nil, poisoned, flagged_nil, show others set [] = set by simp [others]]
    exact onlyStores_refl ..
  generalize hL : ((F.who gr set).map fun t => s.places gr.key (F.target gr t) true).flatten = L
  have hin : ∀ t ∈ F.who gr set, ∀ x ∈ s.places gr.key (F.target gr t) true, x ∈ L := by
    intro t ht x hx; rw [← hL]; exact List.mem_flatten.2 ⟨_, List.mem_map_of_mem ht, hx⟩
  rw [atomicRun_eq i F s g set gr h hu hwho hr hm]
  generalize hx : onThreads (onThreads (poisoned (idle s) g gr (F.who gr set) F.fields) g (others set (F.who gr set)) fun _ th =>
    F.pass (F.who gr set) (nextPc i gr set) th) g (F.who gr set) (fun _ th => F.regs.foldl (fun th r => th.setPend r true) th) = x
  have hv : SameView x s := by
    rw [← hx]
    exact (view_onThreads _ _ _ _).trans ((view_onThreads _ _ _ _).trans ((view_flagged _ _ _ _ _).trans (view_idle s)))
  have hgx : ∃ y, x.groups[g]? = some y ∧ y.key = gr.key := by
    rw [← hx]; simp [onThreads, poisoned, flagged, idle, h.group]; rfl
  obtain ⟨old, fl, h3⟩ := foldl_atomics (F.who gr set) x x (looks_refl _) rfl g gr (gkeyTeam gr.key) hnw hgx
    (fun s' t => (s'.doAtomic g t (gkeyTeam gr.key) (s.places gr.key (F.target gr t) true) F.op (storeBytes (gr.thread t) F.d.toNat (4 * F.span))
      F.regs).modThread g t fun th => th.goOn (nextPc i gr set)) L
    (fun o th => Thread.goOn { th with loads := th.loads ++ [({ vals := wordsOf F.regs o, pc := th.pc, cycle := x.cycle } : LoadRec)] } (nextPc i gr set)) (by
      intro t ht s' hv' hc' hg'
      rw [doAtomic_eq (hg := hg'), hc']
      refine ⟨_, _, onlyStores_flagged (onlyStores_onThreads ?_ g [t] _) g gr [t] _⟩
      split
      · exact onlyStores_mono (writePlaces_only ..) fun y hy => hin t ht y hy
      · exact touch_only ..)
  refine ⟨_, old, fl, rfl, ?_⟩
  rw [hv.cycle, ← hx, onThreads_onThreads] at h3
  rw [← hx]
  have hmk : ∀ (o : List Byte) (th : Thread), Thread.goOn { F.regs.foldl (fun th r => th.setPend r true) th with
      loads := (F.regs.foldl (fun th r => th.setPend r true) th).loads ++ [({ vals := wordsOf F.regs o, pc := (F.regs.foldl (fun th r => th.setPend r true) th).pc, cycle := s.cycle } : LoadRec)] }
      (nextPc i gr set) = F.issued o s.cycle (nextPc i gr set) th := by
    intro o th; simp only [foldl_setPend_pc]; rfl
  simp only [hmk] at h3
  exact h3

end Sys2Proof.Laws
end

