-- ==== Sys2Proof/Laws/Control.lean ====
section
/-! SUPPORT. System instructions and branches: what the shared frames `sysRun`, `onceRun` and `branchRun` answer, and when
no wait is there to end. -/

namespace Sys2Proof.Laws
open Sys2Proof.Machine Sys2Proof.Safety

theorem onGroup_same (set : List Nat) (f : Nat → Thread → Thread) (gr : Group) (h : ∀ t th, f t th = th) : onGroup set f gr = gr := by
  have : (gr.threads.mapIdx fun u th => if set.contains u then f u th else th) = gr.threads := by
    apply List.ext_getElem?; intro j; simp only [List.getElem?_mapIdx, h, ite_self, Option.map_id']
  unfold onGroup; rw [this]

theorem flagged_zero (s : State) (g : Nat) (gr : Group) (set : List Nat) (fl : Nat → Flags) (h : ∀ t, fl t = 0) :
    flagged s g gr set fl = s := by
  have ho : orFlags set fl = 0 := by
    unfold orFlags
    induction set with
    | nil => rfl
    | cons t ts ih => rw [List.map_cons, List.foldr_cons, ih, h]; rfl
  have h1 : flagGroup s.cycle set fl = id := by
    funext x
    have h3 := onGroup_same set (fun u th => th.raiseBits s.cycle (fl u)) x (by intro t th; rw [h]; exact threadRaise_zero _ th)
    unfold flagGroup; rw [h3, ho, groupRaise_zero]; rfl
  have h2 : Context.raiseBits s.cycle (orFlags set fl) = id := by funext c; rw [ho]; exact raiseBits_zero ..
  unfold flagged; rw [h1, h2]; simp

theorem poisoned_same (s : State) (g : Nat) (gr : Group) (set : List Nat) (fs : List Field) (h : ownReads fs = []) :
    poisoned s g gr set fs = s := flagged_zero _ _ _ _ _ (by intro t; simp [h, inThread, poisonFlag, flagIf])

/-- A whole-set system instruction that executes. -/
theorem runs_eq {i : Instr} {fs : List Field} {s : State} {g : Nat} {set : List Nat} {gr : Group} (h : Runs i fs s g set gr)
    (ill : Group → State → Bool) (f : Act → Group → State → State) (hi : ill gr (idle s) = false) :
    withIssue i s (sysRun ill fs f) = .next (f (theAct i g set gr) gr (acting fs s g set gr)) := by
  rw [withIssue_eq i s _ g set gr h.issuing h.wf, sysRun_eq ill fs f (theAct i g set gr) gr (idle s) hi h.usable
    (rising_nodup h.issuing.rising) (idle_group h.issuing)]
  rfl

theorem runsOnce_eq {i : Instr} {fs : List Field} {s : State} {g : Nat} {set : List Nat} {gr : Group} (h : RunsOnce i fs s g set gr)
    (ill : Group → State → Bool) (f : Act → Group → State → State) (hi : ill gr (idle s) = false) :
    withIssue i s (onceRun ill fs f) = .next (f (theAct i g set gr) gr (poisoned (idle s) g gr [leadOf set] fs)) := by
  rw [withIssue_eq i s _ g set gr h.issuing h.wf, onceRun_eq ill fs f (theAct i g set gr) gr (idle s) hi h.usable
    (idle_group h.issuing)]
  rfl

/-- A system instruction whose effect makes its own later checks. -/
theorem bare_eq {i : Instr} {fs : List Field} {s : State} {g : Nat} {set : List Nat} {gr : Group} (h : Issuing s g set gr)
    (hw : i.wf = true) (hf : fieldsFault gr.budget fs = none)
    (ill : Group → State → Bool) (f : Act → Group → State → State) (hi : ill gr (idle s) = false) :
    withIssue i s (sysBare ill fs f) = .next (f (theAct i g set gr) gr (idle s)) := by
  rw [withIssue_eq i s _ g set gr h hw]
  simp only [sysBare, sysFields, hi, hf]; rfl

/-- A thread passes where nothing it names is pending and the instruction's own check passes. -/
theorem sysChk_ok {gr : Group} {fs : List Field} {set : List Nat} {f : Nat → Chk} (h : Usable fs gr set)
    (hf : ∀ t ∈ set, ∃ l, f t = .ok l) : ∀ t ∈ set, ∃ l, sysChk gr fs f t = .ok l :=
  fun t ht => and_ok ⟨_, pendChk_ok _ _ (h.ready t ht)⟩ (hf t ht)

theorem acting_nil {fs : List Field} (s : State) (g : Nat) (set : List Nat) (gr : Group) (h : ownReads fs = []) :
    acting fs s g set gr = idle s := poisoned_same _ _ _ _ _ h

theorem fold_set {set : List Nat} (hn : set.Nodup) (s : State) (g : Nat) (f : Nat → State → State) (u : Nat → Thread → Thread)
    (h : ∀ t s, f t s = s.modThread g t (u t)) : set.foldl (fun s t => f t s) s = onThreads s g set u := by
  have : (fun (s : State) t => f t s) = fun s t => s.modThread g t (u t) := by funext s t; exact h t s
  rw [this]; exact foldl_modThread set s g u hn

theorem onThreads_ext (s : State) (g : Nat) (ts us : List Nat) (f h : Nat → Thread → Thread)
    (hh : ∀ t th, (if t ∈ ts then f t th else th) = if t ∈ us then h t th else th) : onThreads s g ts f = onThreads s g us h := by
  have : onGroup ts f = onGroup us h := by
    funext gr; unfold onGroup; congr 1
    apply List.ext_getElem?; intro j
    simp only [List.getElem?_mapIdx, List.contains_iff_mem]
    cases gr.threads[j]? with
    | none => rfl
    | some th => simp [hh]
  unfold onThreads; rw [this]

theorem onThreads_two (s : State) (g : Nat) (set who : List Nat) (hw : ∀ t ∈ who, t ∈ set) (f h : Thread → Thread) :
    onThreads (onThreads s g who fun _ => f) g (others set who) (fun _ => h) = onThreads s g set fun t th => if t ∈ who then f th else h th := by
  have hg : ∀ x, onGroup (others set who) (fun _ => h) (onGroup who (fun _ => f) x) = onGroup set (fun t th => if t ∈ who then f th else h th) x := by
    intro x
    have e : (onGroup (others set who) (fun _ => h) (onGroup who (fun _ => f) x)).threads = (onGroup set (fun t th => if t ∈ who then f th else h th) x).threads := by
      apply List.ext_getElem?; intro j
      simp only [onGroup, List.getElem?_mapIdx]
      cases x.threads[j]? with
      | none => rfl
      | some th =>
        simp only [Option.map_some]
        by_cases h1 : j ∈ who
        · have := hw j h1; simp [h1, this, others]
        · by_cases h2 : j ∈ set <;> simp [h1, h2, others]
    have e2 : ∀ ts', onGroup (others set who) (fun _ => h) (onGroup who (fun _ => f) x) = { x with threads := ts' } ↔
       (onGroup (others set who) (fun _ => h) (onGroup who (fun _ => f) x)).threads = ts' := by
      intro ts'; constructor
      · intro h; exact congrArg Group.threads h
      · intro h; rw [← h]; rfl
    exact (e2 _).2 e
  simp only [onThreads, modify_modify, hg]

theorem branchRun_eq {i : Instr} {n : BitVec 1} {gd : BitVec 6} {fs : List Field} {s : State} {g : Nat} {set : List Nat} {gr : Group}
    (h : RunsIf i (regF gd :: fs) n gd s g set gr) (taken : Act → Thread → Thread) :
    branchRun n gd fs taken (theAct i g set gr) gr (idle s) =
      let who := guarded gr n gd set
      splitThreads (poisoned (idle s) g gr who (regF gd :: fs)) g set who (nextPc i gr set)
        fun th => taken (theAct i g set gr) (th.goOn th.pc) := by
  have hn := rising_nodup h.issuing.rising
  have hg : guardChecks (theAct i g set gr) gr (idle s) n gd (regF gd :: fs) = none := guardChecks_none _ _ _ _ _ _ h.usable
  unfold branchRun
  simp only [hg, show (theAct i g set gr).set = set from rfl, show (theAct i g set gr).g = g from rfl]
  rw [raisePoison_eq _ _ _ _ _ (guarded_nodup hn) ⟨gr, idle_group h.issuing, rfl⟩,
    foldl_modThread _ _ g (fun _ th => taken (theAct i g set gr) (th.goOn th.pc)) (guarded_nodup hn), goAll_eq _ _ _ _ (others_nodup hn),
    onThreads_two _ _ _ _ guarded_sub]
  rfl

theorem refresh_same (gs : List Group) (l : List Barrier) (h : ∀ b ∈ l, b.bits = none) : l.map (refreshBarrier gs) = l := by
  rw [List.map_congr_left (g := id)]
  · simp
  · intro b hb; simp [refreshBarrier, h b hb]

theorem modTeam_same (s : State) (k : TKey) (f : Team → Team) (h : ∀ t ∈ s.teams, t.key = k → f t = t) : s.modTeam k f = s := by
  have : (s.teams.map fun t => if t.key == k then f t else t) = s.teams := by
    rw [List.map_congr_left (g := id)]
    · simp
    · intro t ht; by_cases hk : t.key = k <;> simp [hk, h t ht]
  unfold State.modTeam; rw [this]

theorem blocked_zero (s : State) (h : NoneWait s) : s.blockedCount = 0 := by
  unfold State.blockedCount
  rw [List.map_congr_left (g := fun _ => 0)]
  · simp
  · intro x hx
    rw [List.length_eq_zero_iff, List.filter_eq_nil_iff]
    intro th hth; simp [h x hx th hth]

theorem settle_same (s : State) (h : NoneWait s) : s.settle = s := by
  unfold State.settle; rw [blocked_zero s h]; rfl

theorem mapIdx_forall {α : Type} (P : α → Prop) (l : List α) (f : Nat → α → α) (h : ∀ x ∈ l, ∀ i, P (f i x)) : ∀ x ∈ l.mapIdx f, P x := by
  intro x hx
  obtain ⟨i, hi, e⟩ := List.mem_mapIdx.1 hx
  rw [← e]; exact h _ (List.getElem_mem _) _

theorem noneWait_modify (s : State) (g : Nat) (f : Group → Group) (h : NoneWait s)
    (hf : ∀ x, (∀ th ∈ x.threads, th.isBlocked = false) → ∀ th ∈ (f x).threads, th.isBlocked = false) :
    NoneWait { s with groups := s.groups.modify g f } := by
  intro x hx
  obtain ⟨j, hj⟩ := List.mem_iff_getElem?.1 hx
  rw [List.getElem?_modify] at hj
  cases hs : s.groups[j]? with
  | none => simp [hs] at hj
  | some y =>
    have hy := h y (List.mem_of_getElem? hs)
    rw [hs] at hj
    by_cases e : g = j
    · simp [e] at hj; rw [← hj]; exact hf y hy
    · simp [e] at hj; rw [← hj]; exact hy

theorem noneWait_onThreads (s : State) (g : Nat) (set : List Nat) (f : Nat → Thread → Thread) (h : NoneWait s)
    (hf : ∀ t th, th.isBlocked = false → (f t th).isBlocked = false) : NoneWait (onThreads s g set f) := by
  refine noneWait_modify s g _ h fun x hx => mapIdx_forall (fun (th : Thread) => th.isBlocked = false) _ _ fun th hth i => ?_
  by_cases hi : set.contains i
  · simp only [hi, if_true]; exact hf _ _ (hx th hth)
  · simp only [hi]; exact hx th hth

theorem noneWait_flagged (s : State) (g : Nat) (gr : Group) (set : List Nat) (fl : Nat → Flags) (h : NoneWait s) :
    NoneWait (flagged s g gr set fl) := by
  have := noneWait_modify s g (flagGroup s.cycle set fl) h fun x hx => mapIdx_forall (fun (th : Thread) => th.isBlocked = false) _ _ fun th hth i => by
    by_cases hi : set.contains i
    · simp only [hi, if_true]; exact hx th hth
    · simp only [hi]; exact hx th hth
  exact this

end Sys2Proof.Laws
end

