-- ==== Sys2Proof/Laws/Encoding.lean ====
section
/-! SUPPORT. Words and their bytes: how decoding reads a word that the encoder wrote. -/

namespace Sys2Proof.Laws

theorem natBytes4 (w : Nat) : natBytes 4 w =
    [BitVec.ofNat 8 w, BitVec.ofNat 8 (w / 256), BitVec.ofNat 8 (w / 256 / 256), BitVec.ofNat 8 (w / 256 / 256 / 256)] := rfl

theorem natBytes2 (w : Nat) : natBytes 2 w = [BitVec.ofNat 8 w, BitVec.ofNat 8 (w / 256)] := rfl

/-- A 32-bit word with bit 0 set decodes as a 32-bit instruction. -/
theorem decode_word (w : Nat) (i : Instr) (rest : List Byte) (hw : w < 2 ^ 32) (ho : w % 2 = 1) (h : decode32 w = .ok i) :
    decode (natBytes 4 w ++ rest) = .ok (i, rest) := by
  rw [natBytes4]
  simp only [List.cons_append, List.nil_append, decode, BitVec.toNat_ofNat]
  rw [if_neg (by omega)]
  have e : w % 2 ^ 8 + 256 * (w / 256 % 2 ^ 8) + 65536 * (w / 256 / 256 % 2 ^ 8)
      + 16777216 * (w / 256 / 256 / 256 % 2 ^ 8) = w := by omega
  rw [e, h]; rfl

/-- A halfword with bit 0 clear decodes as a 16-bit instruction. -/
theorem decode_half (w : Nat) (i : Instr) (rest : List Byte) (hw : w < 2 ^ 16) (ho : w % 2 = 0) (h : decode16 w = .ok i) :
    decode (natBytes 2 w ++ rest) = .ok (i, rest) := by
  rw [natBytes2]
  simp only [List.cons_append, List.nil_append, decode, BitVec.toNat_ofNat]
  rw [if_pos (by omega)]
  have e : w % 2 ^ 8 + 256 * (w / 256 % 2 ^ 8) = w := by omega
  rw [e, h]; rfl

/-- A field read at the place where its value stands. -/
theorem bitsAt_eq {n : Nat} (w lo : Nat) (x : BitVec n) (h : w / 2 ^ lo % 2 ^ n = x.toNat) : bitsAt w lo n = x := by
  apply BitVec.eq_of_toNat_eq; simpa [bitsAt] using h

end Sys2Proof.Laws
end

