-- ==== Sys2Proof/Laws/State.lean ====
section
/-! SUPPORT. One lemma per field and update of the machine's state: what each update of Base.lean writes, and every
field that it leaves alone. -/

namespace Sys2Proof.Laws
open Sys2Proof.Machine

/-! ## State.modCtx: the contexts -/

@[simp] theorem modCtx_time (s : State) (c : Nat) (f : Context → Context) : (s.modCtx c f).time = s.time := rfl
@[simp] theorem modCtx_tick (s : State) (c : Nat) (f : Context → Context) : (s.modCtx c f).tick = s.tick := rfl
@[simp] theorem modCtx_script (s : State) (c : Nat) (f : Context → Context) : (s.modCtx c f).script = s.script := rfl
@[simp] theorem modCtx_cur (s : State) (c : Nat) (f : Context → Context) : (s.modCtx c f).cur = s.cur := rfl
@[simp] theorem modCtx_slots (s : State) (c : Nat) (f : Context → Context) : (s.modCtx c f).slots = s.slots := rfl
@[simp] theorem modCtx_errors (s : State) (c : Nat) (f : Context → Context) : (s.modCtx c f).errors = s.errors := rfl
@[simp] theorem modCtx_merging (s : State) (c : Nat) (f : Context → Context) : (s.modCtx c f).merging = s.merging := rfl
@[simp] theorem modCtx_fuses (s : State) (c : Nat) (f : Context → Context) : (s.modCtx c f).fuses = s.fuses := rfl
@[simp] theorem modCtx_boot (s : State) (c : Nat) (f : Context → Context) : (s.modCtx c f).boot = s.boot := rfl
@[simp] theorem modCtx_fabric (s : State) (c : Nat) (f : Context → Context) : (s.modCtx c f).fabric = s.fabric := rfl
@[simp] theorem modCtx_ports (s : State) (c : Nat) (f : Context → Context) : (s.modCtx c f).ports = s.ports := rfl
@[simp] theorem modCtx_featAck (s : State) (c : Nat) (f : Context → Context) : (s.modCtx c f).featAck = s.featAck := rfl
@[simp] theorem modCtx_accepted (s : State) (c : Nat) (f : Context → Context) : (s.modCtx c f).accepted = s.accepted := rfl
@[simp] theorem modCtx_readData (s : State) (c : Nat) (f : Context → Context) : (s.modCtx c f).readData = s.readData := rfl
@[simp] theorem modCtx_readPoisoned (s : State) (c : Nat) (f : Context → Context) : (s.modCtx c f).readPoisoned = s.readPoisoned := rfl
@[simp] theorem modCtx_remoteData (s : State) (c : Nat) (f : Context → Context) : (s.modCtx c f).remoteData = s.remoteData := rfl
@[simp] theorem modCtx_remoteCause (s : State) (c : Nat) (f : Context → Context) : (s.modCtx c f).remoteCause = s.remoteCause := rfl
@[simp] theorem modCtx_parts (s : State) (c : Nat) (f : Context → Context) : (s.modCtx c f).parts = s.parts := rfl
@[simp] theorem modCtx_ctxs (s : State) (c : Nat) (f : Context → Context) : (s.modCtx c f).ctxs = s.ctxs.modify c f := rfl
@[simp] theorem modCtx_nodes (s : State) (c : Nat) (f : Context → Context) : (s.modCtx c f).nodes = s.nodes := rfl
@[simp] theorem modCtx_teams (s : State) (c : Nat) (f : Context → Context) : (s.modCtx c f).teams = s.teams := rfl
@[simp] theorem modCtx_groups (s : State) (c : Nat) (f : Context → Context) : (s.modCtx c f).groups = s.groups := rfl
@[simp] theorem modCtx_cores (s : State) (c : Nat) (f : Context → Context) : (s.modCtx c f).cores = s.cores := rfl
@[simp] theorem modCtx_mem (s : State) (c : Nat) (f : Context → Context) : (s.modCtx c f).mem = s.mem := rfl
@[simp] theorem modCtx_net (s : State) (c : Nat) (f : Context → Context) : (s.modCtx c f).net = s.net := rfl
@[simp] theorem modCtx_sessions (s : State) (c : Nat) (f : Context → Context) : (s.modCtx c f).sessions = s.sessions := rfl
@[simp] theorem modCtx_placements (s : State) (c : Nat) (f : Context → Context) : (s.modCtx c f).placements = s.placements := rfl
@[simp] theorem modCtx_cmdIds (s : State) (c : Nat) (f : Context → Context) : (s.modCtx c f).cmdIds = s.cmdIds := rfl

/-! ## State.modPart: the partitions -/

@[simp] theorem modPart_time (s : State) (p : Nat) (f : Partition → Partition) : (s.modPart p f).time = s.time := rfl
@[simp] theorem modPart_tick (s : State) (p : Nat) (f : Partition → Partition) : (s.modPart p f).tick = s.tick := rfl
@[simp] theorem modPart_script (s : State) (p : Nat) (f : Partition → Partition) : (s.modPart p f).script = s.script := rfl
@[simp] theorem modPart_cur (s : State) (p : Nat) (f : Partition → Partition) : (s.modPart p f).cur = s.cur := rfl
@[simp] theorem modPart_slots (s : State) (p : Nat) (f : Partition → Partition) : (s.modPart p f).slots = s.slots := rfl
@[simp] theorem modPart_errors (s : State) (p : Nat) (f : Partition → Partition) : (s.modPart p f).errors = s.errors := rfl
@[simp] theorem modPart_merging (s : State) (p : Nat) (f : Partition → Partition) : (s.modPart p f).merging = s.merging := rfl
@[simp] theorem modPart_fuses (s : State) (p : Nat) (f : Partition → Partition) : (s.modPart p f).fuses = s.fuses := rfl
@[simp] theorem modPart_boot (s : State) (p : Nat) (f : Partition → Partition) : (s.modPart p f).boot = s.boot := rfl
@[simp] theorem modPart_fabric (s : State) (p : Nat) (f : Partition → Partition) : (s.modPart p f).fabric = s.fabric := rfl
@[simp] theorem modPart_ports (s : State) (p : Nat) (f : Partition → Partition) : (s.modPart p f).ports = s.ports := rfl
@[simp] theorem modPart_featAck (s : State) (p : Nat) (f : Partition → Partition) : (s.modPart p f).featAck = s.featAck := rfl
@[simp] theorem modPart_accepted (s : State) (p : Nat) (f : Partition → Partition) : (s.modPart p f).accepted = s.accepted := rfl
@[simp] theorem modPart_readData (s : State) (p : Nat) (f : Partition → Partition) : (s.modPart p f).readData = s.readData := rfl
@[simp] theorem modPart_readPoisoned (s : State) (p : Nat) (f : Partition → Partition) : (s.modPart p f).readPoisoned = s.readPoisoned := rfl
@[simp] theorem modPart_remoteData (s : State) (p : Nat) (f : Partition → Partition) : (s.modPart p f).remoteData = s.remoteData := rfl
@[simp] theorem modPart_remoteCause (s : State) (p : Nat) (f : Partition → Partition) : (s.modPart p f).remoteCause = s.remoteCause := rfl
@[simp] theorem modPart_parts (s : State) (p : Nat) (f : Partition → Partition) : (s.modPart p f).parts = s.parts.modify p f := rfl
@[simp] theorem modPart_ctxs (s : State) (p : Nat) (f : Partition → Partition) : (s.modPart p f).ctxs = s.ctxs := rfl
@[simp] theorem modPart_nodes (s : State) (p : Nat) (f : Partition → Partition) : (s.modPart p f).nodes = s.nodes := rfl
@[simp] theorem modPart_teams (s : State) (p : Nat) (f : Partition → Partition) : (s.modPart p f).teams = s.teams := rfl
@[simp] theorem modPart_groups (s : State) (p : Nat) (f : Partition → Partition) : (s.modPart p f).groups = s.groups := rfl
@[simp] theorem modPart_cores (s : State) (p : Nat) (f : Partition → Partition) : (s.modPart p f).cores = s.cores := rfl
@[simp] theorem modPart_mem (s : State) (p : Nat) (f : Partition → Partition) : (s.modPart p f).mem = s.mem := rfl
@[simp] theorem modPart_net (s : State) (p : Nat) (f : Partition → Partition) : (s.modPart p f).net = s.net := rfl
@[simp] theorem modPart_sessions (s : State) (p : Nat) (f : Partition → Partition) : (s.modPart p f).sessions = s.sessions := rfl
@[simp] theorem modPart_placements (s : State) (p : Nat) (f : Partition → Partition) : (s.modPart p f).placements = s.placements := rfl
@[simp] theorem modPart_cmdIds (s : State) (p : Nat) (f : Partition → Partition) : (s.modPart p f).cmdIds = s.cmdIds := rfl

/-! ## State.modPort: the ports -/

@[simp] theorem modPort_time (s : State) (p : Nat) (f : Port → Port) : (s.modPort p f).time = s.time := rfl
@[simp] theorem modPort_tick (s : State) (p : Nat) (f : Port → Port) : (s.modPort p f).tick = s.tick := rfl
@[simp] theorem modPort_script (s : State) (p : Nat) (f : Port → Port) : (s.modPort p f).script = s.script := rfl
@[simp] theorem modPort_cur (s : State) (p : Nat) (f : Port → Port) : (s.modPort p f).cur = s.cur := rfl
@[simp] theorem modPort_slots (s : State) (p : Nat) (f : Port → Port) : (s.modPort p f).slots = s.slots := rfl
@[simp] theorem modPort_errors (s : State) (p : Nat) (f : Port → Port) : (s.modPort p f).errors = s.errors := rfl
@[simp] theorem modPort_merging (s : State) (p : Nat) (f : Port → Port) : (s.modPort p f).merging = s.merging := rfl
@[simp] theorem modPort_fuses (s : State) (p : Nat) (f : Port → Port) : (s.modPort p f).fuses = s.fuses := rfl
@[simp] theorem modPort_boot (s : State) (p : Nat) (f : Port → Port) : (s.modPort p f).boot = s.boot := rfl
@[simp] theorem modPort_fabric (s : State) (p : Nat) (f : Port → Port) : (s.modPort p f).fabric = s.fabric := rfl
@[simp] theorem modPort_ports (s : State) (p : Nat) (f : Port → Port) : (s.modPort p f).ports = s.ports.modify p f := rfl
@[simp] theorem modPort_featAck (s : State) (p : Nat) (f : Port → Port) : (s.modPort p f).featAck = s.featAck := rfl
@[simp] theorem modPort_accepted (s : State) (p : Nat) (f : Port → Port) : (s.modPort p f).accepted = s.accepted := rfl
@[simp] theorem modPort_readData (s : State) (p : Nat) (f : Port → Port) : (s.modPort p f).readData = s.readData := rfl
@[simp] theorem modPort_readPoisoned (s : State) (p : Nat) (f : Port → Port) : (s.modPort p f).readPoisoned = s.readPoisoned := rfl
@[simp] theorem modPort_remoteData (s : State) (p : Nat) (f : Port → Port) : (s.modPort p f).remoteData = s.remoteData := rfl
@[simp] theorem modPort_remoteCause (s : State) (p : Nat) (f : Port → Port) : (s.modPort p f).remoteCause = s.remoteCause := rfl
@[simp] theorem modPort_parts (s : State) (p : Nat) (f : Port → Port) : (s.modPort p f).parts = s.parts := rfl
@[simp] theorem modPort_ctxs (s : State) (p : Nat) (f : Port → Port) : (s.modPort p f).ctxs = s.ctxs := rfl
@[simp] theorem modPort_nodes (s : State) (p : Nat) (f : Port → Port) : (s.modPort p f).nodes = s.nodes := rfl
@[simp] theorem modPort_teams (s : State) (p : Nat) (f : Port → Port) : (s.modPort p f).teams = s.teams := rfl
@[simp] theorem modPort_groups (s : State) (p : Nat) (f : Port → Port) : (s.modPort p f).groups = s.groups := rfl
@[simp] theorem modPort_cores (s : State) (p : Nat) (f : Port → Port) : (s.modPort p f).cores = s.cores := rfl
@[simp] theorem modPort_mem (s : State) (p : Nat) (f : Port → Port) : (s.modPort p f).mem = s.mem := rfl
@[simp] theorem modPort_net (s : State) (p : Nat) (f : Port → Port) : (s.modPort p f).net = s.net := rfl
@[simp] theorem modPort_sessions (s : State) (p : Nat) (f : Port → Port) : (s.modPort p f).sessions = s.sessions := rfl
@[simp] theorem modPort_placements (s : State) (p : Nat) (f : Port → Port) : (s.modPort p f).placements = s.placements := rfl
@[simp] theorem modPort_cmdIds (s : State) (p : Nat) (f : Port → Port) : (s.modPort p f).cmdIds = s.cmdIds := rfl

/-! ## State.modCore: the cores -/

@[simp] theorem modCore_time (s : State) (c : Nat) (f : Core → Core) : (s.modCore c f).time = s.time := rfl
@[simp] theorem modCore_tick (s : State) (c : Nat) (f : Core → Core) : (s.modCore c f).tick = s.tick := rfl
@[simp] theorem modCore_script (s : State) (c : Nat) (f : Core → Core) : (s.modCore c f).script = s.script := rfl
@[simp] theorem modCore_cur (s : State) (c : Nat) (f : Core → Core) : (s.modCore c f).cur = s.cur := rfl
@[simp] theorem modCore_slots (s : State) (c : Nat) (f : Core → Core) : (s.modCore c f).slots = s.slots := rfl
@[simp] theorem modCore_errors (s : State) (c : Nat) (f : Core → Core) : (s.modCore c f).errors = s.errors := rfl
@[simp] theorem modCore_merging (s : State) (c : Nat) (f : Core → Core) : (s.modCore c f).merging = s.merging := rfl
@[simp] theorem modCore_fuses (s : State) (c : Nat) (f : Core → Core) : (s.modCore c f).fuses = s.fuses := rfl
@[simp] theorem modCore_boot (s : State) (c : Nat) (f : Core → Core) : (s.modCore c f).boot = s.boot := rfl
@[simp] theorem modCore_fabric (s : State) (c : Nat) (f : Core → Core) : (s.modCore c f).fabric = s.fabric := rfl
@[simp] theorem modCore_ports (s : State) (c : Nat) (f : Core → Core) : (s.modCore c f).ports = s.ports := rfl
@[simp] theorem modCore_featAck (s : State) (c : Nat) (f : Core → Core) : (s.modCore c f).featAck = s.featAck := rfl
@[simp] theorem modCore_accepted (s : State) (c : Nat) (f : Core → Core) : (s.modCore c f).accepted = s.accepted := rfl
@[simp] theorem modCore_readData (s : State) (c : Nat) (f : Core → Core) : (s.modCore c f).readData = s.readData := rfl
@[simp] theorem modCore_readPoisoned (s : State) (c : Nat) (f : Core → Core) : (s.modCore c f).readPoisoned = s.readPoisoned := rfl
@[simp] theorem modCore_remoteData (s : State) (c : Nat) (f : Core → Core) : (s.modCore c f).remoteData = s.remoteData := rfl
@[simp] theorem modCore_remoteCause (s : State) (c : Nat) (f : Core → Core) : (s.modCore c f).remoteCause = s.remoteCause := rfl
@[simp] theorem modCore_parts (s : State) (c : Nat) (f : Core → Core) : (s.modCore c f).parts = s.parts := rfl
@[simp] theorem modCore_ctxs (s : State) (c : Nat) (f : Core → Core) : (s.modCore c f).ctxs = s.ctxs := rfl
@[simp] theorem modCore_nodes (s : State) (c : Nat) (f : Core → Core) : (s.modCore c f).nodes = s.nodes := rfl
@[simp] theorem modCore_teams (s : State) (c : Nat) (f : Core → Core) : (s.modCore c f).teams = s.teams := rfl
@[simp] theorem modCore_groups (s : State) (c : Nat) (f : Core → Core) : (s.modCore c f).groups = s.groups := rfl
@[simp] theorem modCore_cores (s : State) (c : Nat) (f : Core → Core) : (s.modCore c f).cores = s.cores.modify c f := rfl
@[simp] theorem modCore_mem (s : State) (c : Nat) (f : Core → Core) : (s.modCore c f).mem = s.mem := rfl
@[simp] theorem modCore_net (s : State) (c : Nat) (f : Core → Core) : (s.modCore c f).net = s.net := rfl
@[simp] theorem modCore_sessions (s : State) (c : Nat) (f : Core → Core) : (s.modCore c f).sessions = s.sessions := rfl
@[simp] theorem modCore_placements (s : State) (c : Nat) (f : Core → Core) : (s.modCore c f).placements = s.placements := rfl
@[simp] theorem modCore_cmdIds (s : State) (c : Nat) (f : Core → Core) : (s.modCore c f).cmdIds = s.cmdIds := rfl

/-! ## State.modGroup: the groups -/

@[simp] theorem modGroup_time (s : State) (g : Nat) (f : Group → Group) : (s.modGroup g f).time = s.time := rfl
@[simp] theorem modGroup_tick (s : State) (g : Nat) (f : Group → Group) : (s.modGroup g f).tick = s.tick := rfl
@[simp] theorem modGroup_script (s : State) (g : Nat) (f : Group → Group) : (s.modGroup g f).script = s.script := rfl
@[simp] theorem modGroup_cur (s : State) (g : Nat) (f : Group → Group) : (s.modGroup g f).cur = s.cur := rfl
@[simp] theorem modGroup_slots (s : State) (g : Nat) (f : Group → Group) : (s.modGroup g f).slots = s.slots := rfl
@[simp] theorem modGroup_errors (s : State) (g : Nat) (f : Group → Group) : (s.modGroup g f).errors = s.errors := rfl
@[simp] theorem modGroup_merging (s : State) (g : Nat) (f : Group → Group) : (s.modGroup g f).merging = s.merging := rfl
@[simp] theorem modGroup_fuses (s : State) (g : Nat) (f : Group → Group) : (s.modGroup g f).fuses = s.fuses := rfl
@[simp] theorem modGroup_boot (s : State) (g : Nat) (f : Group → Group) : (s.modGroup g f).boot = s.boot := rfl
@[simp] theorem modGroup_fabric (s : State) (g : Nat) (f : Group → Group) : (s.modGroup g f).fabric = s.fabric := rfl
@[simp] theorem modGroup_ports (s : State) (g : Nat) (f : Group → Group) : (s.modGroup g f).ports = s.ports := rfl
@[simp] theorem modGroup_featAck (s : State) (g : Nat) (f : Group → Group) : (s.modGroup g f).featAck = s.featAck := rfl
@[simp] theorem modGroup_accepted (s : State) (g : Nat) (f : Group → Group) : (s.modGroup g f).accepted = s.accepted := rfl
@[simp] theorem modGroup_readData (s : State) (g : Nat) (f : Group → Group) : (s.modGroup g f).readData = s.readData := rfl
@[simp] theorem modGroup_readPoisoned (s : State) (g : Nat) (f : Group → Group) : (s.modGroup g f).readPoisoned = s.readPoisoned := rfl
@[simp] theorem modGroup_remoteData (s : State) (g : Nat) (f : Group → Group) : (s.modGroup g f).remoteData = s.remoteData := rfl
@[simp] theorem modGroup_remoteCause (s : State) (g : Nat) (f : Group → Group) : (s.modGroup g f).remoteCause = s.remoteCause := rfl
@[simp] theorem modGroup_parts (s : State) (g : Nat) (f : Group → Group) : (s.modGroup g f).parts = s.parts := rfl
@[simp] theorem modGroup_ctxs (s : State) (g : Nat) (f : Group → Group) : (s.modGroup g f).ctxs = s.ctxs := rfl
@[simp] theorem modGroup_nodes (s : State) (g : Nat) (f : Group → Group) : (s.modGroup g f).nodes = s.nodes := rfl
@[simp] theorem modGroup_teams (s : State) (g : Nat) (f : Group → Group) : (s.modGroup g f).teams = s.teams := rfl
@[simp] theorem modGroup_groups (s : State) (g : Nat) (f : Group → Group) : (s.modGroup g f).groups = s.groups.modify g f := rfl
@[simp] theorem modGroup_cores (s : State) (g : Nat) (f : Group → Group) : (s.modGroup g f).cores = s.cores := rfl
@[simp] theorem modGroup_mem (s : State) (g : Nat) (f : Group → Group) : (s.modGroup g f).mem = s.mem := rfl
@[simp] theorem modGroup_net (s : State) (g : Nat) (f : Group → Group) : (s.modGroup g f).net = s.net := rfl
@[simp] theorem modGroup_sessions (s : State) (g : Nat) (f : Group → Group) : (s.modGroup g f).sessions = s.sessions := rfl
@[simp] theorem modGroup_placements (s : State) (g : Nat) (f : Group → Group) : (s.modGroup g f).placements = s.placements := rfl
@[simp] theorem modGroup_cmdIds (s : State) (g : Nat) (f : Group → Group) : (s.modGroup g f).cmdIds = s.cmdIds := rfl

/-! ## State.modFabric: the fabric -/

@[simp] theorem modFabric_time (s : State) (f : Fabric → Fabric) : (s.modFabric f).time = s.time := rfl
@[simp] theorem modFabric_tick (s : State) (f : Fabric → Fabric) : (s.modFabric f).tick = s.tick := rfl
@[simp] theorem modFabric_script (s : State) (f : Fabric → Fabric) : (s.modFabric f).script = s.script := rfl
@[simp] theorem modFabric_cur (s : State) (f : Fabric → Fabric) : (s.modFabric f).cur = s.cur := rfl
@[simp] theorem modFabric_slots (s : State) (f : Fabric → Fabric) : (s.modFabric f).slots = s.slots := rfl
@[simp] theorem modFabric_errors (s : State) (f : Fabric → Fabric) : (s.modFabric f).errors = s.errors := rfl
@[simp] theorem modFabric_merging (s : State) (f : Fabric → Fabric) : (s.modFabric f).merging = s.merging := rfl
@[simp] theorem modFabric_fuses (s : State) (f : Fabric → Fabric) : (s.modFabric f).fuses = s.fuses := rfl
@[simp] theorem modFabric_boot (s : State) (f : Fabric → Fabric) : (s.modFabric f).boot = s.boot := rfl
@[simp] theorem modFabric_fabric (s : State) (f : Fabric → Fabric) : (s.modFabric f).fabric = f s.fabric := rfl
@[simp] theorem modFabric_ports (s : State) (f : Fabric → Fabric) : (s.modFabric f).ports = s.ports := rfl
@[simp] theorem modFabric_featAck (s : State) (f : Fabric → Fabric) : (s.modFabric f).featAck = s.featAck := rfl
@[simp] theorem modFabric_accepted (s : State) (f : Fabric → Fabric) : (s.modFabric f).accepted = s.accepted := rfl
@[simp] theorem modFabric_readData (s : State) (f : Fabric → Fabric) : (s.modFabric f).readData = s.readData := rfl
@[simp] theorem modFabric_readPoisoned (s : State) (f : Fabric → Fabric) : (s.modFabric f).readPoisoned = s.readPoisoned := rfl
@[simp] theorem modFabric_remoteData (s : State) (f : Fabric → Fabric) : (s.modFabric f).remoteData = s.remoteData := rfl
@[simp] theorem modFabric_remoteCause (s : State) (f : Fabric → Fabric) : (s.modFabric f).remoteCause = s.remoteCause := rfl
@[simp] theorem modFabric_parts (s : State) (f : Fabric → Fabric) : (s.modFabric f).parts = s.parts := rfl
@[simp] theorem modFabric_ctxs (s : State) (f : Fabric → Fabric) : (s.modFabric f).ctxs = s.ctxs := rfl
@[simp] theorem modFabric_nodes (s : State) (f : Fabric → Fabric) : (s.modFabric f).nodes = s.nodes := rfl
@[simp] theorem modFabric_teams (s : State) (f : Fabric → Fabric) : (s.modFabric f).teams = s.teams := rfl
@[simp] theorem modFabric_groups (s : State) (f : Fabric → Fabric) : (s.modFabric f).groups = s.groups := rfl
@[simp] theorem modFabric_cores (s : State) (f : Fabric → Fabric) : (s.modFabric f).cores = s.cores := rfl
@[simp] theorem modFabric_mem (s : State) (f : Fabric → Fabric) : (s.modFabric f).mem = s.mem := rfl
@[simp] theorem modFabric_net (s : State) (f : Fabric → Fabric) : (s.modFabric f).net = s.net := rfl
@[simp] theorem modFabric_sessions (s : State) (f : Fabric → Fabric) : (s.modFabric f).sessions = s.sessions := rfl
@[simp] theorem modFabric_placements (s : State) (f : Fabric → Fabric) : (s.modFabric f).placements = s.placements := rfl
@[simp] theorem modFabric_cmdIds (s : State) (f : Fabric → Fabric) : (s.modFabric f).cmdIds = s.cmdIds := rfl

/-! ## State.modBoot: the boot state -/

@[simp] theorem modBoot_time (s : State) (f : Boot → Boot) : (s.modBoot f).time = s.time := rfl
@[simp] theorem modBoot_tick (s : State) (f : Boot → Boot) : (s.modBoot f).tick = s.tick := rfl
@[simp] theorem modBoot_script (s : State) (f : Boot → Boot) : (s.modBoot f).script = s.script := rfl
@[simp] theorem modBoot_cur (s : State) (f : Boot → Boot) : (s.modBoot f).cur = s.cur := rfl
@[simp] theorem modBoot_slots (s : State) (f : Boot → Boot) : (s.modBoot f).slots = s.slots := rfl
@[simp] theorem modBoot_errors (s : State) (f : Boot → Boot) : (s.modBoot f).errors = s.errors := rfl
@[simp] theorem modBoot_merging (s : State) (f : Boot → Boot) : (s.modBoot f).merging = s.merging := rfl
@[simp] theorem modBoot_fuses (s : State) (f : Boot → Boot) : (s.modBoot f).fuses = s.fuses := rfl
@[simp] theorem modBoot_boot (s : State) (f : Boot → Boot) : (s.modBoot f).boot = f s.boot := rfl
@[simp] theorem modBoot_fabric (s : State) (f : Boot → Boot) : (s.modBoot f).fabric = s.fabric := rfl
@[simp] theorem modBoot_ports (s : State) (f : Boot → Boot) : (s.modBoot f).ports = s.ports := rfl
@[simp] theorem modBoot_featAck (s : State) (f : Boot → Boot) : (s.modBoot f).featAck = s.featAck := rfl
@[simp] theorem modBoot_accepted (s : State) (f : Boot → Boot) : (s.modBoot f).accepted = s.accepted := rfl
@[simp] theorem modBoot_readData (s : State) (f : Boot → Boot) : (s.modBoot f).readData = s.readData := rfl
@[simp] theorem modBoot_readPoisoned (s : State) (f : Boot → Boot) : (s.modBoot f).readPoisoned = s.readPoisoned := rfl
@[simp] theorem modBoot_remoteData (s : State) (f : Boot → Boot) : (s.modBoot f).remoteData = s.remoteData := rfl
@[simp] theorem modBoot_remoteCause (s : State) (f : Boot → Boot) : (s.modBoot f).remoteCause = s.remoteCause := rfl
@[simp] theorem modBoot_parts (s : State) (f : Boot → Boot) : (s.modBoot f).parts = s.parts := rfl
@[simp] theorem modBoot_ctxs (s : State) (f : Boot → Boot) : (s.modBoot f).ctxs = s.ctxs := rfl
@[simp] theorem modBoot_nodes (s : State) (f : Boot → Boot) : (s.modBoot f).nodes = s.nodes := rfl
@[simp] theorem modBoot_teams (s : State) (f : Boot → Boot) : (s.modBoot f).teams = s.teams := rfl
@[simp] theorem modBoot_groups (s : State) (f : Boot → Boot) : (s.modBoot f).groups = s.groups := rfl
@[simp] theorem modBoot_cores (s : State) (f : Boot → Boot) : (s.modBoot f).cores = s.cores := rfl
@[simp] theorem modBoot_mem (s : State) (f : Boot → Boot) : (s.modBoot f).mem = s.mem := rfl
@[simp] theorem modBoot_net (s : State) (f : Boot → Boot) : (s.modBoot f).net = s.net := rfl
@[simp] theorem modBoot_sessions (s : State) (f : Boot → Boot) : (s.modBoot f).sessions = s.sessions := rfl
@[simp] theorem modBoot_placements (s : State) (f : Boot → Boot) : (s.modBoot f).placements = s.placements := rfl
@[simp] theorem modBoot_cmdIds (s : State) (f : Boot → Boot) : (s.modBoot f).cmdIds = s.cmdIds := rfl

/-! ## State.modTeam: the teams -/

@[simp] theorem modTeam_time (s : State) (k : TKey) (f : Team → Team) : (s.modTeam k f).time = s.time := rfl
@[simp] theorem modTeam_tick (s : State) (k : TKey) (f : Team → Team) : (s.modTeam k f).tick = s.tick := rfl
@[simp] theorem modTeam_script (s : State) (k : TKey) (f : Team → Team) : (s.modTeam k f).script = s.script := rfl
@[simp] theorem modTeam_cur (s : State) (k : TKey) (f : Team → Team) : (s.modTeam k f).cur = s.cur := rfl
@[simp] theorem modTeam_slots (s : State) (k : TKey) (f : Team → Team) : (s.modTeam k f).slots = s.slots := rfl
@[simp] theorem modTeam_errors (s : State) (k : TKey) (f : Team → Team) : (s.modTeam k f).errors = s.errors := rfl
@[simp] theorem modTeam_merging (s : State) (k : TKey) (f : Team → Team) : (s.modTeam k f).merging = s.merging := rfl
@[simp] theorem modTeam_fuses (s : State) (k : TKey) (f : Team → Team) : (s.modTeam k f).fuses = s.fuses := rfl
@[simp] theorem modTeam_boot (s : State) (k : TKey) (f : Team → Team) : (s.modTeam k f).boot = s.boot := rfl
@[simp] theorem modTeam_fabric (s : State) (k : TKey) (f : Team → Team) : (s.modTeam k f).fabric = s.fabric := rfl
@[simp] theorem modTeam_ports (s : State) (k : TKey) (f : Team → Team) : (s.modTeam k f).ports = s.ports := rfl
@[simp] theorem modTeam_featAck (s : State) (k : TKey) (f : Team → Team) : (s.modTeam k f).featAck = s.featAck := rfl
@[simp] theorem modTeam_accepted (s : State) (k : TKey) (f : Team → Team) : (s.modTeam k f).accepted = s.accepted := rfl
@[simp] theorem modTeam_readData (s : State) (k : TKey) (f : Team → Team) : (s.modTeam k f).readData = s.readData := rfl
@[simp] theorem modTeam_readPoisoned (s : State) (k : TKey) (f : Team → Team) : (s.modTeam k f).readPoisoned = s.readPoisoned := rfl
@[simp] theorem modTeam_remoteData (s : State) (k : TKey) (f : Team → Team) : (s.modTeam k f).remoteData = s.remoteData := rfl
@[simp] theorem modTeam_remoteCause (s : State) (k : TKey) (f : Team → Team) : (s.modTeam k f).remoteCause = s.remoteCause := rfl
@[simp] theorem modTeam_parts (s : State) (k : TKey) (f : Team → Team) : (s.modTeam k f).parts = s.parts := rfl
@[simp] theorem modTeam_ctxs (s : State) (k : TKey) (f : Team → Team) : (s.modTeam k f).ctxs = s.ctxs := rfl
@[simp] theorem modTeam_nodes (s : State) (k : TKey) (f : Team → Team) : (s.modTeam k f).nodes = s.nodes := rfl
@[simp] theorem modTeam_teams (s : State) (k : TKey) (f : Team → Team) : (s.modTeam k f).teams = s.teams.map fun t => if t.key == k then f t else t := rfl
@[simp] theorem modTeam_groups (s : State) (k : TKey) (f : Team → Team) : (s.modTeam k f).groups = s.groups := rfl
@[simp] theorem modTeam_cores (s : State) (k : TKey) (f : Team → Team) : (s.modTeam k f).cores = s.cores := rfl
@[simp] theorem modTeam_mem (s : State) (k : TKey) (f : Team → Team) : (s.modTeam k f).mem = s.mem := rfl
@[simp] theorem modTeam_net (s : State) (k : TKey) (f : Team → Team) : (s.modTeam k f).net = s.net := rfl
@[simp] theorem modTeam_sessions (s : State) (k : TKey) (f : Team → Team) : (s.modTeam k f).sessions = s.sessions := rfl
@[simp] theorem modTeam_placements (s : State) (k : TKey) (f : Team → Team) : (s.modTeam k f).placements = s.placements := rfl
@[simp] theorem modTeam_cmdIds (s : State) (k : TKey) (f : Team → Team) : (s.modTeam k f).cmdIds = s.cmdIds := rfl

/-! ## State.modNode: the nodes -/

@[simp] theorem modNode_time (s : State) (c : Nat) (r : Word) (f : Node → Node) : (s.modNode c r f).time = s.time := rfl
@[simp] theorem modNode_tick (s : State) (c : Nat) (r : Word) (f : Node → Node) : (s.modNode c r f).tick = s.tick := rfl
@[simp] theorem modNode_script (s : State) (c : Nat) (r : Word) (f : Node → Node) : (s.modNode c r f).script = s.script := rfl
@[simp] theorem modNode_cur (s : State) (c : Nat) (r : Word) (f : Node → Node) : (s.modNode c r f).cur = s.cur := rfl
@[simp] theorem modNode_slots (s : State) (c : Nat) (r : Word) (f : Node → Node) : (s.modNode c r f).slots = s.slots := rfl
@[simp] theorem modNode_errors (s : State) (c : Nat) (r : Word) (f : Node → Node) : (s.modNode c r f).errors = s.errors := rfl
@[simp] theorem modNode_merging (s : State) (c : Nat) (r : Word) (f : Node → Node) : (s.modNode c r f).merging = s.merging := rfl
@[simp] theorem modNode_fuses (s : State) (c : Nat) (r : Word) (f : Node → Node) : (s.modNode c r f).fuses = s.fuses := rfl
@[simp] theorem modNode_boot (s : State) (c : Nat) (r : Word) (f : Node → Node) : (s.modNode c r f).boot = s.boot := rfl
@[simp] theorem modNode_fabric (s : State) (c : Nat) (r : Word) (f : Node → Node) : (s.modNode c r f).fabric = s.fabric := rfl
@[simp] theorem modNode_ports (s : State) (c : Nat) (r : Word) (f : Node → Node) : (s.modNode c r f).ports = s.ports := rfl
@[simp] theorem modNode_featAck (s : State) (c : Nat) (r : Word) (f : Node → Node) : (s.modNode c r f).featAck = s.featAck := rfl
@[simp] theorem modNode_accepted (s : State) (c : Nat) (r : Word) (f : Node → Node) : (s.modNode c r f).accepted = s.accepted := rfl
@[simp] theorem modNode_readData (s : State) (c : Nat) (r : Word) (f : Node → Node) : (s.modNode c r f).readData = s.readData := rfl
@[simp] theorem modNode_readPoisoned (s : State) (c : Nat) (r : Word) (f : Node → Node) : (s.modNode c r f).readPoisoned = s.readPoisoned := rfl
@[simp] theorem modNode_remoteData (s : State) (c : Nat) (r : Word) (f : Node → Node) : (s.modNode c r f).remoteData = s.remoteData := rfl
@[simp] theorem modNode_remoteCause (s : State) (c : Nat) (r : Word) (f : Node → Node) : (s.modNode c r f).remoteCause = s.remoteCause := rfl
@[simp] theorem modNode_parts (s : State) (c : Nat) (r : Word) (f : Node → Node) : (s.modNode c r f).parts = s.parts := rfl
@[simp] theorem modNode_ctxs (s : State) (c : Nat) (r : Word) (f : Node → Node) : (s.modNode c r f).ctxs = s.ctxs := rfl
@[simp] theorem modNode_nodes (s : State) (c : Nat) (r : Word) (f : Node → Node) : (s.modNode c r f).nodes = s.nodes.map fun n => if n.ctx == c && n.ref == r then f n else n := rfl
@[simp] theorem modNode_teams (s : State) (c : Nat) (r : Word) (f : Node → Node) : (s.modNode c r f).teams = s.teams := rfl
@[simp] theorem modNode_groups (s : State) (c : Nat) (r : Word) (f : Node → Node) : (s.modNode c r f).groups = s.groups := rfl
@[simp] theorem modNode_cores (s : State) (c : Nat) (r : Word) (f : Node → Node) : (s.modNode c r f).cores = s.cores := rfl
@[simp] theorem modNode_mem (s : State) (c : Nat) (r : Word) (f : Node → Node) : (s.modNode c r f).mem = s.mem := rfl
@[simp] theorem modNode_net (s : State) (c : Nat) (r : Word) (f : Node → Node) : (s.modNode c r f).net = s.net := rfl
@[simp] theorem modNode_sessions (s : State) (c : Nat) (r : Word) (f : Node → Node) : (s.modNode c r f).sessions = s.sessions := rfl
@[simp] theorem modNode_placements (s : State) (c : Nat) (r : Word) (f : Node → Node) : (s.modNode c r f).placements = s.placements := rfl
@[simp] theorem modNode_cmdIds (s : State) (c : Nat) (r : Word) (f : Node → Node) : (s.modNode c r f).cmdIds = s.cmdIds := rfl

/-! ## State.modSession: the sessions -/

@[simp] theorem modSession_time (s : State) (i : Nat) (f : Session → Session) : (s.modSession i f).time = s.time := rfl
@[simp] theorem modSession_tick (s : State) (i : Nat) (f : Session → Session) : (s.modSession i f).tick = s.tick := rfl
@[simp] theorem modSession_script (s : State) (i : Nat) (f : Session → Session) : (s.modSession i f).script = s.script := rfl
@[simp] theorem modSession_cur (s : State) (i : Nat) (f : Session → Session) : (s.modSession i f).cur = s.cur := rfl
@[simp] theorem modSession_slots (s : State) (i : Nat) (f : Session → Session) : (s.modSession i f).slots = s.slots := rfl
@[simp] theorem modSession_errors (s : State) (i : Nat) (f : Session → Session) : (s.modSession i f).errors = s.errors := rfl
@[simp] theorem modSession_merging (s : State) (i : Nat) (f : Session → Session) : (s.modSession i f).merging = s.merging := rfl
@[simp] theorem modSession_fuses (s : State) (i : Nat) (f : Session → Session) : (s.modSession i f).fuses = s.fuses := rfl
@[simp] theorem modSession_boot (s : State) (i : Nat) (f : Session → Session) : (s.modSession i f).boot = s.boot := rfl
@[simp] theorem modSession_fabric (s : State) (i : Nat) (f : Session → Session) : (s.modSession i f).fabric = s.fabric := rfl
@[simp] theorem modSession_ports (s : State) (i : Nat) (f : Session → Session) : (s.modSession i f).ports = s.ports := rfl
@[simp] theorem modSession_featAck (s : State) (i : Nat) (f : Session → Session) : (s.modSession i f).featAck = s.featAck := rfl
@[simp] theorem modSession_accepted (s : State) (i : Nat) (f : Session → Session) : (s.modSession i f).accepted = s.accepted := rfl
@[simp] theorem modSession_readData (s : State) (i : Nat) (f : Session → Session) : (s.modSession i f).readData = s.readData := rfl
@[simp] theorem modSession_readPoisoned (s : State) (i : Nat) (f : Session → Session) : (s.modSession i f).readPoisoned = s.readPoisoned := rfl
@[simp] theorem modSession_remoteData (s : State) (i : Nat) (f : Session → Session) : (s.modSession i f).remoteData = s.remoteData := rfl
@[simp] theorem modSession_remoteCause (s : State) (i : Nat) (f : Session → Session) : (s.modSession i f).remoteCause = s.remoteCause := rfl
@[simp] theorem modSession_parts (s : State) (i : Nat) (f : Session → Session) : (s.modSession i f).parts = s.parts := rfl
@[simp] theorem modSession_ctxs (s : State) (i : Nat) (f : Session → Session) : (s.modSession i f).ctxs = s.ctxs := rfl
@[simp] theorem modSession_nodes (s : State) (i : Nat) (f : Session → Session) : (s.modSession i f).nodes = s.nodes := rfl
@[simp] theorem modSession_teams (s : State) (i : Nat) (f : Session → Session) : (s.modSession i f).teams = s.teams := rfl
@[simp] theorem modSession_groups (s : State) (i : Nat) (f : Session → Session) : (s.modSession i f).groups = s.groups := rfl
@[simp] theorem modSession_cores (s : State) (i : Nat) (f : Session → Session) : (s.modSession i f).cores = s.cores := rfl
@[simp] theorem modSession_mem (s : State) (i : Nat) (f : Session → Session) : (s.modSession i f).mem = s.mem := rfl
@[simp] theorem modSession_net (s : State) (i : Nat) (f : Session → Session) : (s.modSession i f).net = s.net := rfl
@[simp] theorem modSession_sessions (s : State) (i : Nat) (f : Session → Session) : (s.modSession i f).sessions = s.sessions.map fun x => if x.id == i then f x else x := rfl
@[simp] theorem modSession_placements (s : State) (i : Nat) (f : Session → Session) : (s.modSession i f).placements = s.placements := rfl
@[simp] theorem modSession_cmdIds (s : State) (i : Nat) (f : Session → Session) : (s.modSession i f).cmdIds = s.cmdIds := rfl

/-! ## State.modThread: the threads -/

@[simp] theorem modThread_time (s : State) (g t : Nat) (f : Thread → Thread) : (s.modThread g t f).time = s.time := rfl
@[simp] theorem modThread_tick (s : State) (g t : Nat) (f : Thread → Thread) : (s.modThread g t f).tick = s.tick := rfl
@[simp] theorem modThread_script (s : State) (g t : Nat) (f : Thread → Thread) : (s.modThread g t f).script = s.script := rfl
@[simp] theorem modThread_cur (s : State) (g t : Nat) (f : Thread → Thread) : (s.modThread g t f).cur = s.cur := rfl
@[simp] theorem modThread_slots (s : State) (g t : Nat) (f : Thread → Thread) : (s.modThread g t f).slots = s.slots := rfl
@[simp] theorem modThread_errors (s : State) (g t : Nat) (f : Thread → Thread) : (s.modThread g t f).errors = s.errors := rfl
@[simp] theorem modThread_merging (s : State) (g t : Nat) (f : Thread → Thread) : (s.modThread g t f).merging = s.merging := rfl
@[simp] theorem modThread_fuses (s : State) (g t : Nat) (f : Thread → Thread) : (s.modThread g t f).fuses = s.fuses := rfl
@[simp] theorem modThread_boot (s : State) (g t : Nat) (f : Thread → Thread) : (s.modThread g t f).boot = s.boot := rfl
@[simp] theorem modThread_fabric (s : State) (g t : Nat) (f : Thread → Thread) : (s.modThread g t f).fabric = s.fabric := rfl
@[simp] theorem modThread_ports (s : State) (g t : Nat) (f : Thread → Thread) : (s.modThread g t f).ports = s.ports := rfl
@[simp] theorem modThread_featAck (s : State) (g t : Nat) (f : Thread → Thread) : (s.modThread g t f).featAck = s.featAck := rfl
@[simp] theorem modThread_accepted (s : State) (g t : Nat) (f : Thread → Thread) : (s.modThread g t f).accepted = s.accepted := rfl
@[simp] theorem modThread_readData (s : State) (g t : Nat) (f : Thread → Thread) : (s.modThread g t f).readData = s.readData := rfl
@[simp] theorem modThread_readPoisoned (s : State) (g t : Nat) (f : Thread → Thread) : (s.modThread g t f).readPoisoned = s.readPoisoned := rfl
@[simp] theorem modThread_remoteData (s : State) (g t : Nat) (f : Thread → Thread) : (s.modThread g t f).remoteData = s.remoteData := rfl
@[simp] theorem modThread_remoteCause (s : State) (g t : Nat) (f : Thread → Thread) : (s.modThread g t f).remoteCause = s.remoteCause := rfl
@[simp] theorem modThread_parts (s : State) (g t : Nat) (f : Thread → Thread) : (s.modThread g t f).parts = s.parts := rfl
@[simp] theorem modThread_ctxs (s : State) (g t : Nat) (f : Thread → Thread) : (s.modThread g t f).ctxs = s.ctxs := rfl
@[simp] theorem modThread_nodes (s : State) (g t : Nat) (f : Thread → Thread) : (s.modThread g t f).nodes = s.nodes := rfl
@[simp] theorem modThread_teams (s : State) (g t : Nat) (f : Thread → Thread) : (s.modThread g t f).teams = s.teams := rfl
@[simp] theorem modThread_groups (s : State) (g t : Nat) (f : Thread → Thread) : (s.modThread g t f).groups = s.groups.modify g fun x => x.modThread t f := rfl
@[simp] theorem modThread_cores (s : State) (g t : Nat) (f : Thread → Thread) : (s.modThread g t f).cores = s.cores := rfl
@[simp] theorem modThread_mem (s : State) (g t : Nat) (f : Thread → Thread) : (s.modThread g t f).mem = s.mem := rfl
@[simp] theorem modThread_net (s : State) (g t : Nat) (f : Thread → Thread) : (s.modThread g t f).net = s.net := rfl
@[simp] theorem modThread_sessions (s : State) (g t : Nat) (f : Thread → Thread) : (s.modThread g t f).sessions = s.sessions := rfl
@[simp] theorem modThread_placements (s : State) (g t : Nat) (f : Thread → Thread) : (s.modThread g t f).placements = s.placements := rfl
@[simp] theorem modThread_cmdIds (s : State) (g t : Nat) (f : Thread → Thread) : (s.modThread g t f).cmdIds = s.cmdIds := rfl

/-! ## State.modScratch: the scratch -/

@[simp] theorem modScratch_time (s : State) (k : TKey) (f : List Host.Cell → List Host.Cell) : (s.modScratch k f).time = s.time := rfl
@[simp] theorem modScratch_tick (s : State) (k : TKey) (f : List Host.Cell → List Host.Cell) : (s.modScratch k f).tick = s.tick := rfl
@[simp] theorem modScratch_script (s : State) (k : TKey) (f : List Host.Cell → List Host.Cell) : (s.modScratch k f).script = s.script := rfl
@[simp] theorem modScratch_cur (s : State) (k : TKey) (f : List Host.Cell → List Host.Cell) : (s.modScratch k f).cur = s.cur := rfl
@[simp] theorem modScratch_slots (s : State) (k : TKey) (f : List Host.Cell → List Host.Cell) : (s.modScratch k f).slots = s.slots := rfl
@[simp] theorem modScratch_errors (s : State) (k : TKey) (f : List Host.Cell → List Host.Cell) : (s.modScratch k f).errors = s.errors := rfl
@[simp] theorem modScratch_merging (s : State) (k : TKey) (f : List Host.Cell → List Host.Cell) : (s.modScratch k f).merging = s.merging := rfl
@[simp] theorem modScratch_fuses (s : State) (k : TKey) (f : List Host.Cell → List Host.Cell) : (s.modScratch k f).fuses = s.fuses := rfl
@[simp] theorem modScratch_boot (s : State) (k : TKey) (f : List Host.Cell → List Host.Cell) : (s.modScratch k f).boot = s.boot := rfl
@[simp] theorem modScratch_fabric (s : State) (k : TKey) (f : List Host.Cell → List Host.Cell) : (s.modScratch k f).fabric = s.fabric := rfl
@[simp] theorem modScratch_ports (s : State) (k : TKey) (f : List Host.Cell → List Host.Cell) : (s.modScratch k f).ports = s.ports := rfl
@[simp] theorem modScratch_featAck (s : State) (k : TKey) (f : List Host.Cell → List Host.Cell) : (s.modScratch k f).featAck = s.featAck := rfl
@[simp] theorem modScratch_accepted (s : State) (k : TKey) (f : List Host.Cell → List Host.Cell) : (s.modScratch k f).accepted = s.accepted := rfl
@[simp] theorem modScratch_readData (s : State) (k : TKey) (f : List Host.Cell → List Host.Cell) : (s.modScratch k f).readData = s.readData := rfl
@[simp] theorem modScratch_readPoisoned (s : State) (k : TKey) (f : List Host.Cell → List Host.Cell) : (s.modScratch k f).readPoisoned = s.readPoisoned := rfl
@[simp] theorem modScratch_remoteData (s : State) (k : TKey) (f : List Host.Cell → List Host.Cell) : (s.modScratch k f).remoteData = s.remoteData := rfl
@[simp] theorem modScratch_remoteCause (s : State) (k : TKey) (f : List Host.Cell → List Host.Cell) : (s.modScratch k f).remoteCause = s.remoteCause := rfl
@[simp] theorem modScratch_parts (s : State) (k : TKey) (f : List Host.Cell → List Host.Cell) : (s.modScratch k f).parts = s.parts := rfl
@[simp] theorem modScratch_ctxs (s : State) (k : TKey) (f : List Host.Cell → List Host.Cell) : (s.modScratch k f).ctxs = s.ctxs := rfl
@[simp] theorem modScratch_nodes (s : State) (k : TKey) (f : List Host.Cell → List Host.Cell) : (s.modScratch k f).nodes = s.nodes := rfl
@[simp] theorem modScratch_teams (s : State) (k : TKey) (f : List Host.Cell → List Host.Cell) : (s.modScratch k f).teams = s.teams.map fun t => if t.key == k then (fun t => { t with scratch := f t.scratch }) t else t := rfl
@[simp] theorem modScratch_groups (s : State) (k : TKey) (f : List Host.Cell → List Host.Cell) : (s.modScratch k f).groups = s.groups := rfl
@[simp] theorem modScratch_cores (s : State) (k : TKey) (f : List Host.Cell → List Host.Cell) : (s.modScratch k f).cores = s.cores := rfl
@[simp] theorem modScratch_mem (s : State) (k : TKey) (f : List Host.Cell → List Host.Cell) : (s.modScratch k f).mem = s.mem := rfl
@[simp] theorem modScratch_net (s : State) (k : TKey) (f : List Host.Cell → List Host.Cell) : (s.modScratch k f).net = s.net := rfl
@[simp] theorem modScratch_sessions (s : State) (k : TKey) (f : List Host.Cell → List Host.Cell) : (s.modScratch k f).sessions = s.sessions := rfl
@[simp] theorem modScratch_placements (s : State) (k : TKey) (f : List Host.Cell → List Host.Cell) : (s.modScratch k f).placements = s.placements := rfl
@[simp] theorem modScratch_cmdIds (s : State) (k : TKey) (f : List Host.Cell → List Host.Cell) : (s.modScratch k f).cmdIds = s.cmdIds := rfl

/-! ## Group.modThread -/

@[simp] theorem groupThread_key (g : Group) (t : Nat) (f : Thread → Thread) : (g.modThread t f).key = g.key := rfl
@[simp] theorem groupThread_w (g : Group) (t : Nat) (f : Thread → Thread) : (g.modThread t f).w = g.w := rfl
@[simp] theorem groupThread_core (g : Group) (t : Nat) (f : Thread → Thread) : (g.modThread t f).core = g.core := rfl
@[simp] theorem groupThread_base (g : Group) (t : Nat) (f : Thread → Thread) : (g.modThread t f).base = g.base := rfl
@[simp] theorem groupThread_slot (g : Group) (t : Nat) (f : Thread → Thread) : (g.modThread t f).slot = g.slot := rfl
@[simp] theorem groupThread_budget (g : Group) (t : Nat) (f : Thread → Thread) : (g.modThread t f).budget = g.budget := rfl
@[simp] theorem groupThread_producer (g : Group) (t : Nat) (f : Thread → Thread) : (g.modThread t f).producer = g.producer := rfl
@[simp] theorem groupThread_stop (g : Group) (t : Nat) (f : Thread → Thread) : (g.modThread t f).stop = g.stop := rfl
@[simp] theorem groupThread_trapped (g : Group) (t : Nat) (f : Thread → Thread) : (g.modThread t f).trapped = g.trapped := rfl
@[simp] theorem groupThread_yieldReq (g : Group) (t : Nat) (f : Thread → Thread) : (g.modThread t f).yieldReq = g.yieldReq := rfl
@[simp] theorem groupThread_yielded (g : Group) (t : Nat) (f : Thread → Thread) : (g.modThread t f).yielded = g.yielded := rfl
@[simp] theorem groupThread_issues (g : Group) (t : Nat) (f : Thread → Thread) : (g.modThread t f).issues = g.issues := rfl
@[simp] theorem groupThread_lastIssue (g : Group) (t : Nat) (f : Thread → Thread) : (g.modThread t f).lastIssue = g.lastIssue := rfl
@[simp] theorem groupThread_perf (g : Group) (t : Nat) (f : Thread → Thread) : (g.modThread t f).perf = g.perf := rfl
@[simp] theorem groupThread_flags (g : Group) (t : Nat) (f : Thread → Thread) : (g.modThread t f).flags = g.flags := rfl
@[simp] theorem groupThread_raised (g : Group) (t : Nat) (f : Thread → Thread) : (g.modThread t f).raised = g.raised := rfl
@[simp] theorem groupThread_fetch (g : Group) (t : Nat) (f : Thread → Thread) : (g.modThread t f).fetch = g.fetch := rfl
@[simp] theorem groupThread_lowered (g : Group) (t : Nat) (f : Thread → Thread) : (g.modThread t f).lowered = g.lowered := rfl
@[simp] theorem groupThread_issuedNow (g : Group) (t : Nat) (f : Thread → Thread) : (g.modThread t f).issuedNow = g.issuedNow := rfl
@[simp] theorem groupThread_issuedBy (g : Group) (t : Nat) (f : Thread → Thread) : (g.modThread t f).issuedBy = g.issuedBy := rfl
@[simp] theorem groupThread_runs (g : Group) (t : Nat) (f : Thread → Thread) : (g.modThread t f).runs = g.runs := rfl
@[simp] theorem groupThread_handler (g : Group) (t : Nat) (f : Thread → Thread) : (g.modThread t f).handler = g.handler := rfl
@[simp] theorem groupThread_threads (g : Group) (t : Nat) (f : Thread → Thread) : (g.modThread t f).threads = g.threads.modify t f := rfl

/-! ## Thread.goOn -/

@[simp] theorem goOn_regs (th : Thread) (pc : Word) : (th.goOn pc).regs = th.regs := rfl
@[simp] theorem goOn_pend (th : Thread) (pc : Word) : (th.goOn pc).pend = th.pend := rfl
@[simp] theorem goOn_pois (th : Thread) (pc : Word) : (th.goOn pc).pois = th.pois := rfl
@[simp] theorem goOn_pc (th : Thread) (pc : Word) : (th.goOn pc).pc = pc := rfl
@[simp] theorem goOn_state (th : Thread) (pc : Word) : (th.goOn pc).state = .ready := rfl
@[simp] theorem goOn_flags (th : Thread) (pc : Word) : (th.goOn pc).flags = th.flags := rfl
@[simp] theorem goOn_raised (th : Thread) (pc : Word) : (th.goOn pc).raised = th.raised := rfl
@[simp] theorem goOn_route (th : Thread) (pc : Word) : (th.goOn pc).route = th.route := rfl
@[simp] theorem goOn_queue (th : Thread) (pc : Word) : (th.goOn pc).queue = th.queue := rfl
@[simp] theorem goOn_latchCycle (th : Thread) (pc : Word) : (th.goOn pc).latchCycle = th.latchCycle := rfl
@[simp] theorem goOn_latchTime (th : Thread) (pc : Word) : (th.goOn pc).latchTime = th.latchTime := rfl
@[simp] theorem goOn_shareSeq (th : Thread) (pc : Word) : (th.goOn pc).shareSeq = th.shareSeq := rfl
@[simp] theorem goOn_convs (th : Thread) (pc : Word) : (th.goOn pc).convs = th.convs := rfl
@[simp] theorem goOn_loads (th : Thread) (pc : Word) : (th.goOn pc).loads = th.loads := rfl
@[simp] theorem goOn_stores (th : Thread) (pc : Word) : (th.goOn pc).stores = th.stores := rfl
@[simp] theorem goOn_copies (th : Thread) (pc : Word) : (th.goOn pc).copies = th.copies := rfl
@[simp] theorem goOn_tileOps (th : Thread) (pc : Word) : (th.goOn pc).tileOps = th.tileOps := rfl
@[simp] theorem goOn_phases (th : Thread) (pc : Word) : (th.goOn pc).phases = th.phases := rfl
@[simp] theorem goOn_waited (th : Thread) (pc : Word) : (th.goOn pc).waited = 0 := rfl
@[simp] theorem goOn_issued (th : Thread) (pc : Word) : (th.goOn pc).issued = th.issued := rfl
@[simp] theorem goOn_owed (th : Thread) (pc : Word) : (th.goOn pc).owed = 0 := rfl
@[simp] theorem goOn_skip (th : Thread) (pc : Word) : (th.goOn pc).skip = [] := rfl
@[simp] theorem goOn_late (th : Thread) (pc : Word) : (th.goOn pc).late = th.late := rfl
@[simp] theorem goOn_higher (th : Thread) (pc : Word) : (th.goOn pc).higher = [] := rfl
@[simp] theorem goOn_table (th : Thread) (pc : Word) : (th.goOn pc).table = [] := rfl
@[simp] theorem goOn_tainted (th : Thread) (pc : Word) : (th.goOn pc).tainted = false := rfl

/-! ## Thread.block -/

@[simp] theorem block_regs (th : Thread) (w : Wait) : (th.block w).regs = th.regs := rfl
@[simp] theorem block_pend (th : Thread) (w : Wait) : (th.block w).pend = th.pend := rfl
@[simp] theorem block_pois (th : Thread) (w : Wait) : (th.block w).pois = th.pois := rfl
@[simp] theorem block_pc (th : Thread) (w : Wait) : (th.block w).pc = th.pc := rfl
@[simp] theorem block_state (th : Thread) (w : Wait) : (th.block w).state = .blocked w := rfl
@[simp] theorem block_flags (th : Thread) (w : Wait) : (th.block w).flags = th.flags := rfl
@[simp] theorem block_raised (th : Thread) (w : Wait) : (th.block w).raised = th.raised := rfl
@[simp] theorem block_route (th : Thread) (w : Wait) : (th.block w).route = th.route := rfl
@[simp] theorem block_queue (th : Thread) (w : Wait) : (th.block w).queue = th.queue := rfl
@[simp] theorem block_latchCycle (th : Thread) (w : Wait) : (th.block w).latchCycle = th.latchCycle := rfl
@[simp] theorem block_latchTime (th : Thread) (w : Wait) : (th.block w).latchTime = th.latchTime := rfl
@[simp] theorem block_shareSeq (th : Thread) (w : Wait) : (th.block w).shareSeq = th.shareSeq := rfl
@[simp] theorem block_convs (th : Thread) (w : Wait) : (th.block w).convs = th.convs := rfl
@[simp] theorem block_loads (th : Thread) (w : Wait) : (th.block w).loads = th.loads := rfl
@[simp] theorem block_stores (th : Thread) (w : Wait) : (th.block w).stores = th.stores := rfl
@[simp] theorem block_copies (th : Thread) (w : Wait) : (th.block w).copies = th.copies := rfl
@[simp] theorem block_tileOps (th : Thread) (w : Wait) : (th.block w).tileOps = th.tileOps := rfl
@[simp] theorem block_phases (th : Thread) (w : Wait) : (th.block w).phases = th.phases := rfl
@[simp] theorem block_waited (th : Thread) (w : Wait) : (th.block w).waited = 0 := rfl
@[simp] theorem block_issued (th : Thread) (w : Wait) : (th.block w).issued = th.issued := rfl
@[simp] theorem block_owed (th : Thread) (w : Wait) : (th.block w).owed = 0 := rfl
@[simp] theorem block_skip (th : Thread) (w : Wait) : (th.block w).skip = [] := rfl
@[simp] theorem block_late (th : Thread) (w : Wait) : (th.block w).late = th.late := rfl
@[simp] theorem block_higher (th : Thread) (w : Wait) : (th.block w).higher = th.higher := rfl
@[simp] theorem block_table (th : Thread) (w : Wait) : (th.block w).table = th.table := rfl
@[simp] theorem block_tainted (th : Thread) (w : Wait) : (th.block w).tainted = th.tainted := rfl

/-! ## Reading a part by its number after an update -/

theorem getD_modify {α : Type} (l : List α) (i j : Nat) (f : α → α) (d : α) :
    (l.modify i f).getD j d = if i = j ∧ j < l.length then f (l.getD j d) else l.getD j d := by
  by_cases h : j < l.length
  · by_cases e : i = j
    · subst e; simp [List.getD_eq_getElem?_getD, h]
    · simp [List.getD_eq_getElem?_getD, e]
  · simp [List.getD_eq_getElem?_getD, h]

/-- A context after an update of context c. -/
theorem modCtx_ctx (s : State) (c j : Nat) (f : Context → Context) :
    (s.modCtx c f).ctx j = if c = j ∧ j < s.ctxs.length then f (s.ctx j) else s.ctx j :=
  getD_modify ..

/-- A partition after an update of partition p. -/
theorem modPart_part (s : State) (p j : Nat) (f : Partition → Partition) :
    (s.modPart p f).part j = if p = j ∧ j < s.parts.length then f (s.part j) else s.part j :=
  getD_modify ..

/-- A port after an update of port p. -/
theorem modPort_port (s : State) (p j : Nat) (f : Port → Port) :
    (s.modPort p f).port j = if p = j ∧ j < s.ports.length then f (s.port j) else s.port j :=
  getD_modify ..

/-- A core after an update of core c. -/
theorem modCore_core (s : State) (c j : Nat) (f : Core → Core) :
    (s.modCore c f).core j = if c = j ∧ j < s.cores.length then f (s.core j) else s.core j :=
  getD_modify ..

/-- A thread of a group after an update of thread t. -/
theorem modThread_thread (g : Group) (t j : Nat) (f : Thread → Thread) :
    (g.modThread t f).thread j = if t = j ∧ j < g.threads.length then f (g.thread j) else g.thread j :=
  getD_modify ..

end Sys2Proof.Laws
end

