-- ==== Sys2Proof/Laws/Engines.lean ====
section
/-! SUPPORT. The issue of an engine command, said once for all of them. -/

namespace Sys2Proof.Laws
open Sys2Proof.Machine Sys2Proof.Safety

/-- What an engine command does once its shared checks pass. -/
def engAfter (F : EngForm) (s : State) (g : Nat) (set : List Nat) (gr : Group) (a : Act) (tm : Team) : State :=
  match F.prep a gr tm (idle s) with
  | .illegal => a.illegal (idle s)
  | .refuse => a.trap (idle s) a.lead tEngSpec (BitVec.ofNat 32 F.op)
  | .stop r => a.stopAt (idle s) a.set a.lead r
  | .wait x => (idle s).blockAll a.g a.set (recordWait a.instr gr set x)
  | .go c draws => if queueFull (s.core gr.core) then idle s else issueCmd c draws a gr (F.acting s g set gr)

/-- Where the shared checks of an engine command pass, what is left is its own preparation and the queue. -/
theorem engRun_eq {i : Instr} {F : EngForm} {s : State} {g set gr tm} (h : EngClear F i s g set gr tm) :
    withIssue i s (engRun F.op F.need F.fields (F.regs) (F.reads) F.prep) = .next (engAfter F s g set gr (theAct i g set gr) tm) := by
  rw [withIssue_eq i s _ g set gr h.issuing h.wf]
  congr 1
  have hn : F.need.all (idle s).feature = true := List.all_eq_true.mpr h.features
  have hp : firstPending gr (F.regs gr) [(theAct i g set gr).lead] = none := firstPending_none _ _ _ fun t ht => by
    rw [List.mem_singleton] at ht; subst ht; exact h.ready
  have ht : (idle s).team? (gkeyTeam gr.key) = some tm := h.team
  unfold engRun engAfter
  rw [hn, h.fields, hp, ht]
  simp only [Bool.not_true, Bool.false_eq_true, if_false]
  cases F.prep (theAct i g set gr) gr tm (idle s) with
  | go c draws =>
    simp only
    congr 2
    unfold EngForm.acting
    by_cases hop : F.op = 11 ∨ F.op = 21 ∨ F.op = 22 ∨ F.op = 23
    · have hpr : preciseOp F.op = true := by rcases hop with h | h | h | h <;> rw [h] <;> rfl
      simp only [hpr, hop, if_true]; exact modThread_onThreads ..
    · have hpr : preciseOp F.op = false := by simp only [preciseOp]; simp_all
      simp only [hpr, hop, if_false, Bool.false_eq_true]; rfl
  | _ => rfl

/-- The meaning of every engine command is the one shared operation. -/
theorem exec_eng {i : Instr} {F : EngForm} (s : State) (hF : engForm i = some F) :
    exec i s = withIssue i s (engRun F.op F.need F.fields (F.regs) (F.reads) F.prep) := by
  cases i <;> first | (simp only [engForm, engOf, Option.some.injEq] at hF; subst hF; rfl) | cases hF

end Sys2Proof.Laws
end

