-- ==== Sys2Proof/Laws/PerInstr.lean ====
section
/-! SUPPORT. Families of statements made instruction by instruction. RoundTrip: decoding the encoded bytes of a well-formed
instruction that has an encoding gives it back, with the bytes that follow. -/

namespace Sys2Proof.Laws.RoundTrip

/-- Decoding what is encoded gives the instruction back. -/
def Statement (i : Instr) : Prop :=
  i.encoded = true → i.wf = true → ∀ rest : List Byte, decode (encode i ++ rest) = .ok (i, rest)

theorem shape0 (k w : Nat) (f0 : BitVec 2) (f1 : BitVec 6) (f2 : BitVec 6) (hk : k < 1024)
    (hw : k + 260046848 + f0.toNat * 268435456 + f1.toNat * 65536 + f2.toNat * 1024 = w) :
    w < 2 ^ 32 ∧ w % 2 = k % 2 ∧ w / 16 % 64 = k / 16 % 64 ∧ w / 2 % 8 = k / 2 % 8 ∧ (w / 4194304 % 64 == 62 && w / 1073741824 % 4 == 0) = true ∧ bitsAt w 28 2 = f0 ∧ bitsAt w 16 6 = f1 ∧ bitsAt w 10 6 = f2 := by
  have h0 := f0.isLt; have h1 := f1.isLt; have h2 := f2.isLt
  exact ⟨by omega, by omega, by omega, by omega, by simp only [Bool.and_eq_true, beq_iff_eq]; omega, bitsAt_eq w 28 f0 (by omega), bitsAt_eq w 16 f1 (by omega), bitsAt_eq w 10 f2 (by omega)⟩

theorem shape1 (k w : Nat) (f0 : BitVec 6) (f1 : BitVec 4) (f2 : BitVec 6) (f3 : BitVec 6) (hk : k < 1024)
    (hw : k + 0 + f0.toNat * 67108864 + f1.toNat * 4194304 + f2.toNat * 65536 + f3.toNat * 1024 = w) :
    w < 2 ^ 32 ∧ w % 2 = k % 2 ∧ w / 16 % 64 = k / 16 % 64 ∧ w / 2 % 8 = k / 2 % 8 ∧ bitsAt w 26 6 = f0 ∧ bitsAt w 22 4 = f1 ∧ bitsAt w 16 6 = f2 ∧ bitsAt w 10 6 = f3 := by
  have h0 := f0.isLt; have h1 := f1.isLt; have h2 := f2.isLt; have h3 := f3.isLt
  exact ⟨by omega, by omega, by omega, by omega, bitsAt_eq w 26 f0 (by omega), bitsAt_eq w 22 f1 (by omega), bitsAt_eq w 16 f2 (by omega), bitsAt_eq w 10 f3 (by omega)⟩

theorem shape2 (k w : Nat) (f0 : BitVec 10) (f1 : BitVec 6) (hk : k < 1024)
    (hw : k + 4063232 + f0.toNat * 4194304 + f1.toNat * 1024 = w) :
    w < 2 ^ 32 ∧ w % 2 = k % 2 ∧ w / 16 % 64 = k / 16 % 64 ∧ w / 2 % 8 = k / 2 % 8 ∧ (w / 65536 % 64 == 62) = true ∧ bitsAt w 22 10 = f0 ∧ bitsAt w 10 6 = f1 := by
  have h0 := f0.isLt; have h1 := f1.isLt
  exact ⟨by omega, by omega, by omega, by omega, by simp only [beq_iff_eq]; omega, bitsAt_eq w 22 f0 (by omega), bitsAt_eq w 10 f1 (by omega)⟩

theorem shape3 (k w : Nat) (f0 : BitVec 2) (f1 : BitVec 2) (f2 : BitVec 6) (f3 : BitVec 6) (f4 : BitVec 6) (hk : k < 1024)
    (hw : k + 0 + f0.toNat * 1073741824 + f1.toNat * 268435456 + f2.toNat * 4194304 + f3.toNat * 65536 + f4.toNat * 1024 = w) :
    w < 2 ^ 32 ∧ w % 2 = k % 2 ∧ w / 16 % 64 = k / 16 % 64 ∧ w / 2 % 8 = k / 2 % 8 ∧ bitsAt w 30 2 = f0 ∧ bitsAt w 28 2 = f1 ∧ bitsAt w 22 6 = f2 ∧ bitsAt w 16 6 = f3 ∧ bitsAt w 10 6 = f4 := by
  have h0 := f0.isLt; have h1 := f1.isLt; have h2 := f2.isLt; have h3 := f3.isLt; have h4 := f4.isLt
  exact ⟨by omega, by omega, by omega, by omega, bitsAt_eq w 30 f0 (by omega), bitsAt_eq w 28 f1 (by omega), bitsAt_eq w 22 f2 (by omega), bitsAt_eq w 16 f3 (by omega), bitsAt_eq w 10 f4 (by omega)⟩

theorem shape4 (k w : Nat) (f0 : BitVec 10) (f1 : BitVec 6) (f2 : BitVec 6) (hk : k < 1024)
    (hw : k + 0 + f0.toNat * 4194304 + f1.toNat * 65536 + f2.toNat * 1024 = w) :
    w < 2 ^ 32 ∧ w % 2 = k % 2 ∧ w / 16 % 64 = k / 16 % 64 ∧ w / 2 % 8 = k / 2 % 8 ∧ bitsAt w 22 10 = f0 ∧ bitsAt w 16 6 = f1 ∧ bitsAt w 10 6 = f2 := by
  have h0 := f0.isLt; have h1 := f1.isLt; have h2 := f2.isLt
  exact ⟨by omega, by omega, by omega, by omega, bitsAt_eq w 22 f0 (by omega), bitsAt_eq w 16 f1 (by omega), bitsAt_eq w 10 f2 (by omega)⟩

theorem shape5 (k w : Nat) (f0 : BitVec 5) (f1 : BitVec 6) (f2 : BitVec 6) (hk : k < 1024)
    (hw : k + 0 + f0.toNat * 4194304 + f1.toNat * 65536 + f2.toNat * 1024 = w) :
    w < 2 ^ 32 ∧ w % 2 = k % 2 ∧ w / 16 % 64 = k / 16 % 64 ∧ w / 2 % 8 = k / 2 % 8 ∧ (w / 134217728 % 32 == 0) = true ∧ bitsAt w 22 5 = f0 ∧ bitsAt w 16 6 = f1 ∧ bitsAt w 10 6 = f2 := by
  have h0 := f0.isLt; have h1 := f1.isLt; have h2 := f2.isLt
  exact ⟨by omega, by omega, by omega, by omega, by simp only [beq_iff_eq]; omega, bitsAt_eq w 22 f0 (by omega), bitsAt_eq w 16 f1 (by omega), bitsAt_eq w 10 f2 (by omega)⟩

theorem shape6 (k w : Nat) (f0 : BitVec 2) (f1 : BitVec 4) (f2 : BitVec 4) (f3 : BitVec 6) (f4 : BitVec 6) (hk : k < 1024)
    (hw : k + 0 + f0.toNat * 1073741824 + f1.toNat * 67108864 + f2.toNat * 4194304 + f3.toNat * 65536 + f4.toNat * 1024 = w) :
    w < 2 ^ 32 ∧ w % 2 = k % 2 ∧ w / 16 % 64 = k / 16 % 64 ∧ w / 2 % 8 = k / 2 % 8 ∧ bitsAt w 30 2 = f0 ∧ bitsAt w 26 4 = f1 ∧ bitsAt w 22 4 = f2 ∧ bitsAt w 16 6 = f3 ∧ bitsAt w 10 6 = f4 := by
  have h0 := f0.isLt; have h1 := f1.isLt; have h2 := f2.isLt; have h3 := f3.isLt; have h4 := f4.isLt
  exact ⟨by omega, by omega, by omega, by omega, bitsAt_eq w 30 f0 (by omega), bitsAt_eq w 26 f1 (by omega), bitsAt_eq w 22 f2 (by omega), bitsAt_eq w 16 f3 (by omega), bitsAt_eq w 10 f4 (by omega)⟩

theorem shape7 (k w : Nat) (f0 : BitVec 2) (f1 : BitVec 4) (f2 : BitVec 6) (f3 : BitVec 6) (hk : k < 1024)
    (hw : k + 0 + f0.toNat * 1073741824 + f1.toNat * 4194304 + f2.toNat * 65536 + f3.toNat * 1024 = w) :
    w < 2 ^ 32 ∧ w % 2 = k % 2 ∧ w / 16 % 64 = k / 16 % 64 ∧ w / 2 % 8 = k / 2 % 8 ∧ (w / 67108864 % 16 == 0) = true ∧ bitsAt w 30 2 = f0 ∧ bitsAt w 22 4 = f1 ∧ bitsAt w 16 6 = f2 ∧ bitsAt w 10 6 = f3 := by
  have h0 := f0.isLt; have h1 := f1.isLt; have h2 := f2.isLt; have h3 := f3.isLt
  exact ⟨by omega, by omega, by omega, by omega, by simp only [beq_iff_eq]; omega, bitsAt_eq w 30 f0 (by omega), bitsAt_eq w 22 f1 (by omega), bitsAt_eq w 16 f2 (by omega), bitsAt_eq w 10 f3 (by omega)⟩

theorem shape8 (k w : Nat) (f0 : BitVec 4) (f1 : BitVec 6) (f2 : BitVec 6) (hk : k < 1024)
    (hw : k + 0 + f0.toNat * 4194304 + f1.toNat * 65536 + f2.toNat * 1024 = w) :
    w < 2 ^ 32 ∧ w % 2 = k % 2 ∧ w / 16 % 64 = k / 16 % 64 ∧ w / 2 % 8 = k / 2 % 8 ∧ (w / 67108864 % 64 == 0) = true ∧ bitsAt w 22 4 = f0 ∧ bitsAt w 16 6 = f1 ∧ bitsAt w 10 6 = f2 := by
  have h0 := f0.isLt; have h1 := f1.isLt; have h2 := f2.isLt
  exact ⟨by omega, by omega, by omega, by omega, by simp only [beq_iff_eq]; omega, bitsAt_eq w 22 f0 (by omega), bitsAt_eq w 16 f1 (by omega), bitsAt_eq w 10 f2 (by omega)⟩

theorem shape9 (k w : Nat) (f0 : BitVec 2) (f1 : BitVec 6) (f2 : BitVec 6) (hk : k < 1024)
    (hw : k + 0 + f0.toNat * 4194304 + f1.toNat * 65536 + f2.toNat * 1024 = w) :
    w < 2 ^ 32 ∧ w % 2 = k % 2 ∧ w / 16 % 64 = k / 16 % 64 ∧ w / 2 % 8 = k / 2 % 8 ∧ (w / 16777216 % 256 == 0) = true ∧ bitsAt w 22 2 = f0 ∧ bitsAt w 16 6 = f1 ∧ bitsAt w 10 6 = f2 := by
  have h0 := f0.isLt; have h1 := f1.isLt; have h2 := f2.isLt
  exact ⟨by omega, by omega, by omega, by omega, by simp only [beq_iff_eq]; omega, bitsAt_eq w 22 f0 (by omega), bitsAt_eq w 16 f1 (by omega), bitsAt_eq w 10 f2 (by omega)⟩

theorem shape10 (k w : Nat) (f0 : BitVec 1) (f1 : BitVec 5) (f2 : BitVec 5) (hk : k < 32)
    (hw : k + 0 + f0.toNat * 32768 + f1.toNat * 1024 + f2.toNat * 32 = w) :
    w < 2 ^ 16 ∧ w % 2 = k % 2 ∧ w / 2 % 16 = k / 2 % 16 ∧ bitsAt w 15 1 = f0 ∧ bitsAt w 10 5 = f1 ∧ bitsAt w 5 5 = f2 := by
  have h0 := f0.isLt; have h1 := f1.isLt; have h2 := f2.isLt
  exact ⟨by omega, by omega, by omega, bitsAt_eq w 15 f0 (by omega), bitsAt_eq w 10 f1 (by omega), bitsAt_eq w 5 f2 (by omega)⟩

theorem shape11 (k w : Nat) (f0 : BitVec 6) (f1 : BitVec 5) (hk : k < 32)
    (hw : k + 0 + f0.toNat * 1024 + f1.toNat * 32 = w) :
    w < 2 ^ 16 ∧ w % 2 = k % 2 ∧ w / 2 % 16 = k / 2 % 16 ∧ bitsAt w 10 6 = f0 ∧ bitsAt w 5 5 = f1 := by
  have h0 := f0.isLt; have h1 := f1.isLt
  exact ⟨by omega, by omega, by omega, bitsAt_eq w 10 f0 (by omega), bitsAt_eq w 5 f1 (by omega)⟩

theorem shape12 (k w : Nat) (f0 : BitVec 16) (f1 : BitVec 6) (hk : k < 1024)
    (hw : k + 0 + f0.toNat * 65536 + f1.toNat * 1024 = w) :
    w < 2 ^ 32 ∧ w % 2 = k % 2 ∧ w / 16 % 64 = k / 16 % 64 ∧ w / 2 % 8 = k / 2 % 8 ∧ bitsAt w 16 16 = f0 ∧ bitsAt w 10 6 = f1 := by
  have h0 := f0.isLt; have h1 := f1.isLt
  exact ⟨by omega, by omega, by omega, by omega, bitsAt_eq w 16 f0 (by omega), bitsAt_eq w 10 f1 (by omega)⟩

theorem shape13 (k w : Nat) (f0 : BitVec 11) (f1 : BitVec 6) (f2 : BitVec 6) (hk : k < 512)
    (hw : k + 0 + f0.toNat * 2097152 + f1.toNat * 32768 + f2.toNat * 512 = w) :
    w < 2 ^ 32 ∧ w % 2 = k % 2 ∧ w / 16 % 32 = k / 16 % 32 ∧ w / 2 % 8 = k / 2 % 8 ∧ bitsAt w 21 11 = f0 ∧ bitsAt w 15 6 = f1 ∧ bitsAt w 9 6 = f2 := by
  have h0 := f0.isLt; have h1 := f1.isLt; have h2 := f2.isLt
  exact ⟨by omega, by omega, by omega, by omega, bitsAt_eq w 21 f0 (by omega), bitsAt_eq w 15 f1 (by omega), bitsAt_eq w 9 f2 (by omega)⟩

theorem shape14 (k w : Nat) (f0 : BitVec 4) (f1 : BitVec 1) (f2 : BitVec 6) (f3 : BitVec 6) (f4 : BitVec 6) (hk : k < 512)
    (hw : k + 0 + f0.toNat * 268435456 + f1.toNat * 134217728 + f2.toNat * 2097152 + f3.toNat * 32768 + f4.toNat * 512 = w) :
    w < 2 ^ 32 ∧ w % 2 = k % 2 ∧ w / 16 % 32 = k / 16 % 32 ∧ w / 2 % 8 = k / 2 % 8 ∧ bitsAt w 28 4 = f0 ∧ bitsAt w 27 1 = f1 ∧ bitsAt w 21 6 = f2 ∧ bitsAt w 15 6 = f3 ∧ bitsAt w 9 6 = f4 := by
  have h0 := f0.isLt; have h1 := f1.isLt; have h2 := f2.isLt; have h3 := f3.isLt; have h4 := f4.isLt
  exact ⟨by omega, by omega, by omega, by omega, bitsAt_eq w 28 f0 (by omega), bitsAt_eq w 27 f1 (by omega), bitsAt_eq w 21 f2 (by omega), bitsAt_eq w 15 f3 (by omega), bitsAt_eq w 9 f4 (by omega)⟩

theorem shape15 (k w : Nat) (f0 : BitVec 18) (f1 : BitVec 1) (f2 : BitVec 6) (hk : k < 128)
    (hw : k + 0 + f0.toNat * 16384 + f1.toNat * 8192 + f2.toNat * 128 = w) :
    w < 2 ^ 32 ∧ w % 2 = k % 2 ∧ w / 16 % 8 = k / 16 % 8 ∧ w / 2 % 8 = k / 2 % 8 ∧ bitsAt w 14 18 = f0 ∧ bitsAt w 13 1 = f1 ∧ bitsAt w 7 6 = f2 := by
  have h0 := f0.isLt; have h1 := f1.isLt; have h2 := f2.isLt
  exact ⟨by omega, by omega, by omega, by omega, bitsAt_eq w 14 f0 (by omega), bitsAt_eq w 13 f1 (by omega), bitsAt_eq w 7 f2 (by omega)⟩

theorem shape16 (k w : Nat) (f0 : BitVec 6) (f1 : BitVec 1) (f2 : BitVec 6) (hk : k < 128)
    (hw : k + 0 + f0.toNat * 16384 + f1.toNat * 8192 + f2.toNat * 128 = w) :
    w < 2 ^ 32 ∧ w % 2 = k % 2 ∧ w / 16 % 8 = k / 16 % 8 ∧ w / 2 % 8 = k / 2 % 8 ∧ (w / 1048576 % 4096 == 0) = true ∧ bitsAt w 14 6 = f0 ∧ bitsAt w 13 1 = f1 ∧ bitsAt w 7 6 = f2 := by
  have h0 := f0.isLt; have h1 := f1.isLt; have h2 := f2.isLt
  exact ⟨by omega, by omega, by omega, by omega, by simp only [beq_iff_eq]; omega, bitsAt_eq w 14 f0 (by omega), bitsAt_eq w 13 f1 (by omega), bitsAt_eq w 7 f2 (by omega)⟩

theorem shape17 (k w : Nat) (f0 : BitVec 1) (f1 : BitVec 6) (hk : k < 128)
    (hw : k + 0 + f0.toNat * 8192 + f1.toNat * 128 = w) :
    w < 2 ^ 32 ∧ w % 2 = k % 2 ∧ w / 16 % 8 = k / 16 % 8 ∧ w / 2 % 8 = k / 2 % 8 ∧ (w / 16384 % 262144 == 0) = true ∧ bitsAt w 13 1 = f0 ∧ bitsAt w 7 6 = f1 := by
  have h0 := f0.isLt; have h1 := f1.isLt
  exact ⟨by omega, by omega, by omega, by omega, by simp only [beq_iff_eq]; omega, bitsAt_eq w 13 f0 (by omega), bitsAt_eq w 7 f1 (by omega)⟩

theorem shape18 (k w : Nat) (f0 : BitVec 2) (f1 : BitVec 6) (f2 : BitVec 6) (f3 : BitVec 6) (hk : k < 512)
    (hw : k + 0 + f0.toNat * 134217728 + f1.toNat * 2097152 + f2.toNat * 32768 + f3.toNat * 512 = w) :
    w < 2 ^ 32 ∧ w % 2 = k % 2 ∧ w / 16 % 32 = k / 16 % 32 ∧ w / 2 % 8 = k / 2 % 8 ∧ (w / 536870912 % 8 == 0) = true ∧ bitsAt w 27 2 = f0 ∧ bitsAt w 21 6 = f1 ∧ bitsAt w 15 6 = f2 ∧ bitsAt w 9 6 = f3 := by
  have h0 := f0.isLt; have h1 := f1.isLt; have h2 := f2.isLt; have h3 := f3.isLt
  exact ⟨by omega, by omega, by omega, by omega, by simp only [beq_iff_eq]; omega, bitsAt_eq w 27 f0 (by omega), bitsAt_eq w 21 f1 (by omega), bitsAt_eq w 15 f2 (by omega), bitsAt_eq w 9 f3 (by omega)⟩

theorem shape19 (k w : Nat) (f0 : BitVec 1) (f1 : BitVec 6) (f2 : BitVec 6) (f3 : BitVec 6) (hk : k < 512)
    (hw : k + 0 + f0.toNat * 134217728 + f1.toNat * 2097152 + f2.toNat * 32768 + f3.toNat * 512 = w) :
    w < 2 ^ 32 ∧ w % 2 = k % 2 ∧ w / 16 % 32 = k / 16 % 32 ∧ w / 2 % 8 = k / 2 % 8 ∧ (w / 268435456 % 16 == 0) = true ∧ bitsAt w 27 1 = f0 ∧ bitsAt w 21 6 = f1 ∧ bitsAt w 15 6 = f2 ∧ bitsAt w 9 6 = f3 := by
  have h0 := f0.isLt; have h1 := f1.isLt; have h2 := f2.isLt; have h3 := f3.isLt
  exact ⟨by omega, by omega, by omega, by omega, by simp only [beq_iff_eq]; omega, bitsAt_eq w 27 f0 (by omega), bitsAt_eq w 21 f1 (by omega), bitsAt_eq w 15 f2 (by omega), bitsAt_eq w 9 f3 (by omega)⟩

theorem shape20 (k w : Nat) (f0 : BitVec 6) (f1 : BitVec 6) (f2 : BitVec 6) (hk : k < 512)
    (hw : k + 0 + f0.toNat * 2097152 + f1.toNat * 32768 + f2.toNat * 512 = w) :
    w < 2 ^ 32 ∧ w % 2 = k % 2 ∧ w / 16 % 32 = k / 16 % 32 ∧ w / 2 % 8 = k / 2 % 8 ∧ (w / 134217728 % 32 == 0) = true ∧ bitsAt w 21 6 = f0 ∧ bitsAt w 15 6 = f1 ∧ bitsAt w 9 6 = f2 := by
  have h0 := f0.isLt; have h1 := f1.isLt; have h2 := f2.isLt
  exact ⟨by omega, by omega, by omega, by omega, by simp only [beq_iff_eq]; omega, bitsAt_eq w 21 f0 (by omega), bitsAt_eq w 15 f1 (by omega), bitsAt_eq w 9 f2 (by omega)⟩

theorem shape21 (k w : Nat) (f0 : BitVec 4) (f1 : BitVec 6) (f2 : BitVec 6) (f3 : BitVec 6) (hk : k < 512)
    (hw : k + 0 + f0.toNat * 134217728 + f1.toNat * 2097152 + f2.toNat * 32768 + f3.toNat * 512 = w) :
    w < 2 ^ 32 ∧ w % 2 = k % 2 ∧ w / 16 % 32 = k / 16 % 32 ∧ w / 2 % 8 = k / 2 % 8 ∧ (w / 2147483648 % 2 == 0) = true ∧ bitsAt w 27 4 = f0 ∧ bitsAt w 21 6 = f1 ∧ bitsAt w 15 6 = f2 ∧ bitsAt w 9 6 = f3 := by
  have h0 := f0.isLt; have h1 := f1.isLt; have h2 := f2.isLt; have h3 := f3.isLt
  exact ⟨by omega, by omega, by omega, by omega, by simp only [beq_iff_eq]; omega, bitsAt_eq w 27 f0 (by omega), bitsAt_eq w 21 f1 (by omega), bitsAt_eq w 15 f2 (by omega), bitsAt_eq w 9 f3 (by omega)⟩

theorem shape22 (k w : Nat) (f0 : BitVec 1) (f1 : BitVec 2) (f2 : BitVec 6) (f3 : BitVec 6) (f4 : BitVec 6) (hk : k < 512)
    (hw : k + 0 + f0.toNat * 1073741824 + f1.toNat * 134217728 + f2.toNat * 2097152 + f3.toNat * 32768 + f4.toNat * 512 = w) :
    w < 2 ^ 32 ∧ w % 2 = k % 2 ∧ w / 16 % 32 = k / 16 % 32 ∧ w / 2 % 8 = k / 2 % 8 ∧ (w / 536870912 % 2 == 0 && w / 2147483648 % 2 == 0) = true ∧ bitsAt w 30 1 = f0 ∧ bitsAt w 27 2 = f1 ∧ bitsAt w 21 6 = f2 ∧ bitsAt w 15 6 = f3 ∧ bitsAt w 9 6 = f4 := by
  have h0 := f0.isLt; have h1 := f1.isLt; have h2 := f2.isLt; have h3 := f3.isLt; have h4 := f4.isLt
  exact ⟨by omega, by omega, by omega, by omega, by simp only [Bool.and_eq_true, beq_iff_eq]; omega, bitsAt_eq w 30 f0 (by omega), bitsAt_eq w 27 f1 (by omega), bitsAt_eq w 21 f2 (by omega), bitsAt_eq w 15 f3 (by omega), bitsAt_eq w 9 f4 (by omega)⟩

theorem shape23 (k w : Nat) (f0 : BitVec 5) (f1 : BitVec 6) (hk : k < 512)
    (hw : k + 2063360 + f0.toNat * 134217728 + f1.toNat * 2097152 = w) :
    w < 2 ^ 32 ∧ w % 2 = k % 2 ∧ w / 16 % 32 = k / 16 % 32 ∧ w / 2 % 8 = k / 2 % 8 ∧ (w / 512 % 4096 == 4030) = true ∧ bitsAt w 27 5 = f0 ∧ bitsAt w 21 6 = f1 := by
  have h0 := f0.isLt; have h1 := f1.isLt
  exact ⟨by omega, by omega, by omega, by omega, by simp only [beq_iff_eq]; omega, bitsAt_eq w 27 f0 (by omega), bitsAt_eq w 21 f1 (by omega)⟩

theorem shape24 (k w : Nat) (f0 : BitVec 6) (hk : k < 512)
    (hw : k + 2063360 + f0.toNat * 2097152 = w) :
    w < 2 ^ 32 ∧ w % 2 = k % 2 ∧ w / 16 % 32 = k / 16 % 32 ∧ w / 2 % 8 = k / 2 % 8 ∧ (w / 512 % 4096 == 4030 && w / 134217728 % 32 == 0) = true ∧ bitsAt w 21 6 = f0 := by
  have h0 := f0.isLt
  exact ⟨by omega, by omega, by omega, by omega, by simp only [Bool.and_eq_true, beq_iff_eq]; omega, bitsAt_eq w 21 f0 (by omega)⟩

theorem shape25 (k w : Nat) (f0 : BitVec 3) (f1 : BitVec 6) (f2 : BitVec 6) (f3 : BitVec 6) (hk : k < 512)
    (hw : k + 0 + f0.toNat * 134217728 + f1.toNat * 2097152 + f2.toNat * 32768 + f3.toNat * 512 = w) :
    w < 2 ^ 32 ∧ w % 2 = k % 2 ∧ w / 16 % 32 = k / 16 % 32 ∧ w / 2 % 8 = k / 2 % 8 ∧ (w / 1073741824 % 4 == 0) = true ∧ bitsAt w 27 3 = f0 ∧ bitsAt w 21 6 = f1 ∧ bitsAt w 15 6 = f2 ∧ bitsAt w 9 6 = f3 := by
  have h0 := f0.isLt; have h1 := f1.isLt; have h2 := f2.isLt; have h3 := f3.isLt
  exact ⟨by omega, by omega, by omega, by omega, by simp only [beq_iff_eq]; omega, bitsAt_eq w 27 f0 (by omega), bitsAt_eq w 21 f1 (by omega), bitsAt_eq w 15 f2 (by omega), bitsAt_eq w 9 f3 (by omega)⟩

theorem shape26 (k w : Nat) (f0 : BitVec 5) (f1 : BitVec 6) (f2 : BitVec 6) (hk : k < 512)
    (hw : k + 2031616 + f0.toNat * 134217728 + f1.toNat * 2097152 + f2.toNat * 512 = w) :
    w < 2 ^ 32 ∧ w % 2 = k % 2 ∧ w / 16 % 32 = k / 16 % 32 ∧ w / 2 % 8 = k / 2 % 8 ∧ (w / 32768 % 64 == 62) = true ∧ bitsAt w 27 5 = f0 ∧ bitsAt w 21 6 = f1 ∧ bitsAt w 9 6 = f2 := by
  have h0 := f0.isLt; have h1 := f1.isLt; have h2 := f2.isLt
  exact ⟨by omega, by omega, by omega, by omega, by simp only [beq_iff_eq]; omega, bitsAt_eq w 27 f0 (by omega), bitsAt_eq w 21 f1 (by omega), bitsAt_eq w 9 f2 (by omega)⟩

theorem shape27 (k w : Nat) (f0 : BitVec 1) (f1 : BitVec 6) (f2 : BitVec 6) (hk : k < 512)
    (hw : k + 2031616 + f0.toNat * 1073741824 + f1.toNat * 2097152 + f2.toNat * 512 = w) :
    w < 2 ^ 32 ∧ w % 2 = k % 2 ∧ w / 16 % 32 = k / 16 % 32 ∧ w / 2 % 8 = k / 2 % 8 ∧ (w / 32768 % 64 == 62 && w / 134217728 % 8 == 0 && w / 2147483648 % 2 == 0) = true ∧ bitsAt w 30 1 = f0 ∧ bitsAt w 21 6 = f1 ∧ bitsAt w 9 6 = f2 := by
  have h0 := f0.isLt; have h1 := f1.isLt; have h2 := f2.isLt
  exact ⟨by omega, by omega, by omega, by omega, by simp only [Bool.and_eq_true, beq_iff_eq]; omega, bitsAt_eq w 30 f0 (by omega), bitsAt_eq w 21 f1 (by omega), bitsAt_eq w 9 f2 (by omega)⟩

theorem shape28 (k w : Nat) (f0 : BitVec 1) (f1 : BitVec 6) (f2 : BitVec 6) (hk : k < 512)
    (hw : k + 2031616 + f0.toNat * 134217728 + f1.toNat * 2097152 + f2.toNat * 512 = w) :
    w < 2 ^ 32 ∧ w % 2 = k % 2 ∧ w / 16 % 32 = k / 16 % 32 ∧ w / 2 % 8 = k / 2 % 8 ∧ (w / 32768 % 64 == 62 && w / 268435456 % 16 == 0) = true ∧ bitsAt w 27 1 = f0 ∧ bitsAt w 21 6 = f1 ∧ bitsAt w 9 6 = f2 := by
  have h0 := f0.isLt; have h1 := f1.isLt; have h2 := f2.isLt
  exact ⟨by omega, by omega, by omega, by omega, by simp only [Bool.and_eq_true, beq_iff_eq]; omega, bitsAt_eq w 27 f0 (by omega), bitsAt_eq w 21 f1 (by omega), bitsAt_eq w 9 f2 (by omega)⟩

theorem shape29 (k w : Nat) (f0 : BitVec 6) (f1 : BitVec 6) (hk : k < 512)
    (hw : k + 2031616 + f0.toNat * 2097152 + f1.toNat * 512 = w) :
    w < 2 ^ 32 ∧ w % 2 = k % 2 ∧ w / 16 % 32 = k / 16 % 32 ∧ w / 2 % 8 = k / 2 % 8 ∧ (w / 32768 % 64 == 62 && w / 134217728 % 32 == 0) = true ∧ bitsAt w 21 6 = f0 ∧ bitsAt w 9 6 = f1 := by
  have h0 := f0.isLt; have h1 := f1.isLt
  exact ⟨by omega, by omega, by omega, by omega, by simp only [Bool.and_eq_true, beq_iff_eq]; omega, bitsAt_eq w 21 f0 (by omega), bitsAt_eq w 9 f1 (by omega)⟩

theorem shape30 (k w : Nat) (f0 : BitVec 2) (f1 : BitVec 6) (f2 : BitVec 6) (hk : k < 512)
    (hw : k + 2031616 + f0.toNat * 134217728 + f1.toNat * 2097152 + f2.toNat * 512 = w) :
    w < 2 ^ 32 ∧ w % 2 = k % 2 ∧ w / 16 % 32 = k / 16 % 32 ∧ w / 2 % 8 = k / 2 % 8 ∧ (w / 32768 % 64 == 62 && w / 536870912 % 8 == 0) = true ∧ bitsAt w 27 2 = f0 ∧ bitsAt w 21 6 = f1 ∧ bitsAt w 9 6 = f2 := by
  have h0 := f0.isLt; have h1 := f1.isLt; have h2 := f2.isLt
  exact ⟨by omega, by omega, by omega, by omega, by simp only [Bool.and_eq_true, beq_iff_eq]; omega, bitsAt_eq w 27 f0 (by omega), bitsAt_eq w 21 f1 (by omega), bitsAt_eq w 9 f2 (by omega)⟩

theorem shape31 (k w : Nat) (f0 : BitVec 2) (f1 : BitVec 2) (f2 : BitVec 6) (f3 : BitVec 6) (hk : k < 512)
    (hw : k + 2031616 + f0.toNat * 536870912 + f1.toNat * 134217728 + f2.toNat * 2097152 + f3.toNat * 512 = w) :
    w < 2 ^ 32 ∧ w % 2 = k % 2 ∧ w / 16 % 32 = k / 16 % 32 ∧ w / 2 % 8 = k / 2 % 8 ∧ (w / 32768 % 64 == 62 && w / 2147483648 % 2 == 0) = true ∧ bitsAt w 29 2 = f0 ∧ bitsAt w 27 2 = f1 ∧ bitsAt w 21 6 = f2 ∧ bitsAt w 9 6 = f3 := by
  have h0 := f0.isLt; have h1 := f1.isLt; have h2 := f2.isLt; have h3 := f3.isLt
  exact ⟨by omega, by omega, by omega, by omega, by simp only [Bool.and_eq_true, beq_iff_eq]; omega, bitsAt_eq w 29 f0 (by omega), bitsAt_eq w 27 f1 (by omega), bitsAt_eq w 21 f2 (by omega), bitsAt_eq w 9 f3 (by omega)⟩

theorem shape32 (k w : Nat) (f0 : BitVec 8) (hk : k < 1024)
    (hw : k + 4126720 + f0.toNat * 4194304 = w) :
    w < 2 ^ 32 ∧ w % 2 = k % 2 ∧ w / 16 % 64 = k / 16 % 64 ∧ w / 2 % 8 = k / 2 % 8 ∧ (w / 1024 % 4096 == 4030 && w / 1073741824 % 4 == 0) = true ∧ bitsAt w 22 8 = f0 := by
  have h0 := f0.isLt
  exact ⟨by omega, by omega, by omega, by omega, by simp only [Bool.and_eq_true, beq_iff_eq]; omega, bitsAt_eq w 22 f0 (by omega)⟩

theorem shape33 (k w : Nat) (f0 : BitVec 4) (hk : k < 1024)
    (hw : k + 4126720 + f0.toNat * 4194304 = w) :
    w < 2 ^ 32 ∧ w % 2 = k % 2 ∧ w / 16 % 64 = k / 16 % 64 ∧ w / 2 % 8 = k / 2 % 8 ∧ (w / 1024 % 4096 == 4030 && w / 67108864 % 64 == 0) = true ∧ bitsAt w 22 4 = f0 := by
  have h0 := f0.isLt
  exact ⟨by omega, by omega, by omega, by omega, by simp only [Bool.and_eq_true, beq_iff_eq]; omega, bitsAt_eq w 22 f0 (by omega)⟩

theorem shape34 (k w : Nat) (f0 : BitVec 10) (hk : k < 1024)
    (hw : k + 4126720 + f0.toNat * 4194304 = w) :
    w < 2 ^ 32 ∧ w % 2 = k % 2 ∧ w / 16 % 64 = k / 16 % 64 ∧ w / 2 % 8 = k / 2 % 8 ∧ (w / 1024 % 4096 == 4030) = true ∧ bitsAt w 22 10 = f0 := by
  have h0 := f0.isLt
  exact ⟨by omega, by omega, by omega, by omega, by simp only [beq_iff_eq]; omega, bitsAt_eq w 22 f0 (by omega)⟩

theorem shape35 (k w : Nat) (f0 : BitVec 6) (f1 : BitVec 6) (hk : k < 1024)
    (hw : k + 0 + f0.toNat * 65536 + f1.toNat * 1024 = w) :
    w < 2 ^ 32 ∧ w % 2 = k % 2 ∧ w / 16 % 64 = k / 16 % 64 ∧ w / 2 % 8 = k / 2 % 8 ∧ (w / 4194304 % 1024 == 0) = true ∧ bitsAt w 16 6 = f0 ∧ bitsAt w 10 6 = f1 := by
  have h0 := f0.isLt; have h1 := f1.isLt
  exact ⟨by omega, by omega, by omega, by omega, by simp only [beq_iff_eq]; omega, bitsAt_eq w 16 f0 (by omega), bitsAt_eq w 10 f1 (by omega)⟩

theorem shape36 (k w : Nat) (f0 : BitVec 3) (f1 : BitVec 6) (hk : k < 1024)
    (hw : k + 4063232 + f0.toNat * 4194304 + f1.toNat * 1024 = w) :
    w < 2 ^ 32 ∧ w % 2 = k % 2 ∧ w / 16 % 64 = k / 16 % 64 ∧ w / 2 % 8 = k / 2 % 8 ∧ (w / 65536 % 64 == 62 && w / 33554432 % 128 == 0) = true ∧ bitsAt w 22 3 = f0 ∧ bitsAt w 10 6 = f1 := by
  have h0 := f0.isLt; have h1 := f1.isLt
  exact ⟨by omega, by omega, by omega, by omega, by simp only [Bool.and_eq_true, beq_iff_eq]; omega, bitsAt_eq w 22 f0 (by omega), bitsAt_eq w 10 f1 (by omega)⟩

theorem shape37 (k w : Nat) (f0 : BitVec 3) (f1 : BitVec 6) (hk : k < 1024)
    (hw : k + 63488 + f0.toNat * 4194304 + f1.toNat * 65536 = w) :
    w < 2 ^ 32 ∧ w % 2 = k % 2 ∧ w / 16 % 64 = k / 16 % 64 ∧ w / 2 % 8 = k / 2 % 8 ∧ (w / 1024 % 64 == 62 && w / 33554432 % 128 == 0) = true ∧ bitsAt w 22 3 = f0 ∧ bitsAt w 16 6 = f1 := by
  have h0 := f0.isLt; have h1 := f1.isLt
  exact ⟨by omega, by omega, by omega, by omega, by simp only [Bool.and_eq_true, beq_iff_eq]; omega, bitsAt_eq w 22 f0 (by omega), bitsAt_eq w 16 f1 (by omega)⟩

theorem shape38 (k w : Nat) (f0 : BitVec 6) (hk : k < 1024)
    (hw : k + 63488 + f0.toNat * 65536 = w) :
    w < 2 ^ 32 ∧ w % 2 = k % 2 ∧ w / 16 % 64 = k / 16 % 64 ∧ w / 2 % 8 = k / 2 % 8 ∧ (w / 1024 % 64 == 62 && w / 4194304 % 1024 == 0) = true ∧ bitsAt w 16 6 = f0 := by
  have h0 := f0.isLt
  exact ⟨by omega, by omega, by omega, by omega, by simp only [Bool.and_eq_true, beq_iff_eq]; omega, bitsAt_eq w 16 f0 (by omega)⟩

theorem shape39 (k w : Nat) (f0 : BitVec 1) (f1 : BitVec 6) (f2 : BitVec 6) (hk : k < 1024)
    (hw : k + 4063232 + f0.toNat * 2147483648 + f1.toNat * 4194304 + f2.toNat * 1024 = w) :
    w < 2 ^ 32 ∧ w % 2 = k % 2 ∧ w / 16 % 64 = k / 16 % 64 ∧ w / 2 % 8 = k / 2 % 8 ∧ (w / 65536 % 64 == 62 && w / 268435456 % 8 == 0) = true ∧ bitsAt w 31 1 = f0 ∧ bitsAt w 22 6 = f1 ∧ bitsAt w 10 6 = f2 := by
  have h0 := f0.isLt; have h1 := f1.isLt; have h2 := f2.isLt
  exact ⟨by omega, by omega, by omega, by omega, by simp only [Bool.and_eq_true, beq_iff_eq]; omega, bitsAt_eq w 31 f0 (by omega), bitsAt_eq w 22 f1 (by omega), bitsAt_eq w 10 f2 (by omega)⟩

theorem shape40 (k w : Nat) (f0 : BitVec 6) (f1 : BitVec 6) (hk : k < 1024)
    (hw : k + 4063232 + f0.toNat * 4194304 + f1.toNat * 1024 = w) :
    w < 2 ^ 32 ∧ w % 2 = k % 2 ∧ w / 16 % 64 = k / 16 % 64 ∧ w / 2 % 8 = k / 2 % 8 ∧ (w / 65536 % 64 == 62 && w / 268435456 % 16 == 0) = true ∧ bitsAt w 22 6 = f0 ∧ bitsAt w 10 6 = f1 := by
  have h0 := f0.isLt; have h1 := f1.isLt
  exact ⟨by omega, by omega, by omega, by omega, by simp only [Bool.and_eq_true, beq_iff_eq]; omega, bitsAt_eq w 22 f0 (by omega), bitsAt_eq w 10 f1 (by omega)⟩

theorem shape41 (k w : Nat) (f0 : BitVec 7) (hk : k < 1024)
    (hw : k + 4126720 + f0.toNat * 4194304 = w) :
    w < 2 ^ 32 ∧ w % 2 = k % 2 ∧ w / 16 % 64 = k / 16 % 64 ∧ w / 2 % 8 = k / 2 % 8 ∧ (w / 1024 % 4096 == 4030 && w / 536870912 % 8 == 0) = true ∧ bitsAt w 22 7 = f0 := by
  have h0 := f0.isLt
  exact ⟨by omega, by omega, by omega, by omega, by simp only [Bool.and_eq_true, beq_iff_eq]; omega, bitsAt_eq w 22 f0 (by omega)⟩

theorem shape42 (k w : Nat) (f0 : BitVec 10) (f1 : BitVec 6) (hk : k < 1024)
    (hw : k + 63488 + f0.toNat * 4194304 + f1.toNat * 65536 = w) :
    w < 2 ^ 32 ∧ w % 2 = k % 2 ∧ w / 16 % 64 = k / 16 % 64 ∧ w / 2 % 8 = k / 2 % 8 ∧ (w / 1024 % 64 == 62) = true ∧ bitsAt w 22 10 = f0 ∧ bitsAt w 16 6 = f1 := by
  have h0 := f0.isLt; have h1 := f1.isLt
  exact ⟨by omega, by omega, by omega, by omega, by simp only [beq_iff_eq]; omega, bitsAt_eq w 22 f0 (by omega), bitsAt_eq w 16 f1 (by omega)⟩

theorem shape43 (k w : Nat) (f0 : BitVec 6) (hk : k < 1024)
    (hw : k + 4063232 + f0.toNat * 1024 = w) :
    w < 2 ^ 32 ∧ w % 2 = k % 2 ∧ w / 16 % 64 = k / 16 % 64 ∧ w / 2 % 8 = k / 2 % 8 ∧ (w / 65536 % 65536 == 62) = true ∧ bitsAt w 10 6 = f0 := by
  have h0 := f0.isLt
  exact ⟨by omega, by omega, by omega, by omega, by simp only [beq_iff_eq]; omega, bitsAt_eq w 10 f0 (by omega)⟩

theorem shape44 (k w : Nat) (f0 : BitVec 2) (f1 : BitVec 6) (hk : k < 1024)
    (hw : k + 63488 + f0.toNat * 4194304 + f1.toNat * 65536 = w) :
    w < 2 ^ 32 ∧ w % 2 = k % 2 ∧ w / 16 % 64 = k / 16 % 64 ∧ w / 2 % 8 = k / 2 % 8 ∧ (w / 1024 % 64 == 62 && w / 16777216 % 256 == 0) = true ∧ bitsAt w 22 2 = f0 ∧ bitsAt w 16 6 = f1 := by
  have h0 := f0.isLt; have h1 := f1.isLt
  exact ⟨by omega, by omega, by omega, by omega, by simp only [Bool.and_eq_true, beq_iff_eq]; omega, bitsAt_eq w 22 f0 (by omega), bitsAt_eq w 16 f1 (by omega)⟩

theorem movA (x : BitVec 2) (a : BitVec 6) (d : BitVec 6) : Statement (.movA x a d) := by
  intro _ _ rest
  rw [show encode (.movA x a d) = natBytes 4 (260046849 + x.toNat * 268435456 + a.toNat * 65536 + d.toNat * 1024) from rfl]
  generalize hw : 260046849 + x.toNat * 268435456 + a.toNat * 65536 + d.toNat * 1024 = wd
  obtain ⟨hlt, hodd, h2, h1, h3, e0, e1, e2⟩ := shape0 1 wd x a d (by decide) (by omega)
  refine decode_word wd _ rest hlt hodd ?_
  simp only [Nat.reduceDiv, Nat.reduceMod] at h1 h2
  simp only [decode32, h1, decodeA, h2, fixedOr, h3, if_true, e0, e1, e2]
theorem movX (p : BitVec 6) (t : BitVec 4) (a : BitVec 6) (d : BitVec 6) : Statement (.movX p t a d) := by
  intro _ _ rest
  rw [show encode (.movX p t a d) = natBytes 4 (3 + p.toNat * 67108864 + t.toNat * 4194304 + a.toNat * 65536 + d.toNat * 1024) from rfl]
  generalize hw : 3 + p.toNat * 67108864 + t.toNat * 4194304 + a.toNat * 65536 + d.toNat * 1024 = wd
  obtain ⟨hlt, hodd, h2, h1, e0, e1, e2, e3⟩ := shape1 3 wd p t a d (by decide) (by omega)
  refine decode_word wd _ rest hlt hodd ?_
  simp only [Nat.reduceDiv, Nat.reduceMod] at h1 h2
  simp only [decode32, h1, decodeX, h2, e0, e1, e2, e3]
theorem movI (i : BitVec 10) (d : BitVec 6) : Statement (.movI i d) := by
  intro _ _ rest
  rw [show encode (.movI i d) = natBytes 4 (4063237 + i.toNat * 4194304 + d.toNat * 1024) from rfl]
  generalize hw : 4063237 + i.toNat * 4194304 + d.toNat * 1024 = wd
  obtain ⟨hlt, hodd, h2, h1, h3, e0, e1⟩ := shape2 5 wd i d (by decide) (by omega)
  refine decode_word wd _ rest hlt hodd ?_
  simp only [Nat.reduceDiv, Nat.reduceMod] at h1 h2
  simp only [decode32, h1, decodeI, h2, fixedOr, h3, if_true, e0, e1]
theorem addA (y : BitVec 2) (x : BitVec 2) (b : BitVec 6) (a : BitVec 6) (d : BitVec 6) : Statement (.addA y x b a d) := by
  intro _ _ rest
  rw [show encode (.addA y x b a d) = natBytes 4 (17 + y.toNat * 1073741824 + x.toNat * 268435456 + b.toNat * 4194304 + a.toNat * 65536 + d.toNat * 1024) from rfl]
  generalize hw : 17 + y.toNat * 1073741824 + x.toNat * 268435456 + b.toNat * 4194304 + a.toNat * 65536 + d.toNat * 1024 = wd
  obtain ⟨hlt, hodd, h2, h1, e0, e1, e2, e3, e4⟩ := shape3 17 wd y x b a d (by decide) (by omega)
  refine decode_word wd _ rest hlt hodd ?_
  simp only [Nat.reduceDiv, Nat.reduceMod] at h1 h2
  simp only [decode32, h1, decodeA, h2, e0, e1, e2, e3, e4]
theorem addX (p : BitVec 6) (t : BitVec 4) (a : BitVec 6) (d : BitVec 6) : Statement (.addX p t a d) := by
  intro _ _ rest
  rw [show encode (.addX p t a d) = natBytes 4 (19 + p.toNat * 67108864 + t.toNat * 4194304 + a.toNat * 65536 + d.toNat * 1024) from rfl]
  generalize hw : 19 + p.toNat * 67108864 + t.toNat * 4194304 + a.toNat * 65536 + d.toNat * 1024 = wd
  obtain ⟨hlt, hodd, h2, h1, e0, e1, e2, e3⟩ := shape1 19 wd p t a d (by decide) (by omega)
  refine decode_word wd _ rest hlt hodd ?_
  simp only [Nat.reduceDiv, Nat.reduceMod] at h1 h2
  simp only [decode32, h1, decodeX, h2, e0, e1, e2, e3]
theorem addI (i : BitVec 10) (a : BitVec 6) (d : BitVec 6) : Statement (.addI i a d) := by
  intro _ _ rest
  rw [show encode (.addI i a d) = natBytes 4 (21 + i.toNat * 4194304 + a.toNat * 65536 + d.toNat * 1024) from rfl]
  generalize hw : 21 + i.toNat * 4194304 + a.toNat * 65536 + d.toNat * 1024 = wd
  obtain ⟨hlt, hodd, h2, h1, e0, e1, e2⟩ := shape4 21 wd i a d (by decide) (by omega)
  refine decode_word wd _ rest hlt hodd ?_
  simp only [Nat.reduceDiv, Nat.reduceMod] at h1 h2
  simp only [decode32, h1, decodeI, h2, e0, e1, e2]
theorem subA (y : BitVec 2) (x : BitVec 2) (b : BitVec 6) (a : BitVec 6) (d : BitVec 6) : Statement (.subA y x b a d) := by
  intro _ _ rest
  rw [show encode (.subA y x b a d) = natBytes 4 (33 + y.toNat * 1073741824 + x.toNat * 268435456 + b.toNat * 4194304 + a.toNat * 65536 + d.toNat * 1024) from rfl]
  generalize hw : 33 + y.toNat * 1073741824 + x.toNat * 268435456 + b.toNat * 4194304 + a.toNat * 65536 + d.toNat * 1024 = wd
  obtain ⟨hlt, hodd, h2, h1, e0, e1, e2, e3, e4⟩ := shape3 33 wd y x b a d (by decide) (by omega)
  refine decode_word wd _ rest hlt hodd ?_
  simp only [Nat.reduceDiv, Nat.reduceMod] at h1 h2
  simp only [decode32, h1, decodeA, h2, e0, e1, e2, e3, e4]
theorem subX (p : BitVec 6) (t : BitVec 4) (a : BitVec 6) (d : BitVec 6) : Statement (.subX p t a d) := by
  intro _ _ rest
  rw [show encode (.subX p t a d) = natBytes 4 (35 + p.toNat * 67108864 + t.toNat * 4194304 + a.toNat * 65536 + d.toNat * 1024) from rfl]
  generalize hw : 35 + p.toNat * 67108864 + t.toNat * 4194304 + a.toNat * 65536 + d.toNat * 1024 = wd
  obtain ⟨hlt, hodd, h2, h1, e0, e1, e2, e3⟩ := shape1 35 wd p t a d (by decide) (by omega)
  refine decode_word wd _ rest hlt hodd ?_
  simp only [Nat.reduceDiv, Nat.reduceMod] at h1 h2
  simp only [decode32, h1, decodeX, h2, e0, e1, e2, e3]
theorem subI (i : BitVec 10) (a : BitVec 6) (d : BitVec 6) : Statement (.subI i a d) := by
  intro _ _ rest
  rw [show encode (.subI i a d) = natBytes 4 (37 + i.toNat * 4194304 + a.toNat * 65536 + d.toNat * 1024) from rfl]
  generalize hw : 37 + i.toNat * 4194304 + a.toNat * 65536 + d.toNat * 1024 = wd
  obtain ⟨hlt, hodd, h2, h1, e0, e1, e2⟩ := shape4 37 wd i a d (by decide) (by omega)
  refine decode_word wd _ rest hlt hodd ?_
  simp only [Nat.reduceDiv, Nat.reduceMod] at h1 h2
  simp only [decode32, h1, decodeI, h2, e0, e1, e2]
theorem mulloA (y : BitVec 2) (x : BitVec 2) (b : BitVec 6) (a : BitVec 6) (d : BitVec 6) : Statement (.mulloA y x b a d) := by
  intro _ _ rest
  rw [show encode (.mulloA y x b a d) = natBytes 4 (49 + y.toNat * 1073741824 + x.toNat * 268435456 + b.toNat * 4194304 + a.toNat * 65536 + d.toNat * 1024) from rfl]
  generalize hw : 49 + y.toNat * 1073741824 + x.toNat * 268435456 + b.toNat * 4194304 + a.toNat * 65536 + d.toNat * 1024 = wd
  obtain ⟨hlt, hodd, h2, h1, e0, e1, e2, e3, e4⟩ := shape3 49 wd y x b a d (by decide) (by omega)
  refine decode_word wd _ rest hlt hodd ?_
  simp only [Nat.reduceDiv, Nat.reduceMod] at h1 h2
  simp only [decode32, h1, decodeA, h2, e0, e1, e2, e3, e4]
theorem mulloX (p : BitVec 6) (t : BitVec 4) (a : BitVec 6) (d : BitVec 6) : Statement (.mulloX p t a d) := by
  intro _ _ rest
  rw [show encode (.mulloX p t a d) = natBytes 4 (51 + p.toNat * 67108864 + t.toNat * 4194304 + a.toNat * 65536 + d.toNat * 1024) from rfl]
  generalize hw : 51 + p.toNat * 67108864 + t.toNat * 4194304 + a.toNat * 65536 + d.toNat * 1024 = wd
  obtain ⟨hlt, hodd, h2, h1, e0, e1, e2, e3⟩ := shape1 51 wd p t a d (by decide) (by omega)
  refine decode_word wd _ rest hlt hodd ?_
  simp only [Nat.reduceDiv, Nat.reduceMod] at h1 h2
  simp only [decode32, h1, decodeX, h2, e0, e1, e2, e3]
theorem mulloI (i : BitVec 10) (a : BitVec 6) (d : BitVec 6) : Statement (.mulloI i a d) := by
  intro _ _ rest
  rw [show encode (.mulloI i a d) = natBytes 4 (53 + i.toNat * 4194304 + a.toNat * 65536 + d.toNat * 1024) from rfl]
  generalize hw : 53 + i.toNat * 4194304 + a.toNat * 65536 + d.toNat * 1024 = wd
  obtain ⟨hlt, hodd, h2, h1, e0, e1, e2⟩ := shape4 53 wd i a d (by decide) (by omega)
  refine decode_word wd _ rest hlt hodd ?_
  simp only [Nat.reduceDiv, Nat.reduceMod] at h1 h2
  simp only [decode32, h1, decodeI, h2, e0, e1, e2]
theorem mulhi (y : BitVec 2) (x : BitVec 2) (b : BitVec 6) (a : BitVec 6) (d : BitVec 6) : Statement (.mulhi y x b a d) := by
  intro _ _ rest
  rw [show encode (.mulhi y x b a d) = natBytes 4 (65 + y.toNat * 1073741824 + x.toNat * 268435456 + b.toNat * 4194304 + a.toNat * 65536 + d.toNat * 1024) from rfl]
  generalize hw : 65 + y.toNat * 1073741824 + x.toNat * 268435456 + b.toNat * 4194304 + a.toNat * 65536 + d.toNat * 1024 = wd
  obtain ⟨hlt, hodd, h2, h1, e0, e1, e2, e3, e4⟩ := shape3 65 wd y x b a d (by decide) (by omega)
  refine decode_word wd _ rest hlt hodd ?_
  simp only [Nat.reduceDiv, Nat.reduceMod] at h1 h2
  simp only [decode32, h1, decodeA, h2, e0, e1, e2, e3, e4]
theorem mulhu (y : BitVec 2) (x : BitVec 2) (b : BitVec 6) (a : BitVec 6) (d : BitVec 6) : Statement (.mulhu y x b a d) := by
  intro _ _ rest
  rw [show encode (.mulhu y x b a d) = natBytes 4 (81 + y.toNat * 1073741824 + x.toNat * 268435456 + b.toNat * 4194304 + a.toNat * 65536 + d.toNat * 1024) from rfl]
  generalize hw : 81 + y.toNat * 1073741824 + x.toNat * 268435456 + b.toNat * 4194304 + a.toNat * 65536 + d.toNat * 1024 = wd
  obtain ⟨hlt, hodd, h2, h1, e0, e1, e2, e3, e4⟩ := shape3 81 wd y x b a d (by decide) (by omega)
  refine decode_word wd _ rest hlt hodd ?_
  simp only [Nat.reduceDiv, Nat.reduceMod] at h1 h2
  simp only [decode32, h1, decodeA, h2, e0, e1, e2, e3, e4]
theorem madA (y : BitVec 2) (x : BitVec 2) (b : BitVec 6) (a : BitVec 6) (d : BitVec 6) : Statement (.madA y x b a d) := by
  intro _ _ rest
  rw [show encode (.madA y x b a d) = natBytes 4 (97 + y.toNat * 1073741824 + x.toNat * 268435456 + b.toNat * 4194304 + a.toNat * 65536 + d.toNat * 1024) from rfl]
  generalize hw : 97 + y.toNat * 1073741824 + x.toNat * 268435456 + b.toNat * 4194304 + a.toNat * 65536 + d.toNat * 1024 = wd
  obtain ⟨hlt, hodd, h2, h1, e0, e1, e2, e3, e4⟩ := shape3 97 wd y x b a d (by decide) (by omega)
  refine decode_word wd _ rest hlt hodd ?_
  simp only [Nat.reduceDiv, Nat.reduceMod] at h1 h2
  simp only [decode32, h1, decodeA, h2, e0, e1, e2, e3, e4]
theorem madI (i : BitVec 10) (a : BitVec 6) (d : BitVec 6) : Statement (.madI i a d) := by
  intro _ _ rest
  rw [show encode (.madI i a d) = natBytes 4 (101 + i.toNat * 4194304 + a.toNat * 65536 + d.toNat * 1024) from rfl]
  generalize hw : 101 + i.toNat * 4194304 + a.toNat * 65536 + d.toNat * 1024 = wd
  obtain ⟨hlt, hodd, h2, h1, e0, e1, e2⟩ := shape4 101 wd i a d (by decide) (by omega)
  refine decode_word wd _ rest hlt hodd ?_
  simp only [Nat.reduceDiv, Nat.reduceMod] at h1 h2
  simp only [decode32, h1, decodeI, h2, e0, e1, e2]
theorem andA (y : BitVec 2) (x : BitVec 2) (b : BitVec 6) (a : BitVec 6) (d : BitVec 6) : Statement (.andA y x b a d) := by
  intro _ _ rest
  rw [show encode (.andA y x b a d) = natBytes 4 (113 + y.toNat * 1073741824 + x.toNat * 268435456 + b.toNat * 4194304 + a.toNat * 65536 + d.toNat * 1024) from rfl]
  generalize hw : 113 + y.toNat * 1073741824 + x.toNat * 268435456 + b.toNat * 4194304 + a.toNat * 65536 + d.toNat * 1024 = wd
  obtain ⟨hlt, hodd, h2, h1, e0, e1, e2, e3, e4⟩ := shape3 113 wd y x b a d (by decide) (by omega)
  refine decode_word wd _ rest hlt hodd ?_
  simp only [Nat.reduceDiv, Nat.reduceMod] at h1 h2
  simp only [decode32, h1, decodeA, h2, e0, e1, e2, e3, e4]
theorem andX (p : BitVec 6) (t : BitVec 4) (a : BitVec 6) (d : BitVec 6) : Statement (.andX p t a d) := by
  intro _ _ rest
  rw [show encode (.andX p t a d) = natBytes 4 (115 + p.toNat * 67108864 + t.toNat * 4194304 + a.toNat * 65536 + d.toNat * 1024) from rfl]
  generalize hw : 115 + p.toNat * 67108864 + t.toNat * 4194304 + a.toNat * 65536 + d.toNat * 1024 = wd
  obtain ⟨hlt, hodd, h2, h1, e0, e1, e2, e3⟩ := shape1 115 wd p t a d (by decide) (by omega)
  refine decode_word wd _ rest hlt hodd ?_
  simp only [Nat.reduceDiv, Nat.reduceMod] at h1 h2
  simp only [decode32, h1, decodeX, h2, e0, e1, e2, e3]
theorem andI (i : BitVec 10) (a : BitVec 6) (d : BitVec 6) : Statement (.andI i a d) := by
  intro _ _ rest
  rw [show encode (.andI i a d) = natBytes 4 (117 + i.toNat * 4194304 + a.toNat * 65536 + d.toNat * 1024) from rfl]
  generalize hw : 117 + i.toNat * 4194304 + a.toNat * 65536 + d.toNat * 1024 = wd
  obtain ⟨hlt, hodd, h2, h1, e0, e1, e2⟩ := shape4 117 wd i a d (by decide) (by omega)
  refine decode_word wd _ rest hlt hodd ?_
  simp only [Nat.reduceDiv, Nat.reduceMod] at h1 h2
  simp only [decode32, h1, decodeI, h2, e0, e1, e2]
theorem orA (y : BitVec 2) (x : BitVec 2) (b : BitVec 6) (a : BitVec 6) (d : BitVec 6) : Statement (.orA y x b a d) := by
  intro _ _ rest
  rw [show encode (.orA y x b a d) = natBytes 4 (129 + y.toNat * 1073741824 + x.toNat * 268435456 + b.toNat * 4194304 + a.toNat * 65536 + d.toNat * 1024) from rfl]
  generalize hw : 129 + y.toNat * 1073741824 + x.toNat * 268435456 + b.toNat * 4194304 + a.toNat * 65536 + d.toNat * 1024 = wd
  obtain ⟨hlt, hodd, h2, h1, e0, e1, e2, e3, e4⟩ := shape3 129 wd y x b a d (by decide) (by omega)
  refine decode_word wd _ rest hlt hodd ?_
  simp only [Nat.reduceDiv, Nat.reduceMod] at h1 h2
  simp only [decode32, h1, decodeA, h2, e0, e1, e2, e3, e4]
theorem orX (p : BitVec 6) (t : BitVec 4) (a : BitVec 6) (d : BitVec 6) : Statement (.orX p t a d) := by
  intro _ _ rest
  rw [show encode (.orX p t a d) = natBytes 4 (131 + p.toNat * 67108864 + t.toNat * 4194304 + a.toNat * 65536 + d.toNat * 1024) from rfl]
  generalize hw : 131 + p.toNat * 67108864 + t.toNat * 4194304 + a.toNat * 65536 + d.toNat * 1024 = wd
  obtain ⟨hlt, hodd, h2, h1, e0, e1, e2, e3⟩ := shape1 131 wd p t a d (by decide) (by omega)
  refine decode_word wd _ rest hlt hodd ?_
  simp only [Nat.reduceDiv, Nat.reduceMod] at h1 h2
  simp only [decode32, h1, decodeX, h2, e0, e1, e2, e3]
theorem orI (i : BitVec 10) (a : BitVec 6) (d : BitVec 6) : Statement (.orI i a d) := by
  intro _ _ rest
  rw [show encode (.orI i a d) = natBytes 4 (133 + i.toNat * 4194304 + a.toNat * 65536 + d.toNat * 1024) from rfl]
  generalize hw : 133 + i.toNat * 4194304 + a.toNat * 65536 + d.toNat * 1024 = wd
  obtain ⟨hlt, hodd, h2, h1, e0, e1, e2⟩ := shape4 133 wd i a d (by decide) (by omega)
  refine decode_word wd _ rest hlt hodd ?_
  simp only [Nat.reduceDiv, Nat.reduceMod] at h1 h2
  simp only [decode32, h1, decodeI, h2, e0, e1, e2]
theorem xorA (y : BitVec 2) (x : BitVec 2) (b : BitVec 6) (a : BitVec 6) (d : BitVec 6) : Statement (.xorA y x b a d) := by
  intro _ _ rest
  rw [show encode (.xorA y x b a d) = natBytes 4 (145 + y.toNat * 1073741824 + x.toNat * 268435456 + b.toNat * 4194304 + a.toNat * 65536 + d.toNat * 1024) from rfl]
  generalize hw : 145 + y.toNat * 1073741824 + x.toNat * 268435456 + b.toNat * 4194304 + a.toNat * 65536 + d.toNat * 1024 = wd
  obtain ⟨hlt, hodd, h2, h1, e0, e1, e2, e3, e4⟩ := shape3 145 wd y x b a d (by decide) (by omega)
  refine decode_word wd _ rest hlt hodd ?_
  simp only [Nat.reduceDiv, Nat.reduceMod] at h1 h2
  simp only [decode32, h1, decodeA, h2, e0, e1, e2, e3, e4]
theorem xorX (p : BitVec 6) (t : BitVec 4) (a : BitVec 6) (d : BitVec 6) : Statement (.xorX p t a d) := by
  intro _ _ rest
  rw [show encode (.xorX p t a d) = natBytes 4 (147 + p.toNat * 67108864 + t.toNat * 4194304 + a.toNat * 65536 + d.toNat * 1024) from rfl]
  generalize hw : 147 + p.toNat * 67108864 + t.toNat * 4194304 + a.toNat * 65536 + d.toNat * 1024 = wd
  obtain ⟨hlt, hodd, h2, h1, e0, e1, e2, e3⟩ := shape1 147 wd p t a d (by decide) (by omega)
  refine decode_word wd _ rest hlt hodd ?_
  simp only [Nat.reduceDiv, Nat.reduceMod] at h1 h2
  simp only [decode32, h1, decodeX, h2, e0, e1, e2, e3]
theorem xorI (i : BitVec 10) (a : BitVec 6) (d : BitVec 6) : Statement (.xorI i a d) := by
  intro _ _ rest
  rw [show encode (.xorI i a d) = natBytes 4 (149 + i.toNat * 4194304 + a.toNat * 65536 + d.toNat * 1024) from rfl]
  generalize hw : 149 + i.toNat * 4194304 + a.toNat * 65536 + d.toNat * 1024 = wd
  obtain ⟨hlt, hodd, h2, h1, e0, e1, e2⟩ := shape4 149 wd i a d (by decide) (by omega)
  refine decode_word wd _ rest hlt hodd ?_
  simp only [Nat.reduceDiv, Nat.reduceMod] at h1 h2
  simp only [decode32, h1, decodeI, h2, e0, e1, e2]
theorem andnA (y : BitVec 2) (x : BitVec 2) (b : BitVec 6) (a : BitVec 6) (d : BitVec 6) : Statement (.andnA y x b a d) := by
  intro _ _ rest
  rw [show encode (.andnA y x b a d) = natBytes 4 (161 + y.toNat * 1073741824 + x.toNat * 268435456 + b.toNat * 4194304 + a.toNat * 65536 + d.toNat * 1024) from rfl]
  generalize hw : 161 + y.toNat * 1073741824 + x.toNat * 268435456 + b.toNat * 4194304 + a.toNat * 65536 + d.toNat * 1024 = wd
  obtain ⟨hlt, hodd, h2, h1, e0, e1, e2, e3, e4⟩ := shape3 161 wd y x b a d (by decide) (by omega)
  refine decode_word wd _ rest hlt hodd ?_
  simp only [Nat.reduceDiv, Nat.reduceMod] at h1 h2
  simp only [decode32, h1, decodeA, h2, e0, e1, e2, e3, e4]
theorem andnX (p : BitVec 6) (t : BitVec 4) (a : BitVec 6) (d : BitVec 6) : Statement (.andnX p t a d) := by
  intro _ _ rest
  rw [show encode (.andnX p t a d) = natBytes 4 (163 + p.toNat * 67108864 + t.toNat * 4194304 + a.toNat * 65536 + d.toNat * 1024) from rfl]
  generalize hw : 163 + p.toNat * 67108864 + t.toNat * 4194304 + a.toNat * 65536 + d.toNat * 1024 = wd
  obtain ⟨hlt, hodd, h2, h1, e0, e1, e2, e3⟩ := shape1 163 wd p t a d (by decide) (by omega)
  refine decode_word wd _ rest hlt hodd ?_
  simp only [Nat.reduceDiv, Nat.reduceMod] at h1 h2
  simp only [decode32, h1, decodeX, h2, e0, e1, e2, e3]
theorem andnI (i : BitVec 10) (a : BitVec 6) (d : BitVec 6) : Statement (.andnI i a d) := by
  intro _ _ rest
  rw [show encode (.andnI i a d) = natBytes 4 (165 + i.toNat * 4194304 + a.toNat * 65536 + d.toNat * 1024) from rfl]
  generalize hw : 165 + i.toNat * 4194304 + a.toNat * 65536 + d.toNat * 1024 = wd
  obtain ⟨hlt, hodd, h2, h1, e0, e1, e2⟩ := shape4 165 wd i a d (by decide) (by omega)
  refine decode_word wd _ rest hlt hodd ?_
  simp only [Nat.reduceDiv, Nat.reduceMod] at h1 h2
  simp only [decode32, h1, decodeI, h2, e0, e1, e2]
theorem shlA (y : BitVec 2) (x : BitVec 2) (b : BitVec 6) (a : BitVec 6) (d : BitVec 6) : Statement (.shlA y x b a d) := by
  intro _ _ rest
  rw [show encode (.shlA y x b a d) = natBytes 4 (177 + y.toNat * 1073741824 + x.toNat * 268435456 + b.toNat * 4194304 + a.toNat * 65536 + d.toNat * 1024) from rfl]
  generalize hw : 177 + y.toNat * 1073741824 + x.toNat * 268435456 + b.toNat * 4194304 + a.toNat * 65536 + d.toNat * 1024 = wd
  obtain ⟨hlt, hodd, h2, h1, e0, e1, e2, e3, e4⟩ := shape3 177 wd y x b a d (by decide) (by omega)
  refine decode_word wd _ rest hlt hodd ?_
  simp only [Nat.reduceDiv, Nat.reduceMod] at h1 h2
  simp only [decode32, h1, decodeA, h2, e0, e1, e2, e3, e4]
theorem shlI (i : BitVec 10) (a : BitVec 6) (d : BitVec 6) : Statement (.shlI i a d) := by
  intro _ _ rest
  rw [show encode (.shlI i a d) = natBytes 4 (181 + i.toNat * 4194304 + a.toNat * 65536 + d.toNat * 1024) from rfl]
  generalize hw : 181 + i.toNat * 4194304 + a.toNat * 65536 + d.toNat * 1024 = wd
  obtain ⟨hlt, hodd, h2, h1, e0, e1, e2⟩ := shape4 181 wd i a d (by decide) (by omega)
  refine decode_word wd _ rest hlt hodd ?_
  simp only [Nat.reduceDiv, Nat.reduceMod] at h1 h2
  simp only [decode32, h1, decodeI, h2, e0, e1, e2]
theorem shrA (y : BitVec 2) (x : BitVec 2) (b : BitVec 6) (a : BitVec 6) (d : BitVec 6) : Statement (.shrA y x b a d) := by
  intro _ _ rest
  rw [show encode (.shrA y x b a d) = natBytes 4 (193 + y.toNat * 1073741824 + x.toNat * 268435456 + b.toNat * 4194304 + a.toNat * 65536 + d.toNat * 1024) from rfl]
  generalize hw : 193 + y.toNat * 1073741824 + x.toNat * 268435456 + b.toNat * 4194304 + a.toNat * 65536 + d.toNat * 1024 = wd
  obtain ⟨hlt, hodd, h2, h1, e0, e1, e2, e3, e4⟩ := shape3 193 wd y x b a d (by decide) (by omega)
  refine decode_word wd _ rest hlt hodd ?_
  simp only [Nat.reduceDiv, Nat.reduceMod] at h1 h2
  simp only [decode32, h1, decodeA, h2, e0, e1, e2, e3, e4]
theorem shrI (i : BitVec 10) (a : BitVec 6) (d : BitVec 6) : Statement (.shrI i a d) := by
  intro _ _ rest
  rw [show encode (.shrI i a d) = natBytes 4 (197 + i.toNat * 4194304 + a.toNat * 65536 + d.toNat * 1024) from rfl]
  generalize hw : 197 + i.toNat * 4194304 + a.toNat * 65536 + d.toNat * 1024 = wd
  obtain ⟨hlt, hodd, h2, h1, e0, e1, e2⟩ := shape4 197 wd i a d (by decide) (by omega)
  refine decode_word wd _ rest hlt hodd ?_
  simp only [Nat.reduceDiv, Nat.reduceMod] at h1 h2
  simp only [decode32, h1, decodeI, h2, e0, e1, e2]
theorem sraA (y : BitVec 2) (x : BitVec 2) (b : BitVec 6) (a : BitVec 6) (d : BitVec 6) : Statement (.sraA y x b a d) := by
  intro _ _ rest
  rw [show encode (.sraA y x b a d) = natBytes 4 (209 + y.toNat * 1073741824 + x.toNat * 268435456 + b.toNat * 4194304 + a.toNat * 65536 + d.toNat * 1024) from rfl]
  generalize hw : 209 + y.toNat * 1073741824 + x.toNat * 268435456 + b.toNat * 4194304 + a.toNat * 65536 + d.toNat * 1024 = wd
  obtain ⟨hlt, hodd, h2, h1, e0, e1, e2, e3, e4⟩ := shape3 209 wd y x b a d (by decide) (by omega)
  refine decode_word wd _ rest hlt hodd ?_
  simp only [Nat.reduceDiv, Nat.reduceMod] at h1 h2
  simp only [decode32, h1, decodeA, h2, e0, e1, e2, e3, e4]
theorem sraI (i : BitVec 10) (a : BitVec 6) (d : BitVec 6) : Statement (.sraI i a d) := by
  intro _ _ rest
  rw [show encode (.sraI i a d) = natBytes 4 (213 + i.toNat * 4194304 + a.toNat * 65536 + d.toNat * 1024) from rfl]
  generalize hw : 213 + i.toNat * 4194304 + a.toNat * 65536 + d.toNat * 1024 = wd
  obtain ⟨hlt, hodd, h2, h1, e0, e1, e2⟩ := shape4 213 wd i a d (by decide) (by omega)
  refine decode_word wd _ rest hlt hodd ?_
  simp only [Nat.reduceDiv, Nat.reduceMod] at h1 h2
  simp only [decode32, h1, decodeI, h2, e0, e1, e2]
theorem minA (y : BitVec 2) (x : BitVec 2) (b : BitVec 6) (a : BitVec 6) (d : BitVec 6) : Statement (.minA y x b a d) := by
  intro _ _ rest
  rw [show encode (.minA y x b a d) = natBytes 4 (225 + y.toNat * 1073741824 + x.toNat * 268435456 + b.toNat * 4194304 + a.toNat * 65536 + d.toNat * 1024) from rfl]
  generalize hw : 225 + y.toNat * 1073741824 + x.toNat * 268435456 + b.toNat * 4194304 + a.toNat * 65536 + d.toNat * 1024 = wd
  obtain ⟨hlt, hodd, h2, h1, e0, e1, e2, e3, e4⟩ := shape3 225 wd y x b a d (by decide) (by omega)
  refine decode_word wd _ rest hlt hodd ?_
  simp only [Nat.reduceDiv, Nat.reduceMod] at h1 h2
  simp only [decode32, h1, decodeA, h2, e0, e1, e2, e3, e4]
theorem minX (p : BitVec 6) (t : BitVec 4) (a : BitVec 6) (d : BitVec 6) : Statement (.minX p t a d) := by
  intro _ _ rest
  rw [show encode (.minX p t a d) = natBytes 4 (227 + p.toNat * 67108864 + t.toNat * 4194304 + a.toNat * 65536 + d.toNat * 1024) from rfl]
  generalize hw : 227 + p.toNat * 67108864 + t.toNat * 4194304 + a.toNat * 65536 + d.toNat * 1024 = wd
  obtain ⟨hlt, hodd, h2, h1, e0, e1, e2, e3⟩ := shape1 227 wd p t a d (by decide) (by omega)
  refine decode_word wd _ rest hlt hodd ?_
  simp only [Nat.reduceDiv, Nat.reduceMod] at h1 h2
  simp only [decode32, h1, decodeX, h2, e0, e1, e2, e3]
theorem minI (i : BitVec 10) (a : BitVec 6) (d : BitVec 6) : Statement (.minI i a d) := by
  intro _ _ rest
  rw [show encode (.minI i a d) = natBytes 4 (229 + i.toNat * 4194304 + a.toNat * 65536 + d.toNat * 1024) from rfl]
  generalize hw : 229 + i.toNat * 4194304 + a.toNat * 65536 + d.toNat * 1024 = wd
  obtain ⟨hlt, hodd, h2, h1, e0, e1, e2⟩ := shape4 229 wd i a d (by decide) (by omega)
  refine decode_word wd _ rest hlt hodd ?_
  simp only [Nat.reduceDiv, Nat.reduceMod] at h1 h2
  simp only [decode32, h1, decodeI, h2, e0, e1, e2]
theorem maxA (y : BitVec 2) (x : BitVec 2) (b : BitVec 6) (a : BitVec 6) (d : BitVec 6) : Statement (.maxA y x b a d) := by
  intro _ _ rest
  rw [show encode (.maxA y x b a d) = natBytes 4 (241 + y.toNat * 1073741824 + x.toNat * 268435456 + b.toNat * 4194304 + a.toNat * 65536 + d.toNat * 1024) from rfl]
  generalize hw : 241 + y.toNat * 1073741824 + x.toNat * 268435456 + b.toNat * 4194304 + a.toNat * 65536 + d.toNat * 1024 = wd
  obtain ⟨hlt, hodd, h2, h1, e0, e1, e2, e3, e4⟩ := shape3 241 wd y x b a d (by decide) (by omega)
  refine decode_word wd _ rest hlt hodd ?_
  simp only [Nat.reduceDiv, Nat.reduceMod] at h1 h2
  simp only [decode32, h1, decodeA, h2, e0, e1, e2, e3, e4]
theorem maxX (p : BitVec 6) (t : BitVec 4) (a : BitVec 6) (d : BitVec 6) : Statement (.maxX p t a d) := by
  intro _ _ rest
  rw [show encode (.maxX p t a d) = natBytes 4 (243 + p.toNat * 67108864 + t.toNat * 4194304 + a.toNat * 65536 + d.toNat * 1024) from rfl]
  generalize hw : 243 + p.toNat * 67108864 + t.toNat * 4194304 + a.toNat * 65536 + d.toNat * 1024 = wd
  obtain ⟨hlt, hodd, h2, h1, e0, e1, e2, e3⟩ := shape1 243 wd p t a d (by decide) (by omega)
  refine decode_word wd _ rest hlt hodd ?_
  simp only [Nat.reduceDiv, Nat.reduceMod] at h1 h2
  simp only [decode32, h1, decodeX, h2, e0, e1, e2, e3]
theorem maxI (i : BitVec 10) (a : BitVec 6) (d : BitVec 6) : Statement (.maxI i a d) := by
  intro _ _ rest
  rw [show encode (.maxI i a d) = natBytes 4 (245 + i.toNat * 4194304 + a.toNat * 65536 + d.toNat * 1024) from rfl]
  generalize hw : 245 + i.toNat * 4194304 + a.toNat * 65536 + d.toNat * 1024 = wd
  obtain ⟨hlt, hodd, h2, h1, e0, e1, e2⟩ := shape4 245 wd i a d (by decide) (by omega)
  refine decode_word wd _ rest hlt hodd ?_
  simp only [Nat.reduceDiv, Nat.reduceMod] at h1 h2
  simp only [decode32, h1, decodeI, h2, e0, e1, e2]
theorem minuA (y : BitVec 2) (x : BitVec 2) (b : BitVec 6) (a : BitVec 6) (d : BitVec 6) : Statement (.minuA y x b a d) := by
  intro _ _ rest
  rw [show encode (.minuA y x b a d) = natBytes 4 (257 + y.toNat * 1073741824 + x.toNat * 268435456 + b.toNat * 4194304 + a.toNat * 65536 + d.toNat * 1024) from rfl]
  generalize hw : 257 + y.toNat * 1073741824 + x.toNat * 268435456 + b.toNat * 4194304 + a.toNat * 65536 + d.toNat * 1024 = wd
  obtain ⟨hlt, hodd, h2, h1, e0, e1, e2, e3, e4⟩ := shape3 257 wd y x b a d (by decide) (by omega)
  refine decode_word wd _ rest hlt hodd ?_
  simp only [Nat.reduceDiv, Nat.reduceMod] at h1 h2
  simp only [decode32, h1, decodeA, h2, e0, e1, e2, e3, e4]
theorem minuX (p : BitVec 6) (t : BitVec 4) (a : BitVec 6) (d : BitVec 6) : Statement (.minuX p t a d) := by
  intro _ _ rest
  rw [show encode (.minuX p t a d) = natBytes 4 (259 + p.toNat * 67108864 + t.toNat * 4194304 + a.toNat * 65536 + d.toNat * 1024) from rfl]
  generalize hw : 259 + p.toNat * 67108864 + t.toNat * 4194304 + a.toNat * 65536 + d.toNat * 1024 = wd
  obtain ⟨hlt, hodd, h2, h1, e0, e1, e2, e3⟩ := shape1 259 wd p t a d (by decide) (by omega)
  refine decode_word wd _ rest hlt hodd ?_
  simp only [Nat.reduceDiv, Nat.reduceMod] at h1 h2
  simp only [decode32, h1, decodeX, h2, e0, e1, e2, e3]
theorem minuI (i : BitVec 10) (a : BitVec 6) (d : BitVec 6) : Statement (.minuI i a d) := by
  intro _ _ rest
  rw [show encode (.minuI i a d) = natBytes 4 (261 + i.toNat * 4194304 + a.toNat * 65536 + d.toNat * 1024) from rfl]
  generalize hw : 261 + i.toNat * 4194304 + a.toNat * 65536 + d.toNat * 1024 = wd
  obtain ⟨hlt, hodd, h2, h1, e0, e1, e2⟩ := shape4 261 wd i a d (by decide) (by omega)
  refine decode_word wd _ rest hlt hodd ?_
  simp only [Nat.reduceDiv, Nat.reduceMod] at h1 h2
  simp only [decode32, h1, decodeI, h2, e0, e1, e2]
theorem maxuA (y : BitVec 2) (x : BitVec 2) (b : BitVec 6) (a : BitVec 6) (d : BitVec 6) : Statement (.maxuA y x b a d) := by
  intro _ _ rest
  rw [show encode (.maxuA y x b a d) = natBytes 4 (273 + y.toNat * 1073741824 + x.toNat * 268435456 + b.toNat * 4194304 + a.toNat * 65536 + d.toNat * 1024) from rfl]
  generalize hw : 273 + y.toNat * 1073741824 + x.toNat * 268435456 + b.toNat * 4194304 + a.toNat * 65536 + d.toNat * 1024 = wd
  obtain ⟨hlt, hodd, h2, h1, e0, e1, e2, e3, e4⟩ := shape3 273 wd y x b a d (by decide) (by omega)
  refine decode_word wd _ rest hlt hodd ?_
  simp only [Nat.reduceDiv, Nat.reduceMod] at h1 h2
  simp only [decode32, h1, decodeA, h2, e0, e1, e2, e3, e4]
theorem maxuX (p : BitVec 6) (t : BitVec 4) (a : BitVec 6) (d : BitVec 6) : Statement (.maxuX p t a d) := by
  intro _ _ rest
  rw [show encode (.maxuX p t a d) = natBytes 4 (275 + p.toNat * 67108864 + t.toNat * 4194304 + a.toNat * 65536 + d.toNat * 1024) from rfl]
  generalize hw : 275 + p.toNat * 67108864 + t.toNat * 4194304 + a.toNat * 65536 + d.toNat * 1024 = wd
  obtain ⟨hlt, hodd, h2, h1, e0, e1, e2, e3⟩ := shape1 275 wd p t a d (by decide) (by omega)
  refine decode_word wd _ rest hlt hodd ?_
  simp only [Nat.reduceDiv, Nat.reduceMod] at h1 h2
  simp only [decode32, h1, decodeX, h2, e0, e1, e2, e3]
theorem maxuI (i : BitVec 10) (a : BitVec 6) (d : BitVec 6) : Statement (.maxuI i a d) := by
  intro _ _ rest
  rw [show encode (.maxuI i a d) = natBytes 4 (277 + i.toNat * 4194304 + a.toNat * 65536 + d.toNat * 1024) from rfl]
  generalize hw : 277 + i.toNat * 4194304 + a.toNat * 65536 + d.toNat * 1024 = wd
  obtain ⟨hlt, hodd, h2, h1, e0, e1, e2⟩ := shape4 277 wd i a d (by decide) (by omega)
  refine decode_word wd _ rest hlt hodd ?_
  simp only [Nat.reduceDiv, Nat.reduceMod] at h1 h2
  simp only [decode32, h1, decodeI, h2, e0, e1, e2]
theorem seqA (y : BitVec 2) (x : BitVec 2) (b : BitVec 6) (a : BitVec 6) (d : BitVec 6) : Statement (.seqA y x b a d) := by
  intro _ _ rest
  rw [show encode (.seqA y x b a d) = natBytes 4 (289 + y.toNat * 1073741824 + x.toNat * 268435456 + b.toNat * 4194304 + a.toNat * 65536 + d.toNat * 1024) from rfl]
  generalize hw : 289 + y.toNat * 1073741824 + x.toNat * 268435456 + b.toNat * 4194304 + a.toNat * 65536 + d.toNat * 1024 = wd
  obtain ⟨hlt, hodd, h2, h1, e0, e1, e2, e3, e4⟩ := shape3 289 wd y x b a d (by decide) (by omega)
  refine decode_word wd _ rest hlt hodd ?_
  simp only [Nat.reduceDiv, Nat.reduceMod] at h1 h2
  simp only [decode32, h1, decodeA, h2, e0, e1, e2, e3, e4]
theorem seqI (i : BitVec 10) (a : BitVec 6) (d : BitVec 6) : Statement (.seqI i a d) := by
  intro _ _ rest
  rw [show encode (.seqI i a d) = natBytes 4 (293 + i.toNat * 4194304 + a.toNat * 65536 + d.toNat * 1024) from rfl]
  generalize hw : 293 + i.toNat * 4194304 + a.toNat * 65536 + d.toNat * 1024 = wd
  obtain ⟨hlt, hodd, h2, h1, e0, e1, e2⟩ := shape4 293 wd i a d (by decide) (by omega)
  refine decode_word wd _ rest hlt hodd ?_
  simp only [Nat.reduceDiv, Nat.reduceMod] at h1 h2
  simp only [decode32, h1, decodeI, h2, e0, e1, e2]
theorem sneA (y : BitVec 2) (x : BitVec 2) (b : BitVec 6) (a : BitVec 6) (d : BitVec 6) : Statement (.sneA y x b a d) := by
  intro _ _ rest
  rw [show encode (.sneA y x b a d) = natBytes 4 (305 + y.toNat * 1073741824 + x.toNat * 268435456 + b.toNat * 4194304 + a.toNat * 65536 + d.toNat * 1024) from rfl]
  generalize hw : 305 + y.toNat * 1073741824 + x.toNat * 268435456 + b.toNat * 4194304 + a.toNat * 65536 + d.toNat * 1024 = wd
  obtain ⟨hlt, hodd, h2, h1, e0, e1, e2, e3, e4⟩ := shape3 305 wd y x b a d (by decide) (by omega)
  refine decode_word wd _ rest hlt hodd ?_
  simp only [Nat.reduceDiv, Nat.reduceMod] at h1 h2
  simp only [decode32, h1, decodeA, h2, e0, e1, e2, e3, e4]
theorem sneI (i : BitVec 10) (a : BitVec 6) (d : BitVec 6) : Statement (.sneI i a d) := by
  intro _ _ rest
  rw [show encode (.sneI i a d) = natBytes 4 (309 + i.toNat * 4194304 + a.toNat * 65536 + d.toNat * 1024) from rfl]
  generalize hw : 309 + i.toNat * 4194304 + a.toNat * 65536 + d.toNat * 1024 = wd
  obtain ⟨hlt, hodd, h2, h1, e0, e1, e2⟩ := shape4 309 wd i a d (by decide) (by omega)
  refine decode_word wd _ rest hlt hodd ?_
  simp only [Nat.reduceDiv, Nat.reduceMod] at h1 h2
  simp only [decode32, h1, decodeI, h2, e0, e1, e2]
theorem sltA (y : BitVec 2) (x : BitVec 2) (b : BitVec 6) (a : BitVec 6) (d : BitVec 6) : Statement (.sltA y x b a d) := by
  intro _ _ rest
  rw [show encode (.sltA y x b a d) = natBytes 4 (321 + y.toNat * 1073741824 + x.toNat * 268435456 + b.toNat * 4194304 + a.toNat * 65536 + d.toNat * 1024) from rfl]
  generalize hw : 321 + y.toNat * 1073741824 + x.toNat * 268435456 + b.toNat * 4194304 + a.toNat * 65536 + d.toNat * 1024 = wd
  obtain ⟨hlt, hodd, h2, h1, e0, e1, e2, e3, e4⟩ := shape3 321 wd y x b a d (by decide) (by omega)
  refine decode_word wd _ rest hlt hodd ?_
  simp only [Nat.reduceDiv, Nat.reduceMod] at h1 h2
  simp only [decode32, h1, decodeA, h2, e0, e1, e2, e3, e4]
theorem sltI (i : BitVec 10) (a : BitVec 6) (d : BitVec 6) : Statement (.sltI i a d) := by
  intro _ _ rest
  rw [show encode (.sltI i a d) = natBytes 4 (325 + i.toNat * 4194304 + a.toNat * 65536 + d.toNat * 1024) from rfl]
  generalize hw : 325 + i.toNat * 4194304 + a.toNat * 65536 + d.toNat * 1024 = wd
  obtain ⟨hlt, hodd, h2, h1, e0, e1, e2⟩ := shape4 325 wd i a d (by decide) (by omega)
  refine decode_word wd _ rest hlt hodd ?_
  simp only [Nat.reduceDiv, Nat.reduceMod] at h1 h2
  simp only [decode32, h1, decodeI, h2, e0, e1, e2]
theorem sleA (y : BitVec 2) (x : BitVec 2) (b : BitVec 6) (a : BitVec 6) (d : BitVec 6) : Statement (.sleA y x b a d) := by
  intro _ _ rest
  rw [show encode (.sleA y x b a d) = natBytes 4 (337 + y.toNat * 1073741824 + x.toNat * 268435456 + b.toNat * 4194304 + a.toNat * 65536 + d.toNat * 1024) from rfl]
  generalize hw : 337 + y.toNat * 1073741824 + x.toNat * 268435456 + b.toNat * 4194304 + a.toNat * 65536 + d.toNat * 1024 = wd
  obtain ⟨hlt, hodd, h2, h1, e0, e1, e2, e3, e4⟩ := shape3 337 wd y x b a d (by decide) (by omega)
  refine decode_word wd _ rest hlt hodd ?_
  simp only [Nat.reduceDiv, Nat.reduceMod] at h1 h2
  simp only [decode32, h1, decodeA, h2, e0, e1, e2, e3, e4]
theorem sleI (i : BitVec 10) (a : BitVec 6) (d : BitVec 6) : Statement (.sleI i a d) := by
  intro _ _ rest
  rw [show encode (.sleI i a d) = natBytes 4 (341 + i.toNat * 4194304 + a.toNat * 65536 + d.toNat * 1024) from rfl]
  generalize hw : 341 + i.toNat * 4194304 + a.toNat * 65536 + d.toNat * 1024 = wd
  obtain ⟨hlt, hodd, h2, h1, e0, e1, e2⟩ := shape4 341 wd i a d (by decide) (by omega)
  refine decode_word wd _ rest hlt hodd ?_
  simp only [Nat.reduceDiv, Nat.reduceMod] at h1 h2
  simp only [decode32, h1, decodeI, h2, e0, e1, e2]
theorem sltuA (y : BitVec 2) (x : BitVec 2) (b : BitVec 6) (a : BitVec 6) (d : BitVec 6) : Statement (.sltuA y x b a d) := by
  intro _ _ rest
  rw [show encode (.sltuA y x b a d) = natBytes 4 (353 + y.toNat * 1073741824 + x.toNat * 268435456 + b.toNat * 4194304 + a.toNat * 65536 + d.toNat * 1024) from rfl]
  generalize hw : 353 + y.toNat * 1073741824 + x.toNat * 268435456 + b.toNat * 4194304 + a.toNat * 65536 + d.toNat * 1024 = wd
  obtain ⟨hlt, hodd, h2, h1, e0, e1, e2, e3, e4⟩ := shape3 353 wd y x b a d (by decide) (by omega)
  refine decode_word wd _ rest hlt hodd ?_
  simp only [Nat.reduceDiv, Nat.reduceMod] at h1 h2
  simp only [decode32, h1, decodeA, h2, e0, e1, e2, e3, e4]
theorem sltuI (i : BitVec 10) (a : BitVec 6) (d : BitVec 6) : Statement (.sltuI i a d) := by
  intro _ _ rest
  rw [show encode (.sltuI i a d) = natBytes 4 (357 + i.toNat * 4194304 + a.toNat * 65536 + d.toNat * 1024) from rfl]
  generalize hw : 357 + i.toNat * 4194304 + a.toNat * 65536 + d.toNat * 1024 = wd
  obtain ⟨hlt, hodd, h2, h1, e0, e1, e2⟩ := shape4 357 wd i a d (by decide) (by omega)
  refine decode_word wd _ rest hlt hodd ?_
  simp only [Nat.reduceDiv, Nat.reduceMod] at h1 h2
  simp only [decode32, h1, decodeI, h2, e0, e1, e2]
theorem sleuA (y : BitVec 2) (x : BitVec 2) (b : BitVec 6) (a : BitVec 6) (d : BitVec 6) : Statement (.sleuA y x b a d) := by
  intro _ _ rest
  rw [show encode (.sleuA y x b a d) = natBytes 4 (369 + y.toNat * 1073741824 + x.toNat * 268435456 + b.toNat * 4194304 + a.toNat * 65536 + d.toNat * 1024) from rfl]
  generalize hw : 369 + y.toNat * 1073741824 + x.toNat * 268435456 + b.toNat * 4194304 + a.toNat * 65536 + d.toNat * 1024 = wd
  obtain ⟨hlt, hodd, h2, h1, e0, e1, e2, e3, e4⟩ := shape3 369 wd y x b a d (by decide) (by omega)
  refine decode_word wd _ rest hlt hodd ?_
  simp only [Nat.reduceDiv, Nat.reduceMod] at h1 h2
  simp only [decode32, h1, decodeA, h2, e0, e1, e2, e3, e4]
theorem sleuI (i : BitVec 10) (a : BitVec 6) (d : BitVec 6) : Statement (.sleuI i a d) := by
  intro _ _ rest
  rw [show encode (.sleuI i a d) = natBytes 4 (373 + i.toNat * 4194304 + a.toNat * 65536 + d.toNat * 1024) from rfl]
  generalize hw : 373 + i.toNat * 4194304 + a.toNat * 65536 + d.toNat * 1024 = wd
  obtain ⟨hlt, hodd, h2, h1, e0, e1, e2⟩ := shape4 373 wd i a d (by decide) (by omega)
  refine decode_word wd _ rest hlt hodd ?_
  simp only [Nat.reduceDiv, Nat.reduceMod] at h1 h2
  simp only [decode32, h1, decodeI, h2, e0, e1, e2]
theorem selt (y : BitVec 2) (x : BitVec 2) (b : BitVec 6) (a : BitVec 6) (d : BitVec 6) : Statement (.selt y x b a d) := by
  intro _ _ rest
  rw [show encode (.selt y x b a d) = natBytes 4 (385 + y.toNat * 1073741824 + x.toNat * 268435456 + b.toNat * 4194304 + a.toNat * 65536 + d.toNat * 1024) from rfl]
  generalize hw : 385 + y.toNat * 1073741824 + x.toNat * 268435456 + b.toNat * 4194304 + a.toNat * 65536 + d.toNat * 1024 = wd
  obtain ⟨hlt, hodd, h2, h1, e0, e1, e2, e3, e4⟩ := shape3 385 wd y x b a d (by decide) (by omega)
  refine decode_word wd _ rest hlt hodd ?_
  simp only [Nat.reduceDiv, Nat.reduceMod] at h1 h2
  simp only [decode32, h1, decodeA, h2, e0, e1, e2, e3, e4]
theorem self (y : BitVec 2) (x : BitVec 2) (b : BitVec 6) (a : BitVec 6) (d : BitVec 6) : Statement (.self y x b a d) := by
  intro _ _ rest
  rw [show encode (.self y x b a d) = natBytes 4 (401 + y.toNat * 1073741824 + x.toNat * 268435456 + b.toNat * 4194304 + a.toNat * 65536 + d.toNat * 1024) from rfl]
  generalize hw : 401 + y.toNat * 1073741824 + x.toNat * 268435456 + b.toNat * 4194304 + a.toNat * 65536 + d.toNat * 1024 = wd
  obtain ⟨hlt, hodd, h2, h1, e0, e1, e2, e3, e4⟩ := shape3 401 wd y x b a d (by decide) (by omega)
  refine decode_word wd _ rest hlt hodd ?_
  simp only [Nat.reduceDiv, Nat.reduceMod] at h1 h2
  simp only [decode32, h1, decodeA, h2, e0, e1, e2, e3, e4]
theorem popc (x : BitVec 2) (a : BitVec 6) (d : BitVec 6) : Statement (.popc x a d) := by
  intro _ _ rest
  rw [show encode (.popc x a d) = natBytes 4 (260047265 + x.toNat * 268435456 + a.toNat * 65536 + d.toNat * 1024) from rfl]
  generalize hw : 260047265 + x.toNat * 268435456 + a.toNat * 65536 + d.toNat * 1024 = wd
  obtain ⟨hlt, hodd, h2, h1, h3, e0, e1, e2⟩ := shape0 417 wd x a d (by decide) (by omega)
  refine decode_word wd _ rest hlt hodd ?_
  simp only [Nat.reduceDiv, Nat.reduceMod] at h1 h2
  simp only [decode32, h1, decodeA, h2, fixedOr, h3, if_true, e0, e1, e2]
theorem clz (x : BitVec 2) (a : BitVec 6) (d : BitVec 6) : Statement (.clz x a d) := by
  intro _ _ rest
  rw [show encode (.clz x a d) = natBytes 4 (260047281 + x.toNat * 268435456 + a.toNat * 65536 + d.toNat * 1024) from rfl]
  generalize hw : 260047281 + x.toNat * 268435456 + a.toNat * 65536 + d.toNat * 1024 = wd
  obtain ⟨hlt, hodd, h2, h1, h3, e0, e1, e2⟩ := shape0 433 wd x a d (by decide) (by omega)
  refine decode_word wd _ rest hlt hodd ?_
  simp only [Nat.reduceDiv, Nat.reduceMod] at h1 h2
  simp only [decode32, h1, decodeA, h2, fixedOr, h3, if_true, e0, e1, e2]
theorem brevA (x : BitVec 2) (a : BitVec 6) (d : BitVec 6) : Statement (.brevA x a d) := by
  intro _ _ rest
  rw [show encode (.brevA x a d) = natBytes 4 (260047297 + x.toNat * 268435456 + a.toNat * 65536 + d.toNat * 1024) from rfl]
  generalize hw : 260047297 + x.toNat * 268435456 + a.toNat * 65536 + d.toNat * 1024 = wd
  obtain ⟨hlt, hodd, h2, h1, h3, e0, e1, e2⟩ := shape0 449 wd x a d (by decide) (by omega)
  refine decode_word wd _ rest hlt hodd ?_
  simp only [Nat.reduceDiv, Nat.reduceMod] at h1 h2
  simp only [decode32, h1, decodeA, h2, fixedOr, h3, if_true, e0, e1, e2]
theorem add64A (y : BitVec 2) (x : BitVec 2) (b : BitVec 6) (a : BitVec 6) (d : BitVec 6) : Statement (.add64A y x b a d) := by
  intro _ _ rest
  rw [show encode (.add64A y x b a d) = natBytes 4 (465 + y.toNat * 1073741824 + x.toNat * 268435456 + b.toNat * 4194304 + a.toNat * 65536 + d.toNat * 1024) from rfl]
  generalize hw : 465 + y.toNat * 1073741824 + x.toNat * 268435456 + b.toNat * 4194304 + a.toNat * 65536 + d.toNat * 1024 = wd
  obtain ⟨hlt, hodd, h2, h1, e0, e1, e2, e3, e4⟩ := shape3 465 wd y x b a d (by decide) (by omega)
  refine decode_word wd _ rest hlt hodd ?_
  simp only [Nat.reduceDiv, Nat.reduceMod] at h1 h2
  simp only [decode32, h1, decodeA, h2, e0, e1, e2, e3, e4]
theorem add64I (i : BitVec 10) (a : BitVec 6) (d : BitVec 6) : Statement (.add64I i a d) := by
  intro _ _ rest
  rw [show encode (.add64I i a d) = natBytes 4 (469 + i.toNat * 4194304 + a.toNat * 65536 + d.toNat * 1024) from rfl]
  generalize hw : 469 + i.toNat * 4194304 + a.toNat * 65536 + d.toNat * 1024 = wd
  obtain ⟨hlt, hodd, h2, h1, e0, e1, e2⟩ := shape4 469 wd i a d (by decide) (by omega)
  refine decode_word wd _ rest hlt hodd ?_
  simp only [Nat.reduceDiv, Nat.reduceMod] at h1 h2
  simp only [decode32, h1, decodeI, h2, e0, e1, e2]
theorem madw (y : BitVec 2) (x : BitVec 2) (b : BitVec 6) (a : BitVec 6) (d : BitVec 6) : Statement (.madw y x b a d) := by
  intro _ _ rest
  rw [show encode (.madw y x b a d) = natBytes 4 (481 + y.toNat * 1073741824 + x.toNat * 268435456 + b.toNat * 4194304 + a.toNat * 65536 + d.toNat * 1024) from rfl]
  generalize hw : 481 + y.toNat * 1073741824 + x.toNat * 268435456 + b.toNat * 4194304 + a.toNat * 65536 + d.toNat * 1024 = wd
  obtain ⟨hlt, hodd, h2, h1, e0, e1, e2, e3, e4⟩ := shape3 481 wd y x b a d (by decide) (by omega)
  refine decode_word wd _ rest hlt hodd ?_
  simp only [Nat.reduceDiv, Nat.reduceMod] at h1 h2
  simp only [decode32, h1, decodeA, h2, e0, e1, e2, e3, e4]
theorem faddA (y : BitVec 2) (x : BitVec 2) (b : BitVec 6) (a : BitVec 6) (d : BitVec 6) : Statement (.faddA y x b a d) := by
  intro _ _ rest
  rw [show encode (.faddA y x b a d) = natBytes 4 (497 + y.toNat * 1073741824 + x.toNat * 268435456 + b.toNat * 4194304 + a.toNat * 65536 + d.toNat * 1024) from rfl]
  generalize hw : 497 + y.toNat * 1073741824 + x.toNat * 268435456 + b.toNat * 4194304 + a.toNat * 65536 + d.toNat * 1024 = wd
  obtain ⟨hlt, hodd, h2, h1, e0, e1, e2, e3, e4⟩ := shape3 497 wd y x b a d (by decide) (by omega)
  refine decode_word wd _ rest hlt hodd ?_
  simp only [Nat.reduceDiv, Nat.reduceMod] at h1 h2
  simp only [decode32, h1, decodeA, h2, e0, e1, e2, e3, e4]
theorem faddX (p : BitVec 6) (t : BitVec 4) (a : BitVec 6) (d : BitVec 6) : Statement (.faddX p t a d) := by
  intro _ _ rest
  rw [show encode (.faddX p t a d) = natBytes 4 (499 + p.toNat * 67108864 + t.toNat * 4194304 + a.toNat * 65536 + d.toNat * 1024) from rfl]
  generalize hw : 499 + p.toNat * 67108864 + t.toNat * 4194304 + a.toNat * 65536 + d.toNat * 1024 = wd
  obtain ⟨hlt, hodd, h2, h1, e0, e1, e2, e3⟩ := shape1 499 wd p t a d (by decide) (by omega)
  refine decode_word wd _ rest hlt hodd ?_
  simp only [Nat.reduceDiv, Nat.reduceMod] at h1 h2
  simp only [decode32, h1, decodeX, h2, e0, e1, e2, e3]
theorem fsubA (y : BitVec 2) (x : BitVec 2) (b : BitVec 6) (a : BitVec 6) (d : BitVec 6) : Statement (.fsubA y x b a d) := by
  intro _ _ rest
  rw [show encode (.fsubA y x b a d) = natBytes 4 (513 + y.toNat * 1073741824 + x.toNat * 268435456 + b.toNat * 4194304 + a.toNat * 65536 + d.toNat * 1024) from rfl]
  generalize hw : 513 + y.toNat * 1073741824 + x.toNat * 268435456 + b.toNat * 4194304 + a.toNat * 65536 + d.toNat * 1024 = wd
  obtain ⟨hlt, hodd, h2, h1, e0, e1, e2, e3, e4⟩ := shape3 513 wd y x b a d (by decide) (by omega)
  refine decode_word wd _ rest hlt hodd ?_
  simp only [Nat.reduceDiv, Nat.reduceMod] at h1 h2
  simp only [decode32, h1, decodeA, h2, e0, e1, e2, e3, e4]
theorem fsubX (p : BitVec 6) (t : BitVec 4) (a : BitVec 6) (d : BitVec 6) : Statement (.fsubX p t a d) := by
  intro _ _ rest
  rw [show encode (.fsubX p t a d) = natBytes 4 (515 + p.toNat * 67108864 + t.toNat * 4194304 + a.toNat * 65536 + d.toNat * 1024) from rfl]
  generalize hw : 515 + p.toNat * 67108864 + t.toNat * 4194304 + a.toNat * 65536 + d.toNat * 1024 = wd
  obtain ⟨hlt, hodd, h2, h1, e0, e1, e2, e3⟩ := shape1 515 wd p t a d (by decide) (by omega)
  refine decode_word wd _ rest hlt hodd ?_
  simp only [Nat.reduceDiv, Nat.reduceMod] at h1 h2
  simp only [decode32, h1, decodeX, h2, e0, e1, e2, e3]
theorem fmulA (y : BitVec 2) (x : BitVec 2) (b : BitVec 6) (a : BitVec 6) (d : BitVec 6) : Statement (.fmulA y x b a d) := by
  intro _ _ rest
  rw [show encode (.fmulA y x b a d) = natBytes 4 (529 + y.toNat * 1073741824 + x.toNat * 268435456 + b.toNat * 4194304 + a.toNat * 65536 + d.toNat * 1024) from rfl]
  generalize hw : 529 + y.toNat * 1073741824 + x.toNat * 268435456 + b.toNat * 4194304 + a.toNat * 65536 + d.toNat * 1024 = wd
  obtain ⟨hlt, hodd, h2, h1, e0, e1, e2, e3, e4⟩ := shape3 529 wd y x b a d (by decide) (by omega)
  refine decode_word wd _ rest hlt hodd ?_
  simp only [Nat.reduceDiv, Nat.reduceMod] at h1 h2
  simp only [decode32, h1, decodeA, h2, e0, e1, e2, e3, e4]
theorem fmulX (p : BitVec 6) (t : BitVec 4) (a : BitVec 6) (d : BitVec 6) : Statement (.fmulX p t a d) := by
  intro _ _ rest
  rw [show encode (.fmulX p t a d) = natBytes 4 (531 + p.toNat * 67108864 + t.toNat * 4194304 + a.toNat * 65536 + d.toNat * 1024) from rfl]
  generalize hw : 531 + p.toNat * 67108864 + t.toNat * 4194304 + a.toNat * 65536 + d.toNat * 1024 = wd
  obtain ⟨hlt, hodd, h2, h1, e0, e1, e2, e3⟩ := shape1 531 wd p t a d (by decide) (by omega)
  refine decode_word wd _ rest hlt hodd ?_
  simp only [Nat.reduceDiv, Nat.reduceMod] at h1 h2
  simp only [decode32, h1, decodeX, h2, e0, e1, e2, e3]
theorem fmaA (y : BitVec 2) (x : BitVec 2) (b : BitVec 6) (a : BitVec 6) (d : BitVec 6) : Statement (.fmaA y x b a d) := by
  intro _ _ rest
  rw [show encode (.fmaA y x b a d) = natBytes 4 (545 + y.toNat * 1073741824 + x.toNat * 268435456 + b.toNat * 4194304 + a.toNat * 65536 + d.toNat * 1024) from rfl]
  generalize hw : 545 + y.toNat * 1073741824 + x.toNat * 268435456 + b.toNat * 4194304 + a.toNat * 65536 + d.toNat * 1024 = wd
  obtain ⟨hlt, hodd, h2, h1, e0, e1, e2, e3, e4⟩ := shape3 545 wd y x b a d (by decide) (by omega)
  refine decode_word wd _ rest hlt hodd ?_
  simp only [Nat.reduceDiv, Nat.reduceMod] at h1 h2
  simp only [decode32, h1, decodeA, h2, e0, e1, e2, e3, e4]
theorem fmaX (p : BitVec 6) (t : BitVec 4) (a : BitVec 6) (d : BitVec 6) : Statement (.fmaX p t a d) := by
  intro _ _ rest
  rw [show encode (.fmaX p t a d) = natBytes 4 (547 + p.toNat * 67108864 + t.toNat * 4194304 + a.toNat * 65536 + d.toNat * 1024) from rfl]
  generalize hw : 547 + p.toNat * 67108864 + t.toNat * 4194304 + a.toNat * 65536 + d.toNat * 1024 = wd
  obtain ⟨hlt, hodd, h2, h1, e0, e1, e2, e3⟩ := shape1 547 wd p t a d (by decide) (by omega)
  refine decode_word wd _ rest hlt hodd ?_
  simp only [Nat.reduceDiv, Nat.reduceMod] at h1 h2
  simp only [decode32, h1, decodeX, h2, e0, e1, e2, e3]
theorem fminA (y : BitVec 2) (x : BitVec 2) (b : BitVec 6) (a : BitVec 6) (d : BitVec 6) : Statement (.fminA y x b a d) := by
  intro _ _ rest
  rw [show encode (.fminA y x b a d) = natBytes 4 (561 + y.toNat * 1073741824 + x.toNat * 268435456 + b.toNat * 4194304 + a.toNat * 65536 + d.toNat * 1024) from rfl]
  generalize hw : 561 + y.toNat * 1073741824 + x.toNat * 268435456 + b.toNat * 4194304 + a.toNat * 65536 + d.toNat * 1024 = wd
  obtain ⟨hlt, hodd, h2, h1, e0, e1, e2, e3, e4⟩ := shape3 561 wd y x b a d (by decide) (by omega)
  refine decode_word wd _ rest hlt hodd ?_
  simp only [Nat.reduceDiv, Nat.reduceMod] at h1 h2
  simp only [decode32, h1, decodeA, h2, e0, e1, e2, e3, e4]
theorem fminX (p : BitVec 6) (t : BitVec 4) (a : BitVec 6) (d : BitVec 6) : Statement (.fminX p t a d) := by
  intro _ _ rest
  rw [show encode (.fminX p t a d) = natBytes 4 (563 + p.toNat * 67108864 + t.toNat * 4194304 + a.toNat * 65536 + d.toNat * 1024) from rfl]
  generalize hw : 563 + p.toNat * 67108864 + t.toNat * 4194304 + a.toNat * 65536 + d.toNat * 1024 = wd
  obtain ⟨hlt, hodd, h2, h1, e0, e1, e2, e3⟩ := shape1 563 wd p t a d (by decide) (by omega)
  refine decode_word wd _ rest hlt hodd ?_
  simp only [Nat.reduceDiv, Nat.reduceMod] at h1 h2
  simp only [decode32, h1, decodeX, h2, e0, e1, e2, e3]
theorem fmaxA (y : BitVec 2) (x : BitVec 2) (b : BitVec 6) (a : BitVec 6) (d : BitVec 6) : Statement (.fmaxA y x b a d) := by
  intro _ _ rest
  rw [show encode (.fmaxA y x b a d) = natBytes 4 (577 + y.toNat * 1073741824 + x.toNat * 268435456 + b.toNat * 4194304 + a.toNat * 65536 + d.toNat * 1024) from rfl]
  generalize hw : 577 + y.toNat * 1073741824 + x.toNat * 268435456 + b.toNat * 4194304 + a.toNat * 65536 + d.toNat * 1024 = wd
  obtain ⟨hlt, hodd, h2, h1, e0, e1, e2, e3, e4⟩ := shape3 577 wd y x b a d (by decide) (by omega)
  refine decode_word wd _ rest hlt hodd ?_
  simp only [Nat.reduceDiv, Nat.reduceMod] at h1 h2
  simp only [decode32, h1, decodeA, h2, e0, e1, e2, e3, e4]
theorem fmaxX (p : BitVec 6) (t : BitVec 4) (a : BitVec 6) (d : BitVec 6) : Statement (.fmaxX p t a d) := by
  intro _ _ rest
  rw [show encode (.fmaxX p t a d) = natBytes 4 (579 + p.toNat * 67108864 + t.toNat * 4194304 + a.toNat * 65536 + d.toNat * 1024) from rfl]
  generalize hw : 579 + p.toNat * 67108864 + t.toNat * 4194304 + a.toNat * 65536 + d.toNat * 1024 = wd
  obtain ⟨hlt, hodd, h2, h1, e0, e1, e2, e3⟩ := shape1 579 wd p t a d (by decide) (by omega)
  refine decode_word wd _ rest hlt hodd ?_
  simp only [Nat.reduceDiv, Nat.reduceMod] at h1 h2
  simp only [decode32, h1, decodeX, h2, e0, e1, e2, e3]
theorem fseq (y : BitVec 2) (x : BitVec 2) (b : BitVec 6) (a : BitVec 6) (d : BitVec 6) : Statement (.fseq y x b a d) := by
  intro _ _ rest
  rw [show encode (.fseq y x b a d) = natBytes 4 (593 + y.toNat * 1073741824 + x.toNat * 268435456 + b.toNat * 4194304 + a.toNat * 65536 + d.toNat * 1024) from rfl]
  generalize hw : 593 + y.toNat * 1073741824 + x.toNat * 268435456 + b.toNat * 4194304 + a.toNat * 65536 + d.toNat * 1024 = wd
  obtain ⟨hlt, hodd, h2, h1, e0, e1, e2, e3, e4⟩ := shape3 593 wd y x b a d (by decide) (by omega)
  refine decode_word wd _ rest hlt hodd ?_
  simp only [Nat.reduceDiv, Nat.reduceMod] at h1 h2
  simp only [decode32, h1, decodeA, h2, e0, e1, e2, e3, e4]
theorem fslt (y : BitVec 2) (x : BitVec 2) (b : BitVec 6) (a : BitVec 6) (d : BitVec 6) : Statement (.fslt y x b a d) := by
  intro _ _ rest
  rw [show encode (.fslt y x b a d) = natBytes 4 (609 + y.toNat * 1073741824 + x.toNat * 268435456 + b.toNat * 4194304 + a.toNat * 65536 + d.toNat * 1024) from rfl]
  generalize hw : 609 + y.toNat * 1073741824 + x.toNat * 268435456 + b.toNat * 4194304 + a.toNat * 65536 + d.toNat * 1024 = wd
  obtain ⟨hlt, hodd, h2, h1, e0, e1, e2, e3, e4⟩ := shape3 609 wd y x b a d (by decide) (by omega)
  refine decode_word wd _ rest hlt hodd ?_
  simp only [Nat.reduceDiv, Nat.reduceMod] at h1 h2
  simp only [decode32, h1, decodeA, h2, e0, e1, e2, e3, e4]
theorem fsle (y : BitVec 2) (x : BitVec 2) (b : BitVec 6) (a : BitVec 6) (d : BitVec 6) : Statement (.fsle y x b a d) := by
  intro _ _ rest
  rw [show encode (.fsle y x b a d) = natBytes 4 (625 + y.toNat * 1073741824 + x.toNat * 268435456 + b.toNat * 4194304 + a.toNat * 65536 + d.toNat * 1024) from rfl]
  generalize hw : 625 + y.toNat * 1073741824 + x.toNat * 268435456 + b.toNat * 4194304 + a.toNat * 65536 + d.toNat * 1024 = wd
  obtain ⟨hlt, hodd, h2, h1, e0, e1, e2, e3, e4⟩ := shape3 625 wd y x b a d (by decide) (by omega)
  refine decode_word wd _ rest hlt hodd ?_
  simp only [Nat.reduceDiv, Nat.reduceMod] at h1 h2
  simp only [decode32, h1, decodeA, h2, e0, e1, e2, e3, e4]
theorem fscaleA (y : BitVec 2) (x : BitVec 2) (b : BitVec 6) (a : BitVec 6) (d : BitVec 6) : Statement (.fscaleA y x b a d) := by
  intro _ _ rest
  rw [show encode (.fscaleA y x b a d) = natBytes 4 (641 + y.toNat * 1073741824 + x.toNat * 268435456 + b.toNat * 4194304 + a.toNat * 65536 + d.toNat * 1024) from rfl]
  generalize hw : 641 + y.toNat * 1073741824 + x.toNat * 268435456 + b.toNat * 4194304 + a.toNat * 65536 + d.toNat * 1024 = wd
  obtain ⟨hlt, hodd, h2, h1, e0, e1, e2, e3, e4⟩ := shape3 641 wd y x b a d (by decide) (by omega)
  refine decode_word wd _ rest hlt hodd ?_
  simp only [Nat.reduceDiv, Nat.reduceMod] at h1 h2
  simp only [decode32, h1, decodeA, h2, e0, e1, e2, e3, e4]
theorem fscaleI (i : BitVec 10) (a : BitVec 6) (d : BitVec 6) : Statement (.fscaleI i a d) := by
  intro _ _ rest
  rw [show encode (.fscaleI i a d) = natBytes 4 (645 + i.toNat * 4194304 + a.toNat * 65536 + d.toNat * 1024) from rfl]
  generalize hw : 645 + i.toNat * 4194304 + a.toNat * 65536 + d.toNat * 1024 = wd
  obtain ⟨hlt, hodd, h2, h1, e0, e1, e2⟩ := shape4 645 wd i a d (by decide) (by omega)
  refine decode_word wd _ rest hlt hodd ?_
  simp only [Nat.reduceDiv, Nat.reduceMod] at h1 h2
  simp only [decode32, h1, decodeI, h2, e0, e1, e2]
theorem badd2A (y : BitVec 2) (x : BitVec 2) (b : BitVec 6) (a : BitVec 6) (d : BitVec 6) : Statement (.badd2A y x b a d) := by
  intro _ _ rest
  rw [show encode (.badd2A y x b a d) = natBytes 4 (657 + y.toNat * 1073741824 + x.toNat * 268435456 + b.toNat * 4194304 + a.toNat * 65536 + d.toNat * 1024) from rfl]
  generalize hw : 657 + y.toNat * 1073741824 + x.toNat * 268435456 + b.toNat * 4194304 + a.toNat * 65536 + d.toNat * 1024 = wd
  obtain ⟨hlt, hodd, h2, h1, e0, e1, e2, e3, e4⟩ := shape3 657 wd y x b a d (by decide) (by omega)
  refine decode_word wd _ rest hlt hodd ?_
  simp only [Nat.reduceDiv, Nat.reduceMod] at h1 h2
  simp only [decode32, h1, decodeA, h2, e0, e1, e2, e3, e4]
theorem badd2X (p : BitVec 6) (t : BitVec 4) (a : BitVec 6) (d : BitVec 6) : Statement (.badd2X p t a d) := by
  intro _ _ rest
  rw [show encode (.badd2X p t a d) = natBytes 4 (659 + p.toNat * 67108864 + t.toNat * 4194304 + a.toNat * 65536 + d.toNat * 1024) from rfl]
  generalize hw : 659 + p.toNat * 67108864 + t.toNat * 4194304 + a.toNat * 65536 + d.toNat * 1024 = wd
  obtain ⟨hlt, hodd, h2, h1, e0, e1, e2, e3⟩ := shape1 659 wd p t a d (by decide) (by omega)
  refine decode_word wd _ rest hlt hodd ?_
  simp only [Nat.reduceDiv, Nat.reduceMod] at h1 h2
  simp only [decode32, h1, decodeX, h2, e0, e1, e2, e3]
theorem bmul2A (y : BitVec 2) (x : BitVec 2) (b : BitVec 6) (a : BitVec 6) (d : BitVec 6) : Statement (.bmul2A y x b a d) := by
  intro _ _ rest
  rw [show encode (.bmul2A y x b a d) = natBytes 4 (673 + y.toNat * 1073741824 + x.toNat * 268435456 + b.toNat * 4194304 + a.toNat * 65536 + d.toNat * 1024) from rfl]
  generalize hw : 673 + y.toNat * 1073741824 + x.toNat * 268435456 + b.toNat * 4194304 + a.toNat * 65536 + d.toNat * 1024 = wd
  obtain ⟨hlt, hodd, h2, h1, e0, e1, e2, e3, e4⟩ := shape3 673 wd y x b a d (by decide) (by omega)
  refine decode_word wd _ rest hlt hodd ?_
  simp only [Nat.reduceDiv, Nat.reduceMod] at h1 h2
  simp only [decode32, h1, decodeA, h2, e0, e1, e2, e3, e4]
theorem bmul2X (p : BitVec 6) (t : BitVec 4) (a : BitVec 6) (d : BitVec 6) : Statement (.bmul2X p t a d) := by
  intro _ _ rest
  rw [show encode (.bmul2X p t a d) = natBytes 4 (675 + p.toNat * 67108864 + t.toNat * 4194304 + a.toNat * 65536 + d.toNat * 1024) from rfl]
  generalize hw : 675 + p.toNat * 67108864 + t.toNat * 4194304 + a.toNat * 65536 + d.toNat * 1024 = wd
  obtain ⟨hlt, hodd, h2, h1, e0, e1, e2, e3⟩ := shape1 675 wd p t a d (by decide) (by omega)
  refine decode_word wd _ rest hlt hodd ?_
  simp only [Nat.reduceDiv, Nat.reduceMod] at h1 h2
  simp only [decode32, h1, decodeX, h2, e0, e1, e2, e3]
theorem bfma2A (y : BitVec 2) (x : BitVec 2) (b : BitVec 6) (a : BitVec 6) (d : BitVec 6) : Statement (.bfma2A y x b a d) := by
  intro _ _ rest
  rw [show encode (.bfma2A y x b a d) = natBytes 4 (689 + y.toNat * 1073741824 + x.toNat * 268435456 + b.toNat * 4194304 + a.toNat * 65536 + d.toNat * 1024) from rfl]
  generalize hw : 689 + y.toNat * 1073741824 + x.toNat * 268435456 + b.toNat * 4194304 + a.toNat * 65536 + d.toNat * 1024 = wd
  obtain ⟨hlt, hodd, h2, h1, e0, e1, e2, e3, e4⟩ := shape3 689 wd y x b a d (by decide) (by omega)
  refine decode_word wd _ rest hlt hodd ?_
  simp only [Nat.reduceDiv, Nat.reduceMod] at h1 h2
  simp only [decode32, h1, decodeA, h2, e0, e1, e2, e3, e4]
theorem bfma2X (p : BitVec 6) (t : BitVec 4) (a : BitVec 6) (d : BitVec 6) : Statement (.bfma2X p t a d) := by
  intro _ _ rest
  rw [show encode (.bfma2X p t a d) = natBytes 4 (691 + p.toNat * 67108864 + t.toNat * 4194304 + a.toNat * 65536 + d.toNat * 1024) from rfl]
  generalize hw : 691 + p.toNat * 67108864 + t.toNat * 4194304 + a.toNat * 65536 + d.toNat * 1024 = wd
  obtain ⟨hlt, hodd, h2, h1, e0, e1, e2, e3⟩ := shape1 691 wd p t a d (by decide) (by omega)
  refine decode_word wd _ rest hlt hodd ?_
  simp only [Nat.reduceDiv, Nat.reduceMod] at h1 h2
  simp only [decode32, h1, decodeX, h2, e0, e1, e2, e3]
theorem hfma2A (y : BitVec 2) (x : BitVec 2) (b : BitVec 6) (a : BitVec 6) (d : BitVec 6) : Statement (.hfma2A y x b a d) := by
  intro _ _ rest
  rw [show encode (.hfma2A y x b a d) = natBytes 4 (705 + y.toNat * 1073741824 + x.toNat * 268435456 + b.toNat * 4194304 + a.toNat * 65536 + d.toNat * 1024) from rfl]
  generalize hw : 705 + y.toNat * 1073741824 + x.toNat * 268435456 + b.toNat * 4194304 + a.toNat * 65536 + d.toNat * 1024 = wd
  obtain ⟨hlt, hodd, h2, h1, e0, e1, e2, e3, e4⟩ := shape3 705 wd y x b a d (by decide) (by omega)
  refine decode_word wd _ rest hlt hodd ?_
  simp only [Nat.reduceDiv, Nat.reduceMod] at h1 h2
  simp only [decode32, h1, decodeA, h2, e0, e1, e2, e3, e4]
theorem hfma2X (p : BitVec 6) (t : BitVec 4) (a : BitVec 6) (d : BitVec 6) : Statement (.hfma2X p t a d) := by
  intro _ _ rest
  rw [show encode (.hfma2X p t a d) = natBytes 4 (707 + p.toNat * 67108864 + t.toNat * 4194304 + a.toNat * 65536 + d.toNat * 1024) from rfl]
  generalize hw : 707 + p.toNat * 67108864 + t.toNat * 4194304 + a.toNat * 65536 + d.toNat * 1024 = wd
  obtain ⟨hlt, hodd, h2, h1, e0, e1, e2, e3⟩ := shape1 707 wd p t a d (by decide) (by omega)
  refine decode_word wd _ rest hlt hodd ?_
  simp only [Nat.reduceDiv, Nat.reduceMod] at h1 h2
  simp only [decode32, h1, decodeX, h2, e0, e1, e2, e3]
theorem hadd2A (y : BitVec 2) (x : BitVec 2) (b : BitVec 6) (a : BitVec 6) (d : BitVec 6) : Statement (.hadd2A y x b a d) := by
  intro _ _ rest
  rw [show encode (.hadd2A y x b a d) = natBytes 4 (721 + y.toNat * 1073741824 + x.toNat * 268435456 + b.toNat * 4194304 + a.toNat * 65536 + d.toNat * 1024) from rfl]
  generalize hw : 721 + y.toNat * 1073741824 + x.toNat * 268435456 + b.toNat * 4194304 + a.toNat * 65536 + d.toNat * 1024 = wd
  obtain ⟨hlt, hodd, h2, h1, e0, e1, e2, e3, e4⟩ := shape3 721 wd y x b a d (by decide) (by omega)
  refine decode_word wd _ rest hlt hodd ?_
  simp only [Nat.reduceDiv, Nat.reduceMod] at h1 h2
  simp only [decode32, h1, decodeA, h2, e0, e1, e2, e3, e4]
theorem hadd2X (p : BitVec 6) (t : BitVec 4) (a : BitVec 6) (d : BitVec 6) : Statement (.hadd2X p t a d) := by
  intro _ _ rest
  rw [show encode (.hadd2X p t a d) = natBytes 4 (723 + p.toNat * 67108864 + t.toNat * 4194304 + a.toNat * 65536 + d.toNat * 1024) from rfl]
  generalize hw : 723 + p.toNat * 67108864 + t.toNat * 4194304 + a.toNat * 65536 + d.toNat * 1024 = wd
  obtain ⟨hlt, hodd, h2, h1, e0, e1, e2, e3⟩ := shape1 723 wd p t a d (by decide) (by omega)
  refine decode_word wd _ rest hlt hodd ?_
  simp only [Nat.reduceDiv, Nat.reduceMod] at h1 h2
  simp only [decode32, h1, decodeX, h2, e0, e1, e2, e3]
theorem iadd2sA (y : BitVec 2) (x : BitVec 2) (b : BitVec 6) (a : BitVec 6) (d : BitVec 6) : Statement (.iadd2sA y x b a d) := by
  intro _ _ rest
  rw [show encode (.iadd2sA y x b a d) = natBytes 4 (737 + y.toNat * 1073741824 + x.toNat * 268435456 + b.toNat * 4194304 + a.toNat * 65536 + d.toNat * 1024) from rfl]
  generalize hw : 737 + y.toNat * 1073741824 + x.toNat * 268435456 + b.toNat * 4194304 + a.toNat * 65536 + d.toNat * 1024 = wd
  obtain ⟨hlt, hodd, h2, h1, e0, e1, e2, e3, e4⟩ := shape3 737 wd y x b a d (by decide) (by omega)
  refine decode_word wd _ rest hlt hodd ?_
  simp only [Nat.reduceDiv, Nat.reduceMod] at h1 h2
  simp only [decode32, h1, decodeA, h2, e0, e1, e2, e3, e4]
theorem iadd2sX (p : BitVec 6) (t : BitVec 4) (a : BitVec 6) (d : BitVec 6) : Statement (.iadd2sX p t a d) := by
  intro _ _ rest
  rw [show encode (.iadd2sX p t a d) = natBytes 4 (739 + p.toNat * 67108864 + t.toNat * 4194304 + a.toNat * 65536 + d.toNat * 1024) from rfl]
  generalize hw : 739 + p.toNat * 67108864 + t.toNat * 4194304 + a.toNat * 65536 + d.toNat * 1024 = wd
  obtain ⟨hlt, hodd, h2, h1, e0, e1, e2, e3⟩ := shape1 739 wd p t a d (by decide) (by omega)
  refine decode_word wd _ rest hlt hodd ?_
  simp only [Nat.reduceDiv, Nat.reduceMod] at h1 h2
  simp only [decode32, h1, decodeX, h2, e0, e1, e2, e3]
theorem isub2sA (y : BitVec 2) (x : BitVec 2) (b : BitVec 6) (a : BitVec 6) (d : BitVec 6) : Statement (.isub2sA y x b a d) := by
  intro _ _ rest
  rw [show encode (.isub2sA y x b a d) = natBytes 4 (753 + y.toNat * 1073741824 + x.toNat * 268435456 + b.toNat * 4194304 + a.toNat * 65536 + d.toNat * 1024) from rfl]
  generalize hw : 753 + y.toNat * 1073741824 + x.toNat * 268435456 + b.toNat * 4194304 + a.toNat * 65536 + d.toNat * 1024 = wd
  obtain ⟨hlt, hodd, h2, h1, e0, e1, e2, e3, e4⟩ := shape3 753 wd y x b a d (by decide) (by omega)
  refine decode_word wd _ rest hlt hodd ?_
  simp only [Nat.reduceDiv, Nat.reduceMod] at h1 h2
  simp only [decode32, h1, decodeA, h2, e0, e1, e2, e3, e4]
theorem isub2sX (p : BitVec 6) (t : BitVec 4) (a : BitVec 6) (d : BitVec 6) : Statement (.isub2sX p t a d) := by
  intro _ _ rest
  rw [show encode (.isub2sX p t a d) = natBytes 4 (755 + p.toNat * 67108864 + t.toNat * 4194304 + a.toNat * 65536 + d.toNat * 1024) from rfl]
  generalize hw : 755 + p.toNat * 67108864 + t.toNat * 4194304 + a.toNat * 65536 + d.toNat * 1024 = wd
  obtain ⟨hlt, hodd, h2, h1, e0, e1, e2, e3⟩ := shape1 755 wd p t a d (by decide) (by omega)
  refine decode_word wd _ rest hlt hodd ?_
  simp only [Nat.reduceDiv, Nat.reduceMod] at h1 h2
  simp only [decode32, h1, decodeX, h2, e0, e1, e2, e3]
theorem idot2A (y : BitVec 2) (x : BitVec 2) (b : BitVec 6) (a : BitVec 6) (d : BitVec 6) : Statement (.idot2A y x b a d) := by
  intro _ _ rest
  rw [show encode (.idot2A y x b a d) = natBytes 4 (769 + y.toNat * 1073741824 + x.toNat * 268435456 + b.toNat * 4194304 + a.toNat * 65536 + d.toNat * 1024) from rfl]
  generalize hw : 769 + y.toNat * 1073741824 + x.toNat * 268435456 + b.toNat * 4194304 + a.toNat * 65536 + d.toNat * 1024 = wd
  obtain ⟨hlt, hodd, h2, h1, e0, e1, e2, e3, e4⟩ := shape3 769 wd y x b a d (by decide) (by omega)
  refine decode_word wd _ rest hlt hodd ?_
  simp only [Nat.reduceDiv, Nat.reduceMod] at h1 h2
  simp only [decode32, h1, decodeA, h2, e0, e1, e2, e3, e4]
theorem idot2X (p : BitVec 6) (t : BitVec 4) (a : BitVec 6) (d : BitVec 6) : Statement (.idot2X p t a d) := by
  intro _ _ rest
  rw [show encode (.idot2X p t a d) = natBytes 4 (771 + p.toNat * 67108864 + t.toNat * 4194304 + a.toNat * 65536 + d.toNat * 1024) from rfl]
  generalize hw : 771 + p.toNat * 67108864 + t.toNat * 4194304 + a.toNat * 65536 + d.toNat * 1024 = wd
  obtain ⟨hlt, hodd, h2, h1, e0, e1, e2, e3⟩ := shape1 771 wd p t a d (by decide) (by omega)
  refine decode_word wd _ rest hlt hodd ?_
  simp only [Nat.reduceDiv, Nat.reduceMod] at h1 h2
  simp only [decode32, h1, decodeX, h2, e0, e1, e2, e3]
theorem ishr2rA (y : BitVec 2) (x : BitVec 2) (b : BitVec 6) (a : BitVec 6) (d : BitVec 6) : Statement (.ishr2rA y x b a d) := by
  intro _ _ rest
  rw [show encode (.ishr2rA y x b a d) = natBytes 4 (785 + y.toNat * 1073741824 + x.toNat * 268435456 + b.toNat * 4194304 + a.toNat * 65536 + d.toNat * 1024) from rfl]
  generalize hw : 785 + y.toNat * 1073741824 + x.toNat * 268435456 + b.toNat * 4194304 + a.toNat * 65536 + d.toNat * 1024 = wd
  obtain ⟨hlt, hodd, h2, h1, e0, e1, e2, e3, e4⟩ := shape3 785 wd y x b a d (by decide) (by omega)
  refine decode_word wd _ rest hlt hodd ?_
  simp only [Nat.reduceDiv, Nat.reduceMod] at h1 h2
  simp only [decode32, h1, decodeA, h2, e0, e1, e2, e3, e4]
theorem ishr2rI (i : BitVec 5) (a : BitVec 6) (d : BitVec 6) : Statement (.ishr2rI i a d) := by
  intro _ _ rest
  rw [show encode (.ishr2rI i a d) = natBytes 4 (789 + i.toNat * 4194304 + a.toNat * 65536 + d.toNat * 1024) from rfl]
  generalize hw : 789 + i.toNat * 4194304 + a.toNat * 65536 + d.toNat * 1024 = wd
  obtain ⟨hlt, hodd, h2, h1, h3, e0, e1, e2⟩ := shape5 789 wd i a d (by decide) (by omega)
  refine decode_word wd _ rest hlt hodd ?_
  simp only [Nat.reduceDiv, Nat.reduceMod] at h1 h2
  simp only [decode32, h1, decodeI, h2, fixedOr, h3, if_true, e0, e1, e2]
theorem ipack2s (y : BitVec 2) (x : BitVec 2) (b : BitVec 6) (a : BitVec 6) (d : BitVec 6) : Statement (.ipack2s y x b a d) := by
  intro _ _ rest
  rw [show encode (.ipack2s y x b a d) = natBytes 4 (801 + y.toNat * 1073741824 + x.toNat * 268435456 + b.toNat * 4194304 + a.toNat * 65536 + d.toNat * 1024) from rfl]
  generalize hw : 801 + y.toNat * 1073741824 + x.toNat * 268435456 + b.toNat * 4194304 + a.toNat * 65536 + d.toNat * 1024 = wd
  obtain ⟨hlt, hodd, h2, h1, e0, e1, e2, e3, e4⟩ := shape3 801 wd y x b a d (by decide) (by omega)
  refine decode_word wd _ rest hlt hodd ?_
  simp only [Nat.reduceDiv, Nat.reduceMod] at h1 h2
  simp only [decode32, h1, decodeA, h2, e0, e1, e2, e3, e4]
theorem idot4A (y : BitVec 2) (x : BitVec 2) (b : BitVec 6) (a : BitVec 6) (d : BitVec 6) : Statement (.idot4A y x b a d) := by
  intro _ _ rest
  rw [show encode (.idot4A y x b a d) = natBytes 4 (817 + y.toNat * 1073741824 + x.toNat * 268435456 + b.toNat * 4194304 + a.toNat * 65536 + d.toNat * 1024) from rfl]
  generalize hw : 817 + y.toNat * 1073741824 + x.toNat * 268435456 + b.toNat * 4194304 + a.toNat * 65536 + d.toNat * 1024 = wd
  obtain ⟨hlt, hodd, h2, h1, e0, e1, e2, e3, e4⟩ := shape3 817 wd y x b a d (by decide) (by omega)
  refine decode_word wd _ rest hlt hodd ?_
  simp only [Nat.reduceDiv, Nat.reduceMod] at h1 h2
  simp only [decode32, h1, decodeA, h2, e0, e1, e2, e3, e4]
theorem idot4X (p : BitVec 6) (t : BitVec 4) (a : BitVec 6) (d : BitVec 6) : Statement (.idot4X p t a d) := by
  intro _ _ rest
  rw [show encode (.idot4X p t a d) = natBytes 4 (819 + p.toNat * 67108864 + t.toNat * 4194304 + a.toNat * 65536 + d.toNat * 1024) from rfl]
  generalize hw : 819 + p.toNat * 67108864 + t.toNat * 4194304 + a.toNat * 65536 + d.toNat * 1024 = wd
  obtain ⟨hlt, hodd, h2, h1, e0, e1, e2, e3⟩ := shape1 819 wd p t a d (by decide) (by omega)
  refine decode_word wd _ rest hlt hodd ?_
  simp only [Nat.reduceDiv, Nat.reduceMod] at h1 h2
  simp only [decode32, h1, decodeX, h2, e0, e1, e2, e3]
theorem cvt (m : BitVec 2) (t : BitVec 4) (s : BitVec 4) (a : BitVec 6) (d : BitVec 6) : Statement (.cvt m t s a d) := by
  intro _ _ rest
  rw [show encode (.cvt m t s a d) = natBytes 4 (837 + m.toNat * 1073741824 + t.toNat * 67108864 + s.toNat * 4194304 + a.toNat * 65536 + d.toNat * 1024) from rfl]
  generalize hw : 837 + m.toNat * 1073741824 + t.toNat * 67108864 + s.toNat * 4194304 + a.toNat * 65536 + d.toNat * 1024 = wd
  obtain ⟨hlt, hodd, h2, h1, e0, e1, e2, e3, e4⟩ := shape6 837 wd m t s a d (by decide) (by omega)
  refine decode_word wd _ rest hlt hodd ?_
  simp only [Nat.reduceDiv, Nat.reduceMod] at h1 h2
  simp only [decode32, h1, decodeI, h2, e0, e1, e2, e3, e4]
theorem sfu (f : BitVec 2) (n : BitVec 4) (a : BitVec 6) (d : BitVec 6) : Statement (.sfu f n a d) := by
  intro _ _ rest
  rw [show encode (.sfu f n a d) = natBytes 4 (853 + f.toNat * 1073741824 + n.toNat * 4194304 + a.toNat * 65536 + d.toNat * 1024) from rfl]
  generalize hw : 853 + f.toNat * 1073741824 + n.toNat * 4194304 + a.toNat * 65536 + d.toNat * 1024 = wd
  obtain ⟨hlt, hodd, h2, h1, h3, e0, e1, e2, e3⟩ := shape7 853 wd f n a d (by decide) (by omega)
  refine decode_word wd _ rest hlt hodd ?_
  simp only [Nat.reduceDiv, Nat.reduceMod] at h1 h2
  simp only [decode32, h1, decodeI, h2, fixedOr, h3, if_true, e0, e1, e2, e3]
theorem redg (c : BitVec 4) (a : BitVec 6) (d : BitVec 6) : Statement (.redg c a d) := by
  intro _ _ rest
  rw [show encode (.redg c a d) = natBytes 4 (869 + c.toNat * 4194304 + a.toNat * 65536 + d.toNat * 1024) from rfl]
  generalize hw : 869 + c.toNat * 4194304 + a.toNat * 65536 + d.toNat * 1024 = wd
  obtain ⟨hlt, hodd, h2, h1, h3, e0, e1, e2⟩ := shape8 869 wd c a d (by decide) (by omega)
  refine decode_word wd _ rest hlt hodd ?_
  simp only [Nat.reduceDiv, Nat.reduceMod] at h1 h2
  simp only [decode32, h1, decodeI, h2, fixedOr, h3, if_true, e0, e1, e2]
theorem scang (c : BitVec 4) (a : BitVec 6) (d : BitVec 6) : Statement (.scang c a d) := by
  intro _ _ rest
  rw [show encode (.scang c a d) = natBytes 4 (885 + c.toNat * 4194304 + a.toNat * 65536 + d.toNat * 1024) from rfl]
  generalize hw : 885 + c.toNat * 4194304 + a.toNat * 65536 + d.toNat * 1024 = wd
  obtain ⟨hlt, hodd, h2, h1, h3, e0, e1, e2⟩ := shape8 885 wd c a d (by decide) (by omega)
  refine decode_word wd _ rest hlt hodd ?_
  simp only [Nat.reduceDiv, Nat.reduceMod] at h1 h2
  simp only [decode32, h1, decodeI, h2, fixedOr, h3, if_true, e0, e1, e2]
theorem smxacc (x : BitVec 2) (a : BitVec 6) (d : BitVec 6) : Statement (.smxacc x a d) := by
  intro _ _ rest
  rw [show encode (.smxacc x a d) = natBytes 4 (260047745 + x.toNat * 268435456 + a.toNat * 65536 + d.toNat * 1024) from rfl]
  generalize hw : 260047745 + x.toNat * 268435456 + a.toNat * 65536 + d.toNat * 1024 = wd
  obtain ⟨hlt, hodd, h2, h1, h3, e0, e1, e2⟩ := shape0 897 wd x a d (by decide) (by omega)
  refine decode_word wd _ rest hlt hodd ?_
  simp only [Nat.reduceDiv, Nat.reduceMod] at h1 h2
  simp only [decode32, h1, decodeA, h2, fixedOr, h3, if_true, e0, e1, e2]
theorem smxnorm (y : BitVec 2) (x : BitVec 2) (b : BitVec 6) (a : BitVec 6) (d : BitVec 6) : Statement (.smxnorm y x b a d) := by
  intro _ _ rest
  rw [show encode (.smxnorm y x b a d) = natBytes 4 (913 + y.toNat * 1073741824 + x.toNat * 268435456 + b.toNat * 4194304 + a.toNat * 65536 + d.toNat * 1024) from rfl]
  generalize hw : 913 + y.toNat * 1073741824 + x.toNat * 268435456 + b.toNat * 4194304 + a.toNat * 65536 + d.toNat * 1024 = wd
  obtain ⟨hlt, hodd, h2, h1, e0, e1, e2, e3, e4⟩ := shape3 913 wd y x b a d (by decide) (by omega)
  refine decode_word wd _ rest hlt hodd ?_
  simp only [Nat.reduceDiv, Nat.reduceMod] at h1 h2
  simp only [decode32, h1, decodeA, h2, e0, e1, e2, e3, e4]
theorem tbl (k : BitVec 2) (a : BitVec 6) (d : BitVec 6) : Statement (.tbl k a d) := by
  intro _ _ rest
  rw [show encode (.tbl k a d) = natBytes 4 (933 + k.toNat * 4194304 + a.toNat * 65536 + d.toNat * 1024) from rfl]
  generalize hw : 933 + k.toNat * 4194304 + a.toNat * 65536 + d.toNat * 1024 = wd
  obtain ⟨hlt, hodd, h2, h1, h3, e0, e1, e2⟩ := shape9 933 wd k a d (by decide) (by omega)
  refine decode_word wd _ rest hlt hodd ?_
  simp only [Nat.reduceDiv, Nat.reduceMod] at h1 h2
  simp only [decode32, h1, decodeI, h2, fixedOr, h3, if_true, e0, e1, e2]
theorem lget (y : BitVec 2) (x : BitVec 2) (b : BitVec 6) (a : BitVec 6) (d : BitVec 6) : Statement (.lget y x b a d) := by
  intro _ _ rest
  rw [show encode (.lget y x b a d) = natBytes 4 (945 + y.toNat * 1073741824 + x.toNat * 268435456 + b.toNat * 4194304 + a.toNat * 65536 + d.toNat * 1024) from rfl]
  generalize hw : 945 + y.toNat * 1073741824 + x.toNat * 268435456 + b.toNat * 4194304 + a.toNat * 65536 + d.toNat * 1024 = wd
  obtain ⟨hlt, hodd, h2, h1, e0, e1, e2, e3, e4⟩ := shape3 945 wd y x b a d (by decide) (by omega)
  refine decode_word wd _ rest hlt hodd ?_
  simp only [Nat.reduceDiv, Nat.reduceMod] at h1 h2
  simp only [decode32, h1, decodeA, h2, e0, e1, e2, e3, e4]
theorem rand (i : BitVec 10) (a : BitVec 6) (d : BitVec 6) : Statement (.rand i a d) := by
  intro _ _ rest
  rw [show encode (.rand i a d) = natBytes 4 (965 + i.toNat * 4194304 + a.toNat * 65536 + d.toNat * 1024) from rfl]
  generalize hw : 965 + i.toNat * 4194304 + a.toNat * 65536 + d.toNat * 1024 = wd
  obtain ⟨hlt, hodd, h2, h1, e0, e1, e2⟩ := shape4 965 wd i a d (by decide) (by omega)
  refine decode_word wd _ rest hlt hodd ?_
  simp only [Nat.reduceDiv, Nat.reduceMod] at h1 h2
  simp only [decode32, h1, decodeI, h2, e0, e1, e2]
theorem mov16 (l : BitVec 1) (s : BitVec 5) (d : BitVec 5) : Statement (.mov16 l s d) := by
  intro _ hwf rest
  rw [show encode (.mov16 l s d) = natBytes 2 (0 + l.toNat * 32768 + s.toNat * 1024 + d.toNat * 32) from rfl]
  generalize hw : 0 + l.toNat * 32768 + s.toNat * 1024 + d.toNat * 32 = wd
  obtain ⟨hlt, hodd, h2, e0, e1, e2⟩ := shape10 0 wd l s d (by decide) (by omega)
  have h0 : wd ≠ 0 := by
    intro h
    have e1 : l = 0 := BitVec.eq_of_toNat_eq (by simp; omega)
    have e2 : s = 0 := BitVec.eq_of_toNat_eq (by simp; omega)
    have e3 : d = 0 := BitVec.eq_of_toNat_eq (by simp; omega)
    simp [Instr.wf, e1, e2, e3] at hwf
  refine decode_half wd _ rest hlt hodd ?_
  simp only [Nat.reduceDiv, Nat.reduceMod] at h2
  simp only [decode16, h0, if_false, h2, e0, e1, e2]
theorem add16 (l : BitVec 1) (s : BitVec 5) (d : BitVec 5) : Statement (.add16 l s d) := by
  intro _ _ rest
  rw [show encode (.add16 l s d) = natBytes 2 (2 + l.toNat * 32768 + s.toNat * 1024 + d.toNat * 32) from rfl]
  generalize hw : 2 + l.toNat * 32768 + s.toNat * 1024 + d.toNat * 32 = wd
  obtain ⟨hlt, hodd, h2, e0, e1, e2⟩ := shape10 2 wd l s d (by decide) (by omega)
  have h0 : wd ≠ 0 := by omega
  refine decode_half wd _ rest hlt hodd ?_
  simp only [Nat.reduceDiv, Nat.reduceMod] at h2
  simp only [decode16, h0, if_false, h2, e0, e1, e2]
theorem sub16 (l : BitVec 1) (s : BitVec 5) (d : BitVec 5) : Statement (.sub16 l s d) := by
  intro _ _ rest
  rw [show encode (.sub16 l s d) = natBytes 2 (4 + l.toNat * 32768 + s.toNat * 1024 + d.toNat * 32) from rfl]
  generalize hw : 4 + l.toNat * 32768 + s.toNat * 1024 + d.toNat * 32 = wd
  obtain ⟨hlt, hodd, h2, e0, e1, e2⟩ := shape10 4 wd l s d (by decide) (by omega)
  have h0 : wd ≠ 0 := by omega
  refine decode_half wd _ rest hlt hodd ?_
  simp only [Nat.reduceDiv, Nat.reduceMod] at h2
  simp only [decode16, h0, if_false, h2, e0, e1, e2]
theorem and16 (l : BitVec 1) (s : BitVec 5) (d : BitVec 5) : Statement (.and16 l s d) := by
  intro _ _ rest
  rw [show encode (.and16 l s d) = natBytes 2 (6 + l.toNat * 32768 + s.toNat * 1024 + d.toNat * 32) from rfl]
  generalize hw : 6 + l.toNat * 32768 + s.toNat * 1024 + d.toNat * 32 = wd
  obtain ⟨hlt, hodd, h2, e0, e1, e2⟩ := shape10 6 wd l s d (by decide) (by omega)
  have h0 : wd ≠ 0 := by omega
  refine decode_half wd _ rest hlt hodd ?_
  simp only [Nat.reduceDiv, Nat.reduceMod] at h2
  simp only [decode16, h0, if_false, h2, e0, e1, e2]
theorem or16 (l : BitVec 1) (s : BitVec 5) (d : BitVec 5) : Statement (.or16 l s d) := by
  intro _ _ rest
  rw [show encode (.or16 l s d) = natBytes 2 (8 + l.toNat * 32768 + s.toNat * 1024 + d.toNat * 32) from rfl]
  generalize hw : 8 + l.toNat * 32768 + s.toNat * 1024 + d.toNat * 32 = wd
  obtain ⟨hlt, hodd, h2, e0, e1, e2⟩ := shape10 8 wd l s d (by decide) (by omega)
  have h0 : wd ≠ 0 := by omega
  refine decode_half wd _ rest hlt hodd ?_
  simp only [Nat.reduceDiv, Nat.reduceMod] at h2
  simp only [decode16, h0, if_false, h2, e0, e1, e2]
theorem xor16 (l : BitVec 1) (s : BitVec 5) (d : BitVec 5) : Statement (.xor16 l s d) := by
  intro _ _ rest
  rw [show encode (.xor16 l s d) = natBytes 2 (10 + l.toNat * 32768 + s.toNat * 1024 + d.toNat * 32) from rfl]
  generalize hw : 10 + l.toNat * 32768 + s.toNat * 1024 + d.toNat * 32 = wd
  obtain ⟨hlt, hodd, h2, e0, e1, e2⟩ := shape10 10 wd l s d (by decide) (by omega)
  have h0 : wd ≠ 0 := by omega
  refine decode_half wd _ rest hlt hodd ?_
  simp only [Nat.reduceDiv, Nat.reduceMod] at h2
  simp only [decode16, h0, if_false, h2, e0, e1, e2]
theorem shl16 (l : BitVec 1) (s : BitVec 5) (d : BitVec 5) : Statement (.shl16 l s d) := by
  intro _ _ rest
  rw [show encode (.shl16 l s d) = natBytes 2 (12 + l.toNat * 32768 + s.toNat * 1024 + d.toNat * 32) from rfl]
  generalize hw : 12 + l.toNat * 32768 + s.toNat * 1024 + d.toNat * 32 = wd
  obtain ⟨hlt, hodd, h2, e0, e1, e2⟩ := shape10 12 wd l s d (by decide) (by omega)
  have h0 : wd ≠ 0 := by omega
  refine decode_half wd _ rest hlt hodd ?_
  simp only [Nat.reduceDiv, Nat.reduceMod] at h2
  simp only [decode16, h0, if_false, h2, e0, e1, e2]
theorem shr16 (l : BitVec 1) (s : BitVec 5) (d : BitVec 5) : Statement (.shr16 l s d) := by
  intro _ _ rest
  rw [show encode (.shr16 l s d) = natBytes 2 (14 + l.toNat * 32768 + s.toNat * 1024 + d.toNat * 32) from rfl]
  generalize hw : 14 + l.toNat * 32768 + s.toNat * 1024 + d.toNat * 32 = wd
  obtain ⟨hlt, hodd, h2, e0, e1, e2⟩ := shape10 14 wd l s d (by decide) (by omega)
  have h0 : wd ≠ 0 := by omega
  refine decode_half wd _ rest hlt hodd ?_
  simp only [Nat.reduceDiv, Nat.reduceMod] at h2
  simp only [decode16, h0, if_false, h2, e0, e1, e2]
theorem sra16 (l : BitVec 1) (s : BitVec 5) (d : BitVec 5) : Statement (.sra16 l s d) := by
  intro _ _ rest
  rw [show encode (.sra16 l s d) = natBytes 2 (16 + l.toNat * 32768 + s.toNat * 1024 + d.toNat * 32) from rfl]
  generalize hw : 16 + l.toNat * 32768 + s.toNat * 1024 + d.toNat * 32 = wd
  obtain ⟨hlt, hodd, h2, e0, e1, e2⟩ := shape10 16 wd l s d (by decide) (by omega)
  have h0 : wd ≠ 0 := by omega
  refine decode_half wd _ rest hlt hodd ?_
  simp only [Nat.reduceDiv, Nat.reduceMod] at h2
  simp only [decode16, h0, if_false, h2, e0, e1, e2]
theorem mullo16 (l : BitVec 1) (s : BitVec 5) (d : BitVec 5) : Statement (.mullo16 l s d) := by
  intro _ _ rest
  rw [show encode (.mullo16 l s d) = natBytes 2 (18 + l.toNat * 32768 + s.toNat * 1024 + d.toNat * 32) from rfl]
  generalize hw : 18 + l.toNat * 32768 + s.toNat * 1024 + d.toNat * 32 = wd
  obtain ⟨hlt, hodd, h2, e0, e1, e2⟩ := shape10 18 wd l s d (by decide) (by omega)
  have h0 : wd ≠ 0 := by omega
  refine decode_half wd _ rest hlt hodd ?_
  simp only [Nat.reduceDiv, Nat.reduceMod] at h2
  simp only [decode16, h0, if_false, h2, e0, e1, e2]
theorem fadd16 (l : BitVec 1) (s : BitVec 5) (d : BitVec 5) : Statement (.fadd16 l s d) := by
  intro _ _ rest
  rw [show encode (.fadd16 l s d) = natBytes 2 (20 + l.toNat * 32768 + s.toNat * 1024 + d.toNat * 32) from rfl]
  generalize hw : 20 + l.toNat * 32768 + s.toNat * 1024 + d.toNat * 32 = wd
  obtain ⟨hlt, hodd, h2, e0, e1, e2⟩ := shape10 20 wd l s d (by decide) (by omega)
  have h0 : wd ≠ 0 := by omega
  refine decode_half wd _ rest hlt hodd ?_
  simp only [Nat.reduceDiv, Nat.reduceMod] at h2
  simp only [decode16, h0, if_false, h2, e0, e1, e2]
theorem fsub16 (l : BitVec 1) (s : BitVec 5) (d : BitVec 5) : Statement (.fsub16 l s d) := by
  intro _ _ rest
  rw [show encode (.fsub16 l s d) = natBytes 2 (22 + l.toNat * 32768 + s.toNat * 1024 + d.toNat * 32) from rfl]
  generalize hw : 22 + l.toNat * 32768 + s.toNat * 1024 + d.toNat * 32 = wd
  obtain ⟨hlt, hodd, h2, e0, e1, e2⟩ := shape10 22 wd l s d (by decide) (by omega)
  have h0 : wd ≠ 0 := by omega
  refine decode_half wd _ rest hlt hodd ?_
  simp only [Nat.reduceDiv, Nat.reduceMod] at h2
  simp only [decode16, h0, if_false, h2, e0, e1, e2]
theorem fmul16 (l : BitVec 1) (s : BitVec 5) (d : BitVec 5) : Statement (.fmul16 l s d) := by
  intro _ _ rest
  rw [show encode (.fmul16 l s d) = natBytes 2 (24 + l.toNat * 32768 + s.toNat * 1024 + d.toNat * 32) from rfl]
  generalize hw : 24 + l.toNat * 32768 + s.toNat * 1024 + d.toNat * 32 = wd
  obtain ⟨hlt, hodd, h2, e0, e1, e2⟩ := shape10 24 wd l s d (by decide) (by omega)
  have h0 : wd ≠ 0 := by omega
  refine decode_half wd _ rest hlt hodd ?_
  simp only [Nat.reduceDiv, Nat.reduceMod] at h2
  simp only [decode16, h0, if_false, h2, e0, e1, e2]
theorem fmax16 (l : BitVec 1) (s : BitVec 5) (d : BitVec 5) : Statement (.fmax16 l s d) := by
  intro _ _ rest
  rw [show encode (.fmax16 l s d) = natBytes 2 (26 + l.toNat * 32768 + s.toNat * 1024 + d.toNat * 32) from rfl]
  generalize hw : 26 + l.toNat * 32768 + s.toNat * 1024 + d.toNat * 32 = wd
  obtain ⟨hlt, hodd, h2, e0, e1, e2⟩ := shape10 26 wd l s d (by decide) (by omega)
  have h0 : wd ≠ 0 := by omega
  refine decode_half wd _ rest hlt hodd ?_
  simp only [Nat.reduceDiv, Nat.reduceMod] at h2
  simp only [decode16, h0, if_false, h2, e0, e1, e2]
theorem fmin16 (l : BitVec 1) (s : BitVec 5) (d : BitVec 5) : Statement (.fmin16 l s d) := by
  intro _ _ rest
  rw [show encode (.fmin16 l s d) = natBytes 2 (28 + l.toNat * 32768 + s.toNat * 1024 + d.toNat * 32) from rfl]
  generalize hw : 28 + l.toNat * 32768 + s.toNat * 1024 + d.toNat * 32 = wd
  obtain ⟨hlt, hodd, h2, e0, e1, e2⟩ := shape10 28 wd l s d (by decide) (by omega)
  have h0 : wd ≠ 0 := by omega
  refine decode_half wd _ rest hlt hodd ?_
  simp only [Nat.reduceDiv, Nat.reduceMod] at h2
  simp only [decode16, h0, if_false, h2, e0, e1, e2]
theorem movi16 (i : BitVec 6) (d : BitVec 5) : Statement (.movi16 i d) := by
  intro _ _ rest
  rw [show encode (.movi16 i d) = natBytes 2 (30 + i.toNat * 1024 + d.toNat * 32) from rfl]
  generalize hw : 30 + i.toNat * 1024 + d.toNat * 32 = wd
  obtain ⟨hlt, hodd, h2, e0, e1⟩ := shape11 30 wd i d (by decide) (by omega)
  have h0 : wd ≠ 0 := by omega
  refine decode_half wd _ rest hlt hodd ?_
  simp only [Nat.reduceDiv, Nat.reduceMod] at h2
  simp only [decode16, h0, if_false, h2, e0, e1]
theorem movi (h : BitVec 16) (d : BitVec 6) : Statement (.movi h d) := by
  intro _ _ rest
  rw [show encode (.movi h d) = natBytes 4 (15 + h.toNat * 65536 + d.toNat * 1024) from rfl]
  generalize hw : 15 + h.toNat * 65536 + d.toNat * 1024 = wd
  obtain ⟨hlt, hodd, h2, h1, e0, e1⟩ := shape12 15 wd h d (by decide) (by omega)
  refine decode_word wd _ rest hlt hodd ?_
  simp only [Nat.reduceDiv, Nat.reduceMod] at h1 h2
  simp only [decode32, h1, decodeW, h2, e0, e1]
theorem movhi (h : BitVec 16) (d : BitVec 6) : Statement (.movhi h d) := by
  intro _ _ rest
  rw [show encode (.movhi h d) = natBytes 4 (31 + h.toNat * 65536 + d.toNat * 1024) from rfl]
  generalize hw : 31 + h.toNat * 65536 + d.toNat * 1024 = wd
  obtain ⟨hlt, hodd, h2, h1, e0, e1⟩ := shape12 31 wd h d (by decide) (by omega)
  refine decode_word wd _ rest hlt hodd ?_
  simp only [Nat.reduceDiv, Nat.reduceMod] at h1 h2
  simp only [decode32, h1, decodeW, h2, e0, e1]
theorem addi (h : BitVec 16) (d : BitVec 6) : Statement (.addi h d) := by
  intro _ _ rest
  rw [show encode (.addi h d) = natBytes 4 (47 + h.toNat * 65536 + d.toNat * 1024) from rfl]
  generalize hw : 47 + h.toNat * 65536 + d.toNat * 1024 = wd
  obtain ⟨hlt, hodd, h2, h1, e0, e1⟩ := shape12 47 wd h d (by decide) (by omega)
  refine decode_word wd _ rest hlt hodd ?_
  simp only [Nat.reduceDiv, Nat.reduceMod] at h1 h2
  simp only [decode32, h1, decodeW, h2, e0, e1]
theorem movbf (h : BitVec 16) (d : BitVec 6) : Statement (.movbf h d) := by
  intro _ _ rest
  rw [show encode (.movbf h d) = natBytes 4 (63 + h.toNat * 65536 + d.toNat * 1024) from rfl]
  generalize hw : 63 + h.toNat * 65536 + d.toNat * 1024 = wd
  obtain ⟨hlt, hodd, h2, h1, e0, e1⟩ := shape12 63 wd h d (by decide) (by omega)
  refine decode_word wd _ rest hlt hodd ?_
  simp only [Nat.reduceDiv, Nat.reduceMod] at h1 h2
  simp only [decode32, h1, decodeW, h2, e0, e1]
theorem lpc (h : BitVec 16) (d : BitVec 6) : Statement (.lpc h d) := by
  intro _ _ rest
  rw [show encode (.lpc h d) = natBytes 4 (79 + h.toNat * 65536 + d.toNat * 1024) from rfl]
  generalize hw : 79 + h.toNat * 65536 + d.toNat * 1024 = wd
  obtain ⟨hlt, hodd, h2, h1, e0, e1⟩ := shape12 79 wd h d (by decide) (by omega)
  refine decode_word wd _ rest hlt hodd ?_
  simp only [Nat.reduceDiv, Nat.reduceMod] at h1 h2
  simp only [decode32, h1, decodeW, h2, e0, e1]
theorem ldgB (k : BitVec 11) (a : BitVec 6) (d : BitVec 6) : Statement (.ldgB k a d) := by
  intro _ _ rest
  rw [show encode (.ldgB k a d) = natBytes 4 (7 + k.toNat * 2097152 + a.toNat * 32768 + d.toNat * 512) from rfl]
  generalize hw : 7 + k.toNat * 2097152 + a.toNat * 32768 + d.toNat * 512 = wd
  obtain ⟨hlt, hodd, h2, h1, e0, e1, e2⟩ := shape13 7 wd k a d (by decide) (by omega)
  refine decode_word wd _ rest hlt hodd ?_
  simp only [Nat.reduceDiv, Nat.reduceMod] at h1 h2
  simp only [decode32, h1, decodeM, h2, e0, e1, e2]
theorem ldgSb (k : BitVec 11) (a : BitVec 6) (d : BitVec 6) : Statement (.ldgSb k a d) := by
  intro _ _ rest
  rw [show encode (.ldgSb k a d) = natBytes 4 (23 + k.toNat * 2097152 + a.toNat * 32768 + d.toNat * 512) from rfl]
  generalize hw : 23 + k.toNat * 2097152 + a.toNat * 32768 + d.toNat * 512 = wd
  obtain ⟨hlt, hodd, h2, h1, e0, e1, e2⟩ := shape13 23 wd k a d (by decide) (by omega)
  refine decode_word wd _ rest hlt hodd ?_
  simp only [Nat.reduceDiv, Nat.reduceMod] at h1 h2
  simp only [decode32, h1, decodeM, h2, e0, e1, e2]
theorem ldgH (k : BitVec 11) (a : BitVec 6) (d : BitVec 6) : Statement (.ldgH k a d) := by
  intro _ _ rest
  rw [show encode (.ldgH k a d) = natBytes 4 (39 + k.toNat * 2097152 + a.toNat * 32768 + d.toNat * 512) from rfl]
  generalize hw : 39 + k.toNat * 2097152 + a.toNat * 32768 + d.toNat * 512 = wd
  obtain ⟨hlt, hodd, h2, h1, e0, e1, e2⟩ := shape13 39 wd k a d (by decide) (by omega)
  refine decode_word wd _ rest hlt hodd ?_
  simp only [Nat.reduceDiv, Nat.reduceMod] at h1 h2
  simp only [decode32, h1, decodeM, h2, e0, e1, e2]
theorem ldgSh (k : BitVec 11) (a : BitVec 6) (d : BitVec 6) : Statement (.ldgSh k a d) := by
  intro _ _ rest
  rw [show encode (.ldgSh k a d) = natBytes 4 (55 + k.toNat * 2097152 + a.toNat * 32768 + d.toNat * 512) from rfl]
  generalize hw : 55 + k.toNat * 2097152 + a.toNat * 32768 + d.toNat * 512 = wd
  obtain ⟨hlt, hodd, h2, h1, e0, e1, e2⟩ := shape13 55 wd k a d (by decide) (by omega)
  refine decode_word wd _ rest hlt hodd ?_
  simp only [Nat.reduceDiv, Nat.reduceMod] at h1 h2
  simp only [decode32, h1, decodeM, h2, e0, e1, e2]
theorem ldgW (k : BitVec 11) (a : BitVec 6) (d : BitVec 6) : Statement (.ldgW k a d) := by
  intro _ _ rest
  rw [show encode (.ldgW k a d) = natBytes 4 (71 + k.toNat * 2097152 + a.toNat * 32768 + d.toNat * 512) from rfl]
  generalize hw : 71 + k.toNat * 2097152 + a.toNat * 32768 + d.toNat * 512 = wd
  obtain ⟨hlt, hodd, h2, h1, e0, e1, e2⟩ := shape13 71 wd k a d (by decide) (by omega)
  refine decode_word wd _ rest hlt hodd ?_
  simp only [Nat.reduceDiv, Nat.reduceMod] at h1 h2
  simp only [decode32, h1, decodeM, h2, e0, e1, e2]
theorem ldgD (k : BitVec 11) (a : BitVec 6) (d : BitVec 6) : Statement (.ldgD k a d) := by
  intro _ _ rest
  rw [show encode (.ldgD k a d) = natBytes 4 (87 + k.toNat * 2097152 + a.toNat * 32768 + d.toNat * 512) from rfl]
  generalize hw : 87 + k.toNat * 2097152 + a.toNat * 32768 + d.toNat * 512 = wd
  obtain ⟨hlt, hodd, h2, h1, e0, e1, e2⟩ := shape13 87 wd k a d (by decide) (by omega)
  refine decode_word wd _ rest hlt hodd ?_
  simp only [Nat.reduceDiv, Nat.reduceMod] at h1 h2
  simp only [decode32, h1, decodeM, h2, e0, e1, e2]
theorem ldgQ (k : BitVec 11) (a : BitVec 6) (d : BitVec 6) : Statement (.ldgQ k a d) := by
  intro _ _ rest
  rw [show encode (.ldgQ k a d) = natBytes 4 (103 + k.toNat * 2097152 + a.toNat * 32768 + d.toNat * 512) from rfl]
  generalize hw : 103 + k.toNat * 2097152 + a.toNat * 32768 + d.toNat * 512 = wd
  obtain ⟨hlt, hodd, h2, h1, e0, e1, e2⟩ := shape13 103 wd k a d (by decide) (by omega)
  refine decode_word wd _ rest hlt hodd ?_
  simp only [Nat.reduceDiv, Nat.reduceMod] at h1 h2
  simp only [decode32, h1, decodeM, h2, e0, e1, e2]
theorem ldsH (k : BitVec 11) (a : BitVec 6) (d : BitVec 6) : Statement (.ldsH k a d) := by
  intro _ _ rest
  rw [show encode (.ldsH k a d) = natBytes 4 (119 + k.toNat * 2097152 + a.toNat * 32768 + d.toNat * 512) from rfl]
  generalize hw : 119 + k.toNat * 2097152 + a.toNat * 32768 + d.toNat * 512 = wd
  obtain ⟨hlt, hodd, h2, h1, e0, e1, e2⟩ := shape13 119 wd k a d (by decide) (by omega)
  refine decode_word wd _ rest hlt hodd ?_
  simp only [Nat.reduceDiv, Nat.reduceMod] at h1 h2
  simp only [decode32, h1, decodeM, h2, e0, e1, e2]
theorem ldsW (k : BitVec 11) (a : BitVec 6) (d : BitVec 6) : Statement (.ldsW k a d) := by
  intro _ _ rest
  rw [show encode (.ldsW k a d) = natBytes 4 (135 + k.toNat * 2097152 + a.toNat * 32768 + d.toNat * 512) from rfl]
  generalize hw : 135 + k.toNat * 2097152 + a.toNat * 32768 + d.toNat * 512 = wd
  obtain ⟨hlt, hodd, h2, h1, e0, e1, e2⟩ := shape13 135 wd k a d (by decide) (by omega)
  refine decode_word wd _ rest hlt hodd ?_
  simp only [Nat.reduceDiv, Nat.reduceMod] at h1 h2
  simp only [decode32, h1, decodeM, h2, e0, e1, e2]
theorem ldsD (k : BitVec 11) (a : BitVec 6) (d : BitVec 6) : Statement (.ldsD k a d) := by
  intro _ _ rest
  rw [show encode (.ldsD k a d) = natBytes 4 (151 + k.toNat * 2097152 + a.toNat * 32768 + d.toNat * 512) from rfl]
  generalize hw : 151 + k.toNat * 2097152 + a.toNat * 32768 + d.toNat * 512 = wd
  obtain ⟨hlt, hodd, h2, h1, e0, e1, e2⟩ := shape13 151 wd k a d (by decide) (by omega)
  refine decode_word wd _ rest hlt hodd ?_
  simp only [Nat.reduceDiv, Nat.reduceMod] at h1 h2
  simp only [decode32, h1, decodeM, h2, e0, e1, e2]
theorem ldsQ (k : BitVec 11) (a : BitVec 6) (d : BitVec 6) : Statement (.ldsQ k a d) := by
  intro _ _ rest
  rw [show encode (.ldsQ k a d) = natBytes 4 (167 + k.toNat * 2097152 + a.toNat * 32768 + d.toNat * 512) from rfl]
  generalize hw : 167 + k.toNat * 2097152 + a.toNat * 32768 + d.toNat * 512 = wd
  obtain ⟨hlt, hodd, h2, h1, e0, e1, e2⟩ := shape13 167 wd k a d (by decide) (by omega)
  refine decode_word wd _ rest hlt hodd ?_
  simp only [Nat.reduceDiv, Nat.reduceMod] at h1 h2
  simp only [decode32, h1, decodeM, h2, e0, e1, e2]
theorem stgB (k : BitVec 4) (n : BitVec 1) (g : BitVec 6) (a : BitVec 6) (d : BitVec 6) : Statement (.stgB k n g a d) := by
  intro _ _ rest
  rw [show encode (.stgB k n g a d) = natBytes 4 (183 + k.toNat * 268435456 + n.toNat * 134217728 + g.toNat * 2097152 + a.toNat * 32768 + d.toNat * 512) from rfl]
  generalize hw : 183 + k.toNat * 268435456 + n.toNat * 134217728 + g.toNat * 2097152 + a.toNat * 32768 + d.toNat * 512 = wd
  obtain ⟨hlt, hodd, h2, h1, e0, e1, e2, e3, e4⟩ := shape14 183 wd k n g a d (by decide) (by omega)
  refine decode_word wd _ rest hlt hodd ?_
  simp only [Nat.reduceDiv, Nat.reduceMod] at h1 h2
  simp only [decode32, h1, decodeM, h2, e0, e1, e2, e3, e4]
theorem stgH (k : BitVec 4) (n : BitVec 1) (g : BitVec 6) (a : BitVec 6) (d : BitVec 6) : Statement (.stgH k n g a d) := by
  intro _ _ rest
  rw [show encode (.stgH k n g a d) = natBytes 4 (199 + k.toNat * 268435456 + n.toNat * 134217728 + g.toNat * 2097152 + a.toNat * 32768 + d.toNat * 512) from rfl]
  generalize hw : 199 + k.toNat * 268435456 + n.toNat * 134217728 + g.toNat * 2097152 + a.toNat * 32768 + d.toNat * 512 = wd
  obtain ⟨hlt, hodd, h2, h1, e0, e1, e2, e3, e4⟩ := shape14 199 wd k n g a d (by decide) (by omega)
  refine decode_word wd _ rest hlt hodd ?_
  simp only [Nat.reduceDiv, Nat.reduceMod] at h1 h2
  simp only [decode32, h1, decodeM, h2, e0, e1, e2, e3, e4]
theorem stgW (k : BitVec 4) (n : BitVec 1) (g : BitVec 6) (a : BitVec 6) (d : BitVec 6) : Statement (.stgW k n g a d) := by
  intro _ _ rest
  rw [show encode (.stgW k n g a d) = natBytes 4 (215 + k.toNat * 268435456 + n.toNat * 134217728 + g.toNat * 2097152 + a.toNat * 32768 + d.toNat * 512) from rfl]
  generalize hw : 215 + k.toNat * 268435456 + n.toNat * 134217728 + g.toNat * 2097152 + a.toNat * 32768 + d.toNat * 512 = wd
  obtain ⟨hlt, hodd, h2, h1, e0, e1, e2, e3, e4⟩ := shape14 215 wd k n g a d (by decide) (by omega)
  refine decode_word wd _ rest hlt hodd ?_
  simp only [Nat.reduceDiv, Nat.reduceMod] at h1 h2
  simp only [decode32, h1, decodeM, h2, e0, e1, e2, e3, e4]
theorem stgD (k : BitVec 4) (n : BitVec 1) (g : BitVec 6) (a : BitVec 6) (d : BitVec 6) : Statement (.stgD k n g a d) := by
  intro _ _ rest
  rw [show encode (.stgD k n g a d) = natBytes 4 (231 + k.toNat * 268435456 + n.toNat * 134217728 + g.toNat * 2097152 + a.toNat * 32768 + d.toNat * 512) from rfl]
  generalize hw : 231 + k.toNat * 268435456 + n.toNat * 134217728 + g.toNat * 2097152 + a.toNat * 32768 + d.toNat * 512 = wd
  obtain ⟨hlt, hodd, h2, h1, e0, e1, e2, e3, e4⟩ := shape14 231 wd k n g a d (by decide) (by omega)
  refine decode_word wd _ rest hlt hodd ?_
  simp only [Nat.reduceDiv, Nat.reduceMod] at h1 h2
  simp only [decode32, h1, decodeM, h2, e0, e1, e2, e3, e4]
theorem stgQ (k : BitVec 4) (n : BitVec 1) (g : BitVec 6) (a : BitVec 6) (d : BitVec 6) : Statement (.stgQ k n g a d) := by
  intro _ _ rest
  rw [show encode (.stgQ k n g a d) = natBytes 4 (247 + k.toNat * 268435456 + n.toNat * 134217728 + g.toNat * 2097152 + a.toNat * 32768 + d.toNat * 512) from rfl]
  generalize hw : 247 + k.toNat * 268435456 + n.toNat * 134217728 + g.toNat * 2097152 + a.toNat * 32768 + d.toNat * 512 = wd
  obtain ⟨hlt, hodd, h2, h1, e0, e1, e2, e3, e4⟩ := shape14 247 wd k n g a d (by decide) (by omega)
  refine decode_word wd _ rest hlt hodd ?_
  simp only [Nat.reduceDiv, Nat.reduceMod] at h1 h2
  simp only [decode32, h1, decodeM, h2, e0, e1, e2, e3, e4]
theorem stsH (k : BitVec 4) (n : BitVec 1) (g : BitVec 6) (a : BitVec 6) (d : BitVec 6) : Statement (.stsH k n g a d) := by
  intro _ _ rest
  rw [show encode (.stsH k n g a d) = natBytes 4 (263 + k.toNat * 268435456 + n.toNat * 134217728 + g.toNat * 2097152 + a.toNat * 32768 + d.toNat * 512) from rfl]
  generalize hw : 263 + k.toNat * 268435456 + n.toNat * 134217728 + g.toNat * 2097152 + a.toNat * 32768 + d.toNat * 512 = wd
  obtain ⟨hlt, hodd, h2, h1, e0, e1, e2, e3, e4⟩ := shape14 263 wd k n g a d (by decide) (by omega)
  refine decode_word wd _ rest hlt hodd ?_
  simp only [Nat.reduceDiv, Nat.reduceMod] at h1 h2
  simp only [decode32, h1, decodeM, h2, e0, e1, e2, e3, e4]
theorem stsW (k : BitVec 4) (n : BitVec 1) (g : BitVec 6) (a : BitVec 6) (d : BitVec 6) : Statement (.stsW k n g a d) := by
  intro _ _ rest
  rw [show encode (.stsW k n g a d) = natBytes 4 (279 + k.toNat * 268435456 + n.toNat * 134217728 + g.toNat * 2097152 + a.toNat * 32768 + d.toNat * 512) from rfl]
  generalize hw : 279 + k.toNat * 268435456 + n.toNat * 134217728 + g.toNat * 2097152 + a.toNat * 32768 + d.toNat * 512 = wd
  obtain ⟨hlt, hodd, h2, h1, e0, e1, e2, e3, e4⟩ := shape14 279 wd k n g a d (by decide) (by omega)
  refine decode_word wd _ rest hlt hodd ?_
  simp only [Nat.reduceDiv, Nat.reduceMod] at h1 h2
  simp only [decode32, h1, decodeM, h2, e0, e1, e2, e3, e4]
theorem stsD (k : BitVec 4) (n : BitVec 1) (g : BitVec 6) (a : BitVec 6) (d : BitVec 6) : Statement (.stsD k n g a d) := by
  intro _ _ rest
  rw [show encode (.stsD k n g a d) = natBytes 4 (295 + k.toNat * 268435456 + n.toNat * 134217728 + g.toNat * 2097152 + a.toNat * 32768 + d.toNat * 512) from rfl]
  generalize hw : 295 + k.toNat * 268435456 + n.toNat * 134217728 + g.toNat * 2097152 + a.toNat * 32768 + d.toNat * 512 = wd
  obtain ⟨hlt, hodd, h2, h1, e0, e1, e2, e3, e4⟩ := shape14 295 wd k n g a d (by decide) (by omega)
  refine decode_word wd _ rest hlt hodd ?_
  simp only [Nat.reduceDiv, Nat.reduceMod] at h1 h2
  simp only [decode32, h1, decodeM, h2, e0, e1, e2, e3, e4]
theorem stsQ (k : BitVec 4) (n : BitVec 1) (g : BitVec 6) (a : BitVec 6) (d : BitVec 6) : Statement (.stsQ k n g a d) := by
  intro _ _ rest
  rw [show encode (.stsQ k n g a d) = natBytes 4 (311 + k.toNat * 268435456 + n.toNat * 134217728 + g.toNat * 2097152 + a.toNat * 32768 + d.toNat * 512) from rfl]
  generalize hw : 311 + k.toNat * 268435456 + n.toNat * 134217728 + g.toNat * 2097152 + a.toNat * 32768 + d.toNat * 512 = wd
  obtain ⟨hlt, hodd, h2, h1, e0, e1, e2, e3, e4⟩ := shape14 311 wd k n g a d (by decide) (by omega)
  refine decode_word wd _ rest hlt hodd ?_
  simp only [Nat.reduceDiv, Nat.reduceMod] at h1 h2
  simp only [decode32, h1, decodeM, h2, e0, e1, e2, e3, e4]
theorem aadd (k : BitVec 4) (n : BitVec 1) (g : BitVec 6) (a : BitVec 6) (d : BitVec 6) : Statement (.aadd k n g a d) := by
  intro _ _ rest
  rw [show encode (.aadd k n g a d) = natBytes 4 (327 + k.toNat * 268435456 + n.toNat * 134217728 + g.toNat * 2097152 + a.toNat * 32768 + d.toNat * 512) from rfl]
  generalize hw : 327 + k.toNat * 268435456 + n.toNat * 134217728 + g.toNat * 2097152 + a.toNat * 32768 + d.toNat * 512 = wd
  obtain ⟨hlt, hodd, h2, h1, e0, e1, e2, e3, e4⟩ := shape14 327 wd k n g a d (by decide) (by omega)
  refine decode_word wd _ rest hlt hodd ?_
  simp only [Nat.reduceDiv, Nat.reduceMod] at h1 h2
  simp only [decode32, h1, decodeM, h2, e0, e1, e2, e3, e4]
theorem amin (k : BitVec 4) (n : BitVec 1) (g : BitVec 6) (a : BitVec 6) (d : BitVec 6) : Statement (.amin k n g a d) := by
  intro _ _ rest
  rw [show encode (.amin k n g a d) = natBytes 4 (343 + k.toNat * 268435456 + n.toNat * 134217728 + g.toNat * 2097152 + a.toNat * 32768 + d.toNat * 512) from rfl]
  generalize hw : 343 + k.toNat * 268435456 + n.toNat * 134217728 + g.toNat * 2097152 + a.toNat * 32768 + d.toNat * 512 = wd
  obtain ⟨hlt, hodd, h2, h1, e0, e1, e2, e3, e4⟩ := shape14 343 wd k n g a d (by decide) (by omega)
  refine decode_word wd _ rest hlt hodd ?_
  simp only [Nat.reduceDiv, Nat.reduceMod] at h1 h2
  simp only [decode32, h1, decodeM, h2, e0, e1, e2, e3, e4]
theorem amax (k : BitVec 4) (n : BitVec 1) (g : BitVec 6) (a : BitVec 6) (d : BitVec 6) : Statement (.amax k n g a d) := by
  intro _ _ rest
  rw [show encode (.amax k n g a d) = natBytes 4 (359 + k.toNat * 268435456 + n.toNat * 134217728 + g.toNat * 2097152 + a.toNat * 32768 + d.toNat * 512) from rfl]
  generalize hw : 359 + k.toNat * 268435456 + n.toNat * 134217728 + g.toNat * 2097152 + a.toNat * 32768 + d.toNat * 512 = wd
  obtain ⟨hlt, hodd, h2, h1, e0, e1, e2, e3, e4⟩ := shape14 359 wd k n g a d (by decide) (by omega)
  refine decode_word wd _ rest hlt hodd ?_
  simp only [Nat.reduceDiv, Nat.reduceMod] at h1 h2
  simp only [decode32, h1, decodeM, h2, e0, e1, e2, e3, e4]
theorem aand (k : BitVec 4) (n : BitVec 1) (g : BitVec 6) (a : BitVec 6) (d : BitVec 6) : Statement (.aand k n g a d) := by
  intro _ _ rest
  rw [show encode (.aand k n g a d) = natBytes 4 (375 + k.toNat * 268435456 + n.toNat * 134217728 + g.toNat * 2097152 + a.toNat * 32768 + d.toNat * 512) from rfl]
  generalize hw : 375 + k.toNat * 268435456 + n.toNat * 134217728 + g.toNat * 2097152 + a.toNat * 32768 + d.toNat * 512 = wd
  obtain ⟨hlt, hodd, h2, h1, e0, e1, e2, e3, e4⟩ := shape14 375 wd k n g a d (by decide) (by omega)
  refine decode_word wd _ rest hlt hodd ?_
  simp only [Nat.reduceDiv, Nat.reduceMod] at h1 h2
  simp only [decode32, h1, decodeM, h2, e0, e1, e2, e3, e4]
theorem aor (k : BitVec 4) (n : BitVec 1) (g : BitVec 6) (a : BitVec 6) (d : BitVec 6) : Statement (.aor k n g a d) := by
  intro _ _ rest
  rw [show encode (.aor k n g a d) = natBytes 4 (391 + k.toNat * 268435456 + n.toNat * 134217728 + g.toNat * 2097152 + a.toNat * 32768 + d.toNat * 512) from rfl]
  generalize hw : 391 + k.toNat * 268435456 + n.toNat * 134217728 + g.toNat * 2097152 + a.toNat * 32768 + d.toNat * 512 = wd
  obtain ⟨hlt, hodd, h2, h1, e0, e1, e2, e3, e4⟩ := shape14 391 wd k n g a d (by decide) (by omega)
  refine decode_word wd _ rest hlt hodd ?_
  simp only [Nat.reduceDiv, Nat.reduceMod] at h1 h2
  simp only [decode32, h1, decodeM, h2, e0, e1, e2, e3, e4]
theorem axor (k : BitVec 4) (n : BitVec 1) (g : BitVec 6) (a : BitVec 6) (d : BitVec 6) : Statement (.axor k n g a d) := by
  intro _ _ rest
  rw [show encode (.axor k n g a d) = natBytes 4 (407 + k.toNat * 268435456 + n.toNat * 134217728 + g.toNat * 2097152 + a.toNat * 32768 + d.toNat * 512) from rfl]
  generalize hw : 407 + k.toNat * 268435456 + n.toNat * 134217728 + g.toNat * 2097152 + a.toNat * 32768 + d.toNat * 512 = wd
  obtain ⟨hlt, hodd, h2, h1, e0, e1, e2, e3, e4⟩ := shape14 407 wd k n g a d (by decide) (by omega)
  refine decode_word wd _ rest hlt hodd ?_
  simp only [Nat.reduceDiv, Nat.reduceMod] at h1 h2
  simp only [decode32, h1, decodeM, h2, e0, e1, e2, e3, e4]
theorem axch (k : BitVec 4) (n : BitVec 1) (g : BitVec 6) (a : BitVec 6) (d : BitVec 6) : Statement (.axch k n g a d) := by
  intro _ _ rest
  rw [show encode (.axch k n g a d) = natBytes 4 (423 + k.toNat * 268435456 + n.toNat * 134217728 + g.toNat * 2097152 + a.toNat * 32768 + d.toNat * 512) from rfl]
  generalize hw : 423 + k.toNat * 268435456 + n.toNat * 134217728 + g.toNat * 2097152 + a.toNat * 32768 + d.toNat * 512 = wd
  obtain ⟨hlt, hodd, h2, h1, e0, e1, e2, e3, e4⟩ := shape14 423 wd k n g a d (by decide) (by omega)
  refine decode_word wd _ rest hlt hodd ?_
  simp only [Nat.reduceDiv, Nat.reduceMod] at h1 h2
  simp only [decode32, h1, decodeM, h2, e0, e1, e2, e3, e4]
theorem acas (k : BitVec 4) (n : BitVec 1) (g : BitVec 6) (a : BitVec 6) (d : BitVec 6) : Statement (.acas k n g a d) := by
  intro _ _ rest
  rw [show encode (.acas k n g a d) = natBytes 4 (439 + k.toNat * 268435456 + n.toNat * 134217728 + g.toNat * 2097152 + a.toNat * 32768 + d.toNat * 512) from rfl]
  generalize hw : 439 + k.toNat * 268435456 + n.toNat * 134217728 + g.toNat * 2097152 + a.toNat * 32768 + d.toNat * 512 = wd
  obtain ⟨hlt, hodd, h2, h1, e0, e1, e2, e3, e4⟩ := shape14 439 wd k n g a d (by decide) (by omega)
  refine decode_word wd _ rest hlt hodd ?_
  simp only [Nat.reduceDiv, Nat.reduceMod] at h1 h2
  simp only [decode32, h1, decodeM, h2, e0, e1, e2, e3, e4]
theorem afadd (k : BitVec 4) (n : BitVec 1) (g : BitVec 6) (a : BitVec 6) (d : BitVec 6) : Statement (.afadd k n g a d) := by
  intro _ _ rest
  rw [show encode (.afadd k n g a d) = natBytes 4 (455 + k.toNat * 268435456 + n.toNat * 134217728 + g.toNat * 2097152 + a.toNat * 32768 + d.toNat * 512) from rfl]
  generalize hw : 455 + k.toNat * 268435456 + n.toNat * 134217728 + g.toNat * 2097152 + a.toNat * 32768 + d.toNat * 512 = wd
  obtain ⟨hlt, hodd, h2, h1, e0, e1, e2, e3, e4⟩ := shape14 455 wd k n g a d (by decide) (by omega)
  refine decode_word wd _ rest hlt hodd ?_
  simp only [Nat.reduceDiv, Nat.reduceMod] at h1 h2
  simp only [decode32, h1, decodeM, h2, e0, e1, e2, e3, e4]
theorem dred (k : BitVec 4) (n : BitVec 1) (g : BitVec 6) (a : BitVec 6) (d : BitVec 6) : Statement (.dred k n g a d) := by
  intro _ _ rest
  rw [show encode (.dred k n g a d) = natBytes 4 (471 + k.toNat * 268435456 + n.toNat * 134217728 + g.toNat * 2097152 + a.toNat * 32768 + d.toNat * 512) from rfl]
  generalize hw : 471 + k.toNat * 268435456 + n.toNat * 134217728 + g.toNat * 2097152 + a.toNat * 32768 + d.toNat * 512 = wd
  obtain ⟨hlt, hodd, h2, h1, e0, e1, e2, e3, e4⟩ := shape14 471 wd k n g a d (by decide) (by omega)
  refine decode_word wd _ rest hlt hodd ?_
  simp only [Nat.reduceDiv, Nat.reduceMod] at h1 h2
  simp only [decode32, h1, decodeM, h2, e0, e1, e2, e3, e4]
theorem acasD (k : BitVec 4) (n : BitVec 1) (g : BitVec 6) (a : BitVec 6) (d : BitVec 6) : Statement (.acasD k n g a d) := by
  intro _ _ rest
  rw [show encode (.acasD k n g a d) = natBytes 4 (487 + k.toNat * 268435456 + n.toNat * 134217728 + g.toNat * 2097152 + a.toNat * 32768 + d.toNat * 512) from rfl]
  generalize hw : 487 + k.toNat * 268435456 + n.toNat * 134217728 + g.toNat * 2097152 + a.toNat * 32768 + d.toNat * 512 = wd
  obtain ⟨hlt, hodd, h2, h1, e0, e1, e2, e3, e4⟩ := shape14 487 wd k n g a d (by decide) (by omega)
  refine decode_word wd _ rest hlt hodd ?_
  simp only [Nat.reduceDiv, Nat.reduceMod] at h1 h2
  simp only [decode32, h1, decodeM, h2, e0, e1, e2, e3, e4]
theorem axchD (k : BitVec 4) (n : BitVec 1) (g : BitVec 6) (a : BitVec 6) (d : BitVec 6) : Statement (.axchD k n g a d) := by
  intro _ _ rest
  rw [show encode (.axchD k n g a d) = natBytes 4 (503 + k.toNat * 268435456 + n.toNat * 134217728 + g.toNat * 2097152 + a.toNat * 32768 + d.toNat * 512) from rfl]
  generalize hw : 503 + k.toNat * 268435456 + n.toNat * 134217728 + g.toNat * 2097152 + a.toNat * 32768 + d.toNat * 512 = wd
  obtain ⟨hlt, hodd, h2, h1, e0, e1, e2, e3, e4⟩ := shape14 503 wd k n g a d (by decide) (by omega)
  refine decode_word wd _ rest hlt hodd ?_
  simp only [Nat.reduceDiv, Nat.reduceMod] at h1 h2
  simp only [decode32, h1, decodeM, h2, e0, e1, e2, e3, e4]
theorem bra (k : BitVec 18) (n : BitVec 1) (g : BitVec 6) : Statement (.bra k n g) := by
  intro _ _ rest
  rw [show encode (.bra k n g) = natBytes 4 (9 + k.toNat * 16384 + n.toNat * 8192 + g.toNat * 128) from rfl]
  generalize hw : 9 + k.toNat * 16384 + n.toNat * 8192 + g.toNat * 128 = wd
  obtain ⟨hlt, hodd, h2, h1, e0, e1, e2⟩ := shape15 9 wd k n g (by decide) (by omega)
  refine decode_word wd _ rest hlt hodd ?_
  simp only [Nat.reduceDiv, Nat.reduceMod] at h1 h2
  simp only [decode32, h1, decodeB, h2, e0, e1, e2]
theorem call (k : BitVec 18) (n : BitVec 1) (g : BitVec 6) : Statement (.call k n g) := by
  intro _ _ rest
  rw [show encode (.call k n g) = natBytes 4 (25 + k.toNat * 16384 + n.toNat * 8192 + g.toNat * 128) from rfl]
  generalize hw : 25 + k.toNat * 16384 + n.toNat * 8192 + g.toNat * 128 = wd
  obtain ⟨hlt, hodd, h2, h1, e0, e1, e2⟩ := shape15 25 wd k n g (by decide) (by omega)
  refine decode_word wd _ rest hlt hodd ?_
  simp only [Nat.reduceDiv, Nat.reduceMod] at h1 h2
  simp only [decode32, h1, decodeB, h2, e0, e1, e2]
theorem brx (r : BitVec 6) (n : BitVec 1) (g : BitVec 6) : Statement (.brx r n g) := by
  intro _ _ rest
  rw [show encode (.brx r n g) = natBytes 4 (41 + r.toNat * 16384 + n.toNat * 8192 + g.toNat * 128) from rfl]
  generalize hw : 41 + r.toNat * 16384 + n.toNat * 8192 + g.toNat * 128 = wd
  obtain ⟨hlt, hodd, h2, h1, h3, e0, e1, e2⟩ := shape16 41 wd r n g (by decide) (by omega)
  refine decode_word wd _ rest hlt hodd ?_
  simp only [Nat.reduceDiv, Nat.reduceMod] at h1 h2
  simp only [decode32, h1, decodeB, h2, fixedOr, h3, if_true, e0, e1, e2]
theorem ret (n : BitVec 1) (g : BitVec 6) : Statement (.ret n g) := by
  intro _ _ rest
  rw [show encode (.ret n g) = natBytes 4 (57 + n.toNat * 8192 + g.toNat * 128) from rfl]
  generalize hw : 57 + n.toNat * 8192 + g.toNat * 128 = wd
  obtain ⟨hlt, hodd, h2, h1, h3, e0, e1⟩ := shape17 57 wd n g (by decide) (by omega)
  refine decode_word wd _ rest hlt hodd ?_
  simp only [Nat.reduceDiv, Nat.reduceMod] at h1 h2
  simp only [decode32, h1, decodeB, h2, fixedOr, h3, if_true, e0, e1]
theorem exit (n : BitVec 1) (g : BitVec 6) : Statement (.exit n g) := by
  intro _ _ rest
  rw [show encode (.exit n g) = natBytes 4 (73 + n.toNat * 8192 + g.toNat * 128) from rfl]
  generalize hw : 73 + n.toNat * 8192 + g.toNat * 128 = wd
  obtain ⟨hlt, hodd, h2, h1, h3, e0, e1⟩ := shape17 73 wd n g (by decide) (by omega)
  refine decode_word wd _ rest hlt hodd ?_
  simp only [Nat.reduceDiv, Nat.reduceMod] at h1 h2
  simp only [decode32, h1, decodeB, h2, fixedOr, h3, if_true, e0, e1]
theorem brk (n : BitVec 1) (g : BitVec 6) : Statement (.brk n g) := by
  intro _ _ rest
  rw [show encode (.brk n g) = natBytes 4 (89 + n.toNat * 8192 + g.toNat * 128) from rfl]
  generalize hw : 89 + n.toNat * 8192 + g.toNat * 128 = wd
  obtain ⟨hlt, hodd, h2, h1, h3, e0, e1⟩ := shape17 89 wd n g (by decide) (by omega)
  refine decode_word wd _ rest hlt hodd ?_
  simp only [Nat.reduceDiv, Nat.reduceMod] at h1 h2
  simp only [decode32, h1, decodeB, h2, fixedOr, h3, if_true, e0, e1]
theorem tload (f : BitVec 2) (w : BitVec 6) (c : BitVec 6) (s : BitVec 6) : Statement (.tload f w c s) := by
  intro _ _ rest
  rw [show encode (.tload f w c s) = natBytes 4 (11 + f.toNat * 134217728 + w.toNat * 2097152 + c.toNat * 32768 + s.toNat * 512) from rfl]
  generalize hw : 11 + f.toNat * 134217728 + w.toNat * 2097152 + c.toNat * 32768 + s.toNat * 512 = wd
  obtain ⟨hlt, hodd, h2, h1, h3, e0, e1, e2, e3⟩ := shape18 11 wd f w c s (by decide) (by omega)
  refine decode_word wd _ rest hlt hodd ?_
  simp only [Nat.reduceDiv, Nat.reduceMod] at h1 h2
  simp only [decode32, h1, decodeE, h2, fixedOr, h3, if_true, e0, e1, e2, e3]
theorem tstore (f : BitVec 2) (w : BitVec 6) (c : BitVec 6) (s : BitVec 6) : Statement (.tstore f w c s) := by
  intro _ _ rest
  rw [show encode (.tstore f w c s) = natBytes 4 (27 + f.toNat * 134217728 + w.toNat * 2097152 + c.toNat * 32768 + s.toNat * 512) from rfl]
  generalize hw : 27 + f.toNat * 134217728 + w.toNat * 2097152 + c.toNat * 32768 + s.toNat * 512 = wd
  obtain ⟨hlt, hodd, h2, h1, h3, e0, e1, e2, e3⟩ := shape18 27 wd f w c s (by decide) (by omega)
  refine decode_word wd _ rest hlt hodd ?_
  simp only [Nat.reduceDiv, Nat.reduceMod] at h1 h2
  simp only [decode32, h1, decodeE, h2, fixedOr, h3, if_true, e0, e1, e2, e3]
theorem tgather (f : BitVec 2) (w : BitVec 6) (c : BitVec 6) (s : BitVec 6) : Statement (.tgather f w c s) := by
  intro _ _ rest
  rw [show encode (.tgather f w c s) = natBytes 4 (43 + f.toNat * 134217728 + w.toNat * 2097152 + c.toNat * 32768 + s.toNat * 512) from rfl]
  generalize hw : 43 + f.toNat * 134217728 + w.toNat * 2097152 + c.toNat * 32768 + s.toNat * 512 = wd
  obtain ⟨hlt, hodd, h2, h1, h3, e0, e1, e2, e3⟩ := shape18 43 wd f w c s (by decide) (by omega)
  refine decode_word wd _ rest hlt hodd ?_
  simp only [Nat.reduceDiv, Nat.reduceMod] at h1 h2
  simp only [decode32, h1, decodeE, h2, fixedOr, h3, if_true, e0, e1, e2, e3]
theorem tzero (f : BitVec 1) (w : BitVec 6) (c : BitVec 6) (s : BitVec 6) : Statement (.tzero f w c s) := by
  intro _ _ rest
  rw [show encode (.tzero f w c s) = natBytes 4 (59 + f.toNat * 134217728 + w.toNat * 2097152 + c.toNat * 32768 + s.toNat * 512) from rfl]
  generalize hw : 59 + f.toNat * 134217728 + w.toNat * 2097152 + c.toNat * 32768 + s.toNat * 512 = wd
  obtain ⟨hlt, hodd, h2, h1, h3, e0, e1, e2, e3⟩ := shape19 59 wd f w c s (by decide) (by omega)
  refine decode_word wd _ rest hlt hodd ?_
  simp only [Nat.reduceDiv, Nat.reduceMod] at h1 h2
  simp only [decode32, h1, decodeE, h2, fixedOr, h3, if_true, e0, e1, e2, e3]
theorem tpref (w : BitVec 6) (c : BitVec 6) (s : BitVec 6) : Statement (.tpref w c s) := by
  intro _ _ rest
  rw [show encode (.tpref w c s) = natBytes 4 (75 + w.toNat * 2097152 + c.toNat * 32768 + s.toNat * 512) from rfl]
  generalize hw : 75 + w.toNat * 2097152 + c.toNat * 32768 + s.toNat * 512 = wd
  obtain ⟨hlt, hodd, h2, h1, h3, e0, e1, e2⟩ := shape20 75 wd w c s (by decide) (by omega)
  refine decode_word wd _ rest hlt hodd ?_
  simp only [Nat.reduceDiv, Nat.reduceMod] at h1 h2
  simp only [decode32, h1, decodeE, h2, fixedOr, h3, if_true, e0, e1, e2]
theorem xput (f : BitVec 2) (w : BitVec 6) (c : BitVec 6) (s : BitVec 6) : Statement (.xput f w c s) := by
  intro _ _ rest
  rw [show encode (.xput f w c s) = natBytes 4 (91 + f.toNat * 134217728 + w.toNat * 2097152 + c.toNat * 32768 + s.toNat * 512) from rfl]
  generalize hw : 91 + f.toNat * 134217728 + w.toNat * 2097152 + c.toNat * 32768 + s.toNat * 512 = wd
  obtain ⟨hlt, hodd, h2, h1, h3, e0, e1, e2, e3⟩ := shape18 91 wd f w c s (by decide) (by omega)
  refine decode_word wd _ rest hlt hodd ?_
  simp only [Nat.reduceDiv, Nat.reduceMod] at h1 h2
  simp only [decode32, h1, decodeE, h2, fixedOr, h3, if_true, e0, e1, e2, e3]
theorem xget (f : BitVec 2) (w : BitVec 6) (c : BitVec 6) (s : BitVec 6) : Statement (.xget f w c s) := by
  intro _ _ rest
  rw [show encode (.xget f w c s) = natBytes 4 (107 + f.toNat * 134217728 + w.toNat * 2097152 + c.toNat * 32768 + s.toNat * 512) from rfl]
  generalize hw : 107 + f.toNat * 134217728 + w.toNat * 2097152 + c.toNat * 32768 + s.toNat * 512 = wd
  obtain ⟨hlt, hodd, h2, h1, h3, e0, e1, e2, e3⟩ := shape18 107 wd f w c s (by decide) (by omega)
  refine decode_word wd _ rest hlt hodd ?_
  simp only [Nat.reduceDiv, Nat.reduceMod] at h1 h2
  simp only [decode32, h1, decodeE, h2, fixedOr, h3, if_true, e0, e1, e2, e3]
theorem tscat (f : BitVec 2) (w : BitVec 6) (c : BitVec 6) (s : BitVec 6) : Statement (.tscat f w c s) := by
  intro _ _ rest
  rw [show encode (.tscat f w c s) = natBytes 4 (123 + f.toNat * 134217728 + w.toNat * 2097152 + c.toNat * 32768 + s.toNat * 512) from rfl]
  generalize hw : 123 + f.toNat * 134217728 + w.toNat * 2097152 + c.toNat * 32768 + s.toNat * 512 = wd
  obtain ⟨hlt, hodd, h2, h1, h3, e0, e1, e2, e3⟩ := shape18 123 wd f w c s (by decide) (by omega)
  refine decode_word wd _ rest hlt hodd ?_
  simp only [Nat.reduceDiv, Nat.reduceMod] at h1 h2
  simp only [decode32, h1, decodeE, h2, fixedOr, h3, if_true, e0, e1, e2, e3]
theorem mma (f : BitVec 4) (w : BitVec 6) (c : BitVec 6) (s : BitVec 6) : Statement (.mma f w c s) := by
  intro _ _ rest
  rw [show encode (.mma f w c s) = natBytes 4 (139 + f.toNat * 134217728 + w.toNat * 2097152 + c.toNat * 32768 + s.toNat * 512) from rfl]
  generalize hw : 139 + f.toNat * 134217728 + w.toNat * 2097152 + c.toNat * 32768 + s.toNat * 512 = wd
  obtain ⟨hlt, hodd, h2, h1, h3, e0, e1, e2, e3⟩ := shape21 139 wd f w c s (by decide) (by omega)
  refine decode_word wd _ rest hlt hodd ?_
  simp only [Nat.reduceDiv, Nat.reduceMod] at h1 h2
  simp only [decode32, h1, decodeE, h2, fixedOr, h3, if_true, e0, e1, e2, e3]
theorem mmar (f : BitVec 1) (f2 : BitVec 2) (w : BitVec 6) (c : BitVec 6) (s : BitVec 6) : Statement (.mmar f f2 w c s) := by
  intro _ _ rest
  rw [show encode (.mmar f f2 w c s) = natBytes 4 (155 + f.toNat * 1073741824 + f2.toNat * 134217728 + w.toNat * 2097152 + c.toNat * 32768 + s.toNat * 512) from rfl]
  generalize hw : 155 + f.toNat * 1073741824 + f2.toNat * 134217728 + w.toNat * 2097152 + c.toNat * 32768 + s.toNat * 512 = wd
  obtain ⟨hlt, hodd, h2, h1, h3, e0, e1, e2, e3, e4⟩ := shape22 155 wd f f2 w c s (by decide) (by omega)
  refine decode_word wd _ rest hlt hodd ?_
  simp only [Nat.reduceDiv, Nat.reduceMod] at h1 h2
  simp only [decode32, h1, decodeE, h2, fixedOr, h3, if_true, e0, e1, e2, e3, e4]
theorem mmas (f : BitVec 4) (w : BitVec 6) (c : BitVec 6) (s : BitVec 6) : Statement (.mmas f w c s) := by
  intro _ _ rest
  rw [show encode (.mmas f w c s) = natBytes 4 (171 + f.toNat * 134217728 + w.toNat * 2097152 + c.toNat * 32768 + s.toNat * 512) from rfl]
  generalize hw : 171 + f.toNat * 134217728 + w.toNat * 2097152 + c.toNat * 32768 + s.toNat * 512 = wd
  obtain ⟨hlt, hodd, h2, h1, h3, e0, e1, e2, e3⟩ := shape21 171 wd f w c s (by decide) (by omega)
  refine decode_word wd _ rest hlt hodd ?_
  simp only [Nat.reduceDiv, Nat.reduceMod] at h1 h2
  simp only [decode32, h1, decodeE, h2, fixedOr, h3, if_true, e0, e1, e2, e3]
theorem smma (f : BitVec 1) (w : BitVec 6) (c : BitVec 6) (s : BitVec 6) : Statement (.smma f w c s) := by
  intro _ _ rest
  rw [show encode (.smma f w c s) = natBytes 4 (187 + f.toNat * 134217728 + w.toNat * 2097152 + c.toNat * 32768 + s.toNat * 512) from rfl]
  generalize hw : 187 + f.toNat * 134217728 + w.toNat * 2097152 + c.toNat * 32768 + s.toNat * 512 = wd
  obtain ⟨hlt, hodd, h2, h1, h3, e0, e1, e2, e3⟩ := shape19 187 wd f w c s (by decide) (by omega)
  refine decode_word wd _ rest hlt hodd ?_
  simp only [Nat.reduceDiv, Nat.reduceMod] at h1 h2
  simp only [decode32, h1, decodeE, h2, fixedOr, h3, if_true, e0, e1, e2, e3]
theorem accalloc (f : BitVec 5) (w : BitVec 6) : Statement (.accalloc f w) := by
  intro _ _ rest
  rw [show encode (.accalloc f w) = natBytes 4 (2063563 + f.toNat * 134217728 + w.toNat * 2097152) from rfl]
  generalize hw : 2063563 + f.toNat * 134217728 + w.toNat * 2097152 = wd
  obtain ⟨hlt, hodd, h2, h1, h3, e0, e1⟩ := shape23 203 wd f w (by decide) (by omega)
  refine decode_word wd _ rest hlt hodd ?_
  simp only [Nat.reduceDiv, Nat.reduceMod] at h1 h2
  simp only [decode32, h1, decodeE, h2, fixedOr, h3, if_true, e0, e1]
theorem accfree (w : BitVec 6) : Statement (.accfree w) := by
  intro _ _ rest
  rw [show encode (.accfree w) = natBytes 4 (2063579 + w.toNat * 2097152) from rfl]
  generalize hw : 2063579 + w.toNat * 2097152 = wd
  obtain ⟨hlt, hodd, h2, h1, h3, e0⟩ := shape24 219 wd w (by decide) (by omega)
  refine decode_word wd _ rest hlt hodd ?_
  simp only [Nat.reduceDiv, Nat.reduceMod] at h1 h2
  simp only [decode32, h1, decodeE, h2, fixedOr, h3, if_true, e0]
theorem accld (w : BitVec 6) (c : BitVec 6) (s : BitVec 6) : Statement (.accld w c s) := by
  intro _ _ rest
  rw [show encode (.accld w c s) = natBytes 4 (235 + w.toNat * 2097152 + c.toNat * 32768 + s.toNat * 512) from rfl]
  generalize hw : 235 + w.toNat * 2097152 + c.toNat * 32768 + s.toNat * 512 = wd
  obtain ⟨hlt, hodd, h2, h1, h3, e0, e1, e2⟩ := shape20 235 wd w c s (by decide) (by omega)
  refine decode_word wd _ rest hlt hodd ?_
  simp only [Nat.reduceDiv, Nat.reduceMod] at h1 h2
  simp only [decode32, h1, decodeE, h2, fixedOr, h3, if_true, e0, e1, e2]
theorem accst (f : BitVec 3) (w : BitVec 6) (c : BitVec 6) (s : BitVec 6) : Statement (.accst f w c s) := by
  intro _ _ rest
  rw [show encode (.accst f w c s) = natBytes 4 (251 + f.toNat * 134217728 + w.toNat * 2097152 + c.toNat * 32768 + s.toNat * 512) from rfl]
  generalize hw : 251 + f.toNat * 134217728 + w.toNat * 2097152 + c.toNat * 32768 + s.toNat * 512 = wd
  obtain ⟨hlt, hodd, h2, h1, h3, e0, e1, e2, e3⟩ := shape25 251 wd f w c s (by decide) (by omega)
  refine decode_word wd _ rest hlt hodd ?_
  simp only [Nat.reduceDiv, Nat.reduceMod] at h1 h2
  simp only [decode32, h1, decodeE, h2, fixedOr, h3, if_true, e0, e1, e2, e3]
theorem bfly (f : BitVec 5) (w : BitVec 6) (s : BitVec 6) : Statement (.bfly f w s) := by
  intro _ _ rest
  rw [show encode (.bfly f w s) = natBytes 4 (2031883 + f.toNat * 134217728 + w.toNat * 2097152 + s.toNat * 512) from rfl]
  generalize hw : 2031883 + f.toNat * 134217728 + w.toNat * 2097152 + s.toNat * 512 = wd
  obtain ⟨hlt, hodd, h2, h1, h3, e0, e1, e2⟩ := shape26 267 wd f w s (by decide) (by omega)
  refine decode_word wd _ rest hlt hodd ?_
  simp only [Nat.reduceDiv, Nat.reduceMod] at h1 h2
  simp only [decode32, h1, decodeE, h2, fixedOr, h3, if_true, e0, e1, e2]
theorem btwid (f : BitVec 1) (w : BitVec 6) (s : BitVec 6) : Statement (.btwid f w s) := by
  intro _ _ rest
  rw [show encode (.btwid f w s) = natBytes 4 (2031899 + f.toNat * 1073741824 + w.toNat * 2097152 + s.toNat * 512) from rfl]
  generalize hw : 2031899 + f.toNat * 1073741824 + w.toNat * 2097152 + s.toNat * 512 = wd
  obtain ⟨hlt, hodd, h2, h1, h3, e0, e1, e2⟩ := shape27 283 wd f w s (by decide) (by omega)
  refine decode_word wd _ rest hlt hodd ?_
  simp only [Nat.reduceDiv, Nat.reduceMod] at h1 h2
  simp only [decode32, h1, decodeE, h2, fixedOr, h3, if_true, e0, e1, e2]
theorem brevEng (f : BitVec 1) (w : BitVec 6) (s : BitVec 6) : Statement (.brevEng f w s) := by
  intro _ _ rest
  rw [show encode (.brevEng f w s) = natBytes 4 (2031915 + f.toNat * 134217728 + w.toNat * 2097152 + s.toNat * 512) from rfl]
  generalize hw : 2031915 + f.toNat * 134217728 + w.toNat * 2097152 + s.toNat * 512 = wd
  obtain ⟨hlt, hodd, h2, h1, h3, e0, e1, e2⟩ := shape28 299 wd f w s (by decide) (by omega)
  refine decode_word wd _ rest hlt hodd ?_
  simp only [Nat.reduceDiv, Nat.reduceMod] at h1 h2
  simp only [decode32, h1, decodeE, h2, fixedOr, h3, if_true, e0, e1, e2]
theorem atrans (w : BitVec 6) : Statement (.atrans w) := by
  intro _ _ rest
  rw [show encode (.atrans w) = natBytes 4 (2063675 + w.toNat * 2097152) from rfl]
  generalize hw : 2063675 + w.toNat * 2097152 = wd
  obtain ⟨hlt, hodd, h2, h1, h3, e0⟩ := shape24 315 wd w (by decide) (by omega)
  refine decode_word wd _ rest hlt hodd ?_
  simp only [Nat.reduceDiv, Nat.reduceMod] at h1 h2
  simp only [decode32, h1, decodeE, h2, fixedOr, h3, if_true, e0]
theorem lubeg (w : BitVec 6) (s : BitVec 6) : Statement (.lubeg w s) := by
  intro _ _ rest
  rw [show encode (.lubeg w s) = natBytes 4 (2031947 + w.toNat * 2097152 + s.toNat * 512) from rfl]
  generalize hw : 2031947 + w.toNat * 2097152 + s.toNat * 512 = wd
  obtain ⟨hlt, hodd, h2, h1, h3, e0, e1⟩ := shape29 331 wd w s (by decide) (by omega)
  refine decode_word wd _ rest hlt hodd ?_
  simp only [Nat.reduceDiv, Nat.reduceMod] at h1 h2
  simp only [decode32, h1, decodeE, h2, fixedOr, h3, if_true, e0, e1]
theorem lustep (w : BitVec 6) (s : BitVec 6) : Statement (.lustep w s) := by
  intro _ _ rest
  rw [show encode (.lustep w s) = natBytes 4 (2031963 + w.toNat * 2097152 + s.toNat * 512) from rfl]
  generalize hw : 2031963 + w.toNat * 2097152 + s.toNat * 512 = wd
  obtain ⟨hlt, hodd, h2, h1, h3, e0, e1⟩ := shape29 347 wd w s (by decide) (by omega)
  refine decode_word wd _ rest hlt hodd ?_
  simp only [Nat.reduceDiv, Nat.reduceMod] at h1 h2
  simp only [decode32, h1, decodeE, h2, fixedOr, h3, if_true, e0, e1]
theorem lucand (w : BitVec 6) (c : BitVec 6) (s : BitVec 6) : Statement (.lucand w c s) := by
  intro _ _ rest
  rw [show encode (.lucand w c s) = natBytes 4 (363 + w.toNat * 2097152 + c.toNat * 32768 + s.toNat * 512) from rfl]
  generalize hw : 363 + w.toNat * 2097152 + c.toNat * 32768 + s.toNat * 512 = wd
  obtain ⟨hlt, hodd, h2, h1, h3, e0, e1, e2⟩ := shape20 363 wd w c s (by decide) (by omega)
  refine decode_word wd _ rest hlt hodd ?_
  simp only [Nat.reduceDiv, Nat.reduceMod] at h1 h2
  simp only [decode32, h1, decodeE, h2, fixedOr, h3, if_true, e0, e1, e2]
theorem lucommit (w : BitVec 6) (c : BitVec 6) (s : BitVec 6) : Statement (.lucommit w c s) := by
  intro _ _ rest
  rw [show encode (.lucommit w c s) = natBytes 4 (379 + w.toNat * 2097152 + c.toNat * 32768 + s.toNat * 512) from rfl]
  generalize hw : 379 + w.toNat * 2097152 + c.toNat * 32768 + s.toNat * 512 = wd
  obtain ⟨hlt, hodd, h2, h1, h3, e0, e1, e2⟩ := shape20 379 wd w c s (by decide) (by omega)
  refine decode_word wd _ rest hlt hodd ?_
  simp only [Nat.reduceDiv, Nat.reduceMod] at h1 h2
  simp only [decode32, h1, decodeE, h2, fixedOr, h3, if_true, e0, e1, e2]
theorem luend (w : BitVec 6) (c : BitVec 6) (s : BitVec 6) : Statement (.luend w c s) := by
  intro _ _ rest
  rw [show encode (.luend w c s) = natBytes 4 (395 + w.toNat * 2097152 + c.toNat * 32768 + s.toNat * 512) from rfl]
  generalize hw : 395 + w.toNat * 2097152 + c.toNat * 32768 + s.toNat * 512 = wd
  obtain ⟨hlt, hodd, h2, h1, h3, e0, e1, e2⟩ := shape20 395 wd w c s (by decide) (by omega)
  refine decode_word wd _ rest hlt hodd ?_
  simp only [Nat.reduceDiv, Nat.reduceMod] at h1 h2
  simp only [decode32, h1, decodeE, h2, fixedOr, h3, if_true, e0, e1, e2]
theorem smul (f : BitVec 2) (w : BitVec 6) (c : BitVec 6) (s : BitVec 6) : Statement (.smul f w c s) := by
  intro _ _ rest
  rw [show encode (.smul f w c s) = natBytes 4 (411 + f.toNat * 134217728 + w.toNat * 2097152 + c.toNat * 32768 + s.toNat * 512) from rfl]
  generalize hw : 411 + f.toNat * 134217728 + w.toNat * 2097152 + c.toNat * 32768 + s.toNat * 512 = wd
  obtain ⟨hlt, hodd, h2, h1, h3, e0, e1, e2, e3⟩ := shape18 411 wd f w c s (by decide) (by omega)
  refine decode_word wd _ rest hlt hodd ?_
  simp only [Nat.reduceDiv, Nat.reduceMod] at h1 h2
  simp only [decode32, h1, decodeE, h2, fixedOr, h3, if_true, e0, e1, e2, e3]
theorem strunc (f : BitVec 2) (w : BitVec 6) (s : BitVec 6) : Statement (.strunc f w s) := by
  intro _ _ rest
  rw [show encode (.strunc f w s) = natBytes 4 (2032043 + f.toNat * 134217728 + w.toNat * 2097152 + s.toNat * 512) from rfl]
  generalize hw : 2032043 + f.toNat * 134217728 + w.toNat * 2097152 + s.toNat * 512 = wd
  obtain ⟨hlt, hodd, h2, h1, h3, e0, e1, e2⟩ := shape30 427 wd f w s (by decide) (by omega)
  refine decode_word wd _ rest hlt hodd ?_
  simp only [Nat.reduceDiv, Nat.reduceMod] at h1 h2
  simp only [decode32, h1, decodeE, h2, fixedOr, h3, if_true, e0, e1, e2]
theorem sltz (f : BitVec 2) (w : BitVec 6) (s : BitVec 6) : Statement (.sltz f w s) := by
  intro _ _ rest
  rw [show encode (.sltz f w s) = natBytes 4 (2032059 + f.toNat * 134217728 + w.toNat * 2097152 + s.toNat * 512) from rfl]
  generalize hw : 2032059 + f.toNat * 134217728 + w.toNat * 2097152 + s.toNat * 512 = wd
  obtain ⟨hlt, hodd, h2, h1, h3, e0, e1, e2⟩ := shape30 443 wd f w s (by decide) (by omega)
  refine decode_word wd _ rest hlt hodd ?_
  simp only [Nat.reduceDiv, Nat.reduceMod] at h1 h2
  simp only [decode32, h1, decodeE, h2, fixedOr, h3, if_true, e0, e1, e2]
theorem slut (t : BitVec 2) (f : BitVec 2) (w : BitVec 6) (s : BitVec 6) : Statement (.slut t f w s) := by
  intro _ _ rest
  rw [show encode (.slut t f w s) = natBytes 4 (2032075 + t.toNat * 536870912 + f.toNat * 134217728 + w.toNat * 2097152 + s.toNat * 512) from rfl]
  generalize hw : 2032075 + t.toNat * 536870912 + f.toNat * 134217728 + w.toNat * 2097152 + s.toNat * 512 = wd
  obtain ⟨hlt, hodd, h2, h1, h3, e0, e1, e2, e3⟩ := shape31 459 wd t f w s (by decide) (by omega)
  refine decode_word wd _ rest hlt hodd ?_
  simp only [Nat.reduceDiv, Nat.reduceMod] at h1 h2
  simp only [decode32, h1, decodeE, h2, fixedOr, h3, if_true, e0, e1, e2, e3]
theorem sopen (f : BitVec 2) (w : BitVec 6) (s : BitVec 6) : Statement (.sopen f w s) := by
  intro _ _ rest
  rw [show encode (.sopen f w s) = natBytes 4 (2032091 + f.toNat * 134217728 + w.toNat * 2097152 + s.toNat * 512) from rfl]
  generalize hw : 2032091 + f.toNat * 134217728 + w.toNat * 2097152 + s.toNat * 512 = wd
  obtain ⟨hlt, hodd, h2, h1, h3, e0, e1, e2⟩ := shape30 475 wd f w s (by decide) (by omega)
  refine decode_word wd _ rest hlt hodd ?_
  simp only [Nat.reduceDiv, Nat.reduceMod] at h1 h2
  simp only [decode32, h1, decodeE, h2, fixedOr, h3, if_true, e0, e1, e2]
theorem accrow (w : BitVec 6) (c : BitVec 6) (s : BitVec 6) : Statement (.accrow w c s) := by
  intro _ _ rest
  rw [show encode (.accrow w c s) = natBytes 4 (491 + w.toNat * 2097152 + c.toNat * 32768 + s.toNat * 512) from rfl]
  generalize hw : 491 + w.toNat * 2097152 + c.toNat * 32768 + s.toNat * 512 = wd
  obtain ⟨hlt, hodd, h2, h1, h3, e0, e1, e2⟩ := shape20 491 wd w c s (by decide) (by omega)
  refine decode_word wd _ rest hlt hodd ?_
  simp only [Nat.reduceDiv, Nat.reduceMod] at h1 h2
  simp only [decode32, h1, decodeE, h2, fixedOr, h3, if_true, e0, e1, e2]
theorem nop : Statement .nop := fun _ _ rest => decode_word 4126733 _ rest (by decide) (by decide) rfl
theorem barg : Statement .barg := fun _ _ rest => decode_word 4126749 _ rest (by decide) (by decide) rfl
theorem bart (i : BitVec 8) : Statement (.bart i) := by
  intro _ _ rest
  rw [show encode (.bart i) = natBytes 4 (4126765 + i.toNat * 4194304) from rfl]
  generalize hw : 4126765 + i.toNat * 4194304 = wd
  obtain ⟨hlt, hodd, h2, h1, h3, e0⟩ := shape32 45 wd i (by decide) (by omega)
  refine decode_word wd _ rest hlt hodd ?_
  simp only [Nat.reduceDiv, Nat.reduceMod] at h1 h2
  simp only [decode32, h1, decodeS, h2, fixedOr, h3, if_true, e0]
theorem bararv (i : BitVec 8) : Statement (.bararv i) := by
  intro _ _ rest
  rw [show encode (.bararv i) = natBytes 4 (4126781 + i.toNat * 4194304) from rfl]
  generalize hw : 4126781 + i.toNat * 4194304 = wd
  obtain ⟨hlt, hodd, h2, h1, h3, e0⟩ := shape32 61 wd i (by decide) (by omega)
  refine decode_word wd _ rest hlt hodd ?_
  simp only [Nat.reduceDiv, Nat.reduceMod] at h1 h2
  simp only [decode32, h1, decodeS, h2, fixedOr, h3, if_true, e0]
theorem barwt (i : BitVec 4) : Statement (.barwt i) := by
  intro _ _ rest
  rw [show encode (.barwt i) = natBytes 4 (4126797 + i.toNat * 4194304) from rfl]
  generalize hw : 4126797 + i.toNat * 4194304 = wd
  obtain ⟨hlt, hodd, h2, h1, h3, e0⟩ := shape33 77 wd i (by decide) (by omega)
  refine decode_word wd _ rest hlt hodd ?_
  simp only [Nat.reduceDiv, Nat.reduceMod] at h1 h2
  simp only [decode32, h1, decodeS, h2, fixedOr, h3, if_true, e0]
theorem waitc (i : BitVec 10) : Statement (.waitc i) := by
  intro _ _ rest
  rw [show encode (.waitc i) = natBytes 4 (4126813 + i.toNat * 4194304) from rfl]
  generalize hw : 4126813 + i.toNat * 4194304 = wd
  obtain ⟨hlt, hodd, h2, h1, h3, e0⟩ := shape34 93 wd i (by decide) (by omega)
  refine decode_word wd _ rest hlt hodd ?_
  simp only [Nat.reduceDiv, Nat.reduceMod] at h1 h2
  simp only [decode32, h1, decodeS, h2, fixedOr, h3, if_true, e0]
theorem waitw (a : BitVec 6) (d : BitVec 6) : Statement (.waitw a d) := by
  intro _ _ rest
  rw [show encode (.waitw a d) = natBytes 4 (109 + a.toNat * 65536 + d.toNat * 1024) from rfl]
  generalize hw : 109 + a.toNat * 65536 + d.toNat * 1024 = wd
  obtain ⟨hlt, hodd, h2, h1, h3, e0, e1⟩ := shape35 109 wd a d (by decide) (by omega)
  refine decode_word wd _ rest hlt hodd ?_
  simp only [Nat.reduceDiv, Nat.reduceMod] at h1 h2
  simp only [decode32, h1, decodeS, h2, fixedOr, h3, if_true, e0, e1]
theorem swait (a : BitVec 6) (d : BitVec 6) : Statement (.swait a d) := by
  intro _ _ rest
  rw [show encode (.swait a d) = natBytes 4 (125 + a.toNat * 65536 + d.toNat * 1024) from rfl]
  generalize hw : 125 + a.toNat * 65536 + d.toNat * 1024 = wd
  obtain ⟨hlt, hodd, h2, h1, h3, e0, e1⟩ := shape35 125 wd a d (by decide) (by omega)
  refine decode_word wd _ rest hlt hodd ?_
  simp only [Nat.reduceDiv, Nat.reduceMod] at h1 h2
  simp only [decode32, h1, decodeS, h2, fixedOr, h3, if_true, e0, e1]
theorem syncset (a : BitVec 6) (d : BitVec 6) : Statement (.syncset a d) := by
  intro _ _ rest
  rw [show encode (.syncset a d) = natBytes 4 (141 + a.toNat * 65536 + d.toNat * 1024) from rfl]
  generalize hw : 141 + a.toNat * 65536 + d.toNat * 1024 = wd
  obtain ⟨hlt, hodd, h2, h1, h3, e0, e1⟩ := shape35 141 wd a d (by decide) (by omega)
  refine decode_word wd _ rest hlt hodd ?_
  simp only [Nat.reduceDiv, Nat.reduceMod] at h1 h2
  simp only [decode32, h1, decodeS, h2, fixedOr, h3, if_true, e0, e1]
theorem mbr (k : BitVec 3) (d : BitVec 6) : Statement (.mbr k d) := by
  intro _ _ rest
  rw [show encode (.mbr k d) = natBytes 4 (4063389 + k.toNat * 4194304 + d.toNat * 1024) from rfl]
  generalize hw : 4063389 + k.toNat * 4194304 + d.toNat * 1024 = wd
  obtain ⟨hlt, hodd, h2, h1, h3, e0, e1⟩ := shape36 157 wd k d (by decide) (by omega)
  refine decode_word wd _ rest hlt hodd ?_
  simp only [Nat.reduceDiv, Nat.reduceMod] at h1 h2
  simp only [decode32, h1, decodeS, h2, fixedOr, h3, if_true, e0, e1]
theorem mbw (k : BitVec 3) (a : BitVec 6) : Statement (.mbw k a) := by
  intro _ _ rest
  rw [show encode (.mbw k a) = natBytes 4 (63661 + k.toNat * 4194304 + a.toNat * 65536) from rfl]
  generalize hw : 63661 + k.toNat * 4194304 + a.toNat * 65536 = wd
  obtain ⟨hlt, hodd, h2, h1, h3, e0, e1⟩ := shape37 173 wd k a (by decide) (by omega)
  refine decode_word wd _ rest hlt hodd ?_
  simp only [Nat.reduceDiv, Nat.reduceMod] at h1 h2
  simp only [decode32, h1, decodeS, h2, fixedOr, h3, if_true, e0, e1]
theorem qroute (a : BitVec 6) : Statement (.qroute a) := by
  intro _ _ rest
  rw [show encode (.qroute a) = natBytes 4 (63677 + a.toNat * 65536) from rfl]
  generalize hw : 63677 + a.toNat * 65536 = wd
  obtain ⟨hlt, hodd, h2, h1, h3, e0⟩ := shape38 189 wd a (by decide) (by omega)
  refine decode_word wd _ rest hlt hodd ?_
  simp only [Nat.reduceDiv, Nat.reduceMod] at h1 h2
  simp only [decode32, h1, decodeS, h2, fixedOr, h3, if_true, e0]
theorem qstat (i : BitVec 10) (d : BitVec 6) : Statement (.qstat i d) := by
  intro _ _ rest
  rw [show encode (.qstat i d) = natBytes 4 (4063437 + i.toNat * 4194304 + d.toNat * 1024) from rfl]
  generalize hw : 4063437 + i.toNat * 4194304 + d.toNat * 1024 = wd
  obtain ⟨hlt, hodd, h2, h1, h3, e0, e1⟩ := shape2 205 wd i d (by decide) (by omega)
  refine decode_word wd _ rest hlt hodd ?_
  simp only [Nat.reduceDiv, Nat.reduceMod] at h1 h2
  simp only [decode32, h1, decodeS, h2, fixedOr, h3, if_true, e0, e1]
theorem yield : Statement .yield := fun _ _ rest => decode_word 4126941 _ rest (by decide) (by decide) rfl
theorem nap (i : BitVec 10) : Statement (.nap i) := by
  intro _ _ rest
  rw [show encode (.nap i) = natBytes 4 (4126957 + i.toNat * 4194304) from rfl]
  generalize hw : 4126957 + i.toNat * 4194304 = wd
  obtain ⟨hlt, hodd, h2, h1, h3, e0⟩ := shape34 237 wd i (by decide) (by omega)
  refine decode_word wd _ rest hlt hodd ?_
  simp only [Nat.reduceDiv, Nat.reduceMod] at h1 h2
  simp only [decode32, h1, decodeS, h2, fixedOr, h3, if_true, e0]
theorem reggrow (w : BitVec 1) (n : BitVec 6) (d : BitVec 6) : Statement (.reggrow w n d) := by
  intro _ _ rest
  rw [show encode (.reggrow w n d) = natBytes 4 (4063485 + w.toNat * 2147483648 + n.toNat * 4194304 + d.toNat * 1024) from rfl]
  generalize hw : 4063485 + w.toNat * 2147483648 + n.toNat * 4194304 + d.toNat * 1024 = wd
  obtain ⟨hlt, hodd, h2, h1, h3, e0, e1, e2⟩ := shape39 253 wd w n d (by decide) (by omega)
  refine decode_word wd _ rest hlt hodd ?_
  simp only [Nat.reduceDiv, Nat.reduceMod] at h1 h2
  simp only [decode32, h1, decodeS, h2, fixedOr, h3, if_true, e0, e1, e2]
theorem regshrink (n : BitVec 6) (d : BitVec 6) : Statement (.regshrink n d) := by
  intro _ _ rest
  rw [show encode (.regshrink n d) = natBytes 4 (4063501 + n.toNat * 4194304 + d.toNat * 1024) from rfl]
  generalize hw : 4063501 + n.toNat * 4194304 + d.toNat * 1024 = wd
  obtain ⟨hlt, hodd, h2, h1, h3, e0, e1⟩ := shape40 269 wd n d (by decide) (by omega)
  refine decode_word wd _ rest hlt hodd ?_
  simp only [Nat.reduceDiv, Nat.reduceMod] at h1 h2
  simp only [decode32, h1, decodeS, h2, fixedOr, h3, if_true, e0, e1]
theorem ident (i : BitVec 10) (d : BitVec 6) : Statement (.ident i d) := by
  intro _ _ rest
  rw [show encode (.ident i d) = natBytes 4 (4063517 + i.toNat * 4194304 + d.toNat * 1024) from rfl]
  generalize hw : 4063517 + i.toNat * 4194304 + d.toNat * 1024 = wd
  obtain ⟨hlt, hodd, h2, h1, h3, e0, e1⟩ := shape2 285 wd i d (by decide) (by omega)
  refine decode_word wd _ rest hlt hodd ?_
  simp only [Nat.reduceDiv, Nat.reduceMod] at h1 h2
  simp only [decode32, h1, decodeS, h2, fixedOr, h3, if_true, e0, e1]
theorem trap (a : BitVec 6) : Statement (.trap a) := by
  intro _ _ rest
  rw [show encode (.trap a) = natBytes 4 (63789 + a.toNat * 65536) from rfl]
  generalize hw : 63789 + a.toNat * 65536 = wd
  obtain ⟨hlt, hodd, h2, h1, h3, e0⟩ := shape38 301 wd a (by decide) (by omega)
  refine decode_word wd _ rest hlt hodd ?_
  simp only [Nat.reduceDiv, Nat.reduceMod] at h1 h2
  simp only [decode32, h1, decodeS, h2, fixedOr, h3, if_true, e0]
theorem flagrd (i : BitVec 10) (d : BitVec 6) : Statement (.flagrd i d) := by
  intro _ _ rest
  rw [show encode (.flagrd i d) = natBytes 4 (4063549 + i.toNat * 4194304 + d.toNat * 1024) from rfl]
  generalize hw : 4063549 + i.toNat * 4194304 + d.toNat * 1024 = wd
  obtain ⟨hlt, hodd, h2, h1, h3, e0, e1⟩ := shape2 317 wd i d (by decide) (by omega)
  refine decode_word wd _ rest hlt hodd ?_
  simp only [Nat.reduceDiv, Nat.reduceMod] at h1 h2
  simp only [decode32, h1, decodeS, h2, fixedOr, h3, if_true, e0, e1]
theorem flagclr (i : BitVec 7) : Statement (.flagclr i) := by
  intro _ _ rest
  rw [show encode (.flagclr i) = natBytes 4 (4127053 + i.toNat * 4194304) from rfl]
  generalize hw : 4127053 + i.toNat * 4194304 = wd
  obtain ⟨hlt, hodd, h2, h1, h3, e0⟩ := shape41 333 wd i (by decide) (by omega)
  refine decode_word wd _ rest hlt hodd ?_
  simp only [Nat.reduceDiv, Nat.reduceMod] at h1 h2
  simp only [decode32, h1, decodeS, h2, fixedOr, h3, if_true, e0]
theorem csrrd (i : BitVec 10) (d : BitVec 6) : Statement (.csrrd i d) := by
  intro _ _ rest
  rw [show encode (.csrrd i d) = natBytes 4 (4063581 + i.toNat * 4194304 + d.toNat * 1024) from rfl]
  generalize hw : 4063581 + i.toNat * 4194304 + d.toNat * 1024 = wd
  obtain ⟨hlt, hodd, h2, h1, h3, e0, e1⟩ := shape2 349 wd i d (by decide) (by omega)
  refine decode_word wd _ rest hlt hodd ?_
  simp only [Nat.reduceDiv, Nat.reduceMod] at h1 h2
  simp only [decode32, h1, decodeS, h2, fixedOr, h3, if_true, e0, e1]
theorem csrwr (i : BitVec 10) (a : BitVec 6) : Statement (.csrwr i a) := by
  intro _ _ rest
  rw [show encode (.csrwr i a) = natBytes 4 (63853 + i.toNat * 4194304 + a.toNat * 65536) from rfl]
  generalize hw : 63853 + i.toNat * 4194304 + a.toNat * 65536 = wd
  obtain ⟨hlt, hodd, h2, h1, h3, e0, e1⟩ := shape42 365 wd i a (by decide) (by omega)
  refine decode_word wd _ rest hlt hodd ?_
  simp only [Nat.reduceDiv, Nat.reduceMod] at h1 h2
  simp only [decode32, h1, decodeS, h2, fixedOr, h3, if_true, e0, e1]
theorem elect (d : BitVec 6) : Statement (.elect d) := by
  intro _ _ rest
  rw [show encode (.elect d) = natBytes 4 (4063613 + d.toNat * 1024) from rfl]
  generalize hw : 4063613 + d.toNat * 1024 = wd
  obtain ⟨hlt, hodd, h2, h1, h3, e0⟩ := shape43 381 wd d (by decide) (by omega)
  refine decode_word wd _ rest hlt hodd ?_
  simp only [Nat.reduceDiv, Nat.reduceMod] at h1 h2
  simp only [decode32, h1, decodeS, h2, fixedOr, h3, if_true, e0]
theorem vote (i : BitVec 10) (a : BitVec 6) (d : BitVec 6) : Statement (.vote i a d) := by
  intro _ _ rest
  rw [show encode (.vote i a d) = natBytes 4 (397 + i.toNat * 4194304 + a.toNat * 65536 + d.toNat * 1024) from rfl]
  generalize hw : 397 + i.toNat * 4194304 + a.toNat * 65536 + d.toNat * 1024 = wd
  obtain ⟨hlt, hodd, h2, h1, e0, e1, e2⟩ := shape4 397 wd i a d (by decide) (by omega)
  refine decode_word wd _ rest hlt hodd ?_
  simp only [Nat.reduceDiv, Nat.reduceMod] at h1 h2
  simp only [decode32, h1, decodeS, h2, e0, e1, e2]
theorem dflush : Statement .dflush := fun _ _ rest => decode_word 4127133 _ rest (by decide) (by decide) rfl
theorem tblld (k : BitVec 2) (a : BitVec 6) : Statement (.tblld k a) := by
  intro _ _ rest
  rw [show encode (.tblld k a) = natBytes 4 (63917 + k.toNat * 4194304 + a.toNat * 65536) from rfl]
  generalize hw : 63917 + k.toNat * 4194304 + a.toNat * 65536 = wd
  obtain ⟨hlt, hodd, h2, h1, h3, e0, e1⟩ := shape44 429 wd k a (by decide) (by omega)
  refine decode_word wd _ rest hlt hodd ?_
  simp only [Nat.reduceDiv, Nat.reduceMod] at h1 h2
  simp only [decode32, h1, decodeS, h2, fixedOr, h3, if_true, e0, e1]
theorem stmap (i : BitVec 10) (a : BitVec 6) (d : BitVec 6) : Statement (.stmap i a d) := by
  intro _ _ rest
  rw [show encode (.stmap i a d) = natBytes 4 (445 + i.toNat * 4194304 + a.toNat * 65536 + d.toNat * 1024) from rfl]
  generalize hw : 445 + i.toNat * 4194304 + a.toNat * 65536 + d.toNat * 1024 = wd
  obtain ⟨hlt, hodd, h2, h1, e0, e1, e2⟩ := shape4 445 wd i a d (by decide) (by omega)
  refine decode_word wd _ rest hlt hodd ?_
  simp only [Nat.reduceDiv, Nat.reduceMod] at h1 h2
  simp only [decode32, h1, decodeS, h2, e0, e1, e2]
theorem stflush (a : BitVec 6) : Statement (.stflush a) := by
  intro _ _ rest
  rw [show encode (.stflush a) = natBytes 4 (63949 + a.toNat * 65536) from rfl]
  generalize hw : 63949 + a.toNat * 65536 = wd
  obtain ⟨hlt, hodd, h2, h1, h3, e0⟩ := shape38 461 wd a (by decide) (by omega)
  refine decode_word wd _ rest hlt hodd ?_
  simp only [Nat.reduceDiv, Nat.reduceMod] at h1 h2
  simp only [decode32, h1, decodeS, h2, fixedOr, h3, if_true, e0]
theorem xfence : Statement .xfence := fun _ _ rest => decode_word 4127197 _ rest (by decide) (by decide) rfl
theorem launch (q : BitVec 5) (a : BitVec 6) (d : BitVec 6) : Statement (.launch q a d) := by
  intro _ _ rest
  rw [show encode (.launch q a d) = natBytes 4 (493 + q.toNat * 4194304 + a.toNat * 65536 + d.toNat * 1024) from rfl]
  generalize hw : 493 + q.toNat * 4194304 + a.toNat * 65536 + d.toNat * 1024 = wd
  obtain ⟨hlt, hodd, h2, h1, h3, e0, e1, e2⟩ := shape5 493 wd q a d (by decide) (by omega)
  refine decode_word wd _ rest hlt hodd ?_
  simp only [Nat.reduceDiv, Nat.reduceMod] at h1 h2
  simp only [decode32, h1, decodeS, h2, fixedOr, h3, if_true, e0, e1, e2]
theorem mark (i : BitVec 10) (a : BitVec 6) : Statement (.mark i a) := by
  intro _ _ rest
  rw [show encode (.mark i a) = natBytes 4 (63997 + i.toNat * 4194304 + a.toNat * 65536) from rfl]
  generalize hw : 63997 + i.toNat * 4194304 + a.toNat * 65536 = wd
  obtain ⟨hlt, hodd, h2, h1, h3, e0, e1⟩ := shape42 509 wd i a (by decide) (by omega)
  refine decode_word wd _ rest hlt hodd ?_
  simp only [Nat.reduceDiv, Nat.reduceMod] at h1 h2
  simp only [decode32, h1, decodeS, h2, fixedOr, h3, if_true, e0, e1]
theorem perfrd (i : BitVec 10) (d : BitVec 6) : Statement (.perfrd i d) := by
  intro _ _ rest
  rw [show encode (.perfrd i d) = natBytes 4 (4063757 + i.toNat * 4194304 + d.toNat * 1024) from rfl]
  generalize hw : 4063757 + i.toNat * 4194304 + d.toNat * 1024 = wd
  obtain ⟨hlt, hodd, h2, h1, h3, e0, e1⟩ := shape2 525 wd i d (by decide) (by omega)
  refine decode_word wd _ rest hlt hodd ?_
  simp only [Nat.reduceDiv, Nat.reduceMod] at h1 h2
  simp only [decode32, h1, decodeS, h2, fixedOr, h3, if_true, e0, e1]
theorem dwsel (a : BitVec 6) (d : BitVec 6) : Statement (.dwsel a d) := by
  intro _ _ rest
  rw [show encode (.dwsel a d) = natBytes 4 (541 + a.toNat * 65536 + d.toNat * 1024) from rfl]
  generalize hw : 541 + a.toNat * 65536 + d.toNat * 1024 = wd
  obtain ⟨hlt, hodd, h2, h1, h3, e0, e1⟩ := shape35 541 wd a d (by decide) (by omega)
  refine decode_word wd _ rest hlt hodd ?_
  simp only [Nat.reduceDiv, Nat.reduceMod] at h1 h2
  simp only [decode32, h1, decodeS, h2, fixedOr, h3, if_true, e0, e1]
theorem dwrd (a : BitVec 6) (d : BitVec 6) : Statement (.dwrd a d) := by
  intro _ _ rest
  rw [show encode (.dwrd a d) = natBytes 4 (557 + a.toNat * 65536 + d.toNat * 1024) from rfl]
  generalize hw : 557 + a.toNat * 65536 + d.toNat * 1024 = wd
  obtain ⟨hlt, hodd, h2, h1, h3, e0, e1⟩ := shape35 557 wd a d (by decide) (by omega)
  refine decode_word wd _ rest hlt hodd ?_
  simp only [Nat.reduceDiv, Nat.reduceMod] at h1 h2
  simp only [decode32, h1, decodeS, h2, fixedOr, h3, if_true, e0, e1]
theorem dwwr (a : BitVec 6) (d : BitVec 6) : Statement (.dwwr a d) := by
  intro _ _ rest
  rw [show encode (.dwwr a d) = natBytes 4 (573 + a.toNat * 65536 + d.toNat * 1024) from rfl]
  generalize hw : 573 + a.toNat * 65536 + d.toNat * 1024 = wd
  obtain ⟨hlt, hodd, h2, h1, h3, e0, e1⟩ := shape35 573 wd a d (by decide) (by omega)
  refine decode_word wd _ rest hlt hodd ?_
  simp only [Nat.reduceDiv, Nat.reduceMod] at h1 h2
  simp only [decode32, h1, decodeS, h2, fixedOr, h3, if_true, e0, e1]
theorem dwres (i : BitVec 10) (a : BitVec 6) : Statement (.dwres i a) := by
  intro _ _ rest
  rw [show encode (.dwres i a) = natBytes 4 (64077 + i.toNat * 4194304 + a.toNat * 65536) from rfl]
  generalize hw : 64077 + i.toNat * 4194304 + a.toNat * 65536 = wd
  obtain ⟨hlt, hodd, h2, h1, h3, e0, e1⟩ := shape42 589 wd i a (by decide) (by omega)
  refine decode_word wd _ rest hlt hodd ?_
  simp only [Nat.reduceDiv, Nat.reduceMod] at h1 h2
  simp only [decode32, h1, decodeS, h2, fixedOr, h3, if_true, e0, e1]
theorem dwkill : Statement .dwkill := fun _ _ rest => decode_word 4127325 _ rest (by decide) (by decide) rfl
theorem deviceReset : Statement (.deviceReset) := fun h => by cases h
theorem firmwareImageReceived x0 x1 x2 : Statement (.firmwareImageReceived x0 x1 x2) := fun h => by cases h
theorem diePowerUp : Statement (.diePowerUp) := fun h => by cases h
theorem clusterPowerUp x0 : Statement (.clusterPowerUp x0) := fun h => by cases h
theorem bootStageComplete x0 : Statement (.bootStageComplete x0) := fun h => by cases h
theorem columnRampStep x0 : Statement (.columnRampStep x0) := fun h => by cases h
theorem lifecycleTransition x0 x1 x2 x3 : Statement (.lifecycleTransition x0 x1 x2 x3) := fun h => by cases h
theorem mctpStatusRequest : Statement (.mctpStatusRequest) := fun h => by cases h
theorem pldmFirmwareUpdate x0 x1 x2 : Statement (.pldmFirmwareUpdate x0 x1 x2) := fun h => by cases h
theorem pldmMonitoring : Statement (.pldmMonitoring) := fun h => by cases h
theorem spdmDeviceAuthentication x0 : Statement (.spdmDeviceAuthentication x0) := fun h => by cases h
theorem flitInject x0 x1 x2 x3 x4 : Statement (.flitInject x0 x1 x2 x3 x4) := fun h => by cases h
theorem slotReserve x0 x1 x2 x3 : Statement (.slotReserve x0 x1 x2 x3) := fun h => by cases h
theorem flitPassStation x0 x1 x2 x3 x4 : Statement (.flitPassStation x0 x1 x2 x3 x4) := fun h => by cases h
theorem flitAtDestination x0 x1 x2 x3 x4 x5 : Statement (.flitAtDestination x0 x1 x2 x3 x4 x5) := fun h => by cases h
theorem reassemblyIdleTimeout x0 x1 x2 x3 x4 : Statement (.reassemblyIdleTimeout x0 x1 x2 x3 x4) := fun h => by cases h
theorem reassemblyAheadTimeout x0 x1 x2 x3 x4 : Statement (.reassemblyAheadTimeout x0 x1 x2 x3 x4) := fun h => by cases h
theorem linkFrameSend x0 : Statement (.linkFrameSend x0) := fun h => by cases h
theorem linkFlitReceive x0 x1 x2 : Statement (.linkFlitReceive x0 x1 x2) := fun h => by cases h
theorem nakReceive x0 x1 : Statement (.nakReceive x0 x1) := fun h => by cases h
theorem nakResendTimeout x0 : Statement (.nakResendTimeout x0) := fun h => by cases h
theorem pauseReceive x0 x1 : Statement (.pauseReceive x0 x1) := fun h => by cases h
theorem resumeReceive x0 x1 : Statement (.resumeReceive x0 x1) := fun h => by cases h
theorem flowStateRepeat x0 : Statement (.flowStateRepeat x0) := fun h => by cases h
theorem keyswReceive x0 x1 x2 : Statement (.keyswReceive x0 x1 x2) := fun h => by cases h
theorem linkAbortReceive x0 x1 x2 : Statement (.linkAbortReceive x0 x1 x2) := fun h => by cases h
theorem keySwitchPoint x0 : Statement (.keySwitchPoint x0) := fun h => by cases h
theorem keyHoldPoint x0 : Statement (.keyHoldPoint x0) := fun h => by cases h
theorem keyLoadTimeout x0 : Statement (.keyLoadTimeout x0) := fun h => by cases h
theorem keyLoad x0 x1 x2 x3 x4 x5 : Statement (.keyLoad x0 x1 x2 x3 x4 x5) := fun h => by cases h
theorem linkKeyAgreement x0 x1 x2 x3 x4 : Statement (.linkKeyAgreement x0 x1 x2 x3 x4) := fun h => by cases h
theorem frameLockLoss x0 : Statement (.frameLockLoss x0) := fun h => by cases h
theorem linkDownCommand x0 : Statement (.linkDownCommand x0) := fun h => by cases h
theorem linkUp x0 : Statement (.linkUp x0) := fun h => by cases h
theorem routeTableWrite x0 x1 x2 : Statement (.routeTableWrite x0 x1 x2) := fun h => by cases h
theorem deviceIdentityWrite x0 : Statement (.deviceIdentityWrite x0) := fun h => by cases h
theorem ctxSubmit x0 x1 x2 x3 : Statement (.ctxSubmit x0 x1 x2 x3) := fun h => by cases h
theorem qbaseWrite x0 x1 x2 x3 x4 : Statement (.qbaseWrite x0 x1 x2 x3 x4) := fun h => by cases h
theorem qcfgWrite x0 x1 x2 x3 x4 : Statement (.qcfgWrite x0 x1 x2 x3 x4) := fun h => by cases h
theorem featackWrite x0 x1 : Statement (.featackWrite x0 x1) := fun h => by cases h
theorem registerWrite x0 x1 x2 : Statement (.registerWrite x0 x1 x2) := fun h => by cases h
theorem hostBar2Read x0 x1 x2 x3 x4 : Statement (.hostBar2Read x0 x1 x2 x3 x4) := fun h => by cases h
theorem hostBar2Write x0 x1 x2 x3 : Statement (.hostBar2Write x0 x1 x2 x3) := fun h => by cases h
theorem tdispRequest x0 x1 x2 : Statement (.tdispRequest x0 x1 x2) := fun h => by cases h
theorem vfConfigChange x0 : Statement (.vfConfigChange x0) := fun h => by cases h
theorem partitionAssign x0 x1 x2 x3 x4 x5 x6 : Statement (.partitionAssign x0 x1 x2 x3 x4 x5 x6) := fun h => by cases h
theorem partitionReset x0 : Statement (.partitionReset x0) := fun h => by cases h
theorem ownerChange x0 x1 : Statement (.ownerChange x0 x1) := fun h => by cases h
theorem contextActivate x0 x1 x2 x3 x4 x5 x6 x7 x8 x9 x10 : Statement (.contextActivate x0 x1 x2 x3 x4 x5 x6 x7 x8 x9 x10) := fun h => by cases h
theorem contextFree x0 x1 : Statement (.contextFree x0 x1) := fun h => by cases h
theorem stileSessionOpen x0 x1 x2 x3 x4 x5 x6 : Statement (.stileSessionOpen x0 x1 x2 x3 x4 x5 x6) := fun h => by cases h
theorem hamperRegionName x0 x1 x2 : Statement (.hamperRegionName x0 x1 x2) := fun h => by cases h
theorem consentWithdraw x0 x1 : Statement (.consentWithdraw x0 x1) := fun h => by cases h
theorem coreReclaimRequest x0 x1 x2 x3 : Statement (.coreReclaimRequest x0 x1 x2 x3) := fun h => by cases h
theorem coreReturn x0 x1 x2 : Statement (.coreReturn x0 x1 x2) := fun h => by cases h
theorem yieldDeadline x0 : Statement (.yieldDeadline x0) := fun h => by cases h
theorem teamEvictSave x0 : Statement (.teamEvictSave x0) := fun h => by cases h
theorem remoteGrant x0 x1 x2 : Statement (.remoteGrant x0 x1 x2) := fun h => by cases h
theorem remoteRevoke x0 x1 x2 : Statement (.remoteRevoke x0 x1 x2) := fun h => by cases h
theorem debugBreakpointSet x0 x1 x2 x3 : Statement (.debugBreakpointSet x0 x1 x2 x3) := fun h => by cases h
theorem traceRingEnable x0 x1 : Statement (.traceRingEnable x0 x1) := fun h => by cases h
theorem meteringStatementRequest x0 x1 x2 : Statement (.meteringStatementRequest x0 x1 x2) := fun h => by cases h
theorem jobBegin x0 x1 x2 : Statement (.jobBegin x0 x1 x2) := fun h => by cases h
theorem jobEnd x0 x1 : Statement (.jobEnd x0 x1) := fun h => by cases h
theorem jobRecordRequest x0 x1 : Statement (.jobRecordRequest x0 x1) := fun h => by cases h
theorem nodeConsume x0 x1 : Statement (.nodeConsume x0 x1) := fun h => by cases h
theorem dispatchOpportunity x0 : Statement (.dispatchOpportunity x0) := fun h => by cases h
theorem clusterReserve x0 : Statement (.clusterReserve x0) := fun h => by cases h
theorem controlThreadStart x0 : Statement (.controlThreadStart x0) := fun h => by cases h
theorem teamRetire x0 : Statement (.teamRetire x0) := fun h => by cases h
theorem nodeCommit x0 x1 : Statement (.nodeCommit x0 x1) := fun h => by cases h
theorem rollbackRequeue x0 x1 : Statement (.rollbackRequeue x0 x1) := fun h => by cases h
theorem handlerStart x0 : Statement (.handlerStart x0) := fun h => by cases h
theorem whistleFire x0 : Statement (.whistleFire x0) := fun h => by cases h
theorem ownerTimeout x0 : Statement (.ownerTimeout x0) := fun h => by cases h
theorem napExpire x0 x1 : Statement (.napExpire x0 x1) := fun h => by cases h
theorem loadDataArrival x0 x1 x2 x3 : Statement (.loadDataArrival x0 x1 x2 x3) := fun h => by cases h
theorem storePerformed x0 x1 : Statement (.storePerformed x0 x1) := fun h => by cases h
theorem waitwWake x0 x1 : Statement (.waitwWake x0 x1) := fun h => by cases h
theorem reggrowGrant x0 : Statement (.reggrowGrant x0) := fun h => by cases h
theorem accallocGrant x0 : Statement (.accallocGrant x0) := fun h => by cases h
theorem tblldComplete x0 : Statement (.tblldComplete x0) := fun h => by cases h
theorem queueWordDeliver x0 : Statement (.queueWordDeliver x0) := fun h => by cases h
theorem barrierPhaseComplete x0 x1 : Statement (.barrierPhaseComplete x0 x1) := fun h => by cases h
theorem basketBatchApply x0 : Statement (.basketBatchApply x0) := fun h => by cases h
theorem engineCommandStart x0 x1 : Statement (.engineCommandStart x0 x1) := fun h => by cases h
theorem engineCommandComplete x0 x1 x2 : Statement (.engineCommandComplete x0 x1 x2) := fun h => by cases h
theorem remoteLineWrite x0 x1 x2 x3 x4 x5 : Statement (.remoteLineWrite x0 x1 x2 x3 x4 x5) := fun h => by cases h
theorem remoteLineRead x0 x1 x2 x3 x4 x5 : Statement (.remoteLineRead x0 x1 x2 x3 x4 x5) := fun h => by cases h
theorem remoteAck x0 x1 x2 x3 : Statement (.remoteAck x0 x1 x2 x3) := fun h => by cases h
theorem pageFaultService x0 x1 x2 : Statement (.pageFaultService x0 x1 x2) := fun h => by cases h
theorem stashWriteback x0 x1 : Statement (.stashWriteback x0 x1) := fun h => by cases h
theorem bankSparing x0 x1 x2 : Statement (.bankSparing x0 x1 x2) := fun h => by cases h
theorem shareContributionArrive x0 x1 x2 x3 : Statement (.shareContributionArrive x0 x1 x2 x3) := fun h => by cases h
theorem shareResultReceive x0 : Statement (.shareResultReceive x0) := fun h => by cases h
theorem roundDeadline x0 x1 x2 x3 : Statement (.roundDeadline x0 x1 x2 x3) := fun h => by cases h
theorem abortHoldExpiry x0 x1 x2 x3 : Statement (.abortHoldExpiry x0 x1 x2 x3) := fun h => by cases h
theorem stflushWritebackComplete x0 : Statement (.stflushWritebackComplete x0) := fun h => by cases h

end Sys2Proof.Laws.RoundTrip
end

