-- ==== Sys2Proof/Laws/Traps.lean ====
section
/-! SUPPORT. What freeing a team, a device store and ending a context can do (R75, R85, R94, R104, R128). -/

namespace Sys2Proof.Laws
open Sys2Proof.Machine Sys2Proof.Safety

/-- The two states differ in teams, groups and cores alone. -/
structure OnlyTeams (s s' : State) : Prop where
  eq : s' = { s with teams := s'.teams, cores := s'.cores, groups := s'.groups }

theorem OnlyTeams.refl (s : State) : OnlyTeams s s := ⟨rfl⟩
theorem OnlyTeams.trans {s s' s'' : State} (a : OnlyTeams s s') (b : OnlyTeams s' s'') : OnlyTeams s s'' := ⟨by rw [b.eq, a.eq]⟩

/-- Dropping the queues of a team changes windows of teams alone. -/
theorem dropQueues_eq (s : State) (k : TKey) : OnlyTeams s (s.dropQueues k) ∧ (s.dropQueues k).groups = s.groups ∧ (s.dropQueues k).teams.map Team.key = s.teams.map Team.key := by
  unfold State.dropQueues
  generalize List.flatten _ = ws
  revert s
  induction ws with
  | nil => intro s; exact ⟨.refl _, rfl, rfl⟩
  | cons w ws ih =>
    intro s
    obtain ⟨a, b, c⟩ := ih (s.window w.2 false k.node k.team)
    refine ⟨OnlyTeams.trans ⟨rfl⟩ a, b, ?_⟩
    rw [List.foldl_cons, c]
    simp only [State.window, State.modTeam, List.map_map]
    apply List.map_congr_left
    intro t _
    simp only [Function.comp]
    split <;> rfl

/-- Handing mailboxes on changes teams alone. -/
theorem bequeath_eq (c : Nat) (is : List Nat) : ∀ s : State, OnlyTeams s (s.bequeath c is) ∧ (s.bequeath c is).groups = s.groups ∧ (s.bequeath c is).teams.map Team.key = s.teams.map Team.key := by
  induction is with
  | nil => intro s; exact ⟨.refl _, rfl, rfl⟩
  | cons i is ih =>
    intro s
    unfold State.bequeath
    generalize hs : (if s.occupied c i = true then s else _) = s1
    have h1 : OnlyTeams s s1 ∧ s1.groups = s.groups ∧ s1.teams.map Team.key = s.teams.map Team.key := by
      rw [← hs]
      split
      · exact ⟨.refl _, rfl, rfl⟩
      · split
        · refine ⟨⟨rfl⟩, rfl, ?_⟩
          simp only [State.modTeam, List.map_map]
          apply List.map_congr_left
          intro t _
          simp only [Function.comp]
          split <;> rfl
        · exact ⟨.refl _, rfl, rfl⟩
    obtain ⟨a, b, d⟩ := ih s1
    exact ⟨h1.1.trans a, b.trans h1.2.1, d.trans h1.2.2⟩

/-- Freeing a team removes its groups and its entry; beside that only cores and teams change. -/
theorem freeTeam_eq (s : State) (k : TKey) : OnlyTeams s (s.freeTeam k) ∧
    (s.freeTeam k).groups = s.groups.filter (fun g => gkeyTeam g.key != k) ∧
    (s.freeTeam k).teams.map Team.key = (s.teams.map Team.key).filter (fun x => x != k) := by
  obtain ⟨a, b, c⟩ := dropQueues_eq s k
  unfold State.freeTeam
  generalize ((s.team? k).map Team.cores).getD [] = cores
  dsimp only
  obtain ⟨a', b', c'⟩ := bequeath_eq k.ctx cores { s.dropQueues k with groups := (s.dropQueues k).groups.filter fun g => gkeyTeam g.key != k, teams := (s.dropQueues k).teams.filter fun t => t.key != k }
  generalize State.bequeath _ k.ctx cores = s2 at a' b' c' ⊢
  refine ⟨?_, ?_, ?_⟩
  · refine OnlyTeams.trans a ?_
    refine OnlyTeams.trans (s' := { s.dropQueues k with groups := (s.dropQueues k).groups.filter fun g => gkeyTeam g.key != k, teams := (s.dropQueues k).teams.filter fun t => t.key != k }) ⟨rfl⟩ ?_
    exact OnlyTeams.trans a' ⟨rfl⟩
  · simp only [mapCores]; rw [b', b]
  · simp only [mapCores]; rw [c', ← c]
    simp only [List.filter_map]
    rfl

/-- Freeing the teams of one context leaves the groups of the others. -/
theorem freeTeams_eq (c : Nat) (ks : List TKey) : ∀ s : State, (∀ k ∈ ks, k.ctx = c) → let s' := ks.foldl (fun s k => s.freeTeam k) s
    OnlyTeams s s' ∧ (s'.groups.filter fun g => g.key.ctx != c) = (s.groups.filter fun g => g.key.ctx != c) ∧
    s'.teams.map Team.key = (s.teams.map Team.key).filter (fun x => !ks.contains x) := by
  induction ks with
  | nil => intro s _; exact ⟨.refl _, rfl, by simp⟩
  | cons k ks ih =>
    intro s hk
    obtain ⟨a, b, d⟩ := freeTeam_eq s k
    obtain ⟨a', b', d'⟩ := ih (s.freeTeam k) (fun x hx => hk x (by simp [hx]))
    refine ⟨a.trans a', ?_, ?_⟩
    · rw [List.foldl_cons, b', b, List.filter_filter]
      congr 1
      funext g
      have := hk k (by simp)
      by_cases h : g.key.ctx = c
      · simp [h]
      · have : gkeyTeam g.key ≠ k := fun e => h (by rw [← this, ← e]; rfl)
        simp [h, this]
    · rw [List.foldl_cons, d', d, List.filter_filter]
      congr 1
      funext x
      simp only [List.contains_cons, Bool.not_or]
      rw [Bool.and_comm]; rfl


/-- Sealing writes memory and nodes alone. -/
theorem sealStores_eq (fuel : Nat) (l : List (Node × Bool)) (s : State) :
    sealStores fuel l s = { s with nodes := (sealStores fuel l s).nodes, mem := (sealStores fuel l s).mem } := by
  induction fuel generalizing l s with
  | zero => rfl
  | succ fuel ih =>
    cases l with
    | nil => rfl
    | cons x l =>
      obtain ⟨n, staged⟩ := x
      simp only [sealStores]
      split
      · exact ih _ _
      · split <;> (rw [ih]; rfl)

/-- Staging for a write changes memory and nodes alone, and keeps the plain parts of each node. -/
theorem stageFor_eq (s : State) (w p) : s.stageFor w p = { s with nodes := (s.stageFor w p).nodes, mem := (s.stageFor w p).mem } := by
  unfold State.stageFor
  dsimp only
  rw [sealStores_eq]; rfl
theorem stageFor_plain (s : State) (w p) : (s.stageFor w p).nodes.map plainNode = s.nodes.map plainNode :=
  (stageFor_only s ⟨0, 0, 0⟩ [] w p).nodes

/-- A store of the device writes memory, or a staged page of a node. -/
theorem devStore_eq (s : State) (c x : Nat) (bs : List Byte) : (s.devStore c x bs) = { s with nodes := (s.devStore c x bs).nodes, mem := (s.devStore c x bs).mem } := by
  unfold State.devStore; split
  · rw [stageFor_eq]; rfl
  · rfl

/-- A long store of the device writes memory and staged pages alone. -/
theorem devStoreLong_eq (c : Nat) (bs : List Byte) : ∀ (s : State) (x : Nat),
   (s.devStoreLong c x bs) = { s with nodes := (s.devStoreLong c x bs).nodes, mem := (s.devStoreLong c x bs).mem } ∧
   (s.devStoreLong c x bs).nodes.map plainNode = s.nodes.map plainNode := by
  induction bs with
  | nil => intro s x; exact ⟨rfl, rfl⟩
  | cons b bs ih =>
    intro s x
    unfold State.devStoreLong
    obtain ⟨h, h'⟩ := ih (s.devStore c x [b]) (x + 1)
    refine ⟨?_, ?_⟩
    · rw [h, devStore_eq s]
    · rw [h']; unfold State.devStore; split
      · exact stageFor_plain ..
      · rfl

/-- Another entry of the list. -/
theorem getD_modify_ne (l : List Context) (c j : Nat) (f : Context → Context) (h : j ≠ c) : (l.modify c f).getD j {} = l.getD j {} := by
  simp [List.getD_eq_getElem?_getD, Ne.symm h]

/-- R75, R85, R94. Ending a context without a session: what is left of it, and the other contexts as before. -/
theorem terminate_eq (s : State) (c : Nat) (hc : c < s.ctxs.length) (hs : NoSession s c) : let s' := s.terminate c
    (s'.ctx c).state = .terminated ∧ (s'.ctx c).dumped = (s.ctx c).dumped ∧ (s'.ctx c).final.isSome = true ∧ (s'.ctx c).basket = [] ∧
    s'.groups = (s.groups.filter fun x => x.key.ctx != c) ∧ (∀ x ∈ s'.teams, x.key.ctx ≠ c) ∧
    s'.nodes = (s.nodes.filter fun x => x.ctx != c) ∧ s'.net = (s.net.filter fun w => w.ctx != c) ∧
    ∀ j, j ≠ c → s'.ctx j = s.ctx j := by
  unfold State.terminate
  simp only
  obtain ⟨a, b, d⟩ := freeTeams_eq c ((s.teams.filter fun t => t.key.ctx == c).map Team.key) s (by simp; intro k x hx _ e; rw [← e]; assumption)
  generalize List.foldl _ s _ = s1 at a b d ⊢
  have hx : (s1.sessions.filter fun x => !x.closed && x.parties.any fun p => p.dev == s1.boot.devId && p.ctx == c) = [] := by
    rw [a.eq, List.filter_eq_nil_iff]
    intro x hx h
    simp only [Bool.and_eq_true, Bool.not_eq_true', List.any_eq_true, beq_iff_eq] at h
    obtain ⟨h1, p, hp, h2, h3⟩ := h
    exact hs x hx h1 p hp h2 h3
  rw [hx]
  simp only [State.statement, List.map_nil, List.foldl_nil, State.cancelPackets]
  have hl : c < s1.ctxs.length := by rw [a.eq]; exact hc
  refine ⟨?_, ?_, ?_, ?_, ?_, ?_, ?_, ?_, ?_⟩
  · simp [State.ctx, State.modCtx, hl]
  · have hc1 : s1.ctxs = s.ctxs := by rw [a.eq]
    simp [State.ctx, State.modCtx, hc1, hc]
  · simp [State.ctx, State.modCtx, hl]
  · simp [State.ctx, State.modCtx, hl]
  · simp only [State.modCtx]; exact b
  · intro x hx e
    have : x.key ∈ s1.teams.map Team.key := List.mem_map_of_mem hx
    rw [d, List.mem_filter] at this
    obtain ⟨h1, h2⟩ := this
    obtain ⟨y, hy, hy'⟩ := List.mem_map.mp h1
    simp at h2
    exact h2 y hy (by rw [hy']; exact e) hy'
  · simp only [State.modCtx]; rw [a.eq]
  · simp only [State.modCtx]; rw [a.eq]
  · intro j hj
    simp only [State.ctx, State.modCtx, getD_modify_ne _ _ _ _ hj]
    rw [a.eq]

end Sys2Proof.Laws
end

