-- ==== Sys2Proof/Tests/Slice0.lean ====
section
/-! SUPPORT. Tests. Words that the spec writes out, and a word for every instruction that has one, decode to their instructions;
ill-formed instructions are refused; the hypotheses of every obligation are met by small states; and single steps give the values
that the spec's own tables work out. -/

section

set_option Elab.async false

namespace Sys2Proof.Tests

open Sys2Proof Sys2Proof.Machine Sys2Proof.Safety

/-! ## Words that the spec writes out -/

/-- Tables 11.1 and 12.1. -/
theorem test_words_lane :
    decodeTableWord 32 0x80810C11 = some (.addA 2 0 2 1 3) ∧
    decodeTableWord 32 0x04021403 = some (.movX 1 0 2 5) ∧
    decodeTableWord 32 0xFF461815 = some (.addI 0x3FD 6 6) ∧
    decodeTableWord 32 0x1234200F = some (.movi 0x1234 8) ∧
    decodeTableWord 32 0x00811421 = some (.subA 0 0 2 1 5) ∧
    decodeTableWord 32 0x09C11423 = some (.subX 2 7 1 5) ∧
    decodeTableWord 32 0x010618C5 = some (.shrI 4 6 6) ∧
    decodeTableWord 32 0x02431D81 = some (.selt 0 0 9 3 7) ∧
    decodeTableWord 32 0x40C22221 = some (.fmaA 1 0 3 2 8) ∧
    decodeTableWord 32 0x040411D5 = some (.add64I 16 4 4) ∧
    decodeTableWord 32 0x04022303 = some (.idot2X 1 0 2 8) ∧
    decodeTableWord 32 0x07C20F15 = some (.ishr2rI 0x1F 2 3) ∧
    decodeTableWord 32 0xCC042745 = some (.cvt 3 3 0 4 9) ∧
    decodeTableWord 32 0x02C21BB1 = some (.lget 0 0 11 2 6) ∧
    decodeTableWord 32 0x00C917C5 = some (.rand 3 9 5) := by
  refine ⟨?_, ?_, ?_, ?_, ?_, ?_, ?_, ?_, ?_, ?_, ?_, ?_, ?_, ?_, ?_⟩ <;> rfl

/-- Tables 13.1 and 16 to 18. -/
theorem test_words_rows :
    decodeTableWord 32 0x00810F55 = some (.sfu 0 2 1 3) ∧
    decodeTableWord 32 0x00422365 = some (.redg 1 2 8) ∧
    decodeTableWord 32 0x00810F75 = some (.scang 2 1 3) ∧
    decodeTableWord 32 0x0F821381 = some (.smxacc 0 2 4) ∧
    decodeTableWord 32 0x004217A5 = some (.tbl 1 2 5) ∧
    decodeTableWord 32 0x0086F9AD = some (.tblld 2 6) ∧
    decodeTableWord 32 0x01C42301 = some (.idot2A 0 0 7 4 8) ∧
    decodeTableWord 32 0x06841803 = some (.movX 1 10 4 6) ∧
    decodeTableWord 32 0x02482321 = some (.ipack2s 0 0 9 8 8) ∧
    decodeTableWord 32 0x017E2D91 = some (.self 0 0 5 62 11) ∧
    decodeTableWord 32 0x1000040F = some (.movi 0x1000 1) ∧
    decodeTableWord 32 0x00C00925 = some (.seqI 3 0 2) := by
  refine ⟨?_, ?_, ?_, ?_, ?_, ?_, ?_, ?_, ?_, ?_, ?_, ?_⟩ <;> rfl

/-- Tables 11.1, 14.1 and 17. -/
theorem test_words_memory :
    decodeTableWord 32 0x29220ED7 = some (.stgW 2 1 9 4 7) ∧
    decodeTableWord 32 0x00420647 = some (.ldgW 2 4 3) ∧
    decodeTableWord 32 0xFFE30A37 = some (.ldgSh 0x7FF 6 5) ∧
    decodeTableWord 32 0x004110A7 = some (.ldsQ 2 2 8) ∧
    decodeTableWord 32 0x1FC37B17 = some (.stsW 1 1 62 6 61) ∧
    decodeTableWord 32 0x10421347 = some (.aadd 1 0 2 4 9) ∧
    decodeTableWord 32 0x0FC20DB7 = some (.acas 0 1 62 4 6) ∧
    decodeTableWord 32 0x0FC20FD7 = some (.dred 0 1 62 4 7) ∧
    decodeTableWord 32 0x00C419BD = some (.stmap 3 4 6) ∧
    decodeTableWord 32 0x0006F9CD = some (.stflush 6) ∧
    decodeTableWord 32 0x00A30BA7 = some (.axch 0 0 5 6 5) := by
  refine ⟨?_, ?_, ?_, ?_, ?_, ?_, ?_, ?_, ?_, ?_, ?_⟩ <;> rfl

/-- Tables 11.1, 15.1, 17 and 18. -/
theorem test_words_control :
    decodeTableWord 32 0xFFFF3F09 = some (.bra 0x3FFFC 1 62) ∧
    decodeTableWord 32 0x00053F19 = some (.call 20 1 62) ∧
    decodeTableWord 32 0x00003F39 = some (.ret 1 62) ∧
    decodeTableWord 32 0x0001BF29 = some (.brx 6 1 62) ∧
    decodeTableWord 32 0x000021C9 = some (.exit 1 3) ∧
    decodeTableWord 32 0xFE3EF85D = some (.waitc 0x3F8) ∧
    decodeTableWord 32 0x00080C7D = some (.swait 8 3) ∧
    decodeTableWord 32 0x0C7EF82D = some (.bart 0x31) ∧
    decodeTableWord 32 0x2C3EF82D = some (.bart 0xB0) ∧
    decodeTableWord 32 0x017E089D = some (.mbr 5 2) ∧
    decodeTableWord 32 0x0006F8BD = some (.qroute 6) ∧
    decodeTableWord 32 0x02BEF8ED = some (.nap 10) ∧
    decodeTableWord 32 0x8C3E10FD = some (.reggrow 1 48 4) ∧
    decodeTableWord 32 0x0045098D = some (.vote 1 5 2) ∧
    decodeTableWord 32 0x00CA15ED = some (.launch 3 10 5) ∧
    decodeTableWord 32 0x033E295D = some (.csrrd 12 10) ∧
    decodeTableWord 32 0x0081F96D = some (.csrwr 2 1) ∧
    decodeTableWord 32 0x007E011D = some (.ident 1 0) ∧
    decodeTableWord 32 0x003EF81D = some .barg := by
  refine ⟨?_, ?_, ?_, ?_, ?_, ?_, ?_, ?_, ?_, ?_, ?_, ?_, ?_, ?_, ?_, ?_, ?_, ?_, ?_⟩ <;> rfl

/-- Tables 19.1 and 20.1. -/
theorem test_words_engines :
    decodeTableWord 32 0x0864040B = some (.tload 1 3 8 2) ∧
    decodeTableWord 32 0x0864041B = some (.tstore 1 3 8 2) ∧
    decodeTableWord 32 0x0A83088B = some (.mma 1 20 6 4) ∧
    decodeTableWord 32 0x0283209B = some (.mmar 0 0 20 6 16) ∧
    decodeTableWord 32 0x129F7CCB = some (.accalloc 2 20) ∧
    decodeTableWord 32 0x029F7CDB = some (.accfree 20) ∧
    decodeTableWord 32 0x1A8406FB = some (.accst 3 20 8 3) ∧
    decodeTableWord 32 0x028287EB = some (.accrow 20 5 3) ∧
    decodeTableWord 32 0x8A9F070B = some (.bfly 0x11 20 3) ∧
    decodeTableWord 32 0x029F071B = some (.btwid 0 20 3) ∧
    decodeTableWord 32 0x029F072B = some (.brevEng 0 20 3) ∧
    decodeTableWord 32 0x029F7D3B = some (.atrans 20) ∧
    decodeTableWord 32 0x029F074B = some (.lubeg 20 3) ∧
    decodeTableWord 32 0x029F075B = some (.lustep 20 3) ∧
    decodeTableWord 32 0x0282916B = some (.lucand 20 5 8) ∧
    decodeTableWord 32 0x0282957B = some (.lucommit 20 5 10) ∧
    decodeTableWord 32 0x02818D8B = some (.luend 20 3 6) := by
  refine ⟨?_, ?_, ?_, ?_, ?_, ?_, ?_, ?_, ?_, ?_, ?_, ?_, ?_, ?_, ?_, ?_, ?_⟩ <;> rfl

/-! ## A word for every instruction that has one, from the opcode table of the spec -/

theorem test_decode_moves :
    decodeTableWord 32 0x2FA25001 = some (.movA 2 34 20) ∧
    decodeTableWord 32 0x17225003 = some (.movX 5 12 34 20) ∧
    decodeTableWord 32 0xA97E5005 = some (.movI 0x2a5 20) ∧
    decodeTableWord 32 0x8001500F = some (.movi 0x8001 20) ∧
    decodeTableWord 32 0x8001501F = some (.movhi 0x8001 20) ∧
    decodeTableWord 32 0x8001502F = some (.addi 0x8001 20) ∧
    decodeTableWord 32 0x8001503F = some (.movbf 0x8001 20) ∧
    decodeTableWord 32 0x8001504F = some (.lpc 0x8001 20) := by
  refine ⟨?_, ?_, ?_, ?_, ?_, ?_, ?_, ?_⟩ <;> rfl

theorem test_decode_arithmetic :
    decodeTableWord 32 0x6894C811 = some (.addA 1 2 34 20 50) ∧
    decodeTableWord 32 0x17225013 = some (.addX 5 12 34 20) ∧
    decodeTableWord 32 0xA954C815 = some (.addI 0x2a5 20 50) ∧
    decodeTableWord 32 0x6894C821 = some (.subA 1 2 34 20 50) ∧
    decodeTableWord 32 0x17225023 = some (.subX 5 12 34 20) ∧
    decodeTableWord 32 0xA954C825 = some (.subI 0x2a5 20 50) ∧
    decodeTableWord 32 0x6894C831 = some (.mulloA 1 2 34 20 50) ∧
    decodeTableWord 32 0x17225033 = some (.mulloX 5 12 34 20) ∧
    decodeTableWord 32 0xA954C835 = some (.mulloI 0x2a5 20 50) ∧
    decodeTableWord 32 0x6894C841 = some (.mulhi 1 2 34 20 50) ∧
    decodeTableWord 32 0x6894C851 = some (.mulhu 1 2 34 20 50) ∧
    decodeTableWord 32 0x6894C861 = some (.madA 1 2 34 20 50) ∧
    decodeTableWord 32 0xA954C865 = some (.madI 0x2a5 20 50) ∧
    decodeTableWord 32 0x6894C9D1 = some (.add64A 1 2 34 20 50) ∧
    decodeTableWord 32 0xA954C9D5 = some (.add64I 0x2a5 20 50) ∧
    decodeTableWord 32 0x6894C9E1 = some (.madw 1 2 34 20 50) := by
  refine ⟨?_, ?_, ?_, ?_, ?_, ?_, ?_, ?_, ?_, ?_, ?_, ?_, ?_, ?_, ?_, ?_⟩ <;> rfl

theorem test_decode_logic_and_compare_1 :
    decodeTableWord 32 0x6894C871 = some (.andA 1 2 34 20 50) ∧
    decodeTableWord 32 0x17225073 = some (.andX 5 12 34 20) ∧
    decodeTableWord 32 0xA954C875 = some (.andI 0x2a5 20 50) ∧
    decodeTableWord 32 0x6894C881 = some (.orA 1 2 34 20 50) ∧
    decodeTableWord 32 0x17225083 = some (.orX 5 12 34 20) ∧
    decodeTableWord 32 0xA954C885 = some (.orI 0x2a5 20 50) ∧
    decodeTableWord 32 0x6894C891 = some (.xorA 1 2 34 20 50) ∧
    decodeTableWord 32 0x17225093 = some (.xorX 5 12 34 20) ∧
    decodeTableWord 32 0xA954C895 = some (.xorI 0x2a5 20 50) ∧
    decodeTableWord 32 0x6894C8A1 = some (.andnA 1 2 34 20 50) ∧
    decodeTableWord 32 0x172250A3 = some (.andnX 5 12 34 20) ∧
    decodeTableWord 32 0xA954C8A5 = some (.andnI 0x2a5 20 50) ∧
    decodeTableWord 32 0x6894C8B1 = some (.shlA 1 2 34 20 50) ∧
    decodeTableWord 32 0x07E250B5 = some (.shlI 31 34 20) ∧
    decodeTableWord 32 0x6894C8C1 = some (.shrA 1 2 34 20 50) ∧
    decodeTableWord 32 0x07A250C5 = some (.shrI 30 34 20) ∧
    decodeTableWord 32 0x6894C8D1 = some (.sraA 1 2 34 20 50) ∧
    decodeTableWord 32 0x076250D5 = some (.sraI 29 34 20) ∧
    decodeTableWord 32 0x6894C8E1 = some (.minA 1 2 34 20 50) ∧
    decodeTableWord 32 0x172250E3 = some (.minX 5 12 34 20) ∧
    decodeTableWord 32 0xA954C8E5 = some (.minI 0x2a5 20 50) ∧
    decodeTableWord 32 0x6894C8F1 = some (.maxA 1 2 34 20 50) := by
  refine ⟨?_, ?_, ?_, ?_, ?_, ?_, ?_, ?_, ?_, ?_, ?_, ?_, ?_, ?_, ?_, ?_, ?_, ?_, ?_, ?_, ?_, ?_⟩ <;> rfl

theorem test_decode_logic_and_compare_2 :
    decodeTableWord 32 0x172250F3 = some (.maxX 5 12 34 20) ∧
    decodeTableWord 32 0xA954C8F5 = some (.maxI 0x2a5 20 50) ∧
    decodeTableWord 32 0x6894C901 = some (.minuA 1 2 34 20 50) ∧
    decodeTableWord 32 0x17225103 = some (.minuX 5 12 34 20) ∧
    decodeTableWord 32 0xA954C905 = some (.minuI 0x2a5 20 50) ∧
    decodeTableWord 32 0x6894C911 = some (.maxuA 1 2 34 20 50) ∧
    decodeTableWord 32 0x17225113 = some (.maxuX 5 12 34 20) ∧
    decodeTableWord 32 0xA954C915 = some (.maxuI 0x2a5 20 50) ∧
    decodeTableWord 32 0x6894C921 = some (.seqA 1 2 34 20 50) ∧
    decodeTableWord 32 0xA954C925 = some (.seqI 0x2a5 20 50) ∧
    decodeTableWord 32 0x6894C931 = some (.sneA 1 2 34 20 50) ∧
    decodeTableWord 32 0xA954C935 = some (.sneI 0x2a5 20 50) ∧
    decodeTableWord 32 0x6894C941 = some (.sltA 1 2 34 20 50) ∧
    decodeTableWord 32 0xA954C945 = some (.sltI 0x2a5 20 50) ∧
    decodeTableWord 32 0x6894C951 = some (.sleA 1 2 34 20 50) ∧
    decodeTableWord 32 0xA954C955 = some (.sleI 0x2a5 20 50) ∧
    decodeTableWord 32 0x6894C961 = some (.sltuA 1 2 34 20 50) ∧
    decodeTableWord 32 0xA954C965 = some (.sltuI 0x2a5 20 50) ∧
    decodeTableWord 32 0x6894C971 = some (.sleuA 1 2 34 20 50) ∧
    decodeTableWord 32 0xA954C975 = some (.sleuI 0x2a5 20 50) ∧
    decodeTableWord 32 0x6894C981 = some (.selt 1 2 34 20 50) ∧
    decodeTableWord 32 0x6894C991 = some (.self 1 2 34 20 50) := by
  refine ⟨?_, ?_, ?_, ?_, ?_, ?_, ?_, ?_, ?_, ?_, ?_, ?_, ?_, ?_, ?_, ?_, ?_, ?_, ?_, ?_, ?_, ?_⟩ <;> rfl

theorem test_decode_logic_and_compare_3 :
    decodeTableWord 32 0x2FA251A1 = some (.popc 2 34 20) ∧
    decodeTableWord 32 0x2FA251B1 = some (.clz 2 34 20) ∧
    decodeTableWord 32 0x2FA251C1 = some (.brevA 2 34 20) := by
  refine ⟨?_, ?_, ?_⟩ <;> rfl

theorem test_decode_float :
    decodeTableWord 32 0x6894C9F1 = some (.faddA 1 2 34 20 50) ∧
    decodeTableWord 32 0x172251F3 = some (.faddX 5 12 34 20) ∧
    decodeTableWord 32 0x6894CA01 = some (.fsubA 1 2 34 20 50) ∧
    decodeTableWord 32 0x17225203 = some (.fsubX 5 12 34 20) ∧
    decodeTableWord 32 0x6894CA11 = some (.fmulA 1 2 34 20 50) ∧
    decodeTableWord 32 0x17225213 = some (.fmulX 5 12 34 20) ∧
    decodeTableWord 32 0x6894CA21 = some (.fmaA 1 2 34 20 50) ∧
    decodeTableWord 32 0x17225223 = some (.fmaX 5 12 34 20) ∧
    decodeTableWord 32 0x6894CA31 = some (.fminA 1 2 34 20 50) ∧
    decodeTableWord 32 0x17225233 = some (.fminX 5 12 34 20) ∧
    decodeTableWord 32 0x6894CA41 = some (.fmaxA 1 2 34 20 50) ∧
    decodeTableWord 32 0x17225243 = some (.fmaxX 5 12 34 20) ∧
    decodeTableWord 32 0x6894CA51 = some (.fseq 1 2 34 20 50) ∧
    decodeTableWord 32 0x6894CA61 = some (.fslt 1 2 34 20 50) ∧
    decodeTableWord 32 0x6894CA71 = some (.fsle 1 2 34 20 50) ∧
    decodeTableWord 32 0x6894CA81 = some (.fscaleA 1 2 34 20 50) ∧
    decodeTableWord 32 0xA954CA85 = some (.fscaleI 0x2a5 20 50) := by
  refine ⟨?_, ?_, ?_, ?_, ?_, ?_, ?_, ?_, ?_, ?_, ?_, ?_, ?_, ?_, ?_, ?_, ?_⟩ <;> rfl

theorem test_decode_packed :
    decodeTableWord 32 0x6894CA91 = some (.badd2A 1 2 34 20 50) ∧
    decodeTableWord 32 0x17225293 = some (.badd2X 5 12 34 20) ∧
    decodeTableWord 32 0x6894CAA1 = some (.bmul2A 1 2 34 20 50) ∧
    decodeTableWord 32 0x172252A3 = some (.bmul2X 5 12 34 20) ∧
    decodeTableWord 32 0x6894CAB1 = some (.bfma2A 1 2 34 20 50) ∧
    decodeTableWord 32 0x172252B3 = some (.bfma2X 5 12 34 20) ∧
    decodeTableWord 32 0x6894CAC1 = some (.hfma2A 1 2 34 20 50) ∧
    decodeTableWord 32 0x172252C3 = some (.hfma2X 5 12 34 20) ∧
    decodeTableWord 32 0x6894CAD1 = some (.hadd2A 1 2 34 20 50) ∧
    decodeTableWord 32 0x172252D3 = some (.hadd2X 5 12 34 20) ∧
    decodeTableWord 32 0x6894CAE1 = some (.iadd2sA 1 2 34 20 50) ∧
    decodeTableWord 32 0x172252E3 = some (.iadd2sX 5 12 34 20) ∧
    decodeTableWord 32 0x6894CAF1 = some (.isub2sA 1 2 34 20 50) ∧
    decodeTableWord 32 0x172252F3 = some (.isub2sX 5 12 34 20) ∧
    decodeTableWord 32 0x6894CB01 = some (.idot2A 1 2 34 20 50) ∧
    decodeTableWord 32 0x17225303 = some (.idot2X 5 12 34 20) ∧
    decodeTableWord 32 0x6894CB11 = some (.ishr2rA 1 2 34 20 50) ∧
    decodeTableWord 32 0x04D4CB15 = some (.ishr2rI 19 20 50) ∧
    decodeTableWord 32 0x6894CB21 = some (.ipack2s 1 2 34 20 50) ∧
    decodeTableWord 32 0x6894CB31 = some (.idot4A 1 2 34 20 50) ∧
    decodeTableWord 32 0x17225333 = some (.idot4X 5 12 34 20) := by
  refine ⟨?_, ?_, ?_, ?_, ?_, ?_, ?_, ?_, ?_, ?_, ?_, ?_, ?_, ?_, ?_, ?_, ?_, ?_, ?_, ?_, ?_⟩ <;> rfl

theorem test_decode_special :
    decodeTableWord 32 0x48225345 = some (.cvt 1 2 0 34 20) ∧
    decodeTableWord 32 0x42625355 = some (.sfu 1 9 34 20) ∧
    decodeTableWord 32 0x02A25365 = some (.redg 10 34 20) ∧
    decodeTableWord 32 0x00E25375 = some (.scang 3 34 20) ∧
    decodeTableWord 32 0x2FA25381 = some (.smxacc 2 34 20) ∧
    decodeTableWord 32 0x6894CB91 = some (.smxnorm 1 2 34 20 50) ∧
    decodeTableWord 32 0x0094CBA5 = some (.tbl 2 20 50) ∧
    decodeTableWord 32 0x6894CBB1 = some (.lget 1 2 34 20 50) ∧
    decodeTableWord 32 0xA954CBC5 = some (.rand 0x2a5 20 50) ∧
    decodeTableWord 32 0x0094F9AD = some (.tblld 2 20) := by
  refine ⟨?_, ?_, ?_, ?_, ?_, ?_, ?_, ?_, ?_, ?_⟩ <;> rfl

theorem test_decode_halfword :
    decodeTableWord 16 0xCE60 = some (.mov16 1 19 19) ∧
    decodeTableWord 16 0xCE62 = some (.add16 1 19 19) ∧
    decodeTableWord 16 0xCE64 = some (.sub16 1 19 19) ∧
    decodeTableWord 16 0xCE66 = some (.and16 1 19 19) ∧
    decodeTableWord 16 0xCE68 = some (.or16 1 19 19) ∧
    decodeTableWord 16 0xCE6A = some (.xor16 1 19 19) ∧
    decodeTableWord 16 0xCE6C = some (.shl16 1 19 19) ∧
    decodeTableWord 16 0xCE6E = some (.shr16 1 19 19) ∧
    decodeTableWord 16 0xCE70 = some (.sra16 1 19 19) ∧
    decodeTableWord 16 0xCE72 = some (.mullo16 1 19 19) ∧
    decodeTableWord 16 0xCE74 = some (.fadd16 1 19 19) ∧
    decodeTableWord 16 0xCE76 = some (.fsub16 1 19 19) ∧
    decodeTableWord 16 0xCE78 = some (.fmul16 1 19 19) ∧
    decodeTableWord 16 0xCE7A = some (.fmax16 1 19 19) ∧
    decodeTableWord 16 0xCE7C = some (.fmin16 1 19 19) ∧
    decodeTableWord 16 0x8A7E = some (.movi16 34 19) := by
  refine ⟨?_, ?_, ?_, ?_, ?_, ?_, ?_, ?_, ?_, ?_, ?_, ?_, ?_, ?_, ?_, ?_⟩ <;> rfl

theorem test_decode_loads :
    decodeTableWord 32 0xB46A6407 = some (.ldgB 0x5a3 20 50) ∧
    decodeTableWord 32 0xB46A6417 = some (.ldgSb 0x5a3 20 50) ∧
    decodeTableWord 32 0xB46A6427 = some (.ldgH 0x5a3 20 50) ∧
    decodeTableWord 32 0xB46A6437 = some (.ldgSh 0x5a3 20 50) ∧
    decodeTableWord 32 0xB46A6447 = some (.ldgW 0x5a3 20 50) ∧
    decodeTableWord 32 0xB46A6457 = some (.ldgD 0x5a3 20 50) ∧
    decodeTableWord 32 0xB46A6467 = some (.ldgQ 0x5a3 20 50) ∧
    decodeTableWord 32 0xB46A6477 = some (.ldsH 0x5a3 20 50) ∧
    decodeTableWord 32 0xB46A6487 = some (.ldsW 0x5a3 20 50) ∧
    decodeTableWord 32 0xB46A6497 = some (.ldsD 0x5a3 20 50) ∧
    decodeTableWord 32 0xB46A64A7 = some (.ldsQ 0x5a3 20 50) := by
  refine ⟨?_, ?_, ?_, ?_, ?_, ?_, ?_, ?_, ?_, ?_, ?_⟩ <;> rfl

theorem test_decode_stores :
    decodeTableWord 32 0xBE44C4B7 = some (.stgB 11 1 50 9 34) ∧
    decodeTableWord 32 0xBE44C4C7 = some (.stgH 11 1 50 9 34) ∧
    decodeTableWord 32 0xBE44C4D7 = some (.stgW 11 1 50 9 34) ∧
    decodeTableWord 32 0xBE44C4E7 = some (.stgD 11 1 50 9 34) ∧
    decodeTableWord 32 0xBE44C4F7 = some (.stgQ 11 1 50 9 34) ∧
    decodeTableWord 32 0xBE44C507 = some (.stsH 11 1 50 9 34) ∧
    decodeTableWord 32 0xBE44C517 = some (.stsW 11 1 50 9 34) ∧
    decodeTableWord 32 0xBE44C527 = some (.stsD 11 1 50 9 34) ∧
    decodeTableWord 32 0xBE44C537 = some (.stsQ 11 1 50 9 34) := by
  refine ⟨?_, ?_, ?_, ?_, ?_, ?_, ?_, ?_, ?_⟩ <;> rfl

theorem test_decode_atomics_and_windows :
    decodeTableWord 32 0xBE44C547 = some (.aadd 11 1 50 9 34) ∧
    decodeTableWord 32 0xBE44C557 = some (.amin 11 1 50 9 34) ∧
    decodeTableWord 32 0xBE44C567 = some (.amax 11 1 50 9 34) ∧
    decodeTableWord 32 0xBE44C577 = some (.aand 11 1 50 9 34) ∧
    decodeTableWord 32 0xBE44C587 = some (.aor 11 1 50 9 34) ∧
    decodeTableWord 32 0xBE44C597 = some (.axor 11 1 50 9 34) ∧
    decodeTableWord 32 0xBE44C5A7 = some (.axch 11 1 50 9 34) ∧
    decodeTableWord 32 0xBE44C5B7 = some (.acas 11 1 50 9 34) ∧
    decodeTableWord 32 0xBE44C5C7 = some (.afadd 11 1 50 9 34) ∧
    decodeTableWord 32 0x5A9913D7 = some (.dred 5 1 20 50 9) ∧
    decodeTableWord 32 0xBE44C5E7 = some (.acasD 11 1 50 9 34) ∧
    decodeTableWord 32 0xBE44C5F7 = some (.axchD 11 1 50 9 34) ∧
    decodeTableWord 32 0xA954C9BD = some (.stmap 0x2a5 20 50) ∧
    decodeTableWord 32 0x0022F9CD = some (.stflush 34) := by
  refine ⟨?_, ?_, ?_, ?_, ?_, ?_, ?_, ?_, ?_, ?_, ?_, ?_, ?_, ?_⟩ <;> rfl

theorem test_decode_control :
    decodeTableWord 32 0xA968F909 = some (.bra 0x2a5a3 1 50) ∧
    decodeTableWord 32 0xA968F919 = some (.call 0x2a5a3 1 50) ∧
    decodeTableWord 32 0x0008B929 = some (.brx 34 1 50) ∧
    decodeTableWord 32 0x00002A39 = some (.ret 1 20) ∧
    decodeTableWord 32 0x00002A49 = some (.exit 1 20) ∧
    decodeTableWord 32 0x00002A59 = some (.brk 1 20) ∧
    decodeTableWord 32 0x003EF80D = some (.nop) := by
  refine ⟨?_, ?_, ?_, ?_, ?_, ?_, ?_⟩ <;> rfl

theorem test_decode_engines :
    decodeTableWord 32 0x144A640B = some (.tload 2 34 20 50) ∧
    decodeTableWord 32 0x1299121B = some (.tstore 2 20 50 9) ∧
    decodeTableWord 32 0x0C4A642B = some (.tgather 1 34 20 50) ∧
    decodeTableWord 32 0x0A99123B = some (.tzero 1 20 50 9) ∧
    decodeTableWord 32 0x044A644B = some (.tpref 34 20 50) ∧
    decodeTableWord 32 0x1299125B = some (.xput 2 20 50 9) ∧
    decodeTableWord 32 0x144A646B = some (.xget 2 34 20 50) ∧
    decodeTableWord 32 0x1299127B = some (.tscat 2 20 50 9) ∧
    decodeTableWord 32 0x5A99128B = some (.mma 11 20 50 9) ∧
    decodeTableWord 32 0x5644C49B = some (.mmar 1 2 50 9 34) ∧
    decodeTableWord 32 0x9C5F7CCB = some (.accalloc 19 34) ∧
    decodeTableWord 32 0x045F7CDB = some (.accfree 34) := by
  refine ⟨?_, ?_, ?_, ?_, ?_, ?_, ?_, ?_, ?_, ?_, ?_, ?_⟩ <;> rfl

theorem test_decode_transforms_and_factors :
    decodeTableWord 32 0x5A9912AB = some (.mmas 11 20 50 9) ∧
    decodeTableWord 32 0x044A64EB = some (.accld 34 20 50) ∧
    decodeTableWord 32 0x244A64FB = some (.accst 4 34 20 50) ∧
    decodeTableWord 32 0x9A9F650B = some (.bfly 19 20 50) ∧
    decodeTableWord 32 0x429F651B = some (.btwid 1 20 50) ∧
    decodeTableWord 32 0x0A9F652B = some (.brevEng 1 20 50) ∧
    decodeTableWord 32 0x045F7D3B = some (.atrans 34) ∧
    decodeTableWord 32 0x045F294B = some (.lubeg 34 20) ∧
    decodeTableWord 32 0x045F295B = some (.lustep 34 20) ∧
    decodeTableWord 32 0x044A656B = some (.lucand 34 20 50) ∧
    decodeTableWord 32 0x044A657B = some (.lucommit 34 20 50) ∧
    decodeTableWord 32 0x044A658B = some (.luend 34 20 50) ∧
    decodeTableWord 32 0x044A65EB = some (.accrow 34 20 50) := by
  refine ⟨?_, ?_, ?_, ?_, ?_, ?_, ?_, ?_, ?_, ?_, ?_, ?_, ?_⟩ <;> rfl

theorem test_decode_other :
    decodeTableWord 32 0x0A9912BB = some (.smma 1 20 50 9) ∧
    decodeTableWord 32 0x144A659B = some (.smul 2 34 20 50) ∧
    decodeTableWord 32 0x0C5F29AB = some (.strunc 1 34 20) ∧
    decodeTableWord 32 0x145F29BB = some (.sltz 2 34 20) ∧
    decodeTableWord 32 0x4A9F65CB = some (.slut 2 1 20 50) ∧
    decodeTableWord 32 0x145F29DB = some (.sopen 2 34 20) ∧
    decodeTableWord 32 0x853EC8FD = some (.reggrow 1 20 50) ∧
    decodeTableWord 32 0x08BE510D = some (.regshrink 34 20) ∧
    decodeTableWord 32 0x057E891D = some (.ident 21 34) ∧
    decodeTableWord 32 0x03BE895D = some (.csrrd 14 34) ∧
    decodeTableWord 32 0x0322F96D = some (.csrwr 12 34) ∧
    decodeTableWord 32 0x003EF9DD = some (.xfence) ∧
    decodeTableWord 32 0x0022523D = some (.dwwr 34 20) ∧
    decodeTableWord 32 0x00A2FA4D = some (.dwres 2 34) := by
  refine ⟨?_, ?_, ?_, ?_, ?_, ?_, ?_, ?_, ?_, ?_, ?_, ?_, ?_, ?_⟩ <;> rfl

theorem test_decode_waits_and_barriers :
    decodeTableWord 32 0x003EF81D = some (.barg) ∧
    decodeTableWord 32 0x24FEF82D = some (.bart 0x93) ∧
    decodeTableWord 32 0x297EF83D = some (.bararv 0xa5) ∧
    decodeTableWord 32 0x02FEF84D = some (.barwt 11) ∧
    decodeTableWord 32 0xA97EF85D = some (.waitc 0x2a5) ∧
    decodeTableWord 32 0x0022506D = some (.waitw 34 20) ∧
    decodeTableWord 32 0x0022507D = some (.swait 34 20) ∧
    decodeTableWord 32 0x0022508D = some (.syncset 34 20) := by
  refine ⟨?_, ?_, ?_, ?_, ?_, ?_, ?_, ?_⟩ <;> rfl

theorem test_decode_messages_and_registers :
    decodeTableWord 32 0x017E509D = some (.mbr 5 20) ∧
    decodeTableWord 32 0x0154F8AD = some (.mbw 5 20) ∧
    decodeTableWord 32 0x0022F8BD = some (.qroute 34) ∧
    decodeTableWord 32 0x00FE88CD = some (.qstat 3 34) ∧
    decodeTableWord 32 0x003EF8DD = some (.yield) ∧
    decodeTableWord 32 0xA97EF8ED = some (.nap 0x2a5) := by
  refine ⟨?_, ?_, ?_, ?_, ?_, ?_⟩ <;> rfl

theorem test_decode_system :
    decodeTableWord 32 0x0022F92D = some (.trap 34) ∧
    decodeTableWord 32 0x007E893D = some (.flagrd 1 34) ∧
    decodeTableWord 32 0x157EF94D = some (.flagclr 0x55) ∧
    decodeTableWord 32 0x003E897D = some (.elect 34) ∧
    decodeTableWord 32 0x0122518D = some (.vote 4 34 20) ∧
    decodeTableWord 32 0x003EF99D = some (.dflush) ∧
    decodeTableWord 32 0x04D4C9ED = some (.launch 19 20 50) ∧
    decodeTableWord 32 0xA954F9FD = some (.mark 0x2a5 20) ∧
    decodeTableWord 32 0x047E8A0D = some (.perfrd 17 34) ∧
    decodeTableWord 32 0x0022521D = some (.dwsel 34 20) ∧
    decodeTableWord 32 0x0022522D = some (.dwrd 34 20) ∧
    decodeTableWord 32 0x003EFA5D = some (.dwkill) := by
  refine ⟨?_, ?_, ?_, ?_, ?_, ?_, ?_, ?_, ?_, ?_, ?_, ?_⟩ <;> rfl

/-! ## Ill-formed instructions, one for each check -/

/-- R212. A reserved mark, and marks on vz, qr and 63. -/
theorem test_wf_marks :
    (Instr.movA 3 1 2).wf = false ∧ (Instr.movA 1 62 2).wf = false ∧ (Instr.movA 2 61 2).wf = false ∧
    (Instr.movA 1 63 2).wf = false ∧ (Instr.addA 3 0 2 1 3).wf = false ∧ (Instr.addA 2 0 62 1 3).wf = false ∧
    (Instr.smxnorm 0 3 4 1 6).wf = false ∧ (Instr.smxacc 3 2 4).wf = false ∧ (Instr.lget 3 0 11 2 6).wf = false ∧
    (Instr.movA 0 62 2).wf = true ∧ (Instr.addA 2 1 2 1 3).wf = true := by decide

/-- R219, R238, R256, Tables 12.4, 13.2, 13.4 and 13.6. Patterns, shift counts, conversions and sub-operations. -/
theorem test_wf_lane :
    (Instr.addX 0 14 1 2).wf = false ∧ (Instr.movX 0 15 1 2).wf = false ∧ (Instr.fmaX 1 13 1 2).wf = false ∧
    (Instr.addX 0 13 1 2).wf = true ∧ (Instr.shlI 32 6 6).wf = false ∧ (Instr.shrI 32 6 6).wf = false ∧
    (Instr.sraI 32 6 6).wf = false ∧ (Instr.shlI 31 6 6).wf = true ∧ (Instr.cvt 0 0 0 1 2).wf = false ∧
    (Instr.cvt 0 1 2 1 2).wf = false ∧ (Instr.cvt 0 0 15 1 2).wf = false ∧ (Instr.cvt 0 7 8 1 2).wf = true ∧
    (Instr.sfu 0 11 1 3).wf = false ∧ (Instr.sfu 2 0 1 3).wf = false ∧ (Instr.redg 11 2 8).wf = false ∧
    (Instr.scang 4 1 3).wf = false ∧ (Instr.mov16 0 0 0).wf = false ∧ (Instr.mov16 0 0 1).wf = true := by decide

/-- Tables 14.2, 15.1, 15.3, 19.1 and 22.5. Kinds, roles and function codes. -/
theorem test_wf_system :
    (Instr.dred 6 1 62 4 7).wf = false ∧ (Instr.tload 3 3 8 2).wf = false ∧ (Instr.tgather 3 3 8 2).wf = false ∧
    (Instr.xget 3 3 8 2).wf = false ∧ (Instr.accalloc 0 20).wf = false ∧ (Instr.accalloc 5 20).wf = false ∧
    (Instr.accalloc 4 20).wf = true ∧ (Instr.accst 5 20 8 3).wf = false ∧ (Instr.smul 3 1 2 3).wf = false ∧
    (Instr.strunc 3 1 2).wf = false ∧ (Instr.sltz 3 1 2).wf = false ∧ (Instr.slut 0 3 1 2).wf = false ∧
    (Instr.sopen 3 1 2).wf = false ∧ (Instr.bart 0xC1).wf = false ∧ (Instr.bararv 0x01).wf = false ∧
    (Instr.qstat 4 2).wf = false ∧ (Instr.ident 22 2).wf = false ∧ (Instr.flagrd 2 2).wf = false ∧
    (Instr.csrrd 15 2).wf = false ∧ (Instr.csrwr 4 2).wf = false ∧ (Instr.csrwr 13 2).wf = false ∧
    (Instr.csrwr 12 2).wf = true ∧ (Instr.vote 5 5 2).wf = false ∧ (Instr.perfrd 18 2).wf = false ∧
    (Instr.dwres 3 62).wf = false ∧ (Instr.dwres 1 5).wf = false ∧ (Instr.dwres 2 5).wf = true := by decide

/-- R205, R206, R222. Words that are no instruction: a zero halfword, a word of no row, a set reserved bit; and an ill-formed word, which
decodes to an instruction that its check refuses. -/
theorem test_decode_refuses : decodeTableWord 16 0x0000 = none ∧ decodeTableWord 32 0x003EFA6D = none ∧ decodeTableWord 32 0x103EF81D = none ∧
    (decodeTableWord 32 0xC0810C11).map Instr.wf = some false := by decide

/-! ## Small states -/

/-- A thread at PC 0x40, with an address in v4 (and v5), a scratch address in v2, and 7 in v6. -/
def thr : Thread := ((((({ pc := 0x40 } : Thread).setReg 4 0x00200000).setReg 2 0x100).setReg 6 7).setReg 1 3)
def key : GKey := ⟨1, 5, 2, 0, .lanes⟩
def team : TKey := ⟨1, 5, 2⟩
/-- A lane group of 8 threads with 16 registers. -/
def grp : Group := { key := key, w := 8, core := 0, budget := 16, threads := List.replicate 8 thr }
def tm : Team := { key := team, cores := [0, 1], aperture := 0x7F0000400000, owners := List.replicate 8 .threads }
/-- One page of 64 KiB, readable and writable, at virtual page 0x20, and one that is not present. -/
def maps : List Mapping := [⟨0x20, 3, 1, true, true, true, .k64⟩, ⟨0x30, 9, 1, true, true, false, .k64⟩]
def recd : NodeRec :=
  { entry := 0x40, gx := 4, gy := 1, gz := 1, wcode := 0, groups := 1, prods := 0, cores := 2, regP := 16, regC := 16,
    scratch := 8, accSlots := 2, det := false, restart := true, preds := 0, seed := 0, succ := [], ranges := [], pool := 0 }
def nod : Node := { ctx := 1, queue := 0, index := 0, ref := 5, addr := 0x201000, rec' := recd, state := .running }
def ctx1 : Context := { state := .active, cores := [0, 1], maps := maps, codeBase := 0x200000, codeSize := 65536 }
/-- A booted machine with all features, in which group 0 issues threads 0 and 1. -/
def st : State :=
  { State.reset with
    boot := { State.reset.boot with status := .ready, devId := 7 }
    accepted := some 0x1FFF
    parts := State.reset.parts.set 0 { state := .active, clusters := [0], ctxs := [1], vf := .run, stream := 9, ranges := [0] }
    ctxs := State.reset.ctxs.set 1 ctx1
    nodes := [nod]
    teams := [tm]
    groups := [grp]
    cur := some ⟨0, [0, 1], []⟩ }
/-- The same with one thread issuing, and with a change of the group. -/
def one : State := { st with cur := some ⟨0, [0], []⟩ }
def withGroup (s : State) (x : Group) : State := { s with groups := [x] }
/-- A handler instance in place of the group. -/
def hand : Group := { grp with key := { key with kind := .handler }, w := 1, threads := [thr] }

theorem test_issuing : Issuing st 0 [0, 1] grp := ⟨rfl, rfl, by decide, by decide⟩
theorem test_issuing_one : Issuing one 0 [0] grp := ⟨rfl, rfl, by decide, by decide⟩

/-! ## Hypotheses of the statements about lane operations -/

/-- What `Clear` asks, as a test. -/
def clearB (op : LaneOp) (s : State) (gr : Group) (set : List Nat) : Bool :=
  op.need.all (fun n => s.feature n) && (!op.noHandler || gr.key.kind != .handler) && (fieldsFault gr.budget op.fields).isNone &&
    !op.takesQr && !op.sends && set.all fun t => (op.regs gr t).all fun p => !(gr.thread p.1).isPend p.2

theorem clear_of_test {op : LaneOp} {s : State} {gr : Group} {set : List Nat} (h : clearB op s gr set = true) : Clear op s gr set := by
  simp only [clearB, Bool.and_eq_true, List.all_eq_true, Bool.or_eq_true, Bool.not_eq_true', Option.isNone_iff_eq_none,
    bne_iff_ne] at h
  obtain ⟨⟨⟨⟨⟨h1, h2⟩, h3⟩, h4⟩, h5⟩, h6⟩ := h
  exact ⟨h1, fun hn => by simpa [hn] using h2, h3, h4, h5, fun t ht p hp => h6 t ht p hp⟩

def clears (form : Instr → Option LaneOp) (l : List Instr) : Bool :=
  l.all fun i => i.wf && (form i).any fun op => clearB op st grp [0, 1]

/-- Every lane operation meets its hypotheses in the small state. -/
theorem test_hyps_int : clears intAForm
    [.addA 0 2 2 1 3, .subA 0 0 2 1 3, .mulloA 0 0 2 1 3, .mulhi 0 0 2 1 3, .mulhu 0 0 2 1 3, .madA 0 0 2 1 3, .andA 0 0 2 1 3,
     .orA 0 0 2 1 3, .xorA 0 0 2 1 3, .andnA 0 0 2 1 3, .shlA 0 0 2 1 3, .shrA 0 0 2 1 3, .sraA 0 0 2 1 3, .minA 0 0 2 1 3,
     .maxA 0 0 2 1 3, .minuA 0 0 2 1 3, .maxuA 0 0 2 1 3, .seqA 0 0 2 1 3, .sneA 0 0 2 1 3, .sltA 0 0 2 1 3, .sleA 0 0 2 1 3,
     .sltuA 0 0 2 1 3, .sleuA 0 0 2 1 3, .movA 2 1 3, .popc 0 1 3, .clz 0 1 3, .brevA 0 1 3] = true ∧
  clears int16Form [.add16 1 2 3, .sub16 0 2 3, .mullo16 0 2 3, .and16 0 2 3, .or16 0 2 3, .xor16 0 2 3, .shl16 0 2 3, .shr16 0 2 3,
     .sra16 0 2 3, .mov16 0 2 3] = true ∧
  clears intIForm
    [.addI 5 1 3, .subI 5 1 3, .mulloI 5 1 3, .madI 5 1 3, .andI 5 1 3, .orI 5 1 3, .xorI 5 1 3, .andnI 5 1 3, .shlI 5 1 3,
     .shrI 5 1 3, .sraI 5 1 3, .minI 5 1 3, .maxI 5 1 3, .minuI 5 1 3, .maxuI 5 1 3, .seqI 5 1 3, .sneI 5 1 3, .sltI 5 1 3,
     .sleI 5 1 3, .sltuI 5 1 3, .sleuI 5 1 3, .movI 5 3, .movi16 5 3, .movi 5 3, .movhi 5 3, .addi 5 3, .movbf 5 3, .lpc 5 3] = true ∧
  clears crossForm
    [.addX 1 0 2 3, .subX 1 0 2 3, .mulloX 1 0 2 3, .andX 1 0 2 3, .orX 1 0 2 3, .xorX 1 0 2 3, .andnX 1 0 2 3, .minX 1 0 2 3,
     .maxX 1 0 2 3, .minuX 1 0 2 3, .maxuX 1 0 2 3, .faddX 1 0 2 3, .fsubX 1 0 2 3, .fmulX 1 0 2 3, .fmaX 1 0 2 3, .fminX 1 0 2 3,
     .fmaxX 1 0 2 3, .badd2X 1 0 2 3, .bmul2X 1 0 2 3, .bfma2X 1 0 2 3, .hfma2X 1 0 2 3, .hadd2X 1 0 2 3, .iadd2sX 1 0 2 3,
     .isub2sX 1 0 2 3, .idot2X 1 0 2 3, .idot4X 1 0 2 3, .movX 1 0 2 3] = true := by decide +kernel
theorem test_hyps_fp : clears fpForm
    [.faddA 0 0 2 1 3, .fadd16 0 2 3, .fsubA 0 0 2 1 3, .fsub16 0 2 3, .fmulA 0 0 2 1 3, .fmul16 0 2 3, .fmaA 0 0 2 1 3, .fminA 0 0 2 1 3,
     .fmin16 0 2 3, .fmaxA 0 0 2 1 3, .fmax16 0 2 3, .fseq 0 0 2 1 3, .fslt 0 0 2 1 3, .fsle 0 0 2 1 3, .fscaleA 0 0 2 1 3, .fscaleI 5 1 3] = true ∧
  clears packedForm
    [.badd2A 0 0 2 1 3, .bmul2A 0 0 2 1 3, .bfma2A 0 0 2 1 3, .hfma2A 0 0 2 1 3, .hadd2A 0 0 2 1 3, .iadd2sA 0 0 2 1 3, .isub2sA 0 0 2 1 3,
     .idot2A 0 0 2 1 3, .idot4A 0 0 2 1 3, .ishr2rA 0 0 2 1 3, .ipack2s 0 0 2 1 3, .ishr2rI 5 1 3] = true ∧
  clears specialForm
    [.add64A 0 0 2 4 6, .add64I 5 4 6, .madw 0 0 2 1 6, .cvt 0 2 0 1 3, .cvt 3 3 0 1 3, .sfu 0 2 1 3, .smxacc 0 2 4, .smxnorm 0 0 4 1 6, .tbl 1 2 3,
     .lget 0 0 2 1 3, .rand 3 1 3] = true ∧
  clears groupForm [.redg 0 1 3, .redg 9 4 6, .redg 10 1 3, .scang 0 1 3, .scang 3 1 3] = true := by decide +kernel

/-- An operation of each family completes: the statement's hypotheses hold together. -/
theorem test_hyps_IntegerOps : ∃ op, crossForm (.addX 1 0 2 3) = some op ∧ Issuing st 0 [0, 1] grp ∧ (Instr.addX 1 0 2 3).wf = true ∧
    Clear op st grp [0, 1] := ⟨_, rfl, test_issuing, rfl, clear_of_test (by decide +kernel)⟩
theorem test_hyps_FloatOps : ∃ op, packedForm (.idot4A 0 0 2 1 3) = some op ∧ Issuing st 0 [0, 1] grp ∧
    (Instr.idot4A 0 0 2 1 3).wf = true ∧ Clear op st grp [0, 1] := ⟨_, rfl, test_issuing, rfl, clear_of_test (by decide +kernel)⟩
theorem test_hyps_SpecialOps : ∃ op, groupForm (.redg 0 1 3) = some op ∧ Issuing st 0 [0, 1] grp ∧ (Instr.redg 0 1 3).wf = true ∧
    Clear op st grp [0, 1] := ⟨_, rfl, test_issuing, rfl, clear_of_test (by decide +kernel)⟩
theorem test_hyps_SelectWrites : Issuing st 0 [0, 1] grp ∧ (Instr.selt 0 0 6 1 3).wf = true ∧ Selects true 6 1 3 grp [0, 1] ∧
    Selects false 6 1 3 grp [0, 1] ∧ (1 : BitVec 6) ≠ 61 ∧ chosen true 6 grp [0, 1] = [0, 1] ∧ chosen false 6 grp [0, 1] = [] :=
  ⟨test_issuing, by decide +kernel, ⟨by decide +kernel, by unfold NonePending; decide +kernel, by unfold NonePending; decide +kernel⟩,
    ⟨by decide +kernel, by unfold NonePending; decide +kernel, by unfold NonePending; decide +kernel⟩, by decide, by decide +kernel,
    by decide +kernel⟩

/-- The same threads, the first with two words in its queue and a route to thread 0 of team 2. -/
def qgrp : Group := { grp with threads := ({ thr with queue := [(9, team), (8, team)], route := some (0, 2 * 4096) }) :: List.replicate 7 thr }
def qst : State := withGroup one qgrp

/-- A feature that is not accepted, a register past the budget, and a pending register. -/
def pgrp : Group := { grp with threads := grp.threads.map fun t => t.setPend 1 true }
theorem test_hyps_LaneTraps :
    (∃ op, laneForm (.cvt 3 3 0 1 3) = some op ∧ ¬ ∀ n ∈ op.need, ({ st with accepted := some 0 } : State).feature n = true) ∧
    (∃ op, laneForm (.addA 0 0 2 1 30) = some op ∧ fieldsFault grp.budget op.fields = some 30) ∧
    ∃ op, laneForm (.addA 0 0 2 1 3) = some op ∧ fieldsFault pgrp.budget op.fields = none ∧ op.sends = false ∧
      Issuing (withGroup st pgrp) 0 [0, 1] pgrp ∧ firstPending pgrp (op.regs pgrp) [0, 1] = some (0, 1) := by
  refine ⟨⟨_, rfl, by decide +kernel⟩, ⟨_, rfl, by decide +kernel⟩, _, rfl, by decide +kernel, by decide +kernel, ⟨rfl, rfl, by decide, by decide⟩,
    by decide +kernel⟩

/-- The fields of each clause, at the ends of their ranges: budget 60 and 8, registers 59, 60, 61, 62 and 63. -/
theorem test_hyps_Registers :
    (regF 63).num = 63 ∧ (regF 62).num = 62 ∧ (regF 61).num = 61 ∧ (regF 60).num = 60 ∧ ((regF 59).num < 60 ∧ (8 : Nat) ≤ (regF 59).num) ∧
    ((regF 7 2).num < 8 ∧ (regF 7 2).num % (regF 7 2).size ≠ 0) ∧ ((regF 4 4).num < 60 ∧ (regF 4 4).num % (regF 4 4).size = 0) ∧
    (let f := regF 56 8; f.num < 60 ∧ f.num % f.size = 0 ∧ 60 < f.num + f.size) ∧ thr.regs.length = 60 ∧ thr.pois.length = 60 := by
  decide +kernel
/-! ## Hypotheses of the statements about memory -/

def isOk : Chk → Bool
  | .ok _ => true
  | _ => false
theorem ok_of_test {c : Chk} (h : isOk c = true) : ∃ l, c = .ok l := by
  cases c with
  | ok l => exact ⟨l, rfl⟩
  | _ => cases h

def reachesB (s : State) (k : GKey) (w : Bool) (x : Target) : Bool :=
  isOk (s.lowCheck k w x) && isOk (s.highCheck k w x) && s.mayPerform k w (s.places k x w)
theorem reaches_of_test {s : State} {k : GKey} {w : Bool} {x : Target} (h : reachesB s k w x = true) :
    Reaches s k w x ∧ s.mayPerform k w (s.places k x w) = true := by
  simp only [reachesB, Bool.and_eq_true] at h
  exact ⟨⟨ok_of_test h.1.1, ok_of_test h.1.2⟩, h.2⟩

def nonePendingB (gr : Group) (l : List (Nat × Nat)) : Bool := l.all fun p => !(gr.thread p.1).isPend p.2
theorem none_of_test {gr : Group} {l : List (Nat × Nat)} (h : nonePendingB gr l = true) : NonePending gr l :=
  fun p hp => by simpa using (List.all_eq_true.mp h) p hp

def usableB (fs : List Field) (gr : Group) (who : List Nat) : Bool :=
  (fieldsFault gr.budget fs).isNone && who.all fun t => nonePendingB gr (inThread t (ownRegs fs))
theorem usable_of_test {fs : List Field} {gr : Group} {who : List Nat} (h : usableB fs gr who = true) : Usable fs gr who := by
  simp only [usableB, Bool.and_eq_true, List.all_eq_true, Option.isNone_iff_eq_none] at h
  exact ⟨h.1, fun t ht => none_of_test (h.2 t ht)⟩

def guardB (fs : List Field) (n : BitVec 1) (g : BitVec 6) (gr : Group) (set : List Nat) : Bool :=
  (fieldsFault gr.budget fs).isNone && (set.all fun t => nonePendingB gr (inThread t (regSpan g.toNat 1))) &&
    (guarded gr n g set).all fun t => nonePendingB gr (inThread t (ownRegs fs))
theorem guard_of_test {fs : List Field} {n : BitVec 1} {g : BitVec 6} {gr : Group} {set : List Nat} (h : guardB fs n g gr set = true) :
    GuardUsable fs n g gr set := by
  simp only [guardB, Bool.and_eq_true, List.all_eq_true, Option.isNone_iff_eq_none] at h
  exact ⟨h.1.1, fun t ht => none_of_test (h.1.2 t ht), fun t ht => none_of_test (h.2 t ht)⟩

/-- Every load, store and atomic meets its hypotheses in the small state; in the stores and atomics the guard v6 is true. -/
theorem test_hyps_loads : ([.ldgB 1 4 3, .ldgSb 1 4 3, .ldgH 1 4 3, .ldgSh 1 4 3, .ldgW 1 4 3, .ldgD 1 4 6, .ldgQ 1 4 8, .ldsH 1 2 3,
    .ldsW 1 2 3, .ldsD 1 2 6, .ldsQ 1 2 8] : List Instr).all (fun i => i.wf && (loadForm i).any fun F => usableB F.fields grp [0, 1] &&
      [0, 1].all fun t => reachesB st key false (F.target grp t)) = true := by decide +kernel
theorem test_hyps_LoadsLoad : ∃ F, loadForm (.ldgW 1 4 3) = some F ∧ Issuing st 0 [0, 1] grp ∧ (Instr.ldgW 1 4 3).wf = true ∧
    Usable F.fields grp [0, 1] ∧ ∀ t ∈ [0, 1], Reaches st grp.key false (F.target grp t) ∧
      st.mayPerform grp.key false (st.places grp.key (F.target grp t) false) = true :=
  ⟨_, rfl, test_issuing, rfl, usable_of_test (by decide +kernel), fun t ht => reaches_of_test (by revert t; decide +kernel)⟩

theorem test_hyps_stores : ([.stgB 1 0 6 4 3, .stgH 1 0 6 4 3, .stgW 1 0 6 4 3, .stgD 1 0 6 4 8, .stgQ 1 0 6 4 8, .stsH 1 0 6 2 3,
    .stsW 1 0 6 2 3, .stsD 1 0 6 2 8, .stsQ 1 0 6 2 8] : List Instr).all (fun i => i.wf && (storeForm i).any fun F =>
      guardB F.fields F.n F.guard grp [0, 1] && decide (F.d ≠ 61) && decide (F.who grp [0, 1] = [0, 1]) &&
      [0, 1].all fun t => reachesB st key true (F.target grp t)) = true := by decide +kernel
theorem test_hyps_StoresStore :
    (∃ F, storeForm (.stgW 1 0 6 4 3) = some F ∧ Issuing st 0 [0, 1] grp ∧ (Instr.stgW 1 0 6 4 3).wf = true ∧
      GuardUsable F.fields F.n F.guard grp [0, 1] ∧ F.d ≠ 61 ∧ ∀ t ∈ F.who grp [0, 1], Reaches st grp.key true (F.target grp t) ∧
        st.mayPerform grp.key true (st.places grp.key (F.target grp t) true) = true) ∧
    (∃ F, storeForm (.stsW 1 0 6 2 61) = some F ∧ Issuing one 0 [0] grp ∧ GuardUsable F.fields F.n F.guard grp [0] ∧ F.d = 61 ∧
      F.who grp [0] = [0] ∧ Reaches one grp.key true (F.target grp 0) ∧ (grp.thread 0).queue = []) ∧
    ∃ F, storeForm (.stsW 1 0 6 2 61) = some F ∧ Issuing qst 0 [0] qgrp ∧ GuardUsable F.fields F.n F.guard qgrp [0] ∧ F.d = 61 ∧
      F.who qgrp [0] = [0] ∧ Reaches qst qgrp.key true (F.target qgrp 0) ∧ (qgrp.thread 0).queue = (9, team) :: [(8, team)] := by
  refine ⟨⟨_, rfl, test_issuing, rfl, guard_of_test (by decide +kernel), by decide, fun t ht => reaches_of_test (by revert t; decide +kernel)⟩,
    ⟨_, rfl, test_issuing_one, guard_of_test (by decide +kernel), rfl, by decide +kernel, (reaches_of_test (by decide +kernel)).1, rfl⟩,
    _, rfl, ⟨rfl, rfl, by decide, by decide⟩, guard_of_test (by decide +kernel), rfl, by decide +kernel, (reaches_of_test (by decide +kernel)).1, rfl⟩
theorem test_hyps_StoredValue : ∃ F, storeForm (.stgW 1 0 6 4 3) = some F ∧ Issuing one 0 [0] grp ∧
    GuardUsable F.fields F.n F.guard grp [0] ∧ F.d ≠ 61 ∧ F.who grp [0] = [0] ∧ Reaches one grp.key true (F.target grp 0) ∧
    one.memWf = true ∧ (∀ x ∈ one.sessions, x.opened = false) ∧ (one.places grp.key (F.target grp 0) true).Pairwise Apart ∧
    ∀ x ∈ one.places grp.key (F.target grp 0) true, ApartStatus one x := by
  refine ⟨_, rfl, test_issuing_one, guard_of_test (by decide +kernel), by decide, by decide +kernel, (reaches_of_test (by decide +kernel)).1,
    by decide +kernel, by decide +kernel, ?_, ?_⟩
  · rw [show one.places grp.key _ true = [(.glob 0x30004 0x200004 none, 4)] by decide +kernel]; simp
  · rw [show one.places grp.key _ true = [(.glob 0x30004 0x200004 none, 4)] by decide +kernel]
    intro x hx
    obtain rfl := List.mem_singleton.mp hx
    intro a h1 h2 n hn p hp
    obtain rfl := List.mem_singleton.mp hn
    rw [show (one.ctx nod.ctx).phys? (nod.addr + 104) = some 0x31068 by decide +kernel] at hp
    cases hp
    dsimp only at h1 h2
    omega

theorem test_hyps_atomics : ([.aadd 1 0 6 4 3, .amin 1 0 6 4 3, .amax 1 0 6 4 3, .aand 1 0 6 4 3, .aor 1 0 6 4 3, .axor 1 0 6 4 3,
    .axch 1 0 6 4 3, .acas 1 0 6 4 8, .afadd 1 0 6 4 3, .acasD 1 0 6 4 8, .axchD 1 0 6 4 8] : List Instr).all (fun i => i.wf &&
      (atomicForm i).any fun F => guardB F.fields F.n F.guard grp [0, 1] && decide (F.who grp [0, 1] = [0, 1]) &&
        [0, 1].all fun t => reachesB st key true (F.target grp t)) = true := by decide +kernel
theorem test_hyps_AtomicsComplete :
    (∃ F, atomicForm (.acas 1 0 6 4 8) = some F ∧ Issuing one 0 [0] grp ∧ GuardUsable F.fields F.n F.guard grp [0] ∧ F.who grp [0] = [0] ∧
      Reaches one grp.key true (F.target grp 0) ∧ one.mayPerform grp.key true (one.places grp.key (F.target grp 0) true) = true) ∧
    ∃ F, atomicForm (.aadd 1 0 6 4 3) = some F ∧ Issuing st 0 [0, 1] grp ∧ GuardUsable F.fields F.n F.guard grp [0, 1] ∧
      ∀ t ∈ F.who grp [0, 1], Reaches st grp.key true (F.target grp t) ∧
        st.mayPerform grp.key true (st.places grp.key (F.target grp t) true) = true :=
  ⟨⟨_, rfl, test_issuing_one, guard_of_test (by decide +kernel), by decide +kernel, (reaches_of_test (by decide +kernel)).1,
    (reaches_of_test (by decide +kernel)).2⟩, _, rfl, test_issuing, guard_of_test (by decide +kernel),
    fun t ht => reaches_of_test (by revert t; decide +kernel)⟩

/-- A deterministic node with its range over the page. -/
def dnod : Node := { nod with registered := true, rec' := { recd with det := true, ranges := [(0x200000, 65536)] } }
def dst : State := { st with nodes := [dnod] }
theorem test_hyps_DredAppends : RunsIf (.dred 0 1 62 4 6) (dredFields 0 62 4 6) 1 62 dst 0 [0, 1] grp ∧ grp.key.kind = .lanes ∧
    dst.feature 9 = true ∧ dst.node? grp.key.ctx grp.key.node = some dnod ∧ dnod.rec'.det = true ∧ guarded grp 1 62 [0, 1] = [0, 1] ∧
    (∀ t ∈ [0, 1], ∃ l, dst.dredCheck grp dnod (dredSize 0) ((grp.thread t).pair 4).toNat = .ok l) ∧
    dst.firstFull grp dnod 0 [0, 1] = none :=
  ⟨⟨⟨rfl, rfl, by decide, by decide⟩, rfl, guard_of_test (by decide +kernel)⟩, rfl, by decide +kernel, by decide +kernel, rfl, by decide +kernel,
    fun t ht => ok_of_test (by revert t; decide +kernel), by decide +kernel⟩

/-- A base on a 4 KiB boundary in v4, block 1 in v2. -/
def mthr : Thread := (thr.setReg 2 0x1000).setReg 4 0x00200000
def mgrp : Group := { grp with threads := List.replicate 8 mthr }
def mst : State := withGroup st mgrp
/-- A window over block 2. -/
def wst : State := { st with teams := [{ tm with windows := [⟨2, 1, 0x200000, []⟩] }] }
theorem test_hyps_StashWindows :
    (RunsOnce (.stmap 0 4 2) [regF 4 2, regF 2] mst 0 [0, 1] mgrp ∧ mst.feature 12 = true ∧ mgrp.key.kind ≠ .handler ∧
      mst.team? (gkeyTeam mgrp.key) = some tm ∧ stmapBad tm (mapFirst mgrp [0, 1] 2) 1 = none ∧ canonical (mapBase mgrp [0, 1] 4) = true ∧
      canonical ((mapBase mgrp [0, 1] 4 + 4095) % 2 ^ 64) = true ∧ mst.rangeRegistered 1 (mapBase mgrp [0, 1] 4) 4096 = false ∧ NoneWait mst ∧
      mst.active mgrp = true ∧ mst.blocksFree team 1 1 = true ∧ ∀ t ∈ [0, 1], t < mgrp.threads.length) ∧
    (RunsOnce (.stflush 2) [regF 2] wst 0 [0, 1] grp ∧ wst.feature 12 = true ∧ grp.key.kind ≠ .handler) :=
  ⟨⟨⟨⟨rfl, rfl, by decide, by decide⟩, rfl, usable_of_test (by decide +kernel)⟩, by decide +kernel, by decide +kernel, by decide +kernel,
    by decide +kernel, by decide +kernel, by decide +kernel, by decide +kernel, by unfold NoneWait; decide +kernel, by decide +kernel, by decide +kernel,
    by decide +kernel⟩,
    ⟨⟨rfl, rfl, by decide, by decide⟩, rfl, usable_of_test (by decide +kernel)⟩, by decide +kernel, by decide +kernel⟩

/-- Addresses at the ends of each clause: not canonical, misaligned, in and out of the team's aperture, mapped or not; scratch up to
and past its last block. -/
theorem test_hyps_AddressChecks :
    canonical (2 ^ 56) = false ∧ (canonical 0x200001 = true ∧ (0x200001 : Nat) % 4 ≠ 0) ∧
    (canonical 0x200004 = true ∧ (0x200004 : Nat) % 4 = 0 ∧ inApertures 0x200004 = false) ∧
    (canonical 0xFF000000000000 = true ∧ inApertures 0xFF000000000000 = true ∧
      ¬(tm.aperture.toNat ≤ 0xFF000000000000 ∧ 0xFF000000000000 < tm.aperture.toNat + 0x400000)) ∧
    ctx1.mapping? (0x1FFFFF / 65536) = none ∧ ctx1.mapping? (0x200000 / 65536) = some ⟨0x20, 3, 1, true, true, true, .k64⟩ ∧
    tm.owners.length * 4096 < 0x7FFD + 4 ∧ (0x7FFC + 4 ≤ tm.owners.length * 4096 ∧ tm.window? 0x7FFC = none) ∧
    (wst.teams.headD tm).window? 0x2000 = some ⟨2, 1, 0x200000, []⟩ := by decide +kernel
/-- A load, a store and an atomic that are misaligned; a load of a page that is not present. -/
def bgrp : Group := { grp with threads := List.replicate 8 (thr.setReg 4 0x200001) }
def fgrp : Group := { grp with threads := List.replicate 8 (thr.setReg 4 0x300000) }
theorem test_hyps_AddressChecks_forms :
    (∃ F, loadForm (.ldgW 1 4 3) = some F ∧ Issuing (withGroup st bgrp) 0 [0, 1] bgrp ∧ Usable F.fields bgrp [0, 1] ∧
      firstBad (fun t => (withGroup st bgrp).lowCheck key false (F.target bgrp t)) [0, 1] = none) ∧
    (∃ F, loadForm (.ldgW 1 4 3) = some F ∧ Issuing (withGroup st fgrp) 0 [0, 1] fgrp ∧ Usable F.fields fgrp [0, 1] ∧
      firstBad (fun t => (withGroup st fgrp).lowCheck key false (F.target fgrp t)) [0, 1] = some (0, .page 0x30)) ∧
    (∃ F, loadForm (.ldsW 0x7FF 4 3) = some F ∧ Usable F.fields bgrp [0, 1] ∧
      firstBad (fun t => (withGroup st bgrp).lowCheck key false (F.target bgrp t)) [0, 1] = some (0, .fault 6 0x1FFFFD)) ∧
    (∃ F, storeForm (.stsW 1 0 6 4 3) = some F ∧ GuardUsable F.fields F.n F.guard bgrp [0, 1] ∧
      firstBad (fun t => (withGroup st bgrp).lowCheck key true (F.target bgrp t)) (F.who bgrp [0, 1]) = some (0, .fault 6 0x200005)) ∧
    ∃ F, atomicForm (.aadd 1 0 6 4 3) = some F ∧ GuardUsable F.fields F.n F.guard bgrp [0, 1] ∧
      firstBad (fun t => (withGroup st bgrp).lowCheck key true (F.target bgrp t)) (F.who bgrp [0, 1]) = some (0, .fault 4 0x200005) :=
  ⟨⟨_, rfl, ⟨rfl, rfl, by decide, by decide⟩, usable_of_test (by decide +kernel), by decide +kernel⟩,
    ⟨_, rfl, ⟨rfl, rfl, by decide, by decide⟩, usable_of_test (by decide +kernel), by decide +kernel⟩,
    ⟨_, rfl, usable_of_test (by decide +kernel), by decide +kernel⟩,
    ⟨_, rfl, guard_of_test (by decide +kernel), by decide +kernel⟩, _, rfl, guard_of_test (by decide +kernel), by decide +kernel⟩

theorem test_hyps_MemoryHolds : cellsWf [(4, 1), (9, 255)] = true ∧ cellsWf [] = true ∧ cellsWf [(9, 1), (4, 1)] = false ∧
    cellsWf [(4, 0)] = false := by decide
/-! ## Hypotheses of the statements about control, waits and system instructions -/

def runsB (i : Instr) (fs : List Field) (gr : Group) (set : List Nat) : Bool := i.wf && usableB fs gr set
theorem runs_of_test {i : Instr} {fs : List Field} {s : State} {g : Nat} {set : List Nat} {gr : Group} (hi : Issuing s g set gr)
    (h : runsB i fs gr set = true) : Runs i fs s g set gr := by
  simp only [runsB, Bool.and_eq_true] at h
  exact ⟨hi, h.1, usable_of_test h.2⟩
theorem once_of_test {i : Instr} {fs : List Field} {s : State} {g : Nat} {set : List Nat} {gr : Group} (hi : Issuing s g set gr)
    (h : runsB i fs gr [set.headD 0] = true) : RunsOnce i fs s g set gr := by
  simp only [runsB, Bool.and_eq_true] at h
  exact ⟨hi, h.1, usable_of_test h.2⟩
theorem runsIf_of_test {i : Instr} {fs : List Field} {n : BitVec 1} {gd : BitVec 6} {s : State} {g : Nat} {set : List Nat} {gr : Group}
    (hi : Issuing s g set gr) (h : (i.wf && guardB fs n gd gr set) = true) : RunsIf i fs n gd s g set gr := by
  simp only [Bool.and_eq_true] at h
  exact ⟨hi, h.1, guard_of_test h.2⟩

/-- Branches with a true guard and with a false one, and an EXIT in a lane group whose team has no phase in progress. -/
theorem test_hyps_BranchesAndExits :
    ([.bra 0x3FFFC 0 6, .call 20 1 6, .brx 6 1 62, .ret 1 62] : List Instr).all (fun i => (branchForm i).any fun F =>
      i.wf && guardB F.fields F.n F.guard { grp with budget := 60 } [0, 1]) = true ∧
    (∃ F, branchForm (.bra 0x3FFFC 0 6) = some F ∧ RunsIf (.bra 0x3FFFC 0 6) F.fields F.n F.guard st 0 [0, 1] grp ∧
      guarded grp F.n F.guard [0, 1] = [0, 1]) ∧
    (∃ F, branchForm (.bra 0x3FFFC 1 6) = some F ∧ RunsIf (.bra 0x3FFFC 1 6) F.fields F.n F.guard st 0 [0, 1] grp ∧
      guarded grp F.n F.guard [0, 1] = []) ∧
    (RunsIf (.exit 0 6) [regF 6] 0 6 st 0 [0, 1] grp ∧ grp.key.kind = .lanes ∧ NoneWait st ∧
      ∀ t ∈ st.teams, t.key = gkeyTeam grp.key → ∀ b ∈ t.barriers, b.bits = none) :=
  ⟨by decide +kernel, ⟨_, rfl, runsIf_of_test test_issuing (by decide +kernel), by decide +kernel⟩,
    ⟨_, rfl, runsIf_of_test test_issuing (by decide +kernel), by decide +kernel⟩,
    runsIf_of_test test_issuing (by decide +kernel), rfl, by unfold NoneWait; decide +kernel, by decide +kernel⟩
theorem test_hyps_BreakAndTrap : RunsIf (.brk 1 62) [regF 62] 1 62 st 0 [0, 1] grp ∧ guarded grp 1 62 [0, 1] = [0, 1] ∧
    RunsIf (.brk 0 62) [regF 62] 0 62 st 0 [0, 1] grp ∧ guarded grp 0 62 [0, 1] = [] ∧ RunsOnce (.trap 6) [regF 6] st 0 [0, 1] grp :=
  ⟨runsIf_of_test test_issuing (by decide +kernel), by decide +kernel, runsIf_of_test test_issuing (by decide +kernel), by decide +kernel,
    once_of_test test_issuing (by decide +kernel)⟩

/-- All threads but 0 and 1 wait at the group barrier. -/
def ggrp : Group := { grp with threads := thr :: thr :: List.replicate 6 { thr with state := .blocked .barg } }
theorem test_hyps_BargMeets : Runs .barg [] (withGroup st ggrp) 0 [0, 1] ggrp ∧ ggrp.key.kind = .lanes ∧ (withGroup st ggrp).active ggrp = true ∧
    (∀ t ∈ [0, 1], (ggrp.thread t).state = .ready) ∧
    (∀ t, t < ggrp.threads.length → t ∈ [0, 1] ∨ (ggrp.thread t).state = .exited ∨ (ggrp.thread t).state = .blocked .barg) ∧
    ∀ (j : Nat) (x : Group), (withGroup st ggrp).groups[j]? = some x → j ≠ 0 → ∀ th ∈ x.threads, th.isBlocked = false := by
  refine ⟨runs_of_test ⟨rfl, rfl, by decide, by decide⟩ (by decide +kernel), rfl, by decide +kernel, by decide +kernel, by decide +kernel, ?_⟩
  intro j x hx hj
  cases j with
  | zero => exact absurd rfl hj
  | succ j => simp [withGroup] at hx

/-- The group waits in phase 0 of barrier 3, which group 0 of the team has come to. -/
def bthr : Thread := { thr with phases := thr.phases.set 3 (some 0) }
theorem test_hyps_TeamBarriers : Runs (.bart 0x31) [] st 0 [0, 1] grp ∧ barrierIllegal 0x31 grp st = false ∧
    Runs (.bararv 0x31) [] st 0 [0, 1] grp ∧ (Runs (.barwt 3) [] st 0 [0, 1] grp ∧ grp.key.kind = .lanes) ∧ bthr.phases.getD 3 none = some 0 ∧
    ([0, 1] : List Nat).Nodup ∧ ({ bits := some 2 } : Barrier).bits = some 2 :=
  ⟨runs_of_test test_issuing (by decide +kernel), by decide +kernel, runs_of_test test_issuing (by decide +kernel),
    ⟨runs_of_test test_issuing (by decide +kernel), rfl⟩, by decide +kernel, by decide, rfl⟩

theorem test_hyps_WaitsBlock : Runs (.waitc 0x3F8) [] st 0 [0, 1] grp ∧
    (Runs (.waitw 4 3) [regF 4 2, updF 3] st 0 [0, 1] grp ∧
      ∀ t ∈ [0, 1], Reaches st grp.key false (wordTarget ((grp.thread t).pair 4)) ∧
        st.mayPerform grp.key false (st.places grp.key (wordTarget ((grp.thread t).pair 4)) false) = true) ∧
    Runs .yield [] st 0 [0, 1] grp ∧ Runs (.nap 0) [] st 0 [0, 1] grp ∧ Runs (.nap 1023) [] st 0 [0, 1] grp :=
  ⟨runs_of_test test_issuing (by decide +kernel), ⟨runs_of_test test_issuing (by decide +kernel),
    fun t ht => reaches_of_test (by revert t; decide +kernel)⟩, runs_of_test test_issuing (by decide +kernel),
    runs_of_test test_issuing (by decide +kernel), runs_of_test test_issuing (by decide +kernel)⟩

/-- A cairn at scratch address 0x100 without an error, one with an error, sums below, at and past the target, and a target
of 0. -/
theorem test_hyps_Cairns : (Runs (.swait 2 3) [regF 2, updF 3] st 0 [0, 1] grp ∧
      (∀ t ∈ [0, 1], st.cairnCheck team ((grp.thread t).reg 2).toNat = none) ∧
      ∀ t ∈ [0, 1], cairnErr (st.scratch team) ((grp.thread t).reg 2).toNat = false) ∧
    (Runs (.syncset 2 6) [regF 2, regF 6] one 0 [0] grp ∧ one.cairnCheck team ((grp.thread 0).reg 2).toNat = none) ∧
    (let m := cairnSet [] 0x100 4
     cellsWf m = true ∧ cairnErr m 0x100 = false ∧ cairnWord m 0x100 1 + 3 < cairnWord m 0x100 0 ∧ cairnWord m 0x100 1 + 4 = cairnWord m 0x100 0 ∧
      cairnWord m 0x100 0 < cairnWord m 0x100 1 + 5 ∧ cairnErr (cairnReport m 0x100 15) 0x100 = true ∧ cairnWord (cairnSet [] 0x100 0) 0x100 0 = 0) :=
  ⟨⟨runs_of_test test_issuing (by decide +kernel), by decide +kernel, by decide +kernel⟩,
    ⟨runs_of_test test_issuing_one (by decide +kernel), by decide +kernel⟩, by decide +kernel⟩

/-- Mailboxes with one word, with seven, and a queue with a word. -/
def boxed (n : Nat) (x : Group) : State :=
  ({ withGroup one x with cores := one.cores.set 0 (({} : Core).setMailbox 1 5 (List.replicate n 7)) })
theorem test_hyps_MailboxesPass :
    (Runs (.mbr 5 3) [outF 3] (boxed 1 grp) 0 [0] grp ∧ NoneWait (boxed 1 grp) ∧ ((boxed 1 grp).core grp.core).mailbox 1 5 = 7 :: []) ∧
    (Runs (.mbw 5 6) [srcF 6] (boxed 7 grp) 0 [0] grp ∧ NoneWait (boxed 7 grp) ∧ (6 : BitVec 6) ≠ 61 ∧
      (((boxed 7 grp).core grp.core).mailbox 1 5).length < 8) ∧
    (Runs (.mbw 5 61) [srcF 61] (boxed 7 qgrp) 0 [0] qgrp ∧ NoneWait (boxed 7 qgrp) ∧
      (((boxed 7 qgrp).core qgrp.core).mailbox 1 5).length < 8 ∧ (qgrp.thread 0).queue = (9, team) :: [(8, team)]) :=
  ⟨⟨runs_of_test ⟨rfl, rfl, by decide, by decide⟩ (by decide +kernel), by unfold NoneWait; decide +kernel, by decide +kernel⟩,
    ⟨runs_of_test ⟨rfl, rfl, by decide, by decide⟩ (by decide +kernel), by unfold NoneWait; decide +kernel, by decide, by decide +kernel⟩,
    ⟨runs_of_test ⟨rfl, rfl, by decide, by decide⟩ (by decide +kernel), by unfold NoneWait; decide +kernel, by decide +kernel, by decide +kernel⟩⟩

theorem test_hyps_system : ([.nop, .elect 3, .vote 4 6 3, .flagrd 1 3, .ident 21 3, .csrrd 14 3, .qroute 4, .qstat 3 3, .perfrd 17 3] : List Instr).all
    (fun i => (sysForm i).any fun F => runsB i F.fields grp [0, 1]) = true := by decide +kernel
theorem test_hyps_SystemReads : ∃ F, sysForm (.vote 4 6 3) = some F ∧ Runs (.vote 4 6 3) F.fields st 0 [0, 1] grp :=
  ⟨_, rfl, runs_of_test test_issuing (by decide +kernel)⟩
theorem test_hyps_SystemWrites : Runs (.flagclr 0x55) [] st 0 [0, 1] grp ∧ Runs (.csrwr 12 6) [regF 6] st 0 [0, 1] grp ∧
    RunsOnce (.mark 9 6) [regF 6] st 0 [0, 1] grp :=
  ⟨runs_of_test test_issuing (by decide +kernel), runs_of_test test_issuing (by decide +kernel), once_of_test test_issuing (by decide +kernel)⟩
theorem test_hyps_ContextRegisters : key.ctx < st.ctxs.length ∧ st.cycle + 256 ≤ ({ st with time := 366 } : State).cycle ∧
    (let r := ({ base := 5 } : Csr).write st (key, 0) 8192 6
     r.base = 5 ∧ r.writes = [⟨6, (key, 0), 8192, st.cycle⟩] ∧ (∀ w ∈ r.writes, ¬(w.cycle = st.cycle ∧ 8193 < w.l.toNat)) ∧
       ∀ w ∈ r.writes, w.cycle = st.cycle ∧ 8191 < w.l.toNat) ∧
    ∀ c ∈ [0, 2, 3, 12], c < 13 ∧ (ctx1.whistle.writes = [] ∧ ctx1.round.writes = []) := by decide +kernel

/-- Budgets 8 and 60, at the ends of the range; and a group beside a neighbour that leaves 4 registers of each lane. -/
def nextGrp : Group := { grp with key := { key with idx := 1 }, slot := 1, budget := 60, threads := List.replicate 8 thr }
def crowd : State := { st with groups := grp :: List.replicate 17 nextGrp }
theorem test_hyps_RegisterBudgets :
    (Runs (.reggrow 1 60 3) [outF 3] st 0 [0, 1] grp ∧ LegalBudget 60 ∧ LegalBudget 8 ∧ (8 : Nat) ≤ grp.budget ∧ grp.budget < 60 ∧ NoneWait st ∧
      st.growRoom grp 60 = true ∧ st.active grp = true ∧ (∀ t ∈ [0, 1], t < grp.threads.length)) ∧
    (Runs (.reggrow 1 60 3) [outF 3] crowd 0 [0, 1] grp ∧ NoneWait crowd ∧ crowd.growRoom grp 60 = false) ∧
    (Runs (.regshrink 8 3) [outF 3] st 0 [0, 1] grp ∧ ∀ th ∈ grp.threads, ∀ r, (8 : BitVec 6).toNat ≤ r → r < grp.budget → th.isPend r = false) := by
  refine ⟨⟨runs_of_test test_issuing (by decide +kernel), by unfold LegalBudget; decide, by unfold LegalBudget; decide, by decide, by decide,
    by unfold NoneWait; decide +kernel, by decide +kernel, by decide +kernel, by decide +kernel⟩,
    ⟨runs_of_test ⟨rfl, rfl, by decide, by decide⟩ (by decide +kernel), by unfold NoneWait; decide +kernel, by decide +kernel⟩,
    runs_of_test test_issuing (by decide +kernel), ?_⟩
  intro th hth r _ hr
  revert r
  have h : ∀ th ∈ grp.threads, ∀ r, r < 16 → th.isPend r = false := by decide +kernel
  exact fun r _ hr => h th hth r hr

/-- A basket entry of thread 0, a remote command of the group, and a table of 1,024 bytes at scratch address 0x100. -/
def entry0 : BasketEntry := ⟨0, 0x200000, 7, grp.l 0, 0, 5, 2, 0, none, none⟩
def fst' : State := { dst with ctxs := dst.ctxs.set 1 { ctx1 with basket := [entry0] } }
theorem test_hyps_FencesHold :
    (RunsOnce .dflush [] fst' 0 [0, 1] grp ∧ ((fst'.node? 1 5).map fun n => n.rec'.det) = some true ∧
      entry0 ∈ (fst'.ctx 1).basket ∧ (entry0.node == grp.key.node && (grp.key.kind == .lanes && ([0, 1].map grp.l).contains entry0.l)) = true) ∧
    (Runs .xfence [] st 0 [0, 1] grp ∧ st.feature 11 = true ∧ st.remoteCmds grp.key = []) ∧
    (RunsOnce (.tblld 2 2) [regF 2] st 0 [0, 1] grp ∧ grp.key.kind ≠ .handler ∧ ∀ j, j < 256 →
      ∃ l, st.checkPart grp.key { glob := false, addr := 0x100 + 4 * j, size := 4 } false (0x100 + 4 * j, 4) = .ok l) :=
  ⟨⟨once_of_test ⟨rfl, rfl, by decide, by decide⟩ (by decide +kernel), by decide +kernel, by decide +kernel, by decide +kernel⟩,
    ⟨runs_of_test test_issuing (by decide +kernel), by decide +kernel, by decide +kernel⟩,
    once_of_test test_issuing (by decide +kernel), by decide, fun j hj => ok_of_test (by revert j; decide +kernel)⟩

/-- A queue that takes no launches, one that is full, and one with room. -/
def queued (q : Queue) : State := { one with ctxs := one.ctxs.set 1 { ctx1 with queues := ctx1.queues.set 3 q } }
def lgrp : Group := { grp with threads := List.replicate 8 (thr.setReg 4 0x202000) }
/-- The ring stands at 0x203000; two threads launch. -/
def ring : Queue := { en := true, src := true, base := 0x203000 }
def lst : State := { withGroup (queued ring) lgrp with cur := some ⟨0, [0, 1], []⟩ }
theorem test_hyps_LaunchQueues :
    (let s := withGroup (queued ring) lgrp
     Runs (.launch 3 4 3) [regF 4 2, outF 3] s 0 [0] lgrp ∧ lgrp.key.kind ≠ .handler ∧
      Reaches s key false (recordTarget ((lgrp.thread 0).pair 4)) ∧ Reaches s key true (ring.slotTarget 0) ∧
      s.mayPerform key false (s.places key (recordTarget ((lgrp.thread 0).pair 4)) false) = true) ∧
    ({ } : Queue).en = false ∧ (let q : Queue := { en := true, src := true, tail := 16 }; (q.tail - q.head).toNat = q.size) ∧
    (let q : Queue := { en := true, src := true, tail := 15 }; (q.tail - q.head).toNat ≠ q.size) ∧
    Runs (.launch 3 4 3) [regF 4 2, outF 3] lst 0 [0, 1] lgrp ∧ ring.size < 2 ^ 32 ∧ (ring.tail - ring.head).toNat ≤ ring.size ∧
    (∀ n, n < 2 → Reaches lst key true (ring.slotTarget n)) ∧
    ∀ t ∈ [0, 1], Reaches lst key false (recordTarget ((lgrp.thread t).pair 4)) ∧
      lst.mayPerform key false (lst.places key (recordTarget ((lgrp.thread t).pair 4)) false) = true := by
  refine ⟨⟨runs_of_test ⟨rfl, rfl, by decide, by decide⟩ (by decide +kernel), by decide, (reaches_of_test (by decide +kernel)).1,
      (reaches_of_test (by decide +kernel)).1, (reaches_of_test (by decide +kernel)).2⟩, rfl, by decide +kernel, by decide +kernel,
    runs_of_test ⟨rfl, rfl, by decide, by decide⟩ (by decide +kernel), by decide +kernel, by decide +kernel,
    fun n hn => (reaches_of_test (by revert n; decide +kernel)).1, fun t ht => reaches_of_test (by revert t; decide +kernel)⟩

/-- A handler instance whose record holds group 0, stopped. -/
def rec0 : TrapRec := ⟨0x3D, false, false, 0, 0x40, 8192, 1, 0, 5, key⟩
def hgrp : Group := { hand with handler := some { trap := rec0, sel := some key } }
def hst : State := { one with groups := [{ grp with stop := true, trapped := [0, 1] }, hgrp], cur := some ⟨1, [0], []⟩ }
theorem test_issuing_handler : Issuing hst 1 [0] hgrp := ⟨rfl, rfl, by decide, by decide⟩
theorem test_hyps_DebugWindow :
    Runs (.dwsel 6 3) [regF 6, outF 3] hst 1 [0] hgrp ∧ Runs (.dwrd 6 3) [regF 6, outF 3] hst 1 [0] hgrp ∧
    Runs (.dwwr 6 3) [regF 6, regF 3] hst 1 [0] hgrp ∧ Runs (.dwres 0 62) [regF 62] hst 1 [0] hgrp ∧ Runs (.dwres 1 62) [regF 62] hst 1 [0] hgrp ∧
    Runs (.dwres 2 6) [regF 6] hst 1 [0] hgrp ∧ Runs .dwkill [] hst 1 [0] hgrp ∧ hgrp.key.kind = .handler ∧ (hst.heldGroup hgrp).isSome = true ∧
    hst.selected hgrp = some 0 ∧ hst.heldGroup { hgrp with handler := none } = none ∧ Issuing st 0 [0, 1] grp ∧ grp.key.kind ≠ .handler :=
  ⟨runs_of_test test_issuing_handler (by decide +kernel), runs_of_test test_issuing_handler (by decide +kernel),
    runs_of_test test_issuing_handler (by decide +kernel), runs_of_test test_issuing_handler (by decide +kernel),
    runs_of_test test_issuing_handler (by decide +kernel), runs_of_test test_issuing_handler (by decide +kernel),
    runs_of_test test_issuing_handler (by decide +kernel), rfl, by decide +kernel, by decide +kernel, by decide +kernel, test_issuing, by decide⟩
/-! ## Hypotheses of the statements about traps, engines and shares -/

/-- A context with a handler, and one without. -/
def vecCtx : Context := { ctx1 with trapVec := { base := 0x201 } }
def vst : State := { st with ctxs := st.ctxs.set 1 vecCtx }
theorem test_hyps_TrapEntry : vst.groups[0]? = some grp ∧ grp.key.kind ≠ .handler ∧ (vst.ctx grp.key.ctx).trapVec.val.getLsbD 0 = true := by
  refine ⟨rfl, by decide, by decide +kernel⟩
theorem test_hyps_FatalTrap :
    (st.groups[0]? = some grp ∧ (st.ctx grp.key.ctx).trapVec.val.getLsbD 0 = false ∧ grp.key.ctx < st.ctxs.length ∧ NoSession st grp.key.ctx) ∧
    (hst.groups[1]? = some hgrp ∧ hgrp.key.kind = .handler ∧ hgrp.key.ctx < hst.ctxs.length ∧ NoSession hst hgrp.key.ctx) := by
  refine ⟨⟨rfl, by decide +kernel, by decide +kernel, by unfold NoSession; decide +kernel⟩, rfl, rfl, by decide +kernel, by unfold NoSession; decide +kernel⟩

/-- A shape record, a plan record and a factorising record, at scratch 0, 0x40 and 0x80. -/
def shapeRec : List Byte :=
  natBytes 8 0x200000 ++ natBytes 4 16 ++ natBytes 4 4 ++ natBytes 4 1 ++ natBytes 8 64 ++ natBytes 8 256 ++ natBytes 2 16 ++ natBytes 2 4 ++
    natBytes 2 1 ++ natBytes 1 2 ++ natBytes 1 0 ++ natBytes 4 64 ++ natBytes 4 256 ++ natBytes 12 0
def planRec : List Byte := natBytes 2 8 ++ natBytes 1 1 ++ natBytes 1 0 ++ natBytes 1 0 ++ natBytes 1 128 ++ natBytes 2 16 ++ natBytes 8 8 ++ natBytes 48 0
def luRec : List Byte := natBytes 2 128 ++ natBytes 2 256 ++ natBytes 4 0 ++ natBytes 4 0 ++ natBytes 4 0x7F800000 ++ natBytes 48 0
/-- The team holds slot 0 of pair 0, and slot 1, which a factorising session has loaded, of pair 1. -/
def etm : Team :=
  { tm with
    cores := [0, 1, 2, 3], owners := List.replicate 64 .threads
    scratch := cellsWrite [] 0 (shapeRec ++ planRec ++ luRec)
    grants := [⟨0, 0, 0, 1, false⟩, ⟨1, 0, 1, 1, false⟩]
    lus := [{ id := 0, pair := 1, slot := 1, loaded := true, rows := 128, cols := 256, growBase := 0, tau := 0, glim := 0x7F800000 }] }
/-- v8 to v11 are the coordinates 0, 0, 0 and the scratch box at 0x1000, v12 to v14 the records, v16 and v17 the handles, v18 to v25
specs of FP32 and BF16 operands A and B, v28 a scratch address, v30 a control word, v36 to v39 a transfer, v32 to v35 specs of I32, v40 and v41 of BF16 B. -/
def ethr : Thread :=
  [(8, 0), (9, 0), (10, 0), (11, 0x1000), (12, 0), (13, 0x40), (14, 0x80), (16, 16), (17, 0x211), (18, 0x90004000), (19, 128), (20, 0x90008000),
   (21, 0x04000200), (22, 0x00002000), (23, 0x180), (24, 0x0080E000), (25, 0x10000200), (40, 0x00010000), (41, 0x02000100), (28, 0x1000), (29, 0), (30, 0), (31, 0), (32, 0xB0004000),
   (33, 64), (34, 0xB0008000), (35, 0x02000200), (36, 0x1000), (37, 0x400), (38, 0), (39, 0)].foldl (fun t (p : Nat × Word) => t.setReg p.1 p.2)
    ({ pc := 0x40 } : Thread)
def egrp : Group := { grp with budget := 60, w := 64, threads := List.replicate 64 ethr }
/-- A hamper at 0x208000 with entries of every kind, and an open session of 32 bits. -/
def hamper : List Byte :=
  natBytes 32 0 ++ ((List.range 5).map fun _ => natBytes 8 0x200000 ++ natBytes 4 1 ++ natBytes 4 0 ++ natBytes 16 0).flatten
def sess : Session :=
  { id := 3, ring := 32, deadline := 1000000, parties := [⟨7, 0, 1⟩, ⟨8, 0, 1⟩], policy := [0], opened := true, hampers := [(0, 0x208000)] }
def est : State :=
  { withGroup one egrp with
    teams := [etm], mem := cellsWrite [] 0x38000 hamper, sessions := [sess]
    ctxs := one.ctxs.set 1 { ctx1 with session := some 3, maps := [⟨0x20, 3, 8, true, true, true, .k64⟩] } }
theorem test_issuing_engine : Issuing est 0 [0] egrp := ⟨rfl, rfl, by decide, by decide⟩

def isGo : CmdRes → Bool
  | .go _ _ => true
  | _ => false
theorem go_of_test {c : CmdRes} (h : isGo c = true) : ∃ x n, c = .go x n := by
  cases c with
  | go x n => exact ⟨x, n, rfl⟩
  | _ => cases h
def goes (s : State) (t : Team) (i : Instr) : Bool :=
  i.wf && (engForm i).any fun F => F.need.all s.feature && (fieldsFault egrp.budget F.fields).isNone && nonePendingB egrp (F.regs egrp 0) &&
    isGo (F.prep (theAct i 0 [0] egrp) egrp t (idle s))
/-- Every engine command passes its checks in the small state. -/
theorem test_hyps_engines : ([.tload 0 62 8 12, .tstore 0 62 8 12, .tgather 0 62 8 12, .tzero 1 62 8 12, .tpref 62 8 12, .xput 0 62 8 12,
    .xget 0 62 8 12, .tscat 0 62 8 12, .mma 0 16 20 18, .mmar 0 0 16 40 0, .mmas 0 16 24 22, .smma 0 16 34 32, .accfree 16, .accld 16 36 62,
    .accst 0 16 36 62, .bfly 0 16 13, .btwid 0 16 13, .brevEng 0 16 13, .atrans 16, .lubeg 16 14, .lustep 17 30, .lucand 17 62 42,
    .lucommit 17 62 30, .luend 17 62 28, .accrow 16 28 62] : List Instr).all (goes est etm) = true := by decide +kernel
theorem engClear_of_test {F : EngForm} {i : Instr} {s : State} {g : Nat} {set : List Nat} {gr : Group} {t : Team} (hi : Issuing s g set gr)
    (h : (i.wf && (F.need.all s.feature && (fieldsFault gr.budget F.fields).isNone && nonePendingB gr (F.regs gr (leadOf set)))) = true)
    (ht : s.team? (gkeyTeam gr.key) = some t) : EngClear F i s g set gr t := by
  simp only [Bool.and_eq_true, List.all_eq_true, Option.isNone_iff_eq_none] at h
  exact ⟨hi, h.1, h.2.1.1, h.2.1.2, none_of_test h.2.2, ht⟩
/-- A full queue, a record in a block that an engine writes. -/
def fullSt : State := { est with cores := est.cores.set 0 { queue := List.replicate 32 (newCmd 13 0 16 (theAct .nop 0 [0] egrp) egrp est) } }
def busySt : State := { est with teams := [{ etm with owners := .writing :: List.replicate 63 .threads }] }
theorem test_hyps_EngineIssues :
    (∃ F, engForm (.tload 0 62 8 12) = some F ∧ EngClear F (.tload 0 62 8 12) est 0 [0] egrp etm ∧
      (∃ c n, F.prep (theAct (.tload 0 62 8 12) 0 [0] egrp) egrp etm (idle est) = .go c n) ∧ (est.core egrp.core).queue.length < 32) ∧
    (∃ F, engForm (.tload 0 62 8 13) = some F ∧ EngClear F (.tload 0 62 8 13) est 0 [0] egrp etm ∧
      F.prep (theAct (.tload 0 62 8 13) 0 [0] egrp) egrp etm (idle est) = .refuse) ∧
    (∃ F, engForm (.mma 0 16 20 18) = some F ∧ EngClear F (.mma 0 16 22 18) est 0 [0] egrp etm) ∧
    (∃ F, engForm (.tload 0 62 8 12) = some F ∧
      F.prep (theAct (.tload 0 62 8 12) 0 [0] egrp) egrp { etm with owners := .writing :: List.replicate 63 .threads } (idle busySt) = .wait 0) ∧
    (∃ F, engForm (.accfree 16) = some F ∧ 32 ≤ (fullSt.core egrp.core).queue.length ∧
      ∃ c n, F.prep (theAct (.accfree 16) 0 [0] egrp) egrp etm (idle fullSt) = .go c n) := by
  refine ⟨⟨_, rfl, engClear_of_test test_issuing_engine (by decide +kernel) (by decide +kernel), go_of_test (by decide +kernel), by decide +kernel⟩,
    ⟨_, rfl, engClear_of_test test_issuing_engine (by decide +kernel) (by decide +kernel), by decide +kernel⟩,
    ⟨_, rfl, engClear_of_test test_issuing_engine (by decide +kernel) (by decide +kernel)⟩, ⟨_, rfl, by decide +kernel⟩,
    _, rfl, by decide +kernel, go_of_test (by decide +kernel)⟩
/-- SMMA without a session: what a read of its operands meets stops it. -/
def aloneSt : State := { est with sessions := [] }
theorem test_hyps_EngineIssues_stops :
    (∃ F, engForm (.smma 0 16 34 32) = some F ∧ EngClear F (.smma 0 16 34 32) aloneSt 0 [0] egrp etm ∧
      F.prep (theAct (.smma 0 16 34 32) 0 [0] egrp) egrp etm (idle aloneSt) = .stop (.fault 0x30 0)) ∧
    (∃ F, engForm (.tload 0 62 8 12) = some F ∧ EngClear F (.tload 0 62 8 12) busySt 0 [0] egrp (busySt.teams.headD etm)) ∧
    ∃ F, engForm (.accfree 16) = some F ∧ EngClear F (.accfree 16) fullSt 0 [0] egrp etm := by
  refine ⟨⟨_, rfl, engClear_of_test ⟨rfl, rfl, by decide, by decide⟩ (by decide +kernel) (by decide +kernel), by decide +kernel⟩,
    ⟨_, rfl, engClear_of_test ⟨rfl, rfl, by decide, by decide⟩ (by decide +kernel) (by decide +kernel)⟩,
    _, rfl, engClear_of_test ⟨rfl, rfl, by decide, by decide⟩ (by decide +kernel) (by decide +kernel)⟩
/-- A format code of a feature that is not accepted. -/
theorem test_hyps_EngineIssues_illegal : ∃ F, engForm (.mma 0 16 20 18) = some F ∧
    F.prep (theAct (.mma 0 16 20 18) 0 [0] egrp) { egrp with threads := List.replicate 64 (ethr.setReg 18 0x50004000) } etm
      (idle { est with accepted := some 0x1F }) = .illegal ∧ (0x1F : DWord).getLsbD 5 = false := by
  refine ⟨_, rfl, by decide +kernel, by decide⟩
theorem test_hyps_CommandEnters : let c := newCmd 13 0 16 (theAct (.accfree 16) 0 [0] egrp) egrp est
    est.groups[0]? = some egrp ∧ ([0] : List Nat) ≠ [] ∧ (∀ t ∈ [0], t < egrp.threads.length) ∧
      c.elected.2 = (theAct (.accfree 16) 0 [0] egrp).lead ∧ c.op ≠ 11 ∧ c.team.ctx < est.ctxs.length := by
  refine ⟨rfl, by decide, by decide +kernel, rfl, by decide, by decide +kernel⟩

/-- ACCALLOC of one slot of pair 0, of more than ACCSLOTS, and of a pair that the team does not have. -/
theorem test_hyps_AccallocGrants : RunsOnce (.accalloc 1 3) [outF 3] st 0 [0, 1] grp ∧ st.team? (gkeyTeam grp.key) = some tm ∧
    st.node? grp.key.ctx grp.key.node = some nod ∧ nod.rec'.accSlots < tm.heldSlots + 4 ∧ tm.cores.length < 2 * 1 + 2 ∧
    tm.heldSlots + 1 ≤ nod.rec'.accSlots ∧ 2 * 0 + 2 ≤ tm.cores.length ∧ tm.saved = false ∧ NoneWait st ∧
    (∀ t ∈ [0, 1], t < grp.threads.length ∧ (grp.thread t).pc = pcOf grp [0, 1]) ∧ tm.cores[2 * 0]? = some 0 ∧
    ({ st with cores := st.cores.set 0 { banks := [none, some 9] } } : State).accPlace tm 0 1 = some (0, 0) :=
  ⟨once_of_test test_issuing (by decide +kernel), by decide +kernel, by decide +kernel, by decide +kernel, by decide, by decide +kernel, by decide,
    rfl, by unfold NoneWait; decide +kernel, by decide +kernel, rfl, by decide +kernel⟩

/-- Shares in an open session of 32 bits, of another width, without a session, with no policy, and with no entries left. -/
theorem test_hyps_shares : ([.smul 1 1 2 3, .strunc 1 1 3, .sltz 1 1 3, .slut 0 1 1 3, .sopen 1 1 3] : List Instr).all (fun i => i.wf &&
    (shareForm i).any fun F => usableB F.fields egrp [0] && (match est.shareSession 1 with
      | some (x, _, h) => x.ring == F.bits && x.policy == [0] && isOk (est.takeEntries key h F.bits F.op 1).1 &&
          (F.op == 29 || !isOk (est.takeEntries key h F.bits F.op 2).1)
      | none => false)) = true := by decide +kernel
theorem test_hyps_SharesIssue : (∃ F, shareForm (.smul 1 1 2 3) = some F ∧ Runs (.smul 1 1 2 3) F.fields est 0 [0] egrp ∧ F.bits = 32) ∧
    (∃ F, shareForm (.smul 0 1 2 3) = some F ∧ Runs (.smul 0 1 2 3) F.fields est 0 [0] egrp ∧ F.bits = 16) ∧
    est.feature 4 = true ∧ egrp.key.kind = .lanes ∧ est.shareSession egrp.key.ctx = some (sess, 0, 0x208000) ∧ sess.ring = 32 ∧ sess.policy ≠ [] ∧
    st.shareSession grp.key.ctx = none ∧ ({ est with sessions := [{ sess with policy := [] }] } : State).shareSession 1 = some ({ sess with policy := [] }, 0, 0x208000) :=
  ⟨⟨_, rfl, runs_of_test test_issuing_engine (by decide +kernel), rfl⟩, ⟨_, rfl, runs_of_test test_issuing_engine (by decide +kernel), rfl⟩,
    by decide +kernel, rfl, by decide +kernel, rfl, by decide, by decide +kernel, by decide +kernel⟩
/-- Entries of the hamper on a page that is not mapped. -/
def farHamper : List Byte :=
  natBytes 32 0 ++ ((List.range 5).map fun _ => natBytes 8 0x300000 ++ natBytes 4 1 ++ natBytes 4 0 ++ natBytes 16 0).flatten
def farSt : State := { est with mem := cellsWrite [] 0x38000 farHamper }
theorem test_hyps_SharesIssue_stops : ∃ F, shareForm (.smul 1 1 2 3) = some F ∧ Runs (.smul 1 1 2 3) F.fields farSt 0 [0] egrp ∧
    farSt.shareSession 1 = some (sess, 0, 0x208000) ∧ isOk (farSt.takeEntries key 0x208000 F.bits F.op 1).1 = false :=
  ⟨_, rfl, runs_of_test ⟨rfl, rfl, by decide, by decide⟩ (by decide +kernel), by decide +kernel, by decide +kernel⟩
/-- R365. Two parties with shares of 6 and 7, and a triple of 5, 3 and 15, in a ring of 16 bits. -/
theorem test_hyps_SharesMultiply : let ps : List ((Nat × Nat) × (Nat × Nat × Nat)) := [((2, 3), (1, 1, 4)), ((4, 4), (4, 2, 11))]
    ps ≠ [] ∧ (ps.map fun p => p.2.2.2).sum % 2 ^ 16 = ((ps.map fun p => p.2.1).sum * (ps.map fun p => p.2.2.1).sum) % 2 ^ 16 := by decide
/-! ## Hypotheses of the statements about the step, boot, fabric and links -/

/-- The machine of `st` before the step that issues thread 0: group 0 at PC 0x40, where the code window holds ADD v3, v1, v2. -/
def pre : State := { st with cur := none, script := [.issue 0 0 [] []], mem := cellsWrite [] 0x30040 (natBytes 4 0x00810C11) }
def mem0 : Member := ⟨key, [0, 1, 2, 3, 4, 5, 6, 7], true, none⟩
/-- Thread 0 waits on qr, and a word has come. -/
def qwait : Group := { grp with threads := { thr with state := .blocked (.qr (.movA 0 61 3)), queue := [(9, team)] } :: List.replicate 7 thr }
theorem test_hyps_StepRunsDecoded_due : let s := { withGroup st qwait with cur := none }
    s.boot.status ≠ .off ∧ s.merging = [] ∧ leastBy? wakeOrder s.dueThreads = some (0, qwait, 0) ∧
      s.dueInstr qwait 0 = some (.movA 0 61 3) ∧ ∃ s1, s.retireDue (0, qwait, 0) (.movA 0 61 3) = .run (.movA 0 61 3) s1 := by
  refine ⟨by decide, rfl, by decide +kernel, rfl, _, rfl⟩
theorem test_hyps_GroupsPicked : (∃ p, p ∈ pre.groups.zipIdx ∧ p.1.core = 0 ∧ p.1.half = 0 ∧ pre.canIssue p.1 = true ∧ pre.heldAt [] p = false) ∧
    pre.members 1 0 [] [] = [] := ⟨⟨(grp, 0), by decide +kernel⟩, by decide +kernel⟩
theorem test_hyps_StepRunsDecoded_event : ({ st with script := [.event .diePowerUp] } : State).script.headD (Config.choose 0) = .event .diePowerUp ∧
    (encodeWord .diePowerUp).2 = 0 ∧ st.merging = [] ∧ ({ st with script := [.event .diePowerUp] } : State).dueThreads = [] ∧
    State.reset.boot.status = .off := ⟨rfl, by decide, rfl, by decide +kernel, rfl⟩
theorem test_hyps_StepKeepsInvariant : Inv { pre with script := [.event .diePowerUp] } ∧ Inv pre := by
  refine ⟨⟨by decide +kernel, rfl⟩, by decide +kernel, rfl⟩
theorem test_hyps_DecodeEncode : (Instr.mmar 1 2 20 6 16).encoded = true ∧ (Instr.mmar 1 2 20 6 16).wf = true ∧ (Instr.cvt 3 3 0 4 9).wf = true := by decide
theorem test_hyps_WordsDecode : (0x05 : Byte).getLsbD 0 = true ∧ (decodeTableWord 16 0xCE62).isSome = true := by decide

/-- Boot in each stage. -/
def stage (n : Nat) : State := { State.reset with time := 4000000, boot := { State.reset.boot with status := .stage n } }
def risen : State := (stage 1).modBoot fun b => { b with diesUp := 8, clustersUp := List.replicate 8 8 }
theorem test_hyps_BootAdvances :
    ((stage 0).boot.status = .stage 0 ∧ (stage 0).boot.pending = none) ∧
    ((stage 1).boot.status = .stage 1 ∧ (stage 1).boot.diesUp < 8 ∧ (stage 1).boot.diesUp = 0) ∧
    (let s := (stage 1).modBoot fun b => { b with diesUp := 7, dieAt := 2000000 }
     s.boot.diesUp < 8 ∧ s.boot.dieAt + 2000000 ≤ s.time ∧ 6 < s.boot.diesUp ∧ s.boot.clustersUp.getD 6 8 < 8 ∧ s.boot.clustersUp.getD 6 8 = 0) ∧
    (risen.boot.diesUp = 8 ∧ ∀ k ∈ risen.boot.clustersUp, k = 8) ∧
    (let s := (stage 5).modBoot fun b => { b with ramping := b.ramping.set 3 true }
     s.boot.ramping.getD 3 false = true ∧ s.boot.columnAt.getD 3 0 + 175 ≤ s.cycle) := by
  refine ⟨⟨rfl, rfl⟩, ⟨rfl, by decide, rfl⟩, ?_, ?_, ?_⟩ <;> decide +kernel
theorem test_hyps_ManagementActs :
    (st.boot.status = .ready ∧ transitionSigner .manufacture (lifecycleOf 1) = some 0) ∧ transitionSigner .manufacture (lifecycleOf 1) ≠ some 1 ∧
    (st.boot.status ≠ .off ∧ ∀ n, st.boot.status ≠ .failed n) ∧ State.reset.boot.eccThreshold < 9 := by
  refine ⟨⟨rfl, by decide⟩, by decide, ⟨by decide, fun n h => by cases h⟩, by decide⟩

/-- A packet of two flits at station 5 of die 1 for loop 0, waiting since f-cycle 0. -/
def pkt : Packet := { cls := 0, dstDie := 1, dstSt := 12, part := 0, body := [7, 8], finalDie := 1, finalSt := 12, origSt := 5 }
def sendPort : InjPort := { die := 1, st := 5, bulk := [{ packet := pkt }], waiting := some (false, 0, 0) }
def inj : State := { st with time := 1000, fabric := { ports := [sendPort] } }
/-- The one flit of a packet at its destination, station 5 of die 1. -/
def flt : Flit :=
  { cls := 0, first := true, last := true, index := 0, tag := 0, srcDie := 1, srcSt := 12, dstDie := 1, dstSt := 5, part := 0, gen := 0,
    payload := 7, finalDie := 1, finalSt := 5, origSt := 12, dev := 0xFFFF }
theorem test_hyps_FlitsInject : seated false 1 5 0 = true ∧ (inj.fabric.port 1 5).nextOn false 0 = some 0 ∧
    (inj.fabric.port 1 5).queueOf 0 = { packet := pkt } :: [] ∧ (inj.slotAt false 1 5 0).flit = none ∧
    (inj.slotAt false 1 5 0).reserved = none ∧ inj.fabric.mayStart false (streamOf 1 5 pkt) inj.fcycle = true ∧
    (inj.fabric.port 1 5).waiting = some (false, 0, 0) ∧ 0 + lap false ≤ inj.fcycle ∧ (false, 0) ∉ (inj.fabric.port 1 5).reserving ∧
    (let s := inj.modFabric fun f => f.putSlot { inj.slotAt false 1 5 0 with flit := some flt }
     (s.fabric.port 1 5).nextOn false 0 = some 0 ∧ (s.slotAt false 1 5 0).usable 1 5 = false) ∧
    (let s := { inj with fabric := { slots := [{ inj.slotAt false 1 5 0 with reserved := some (1, 5) }] } }
     (s.fabric.port 1 5).nextOn false 0 = none ∧ (s.slotAt false 1 5 0).flit = none ∧ (s.slotAt false 1 5 0).reserved = some (1, 5)) := by
  decide +kernel

/-- A flit at its destination, station 5 of die 1: of an old generation, at its tag, at its tag's neighbours, refused, and in a packet. -/
def arr (f : Flit) : State :=
  { st with time := 100000, fabric := { slots := [{ (({ st with time := 100000 } : State).slotAt false 1 5 0) with flit := some f }] } }
def wide : State := (arr { flt with gen := 1 }).modPart 0 fun p => { p with clusters := [9] }
theorem test_hyps_FlitsArrive :
    (∀ f ∈ [flt, { flt with gen := 1 }, { flt with tag := 1 }, { flt with tag := 255 }, { flt with last := false }],
      ((arr f).slotAt false 1 5 0).flit = some f ∧ f.dstDie.toNat = 1 ∧ f.dstSt.toNat = 5 ∧ ((arr f).slotAt false 1 5 0).reserved = none ∧
        f.refusedAt ≠ some (arr f).fcycle) ∧
    seated false 1 5 0 = true ∧ ({ flt with refusedAt := some (arr flt).fcycle } : Flit).refusedAt = some (arr flt).fcycle ∧
    ((1 : BitVec 4) ≠ wide.fabric.gens.getD 0 0 ∧ (wide.part 0).ownsEnd (flitStream { flt with gen := 1 }) = true) ∧
    (let s := (arr flt).fabric; let c := s.context (flitStream flt)
      flt.gen = s.gens.getD flt.part.toNat 0 ∧ tagStand 255 c.expected = 2 ∧ tagStand 1 c.expected = 1 ∧
      flt.tag = c.expected ∧ flt.cls ≠ 2 ∧ refuses flt true false = true ∧ refuses flt false false = false ∧
      wholePacket (c.held ++ [flt]) = true ∧ wholePacket (c.held ++ [{ flt with last := false }]) = false) ∧
    st.groupIdx? key = some 0 := by
  refine ⟨?_, by decide, by decide, ?_, ?_, ?_⟩ <;> decide +kernel
def stalled (c : Reassembly) : State := { st with time := 100000, fabric := { contexts := [c] } }
theorem test_hyps_FlitsArrive_timeouts :
    (let s := stalled { key := ⟨0, 1, 12, 1, 5⟩, held := [flt], lastAt := 1 }
     (s.fabric.context ⟨0, 1, 12, 1, 5⟩).held = flt :: [] ∧ (s.fabric.context ⟨0, 1, 12, 1, 5⟩).lastAt + 65536 ≤ s.fcycle ∧
       (s.fabric.context ⟨0, 1, 12, 1, 5⟩).aborted = []) ∧
    (let f := { flt with tag := 1, aheadSince := some 2 }
     let s := arr f
     let c := s.fabric.context (flitStream f)
     s.fabric.slots = [s.slotAt false 1 5 0] ∧ (s.slotAt false 1 5 0).flit = some f ∧ c.held = [] ∧ c.aborted = [] ∧
       (flitStream f).dstDie = 1 ∧ (flitStream f).dstSt = 5 ∧ f.gen = s.fabric.gens.getD 0 0 ∧ tagStand f.tag c.expected = 1 ∧
       2 + 65536 ≤ s.fcycle) := by
  decide +kernel

/-- A port that is up with an ACTIVE transmit key and a packet to send. -/
def ready : Port :=
  { up := true, tx := [{ state := .active }, {}], rx := [{ state := .active }, {}], bulk := [{ cls := 0, bodies := [5, 6] }] }
def withPort (p : Port) : State := { st with time := 100000000, ports := st.ports.set 3 p }
theorem test_hyps_LinkFlits :
    (let s := withPort ready; let p := s.port 3
     3 < s.ports.length ∧ p.up = true ∧ activeSlot p.tx = some false ∧ (p.tx.getD (slotNum false) {}).counter < p.switchAt ∧ p.unseq = [] ∧
       p.resend = none ∧ p.replay.length < 64 ∧ p.tx.length = 2 ∧ p.nextClass = some 0 ∧ p.queueOf 0 = { cls := 0, bodies := [5, 6] } :: []) ∧
    (let p := (withPort { ready with bulk := [] }).port 3
     p.nextClass = none ∧ (p.tx.getD (slotNum false) {}).counter < p.switchAt) := by decide +kernel
/-- At and past the switch point, one below the limit, and 10 ms after KEYLATE. -/
def used (n : Nat) (second : KeySlot) : Port := { ready with tx := [{ state := .active, counter := n }, second] }
theorem test_hyps_LinkKeys :
    (let s := withPort (used ready.switchAt { state := .loaded }); let p := s.port 3
     3 < s.ports.length ∧ p.up = true ∧ p.tx.length = 2 ∧ activeSlot p.tx = some false ∧ p.switchAt ≤ (p.tx.getD (slotNum false) {}).counter ∧
       p.replay.length < 64 ∧ p.resend = none ∧ (p.tx.getD (slotNum true) {}).state = .loaded ∧ p.keyswSeq = none) ∧
    (let p := (withPort (used (ready.limit - 1) {})).port 3
     p.switchAt ≤ (p.tx.getD (slotNum false) {}).counter ∧ (p.tx.getD (slotNum true) {}).state ≠ .loaded ∧ p.keyLate = false ∧
       p.limit - 1 ≤ (p.tx.getD (slotNum false) {}).counter ∧ slotNum true < p.tx.length ∧ (p.tx.getD (slotNum true) {}).state = .empty) ∧
    (let s := withPort { ready with keyLateAt := some 90000000 }
     (s.port 3).keyLateAt = some 90000000 ∧ 90000000 + 10000000 ≤ s.time) ∧
    (let s := withPort { up := true }; (s.port 3).up = true ∧ (s.port 3).tx = [{}, {}] ∧ (s.port 3).rx = [{}, {}]) := by decide +kernel
theorem test_hyps_LinksRun : (st.port 3).up = false ∧ (withPort ready).ports.length = 24 ∧ ((withPort ready).port 3).up = true ∧
    (let p := (withPort { ready with replay := [⟨9, 0, 0, none, none⟩] }).port 3
     p.naks = none ∧ p.restart = none ∧ p.replay = ⟨9, 0, 0, none, none⟩ :: []) ∧
    (let s := withPort { ready with dropping := true }; (s.port 3).dropping = true ∧ (s.port 3).nakAt + 2048 ≤ s.fcycle ∧ (s.port 3).flowAt + 1000 ≤ s.time) ∧
    (2 : BitVec 2).toNat < 3 ∧ (∀ r, r = (st.port 3).route 5 ∨ r = (4 : BitVec 5).toNat → 24 ≤ r ∨ (st.port r).quiet = true) := by
  refine ⟨by decide +kernel, by decide +kernel, by decide +kernel, by decide +kernel, by decide +kernel, by decide, ?_⟩
  rintro r (rfl | rfl) <;> decide +kernel

/-- A port with a session, whose epoch 1 it has used toward the peer. -/
def keyed : Port := { ready with secret := some 77, peer := some ⟨8, 2, 5⟩, epochs := [(false, 1)] }
theorem test_hyps_LinkKeys_load : let p := (withPort keyed).port 3
    p.up = true ∧ st.boot.status.live = true ∧ p.secret = some 77 ∧ p.peer = some ⟨8, 2, 5⟩ ∧ (true, (1 : Word)) ∉ p.epochs ∧
    (p.rx.getD (slotNum true) {}).state = .empty ∧ (false, (2 : Word)) ∉ p.epochs ∧ (p.tx.getD (slotNum true) {}).state = .empty ∧
    p.keyswSeq = none ∧ (false, (1 : Word)) ∈ p.epochs ∧ slotNum true < p.tx.length ∧
    (let q := (withPort { up := true }).port 3
     q.up = true ∧ q.tx = [{}, {}] ∧ q.rx = [{}, {}] ∧ (77 : BitVec 384) ∉ q.secrets) := by decide +kernel
theorem test_hyps_LinksRun_idle : let s := (withPort { ready with reasm := [{ held := [5], open' := true, lastAt := 1 }, {}, {}] }).modPart 0 fun p =>
      { p with ports := [3] }
    ((s.port 3).reasm.getD 0 {}).open' = true ∧ ((s.port 3).reasm.getD 0 {}).lastAt + 65536 ≤ s.fcycle ∧ s.portOwner 3 = some 0 := by
  decide +kernel
/-- A plain frame that checks, with its number, for a port without keys. -/
def plainF (seq : Nat) : Frame := plainFrame (linkHeader 0 512 seq false true 29 none true) 5
theorem test_hyps_LinkFlits_receive : let p := (withPort { up := true }).port 3
    p.up = true ∧ (∀ n ∈ [0, 7], p.authenticate (plainF n) = .flit 5 ∧ hdrAck (plainF n).hdr = none ∧ hdrReserved (plainF n).hdr = 0 ∧
      hdrSq (plainF n).hdr = true ∧ (hdrCls (plainF n).hdr).toNat < 2) ∧
    hdrSeq (plainF 0).hdr = p.rxSeq ∧ hdrTag (plainF 0).hdr = (p.reasm.getD 0 {}).expected ∧ hdrLast (plainF 0).hdr = false ∧
    hdrSeq (plainF 7).hdr ≠ p.rxSeq ∧ p.dropping = false := by decide +kernel

/-! ## Hypotheses of the statements about the host, partitions and sessions -/

theorem test_serves : Serves st 0 9 := ⟨rfl, by decide +kernel, by decide +kernel, fun _ => by decide +kernel⟩
theorem test_writable : Writable st 0 1 9 := ⟨test_serves, by decide +kernel, by decide +kernel, by decide +kernel⟩
/-- A submit word for queue 3 of an enabled queue of 16, at the tail's limits. -/
theorem test_hyps_HostWrites : Writable st 0 1 9 ∧ (3 : Nat) < 32 ∧
    ((0x1400000003 : DWord).extractLsb' 5 27 = 0 ∧ ((0x1400000003 : DWord).extractLsb' 32 32 - (4 : Word)).toNat ≤ 2 ^ (0 + 4) ∧
      ((0x1400000003 : DWord).extractLsb' 32 32 - (4 : Word)).toNat < 2 ^ 31) ∧
    ((0x400000003 : DWord).extractLsb' 5 27 = 0 ∧ ((0x400000003 : DWord).extractLsb' 32 32 - (4 : Word)).toNat ≤ 2 ^ (0 + 4)) ∧
    ¬(((0x1500000003 : DWord).extractLsb' 32 32 - (4 : Word)).toNat ≤ 2 ^ 4) ∧ (1 : DWord).toNat ≤ 65535 ∧ (65535 : DWord).toNat ≤ 65535 ∧
    ((State.reset.part 0).vf = .unlocked ∧ (st.part 0).vf = .run) := by
  refine ⟨test_writable, by decide, by decide, by decide, by decide, by decide, by decide, by decide +kernel⟩
theorem test_hyps_HostMemory : Serves st 0 9 ∧ (st.part 0).barRun 0x30000 2 = some [0x30000, 0x30001] ∧ (∀ n ∈ st.nodes, n.staged = []) ∧
    ([0x30000, 0x30001].any fun p => st.registered 0 p || st.hampered 0 p) = false ∧ ([0x30000, 0x30001] : List Nat).Nodup ∧ st.memWf = true ∧
    ([0x30000].any fun p => dst.registered 0 p || dst.hampered 0 p) = true ∧ (st.part 5).state = .free ∧ (st.part 0).state ≠ .free ∧
    (st.part 0).vf = .run ∧ (st.part 0).stream ≠ 8 :=
  ⟨test_serves, by decide +kernel, by decide +kernel, by decide +kernel, by decide, by decide +kernel, by decide +kernel, by decide +kernel,
    by decide +kernel, by decide +kernel, by decide +kernel⟩

def dep : State := { st with fuses := { st.fuses with lifecycle := .deployed } }
theorem test_hyps_PartitionsChange :
    (dep.boot.status = .ready ∧ dep.fuses.lifecycle = .deployed ∧ (dep.part 4).state = .free ∧ (4 : Nat) < dep.parts.length ∧
      (∀ x ∈ [9], x < 64 ∧ ∀ p ∈ dep.parts, x ∉ p.clusters) ∧ (∀ x ∈ [767], x < 768 ∧ ∀ p ∈ dep.parts, x ∉ p.ranges) ∧
      (∀ x ∈ [23], x < 24 ∧ ∀ p ∈ dep.parts, x ∉ p.ports) ∧ (∀ x ∈ [63], x < 64 ∧ (dep.ctx x).state = .free ∧ ∀ p ∈ dep.parts, x ∉ p.ctxs)) ∧
    ((∀ c ∈ State.reset.ctxs, c.state ≠ .active) ∧ (∀ x ∈ dep.sessions, x.opened = false) ∧ dep.memWf = true) ∧
    ((1 : Nat) < st.ctxs.length ∧ (st.ctx 1).state = .active ∧ (st.ctx 1).part = 0) ∧
    (let s := { st with ctxs := State.reset.ctxs, accepted := none, featAck := [1, 0, 0, 0] }
     (s.part 0).state = .active ∧ (1 : Nat) ∈ (s.part 0).ctxs ∧ (s.ctx 1).state = .free ∧
      (s.accepted.getD (s.featAck.getD 0 0 &&& 0x1FFF)).getLsbD 0 = true ∧ (∀ c ∈ [0, 3], c / 4 ∈ (s.part 0).clusters) ∧
      (0x200000 : DWord).toNat % 65536 = 0 ∧ (∀ m ∈ maps, mappingOk (s.part 0).ranges m = true)) ∧
    ({ state := .terminated } : Context).state = .terminated ∧
    ((st.part 0).grants.length < 16 ∧ (0x210000 : DWord).toNat % 65536 = 0) := by
  refine ⟨?_, ?_, ?_, ?_, rfl, ?_⟩ <;> decide +kernel

def pair : List Party := [⟨7, 0, 1⟩, ⟨8, 0, 1⟩]
def shut : Session := { sess with opened := false, hampers := [] }
def hamperImg : List Byte := natBytes 2 1 ++ natBytes 1 32 ++ natBytes 1 8 ++ natBytes 28 0 ++
  ((List.range 5).map fun _ => natBytes 8 0x200000 ++ natBytes 4 1 ++ natBytes 20 0).flatten ++ natBytes 64 0
def sst (x : Session) : State := { st with sessions := [x], mem := cellsWrite [] 0x38000 hamperImg }
theorem test_hyps_SessionsMeet :
    (st.boot.status = .ready ∧ sessionOk 32 pair [0] [true, true] = true ∧ (∀ p ∈ pair, st.partyOk p = true) ∧ ∀ x ∈ st.sessions, x.id ≠ 3) ∧
    (∃ h, (sst shut).session? 3 = some shut ∧ shut.opened = false ∧ shut.parties[0]? = some ⟨7, 0, 1⟩ ∧ (7 : BitVec 16) = (sst shut).boot.devId ∧
      (0x208000 : DWord).toNat % 256 = 0 ∧ (sst shut).virtBytes 1 0x208000 256 = some h ∧ hamperOk 32 h = true ∧
      ∀ q ∈ shut.parties, (sst shut).partyOk q = true) ∧
    ((1 : Nat) < sess.parties.length) ∧
    (let tag : RoundTag := ⟨9, 0, 0, 25, 32, 1, 0⟩
     (sst sess).session? 3 = some sess ∧ sess.id = 3 ∧ sess.parties[1]? = some ⟨8, 0, 1⟩ ∧ (8 : BitVec 16) ≠ (sst sess).boot.devId ∧
      sess.knows 1 tag = false ∧ sess.opened = true ∧ sess.aborted = [] ∧ sess.rounds = [] ∧ 2 ≤ sess.parties.length) ∧
    (let r : Round := { lbase := 9, seq := 0, sub := 0, firstAt := 0 }
     let s := { sst { sess with rounds := [r] } with time := 1000000 }
     (({ sess with rounds := [r] } : Session).rounds.find? fun r => r.is 9 0 0) = some r ∧ r.firstAt + sess.deadline ≤ s.time ∧
      ∀ p ∈ r.parts, ∀ q ∈ r.parts, p.tag = q.tag) := by
  refine ⟨?_, ⟨hamperImg, ?_⟩, ?_, ?_, ?_⟩ <;> decide +kernel
theorem test_hyps_RecordsAnswer : (st.ctx 1).state ≠ .free ∧ (st.part 0).state = .active ∧ (st.part 0).job = none ∧ (0 : Nat) < st.parts.length ∧
    ({ job := some ⟨5, 0, []⟩ } : Partition).job = some ⟨5, 0, []⟩ ∧ (st.ctx 1).state = .active ∧ (st.ctx 1).breakpoints.length < 8 := by
  decide +kernel

/-! ## Hypotheses of the statements about nodes, teams and events of execution -/

/-- A record of one team of one group of 8 threads, and one of zeros. -/
def nodeRecord : List Byte :=
  natBytes 4 0x40 ++ natBytes 2 1 ++ natBytes 2 1 ++ natBytes 2 1 ++ natBytes 1 0 ++ natBytes 1 1 ++ natBytes 1 0 ++ natBytes 1 2 ++ natBytes 1 16 ++
    natBytes 1 16 ++ natBytes 112 0
def nst (r : List Byte) : State :=
  { st with groups := [], teams := [], cur := none, mem := cellsWrite [] 0x30800 r
            ctxs := st.ctxs.set 1 { ctx1 with queues := ctx1.queues.set 3 { en := true, base := 0x200800, tail := 1 } } }
def readyNode : Node := { nod with queue := 3, state := .ready }
def rst : State := { nst [] with nodes := [readyNode], time := 100000 }
def doneTm : Team := { tm with evicting := some 0 }
def exGrp : Group := { grp with threads := List.replicate 8 { thr with state := .exited } }
def eest : State := { withGroup st exGrp with teams := [doneTm], cur := none }
theorem test_hyps_NodesLive :
    (∀ r ∈ [nodeRecord, natBytes 128 0], (((nst r).ctx 1).state = .active ∧ (((nst r).ctx 1).queue 3).en = true ∧
      (((nst r).ctx 1).queue 3).head ≠ (((nst r).ctx 1).queue 3).tail ∧ ((nst r).nodes.filter fun n => n.ctx == 1 && n.queue == 3).length < 256 ∧
      (nst r).virtBytes 1 ((((nst r).ctx 1).queue 3).slot 0) 128 = some r)) ∧
    (nst nodeRecord).refusal 1 nodeRecord = 0 ∧ (nst nodeRecord).refusal 1 (natBytes 128 0) ≠ 0 ∧ (nst nodeRecord).memWf = true ∧
    ((nst nodeRecord).ctx 1).phys? 0x200868 = some 0x30868 ∧
    (({ nod with state := .queued } : Node).state = .queued ∧ st.virtNat 1 (0x201000 + 100) 4 = nod.rec'.preds ∧ 0 < nod.rec'.count) ∧
    (eest.team? team = some doneTm ∧ eest.mayRetire doneTm = true ∧ eest.erring 1 5 = false ∧ eest.node? 1 5 = some nod ∧ nod.retired + 1 ≠ nod.rec'.count ∧
      (let n := { nod with retired := 3 }; n.retired + 1 = n.rec'.count ∧ n.state = .running)) ∧
    (let s := { st with nodes := [{ nod with state := .committing }] }
     s.node? 1 5 = some { nod with state := .committing } ∧ (s.ctx 1).state = .active ∧ (s.ctx 1).basket = [] ∧ s.erring 1 5 = false) ∧
    ({ st with nodes := [{ nod with state := .rolledBack }] } : State).node? 1 5 = some { nod with state := .rolledBack } := by
  refine ⟨?_, ?_, ?_, ?_, ?_, ?_, ?_, ?_, ?_⟩ <;> decide +kernel
theorem test_hyps_noneWait : NoneWait eest ∧ NoneWait rst := by unfold NoneWait; decide +kernel

theorem test_hyps_TeamsMove_dispatch : (rst.part 0).state = .active ∧ (rst.part 0).oppAt + 32 ≤ rst.cycle ∧
    rst.contenders 0 = [(1, 3, readyNode, newAsk 1 5 recd 0)] ∧ (rst.part 0).reservations = [] ∧
    (∃ p, rst.findTeam (newAsk 1 5 recd 0) [] = some p) ∧ rst.team? ⟨1, 5, 0⟩ = none ∧ (1 : Nat) < rst.ctxs.length ∧ readyNode.ctx = 1 ∧
    ((rst.ctx 1).queue 3).en = true ∧ (rst.ctx 1).state = .active ∧ (rst.ctx 1).part = 0 :=
  ⟨by decide +kernel, by decide +kernel, by decide +kernel, by decide +kernel, Option.isSome_iff_exists.mp (by decide +kernel), by decide +kernel,
    by decide +kernel, rfl, by decide +kernel, by decide +kernel, by decide +kernel⟩
/-- The cluster's scratch is taken, and the queue has been skipped for 14,000 cycles. -/
def skip : State := { rst with
  teams := [{ tm with key := ⟨1, 9, 0⟩, owners := List.replicate 1020 .threads }]
  parts := rst.parts.modify 0 fun p => { p with skipped := some (1, 3, 0) } }
theorem test_hyps_TeamsMove_reserve : (skip.part 0).skipped = some (1, 3, 0) ∧ 0 + 14000 ≤ skip.cycle ∧
    skip.leastPass (skip.part 0).pass (skip.contenders 0) = some (1, 3, readyNode, newAsk 1 5 recd 0) ∧ (let r := skip.reserved 0 (skip.contenders 0)
     (∀ x ∈ r, x.isFor (1, 3, readyNode, newAsk 1 5 recd 0) = false) ∧
       skip.findTeam (newAsk 1 5 recd 0) (barFor r (1, 3, readyNode, newAsk 1 5 recd 0)) = none) ∧ skip.emptyCluster (newAsk 1 5 recd 0) = some 0 := by
  refine ⟨?_, ?_, ?_, ?_, ?_⟩ <;> decide +kernel
def ctm : Team := { tm with controlWaits := some 0x80 }
def evst : State := { eest with ctxs := eest.ctxs.modify 1 fun c => { c with vacated := [5, 6] } }
theorem test_hyps_TeamsMove :
    (let s := { st with teams := [ctm], groups := [] }
     s.team? team = some ctm ∧ ctm.controlWaits = some 0x80 ∧ ctm.saved = false ∧ s.controlRoom ctm = true ∧ ∀ x ∈ s.groups, x.key ≠ ⟨1, 5, 2, 0, .control⟩) ∧
    (∃ x ∈ [({ grp with key := ⟨1, 5, 2, 0, .control⟩ } : Group)], x.key = ⟨1, 5, 2, 0, .control⟩) ∧
    ((st.ctx 1).state = .active ∧ 2 ≤ (st.ctx 1).cores.length ∧ (700 : Nat) ≤ 14000 ∧ (st.ctx 1).cores.length < 3 ∧ (∃ i ∈ tm.cores, i ∈ [1]) ∧ tm.saved = false) ∧
    ((evst.ctx 1).state = .active ∧ (∀ i ∈ [5, 6], i ∈ (evst.ctx 1).vacated) ∧ doneTm ∈ evst.teams ∧ doneTm.key.ctx = 1 ∧ doneTm.late = false ∧
      doneTm.evicting = some 0 ∧ 0 ≤ evst.cycle) ∧
    (eest.team? team = some doneTm ∧ eest.maySave doneTm = true ∧ eest.node? 1 5 = some nod) := by
  refine ⟨?_, ?_, ?_, ?_, ?_⟩ <;> decide +kernel
/-- Group 0 with one thread waiting, and a state without an issue in progress. -/
def waits (w : Wait) (n : Nat) : Group := { grp with threads := { thr with state := .blocked w, waited := n } :: List.replicate 7 thr }
def wat (w : Wait) (n : Nat) : State := { withGroup vst (waits w n) with cur := none }
theorem test_hyps_TrapsHandled :
    (let s := { vst with cores := vst.cores.set 0 { trapQueue := [rec0] } }
     (∀ x ∈ s.groups, x.key.kind = .handler → x.core ≠ 0) ∧ leastBy? trapOrder ((s.core 0).trapQueue.filter s.deliverable) = some rec0 ∧
      (s.ctx rec0.group.ctx).trapVec.val.getLsbD 0 = true) ∧
    (∀ w ∈ [Wait.barg, .bart 3 0, .waitc 0 0 0 0], let s := wat w 16777216
     s.groupIdx? key = some 0 ∧ s.groups[0]? = some (waits w 16777216) ∧ s.active (waits w 16777216) = true ∧
      s.overdue (waits w 16777216) Wait.counted = some 0 ∧ ((waits w 16777216).thread 0).state = .blocked w ∧ s.trapIsFatal (waits w 16777216) = false) ∧
    (let x : Access := { load := true, glob := false, addr := 0x100, size := 4, regs := [3], data := [], next := 0x44 }
     (wat (.owner x) 16777216).overdue (waits (.owner x) 16777216) Wait.ownerWait = some 0) := by
  refine ⟨?_, ?_, ?_⟩ <;> decide +kernel

/-- A load's record, a thread with one on its way, and the same with a window write that waits for the data. -/
def load3 : LoadRec := { vals := [(3, 9)] }
def thrL : Thread := { thr with loads := [load3] }.setPend 3 true
def loading (th : Thread) : Group := { grp with threads := th :: List.replicate 7 thr }
def waitw0 : Wait := .waitw (.waitw 4 3) 3 0x200000 1
def wst' (l : Word) : State := { st with net := [⟨9, 1, 5, l, team, (key, 0)⟩] }
theorem test_hyps_WaitsEnd :
    ((wat (.nap 16) 16).groupIdx? key = some 0 ∧ (wat (.nap 16) 16).active (waits (.nap 16) 16) = true ∧
      ((waits (.nap 16) 16).thread 0).state = .blocked (.nap 16) ∧ 16 ≤ ((waits (.nap 16) 16).thread 0).waited) ∧
    (∀ th ∈ [thrL, { thrL with late := [(3, 5)] }], (withGroup st (loading th)).groupIdx? key = some 0 ∧ ((loading th).thread 0).loads[0]? = some load3 ∧
      load3.arrived = false ∧ (th.loads.filter fun q => q.pc == load3.pc && q.cycle == load3.cycle && !q.arrived) = [load3] ∧
      th.regs.length = 60 ∧ th.pend.length = 60 ∧ th.isExited = false ∧ th.isPend 3 = true) ∧
    ((wat waitw0 0).active (waits waitw0 0) = true ∧ Reaches (wat waitw0 0) key false (wordTarget 0x200000) ∧
      (let ls := (wat waitw0 0).places key (wordTarget 0x200000) false
       BitVec.ofNat 32 (bytesNat ((wat waitw0 0).readPlaces team ls)) = (0 : Word) ∧ (wat waitw0 0).mayPerform key false ls = true)) ∧
    (let w := Wait.reggrow 3 32 false
     (wat w 0).active (waits w 0) = true ∧ (∃ x ∈ (wat w 0).growable, x.2.1.key = key) ∧ (waits w 0).asks = [(32, 0)] ∧
      (∀ (j : Nat) x, (wat w 0).groups[j]? = some x → j ≠ 0 → x.asks = []) ∧ (waits w 0).budget < 32 ∧ (wat w 0).growRoom (waits w 0) 32 = true) := by
  refine ⟨?_, ?_, ⟨?_, (reaches_of_test (by decide +kernel)).1, ?_⟩, ⟨by decide +kernel, by decide +kernel, by decide +kernel, ?_, by decide, by decide +kernel⟩⟩
  · decide +kernel
  · decide +kernel
  · decide +kernel
  · decide +kernel
  · intro j x h hj
    cases j with
    | zero => exact absurd rfl hj
    | succ j => simp [wat, withGroup] at h
/-- A WAITW at a scratch word that a command writes; a TBLLD that nobody serves yet, and one whose words are read. -/
def waitw1 : Wait := .waitw (.waitw 4 3) 3 0x00FF000000400100 1
def wat1 : State := { wat waitw1 0 with teams := [{ tm with aperture := 0x00FF000000400000, owners := .writing :: List.replicate 7 .threads }] }
def tbl : Wait := .tblld 2 0x100
def tblS (x : Table) : State := { wat tbl 0 with teams := [{ tm with tables := tm.tables.set 2 x }] }
theorem test_hyps_WaitsEnd_grants :
    (Reaches wat1 key false (wordTarget 0x00FF000000400100) ∧
      (let ls := wat1.places key (wordTarget 0x00FF000000400100) false
       BitVec.ofNat 32 (bytesNat (wat1.readPlaces team ls)) ≠ (1 : Word) ∧ wat1.mayPerform key false ls = false)) ∧
    (∃ y, ({ wat (.accalloc 3 1 0 false) 0 with cores := st.cores.set 0 { banks := [none, some 9] } } : State).accNext = some y) ∧
    (∀ x ∈ [({} : Table), { filler := some (key, 0, 0), filled := 256 }],
     (tblS x).active (waits tbl 0) = true ∧ (tblS x).pendingFills team = [(0, 0, 2, 0x100, 0)] ∧ (∀ b ∈ x.bound, b.2 = false) ∧ x.fill.length = 256 ∧
      ∀ j < 256, (match (tblS x).tableCheck key 0x100 j with
        | .ok _ => true
        | _ => false) = true ∧ (tblS x).mayPerform key false ((tblS x).places key (tableWord 0x100 j) false) = true) ∧
    ((wst' (2 * 4096)).net[0]? = some ⟨9, 1, 5, 2 * 4096, team, (key, 0)⟩ ∧ (wst' (2 * 4096)).receiver ⟨9, 1, 5, 2 * 4096, team, (key, 0)⟩ = some (some (key, 0)) ∧
      (wst' (3 * 4096)).receiver ⟨9, 1, 5, 3 * 4096, team, (key, 0)⟩ = some none ∧ (wst' (4 * 4096)).receiver ⟨9, 1, 5, 4 * 4096, team, (key, 0)⟩ = none) ∧
    (((waits (.stflush 2) 0).thread 0).state = .blocked (.stflush 2) ∧
      ∀ th ∈ (waits (.stflush 2) 0).threads, th.state = .ready ∨ th.state = .blocked (.stflush 2)) := by
  refine ⟨⟨⟨ok_of_test (by decide +kernel), ok_of_test (by decide +kernel)⟩, ?_⟩, Option.isSome_iff_exists.mp ?_, ?_, ?_, ?_⟩ <;> decide +kernel

/-- A barrier that every group has come to, without a flush and with one; basket entries that no batch has gathered, and some in batch 65. -/
def barTm (b : Barrier) : Team := { tm with barriers := tm.barriers.set 3 b }
def entryB (n : Option Nat) : BasketEntry := { entry0 with batch := n }
def bars (b : Barrier) (es : List BasketEntry) : State :=
  { st with teams := [barTm b], ctxs := st.ctxs.set 1 { ctx1 with basket := es, batches := [65], nextBatch := 4 } }
def gathered (b : Barrier) (es : List BasketEntry) : List BasketEntry := (bars b es).phaseEntries team b ((bars b es).lanes team)
theorem test_hyps_WorkCompletes : let b0 : Barrier := { bits := some 2, arrived := [0] }; let b1 : Barrier := { bits := some 10, arrived := [0] }
    (∀ b ∈ [b0, b1], (bars b []).team? team = some (barTm b) ∧ (barTm b).saved = false ∧ b.complete ((bars b []).lanes team) = true) ∧
    gathered b0 [entryB none] = [] ∧ gathered b1 [entryB none] = [entryB none] ∧ gathered b1 [entryB (some 65)] = [entryB (some 65)] ∧
    (65 : Nat) ∈ ((bars {} []).ctx (65 % 64)).batches ∧ batchEntries ((bars {} [entryB (some 65)]).ctx 1) 65 = [entryB (some 65)] := by
  refine ⟨?_, ?_, ?_, ?_, ?_, ?_⟩ <;> decide +kernel
def free0 : Cmd := newCmd 13 0 16 (theAct (.accfree 16) 0 [0] egrp) egrp est
def eng (c : Cmd) : State := { est with cores := est.cores.set 0 { queue := [c] }, cur := none }
theorem test_hyps_WorkCompletes_engines : ((eng free0).core 0).queue[0]? = some free0 ∧ (eng free0).team? free0.team = some etm ∧
    (eng free0).mayStart free0 = true ∧ (eng { free0 with op := 5 }).mayStart { free0 with op := 5 } = true ∧
    (eng { free0 with running := true }).mayEnd { free0 with running := true } = true ∧
    (∀ r ∈ [true, false], let c := { free0 with op := 8, running := true, retried := r }; (eng c).mayEnd c = true ∧ c.isProduct = true) ∧
    (let c := { free0 with op := 5, running := true }; c.running = true ∧ c.acked = false) := by
  refine ⟨?_, ?_, ?_, ?_, ?_, ?_, ?_⟩ <;> decide +kernel
theorem test_hyps_noneWait_engines : NoneWait (eng free0) ∧ (0 : Nat) < (eng free0).cores.length := by unfold NoneWait; decide +kernel
/-- A peer on port 3 with a grant, whose lines end in a line of 64 bytes at 0x20FFC0; the same under a hamper and under a registration. -/
def gst (s : State) : State :=
  { s with
    parts := s.parts.modify 0 fun p => { p with ports := [3], grants := [{ dev := 8, part := 0, owner := 5, base := 0x200000, size := 0x10000, canRead := true, canWrite := true }] }
    ports := s.ports.set 3 { up := true, peer := some ⟨8, 1, 0⟩ } }
def far : RemoteCmd := ⟨8, 0, 5, 77⟩
theorem test_hyps_WorkCompletes_remote : let p := (gst st).part 0
    (gst st).remoteCmd 0 3 0 5 77 = some far ∧ (gst st).remoteCmd 0 4 0 5 77 = none ∧ st.remoteCmd 0 3 0 5 77 = none ∧
    p.admits far 0x20FFC0 64 true = true ∧ p.admits far 0x20FFC0 65 true = false ∧ (gst st).partPhys 0 0x20FFC0 true = some (1, 0x3FFC0) ∧
    (∀ i < 64, (gst st).registered 0 (0x3FFC0 + i) = false ∧ (gst st).hampered 0 (0x3FFC0 + i) = false) ∧
    p.admits far 0x200000 128 false = true ∧ p.admits far 0x20FFC0 65 false = false ∧ (gst st).partPhys 0 0x200000 false = some (1, 0x30000) ∧
    (∃ i, i < 128 ∧ (gst est).hampered 0 (0x38000 + i) = true) ∧ (∃ i, i < 128 ∧ (gst dst).registered 0 (0x30000 + i) = true) ∧
    ((st.ctx 1).mapping? 0x30 = some ⟨0x30, 9, 1, true, true, false, .k64⟩ ∧ (1 : Nat) < st.ctxs.length ∧ ∀ x ∈ st.groups, x.pageWait 0x30 1 = none) := by
  refine ⟨?_, ?_, ?_, ?_, ?_, ?_, ?_, ?_, ?_, ?_, ⟨0, ?_, ?_⟩, ⟨0, ?_, ?_⟩, ?_⟩ <;> decide +kernel
def open0 : ShareOp := { op := 29, session := 3, width := 32, d := 3, table := 0, lbase := 8192, seq := 0, sub := 0, cursor := 0, threads := [0], x := [5], y := [0], entries := [[]] }
/-- The answer of the round, in a packet at the core of the group; of a home stile on this device, and on another. -/
def homed (parties : List Party) (op : ShareOp) (l : List StileResult) : State :=
  { withGroup est { egrp with fetch := some (.share op) } with
    sessions := [{ sess with parties := parties, results := l }], cur := none
    fabric := { delivered := [⟨0, 0, 1, 0, []⟩] } }
def answered (o : RoundAnswer) : State := homed sess.parties open0 [⟨0, 8192, 0, 0, o⟩]
def answerIs (s : Option State) (party : Nat) (o : RoundAnswer) : Bool :=
  s.any fun s => (s.takeAnswer 3 party 8192 0 0).any fun p => p.1 == o
theorem test_hyps_WorkCompletes_shares : (let s := answered (.sums [9])
     s.groupIdx? key = some 0 ∧ s.active { egrp with fetch := some (.share open0) } = true ∧ open0.op ≠ 11 ∧
      s.session? 3 = some { sess with results := [⟨0, 8192, 0, 0, .sums [9]⟩] } ∧ (sess.partyOf 7 1).getD 0 = 0 ∧ sess.homeOf = s.boot.devId) ∧
    (answered (.sums [9])).takePacket 0 0 0 0 = none ∧ answerIs ((answered (.sums [9])).takePacket 0 0 1 0) 0 (.sums [9]) = true ∧
    answerIs ((answered (.trap 0x30)).takePacket 0 0 1 0) 0 (.trap 0x30) = true ∧
    (let x := { sess with parties := [⟨8, 0, 1⟩, ⟨7, 0, 1⟩] }
     let s := homed x.parties { open0 with sent := [5] } []
     s.session? 3 = some x ∧ x.homeOf ≠ s.boot.devId ∧ (x.partyOf 7 1).getD 0 = 1 ∧ (s.takePacket 0 0 1 0).isSome = true ∧
      ([9] : List Nat).length = ({ open0 with sent := [5] } : ShareOp).sent.length) := by decide +kernel
/-- An open SMMA whose sums have come, in a packet of class B. -/
def smma0 : Cmd := { newCmd 11 0 16 (theAct (.smma 0 16 34 32) 0 [0] egrp) egrp est with running := true, session := 3 }
def smmaSt : State :=
  { eng smma0 with
    groups := [{ egrp with fetch := some (.engine smma0.id 0x44 [0]) }]
    sessions := [{ sess with results := [⟨0, smma0.smmaTag.lbase, smma0.smmaTag.seq, 0, .sums [9]⟩] }]
    fabric := { delivered := [⟨0, 0, 0, 0, []⟩] } }
theorem test_hyps_WorkCompletes_smma : smmaSt.groupIdx? key = some 0 ∧ (smmaSt.core 0).queue[0]? = some smma0 ∧
    smmaSt.active { egrp with fetch := some (.engine smma0.id 0x44 [0]) } = true ∧ (smmaSt.session? smma0.session).isSome = true ∧
    ((smmaSt.core 0).queue.findIdx? fun c => c.id == smma0.id && c.op == 11 && c.running && c.sums.isNone) = some 0 ∧
    ((smmaSt.takePacket 0 0 0 0).any fun s0 => (s0.takeAnswer 3 0 smma0.smmaTag.lbase smma0.smmaTag.seq 0).any fun p => p.1 == .sums [9]) = true := by
  decide +kernel
/-! ## Hypotheses of the clauses on fetches, ports, traps before an instruction acts, and owner waits -/

/-- What `Begins` asks of a member that goes on, as a test. -/
def beginsB (s : State) (m : Member) (gr : Group) : Bool :=
  s.boot.status != .off && s.groupIdx? m.group == some 0 && s.groups[0]? == some gr && s.canIssue gr && m.set != [] &&
    m.set.all fun t => (gr.thread t).isReady
theorem begins_of_test {s : State} {m : Member} {gr : Group} (hm : s.merging = [m]) (h : beginsB { s with merging := [] } m gr = true) :
    Begins s { s with merging := [] } m 0 gr := by
  simp only [beginsB, Bool.and_eq_true, beq_iff_eq, bne_iff_ne, List.all_eq_true] at h
  obtain ⟨⟨⟨⟨⟨h1, h2⟩, h3⟩, h4⟩, h5⟩, h6⟩ := h
  exact ⟨h1, .inl ⟨[], hm, rfl⟩, h2, h3, h4, h5, h6⟩

/-- The group at a PC, about to go on with the issue of a pick, in a context. -/
def at' (pc : Word) : Group := { grp with threads := List.replicate 8 { thr with pc := pc } }
def merged (pc : Word) (c : Context) : State :=
  { withGroup st (at' pc) with
    cur := none, merging := [mem0], ctxs := st.ctxs.set 1 c
    mem := cellsWrite (cellsWrite [] 0x30040 (natBytes 4 0x00810C11)) 0x3FFFE [0x11, 0] }
def fetched (s : State) (pc n : Nat) (l : List Byte) : Bool := match ({ s with merging := [] } : State).fetchBytes 1 pc n with
  | .ok bs => bs == l
  | .error _ => false
def pageMiss (s : State) (pc : Word) : Bool := match ({ s with merging := [] } : State).fetchAt 1 pc with
  | .page v => v == 0x30
  | _ => false
/-- A pick that a step makes, and one that goes on; an instruction, an odd PC, a PC at the end of the code window and one of which a
half lies in it, a word that is none, a page that is not there, and a breakpoint for thread 1 alone. -/
theorem test_hyps_StepRunsDecoded :
    (∃ s0, Begins pre s0 mem0 0 grp) ∧
    (([0x40, 0x41, 0x80, 0xFFFE, 0x10000] : List Word).all fun pc => beginsB { merged pc ctx1 with merging := [] } mem0 (at' pc) &&
      ((merged pc ctx1).breakAt (at' pc) pc mem0.set).isNone) = true ∧
    (mem0.upset = none ∧ fetched (merged 0x40 ctx1) 0x40 4 (natBytes 4 0x00810C11) = true ∧
      decode (natBytes 4 0x00810C11) = .ok (.addA 0 0 2 1 3, [])) ∧
    (0x41 : Word).getLsbD 0 = true ∧
    (fetched (merged 0xFFFE ctx1) 0xFFFE 2 [0x11, 0] = true ∧ (0x11 : Byte).getLsbD 0 = true ∧ ctx1.codeSize ≤ 0xFFFE + 2 ∧
      fetched (merged 0x10000 ctx1) 0x10000 0 [] = true ∧ ctx1.codeSize ≤ 0x10000 + 0) ∧
    (fetched (merged 0x80 ctx1) 0x80 2 [0, 0] = true ∧ decode [0, 0] = .error .zeroHalfword) ∧
    (let c := { ctx1 with codeBase := 0x300000 }
     beginsB { merged 0x40 c with merging := [] } mem0 (at' 0x40) = true ∧ pageMiss (merged 0x40 c) 0x40 = true) ∧
    (let b : Breakpoint := ⟨0x40, (at' 0x40).l 1, (at' 0x40).l 1⟩
     let c := { ctx1 with breakpoints := [b] }
     beginsB { merged 0x40 c with merging := [] } mem0 (at' 0x40) = true ∧ mem0.set.Pairwise (· < ·) ∧
      b.stops (at' 0x40) 0x40 0 = false ∧ b.stops (at' 0x40) 0x40 1 = true) := by
  refine ⟨⟨_, by decide, .inr ⟨0, 0, [], [], [], rfl, by decide +kernel, rfl, by decide +kernel, by decide +kernel, rfl⟩, by decide +kernel, by decide +kernel,
    by decide +kernel, by decide, by decide +kernel⟩, ?_, ?_, ?_, ?_, ?_, ?_, ?_⟩ <;> decide +kernel
theorem test_hyps_StepRunsDecoded_member : Begins (merged 0x40 ctx1) { merged 0x40 ctx1 with merging := [] } mem0 0 (at' 0x40) :=
  begins_of_test rfl (by decide +kernel)
def readyB (op : LaneOp) (s : State) (gr : Group) : Bool :=
  op.need.all (fun n => s.feature n) && (!op.noHandler || gr.key.kind != .handler) && (fieldsFault gr.budget op.fields).isNone
theorem laneReady_of_test {op : LaneOp} {s : State} {gr : Group} (h : readyB op s gr = true) : LaneReady op s gr := by
  simp only [readyB, Bool.and_eq_true, List.all_eq_true, Bool.or_eq_true, Bool.not_eq_true', Option.isNone_iff_eq_none, bne_iff_ne] at h
  exact ⟨h.1.1, fun hn => by simpa [hn] using h.1.2, h.2⟩

/-- Threads 0 and 1 have words and routes, thread 2 neither. -/
def fedThr : Thread := { thr with queue := [(9, team), (8, team)], route := some (0, 2 * 4096) }
def pgrp2 : Group := { grp with threads := fedThr :: fedThr :: List.replicate 6 thr }
def portSt (set : List Nat) : State := { withGroup st pgrp2 with cur := some ⟨0, set, []⟩ }
theorem test_issuing_ports : Issuing (portSt [0, 1]) 0 [0, 1] pgrp2 ∧ Issuing (portSt [0, 1, 2]) 0 [0, 1, 2] pgrp2 :=
  ⟨⟨rfl, rfl, by decide, by decide⟩, rfl, rfl, by decide, by decide⟩
/-- What the statement about ports asks of an instruction, and how it uses its ports. -/
def portsB (i : Instr) (set : List Nat) (takes sends : Bool) (combine : Bool) : Bool :=
  i.wf && (laneForm i).any fun op => readyB op (portSt set) pgrp2 && set.all (fun t => op.threadCheck pgrp2 t == .ok (.scr 0)) &&
    op.takesQr == takes && op.sends == sends && op.combine.isSome == combine
/-- Several threads: without a port, to qs, from qr in every thread and in some, from qr to qs, and REDG and SCANG of qr. -/
theorem test_hyps_QueuePorts : portsB (.addA 0 0 1 6 3) [0, 1] false false false = true ∧ portsB (.addA 0 0 1 6 60) [0, 1] false true false = true ∧
    portsB (.movA 0 61 3) [0, 1] true false false = true ∧ portsB (.movA 0 61 3) [0, 1, 2] true false false = true ∧
    portsB (.movA 0 61 60) [0, 1] true true false = true ∧ portsB (.redg 0 61 3) [0, 1] true false true = true ∧
    portsB (.scang 0 61 3) [0, 1, 2] true false true = true ∧ starved pgrp2 [0, 1] = [] ∧ starved pgrp2 [0, 1, 2] = [2] ∧
    fed pgrp2 [0, 1, 2] = [0, 1] ∧ (portSt [0, 1]).windowRoom key (((pgrp2.thread 0).dest key).getD default) = true := by decide +kernel
theorem test_hyps_QueuePorts_one : ∃ op, laneForm (.redg 0 61 3) = some op ∧ Issuing (portSt [0, 1, 2]) 0 [0, 1, 2] pgrp2 ∧ LaneReady op (portSt [0, 1, 2]) pgrp2 :=
  ⟨_, rfl, test_issuing_ports.2, laneReady_of_test (by decide +kernel)⟩

/-- A group whose thread 1 has some registers pending. -/
def penders (l : List Nat) : Group :=
  { grp with threads := thr :: l.foldl (fun th r => th.setPend r true) { thr with route := some (0, 2 * 4096) } :: List.replicate 6 thr }
def pst (l : List Nat) : State := withGroup st (penders l)
theorem test_issuing_pending (l : List Nat) : Issuing (pst l) 0 [0, 1] (penders l) := ⟨rfl, rfl, by decide, by decide⟩
/-- Writes of qs: the first thread without a route, and one with a route whose register is pending. -/
theorem test_hyps_LaneTraps_sends :
    (∃ op, laneForm (.addA 0 0 1 6 60) = some op ∧ LaneReady op (pst []) (penders []) ∧ op.sends = true ∧ ((penders []).thread 0).route = none) ∧
    ∃ op, laneForm (.addA 0 0 1 6 60) = some op ∧ op.sends = true ∧
      (let gr := { penders [6] with threads := (penders [6]).threads.drop 1 }
       LaneReady op (pst [6]) gr ∧ (gr.thread 0).route ≠ none ∧ pendingIn gr (op.regs gr 0) = some 6) :=
  ⟨⟨_, rfl, laneReady_of_test (by decide +kernel), rfl, by decide⟩, _, rfl, rfl, laneReady_of_test (by decide +kernel), by decide, by decide +kernel⟩
/-- A word with a reserved field; a feature that is not accepted, a kind of thread that may not run it, and a register past the
budget, in each family. -/
theorem test_hyps_LaneTraps_decode :
    ((Instr.csrrd 15 2).encoded = true ∧ (Instr.csrrd 15 2).wf = false ∧ (Instr.addA 3 0 2 1 3).encoded = true ∧ (Instr.addA 3 0 2 1 3).wf = false) ∧
    (∃ F, decodeForm (.stflush 2) = some F ∧ ¬((∀ n ∈ F.need, ({ st with accepted := some 0 } : State).feature n = true) ∧ F.runsIn key = true)) ∧
    (∃ F, decodeForm (.launch 3 4 3) = some F ∧ F.need = [] ∧ F.runsIn hgrp.key = false) ∧
    (([.ldgW 1 4 30, .stgW 1 0 6 30 3, .aadd 1 0 30 4 3, .brx 30 1 62, .elect 30, .tload 0 62 8 30, .smul 1 30 2 3, .waitw 30 3, .mbr 5 30, .mark 9 30,
       .accalloc 1 30] : List Instr).all fun i => i.wf && (decodeForm i).any fun F => F.need.all (fun n => st.feature n) && F.runsIn key &&
         fieldsFault grp.budget F.fields == some 30) = true := by
  refine ⟨by decide, ⟨_, rfl, by decide +kernel⟩, ⟨_, rfl, rfl, by decide⟩, by decide +kernel⟩
/-- The base of a load pending in thread 1, behind one that passes. -/
theorem test_hyps_LaneTraps_load : ∃ F, loadForm (.ldgW 1 4 3) = some F ∧ Issuing (pst [4]) 0 [0, 1] (penders [4]) ∧
    fieldsFault (penders [4]).budget F.fields = none ∧ ([0, 1] : List Nat) = [0] ++ 1 :: [] ∧
    (∀ u ∈ [0], NonePending (penders [4]) (inThread u (ownRegs F.fields)) ∧ ∃ l, (pst [4]).lowCheck key false (F.target (penders [4]) u) = .ok l) ∧
    pendingIn (penders [4]) (inThread 1 (ownRegs F.fields)) = some 4 := by
  refine ⟨_, rfl, test_issuing_pending _, by decide +kernel, rfl, fun u hu => ⟨none_of_test ?_, ok_of_test ?_⟩, by decide +kernel⟩ <;>
    (obtain rfl := List.mem_singleton.mp hu; decide +kernel)
/-- A guard pending in thread 1, and a register of a thread whose guard holds. -/
theorem test_hyps_LaneTraps_guard : (([.stgW 1 0 6 4 3, .aadd 1 0 6 4 3, .brx 4 0 6] : List Instr).all fun i => i.wf && (guardForm i).any fun F =>
    (fieldsFault grp.budget F.fields).isNone && nonePendingB (penders [6]) (inThread 0 (regSpan F.guard.toNat 1)) &&
      nonePendingB (penders [6]) (inThread 0 (ownRegs F.fields)) && isOk (F.access (pst [6]) (penders [6]) 0) &&
      pendingIn (penders [6]) (inThread 1 (regSpan F.guard.toNat 1)) == some 6 &&
      [0, 1].all (fun u => !((penders [4]).thread u).isPend F.guard.toNat) && guarded (penders [4]) F.n F.guard [0, 1] == [0, 1] &&
      pendingIn (penders [4]) (inThread 1 (ownRegs F.fields)) == some 4) = true := by decide +kernel
theorem test_hyps_LaneTraps_guard_one : ∃ F, guardForm (.stgW 1 0 6 4 3) = some F ∧ Issuing (pst [6]) 0 [0, 1] (penders [6]) ∧
    (∀ u ∈ [0], NonePending (penders [6]) (inThread u (regSpan F.guard.toNat 1)) ∧
      (u ∈ guarded (penders [6]) F.n F.guard [0, 1] → NonePending (penders [6]) (inThread u (ownRegs F.fields)) ∧ ∃ l, F.access (pst [6]) (penders [6]) u = .ok l)) ∧
    pendingIn (penders [6]) (inThread 1 (regSpan F.guard.toNat 1)) = some 6 := by
  refine ⟨_, rfl, test_issuing_pending _, fun u hu => ?_, by decide +kernel⟩
  obtain rfl := List.mem_singleton.mp hu
  exact ⟨none_of_test (by decide +kernel), fun _ => ⟨none_of_test (by decide +kernel), ok_of_test (by decide +kernel)⟩⟩
/-- A register pending in thread 1, and in the lowest thread of an instruction that acts through it alone. -/
def pend0 (l : List Nat) : Group := { penders l with threads := (penders l).threads.drop 1 }
theorem test_hyps_LaneTraps_pend : (([.vote 4 4 3, .csrwr 12 4, .mbr 5 4, .smul 1 4 2 3, .elect 4] : List Instr).all fun i => i.wf &&
      (pendForm i).any fun p => !p.2 && firstPending (penders [4]) (p.1 (penders [4])) [0, 1] == some (1, 4)) = true ∧
    (([.tload 0 62 8 12, .mark 9 12, .accalloc 1 12, .trap 12] : List Instr).all fun i => i.wf && (pendForm i).any fun p => p.2 &&
      (decodeForm i).any fun F => F.need.all (fun n => st.feature n) && F.runsIn key && (fieldsFault grp.budget F.fields).isNone &&
        firstPending (pend0 [12]) (p.1 (pend0 [12])) [leadOf [0, 1]] == some (0, 12)) = true := by decide +kernel
/-- SELT of qr: a selecting thread without a word, beside two with one. -/
theorem test_hyps_SelectWrites_qr : Issuing (portSt [0, 1, 2]) 0 [0, 1, 2] pgrp2 ∧ (Instr.selt 0 0 6 61 3).wf = true ∧ Selects true 6 61 3 pgrp2 [0, 1, 2] ∧
    starved pgrp2 (chosen true 6 pgrp2 [0, 1, 2]) = [2] :=
  ⟨test_issuing_ports.2, by decide, ⟨by decide +kernel, by unfold NonePending; decide +kernel, by unfold NonePending; decide +kernel⟩, by decide +kernel⟩
/-! ## Hypotheses of the clauses on memory: ports, higher lanes, upper parts, owner states, poisoned data -/

/-- A store of qr in several threads, one of which has no word; a store of a thread over which a higher lane has written. -/
theorem test_hyps_StoresStore_qr : ∃ F, storeForm (.stsW 1 0 6 2 61) = some F ∧ Issuing (portSt [0, 1, 2]) 0 [0, 1, 2] pgrp2 ∧
    GuardUsable F.fields F.n F.guard pgrp2 [0, 1, 2] ∧ F.d = 61 ∧ F.who pgrp2 [0, 1, 2] = [0, 1, 2] ∧ starved pgrp2 (F.who pgrp2 [0, 1, 2]) = [2] ∧
    ∀ t ∈ [0, 1, 2], Reaches (portSt [0, 1, 2]) key true (F.target pgrp2 t) ∧
      (portSt [0, 1, 2]).mayPerform key true ((portSt [0, 1, 2]).places key (F.target pgrp2 t) true) = true :=
  ⟨_, rfl, test_issuing_ports.2, guard_of_test (by decide +kernel), rfl, by decide +kernel, by decide +kernel,
    fun t ht => reaches_of_test (by revert t; decide +kernel)⟩
def overThr : Thread := { thr with higher := [placeSpan (.glob 0x30004 0x200004 none, 2)] }
def ogrp : Group := { grp with threads := overThr :: List.replicate 7 thr }
theorem test_hyps_StoredValue_higher : ∃ F, storeForm (.stgW 1 0 6 4 3) = some F ∧ Issuing (withGroup one ogrp) 0 [0] ogrp ∧
    GuardUsable F.fields F.n F.guard ogrp [0] ∧ F.who ogrp [0] = [0] ∧ (ogrp.thread 0).higher ≠ [] ∧ Reaches (withGroup one ogrp) key true (F.target ogrp 0) ∧
    (withGroup one ogrp).places key (F.target ogrp 0) true = [(.glob 0x30004 0x200004 none, 4)] :=
  ⟨_, rfl, ⟨rfl, rfl, by decide, by decide⟩, guard_of_test (by decide +kernel), by decide +kernel, by decide +kernel,
    (reaches_of_test (by decide +kernel)).1, by decide +kernel⟩
/-- An atomic that acts in thread 0 alone, and in no thread. -/
def halfGrp (a b : Word) : Group := { grp with threads := thr.setReg 6 a :: thr.setReg 6 b :: List.replicate 6 thr }
theorem test_hyps_AtomicsComplete_guards : (∃ F, atomicForm (.aadd 1 0 6 4 3) = some F ∧ Issuing (withGroup st (halfGrp 1 0)) 0 [0, 1] (halfGrp 1 0) ∧
      GuardUsable F.fields F.n F.guard (halfGrp 1 0) [0, 1] ∧ F.who (halfGrp 1 0) [0, 1] = [0] ∧ others [0, 1] [0] = [1] ∧ (withGroup st (halfGrp 1 0)).memWf = true) ∧
    ∃ F, atomicForm (.aadd 1 0 6 4 3) = some F ∧ GuardUsable F.fields F.n F.guard (halfGrp 0 0) [0, 1] ∧ F.who (halfGrp 0 0) [0, 1] = [] :=
  ⟨⟨_, rfl, ⟨rfl, rfl, by decide, by decide⟩, guard_of_test (by decide +kernel), by decide +kernel, by decide, by decide +kernel⟩, _, rfl,
    guard_of_test (by decide +kernel), by decide +kernel⟩
theorem test_hyps_StashWindows_threads : (∀ t ∈ [0, 1], t < mgrp.threads.length ∧ (mgrp.thread t).pc = pcOf mgrp [0, 1] ∧
    (mgrp.thread t).issued = (mgrp.thread (leadOf [0, 1])).issued) ∧ (wst.team? team).bind (fun t => t.window? 0x100) = none := by decide +kernel

/-- Windows onto a page, the reserved range, and the team's own scratch. -/
def ownTm : Team := { tm with aperture := 0x00FF000000400000 }
def windowed (base : Nat) : Team := { ownTm with windows := [⟨2, 1, base, []⟩] }
theorem test_hyps_AddressChecks_windows : (∀ b ∈ ([0x200000, 0x00FF000000800000, 0x00FF000000400000] : List Nat), 0x2000 + 4 ≤ (windowed b).owners.length * 4096 ∧
      (windowed b).window? 0x2000 = some ⟨2, 1, b, []⟩) ∧
    inApertures 0x200000 = false ∧ (inApertures 0x00FF000000800000 = true ∧ ¬((windowed 0).aperture.toNat ≤ 0x00FF000000800000 ∧ 0x00FF000000800000 < (windowed 0).aperture.toNat + 0x400000)) ∧
    (inApertures 0x00FF000000400000 = true ∧ ((windowed 0).aperture.toNat ≤ 0x00FF000000400000 ∧ 0x00FF000000400000 < (windowed 0).aperture.toNat + 0x400000) ∧
      (windowed 0x00FF000000400000).window? (0x00FF000000400000 - (windowed 0).aperture.toNat) = none) := by decide +kernel
/-- Accesses that end in a page which is not mapped, and in one which is not present. -/
def edge (x : Word) : Group := { grp with threads := List.replicate 8 (thr.setReg 4 x) }
def edgeSt (x : Word) : State := { withGroup st (edge x) with ctxs := st.ctxs.set 1 { ctx1 with maps := ⟨0x2F, 4, 1, true, true, true, .k64⟩ :: maps } }
def upperB (x : Word) (write : Bool) (target : Group → Nat → Target) (bad : Option (Nat × Chk)) : Bool :=
  [0, 1].all (fun u => isOk ((edgeSt x).lowCheck key write (target (edge x) u)) && (target (edge x) u).crosses &&
    (edgeSt x).mayPerform key write ((edgeSt x).places key (target (edge x) u) write)) &&
    firstBad (fun t => (edgeSt x).highCheck key write (target (edge x) t)) [0, 1] == bad
theorem test_hyps_AddressChecks_upper :
    (∃ F, loadForm (.ldgW 0 4 3) = some F ∧ Issuing (edgeSt 0x20FFFE) 0 [0, 1] (edge 0x20FFFE) ∧ Usable F.fields (edge 0x20FFFE) [0, 1] ∧
      upperB 0x20FFFE false F.target (some (0, .fault 7 0x21)) = true ∧ upperB 0x2FFFFE false F.target (some (0, .page 0x30)) = true) ∧
    ∃ F, storeForm (.stgW 0 0 6 4 3) = some F ∧ Issuing (edgeSt 0x2FFFFE) 0 [0, 1] (edge 0x2FFFFE) ∧
      GuardUsable F.fields F.n F.guard (edge 0x2FFFFE) [0, 1] ∧ F.d ≠ 61 ∧ F.who (edge 0x2FFFFE) [0, 1] = [0, 1] ∧
      upperB 0x20FFFE true F.target (some (0, .fault 7 0x21)) = true ∧ upperB 0x2FFFFE true F.target (some (0, .page 0x30)) = true :=
  ⟨⟨_, rfl, ⟨rfl, rfl, by decide, by decide⟩, usable_of_test (by decide +kernel), by decide +kernel, by decide +kernel⟩,
    _, rfl, ⟨rfl, rfl, by decide, by decide⟩, guard_of_test (by decide +kernel), by decide, by decide +kernel, by decide +kernel, by decide +kernel⟩

/-- An engine writes block 0 of the team's scratch: thread 0 meets it and thread 1 does not. -/
def ownGrp : Group := { grp with threads := ((thr.setReg 4 0x00400100).setReg 5 0x00FF0000) :: (((thr.setReg 2 0x1000).setReg 4 0x00401000).setReg 5 0x00FF0000) :: List.replicate 6 thr }
def owned : State := { withGroup st ownGrp with teams := [{ ownTm with owners := .writing :: List.replicate 7 .threads }] }
theorem test_issuing_owned : Issuing owned 0 [0, 1] ownGrp := ⟨rfl, rfl, by decide, by decide⟩
def reachB (s : State) (w : Bool) (x : Target) (may : Bool) : Bool :=
  isOk (s.lowCheck key w x) && isOk (s.highCheck key w x) && s.mayPerform key w (s.places key x w) == may
theorem reach_of_test {s : State} {w may : Bool} {x : Target} (h : reachB s w x may = true) :
    Reaches s key w x ∧ s.mayPerform key w (s.places key x w) = may := by
  simp only [reachB, Bool.and_eq_true, beq_iff_eq] at h
  exact ⟨⟨ok_of_test h.1.1, ok_of_test h.1.2⟩, h.2⟩
theorem test_hyps_AddressChecks_owners :
    (∃ F, loadForm (.ldsW 1 2 3) = some F ∧ Usable F.fields ownGrp [0, 1] ∧ (Reaches owned key false (F.target ownGrp 0) ∧
        owned.mayPerform key false (owned.places key (F.target ownGrp 0) false) = false) ∧
      Reaches owned key false (F.target ownGrp 1) ∧ owned.mayPerform key false (owned.places key (F.target ownGrp 1) false) = true) ∧
    (∃ F, storeForm (.stsW 1 0 6 2 3) = some F ∧ GuardUsable F.fields F.n F.guard ownGrp [0, 1] ∧ F.d ≠ 61 ∧ F.who ownGrp [0, 1] = [0, 1] ∧
      (Reaches owned key true (F.target ownGrp 0) ∧ owned.mayPerform key true (owned.places key (F.target ownGrp 0) true) = false) ∧
      Reaches owned key true (F.target ownGrp 1) ∧ owned.mayPerform key true (owned.places key (F.target ownGrp 1) true) = true) ∧
    ∃ F, atomicForm (.aadd 1 0 6 4 3) = some F ∧ GuardUsable F.fields F.n F.guard ownGrp [0, 1] ∧ F.who ownGrp [0, 1] = [0, 1] ∧
      (Reaches owned key true (F.target ownGrp 0) ∧ owned.mayPerform key true (owned.places key (F.target ownGrp 0) true) = false) ∧
      Reaches owned key true (F.target ownGrp 1) :=
  ⟨⟨_, rfl, usable_of_test (by decide +kernel), reach_of_test (by decide +kernel), reach_of_test (by decide +kernel)⟩,
    ⟨_, rfl, guard_of_test (by decide +kernel), by decide, by decide +kernel, reach_of_test (by decide +kernel), reach_of_test (by decide +kernel)⟩,
    _, rfl, guard_of_test (by decide +kernel), by decide +kernel, reach_of_test (by decide +kernel), (reach_of_test (may := true) (by decide +kernel)).1⟩

/-- WAITW and SWAIT in threads of which the second is poisoned by an upset: the word differs from 7 in v6, and the cairns at 0x100
and 0x200 have an error in the second thread. -/
def upThr : Thread := { (thr.setReg 2 0x200) with tainted := true }
def ugrp : Group := { grp with threads := thr :: upThr :: List.replicate 6 thr }
def egrp2 : Group := { grp with threads := thr :: thr.setReg 2 0x200 :: List.replicate 6 thr }
def ust (gr : Group) : State := { withGroup st gr with teams := [{ tm with scratch := cairnReport [] 0x200 4 }] }
theorem test_hyps_WaitsBlock_tainted : Runs (.waitw 4 6) [regF 4 2, updF 6] (ust ugrp) 0 [0, 1] ugrp ∧
    (∀ t ∈ [0, 1], Reaches (ust ugrp) key false (wordTarget ((ugrp.thread t).pair 4)) ∧
      (ust ugrp).mayPerform key false ((ust ugrp).places key (wordTarget ((ugrp.thread t).pair 4)) false) = true ∧
      BitVec.ofNat 32 (bytesNat ((ust ugrp).readPlaces team ((ust ugrp).places key (wordTarget ((ugrp.thread t).pair 4)) false))) ≠ (ugrp.thread t).reg 6) ∧
    ([0, 1].filter fun t => (ugrp.thread t).tainted) = 1 :: [] :=
  ⟨runs_of_test ⟨rfl, rfl, by decide, by decide⟩ (by decide +kernel), fun t ht => ⟨(reach_of_test (may := true) (by revert t; decide +kernel)).1,
    by revert t; decide +kernel, by revert t; decide +kernel⟩, by decide +kernel⟩
theorem test_hyps_Cairns_error : (∀ gr ∈ [ugrp, egrp2], runsB (.swait 2 3) [regF 2, updF 3] gr [0, 1] = true ∧
      ∀ t ∈ [0, 1], (ust gr).cairnCheck team ((gr.thread t).reg 2).toNat = none) ∧
    ([0, 1].filter fun t => cairnErr ((ust ugrp).scratch team) ((ugrp.thread t).reg 2).toNat && (ugrp.thread t).tainted) = 1 :: [] ∧
    (∀ u ∈ [0, 1], (egrp2.thread u).tainted = false) ∧ ([0, 1].filter fun t => cairnErr ((ust egrp2).scratch team) ((egrp2.thread t).reg 2).toNat) = 1 :: [] ∧
    cairnCause ((ust egrp2).scratch team) 0x200 = 4 ∧ cairnCause (cairnReport [] 0x200 3) 0x200 ≠ 4 := by decide +kernel
/-- MBR of two threads at one word, MBW of two threads at seven, an empty mailbox, a full one, and qr without a word. -/
def boxedTwo (n : Nat) : State := { boxed n grp with cur := some ⟨0, [0, 1], []⟩ }
theorem test_hyps_MailboxesPass_set : (Runs (.mbr 5 3) [outF 3] (boxedTwo 1) 0 [0, 1] grp ∧ Runs (.mbw 5 6) [srcF 6] (boxedTwo 7) 0 [0, 1] grp ∧ (6 : BitVec 6) ≠ 61) ∧
    (Runs (.mbr 5 3) [outF 3] (boxed 0 grp) 0 [0] grp ∧ NoneWait (boxed 0 grp) ∧ ((boxed 0 grp).core grp.core).mailbox 1 5 = []) ∧
    (Runs (.mbw 5 6) [srcF 6] (boxed 8 grp) 0 [0] grp ∧ NoneWait (boxed 8 grp) ∧ 8 ≤ (((boxed 8 grp).core grp.core).mailbox 1 5).length) ∧
    (Runs (.mbw 5 61) [srcF 61] (boxed 8 grp) 0 [0] grp ∧ (grp.thread 0).queue = []) :=
  ⟨⟨runs_of_test ⟨rfl, rfl, by decide, by decide⟩ (by decide +kernel), runs_of_test ⟨rfl, rfl, by decide, by decide⟩ (by decide +kernel), by decide⟩,
    ⟨runs_of_test ⟨rfl, rfl, by decide, by decide⟩ (by decide +kernel), by unfold NoneWait; decide +kernel, by decide +kernel⟩,
    ⟨runs_of_test ⟨rfl, rfl, by decide, by decide⟩ (by decide +kernel), by unfold NoneWait; decide +kernel, by decide +kernel⟩,
    runs_of_test ⟨rfl, rfl, by decide, by decide⟩ (by decide +kernel), rfl⟩
/-! ## Hypotheses of the clauses on fabric, links, host, sessions, nodes and batches -/

/-- Five errors of a bank within the hour and four now, above the threshold of 8, and five of an hour before. -/
theorem test_hyps_ManagementActs_bank : let s := { st with time := 4000000000000, boot := { st.boot with eccs := [⟨2, 3, 3000000000000, 5⟩, ⟨2, 3, 1, 5⟩] } }
    (((⟨2, 3, s.time, 4⟩ : BankErrors) :: s.boot.eccs).filter fun e => decide (s.time ≤ e.time + 3600000000000)) = [⟨2, 3, 4000000000000, 4⟩, ⟨2, 3, 3000000000000, 5⟩] ∧
    s.boot.eccThreshold < 4 + 5 ∧ ¬(s.boot.eccThreshold < 4) := by decide +kernel
/-- Every port has agreed its keys, or none. -/
theorem test_hyps_BootAdvances_links : (∀ p ∈ ({ stage 4 with ports := (stage 4).ports.map fun _ => { ready with peer := some ⟨8, 1, 0⟩ } } : State).ports.zipIdx, p.1.agreed = true) ∧
    (stage 4).boot.status = .stage 4 := by decide +kernel

/-- A packet of a stream that has started one in this f-cycle, at an own reserved slot. -/
def paced : State := { inj with fabric := { ports := [sendPort], tags := [{ key := streamOf 1 5 pkt, next := 1, startedAt := inj.fcycle }]
                                            slots := [{ inj.slotAt false 1 5 0 with reserved := some (1, 5) }] } }
theorem test_hyps_FlitsInject_paced : (paced.fabric.port 1 5).nextOn false 0 = some 0 ∧ (paced.fabric.port 1 5).queueOf 0 = { packet := pkt } :: [] ∧
    (paced.slotAt false 1 5 0).usable 1 5 = true ∧ paced.fabric.mayStart false (streamOf 1 5 pkt) paced.fcycle = false := by decide +kernel
/-- An empty slot, an old generation at a station, and a flit that stands ahead among others. -/
theorem test_hyps_FlitsArrive_errors :
    ((st.slotAt false 1 5 0).flit = none ∧ (st.slotAt false 1 5 0).reserved = none ∧ seated false 1 5 0 = true) ∧
    ({ flt with gen := 1 } : Flit).gen ≠ st.fabric.gens.getD ({ flt with gen := 1 } : Flit).part.toNat 0 ∧ st.groupIdx? (⟨key, 0, none⟩ : PktOwner).group = some 0 ∧
    (let f := { flt with tag := 1, aheadSince := some 2 }
     let s := arr f
     let x := s.slotAt false 1 5 0
     x ∈ s.fabric.slots ∧ x.flit = some f ∧ seated x.spine 1 5 x.loop = true ∧ x.isAt x.spine 1 x.loop (slotIndex x.spine (position x.spine 1 5 x.loop) s.fcycle) = true ∧
       f.gen = s.fabric.gens.getD f.part.toNat 0 ∧ aheadTag (flitStream f) (s.fabric.context (flitStream f)).expected f = some 1) ∧
    ({ flt with tag := 1, aheadSince := some 2 } : Flit).aheadSince = some 2 := by decide +kernel

/-- The slots of a port before its first keys, at both ends of its link. -/
theorem test_hyps_LinkKeys_agree : let s := withPort { up := true }
    (s.port 3).up = true ∧ (s.port 3).tx = [{}, {}] ∧ (s.port 3).rx = [{}, {}] ∧ s.boot.status.live = true ∧ (77 : BitVec 384) ∉ (s.port 3).secrets ∧
    (withPort { up := true, secrets := [77] }).port 3 = { up := true, secrets := [77] } := by decide +kernel
theorem test_hyps_LinksRun_idle_owner : let s := (withPort { ready with reasm := [{}, { held := [5], open' := true, lastAt := 1 }, {}] }).modPart 0 fun p => { p with ports := [3] }
    ((s.port 3).reasm.getD 1 {}).open' = true ∧ ((s.port 3).reasm.getD 1 {}).lastAt + 65536 ≤ s.fcycle ∧ s.portOwner 3 = some 0 := by decide +kernel

/-- Offsets of a window: the ends of the queues' registers, and beyond; another stream in RUN; the bounds of the sparing threshold. -/
theorem test_hyps_HostWrites_window : Writable st 0 1 9 ∧ (0x308 : Nat) ≠ 0 ∧ (∀ q, q < 32 → (0x308 : Nat) ≠ 0x100 + 16 * q ∧ (0x308 : Nat) ≠ 0x108 + 16 * q) ∧
    (0 : Nat) < 32 ∧ (31 : Nat) < 32 ∧ (32 : Nat) ≤ 32 ∧ (st.part 0).state ≠ .free ∧ (st.part 0).vf = .run ∧ (st.part 0).stream ≠ 8 ∧
    (1 : Nat) ≤ (1 : DWord).toNat ∧ (65535 : DWord).toNat ≤ 65535 :=
  ⟨test_writable, by decide, by decide, by decide, by decide, by decide, by decide +kernel, by decide +kernel, by decide +kernel, by decide, by decide⟩
theorem test_hyps_HostMemory_window : Serves st 0 9 ∧ (st.ctx 1).state = .active ∧ (st.ctx 1).part = 0 ∧ (st.ctx 5).state ≠ .active ∧ (31 : Nat) < 32 ∧
    (let s := st.modPart 0 fun p => { p with vf := .error }; (s.part 0).vf = .error ∧ (s.part 0).state ≠ .free) ∧ (st.part 5).state = .free :=
  ⟨test_serves, by decide +kernel, by decide +kernel, by decide +kernel, by decide, by decide +kernel, by decide +kernel⟩

/-- A session with a party of another device: without a link to it, and with one; a contribution in its packet, of that party and of
this device's, to a new round and to an open one, to a closed session, and under an aborted key. -/
def tag0 : RoundTag := ⟨9, 0, 0, 25, 32, 1, 0⟩
def linked : State := { st with parts := st.parts.modify 0 fun p => { p with ports := [3] }, ports := st.ports.set 3 { up := true, peer := some ⟨8, 1, 0⟩ } }
def homeSt (x : Session) : State := { sst x with fabric := { delivered := [⟨0, 62, 1, 0, []⟩] } }
def round0 (n : Nat) : Round := { lbase := 9, seq := 0, sub := 0, firstAt := 0, parts := [⟨n, tag0, [5]⟩] }
theorem test_hyps_SessionsMeet_links : st.pathOk pair = false ∧ linked.pathOk pair = true ∧ sessionOk 32 pair [0] [true, true] = true ∧
    (∀ p ∈ pair, linked.partyOk p = true) ∧ linked.boot.status = .ready := by decide +kernel
theorem test_hyps_SessionsMeet_rounds :
    (∀ x ∈ [sess, { sess with rounds := [round0 0] }, shut, { sess with aborted := [⟨9, 0, 0, 0x30, 0⟩] }],
      (homeSt x).session? 3 = some x ∧ x.id = 3 ∧ x.parties[1]? = some ⟨8, 0, 1⟩ ∧ (8 : BitVec 16) ≠ (homeSt x).boot.devId ∧ x.knows 1 tag0 = false ∧
      x.homeOf = (homeSt x).boot.devId ∧ (∀ r ∈ x.rounds, (homeSt x).time < r.firstAt + x.deadline) ∧
      (∀ a ∈ x.aborted, (homeSt x).time < a.since + x.deadline) ∧
      ((homeSt x).fabric.delivered.find? fun d => d.die == (homeSt x).homeDie x && d.st == 62 && d.cls == 1 && d.part == 0) = some ⟨0, 62, 1, 0, []⟩) ∧
    (sst sess).fabric.delivered = [] ∧ sess.opened = true ∧ shut.opened = false ∧
    ((⟨9, 0, 0, 0x30, 0⟩ : AbortHold).is 9 0 0 = true) ∧ (round0 0).is 9 0 0 = true ∧
    (sess.parties.length ≤ ((round0 0).parts ++ [(⟨1, tag0, [6]⟩ : Contribution)]).length) ∧ ([⟨1, tag0, [6]⟩] : List Contribution).length < sess.parties.length ∧
    (let s := homed sess.parties { open0 with sent := [5] } []
     (({ open0 with sent := [5] } : ShareOp).tag, [5]) ∈ s.sentBy 1 3) := by decide +kernel
/-- A session that has closed, and rounds that its close fails. -/
theorem test_hyps_SessionsMeet_closed : (sst { sess with closed := true }).session? 3 = some { sess with closed := true } ∧
    (⟨0, tag0, [5]⟩ : Contribution) ∈ (round0 0).parts ∧ (sst { sess with rounds := [round0 0] }).session? 3 = some { sess with rounds := [round0 0] } := by decide +kernel

/-- An error of the cycle: of a team that would retire, and of a RUNNING node; a node whose teams have all retired; one that commits. -/
def err0 : TrapRec := ⟨0x31, false, false, 0, 0x40, 8192, 1, 0, 5, key⟩
theorem test_hyps_NodesLive_cycle :
    (({ eest with errors := [err0] } : State).erring team.ctx team.node = true ∧ ({ eest with errors := [err0] } : State).team? team = some doneTm) ∧
    (let n := { nod with retired := nod.rec'.count }
     let s := { st with nodes := [n] }
     s.node? 1 5 = some n ∧ s.errors = [] ∧ n.state = .running ∧ n.retired = n.rec'.count) ∧
    (err0.group.ctx = 1 ∧ err0.node = 5 ∧ (st.ctx 1).state = .active ∧ nod.state = .running ∧ nod.attempt < 3 ∧ st.node? 1 5 = some nod) ∧
    (let s := { st with nodes := [{ nod with state := .committing }] }
     (∀ e ∈ (s.ctx 1).basket, e.node ≠ 5) ∧ s.memWf = true ∧ (s.ctx 1).phys? (nod.addr + 104) = some 0x31068) ∧
    (let s := { rst with nodes := [{ nod with queue := 3, addr := 0x200800, state := .queued }] }
     (s.ctx 1).phys? ((((s.ctx 1).queue 3).slot 0) + 100) = some 0x30864 ∧
      (s.nodes.find? fun n => n.ctx == 1 && n.queue == 3 && n.addr == ((s.ctx 1).queue 3).slot 0).isSome = true ∧
      (s.nodes.find? fun n => n.ctx == 1 && n.queue == 4 && n.addr == ((s.ctx 1).queue 4).slot 0) = none) := by
  refine ⟨?_, ?_, ?_, ?_, ?_⟩ <;> decide +kernel

/-- Two batches with entries of one team: the first has its turn, and the second waits; a poisoned word that WAITW would deliver; a table
that a TBL has read in the cycle. -/
def twoBatches : State := { st with ctxs := st.ctxs.set 1 { ctx1 with basket := [entryB (some 65), { entryB (some 129) with seq := 1 }], batches := [65, 129], nextBatch := 5 } }
def turnB (s : State) (n : Nat) : Bool := (s.ctx (n % 64)).basket.all fun e => e.batch != some n || (s.ctx (n % 64)).basket.all fun f =>
  match f.batch with
  | some m => !((s.ctx (n % 64)).batches.takeWhile (· != n)).contains m || (e.node, e.team) != (f.node, f.team)
  | none => true
theorem test_hyps_WorkCompletes_batches : (65 : Nat) ∈ (twoBatches.ctx (65 % 64)).batches ∧ (129 : Nat) ∈ (twoBatches.ctx (129 % 64)).batches ∧
    turnB twoBatches 65 = true ∧ turnB twoBatches 129 = false := by decide +kernel
def taintWait : Group := { grp with threads := { thr with state := .blocked waitw0, tainted := true } :: List.replicate 7 thr }
theorem test_hyps_WaitsEnd_tainted : let s := { withGroup vst taintWait with cur := none }
    s.active taintWait = true ∧ (taintWait.thread 0).state = .blocked waitw0 ∧ (taintWait.thread 0).tainted = true ∧ (waits waitw0 0).thread 0 ≠ taintWait.thread 0 := by
  decide +kernel
theorem test_hyps_WaitsEnd_table : let b : Table := { filler := some (key, 0, 0), filled := 256, readAt := some (tblS {}).cycle }
    (tblS b).active (waits tbl 0) = true ∧ (tblS b).pendingFills team = [(0, 0, 2, 0x100, 0)] ∧ b.readAt = some (tblS b).cycle ∧
    (∀ x ∈ (tblS b).teams, x.key = team → x.key = ((tblS b).teams.headD tm).key) ∧ ({} : Table).readAt ≠ some (tblS {}).cycle ∧ (2 : Nat) < tm.tables.length := by
  decide +kernel
/-- A wait on an owner state through a window onto the team's own scratch. -/
theorem test_hyps_TrapsHandled_window : let s := { st with teams := [windowed 0x00FF000000401000] }
    ((s.team? team).bind fun t => t.window? 0x2000) = some ⟨2, 1, 0x00FF000000401000, []⟩ ∧ s.plainAddr team 0x2000 = 0x1000 ∧ s.plainAddr team 0x1000 = 0x1000 := by decide +kernel
/-! ## One step on values that the spec works out -/

/-- What register r of thread t, and its flags, hold after an instruction of threads `set` with given registers. -/
def after (i : Instr) (ths : List Thread) (set : List Nat) (t r : Nat) : Option (Word × Flags) :=
  let gr := { grp with budget := 60, threads := ths }
  match exec i { withGroup st gr with cur := some ⟨0, set, []⟩ } with
  | .next s => (s.groups[0]?).map fun g => ((g.thread t).reg r, (g.thread t).flags)
  | _ => none
def regs (l : List (Nat × Word)) : Thread := l.foldl (fun t p => t.setReg p.1 p.2) ({ pc := 0x40 } : Thread)
/-- One thread with v1 = a, v2 = b and v3 = d. -/
def abd (a b d : Word) : List Thread := [regs [(1, a), (2, b), (3, d)]]

/-- R238, R242, R243. Wrapping sums, signed and unsigned bounds, shift counts modulo 32. -/
theorem test_integer : after (.addA 0 0 2 1 3) (abd 0xFFFFFFFF 2 0) [0] 0 3 = some (1, 0) ∧
    after (.subA 0 0 2 1 3) (abd 1 2 0) [0] 0 3 = some (0xFFFFFFFF, 0) ∧
    after (.mulhi 0 0 2 1 3) (abd 0xFFFFFFFF 2 0) [0] 0 3 = some (0xFFFFFFFF, 0) ∧
    after (.mulhu 0 0 2 1 3) (abd 0xFFFFFFFF 2 0) [0] 0 3 = some (1, 0) ∧
    after (.madA 0 0 2 1 3) (abd 3 5 100) [0] 0 3 = some (115, 0) ∧
    after (.sraA 0 0 2 1 3) (abd 0x80000000 33 0) [0] 0 3 = some (0xC0000000, 0) ∧
    after (.sltA 0 0 2 1 3) (abd 0xFFFFFFFF 0 9) [0] 0 3 = some (1, 0) ∧
    after (.sltuA 0 0 2 1 3) (abd 0xFFFFFFFF 0 9) [0] 0 3 = some (0, 0) ∧
    after (.addI 0x3FD 1 3) (abd 6 0 0) [0] 0 3 = some (3, 0) ∧
    after (.clz 0 1 3) (abd 0x00010000 0 0) [0] 0 3 = some (15, 0) := by decide +kernel
/-- R239, R240. Pairs. -/
theorem test_wide : after (.add64I 0x3FF 4 6) [regs [(4, 0), (5, 1)]] [0] 0 7 = some (0, 0) ∧
    after (.add64I 0x3FF 4 6) [regs [(4, 0), (5, 1)]] [0] 0 6 = some (0xFFFFFFFF, 0) ∧
    after (.madw 0 0 2 1 4) [regs [(1, 0xFFFFFFFF), (2, 0xFFFFFFFF), (4, 1), (5, 0)]] [0] 0 5 = some (0xFFFFFFFE, 0) := by decide +kernel
/-- R245. The one rounding of FMA, and 0 of unlike signs. -/
theorem test_fma : after (.fmaA 0 0 2 1 3) (abd 0x3F800001 0x3F800001 0xBF800002) [0] 0 3 = some (0x28800000, 0) ∧
    after (.faddA 0 0 2 1 3) (abd 0x3F800000 0xBF800000 7) [0] 0 3 = some (0, 0) := by decide +kernel
/-- Table 12.3. -/
theorem test_packed : after (.iadd2sA 0 0 2 1 3) (abd 0x7FF08000 0x0020FFFF 0) [0] 0 3 = some (0x7FFF8000, fSAT) ∧
    after (.idot2A 0 0 2 1 3) (abd 0x80008000 0x80008000 0) [0] 0 3 = some (0x7FFFFFFF, fSAT) ∧
    after (.idot2A 0 0 2 1 3) (abd 0x0003FFFE 0x00050007 0x64) [0] 0 3 = some (0x65, 0) ∧
    after (.idot4A 0 0 2 1 3) (abd 0x80808080 0x80808080 0) [0] 0 3 = some (0x10000, 0) ∧
    after (.ishr2rI 15 1 3) (abd 0x80004001 0 0) [0] 0 3 = some (0xFFFF0001, 0) ∧
    after (.ishr2rI 31 1 3) (abd 0x80004001 0 0) [0] 0 3 = some (0x80007FFF, fSAT) ∧
    after (.ipack2s 0 0 2 1 3) (abd 0x00012345 0xFFFFFF00 0) [0] 0 3 = some (0xFF007FFF, fSAT) := by decide +kernel
/-- Table 12.6. -/
theorem test_convert : after (.cvt 1 1 0 1 3) (abd 0x3F818000 0 0) [0] 0 3 = some (0x3F82, fNX) ∧
    after (.cvt 2 1 0 1 3) (abd 0x3F818000 0 0) [0] 0 3 = some (0x3F81, fNX) ∧
    after (.cvt 1 3 0 1 3) (abd 0x447A0000 0 0) [0] 0 3 = some (0x7E, fOF ||| fNX) ∧
    after (.cvt 1 11 0 1 3) (abd 0x3F800000 0 0) [0] 0 3 = some (0x40, 0) ∧
    after (.cvt 1 11 0 1 3) (abd 0x40200000 0 0) [0] 0 3 = some (0x7F, fSAT) ∧
    after (.cvt 1 11 0 1 3) (abd 0xBC000000 0 0) [0] 0 3 = some (0, fNX) ∧
    after (.cvt 1 9 0 1 3) (abd 0x47800000 0 0) [0] 0 3 = some (0x7FFF, fIV) ∧
    after (.cvt 0 0 6 1 3) (abd 0xD 0 0) [0] 0 3 = some (0x3F100000, 0) := by decide +kernel
/-- Table 13.4. -/
def four : List Thread := [0x4B800000, 0x3F800000, 0x3F800000, 0xCB800000].map fun x => regs [(1, x)]
theorem test_groups : ((List.range 4).map fun t => after (.scang 2 1 3) four [0, 1, 2, 3] t 3) =
      [some (0x4B800000, 0), some (0x4B800000, fNX), some (0x4B800000, fNX), some (0, 0)] ∧
    ((List.range 4).map fun t => after (.redg 1 1 3) four [0, 1, 2, 3] t 3) = List.replicate 4 (some (0x40000000, 0)) := by decide +kernel
/-- Table 13.6. -/
theorem test_softmax : (let t := fun m s x => [regs [(4, m), (5, s), (1, x)]]
    after (.smxacc 0 1 4) (t 0xFF800000 0 0x40A00000) [0] 0 5 = some (0x3F800000, 0) ∧
    after (.smxacc 0 1 4) (t 0x40A00000 0x3F800000 0x40A00000) [0] 0 5 = some (0x40000000, 0) ∧
    after (.smxacc 0 1 4) (t 0x40A00000 0x40000000 0xFF800000) [0] 0 5 = some (0x40000000, 0) ∧
    after (.smxnorm 0 0 4 1 6) (t 0x40A00000 0x40400000 0x40A00000) [0] 0 6 = some (0x3EAAAAAB, fNX)) := by decide +kernel
/-- R219. The halfwords of ECAT at the two ends of the group. -/
theorem test_cross : (let ths := (List.range 8).map fun t => regs [(2, BitVec.ofNat 32 (0x10000 * (2 * t + 1) + 2 * t)), (4, BitVec.ofNat 32 (0x10000 * (2 * t + 17) + 2 * t + 16))]
    after (.movX 1 10 2 4) ths (List.range 8) 3 4 = some (0x00080007, 0) ∧ after (.movX 1 10 2 4) ths (List.range 8) 7 4 = some (0x0010000F, 0)) := by
  decide +kernel
/-- R213. A last use leaves the poison value, and a read of it raises PZ. -/
theorem test_poison : after (.movA 2 1 3) (abd 5 0 0) [0] 0 1 = some (0x7FC0DEAD, 0) ∧
    after (.movA 0 1 3) [(regs [(1, 5)]).poison 1] [0] 0 3 = some (0x7FC0DEAD, fPZ) := by decide +kernel

/-- Table 14.3. Four threads on one word: its value afterwards, and the values on their way to the threads. -/
def lanes4 (f : Nat → List (Nat × Word)) : List Thread :=
  (List.range 8).map fun t => regs ((4, 0x00200000) :: (1, if t < 4 then 1 else 0) :: f t)
def onWord (i : Instr) (ths : List Thread) (x : Nat) : Option (Nat × List (List (Nat × Word))) :=
  let gr := { grp with budget := 60, threads := ths }
  match exec i { withGroup st gr with cur := some ⟨0, List.range 8, []⟩, mem := cellsWrite [] 0x30000 (natBytes 4 x) } with
  | .next s => (s.groups[0]?).map fun g => (bytesNat (cellsRead s.mem 0x30000 4), (List.range 4).map fun t => (((g.thread t).loads.map LoadRec.vals)).flatten)
  | _ => none
theorem test_axch : onWord (.axch 0 0 1 4 3) (lanes4 fun t => [(3, BitVec.ofNat 32 (10 + t))]) 0x11 =
    some (0xD, [[(3, 0x11)], [(3, 10)], [(3, 11)], [(3, 12)]]) := by decide +kernel
theorem test_aadd : onWord (.aadd 0 0 1 4 9) (lanes4 fun _ => [(9, 1)]) 5 = some (9, [[(9, 5)], [(9, 6)], [(9, 7)], [(9, 8)]]) := by decide +kernel
theorem test_acas : onWord (.acas 0 0 1 4 6) (lanes4 fun t => [(6, BitVec.ofNat 32 (0x100 + t)), (7, 0)]) 0 =
    some (0x100, [[(6, 0)], [(6, 0x100)], [(6, 0x100)], [(6, 0x100)]]) := by decide +kernel
theorem test_stores : onWord (.stgW 0 0 1 4 3) (lanes4 fun t => [(3, BitVec.ofNat 32 (10 + t))]) 0x11 = some (0xD, [[], [], [], []]) := by decide +kernel
/-- R278. Sign extension, and a negative offset in units of the size. -/
theorem test_loads : onWord (.ldgSh 0x7FF 4 3) ((List.range 8).map fun _ => regs [(4, 0x00200002)]) 0x8001 =
      some (0x8001, List.replicate 4 [(3, 0xFFFF8001)]) := by decide +kernel

/-- R292, R312. A branch back, a call, and a trap without a handler. -/
def goes' (i : Instr) (th : Thread) : Option (Word × ThreadState) :=
  match exec i { withGroup one { grp with budget := 60, threads := [th] } with cur := some ⟨0, [0], []⟩ } with
  | .next s => (s.groups[0]?).map fun g => ((g.thread 0).pc, (g.thread 0).state)
  | _ => none
theorem test_control : goes' (.bra 0x3FFFC 1 62) (regs []) = some (0x38, .ready) ∧ goes' (.bra 5 0 62) (regs []) = some (0x44, .ready) ∧
    goes' (.brx 6 1 62) (regs [(6, 0x101)]) = some (0x100, .ready) ∧ goes' (.nap 10) (regs []) = some (0x40, .blocked (.nap 160)) ∧
    goes' (.exit 1 62) (regs []) = some (0x40, .exited) := by decide +kernel
theorem test_trap : (match exec (.trap 6) { vst with cur := some ⟨0, [0, 1], []⟩ } with
    | .next s => (s.core 0).trapQueue.map fun r => (r.code, r.pc, r.detail)
    | _ => []) = [(0x3C, 0x40, 7)] ∧
  (match exec (.trap 6) st with
    | .next s => (s.ctx 1).state == .terminated && s.groups.isEmpty
    | _ => false) = true := by decide +kernel

/-- Table 22.6. One SMUL in two parties. -/
theorem test_shares : mulSend 16 (0xA, 5) (1, 0x14, 0x64) = [9, 0xFFF1] ∧ mulSend 16 (0xFFF9, 2) (3, 0xFFF5, 0xFFC0) = [0xFFF6, 0xD] ∧
    mulOut 16 true (1, 0x14, 0x64) 0xFFFF 0xFFFE = 0x50 ∧ mulOut 16 false (3, 0xFFF5, 0xFFC0) 0xFFFF 0xFFFE = 0xFFC5 := by decide

/-- A step runs the instruction at the PC: ADD v3, v1, v2 in eight threads. -/
theorem test_step : (match pre.plan with
    | .run i s1 => match exec i s1 with
      | .next s => (s.groups[0]?).map fun g => ((g.thread 7).reg 3, (g.thread 7).pc)
      | _ => none
    | _ => none) = some (0x103, 0x44) := by decide +kernel

end Sys2Proof.Tests

end
end

namespace Sys2Proof.Proofs

open Sys2Proof.Machine Sys2Proof.Safety Sys2Proof.Laws
open Host (Cell)

/-! # Memory, reset, boot and management (spec/01_package.md)

## Canonical memory (R17, R74, R134, log 18) -/

section Memory

theorem get_cons_self (k : Nat) (b : Byte) (r : List Cell) : cellsGet ((k, b) :: r) k = b := by
  simp [cellsGet]

/-- An address that reads as something else than zero is not below the first one listed. -/
theorem head_le_of_get_ne_zero {k a : Nat} {b : Byte} {r : List Cell} (h : cellsGet ((k, b) :: r) a ≠ 0) : k ≤ a := by
  by_contra hlt
  exact h (if_pos (by omega))

/-- The cells after the first read as the whole list does beyond the first address, and as zero up to it. -/
theorem get_tail {k : Nat} {b : Byte} {r : List Cell} (h : From (k + 1) r) (a : Nat) :
    cellsGet r a = if a ≤ k then 0 else cellsGet ((k, b) :: r) a := by
  split
  · exact get_below r a fun c hc => by have := h c hc; omega
  · rw [cellsGet, if_neg (by omega), if_neg (by omega)]

/-- The canonical form is determined by what is read: the first addresses are equal, as each reads as its own byte, which is
not zero; then so are the bytes there, and so are the rests. -/
theorem eq_of_get_eq (m m' : List Cell) (hm : cellsWf m = true) (hm' : cellsWf m' = true)
    (h : ∀ a, cellsGet m a = cellsGet m' a) : m = m' := by
  induction m generalizing m' with
  | nil =>
    cases m' with
    | nil => rfl
    | cons c' r' =>
      obtain ⟨k', b'⟩ := c'
      obtain ⟨hb', -, -⟩ := (wf_cons k' b' r').1 hm'
      exact absurd ((get_cons_self k' b' r').symm.trans (h k').symm) hb'
  | cons c r ih =>
    obtain ⟨k, b⟩ := c
    obtain ⟨hb, hf, hr⟩ := (wf_cons k b r).1 hm
    cases m' with
    | nil => exact absurd ((get_cons_self k b r).symm.trans (h k)) hb
    | cons c' r' =>
      obtain ⟨k', b'⟩ := c'
      obtain ⟨hb', hf', hr'⟩ := (wf_cons k' b' r').1 hm'
      have hle : k' ≤ k := head_le_of_get_ne_zero (by rwa [← h k, get_cons_self])
      have hge : k ≤ k' := head_le_of_get_ne_zero (by rwa [h k', get_cons_self])
      obtain rfl : k = k' := Nat.le_antisymm hge hle
      obtain rfl : b = b' := by rw [← get_cons_self k b r, h k, get_cons_self]
      rw [ih r' hr hr' fun a => by rw [get_tail hf a, get_tail hf' a, h a]]

/-- Settles O21: a write keeps the form and reads back, and reading determines the form. -/
theorem memoryHolds : Obligations.MemoryHolds := by
  refine ⟨fun m a bs hm => ⟨write_wf bs m a hm, read_write bs m a hm, fun b hb => ?_⟩, fun _ => rfl, eq_of_get_eq⟩
  rw [get_write bs m a b hm, if_neg (by omega)]

end Memory

/-! ## The state after reset (R17, R49, R60, R66, R71, R72, R74, R75) -/

section Reset

theorem reset_ctxs {c : Context} (h : c ∈ State.reset.ctxs) : c = {} := List.eq_of_mem_replicate h
theorem reset_parts {p : Partition} (h : p ∈ State.reset.parts) : p = {} := List.eq_of_mem_replicate h
theorem reset_ports {p : Port} (h : p ∈ State.reset.ports) : p = {} := List.eq_of_mem_replicate h
theorem reset_cores {x : Core} (h : x ∈ State.reset.cores) : x = {} := List.eq_of_mem_replicate h
theorem context_queues {q : Queue} (h : q ∈ ({} : Context).queues) : q = {} := List.eq_of_mem_replicate h

/-- Settles O5: every context, queue, partition, port and core of the reset state is the first value of its kind. -/
theorem resetLeaves : Obligations.ResetLeaves := by
  refine ⟨rfl, rfl, rfl, rfl, rfl, rfl, rfl, rfl, rfl, rfl, fun _ => rfl, List.length_replicate, List.length_replicate,
    List.length_replicate, List.length_replicate, ?ctxs, ?parts, ?ports, ?cores⟩
  case ctxs =>
    intro c hc
    rw [reset_ctxs hc]
    refine ⟨rfl, List.length_replicate, rfl, rfl, rfl, rfl, rfl, rfl, rfl, fun q hq => ?_⟩
    rw [context_queues hq]
    exact ⟨rfl, rfl, rfl, rfl⟩
  case parts =>
    intro p hp
    rw [reset_parts hp]
    exact ⟨rfl, rfl, rfl⟩
  case ports =>
    intro p hp
    rw [reset_ports hp]
    exact ⟨rfl, rfl, by decide⟩
  case cores =>
    intro x hx
    rw [reset_cores hx]
    exact ⟨rfl, rfl, rfl⟩

end Reset

/-! ## The start of boot ROM (R17, R19, R20, log 47) -/

section Restart

variable (s : State) (f : Fuses) (wiped : Bool)

@[simp] theorem restart_status : (s.restart f wiped).boot.status = .stage 0 := rfl
@[simp] theorem restart_groups : (s.restart f wiped).groups = [] := rfl
@[simp] theorem restart_teams : (s.restart f wiped).teams = [] := rfl
@[simp] theorem restart_nodes : (s.restart f wiped).nodes = [] := rfl
@[simp] theorem restart_net : (s.restart f wiped).net = [] := rfl
@[simp] theorem restart_fuses : (s.restart f wiped).fuses = if (wiped || f.wipePending) = true then f.burnDone else f := rfl
@[simp] theorem restart_pending :
    (s.restart f wiped).boot.pending = if (wiped || f.wipePending) = true then none else s.boot.pending := rfl
@[simp] theorem restart_mem : (s.restart f wiped).mem = if (wiped || f.wipePending) = true then [] else s.mem := rfl

theorem restart_ctxs_free {c : Context} (h : c ∈ (s.restart f wiped).ctxs) : c.state = .free := by
  rw [reset_ctxs h]

end Restart

/-! ## What the boot events leave (R11, R15 to R17) -/

section Boot

theorem exec_deviceReset (s : State) : exec .deviceReset s = .next (s.restart s.fuses false) := rfl

theorem accepts_iff (f : Fuses) (rsaOk slhOk : Bool) (v : Nat) :
    f.accepts rsaOk slhOk v = true ↔ rsaOk = true ∧ slhOk = true ∧ f.minVersion ≤ v := by
  simp [Fuses.accepts, and_assoc]

/-- R15, R16. What judging an image makes of the boot state. -/
theorem judgeImage_eq (s : State) (rsaOk slhOk : Bool) (v : Nat) : s.judgeImage rsaOk slhOk v = s.modBoot fun b =>
    if rsaOk = true ∧ slhOk = true ∧ s.fuses.minVersion ≤ v then { b with status := .stage 1, image := some v }
    else if b.tried = 0 then { b with tried := 1 } else { b with tried := 2, status := .failed 0 } := by
  unfold State.judgeImage State.modBoot
  simp only [accepts_iff]
  split
  · rfl
  · split <;> rfl

theorem exec_firmwareImageReceived (s : State) (rsaOk slhOk : Bool) (v : Nat) (h0 : s.boot.status = .stage 0)
    (hp : s.boot.pending = none) : exec (.firmwareImageReceived rsaOk slhOk v) s = .next (s.judgeImage rsaOk slhOk v) := by
  show execFirmwareImageReceived rsaOk slhOk v s = _
  simp [execFirmwareImageReceived, event, h0, hp]

theorem exec_diePowerUp (s : State) (h1 : s.boot.status = .stage 1) (hn : s.boot.diesUp < 8)
    (ht : s.boot.diesUp = 0 ∨ s.boot.dieAt + 2000000 ≤ s.time) :
    exec .diePowerUp s = .next (s.modBoot fun b => { b with diesUp := b.diesUp + 1, dieAt := s.time }) := by
  show execDiePowerUp s = _
  simp [execDiePowerUp, event, h1, hn, ht]

theorem exec_clusterPowerUp (s : State) (die : Nat) (h1 : s.boot.status = .stage 1) (hd : die < s.boot.diesUp)
    (hn : s.boot.clustersUp.getD die 8 < 8)
    (ht : s.boot.clustersUp.getD die 8 = 0 ∨ s.boot.clusterAt.getD die 0 + 50000 ≤ s.time) :
    exec (.clusterPowerUp die) s = .next (s.modBoot fun b =>
      { b with clustersUp := b.clustersUp.set die (s.boot.clustersUp.getD die 8 + 1), clusterAt := b.clusterAt.set die s.time }) := by
  show execClusterPowerUp die s = _
  simp only [execClusterPowerUp, event, h1, beq_self_eq_true, decide_eq_true hd, decide_eq_true hn, Bool.and_self,
    Bool.true_and, Bool.or_eq_true, beq_iff_eq, decide_eq_true_eq, if_pos ht]

theorem exec_columnRampStep (s : State) (cl : Nat) (hr : s.boot.ramping.getD cl false = true)
    (ht : s.boot.columnAt.getD cl 0 + 175 ≤ s.cycle) :
    exec (.columnRampStep cl) s = .next (s.modBoot fun b =>
      { b with
        columns := b.columns.set cl (min 128 (s.boot.columns.getD cl 128 + 16))
        columnAt := b.columnAt.set cl s.cycle
        ramping := b.ramping.set cl (decide (s.boot.columns.getD cl 128 + 16 < 128)) }) := by
  show execColumnRampStep cl s = _
  simp only [execColumnRampStep, event, hr, decide_eq_true ht, Bool.and_self, if_true]

/-- R17. A stage fails. -/
theorem exec_bootStageComplete_false (s : State) (n : Nat) (h : s.boot.status = .stage n) :
    exec (.bootStageComplete false) s = .next (s.modBoot fun b => { b with status := .failed n }) := by
  show execBootStageComplete false s = _
  simp [execBootStageComplete, event, h]

/-- R17. A stage ends where it is done: its effect, and the next stage. -/
theorem exec_bootStageComplete_true (s : State) (n : Nat) (h : s.boot.status = .stage n) :
    exec (.bootStageComplete true) s = .next (if s.stageDone n = true then
      (s.stageEffect n).modBoot fun b => { b with status := if n = 5 then .ready else .stage (n + 1) } else s) := by
  show execBootStageComplete true s = _
  simp only [execBootStageComplete, event, h, Bool.not_true, Bool.false_eq_true, if_false]

theorem stageDone_one (s : State) (hd : s.boot.diesUp = 8) (hc : ∀ k ∈ s.boot.clustersUp, k = 8) : s.stageDone 1 = true := by
  simpa [State.stageDone, hd] using hc

/-- R17, log 81. Stage 4 is done where every port with a peer has agreed its first keys. -/
theorem stageDone_four (s : State) :
    s.stageDone 4 = true ↔ ∀ p ∈ s.ports.zipIdx, p.1.agreed = true ∨ Config.attached p.2 = none := by
  simp only [State.stageDone, List.all_eq_true, Bool.or_eq_true, Option.isNone_iff_eq_none]

/-- Settles O43, event by event. -/
theorem bootAdvances : Obligations.BootAdvances := by
  refine ⟨fun s => ?reset, fun s rsaOk slhOk v h0 hp => ?image, exec_diePowerUp, exec_clusterPowerUp, fun s n h => ?stage,
    exec_columnRampStep⟩
  case reset =>
    refine ⟨_, exec_deviceReset s, rfl, rfl, rfl, rfl, rfl, fun c => restart_ctxs_free s s.fuses false, ?_, ?_, ?_⟩ <;> simp
  case image => rw [exec_firmwareImageReceived s rsaOk slhOk v h0 hp, judgeImage_eq]
  case stage =>
    have ends := exec_bootStageComplete_true s n h
    refine ⟨exec_bootStageComplete_false s n h, ?_, ?_, ?_, ?_, ?_⟩
    · rintro rfl hd hc
      rw [ends, if_pos (stageDone_one s hd hc)]; rfl
    · rintro rfl; exact ends
    · rintro rfl; exact ends
    · rintro rfl
      rw [ends]
      simp only [stageDone_four]; rfl
    · rintro rfl; exact ends

end Boot

/-! ## Lifecycle, the management port and bank sparing (R14, R16, R18, R19, R198) -/

section Management

/-- R18, log 82. An authorised request in READY starts boot ROM on the new fuses, wiped. -/
theorem exec_lifecycleTransition (s : State) (target : BitVec 2) (signer : Nat) (key : BitVec 384) (hr : s.boot.status = .ready)
    (ht : transitionSigner s.fuses.lifecycle (lifecycleOf target.toNat) = some signer) :
    exec (.lifecycleTransition target signer true key) s =
      .next (s.restart (s.fuses.burnState (lifecycleOf target.toNat) key) true) := by
  show execLifecycleTransition target signer true key s = _
  simp [execLifecycleTransition, event, hr, ht]

/-- R18. A request without authority changes nothing. -/
theorem exec_lifecycleTransition_refused (s : State) (target : BitVec 2) (signer : Nat) (sigOk : Bool) (key : BitVec 384)
    (h : sigOk = false ∨ transitionSigner s.fuses.lifecycle (lifecycleOf target.toNat) ≠ some signer) :
    exec (.lifecycleTransition target signer sigOk key) s = .next s := by
  show execLifecycleTransition target signer sigOk key s = _
  rcases h with rfl | h
  · simp [execLifecycleTransition, event]
  · simp [execLifecycleTransition, event, h]

/-- Table 1.4. A transition that someone may authorise leads to another state, and never back to MANUFACTURE. -/
theorem transition_ne {src dst : Lifecycle} {signer : Nat} (h : transitionSigner src dst = some signer) :
    dst ≠ src ∧ dst ≠ .manufacture := by
  cases src <;> cases dst <;> simp_all [transitionSigner]

/-- R19. Completing the wipe of a state other than MANUFACTURE burns its WIPE_DONE and no other fuse. -/
theorem burnDone_eq (f : Fuses) (h : f.lifecycle ≠ .manufacture) :
    f.burnDone = { f with wipeDone := f.wipeDone.set (f.lifecycle.code - 1) true } := by
  rw [Fuses.burnDone, if_neg (by simpa using h)]

/-- R198. The corrected errors of a bank in the last hour, those just reported included. -/
theorem bankErrors_eq (stack bank : Nat) (l : List BankErrors) : bankErrors stack bank l =
    ((l.filter fun (e : BankErrors) => e.stack = stack ∧ e.bank = bank).map BankErrors.count).sum := by
  simp [bankErrors, Bool.decide_and, beq_eq_decide]

/-- A value put at the end of a list where a condition holds and it is not there yet. -/
theorem mem_appendNew {α : Type} [BEq α] [LawfulBEq α] (l : List α) (y : α) (p : Prop) [Decidable p] (x : α) :
    x ∈ (if (decide p && !l.contains y) = true then l ++ [y] else l) ↔ x ∈ l ∨ (x = y ∧ p) := by
  by_cases hp : p
  · by_cases hy : y ∈ l
    · have hx : x = y → x ∈ l := fun e => e ▸ hy
      simpa [hp, hy] using hx
    · simp [hp, hy]
  · simp [hp]

/-- Settles O44, event by event. -/
theorem managementActs : Obligations.ManagementActs := by
  refine ⟨fun s target signer sigOk key => ⟨?transition, exec_lifecycleTransition_refused s target signer sigOk key⟩,
    fun s h => ?status, fun s r q v h => ?update, fun s h hf => ?live, fun s stack bank errors => ?sparing⟩
  case transition =>
    rintro hr rfl ht
    obtain ⟨hsrc, hman⟩ := transition_ne ht
    refine ⟨_, exec_lifecycleTransition s target signer key hr ht, ?_⟩
    rw [restart_fuses, Bool.true_or, if_pos rfl, burnDone_eq _ hman]
    exact ⟨rfl, rfl, rfl, rfl, rfl, rfl, rfl, fun e => hsrc (congrArg IdentityKey.state e), rfl,
      fun c => restart_ctxs_free s _ true⟩
  case status =>
    show execMctpStatusRequest s = _
    unfold execMctpStatusRequest
    cases hs : s.boot.status with
    | off => exact absurd hs h
    | stage n => rfl
    | failed n => rfl
    | ready => rfl
  case update =>
    show execPldmFirmwareUpdate r q v s = _
    simp only [execPldmFirmwareUpdate, beq_iff_eq, if_neg h]; rfl
  case live =>
    have hl : s.mgmtLive = true := by
      unfold State.mgmtLive
      cases hs : s.boot.status with
      | off => exact absurd hs h
      | failed n => exact absurd hs (hf n)
      | stage n => rfl
      | ready => rfl
    exact ⟨congrArg event (if_pos hl), fun slot => congrArg event (if_pos hl)⟩
  case sparing =>
    refine ⟨_, rfl, rfl, rfl, fun x => ?_, rfl⟩
    rw [← bankErrors_eq]
    exact mem_appendNew s.boot.spared (stack, bank)
      (s.boot.eccThreshold < bankErrors stack bank (lastHour s.time (⟨stack, bank, s.time, errors⟩ :: s.boot.eccs))) x

end Management

/-! ## Fetch traps are not counted as issues (R203, R204, R116) -/

section FetchTrap

/-- A member of two that issue back to back: thread 0 of the one group of the ready machine. -/
def oddMember : Member := { group := readyGroup.key, set := [0], picked := true, upset := none }

/-- The ready machine with a handler installed, where thread 0 has run past the last PC (R204, log 77). -/
def pastLast : State :=
  ((({ State.reset with merging := [oddMember, oddMember] } : State).makeReady.modCtx 0 fun c =>
    { c with trapVec := ⟨1, []⟩ }).modThread 0 0 fun th => { th with pc := 0xFFFFFFFF })

/-- The state in which the step issues the first of the two. -/
def pastLastIssuing : State := { pastLast with merging := [oddMember] }

/-- Its group. -/
def pastLastGroup : Group := readyGroup.modThread 0 fun th => { th with pc := 0xFFFFFFFF }

/-- The issue count (R116) of group 0 in the state that a step ends in. -/
def issuesAfter (o : Host.Outcome State Fault Refusal) : Option Nat :=
  match o with
  | .next s => s.groups[0]?.map Group.issues
  | _ => none

theorem pastLast_begins : Begins pastLast pastLastIssuing oddMember 0 pastLastGroup where
  running := by decide
  picked := .inl ⟨[oddMember], rfl, rfl⟩
  index := by decide +kernel
  group := by decide +kernel
  free := by decide +kernel
  nonempty := by decide
  ready := by decide

/-- R203, R204. An issue whose fetch traps takes the trap in the state as it was: only an instruction, or a word that is none, is
counted. -/
theorem issueGroup_of_fetchFault (s : State) (g : Nat) (gr : Group) (set : List Nat) (picked : Bool) (u : Option Upset)
    (k : BitVec 8) (d : Word) (hb : s.breakAt gr (pcOf gr set) set = none)
    (hf : s.fetchAt gr.key.ctx (pcOf gr set) = .fault k d) :
    s.issueGroup g gr set picked u = .done (s.takeTrap g set (set.headD 0) k d) := by
  rw [pcOf] at hb hf
  simp only [State.issueGroup, hb, hf]

theorem fetchAt_odd (s : State) (c : Nat) (pc : Word) (h : pc.getLsbD 0 = true) :
    s.fetchAt c pc = .fault tPerm (shownPc pc) := if_pos h

theorem pastLast_noBreak : pastLastIssuing.breakAt pastLastGroup (pcOf pastLastGroup oddMember.set) oddMember.set = none := by
  decide +kernel

theorem pastLast_plan : pastLast.plan = .done (pastLastIssuing.takeTrap 0 [0] 0 tPerm 0) := by
  have hplan : pastLast.plan = pastLastIssuing.issueGroup 0 pastLastGroup oddMember.set true none := by decide +kernel
  rw [hplan, issueGroup_of_fetchFault _ _ _ _ _ _ _ _ pastLast_noBreak (fetchAt_odd _ _ _ (by decide))]
  rfl

/-- The model's step leaves the issue count as it was. -/
theorem pastLast_step : issuesAfter (step pastLast) = some 0 := by
  rw [step, pastLast_plan]
  decide +kernel

/-- Refutes O3: of the traps of a fetch the statement asks that the issue is counted in the group (R116) before the trap is
taken, and the model counts it for ILLEGAL_OP alone: at a PC past the last it takes PERM with the count as it was. The step of
`pastLast` leaves the issue count 0, where the statement asks for 1. -/
theorem not_stepRunsDecoded : ¬ Obligations.StepRunsDecoded := by
  intro h
  obtain ⟨member, -⟩ := h
  obtain ⟨runs, -⟩ := member pastLast pastLastIssuing oddMember 0 pastLastGroup pastLast_begins
  obtain ⟨-, perm, -⟩ := runs pastLast_noBreak
  have hstep := congrArg issuesAfter (perm (by decide))
  rw [pastLast_step] at hstep
  revert hstep
  decide +kernel

end FetchTrap

end Sys2Proof.Proofs

namespace Sys2Proof.Proofs

open Sys2Proof.Machine Sys2Proof.Laws

/-! # The loop fabric (spec/02_loop_fabric.md)

## Ports, slots and tags: what a read gives after a write (R22 to R28) -/

section FabricState

/-- A change of the fabric is what it makes of the fabric that the state has. -/
theorem modFabric_congr {s : State} {f g : Fabric → Fabric} (h : f s.fabric = g s.fabric) : s.modFabric f = s.modFabric g :=
  congrArg (fun x => { s with fabric := x }) h

/-- A list of exceptions to a default value: what is found for a key is one for that key, as the default value is. -/
theorem find?_getD_spec {α : Type} (p : α → Bool) (l : List α) (d : α) (hd : p d = true) : p ((l.find? p).getD d) = true := by
  cases h : l.find? p with
  | none => exact hd
  | some a => exact List.find?_some h

/-- A list of exceptions to a default value: what is put in front for a key is what is found for that key. -/
theorem find?_cons_getD {α : Type} (p : α → Bool) (a : α) (l : List α) (d : α) (ha : p a = true) :
    ((a :: l).find? p).getD d = a := by
  rw [List.find?_cons_of_pos ha, Option.getD_some]

theorem port_isAt (f : Fabric) (die st : Nat) : (f.port die st).isAt die st = true :=
  find?_getD_spec (InjPort.isAt · die st) f.ports _ (by simp [InjPort.isAt])

@[simp] theorem port_die (f : Fabric) (die st : Nat) : (f.port die st).die = die :=
  beq_iff_eq.1 (Bool.and_eq_true_iff.1 (port_isAt f die st)).1

@[simp] theorem port_st (f : Fabric) (die st : Nat) : (f.port die st).st = st :=
  beq_iff_eq.1 (Bool.and_eq_true_iff.1 (port_isAt f die st)).2

theorem port_putPort_self (f : Fabric) (q : InjPort) : (f.putPort q).port q.die q.st = q :=
  find?_cons_getD (InjPort.isAt · q.die q.st) q _ _ (by simp [InjPort.isAt])

@[simp] theorem putSlot_port (f : Fabric) (x : Slot) (die st : Nat) : (f.putSlot x).port die st = f.port die st := rfl
@[simp] theorem putSlot_tagOf (f : Fabric) (x : Slot) (k : StreamKey) : (f.putSlot x).tagOf k = f.tagOf k := rfl
@[simp] theorem putPort_tagOf (f : Fabric) (q : InjPort) (k : StreamKey) : (f.putPort q).tagOf k = f.tagOf k := rfl

/-- R23, R28. The slot that passes a station is one of the station's loop, at the index of the f-cycle. -/
theorem slotAt_isAt (s : State) (spine : Bool) (die st loop : Nat) : (s.slotAt spine die st loop).isAt spine die loop
    (slotIndex spine (position spine die st loop) s.fcycle) = true := by
  refine find?_getD_spec (Slot.isAt · spine die loop (slotIndex spine (position spine die st loop) s.fcycle)) s.fabric.slots _ ?_
  cases spine <;> simp [Slot.isAt]

/-- A flit put into the slot that passes a station is what the station finds there. -/
theorem slotAt_putSlot_flit (s : State) (g : Fabric → Fabric) (spine : Bool) (die st loop : Nat) (fl : Flit)
    (r : Option (Nat × Nat)) :
    (s.modFabric fun f => (g f).putSlot { s.slotAt spine die st loop with flit := some fl, reserved := r }).slotAt
      spine die st loop = { s.slotAt spine die st loop with flit := some fl, reserved := r } := by
  exact find?_cons_getD (Slot.isAt · spine die loop (slotIndex spine (position spine die st loop) s.fcycle)) _ _ _
    (slotAt_isAt s spine die st loop)

theorem tagOf_key (f : Fabric) (k : StreamKey) : (f.tagOf k).key = k :=
  beq_iff_eq.1 (find?_getD_spec (fun t : StreamTag => t.key == k) f.tags _ (beq_self_eq_true k))

/-- R27. A packet that starts uses up a tag of its stream. -/
theorem startPacket_next (f : Fabric) (k : StreamKey) (n : Nat) :
    ((f.startPacket k n).2.tagOf k).next = (f.tagOf k).next + 1 :=
  congrArg StreamTag.next (find?_cons_getD (fun t : StreamTag => t.key == k)
    { f.tagOf k with next := (f.tagOf k).next + 1, startedAt := n } _ _ (beq_iff_eq.2 (tagOf_key f k)))

theorem queueOf_setQueue_self (q : InjPort) (c : Nat) (l : List Sending) : (q.setQueue c l).queueOf c = l := by
  unfold InjPort.queueOf InjPort.setQueue
  split_ifs <;> rfl

@[simp] theorem setQueue_die (q : InjPort) (c : Nat) (l : List Sending) : (q.setQueue c l).die = q.die := by
  unfold InjPort.setQueue
  split_ifs <;> rfl

@[simp] theorem setQueue_st (q : InjPort) (c : Nat) (l : List Sending) : (q.setQueue c l).st = q.st := by
  unfold InjPort.setQueue
  split_ifs <;> rfl

end FabricState

/-! ## Injection and reservation (R27, R28, R38) -/

section Inject

/-- R28. A usable slot is empty, and not reserved by another station. -/
theorem usable_iff (x : Slot) (die st : Nat) :
    x.usable die st = true ↔ x.flit = none ∧ (x.reserved = none ∨ x.reserved = some (die, st)) := by
  simp [Slot.usable]

/-- R27. The tag of a packet whose next flit is injected, and the fabric in which that flit goes: a packet that starts takes the
next tag of its stream. -/
def begun (f : Fabric) (k : StreamKey) (y : Sending) (n : Nat) : BitVec 8 × Fabric :=
  if y.sent = 0 then f.startPacket k n else (y.tag, f)

theorem begun_tag (f : Fabric) (k : StreamKey) (y : Sending) (n : Nat) :
    (begun f k y n).1 = if y.sent = 0 then (f.tagOf k).next else y.tag := by
  unfold begun; split <;> rfl

theorem begun_gens (f : Fabric) (k : StreamKey) (y : Sending) (n : Nat) : (begun f k y n).2.gens = f.gens := by
  unfold begun; split <;> rfl

theorem begun_next (f : Fabric) (k : StreamKey) (y : Sending) (n : Nat) :
    ((begun f k y n).2.tagOf k).next = (f.tagOf k).next + if y.sent = 0 then 1 else 0 := by
  unfold begun
  split
  · exact startPacket_next f k n
  · exact (BitVec.add_zero _).symm

/-- R28. The flit of a port's next packet goes into the slot, and the packet stays in its queue, one flit further, until its last
flit is injected. -/
theorem inject_eq (f : Fabric) (q : InjPort) (x : Slot) (c n : Nat) (y : Sending) (rest : List Sending)
    (hq : q.queueOf c = y :: rest) (hm : y.sent = 0 → f.mayStart y.spine (streamOf q.die q.st y.packet) n = true) :
    let b := begun f (streamOf q.die q.st y.packet) y n
    ∃ q' : InjPort, q'.die = q.die ∧ q'.st = q.st ∧
      q'.queueOf c = (if decide (y.sent + 1 = y.packet.body.length) = true then rest
        else { y with tag := b.1, sent := y.sent + 1 } :: rest) ∧
      f.inject q x c n = (b.2.putPort q').putSlot { x with
        flit := some (flitOf q.die q.st (f.gens.getD y.packet.part 0) { y with tag := b.1 }), reserved := none } := by
  have hstart : (decide (y.sent = 0) && !f.mayStart y.spine (streamOf q.die q.st y.packet) n) = false := by
    by_cases h : y.sent = 0
    · simp [h, hm h]
    · simp [h]
  unfold Fabric.inject
  simp only [hq, hstart, Bool.false_eq_true, if_false]
  rw [← begun, begun_gens]
  refine ⟨_, ?_, ?_, ?_, rfl⟩
  · simp
  · simp
  · exact queueOf_setQueue_self q c _

/-- R38. A packet that may not start yet leaves the slot, and its port waits anew. -/
theorem inject_paced (f : Fabric) (q : InjPort) (x : Slot) (c n : Nat) (y : Sending) (rest : List Sending)
    (hq : q.queueOf c = y :: rest) (h0 : y.sent = 0) (hm : f.mayStart y.spine (streamOf q.die q.st y.packet) n = false) :
    f.inject q x c n = (f.putPort { q with waiting := none }).unreserve { q with waiting := none } x := by
  simp [Fabric.inject, hq, h0, hm]

/-- R28. A station's own reserved slot that passes it empty is given up. -/
theorem unreserve_own (f : Fabric) (q : InjPort) (x : Slot) (he : x.flit = none) (hr : x.reserved = some (q.die, q.st)) :
    f.unreserve q x =
      (f.putPort { q with reserving := q.reserving.erase (x.spine, x.loop) }).putSlot { x with reserved := none } := by
  simp [Fabric.unreserve, he, hr]

variable (s : State) (spine : Bool) (die st loop : Nat)

/-- A unit that hands over no packet leaves the state as it is. -/
theorem handOver_nil : s.handOver die st [] = s := rfl

theorem exec_flitInject_idle (h : seated spine die st loop = true) (hn : (s.fabric.port die st).nextOn spine loop = none) :
    exec (.flitInject spine die st loop []) s =
      .next (s.modFabric fun f => f.unreserve (s.fabric.port die st) (s.slotAt spine die st loop)) := by
  show execFlitInject spine die st loop [] s = _
  simp [execFlitInject, event, h, handOver_nil, hn]

theorem exec_flitInject_usable (c : Nat) (h : seated spine die st loop = true)
    (hn : (s.fabric.port die st).nextOn spine loop = some c) (hu : (s.slotAt spine die st loop).usable die st = true) :
    exec (.flitInject spine die st loop []) s =
      .next (s.modFabric fun f => f.inject (s.fabric.port die st) (s.slotAt spine die st loop) c s.fcycle) := by
  show execFlitInject spine die st loop [] s = _
  simp [execFlitInject, event, h, handOver_nil, hn, hu]

theorem exec_flitInject_wait (c : Nat) (h : seated spine die st loop = true)
    (hn : (s.fabric.port die st).nextOn spine loop = some c) (hu : (s.slotAt spine die st loop).usable die st = false) :
    exec (.flitInject spine die st loop []) s =
      .next (s.modFabric fun f => f.putPort ((s.fabric.port die st).waitFor spine loop s.fcycle)) := by
  show execFlitInject spine die st loop [] s = _
  simp [execFlitInject, event, h, handOver_nil, hn, hu]

theorem exec_slotReserve (c w : Nat) (h : seated spine die st loop = true)
    (hn : (s.fabric.port die st).nextOn spine loop = some c) (hw : (s.fabric.port die st).waiting = some (spine, loop, w))
    (hl : w + lap spine ≤ s.fcycle) (hnot : (spine, loop) ∉ (s.fabric.port die st).reserving)
    (hr : (s.slotAt spine die st loop).reserved = none) :
    exec (.slotReserve spine die st loop) s = .next (s.modFabric fun f =>
      (f.putPort { s.fabric.port die st with reserving := (spine, loop) :: (s.fabric.port die st).reserving }).putSlot
        { s.slotAt spine die st loop with reserved := some (die, st) }) := by
  show execSlotReserve spine die st loop s = _
  simp [execSlotReserve, event, h, hn, hw, hl, hnot, hr]

end Inject

/-- Settles O45: an event of the injection port is one of three cases, by the port's next flit and the slot; an injection is
`inject_eq`. -/
theorem flitsInject : Obligations.FlitsInject := by
  refine ⟨fun s spine die st loop c y rest => ?inject, fun s spine die st loop => ?other,
    fun s spine die st loop c w => exec_slotReserve s spine die st loop c w⟩
  case inject =>
    intro q x k hseat hnext hq hempty hres hstart tag last
    have hd : q.die = die := port_die s.fabric die st
    have hs : q.st = st := port_st s.fabric die st
    have hgo := exec_flitInject_usable s spine die st loop c hseat hnext ((usable_iff x die st).2 ⟨hempty, hres⟩)
    obtain ⟨q', hd', hs', hqueue, hinj⟩ := inject_eq s.fabric q x c s.fcycle y rest hq (by rwa [hd, hs])
    rw [hd, hs] at hinj hqueue
    have htag : (begun s.fabric k y s.fcycle).1 = tag := begun_tag s.fabric k y s.fcycle
    refine ⟨_, _, hgo.trans (congrArg Host.Outcome.next (modFabric_congr (g := fun _ => _) hinj)),
      slotAt_putSlot_flit s (fun _ => _) spine die st loop _ none, rfl, rfl, rfl, rfl, htag, rfl, rfl, rfl, rfl, rfl, ?_, ?_, rfl⟩
    · rw [modFabric_fabric, putSlot_tagOf, putPort_tagOf]; exact begun_next s.fabric k y s.fcycle
    · rw [modFabric_fabric, putSlot_port, ← hd'.trans hd, ← hs'.trans hs, port_putPort_self, hqueue, htag]
  case other =>
    intro q x hseat
    have hd : q.die = die := port_die s.fabric die st
    have hs : q.st = st := port_st s.fabric die st
    refine ⟨fun c hnext hu => exec_flitInject_wait s spine die st loop c hseat hnext hu, fun c y rest hnext hq hu h0 hm => ?_,
      fun hnext he hr => ?_⟩
    · rw [exec_flitInject_usable s spine die st loop c hseat hnext hu]
      exact congrArg Host.Outcome.next (modFabric_congr <| inject_paced s.fabric q x c s.fcycle y rest hq h0 (by rwa [hd, hs]))
    · rw [exec_flitInject_idle s spine die st loop hseat hnext]
      exact congrArg Host.Outcome.next (modFabric_congr <| unreserve_own s.fabric q x he (by rwa [hd, hs]))

/-! ## A flit at its destination (R30, R37, R41, Table 2.6) -/

section Arrive

theorem oldFlit_iff (s : State) (fl : Flit) : s.oldFlit fl = true ↔ fl.gen ≠ s.fabric.gens.getD fl.part.toNat 0 := by
  simp [State.oldFlit]

theorem oldFlit_eq_false {s : State} {fl : Flit} (h : fl.gen = s.fabric.gens.getD fl.part.toNat 0) : s.oldFlit fl = false :=
  bne_eq_false_iff_eq.2 h

variable (s : State) (x : Slot) (die st : Nat) (fl : Flit) (full busy : Bool)

/-- R42, log 85. On a stream that starts again at tag 0, an old flit is only counted. -/
theorem discardOld_ownsEnd (h : (s.part fl.part.toNat).ownsEnd (flitStream fl) = true) :
    s.discardOld x fl = (s.eject x).modFabric fun f => { f with stale := f.stale + 1 } := by
  simp [State.discardOld, h]

theorem refuse_eq (hx : x.flit = some fl) : s.refuse x = s.modFabric fun f => f.putSlot { x with
    flit := some { fl with refusals := fl.refusals + 1, refusedAt := some s.fcycle } } := by
  simp [State.refuse, hx]

theorem refuseAhead_eq (hx : x.flit = some fl) : s.refuseAhead x = s.modFabric fun f => f.putSlot { x with
    flit := some { fl with aheadSince := some (fl.aheadSince.getD s.fcycle), refusals := fl.refusals + 1,
                           refusedAt := some s.fcycle } } := by
  simp [State.refuseAhead, State.refuse, hx]

/-- R41. An old flit is discarded. -/
theorem atDestination_old (h : fl.gen ≠ s.fabric.gens.getD fl.part.toNat 0) :
    s.atDestination x die st fl full busy = s.discardOld x fl :=
  if_pos ((oldFlit_iff s fl).2 h)

section Current

variable (hgen : fl.gen = s.fabric.gens.getD fl.part.toNat 0)
include hgen

theorem atDestination_behind (ht : tagStand fl.tag (s.fabric.context (flitStream fl)).expected = 2) :
    s.atDestination x die st fl full busy = (s.eject x).modFabric fun f => { f with stale := f.stale + 1 } := by
  simp [State.atDestination, oldFlit_eq_false hgen, ht]

theorem atDestination_ahead (ht : tagStand fl.tag (s.fabric.context (flitStream fl)).expected = 1) :
    s.atDestination x die st fl full busy = s.refuseAhead x := by
  simp [State.atDestination, oldFlit_eq_false hgen, ht]

theorem atDestination_expected (ht : fl.tag = (s.fabric.context (flitStream fl)).expected) (hk : fl.cls ≠ 2) :
    s.atDestination x die st fl full busy = if refuses fl full busy then s.refuse x
      else (s.eject x).acceptFlit die st fl (s.fabric.context (flitStream fl)) := by
  have hstand : tagStand fl.tag (s.fabric.context (flitStream fl)).expected = 0 := if_pos ht
  simp only [State.atDestination, oldFlit_eq_false hgen, hstand, if_neg hk, Bool.false_eq_true, if_false]

end Current

/-- R31. Any unit but a link or spine station receives a whole packet. -/
theorem deliverPacket_unit (body : List (BitVec 1024)) (h : st < 54) : s.deliverPacket die st fl body =
    s.modFabric fun f => { f with delivered := ⟨die, st, fl.cls, fl.part.toNat, body⟩ :: f.delivered } := by
  have hspine : ¬ (57 ≤ st ∧ st ≤ 60) := by omega
  have hlink : ¬ 54 ≤ st := by omega
  simp [State.deliverPacket, hspine, hlink]

theorem acceptFlit_held (c : Reassembly) (h : wholePacket (c.held ++ [fl]) = false) :
    s.acceptFlit die st fl c = s.modFabric fun f => f.putContext { c with held := c.held ++ [fl], lastAt := s.fcycle } := by
  simp [State.acceptFlit, h]

theorem acceptFlit_whole (c : Reassembly) (h : wholePacket (c.held ++ [fl]) = true) :
    s.acceptFlit die st fl c =
      (s.modFabric fun f => f.putContext c.advance).deliverPacket die st fl (inOrder (c.held ++ [fl])) := by
  simp [State.acceptFlit, h]

variable (spine : Bool) (loop : Nat)

theorem exec_flitAtDestination (hx : (s.slotAt spine die st loop).flit = some fl) (h : seated spine die st loop = true)
    (hd : fl.dstDie.toNat = die) (hs : fl.dstSt.toNat = st) : exec (.flitAtDestination spine die st loop full busy) s =
      .next (if fl.refusedAt = some s.fcycle then s
        else s.atDestination (s.slotAt spine die st loop) die st fl full busy) := by
  show execFlitAtDestination spine die st loop full busy s = _
  simp only [execFlitAtDestination, event, hx, h, hd, hs, beq_self_eq_true, Bool.and_self, Bool.true_and, bne_iff_ne, ite_not]

end Arrive

/-! ## Errors (R27, R193, logs 38 and 86) -/

section Errors

/-- An error of a flit that carries no work is only reported. -/
theorem fabricError_none (s : State) (part : Nat) :
    s.fabricError part none = s.modFabric fun f => { f with reports := .uncorrectable part :: f.reports } := rfl

/-- An error of a flit that carries work is a machine check of the thread that sent it. -/
theorem fabricError_some (s : State) (part : Nat) (o : PktOwner) (g : Nat) (h : s.groupIdx? o.group = some g) :
    s.fabricError part (some o) =
      (s.modFabric fun f => { f with reports := .uncorrectable part :: f.reports }).machineCheck g o.thread 4 := by
  have h' : (s.modFabric fun f => f.report (.uncorrectable part)).groupIdx? o.group = some g := h
  simp only [State.fabricError, Option.bind_some, h', Option.map_some]
  rfl

variable (s : State) (spine : Bool) (die st loop : Nat) (h : seated spine die st loop = true)
include h

theorem exec_flitPassStation_none : exec (.flitPassStation spine die st loop .none) s = .next s := by
  show execFlitPassStation spine die st loop .none s = _
  simp [execFlitPassStation, event, h]

theorem exec_flitPassStation_corrected : exec (.flitPassStation spine die st loop .corrected) s =
    .next (s.modFabric fun f => { f with corrected := f.corrected + 1 }) := by
  show execFlitPassStation spine die st loop .corrected s = _
  simp [execFlitPassStation, event, h]

/-- R41. An old flit is discarded as such, its error reported. -/
theorem exec_flitPassStation_payload (fl : Flit) (hx : (s.slotAt spine die st loop).flit = some fl) :
    exec (.flitPassStation spine die st loop .payload) s = .next (if s.oldFlit fl
      then (s.discardOld (s.slotAt spine die st loop) fl).fabricError fl.part.toNat none
      else ((s.eject (s.slotAt spine die st loop)).modFabric fun f => f.abort (flitStream fl) fl.tag).fabricError
        fl.part.toNat fl.owner) := by
  show execFlitPassStation spine die st loop .payload s = _
  simp [execFlitPassStation, event, h, hx]

theorem exec_flitPassStation_sideband (fl : Flit) (hx : (s.slotAt spine die st loop).flit = some fl) :
    exec (.flitPassStation spine die st loop .sideband) s = .next ((s.eject (s.slotAt spine die st loop)).modFabric fun f =>
      { f with reports := .dieFault die :: f.reports }) := by
  show execFlitPassStation spine die st loop .sideband s = _
  simp [execFlitPassStation, event, h, hx, Fabric.report]

/-- R27. The header of a slot without a reservation clears the slot, and is a fault of the die where a flit is lost. -/
theorem exec_flitPassStation_header (hr : (s.slotAt spine die st loop).reserved = none) :
    exec (.flitPassStation spine die st loop .header) s = .next (s.modFabric fun f =>
      { f.putSlot { s.slotAt spine die st loop with flit := none } with
        headerLost := f.headerLost + 1
        reports := if (s.slotAt spine die st loop).flit.isSome then .dieFault die :: f.reports else f.reports }) := by
  show execFlitPassStation spine die st loop .header s = _
  cases hx : (s.slotAt spine die st loop).flit with
  | none => simp [execFlitPassStation, event, h, hx, hr, Fabric.lostReservation]; rfl
  | some fl => simp [execFlitPassStation, event, h, hx, hr, Fabric.lostReservation, Fabric.report]; rfl

end Errors

/-! ## Streams that stall (R37, rows 7 and 8 of Table 2.6) -/

section Timeouts

theorem idleFor_iff (s : State) (t : Nat) : s.idleFor t = true ↔ t + 65536 ≤ s.fcycle := decide_eq_true_iff

/-- Row 7. -/
theorem exec_reassemblyIdleTimeout (s : State) (die st srcDie srcSt : Nat) (cls : BitVec 2) (fl : Flit) (rest : List Flit)
    (hh : (s.fabric.context ⟨cls, srcDie, srcSt, die, st⟩).held = fl :: rest)
    (ht : (s.fabric.context ⟨cls, srcDie, srcSt, die, st⟩).lastAt + 65536 ≤ s.fcycle) :
    exec (.reassemblyIdleTimeout die st srcDie srcSt ⟨cls, none⟩) s = .next ((s.modFabric fun f =>
      { f.putContext (s.fabric.context ⟨cls, srcDie, srcSt, die, st⟩).advance with dropped := f.dropped + 1 }).fabricError
        fl.part.toNat fl.owner) := by
  show event (s.idleFabric ⟨cls, srcDie, srcSt, die, st⟩) = _
  simp [State.idleFabric, event, hh, (idleFor_iff s _).2 ht]

/-- The packet after one that is done is expected next, where no error has aborted it. -/
theorem advance_of_aborted_nil (c : Reassembly) (h : c.aborted = []) :
    c.advance = { c with expected := c.expected + 1, held := [] } := by
  simp [Reassembly.advance, h, Reassembly.pass]

/-- Row 8. A flit of a stream that passes its destination now, has stood ahead for 2^16 f-cycles, and the tag with which it does. -/
def StandsAhead (s : State) (k : StreamKey) (x : Slot) (fl : Flit) (tag : BitVec 8) : Prop :=
  x ∈ s.fabric.slots ∧ x.flit = some fl ∧ seated x.spine k.dstDie k.dstSt x.loop = true ∧
    x.isAt x.spine k.dstDie x.loop (slotIndex x.spine (position x.spine k.dstDie k.dstSt x.loop) s.fcycle) = true ∧
    fl.gen = s.fabric.gens.getD fl.part.toNat 0 ∧ aheadTag k (s.fabric.context k).expected fl = some tag ∧
    ∃ since, fl.aheadSince = some since ∧ since + 65536 ≤ s.fcycle

/-- Whether a slot holds such a flit, as REASSEMBLY_AHEAD_TIMEOUT computes it. -/
def aheadDue (s : State) (k : StreamKey) (x : Slot) : Bool :=
  match x.flit with
  | some fl => seated x.spine k.dstDie k.dstSt x.loop
      && x.isAt x.spine k.dstDie x.loop (slotIndex x.spine (position x.spine k.dstDie k.dstSt x.loop) s.fcycle)
      && !s.oldFlit fl && (aheadTag k (s.fabric.context k).expected fl).isSome && fl.aheadSince.any s.idleFor
  | none => false

theorem aheadDue_iff (s : State) (k : StreamKey) (x : Slot) (hx : x ∈ s.fabric.slots) :
    aheadDue s k x = true ↔ ∃ fl tag, StandsAhead s k x fl tag := by
  cases hf : x.flit with
  | none => simp [aheadDue, StandsAhead, hf]
  | some fl =>
    simp [aheadDue, StandsAhead, hf, hx, State.oldFlit, Option.isSome_iff_exists, Option.any_eq_true, idleFor_iff, and_assoc]

/-- The slot whose flit makes an IDLE context jump. -/
def aheadSlot (s : State) (k : StreamKey) : Option Slot :=
  if (s.fabric.context k).held.isEmpty then s.fabric.slots.find? (aheadDue s k) else none

theorem aheadSlot_eq_none {s : State} {k : StreamKey} (h : aheadSlot s k = none) (hh : (s.fabric.context k).held = []) :
    ∀ x fl tag, ¬ StandsAhead s k x fl tag := by
  intro x fl tag ha
  rw [aheadSlot, if_pos (by simp [hh]), List.find?_eq_none] at h
  exact h x ha.1 ((aheadDue_iff s k x ha.1).2 ⟨fl, tag, ha⟩)

theorem aheadSlot_eq_some {s : State} {k : StreamKey} {x : Slot} (h : aheadSlot s k = some x) :
    (s.fabric.context k).held = [] ∧ ∃ fl tag, StandsAhead s k x fl tag := by
  rw [aheadSlot, Option.ite_none_right_eq_some] at h
  obtain ⟨hh, hfind⟩ := h
  exact ⟨List.isEmpty_iff.1 hh, (aheadDue_iff s k x (List.mem_of_find?_eq_some hfind)).1 (List.find?_some hfind)⟩

variable (s : State) (die st srcDie srcSt : Nat) (cls : BitVec 2)

theorem exec_reassemblyAheadTimeout_none (h : aheadSlot s ⟨cls, srcDie, srcSt, die, st⟩ = none) :
    exec (.reassemblyAheadTimeout die st srcDie srcSt cls) s = .next s := by
  show execReassemblyAheadTimeout die st srcDie srcSt cls s = _
  refine congrArg Host.Outcome.next ?_
  dsimp only
  split
  · next x hx => cases h.symm.trans hx
  · rfl

/-- Row 8. The context jumps to the tag with which the flit stands ahead, and the flit is handled by the other rows. -/
theorem exec_reassemblyAheadTimeout_some (x : Slot) (fl : Flit) (tag : BitVec 8)
    (h : aheadSlot s ⟨cls, srcDie, srcSt, die, st⟩ = some x) (ha : StandsAhead s ⟨cls, srcDie, srcSt, die, st⟩ x fl tag) :
    exec (.reassemblyAheadTimeout die st srcDie srcSt cls) s = .next (((s.modFabric fun f =>
      { f.putContext ((s.fabric.context ⟨cls, srcDie, srcSt, die, st⟩).jump tag) with dropped := f.dropped + 1 }).atDestination
        x die st fl false false).fabricError fl.part.toNat fl.owner) := by
  obtain ⟨-, hx, -, -, -, ht, -⟩ := ha
  show execReassemblyAheadTimeout die st srcDie srcSt cls s = _
  refine congrArg Host.Outcome.next ?_
  dsimp only
  split
  · next x' hx' =>
    cases h.symm.trans hx'
    simp only [hx, ht, Option.bind_some, Option.map_some]
  · next hx' => cases h.symm.trans hx'

end Timeouts

/-- Settles O46: at a destination by the flit's generation and tag, at a station by the error, and by the two timeouts. -/
theorem flitsArrive : Obligations.FlitsArrive := by
  refine ⟨fun s spine die st loop full busy fl => ?arrive, fun s spine die st loop fl => ?pass,
    fun s spine die st loop => ?empty, fun s part => ⟨fabricError_none s part, fun o g => fabricError_some s part o g⟩,
    fun s die st srcDie srcSt cls fl rest => exec_reassemblyIdleTimeout s die st srcDie srcSt cls fl rest,
    advance_of_aborted_nil, fun s die st srcDie srcSt cls => ?ahead⟩
  case arrive =>
    intro x c gone now stale hx hseat hd hs
    have hnow : now = _ := exec_flitAtDestination s die st fl full busy spine loop hx hseat hd hs
    refine ⟨fun hr => by rw [hnow, if_pos hr], fun hr => ?_⟩
    rw [if_neg hr] at hnow
    have stands {t : State} (e : s.atDestination x die st fl full busy = t) : now = .next t :=
      hnow.trans (congrArg Host.Outcome.next e)
    refine ⟨fun hold hown => stands ?old, fun hgen => ⟨fun ht => stands ?behind, fun ht => stands ?early,
      fun ht hk href => stands ?refused, fun ht hk href => ⟨fun hw => stands ?held, fun hw hst => stands ?whole⟩⟩⟩
    case old => exact (atDestination_old s x die st fl full busy hold).trans (discardOld_ownsEnd s x fl hown)
    case behind => exact atDestination_behind s x die st fl full busy hgen ht
    case early => rw [atDestination_ahead s x die st fl full busy hgen ht, refuseAhead_eq s x fl hx]
    case refused => rw [atDestination_expected s x die st fl full busy hgen ht hk, if_pos href, refuse_eq s x fl hx]
    all_goals rw [atDestination_expected s x die st fl full busy hgen ht hk, if_neg (by simp [href])]
    case held => exact acceptFlit_held _ die st fl c hw
    case whole => exact (acceptFlit_whole _ die st fl c hw).trans (deliverPacket_unit _ die st fl _ hst)
  case pass =>
    intro x gone hx hseat
    have hpay := exec_flitPassStation_payload s spine die st loop hseat fl hx
    refine ⟨exec_flitPassStation_none s spine die st loop hseat, exec_flitPassStation_corrected s spine die st loop hseat,
      fun hgen => ?_, exec_flitPassStation_sideband s spine die st loop hseat fl hx, fun hold => ?_, fun hr => ?_⟩
    · rw [hpay, oldFlit_eq_false hgen]; rfl
    · rw [hpay, if_pos ((oldFlit_iff s fl).2 hold)]
    · rw [exec_flitPassStation_header s spine die st loop hseat hr, hx]; rfl
  case empty =>
    intro x hx hr hseat
    have hsame : { x with flit := none } = x := by rw [← hx]
    rw [exec_flitPassStation_header s spine die st loop hseat hr, hsame, hx]; rfl
  case ahead =>
    intro k c ahead now
    cases hslot : aheadSlot s k with
    | none =>
      refine ⟨fun _ => exec_reassemblyAheadTimeout_none s die st srcDie srcSt cls hslot, fun hh x fl tag ha => ?_⟩
      exact (aheadSlot_eq_none hslot hh x fl tag ha).elim
    | some x' =>
      obtain ⟨hh, fl', tag', ha⟩ := aheadSlot_eq_some hslot
      refine ⟨fun hno => (hno.elim (· hh) (· x' fl' tag' ha)).elim, fun _ _ _ _ _ => ⟨x', fl', tag', ha, ?_⟩⟩
      exact exec_reassemblyAheadTimeout_some s die st srcDie srcSt cls x' fl' tag' hslot ha

end Sys2Proof.Proofs

namespace Sys2Proof.Proofs

open Sys2Proof.Machine Sys2Proof.Safety Sys2Proof.Laws

/-! # Skovey links (spec/03_skovey_links.md)

## Parts of the state under an update -/

section Parts

/-- An update of one entry of a list is what it makes of that entry. -/
theorem modify_congr_getD {α : Type} (l : List α) (i : Nat) (d : α) {f g : α → α} (h : f (l.getD i d) = g (l.getD i d)) :
    l.modify i f = l.modify i g :=
  modify_congr l i f g fun x hx => by rwa [List.getD_eq_getElem?_getD, hx] at h

variable {s : State} {n : Nat}

theorem modPort_congr {f g : Port → Port} (h : f (s.port n) = g (s.port n)) : s.modPort n f = s.modPort n g :=
  congrArg (fun l => { s with ports := l }) (modify_congr_getD s.ports n {} h)

theorem modPart_congr {f g : Partition → Partition} (h : f (s.part n) = g (s.part n)) : s.modPart n f = s.modPart n g :=
  congrArg (fun l => { s with parts := l }) (modify_congr_getD s.parts n {} h)

/-- A partition whose update changes nothing. -/
theorem modPart_of_fixed {f : Partition → Partition} (h : f (s.part n) = s.part n) : s.modPart n f = s :=
  (modPart_congr (g := id) h).trans (congrArg (fun l => { s with parts := l }) (List.modify_id n s.parts))

theorem modPort_modPort (f g : Port → Port) : (s.modPort n f).modPort n g = s.modPort n fun p => g (f p) :=
  congrArg (fun l => { s with ports := l }) (modify_modify s.ports n f g)

theorem modPort_port_self (f : Port → Port) (h : n < s.ports.length) : (s.modPort n f).port n = f (s.port n) := by
  rw [modPort_port, if_pos ⟨rfl, h⟩]

theorem modPort_port_ne (f : Port → Port) {j : Nat} (h : j ≠ n) : (s.modPort n f).port j = s.port j := by
  rw [modPort_port, if_neg fun e => h e.1.symm]

/-- A port that is UP is one of the ports of the device: one beyond them reads as after reset. -/
theorem lt_of_up (h : (s.port n).up = true) : n < s.ports.length := by
  by_contra hn
  rw [State.port, List.getD_eq_default _ _ (by omega)] at h
  exact absurd h (by decide)

end Parts

/-! ## Lists of key slots and queues of a port (R46, R49) -/

section Slots

theorem getD_set_self {α : Type} (l : List α) (i : Nat) (x d : α) (h : i < l.length) : (l.set i x).getD i d = x := by
  simp [List.getD_eq_getElem?_getD, h]

theorem slotNum_lt (i : Bool) : slotNum i < 2 := by cases i <;> decide

theorem linkQueue_setQueue_self (p : Port) (c : Nat) (l : List LinkPacket) : (p.setQueue c l).queueOf c = l := by
  unfold Port.queueOf Port.setQueue
  split_ifs <;> rfl

/-- R45. A link packet that starts takes a tag of its class, and so changes the tags of its port alone. -/
theorem startLinkPacket_eq (p : Port) (c : Nat) (x : LinkPacket) :
    ∃ tags, (if x.sent = 0 then p.bumpTag c else p) = { p with tags := tags } := by
  split
  exacts [⟨_, rfl⟩, ⟨p.tags, rfl⟩]

end Slots

/-! ## The frame of a frame time (R46, R50, R53, R56, R57) -/

/-- R46, R50, R56. A sequenced flit goes under the key of slot i, from port p to p': it takes the next sequence number, is sealed
with the key's counter, which it uses up, and is held for replay. -/
structure FlitSent (i : Bool) (cls mark words : Nat) (body : BitVec 1856) (keysw : Option (Bool × Word)) (owner : Option PktOwner)
    (p p' : Port) : Prop where
  wire : let k := p.tx.getD (slotNum i) {}
    let h := linkHeader cls mark p.txSeq.toNat i true words (some (p.rxSeq.toNat % 16384)) false
    p'.wire = some ⟨h, (gcmSeal k.key k.iv h body).1, (gcmSeal k.key k.iv h body).2⟩
  seq : p'.txSeq = p.txSeq + 1
  key : let k := p.tx.getD (slotNum i) {}
    p'.tx = p.tx.set (slotNum i) { k with counter := k.counter + 1 }
  held : let h := linkHeader cls mark p.txSeq.toNat false true words none false
    p'.replay = p.replay ++ [⟨p.txSeq, h, body, keysw, owner⟩]

theorem FlitSent.tx_length {i : Bool} {cls mark words : Nat} {body : BitVec 1856} {keysw : Option (Bool × Word)}
    {owner : Option PktOwner} {p p' : Port} (h : FlitSent i cls mark words body keysw owner p p') :
    p'.tx.length = p.tx.length := by
  rw [h.key, List.length_set]

/-- What has gone does not depend on what is queued, or on the count of U flits since the last of B. -/
theorem FlitSent.setQueue {i : Bool} {cls mark words : Nat} {body : BitVec 1856} {keysw : Option (Bool × Word)}
    {owner : Option PktOwner} {p p' : Port} (h : FlitSent i cls mark words body keysw owner p p') (c : Nat)
    (l : List LinkPacket) (n : Nat) : FlitSent i cls mark words body keysw owner p { p'.setQueue c l with uSinceB := n } := by
  unfold Port.setQueue
  split_ifs <;> exact ⟨h.wire, h.seq, h.key, h.held⟩

section Send

variable {p : Port} {i : Bool} (hact : activeSlot p.tx = some i)
include hact

/-- R50. Under an ACTIVE key a frame is sealed with the key's counter, which it uses up. -/
theorem emit_of_active (cls mark seq : Nat) (sq : Bool) (words : Nat) (body : BitVec 1856) :
    let k := p.tx.getD (slotNum i) {}
    let h := linkHeader cls mark seq i sq words (some (p.rxSeq.toNat % 16384)) false
    p.emit cls mark seq sq words body = { p with
      wire := some ⟨h, (gcmSeal k.key k.iv h body).1, (gcmSeal k.key k.iv h body).2⟩
      tx := p.tx.set (slotNum i) { k with counter := k.counter + 1 } } := by
  simp only [Port.emit, hact]

/-- A new sequenced flit goes. -/
theorem sendNew_sent (cls mark words : Nat) (body : BitVec 1856) (keysw : Option (Bool × Word)) (owner : Option PktOwner) :
    FlitSent i cls mark words body keysw owner p (p.sendNew cls mark words body keysw owner) := by
  unfold Port.sendNew
  rw [emit_of_active hact]
  exact ⟨rfl, rfl, rfl, rfl⟩

/-- R46. The next flit of a class goes, and its packet stays in its queue, one flit further, until its last flit goes. -/
theorem sendClass_sent {c : Nat} {x : LinkPacket} {rest : List LinkPacket} (hq : p.queueOf c = x :: rest) :
    let tag := if x.sent = 0 then p.tags.getD c 0 else x.tag
    let last := decide (x.sent + 1 = x.bodies.length)
    let mark := (if x.sent = 0 then 512 else 0) + (if last = true then 256 else 0) + tag.toNat
    let words := if last = true then x.words else 29
    FlitSent i c mark words (x.bodies.getD x.sent 0) none x.owner p (p.sendClass c) ∧
      (p.sendClass c).queueOf c = if last = true then rest else { x with sent := x.sent + 1, tag := tag } :: rest := by
  intro tag last mark words
  obtain ⟨tags, hstart⟩ := startLinkPacket_eq p c x
  obtain ⟨n, hq'⟩ : ∃ n, p.sendClass c =
      { (({ p with tags := tags } : Port).sendNew c mark words (x.bodies.getD x.sent 0) none x.owner).setQueue c
        (if last = true then rest else { x with sent := x.sent + 1, tag := tag } :: rest) with uSinceB := n } := by
    simp only [Port.sendClass, hq, hstart]
    exact ⟨_, rfl⟩
  have hnew := sendNew_sent (p := { p with tags := tags }) hact c mark words (x.bodies.getD x.sent 0) none x.owner
  obtain ⟨hwire, hseq, hkey, hheld⟩ := hnew.setQueue c _ n
  rw [hq']
  exact ⟨⟨hwire, hseq, hkey, hheld⟩, linkQueue_setQueue_self ..⟩

theorem counter_of_active : p.counter = some (p.tx.getD (slotNum i) {}).counter := by
  simp [Port.counter, hact]

/-- R53. Below the switch point a sender sends the frame of R46. -/
theorem frame_of_below (h : (p.tx.getD (slotNum i) {}).counter < p.switchAt) (peerDie : Option Nat) (now : Nat) :
    p.frame peerDie now = p.sendFrame peerDie := by
  have hbelow : ¬ p.switchAt ≤ (p.tx.getD (slotNum i) {}).counter := Nat.not_le.2 h
  have hswitch : p.switchTo = none := by
    simp only [Port.switchTo, hact, decide_eq_false hbelow, Bool.false_and, Bool.false_eq_true, if_false, ite_self]
  have hlimit : ¬ p.limit - 1 ≤ (p.tx.getD (slotNum i) {}).counter := by
    unfold Port.switchAt at h
    omega
  simp only [Port.frame, hswitch, counter_of_active hact, if_neg hlimit, if_neg hbelow]

variable (hu : p.unseq = []) (hr : p.resend = none) (peerDie : Option Nat)
include hu hr

theorem sendFrame_of_class {c : Nat} (hl : p.replay.length < 64) (hc : p.nextClass = some c) :
    p.sendFrame peerDie = p.sendClass c := by
  simp [Port.sendFrame, hu, hr, Nat.not_le.2 hl, hact, hc]

/-- R46. A NULL flit goes with nothing to send, whether the replay buffer has room or not. -/
theorem sendFrame_of_idle (hc : p.nextClass = none) : p.sendFrame peerDie = p.sendNull := by
  simp [Port.sendFrame, hu, hr, hact, hc]

end Send

theorem exec_linkFrameSend {s : State} {n : Nat} (hup : (s.port n).up = true) : exec (.linkFrameSend n) s =
    .next (s.modPort n fun p => p.frame (Config.attached n) s.time) :=
  congrArg event (if_pos hup)

/-! ## What a received frame does (R50, R54, R55, R58) -/

section Receive

/-- R50. Counting a frame changes the counters of the receive slots alone. -/
theorem countFrame_eq (p : Port) (f : Frame) : ∃ rx, p.countFrame f = { p with rx := rx } := by
  unfold Port.countFrame
  split
  exacts [⟨p.rx, rfl⟩, ⟨_, rfl⟩]

variable {s : State} {n : Nat} {f : Frame} {body : BitVec 1856}

theorem exec_linkFlitReceive_flit (hup : (s.port n).up = true) (hauth : (s.port n).authenticate f = .flit body)
    (hack : hdrAck f.hdr = none) (room : Bool) : exec (.linkFlitReceive n f room) s =
      .next ((s.modPort n fun p => p.countFrame f).linkFlit n f.hdr body room) := by
  show execLinkFlitReceive n f room s = _
  simp [execLinkFlitReceive, event, hup, hauth, hack]

/-- R58. A flit of B or U that does not end its link packet is held. -/
theorem linkAccept_held (hc : (hdrCls f.hdr).toNat < 2) (hlast : hdrLast f.hdr = false) :
    let c := (hdrCls f.hdr).toNat
    let r := (s.port n).reasm.getD c {}
    hdrTag f.hdr = r.expected → s.linkAccept n f.hdr body = s.modPort n fun p =>
      { p with reasm := p.reasm.set c { r with held := r.held ++ [body], open' := true, lastAt := s.fcycle } } := by
  intro c r htag
  have hk : ¬ (hdrCls f.hdr).toNat = 2 := by omega
  simp only [State.linkAccept, htag, c, r, ne_eq, not_true_eq_false, if_false, hk, hlast, Bool.false_eq_true]

variable (hres : hdrReserved f.hdr = 0) (hsq : hdrSq f.hdr = true)
include hres hsq

/-- R55. A flit with the number that is expected is accepted where its class has room. -/
theorem linkFlit_expected (hseq : hdrSeq f.hdr = (s.port n).rxSeq) : s.linkFlit n f.hdr body true =
    ((s.modPort n fun p => { p with rxSeq := p.rxSeq + 1, dropping := false }).linkAccept n f.hdr body).modPort n Port.flows := by
  simp [State.linkFlit, hres, hsq, hseq]

/-- R55. A flit with another number is dropped, the first of them with NAK. -/
theorem linkFlit_unexpected (hseq : hdrSeq f.hdr ≠ (s.port n).rxSeq) (room : Bool) :
    s.linkFlit n f.hdr body room = s.modPort n fun p => p.dropFrame s.fcycle := by
  simp [State.linkFlit, hres, hsq, hseq]

end Receive

/-- Settles O47: the port after a frame time by the flit that goes, and after a received flit by its number. -/
theorem linkFlits : Obligations.LinkFlits := by
  refine ⟨fun s n i c x rest hn => ?send, fun s n i => ?null, fun s n f body => ?receive⟩
  case send =>
    intro p k tag last mark words body h hup hact hbelow hu hr hl htx hc hq
    obtain ⟨hsent, hqueue⟩ := sendClass_sent hact hq
    have hframe : p.frame (Config.attached n) s.time = p.sendClass c :=
      (frame_of_below hact hbelow _ _).trans (sendFrame_of_class hact hu hr _ hl hc)
    have hport : (s.modPort n fun p => p.frame (Config.attached n) s.time).port n = p.sendClass c :=
      (modPort_port_self _ hn).trans hframe
    refine ⟨_, exec_linkFrameSend hup, rfl, fun j hj => modPort_port_ne _ hj, ?_⟩
    rw [hport]
    refine ⟨hsent.wire, hsent.seq, ?_, hsent.held, hqueue⟩
    rw [hsent.key, getD_set_self _ _ _ _ (by rw [htx]; exact slotNum_lt i)]
  case null =>
    intro p k h hup hact hbelow hu hr hc
    refine (exec_linkFrameSend hup).trans (congrArg Host.Outcome.next (modPort_congr ?_))
    calc p.frame (Config.attached n) s.time
      _ = p.sendFrame (Config.attached n) := frame_of_below hact hbelow _ _
      _ = p.sendNull := sendFrame_of_idle hact hu hr _ hc
      _ = _ := emit_of_active hact 3 0 p.txSeq.toNat false 0 0
  case receive =>
    intro p q c r hup hauth hack hres hsq hc
    have hnext := exec_linkFlitReceive_flit hup hauth hack true
    obtain ⟨rx, hcount⟩ := countFrame_eq p f
    have hq : (s.modPort n fun p => p.countFrame f).port n = { p with rx := rx } :=
      (modPort_port_self _ (lt_of_up hup)).trans hcount
    refine ⟨fun hseq htag hlast => ?accept, fun hseq hdrop => ?drop⟩
    case accept =>
      have ht : (s.modPort n fun p => { p.countFrame f with rxSeq := (p.countFrame f).rxSeq + 1, dropping := false }).port n =
          { p with rx := rx, rxSeq := p.rxSeq + 1, dropping := false } := by
        rw [modPort_port_self _ (lt_of_up hup)]
        exact congrArg (fun q : Port => { q with rxSeq := q.rxSeq + 1, dropping := false }) hcount
      rw [hnext, linkFlit_expected hres hsq (by rw [hq]; exact hseq), modPort_modPort,
        linkAccept_held hc hlast (by rw [ht]; exact htag), modPort_modPort, modPort_modPort]
      refine congrArg Host.Outcome.next (modPort_congr ?_)
      simp only [ht, q, p, hcount]
      rfl
    case drop =>
      rw [hnext, linkFlit_unexpected hres hsq (by rw [hq]; exact hseq), modPort_modPort]
      refine congrArg Host.Outcome.next (modPort_congr ?_)
      simp only [q, p, hcount, Port.dropFrame, hdrop]
      rfl

/-! ## Loading a key (R49 to R51, R54) -/

section Load

theorem loadSlot_of_empty (slot : Bool) (key : BitVec 256) (epoch salt : Word) (l : List KeySlot) (h : slotNum slot < l.length)
    (he : (l.getD (slotNum slot) {}).state = .empty) :
    (loadSlot slot key epoch salt l).getD (slotNum slot) {} = ⟨.loaded, key, epoch, salt, 0⟩ := by
  rw [loadSlot, getD_modify, if_pos ⟨rfl, h⟩, he]
  rfl

variable {s : State} {n : Nat} {slot : Bool} {key : BitVec 256} {epoch salt : Word}

theorem keyOf_of_session {z : BitVec 384} {peer : Peer} (hz : (s.port n).secret = some z) (hp : (s.port n).peer = some peer)
    (rx : Bool) : s.keyOf n rx epoch =
      some (linkKey z (keyContext s n peer rx epoch), linkSalt z (keyContext s n peer rx epoch)) := by
  simp only [State.keyOf, hz, hp]

/-- R51. The system cores load no key but the session's own. -/
theorem exec_keyLoad_foreign {rx : Bool} {key' : BitVec 256} {salt' : Word} (hk : s.keyOf n rx epoch = some (key', salt'))
    (h : key ≠ key' ∨ salt ≠ salt') : exec (.keyLoad n rx slot key epoch salt) s = .next s := by
  have hother : s.keyOf n rx epoch ≠ some (key, salt) := by
    rw [hk]
    intro e
    obtain ⟨hkey, hsalt⟩ := Prod.mk.inj (Option.some.inj e)
    exact h.elim (· hkey.symm) (· hsalt.symm)
  exact congrArg event (if_neg (by simp [hother]))

/-- R50. No key is loaded for an epoch that the session has used in the direction. -/
theorem loadKey_of_used {rx : Bool} (h : (rx, epoch) ∈ (s.port n).epochs) : s.loadKey n rx slot epoch = s := by
  unfold State.loadKey
  split
  · simp [h]
  · rfl

theorem exec_keyLoad_used {rx : Bool} (h : (rx, epoch) ∈ (s.port n).epochs) :
    exec (.keyLoad n rx slot key epoch salt) s = .next s := by
  show execKeyLoad n rx slot key epoch salt s = _
  simp only [execKeyLoad, event, loadKey_of_used h, ite_self]

/-- R50, R51. A port after a key of an epoch is loaded into its sender. -/
def loadTx (slot : Bool) (key : BitVec 256) (epoch salt : Word) (p : Port) : Port :=
  { p with epochs := (false, epoch) :: p.epochs, tx := loadSlot slot key epoch salt p.tx, keyLateAt := none }

/-- R50, R51. A port after a key of an epoch is loaded into its receiver. -/
def loadRx (slot : Bool) (key : BitVec 256) (epoch salt : Word) (p : Port) : Port :=
  { p with epochs := (true, epoch) :: p.epochs, rx := loadSlot slot key epoch salt p.rx }

theorem loadKey_tx (hk : s.keyOf n false epoch = some (key, salt)) (hnew : (false, epoch) ∉ (s.port n).epochs)
    (he : ((s.port n).tx.getD (slotNum slot) {}).state = .empty) : s.loadKey n false slot epoch =
      (s.modPort n (loadTx slot key epoch salt)).modBoot fun b => { b with keysHeld := true } := by
  have hload : ¬ ((s.port n).epochs.contains (false, epoch) || ((s.port n).tx.getD (slotNum slot) {}).state != .empty) = true := by
    rw [he]; simpa using hnew
  simp only [State.loadKey, hk, Bool.false_eq_true, if_false, if_neg hload]
  exact congrArg (fun t : State => t.modBoot fun b => { b with keysHeld := true }) (modPort_congr rfl)

theorem loadKey_rx (hk : s.keyOf n true epoch = some (key, salt)) (hnew : (true, epoch) ∉ (s.port n).epochs)
    (he : ((s.port n).rx.getD (slotNum slot) {}).state = .empty) : s.loadKey n true slot epoch =
      (s.modPort n (loadRx slot key epoch salt)).modBoot fun b => { b with keysHeld := true } := by
  have hload : ¬ ((s.port n).epochs.contains (true, epoch) || ((s.port n).rx.getD (slotNum slot) {}).state != .empty) = true := by
    rw [he]; simpa using hnew
  simp only [State.loadKey, hk, if_true, if_neg hload]
  exact congrArg (fun t : State => t.modBoot fun b => { b with keysHeld := true }) (modPort_congr rfl)

/-- R51, R54. The session's key is loaded, into a sender's slot once its KEYSW is acknowledged. -/
theorem exec_keyLoad_own {rx : Bool} (hup : (s.port n).up = true) (hlive : s.boot.status.live = true)
    (hk : s.keyOf n rx epoch = some (key, salt)) (hsw : rx = true ∨ (s.port n).keyswSeq = none) :
    exec (.keyLoad n rx slot key epoch salt) s = .next (s.loadKey n rx slot epoch) := by
  refine congrArg event (if_pos ?_)
  simpa [hup, hlive, hk] using hsw

end Load

/-! ## Switching keys (R53, log 49) -/

section Switch

/-- The slot that a switch names is ACTIVE after it. -/
theorem switchSlots_new (new : Bool) (l : List KeySlot) (h : l.length = 2) :
    ((switchSlots new l).getD (slotNum new) {}).state = .active := by
  have hlt : slotNum new < (l.set (slotNum (!new)) {}).length := by
    rw [List.length_set, h]
    exact slotNum_lt new
  rw [switchSlots, getD_modify, if_pos ⟨rfl, hlt⟩]

/-- The slot beside the one that a switch names is EMPTY after it. -/
theorem switchSlots_old (new : Bool) (l : List KeySlot) (h : l.length = 2) :
    (switchSlots new l).getD (slotNum (!new)) {} = {} := by
  have hne : ¬ slotNum new = slotNum (!new) := by cases new <;> decide
  rw [switchSlots, getD_modify, if_neg fun e => hne e.1, getD_set_self _ _ _ _ (by rw [h]; exact slotNum_lt _)]

variable {p : Port} {i : Bool} (hact : activeSlot p.tx = some i)
include hact

/-- R53. KEYSW goes under the old slot before the switch. -/
theorem keySwitch_tx (new : Bool) : ∃ tx, tx.length = p.tx.length ∧ (p.keySwitch new).tx = switchSlots new tx := by
  have hsent := fun e => sendNew_sent hact 2 p.kMark 1 (keyswBody new e) (some (new, e)) none
  exact ⟨_, (hsent (p.tx.getD (slotNum new) {}).epoch).tx_length, rfl⟩

theorem switchTo_of_loaded (hT : p.switchAt ≤ (p.tx.getD (slotNum i) {}).counter) (hl : p.replay.length < 64)
    (hnext : (p.tx.getD (slotNum (!i)) {}).state = .loaded) : p.switchTo = some (!i) := by
  simp only [Port.switchTo, hact, if_neg (Nat.not_le.2 hl), decide_eq_true hT, hnext, beq_self_eq_true, Bool.and_self, if_true]

theorem switchTo_of_unloaded (hnext : (p.tx.getD (slotNum (!i)) {}).state ≠ .loaded) : p.switchTo = none := by
  simp only [Port.switchTo, hact, beq_eq_false_iff_ne.2 hnext, Bool.and_false, Bool.false_eq_true, if_false, ite_self]

theorem late_of_unloaded (hnext : (p.tx.getD (slotNum (!i)) {}).state ≠ .loaded) (hlate : p.keyLate = false) (now : Nat) :
    p.late now = { p with keyLate := true, keyLateAt := some now } := by
  simp only [Port.late, Port.nextLoaded, hact, hlate, beq_eq_false_iff_ne.2 hnext, Bool.or_self, Bool.false_eq_true, if_false]

end Switch

section ExecSwitch

variable {s : State} {n c : Nat} (hup : (s.port n).up = true) (hc : (s.port n).counter = some c)
include hup hc

theorem exec_keySwitchPoint_loaded {new : Bool} (hT : (s.port n).switchAt ≤ c) (hnew : (s.port n).switchTo = some new) :
    exec (.keySwitchPoint n) s = .next (s.modPort n fun p => p.keySwitch new) := by
  show execKeySwitchPoint n s = _
  simp only [execKeySwitchPoint, event, hc, hup, decide_eq_true hT, Bool.and_self, if_true]
  refine congrArg Host.Outcome.next (modPort_congr ?_)
  simp only [hnew]

theorem exec_keySwitchPoint_late (hT : (s.port n).switchAt ≤ c) (hnone : (s.port n).switchTo = none) :
    exec (.keySwitchPoint n) s = .next (s.modPort n fun p => p.late s.time) := by
  show execKeySwitchPoint n s = _
  simp only [execKeySwitchPoint, event, hc, hup, decide_eq_true hT, Bool.and_self, if_true]
  refine congrArg Host.Outcome.next (modPort_congr ?_)
  simp only [hnone]

theorem exec_keyHoldPoint (hl : (s.port n).limit - 1 ≤ c) (hnone : (s.port n).switchTo = none) :
    exec (.keyHoldPoint n) s = .next (s.modPort n fun p => p.hold s.time) := by
  show execKeyHoldPoint n s = _
  simp only [execKeyHoldPoint, event, hc, hup, decide_eq_true hl, hnone, Option.isNone_none, Bool.and_self, if_true]

end ExecSwitch

theorem exec_keyLoadTimeout {s : State} {n t : Nat} (h : (s.port n).keyLateAt = some t) (ht : t + 10000000 ≤ s.time) :
    exec (.keyLoadTimeout n) s = .next (s.linkDown n) := by
  show execKeyLoadTimeout n s = _
  simp only [execKeyLoadTimeout, event, h, if_pos ht]

/-- R54, log 92. A KEYSW makes the slot with its epoch ACTIVE, and takes the link down where none has. -/
theorem exec_keyswReceive {s : State} {n : Nat} (hup : (s.port n).up = true) (slot : Bool) (epoch : Word) :
    let k := (s.port n).rx.getD (slotNum slot) {}
    exec (.keyswReceive n slot epoch) s = .next (if k.state ≠ .empty ∧ k.epoch = epoch then
      s.modPort n fun p => { p with rx := switchSlots slot p.rx, rxSlot := slot } else s.linkDown n) := by
  intro k
  refine (congrArg event (if_pos hup)).trans (congrArg Host.Outcome.next ?_)
  have hbad : (k.state == .empty || k.epoch != epoch) = true ↔ ¬ (k.state ≠ .empty ∧ k.epoch = epoch) := by
    rw [Bool.or_eq_true, beq_iff_eq, bne_iff_ne, not_and_or, not_not]
  by_cases h : k.state ≠ .empty ∧ k.epoch = epoch
  · rw [if_pos h]
    exact if_neg fun e => hbad.1 e h
  · rw [if_neg h]
    exact if_pos (hbad.2 h)

/-! ## Key agreement (R51, R52, log 50) -/

section Agreement

/-- What the keys of a session are derived from, where this device is its requester, `first`, or its responder. -/
def sessionContext (s : State) (n : Nat) (first : Bool) (peer : Peer) (rx : Bool) (epoch : Word) : List Nat :=
  (if first then [s.boot.devId.toNat, peer.dev.toNat, n, peer.port.toNat]
    else [peer.dev.toNat, s.boot.devId.toNat, peer.port.toNat, n]) ++ [if first == rx then 1 else 0, epoch.toNat]

/-- R51. A port whose SPDM session begins. -/
def beginSession (peer : Peer) (secret : BitVec 384) (first : Bool) (p : Port) : Port :=
  { p with peer := some peer, secret := some secret, requester := first, secrets := secret :: p.secrets, epochs := [] }

variable {s : State} {n : Nat} {ended : SpdmEnd} {peer : Peer} {secret : BitVec 384} {epoch : Word}

/-- R51, R52, log 50. No session is taken that failed or that has the secret of an earlier one. -/
theorem exec_linkKeyAgreement_refused (h : ended = .failed ∨ secret ∈ (s.port n).secrets) :
    exec (.linkKeyAgreement n ended peer secret epoch) s = .next s := by
  refine congrArg event (if_pos ?_)
  rcases h with rfl | h
  · simp
  · simp [h]

/-- R87. What key agreement does beside the keys concerns jobs of partitions. -/
theorem exec_linkKeyAgreement (hup : (s.port n).up = true) (hlive : s.boot.status.live = true) (hend : ended ≠ .failed)
    (hact : activeSlot (s.port n).tx = none) (hfresh : secret ∉ (s.port n).secrets) :
    ∃ parts, exec (.linkKeyAgreement n ended peer secret epoch) s =
      .next { ((s.modPort n (beginSession peer secret (ended == .requester))).loadKey n false false epoch).loadKey
        n true false epoch with parts := parts } := by
  have hgo : ¬ (!(s.port n).up || ended == .failed || (activeSlot (s.port n).tx).isSome || (s.port n).secrets.contains secret
      || !s.boot.status.live) = true := by simp [hup, hlive, hend, hact, hfresh]
  show ∃ parts, execLinkKeyAgreement n ended peer secret epoch s = _
  simp only [execLinkKeyAgreement, event, if_neg hgo]
  split
  exacts [⟨_, rfl⟩, ⟨_, rfl⟩]

section Begun

variable {f : Port → Port} {first : Bool} (hn : n < s.ports.length) (hz : (f (s.port n)).secret = some secret)
  (hp : (f (s.port n)).peer = some peer) (hf : (f (s.port n)).requester = first)
include hn hz hp hf

/-- R51. The keys of a session that has begun at a port. -/
theorem keyOf_of_begun (rx : Bool) : (s.modPort n f).keyOf n rx epoch =
    some (linkKey secret (sessionContext s n first peer rx epoch), linkSalt secret (sessionContext s n first peer rx epoch)) := by
  have hport : (s.modPort n f).port n = f (s.port n) := modPort_port_self f hn
  have hctx : keyContext (s.modPort n f) n peer rx epoch = sessionContext s n first peer rx epoch := by
    rw [keyContext, hport, hf]
    rfl
  rw [keyOf_of_session (by rw [hport, hz]) (by rw [hport, hp]), hctx]

theorem loadKey_tx_of_begun {slot : Bool} (hnew : (false, epoch) ∉ (f (s.port n)).epochs)
    (he : ((f (s.port n)).tx.getD (slotNum slot) {}).state = .empty) :
    let c := sessionContext s n first peer false epoch
    (s.modPort n f).loadKey n false slot epoch =
      (s.modPort n fun p => loadTx slot (linkKey secret c) epoch (linkSalt secret c) (f p)).modBoot
        fun b => { b with keysHeld := true } := by
  have hport : (s.modPort n f).port n = f (s.port n) := modPort_port_self f hn
  rw [← hport] at hnew he
  rw [loadKey_tx (keyOf_of_begun hn hz hp hf false) hnew he, modPort_modPort]

theorem loadKey_rx_of_begun {slot : Bool} (hnew : (true, epoch) ∉ (f (s.port n)).epochs)
    (he : ((f (s.port n)).rx.getD (slotNum slot) {}).state = .empty) :
    let c := sessionContext s n first peer true epoch
    (s.modPort n f).loadKey n true slot epoch =
      (s.modPort n fun p => loadRx slot (linkKey secret c) epoch (linkSalt secret c) (f p)).modBoot
        fun b => { b with keysHeld := true } := by
  have hport : (s.modPort n f).port n = f (s.port n) := modPort_port_self f hn
  rw [← hport] at hnew he
  rw [loadKey_rx (keyOf_of_begun hn hz hp hf true) hnew he, modPort_modPort]

end Begun

/-- R49, R51. A port after key agreement: the slots 0 of both directions hold the keys of the session. -/
def agreedPort (s : State) (n : Nat) (first : Bool) (peer : Peer) (secret : BitVec 384) (epoch : Word) (p : Port) : Port :=
  let c := fun rx => sessionContext s n first peer rx epoch
  loadRx false (linkKey secret (c true)) epoch (linkSalt secret (c true))
    (loadTx false (linkKey secret (c false)) epoch (linkSalt secret (c false)) (beginSession peer secret first p))

theorem agreedPort_slots {p : Port} (htx : p.tx = [{}, {}]) (hrx : p.rx = [{}, {}]) (first : Bool) (peer : Peer)
    (secret : BitVec 384) (epoch : Word) :
    let tx := sessionContext s n first peer false epoch
    let rx := sessionContext s n first peer true epoch
    let q := agreedPort s n first peer secret epoch p
    q.peer = some peer ∧ q.tx.getD 0 {} = ⟨.loaded, linkKey secret tx, epoch, linkSalt secret tx, 0⟩ ∧
      q.rx.getD 0 {} = ⟨.loaded, linkKey secret rx, epoch, linkSalt secret rx, 0⟩ := by
  intro tx rx q
  refine ⟨rfl, ?_, ?_⟩
  · exact loadSlot_of_empty false _ epoch _ p.tx (by rw [htx]; decide) (by rw [htx]; rfl)
  · exact loadSlot_of_empty false _ epoch _ p.rx (by rw [hrx]; decide) (by rw [hrx]; rfl)

/-- R49, R51. A session that begins gives the EMPTY slots 0 of both directions its keys: the second load is one into the state
that holds keys already. -/
theorem loadKeys_of_begun (hup : (s.port n).up = true) (htx : (s.port n).tx = [{}, {}]) (hrx : (s.port n).rx = [{}, {}])
    (first : Bool) :
    ((s.modPort n (beginSession peer secret first)).loadKey n false false epoch).loadKey n true false epoch =
      (s.modPort n (agreedPort s n first peer secret epoch)).modBoot fun b => { b with keysHeld := true } := by
  have hn := lt_of_up hup
  have htx' : ((s.port n).tx.getD (slotNum false) {}).state = .empty := by rw [htx]; rfl
  have hrx' : ((s.port n).rx.getD (slotNum false) {}).state = .empty := by rw [hrx]; rfl
  rw [loadKey_tx_of_begun (first := first) hn rfl rfl rfl List.not_mem_nil htx']
  exact loadKey_rx_of_begun (s := s.modBoot fun b => { b with keysHeld := true }) (first := first) hn rfl rfl rfl
    (by simp [loadTx, beginSession]) hrx'

/-- R51, R52. Key agreement with a peer over a port without keys. -/
theorem linkKeyAgreement_loads (hup : (s.port n).up = true) (hlive : s.boot.status.live = true) (hend : ended ≠ .failed)
    (htx : (s.port n).tx = [{}, {}]) (hrx : (s.port n).rx = [{}, {}]) (hfresh : secret ∉ (s.port n).secrets) :
    ∃ t, exec (.linkKeyAgreement n ended peer secret epoch) s = .next t ∧
      t.port n = agreedPort s n (ended == .requester) peer secret epoch (s.port n) ∧
      { t with ports := s.ports, boot := s.boot, parts := s.parts } = s := by
  obtain ⟨parts, hexec⟩ := exec_linkKeyAgreement (epoch := epoch) (peer := peer) hup hlive hend (by rw [htx]; rfl) hfresh
  rw [loadKeys_of_begun hup htx hrx] at hexec
  exact ⟨_, hexec, modPort_port_self _ (lt_of_up hup), rfl⟩

end Agreement

/-- Settles O48: the key slots after each event that loads, switches or ends a key, or agrees the first ones. -/
theorem linkKeys : Obligations.LinkKeys := by
  refine ⟨fun s n slot epoch z peer => ?load, fun s n i hn => ?switch, fun s n t => exec_keyLoadTimeout,
    fun s n slot epoch hup => exec_keyswReceive hup slot epoch, fun s n peer secret epoch hn hup htx hrx hlive => ?agree⟩
  case load =>
    intro p held key salt load hup hlive hz hp
    have hk := fun rx => keyOf_of_session (epoch := epoch) hz hp rx
    refine ⟨fun hnew he => ?_, fun hnew he hsw => ?_, fun rx k v h => ?_,
      fun key salt l => loadSlot_of_empty slot key epoch salt l⟩
    · rw [exec_keyLoad_own hup hlive (hk true) (.inl rfl), loadKey_rx (hk true) hnew he]; rfl
    · rw [exec_keyLoad_own hup hlive (hk false) (.inr hsw), loadKey_tx (hk false) hnew he]; rfl
    · rcases h with hused | hother
      · exact exec_keyLoad_used hused
      · exact exec_keyLoad_foreign (hk rx) hother
  case switch =>
    intro p hup htx hact hT hl
    have hc := counter_of_active hact
    refine ⟨fun hnext => ?loaded, fun hnext hlate => ?late⟩
    case loaded =>
      obtain ⟨tx, hlen, hslots⟩ := keySwitch_tx hact (!i)
      have hport : (s.modPort n fun p => p.keySwitch (!i)).port n = p.keySwitch (!i) := modPort_port_self _ hn
      refine ⟨_, exec_keySwitchPoint_loaded hup hc hT (switchTo_of_loaded hact hT hl hnext), ?_⟩
      rw [hport, hslots]
      refine ⟨switchSlots_new (!i) tx (hlen.trans htx), ?_, rfl, rfl, rfl, rfl⟩
      have hold := switchSlots_old (!i) tx (hlen.trans htx)
      rw [Bool.not_not] at hold
      rw [hold]
    case late =>
      have hnone := switchTo_of_unloaded hact hnext
      have hlate' := late_of_unloaded hact hnext hlate s.time
      refine ⟨(exec_keySwitchPoint_late hup hc hT hnone).trans (congrArg Host.Outcome.next (modPort_congr hlate')),
        fun hhold => ?_⟩
      refine (exec_keyHoldPoint hup hc hhold hnone).trans (congrArg Host.Outcome.next (modPort_congr ?_))
      exact congrArg (fun q : Port => { q with wire := some holdFrame, holding := true }) hlate'
  case agree =>
    intro agree key gives
    have agreed {ended : SpdmEnd} (hend : ended ≠ .failed) (hfresh : secret ∉ (s.port n).secrets)
        {ends : List Nat} {way back : Nat}
        (htxc : sessionContext s n (ended == .requester) peer false epoch = ends ++ [way, epoch.toNat])
        (hrxc : sessionContext s n (ended == .requester) peer true epoch = ends ++ [back, epoch.toNat]) :
        ∃ t, agree ended = .next t ∧ gives t ends way back := by
      obtain ⟨t, hexec, hport, hframe⟩ := linkKeyAgreement_loads (epoch := epoch) (peer := peer) hup hlive hend htx hrx hfresh
      obtain ⟨hp, ht, hr⟩ := agreedPort_slots (s := s) (n := n) htx hrx (ended == .requester) peer secret epoch
      refine ⟨t, hexec, ?_⟩
      simp only [gives]
      rw [hport, hp, ht, hr, htxc, hrxc]
      exact ⟨rfl, rfl, rfl, rfl, rfl, rfl, rfl, hframe⟩
    exact ⟨exec_linkKeyAgreement_refused (.inl rfl), fun h _ => exec_linkKeyAgreement_refused (.inr h),
      fun h => ⟨agreed (by decide) h rfl rfl, agreed (by decide) h rfl rfl⟩⟩

/-! ## A link that goes down (R63, R64, R78, log 88) -/

section Down

/-- A run of operations that each change the contexts and the sessions alone changes no more. -/
theorem foldl_ctxs_sessions {α : Type} (g : State → α → State)
    (h : ∀ s x, ∃ ctxs sessions, g s x = { s with ctxs := ctxs, sessions := sessions }) (l : List α) (s : State) :
    ∃ ctxs sessions, l.foldl g s = { s with ctxs := ctxs, sessions := sessions } := by
  induction l generalizing s with
  | nil => exact ⟨s.ctxs, s.sessions, rfl⟩
  | cons x l ih =>
    obtain ⟨c, e, hx⟩ := h s x
    obtain ⟨c', e', hl⟩ := ih (g s x)
    exact ⟨c', e', by rw [List.foldl_cons, hl, hx]⟩

/-- R78. Closing a session changes the sessions and the contexts in them alone. -/
theorem closeSession_frame (s : State) (id : Nat) :
    ∃ ctxs sessions, s.closeSession id = { s with ctxs := ctxs, sessions := sessions } := by
  obtain ⟨c, e, h⟩ := foldl_ctxs_sessions
    (fun s c => s.modCtx c fun x => { x with session := none, party := 0, nparty := 0 }) (fun _ _ => ⟨_, _, rfl⟩) _ _
  exact ⟨c, e, h⟩

/-- R63, R64, R78. A link that goes down changes its port, tells the owners of lost packets, and closes sessions. -/
theorem linkDown_frame (s : State) (n : Nat) (hup : (s.port n).up = true) : ∃ ctxs sessions, s.linkDown n =
    { (s.modPort n Port.drop).tellOwners (s.port n).unsure with ctxs := ctxs, sessions := sessions } := by
  simp only [State.linkDown, hup, if_true]
  exact foldl_ctxs_sessions _ closeSession_frame _ _

theorem exec_linkDown {i : Instr} {n : Nat} (s : State) (h : i = .linkDownCommand n ∨ i = .frameLockLoss n) :
    exec i s = .next (s.linkDown n) := by
  rcases h with rfl | rfl <;> rfl

/-- A packet that is marked as not begun has no flit sent. -/
theorem sent_of_begunIn {going : Bool} {l : List LinkPacket} {x : LinkPacket} (h : (x, false) ∈ begunIn going l) :
    x.sent = 0 := by
  induction l generalizing going with
  | nil => cases h
  | cons y l ih =>
    rw [begunIn, List.mem_cons] at h
    rcases h with h | h
    · obtain ⟨rfl, hb⟩ := Prod.mk.inj h
      simpa using (Bool.or_eq_false_iff.1 hb.symm).1
    · exact ih h

/-- Log 88. A port keeps the packets of which no flit has been sent, and no other. -/
theorem sent_of_unbegun {l : List LinkPacket} {x : LinkPacket} (h : x ∈ unbegun l) : x.sent = 0 := by
  simp only [unbegun, List.mem_map, List.mem_filter] at h
  obtain ⟨⟨y, b⟩, ⟨hmem, hb⟩, rfl⟩ := h
  obtain rfl : b = false := by simpa using hb
  exact sent_of_begunIn hmem

/-- Table 3.7. DOWNS counts to 255. -/
theorem drop_downs (p : Port) : p.drop.downs.toNat = min 255 (p.downs.toNat + 1) := by
  show (if p.downs = 255 then 255 else p.downs + 1).toNat = _
  split
  · next h => rw [h]; rfl
  · next h =>
    have hne : p.downs.toNat ≠ 255 := fun e => h (BitVec.eq_of_toNat_eq e)
    have hlt := p.downs.isLt
    rw [BitVec.toNat_add, show (1 : BitVec 8).toNat = 1 from rfl]
    omega

end Down

/-! ## NAK and flow control (R55, R56, R59) -/

section Flow

variable {s : State} {n : Nat}

/-- R56. A NAK that names the oldest flit of the replay buffer releases none, and the replay starts from it. -/
theorem takeNak_head {p : Port} {e : BitVec 24} {x : Held} {rest : List Held} (hn : p.naks = none) (hr : p.restart = none)
    (hl : p.replay = x :: rest) (he : x.seq = e) (fcycle : Nat) :
    p.takeNak e fcycle = { p with naks := some (e, 1), resend := some 0, restart := some (e, fcycle) } := by
  have hnone : releasedBy e p.replay = 0 := by
    simp only [releasedBy, hl, List.takeWhile_cons, he, BitVec.sub_self]
    rfl
  have hkeep : p.release (releasedBy e p.replay) = p := if_pos hnone
  have hheld : p.replay.isEmpty = false := by rw [hl]; rfl
  simp only [Port.takeNak, hkeep, hn, hr, hheld, if_true, Bool.false_eq_true, if_false]

/-- R56, R63. A first NAK takes no link down. -/
theorem exec_nakReceive_head (hup : (s.port n).up = true) {e : BitVec 24} {x : Held} {rest : List Held}
    (hn : (s.port n).naks = none) (hr : (s.port n).restart = none) (hl : (s.port n).replay = x :: rest) (he : x.seq = e) :
    exec (.nakReceive n e) s = .next (s.modPort n fun p =>
      { p with naks := some (e, 1), resend := some 0, restart := some (e, s.fcycle) }) := by
  have htake := takeNak_head hn hr hl he s.fcycle
  have hnaks : ((s.modPort n fun p => p.takeNak e s.fcycle).port n).naks = some (e, 1) := by
    rw [modPort_port_self _ (lt_of_up hup), htake]
  have hnak : s.nak n e = s.modPort n fun p => p.takeNak e s.fcycle := by
    simp only [State.nak, hnaks]
    exact if_neg (by decide)
  refine (congrArg event (if_pos hup)).trans (congrArg Host.Outcome.next ?_)
  rw [hnak]
  exact modPort_congr htake

theorem exec_nakResendTimeout (hup : (s.port n).up = true) (hd : (s.port n).dropping = true)
    (ht : (s.port n).nakAt + 2048 ≤ s.fcycle) : exec (.nakResendTimeout n) s =
      .next (s.modPort n fun p => { p with unseq := p.unseq ++ [(2, p.rxSeq)], nakAt := s.fcycle, dropping := true }) :=
  congrArg event (if_pos (by simp only [hup, hd, decide_eq_true ht, Bool.and_self]))

theorem setPaused_of_lt (cls : BitVec 2) (b : Bool) (h : cls.toNat < 2) :
    s.setPaused n cls b = s.modPort n fun p => { p with paused := p.paused.set cls.toNat b } :=
  if_pos h

theorem exec_flowStateRepeat (hup : (s.port n).up = true) (ht : (s.port n).flowAt + 1000 ≤ s.time) :
    exec (.flowStateRepeat n) s = .next (s.modPort n fun p => { p with unseq := p.unseq ++ p.flowFlits, flowAt := s.time }) :=
  congrArg event (if_pos (by simp only [hup, decide_eq_true ht, Bool.and_self]))

end Flow

/-! ## Packets that are dropped (R37, R58) -/

section Drop

variable {s : State} {n : Nat} {cls : BitVec 2}

theorem exec_linkAbortReceive (hup : (s.port n).up = true) (tag : BitVec 8) :
    exec (.linkAbortReceive n cls tag) s = .next (s.modPort n fun p => p.abort cls tag) :=
  congrArg event (if_pos hup)

theorem abort_eq (p : Port) (tag : BitVec 8) (hc : cls.toNat < 3) : p.abort cls tag =
    if (p.reasm.getD cls.toNat {}).expected = tag then p.dropPacket cls else { p with dropped := p.dropped + 1 } := by
  simp only [Port.abort, decide_eq_true hc, Bool.true_and, beq_iff_eq]

/-- R58, row 7 of Table 2.6. An open context of a link that has accepted no flit for 2^16 f-cycles drops its packet. -/
theorem exec_reassemblyIdleTimeout_link (die st srcDie srcSt : Nat) {m : Nat}
    (ho : ((s.port n).reasm.getD cls.toNat {}).open' = true)
    (ht : ((s.port n).reasm.getD cls.toNat {}).lastAt + 65536 ≤ s.fcycle) (hm : s.portOwner n = some m) :
    exec (.reassemblyIdleTimeout die st srcDie srcSt ⟨cls, some n⟩) s =
      .next ((s.modPort n fun p => p.dropPacket cls).fabricError m none) := by
  show event (s.idleLink n cls) = _
  simp only [State.idleLink, ho, (idleFor_iff s _).2 ht, Bool.and_self, if_true, hm, event]

end Drop

/-! ## Identity and routes (R60) -/

section Routes

/-- R60. An entry of a route table written: entry 31, drop and count, is the one of a device that is not listed. -/
def writeRoute (dev : BitVec 16) (entry : BitVec 5) (p : Port) : Port :=
  let rest := p.routes.filter fun r => r.1 != dev.toNat
  { p with routes := if entry = 31 then rest else (dev.toNat, entry) :: rest }

theorem route_writeRoute_self (p : Port) (dev : BitVec 16) (entry : BitVec 5) :
    (writeRoute dev entry p).route dev = entry.toNat := by
  have hnone : (p.routes.filter fun r => r.1 != dev.toNat).find? (fun r => r.1 == dev.toNat) = none := by
    simp [List.find?_eq_none]
  unfold Port.route writeRoute
  by_cases h : entry = 31
  · subst h
    simp only [if_true, hnone]
    rfl
  · simp only [if_neg h, List.find?_cons, beq_self_eq_true, Option.map_some, Option.getD_some]

theorem route_writeRoute_other (p : Port) {dev other : BitVec 16} (entry : BitVec 5) (h : other ≠ dev) :
    (writeRoute dev entry p).route other = p.route other := by
  have hne : dev.toNat ≠ other.toNat := fun e => h (BitVec.eq_of_toNat_eq e.symm)
  have hrest : (p.routes.filter fun r => r.1 != dev.toNat).find? (fun r => r.1 == other.toNat) =
      p.routes.find? fun r => r.1 == other.toNat := by
    rw [List.find?_filter]
    congr 1
    funext r
    by_cases hr : r.1 = other.toNat <;> simp [hr, Ne.symm hne]
  unfold Port.route writeRoute
  by_cases he : entry = 31
  · simp only [if_pos he, hrest]
  · simp only [if_neg he, List.find?_cons, beq_eq_false_iff_ne.2 hne, hrest]

/-- R60. The ports that the old and the new entry route through are quiet, or the entry routes through none. -/
theorem exec_routeTableWrite {s : State} {n : Nat} {dev : BitVec 16} {entry : BitVec 5} (hlive : s.boot.status.live = true)
    (hq : ∀ r, r = (s.port n).route dev ∨ r = entry.toNat → 24 ≤ r ∨ (s.port r).quiet = true) :
    exec (.routeTableWrite n dev entry) s = .next (s.modPort n (writeRoute dev entry)) := by
  refine congrArg event (if_pos ?_)
  have hold := hq _ (.inl rfl)
  have hnew := hq _ (.inr rfl)
  simpa [hlive, hold] using hnew

theorem exec_deviceIdentityWrite (s : State) (id : BitVec 16) : exec (.deviceIdentityWrite id) s =
    .next (if id = 0xFFFF ∨ s.boot.status.live = false then s else s.modBoot fun b => { b with devId := id }) := by
  show execDeviceIdentityWrite id s = _
  simp [execDeviceIdentityWrite, event]

end Routes

/-- Settles O49, event by event. -/
theorem linksRun : Obligations.LinksRun := by
  refine ⟨fun s n hdown => congrArg event (if_neg (by simp [hdown])), fun i s n hi hn hup => ?down,
    fun s n e x rest hn hup hnaks hr hl he => exec_nakReceive_head hup hnaks hr hl he,
    fun s n hup hd ht => exec_nakResendTimeout hup hd ht,
    fun s n cls hc => ⟨congrArg event (setPaused_of_lt cls true hc), congrArg event (setPaused_of_lt cls false hc)⟩,
    fun s n hup ht => exec_flowStateRepeat hup ht, fun s n cls tag hup hc => ?abort,
    fun s n m die st srcDie srcSt cls => ?idle, fun s n dev entry hlive hq hn => ?route, exec_deviceIdentityWrite⟩
  case down =>
    obtain ⟨ctxs, sessions, hd⟩ := linkDown_frame s n hup
    refine ⟨_, exec_linkDown s hi, ?_⟩
    have hport : (s.linkDown n).port n = (s.port n).drop := by
      rw [hd]
      exact modPort_port_self _ hn
    rw [hport]
    refine ⟨rfl, rfl, rfl, rfl, rfl, rfl, rfl, rfl, fun x hx => hx.elim sent_of_unbegun sent_of_unbegun, drop_downs _,
      fun j hj => ?_, ?_, ?_, ?_⟩
    · rw [hd]
      exact modPort_port_ne Port.drop hj
    all_goals rw [hd]; rfl
  case abort =>
    intro c
    refine (exec_linkAbortReceive hup tag).trans (congrArg Host.Outcome.next (modPort_congr ?_))
    exact abort_eq (s.port n) tag hc
  case idle =>
    intro c ho ht hm
    refine (exec_reassemblyIdleTimeout_link die st srcDie srcSt ho ht hm).trans (congrArg Host.Outcome.next ?_)
    exact congrArg (fun t : State => t.fabricError m none) (modPort_congr rfl)
  case route =>
    refine ⟨_, exec_routeTableWrite hlive hq, ?_, fun other ho => ?_, rfl⟩
    · rw [modPort_port_self _ hn, route_writeRoute_self]
    · rw [modPort_port_self _ hn, route_writeRoute_other _ _ ho]

/-! # Writes of the host (spec/04_host_and_partitions.md)

## Writes to context windows (R67 to R69) -/

section Windows

variable {s : State} {part ctx stream : Nat}

theorem vfAccess_of_serves (h : Serves s part stream) : s.vfAccess part stream = .serve := by
  have hreads : ¬ (s.boot.status != .ready || (s.part part).state == .free) = true := by simp [h.ready, h.given]
  have herror : ¬ ((s.part part).vf == .error) = true := by simp [h.vf]
  have hother : ¬ ((s.part part).vf == .run && (s.part part).stream != stream) = true := by simpa using h.own
  simp only [State.vfAccess, if_neg hreads, if_neg herror, if_neg hother]

/-- R66. A function in RUN serves its own stream only. -/
theorem vfAccess_of_other (hready : s.boot.status = .ready) (hgiven : (s.part part).state ≠ .free)
    (hrun : (s.part part).vf = .run) (hother : (s.part part).stream ≠ stream) : s.vfAccess part stream = .unsupported := by
  simp [State.vfAccess, hready, hgiven, hrun, hother]

/-- R67. A write that reaches its context takes effect. -/
theorem windowWrite_of_writable (h : Writable s part ctx stream) (f : State → State) :
    s.windowWrite part ctx stream f = f s := by
  obtain ⟨hserves, hsettled, hactive, hthere⟩ := h
  simp [State.windowWrite, vfAccess_of_serves hserves, hsettled, hactive, hthere]

theorem badWrite_eq (s : State) (part : Nat) : s.badWrite part = badSubmit s part := rfl

theorem submitOk_iff (q : Queue) (v : DWord) : q.submitOk v = true ↔
    v.extractLsb' 5 27 = 0 ∧ q.en = true ∧ q.src = false ∧
      (v.extractLsb' 32 32 - q.head).toNat ≤ 2 ^ (q.logSize.toNat + 4) ∧ (v.extractLsb' 32 32 - q.tail).toNat < 2 ^ 31 := by
  simp [Queue.submitOk, Queue.size, and_assoc]

theorem putQbase_of_lt {q : Nat} (h : q < 32) (v : DWord) : s.putQbase part ctx q v =
    if ((s.ctx ctx).queue q).en = true ∨ v.toNat % 128 ≠ 0 then badSubmit s part
    else s.modCtx ctx fun c => c.modQueue q fun x => { x with base := v, head := 0, tail := 0 } := by
  have hq : ¬ 32 ≤ q := by omega
  simp [State.putQbase, badWrite_eq, hq]

theorem putQcfg_of_lt {q : Nat} (h : q < 32) (v : DWord) : let x := (s.ctx ctx).queue q
    let size := v.extractLsb' 16 4
    let moved := decide (size ≠ x.logSize ∨ v.getLsbD 1 ≠ x.src)
    s.putQcfg part ctx q v = if x.en = true ∧ moved = true then badSubmit s part
      else s.modCtx ctx fun c => c.modQueue q fun x => { x with
        tickets := v.extractLsb' 20 12, logSize := size, src := v.getLsbD 1, en := v.getLsbD 0
        head := if moved = true then 0 else x.head, tail := if moved = true then 0 else x.tail } := by
  have hq : ¬ 32 ≤ q := by omega
  simp [State.putQcfg, badWrite_eq, hq]

/-- R67. A context window has 32 queues. -/
theorem putQbase_of_ge {q : Nat} (h : 32 ≤ q) (v : DWord) : s.putQbase part ctx q v = badSubmit s part := by
  simp [State.putQbase, badWrite_eq, h]

theorem putQcfg_of_ge {q : Nat} (h : 32 ≤ q) (v : DWord) : s.putQcfg part ctx q v = badSubmit s part := by
  simp [State.putQcfg, badWrite_eq, h]

variable (v : DWord)

theorem exec_ctxSubmit (h : Writable s part ctx stream) : exec (.ctxSubmit part ctx stream v) s = .next (s.putSubmit ctx v) :=
  congrArg event (windowWrite_of_writable h _)

theorem exec_qbaseWrite (h : Writable s part ctx stream) (q : Nat) :
    exec (.qbaseWrite part ctx q stream v) s = .next (s.putQbase part ctx q v) :=
  congrArg event (windowWrite_of_writable h _)

theorem exec_qcfgWrite (h : Writable s part ctx stream) (q : Nat) :
    exec (.qcfgWrite part ctx q stream v) s = .next (s.putQcfg part ctx q v) :=
  congrArg event (windowWrite_of_writable h _)

theorem exec_registerWrite (hr : s.boot.status = .ready) (reg : DevReg) (i : Nat) :
    exec (.registerWrite reg i v) s = .next (match reg with
      | .keyLim => s.modPort i fun p => { p with keyLim := v &&& 0xFFFFFFFFFFFF }
      | .eccThreshold =>
        if 1 ≤ v.toNat ∧ v.toNat ≤ 65535 then s.modBoot fun b => { b with eccThreshold := v.toNat } else s
      | .window part ctx stream => s.windowStore part ctx stream i v) := by
  show execRegisterWrite reg i v s = _
  cases reg <;> simp [execRegisterWrite, event, hr]

/-- R67, Table 4.2. A write at an offset of a window that reaches its context, by the register at the offset. -/
theorem exec_windowStore (h : Writable s part ctx stream) (off : Nat) :
    exec (.registerWrite (.window part ctx stream) off v) s = .next (
      if off = 0 then s.putSubmit ctx v
      else if 0x100 ≤ off ∧ off < 0x300 ∧ off % 16 = 0 then s.putQbase part ctx ((off - 0x100) / 16) v
      else if 0x100 ≤ off ∧ off < 0x300 ∧ off % 16 = 8 then s.putQcfg part ctx ((off - 0x100) / 16) v
      else badSubmit s part) := by
  rw [exec_registerWrite v h.serves.ready]
  exact congrArg Host.Outcome.next (windowWrite_of_writable h _)

/-- R66. A write of another stream is an Unsupported Request. -/
theorem exec_windowStore_other (hready : s.boot.status = .ready) (hgiven : (s.part part).state ≠ .free)
    (hrun : (s.part part).vf = .run) (hother : (s.part part).stream ≠ stream) (off : Nat) :
    exec (.registerWrite (.window part ctx stream) off v) s =
      .next (s.modPart part fun p => { p with unsupported := p.unsupported + 1 }) := by
  rw [exec_registerWrite v hready]
  simp only [State.windowStore, State.windowWrite, vfAccess_of_other hready hgiven hrun hother, State.countUnsupported]

theorem exec_windowStore_qbase (h : Writable s part ctx stream) {q : Nat} (hq : q < 32) :
    exec (.registerWrite (.window part ctx stream) (0x100 + 16 * q) v) s = exec (.qbaseWrite part ctx q stream v) s := by
  rw [exec_windowStore v h, exec_qbaseWrite v h, if_neg (by omega), if_pos (by omega),
    show (0x100 + 16 * q - 0x100) / 16 = q by omega]

theorem exec_windowStore_qcfg (h : Writable s part ctx stream) {q : Nat} (hq : q < 32) :
    exec (.registerWrite (.window part ctx stream) (0x108 + 16 * q) v) s = exec (.qcfgWrite part ctx q stream v) s := by
  rw [exec_windowStore v h, exec_qcfgWrite v h, if_neg (by omega), if_neg (by omega), if_pos (by omega),
    show (0x108 + 16 * q - 0x100) / 16 = q by omega]

/-- Table 4.2. Beside CTX_SUBMIT, QBASE and QCFG no offset of a window takes a write. -/
theorem exec_windowStore_none (h : Writable s part ctx stream) {off : Nat} (h0 : off ≠ 0)
    (hq : ∀ q, q < 32 → off ≠ 0x100 + 16 * q ∧ off ≠ 0x108 + 16 * q) :
    exec (.registerWrite (.window part ctx stream) off v) s = .next (badSubmit s part) := by
  have hbase : ¬ (0x100 ≤ off ∧ off < 0x300 ∧ off % 16 = 0) := by
    rintro ⟨hlo, hhi, hmod⟩
    exact (hq ((off - 0x100) / 16) (by omega)).1 (by omega)
  have hcfg : ¬ (0x100 ≤ off ∧ off < 0x300 ∧ off % 16 = 8) := by
    rintro ⟨hlo, hhi, hmod⟩
    exact (hq ((off - 0x100) / 16) (by omega)).2 (by omega)
  rw [exec_windowStore v h, if_neg h0, if_neg hbase, if_neg hcfg]

end Windows

/-! ## Features and TDISP (R66, R71) -/

section Functions

theorem exec_featackWrite (s : State) (i : Nat) (v : DWord) : exec (.featackWrite i v) s =
    .next (if s.boot.status = .ready ∧ s.accepted = none then { s with featAck := s.featAck.set i v } else s) := by
  show execFeatackWrite i v s = _
  simp [execFeatackWrite, event]

variable {s : State} {part : Nat} (hr : s.boot.status = .ready)
include hr

/-- The guard of the device's registers and functions, once boot has reached READY. -/
theorem not_unready : ¬ (s.boot.status != .ready) = true := by simp [hr]

theorem exec_tdispRequest_lock (stream : Nat) (h : (s.part part).vf = .unlocked) : exec (.tdispRequest part 0 stream) s =
    .next (s.modPart part fun p => { p with vf := .locked, stream := stream }) := by
  refine (congrArg event (if_neg (not_unready hr))).trans (congrArg Host.Outcome.next (modPart_congr ?_))
  simp [h]

theorem exec_tdispRequest_start (stream : Nat) (h : (s.part part).vf = .locked) : exec (.tdispRequest part 1 stream) s =
    .next (s.modPart part fun p => { p with vf := .run }) := by
  refine (congrArg event (if_neg (not_unready hr))).trans (congrArg Host.Outcome.next (modPart_congr ?_))
  simp [h]

theorem exec_tdispRequest_stop (stream : Nat) (h : (s.part part).vf = .locked ∨ (s.part part).vf = .run) :
    exec (.tdispRequest part 2 stream) s = .next (s.modPart part fun p => { p with vf := .unlocked }) := by
  refine (congrArg event (if_neg (not_unready hr))).trans (congrArg Host.Outcome.next (modPart_congr ?_))
  rcases h with h | h <;> simp [h]

theorem exec_vfConfigChange_run (h : (s.part part).vf = .run) : exec (.vfConfigChange part) s =
    .next (s.modPart part fun p => { p with vf := .error }) := by
  refine (congrArg event (if_neg (not_unready hr))).trans (congrArg Host.Outcome.next (modPart_congr ?_))
  simp [h]

/-- R66. Only in RUN is a change of the configuration an ERROR. -/
theorem exec_vfConfigChange_ne (h : (s.part part).vf ≠ .run) : exec (.vfConfigChange part) s = .next s := by
  refine (congrArg event (if_neg (not_unready hr))).trans (congrArg Host.Outcome.next (modPart_of_fixed ?_))
  simp [h]

end Functions

/-- Settles O50: the writes of a window by the register that they reach, and the others register by register. -/
theorem hostWrites : Obligations.HostWrites := by
  refine ⟨fun s part ctx stream v hw => ?submit, fun s part ctx stream off v => ⟨fun hw => ?window, ?other⟩,
    fun s part ctx q stream v hq hw => ?queue, exec_featackWrite, fun s i v hr => ?device, fun s part stream hr => ?tdisp⟩
  case submit =>
    intro q tail ok
    have hok : q.submitOk v = true ↔ ok := submitOk_iff q v
    have hput := exec_ctxSubmit v hw
    exact ⟨fun h => hput.trans (congrArg Host.Outcome.next (if_pos (hok.2 h))),
      fun h => hput.trans (congrArg Host.Outcome.next (if_neg fun e => h (hok.1 e)))⟩
  case window =>
    refine ⟨(exec_windowStore v hw 0).trans (exec_ctxSubmit v hw).symm,
      fun q hq => ⟨exec_windowStore_qbase v hw hq, exec_windowStore_qcfg v hw hq⟩, exec_windowStore_none v hw,
      fun q hq => ⟨?_, ?_⟩⟩
    · rw [exec_qbaseWrite v hw, putQbase_of_ge hq]
    · rw [exec_qcfgWrite v hw, putQcfg_of_ge hq]
  case other => exact fun hready hgiven hrun hother => exec_windowStore_other v hready hgiven hrun hother off
  case queue =>
    intro x size moved
    exact ⟨(exec_qbaseWrite v hw q).trans (congrArg Host.Outcome.next (putQbase_of_lt hq v)),
      (exec_qcfgWrite v hw q).trans (congrArg Host.Outcome.next (putQcfg_of_lt hq v))⟩
  case device =>
    refine ⟨exec_registerWrite v hr .keyLim i, fun hlo hhi => ?_⟩
    exact (exec_registerWrite v hr .eccThreshold i).trans (congrArg Host.Outcome.next (if_pos ⟨hlo, hhi⟩))
  case tdisp =>
    intro vf
    exact ⟨exec_tdispRequest_lock hr stream, exec_tdispRequest_start hr stream, exec_tdispRequest_stop hr stream,
      exec_vfConfigChange_run hr, exec_vfConfigChange_ne hr⟩

end Sys2Proof.Proofs

namespace Sys2Proof.Proofs

open Sys2Proof.Machine Sys2Proof.Safety Sys2Proof.Laws

/-! # Fatal traps (R75, R186, R187)

## What other contexts see of it -/

section Fatal

/-- An entry that a filter drops before and after its update does not count. -/
theorem filter_modify_dropped {α : Type} (p : α → Bool) (l : List α) (i : Nat) (f : α → α)
    (h : ∀ x, l[i]? = some x → p x = false ∧ p (f x) = false) : (l.modify i f).filter p = l.filter p := by
  induction l generalizing i with
  | nil => cases i <;> rfl
  | cons a l ih =>
    cases i with
    | zero =>
      obtain ⟨ha, hfa⟩ := h a rfl
      simp [ha, hfa]
    | succ i => simp only [List.modify_succ_cons, List.filter_cons, ih i fun x hx => h x hx]

/-- Entries that a filter drops may change, where it drops them still. -/
theorem filter_map_dropped {α : Type} (p : α → Bool) (f : α → α) (l : List α) (hd : ∀ x, p x = false → p (f x) = false)
    (hk : ∀ x, p x = true → f x = x) : (l.map f).filter p = l.filter p := by
  induction l with
  | nil => rfl
  | cons a l ih =>
    cases hp : p a with
    | false => simp [hp, hd a hp, ih]
    | true => simp [hp, hk a hp, ih]

/-- The nodes of other contexts, but for staging and sealing. -/
theorem filter_ctx_plain {l l' : List Node} (c : Nat) (h : l'.map plainNode = l.map plainNode) :
    (l'.filter fun x => x.ctx != c).map plainNode = (l.filter fun x => x.ctx != c).map plainNode := by
  have hcomm (k : List Node) : (k.filter fun x => x.ctx != c).map plainNode = (k.map plainNode).filter fun x => x.ctx != c := by
    rw [List.filter_map]
    rfl
  rw [hcomm, hcomm, h]

/-- R75, R186. What a fatal trap of context c leaves of s: c is TERMINATED, with its dump and a final statement, no group,
team, node or word of it is left, and what others have stays, but for what the dump stages or seals. -/
structure Terminates (s s' : State) (c : Nat) : Prop where
  state : (s'.ctx c).state = .terminated
  dumped : (s'.ctx c).dumped = true
  final : (s'.ctx c).final.isSome = true
  basket : (s'.ctx c).basket = []
  groups : s'.groups = s.groups.filter fun x => x.key.ctx != c
  teams : ∀ x ∈ s'.teams, x.key.ctx ≠ c
  nodes : s'.nodes.map plainNode = (s.nodes.filter fun x => x.ctx != c).map plainNode
  net : s'.net = s.net.filter fun w => w.ctx != c
  others : ∀ j, j ≠ c → s'.ctx j = s.ctx j

/-- R112. The groups of a context stopped. -/
def stopOf (c : Nat) (g : Group) : Group := if g.key.ctx == c then { g with stop := true } else g
def stopGroups (s : State) (c : Nat) : State := { s with groups := s.groups.map (stopOf c) }

theorem stopOf_key (c : Nat) (g : Group) : (stopOf c g).key = g.key := by
  unfold stopOf
  split <;> rfl

theorem stopOf_other {c : Nat} {g : Group} (h : (g.key.ctx != c) = true) : stopOf c g = g :=
  if_neg (by simpa using h)

/-- R186. A context whose groups have stopped ends, once its dump is written and it is marked as dumped. -/
theorem terminates_after_dump (s : State) (c : Nat) (f : Context → Context) (base : Nat) (dump : List Byte)
    (hc : c < s.ctxs.length) (hs : NoSession s c) : Terminates s
      ((((stopGroups (s.modCtx c f) c).devStoreLong c base dump).modCtx c fun x => { x with dumped := true }).terminate c) c := by
  obtain ⟨hframe, hplain⟩ := devStoreLong_eq c dump (stopGroups (s.modCtx c f) c) base
  generalize (stopGroups (s.modCtx c f) c).devStoreLong c base dump = s2 at hframe hplain
  have hctxs : s2.ctxs = s.ctxs.modify c f := by rw [hframe]; rfl
  have hlen : c < s2.ctxs.length := by rw [hctxs]; simpa using hc
  have hnone : NoSession (s2.modCtx c fun x => { x with dumped := true }) c := by rw [hframe]; exact hs
  obtain ⟨hstate, hdumped, hfinal, hbasket, hgroups, hteams, hnodes, hnet, hothers⟩ :=
    terminate_eq (s2.modCtx c fun x => { x with dumped := true }) c (by simpa using hlen) hnone
  refine ⟨hstate, ?_, hfinal, hbasket, ?_, hteams, ?_, ?_, fun j hj => ?_⟩
  · rw [hdumped, modCtx_ctx, if_pos ⟨rfl, hlen⟩]
  · rw [hgroups, modCtx_groups, show s2.groups = (stopGroups s c).groups by rw [hframe]; rfl]
    exact filter_map_dropped _ _ _ (fun x hx => by rwa [stopOf_key]) fun x hx => stopOf_other hx
  · rw [hnodes]
    exact filter_ctx_plain c hplain
  · rw [hnet, modCtx_net, hframe]
    rfl
  · rw [hothers j hj, modCtx_ctx, if_neg fun e => hj e.1.symm, State.ctx, hctxs]
    exact getD_modify_ne _ _ _ _ hj

theorem fatal_terminates (s : State) (c : Nat) (r : TrapRec) (hc : c < s.ctxs.length) (hs : NoSession s c) :
    Terminates s (s.fatal c r) c := by
  unfold State.fatal
  exact terminates_after_dump s c _ _ _ hc hs

/-- R187. A trap is fatal in a handler, and where no handler is installed. -/
theorem trapIsFatal_iff (s : State) (gr : Group) :
    s.trapIsFatal gr = true ↔ gr.key.kind = .handler ∨ (s.ctx gr.key.ctx).trapVec.val.getLsbD 0 = false := by
  simp [State.trapIsFatal]

/-- R178, R182. The trap noted in its group, which stops, and in its context. -/
def trapNoted (s : State) (g : Nat) (set : List Nat) (gr : Group) (r : TrapRec) : State :=
  (s.modGroup g fun x => { x with stop := true, trapped := set, fetch := none, lowered := [] }).modCtx gr.key.ctx (keepTrap r)

theorem takeTrap_of_fatal {s : State} {g : Nat} {gr : Group} (set : List Nat) (t : Nat) (code : BitVec 8) (detail : Word)
    (hg : s.groups[g]? = some gr) (hf : s.trapIsFatal gr = true) : s.takeTrap g set t code detail =
      (trapNoted s g set gr (s.record gr t code detail false)).fatal gr.key.ctx (s.record gr t code detail false) := by
  simp only [State.takeTrap, hg, if_pos (show _ = true from hf)]
  rfl

end Fatal

/-- Settles O37: what a fatal trap notes in its group and context, which end, is seen by no other. -/
theorem fatalTrap : Obligations.FatalTrap := by
  intro s g set gr t code detail hg hfatal hc hsession c s'
  have hnamed : ∀ x, s.groups[g]? = some x → (x.key.ctx != c) = false := fun x hx => by
    rw [hg] at hx
    cases hx
    simp [c]
  obtain ⟨hstate, hdumped, hfinal, hbasket, hgroups, hteams, hnodes, hnet, hothers⟩ :=
    fatal_terminates (trapNoted s g set gr (s.record gr t code detail false)) c (s.record gr t code detail false)
      (by simpa [trapNoted] using hc) hsession
  rw [← takeTrap_of_fatal set t code detail hg ((trapIsFatal_iff s gr).2 hfatal)] at *
  refine ⟨hstate, hdumped, hfinal, hbasket, hgroups.trans ?_, hteams, hnodes, hnet, fun j hj => ?_⟩
  · exact filter_modify_dropped _ _ _ _ fun x hx => ⟨hnamed x hx, hnamed x hx⟩
  · rw [hothers j hj, trapNoted, modCtx_ctx, if_neg fun e => hj e.1.symm]
    rfl

end Sys2Proof.Proofs

namespace Sys2Proof.Proofs

open Sys2Proof.Machine Sys2Proof.Safety Sys2Proof.Laws

/-! # The issue of engine commands (R323, R326, R71)

## The command that the checks of each instruction make -/

section Preparation

/-- What holds of the command, where the checks answer one. -/
def CmdHas (P : Cmd → Prop) : CmdRes → Prop
  | .go c _ => P c
  | _ => True

/-- R323. A command is that of an issue: its op5, its team, its issue set with the lowest thread elected, the next number. -/
structure IssuedAs (op : Nat) (a : Act) (gr : Group) (s : State) (c : Cmd) : Prop where
  op : c.op = op
  team : c.team = gkeyTeam gr.key
  elected : c.elected = (gr.key, a.lead)
  id : c.id = s.cmdIds
  threads : c.threads = a.set

theorem cmdHas_refuse {P : Cmd → Prop} {b : Prop} [Decidable b] {r : CmdRes} (h : CmdHas P r) :
    CmdHas P (if b then r else .refuse) := by
  split
  · exact h
  · trivial

theorem cmdHas_guard {P : Cmd → Prop} {b : Prop} [Decidable b] {c : Cmd} {draws : Nat} (h : P c) :
    CmdHas P (if b then .go c draws else .refuse) :=
  cmdHas_refuse (r := .go c draws) h

theorem cmdHas_legal {P : Cmd → Prop} {b : Prop} [Decidable b] {r : CmdRes} (h : CmdHas P r) :
    CmdHas P (if b then .illegal else r) := by
  split
  · trivial
  · exact h

theorem cmdHas_record {P : Cmd → Prop} (t : Team) (x : Nat) {f : List Byte → CmdRes} (h : ∀ bs, CmdHas P (f bs)) :
    CmdHas P (withRecord t x f) := by
  unfold withRecord
  split
  · trivial
  · split
    · trivial
    · exact h _

variable (a : Act) (gr : Group) (t : Team) (s : State) (w c r : BitVec 6)

theorem copyPrep_issued (op : Nat) (f : BitVec 5) : CmdHas (IssuedAs op a gr s) (copyPrep op f w c r a gr t s) := by
  refine cmdHas_record t _ fun bs => cmdHas_legal ?_
  split
  · trivial
  · exact cmdHas_guard ⟨rfl, rfl, rfl, rfl, rfl⟩

theorem mmaPrep_issued (op : Nat) (f : BitVec 4) : CmdHas (IssuedAs op a gr s) (mmaPrep op f w c r a gr t s) :=
  cmdHas_legal (cmdHas_guard ⟨rfl, rfl, rfl, rfl, rfl⟩)

theorem mmarPrep_issued (f : BitVec 1) (f2 : BitVec 2) : CmdHas (IssuedAs 9 a gr s) (mmarPrep f f2 w c r a gr t s) :=
  cmdHas_legal (cmdHas_guard ⟨rfl, rfl, rfl, rfl, rfl⟩)

theorem smmaPrep_issued (f : BitVec 1) : CmdHas (IssuedAs 11 a gr s) (smmaPrep f w c r a gr t s) := by
  unfold smmaPrep
  extract_lets th h sa sb a0 b0
  split
  · trivial
  · refine cmdHas_legal (cmdHas_refuse ?_)
    split
    · exact IssuedAs.mk rfl rfl rfl rfl rfl
    · trivial

theorem freePrep_issued : CmdHas (IssuedAs 13 a gr s) (freePrep w a gr t s) := cmdHas_guard ⟨rfl, rfl, rfl, rfl, rfl⟩

theorem xferPrep_issued (op : Nat) (ep : BitVec 3) : CmdHas (IssuedAs op a gr s) (xferPrep op ep w c r a gr t s) := by
  refine cmdHas_legal ?_
  split
  · trivial
  · exact cmdHas_guard ⟨rfl, rfl, rfl, rfl, rfl⟩

theorem rowPrep_issued : CmdHas (IssuedAs 30 a gr s) (rowPrep w c r a gr t s) := by
  unfold rowPrep
  extract_lets
  split
  · trivial
  · exact cmdHas_guard ⟨rfl, rfl, rfl, rfl, rfl⟩

theorem planPrep_issued (op : Nat) (f : BitVec 5) : CmdHas (IssuedAs op a gr s) (planPrep op f w r a gr t s) :=
  cmdHas_record t _ fun _ => cmdHas_guard ⟨rfl, rfl, rfl, rfl, rfl⟩

theorem transPrep_issued : CmdHas (IssuedAs 19 a gr s) (transPrep w a gr t s) := cmdHas_guard ⟨rfl, rfl, rfl, rfl, rfl⟩

theorem lubegPrep_issued : CmdHas (IssuedAs 20 a gr s) (lubegPrep w r a gr t s) :=
  cmdHas_record t _ fun _ => cmdHas_guard ⟨rfl, rfl, rfl, rfl, rfl⟩

theorem lustepPrep_issued : CmdHas (IssuedAs 21 a gr s) (lustepPrep w r a gr t s) := cmdHas_guard ⟨rfl, rfl, rfl, rfl, rfl⟩

theorem lucandPrep_issued : CmdHas (IssuedAs 22 a gr s) (lucandPrep w c r a gr t s) := cmdHas_guard ⟨rfl, rfl, rfl, rfl, rfl⟩

theorem lucommitPrep_issued : CmdHas (IssuedAs 23 a gr s) (lucommitPrep w c r a gr t s) := by
  unfold lucommitPrep
  extract_lets
  split
  · trivial
  · exact cmdHas_guard ⟨rfl, rfl, rfl, rfl, rfl⟩

theorem luendPrep_issued : CmdHas (IssuedAs 24 a gr s) (luendPrep w c r a gr t s) := by
  unfold luendPrep
  extract_lets
  split
  · exact cmdHas_guard ⟨rfl, rfl, rfl, rfl, rfl⟩
  · trivial

/-- Tables 19.1 and 20.1. Every engine command is made for its issue. -/
theorem prep_issued {i : Instr} {F : EngForm} (hF : engForm i = some F) : CmdHas (IssuedAs F.op a gr s) (F.prep a gr t s) := by
  cases i
  case tload => cases hF; exact copyPrep_issued ..
  case tstore => cases hF; exact copyPrep_issued ..
  case tgather => cases hF; exact copyPrep_issued ..
  case tzero => cases hF; exact copyPrep_issued ..
  case tpref => cases hF; exact copyPrep_issued ..
  case xput => cases hF; exact copyPrep_issued ..
  case xget => cases hF; exact copyPrep_issued ..
  case tscat => cases hF; exact copyPrep_issued ..
  case mma => cases hF; exact mmaPrep_issued ..
  case mmar => cases hF; exact mmarPrep_issued ..
  case mmas => cases hF; exact mmaPrep_issued ..
  case smma => cases hF; exact smmaPrep_issued ..
  case accfree => cases hF; exact freePrep_issued ..
  case accld => cases hF; exact xferPrep_issued ..
  case accst => cases hF; exact xferPrep_issued ..
  case accrow => cases hF; exact rowPrep_issued ..
  case bfly => cases hF; exact planPrep_issued ..
  case btwid => cases hF; exact planPrep_issued ..
  case brevEng => cases hF; exact planPrep_issued ..
  case atrans => cases hF; exact transPrep_issued ..
  case lubeg => cases hF; exact lubegPrep_issued ..
  case lustep => cases hF; exact lustepPrep_issued ..
  case lucand => cases hF; exact lucandPrep_issued ..
  case lucommit => cases hF; exact lucommitPrep_issued ..
  case luend => cases hF; exact luendPrep_issued ..
  all_goals cases hF

end Preparation

/-! ## What an engine command does -/

theorem stopAt_eq (i : Instr) (s : State) (g : Nat) (set : List Nat) (gr : Group) (t : Nat) (x : Chk) :
    (theAct i g set gr).stopAt s set t x = stopped s g set t x := by
  cases x <;> rfl

/-- R323. Past its shared checks, an engine command is what its own preparation finds. -/
theorem exec_eng_clear {i : Instr} {F : EngForm} {s : State} {g : Nat} {set : List Nat} {gr : Group} {tm : Team}
    (hF : engForm i = some F) (h : EngClear F i s g set gr tm) : exec i s = .next (engAfter F s g set gr (theAct i g set gr) tm) :=
  (exec_eng s hF).trans (engRun_eq h)

/-- Settles O38: by what the preparation of the command answers. -/
theorem engineIssues : Obligations.EngineIssues := by
  refine ⟨fun i F s g set gr tm c draws hF h hgo hroom => ⟨?enters, ?command⟩, fun i F s g set gr tm hF h => ?stops⟩
  case enters =>
    have hfull : ¬ queueFull (s.core gr.core) = true := by simpa [queueFull] using hroom
    rw [exec_eng_clear hF h, engAfter, hgo]
    exact congrArg Host.Outcome.next (if_neg hfull)
  case command =>
    have hc := prep_issued (theAct i g set gr) gr tm (idle s) hF
    rw [hgo] at hc
    exact ⟨hc.op, hc.team, hc.elected, hc.id, hc.threads⟩
  case stops =>
    intro res
    have hexec := exec_eng_clear hF h
    refine ⟨fun hr => ?_, fun hr => ?_, fun x hr => ?_, fun x hr => ?_, fun c draws hr hfull => ?_⟩ <;>
      rw [hexec, engAfter, show F.prep (theAct i g set gr) gr tm (idle s) = _ from hr]
    · rfl
    · rfl
    · exact congrArg Host.Outcome.next (stopAt_eq i _ g set gr _ x)
    · exact congrArg Host.Outcome.next (blockAll_eq _ g set _ (rising_nodup h.issuing.rising))
    · exact congrArg Host.Outcome.next (if_pos (decide_eq_true hfull))

end Sys2Proof.Proofs

namespace Sys2Proof.Proofs

open Sys2Proof.Machine Sys2Proof.Safety Sys2Proof.Laws

/-! # Checks before an instruction acts (R209, R217, R218, R232, Table 11.20)

## Every encoded instruction is the meaning of an issue -/

section Issues

variable {i : Instr} {s : State} {g : Nat} {set : List Nat} {gr : Group}

/-- R114. Only an issue runs an encoded instruction. -/
theorem exec_encoded (h : i.encoded = true) (s : State) : ∃ f, exec i s = withIssue i s f := by
  cases i
  case tbl => exact ⟨_, exec_tbl ..⟩
  case exit => exact ⟨_, execExit.eq_def ..⟩
  case brk => exact ⟨_, execBrk.eq_def ..⟩
  case reggrow => exact ⟨_, execReggrow.eq_def ..⟩
  case regshrink => exact ⟨_, execRegshrink.eq_def ..⟩
  all_goals cases h <;> exact ⟨_, rfl⟩

/-- R232. Step 1 of Table 11.20 for a reserved field. -/
theorem withIssue_of_not_wf (f : Act → Group → State → State) (h : Issuing s g set gr) (hw : i.wf = false) :
    withIssue i s f = .next ((theAct i g set gr).illegal (idle s)) := by
  simp [withIssue, h.cur, h.group, hw, theAct, pcOf, idle]

theorem exec_load {F : LoadForm} (hF : loadForm i = some F) (s : State) :
    exec i s = withIssue i s (loadRun F.glob F.signed F.size F.off F.base F.d) := by
  cases i <;> cases hF <;> rfl

theorem exec_store {F : StoreForm} (hF : storeForm i = some F) (s : State) :
    exec i s = withIssue i s (storeRun F.glob F.size F.off F.n F.guard F.base F.d) := by
  cases i <;> cases hF <;> rfl

theorem exec_atomic {F : AtomicForm} (hF : atomicForm i = some F) (s : State) :
    exec i s = withIssue i s (atomicRun F.op F.off F.n F.guard F.base F.d) := by
  cases i <;> cases hF <;> rfl

theorem exec_branch {F : BranchForm} (hF : branchForm i = some F) :
    ∃ taken, ∀ s, exec i s = withIssue i s (branchRun F.n F.guard F.more taken) := by
  cases i <;> cases hF <;> exact ⟨_, fun _ => rfl⟩

theorem exec_share {F : ShareForm} (hF : shareForm i = some F) (s : State) :
    exec i s = withIssue i s (shareRun F.op F.width F.table F.d F.y F.x) := by
  cases i <;> cases hF <;> rfl

theorem decodeForm_of_eng {F : EngForm} (hF : engForm i = some F) : decodeForm i = some { need := F.need, fields := F.fields } := by
  cases i <;> cases hF <;> rfl

theorem decodeForm_of_share {F : ShareForm} (hF : shareForm i = some F) :
    decodeForm i = some { need := [4], runsIn := fun k => k.kind == .lanes, fields := F.fields } := by
  cases i <;> cases hF <;> rfl

end Issues

/-! ## Steps 1 and 2: features, the kind of thread, register fields -/

section Decode

/-- R71, R209. What an instruction asks for before its fields are looked at. -/
def Runs1 (D : DecodeForm) (s : State) (gr : Group) : Prop := (∀ n ∈ D.need, s.feature n = true) ∧ D.runsIn gr.key = true

/-- Table 11.20. The meaning of an instruction takes steps 1 and 2 for its form. -/
structure DecodeChecks (D : DecodeForm) (f : Act → Group → State → State) : Prop where
  illegal : ∀ a gr s, ¬ Runs1 D s gr → f a gr s = a.illegal s
  field : ∀ a gr s r, Runs1 D s gr → fieldsFault gr.budget D.fields = some r → f a gr s = a.trap s a.lead tIllegalReg r

variable {fs : List Field}

/-- An instruction that every thread may run, without a feature of its own. -/
theorem decodeChecks_fields {f : Act → Group → State → State}
    (h : ∀ a gr s r, fieldsFault gr.budget fs = some r → f a gr s = a.trap s a.lead tIllegalReg r) :
    DecodeChecks { fields := fs } f where
  illegal _ _ _ hn := absurd ⟨fun _ hm => (List.not_mem_nil hm).elim, rfl⟩ hn
  field a gr s r _ := h a gr s r

section System

variable {D : DecodeForm} {ill : Group → State → Bool} (hill : ∀ gr s, ill gr s = true ↔ ¬ Runs1 D s gr)
include hill

theorem sysFields_illegal {a : Act} {gr : Group} {s : State} (h : ¬ Runs1 D s gr) :
    sysFields (ill gr s) D.fields a gr s = some (a.illegal s) :=
  if_pos ((hill gr s).2 h)

theorem sysFields_runs {a : Act} {gr : Group} {s : State} (h : Runs1 D s gr) :
    sysFields (ill gr s) D.fields a gr s = (fieldsFault gr.budget D.fields).map fun r => a.trap s a.lead tIllegalReg r :=
  if_neg fun e => (hill gr s).1 e h

variable (f : Act → Group → State → State)

theorem sysBare_checks : DecodeChecks D (sysBare ill D.fields f) where
  illegal a gr s h := by simp only [sysBare, sysFields_illegal hill h]
  field a gr s r h hr := by simp only [sysBare, sysFields_runs hill h, hr, Option.map_some]

theorem sysRun_checks : DecodeChecks D (sysRun ill D.fields f) where
  illegal a gr s h := by simp only [sysRun, sysChecks, sysFields_illegal hill h]
  field a gr s r h hr := by simp only [sysRun, sysChecks, sysFields_runs hill h, hr, Option.map_some]

theorem onceRun_checks : DecodeChecks D (onceRun ill D.fields f) where
  illegal a gr s h := by simp only [onceRun, sysChecks, sysFields_illegal hill h]
  field a gr s r h hr := by simp only [onceRun, sysChecks, sysFields_runs hill h, hr, Option.map_some]

end System

/-- Any thread may run it. -/
theorem legal_iff (gr : Group) (s : State) : legal gr s = true ↔ ¬ Runs1 { fields := fs } s gr := by
  simp [legal, Runs1]

theorem inHandler_iff (gr : Group) (s : State) :
    inHandler gr s = true ↔ ¬ Runs1 { runsIn := fun k => k.kind != .handler, fields := fs } s gr := by
  simp [inHandler, Runs1]

theorem outsideHandler_iff (gr : Group) (s : State) :
    outsideHandler gr s = true ↔ ¬ Runs1 { runsIn := fun k => k.kind == .handler, fields := fs } s gr := by
  simp [outsideHandler, Runs1]

theorem loadRun_checks (F : LoadForm) :
    DecodeChecks { fields := F.fields } (loadRun F.glob F.signed F.size F.off F.base F.d) :=
  decodeChecks_fields fun a gr s r hr => by
    unfold loadRun
    simp only [show fieldsFault gr.budget [regF F.base (if F.glob then 2 else 1), outF F.d (max 1 (F.size / 4))] = some r from hr]

theorem storeRun_checks (F : StoreForm) :
    DecodeChecks { fields := F.fields } (storeRun F.glob F.size F.off F.n F.guard F.base F.d) :=
  decodeChecks_fields fun a gr s r hr => by
    unfold storeRun
    simp only [show fieldsFault gr.budget [regF F.base (if F.glob then 2 else 1), regF F.guard,
      { num := F.d.toNat, size := max 1 (F.size / 4), qr := F.size = 4 }] = some r from hr]

theorem atomicRun_checks (F : AtomicForm) :
    DecodeChecks { fields := F.fields } (atomicRun F.op F.off F.n F.guard F.base F.d) :=
  decodeChecks_fields fun a gr s r hr => by
    unfold atomicRun
    simp only [show fieldsFault gr.budget [regF F.base 2, regF F.guard, updF F.d (atomicSpan F.op)] = some r from hr]

theorem guardChecks_field {a : Act} {gr : Group} {s : State} {n : BitVec 1} {g : BitVec 6} {r : Word}
    (hr : fieldsFault gr.budget fs = some r) : guardChecks a gr s n g fs = some (a.trap s a.lead tIllegalReg r) := by
  simp only [guardChecks, hr]

theorem branchRun_checks (F : BranchForm) (taken : Act → Thread → Thread) :
    DecodeChecks { fields := F.fields } (branchRun F.n F.guard F.more taken) :=
  decodeChecks_fields fun a gr s r hr => by
    simp only [branchRun, guardChecks_field (fs := regF F.guard :: F.more) hr]

theorem engRun_checks (F : EngForm) :
    DecodeChecks { need := F.need, fields := F.fields } (engRun F.op F.need F.fields F.regs F.reads F.prep) where
  illegal a gr s h := if_pos (by simpa [Runs1] using h)
  field a gr s r h hr := by
    have hneed : ¬ (!F.need.all s.feature) = true := by simpa [Runs1] using h
    simp only [engRun, if_neg hneed, hr]

theorem shareRun_checks (F : ShareForm) :
    DecodeChecks { need := [4], runsIn := fun k => k.kind == .lanes, fields := F.fields }
      (shareRun F.op F.width F.table F.d F.y F.x) where
  illegal a gr s h := if_pos (by simpa [Runs1, or_iff_not_imp_left] using h)
  field a gr s r h hr := by
    have hruns : ¬ (!s.feature 4 || gr.key.kind != .lanes) = true := by simpa [Runs1] using h
    have hr' : fieldsFault gr.budget (shareFields F.op F.width F.d F.y F.x) = some r := hr
    simp only [shareRun, if_neg hruns, hr']

theorem budgetChecks_field {n d : BitVec 6} {a : Act} {gr : Group} {s : State} {r : Word}
    (hr : fieldsFault gr.budget [outF d] = some r) : budgetChecks n d a gr s = some (a.trap s a.lead tIllegalReg r) := by
  simp only [budgetChecks, hr]

theorem stmapRun_checks (i : BitVec 10) (b d : BitVec 6) :
    DecodeChecks { need := [12], runsIn := fun k => k.kind != .handler, fields := [regF b 2, regF d] } (stmapRun i b d) where
  illegal a gr s h := if_pos (by simpa [Runs1, or_iff_not_imp_left] using h)
  field a gr s r h hr := by
    have hruns : ¬ (!s.feature 12 || gr.key.kind == .handler) = true := by simpa [Runs1] using h
    have hr' : fieldsFault gr.budget [regF b 2, regF d] = some r := hr
    simp only [stmapRun, if_neg hruns, hr']

theorem stflushRun_checks (b : BitVec 6) :
    DecodeChecks { need := [12], runsIn := fun k => k.kind != .handler, fields := [regF b] } (stflushRun b) where
  illegal a gr s h := if_pos (by simpa [Runs1, or_iff_not_imp_left] using h)
  field a gr s r h hr := by
    have hruns : ¬ (!s.feature 12 || gr.key.kind == .handler) = true := by simpa [Runs1] using h
    have hr' : fieldsFault gr.budget [regF b] = some r := hr
    simp only [stflushRun, if_neg hruns, hr']

/-- Every instruction that names a register takes steps 1 and 2. -/
theorem exec_decodeChecks {i : Instr} {D : DecodeForm} (h : decodeForm i = some D) (s : State) :
    ∃ f, exec i s = withIssue i s f ∧ DecodeChecks D f := by
  unfold decodeForm at h
  split at h
  next => cases h; exact ⟨_, exec_load ‹loadForm i = some _› s, loadRun_checks _⟩
  next => cases h; exact ⟨_, exec_store ‹storeForm i = some _› s, storeRun_checks _⟩
  next => cases h; exact ⟨_, exec_atomic ‹atomicForm i = some _› s, atomicRun_checks _⟩
  next =>
    cases h
    obtain ⟨taken, hexec⟩ := exec_branch ‹branchForm i = some _›
    exact ⟨_, hexec s, branchRun_checks _ taken⟩
  next => cases h; exact ⟨_, exec_eng s ‹engForm i = some _›, engRun_checks _⟩
  next => cases h; exact ⟨_, exec_share ‹shareForm i = some _› s, shareRun_checks _⟩
  next =>
    cases i
    case exit n g =>
      cases h
      exact ⟨_, execExit.eq_def .., decodeChecks_fields fun a gr s r hr => by simp only [guardChecks_field hr]⟩
    case brk n g =>
      cases h
      exact ⟨_, execBrk.eq_def .., decodeChecks_fields fun a gr s r hr => by simp only [guardChecks_field hr]⟩
    case reggrow =>
      cases h
      exact ⟨_, execReggrow.eq_def .., decodeChecks_fields fun a gr s r hr => by simp only [budgetChecks_field hr]⟩
    case regshrink =>
      cases h
      exact ⟨_, execRegshrink.eq_def .., decodeChecks_fields fun a gr s r hr => by simp only [budgetChecks_field hr]⟩
    case elect => cases h; exact ⟨_, rfl, sysRun_checks legal_iff _⟩
    case vote => cases h; exact ⟨_, rfl, sysRun_checks legal_iff _⟩
    case flagrd => cases h; exact ⟨_, rfl, sysRun_checks legal_iff _⟩
    case ident => cases h; exact ⟨_, rfl, sysRun_checks legal_iff _⟩
    case csrrd => cases h; exact ⟨_, rfl, sysRun_checks legal_iff _⟩
    case csrwr => cases h; exact ⟨_, rfl, sysRun_checks legal_iff _⟩
    case qroute => cases h; exact ⟨_, rfl, sysRun_checks legal_iff _⟩
    case qstat => cases h; exact ⟨_, rfl, sysRun_checks legal_iff _⟩
    case perfrd => cases h; exact ⟨_, rfl, sysRun_checks legal_iff _⟩
    case mbr => cases h; exact ⟨_, rfl, sysRun_checks legal_iff _⟩
    case waitw => cases h; exact ⟨_, rfl, sysBare_checks legal_iff _⟩
    case swait => cases h; exact ⟨_, rfl, sysBare_checks legal_iff _⟩
    case syncset => cases h; exact ⟨_, rfl, sysBare_checks legal_iff _⟩
    case mbw => cases h; exact ⟨_, rfl, sysBare_checks legal_iff _⟩
    case trap => cases h; exact ⟨_, rfl, sysBare_checks legal_iff _⟩
    case mark => cases h; exact ⟨_, rfl, onceRun_checks legal_iff _⟩
    case accalloc => cases h; exact ⟨_, rfl, onceRun_checks legal_iff _⟩
    case launch => cases h; exact ⟨_, rfl, sysBare_checks inHandler_iff _⟩
    case tblld => cases h; exact ⟨_, rfl, sysBare_checks inHandler_iff _⟩
    case stmap => cases h; exact ⟨_, rfl, stmapRun_checks ..⟩
    case stflush => cases h; exact ⟨_, rfl, stflushRun_checks ..⟩
    case dwsel => cases h; exact ⟨_, rfl, sysRun_checks outsideHandler_iff _⟩
    case dwrd => cases h; exact ⟨_, rfl, sysRun_checks outsideHandler_iff _⟩
    case dwwr => cases h; exact ⟨_, rfl, sysRun_checks outsideHandler_iff _⟩
    case dwres => cases h; exact ⟨_, rfl, sysRun_checks outsideHandler_iff _⟩
    all_goals cases h

end Decode

/-! ## Step 4: pending registers -/

section Pending

variable {gr : Group}

/-- R217. The check of a thread's registers finds the first that is pending. -/
theorem pendChk_some {l : List (Nat × Nat)} {n : Nat} (h : pendingIn gr l = some n) :
    pendChk gr l = .fault tUnwaited (BitVec.ofNat 32 n) := by
  rw [pendChk, h]

theorem pendChk_none {l : List (Nat × Nat)} (h : pendingIn gr l = none) : pendChk gr l = .ok (.scr 0) := by
  rw [pendChk, h]

/-- R217. The first thread that meets a pending register, as a list of checks finds it. -/
theorem firstBad_pendChk {regs : Nat → List (Nat × Nat)} {set : List Nat} {t n : Nat}
    (h : firstPending gr regs set = some (t, n)) :
    firstBad (fun u => pendChk gr (regs u)) set = some (t, .fault tUnwaited (BitVec.ofNat 32 n)) := by
  induction set with
  | nil => cases h
  | cons u us ih =>
    rw [firstPending] at h
    rw [firstBad]
    cases hp : pendingIn gr (regs u) with
    | some r =>
      rw [hp] at h
      cases h
      rw [pendChk_some hp]
    | none =>
      rw [hp] at h
      rw [pendChk_none hp]
      exact ih h

theorem firstPending_single {regs : Nat → List (Nat × Nat)} {u t n : Nat} (h : firstPending gr regs [u] = some (t, n)) :
    t = u ∧ pendingIn gr (regs u) = some n := by
  rw [firstPending] at h
  cases hp : pendingIn gr (regs u) with
  | some r =>
    rw [hp] at h
    cases h
    exact ⟨rfl, rfl⟩
  | none =>
    rw [hp] at h
    cases h

/-- The first thread of an issue set whose check is a trap, after threads that pass. -/
theorem firstBad_at {f : Nat → Chk} {before after : List Nat} {t : Nat} {k : BitVec 8} {d : Word}
    (hb : ∀ u ∈ before, ∃ l, f u = .ok l) (ht : f t = .fault k d) : firstBad f (before ++ t :: after) = some (t, .fault k d) := by
  rw [firstBad_append _ _ _ hb, firstBad, ht]

theorem and_fault {c : Chk} {k : BitVec 8} {d : Word} (x : Chk) (h : c = .fault k d) : c.and x = .fault k d := by
  rw [h]
  rfl

/-- Table 11.20. The meaning of an instruction takes step 4 after steps 1 and 2 of its form, in its lowest thread or in all. -/
def PendChecks (D : DecodeForm) (regs : Group → Nat → List (Nat × Nat)) (one : Bool) (f : Act → Group → State → State) : Prop :=
  ∀ a gr s t n, Runs1 D s gr → fieldsFault gr.budget D.fields = none →
    firstPending gr (regs gr) (if one then [a.lead] else a.set) = some (t, n) → f a gr s = a.trap s t tUnwaited (BitVec.ofNat 32 n)

variable {D : DecodeForm} {ill : Group → State → Bool}

theorem sysRun_pending (hill : ∀ gr s, ill gr s = true ↔ ¬ Runs1 D s gr) (f : Act → Group → State → State) :
    PendChecks D (fun _ t => inThread t (ownRegs D.fields)) false (sysRun ill D.fields f) :=
  fun a gr s t n h hr hp => by
    have hp' : firstPending gr (fun t => inThread t (ownRegs D.fields)) a.set = some (t, n) := hp
    simp only [sysRun, sysChecks, sysFields_runs hill h, hr, Option.map_none, hp', Option.map_some]

theorem onceRun_pending (hill : ∀ gr s, ill gr s = true ↔ ¬ Runs1 D s gr) (f : Act → Group → State → State) :
    PendChecks D (fun _ t => inThread t (ownRegs D.fields)) true (onceRun ill D.fields f) :=
  fun a gr s t n h hr hp => by
    have hp' : firstPending gr (fun t => inThread t (ownRegs D.fields)) [a.lead] = some (t, n) := hp
    simp only [onceRun, sysChecks, sysFields_runs hill h, hr, Option.map_none, hp', Option.map_some]

theorem engRun_pending (F : EngForm) :
    PendChecks { need := F.need, fields := F.fields } F.regs true (engRun F.op F.need F.fields F.regs F.reads F.prep) :=
  fun a gr s t n h hr hp => by
    have hneed : ¬ (!F.need.all s.feature) = true := by simpa [Runs1] using h
    have hp' : firstPending gr (F.regs gr) [a.lead] = some (t, n) := hp
    have hr' : fieldsFault gr.budget F.fields = none := hr
    obtain ⟨rfl, -⟩ := firstPending_single hp'
    simp only [engRun, if_neg hneed, hr', hp']

theorem shareRun_pending (F : ShareForm) :
    PendChecks { need := [4], runsIn := fun k => k.kind == .lanes, fields := F.fields }
      (fun _ t => inThread t (ownRegs F.fields)) false (shareRun F.op F.width F.table F.d F.y F.x) :=
  fun a gr s t n h hr hp => by
    have hruns : ¬ (!s.feature 4 || gr.key.kind != .lanes) = true := by simpa [Runs1] using h
    have hp' : firstPending gr (fun t => inThread t (ownRegs (shareFields F.op F.width F.d F.y F.x))) a.set = some (t, n) := hp
    have hr' : fieldsFault gr.budget (shareFields F.op F.width F.d F.y F.x) = none := hr
    simp only [shareRun, if_neg hruns, hr', hp']

/-- R312. TRAP looks at its register itself. -/
theorem trap_pending (r : BitVec 6) (f : Act → Group → State → State)
    (hf : ∀ a gr s n, pendingIn gr (inThread a.lead (ownRegs [regF r])) = some n →
      f a gr s = a.trap s a.lead tUnwaited (BitVec.ofNat 32 n)) :
    PendChecks { fields := [regF r] } (fun _ t => inThread t (ownRegs [regF r])) true (sysBare legal [regF r] f) :=
  fun a gr s t n h hr hp => by
    obtain ⟨rfl, hreg⟩ := firstPending_single hp
    have hfields := sysFields_runs legal_iff (a := a) h
    rw [hr] at hfields
    simp only [sysBare, show sysFields (legal gr s) [regF r] a gr s = none from hfields]
    exact hf a gr s n hreg

/-- Every system, engine and share instruction with registers of its own takes step 4. -/
theorem exec_pendChecks {i : Instr} {D : DecodeForm} {regs : Group → Nat → List (Nat × Nat)} {one : Bool}
    (h : pendForm i = some (regs, one)) (hD : decodeForm i = some D) (s : State) :
    ∃ f, exec i s = withIssue i s f ∧ PendChecks D regs one f := by
  unfold pendForm at h
  split at h
  next =>
    cases h
    have hF := ‹sysForm i = some _›
    cases i
    case elect => cases hF; cases hD; exact ⟨_, rfl, sysRun_pending legal_iff _⟩
    case vote => cases hF; cases hD; exact ⟨_, rfl, sysRun_pending legal_iff _⟩
    case flagrd => cases hF; cases hD; exact ⟨_, rfl, sysRun_pending legal_iff _⟩
    case ident => cases hF; cases hD; exact ⟨_, rfl, sysRun_pending legal_iff _⟩
    case csrrd => cases hF; cases hD; exact ⟨_, rfl, sysRun_pending legal_iff _⟩
    case qroute => cases hF; cases hD; exact ⟨_, rfl, sysRun_pending legal_iff _⟩
    case qstat => cases hF; cases hD; exact ⟨_, rfl, sysRun_pending legal_iff _⟩
    case perfrd => cases hF; cases hD; exact ⟨_, rfl, sysRun_pending legal_iff _⟩
    case nop => cases hD
    all_goals cases hF
  next =>
    cases h
    have hF : engForm i = some _ := ‹engForm i = some _›
    obtain rfl := Option.some.inj (hD.symm.trans (decodeForm_of_eng hF))
    exact ⟨_, exec_eng s hF, engRun_pending _⟩
  next =>
    cases h
    have hF : shareForm i = some _ := ‹shareForm i = some _›
    obtain rfl := Option.some.inj (hD.symm.trans (decodeForm_of_share hF))
    exact ⟨_, exec_share hF s, shareRun_pending _⟩
  next =>
    cases i
    case csrwr => cases h; cases hD; exact ⟨_, rfl, sysRun_pending legal_iff _⟩
    case mbr => cases h; cases hD; exact ⟨_, rfl, sysRun_pending legal_iff _⟩
    case mark => cases h; cases hD; exact ⟨_, rfl, onceRun_pending legal_iff _⟩
    case accalloc => cases h; cases hD; exact ⟨_, rfl, onceRun_pending legal_iff _⟩
    case trap => cases h; cases hD; exact ⟨_, rfl, trap_pending _ _ fun a gr s n hn => by simp only [hn]⟩
    all_goals cases h

end Pending

/-! ## Step 4 in loads and guarded instructions (R217, R218) -/

section Accesses

variable {i : Instr} {s : State} {g : Nat} {set : List Nat} {gr : Group} {before after : List Nat} {t n : Nat}

/-- R276. The first trap among the checks of the lower parts stops the set, and nothing is performed. -/
theorem rounds_trap {a : Act} {s : State} {who : List Nat} {lo hi : Nat → Chk} {low : List Nat} {lower : State → State}
    {k : BitVec 8} {d : Word} (h : firstBad lo a.set = some (t, .fault k d)) (rest : State) :
    (if (!(a.rounds s who lo hi low lower).2) = true then (a.rounds s who lo hi low lower).1 else rest) =
      s.takeTrap a.g who t k d := by
  simp only [Act.rounds, h]
  rfl

theorem load_unwaited {F : LoadForm} (hF : loadForm i = some F) (h : Issuing s g (before ++ t :: after) gr) (hw : i.wf = true)
    (hf : fieldsFault gr.budget F.fields = none)
    (hb : ∀ u ∈ before, NonePending gr (inThread u (ownRegs F.fields)) ∧ ∃ l, s.lowCheck gr.key false (F.target gr u) = .ok l)
    (ht : pendingIn gr (inThread t (ownRegs F.fields)) = some n) :
    exec i s = .next ((idle s).takeTrap g (before ++ t :: after) t tUnwaited (BitVec.ofNat 32 n)) := by
  rw [exec_load hF s, withIssue_eq i s _ g _ gr h hw]
  have hf' : fieldsFault gr.budget [regF F.base (if F.glob then 2 else 1), outF F.d (max 1 (F.size / 4))] = none := hf
  have hbad : firstBad (fun u => (pendChk gr (inThread u (ownRegs F.fields))).and ((idle s).lowCheck gr.key false (F.target gr u)))
      (theAct i g (before ++ t :: after) gr).set = some (t, .fault tUnwaited (BitVec.ofNat 32 n)) :=
    firstBad_at (fun u hu => and_ok ⟨_, pendChk_ok _ _ (hb u hu).1⟩ (hb u hu).2) (and_fault _ (pendChk_some ht))
  refine congrArg Host.Outcome.next ?_
  unfold loadRun
  simp only [hf']
  exact rounds_trap hbad _

variable (gd : BitVec 6) (fs : List Field) (who : List Nat) (f : Nat → Chk)

/-- A thread passes where no guard is pending and, if it acts, nothing else is pending and its access passes. -/
theorem accessChk_pass {u : Nat} (hg : NonePending gr (inThread u (regSpan gd.toNat 1)))
    (ha : u ∈ who → NonePending gr (inThread u (ownRegs fs)) ∧ ∃ l, f u = .ok l) : ∃ l, accessChk gr gd fs who f u = .ok l := by
  unfold accessChk guardedCheck
  by_cases hu : u ∈ who
  · have hc : who.contains u = true := by simpa using hu
    simp only [hc, if_true]
    exact and_ok (and_ok ⟨_, pendChk_ok _ _ hg⟩ ⟨_, pendChk_ok _ _ (ha hu).1⟩) (ha hu).2
  · have hc : who.contains u = false := by simpa using hu
    simp only [hc, Bool.false_eq_true, if_false]
    exact and_ok (and_ok ⟨_, pendChk_ok _ _ hg⟩ ⟨_, rfl⟩) ⟨_, rfl⟩

theorem accessChk_guard (ht : pendingIn gr (inThread t (regSpan gd.toNat 1)) = some n) :
    accessChk gr gd fs who f t = .fault tUnwaited (BitVec.ofNat 32 n) :=
  and_fault _ (and_fault _ (pendChk_some ht))

theorem accessChk_acts (hg : NonePending gr (inThread t (regSpan gd.toNat 1))) (hw : t ∈ who)
    (ht : pendingIn gr (inThread t (ownRegs fs)) = some n) : accessChk gr gd fs who f t = .fault tUnwaited (BitVec.ofNat 32 n) := by
  have hc : who.contains t = true := by simpa using hw
  unfold accessChk guardedCheck
  simp only [hc, if_true, pendChk_ok _ _ hg]
  exact and_fault _ (pendChk_some ht)

variable {gd}

/-- R217. A guard names one register, or none. -/
theorem isPend_of_pendingIn_guard (ht : pendingIn gr (inThread t (regSpan gd.toNat 1)) = some n) :
    (gr.thread t).isPend gd.toNat = true := by
  unfold regSpan at ht
  split at ht
  · simp only [inThread, List.range_one, List.map_cons, List.map_nil, Nat.add_zero, pendingIn] at ht
    split at ht
    · assumption
    · cases ht
  · cases ht

theorem nonePending_guard (h : (gr.thread t).isPend gd.toNat = false) : NonePending gr (inThread t (regSpan gd.toNat 1)) := by
  intro p hp
  unfold regSpan at hp
  split at hp
  · simp only [inThread, List.range_one, List.map_cons, List.map_nil, Nat.add_zero, List.mem_singleton] at hp
    rw [hp]
    exact h
  · simp [inThread] at hp

/-- R218. The set that a trap of a guarded instruction stops: all where a guard is pending, else the threads that act. -/
theorem guardedSet_pending (ht : t ∈ set) (h : (gr.thread t).isPend gd.toNat = true) : guardedSet gr gd set who = set :=
  if_pos (List.any_eq_true.2 ⟨t, ht, h⟩)

theorem guardedSet_clear (h : ∀ u ∈ set, (gr.thread u).isPend gd.toNat = false) : guardedSet gr gd set who = who :=
  if_neg fun e => by
    obtain ⟨u, hu, hp⟩ := List.any_eq_true.1 e
    exact absurd ((h u hu).symm.trans hp) (by decide)

variable {k : BitVec 8} {d : Word} (h : Issuing s g set gr) (hw : i.wf = true)
include h hw

theorem store_trap {F : StoreForm} (hF : storeForm i = some F) (hf : fieldsFault gr.budget F.fields = none)
    (hbad : firstBad (accessChk gr F.guard F.fields (guarded gr F.n F.guard set) fun t => s.lowCheck gr.key true (F.target gr t)) set =
      some (t, .fault k d)) :
    exec i s = .next ((idle s).takeTrap g (guardedSet gr F.guard set (guarded gr F.n F.guard set)) t k d) := by
  rw [exec_store hF s, withIssue_eq i s _ g _ gr h hw]
  have hf' : fieldsFault gr.budget [regF F.base (if F.glob then 2 else 1), regF F.guard,
    { num := F.d.toNat, size := max 1 (F.size / 4), qr := F.size = 4 }] = none := hf
  refine congrArg Host.Outcome.next ?_
  unfold storeRun
  simp only [hf']
  exact rounds_trap hbad _

theorem atomic_trap {F : AtomicForm} (hF : atomicForm i = some F) (hf : fieldsFault gr.budget F.fields = none)
    (hbad : firstBad (accessChk gr F.guard F.fields (guarded gr F.n F.guard set) fun t => s.lowCheck gr.key true (F.target gr t)) set =
      some (t, .fault k d)) :
    exec i s = .next ((idle s).takeTrap g (guardedSet gr F.guard set (guarded gr F.n F.guard set)) t k d) := by
  rw [exec_atomic hF s, withIssue_eq i s _ g _ gr h hw]
  have hf' : fieldsFault gr.budget [regF F.base 2, regF F.guard, updF F.d (atomicSpan F.op)] = none := hf
  refine congrArg Host.Outcome.next ?_
  unfold atomicRun
  simp only [hf']
  exact rounds_trap hbad _

theorem branch_trap {F : BranchForm} (hF : branchForm i = some F) (hf : fieldsFault gr.budget F.fields = none)
    (hbad : firstBad (accessChk gr F.guard F.fields (guarded gr F.n F.guard set) fun _ => .ok (.scr 0)) set = some (t, .fault k d)) :
    exec i s = .next ((idle s).takeTrap g (guardedSet gr F.guard set (guarded gr F.n F.guard set)) t k d) := by
  obtain ⟨taken, hexec⟩ := exec_branch hF
  rw [hexec s, withIssue_eq i s _ g _ gr h hw]
  have hchecks : guardChecks (theAct i g set gr) gr (idle s) F.n F.guard (regF F.guard :: F.more) =
      some ((idle s).takeTrap g (guardedSet gr F.guard set (guarded gr F.n F.guard set)) t k d) := by
    have hf' : fieldsFault gr.budget (regF F.guard :: F.more) = none := hf
    have hbad' : firstBad (accessChk gr F.guard (regF F.guard :: F.more) (guarded gr F.n F.guard (theAct i g set gr).set)
      fun _ => .ok (.scr 0)) (theAct i g set gr).set = some (t, .fault k d) := hbad
    simp only [guardChecks, hf', hbad']
    rfl
  simp only [branchRun, hchecks]

/-- A guarded instruction stops with the first trap that the checks of its threads find. -/
theorem exec_guarded_trap {F : GuardForm} (hF : guardForm i = some F) (hf : fieldsFault gr.budget F.fields = none)
    (hbad : firstBad (accessChk gr F.guard F.fields (guarded gr F.n F.guard set) (F.access s gr)) set = some (t, .fault k d)) :
    exec i s = .next ((idle s).takeTrap g (guardedSet gr F.guard set (guarded gr F.n F.guard set)) t k d) := by
  unfold guardForm at hF
  split at hF
  next => cases hF; exact store_trap h hw ‹storeForm i = some _› hf hbad
  next => cases hF; exact atomic_trap h hw ‹atomicForm i = some _› hf hbad
  next => cases hF; exact branch_trap h hw ‹branchForm i = some _› hf hbad
  next => cases hF

end Accesses

/-! ## The traps of a lane operation (R304) -/

section Lane

variable {op : LaneOp} {i : Instr} {s : State} {g : Nat} {set : List Nat} {gr : Group}

/-- R71. The features of a lane operation, and the kind of thread that may run it. -/
def LaneRuns (op : LaneOp) (s : State) (gr : Group) : Prop :=
  (∀ n ∈ op.need, s.feature n = true) ∧ (op.noHandler = true → gr.key.kind ≠ .handler)

theorem laneRuns_iff (op : LaneOp) (s : State) (gr : Group) :
    (!(op.need.all s.feature) || (op.noHandler && gr.key.kind == .handler)) = true ↔ ¬ LaneRuns op s gr := by
  simp [LaneRuns, or_iff_not_imp_left]

variable (a : Act)

theorem check_illegal (h : ¬ LaneRuns op s gr) : op.check a gr s = some (a.lead, tIllegalOp, a.word) :=
  if_pos ((laneRuns_iff op s gr).2 h)

variable (h : LaneRuns op s gr)
include h

theorem check_field {r : Word} (hr : fieldsFault gr.budget op.fields = some r) : op.check a gr s = some (a.lead, tIllegalReg, r) := by
  have hruns := fun e => (laneRuns_iff op s gr).1 e h
  simp only [LaneOp.check, if_neg hruns, hr]

theorem check_thread (hr : fieldsFault gr.budget op.fields = none) {t : Nat} {k : BitVec 8} {d : Word}
    (hbad : firstBad (op.threadCheck gr) a.set = some (t, .fault k d)) : op.check a gr s = some (t, k, d) := by
  have hruns := fun e => (laneRuns_iff op s gr).1 e h
  simp only [LaneOp.check, if_neg hruns, hr, hbad]

omit h

/-- R217. Without qs a thread meets its pending registers alone. -/
theorem threadCheck_of_quiet (hs : op.sends = false) : op.threadCheck gr = fun u => pendChk gr (op.regs gr u) := by
  funext u
  simp [LaneOp.threadCheck, hs]

theorem threadCheck_unrouted {t : Nat} (hs : op.sends = true) (ht : (gr.thread t).route = none) :
    op.threadCheck gr t = .fault tIllegalReg 60 :=
  if_pos (by simp [hs, ht])

theorem threadCheck_routed {t : Nat} (ht : (gr.thread t).route ≠ none) : op.threadCheck gr t = pendChk gr (op.regs gr t) :=
  if_neg (by simpa [Option.isNone_iff_eq_none] using fun _ => ht)

/-- A lane instruction takes the trap that its check finds. -/
theorem exec_lane_takes {t : Nat} {k : BitVec 8} {d : Word} (hF : laneForm i = some op) (h : Issuing s g set gr) (hw : i.wf = true)
    (hx : op.check (theAct i g set gr) gr (idle s) = some (t, k, d)) : exec i s = .next ((idle s).takeTrap g set t k d) := by
  rw [exec_lane_trap i op s g set gr _ hF h hw hx]
  rfl

end Lane

/-- Settles O12: step by step of Table 11.20, for the lane operations and then for the other families by their forms. -/
theorem laneTraps : Obligations.LaneTraps := by
  refine ⟨fun i op s g set gr hF h hw => ?lane, fun i s g set gr he hw h => ?reserved, fun i D s g set gr hD h hw => ?decode,
    fun i F s g set gr t n before after hF h hw hf hset hb ht => ?load,
    fun i F s g set gr t n before after hF h hw hf hset => ?guarded,
    fun i D regs one s g set gr t n hp hD h hw hneed hruns hf ht => ?pending⟩
  case lane =>
    intro featured
    have take {t : Nat} {k : BitVec 8} {d : Word} (hx : op.check (theAct i g set gr) gr (idle s) = some (t, k, d)) :
        exec i s = .next ((idle s).takeTrap g set t k d) := exec_lane_takes hF h hw hx
    refine ⟨fun hn => take (check_illegal _ hn), fun r hy hr => take (check_field _ hy hr), fun t n hy hr hs ht => ?_,
      fun t before after hy hr hs hset hb => ?_⟩
    · refine take (check_thread _ hy hr ?_)
      rw [threadCheck_of_quiet hs]
      exact firstBad_pendChk ht
    · have hpass : ∀ u ∈ before, ∃ l, op.threadCheck gr u = .ok l := fun u hu =>
        ⟨_, (threadCheck_routed (hb u hu).1).trans (pendChk_ok _ _ (hb u hu).2)⟩
      have stops {k : BitVec 8} {d : Word} (ht : op.threadCheck gr t = .fault k d) :
          exec i s = .next ((idle s).takeTrap g set t k d) :=
        take (check_thread _ hy hr (by rw [show (theAct i g set gr).set = before ++ t :: after from hset]; exact firstBad_at hpass ht))
      exact ⟨fun hno => stops (threadCheck_unrouted hs hno),
        fun n hroute hp => stops ((threadCheck_routed hroute).trans (pendChk_some hp))⟩
  case reserved =>
    obtain ⟨f, hexec⟩ := exec_encoded he s
    rw [hexec, withIssue_of_not_wf f h hw]
    rfl
  case decode =>
    intro runs
    obtain ⟨f, hexec, hchecks⟩ := exec_decodeChecks hD s
    rw [hexec, withIssue_eq i s f g set gr h hw]
    exact ⟨fun hn => congrArg Host.Outcome.next (hchecks.illegal _ gr (idle s) hn),
      fun r hy hr => congrArg Host.Outcome.next (hchecks.field _ gr (idle s) r hy hr)⟩
  case load =>
    subst hset
    exact load_unwaited hF h hw hf hb ht
  case guarded =>
    intro who hb
    have hpass : ∀ u ∈ before, ∃ l, accessChk gr F.guard F.fields who (F.access s gr) u = .ok l := fun u hu =>
      accessChk_pass _ _ _ _ (hb u hu).1 (hb u hu).2
    have stops {k : BitVec 8} {d : Word} (ht : accessChk gr F.guard F.fields who (F.access s gr) t = .fault k d) :
        exec i s = .next ((idle s).takeTrap g (guardedSet gr F.guard set who) t k d) := by
      have hbad := firstBad_at (after := after) hpass ht
      rw [← hset] at hbad
      exact exec_guarded_trap h hw hF hf hbad
    have hin : t ∈ set := by simp [hset]
    refine ⟨fun ht => ?_, fun hclear hmem ht => ?_⟩
    · have hexec := stops (accessChk_guard _ _ _ _ ht)
      rwa [guardedSet_pending _ hin (isPend_of_pendingIn_guard ht)] at hexec
    · have hexec := stops (accessChk_acts _ _ _ _ (nonePending_guard (hclear t hin)) hmem ht)
      rwa [guardedSet_clear _ hclear] at hexec
  case pending =>
    obtain ⟨f, hexec, hchecks⟩ := exec_pendChecks hp hD s
    rw [hexec, withIssue_eq i s f g set gr h hw]
    exact congrArg Host.Outcome.next (hchecks _ gr (idle s) t n ⟨hneed, hruns⟩ hf ht)

end Sys2Proof.Proofs

namespace Sys2Proof.Proofs

open Sys2Proof.Machine Sys2Proof.Safety Sys2Proof.Laws
open Host (Cell)

/-! # BAR2 and window reads (spec/04_host_and_partitions.md R65 to R67)

## Sealing writes STATUS words alone (R90, R195) -/

section Sealing

/-- R195. Nodes are staged and sealed, and STATUS words written; nothing else changes. -/
structure Seals (s t : State) : Prop where
  only : OnlyStores ⟨0, 0, 0⟩ [] s t
  frame : ∃ nodes mem, t = { s with nodes := nodes, mem := mem }

variable {s t u : State}

theorem seals_refl (s : State) : Seals s s := ⟨onlyStores_refl .., s.nodes, s.mem, rfl⟩

theorem Seals.trans (h : Seals s t) (h' : Seals t u) : Seals s u := by
  obtain ⟨nodes, mem, ht⟩ := h.frame
  obtain ⟨nodes', mem', hu⟩ := h'.frame
  exact ⟨onlyStores_trans h.only h'.only, nodes', mem', by rw [hu, ht]⟩

theorem seals_foldl {α : Type} {f : State → α → State} (h : ∀ s x, Seals s (f s x)) (l : List α) (s : State) :
    Seals s (l.foldl f s) := by
  induction l generalizing s with
  | nil => exact seals_refl s
  | cons x l ih => exact (h s x).trans (ih (f s x))

theorem stageFor_seals (s : State) (who : Option (Nat × Word)) (page : Nat) : Seals s (s.stageFor who page) :=
  ⟨stageFor_only .., _, _, stageFor_eq s who page⟩

theorem sealNode_plain (cause : Nat) (n : Node) : plainNode (sealNode cause n) = plainNode n := by
  unfold sealNode
  split <;> rfl

theorem seal_seals (s : State) (c : Nat) (r : Word) (cause : Nat) : Seals s (s.seal c r cause) := by
  refine ⟨⟨rfl, ?_, rfl, id, fun _ _ _ _ => rfl, fun _ _ _ _ => rfl⟩, _, s.mem, rfl⟩
  simp only [State.seal, State.modNode, List.map_map]
  refine List.map_congr_left fun n _ => ?_
  simp only [Function.comp]
  split
  · exact sealNode_plain cause n
  · rfl

/-- R90. The STATUS of a node of the state, stored by the device. -/
theorem devStatus_seals {n : Node} (hn : Known s n) (v : Nat) : Seals s (s.devStore n.ctx (n.addr + 104) (natBytes 4 v)) := by
  unfold State.devStore
  split
  next p hp =>
    have hstage := stageFor_seals s none (p / 65536)
    have hctx : (s.stageFor none (p / 65536)).ctx n.ctx = s.ctx n.ctx := by
      obtain ⟨nodes, mem, h⟩ := hstage.frame
      rw [h]
      rfl
    refine hstage.trans ⟨statusWrite_only _ _ _ n (known_only hstage.only hn) p v (by rwa [hctx]), _, _, rfl⟩
  next => exact seals_refl s

theorem node?_spec {c : Nat} {ref : Word} {n : Node} (h : s.node? c ref = some n) : n ∈ s.nodes ∧ n.ctx = c := by
  have hsome := List.find?_some h
  exact ⟨List.mem_of_find?_eq_some h, by simp_all⟩

theorem putStatus_seals (s : State) (c : Nat) (ref : Word) : Seals s (s.putStatus c ref) := by
  unfold State.putStatus
  split
  next n hn =>
    obtain ⟨hmem, rfl⟩ := node?_spec hn
    exact devStatus_seals ⟨n, hmem, rfl⟩ _
  next => exact seals_refl s

theorem sealNow_seals (s : State) (c : Nat) (ref : Word) (cause : Nat) : Seals s (s.sealNow c ref cause) := by
  unfold State.sealNow
  split
  · split
    · exact (seal_seals ..).trans (putStatus_seals ..)
    · exact seals_refl s
  · exact seals_refl s

theorem sealStaged_seals (s : State) (pages : List Nat) : Seals s (s.sealStaged pages) :=
  seals_foldl (fun (s : State) (n : Node) => sealNow_seals s n.ctx n.ref 3) _ s

/-- R195. Where no node has staged a page, none is sealed. -/
theorem sealStaged_of_unstaged (h : ∀ n ∈ s.nodes, n.staged = []) (pages : List Nat) : s.sealStaged pages = s := by
  have hnone : (s.nodes.filter fun n => n.state == .running && n.staged.any fun p => pages.contains p.1) = [] :=
    List.filter_eq_nil_iff.2 fun n hn => by simp [h n hn]
  rw [State.sealStaged, hnone]
  rfl

end Sealing

/-! ## Bytes written at a list of addresses (R65) -/

section Bytes

variable {ps : List Nat} {bytes : List Byte} {m : List Cell}

/-- The bytes of a host write, each at its address. -/
def writeEach (ps : List Nat) (bytes : List Byte) (m : List Cell) : List Cell :=
  (ps.zip bytes).foldl (fun m x => cellsSet m x.1 x.2) m

theorem writeEach_cons (p : Nat) (b : Byte) : writeEach (p :: ps) (b :: bytes) m = writeEach ps bytes (cellsSet m p b) := rfl

theorem get_writeEach_other (hm : cellsWf m = true) {a : Nat} (ha : a ∉ ps) : cellsGet (writeEach ps bytes m) a = cellsGet m a := by
  induction ps generalizing bytes m with
  | nil => rfl
  | cons p ps ih =>
    cases bytes with
    | nil => rfl
    | cons b bytes =>
      obtain ⟨hp, hps⟩ := List.ne_and_not_mem_of_not_mem_cons ha
      rw [writeEach_cons, ih (set_wf m p b hm) hps, get_set m p a b hm, if_neg hp]

theorem get_writeEach_at (hm : cellsWf m = true) (hn : ps.Nodup) {i p : Nat} {b : Byte} (hp : ps[i]? = some p)
    (hb : bytes[i]? = some b) : cellsGet (writeEach ps bytes m) p = b := by
  induction ps generalizing bytes m i with
  | nil => cases hp
  | cons q ps ih =>
    cases bytes with
    | nil => cases hb
    | cons c bytes =>
      obtain ⟨hq, hn⟩ := List.nodup_cons.1 hn
      rw [writeEach_cons]
      cases i with
      | zero =>
        cases hp
        cases hb
        rw [get_writeEach_other (set_wf m p b hm) hq, get_set m p p b hm, if_pos rfl]
      | succ i => exact ih (set_wf m q c hm) hn hp hb

end Bytes

/-! ## Requests of BAR2 (R65, R66, R148, R368, logs 52 and 93) -/

section Bar2

variable {s : State} {part stream : Nat}

theorem vfAccess_of_free (h : (s.part part).state = .free) : s.vfAccess part stream = .const 0 := by
  simp [State.vfAccess, h]

theorem vfAccess_of_error (hready : s.boot.status = .ready) (hgiven : (s.part part).state ≠ .free) (h : (s.part part).vf = .error) :
    s.vfAccess part stream = .const 0xFF := by
  simp [State.vfAccess, hready, hgiven, h]

variable (off len : Nat) (poisoned : Bool) (bytes : List Byte)

theorem exec_bar2Read_const {b : Byte} (h : s.vfAccess part stream = .const b) : exec (.hostBar2Read part stream off len poisoned) s =
    .next { s with readData := List.replicate len b, readPoisoned := false } := by
  show execHostBar2Read part stream off len poisoned s = _
  simp only [execHostBar2Read, h, event]

theorem exec_bar2Read_unsupported (h : s.vfAccess part stream = .unsupported) :
    exec (.hostBar2Read part stream off len poisoned) s =
      .next { s.countUnsupported part with readData := [], readPoisoned := false } := by
  show execHostBar2Read part stream off len poisoned s = _
  simp only [execHostBar2Read, h, event]

theorem exec_bar2Read_serve (h : s.vfAccess part stream = .serve) {ps : List Nat} (hps : (s.part part).barRun off len = some ps) :
    exec (.hostBar2Read part stream off len poisoned) s = .next { s.sealStaged (ps.map (· / 65536)) with
      readData := ps.map (cellsGet s.mem), readPoisoned := poisoned } := by
  show execHostBar2Read part stream off len poisoned s = _
  simp only [execHostBar2Read, h, hps, event]

theorem exec_bar2Write_const {b : Byte} (h : s.vfAccess part stream = .const b) :
    exec (.hostBar2Write part stream off bytes) s = .next s := by
  show execHostBar2Write part stream off bytes s = _
  simp only [execHostBar2Write, h, event]

theorem exec_bar2Write_unsupported (h : s.vfAccess part stream = .unsupported) :
    exec (.hostBar2Write part stream off bytes) s = .next (s.countUnsupported part) := by
  show execHostBar2Write part stream off bytes s = _
  simp only [execHostBar2Write, h, event]

/-- R65, R195. What a served write does to the nodes first: those that have staged its pages are sealed. -/
def bar2Staged (s : State) (ps : List Nat) : State :=
  (ps.map (· / 65536)).dedup.foldl (fun s p => s.stageFor none p) (s.sealStaged (ps.map (· / 65536)).dedup)

theorem bar2Staged_seals (s : State) (ps : List Nat) : Seals s (bar2Staged s ps) :=
  (sealStaged_seals ..).trans (seals_foldl (fun (s : State) (p : Nat) => stageFor_seals s none p) _ _)

theorem exec_bar2Write_serve (h : s.vfAccess part stream = .serve) {ps : List Nat}
    (hps : (s.part part).barRun off bytes.length = some ps) : exec (.hostBar2Write part stream off bytes) s =
      .next (if (ps.any fun p => s.registered part p || s.hampered part p) = true then badSubmit s part
        else { bar2Staged s ps with mem := writeEach ps bytes (bar2Staged s ps).mem }) := by
  show execHostBar2Write part stream off bytes s = _
  simp only [execHostBar2Write, h, hps, event]
  rfl

/-- R134. A served write leaves in memory its own bytes, and changes no others but STATUS words. -/
theorem bar2Write_changes (ps : List Nat) (hw : s.memWf = true) :
    let t := { bar2Staged s ps with mem := writeEach ps bytes (bar2Staged s ps).mem }
    t.nodes.map plainNode = s.nodes.map plainNode ∧ { t with mem := s.mem, nodes := s.nodes } = s ∧
      (∀ a, a ∉ ps → OutsideStatus s a → cellsGet t.mem a = cellsGet s.mem a) ∧
      (ps.Nodup → ∀ (i p : Nat) (b : Byte), ps[i]? = some p → bytes[i]? = some b → cellsGet t.mem p = b) := by
  have hseals := bar2Staged_seals s ps
  have hmem : cellsWf (bar2Staged s ps).mem = true := ((memWf_iff _).1 (hseals.only.wf hw)).1
  obtain ⟨nodes, mem, hframe⟩ := hseals.frame
  refine ⟨hseals.only.nodes, ?_, fun a ha hs => ?_, fun hn i p b hp hb => get_writeEach_at hmem hn hp hb⟩
  · rw [hframe]
  · exact (get_writeEach_other hmem ha).trans (hseals.only.mem hw a (fun _ hl => (List.not_mem_nil hl).elim) hs)

end Bar2

/-! ## Reads of a window (R65 to R67, Table 4.2) -/

section WindowReads

variable {s : State} {part ctx stream : Nat} (off : Nat)

theorem windowRead_const {b : Byte} {v : DWord} (h : s.vfAccess part stream = .const b)
    (hv : BitVec.ofNat 64 (bytesNat (List.replicate 8 b)) = v) : s.windowRead part ctx stream off = (s, some v) := by
  simp only [State.windowRead, h, hv]

theorem windowRead_unsupported (h : s.vfAccess part stream = .unsupported) :
    s.windowRead part ctx stream off = (s.countUnsupported part, none) := by
  simp only [State.windowRead, h]

theorem windowRead_serve (h : s.vfAccess part stream = .serve) :
    s.windowRead part ctx stream off = (s, some (s.windowReg part ctx off)) := by
  simp only [State.windowRead, h]

theorem windowReg_badSub (s : State) (part ctx : Nat) : s.windowReg part ctx 0x10 = (s.part part).badSub.zeroExtend 64 := rfl

/-- R67. The queue registers of a window whose context is not ACTIVE read zero. -/
theorem windowReg_of_inactive (h : (s.ctx ctx).state ≠ .active) {off : Nat} (h8 : off ≠ 8) (h10 : off ≠ 0x10) :
    s.windowReg part ctx off = 0 := by
  simp [State.windowReg, h8, h10, h]

section Live

variable (h : (s.ctx ctx).state = .active) (hp : (s.ctx ctx).part = part)
include h hp

theorem windowReg_qbase {q : Nat} (hq : q < 32) : s.windowReg part ctx (0x100 + 16 * q) = ((s.ctx ctx).queue q).base := by
  have h8 : 0x100 + 16 * q ≠ 8 := by omega
  have h10 : 0x100 + 16 * q ≠ 0x10 := by omega
  have hin : 0x100 ≤ 0x100 + 16 * q ∧ 0x100 + 16 * q < 0x300 := by omega
  have hmod : (0x100 + 16 * q) % 16 = 0 := by omega
  have hidx : (0x100 + 16 * q - 0x100) / 16 = q := by omega
  simp only [State.windowReg, if_neg h8, if_neg h10, h, hp, beq_self_eq_true, Bool.and_self, Bool.not_true, Bool.false_eq_true,
    if_false, if_pos hin, if_pos hmod, hidx]

theorem windowReg_head {q : Nat} (hq : q < 32) :
    s.windowReg part ctx (0x300 + 8 * q) = ((s.ctx ctx).queue q).head.zeroExtend 64 := by
  have h8 : 0x300 + 8 * q ≠ 8 := by omega
  have h10 : 0x300 + 8 * q ≠ 0x10 := by omega
  have hout : ¬ (0x100 ≤ 0x300 + 8 * q ∧ 0x300 + 8 * q < 0x300) := by omega
  have hin : 0x300 ≤ 0x300 + 8 * q ∧ 0x300 + 8 * q < 0x400 ∧ (0x300 + 8 * q) % 8 = 0 := by omega
  have hidx : (0x300 + 8 * q - 0x300) / 8 = q := by omega
  simp only [State.windowReg, if_neg h8, if_neg h10, h, hp, beq_self_eq_true, Bool.and_self, Bool.not_true, Bool.false_eq_true,
    if_false, if_neg hout, if_pos hin, hidx]

end Live

end WindowReads

/-- Settles O51: by what the function answers a request with, and by the register that a window read names. -/
theorem hostMemory : Obligations.HostMemory := by
  refine ⟨fun s part stream off len poisoned ps hserves hps hstaged => ?read, fun s part stream off bytes ps hserves hps => ?write,
    fun s part stream off len bytes hready => ⟨fun hfree => ?free, fun hgiven herror => ?error,
      fun hgiven hrun hother => ?other, fun ctx => ?window⟩⟩
  case read =>
    rw [exec_bar2Read_serve off len poisoned (vfAccess_of_serves hserves) hps, sealStaged_of_unstaged hstaged]
  case write =>
    intro blocked
    have hexec := exec_bar2Write_serve off bytes (vfAccess_of_serves hserves) hps
    refine ⟨fun hb => hexec.trans (congrArg Host.Outcome.next (if_pos hb)), fun hb hw => ⟨_, hexec.trans (congrArg
      Host.Outcome.next (if_neg fun e => ?_)), bar2Write_changes bytes ps hw⟩⟩
    exact absurd (hb.symm.trans e) (by decide)
  case free => exact ⟨exec_bar2Read_const off len false (vfAccess_of_free hfree), exec_bar2Write_const off bytes (vfAccess_of_free hfree)⟩
  case error =>
    have h := vfAccess_of_error (stream := stream) hready hgiven herror
    exact ⟨exec_bar2Read_const off len false h, exec_bar2Write_const off bytes h⟩
  case other =>
    have h := vfAccess_of_other hready hgiven hrun hother
    exact ⟨exec_bar2Write_unsupported off bytes h, fun poisoned => exec_bar2Read_unsupported off len poisoned h⟩
  case window =>
    refine ⟨fun hfree => windowRead_const off (vfAccess_of_free hfree) (by decide),
      fun hgiven herror => windowRead_const off (vfAccess_of_error hready hgiven herror) (by decide),
      fun hgiven hrun hother => windowRead_unsupported off (vfAccess_of_other hready hgiven hrun hother),
      fun hserves => ⟨windowRead_serve off (vfAccess_of_serves hserves), windowReg_badSub s part ctx, ?inactive, ?active⟩⟩
    case inactive => exact fun hi => ⟨windowReg_of_inactive hi (by decide) (by decide), windowReg_of_inactive hi (by decide) (by decide)⟩
    case active => exact fun ha hp q hq => ⟨windowReg_qbase ha hp hq, windowReg_head ha hp hq⟩

end Sys2Proof.Proofs

namespace Sys2Proof.Proofs

open Sys2Proof.Machine Sys2Proof.Safety Sys2Proof.Laws
open Host (Cell)

/-! # Partitions, their owners, contexts and grants (spec/04_host_and_partitions.md R72 to R76)

## Resources of a partition (R72) -/

section Resources

theorem mem_insertBy {α : Type} {key : α → Nat} {x y : α} {l : List α} : y ∈ insertBy key x l ↔ y = x ∨ y ∈ l := by
  induction l with
  | nil => simp [insertBy]
  | cons z l ih =>
    unfold insertBy
    split
    · simp
    · simp only [List.mem_cons, ih]
      exact or_left_comm

/-- Sorting keeps the members of a list. -/
theorem mem_sortBy {α : Type} {key : α → Nat} {y : α} {l : List α} : y ∈ sortBy key l ↔ y ∈ l := by
  have key' : ∀ acc : List α, y ∈ l.foldl (fun acc x => insertBy key x acc) acc ↔ y ∈ acc ∨ y ∈ l := by
    induction l with
    | nil => simp
    | cons x l ih =>
      intro acc
      rw [List.foldl_cons, ih, mem_insertBy, List.mem_cons, or_comm (a := y = x), or_assoc]
  exact (key' []).trans (by simp)

theorem mem_addSorted {a b : List Nat} {x : Nat} : x ∈ addSorted a b ↔ x ∈ a ∨ x ∈ b := by
  simp only [addSorted, mem_sortBy, List.mem_append, List.mem_filter, Bool.not_eq_true', List.contains_eq_mem, decide_eq_false_iff_not]
  by_cases h : x ∈ a <;> simp [h]

variable {s : State} {dst : Nat} {clusters ranges ports ctxs : List Nat}

theorem ownsAll_pool {f : Partition → List Nat} {xs : List Nat} (h : ∀ x ∈ xs, ∀ p ∈ s.parts, x ∉ f p) :
    s.ownsAll none f xs = true := by
  simp only [State.ownsAll, List.all_eq_true, Bool.not_eq_true', List.any_eq_false, List.contains_iff_mem]
  exact h

/-- R72. A partition with the resources that come to it. -/
def assigned (s : State) (clusters ranges ports ctxs : List Nat) (x : Partition) : Partition :=
  { x with
    clusters := addSorted x.clusters clusters
    ranges := addSorted x.ranges ranges
    ports := addSorted x.ports ports
    ctxs := addSorted x.ctxs ctxs
    job := x.job.map (s.seenPeers ports) }

/-- R72. The contexts that come to a partition are its own. -/
def moveCtxs (dst : Nat) (ctxs : List Nat) (s : State) : State :=
  ctxs.foldl (fun s c => s.modCtx c fun x => { x with part := dst }) s

theorem moveCtxs_frame (s : State) : ∃ cs, moveCtxs dst ctxs s = { s with ctxs := cs } := by
  unfold moveCtxs
  induction ctxs generalizing s with
  | nil => exact ⟨s.ctxs, rfl⟩
  | cons c ctxs ih =>
    obtain ⟨cs, h⟩ := ih (s.modCtx c fun x => { x with part := dst })
    exact ⟨cs, h⟩

theorem operatorLive_iff : s.operatorLive = true ↔ s.boot.status = .ready ∧ s.fuses.lifecycle = .deployed := by
  simp [State.operatorLive]

/-- R72. Unowned resources come to a FREE partition. -/
theorem exec_partitionAssign_pool (hlive : s.operatorLive = true) (hdst : dst < 16) (hfree : (s.part dst).state = .free)
    (hclusters : ∀ x ∈ clusters, x < 64 ∧ ∀ p ∈ s.parts, x ∉ p.clusters) (hranges : ∀ x ∈ ranges, x < 768 ∧ ∀ p ∈ s.parts, x ∉ p.ranges)
    (hports : ∀ x ∈ ports, x < 24 ∧ ∀ p ∈ s.parts, x ∉ p.ports)
    (hctxs : ∀ x ∈ ctxs, x < 64 ∧ (s.ctx x).state = .free ∧ ∀ p ∈ s.parts, x ∉ p.ctxs) :
    exec (.partitionAssign none (some dst) clusters ranges ports ctxs true) s =
      .next (moveCtxs dst ctxs (s.modPart dst (assigned s clusters ranges ports ctxs))) := by
  have hbounds : (clusters.all (· < 64) && ranges.all (· < 768) && ports.all (· < 24) && ctxs.all (· < 64)) = true := by
    simp only [Bool.and_eq_true, List.all_eq_true, decide_eq_true_eq]
    exact ⟨⟨⟨fun x hx => (hclusters x hx).1, fun x hx => (hranges x hx).1⟩, fun x hx => (hports x hx).1⟩, fun x hx => (hctxs x hx).1⟩
  have hmoves : (s.mayMove none && s.mayMove (some dst) && (none != some dst)) = true := by
    simp [State.mayMove, hdst, hfree]
  have hfrees : (ctxs.all fun c => (s.ctx c).state == .free) = true := by
    simp only [List.all_eq_true, beq_iff_eq]
    exact fun c hc => (hctxs c hc).2.1
  refine (congrArg event (if_pos ?_)).trans rfl
  simp only [Bool.and_eq_true] at hbounds hmoves ⊢
  exact ⟨⟨⟨⟨⟨⟨⟨⟨⟨⟨hlive, trivial⟩, hbounds⟩, hmoves.1.1⟩, hmoves.1.2⟩, hmoves.2⟩,
    ownsAll_pool fun x hx => (hclusters x hx).2⟩, ownsAll_pool fun x hx => (hranges x hx).2⟩,
    ownsAll_pool fun x hx => (hports x hx).2⟩, ownsAll_pool fun x hx => (hctxs x hx).2.2⟩, hfrees⟩

end Resources

/-! ## The wipe of memory (R74) -/

section Wipe

/-- Cells kept by their address: the others read zero. -/
theorem get_filter {m : List Cell} (hm : cellsWf m = true) (p : Nat → Bool) (a : Nat) :
    cellsGet (m.filter fun c => p c.1) a = if p a = true then cellsGet m a else 0 := by
  induction m with
  | nil => exact (ite_self _).symm
  | cons c r ih =>
    obtain ⟨k, b⟩ := c
    obtain ⟨-, hfrom, hr⟩ := (wf_cons k b r).1 hm
    have hbelow : a ≤ k → cellsGet (r.filter fun c => p c.1) a = 0 := fun hak =>
      get_below _ a (filter_from _ _ _ fun c hc => Nat.le_trans (Nat.succ_le_succ hak) (hfrom c hc))
    rcases Nat.lt_trichotomy a k with hlt | rfl | hgt
    · have hread : ∀ l : List Cell, cellsGet ((k, b) :: l) a = 0 := fun l => by rw [cellsGet, if_pos hlt]
      rw [List.filter_cons, hread, ite_self]
      split
      · exact hread _
      · exact hbelow hlt.le
    · have hread : ∀ l : List Cell, cellsGet ((a, b) :: l) a = b := fun l => by rw [cellsGet, if_neg (lt_irrefl a), if_pos rfl]
      rw [List.filter_cons, hread]
      split
      · exact hread _
      · exact hbelow le_rfl
    · have hread : ∀ l : List Cell, cellsGet ((k, b) :: l) a = cellsGet l a := fun l => by
        rw [cellsGet, if_neg hgt.not_gt, if_neg hgt.ne']
      rw [List.filter_cons, hread, ← ih hr]
      split
      · exact hread _
      · rfl

/-- A cleared span reads zero, and every other byte as before. -/
theorem get_clear {m : List Cell} (hm : cellsWf m = true) (lo hi a : Nat) :
    cellsGet (cellsClear m lo hi) a = if lo ≤ a ∧ a < hi then 0 else cellsGet m a := by
  rw [cellsClear, get_filter hm fun k => decide (k < lo) || decide (hi ≤ k)]
  by_cases h : lo ≤ a ∧ a < hi
  · rw [if_pos h, if_neg (by simpa using h)]
  · rw [if_neg h, if_pos (by simpa [Decidable.or_iff_not_imp_left] using h)]

theorem mem_gib {a r : Nat} : r * 2 ^ 30 ≤ a ∧ a < (r + 1) * 2 ^ 30 ↔ a / 2 ^ 30 = r := by omega

/-- R74. A wiped range reads zero. -/
theorem get_wipeRanges {m : List Cell} (hm : cellsWf m = true) (ranges : List Nat) (a : Nat) :
    cellsGet (wipeRanges ranges m) a = if a / 2 ^ 30 ∈ ranges then 0 else cellsGet m a := by
  induction ranges generalizing m with
  | nil => rfl
  | cons r ranges ih =>
    refine (ih (clear_wf m _ _ hm)).trans ?_
    rw [get_clear hm]
    simp only [mem_gib, List.mem_cons]
    generalize a / 2 ^ 30 = q
    by_cases h : q ∈ ranges <;> simp [h]

end Wipe

/-! ## What ending contexts and closing sessions leaves (R73, R75, R78) -/

section Ending

variable {s t u : State} {c : Nat}

/-- R75. The contexts are as many as before, and those that have ended stay so. -/
structure EndsMore (s t : State) : Prop where
  count : t.ctxs.length = s.ctxs.length
  keeps : ∀ c, Ended s c → Ended t c

theorem endsMore_refl (s : State) : EndsMore s s := ⟨rfl, fun _ h => h⟩

theorem EndsMore.trans (h : EndsMore s t) (h' : EndsMore t u) : EndsMore s u :=
  ⟨h'.count.trans h.count, fun c hc => h'.keeps c (h.keeps c hc)⟩

theorem endsMore_foldl {α : Type} {f : State → α → State} (h : ∀ s x, EndsMore s (f s x)) (l : List α) (s : State) :
    EndsMore s (l.foldl f s) := by
  induction l generalizing s with
  | nil => exact endsMore_refl s
  | cons x l ih => exact (h s x).trans (ih (f s x))

/-- Contexts as before, and no group or node that was not there. -/
theorem endsMore_of_fewer (hctxs : t.ctxs = s.ctxs) (hgroups : ∀ g ∈ t.groups, g ∈ s.groups) (hnodes : ∀ n ∈ t.nodes, n ∈ s.nodes) :
    EndsMore s t := by
  have hctx : ∀ c, t.ctx c = s.ctx c := fun c => congrArg (fun l => l.getD c ({} : Context)) hctxs
  refine ⟨congrArg List.length hctxs, fun c h => ?_⟩
  obtain ⟨hstate, hsession, hfinal, hg, hn⟩ := h
  exact ⟨by rwa [hctx], by rwa [hctx], by rwa [hctx], fun g hmem => hg g (hgroups g hmem), fun n hmem => hn n (hnodes n hmem)⟩

/-- A change of one context that does not bring it back from its end. -/
theorem endsMore_modCtx {f : Context → Context} (hstate : ∀ x : Context, x.state = .terminated → (f x).state = .terminated)
    (hsession : ∀ x, x.session = none → (f x).session = none) (hfinal : ∀ x, x.final.isSome = true → (f x).final.isSome = true)
    (s : State) (d : Nat) : EndsMore s (s.modCtx d f) := by
  refine ⟨by simp, fun c h => ?_⟩
  obtain ⟨hs, hx, hf, hg, hn⟩ := h
  refine ⟨?_, ?_, ?_, hg, hn⟩ <;> rw [modCtx_ctx] <;> split
  · exact hstate _ hs
  · exact hs
  · exact hsession _ hx
  · exact hx
  · exact hfinal _ hf
  · exact hf

/-- R78, R371. A session that has closed: its open rounds have failed. -/
def closedSession (x : Session) : Session :=
  { x with opened := false, closed := true, rounds := [], results := x.results ++ (x.rounds.map fun r => r.fail tGateAbort).flatten }

/-- R78. A context that is in no session. -/
def outOfSession (x : Context) : Context := { x with session := none, party := 0, nparty := 0 }

/-- R78. The contexts of a session. -/
def sessionCtxs (s : State) (id : Nat) : List Nat := (s.ctxs.zipIdx.filter fun p => p.1.session == some id).map Prod.snd

theorem closeSession_def (s : State) (id : Nat) :
    s.closeSession id = (sessionCtxs s id).foldl (fun s c => s.modCtx c outOfSession) (s.modSession id closedSession) := rfl

theorem closeSession_endsMore (s : State) (id : Nat) : EndsMore s (s.closeSession id) := by
  have hsession : EndsMore s (s.modSession id closedSession) := endsMore_of_fewer rfl (fun _ h => h) fun _ h => h
  rw [closeSession_def]
  exact hsession.trans (endsMore_foldl (f := fun s c => s.modCtx c outOfSession) (endsMore_modCtx (fun _ h => h) (fun _ _ => rfl) fun _ h => h) _ _)

theorem freeTeam_endsMore (s : State) (k : TKey) : EndsMore s (s.freeTeam k) := by
  obtain ⟨honly, hgroups, -⟩ := freeTeam_eq s k
  have hctxs : (s.freeTeam k).ctxs = s.ctxs := by rw [honly.eq]
  have hnodes : (s.freeTeam k).nodes = s.nodes := by rw [honly.eq]
  refine endsMore_of_fewer hctxs (fun g hg => ?_) fun n hn => hnodes ▸ hn
  rw [hgroups] at hg
  exact List.mem_of_mem_filter hg

/-- R75, R94. The work of a context has left the machine. -/
def workless (c : Nat) (s : State) : State :=
  { s with
    nodes := s.nodes.filter fun n => n.ctx != c
    groups := s.groups.filter fun g => g.key.ctx != c
    net := s.net.filter fun w => w.ctx != c }

/-- R75, R94. The teams of a context are freed, and the rest of its work goes. -/
def dismissed (s : State) (c : Nat) : State :=
  workless c (((s.teams.filter fun t => t.key.ctx == c).map Team.key).foldl (fun s k => s.freeTeam k) s)

/-- R75, R78. A context without work, its packets cancelled and its sessions closed. -/
def sessionless (s : State) (c : Nat) : State :=
  (((dismissed s c).sessions.filter fun x =>
    !x.closed && x.parties.any fun p => p.dev == (dismissed s c).boot.devId && p.ctx == c).map Session.id).foldl
    (fun s id => s.closeSession id) ((dismissed s c).cancelPackets fun o => o.group.ctx == c)

/-- R75. A context that has ended, but for its final statement. -/
def stoppedCtx (x : Context) : Context :=
  { x with state := .terminated, session := none, party := 0, nparty := 0, basket := [], batches := [] }

/-- R75, R85. What a context that has ended holds. -/
def endedCtx (bs : List Byte) (x : Context) : Context := { stoppedCtx x with final := some bs }

/-- R75, R85, R94. Termination: the work and the sessions go, and a final statement is made. -/
theorem terminate_frame (s : State) (c : Nat) : ∃ bs boot, s.terminate c =
    { (sessionless s c).modCtx c (endedCtx bs) with boot := boot } := by
  have hdef : s.terminate c = (((sessionless s c).modCtx c stoppedCtx).statement c 1 0).1.modCtx c
    fun x => { x with final := some (((sessionless s c).modCtx c stoppedCtx).statement c 1 0).2 } := rfl
  rw [hdef]
  simp only [State.statement, State.modCtx, modify_modify]
  exact ⟨_, _, rfl⟩

theorem dismissed_endsMore (s : State) (c : Nat) : EndsMore s (dismissed s c) :=
  (endsMore_foldl freeTeam_endsMore _ s).trans
    (endsMore_of_fewer rfl (fun _ => List.mem_of_mem_filter) fun _ => List.mem_of_mem_filter)

theorem sessionless_endsMore (s : State) (c : Nat) : EndsMore s (sessionless s c) :=
  ((dismissed_endsMore s c).trans (endsMore_of_fewer (t := (dismissed s c).cancelPackets _) rfl (fun _ h => h) fun _ h => h)).trans
    (endsMore_foldl closeSession_endsMore _ _)

theorem sessionless_frame (s : State) (c : Nat) : ∃ ctxs sessions, sessionless s c =
    { (dismissed s c).cancelPackets (fun o => o.group.ctx == c) with ctxs := ctxs, sessions := sessions } :=
  foldl_ctxs_sessions _ closeSession_frame _ _

theorem sessionless_groups {g : Group} (h : g ∈ (sessionless s c).groups) : g.key.ctx ≠ c := by
  obtain ⟨ctxs, sessions, hframe⟩ := sessionless_frame s c
  rw [hframe] at h
  simpa using (List.mem_filter.1 h).2

theorem sessionless_nodes {n : Node} (h : n ∈ (sessionless s c).nodes) : n.ctx ≠ c := by
  obtain ⟨ctxs, sessions, hframe⟩ := sessionless_frame s c
  rw [hframe] at h
  simpa using (List.mem_filter.1 h).2

theorem terminate_endsMore (s : State) (c : Nat) : EndsMore s (s.terminate c) := by
  obtain ⟨bs, boot, h⟩ := terminate_frame s c
  rw [h]
  exact ((sessionless_endsMore s c).trans (endsMore_modCtx (f := endedCtx bs) (fun _ _ => rfl) (fun _ _ => rfl) (fun _ _ => rfl) _ c)).trans
    (endsMore_of_fewer rfl (fun _ h => h) fun _ h => h)

/-- R75. A context that is terminated has ended, whatever its sessions. -/
theorem terminate_ended (hc : c < s.ctxs.length) : Ended (s.terminate c) c := by
  obtain ⟨bs, boot, h⟩ := terminate_frame s c
  have hctx : (s.terminate c).ctx c = endedCtx bs ((sessionless s c).ctx c) := by
    rw [h]
    exact (modCtx_ctx ..).trans (if_pos ⟨rfl, by rwa [(sessionless_endsMore s c).count]⟩)
  refine ⟨by rw [hctx]; rfl, by rw [hctx]; rfl, by rw [hctx]; rfl, fun g hg => ?_, fun n hn => ?_⟩
  · rw [h] at hg
    exact sessionless_groups hg
  · rw [h] at hn
    exact sessionless_nodes hn

/-- R73. The contexts of a list end. -/
theorem foldl_terminate_ended {l : List Nat} (hc : c < s.ctxs.length) (h : c ∈ l) :
    Ended (l.foldl (fun s c => s.terminate c) s) c := by
  induction l generalizing s with
  | nil => cases h
  | cons d l ih =>
    rcases List.mem_cons.1 h with rfl | h
    · exact (endsMore_foldl terminate_endsMore l _).keeps c (terminate_ended hc)
    · exact ih (by rwa [(terminate_endsMore s d).count]) h

end Ending

/-! ## The contexts and sessions of a partition end (R73) -/

section EndPart

variable {s : State} {n c : Nat}

/-- R73. The ACTIVE contexts of a partition. -/
def liveCtxs (s : State) (n : Nat) : List Nat :=
  (s.ctxs.zipIdx.filter fun p => p.1.state == .active && p.1.part == n).map Prod.snd

theorem mem_liveCtxs : c ∈ liveCtxs s n ↔ c < s.ctxs.length ∧ (s.ctx c).state = .active ∧ (s.ctx c).part = n := by
  simp only [liveCtxs, List.mem_map, List.mem_filter, Prod.exists, List.mem_zipIdx_iff_getElem?, Bool.and_eq_true, beq_iff_eq,
    State.ctx, List.getD_eq_getElem?_getD]
  constructor
  · rintro ⟨x, i, ⟨hx, hstate, hpart⟩, rfl⟩
    obtain ⟨hlt, -⟩ := List.getElem?_eq_some_iff.1 hx
    rw [hx]
    exact ⟨hlt, hstate, hpart⟩
  · rintro ⟨hlt, hstate, hpart⟩
    rw [List.getElem?_eq_getElem hlt] at hstate hpart
    exact ⟨_, c, ⟨List.getElem?_eq_getElem hlt, hstate, hpart⟩, rfl⟩

theorem endPart_ended (hc : c ∈ liveCtxs s n) : Ended (s.endPart n) c :=
  (endsMore_foldl closeSession_endsMore _ _).keeps c (foldl_terminate_ended (mem_liveCtxs.1 hc).1 hc)

/-- R73. A partition without an ACTIVE context, where every session has closed, has nothing to end. -/
theorem endPart_idle (hctxs : liveCtxs s n = []) (hclosed : ∀ x ∈ s.sessions, x.closed = true) : s.endPart n = s := by
  have hnone : ∀ f : Session → Bool, (s.sessions.filter fun x => !x.closed && f x) = [] := fun f =>
    List.filter_eq_nil_iff.2 fun x hx => by simp [hclosed x hx]
  rw [liveCtxs] at hctxs
  simp only [State.endPart, hctxs, List.foldl_nil, hnone, List.map_nil]

end EndPart

/-! ## A reset (R73, R74, log 53) -/

section Reset

variable {s : State} {n : Nat} {owner : Option (BitVec 384)}

/-- R73. A partition whose resetting has begun. -/
def resetting (x : Partition) : Partition := { x with state := .resetting }

/-- R67, R73, R95. What a reset makes of a partition with an owner, or with none. -/
def cleared (owner : Option (BitVec 384)) (x : Partition) : Partition :=
  { x with
    vf := .unlocked, stream := 0, grants := [], incoming := [], reservations := [], skipped := none, owner := owner
    state := if owner.isSome then .active else .free
    pass := if owner.isSome then 0 else x.pass
    badSub := if owner.isSome then 0 else x.badSub }

/-- R74. A state whose ranges have been wiped. -/
def wiped (ranges : List Nat) (s : State) : State := { s with mem := wipeRanges ranges s.mem }

/-- R74. What a wipe leaves of core number k. -/
def wipedCore (clusters : List Nat) (k : Nat) (x : Core) : Core := if clusters.contains (k / 4) then {} else x

theorem foldl_modPort_frame (f : Port → Port) (l : List Nat) (s : State) :
    ∃ ports, l.foldl (fun s i => s.modPort i f) s = { s with ports := ports } := by
  induction l generalizing s with
  | nil => exact ⟨s.ports, rfl⟩
  | cons i l ih =>
    obtain ⟨ports, h⟩ := ih (s.modPort i f)
    exact ⟨ports, h⟩

/-- R73 steps 4 to 7. What a reset does once the contexts and sessions have ended. -/
def clearPart (n : Nat) (p : Partition) (owner : Option (BitVec 384)) (e : State) : State :=
  (wipeCores p.clusters (wiped p.ranges
    (p.ports.foldl (fun s i => s.modPort i Port.abandon) (e.modFabric fun f => f.resetPart n p)))).modPart n (cleared owner)

theorem resetPart_def (s : State) (n : Nat) (owner : Option (BitVec 384)) :
    s.resetPart n owner = clearPart n (s.part n) owner ((s.modPart n resetting).endPart n) := by
  rfl

theorem clearPart_frame (n : Nat) (p : Partition) (owner : Option (BitVec 384)) (e : State) : ∃ fabric ports, clearPart n p owner e =
    { e with
      fabric := fabric, ports := ports, mem := wipeRanges p.ranges e.mem
      cores := e.cores.mapIdx (wipedCore p.clusters), parts := e.parts.modify n (cleared owner) } := by
  obtain ⟨ports, h⟩ := foldl_modPort_frame Port.abandon p.ports (e.modFabric fun f => f.resetPart n p)
  rw [clearPart, h]
  exact ⟨_, _, rfl⟩

theorem exec_reset {i : Instr} (hready : s.boot.status = .ready) (hn : n < 16)
    (hi : i = .partitionReset n ∧ owner = (s.part n).owner ∨ i = .ownerChange n ⟨owner, true⟩ ∧ s.fuses.lifecycle = .deployed) :
    exec i s = .next (s.resetPart n owner) := by
  rcases hi with ⟨rfl, rfl⟩ | ⟨rfl, hdep⟩
  · exact congrArg event (if_pos (by simp [hready, hn]))
  · exact congrArg event (if_pos (by simp [State.operatorLive, hready, hdep, hn]))

/-- R73. A reset ends each ACTIVE context of the partition. -/
theorem resetPart_ended {c : Nat} (hc : c < s.ctxs.length) (hactive : (s.ctx c).state = .active) (hpart : (s.ctx c).part = n) :
    Ended (s.resetPart n owner) c := by
  have hended : Ended ((s.modPart n resetting).endPart n) c := endPart_ended (mem_liveCtxs.2 ⟨hc, hactive, hpart⟩)
  obtain ⟨fabric, ports, h⟩ := clearPart_frame n (s.part n) owner ((s.modPart n resetting).endPart n)
  rw [resetPart_def, h]
  generalize (s.modPart n resetting).endPart n = e at hended
  have hmore : EndsMore e { e with
      fabric := fabric, ports := ports, mem := wipeRanges (s.part n).ranges e.mem
      cores := e.cores.mapIdx (wipedCore (s.part n).clusters), parts := e.parts.modify n (cleared owner) } :=
    endsMore_of_fewer rfl (fun _ h => h) fun _ h => h
  exact hmore.keeps c hended

section Idle

variable (hctxs : ∀ c, c < s.ctxs.length → (s.ctx c).state = .active → (s.ctx c).part ≠ n)
  (hclosed : ∀ x ∈ s.sessions, x.closed = true)
include hctxs hclosed

/-- R73, R74. A reset with nothing to end. -/
theorem resetPart_idle (owner : Option (BitVec 384)) : ∃ fabric ports, s.resetPart n owner =
    { s with
      fabric := fabric, ports := ports, mem := wipeRanges (s.part n).ranges s.mem
      cores := s.cores.mapIdx (wipedCore (s.part n).clusters), parts := (s.modPart n fun x => cleared owner (resetting x)).parts } := by
  have hlive : liveCtxs (s.modPart n resetting) n = [] := List.eq_nil_iff_forall_not_mem.2 fun c hc => by
    obtain ⟨hlt, hactive, hpart⟩ := mem_liveCtxs.1 hc
    exact hctxs c hlt hactive hpart
  rw [resetPart_def, endPart_idle hlive hclosed]
  obtain ⟨fabric, ports, h⟩ := clearPart_frame n (s.part n) owner (s.modPart n resetting)
  refine ⟨fabric, ports, h.trans ?_⟩
  simp only [State.modPart, modify_modify]

/-- R72 to R74, R95. The reset of a partition whose contexts and sessions have ended. -/
theorem resetPart_changes (owner : Option (BitVec 384)) (hn : n < s.parts.length) (hmem : s.memWf = true) :
    let t := s.resetPart n owner
    (t.part n).owner = owner ∧ (t.part n).state = (if owner.isSome then .active else .free) ∧
      (∀ j, j ≠ n → t.part j = s.part j) ∧ (owner.isSome = true → (t.part n).pass = 0 ∧ (t.part n).badSub = 0) ∧
      (t.part n).vf = .unlocked ∧ (t.part n).grants = [] ∧ (t.part n).clusters = (s.part n).clusters ∧
      (∀ a, cellsGet t.mem a = if a / 2 ^ 30 ∈ (s.part n).ranges then 0 else cellsGet s.mem a) ∧
      (∀ k, k < s.cores.length → t.core k = if k / 4 ∈ (s.part n).clusters then {} else s.core k) ∧
      { t with parts := s.parts, mem := s.mem, cores := s.cores, fabric := s.fabric, ports := s.ports } = s := by
  obtain ⟨fabric, ports, h⟩ := resetPart_idle hctxs hclosed owner
  intro t
  have ht : t = _ := h
  have hpart : ∀ j, t.part j = (s.modPart n fun x => cleared owner (resetting x)).part j := fun j => by rw [ht]; rfl
  have hself : t.part n = cleared owner (resetting (s.part n)) := by rw [hpart, modPart_part, if_pos ⟨rfl, hn⟩]
  refine ⟨by rw [hself]; rfl, by rw [hself]; rfl, fun j hj => ?_, fun ho => ?_, by rw [hself]; rfl, by rw [hself]; rfl,
    by rw [hself]; rfl, fun a => ?_, fun k hk => ?_, by rw [ht]⟩
  · rw [hpart, modPart_part, if_neg fun e => hj e.1.symm]
  · rw [hself]
    simp [cleared, ho]
  · rw [ht]
    exact get_wipeRanges ((memWf_iff s).1 hmem).1 _ a
  · rw [ht]
    simp [State.core, wipedCore, List.getD_eq_getElem?_getD, hk]

end Idle

end Reset

/-! ## Contexts and grants (R71, R75, R76, R331) -/

section Contexts

variable {s : State} {part ctx : Nat}

/-- R75. A context that a request makes ACTIVE. -/
def activated (part : Nat) (seed : DWord) (cores : List Nat) (codeBase : DWord) (codeSize : Nat) (dumpBase : DWord) (dumpSize : Nat)
    (log : DWord) (maps : List Mapping) (now : Nat) : Context :=
  { state := .active, part := part, seed := seed, cores := addSorted [] cores, codeBase := codeBase, codeSize := codeSize,
    dumpBase := dumpBase, dumpSize := dumpSize, logBase := log, maps := maps, activeAt := now }

theorem exec_contextActivate {cores : List Nat} {codeBase : DWord} {codeSize : Nat} {maps : List Mapping}
    (hok : s.activationOk part ctx cores codeBase codeSize maps = true) (seed dumpBase : DWord) (dumpSize : Nat) (log : DWord) :
    exec (.contextActivate part ctx seed cores codeBase codeSize dumpBase dumpSize log maps true) s =
      .next ({ s with accepted := some s.latched }.modCtx ctx fun _ =>
        activated part seed cores codeBase codeSize dumpBase dumpSize log maps s.time) :=
  congrArg event (if_pos hok)

theorem exec_contextFree (h : (s.ctx ctx).state = .terminated) :
    exec (.contextFree ctx true) s = .next (s.modCtx ctx fun c => { part := c.part }) :=
  congrArg event (if_pos (by simp [h]))

theorem exec_remoteGrant {g : Grant} (hactive : (s.part part).state = .active) (hroom : (s.part part).grants.length < 16)
    (hbase : g.base.toNat % 65536 = 0) (hsize : g.size % 65536 = 0) :
    exec (.remoteGrant part g true) s = .next (s.modPart part fun p => { p with grants := p.grants ++ [g] }) :=
  congrArg event (if_pos (by simp [hactive, hroom, hbase, hsize]))

end Contexts

/-- Settles O52: each request by what it checks; a reset by what ending its contexts and sessions leaves. -/
theorem partitionsChange : Obligations.PartitionsChange := by
  refine ⟨?assign, ?reset, fun s n owner => ?unsigned, ?ends, ?activate, fun s ctx h => exec_contextFree h,
    fun s part n g => ⟨fun hactive hroom hbase hsize => exec_remoteGrant hactive hroom hbase hsize, rfl⟩⟩
  case assign =>
    intro s dst clusters ranges ports ctxs hready hdep hdst hfree hclusters hranges hports hctxs hlen
    refine ⟨_, exec_partitionAssign_pool (operatorLive_iff.2 ⟨hready, hdep⟩) hdst hfree hclusters hranges hports hctxs, ?_⟩
    obtain ⟨cs, h⟩ := moveCtxs_frame (dst := dst) (ctxs := ctxs) (s.modPart dst (assigned s clusters ranges ports ctxs))
    rw [h]
    have hself : (s.modPart dst (assigned s clusters ranges ports ctxs)).part dst = assigned s clusters ranges ports ctxs (s.part dst) :=
      (modPart_part ..).trans (if_pos ⟨rfl, hlen⟩)
    refine ⟨fun x => ?_, fun j hj => (modPart_part ..).trans (if_neg fun e => hj e.1.symm), rfl⟩
    show (x ∈ ((s.modPart dst (assigned s clusters ranges ports ctxs)).part dst).clusters ↔ _) ∧ (x ∈ ((s.modPart dst _).part dst).ranges ↔ _) ∧
      (x ∈ ((s.modPart dst _).part dst).ports ↔ _) ∧ (x ∈ ((s.modPart dst _).part dst).ctxs ↔ _)
    rw [hself]
    exact ⟨mem_addSorted, mem_addSorted, mem_addSorted, mem_addSorted⟩
  case reset =>
    intro i s n owner hready hn hlen hi hmem hctxs hclosed
    exact ⟨_, exec_reset hready hn hi, resetPart_changes hctxs hclosed owner hlen hmem⟩
  case unsigned => exact congrArg event (if_neg (by simp))
  case ends =>
    intro s n c hready hn hc hactive hpart
    exact ⟨_, exec_reset hready hn (.inl ⟨rfl, rfl⟩), resetPart_ended hc hactive hpart⟩
  case activate =>
    intro s part ctx seed cores codeBase dumpBase log codeSize dumpSize maps set hready hactive hin hfree hfeature hcores hbase hsize hmin hmax
      hmaps hlen
    have hok : s.activationOk part ctx cores codeBase codeSize maps = true := by
      have hlatched : s.latched.getLsbD 0 = true := hfeature
      simp only [State.activationOk, hready, hactive, hfree, hlatched, hbase, hsize, hmin, hmax, Bool.and_eq_true, List.all_eq_true,
        List.contains_iff_mem, beq_self_eq_true, decide_true, and_true, true_and]
      exact ⟨⟨hin, hcores⟩, hmaps⟩
    refine ⟨_, exec_contextActivate hok seed dumpBase dumpSize log, rfl, ?_⟩
    have hself : (({ s with accepted := some s.latched }.modCtx ctx fun _ =>
        activated part seed cores codeBase codeSize dumpBase dumpSize log maps s.time).ctx ctx) =
        activated part seed cores codeBase codeSize dumpBase dumpSize log maps s.time :=
      (modCtx_ctx ..).trans (if_pos ⟨rfl, hlen⟩)
    rw [hself]
    exact ⟨rfl, rfl, rfl, rfl, rfl, rfl, rfl, rfl, fun q hq => by rw [List.eq_of_mem_replicate hq],
      fun j hj => (modCtx_ctx ..).trans (if_neg fun e => hj e.1.symm), rfl⟩

end Sys2Proof.Proofs

namespace Sys2Proof.Proofs

open Sys2Proof.Machine Sys2Proof.Safety Sys2Proof.Laws

/-! # Stile sessions and their rounds (spec/04_host_and_partitions.md R77, R78, spec/22_isa_shares.md R366, R369 to R371) -/

/-! ## The session of an identifier -/

section Find

variable {s : State} {id : Nat} {x : Session}

theorem session?_id (h : s.session? id = some x) : x.id = id := by
  have hid : (x.id == id) = true := List.find?_some (p := fun y : Session => y.id == id) h
  exact beq_iff_eq.1 hid

/-- An update that keeps the identifier of a session is what is found under it. -/
theorem session?_modSession (h : s.session? id = some x) {f : Session → Session} (hf : (f x).id = x.id) :
    (s.modSession id f).session? id = some (f x) := by
  have hid := session?_id h
  have hfind : ∀ l : List Session, l.find? (fun y => y.id == id) = some x →
      (l.map fun y => if y.id == id then f y else y).find? (fun y => y.id == id) = some (f x) := fun l => by
    induction l with
    | nil => exact fun h => nomatch h
    | cons y l ih =>
      intro h
      by_cases hy : y.id = id
      · rw [List.find?_cons_of_pos (by simpa using hy)] at h
        obtain rfl := Option.some.inj h
        simp [hy, hf]
      · rw [List.find?_cons_of_neg (by simpa using hy)] at h
        simpa [hy] using ih h
  exact hfind s.sessions h

/-- A run of changes of contexts leaves the sessions. -/
theorem foldl_modCtx_sessions {α : Type} (c : α → Nat) (f : α → Context → Context) (l : List α) (s : State) :
    (l.foldl (fun s p => s.modCtx (c p) (f p)) s).sessions = s.sessions := by
  induction l generalizing s with
  | nil => rfl
  | cons p l ih => exact ih (s.modCtx (c p) (f p))

end Find

/-! ## Making a session (R77) -/

section Making

variable {s : State} {id ring deadline : Nat} {parties : List Party} {policy : List Nat} {consents : List Bool}

/-- R77. A session as it is made. -/
def newSession (id ring deadline : Nat) (parties : List Party) (policy : List Nat) : Session :=
  { id := id, ring := ring, deadline := if deadline = 0 then 1000000 else deadline, parties := parties, policy := policy }

theorem exec_stileSessionOpen_pathless (h : s.pathOk parties = false) :
    exec (.stileSessionOpen id ring deadline parties policy consents true) s = .next s :=
  congrArg event (if_neg (by simp [h]))

theorem exec_stileSessionOpen (hready : s.boot.status = .ready) (hok : sessionOk ring parties policy consents = true)
    (hparties : ∀ p ∈ parties, s.partyOk p = true) (hnew : ∀ x ∈ s.sessions, x.id ≠ id) (hpath : s.pathOk parties = true) :
    exec (.stileSessionOpen id ring deadline parties policy consents true) s =
      .next { s with sessions := newSession id ring deadline parties policy :: s.sessions.filter fun x => x.id != id } := by
  have hheld : s.sessionHeld id = false := List.any_eq_false.2 fun x hx => by simp [hnew x hx]
  have hall : parties.all s.partyOk = true := List.all_eq_true.2 hparties
  exact congrArg event (if_pos (by simp [hready, hok, hall, hpath, hheld]))

end Making

/-! ## Naming a hamper (R366, log 55) -/

section Naming

variable {s : State} {id n : Nat} {x : Session} {p : Party} {a : DWord} {h : List Byte}

/-- R366. A session whose party has named its hamper. -/
def withHamper (n : Nat) (a : DWord) (x : Session) : Session :=
  { x with hampers := (n, a) :: x.hampers.filter fun h => h.1 != n }

/-- R366. Whether every party of a device has named its hamper. -/
def allNamed (dev : BitVec 16) (x : Session) : Bool :=
  x.parties.zipIdx.all fun q => q.1.dev != dev || x.hampers.any fun h => h.1 == q.2

theorem allNamed_withHamper {dev : BitVec 16} : allNamed dev (withHamper n a x) = true ↔
    ∀ j q, x.parties[j]? = some q → q.dev = dev → j = n ∨ ∃ b, (j, b) ∈ x.hampers := by
  have hnamed : ∀ j, ((withHamper n a x).hampers.any fun h => h.1 == j) = true ↔ j = n ∨ ∃ b, (j, b) ∈ x.hampers := fun j => by
    by_cases hj : j = n
    · simp [withHamper, hj]
    · simp [withHamper, hj, Ne.symm hj]
  simp only [allNamed, List.all_eq_true, Bool.or_eq_true, bne_iff_ne, hnamed, Prod.forall, List.mem_zipIdx_iff_getElem?]
  exact ⟨fun hall j q hq hdev => (hall q j hq).resolve_left fun hne => hne hdev, fun hall q j hq => Decidable.or_iff_not_imp_left.2 fun hne =>
    hall j q hq (Decidable.not_not.1 hne)⟩

/-- R366. A hamper that meets the terms is named; with the last of this device, the session opens. -/
theorem exec_hamperRegionName (hx : s.session? id = some x) (hopened : x.opened = false) (hclosed : x.closed = false)
    (hp : x.parties[n]? = some p) (hdev : p.dev = s.boot.devId) (hal : a.toNat % 256 = 0)
    (hbytes : s.virtBytes p.ctx a.toNat 256 = some h) (hgood : hamperOk x.ring h = true) (hparties : ∀ q ∈ x.parties, s.partyOk q = true) :
    exec (.hamperRegionName id n a) s = .next (if allNamed s.boot.devId (withHamper n a x) = true
      then (s.modSession id fun _ => withHamper n a x).openSession (withHamper n a x) else s.modSession id fun _ => withHamper n a x) := by
  have hall : x.parties.all s.partyOk = true := List.all_eq_true.2 hparties
  show execHamperRegionName id n a s = _
  simp only [execHamperRegionName, hx, hp, hopened, hclosed, hdev, hal, hbytes, hgood, hall, bne_self_eq_false, Bool.or_self,
    Bool.false_eq_true, if_false, decide_true, Bool.and_self, Bool.not_true, allNamed, withHamper, event]

theorem exec_hamperRegionName_closed (hx : s.session? id = some x) (hclosed : x.closed = true) (n : Nat) (a : DWord) :
    exec (.hamperRegionName id n a) s = .next s := by
  show execHamperRegionName id n a s = _
  simp only [execHamperRegionName, hx, hclosed, Bool.or_true, Bool.true_or, if_true]
  split <;> rfl

/-- R77. The session that has opened is found as opened. -/
theorem session?_openSession {y : Session} (hy : s.session? id = some y) :
    (s.openSession y).session? id = some { y with opened := true } := by
  have hmod := session?_modSession hy (f := fun y => { y with opened := true }) rfl
  obtain rfl := session?_id hy
  refine Eq.trans ?_ hmod
  exact congrArg (List.find? _) (foldl_modCtx_sessions (fun q : Party × Nat => q.1.ctx)
    (fun q c => { c with session := some y.id, party := q.2, nparty := y.parties.length }) _ _)

/-- R77, R366. The session after a hamper is named: open with the last one of this device. -/
theorem session?_named (hx : s.session? id = some x) (hopened : x.opened = false) {dev : BitVec 16} :
    let named := s.modSession id fun _ => withHamper n a x
    (if allNamed dev (withHamper n a x) = true then named.openSession (withHamper n a x) else named).session? id =
      some { withHamper n a x with opened := allNamed dev (withHamper n a x) } := by
  intro named
  have hnamed : named.session? id = some (withHamper n a x) :=
    session?_modSession hx (f := fun _ => withHamper n a x) rfl
  split
  next hall => rw [session?_openSession hnamed, hall]
  next hall => rw [hnamed, Bool.eq_false_iff.2 hall, ← hopened]; rfl

end Naming

/-! ## Closing a session (R78, log 71) -/

section Closing

variable {s : State} {id : Nat} {x : Session}

theorem exec_consentWithdraw {n : Nat} (hx : s.session? id = some x) (hn : n < x.parties.length) (hclosed : x.closed = false) :
    exec (.consentWithdraw id n) s = .next (s.closeSession id) := by
  show execConsentWithdraw id n s = _
  simp only [execConsentWithdraw, hx, hclosed, hn, decide_true, Bool.not_false, Bool.and_self, if_true, event]

theorem session?_closeSession (hx : s.session? id = some x) : (s.closeSession id).session? id = some (closedSession x) := by
  rw [closeSession_def]
  refine Eq.trans ?_ (session?_modSession hx (f := closedSession) rfl)
  exact congrArg (List.find? _) (foldl_modCtx_sessions (fun c => c) (fun _ => outOfSession) _ _)

theorem failed_mem_closedSession {r : Round} (hr : r ∈ x.rounds) {p : Contribution} (hp : p ∈ r.parts) :
    (⟨p.party, r.lbase, r.seq, r.sub, .trap 0x30⟩ : StileResult) ∈ (closedSession x).results :=
  List.mem_append_right _ (List.mem_flatten.2 ⟨_, List.mem_map_of_mem hr, List.mem_map_of_mem hp⟩)

end Closing

/-! ## Contributions to a round (R369, R371, log 104) -/

section Arriving

variable {x : Session} {now n : Nat} {tag : RoundTag} {elems : List Nat}

/-- R371. Where no round is late and no hold is over, there is nothing to tidy. -/
theorem tidy_of_timely (hrounds : ∀ r ∈ x.rounds, now < r.firstAt + x.deadline) (haborted : ∀ a ∈ x.aborted, now < a.since + x.deadline) :
    x.tidy now = x := by
  have hlate : (x.rounds.filter fun r => decide (r.firstAt + x.deadline ≤ now)) = [] :=
    List.filter_eq_nil_iff.2 fun r hr => by simpa using hrounds r hr
  have hheld : (x.aborted.filter fun a => decide (now < a.since + x.deadline)) = x.aborted :=
    List.filter_eq_self.2 fun a ha => by simpa using haborted a ha
  simp only [Session.tidy, hlate, List.foldl_nil, hheld]

/-- R371. A session with the answer to a contribution that joins no round. -/
def answeredWith (x : Session) (n : Nat) (tag : RoundTag) (code : BitVec 8) : Session :=
  { x with results := x.results ++ [⟨n, tag.lbase, tag.seq, tag.sub, .trap code⟩] }

/-- R369. The round of a tag with a contribution more. -/
def joined (x : Session) (now n : Nat) (tag : RoundTag) (elems : List Nat) : Round :=
  let old := (x.rounds.find? fun r => r.is tag.lbase tag.seq tag.sub).getD
    { lbase := tag.lbase, seq := tag.seq, sub := tag.sub, firstAt := now }
  { old with parts := old.parts ++ [⟨n, tag, elems⟩] }

/-- R369. The rounds of other keys. -/
def otherRounds (x : Session) (tag : RoundTag) : List Round := x.rounds.filter fun q => !q.is tag.lbase tag.seq tag.sub

variable (htidy : x.tidy now = x)
include htidy

theorem arrive_of_unopened (h : x.opened = false) : x.arrive now n tag elems = answeredWith x n tag 0x30 := by
  unfold Session.arrive
  rw [htidy]
  exact if_pos (by simp [h])

theorem arrive_of_aborted (h : x.opened = true) {a : AbortHold} (ha : (x.aborted.find? fun a => a.is tag.lbase tag.seq tag.sub) = some a) :
    x.arrive now n tag elems = answeredWith x n tag a.code := by
  unfold Session.arrive
  rw [htidy]
  refine (if_neg (by simp [h])).trans ?_
  rw [ha]
  rfl

theorem arrive_of_live (h : x.opened = true) (ha : (x.aborted.find? fun a => a.is tag.lbase tag.seq tag.sub) = none) :
    x.arrive now n tag elems = if (joined x now n tag elems).parts.length < x.parties.length
      then { x with rounds := otherRounds x tag ++ [joined x now n tag elems] }
      else { x with rounds := otherRounds x tag, results := x.results ++ roundEnd x.ring (joined x now n tag elems) } := by
  unfold Session.arrive
  rw [htidy]
  refine (if_neg (by simp [h])).trans ?_
  rw [ha]
  rfl

end Arriving

section Arrival

variable {s : State} {id n : Nat} {x : Session} {p : Party} {tag : RoundTag} {elems : List Nat}

/-- R369. What a contribution that came in a packet leaves of the session, and of the packets. -/
def arrivedIn (s : State) (id n : Nat) (tag : RoundTag) (elems : List Nat) (d : Delivered) : State :=
  (s.modFabric fun f => { f with delivered := f.delivered.erase d }).modSession id fun x =>
    (x.arrive s.time n tag elems).sendAway s.boot.devId

/-- R31, R369. The packet in which the contribution of a party comes to the home stile. -/
def roundPacket (s : State) (x : Session) (p : Party) (tag : RoundTag) : Option Delivered :=
  s.fabric.delivered.find? fun d => d.die == s.homeDie x && d.st == 62 && d.cls == (if tag.op = 11 then 0 else 1) &&
    d.part == (if p.dev = s.boot.devId then p.part else ((x.parties.head?).map Party.part).getD 0)

theorem exec_shareContributionArrive (hx : s.session? id = some x) (hp : x.parties[n]? = some p)
    (hreal : p.dev ≠ s.boot.devId ∨ (tag, elems) ∈ s.sentBy p.ctx id) (hnew : x.knows n tag = false) (hhome : x.homeOf = s.boot.devId) :
    exec (.shareContributionArrive id n tag elems) s = .next (((roundPacket s x p tag).map (arrivedIn s id n tag elems)).getD s) := by
  have hsent : (p.dev != s.boot.devId || (s.sentBy p.ctx id).contains (tag, elems)) = true := by
    simpa [List.contains_iff_mem] using hreal
  show execShareContributionArrive id n tag elems s = _
  simp only [execShareContributionArrive, hx, hp, hsent, hnew, hhome, Bool.not_false, beq_self_eq_true, Bool.and_self, if_true, event]
  have htake : s.takeRound x p tag.op = (roundPacket s x p tag).map fun d =>
      s.modFabric fun f => { f with delivered := f.delivered.erase d } := rfl
  rw [htake]
  cases roundPacket s x p tag <;> rfl

theorem session?_arrivedIn (hx : s.session? id = some x) (d : Delivered) {y : Session} (hy : x.arrive s.time n tag elems = y)
    (hid : y.id = x.id) : (arrivedIn s id n tag elems d).session? id = some (y.sendAway s.boot.devId) := by
  subst hy
  exact session?_modSession (s := s.modFabric fun f => { f with delivered := f.delivered.erase d }) hx
    (f := fun x => (x.arrive s.time n tag elems).sendAway s.boot.devId) hid

end Arrival

/-! ## How rounds end (R370, R371) -/

section RoundEnds

variable {s : State} {id : Nat} {x : Session} {r : Round}

/-- R371. The parties of one tag get their sums. -/
theorem roundEnd_of_one_tag (k : Nat) (h : ∀ p ∈ r.parts, ∀ q ∈ r.parts, p.tag = q.tag) :
    roundEnd k r = r.parts.map fun p => ⟨p.party, r.lbase, r.seq, r.sub, .sums (roundSums k p.tag.op r.parts)⟩ := by
  refine if_pos ?_
  cases hparts : r.parts with
  | nil => rfl
  | cons p l =>
    rw [hparts] at h
    simpa using fun q hq => h q (List.mem_cons_of_mem _ hq) p List.mem_cons_self

theorem exec_roundDeadline {lbase : Word} {seq sub : Nat} (hx : s.session? id = some x)
    (hr : (x.rounds.find? fun r => r.is lbase seq sub) = some r) (hlate : r.firstAt + x.deadline ≤ s.time) :
    exec (.roundDeadline id lbase seq sub) s = .next (s.modSession id fun x => (x.expire s.time r).sendAway s.boot.devId) := by
  show execRoundDeadline id lbase seq sub s = _
  simp only [execRoundDeadline, hx, hr, if_pos hlate, event]

theorem expire_rounds {lbase : Word} {seq sub now : Nat} (hr : r.is lbase seq sub = true) {q : Round} (hq : q ∈ (x.expire now r).rounds) :
    q.is lbase seq sub = false := by
  have hkey : r.lbase = lbase ∧ r.seq = seq ∧ r.sub = sub := by simpa [Round.is, and_assoc] using hr
  obtain ⟨rfl, rfl, rfl⟩ := hkey
  simpa using (List.mem_filter.1 hq).2

end RoundEnds

/-- Settles O53: each event by what it checks, and by what it leaves of the session that its identifier finds. -/
theorem sessionsMeet : Obligations.SessionsMeet := by
  refine ⟨?made, ?named, fun s id n x hx hn hclosed => exec_consentWithdraw hx hn hclosed, ?closed, ?arrives,
    fun k r h => roundEnd_of_one_tag k h, ?deadline⟩
  case made =>
    intro s id ring deadline parties policy consents hready hok hparties hnew
    refine ⟨exec_stileSessionOpen_pathless, fun hpath => ⟨_, newSession id ring deadline parties policy,
      exec_stileSessionOpen hready hok hparties hnew hpath, ?_, rfl, rfl, rfl, rfl, rfl, rfl⟩⟩
    exact List.find?_cons_of_pos (beq_self_eq_true id)
  case named =>
    intro s id n x p a h hx hopened hclosed hp hdev hal hbytes hgood hparties _
    exact ⟨_, _, exec_hamperRegionName hx hopened hclosed hp hdev hal hbytes hgood hparties, session?_named hx hopened, List.mem_cons_self,
      allNamed_withHamper⟩
  case closed =>
    intro s id x hx
    exact ⟨fun hclosed n a => exec_hamperRegionName_closed hx hclosed n a, _, session?_closeSession hx, rfl, rfl, rfl,
      fun r hr p hp => failed_mem_closedSession hr hp⟩
  case arrives =>
    intro s id n x p tag elems hx _ hp hreal hnew hhome hrounds haborted home packet now
    have htidy := tidy_of_timely hrounds haborted
    have hexec := exec_shareContributionArrive hx hp hreal hnew hhome
    refine ⟨fun hnone => ?_, fun d hd => ?_⟩
    · rw [show roundPacket s x p tag = none from hnone] at hexec
      exact hexec
    · intro s1 becomes answered old r rest
      rw [show roundPacket s x p tag = some d from hd] at hexec
      have hbecomes : ∀ y : Session, x.arrive s.time n tag elems = y → y.id = x.id → becomes y := fun y hy hid =>
        ⟨_, hexec, session?_arrivedIn hx d hy hid, rfl⟩
      refine ⟨fun h => hbecomes _ (arrive_of_unopened htidy h) rfl, fun h a ha => hbecomes _ (arrive_of_aborted htidy h ha) rfl,
        fun h ha => ⟨fun hfew => ?_, fun hall => ?_⟩⟩
      · exact hbecomes _ ((arrive_of_live htidy h ha).trans (if_pos hfew)) rfl
      · exact hbecomes _ ((arrive_of_live htidy h ha).trans (if_neg (Nat.not_lt.2 hall))) rfl
  case deadline =>
    intro s id lbase seq sub x hx _
    refine ⟨fun r hr hlate => ?_, rfl⟩
    refine ⟨_, (x.expire s.time r).sendAway s.boot.devId, exec_roundDeadline hx hr hlate,
      session?_modSession hx (f := fun x => (x.expire s.time r).sendAway s.boot.devId) rfl, ?_, ?_, rfl⟩
    · exact fun q hq => expire_rounds (now := s.time) (List.find?_some (p := fun r : Round => r.is lbase seq sub) hr) hq
    · exact List.mem_append_right _ List.mem_cons_self

end Sys2Proof.Proofs

namespace Sys2Proof.Proofs

open Sys2Proof.Machine Sys2Proof.Safety Sys2Proof.Laws

/-! # Metering statements, job records and debugging (spec/05_metering_attestation.md R85 to R88,
spec/10_traps_reliability.md R202, spec/15_isa_control_sync.md R315) -/

/-! ## The peers that a job records (R87) -/

section Peers

variable {peer : Nat → Option Peer} {j : Job} {q : Nat} {x : Peer}

/-- R87. Every port that a job has recorded stands with the one peer that the port has: no second peer, no overflow. -/
def SeenOnce (peer : Nat → Option Peer) (j : Job) : Prop := ∀ e ∈ j.peers, ∃ x, peer e.1 = some x ∧ e = (e.1, [x], false)

/-- In such a job the port's peer is the whole entry of its port, whether the job has seen it before or not. -/
theorem recordPeer_of_seenOnce (h : SeenOnce peer j) (hx : peer q = some x) :
    recordPeer q x j = { j with peers := (q, [x], false) :: j.peers.filter fun p => p.1 != q } := by
  cases hfind : j.peers.find? fun p => p.1 == q with
  | none => simp [recordPeer, hfind]
  | some e =>
    obtain rfl : e.1 = q := by simpa using List.find?_some hfind
    obtain ⟨y, hy, he⟩ := h e (List.mem_of_find?_eq_some hfind)
    obtain rfl : y = x := Option.some.inj (hy.symm.trans hx)
    rw [he] at hfind
    simp [recordPeer, hfind]

theorem mem_recordPeer (h : SeenOnce peer j) (hx : peer q = some x) (e : Nat × List Peer × Bool) :
    e ∈ (recordPeer q x j).peers ↔ e ∈ j.peers ∨ e = (q, [x], false) := by
  rw [recordPeer_of_seenOnce h hx, List.mem_cons, List.mem_filter, or_comm]
  constructor
  · exact Or.imp_left And.left
  · rintro (he | he)
    · by_cases hq : e.1 = q
      · obtain ⟨y, hy, he'⟩ := h e he
        obtain rfl : y = x := Option.some.inj (hy.symm.trans (hq ▸ hx))
        exact .inr (hq ▸ he')
      · exact .inl ⟨he, bne_iff_ne.2 hq⟩
    · exact .inr he

theorem seenOnce_recordPeer (h : SeenOnce peer j) (hx : peer q = some x) : SeenOnce peer (recordPeer q x j) := by
  intro e he
  obtain he | rfl := (mem_recordPeer h hx e).1 he
  · exact h e he
  · exact ⟨x, hx, rfl⟩

theorem foldl_recordPeer (l : List (Nat × Peer)) (hl : ∀ p ∈ l, peer p.1 = some p.2) (h : SeenOnce peer j) :
    ∃ ps, l.foldl (fun j p => recordPeer p.1 p.2 j) j = { j with peers := ps } ∧
      ∀ e, e ∈ ps ↔ e ∈ j.peers ∨ ∃ p ∈ l, e = (p.1, [p.2], false) := by
  induction l generalizing j with
  | nil => exact ⟨j.peers, rfl, by simp⟩
  | cons p l ih =>
    have hp := hl p List.mem_cons_self
    obtain ⟨ps, hfold, hps⟩ := ih (fun r hr => hl r (List.mem_cons_of_mem _ hr)) (seenOnce_recordPeer h hp)
    refine ⟨ps, hfold, fun e => ?_⟩
    rw [hps, mem_recordPeer h hp, List.exists_mem_cons_iff, or_assoc]

/-- R87. A job that begins has an entry for each of the ports with an authenticated peer, and no other. -/
theorem seenPeers_begun (s : State) (ports : List Nat) (job : DWord) (now : Nat) :
    ∃ ps, s.seenPeers ports ⟨job, now, []⟩ = ⟨job, now, ps⟩ ∧
      ∀ e, e ∈ ps ↔ ∃ q ∈ ports, ∃ x, (s.port q).peer = some x ∧ e = (q, [x], false) := by
  have hmem : ∀ p, p ∈ ports.filterMap (fun q => (s.port q).peer.map fun x => (q, x)) ↔
      p.1 ∈ ports ∧ (s.port p.1).peer = some p.2 := fun ⟨q, x⟩ => by simp
  obtain ⟨ps, hfold, hps⟩ := foldl_recordPeer (peer := fun q => (s.port q).peer) (j := ⟨job, now, []⟩) _
    (fun p hp => ((hmem p).1 hp).2) fun _ he => nomatch he
  refine ⟨ps, hfold, fun e => ?_⟩
  simp [hps, hmem, and_assoc]

end Peers

/-! ## The events (R85, R87, R88, R202, R315) -/

section Events

variable {s : State}

/-- R85, R86, R88. The device after it has answered with the bytes of a statement or of a record, which has the next SEQ. -/
def stated (s : State) (bs : List Byte) : State :=
  s.modBoot fun b => { b with statementSeq := b.statementSeq + 1, replies := .statement bs :: b.replies }

theorem answer_statement (c kind : Nat) (nonce : BitVec 256) :
    (s.statement c kind nonce).1.answer (s.statement c kind nonce).2 = stated s (s.statement c kind nonce).2 := rfl

theorem answer_jobRecord (n kind : Nat) (j : Job) :
    (s.jobRecord n kind j).1.answer (s.jobRecord n kind j).2 = stated s (s.jobRecord n kind j).2 := rfl

theorem exec_meteringStatementRequest {c : Nat} (nonce : BitVec 256) (h : (s.ctx c).state ≠ .free) :
    exec (.meteringStatementRequest c nonce true) s = .next (stated s (s.statement c 0 nonce).2) := by
  rw [← answer_statement]
  exact congrArg event (if_pos (by simp [h]))

theorem exec_jobBegin {n : Nat} (job : DWord) (hactive : (s.part n).state = .active) (hnone : (s.part n).job = none) :
    exec (.jobBegin n job true) s =
      .next (s.modPart n fun p => { p with job := some (s.seenPeers (s.part n).ports ⟨job, s.time, []⟩) }) :=
  congrArg event (if_pos (by simp [hactive, hnone]))

theorem exec_jobRecordRequest {n : Nat} {j : Job} (hj : (s.part n).job = some j) :
    exec (.jobRecordRequest n true) s = .next (stated s (s.jobRecord n 2 j).2) := by
  show execJobRecordRequest n true s = _
  simp only [execJobRecordRequest, hj, answer_jobRecord, if_true, event]

theorem exec_jobEnd {n : Nat} {j : Job} (hj : (s.part n).job = some j) :
    exec (.jobEnd n true) s = .next ((stated s (s.jobRecord n 3 j).2).modPart n fun p => { p with job := none }) := by
  show execJobEnd n true s = _
  simp only [execJobEnd, hj, answer_jobRecord, if_true, event]

theorem exec_debugBreakpointSet {c : Nat} (pc lo hi : Word) (hactive : (s.ctx c).state = .active)
    (hroom : (s.ctx c).breakpoints.length < 8) :
    exec (.debugBreakpointSet c pc lo hi) s =
      .next (s.modCtx c fun x => { x with breakpoints := x.breakpoints ++ [⟨pc, lo, hi⟩] }) :=
  congrArg event (if_pos (by simp [hactive, hroom]))

theorem exec_traceRingEnable {c : Nat} (size : Nat) (hactive : (s.ctx c).state = .active) :
    exec (.traceRingEnable c size) s = .next (s.modCtx c fun x => { x with traceSize := some size, trace := [], traceLost := 0 }) :=
  congrArg event (if_pos (by simp [hactive]))

end Events

/-- Settles O54: each event by what it checks; the peers of a new job are those that its partition's ports have as it begins. -/
theorem recordsAnswer : Obligations.RecordsAnswer := by
  refine ⟨fun s c nonce h => ⟨_, exec_meteringStatementRequest nonce h⟩, ?begins,
    fun s n j hj => ⟨⟨_, exec_jobRecordRequest hj⟩, _, exec_jobEnd hj⟩,
    fun s c hactive => ⟨fun pc lo hi hroom => exec_debugBreakpointSet pc lo hi hactive hroom,
      fun size => exec_traceRingEnable size hactive⟩⟩
  case begins =>
    intro s n job hactive hnone _
    obtain ⟨ps, hseen, hps⟩ := seenPeers_begun s (s.part n).ports job s.time
    refine ⟨⟨job, s.time, ps⟩, ?_, rfl, rfl, fun q hq x hx => (hps _).2 ⟨q, hq, x, hx, rfl⟩⟩
    rw [exec_jobBegin job hactive hnone, hseen]

end Sys2Proof.Proofs

namespace Sys2Proof.Proofs

open Sys2Proof.Machine Sys2Proof.Safety Sys2Proof.Laws
open Host (Cell)

/-! # LAUNCH (spec/06_scheduler.md R91, spec/15_isa_control_sync.md R313)

## What the places of a read depend on (R129 to R131, R180) -/

section Reach

/-- Two states agree on where reads of a group's threads lead, and on the owner states there: on the mappings of its context, and on its
team but for scratch bytes and stash lines. -/
structure SameReach (k : GKey) (s s' : State) : Prop where
  maps : (s'.ctx k.ctx).maps = (s.ctx k.ctx).maps
  team : (s'.team? (gkeyTeam k)).map plainTeam = (s.team? (gkeyTeam k)).map plainTeam

variable {k : GKey} {s s' s'' : State}

theorem SameReach.trans (h : SameReach k s s') (h' : SameReach k s' s'') : SameReach k s s'' :=
  ⟨h'.maps.trans h.maps, h'.team.trans h.team⟩

/-- The team of the one state is that of the other, but for its scratch bytes and stash lines, or neither has it. -/
theorem SameReach.teams (h : SameReach k s s') : (s'.team? (gkeyTeam k) = none ∧ s.team? (gkeyTeam k) = none) ∨
    ∃ t' t, s'.team? (gkeyTeam k) = some t' ∧ s.team? (gkeyTeam k) = some t ∧ plainTeam t' = plainTeam t := by
  have hteam := h.team
  cases hs : s.team? (gkeyTeam k) with
  | none => rw [hs, Option.map_none, Option.map_eq_none_iff] at hteam; exact .inl ⟨hteam, rfl⟩
  | some t =>
    rw [hs, Option.map_some, Option.map_eq_some_iff] at hteam
    obtain ⟨t', ht', he⟩ := hteam
    exact .inr ⟨t', t, ht', rfl, he⟩

theorem checkMapped_of_maps {c c' : Context} (h : c'.maps = c.maps) (x : Nat) (w : Bool) (l : Option Nat) :
    checkMapped c' x w l = checkMapped c x w l := by
  simp only [checkMapped, Context.mapping?, h]

theorem checkScratchIn_plain (c : Context) (t : Team) (n : Nat) (w : Bool) (fuel a : Nat) :
    checkScratchIn c (plainTeam t) n w fuel a = checkScratchIn c t n w fuel a := by
  rw [← checkScratchIn_bare c t]
  induction fuel generalizing a with
  | zero => rfl
  | succ fuel ih =>
    simp only [checkScratchIn, ih]
    rfl

theorem owners_of_plain {t t' : Team} (h : plainTeam t' = plainTeam t) : t'.owners = t.owners := by
  have howners := congrArg Team.owners h
  exact howners

theorem aperture_of_plain {t t' : Team} (h : plainTeam t' = plainTeam t) : t'.aperture = t.aperture := by
  have haperture := congrArg Team.aperture h
  exact haperture

theorem checkScratch_of_plain {t t' : Team} (h : plainTeam t' = plainTeam t) (c : Context) (a n : Nat) (w : Bool) :
    checkScratch c t' a n w = checkScratch c t a n w := by
  rw [checkScratch, checkScratch, ← checkScratchIn_plain c t', h, checkScratchIn_plain, owners_of_plain h]

theorem checkGlobal_of_plain {t t' : Team} (h : plainTeam t' = plainTeam t) (c : Context) (x n al : Nat) (w : Bool) :
    checkGlobal c (some t') x n al w = checkGlobal c (some t) x n al w := by
  simp only [checkGlobal, checkScratch_of_plain h, Team.inAperture, aperture_of_plain h]
  rfl

/-- A check of a read asks for the mappings and the team alone: only writes can be suppressed (R148, R368). -/
theorem SameReach.checkPart (h : SameReach k s s') (x : Target) (p : Nat × Nat) : s'.checkPart k x false p = s.checkPart k x false p := by
  have hmaps := checkMapped_of_maps h.maps
  have hglob := fun t => checkGlobal_ctx _ _ hmaps t (p.1 % 2 ^ 64) p.2 x.align false
  have hscr : ∀ t, checkScratch (s'.ctx k.ctx) t (p.1 % 2 ^ 32) p.2 false = checkScratch (s.ctx k.ctx) t (p.1 % 2 ^ 32) p.2 false :=
    fun t => checkScratchIn_ctx _ _ hmaps ..
  simp only [State.checkPart, hglob, hscr, Bool.false_eq_true, if_false]
  rcases h.teams with ⟨ht', ht⟩ | ⟨t', t, ht', ht, he⟩
  · rw [ht', ht]
  · simp only [ht', ht, checkScratch_of_plain he, checkGlobal_of_plain he]

theorem SameReach.places (h : SameReach k s s') (x : Target) : s'.places k x false = s.places k x false := by
  simp only [State.places, h.checkPart]

theorem SameReach.mayPerform (h : SameReach k s s') (w : Bool) (ls : List (Loc × Nat)) : s'.mayPerform k w ls = s.mayPerform k w ls := by
  unfold State.mayPerform
  rcases h.teams with ⟨ht', ht⟩ | ⟨t', t, ht', ht, he⟩
  · rw [ht', ht]
  · simp only [ht', ht, Team.owner, owners_of_plain he]

end Reach

/-! ## The queue of a context -/

section Queues

variable {s : State} {c q : Nat}

/-- An enabled queue is one of the queues of a context of the device. -/
theorem lt_of_en (h : ((s.ctx c).queue q).en = true) : c < s.ctxs.length ∧ q < (s.ctx c).queues.length := by
  have hq : q < (s.ctx c).queues.length := by
    by_contra hn
    rw [Context.queue, List.getD_eq_default _ _ (by omega)] at h
    cases h
  refine ⟨?_, hq⟩
  by_contra hn
  have hdefault : s.ctx c = {} := List.getD_eq_default _ _ (by omega)
  have hfresh : ((List.replicate 32 ({} : Queue)).getD q {}).en = false :=
    congrArg Queue.en (List.getElem?_getD_replicate_default_eq ..)
  rw [hdefault] at h
  exact absurd (hfresh.symm.trans h) (by decide)

/-- A queue after its own update. -/
theorem queue_modQueue (f : Queue → Queue) (hc : c < s.ctxs.length) (hq : q < (s.ctx c).queues.length) :
    ((s.modCtx c fun x => x.modQueue q f).ctx c).queue q = f ((s.ctx c).queue q) := by
  rw [modCtx_ctx, if_pos ⟨rfl, hc⟩, Context.queue, Context.modQueue, getD_modify, if_pos ⟨rfl, hq⟩]
  rfl

end Queues

/-! ## The launch of one thread (R91, R313) -/

section Launch

/-- R313. The status that a queue has for a thread's launch after n launches of the issue. -/
def launchStatus (q : Queue) (n : Nat) : Word :=
  if q.en = true ∧ q.src = true then if (q.tail - q.head).toNat + n < q.size then 1 else 0 else 2

/-- R91. The launches that a queue takes of n. -/
def launchesTaken (q : Queue) (n : Nat) : Nat := if q.en = true ∧ q.src = true then min n (q.size - (q.tail - q.head).toNat) else 0

/-- R91. A queue after n launches of an issue: its tail has moved by one for each that it took. -/
def launched (q : Queue) (n : Nat) : Queue := { q with tail := q.tail + BitVec.ofNat 32 (launchesTaken q n) }

theorem takes_iff (q : Queue) : q.takes = true ↔ (q.en = true ∧ q.src = true) ∧ (q.tail - q.head).toNat ≠ q.size := by
  simp [Queue.takes]

variable {qu : Queue} {n : Nat}

theorem launched_zero (q : Queue) : launched q 0 = q := by simp [launched, launchesTaken]

/-- The records between head and tail, of a queue whose records fit a word. -/
theorem launched_used (hsize : qu.size < 2 ^ 32) (hused : (qu.tail - qu.head).toNat ≤ qu.size) :
    ((launched qu n).tail - (launched qu n).head).toNat = (qu.tail - qu.head).toNat + launchesTaken qu n := by
  have hroom : launchesTaken qu n ≤ qu.size - (qu.tail - qu.head).toNat := by
    unfold launchesTaken
    split <;> omega
  simp only [launched]
  generalize launchesTaken qu n = j at hroom
  bv_omega

theorem launched_takes (hsize : qu.size < 2 ^ 32) (hused : (qu.tail - qu.head).toNat ≤ qu.size) :
    (launched qu n).takes = true ↔ (qu.en = true ∧ qu.src = true) ∧ (qu.tail - qu.head).toNat + n < qu.size := by
  rw [takes_iff, launched_used hsize hused]
  refine and_congr_right fun hopen => ?_
  rw [launchesTaken, if_pos (show qu.en = true ∧ qu.src = true from hopen), show (launched qu n).size = qu.size from rfl]
  omega

theorem launched_succ (htakes : (qu.en = true ∧ qu.src = true) ∧ (qu.tail - qu.head).toNat + n < qu.size) :
    { launched qu n with tail := (launched qu n).tail + 1 } = launched qu (n + 1) := by
  have htaken : launchesTaken qu (n + 1) = launchesTaken qu n + 1 := by
    simp only [launchesTaken, if_pos htakes.1]
    omega
  simp only [launched, htaken, BitVec.ofNat_add, BitVec.add_assoc]
  rfl

theorem launched_succ_refused (hrefuses : ¬((qu.en = true ∧ qu.src = true) ∧ (qu.tail - qu.head).toNat + n < qu.size)) :
    launched qu (n + 1) = launched qu n := by
  have htaken : launchesTaken qu (n + 1) = launchesTaken qu n := by
    unfold launchesTaken
    split
    next hopen =>
      have hfull : ¬(qu.tail - qu.head).toNat + n < qu.size := fun h => hrefuses ⟨hopen, h⟩
      omega
    next => rfl
  rw [launched, htaken, launched]

/-- What the stores of a launch leave of a state: all but memory, nodes, scratch bytes and stash lines. -/
structure Stores (s s' : State) : Prop where
  groups : s'.groups = s.groups
  time : s'.time = s.time
  ctxs : s'.ctxs = s.ctxs
  teams : s'.teams.map plainTeam = s.teams.map plainTeam

variable {k : GKey} {s s' s'' : State} {q : Nat}

theorem Stores.trans (h : Stores s s') (h' : Stores s' s'') : Stores s s'' :=
  ⟨h'.groups.trans h.groups, h'.time.trans h.time, h'.ctxs.trans h.ctxs, h'.teams.trans h.teams⟩

theorem stores_of_only {k : TKey} {ls : List (Loc × Nat)} (h : OnlyStores k ls s s') : Stores s s' :=
  ⟨by rw [h.rest], by rw [h.rest], by rw [h.rest], h.teams⟩

theorem devStore_stores (s : State) (c x : Nat) (bs : List Byte) : Stores s (s.devStore c x bs) := by
  rw [devStore_eq]
  exact ⟨rfl, rfl, rfl, rfl⟩

/-- Where teams agree but for scratch bytes and stash lines, and contexts agree on mappings, reads lead to the same places. -/
theorem sameReach_of_teams (hteams : s'.teams.map plainTeam = s.teams.map plainTeam)
    (hmaps : (s'.ctx k.ctx).maps = (s.ctx k.ctx).maps) : SameReach k s s' := by
  refine ⟨hmaps, ?_⟩
  have hfind : ∀ l : List Team, (l.map plainTeam).find? (fun t => t.key == gkeyTeam k) =
      (l.find? fun t => t.key == gkeyTeam k).map plainTeam := fun l => List.find?_map ..
  rw [State.team?, State.team?, ← hfind, ← hfind, hteams]

/-- R91. The stores of a launch that its queue takes: the record, and the time of its entry. -/
def launchStores (s : State) (k : GKey) (q : Nat) (ls : List (Loc × Nat)) : State :=
  let qu := (s.ctx k.ctx).queue q
  let s1 := (s.sealNow k.ctx k.node 4).touchPlaces (gkeyTeam k) ls
  let s2 := s1.writePlaces (gkeyTeam k) (s1.places k (qu.slotTarget 0) true) (s.readPlaces (gkeyTeam k) ls)
  s2.devStore k.ctx (qu.timeSlot qu.tail) (natBytes 8 s.time)

theorem launchStores_stores (s : State) (k : GKey) (q : Nat) (ls : List (Loc × Nat)) : Stores s (launchStores s k q ls) :=
  (((stores_of_only (sealNow_seals ..).only).trans (stores_of_only (touch_only _ _ _ []))).trans
    (stores_of_only (writePlaces_only ..))).trans (devStore_stores ..)

theorem launchOne_closed (ls : List (Loc × Nat))
    (h : ((s.ctx k.ctx).queue q).en = false ∨ ((s.ctx k.ctx).queue q).src = false) : s.launchOne k q ls = (2, s) :=
  if_pos (by rcases h with h | h <;> simp [h])

theorem launchOne_full (ls : List (Loc × Nat)) (hen : ((s.ctx k.ctx).queue q).en = true) (hsrc : ((s.ctx k.ctx).queue q).src = true)
    (h : ((s.ctx k.ctx).queue q).takes = false) : s.launchOne k q ls = (0, s) := by
  simp [State.launchOne, hen, hsrc, h]

theorem launchOne_taken (ls : List (Loc × Nat)) (h : ((s.ctx k.ctx).queue q).takes = true) : s.launchOne k q ls =
    (1, (launchStores s k q ls).modCtx k.ctx fun c => c.modQueue q fun x => { x with tail := x.tail + 1 }) := by
  obtain ⟨⟨hen, hsrc⟩, -⟩ := (takes_iff _).1 h
  simp only [State.launchOne, hen, hsrc, h]
  rfl

/-- R91, R313. The launch of one thread after n launches of its issue: its status, its queue, and what it leaves alone. -/
theorem launchOne_spec (ls : List (Loc × Nat)) (hsize : qu.size < 2 ^ 32) (hused : (qu.tail - qu.head).toNat ≤ qu.size)
    (hqueue : (s.ctx k.ctx).queue q = launched qu n) :
    let r := s.launchOne k q ls
    r.1 = launchStatus qu n ∧ (r.2.ctx k.ctx).queue q = launched qu (n + 1) ∧ r.2.groups = s.groups ∧ r.2.time = s.time ∧
      SameReach k s r.2 := by
  have htakes := launched_takes (n := n) hsize hused
  rw [← hqueue] at htakes
  intro r
  by_cases hopen : qu.en = true ∧ qu.src = true
  · obtain ⟨hen, hsrc⟩ : ((s.ctx k.ctx).queue q).en = true ∧ ((s.ctx k.ctx).queue q).src = true := by rw [hqueue]; exact hopen
    by_cases hroom : (qu.tail - qu.head).toNat + n < qu.size
    · have hr : r = _ := launchOne_taken ls (htakes.2 ⟨hopen, hroom⟩)
      have hstores := launchStores_stores s k q ls
      obtain ⟨hc, hq⟩ := lt_of_en hen
      have hctx : (launchStores s k q ls).ctx k.ctx = s.ctx k.ctx := by rw [State.ctx, hstores.ctxs]; rfl
      have hnext : (r.2.ctx k.ctx).queue q = launched qu (n + 1) := by
        rw [hr, queue_modQueue _ (by rwa [hstores.ctxs]) (by rwa [hctx]), hctx, hqueue]
        exact launched_succ ⟨hopen, hroom⟩
      refine ⟨by rw [hr, launchStatus, if_pos hopen, if_pos hroom], hnext, by rw [hr]; exact hstores.groups, by rw [hr]; exact hstores.time, ?_⟩
      rw [hr]
      refine sameReach_of_teams hstores.teams ?_
      rw [modCtx_ctx, if_pos ⟨rfl, by rwa [hstores.ctxs]⟩, hctx]
      rfl
    · have hr : r = (0, s) := launchOne_full ls hen hsrc (Bool.eq_false_iff.2 fun h => hroom (htakes.1 h).2)
      rw [hr, launchStatus, if_pos hopen, if_neg hroom, launched_succ_refused fun h => hroom h.2]
      exact ⟨rfl, hqueue, rfl, rfl, rfl, rfl⟩
  · have hclosed : qu.en = false ∨ qu.src = false := by simpa only [Bool.not_eq_true] using not_and_or.1 hopen
    have hr : r = (2, s) := launchOne_closed ls (by rw [hqueue]; exact hclosed)
    rw [hr, launchStatus, if_neg hopen, launched_succ_refused fun h => hopen h.1]
    exact ⟨rfl, hqueue, rfl, rfl, rfl, rfl⟩

/-- R313. A thread of LAUNCH whose queue takes it or whose record may be read: it launches, PZ is raised for what it read, and it goes on
with its status. -/
def launchThread (q : BitVec 5) (a d : BitVec 6) (g : Nat) (gr : Group) (next : Word) (s : State) (t : Nat) : State :=
  let r := s.launchOne gr.key q.toNat (s.places gr.key (recordTarget ((gr.thread t).pair a.toNat)) false)
  (r.2.raise g t (sysPoison gr [regF a 2, outF d] t)).modThread g t fun th => (th.setReg d.toNat r.1).goOn next

variable {g : Nat} {gr : Group} {q : BitVec 5} {a d : BitVec 6} {next : Word} {set : List Nat}

theorem launchThread_eq {t : Nat} {r : Word × State}
    (hr : s.launchOne gr.key q.toNat (s.places gr.key (recordTarget ((gr.thread t).pair a.toNat)) false) = r)
    (hg : ∃ x, r.2.groups[g]? = some x ∧ x.key = gr.key) : launchThread q a d g gr next s t =
      onThreads (poisoned r.2 g gr [t] [regF a 2, outF d]) g [t] fun _ th => (th.setReg d.toNat r.1).goOn next := by
  rw [launchThread, hr, raise_eq _ g t gr _ hg, modThread_onThreads]
  exact congrArg (onThreads · g [t] _) (flagged_congr _ _ _ _ _ _ fun u hu => by rw [List.mem_singleton.1 hu]; rfl)

/-- R91, R277. A thread of LAUNCH: it launches, or waits for the owner state of the block in which its record lies. -/
def launchStep (q : BitVec 5) (a d : BitVec 6) (g : Nat) (gr : Group) (next : Word) (s : State) (t : Nat) : State :=
  if !((s.ctx gr.key.ctx).queue q.toNat).takes ||
      s.mayPerform gr.key false (s.places gr.key (recordTarget ((gr.thread t).pair a.toNat)) false) then
    launchThread q a d g gr next s t
  else s.waitOwner g t { (recordTarget ((gr.thread t).pair a.toNat)).waiting true next with retry := some (.launch q a d) } 0

/-- R91. LAUNCH of an issue set whose checks pass: its threads launch one after another. -/
theorem exec_launch (h : Runs (.launch q a d) [regF a 2, outF d] s g set gr) (hkind : gr.key.kind ≠ .handler)
    (hread : ∀ t ∈ set, Reaches s gr.key false (recordTarget ((gr.thread t).pair a.toNat)))
    (hslot : ∀ n, n < set.length → ((s.ctx gr.key.ctx).queue q.toNat).takesAfter n = true →
      ∃ l, s.lowCheck gr.key true (((s.ctx gr.key.ctx).queue q.toNat).slotTarget n) = .ok l) :
    exec (.launch q a d) s = .next (set.foldl (launchStep q a d g gr (nextPc (.launch q a d) gr set)) (idle s)) := by
  have htgt : ∀ t, ({ glob := true, addr := ((gr.thread t).pair a.toNat).toNat, size := 128, align := 128 } : Target) =
      recordTarget ((gr.thread t).pair a.toNat) := fun _ => rfl
  have hslots : ∀ now : Nat → Bool, ∀ t ∈ set, ∃ l, (if now t then (idle s).slotChk gr.key q.toNat
      ((set.filter fun u => decide (u < t) && now u).length) else .ok (.scr 0)) = Chk.ok l := by
    intro now t ht
    have hbefore : (set.filter fun u => decide (u < t) && now u).length < set.length :=
      List.length_filter_lt_length_iff_exists.2 ⟨t, ht, by simp⟩
    by_cases htakes : ((s.ctx gr.key.ctx).queue q.toNat).takesAfter (set.filter fun u => decide (u < t) && now u).length = true
    · obtain ⟨l, hl⟩ := hslot _ hbefore htakes
      exact ⟨if now t then l else .scr 0, by split <;> [exact (if_pos htakes).trans hl; rfl]⟩
    · exact ⟨.scr 0, by split <;> [exact if_neg htakes; rfl]⟩
  have hrecord : ∀ t ∈ set, ∃ l, (idle s).lowCheck gr.key false (recordTarget ((gr.thread t).pair a.toNat)) = .ok l :=
    fun t ht => (hread t ht).1
  have hrounds := rounds_ok (theAct (.launch q a d) g set gr) (idle s) set _ (fun _ => .ok (.scr 0)) [] id
    (sysChk_ok h.usable fun t ht => and_ok (hrecord t ht)
      (hslots (fun t => (idle s).mayPerform gr.key false ((idle s).places gr.key (recordTarget ((gr.thread t).pair a.toNat)) false)) t ht))
    fun _ _ => ⟨_, rfl⟩
  refine (bare_eq h.issuing h.wf h.usable.fields inHandler _ (by simpa [inHandler] using hkind)).trans
    (congrArg Host.Outcome.next ?_)
  simp only [htgt, show (theAct (.launch q a d) g set gr).set = set from rfl]
  rw [hrounds]
  rfl

theorem launchStep_launches {t : Nat} (h : ((s.ctx gr.key.ctx).queue q.toNat).takes = false ∨
    s.mayPerform gr.key false (s.places gr.key (recordTarget ((gr.thread t).pair a.toNat)) false) = true) :
    launchStep q a d g gr next s t = launchThread q a d g gr next s t :=
  if_pos (by rcases h with h | h <;> simp [h])

/-- R313. LAUNCH of one thread, by what its launch answers. -/
theorem exec_launch_single {t : Nat} {r : Word × State} (h : Runs (.launch q a d) [regF a 2, outF d] s g [t] gr)
    (hkind : gr.key.kind ≠ .handler) (hread : Reaches s gr.key false (recordTarget ((gr.thread t).pair a.toNat)))
    (hslot : ((s.ctx gr.key.ctx).queue q.toNat).takes = true → s.mayPerform gr.key false
      (s.places gr.key (recordTarget ((gr.thread t).pair a.toNat)) false) = true ∧
        Reaches s gr.key true (((s.ctx gr.key.ctx).queue q.toNat).slotTarget 0))
    (hr : (idle s).launchOne gr.key q.toNat (s.places gr.key (recordTarget ((gr.thread t).pair a.toNat)) false) = r)
    (hgroups : r.2.groups = s.groups) : exec (.launch q a d) s = .next
      (onThreads (poisoned r.2 g gr [t] [regF a 2, outF d]) g [t] fun _ th => (th.setReg d.toNat r.1).goOn (nextPc (.launch q a d) gr [t])) := by
  have htakes : ((s.ctx gr.key.ctx).queue q.toNat).takesAfter 0 = true → ((s.ctx gr.key.ctx).queue q.toNat).takes = true := by
    simp only [Queue.takesAfter, Queue.takes, Nat.add_zero, Bool.and_eq_true, decide_eq_true_eq, bne_iff_ne]
    exact fun ⟨hopen, hroom⟩ => ⟨hopen, Nat.ne_of_lt hroom⟩
  have hplaces := (view_idle s).places gr.key (recordTarget ((gr.thread t).pair a.toNat)) false
  have hlaunch := launchThread_eq (q := q) (d := d) (next := nextPc (.launch q a d) gr [t]) (hplaces ▸ hr)
    ⟨gr, by rw [hgroups]; exact h.issuing.group, rfl⟩
  have hmay : ((s.ctx gr.key.ctx).queue q.toNat).takes = false ∨
      (idle s).mayPerform gr.key false ((idle s).places gr.key (recordTarget ((gr.thread t).pair a.toNat)) false) = true := by
    by_cases ht : ((s.ctx gr.key.ctx).queue q.toNat).takes = true
    · exact .inr (hplaces ▸ (hslot ht).1)
    · exact .inl (Bool.eq_false_iff.2 ht)
  have hslots : ∀ n, n < [t].length → ((s.ctx gr.key.ctx).queue q.toNat).takesAfter n = true →
      ∃ l, s.lowCheck gr.key true (((s.ctx gr.key.ctx).queue q.toNat).slotTarget n) = .ok l := by
    intro n hn hafter
    obtain rfl : n = 0 := by simpa using hn
    exact (hslot (htakes hafter)).2.1
  exact (exec_launch h hkind (fun u hu => by rwa [List.mem_singleton.1 hu]) hslots).trans
    (congrArg Host.Outcome.next ((launchStep_launches (s := idle s) hmay).trans hlaunch))

/-- The threads of a group after an issue of LAUNCH depend on the groups and the time alone. -/
theorem launched_groups {s s' : State} (hgroups : s'.groups = s.groups) (htime : s'.time = s.time) (set : List Nat) (fs : List Field)
    (f : Nat → Thread → Thread) :
    (onThreads (poisoned s' g gr set fs) g set f).groups = (onThreads (poisoned s g gr set fs) g set f).groups := by
  simp only [onThreads, poisoned, flagged, State.cycle, hgroups, htime]

/-- Threads that raise PZ and update themselves one after another. -/
theorem poisoned_cons {t : Nat} {ts : List Nat} (ht : t ∉ ts) (s : State) (fs : List Field) (f : Nat → Thread → Thread) :
    onThreads (poisoned (onThreads (poisoned s g gr [t] fs) g [t] f) g gr ts fs) g ts f =
      onThreads (poisoned s g gr (t :: ts) fs) g (t :: ts) f := by
  have hflags := flagged_cons s g gr t ts (fun t => poisonFlag gr (inThread t (ownReads fs))) ht
  rw [flagged_congr s g gr [t] _ (fun t => poisonFlag gr (inThread t (ownReads fs))) fun u hu => by rw [List.mem_singleton.1 hu]] at hflags
  simp only [poisoned]
  rw [← flagged_onThreads _ _ _ _ _ _ _ (fun u hu => by rwa [List.mem_singleton.1 hu]), hflags, ← onThreads_one, ← modThread_onThreads,
    onThreads_cons _ _ _ _ _ ht]

/-- PZ raised leaves the queues and mappings of every context. -/
theorem poisoned_ctx (s : State) (set : List Nat) (fs : List Field) (f : Nat → Thread → Thread) (c : Nat) :
    let x := (onThreads (poisoned s g gr set fs) g set f).ctx c
    x.maps = (s.ctx c).maps ∧ x.queues = (s.ctx c).queues := by
  have hctx := modCtx_ctx s gr.key.ctx c (Context.raiseBits s.cycle (orFlags set fun t => poisonFlag gr (inThread t (ownReads fs))))
  intro x
  rw [show x = _ from hctx]
  split <;> exact ⟨rfl, rfl⟩

theorem poisoned_group (hg : ∃ x, s.groups[g]? = some x ∧ x.key = gr.key) (set : List Nat) (fs : List Field) (f : Nat → Thread → Thread) :
    ∃ x, (onThreads (poisoned s g gr set fs) g set f).groups[g]? = some x ∧ x.key = gr.key := by
  obtain ⟨x, hx, hk⟩ := hg
  exact ⟨onGroup set f (flagGroup s.cycle set (fun t => poisonFlag gr (inThread t (ownReads fs))) x),
    by simp [onThreads, poisoned, flagged, hx], hk⟩

/-- R91, R313. Threads that launch one after another, after n others: each has the status of its turn, and the tail moves by one for each
record that the queue takes. -/
theorem foldl_launches {s0 : State} {ts : List Nat} (hsize : qu.size < 2 ^ 32) (hused : (qu.tail - qu.head).toNat ≤ qu.size)
    (hts : ts.Nodup) (hmay : ∀ t ∈ ts, s0.mayPerform gr.key false (s0.places gr.key (recordTarget ((gr.thread t).pair a.toNat)) false) = true)
    (hreach : SameReach gr.key s0 s) (hg : ∃ x, s.groups[g]? = some x ∧ x.key = gr.key)
    (hqueue : (s.ctx gr.key.ctx).queue q.toNat = launched qu n) :
    let s' := ts.foldl (launchStep q a d g gr next) s
    s'.groups = (onThreads (poisoned s g gr ts [regF a 2, outF d]) g ts fun t th =>
      (th.setReg d.toNat (launchStatus qu (n + ts.idxOf t))).goOn next).groups ∧
    (s'.ctx gr.key.ctx).queue q.toNat = launched qu (n + ts.length) := by
  induction ts generalizing s n with
  | nil => exact ⟨by rw [onThreads_nil, poisoned, flagged_nil]; rfl, hqueue⟩
  | cons t ts ih =>
    obtain ⟨ht, hts⟩ := List.nodup_cons.1 hts
    have hmay0 : s.mayPerform gr.key false (s.places gr.key (recordTarget ((gr.thread t).pair a.toNat)) false) = true := by
      rw [hreach.places, hreach.mayPerform]
      exact hmay t (by simp)
    obtain ⟨hstatus, hnext, hgroups, htime, hsame⟩ := launchOne_spec (s := s)
      (s.places gr.key (recordTarget ((gr.thread t).pair a.toNat)) false) hsize hused hqueue
    have hstep := (launchStep_launches (d := d) (g := g) (next := next) (.inr hmay0)).trans (launchThread_eq rfl (by rwa [hgroups]))
    rw [hstatus] at hstep
    generalize (s.launchOne gr.key q.toNat _).2 = r at hnext hgroups htime hsame hstep
    have hthreads := launched_groups (g := g) (gr := gr) hgroups htime [t] [regF a 2, outF d]
      fun _ th => (th.setReg d.toNat (launchStatus qu n)).goOn next
    obtain ⟨hmaps, hqueues⟩ := poisoned_ctx (g := g) (gr := gr) r [t] [regF a 2, outF d]
      (fun _ th => (th.setReg d.toNat (launchStatus qu n)).goOn next) gr.key.ctx
    have hgroup := poisoned_group (s := r) (by rwa [hgroups]) [t] [regF a 2, outF d]
      fun _ th => (th.setReg d.toNat (launchStatus qu n)).goOn next
    rw [← hstep] at hthreads hmaps hqueues hgroup
    obtain ⟨hrest, htail⟩ := ih hts (fun u hu => hmay u (by simp [hu])) (hreach.trans (hsame.trans ⟨hmaps, by rw [hstep]; rfl⟩)) hgroup
      (by rw [Context.queue, hqueues]; exact hnext)
    have hturn : ∀ u ∈ ts, n + 1 + ts.idxOf u = n + (t :: ts).idxOf u := fun u hu => by
      rw [List.idxOf_cons_ne _ fun e : t = u => ht (e ▸ hu), Nat.succ_eq_add_one, Nat.add_right_comm, Nat.add_assoc]
    refine ⟨hrest.trans ((launched_groups hthreads (by rw [hstep]; exact htime) ts _ _).trans ?_), htail.trans ?_⟩
    · rw [← poisoned_cons ht]
      refine congrArg State.groups ((onThreads_congr _ g ts _ _ fun u hu => by rw [hturn u hu]).trans ?_)
      refine congrArg (fun x => onThreads (poisoned x g gr ts _) g ts _) (onThreads_congr _ g [t] _ _ fun u hu => ?_)
      rw [List.mem_singleton.1 hu, List.idxOf_cons_self]
      rfl
    · rw [List.length_cons, Nat.add_right_comm, Nat.add_assoc]

end Launch

/-- Settles O34: one thread by what its launch answers; an issue set by induction over its threads, each with the status of its turn. -/
theorem launchQueues : Obligations.LaunchQueues := by
  refine ⟨?single, ?many⟩
  case single =>
    intro s g t gr q a d h hkind tgt k ls qu fin hread
    refine ⟨fun hclosed => ?_, fun hen hsrc hfull => ?_, fun hen hsrc hroom hmay hslot => ?_⟩
    · have htakes : qu.takes ≠ true := fun ht => by
        obtain ⟨⟨hen, hsrc⟩, -⟩ := (takes_iff _).1 ht
        rcases hclosed with hc | hc <;> simp_all
      exact exec_launch_single h hkind hread (fun ht => absurd ht htakes) (launchOne_closed (s := idle s) ls hclosed) rfl
    · have htakes : qu.takes ≠ true := fun ht => ((takes_iff _).1 ht).2 hfull
      exact exec_launch_single h hkind hread (fun ht => absurd ht htakes)
        (launchOne_full (s := idle s) ls hen hsrc (Bool.eq_false_iff.2 htakes)) rfl
    · exact exec_launch_single h hkind hread (fun _ => ⟨hmay, hslot⟩)
        (launchOne_taken (s := idle s) ls ((takes_iff _).2 ⟨⟨hen, hsrc⟩, hroom⟩)) (launchStores_stores ..).groups
  case many =>
    intro s g set gr q a d h hkind tgt qu used takes hsize hused hslots hreads
    obtain ⟨hgroups, hqueue⟩ := foldl_launches (q := q) (a := a) (d := d) (next := nextPc (.launch q a d) gr set) (n := 0) (s := idle s)
      hsize hused (rising_nodup h.issuing.rising) (fun t ht => (hreads t ht).2) ⟨rfl, rfl⟩ ⟨gr, h.issuing.group, rfl⟩ (launched_zero qu).symm
    refine ⟨_, fun t => launchStatus qu (0 + set.idxOf t), exec_launch h hkind (fun t ht => (hreads t ht).1) (fun n hn _ => (hslots n hn).1),
      hgroups, fun t n ht => ?_, ?_⟩
    · have hidx : set.idxOf t = n := by
        obtain ⟨hn, rfl⟩ := List.getElem?_eq_some_iff.1 ht
        exact (rising_nodup h.issuing.rising).idxOf_getElem n hn
      simp only [hidx, Nat.zero_add, launchStatus]
      refine ⟨fun ⟨hen, hsrc, hroom⟩ => ?_, fun hclosed => ?_, fun hen hsrc hfull => ?_⟩
      · rw [if_pos ⟨hen, hsrc⟩, if_pos hroom]
      · rw [if_neg fun ⟨hen, hsrc⟩ => by rcases hclosed with hc | hc <;> simp_all]
      · rw [if_pos ⟨hen, hsrc⟩, if_neg (Nat.not_lt.2 hfull)]
    · rw [hqueue, Nat.zero_add]
      rfl

end Sys2Proof.Proofs

namespace Sys2Proof.Proofs

open Sys2Proof.Machine Sys2Proof.Safety Sys2Proof.Laws
open Host (Cell)

/-! # Nodes (spec/06_scheduler.md R89 to R94)

## What stores of the device do to the nodes (R90, R194, R195) -/

section DeviceStores

variable {n m k : Node} {s t u : State}

/-- R195. A node after stores of the device: sealed, perhaps, where it was RUNNING, else as it was. -/
def SealedOr (n m : Node) : Prop := m = n ∨ n.state = .running ∧ m.state = .sealed ∧ plainNode m = plainNode n

theorem SealedOr.refl (n : Node) : SealedOr n n := .inl rfl

theorem SealedOr.of_ne (h : SealedOr n m) (hn : n.state ≠ .running) : m = n := h.resolve_right fun h => hn h.1

theorem SealedOr.plain (h : SealedOr n m) : plainNode m = plainNode n := by
  rcases h with rfl | ⟨-, -, h⟩
  · rfl
  · exact h

theorem SealedOr.trans (h : SealedOr n m) (h' : SealedOr m k) : SealedOr n k := by
  rcases h with rfl | ⟨hn, hm, hp⟩
  · exact h'
  · obtain rfl := h'.of_ne (by rw [hm]; decide)
    exact .inr ⟨hn, hm, hp⟩

theorem sealNode_sealedOr (cause : Nat) (n : Node) : SealedOr n (sealNode cause n) := by
  unfold sealNode
  split
  next h => exact .inr ⟨by simpa using h, rfl, rfl⟩
  next => exact .refl n

theorem stageNode_sealedOr (mem : List Cell) (page : Nat) (n : Node) : SealedOr n (stageNode mem none page n) := by
  unfold stageNode
  rw [if_neg (by simp)]
  split
  · exact sealNode_sealedOr 6 n
  · exact .refl n

/-- Nodes of one state after stores of the device, in their order. -/
def NodesKept (s t : State) : Prop := List.Forall₂ SealedOr s.nodes t.nodes

theorem NodesKept.refl (s : State) : NodesKept s s := List.forall₂_same.2 fun n _ => .refl n

theorem NodesKept.trans (h : NodesKept s t) (h' : NodesKept t u) : NodesKept s u := by
  unfold NodesKept at *
  generalize s.nodes = a at h
  generalize t.nodes = b at h h'
  generalize u.nodes = c at h'
  induction h generalizing c with
  | nil => cases h'; exact .nil
  | cons h _ ih =>
    cases h' with
    | cons h' ht => exact .cons (h.trans h') (ih _ ht)

theorem NodesKept.mem (h : NodesKept s t) (hn : n ∈ s.nodes) : ∃ m ∈ t.nodes, SealedOr n m := by
  unfold NodesKept at h
  generalize s.nodes = a at h hn
  generalize t.nodes = b at h
  induction h with
  | nil => cases hn
  | cons h _ ih =>
    rcases List.mem_cons.1 hn with rfl | hn
    · exact ⟨_, List.mem_cons_self, h⟩
    · obtain ⟨m, hm, hs⟩ := ih hn
      exact ⟨m, List.mem_cons_of_mem _ hm, hs⟩

theorem NodesKept.mem_right (h : NodesKept s t) (hm : m ∈ t.nodes) : ∃ n ∈ s.nodes, SealedOr n m := by
  unfold NodesKept at h
  generalize s.nodes = a at h
  generalize t.nodes = b at h hm
  induction h with
  | nil => cases hm
  | cons h _ ih =>
    rcases List.mem_cons.1 hm with rfl | hm
    · exact ⟨_, List.mem_cons_self, h⟩
    · obtain ⟨n, hn, hs⟩ := ih hm
      exact ⟨n, List.mem_cons_of_mem _ hn, hs⟩

theorem plain_key (h : plainNode m = plainNode n) : m.ctx = n.ctx ∧ m.ref = n.ref :=
  ⟨(plain_ctx h).1, by have href := congrArg Node.ref h; exact href⟩

theorem NodesKept.node? (h : NodesKept s t) {c : Nat} {r : Word} (hn : s.node? c r = some n) :
    ∃ m, t.node? c r = some m ∧ SealedOr n m := by
  unfold State.node? at *
  unfold NodesKept at h
  generalize s.nodes = a at h hn
  generalize t.nodes = b at h
  induction h with
  | nil => cases hn
  | cons h _ ih =>
    obtain ⟨hctx, href⟩ := plain_key h.plain
    rw [List.find?_cons] at hn ⊢
    rw [hctx, href]
    split at hn
    next => cases hn; exact ⟨_, rfl, h⟩
    next => exact ih hn

/-- Stores of the device: nodes, as sealing leaves them, and memory change, and nothing else. -/
structure DeviceStores (s t : State) : Prop where
  frame : ∃ nodes mem, t = { s with nodes := nodes, mem := mem }
  nodes : NodesKept s t
  wf : s.memWf = true → t.memWf = true

theorem DeviceStores.refl (s : State) : DeviceStores s s := ⟨⟨s.nodes, s.mem, rfl⟩, .refl s, id⟩

theorem DeviceStores.trans (h : DeviceStores s t) (h' : DeviceStores t u) : DeviceStores s u := by
  obtain ⟨nodes, mem, ht⟩ := h.frame
  obtain ⟨nodes', mem', hu⟩ := h'.frame
  exact ⟨⟨nodes', mem', by rw [hu, ht]⟩, h.nodes.trans h'.nodes, fun hw => h'.wf (h.wf hw)⟩

theorem DeviceStores.ctx (h : DeviceStores s t) (c : Nat) : t.ctx c = s.ctx c := by
  obtain ⟨nodes, mem, rfl⟩ := h.frame
  rfl

theorem stageOnce_device (s : State) (page : Nat) : DeviceStores s (s.stageOnce none page).1 :=
  ⟨⟨_, s.mem, rfl⟩, List.forall₂_map_right_iff.2 (List.forall₂_same.2 fun n _ => stageNode_sealedOr s.mem page n), id⟩

theorem memWrite_device (s : State) (p : Nat) (bs : List Byte) : DeviceStores s (s.memWrite p bs) :=
  ⟨⟨s.nodes, _, rfl⟩, .refl s, fun hw => by
    rw [memWf_iff] at hw ⊢
    exact ⟨write_wf _ _ _ hw.1, hw.2⟩⟩

theorem sealStores_device (fuel : Nat) (l : List (Node × Bool)) (s : State) : DeviceStores s (sealStores fuel l s) := by
  induction fuel generalizing l s with
  | zero => exact .refl s
  | succ fuel ih =>
    cases l with
    | nil => exact .refl s
    | cons x l =>
      obtain ⟨n, staged⟩ := x
      rw [sealStores]
      split
      · exact ih l s
      · split
        · exact (memWrite_device ..).trans (ih l _)
        · exact (stageOnce_device ..).trans (ih _ _)

theorem stageFor_device (s : State) (page : Nat) : DeviceStores s (s.stageFor none page) :=
  (stageOnce_device s page).trans (sealStores_device ..)

theorem devStore_device (s : State) (c x : Nat) (bs : List Byte) : DeviceStores s (s.devStore c x bs) := by
  unfold State.devStore
  split
  · exact (stageFor_device ..).trans (memWrite_device ..)
  · exact .refl s

theorem devStoreLong_device (c : Nat) (bs : List Byte) : ∀ (s : State) (x : Nat), DeviceStores s (s.devStoreLong c x bs) := by
  induction bs with
  | nil => exact fun s _ => .refl s
  | cons b bs ih => exact fun s x => (devStore_device s c x [b]).trans (ih _ _)

/-- The bytes of a device store read back, where its address is mapped. -/
theorem read_devStore (hw : s.memWf = true) {c x p : Nat} (hp : (s.ctx c).phys? x = some p) (bs : List Byte) :
    cellsRead (s.devStore c x bs).mem p bs.length = bs := by
  simp only [State.devStore, hp]
  exact read_write bs _ p ((memWf_iff _).1 ((stageFor_device s _).wf hw)).1

theorem putStatus_device (s : State) (c : Nat) (r : Word) : DeviceStores s (s.putStatus c r) := by
  unfold State.putStatus
  split
  · exact devStore_device ..
  · exact .refl s

end DeviceStores

/-! ## A node whose state changes (R90, R94, Table 6.5) -/

section NodeStates

variable {s t : State} {c c' : Nat} {r r' : Word} {n : Node} {st : NodeState}

theorem node?_key (h : s.node? c r = some n) : n ∈ s.nodes ∧ n.ctx = c ∧ n.ref = r := by
  have hkey := List.find?_some h
  rw [Bool.and_eq_true, beq_iff_eq, beq_iff_eq] at hkey
  exact ⟨List.mem_of_find?_eq_some h, hkey⟩

/-- An update of a node that keeps its names is found under them. -/
theorem modNode_node? (f : Node → Node) (hf : ∀ n, (f n).ctx = n.ctx ∧ (f n).ref = n.ref) (h : s.node? c' r' = some n) :
    (s.modNode c r f).node? c' r' = some (if n.ctx == c && n.ref == r then f n else n) := by
  have hkeep : ∀ x : Node, ((if x.ctx == c && x.ref == r then f x else x).ctx == c' && (if x.ctx == c && x.ref == r then f x else x).ref == r') =
      (x.ctx == c' && x.ref == r') := fun x => by
    split
    · rw [(hf x).1, (hf x).2]
    · rfl
  rw [State.node?, modNode_nodes, List.find?_map]
  simp only [Function.comp_def, hkeep]
  exact congrArg (Option.map _) h

theorem modNode_node?_self (f : Node → Node) (hf : ∀ n, (f n).ctx = n.ctx ∧ (f n).ref = n.ref) (h : s.node? c r = some n) :
    (s.modNode c r f).node? c r = some (f n) := by
  obtain ⟨-, hc, hr⟩ := node?_key h
  rw [modNode_node? f hf h, if_pos (by simp [hc, hr])]

theorem modNode_node?_other (f : Node → Node) (hf : ∀ n, (f n).ctx = n.ctx ∧ (f n).ref = n.ref) (h : s.node? c r = some n)
    (hne : ¬(c = c' ∧ r = r')) : (s.modNode c' r' f).node? c r = some n := by
  obtain ⟨-, hc, hr⟩ := node?_key h
  rw [modNode_node? f hf h, if_neg (by simpa [hc, hr] using hne)]

/-- A node that reaches a state other than RUNNING is in it, and is otherwise as it was. -/
theorem setNodeState_node? (hst : st ≠ .running) (h : s.node? c r = some n) :
    (s.setNodeState c r st).node? c r = some { n with state := st } := by
  obtain ⟨m, hm, hs⟩ := (putStatus_device _ c r).nodes.node? (modNode_node?_self (fun n => { n with state := st }) (fun _ => ⟨rfl, rfl⟩) h)
  rwa [hs.of_ne hst] at hm

/-- The store that gives a node's state in STATUS. -/
theorem setNodeState_eq (h : s.node? c r = some n) :
    s.setNodeState c r st = (s.modNode c r fun n => { n with state := st }).devStore c (n.addr + 104) (natBytes 4 (n.attempt * 256 + st.code)) := by
  rw [State.setNodeState, State.putStatus, modNode_node?_self (fun n => { n with state := st }) (fun _ => ⟨rfl, rfl⟩) h]
  rfl

/-- The other nodes that are not RUNNING stay as they are. -/
theorem setNodeState_node?_other (hn : n.state ≠ .running) (h : s.node? c r = some n) (hne : ¬(c = c' ∧ r = r')) :
    (s.setNodeState c' r' st).node? c r = some n := by
  obtain ⟨m, hm, hs⟩ := (putStatus_device _ c' r').nodes.node? (modNode_node?_other (fun n => { n with state := st }) (fun _ => ⟨rfl, rfl⟩) h hne)
  rwa [hs.of_ne hn] at hm

theorem mem_setNodeState (hst : st ≠ .running) (h : n ∈ s.nodes) (hc : n.ctx = c) (hr : n.ref = r) :
    { n with state := st } ∈ (s.setNodeState c r st).nodes := by
  have hmem : { n with state := st } ∈ (s.modNode c r fun n => { n with state := st }).nodes := by
    rw [modNode_nodes]
    exact List.mem_map.2 ⟨n, h, if_pos (by simp [hc, hr])⟩
  obtain ⟨m, hm, hs⟩ := (putStatus_device _ c r).nodes.mem hmem
  rwa [hs.of_ne hst] at hm

/-- Every node of the names is in the state. -/
theorem setNodeState_state (hst : st ≠ .running) {x : Node} (hx : x ∈ (s.setNodeState c r st).nodes) (hc : x.ctx = c) (hr : x.ref = r) :
    x.state = st := by
  obtain ⟨y, hy, hs⟩ := (putStatus_device _ c r).nodes.mem_right hx
  obtain ⟨hctx, href⟩ := plain_key hs.plain
  rw [modNode_nodes] at hy
  obtain ⟨z, -, rfl⟩ := List.mem_map.1 hy
  have hkey : (z.ctx == c && z.ref == r) = true := by
    split at hctx <;> split at href <;> simp_all
  rw [if_pos hkey] at hs
  rw [hs.of_ne hst]

/-- What a change of a node's state, and the notice of it, leaves alone. -/
structure NodeWork (s t : State) : Prop where
  groups : t.groups = s.groups
  teams : t.teams = s.teams
  queues : ∀ c, (t.ctx c).queues = (s.ctx c).queues

theorem NodeWork.refl (s : State) : NodeWork s s := ⟨rfl, rfl, fun _ => rfl⟩

theorem NodeWork.trans {u : State} (h : NodeWork s t) (h' : NodeWork t u) : NodeWork s u :=
  ⟨h'.groups.trans h.groups, h'.teams.trans h.teams, fun c => (h'.queues c).trans (h.queues c)⟩

theorem DeviceStores.work (h : DeviceStores s t) : NodeWork s t := by
  obtain ⟨nodes, mem, rfl⟩ := h.frame
  exact ⟨rfl, rfl, fun _ => rfl⟩

theorem modNode_work (s : State) (c : Nat) (r : Word) (f : Node → Node) : NodeWork s (s.modNode c r f) := ⟨rfl, rfl, fun _ => rfl⟩

theorem setNodeState_work (s : State) (c : Nat) (r : Word) (st : NodeState) : NodeWork s (s.setNodeState c r st) :=
  (modNode_work ..).trans (putStatus_device _ c r).work

/-- A node that goes COMMITTING gathers its entries in a batch; this changes its context alone. -/
theorem startCommit_eq (s : State) (c : Nat) (r : Word) : ∃ cs, s.startCommit c r = { s.setNodeState c r .committing with ctxs := cs } := by
  unfold State.startCommit
  dsimp only
  split
  · exact ⟨_, rfl⟩
  · exact ⟨_, rfl⟩

theorem startCommit_work (s : State) (c : Nat) (r : Word) : NodeWork s (s.startCommit c r) := by
  refine (setNodeState_work s c r .committing).trans ?_
  unfold State.startCommit
  dsimp only
  split
  · refine ⟨rfl, rfl, fun j => ?_⟩
    rw [State.makeBatch, modCtx_ctx]
    split <;> rfl
  · exact .refl _

theorem startCommit_node? (h : s.node? c r = some n) : (s.startCommit c r).node? c r = some { n with state := .committing } := by
  obtain ⟨cs, heq⟩ := startCommit_eq s c r
  rw [heq]
  exact setNodeState_node? (by decide) h

theorem startCommit_node?_other (hn : n.state ≠ .running) (h : s.node? c r = some n) (hne : ¬(c = c' ∧ r = r')) :
    (s.startCommit c' r').node? c r = some n := by
  obtain ⟨cs, heq⟩ := startCommit_eq s c' r'
  rw [heq]
  exact setNodeState_node?_other hn h hne

theorem wakeNode_work (s : State) (n : Node) : NodeWork s (s.wakeNode n) := by
  unfold State.wakeNode
  split
  · dsimp only
    split
    · exact (setNodeState_work ..).trans (startCommit_work ..)
    · exact setNodeState_work ..
  · exact .refl s

end NodeStates

/-! ## Consumption (R92, logs 58 and 106) -/

section Consume

variable {s : State} {c q : Nat}

/-- A context that is not FREE is one of those of the device. -/
theorem lt_of_active (h : (s.ctx c).state = .active) : c < s.ctxs.length := by
  by_contra hn
  rw [State.ctx, List.getD_eq_default _ _ (by omega)] at h
  cases h

/-- R92. The unfinished node that a record becomes. -/
def consumed (s : State) (c q : Nat) (r : List Byte) : Node :=
  let qu := (s.ctx c).queue q
  { ctx := c, queue := q, index := qu.head, ref := BitVec.ofNat 32 (q * 2 ^ 27 + qu.head.toNat % 2 ^ 27), addr := qu.slot qu.head,
    rec' := parseRec r, state := .queued }

/-- R92. The head of a queue moved over the record that is consumed. -/
def headMoved (s : State) (c q : Nat) : State := s.modCtx c fun x => x.modQueue q fun y => { y with head := y.head + 1 }

theorem consumeRec_accepted {r : List Byte} (h : s.refusal c r = 0) : s.consumeRec c q r =
    (({ headMoved s c q with nodes := s.nodes ++ [consumed s c q r] } : State).putStatus c (consumed s c q r).ref).wakeNode (consumed s c q r) :=
  if_pos h

theorem consumeRec_refused {r : List Byte} (h : s.refusal c r ≠ 0) : s.consumeRec c q r =
    ((headMoved s c q).putTime (consumed s c q r) 7).devStore c ((consumed s c q r).addr + 104)
      (natBytes 4 (s.refusal c r * 65536 + 7)) :=
  if_neg h

theorem exec_nodeConsume {r : List Byte} (hc : c < 64) (hq : q < 32) (hactive : (s.ctx c).state = .active)
    (hen : ((s.ctx c).queue q).en = true) (hne : ((s.ctx c).queue q).head ≠ ((s.ctx c).queue q).tail)
    (hroom : (s.nodes.filter fun n => n.ctx == c && n.queue == q).length < 256)
    (hr : s.virtBytes c (((s.ctx c).queue q).slot ((s.ctx c).queue q).head) 128 = some r) :
    exec (.nodeConsume c q) s = .next (s.consumeRec c q r) := by
  refine congrArg event ((if_pos ?_).trans ?_)
  · simp [hc, hq, hactive, hen, hne, hroom]
  · rw [hr]

theorem headMoved_queue (hen : ((s.ctx c).queue q).en = true) :
    ((headMoved s c q).ctx c).queue q = { (s.ctx c).queue q with head := ((s.ctx c).queue q).head + 1 } :=
  queue_modQueue _ (lt_of_en hen).1 (lt_of_en hen).2

theorem headMoved_phys (x : Nat) : ((headMoved s c q).ctx c).phys? x = (s.ctx c).phys? x := by
  rw [headMoved, modCtx_ctx]
  split <;> rfl

theorem NodeWork.queue {t : State} (h : NodeWork s t) (c q : Nat) : (t.ctx c).queue q = (s.ctx c).queue q := by
  rw [Context.queue, h.queues, Context.queue]

/-- A node that waits for its predecessors is QUEUED still, READY, or, with no teams, COMMITTING. -/
theorem wakeNode_mem {n : Node} (hn : n ∈ s.nodes) (hstate : n.state = .queued) :
    ∃ st, { n with state := st } ∈ (s.wakeNode n).nodes ∧ (st = .queued ∨ st = .ready ∨ st = .committing) := by
  unfold State.wakeNode
  split
  · dsimp only
    have hready : { n with state := .ready } ∈ (s.setNodeState n.ctx n.ref .ready).nodes := mem_setNodeState (by decide) hn rfl rfl
    split
    · obtain ⟨cs, heq⟩ := startCommit_eq (s.setNodeState n.ctx n.ref .ready) n.ctx n.ref
      rw [heq]
      exact ⟨.committing, mem_setNodeState (n := { n with state := .ready }) (by decide) hready rfl rfl, .inr (.inr rfl)⟩
    · exact ⟨.ready, hready, .inr (.inl rfl)⟩
  · exact ⟨.queued, by rwa [← hstate], .inl rfl⟩

/-- R92. A record that passes its checks is an unfinished node. -/
theorem consumeRec_mem {r : List Byte} (h : s.refusal c r = 0) :
    ∃ st, { consumed s c q r with state := st } ∈ (s.consumeRec c q r).nodes ∧ (st = .queued ∨ st = .ready ∨ st = .committing) := by
  rw [consumeRec_accepted h]
  obtain ⟨m, hm, hs⟩ := (putStatus_device { headMoved s c q with nodes := s.nodes ++ [consumed s c q r] } c (consumed s c q r).ref).nodes.mem
    (n := consumed s c q r) (by simp)
  rw [hs.of_ne (show NodeState.queued ≠ .running by decide)] at hm
  exact wakeNode_mem hm rfl

/-- R92. What consumption leaves but for the head of the queue, the nodes and memory. -/
theorem consumeRec_work (r : List Byte) : NodeWork (headMoved s c q) (s.consumeRec c q r) := by
  by_cases h : s.refusal c r = 0
  · rw [consumeRec_accepted h]
    have hnode : NodeWork (headMoved s c q) { headMoved s c q with nodes := s.nodes ++ [consumed s c q r] } := ⟨rfl, rfl, fun _ => rfl⟩
    exact (hnode.trans (putStatus_device ..).work).trans (wakeNode_work ..)
  · rw [consumeRec_refused h]
    exact ((devStore_device ..).trans (devStore_device ..)).work

/-- R92. A refused record leaves its code in STATUS. -/
theorem read_consumeRec_refused {r : List Byte} (h : s.refusal c r ≠ 0) {p : Nat} (hw : s.memWf = true)
    (hp : (s.ctx c).phys? (((s.ctx c).queue q).slot ((s.ctx c).queue q).head + 104) = some p) :
    cellsRead (s.consumeRec c q r).mem p 4 = natBytes 4 (s.refusal c r * 65536 + 7) := by
  have htime := devStore_device (headMoved s c q)
  rw [consumeRec_refused h]
  refine read_devStore ((htime _ _ _).wf hw) ?_ (natBytes 4 (s.refusal c r * 65536 + 7))
  rw [DeviceStores.ctx (htime _ _ _), headMoved_phys]
  exact hp

theorem NodesKept.plain {s t : State} (h : NodesKept s t) : t.nodes.map plainNode = s.nodes.map plainNode := by
  unfold NodesKept at h
  generalize s.nodes = a at h
  generalize t.nodes = b at h
  induction h with
  | nil => rfl
  | cons h _ ih => rw [List.map_cons, List.map_cons, h.plain, ih]

theorem consumeRec_refused_plain {r : List Byte} (h : s.refusal c r ≠ 0) :
    (s.consumeRec c q r).nodes.map plainNode = s.nodes.map plainNode := by
  rw [consumeRec_refused h]
  exact ((devStore_device ..).trans (devStore_device ..)).nodes.plain

end Consume

/-! ## Retirement of teams (R128, R145) -/

section Retire

variable {s t : State} {k : TKey} {tm : Team} {n : Node}

/-- An entry moves to the log by stores of the device; beside these only its context changes. -/
theorem spillEntry_eq (s : State) (c : Nat) (e : BasketEntry) :
    ∃ t cs, DeviceStores s t ∧ s.spillEntry c e = { t with ctxs := cs } := by
  unfold State.spillEntry
  split
  · exact ⟨s, s.ctxs, .refl s, rfl⟩
  · exact ⟨_, _, devStoreLong_device .., rfl⟩

/-- R145. Entries that move to the log leave groups and teams as they are. -/
theorem spillTeam_spec (s : State) (k : TKey) :
    (s.spillTeam k).groups = s.groups ∧ (s.spillTeam k).teams = s.teams ∧ NodesKept s (s.spillTeam k) := by
  unfold State.spillTeam
  generalize List.filter _ _ = es
  induction es generalizing s with
  | nil => exact ⟨rfl, rfl, .refl s⟩
  | cons e es ih =>
    obtain ⟨t, cs, ht, heq⟩ := spillEntry_eq s k.ctx e
    obtain ⟨hgroups, hteams, hnodes⟩ := ih (s.spillEntry k.ctx e)
    rw [heq] at hgroups hteams hnodes
    rw [List.foldl_cons, heq]
    exact ⟨hgroups.trans ht.work.groups, hteams.trans ht.work.teams, NodesKept.trans ht.nodes hnodes⟩

/-- R128. What a team that retires leaves, before the waits that this ends. -/
def teamRetired (s : State) (k : TKey) : State :=
  ((s.spillTeam k).freeTeam k).modNode k.ctx k.node fun n => { n with retired := n.retired + 1 }

theorem exec_teamRetire (hk : s.team? k = some tm) (hmay : s.mayRetire tm = true) (herr : s.erring k.ctx k.node = false) :
    exec (.teamRetire k) s = .next (teamRetired s k).settle := by
  show execTeamRetire k s = _
  simp only [execTeamRetire, hk, hmay, herr, event]
  rfl

theorem exec_teamRetire_erring (herr : s.erring k.ctx k.node = true) : exec (.teamRetire k) s = .next s := by
  show execTeamRetire k s = _
  simp only [execTeamRetire, herr, event]
  split <;> simp

theorem teamRetired_groups (s : State) (k : TKey) : (teamRetired s k).groups = s.groups.filter fun g => gkeyTeam g.key != k := by
  obtain ⟨-, hgroups, -⟩ := freeTeam_eq (s.spillTeam k) k
  rw [teamRetired, modNode_groups, hgroups, (spillTeam_spec s k).1]

theorem teamRetired_team? (s : State) (k : TKey) : (teamRetired s k).team? k = none := by
  obtain ⟨-, -, hkeys⟩ := freeTeam_eq (s.spillTeam k) k
  refine List.find?_eq_none.2 fun x hx hk => ?_
  have hmem : x.key ∈ ((s.spillTeam k).freeTeam k).teams.map Team.key := List.mem_map_of_mem hx
  rw [hkeys, List.mem_filter] at hmem
  simp_all

/-- R128. The node counts the team, and is otherwise as it was, or sealed. -/
theorem teamRetired_node? (h : s.node? k.ctx k.node = some n) :
    ∃ m, SealedOr n m ∧ (teamRetired s k).node? k.ctx k.node = some { m with retired := m.retired + 1 } := by
  obtain ⟨-, -, hnodes⟩ := spillTeam_spec s k
  obtain ⟨m, hm, hs⟩ := hnodes.node? h
  obtain ⟨hframe, -, -⟩ := freeTeam_eq (s.spillTeam k) k
  refine ⟨m, hs, modNode_node?_self (fun n => { n with retired := n.retired + 1 }) (fun _ => ⟨rfl, rfl⟩) ?_⟩
  rw [hframe.eq]
  exact hm

theorem noneWait_filter {p : Group → Bool} (h : NoneWait s) (ht : t.groups = s.groups.filter p) : NoneWait t :=
  fun x hx => h x (List.mem_of_mem_filter (ht ▸ hx))

end Retire

/-! ## The end of a cycle (R94, Table 6.5, log 97) -/

section EndCycle

variable {s : State} {c : Nat} {ref : Word} {n : Node}

/-- A node stays as it is while others go COMMITTING. -/
theorem foldl_startCommit_other {l : List Node} (hn : n.state ≠ .running) (h : s.node? c ref = some n)
    (hl : ∀ x ∈ l, ¬(c = x.ctx ∧ ref = x.ref)) : (l.foldl (fun s x => s.startCommit x.ctx x.ref) s).node? c ref = some n := by
  induction l generalizing s with
  | nil => exact h
  | cons x l ih => exact ih (startCommit_node?_other hn h (hl x (by simp))) fun y hy => hl y (by simp [hy])

/-- A node that is COMMITTING stays so while nodes go COMMITTING. -/
theorem foldl_startCommit_committing {l : List Node} (hn : n.state = .committing) (h : s.node? c ref = some n) :
    (l.foldl (fun s x => s.startCommit x.ctx x.ref) s).node? c ref = some n := by
  induction l generalizing s with
  | nil => exact h
  | cons x l ih =>
    refine ih ?_
    by_cases hx : c = x.ctx ∧ ref = x.ref
    · obtain ⟨rfl, rfl⟩ := hx
      rw [startCommit_node? h, ← hn]
    · exact startCommit_node?_other (by rw [hn]; decide) h hx

/-- A node is found while another, or it itself, goes COMMITTING. -/
theorem startCommit_node?_some (c' : Nat) (r' : Word) (h : s.node? c ref = some n) : ∃ m, (s.startCommit c' r').node? c ref = some m := by
  obtain ⟨cs, heq⟩ := startCommit_eq s c' r'
  obtain ⟨m, hm, -⟩ := (putStatus_device _ c' r').nodes.node?
    (modNode_node? (c := c') (r := r') (fun n => { n with state := .committing }) (fun _ => ⟨rfl, rfl⟩) h)
  exact ⟨m, by rw [heq]; exact hm⟩

/-- A node goes COMMITTING where it is among those that do. -/
theorem foldl_startCommit_mem {l : List Node} (h : s.node? c ref = some n) (hl : ∃ x ∈ l, x.ctx = c ∧ x.ref = ref) :
    ∃ m, (l.foldl (fun s x => s.startCommit x.ctx x.ref) s).node? c ref = some m ∧ m.state = .committing := by
  induction l generalizing s n with
  | nil => obtain ⟨x, hx, -⟩ := hl; cases hx
  | cons y l ih =>
    by_cases hy : y.ctx = c ∧ y.ref = ref
    · obtain ⟨rfl, rfl⟩ := hy
      exact ⟨_, foldl_startCommit_committing (s := s.startCommit y.ctx y.ref) rfl (startCommit_node? h), rfl⟩
    · obtain ⟨m, hm⟩ := startCommit_node?_some y.ctx y.ref h
      obtain ⟨x, hx, hkey⟩ := hl
      refine ih hm ⟨x, (List.mem_cons.1 hx).resolve_left ?_, hkey⟩
      rintro rfl
      exact hy hkey

/-- R94. Without an error, a node of which every team has retired is COMMITTING as the cycle ends. -/
theorem endCycle_committing (herrors : s.errors = []) (h : s.node? c ref = some n) (hstate : n.state = .running ∨ n.state = .sealed)
    (hretired : n.retired = n.rec'.count) : ∃ m, s.endCycle.node? c ref = some m ∧ m.state = .committing := by
  obtain ⟨hmem, hc, hr⟩ := node?_key h
  have hendCycle : s.endCycle = s.retiredNodes.foldl (fun s n => s.startCommit n.ctx n.ref) s := by
    rw [State.endCycle, herrors]
    rfl
  rw [hendCycle]
  refine foldl_startCommit_mem h ⟨n, List.mem_filter.2 ⟨hmem, ?_⟩, hc, hr⟩
  rcases hstate with hs | hs <;> simp [hs, hretired]

/-- R196. A node that rolls back is ROLLED_BACK under every node of its names, and only that changes in the nodes. -/
theorem rollback_eq (h : s.node? c ref = some n) :
    ∃ (t : State) (f : Node → Node), t.nodes = s.nodes ∧ (∀ n, (f n).ctx = n.ctx ∧ (f n).ref = n.ref) ∧
      s.rollback c ref = (t.modNode c ref f).setNodeState c ref .rolledBack := by
  unfold State.rollback
  rw [h]
  dsimp only
  obtain ⟨hframe, -, -⟩ := freeTeams_eq c ((s.teams.filter fun t => t.key.ctx == c && t.key.node == ref).map Team.key) s (by
    simp only [List.mem_map, List.mem_filter, Bool.and_eq_true, beq_iff_eq]
    rintro k ⟨t, ⟨-, hc, -⟩, rfl⟩
    exact hc)
  refine ⟨_, _, ?_, ?_, rfl⟩
  · have hnodes := congrArg State.nodes hframe.eq
    exact hnodes
  · exact fun _ => ⟨rfl, rfl⟩

theorem rollback_node? (h : s.node? c ref = some n) : ∃ m, (s.rollback c ref).node? c ref = some m ∧ m.state = .rolledBack := by
  obtain ⟨t, f, hnodes, hf, heq⟩ := rollback_eq h
  have ht : t.node? c ref = some n := by rw [State.node?, hnodes]; exact h
  rw [heq]
  exact ⟨_, setNodeState_node? (by decide) (modNode_node?_self f hf ht), rfl⟩

theorem rollback_state (h : s.node? c ref = some n) {x : Node} (hx : x ∈ (s.rollback c ref).nodes) (hc : x.ctx = c) (hr : x.ref = ref) :
    x.state = .rolledBack := by
  obtain ⟨t, f, -, -, heq⟩ := rollback_eq h
  rw [heq] at hx
  exact setNodeState_state (by decide) hx hc hr

/-- R94. The one error of a cycle rolls its RUNNING node back, and the node does not go COMMITTING. -/
theorem endCycle_rolledBack {r : TrapRec} (herrors : s.errors = [r]) (hc : r.group.ctx = c) (href : r.node = ref)
    (hactive : (s.ctx c).state = .active) (h : s.node? c ref = some n) (hstate : n.state = .running) (hattempt : n.attempt < 3) :
    ∃ m, s.endCycle.node? c ref = some m ∧ m.state = .rolledBack := by
  subst hc href
  have herring : s.erring r.group.ctx r.node = true := by simp [State.erring, herrors]
  have htake : s.takeErrors = (s.rollback r.group.ctx r.node).noErrors := by
    rw [State.takeErrors, herrors, List.foldl_cons, List.foldl_nil, if_pos (by simp [herring, hactive]), State.takeError]
    simp [h, hstate, hattempt]
  obtain ⟨m, hm, hrolled⟩ := rollback_node? h
  have hendCycle : s.endCycle = s.takeErrors.retiredNodes.foldl (fun s n => s.startCommit n.ctx n.ref) s.takeErrors := by
    rw [State.endCycle, herrors]
    rfl
  rw [hendCycle]
  refine ⟨m, foldl_startCommit_other (by rw [hrolled]; decide) (by rw [htake]; exact hm) ?_, hrolled⟩
  rintro x hx ⟨hxc, hxr⟩
  obtain ⟨hxmem, hxstate⟩ := List.mem_filter.1 hx
  rw [htake] at hxmem
  rw [rollback_state h hxmem hxc.symm hxr.symm] at hxstate
  simp at hxstate

end EndCycle

/-! ## Commitment, notice of successors and another attempt (R90, R94) -/

section Commit

variable {s : State} {c : Nat} {ref : Word} {n : Node}

/-- Table 6.5. A QUEUED node whose predecessors are all DONE, and which has teams, is READY. -/
theorem wakeNode_ready (hstate : n.state = .queued) (hpreds : s.virtNat n.ctx (n.addr + 100) 4 = n.rec'.preds) (hcount : 0 < n.rec'.count) :
    s.wakeNode n = s.setNodeState n.ctx n.ref .ready := by
  unfold State.wakeNode
  rw [if_pos (by simp [hstate, hpreds])]
  exact if_neg (Nat.ne_of_gt hcount)

/-- Table 6.5. A node waits while predecessors are not DONE. -/
theorem wakeNode_waits (hpreds : s.virtNat n.ctx (n.addr + 100) 4 ≠ n.rec'.preds) : s.wakeNode n = s := by
  unfold State.wakeNode
  exact if_neg (by simp [hpreds])

theorem notify_work (s : State) (c : Nat) (w : Word) : NodeWork s (s.notify c w) := by
  unfold State.notify
  dsimp only
  split
  · exact (devStore_device ..).work.trans (wakeNode_work ..)
  · exact (devStore_device ..).work

theorem foldl_notify_work (c : Nat) (l : List Word) (s : State) : NodeWork s (l.foldl (fun s w => s.notify c w) s) := by
  induction l generalizing s with
  | nil => exact .refl s
  | cons w l ih => exact (notify_work s c w).trans (ih _)

/-- R94. The node with its ranges released. -/
def released (s : State) (c : Nat) (ref : Word) : State := s.modNode c ref fun x => { x with registered := false, staged := [] }

/-- R90, R94. The state in which the successors of a node that is DONE are notified. -/
def markedDone (s : State) (c : Nat) (ref : Word) (n : Node) : State := ((released s c ref).putTime n 5).setNodeState c ref .done

theorem exec_nodeCommit (h : s.node? c ref = some n) (hstate : n.state = .committing) (hactive : (s.ctx c).state = .active)
    (hbasket : ∀ e ∈ (s.ctx c).basket, e.node ≠ ref) (herr : s.erring c ref = false) :
    exec (.nodeCommit c ref) s = .next (s.commitNode n) := by
  show execNodeCommit c ref s = _
  simp only [execNodeCommit, h, event]
  rw [if_pos (by simpa [hstate, hactive, herr] using hbasket)]

theorem commitNode_eq (h : s.node? c ref = some n) : s.commitNode n =
    let t := n.rec'.succ.foldl (fun s w => s.notify c w) (markedDone s c ref n)
    { t with nodes := t.nodes.filter fun x => !(x.ctx == c && x.ref == ref) } := by
  obtain ⟨-, rfl, rfl⟩ := node?_key h
  rfl

theorem markedDone_work : NodeWork s (markedDone s c ref n) :=
  ((modNode_work ..).trans (devStore_device ..).work).trans (setNodeState_work ..)

theorem released_putTime_node? (h : s.node? c ref = some n) (hstate : n.state = .committing) :
    ((released s c ref).putTime n 5).node? c ref = some { n with registered := false, staged := [] } := by
  obtain ⟨m, hm, hs⟩ := (devStore_device (released s c ref) _ _ _).nodes.node?
    (modNode_node?_self (fun x => { x with registered := false, staged := [] }) (fun _ => ⟨rfl, rfl⟩) h)
  rw [hs.of_ne (by rw [hstate]; decide)] at hm
  exact hm

theorem markedDone_node? (h : s.node? c ref = some n) (hstate : n.state = .committing) :
    (markedDone s c ref n).node? c ref = some { n with registered := false, staged := [], state := .done } :=
  setNodeState_node? (by decide) (released_putTime_node? h hstate)

/-- R90. The STATUS of a node that is DONE reads back. -/
theorem read_markedDone (h : s.node? c ref = some n) (hstate : n.state = .committing) {p : Nat} (hw : s.memWf = true)
    (hp : (s.ctx c).phys? (n.addr + 104) = some p) : cellsRead (markedDone s c ref n).mem p 4 = natBytes 4 (n.attempt * 256 + 5) := by
  have htime : DeviceStores (released s c ref) ((released s c ref).putTime n 5) := devStore_device ..
  rw [markedDone, setNodeState_eq (released_putTime_node? h hstate)]
  have hwf : (((released s c ref).putTime n 5).modNode c ref fun x => { x with state := .done }).memWf = true := htime.wf hw
  have hctx := congrArg (fun x => x.phys? (n.addr + 104)) (htime.ctx c)
  exact read_devStore hwf (hctx.trans hp) (natBytes 4 (n.attempt * 256 + 5))

/-- R94. The node that goes again, with its next attempt. -/
def requeued (s : State) (c : Nat) (ref : Word) : State :=
  (s.modNode c ref fun x => { x with attempt := x.attempt + 1, sealCause := 0 }).setNodeState c ref .ready

theorem exec_rollbackRequeue (h : s.node? c ref = some n) (hstate : n.state = .rolledBack) :
    exec (.rollbackRequeue c ref) s = .next (requeued s c ref) := by
  show execRollbackRequeue c ref s = _
  simp only [execRollbackRequeue, h, event]
  rw [if_pos (by rw [hstate]; rfl)]
  rfl

theorem requeued_node? (h : s.node? c ref = some n) :
    (requeued s c ref).node? c ref = some { n with attempt := n.attempt + 1, sealCause := 0, state := .ready } :=
  setNodeState_node? (by decide) (modNode_node?_self (fun x => { x with attempt := x.attempt + 1, sealCause := 0 }) (fun _ => ⟨rfl, rfl⟩) h)

theorem requeued_work : NodeWork s (requeued s c ref) := (modNode_work ..).trans (setNodeState_work ..)

end Commit

/-- Settles O55: stores of the device change nodes only by sealing a RUNNING one, so every transition of a node is read off the node
that it is made of, and leaves groups and teams as they are. -/
theorem nodesLive : Obligations.NodesLive := by
  unfold Obligations.NodesLive
  refine ⟨?consume, ?wake, ?retire, ?erring, ?cycle, ?commit, ?notify, ?requeue⟩
  case consume =>
    intro s c q r qu addr hc hq hactive hen hne hroom hr
    have hwork : NodeWork (headMoved s c q) (s.consumeRec c q r) := consumeRec_work r
    refine ⟨_, exec_nodeConsume hc hq hactive hen hne hroom hr, ?_, hwork.groups, hwork.teams, fun h => ?_, fun h => ?_⟩
    · rw [hwork.queue, headMoved_queue hen]
    · obtain ⟨st, hmem, hst⟩ := consumeRec_mem (q := q) h
      exact ⟨_, hmem, rfl, rfl, rfl, rfl, rfl, hst⟩
    · exact ⟨consumeRec_refused_plain h, fun p hw hp => read_consumeRec_refused h hw hp⟩
  case wake => exact fun s n hstate => ⟨wakeNode_ready hstate, wakeNode_waits⟩
  case retire =>
    intro s k tm hk hmay herr
    refine ⟨teamRetired s k, exec_teamRetire hk hmay herr,
      fun h => settle_same _ (noneWait_filter h (teamRetired_groups s k)), teamRetired_team? s k, fun x hx => ?_, fun n hn => ?_⟩
    · rw [teamRetired_groups] at hx
      simpa using (List.mem_filter.1 hx).2
    · obtain ⟨m, hs, hm⟩ := teamRetired_node? hn
      refine ⟨_, hm, ?_⟩
      rcases hs with rfl | ⟨hn, hm, hp⟩
      · exact ⟨rfl, .inl rfl⟩
      · have hretired : m.retired = n.retired := by have := congrArg Node.retired hp; exact this
        exact ⟨congrArg (· + 1) hretired, .inr ⟨hn, hm⟩⟩
  case erring => exact fun s k tm _ herr => exec_teamRetire_erring herr
  case cycle =>
    exact fun s c ref n h => ⟨fun herrors => endCycle_committing herrors h, fun r herrors hc href hactive =>
      endCycle_rolledBack herrors hc href hactive h⟩
  case commit =>
    intro s c ref n h hstate hactive hbasket herr s1 s2
    have hwork : NodeWork s s2 := markedDone_work.trans (foldl_notify_work ..)
    refine ⟨?_, hwork.groups, hwork.teams, ⟨_, markedDone_node? h hstate, rfl, rfl, rfl⟩, fun p => read_markedDone h hstate⟩
    rw [exec_nodeCommit h hstate hactive hbasket herr, commitNode_eq h]
    rfl
  case notify =>
    intro s c w addr arrived s1 found
    refine ⟨fun p hw hp => read_devStore hw hp arrived, fun h => ?_, fun m h => ?_⟩
    all_goals
      unfold State.notify
      dsimp only
      rw [show List.find? _ s1.nodes = _ from h]
  case requeue =>
    exact fun s c ref n h hstate => ⟨exec_rollbackRequeue h hstate, _, requeued_node? h, rfl, rfl, rfl, rfl, requeued_work.groups,
      requeued_work.teams⟩

end Sys2Proof.Proofs

namespace Sys2Proof.Proofs

open Sys2Proof.Machine Sys2Proof.Safety Sys2Proof.Laws
open Host (Cell)

/-! # Teams and cores (spec/06_scheduler.md R96 to R105)

## Control threads (R126) -/

section ControlThreads

variable {s t u : State} {k : TKey} {pc : Word}

/-- A group of which no thread waits. -/
def Unblocked (x : Group) : Prop := ∀ th ∈ x.threads, th.isBlocked = false

/-- A control thread starts or waits: a group may come, and of a team its control thread alone changes. -/
structure ControlMoves (s t : State) : Prop where
  frame : ∃ teams groups, t = { s with teams := teams, groups := groups }
  groups : ∃ new, t.groups = s.groups ++ new ∧ ∀ x ∈ new, Unblocked x
  teams : ∀ tm ∈ s.teams, ∃ waits runs, { tm with controlWaits := waits, control := runs } ∈ t.teams

theorem ControlMoves.refl (s : State) : ControlMoves s s :=
  ⟨⟨s.teams, s.groups, rfl⟩, ⟨[], (List.append_nil _).symm, fun _ h => by cases h⟩, fun tm h => ⟨tm.controlWaits, tm.control, h⟩⟩

theorem ControlMoves.trans (h : ControlMoves s t) (h' : ControlMoves t u) : ControlMoves s u := by
  obtain ⟨teams, groups, ht⟩ := h.frame
  obtain ⟨teams', groups', hu⟩ := h'.frame
  obtain ⟨new, hnew, hfree⟩ := h.groups
  obtain ⟨new', hnew', hfree'⟩ := h'.groups
  refine ⟨⟨teams', groups', by rw [hu, ht]⟩, ⟨new ++ new', by rw [hnew', hnew, List.append_assoc], fun x hx => ?_⟩, fun tm htm => ?_⟩
  · exact (List.mem_append.1 hx).elim (hfree x) (hfree' x)
  · obtain ⟨waits, runs, hmem⟩ := h.teams tm htm
    obtain ⟨waits', runs', hmem'⟩ := h'.teams _ hmem
    exact ⟨waits', runs', hmem'⟩

theorem modTeam_moves (s : State) (k : TKey) (waits : Option Word) :
    ControlMoves s (s.modTeam k fun t => { t with controlWaits := waits, control := true }) := by
  refine ⟨⟨_, s.groups, rfl⟩, ⟨[], (List.append_nil _).symm, fun _ h => by cases h⟩, fun tm htm => ?_⟩
  have hmem := List.mem_map_of_mem (f := fun t : Team => if t.key == k then { t with controlWaits := waits, control := true } else t) htm
  split at hmem
  · exact ⟨_, _, hmem⟩
  · exact ⟨tm.controlWaits, tm.control, hmem⟩

/-- R126. The group of a control thread that starts. -/
def controlGroup (s : State) (k : TKey) (core : Nat) (pc : Word) : Group :=
  { key := ⟨k.ctx, k.node, k.team, 0, .control⟩, w := 1, core := core, budget := 60, lastIssue := s.cycle
    threads := [{ pc := pc, issued := s.cycle }] }

/-- The team's control thread no longer waits. -/
def controlRuns (s : State) (k : TKey) : State := s.modTeam k fun t => { t with controlWaits := none, control := true }

/-- A restored control thread goes on where it stood. -/
theorem startControl_again (core : Nat) (h : ∃ x ∈ s.groups, x.key = ⟨k.ctx, k.node, k.team, 0, .control⟩) :
    s.startControl k core pc = controlRuns s k :=
  if_pos (by simpa using h)

theorem startControl_new (core : Nat) (h : ∀ x ∈ s.groups, x.key ≠ ⟨k.ctx, k.node, k.team, 0, .control⟩) :
    s.startControl k core pc = { controlRuns s k with groups := s.groups ++ [controlGroup s k core pc] } :=
  if_neg (by simpa using h)

theorem startControl_moves (s : State) (k : TKey) (core : Nat) (pc : Word) : ControlMoves s (s.startControl k core pc) := by
  have hruns : ControlMoves s (controlRuns s k) := modTeam_moves s k none
  by_cases h : ∃ x ∈ s.groups, x.key = ⟨k.ctx, k.node, k.team, 0, .control⟩
  · rw [startControl_again core h]
    exact hruns
  · rw [startControl_new core fun x hx hk => h ⟨x, hx, hk⟩]
    refine ⟨⟨_, _, rfl⟩, ⟨_, rfl, fun x hx => ?_⟩, hruns.teams⟩
    rw [List.mem_singleton.1 hx]
    exact fun th hth => by rw [List.mem_singleton.1 hth]; rfl

theorem controlOf_moves (s : State) (k : TKey) (pc : Word) : ControlMoves s (s.controlOf k pc) := by
  refine (modTeam_moves s k (some pc)).trans ?_
  unfold State.controlOf
  dsimp only
  split
  · split
    · exact startControl_moves ..
    · exact .refl _
  · exact .refl _

theorem exec_controlThreadStart {tm : Team} (hk : s.team? k = some tm) (hwaits : tm.controlWaits = some pc) (hsaved : tm.saved = false)
    (hroom : s.controlRoom tm = true) : exec (.controlThreadStart k) s = .next (s.startControl k (tm.cores.headD 0) pc) := by
  show execControlThreadStart k s = _
  simp [execControlThreadStart, hk, hwaits, hsaved, hroom, event]

end ControlThreads

/-! ## Dispatch of a new team (R96, R97, R102) -/

section Dispatch

variable {s t : State} {part c q : Nat} {n : Node} {ask : TeamAsk} {cores : List Nat} {places : List (Nat × Occ)}

/-- R94, Table 6.5. A node that starts an attempt: it is RUNNING, and its ranges are registered. -/
def started (s : State) (n : Node) : State :=
  (s.modNode n.ctx n.ref fun x => { x with registered := x.rec'.det, sealCause := 0 }).setNodeState n.ctx n.ref .running

theorem started_frame (s : State) (n : Node) : ∃ nodes mem, started s n = { s with nodes := nodes, mem := mem } := by
  obtain ⟨nodes, mem, h⟩ := (putStatus_device _ n.ctx n.ref).frame
  exact ⟨nodes, mem, h⟩

/-- R94. A first dispatch changes nodes and their STATUS in memory. -/
theorem firstDispatch_frame (s : State) (n : Node) : ∃ nodes mem, s.firstDispatch n = { s with nodes := nodes, mem := mem } := by
  obtain ⟨nodes, mem, h⟩ := started_frame s n
  unfold State.firstDispatch
  split
  · dsimp only
    split
    · exact ⟨nodes, mem, h⟩
    · obtain ⟨nodes', mem', h'⟩ := (sealNow_seals (started s n) n.ctx n.ref 7).frame
      exact ⟨nodes', mem', h'.trans (by rw [h])⟩
  · exact ⟨s.nodes, s.mem, rfl⟩

/-- R102. A new team at its place: its entry among the teams, and its groups at the node's entry, with its control thread, if any. -/
structure Placed (s t : State) (n : Node) (i : Nat) (cores : List Nat) (places : List (Nat × Occ)) : Prop where
  parts : t.parts = s.parts
  ctxs : t.ctxs = s.ctxs
  team : ∃ tm ∈ t.teams, tm.key = ⟨n.ctx, n.ref, i⟩ ∧ tm.cores = cores ∧ tm.saved = false ∧ tm.scratch = [] ∧
    tm.owners = List.replicate n.rec'.scratch .threads
  groups : ∃ new, t.groups = s.groups ++ places.map (newGroup n i s.cycle) ++ new ∧ ∀ x ∈ new, Unblocked x

/-- R102. The entry of a new team. -/
def newTeam (s : State) (n : Node) (i : Nat) (cores : List Nat) : Team :=
  { key := ⟨n.ctx, n.ref, i⟩, cores := cores, aperture := s.newAperture n.ctx, owners := List.replicate n.rec'.scratch .threads,
    placed := s.placements }

/-- R102. A team placed, before its control thread. -/
def teamPlaced (s : State) (n : Node) (i : Nat) (cores : List Nat) (places : List (Nat × Occ)) : State :=
  ({ s with teams := s.teams ++ [newTeam s n i cores], groups := s.groups ++ places.map (newGroup n i s.cycle),
            placements := s.placements + 1 } : State).modNode n.ctx n.ref fun x =>
    { x with nextTeam := x.nextTeam + 1, early := x.early.filter fun w => w.1.toNat / 4096 != i }

theorem placeNew_moves (s : State) (n : Node) (i : Nat) (cores : List Nat) (places : List (Nat × Occ)) :
    ControlMoves (teamPlaced s n i cores places) (s.placeNew n i cores places) := by
  unfold State.placeNew
  dsimp only
  split
  · exact controlOf_moves ..
  · exact .refl _

theorem placeNew_placed (s : State) (n : Node) (i : Nat) (cores : List Nat) (places : List (Nat × Occ)) :
    Placed s (s.placeNew n i cores places) n i cores places := by
  have hmoves := placeNew_moves s n i cores places
  obtain ⟨teams, groups, hframe⟩ := hmoves.frame
  obtain ⟨waits, runs, hmem⟩ := hmoves.teams (newTeam s n i cores) (List.mem_append_right _ (List.mem_singleton.2 rfl))
  exact ⟨by rw [hframe]; rfl, by rw [hframe]; rfl, ⟨_, hmem, rfl, rfl, rfl, rfl, rfl⟩, hmoves.groups⟩

theorem newGroup_threads {p : Nat × Occ} {i cycle : Nat} : (newGroup n i cycle p).threads.length = p.2.w ∧
    ∀ th ∈ (newGroup n i cycle p).threads, th.pc = n.rec'.entry ∧ th.state = .ready := by
  refine ⟨by simp [newGroup], fun th hth => ?_⟩
  obtain ⟨j, -, rfl⟩ := List.mem_map.1 hth
  exact ⟨rfl, rfl⟩

theorem Placed.noneWait {i : Nat} (h : Placed s t n i cores places) (hs : NoneWait s) : NoneWait t := by
  obtain ⟨new, hgroups, hnew⟩ := h.groups
  intro x hx
  rw [hgroups, List.mem_append, List.mem_append] at hx
  rcases hx with (hx | hx) | hx
  · exact hs x hx
  · obtain ⟨p, -, rfl⟩ := List.mem_map.1 hx
    exact fun th hth => by rw [Thread.isBlocked, (newGroup_threads.2 th hth).2]
  · exact hnew x hx

theorem Placed.group {i : Nat} (h : Placed s t n i cores places) {p : Nat × Occ} (hp : p ∈ places) : newGroup n i s.cycle p ∈ t.groups := by
  obtain ⟨new, hgroups, -⟩ := h.groups
  rw [hgroups]
  exact List.mem_append_left _ (List.mem_append_right _ (List.mem_map_of_mem hp))

theorem Placed.part_eq {i : Nat} (h : Placed s t n i cores places) (p : Nat) : t.part p = s.part p := congrArg (fun l => l.getD p {}) h.parts

theorem Placed.ctx_eq {i : Nat} (h : Placed s t n i cores places) (j : Nat) : t.ctx j = s.ctx j := congrArg (fun l => l.getD j {}) h.ctxs

/-- R97, R99. A partition's queues at an opportunity at which one queue contends and its team fits. -/
def tuned (s : State) (part c q : Nat) : State :=
  let tune := fun (i : Nat) (x : Context) =>
    if x.state == .active && x.part == part then
      { x with queues := x.queues.mapIdx fun j y => y.settle (s.part part).pass (c == i && q == j) }
    else x
  { s.modPart part fun p => { p with oppAt := s.cycle, reservations := [], skipped := none } with ctxs := s.ctxs.mapIdx tune }

theorem opportunity_single (hl : s.contenders part = [(c, q, n, ask)]) (hres : (s.part part).reservations = [])
    (hfind : s.findTeam ask [] = some (cores, places)) :
    s.opportunity part = ((tuned s part c q).dispatch part (c, q, n, ask) cores places).settle := by
  have hr : s.reserved part [(c, q, n, ask)] = [] := by rw [State.reserved, hres]; rfl
  unfold State.opportunity
  simp only [hl, hr, barFor, hfind, List.filterMap_cons, List.filterMap_nil, List.filter_nil, List.map_nil, List.map_cons, Option.map_some,
    State.leastPass, leastBy?, skippedNow]
  simp [tuned]

/-- R96, R97, R99. The charge of a queue that dispatches a team; G is its pass. -/
def charged (s : State) (part c q : Nat) (n : Node) (ask : TeamAsk) : State :=
  let qu := (s.ctx c).queue q
  (s.modPart part fun p => { p with pass := qu.pass, reservations := p.reservations.filter fun r => !r.isFor (c, q, n, ask) }).modCtx c
    fun x => x.modQueue q fun y => { y with pass := y.pass + BitVec.ofNat 64 (2 ^ 20 / (qu.tickets.toNat + 1) * ask.cores) }

theorem dispatch_new (hnew : s.team? ⟨c, n.ref, ask.team⟩ = none) : ∃ nodes mem, s.dispatch part (c, q, n, ask) cores places =
    ({ charged s part c q n ask with nodes := nodes, mem := mem } : State).placeNew n ask.team cores places := by
  obtain ⟨nodes, mem, h⟩ := firstDispatch_frame (charged s part c q n ask) n
  refine ⟨nodes, mem, ?_⟩
  have hnone : ((charged s part c q n ask).firstDispatch n).team? ⟨c, n.ref, ask.team⟩ = none := by
    rw [h]
    exact hnew
  show (match ((charged s part c q n ask).firstDispatch n).team? ⟨c, n.ref, ask.team⟩ with
    | some t => ((charged s part c q n ask).firstDispatch n).placeOld n t cores places
    | none => ((charged s part c q n ask).firstDispatch n).placeNew n ask.team cores places) = _
  rw [hnone, h]

theorem dispatch_placed (hnew : s.team? ⟨c, n.ref, ask.team⟩ = none) :
    Placed (charged s part c q n ask) (s.dispatch part (c, q, n, ask) cores places) n ask.team cores places := by
  obtain ⟨nodes, mem, h⟩ := dispatch_new (part := part) (q := q) (cores := cores) (places := places) hnew
  obtain ⟨hparts, hctxs, hteam, hgroups⟩ := placeNew_placed { charged s part c q n ask with nodes := nodes, mem := mem } n ask.team cores places
  rw [h]
  exact ⟨hparts, hctxs, hteam, hgroups⟩

/-- A partition that is not FREE is one of those of the device. -/
theorem lt_of_part_active (h : (s.part part).state = .active) : part < s.parts.length := by
  by_contra hn
  rw [State.part, List.getD_eq_default _ _ (by omega)] at h
  cases h

theorem tuned_part (h : part < s.parts.length) :
    (tuned s part c q).part part = { s.part part with oppAt := s.cycle, reservations := [], skipped := none } :=
  (modPart_part ..).trans (if_pos ⟨rfl, h⟩)

/-- R97. The queue that is eligible, and stays so, keeps its pass. -/
theorem tuned_queue (hq : ((s.ctx c).queue q).eligible = true) (hen : ((s.ctx c).queue q).en = true) :
    ((tuned s part c q).ctx c).queue q = (s.ctx c).queue q := by
  obtain ⟨hclt, hqlt⟩ := lt_of_en hen
  have hsettle : ((s.ctx c).queue q).settle (s.part part).pass true = (s.ctx c).queue q := by simp [Queue.settle, hq]
  have hctx : (tuned s part c q).ctx c = if (s.ctx c).state == .active && (s.ctx c).part == part then
      { s.ctx c with queues := (s.ctx c).queues.mapIdx fun j y => y.settle (s.part part).pass (c == c && q == j) } else s.ctx c := by
    simp only [State.ctx, tuned, List.getD_eq_getElem?_getD, List.getElem?_mapIdx, List.getElem?_eq_getElem hclt]
    rfl
  rw [hctx]
  split
  · simp only [Context.queue, List.getD_eq_getElem?_getD, List.getElem?_mapIdx, List.getElem?_eq_getElem hqlt, Option.map_some,
      Option.getD_some, beq_self_eq_true, Bool.and_self] at hsettle ⊢
    exact hsettle
  · rfl

theorem lt_of_part_tuned (h : part < s.parts.length) : part < (tuned s part c q).parts.length := by simpa [tuned] using h

theorem exec_dispatchOpportunity (hpart : part < 16) (hactive : (s.part part).state = .active)
    (hopp : (s.part part).oppAt + 32 ≤ s.cycle) : exec (.dispatchOpportunity part) s = .next (s.opportunity part) :=
  congrArg event (if_pos (by simp [hpart, hactive, hopp]))

theorem charged_part (h : part < s.parts.length) : (charged s part c q n ask).part part =
    { s.part part with pass := ((s.ctx c).queue q).pass, reservations := (s.part part).reservations.filter fun r => !r.isFor (c, q, n, ask) } :=
  (modPart_part ..).trans (if_pos ⟨rfl, h⟩)

theorem charged_queue (hen : ((s.ctx c).queue q).en = true) : (((charged s part c q n ask).ctx c).queue q).pass =
    ((s.ctx c).queue q).pass + BitVec.ofNat 64 (2 ^ 20 / (((s.ctx c).queue q).tickets.toNat + 1) * ask.cores) := by
  obtain ⟨hclt, hqlt⟩ := lt_of_en hen
  refine congrArg Queue.pass (queue_modQueue (s := s.modPart part _) (fun y => { y with pass := y.pass + _ }) hclt hqlt)

end Dispatch

/-! ## Reservations (R99) -/

theorem exec_clusterReserve {s : State} {part c q since cl : Nat} {n : Node} {ask : TeamAsk} (hpart : part < 16)
    (hactive : (s.part part).state = .active) (hskipped : (s.part part).skipped = some (c, q, since)) (hlong : since + 14000 ≤ s.cycle)
    (hleast : s.leastPass (s.part part).pass (s.contenders part) = some (c, q, n, ask))
    (hnone : ∀ x ∈ s.reserved part (s.contenders part), x.isFor (c, q, n, ask) = false)
    (hfind : s.findTeam ask (barFor (s.reserved part (s.contenders part)) (c, q, n, ask)) = none)
    (hcluster : s.emptyCluster ask = some cl) : exec (.clusterReserve part) s = .next (s.modPart part fun p =>
      { p with reservations := s.reserved part (s.contenders part) ++ [⟨c, q, ask.node, ask.team, cl⟩] }) := by
  show execClusterReserve part s = _
  have hnot : ((s.reserved part (s.contenders part)).any fun r => r.isFor (c, q, n, ask)) = false := by simpa using hnone
  simp [execClusterReserve, hskipped, hleast, hpart, hactive, hlong, hnot, hfind, hcluster, event]

/-! ## Reclaim and return of cores (R103, R104) -/

section Reclaim

variable {s : State} {c k d : Nat}

/-- R103. The state in which a context has lost some cores. -/
def vacating (s : State) (c k : Nat) : State :=
  let sorted := sortBy id (s.ctx c).cores
  s.modCtx c fun x => { x with cores := sorted.take (sorted.length - k), vacated := sortBy id (x.vacated ++ sorted.drop (sorted.length - k)) }

/-- R103. The cores that a context loses. -/
def goneCores (s : State) (c k : Nat) : List Nat := (sortBy id (s.ctx c).cores).drop ((sortBy id (s.ctx c).cores).length - k)

/-- R103, R104 step 1. The cores are vacated, and the groups on them are asked to yield within d cycles. -/
def reclaimed (s : State) (c k d : Nat) : State := (vacating s c k).askYield (s.takenBy c (goneCores s c k)) (s.cycle + d)

theorem exec_coreReclaimRequest (hc : c < 64) (hactive : (s.ctx c).state = .active) (hk : k ≤ (s.ctx c).cores.length)
    (hmin : 700 ≤ if d = 0 then 14000 else d) (hmax : (if d = 0 then 14000 else d) ≤ 2 ^ 24) :
    exec (.coreReclaimRequest c k d true) s = .next (reclaimed s c k (if d = 0 then 14000 else d)) :=
  congrArg event (if_pos (by simpa [hc, hactive, hk, hmin] using hmax))

theorem reclaimed_ctx (hactive : (s.ctx c).state = .active) : (reclaimed s c k d).ctx c =
    { s.ctx c with cores := (sortBy id (s.ctx c).cores).take ((sortBy id (s.ctx c).cores).length - k)
                   vacated := sortBy id ((s.ctx c).vacated ++ goneCores s c k) } :=
  (modCtx_ctx ..).trans (if_pos ⟨rfl, lt_of_active hactive⟩)

/-- R103. A request for cores changes contexts, teams and groups alone. -/
theorem reclaimed_frame : { reclaimed s c k d with ctxs := s.ctxs, teams := s.teams, groups := s.groups } = s := rfl

theorem exec_coreReclaimRequest_many (hk : (s.ctx c).cores.length < k) : exec (.coreReclaimRequest c k d true) s = .next s :=
  congrArg event (if_neg (by simp; omega))

theorem exec_coreReturn {cores : List Nat} (hc : c < 64) (hactive : (s.ctx c).state = .active) (hvacated : ∀ i ∈ cores, i ∈ (s.ctx c).vacated) :
    exec (.coreReturn c cores true) s = .next (s.modCtx c fun x =>
      { x with cores := sortBy id (x.cores ++ cores.eraseDups), vacated := x.vacated.filter fun i => !cores.contains i }) :=
  congrArg event (if_pos (by simpa [hc, hactive] using hvacated))

theorem mem_takenBy {cores : List Nat} {tm : Team} (htm : tm ∈ s.teams) (hc : tm.key.ctx = c) (hsaved : tm.saved = false)
    (hon : ∃ i ∈ tm.cores, i ∈ cores) : tm.key ∈ s.takenBy c cores :=
  List.mem_map_of_mem (List.mem_filter.2 ⟨htm, by simpa [hc, hsaved] using hon⟩)

variable {keys : List TKey} {tm : Team}

theorem askYield_team (htm : tm ∈ s.teams) (hkey : tm.key ∈ keys) :
    { tm with evicting := some (min d (tm.evicting.getD d)) } ∈ (s.askYield keys d).teams :=
  List.mem_map.2 ⟨tm, htm, if_pos (by simpa using hkey)⟩

theorem askYield_group {x : Group} (hx : x ∈ (s.askYield keys d).groups) (hkey : gkeyTeam x.key ∈ keys) (hkind : x.key.kind ≠ .handler) :
    x.yieldReq = true := by
  obtain ⟨y, -, rfl⟩ := List.mem_map.1 hx
  by_cases hy : (keys.contains (gkeyTeam y.key) && y.key.kind != .handler) = true
  · rw [if_pos hy]
  · rw [if_neg hy] at hkey hkind
    exact absurd (by simp [hkey, hkind]) hy

end Reclaim

/-! ## The yield deadline (R104, R191) -/

section Deadline

variable {s : State} {c : Nat} {keys : List TKey} {tm : Team} {x : Group}

theorem mem_dueTeams (htm : tm ∈ s.teams) (hc : tm.key.ctx = c) (hsaved : tm.saved = false) (hlate : tm.late = false)
    (hdue : ∃ d, tm.evicting = some d ∧ d ≤ s.cycle) : tm.key ∈ s.dueTeams c := by
  obtain ⟨d, hd, hle⟩ := hdue
  exact List.mem_map_of_mem (List.mem_filter.2 ⟨htm, by simp [hc, hsaved, hlate, hd, hle]⟩)

theorem forceStop_team (htm : tm ∈ s.teams) (hkey : tm.key ∈ keys) : { tm with late := true } ∈ (s.forceStop keys).teams :=
  List.mem_map.2 ⟨tm, htm, if_pos (by simpa using hkey)⟩

/-- R191. Of teams whose handlers are cut off no handler runs. -/
theorem cutHandlers_kind (hx : x ∈ (s.cutHandlers keys).groups) (hkey : gkeyTeam x.key ∈ keys) : x.key.kind ≠ .handler := by
  have hnot := (List.mem_filter.1 hx).2
  intro hkind
  simp [hkind, hkey] at hnot

/-- R104. A group that is stopped by force was a group, is stopped or has exited, and keeps its name. -/
theorem forceStop_group (hx : x ∈ (s.forceStop keys).groups) (hkey : gkeyTeam x.key ∈ keys) :
    (∃ y ∈ s.groups, y.key = x.key) ∧ (x.stop = true ∨ x.allExited = true) := by
  obtain ⟨y, hy, rfl⟩ := List.mem_map.1 hx
  by_cases hforce : (keys.contains (gkeyTeam y.key) && !y.stop && !y.allExited) = true
  · rw [if_pos hforce]
    exact ⟨⟨y, hy, rfl⟩, .inl rfl⟩
  · rw [if_neg hforce] at hkey ⊢
    refine ⟨⟨y, hy, rfl⟩, ?_⟩
    simpa [hkey, or_iff_not_imp_left] using hforce

end Deadline

/-! ## The save of a team (R104, R285) -/

section Save

variable {s : State} {k k' : TKey} {tm : Team} {n : Node}

theorem modTeam_team? (f : Team → Team) (hf : ∀ t, (f t).key = t.key) :
    (s.modTeam k f).team? k' = (s.team? k').map fun t => if t.key == k then f t else t := by
  have hkeep : ∀ t : Team, ((if t.key == k then f t else t).key == k') = (t.key == k') := fun t => by
    split
    · rw [hf t]
    · rfl
  rw [State.team?, State.modTeam, List.find?_map]
  simp only [Function.comp_def, hkeep]
  rfl

/-- Mailboxes that are handed on leave a saved team saved. -/
theorem bequeath_saved (c : Nat) (is : List Nat) (h : ∃ tm, s.team? k = some tm ∧ tm.saved = true) :
    ∃ tm, (s.bequeath c is).team? k = some tm ∧ tm.saved = true := by
  induction is generalizing s with
  | nil => exact h
  | cons i is ih =>
    refine ih ?_
    split
    · exact h
    · split
      next r _ =>
        obtain ⟨tm, htm, hsaved⟩ := h
        refine ⟨if tm.key == r.1 then { tm with mailboxes := tm.mailboxes ++ [r.2] } else tm, ?_, ?_⟩
        · rw [modTeam_team? (fun t => { t with mailboxes := t.mailboxes ++ [r.2] }) fun _ => rfl, htm]
          rfl
        · split <;> exact hsaved
      next => exact h

theorem setReg_state (th : Thread) (r : Nat) (v : Word) : (th.setReg r v).state = th.state := by
  unfold Thread.setReg
  split <;> rfl

theorem setPend_state (th : Thread) (r : Nat) (b : Bool) : (th.setPend r b).state = th.state := by
  unfold Thread.setPend
  split <;> rfl

theorem land_state (th : Thread) (v : Nat × Word) : (th.land v).state = th.state := by
  unfold Thread.land Thread.writeLate
  split
  · split
    · exact (setPend_state ..).trans ((setReg_state ..).trans (setReg_state ..))
    · exact setReg_state ..
  · rfl

theorem foldl_land_state (vs : List (Nat × Word)) (th : Thread) : (vs.foldl Thread.land th).state = th.state := by
  induction vs generalizing th with
  | nil => rfl
  | cons v vs ih => exact (ih _).trans (land_state th v)

/-- R285. A saved thread has no store and no load outstanding. -/
theorem save_done (th : Thread) : th.save.stores = 0 ∧ ∀ r ∈ th.save.loads, r.arrived = true := by
  refine ⟨rfl, fun r hr => ?_⟩
  obtain ⟨y, -, rfl⟩ := List.mem_map.1 hr
  rfl

theorem save_isBlocked {th : Thread} (h : th.isBlocked = false) : th.save.isBlocked = false := by
  have hstate : (if th.isExited then th else
      ((th.loads.filter fun r => !r.arrived).map LoadRec.vals).flatten.foldl Thread.land th).state = th.state := by
    split
    · rfl
    · exact foldl_land_state ..
  unfold Thread.save Thread.isBlocked at *
  dsimp only
  rw [hstate]
  cases hth : th.state with
  | blocked w => simp [hth] at h
  | ready => rfl
  | exited => rfl

/-- R104 step 5. The groups of a team that is saved. -/
def saveGroup (k : TKey) (g : Group) : Group := if gkeyTeam g.key == k then g.save else g

theorem saveGroup_noneWait {t : State} (h : NoneWait s) (ht : t.groups = s.groups.map (saveGroup k)) : NoneWait t := by
  intro x hx th hth
  rw [ht] at hx
  obtain ⟨y, hy, rfl⟩ := List.mem_map.1 hx
  unfold saveGroup at hth
  split at hth
  · obtain ⟨u, hu, rfl⟩ := List.mem_map.1 hth
    exact save_isBlocked (h y hy u hu)
  · exact h y hy th hth

theorem saveGroup_done {g : Group} (hk : gkeyTeam (saveGroup k g).key = k) :
    ∀ th ∈ (saveGroup k g).threads, th.stores = 0 ∧ ∀ r ∈ th.loads, r.arrived = true := by
  unfold saveGroup at *
  split at hk
  next h =>
    rw [if_pos h]
    intro th hth
    obtain ⟨u, -, rfl⟩ := List.mem_map.1 hth
    exact save_done u
  next h => exact absurd (beq_iff_eq.2 hk) h

/-- R104 step 5. The save before mailboxes are handed on: the team, its groups and the queues of the cores. -/
def teamSaved (s : State) (tm : Team) : State :=
  let cmds := ((s.cores.map fun x => x.queue.filter fun q => q.team == tm.key)).flatten
  let s1 := s.modTeam tm.key fun x =>
    { x with saved := true, commands := sortBy Cmd.id cmds, windows := x.windows.map fun w => { w with lines := [] } }
  { s1 with groups := s1.groups.map (saveGroup tm.key),
            cores := s1.cores.map fun x => { x with queue := x.queue.filter fun q => q.team != tm.key } }

theorem team?_key (h : s.team? k = some tm) : tm.key = k := by
  have hkey := List.find?_some h
  exact beq_iff_eq.1 hkey

theorem teamSaved_saved (h : s.team? k = some tm) : ∃ tm', (teamSaved s tm).team? k = some tm' ∧ tm'.saved = true := by
  obtain rfl := team?_key h
  have hteam : (teamSaved s tm).team? tm.key = _ := modTeam_team? (s := s) (k := tm.key) (k' := tm.key) (fun x => { x with
    saved := true, commands := sortBy Cmd.id ((s.cores.map fun x => x.queue.filter fun q => q.team == tm.key)).flatten
    windows := x.windows.map fun w => { w with lines := [] } }) fun _ => rfl
  rw [h, Option.map_some, if_pos (beq_self_eq_true _)] at hteam
  exact ⟨_, hteam, rfl⟩

theorem leaveCore_queue (s : State) (c i : Nat) (x : Core) : (leaveCore s c i x).queue = x.queue := by
  unfold leaveCore
  split <;> rfl

theorem bequeath_frame (c : Nat) (is : List Nat) (s : State) : ∃ teams, s.bequeath c is = { s with teams := teams } := by
  induction is generalizing s with
  | nil => exact ⟨s.teams, rfl⟩
  | cons i is ih =>
    have hone : ∃ teams, (if s.occupied c i then s else match s.heir c i with
        | some h => s.modTeam h.1 fun t => { t with mailboxes := t.mailboxes ++ [h.2] }
        | none => s) = { s with teams := teams } := by
      split
      · exact ⟨s.teams, rfl⟩
      · split
        · exact ⟨_, rfl⟩
        · exact ⟨s.teams, rfl⟩
    obtain ⟨teams, hone⟩ := hone
    obtain ⟨teams', h⟩ := ih { s with teams := teams }
    refine ⟨teams', Eq.trans ?_ h⟩
    rw [← hone]
    rfl

/-- R104 step 5. Once mailboxes are handed on, the node lists the team, and cores that are left lose their banks and mailboxes. -/
theorem saveTeam_eq (s : State) (tm : Team) : ∃ f : Nat → Core → Core, (∀ i x, (f i x).queue = x.queue) ∧
    s.saveTeam tm = mapCores (((teamSaved s tm).bequeath tm.key.ctx tm.cores).modNode tm.key.ctx tm.key.node
      fun n => { n with evicted := n.evicted ++ [tm.key.team] }) f := by
  refine ⟨_, fun i x => ?_, rfl⟩
  refine (leaveCore_queue ..).trans ?_
  split <;> rfl

theorem exec_teamEvictSave (h : s.team? k = some tm) (hmay : s.maySave tm = true) :
    exec (.teamEvictSave k) s = .next (s.saveTeam tm).settle := by
  show execTeamEvictSave k s = _
  simp [execTeamEvictSave, h, hmay, event]

section Saved

variable (s : State) (tm : Team)

theorem saveTeam_groups : (s.saveTeam tm).groups = s.groups.map (saveGroup tm.key) := by
  obtain ⟨f, -, heq⟩ := saveTeam_eq s tm
  obtain ⟨teams, hframe⟩ := bequeath_frame tm.key.ctx tm.cores (teamSaved s tm)
  rw [heq, hframe]
  rfl

theorem saveTeam_mem : (s.saveTeam tm).mem = s.mem := by
  obtain ⟨f, -, heq⟩ := saveTeam_eq s tm
  obtain ⟨teams, hframe⟩ := bequeath_frame tm.key.ctx tm.cores (teamSaved s tm)
  rw [heq, hframe]
  rfl

/-- No command of a saved team is left in a core's queue. -/
theorem saveTeam_queue : ∀ x ∈ (s.saveTeam tm).cores, ∀ q ∈ x.queue, q.team ≠ tm.key := by
  obtain ⟨f, hf, heq⟩ := saveTeam_eq s tm
  obtain ⟨teams, hframe⟩ := bequeath_frame tm.key.ctx tm.cores (teamSaved s tm)
  rw [heq, hframe]
  intro x hx q hq
  obtain ⟨i, hi, rfl⟩ := List.mem_mapIdx.1 hx
  obtain ⟨y, -, hy⟩ := List.mem_map.1 (List.getElem_mem hi)
  rw [hf, ← hy] at hq
  simpa using (List.mem_filter.1 hq).2

end Saved

theorem saveTeam_saved (h : s.team? k = some tm) : ∃ tm', (s.saveTeam tm).team? k = some tm' ∧ tm'.saved = true := by
  obtain ⟨f, -, heq⟩ := saveTeam_eq s tm
  rw [heq]
  exact bequeath_saved _ tm.cores (teamSaved_saved h)

/-- R104 step 5. The node lists the saved team as evicted. -/
theorem saveTeam_node? (h : s.node? tm.key.ctx tm.key.node = some n) :
    (s.saveTeam tm).node? tm.key.ctx tm.key.node = some { n with evicted := n.evicted ++ [tm.key.team] } := by
  obtain ⟨f, -, heq⟩ := saveTeam_eq s tm
  obtain ⟨teams, hframe⟩ := bequeath_frame tm.key.ctx tm.cores (teamSaved s tm)
  rw [heq, hframe]
  exact modNode_node?_self (s := { teamSaved s tm with teams := teams }) (fun n => { n with evicted := n.evicted ++ [tm.key.team] })
    (fun _ => ⟨rfl, rfl⟩) h

end Save

/-- Settles O56: each event in closed form; a dispatch by what the placement of a new team adds to the state that its charge leaves. -/
theorem teamsMove : Obligations.TeamsMove := by
  unfold Obligations.TeamsMove
  refine ⟨?dispatch, ?reserve, ?control, ?reclaim, fun s c k d => exec_coreReclaimRequest_many,
    fun s c cores => exec_coreReturn, ?deadline, ?save⟩
  case dispatch =>
    intro s part c q n ask cores places hpart hactive hopp hl hres hfind hnone _ hctx hwait
    have hlt := lt_of_part_active hactive
    have hplaced := dispatch_placed (s := tuned s part c q) (part := part) (q := q) (cores := cores) (places := places) hnone
    obtain ⟨tm, htm, hkey, hteam⟩ := hplaced.team
    refine ⟨(tuned s part c q).dispatch part (c, q, n, ask) cores places, tm, ?_, ?_, htm, hctx ▸ hkey, hteam.1, hteam.2.1, hteam.2.2.1,
      hteam.2.2.2, fun p hp => ?_, fun helig hen _ _ => ?_⟩
    · rw [exec_dispatchOpportunity hpart hactive hopp, opportunity_single hl hres hfind, settle_same _ (hplaced.noneWait hwait)]
    · rw [hplaced.part_eq, charged_part (lt_of_part_tuned hlt), tuned_part hlt]
    · obtain ⟨hlen, hthreads⟩ := newGroup_threads (n := n) (p := p) (i := ask.team) (cycle := s.cycle)
      exact ⟨_, hplaced.group hp, hctx ▸ rfl, rfl, rfl, rfl, rfl, rfl, hlen, hthreads⟩
    · have hqueue := tuned_queue (part := part) helig hen
      rw [hplaced.part_eq, hplaced.ctx_eq, charged_part (lt_of_part_tuned hlt), charged_queue (by rw [hqueue]; exact hen), hqueue]
      exact ⟨rfl, rfl⟩
  case reserve =>
    exact fun s part c q since cl n ask hpart hactive hskipped hlong hleast hnone hfind hcluster =>
      exec_clusterReserve hpart hactive hskipped hlong hleast hnone hfind hcluster
  case control =>
    intro s k tm pc hk hwaits hsaved hroom key s1
    rw [exec_controlThreadStart hk hwaits hsaved hroom]
    exact ⟨fun h => congrArg _ (startControl_again _ h), fun h => congrArg _ (startControl_new _ h)⟩
  case reclaim =>
    intro s c k d d' sorted gone hc hactive hk hmin hmax
    have hcontext := reclaimed_ctx (k := k) (d := d') hactive
    refine ⟨reclaimed s c k d', exec_coreReclaimRequest hc hactive hk hmin hmax, by rw [hcontext], by rw [hcontext]; rfl, reclaimed_frame,
      fun tm htm hctx hsaved hon => ?_⟩
    have htaken : tm.key ∈ s.takenBy c (goneCores s c k) := mem_takenBy htm hctx hsaved hon
    exact ⟨askYield_team htm htaken, fun x hx hkey => askYield_group hx (hkey ▸ htaken)⟩
  case deadline =>
    intro s c
    refine ⟨(s.cutHandlers (s.dueTeams c)).forceStop (s.dueTeams c), rfl, rfl, rfl, rfl, fun tm htm hctx hsaved hlate hdue => ?_⟩
    have hkey := mem_dueTeams htm hctx hsaved hlate hdue
    refine ⟨forceStop_team htm hkey, fun x hx hx' => ?_⟩
    obtain ⟨⟨y, hy, hyx⟩, hstopped⟩ := forceStop_group hx (hx' ▸ hkey)
    exact ⟨hyx ▸ cutHandlers_kind hy (by rw [hyx, hx']; exact hkey), hstopped⟩
  case save =>
    intro s k tm hk hmay
    obtain rfl := team?_key hk
    refine ⟨s.saveTeam tm, exec_teamEvictSave hk hmay, fun h => settle_same _ (saveGroup_noneWait h (saveTeam_groups s tm)),
      saveTeam_saved hk, saveTeam_mem s tm, fun n hn => ⟨_, saveTeam_node? hn, rfl⟩, saveTeam_queue s tm, fun x hx hkey => ?_⟩
    rw [saveTeam_groups] at hx
    obtain ⟨g, -, rfl⟩ := List.mem_map.1 hx
    exact saveGroup_done hkey

end Sys2Proof.Proofs

namespace Sys2Proof.Proofs

open Sys2Proof.Machine Sys2Proof.Safety Sys2Proof.Laws
open Host (Cell)

/-! # The invariant of the model (spec/07_execution_model.md R111, R114)

`Inv` does not say which instruction a thread that waits for a word of qr is to retire. Where that is an event, the step that
retires it runs the event with an issue in progress, and no event ends an issue. -/

/-- The group of the counterexample. -/
def eventKey : GKey := ⟨0, 0, 0, 0, .lanes⟩

/-- A thread whose wait on qr names an event, and to which a word has come. -/
def eventWaiter : Thread := { state := .blocked (.qr .diePowerUp), queue := [(1, gkeyTeam eventKey)] }

/-- A booted machine that runs one group of two such threads: the second still waits when the first has retired, so that no
time passes after the step. -/
def eventWaiting : State :=
  { State.reset with
    boot := { status := .ready }
    teams := [{ key := gkeyTeam eventKey, cores := [0], aperture := 0 }]
    groups := [{ key := eventKey, w := 2, core := 0, budget := 8, threads := [eventWaiter, eventWaiter] }] }

theorem inv_eventWaiting : Inv eventWaiting := ⟨rfl, rfl⟩

theorem step_eventWaiting : ∃ s', step eventWaiting = .next s' ∧ s'.cur = some { g := 0, set := [0] } := ⟨_, rfl, rfl⟩

/-- Refutes O60: in `eventWaiting`, which meets the invariant, a thread that waits for qr retires an event; the issue that the
step began for it is still in progress in the next state. -/
theorem not_stepKeepsInvariant : ¬ Obligations.StepKeepsInvariant := by
  intro h
  obtain ⟨s', hstep, hcur⟩ := step_eventWaiting
  have hidle : s'.cur = none := (h eventWaiting s' inv_eventWaiting hstep).2
  rw [hcur] at hidle
  cases hidle

end Sys2Proof.Proofs

namespace Sys2Proof.Proofs

open Sys2Proof.Machine Sys2Proof.Safety Sys2Proof.Laws
open Host (Cell)

/-! # The members of an issue (spec/07_execution_model.md R113, R115, R116) -/

section Members

/-! ## Lists in ascending order of a key -/

theorem pairwise_insertBy {α : Type} (key : α → Nat) (x : α) {l : List α} (h : l.Pairwise fun a b => key a ≤ key b) :
    (insertBy key x l).Pairwise fun a b => key a ≤ key b := by
  induction l with
  | nil => exact List.pairwise_singleton _ _
  | cons y ys ih =>
    obtain ⟨hy, hys⟩ := List.pairwise_cons.1 h
    unfold insertBy
    split
    next hlt =>
      refine List.pairwise_cons.2 ⟨fun z hz => ?_, h⟩
      rcases List.mem_cons.1 hz with rfl | hz
      · exact hlt.le
      · exact hlt.le.trans (hy z hz)
    next hle =>
      refine List.pairwise_cons.2 ⟨fun z hz => ?_, ih hys⟩
      rcases mem_insertBy.1 hz with rfl | hz
      · exact not_lt.1 hle
      · exact hy z hz

theorem pairwise_sortBy {α : Type} (key : α → Nat) (l : List α) : (sortBy key l).Pairwise fun a b => key a ≤ key b := by
  have sorted : ∀ acc : List α, (acc.Pairwise fun a b => key a ≤ key b) →
      (l.foldl (fun acc x => insertBy key x acc) acc).Pairwise fun a b => key a ≤ key b := by
    induction l with
    | nil => exact fun _ h => h
    | cons x l ih => exact fun acc h => ih _ (pairwise_insertBy key x h)
  exact sorted [] .nil

/-- The first of a sorted list has the least key. -/
theorem sortBy_head_le {α : Type} {key : α → Nat} {l ps : List α} {p : α} (h : sortBy key l = p :: ps) : ∀ q ∈ l, key p ≤ key q := by
  intro q hq
  have hsorted := pairwise_sortBy key l
  have hmem : q ∈ sortBy key l := mem_sortBy.2 hq
  rw [h] at hsorted hmem
  rcases List.mem_cons.1 hmem with rfl | hmem
  · exact le_rfl
  · exact (List.pairwise_cons.1 hsorted).1 q hmem

/-! ## Groups that can issue (R113) -/

theorem mem_issuable {s : State} {core half : Nat} {held : List Nat} {p : Group × Nat} :
    p ∈ s.issuable core half held ↔
      p ∈ s.groups.zipIdx ∧ p.1.core = core ∧ p.1.half = half ∧ s.canIssue p.1 = true ∧ s.heldAt held p = false := by
  simp only [State.issuable, State.readyOn, List.mem_filter, Bool.and_eq_true, beq_iff_eq, Bool.not_eq_true', and_assoc]

/-! ## Merging (R115) -/

/-- Two groups whose windows have no common lane. -/
def Beside (p q : Group × Nat) : Prop := disjoint (p.1.base, p.1.w) (q.1.base, q.1.w) = true

theorem beside_comm {p q : Group × Nat} : Beside p q ↔ Beside q p := by
  simp only [Beside, disjoint, Bool.or_eq_true, decide_eq_true_eq]
  exact or_comm

/-- A group issues with the first of a pick: at its PC, in its context and node. -/
def WithFirst (first : Group) (p : Group × Nat) : Prop :=
  p.1.issuePc = first.issuePc ∧ p.1.key.ctx = first.key.ctx ∧ p.1.key.node = first.key.node

theorem mergesWith_iff {first : Group} {done : List (Group × Nat)} {p : Group × Nat} :
    mergesWith first done p.1 = true ↔ p.1.sweeping = false ∧ WithFirst first p ∧ ∀ q ∈ done, Beside q p := by
  simp only [mergesWith, WithFirst, Beside, Bool.and_eq_true, Bool.not_eq_true', beq_iff_eq, List.all_eq_true]
  tauto

/-- The groups of a merged issue: all go with the first, and no two share a lane. -/
structure Merged (first : Group) (all : List (Group × Nat)) : Prop where
  same : ∀ p ∈ all, WithFirst first p
  apart : all.Pairwise Beside

theorem merged_single (p : Group × Nat) : Merged p.1 [p] :=
  ⟨fun q hq => by rw [List.mem_singleton.1 hq]; exact ⟨rfl, rfl, rfl⟩, List.pairwise_singleton _ _⟩

theorem Merged.append {first : Group} {done : List (Group × Nat)} {p : Group × Nat} (h : Merged first done)
    (hp : mergesWith first done p.1 = true) : Merged first (done ++ [p]) := by
  obtain ⟨-, hsame, hapart⟩ := mergesWith_iff.1 hp
  refine ⟨fun q hq => ?_, List.pairwise_append.2 ⟨h.apart, List.pairwise_singleton _ _, fun q hq r hr => ?_⟩⟩
  · rcases List.mem_append.1 hq with hq | hq
    · exact h.same q hq
    · rw [List.mem_singleton.1 hq]; exact hsame
  · rw [List.mem_singleton.1 hr]; exact hapart q hq

/-- A group that does not merge beside some groups does not merge beside more. -/
theorem mergesWith_false_of_subset {first : Group} {done all : List (Group × Nat)} {p : Group × Nat}
    (h : mergesWith first done p.1 = false) (hs : ∀ q ∈ done, q ∈ all) : mergesWith first all p.1 = false := by
  rw [← Bool.not_eq_true, mergesWith_iff] at h ⊢
  exact fun ⟨hsweep, hsame, hapart⟩ => h ⟨hsweep, hsame, fun q hq => hapart q (hs q hq)⟩

/-- What merging candidates beside `done` gives: `all` holds `done`, and of the candidates just those that merge. -/
structure MergeOf (first : Group) (done cand all : List (Group × Nat)) : Prop where
  merged : Merged first all
  holds : ∀ p ∈ done, p ∈ all
  from_ : ∀ p ∈ all, p ∈ done ∨ p ∈ cand
  rest : ∀ p ∈ cand, p ∉ all → mergesWith first all p.1 = false

theorem mergeAll_spec (first : Group) (done cand : List (Group × Nat)) (h : Merged first done) :
    MergeOf first done cand (mergeAll first done cand) := by
  induction cand generalizing done with
  | nil => exact ⟨h, fun _ hp => hp, fun _ hp => .inl hp, fun p hp => absurd hp List.not_mem_nil⟩
  | cons p ps ih =>
    unfold mergeAll
    split
    next hp =>
      have hall := ih (done ++ [p]) (h.append hp)
      have hin : p ∈ mergeAll first (done ++ [p]) ps := hall.holds p (List.mem_append_right _ (List.mem_singleton_self p))
      refine ⟨hall.merged, fun q hq => hall.holds q (List.mem_append_left _ hq), fun q hq => ?_, fun q hq hn => ?_⟩
      · rcases hall.from_ q hq with hq | hq
        · exact (List.mem_append.1 hq).imp id fun hq => List.mem_cons.2 (.inl (List.mem_singleton.1 hq))
        · exact .inr (List.mem_cons_of_mem _ hq)
      · rcases List.mem_cons.1 hq with rfl | hq
        · exact absurd hin hn
        · exact hall.rest q hq hn
    next hp =>
      have hall := ih done h
      refine ⟨hall.merged, hall.holds, fun q hq => (hall.from_ q hq).imp id (List.mem_cons_of_mem _), fun q hq hn => ?_⟩
      rcases List.mem_cons.1 hq with rfl | hq
      · exact mergesWith_false_of_subset (Bool.not_eq_true _ ▸ hp) hall.holds
      · exact hall.rest q hq hn

/-- Nothing merges with a group at what it fetches. -/
def closedIssue (s : State) (g : Group) : Bool :=
  closedSlot g (match g.issuePc with
    | some pc => s.fetchAt g.key.ctx pc
    | none => .bad 0)

/-- The groups that issue with the picked one, in the order of R113. -/
def mergedGroups (s : State) (p : Group × Nat) (ps : List (Group × Nat)) : List (Group × Nat) :=
  if closedIssue s p.1 then [p] else mergeAll p.1 [p] ps

theorem members_cons {s : State} {core half : Nat} {held : List Nat} {upsets : List (Nat × Upset)} {p : Group × Nat}
    {ps : List (Group × Nat)} (h : sortBy pickKey (s.issuable core half held) = p :: ps) :
    s.members core half held upsets = (sortBy (fun (q : Group × Nat) => q.1.issueL) (mergedGroups s p ps)).map fun q =>
      ⟨q.1.key, q.1.issueSet, q.2 == p.2, (upsets.find? fun u => u.1 == q.2).map Prod.snd⟩ := by
  unfold State.members
  rw [h]
  rfl

/-- The groups of the issue: the picked one and others of the candidates, merged; of the other candidates none merges,
unless the issue is closed to merging. -/
theorem mergedGroups_spec (s : State) (p : Group × Nat) (ps : List (Group × Nat)) :
    Merged p.1 (mergedGroups s p ps) ∧ p ∈ mergedGroups s p ps ∧ (∀ q ∈ mergedGroups s p ps, q ∈ p :: ps) ∧
      ∀ q ∈ p :: ps, q ∉ mergedGroups s p ps → mergesWith p.1 (mergedGroups s p ps) q.1 = false ∨ closedIssue s p.1 = true := by
  unfold mergedGroups
  split
  next hclosed =>
    exact ⟨merged_single p, List.mem_singleton_self p, fun q hq => List.mem_cons.2 (.inl (List.mem_singleton.1 hq)),
      fun _ _ _ => .inr hclosed⟩
  next =>
    obtain ⟨hmerged, hholds, hfrom, hrest⟩ := mergeAll_spec p.1 [p] ps (merged_single p)
    have hp := hholds p (List.mem_singleton_self p)
    refine ⟨hmerged, hp, fun q hq => List.mem_cons.2 ((hfrom q hq).imp List.mem_singleton.1 id), fun q hq hn => ?_⟩
    rcases List.mem_cons.1 hq with rfl | hq
    · exact absurd hp hn
    · exact .inl (hrest q hq hn)

end Members

/-- Settles O4: the picked group is the head of the sorted candidates, and those beside it are as `mergedGroups_spec` says. -/
theorem groupsPicked : Obligations.GroupsPicked := by
  intro s core half held upsets ready ms
  have hready : ∀ p, p ∈ s.issuable core half held ↔ ready p := fun _ => mem_issuable
  cases hsort : sortBy pickKey (s.issuable core half held) with
  | nil =>
    have hnone : ∀ p, ¬ ready p := fun p hp => by
      have hmem := mem_sortBy (key := pickKey).2 ((hready p).2 hp)
      rw [hsort] at hmem
      exact List.not_mem_nil hmem
    exact ⟨fun _ => by simp only [ms, State.members, hsort], fun ⟨p, hp⟩ => absurd hp (hnone p)⟩
  | cons first ps =>
    have hcand : ∀ p, p ∈ first :: ps ↔ ready p := fun p => by rw [← hsort, mem_sortBy, hready]
    obtain ⟨⟨hsame, hapart⟩, hfirst, hfrom, hrest⟩ := mergedGroups_spec s first ps
    refine ⟨fun hnone => absurd ((hcand first).1 List.mem_cons_self) (hnone first), fun _ =>
      ⟨first, sortBy (fun q => q.1.issueL) (mergedGroups s first ps), mem_sortBy.2 hfirst, members_cons hsort,
        fun p hp => (hcand p).1 (hfrom p (mem_sortBy.1 hp)), fun p hp => sortBy_head_le hsort p ((hready p).2 hp),
        List.pairwise_map.2 (pairwise_sortBy _ _), fun p hp => hsame p (mem_sortBy.1 hp), fun p hp q hq hne => ?_, fun p hp hn => ?_⟩⟩
    · have : Std.Symm Beside := ⟨fun _ _ => beside_comm.1⟩
      exact hapart.forall (mem_sortBy.1 hp) (mem_sortBy.1 hq) hne
    · have hskipped : p ∉ mergedGroups s first ps := fun h => hn (mem_sortBy.2 h)
      exact (hrest p ((hcand p).2 hp) hskipped).imp_left fun h => mergesWith_false_of_subset h fun q hq => mem_sortBy.2 hq

end Sys2Proof.Proofs

namespace Sys2Proof.Proofs

open Sys2Proof.Machine Sys2Proof.Safety Sys2Proof.Laws
open Host (Cell)

/-! # Atomics (spec/14_isa_memory.md R280 to R282, spec/11_isa_encoding.md R216) -/

section Atomics

variable {i : Instr} {F : AtomicForm} {s : State} {g : Nat} {set : List Nat} {gr : Group}

/-! ## One lane -/

/-- The destination marked pending (R216). -/
def destMarked (F : AtomicForm) (th : Thread) : Thread := F.regs.foldl (fun th r => th.setPend r true) th

/-- The bytes of an atomic lane: stored, or read alone. -/
def swapped (s : State) (k : TKey) (ls : List (Loc × Nat)) (new : Option (List Byte)) : State :=
  match new with
  | some bs => s.writePlaces k ls bs
  | none => s.touchPlaces k ls

theorem swapped_onThreads (s : State) (k : TKey) (ls : List (Loc × Nat)) (new : Option (List Byte)) (g : Nat) (set : List Nat)
    (f : Nat → Thread → Thread) : swapped (onThreads s g set f) k ls new = onThreads (swapped s k ls new) g set f := by
  cases new with
  | some bs => exact write_onThreads ..
  | none => exact touch_onThreads ..

theorem swapped_only (s : State) (k : TKey) (ls : List (Loc × Nat)) (new : Option (List Byte)) : OnlyStores k ls s (swapped s k ls new) := by
  cases new with
  | some bs => exact writePlaces_only ..
  | none => exact touch_only ..

theorem swapped_cycle (s : State) (k : TKey) (ls : List (Loc × Nat)) (new : Option (List Byte)) : (swapped s k ls new).cycle = s.cycle := by
  rw [(swapped_only s k ls new).rest]; rfl

theorem swapped_groups (s : State) (k : TKey) (ls : List (Loc × Nat)) (new : Option (List Byte)) :
    (swapped s k ls new).groups = s.groups := by
  rw [(swapped_only s k ls new).rest]

/-- Group g is there, with the key of gr. -/
def Present (s : State) (g : Nat) (gr : Group) : Prop := ∃ x, s.groups[g]? = some x ∧ x.key = gr.key

theorem present_onThreads (h : Present s g gr) (set : List Nat) (f : Nat → Thread → Thread) : Present (onThreads s g set f) g gr := by
  obtain ⟨x, hx, hk⟩ := h
  exact ⟨onGroup set f x, by simp [onThreads, hx], hk⟩

theorem present_flagged (h : Present s g gr) (set : List Nat) (fl : Nat → Flags) : Present (flagged s g gr set fl) g gr := by
  obtain ⟨x, hx, hk⟩ := h
  obtain ⟨y, hy, hyk⟩ := flagged_group s g gr x set fl hx
  exact ⟨y, hy, hyk.trans hk⟩

theorem lane_cycle (places : Nat → List (Loc × Nat)) (c : Nat) (next : Word) (t : Nat) : (F.lane g gr places c next s t).cycle = s.cycle :=
  swapped_cycle s (gkeyTeam gr.key) (places t) (F.stored (gr.thread t) (s.readPlaces (gkeyTeam gr.key) (places t))).1

theorem lane_present (h : Present s g gr) (places : Nat → List (Loc × Nat)) (c : Nat) (next : Word) (t : Nat) :
    Present (F.lane g gr places c next s t) g gr := by
  have h1 : Present (swapped s (gkeyTeam gr.key) (places t) (F.stored (gr.thread t) (s.readPlaces (gkeyTeam gr.key) (places t))).1) g gr := by
    unfold Present; rw [swapped_groups]; exact h
  exact present_flagged (present_onThreads h1 _ _) _ _

/-- A lane that performs where it and further threads hold the mark of the destination: the others keep it. -/
theorem doAtomic_marked (hF : atomicForm i = some F) (h : Present s g gr) {t : Nat} {ts : List Nat} (ht : t ∉ ts)
    (places : Nat → List (Loc × Nat)) (next : Word) :
    ((onThreads s g (t :: ts) fun _ => destMarked F).doAtomic g t (gkeyTeam gr.key) (places t) F.op
        (storeBytes (gr.thread t) F.d.toNat (4 * F.span)) F.regs).modThread g t (fun th => th.goOn next) =
      onThreads (F.lane g gr places s.cycle next s t) g ts fun _ => destMarked F := by
  have hne : ∀ u ∈ ts, u ∉ [t] := fun u hu e => ht (List.mem_singleton.1 e ▸ hu)
  rw [doAtomic_eq (gr := gr) (hg := present_onThreads h _ _), (view_onThreads s g _ _).readPlaces, stored_eq i F hF]
  change flagged (onThreads (swapped (onThreads s g (t :: ts) fun _ => destMarked F) _ _ _) g [t] _) g gr [t] _ = _
  rw [swapped_onThreads, ← onThreads_cons _ _ _ _ _ ht, modThread_onThreads, onThreads_comm _ _ ts [t] _ _ hne, onThreads_onThreads,
    ← flagged_onThreads _ _ _ _ _ _ _ hne]
  simp only [destMarked, foldl_setPend_pc]
  rfl

/-- The lanes of an atomic, whose destination is marked in all its threads first, or in each with its lane. -/
theorem foldl_doAtomic (hF : atomicForm i = some F) (places : Nat → List (Loc × Nat)) (next : Word) {ts : List Nat} (hn : ts.Nodup)
    (h : Present s g gr) :
    ts.foldl (fun s t => (s.doAtomic g t (gkeyTeam gr.key) (places t) F.op (storeBytes (gr.thread t) F.d.toNat (4 * F.span))
        F.regs).modThread g t fun th => th.goOn next) (onThreads s g ts fun _ => destMarked F) =
      ts.foldl (F.lane g gr places s.cycle next) s := by
  induction ts generalizing s with
  | nil => exact onThreads_nil ..
  | cons t ts ih =>
    obtain ⟨ht, hts⟩ := List.nodup_cons.1 hn
    rw [List.foldl_cons, doAtomic_marked hF h ht, ih hts (lane_present h ..), lane_cycle]
    rfl

/-! ## The whole instruction -/

/-- Where no guard holds, the threads go on. -/
theorem atomicRun_none (hu : GuardUsable F.fields F.n F.guard gr set) (hr : ∀ t ∈ F.who gr set, Reaches s gr.key true (F.target gr t))
    (hwho : F.who gr set = []) :
    atomicRun F.op F.off F.n F.guard F.base F.d (theAct i g set gr) gr (idle s) = (idle s).goAll g set (nextPc i gr set) := by
  have hf : fieldsFault gr.budget [regF F.base 2, regF F.guard, updF F.d (atomicSpan F.op)] = none := hu.fields
  unfold atomicRun
  simp only [hf, show (if F.op = 30 ∨ F.op = 31 then 8 else 4) = F.size from rfl,
    show guarded gr F.n F.guard (theAct i g set gr).set = F.who gr set from rfl]
  rw [show ([regF F.base 2, regF F.guard, updF F.d (atomicSpan F.op)] : List Field) = F.fields from rfl]
  change (if !((theAct i g set gr).rounds (idle s) (guardedSet gr F.guard set (F.who gr set))
    (accessChk gr F.guard F.fields (F.who gr set) fun t => (idle s).lowCheck gr.key true (F.target gr t)) _).2 then _ else _) = _
  rw [atomicRounds i F s g set gr hu hr, hwho]
  rfl

/-- The state before the lanes act: PZ is raised, and the threads without a true guard have gone on. -/
def beforeLanes (i : Instr) (F : AtomicForm) (s : State) (g : Nat) (set : List Nat) (gr : Group) : State :=
  onThreads (poisoned (idle s) g gr (F.who gr set) F.fields) g (others set (F.who gr set)) fun _ th => F.pass (F.who gr set) (nextPc i gr set) th

theorem beforeLanes_view : SameView (beforeLanes i F s g set gr) s :=
  (view_onThreads _ _ _ _).trans ((view_flagged _ _ _ _ _).trans (view_idle s))

theorem atomicRun_lanes (hF : atomicForm i = some F) (h : Issuing s g set gr) (hu : GuardUsable F.fields F.n F.guard gr set)
    (hr : ∀ t ∈ F.who gr set, Reaches s gr.key true (F.target gr t))
    (hm : ∀ t ∈ F.who gr set, s.mayPerform gr.key true (s.places gr.key (F.target gr t) true) = true) :
    atomicRun F.op F.off F.n F.guard F.base F.d (theAct i g set gr) gr (idle s) =
      (F.who gr set).foldl (F.lane g gr (fun t => s.places gr.key (F.target gr t) true) s.cycle (nextPc i gr set))
        (beforeLanes i F s g set gr) := by
  have hn := rising_nodup h.rising
  by_cases hwho : F.who gr set = []
  · rw [atomicRun_none hu hr hwho, goAll_eq _ _ _ _ hn, beforeLanes, hwho, poisoned, flagged_nil, show others set [] = set by simp [others]]
    rfl
  · have hpresent : Present (beforeLanes i F s g set gr) g gr :=
      present_onThreads (present_flagged ⟨gr, idle_group h, rfl⟩ _ _) _ _
    rw [atomicRun_eq i F s g set gr h hu hwho hr hm]
    exact foldl_doAtomic hF (fun t => s.places gr.key (F.target gr t) true) (nextPc i gr set) (guarded_nodup hn) hpresent

/-- A byte outside the STATUS words is so in a state that differs in what accesses do not depend on. -/
theorem outsideStatus_of_view {s s' : State} (h : SameView s' s) {a : Nat} (ha : OutsideStatus s a) : OutsideStatus s' a := by
  intro n hn p hp
  have hnodes : s'.nodes = s.nodes := by
    have hbare := congrArg State.nodes h.eq
    exact hbare
  have hphys : (bareCtx (s'.ctx n.ctx)).phys? (n.addr + 104) = (bareCtx (s.ctx n.ctx)).phys? (n.addr + 104) := by
    rw [looks_ctx (looks_view h)]
  exact ha n (hnodes ▸ hn) p (hphys.symm.trans hp)

end Atomics

/-- Settles O17: `atomicRun_lanes` for what the lanes do, and `atomic_eq` for the bytes that none of them writes. -/
theorem atomicsComplete : Obligations.AtomicsComplete := by
  intro i F s g set gr hF h hw hu hr hm who next places s1 s'
  have hexec : exec i s = .next s' := by
    rw [exec_atomic hF, withIssue_eq i s _ g set gr h hw, atomicRun_lanes hF h hu hr hm]
    rfl
  obtain ⟨s2, old, fl, hexec2, honly⟩ := atomic_eq i F s g set gr h hw hu hr hm
  obtain rfl : s' = s2 := by
    rw [← exec_atomic hF] at hexec2
    exact Host.Outcome.next.inj (hexec.symm.trans hexec2)
  refine ⟨hexec, fun hwf => ⟨fun a hmem hstatus => honly.mem hwf a hmem (outsideStatus_of_view ?_ hstatus), honly.scratch hwf⟩⟩
  exact (view_flagged _ _ _ _ _).trans ((view_onThreads _ _ _ _).trans beforeLanes_view)

end Sys2Proof.Proofs

namespace Sys2Proof.Proofs

open Sys2Proof.Machine Sys2Proof.Safety Sys2Proof.Laws
open Host (Cell)

/-! # Stores of a queue word (spec/14_isa_memory.md R275, R279, spec/11_isa_encoding.md R210) -/

section Stores

variable {i : Instr} {F : StoreForm} {s : State} {g : Nat} {set : List Nat} {gr : Group} {k : TKey} {L : List (Loc × Nat)}

/-! ## Updates that agree on the threads that are there -/

theorem modify_congr_at {α : Type} {l : List α} {j : Nat} {x : α} {f h : α → α} (hx : l[j]? = some x) (hf : f x = h x) :
    l.modify j f = l.modify j h := by
  apply List.ext_getElem?
  intro m
  rw [List.getElem?_modify, List.getElem?_modify]
  by_cases e : j = m
  · subst e; simp [hx, hf]
  · simp [e]

theorem onGroup_congr_at {ts : List Nat} {f h : Nat → Thread → Thread} {x : Group}
    (hf : ∀ t ∈ ts, t < x.threads.length → f t (x.thread t) = h t (x.thread t)) : onGroup ts f x = onGroup ts h x := by
  have hthreads : (x.threads.mapIdx fun u th => if ts.contains u then f u th else th) =
      x.threads.mapIdx fun u th => if ts.contains u then h u th else th := by
    apply List.ext_getElem?
    intro j
    simp only [List.getElem?_mapIdx]
    by_cases hj : j < x.threads.length
    · have hth : x.threads[j] = x.thread j := by simp [Group.thread, List.getD_eq_getElem?_getD, hj]
      by_cases hm : j ∈ ts
      · simp [hj, hm, hth, hf j hm hj]
      · simp [hj, hm]
    · simp [hj]
  unfold onGroup
  rw [hthreads]

theorem onThreads_congr_at {ts : List Nat} {f h : Nat → Thread → Thread} {x : Group} (hx : s.groups[g]? = some x)
    (hf : ∀ t ∈ ts, t < x.threads.length → f t (x.thread t) = h t (x.thread t)) : onThreads s g ts f = onThreads s g ts h := by
  unfold onThreads
  rw [modify_congr_at hx (onGroup_congr_at hf)]

theorem onThreads_group {x : Group} (hx : s.groups[g]? = some x) (ts : List Nat) (f : Nat → Thread → Thread) :
    (onThreads s g ts f).groups[g]? = some (onGroup ts f x) := by simp [onThreads, hx]

/-! ## Threads that take a word each -/

theorem window_onThreads (s : State) (w k : TKey) (up : Bool) (team : Nat) (g : Nat) (us : List Nat) (f : Nat → Thread → Thread) :
    (onThreads s g us f).window w up k.node team = onThreads (s.window w up k.node team) g us f := rfl

/-- Taking words commutes with updates of other threads. -/
theorem tookWords_onThreads {ts us : List Nat} (hd : ∀ t ∈ ts, t ∉ us) (s : State) (f : Nat → Thread → Thread) :
    tookWords (onThreads s g us f) g gr ts = onThreads (tookWords s g gr ts) g us f := by
  unfold tookWords
  induction ts generalizing s with
  | nil => rfl
  | cons t ts ih =>
    have hd' : ∀ u ∈ ts, u ∉ us := fun u hu => hd u (List.mem_cons_of_mem _ hu)
    have ht : ∀ u ∈ us, u ∉ [t] := fun u hu e => hd t List.mem_cons_self (List.mem_singleton.1 e ▸ hu)
    simp only [List.foldl_cons]
    cases (gr.thread t).queue with
    | nil => exact ih hd' s
    | cons w rest =>
      simp only
      rw [onThreads_comm s g us [t] _ _ ht]
      exact ih hd' ((onThreads s g [t] fun _ => takesWord).window w.2 false gr.key.node gr.key.team)

/-- An update of teams that leaves their keys and their scratch bytes. -/
structure KeepsScratch (f : Team → Team) : Prop where
  key : ∀ t, (f t).key = t.key
  scratch : ∀ t, (f t).scratch = t.scratch

theorem memWf_modTeam {f : Team → Team} (hf : KeepsScratch f) (s : State) (w : TKey) : (s.modTeam w f).memWf = s.memWf := by
  have hone : ∀ t : Team, (if t.key == w then f t else t).scratch = t.scratch := fun t => by
    split
    · exact hf.scratch t
    · rfl
  simp only [State.memWf, State.modTeam, List.all_map, Function.comp_def, hone]

theorem scratch_modTeam {f : Team → Team} (hf : KeepsScratch f) (s : State) (w k' : TKey) : (s.modTeam w f).scratch k' = s.scratch k' := by
  unfold State.scratch State.team? State.modTeam
  rw [map_team_scratch s k' _ fun t => by split; exacts [hf.key t, rfl], Option.map_map]
  congr 2
  funext t
  simp only [Function.comp_apply]
  split
  · exact hf.scratch t
  · rfl

theorem onlyStores_modTeam {a b : State} (h : OnlyStores k L a b) (w : TKey) {f : Team → Team} (hf : KeepsScratch f)
    (hp : ∀ t, plainTeam (f t) = f (plainTeam t)) : OnlyStores k L (a.modTeam w f) (b.modTeam w f) where
  rest := by
    have h2 := congrArg (fun x : State => x.modTeam w f) h.rest
    exact h2
  nodes := h.nodes
  teams := by
    have hplain : ∀ x : State, (x.modTeam w f).teams.map plainTeam = (x.teams.map plainTeam).map fun t => if t.key == w then f t else t := by
      intro x
      simp only [State.modTeam, List.map_map]
      refine List.map_congr_left fun t _ => ?_
      simp only [Function.comp_apply, show (plainTeam t).key = t.key from rfl]
      split
      · exact hp t
      · rfl
    rw [hplain, hplain, h.teams]
  wf := by rw [memWf_modTeam hf, memWf_modTeam hf]; exact h.wf
  mem := by rw [memWf_modTeam hf]; exact h.mem
  scratch := by
    rw [memWf_modTeam hf]
    intro hw k' x hx
    rw [scratch_modTeam hf, scratch_modTeam hf]
    exact h.scratch hw k' x hx

/-- A window place given back changes no byte. -/
theorem onlyStores_window {a b : State} (h : OnlyStores k L a b) (w : TKey) (node : Word) (team : Nat) :
    OnlyStores k L (a.window w false node team) (b.window w false node team) :=
  onlyStores_modTeam h w ⟨fun _ => rfl, fun _ => rfl⟩ fun _ => rfl

theorem onlyStores_tookWords {a b : State} (h : OnlyStores k L a b) (ts : List Nat) :
    OnlyStores k L (tookWords a g gr ts) (tookWords b g gr ts) := by
  unfold tookWords
  induction ts generalizing a b with
  | nil => exact h
  | cons t ts ih =>
    simp only [List.foldl_cons]
    cases (gr.thread t).queue with
    | nil => exact ih h
    | cons w rest => exact ih (onlyStores_window (onlyStores_onThreads h g [t] _) w.2 _ _)

/-- The group after its threads have taken words: its threads have changed in their queues alone. -/
theorem going_tookWords {gr₀ : Group} {set ts us : List Nat} {s : State} (h : ∃ x, s.groups[g]? = some x ∧ Going gr₀ set ts x) :
    ∃ x, (tookWords s g gr us).groups[g]? = some x ∧ Going gr₀ set ts x := by
  unfold tookWords
  induction us generalizing s with
  | nil => exact h
  | cons u us ih =>
    simp only [List.foldl_cons]
    cases (gr.thread u).queue with
    | nil => exact ih h
    | cons w rest =>
      obtain ⟨x, hx, hgo⟩ := h
      refine ih ⟨onGroup [u] (fun _ => takesWord) x, ?_, going_keep hgo [u] _ fun _ _ => ⟨rfl, rfl, rfl⟩⟩
      change (s.groups.modify g _)[g]? = _
      simp [hx]

/-- Each thread takes the word that its queue held when the instruction began. -/
theorem foldl_takeWord {ts : List Nat} (hn : ts.Nodup) {x : Group} (hx : s.groups[g]? = some x)
    (hq : ∀ t ∈ ts, (x.thread t).queue = (gr.thread t).queue) :
    ts.foldl (fun s t => s.takeWord g t gr.key) s = tookWords s g gr ts := by
  unfold tookWords
  induction ts generalizing s x with
  | nil => rfl
  | cons t ts ih =>
    obtain ⟨ht, hts⟩ := List.nodup_cons.1 hn
    have hq' : ∀ u ∈ ts, (x.thread u).queue = (gr.thread u).queue := fun u hu => hq u (List.mem_cons_of_mem _ hu)
    have htake : s.takeWord g t gr.key = match (gr.thread t).queue with
        | w :: _ => (onThreads s g [t] fun _ => takesWord).window w.2 false gr.key.node gr.key.team
        | [] => s := by
      unfold State.takeWord
      rw [hx, Option.map_some, Option.getD_some, hq t List.mem_cons_self]
      cases hw : (gr.thread t).queue with
      | nil => rfl
      | cons w rest =>
        have hthread : onThreads s g [t] (fun _ th => { th with queue := rest }) = onThreads s g [t] fun _ => takesWord := by
          refine onThreads_congr_at hx fun u hu _ => ?_
          rw [List.mem_singleton.1 hu, takesWord, hq t List.mem_cons_self, hw]
          rfl
        simp only [modThread_onThreads, hthread]
    simp only [List.foldl_cons]
    rw [htake]
    cases (gr.thread t).queue with
    | nil => exact ih hts hx hq'
    | cons w rest =>
      have hx2 : ((onThreads s g [t] fun _ => takesWord).window w.2 false gr.key.node gr.key.team).groups[g]? =
          some (onGroup [t] (fun _ => takesWord) x) := by
        change (s.groups.modify g _)[g]? = _
        simp [hx]
      refine ih hts hx2 fun u hu => ?_
      rw [thread_onGroup, if_neg (by rintro ⟨e, -⟩; exact ht (List.mem_singleton.1 e ▸ hu))]
      exact hq' u hu

/-! ## The state before the lanes store -/

/-- The threads of a store of qr that wait, those that store, and those that are left of its issue set. -/
def noWord (F : StoreForm) (gr : Group) (set : List Nat) : List Nat := starved gr (F.who gr set)
def withWord (F : StoreForm) (gr : Group) (set : List Nat) : List Nat := others (F.who gr set) (noWord F gr set)
def notStarved (F : StoreForm) (gr : Group) (set : List Nat) : List Nat := others set (noWord F gr set)

theorem mem_withWord {t : Nat} : t ∈ withWord F gr set ↔ t ∈ F.who gr set ∧ t ∉ noWord F gr set := by simp [withWord, others]

theorem withWord_sub {t : Nat} (h : t ∈ withWord F gr set) : t ∈ notStarved F gr set := by
  obtain ⟨hwho, hwait⟩ := mem_withWord.1 h
  simp [notStarved, others, guarded_sub t hwho, hwait]

/-- Of the threads that do not wait, those that do not store are those without a true guard. -/
theorem others_notStarved : others (notStarved F gr set) (withWord F gr set) = others set (F.who gr set) := by
  unfold notStarved others
  rw [List.filter_filter]
  refine List.filter_congr fun t _ => ?_
  have hsub : t ∈ noWord F gr set → t ∈ F.who gr set := List.mem_of_mem_filter
  by_cases hwho : t ∈ F.who gr set <;> by_cases hwait : t ∈ noWord F gr set <;> simp_all [mem_withWord]

theorem withWord_eq_filter : ∃ p : Nat → Bool, withWord F gr set = (notStarved F gr set).filter p :=
  ⟨fun t => ((gr.thread t).reg F.guard.toNat != 0) != (F.n == 1), by
    simp only [withWord, notStarved, others, StoreForm.who, guarded, List.filter_filter]
    exact List.filter_congr fun t _ => Bool.and_comm _ _⟩

/-- The threads of a store of qr before its lanes store: PZ is raised, those without a word wait, the others take one each, and
those without a true guard have gone on. -/
def fedStore (i : Instr) (F : StoreForm) (s : State) (g : Nat) (set : List Nat) (gr : Group) (next : Word) : State :=
  onThreads (tookWords (onThreads (poisoned s g gr (withWord F gr set) F.fields) g (noWord F gr set) fun _ th => th.block (.qr i)) g gr
    (withWord F gr set)) g (others (notStarved F gr set) (withWord F gr set)) fun _ th => th.goOn next

theorem onlyStores_fedStore {a b : State} (h : OnlyStores k L a b) (next : Word) :
    OnlyStores k L (fedStore i F a g set gr next) (fedStore i F b g set gr next) :=
  onlyStores_onThreads (onlyStores_tookWords (onlyStores_onThreads (onlyStores_flagged h g gr _ _) g _ _) _) g _ _

theorem noWord_disjoint_withWord {t : Nat} (h : t ∈ withWord F gr set) : t ∉ noWord F gr set := (mem_withWord.1 h).2

theorem noWord_disjoint_others {t : Nat} (h : t ∈ others set (F.who gr set)) : t ∉ noWord F gr set := by
  intro hwait
  have hwho : t ∈ F.who gr set := List.mem_of_mem_filter hwait
  simp [others, hwho] at h

theorem withWord_disjoint_others {t : Nat} (h : t ∈ withWord F gr set) : t ∉ others set (F.who gr set) := by
  simp [others, (mem_withWord.1 h).1]

theorem fedStore_eq (hn : set.Nodup) (hg : s.groups[g]? = some gr) (next : Word) :
    (withWord F gr set).foldl (fun s t => s.takeWord g t gr.key)
        (((s.raisePoison g gr (withWord F gr set) fun t => inThread t (ownReads F.fields)).goAll g (others set (F.who gr set)) next).blockAll
          g (noWord F gr set) (.qr i)) =
      fedStore i F s g set gr next := by
  have hwho : (F.who gr set).Nodup := guarded_nodup hn
  have hrun : (withWord F gr set).Nodup := others_nodup hwho
  have hwait : (noWord F gr set).Nodup := hwho.filter _
  obtain ⟨x, hx, hxq⟩ : ∃ x, (onThreads (onThreads (poisoned s g gr (withWord F gr set) F.fields) g (others set (F.who gr set))
      fun _ th => th.goOn next) g (noWord F gr set) fun _ th => th.block (.qr i)).groups[g]? = some x ∧
      ∀ t, (x.thread t).queue = (gr.thread t).queue := by
    refine ⟨onGroup (noWord F gr set) (fun _ th => th.block (.qr i)) (onGroup (others set (F.who gr set)) (fun _ th => th.goOn next)
      (flagGroup s.cycle (withWord F gr set) (fun t => poisonFlag gr (inThread t (ownReads F.fields))) gr)), ?_, fun t => ?_⟩
    · simp [onThreads, poisoned, flagged, hg]
    · rw [thread_onGroup, thread_onGroup, show ∀ n ts fl, (flagGroup n ts fl gr).thread t =
        (onGroup ts (fun u th => th.raiseBits n (fl u)) gr).thread t from fun _ _ _ => rfl, thread_onGroup]
      split <;> split <;> split <;> rfl
  have hraise : (s.raisePoison g gr (withWord F gr set) fun t => inThread t (ownReads F.fields)) = poisoned s g gr (withWord F gr set) F.fields :=
    raisePoison_eq _ _ _ _ _ hrun ⟨gr, hg, rfl⟩
  rw [hraise, goAll_eq _ _ _ _ (others_nodup hn), blockAll_eq _ _ _ _ hwait,
    foldl_takeWord hrun hx fun t _ => hxq t, onThreads_comm _ _ _ _ _ _ fun t ht => noWord_disjoint_others ht,
    tookWords_onThreads fun t ht => withWord_disjoint_others ht, fedStore, others_notStarved]

/-- Before the lanes store, the threads without a true guard have gone on, beside those that wait. -/
theorem fedStore_going (hg : s.groups[g]? = some gr) (next : Word) :
    ∃ x, (fedStore i F s g set gr next).groups[g]? = some x ∧
      Going (onGroup (noWord F gr set) (fun _ th => th.block (.qr i)) gr) (notStarved F gr set) (withWord F gr set) x := by
  generalize hflags : (fun t => poisonFlag gr (inThread t (ownReads F.fields))) = fl
  generalize hwaiting : onGroup (noWord F gr set) (fun _ th => th.block (.qr i)) gr = waiting
  have hstart : Going waiting (notStarved F gr set) (notStarved F gr set) waiting :=
    ⟨fun _ _ => rfl, fun u hu hn => absurd hu hn, fun _ _ => rfl, fun _ => rfl⟩
  have hthreads : (onGroup (noWord F gr set) (fun _ th => th.block (.qr i)) (flagGroup s.cycle (withWord F gr set) fl gr)).threads =
      (onGroup (withWord F gr set) (fun u th => th.raiseBits s.cycle (fl u)) waiting).threads := by
    rw [← hwaiting, ← onGroup_comm _ _ _ _ fun t ht => noWord_disjoint_withWord ht]
    rfl
  have hflagged := going_threads hthreads (going_keep hstart _ _ fun _ _ => ⟨rfl, rfl, rfl⟩)
  have hgroup : (onThreads (poisoned s g gr (withWord F gr set) F.fields) g (noWord F gr set) fun _ th => th.block (.qr i)).groups[g]? =
      some (onGroup (noWord F gr set) (fun _ th => th.block (.qr i)) (flagGroup s.cycle (withWord F gr set) fl gr)) := by
    simp [onThreads, poisoned, flagged, hg, hflags]
  obtain ⟨x, hx, htook⟩ := going_tookWords (gr := gr) (us := withWord F gr set) ⟨_, hgroup, hflagged⟩
  refine ⟨onGroup (others (notStarved F gr set) (withWord F gr set)) (fun _ th => th.goOn next) x, ?_, ?_⟩
  · exact onThreads_group hx _ _
  · have hon := going_on htook (others (notStarved F gr set) (withWord F gr set)) (fun _ th => th.goOn next)
      (fun u hu => List.mem_of_mem_filter hu) fun _ _ => ⟨rfl, rfl⟩
    obtain ⟨p, hp⟩ := withWord_eq_filter (F := F) (gr := gr) (set := set)
    rwa [hp, others_others, ← hp] at hon

/-! ## The whole instruction -/

/-- The bytes of a lane, and what higher lanes of the store have written (R279). -/
def laneBytes (F : StoreForm) (gr : Group) (t : Nat) : List Byte :=
  (storeBytes (gr.thread t) F.d.toNat F.size).drop (F.size - (F.target gr t).size)
def laneAbove (F : StoreForm) (s : State) (gr : Group) (ts : List Nat) (t : Nat) : List Span :=
  (gr.thread t).higher ++ (((ts.filter fun u => (F.target gr u).crosses) ++ []).filter (t < ·)).flatMap fun u =>
    ((s.places gr.key (F.target gr u) true).take 1).map placeSpan

/-- What a store of qr does where its checks pass: it stores lower parts, then each lane stores in turn, and waits end. -/
theorem storeRun_qr (h : Issuing s g set gr) (hu : GuardUsable F.fields F.n F.guard gr set) (hq : F.d = 61)
    (hr : ∀ t ∈ F.who gr set, Reaches s gr.key true (F.target gr t))
    (hm : ∀ t ∈ withWord F gr set, s.mayPerform gr.key true (s.places gr.key (F.target gr t) true) = true)
    (hL : ∀ t ∈ withWord F gr set, ∀ x ∈ s.places gr.key (F.target gr t) true, x ∈ L) :
    ∃ w : State, OnlyStores (gkeyTeam gr.key) L (idle s) w ∧
      storeRun F.glob F.size F.off F.n F.guard F.base F.d (theAct i g set gr) gr (idle s) =
        ((withWord F gr set).foldl (fun s' t =>
          ((s'.storeRest g t (gkeyTeam gr.key) (F.target gr t).crosses (s.places gr.key (F.target gr t) true)
            (laneAbove F (idle s) gr (withWord F gr set) t) (laneBytes F gr t)).overWrite
            g t (s.places gr.key (F.target gr t) true)).modThread g t fun th => th.goOn (nextPc i gr set))
          (fedStore i F w g set gr (nextPc i gr set))).settle := by
  have hf : fieldsFault gr.budget [regF F.base (if F.glob then 2 else 1), regF F.guard,
      { num := F.d.toNat, size := max 1 (F.size / 4), qr := F.size = 4 }] = none := hu.fields
  have hready : (withWord F gr set).filter (fun t => (idle s).mayPerform gr.key true ((idle s).places gr.key (F.target gr t) true)) =
      withWord F gr set := List.filter_eq_self.2 hm
  have hrounds := fun low lower => rounds_ok (theAct i g set gr) (idle s) (guardedSet gr F.guard set (F.who gr set))
    (accessChk gr F.guard F.fields (F.who gr set) fun t => (idle s).lowCheck gr.key true (F.target gr t))
    (fun t => if (F.who gr set).contains t then (idle s).highCheck gr.key true (F.target gr t) else .ok (.scr 0)) low lower
    (accessChk_ok hu fun t ht => (hr t ht).1) (fun t _ => by
      split
      next hw => exact (hr t (by simpa using hw)).2
      next => exact ⟨_, rfl⟩)
  have hlower := lowerParts_only (gkeyTeam gr.key) (fun t => (idle s).places gr.key (F.target gr t) true) (fun t => (gr.thread t).higher)
    (laneBytes F gr) L
    ((withWord F gr set).filter fun t => (F.target gr t).crosses) (idle s) fun t ht => hL t (List.mem_of_mem_filter ht)
  refine ⟨_, hlower, ?_⟩
  rw [← fedStore_eq (rising_nodup h.rising) (by rw [hlower.rest]; exact h.group)]
  have htarget : ∀ t, ({ glob := F.glob, addr := formAddr F.glob (gr.thread t) F.base.toNat ((F.off.toNat * F.size : Nat) : Int), size := F.size } : Target)
      = F.target gr t := fun _ => rfl
  unfold storeRun
  simp only [hf, show (theAct i g set gr).lowered = [] from rfl, show ∀ t, (([] : List Nat).contains t) = false from fun _ => rfl,
    Bool.false_eq_true, if_false, if_pos hq, htarget, show guarded gr F.n F.guard (theAct i g set gr).set = F.who gr set from rfl,
    show starved gr (F.who gr set) = noWord F gr set from rfl, show others (F.who gr set) (noWord F gr set) = withWord F gr set from rfl, hready]
  rw [show ([regF F.base (if F.glob = true then 2 else 1), regF F.guard,
      { num := F.d.toNat, size := max 1 (F.size / 4), qr := F.size = 4 }] : List Field) = F.fields from rfl,
    show (theAct i g set gr).set = set from rfl, hrounds, show others (withWord F gr set) (withWord F gr set) = [] by simp [others]]
  rfl

/-- A store of qr: of memory and scratch only its lanes' targets change, and the threads are as `storedThreads` says. -/
theorem storeRun_qr_only (h : Issuing s g set gr) (hu : GuardUsable F.fields F.n F.guard gr set) (hq : F.d = 61)
    (hr : ∀ t ∈ F.who gr set, Reaches s gr.key true (F.target gr t))
    (hm : ∀ t ∈ withWord F gr set, s.mayPerform gr.key true (s.places gr.key (F.target gr t) true) = true) :
    ∃ s' : State, storeRun F.glob F.size F.off F.n F.guard F.base F.d (theAct i g set gr) gr (idle s) = s'.settle ∧
      OnlyStores (gkeyTeam gr.key) ((withWord F gr set).map fun t => s.places gr.key (F.target gr t) true).flatten
        (onThreads (overwritten (fedStore i F (idle s) g set gr (nextPc i gr set)) g
            (onGroup (noWord F gr set) (fun _ th => th.block (.qr i)) gr) (fun t => s.places gr.key (F.target gr t) true)
            (notStarved F gr set) (withWord F gr set)) g (withWord F gr set) fun _ th =>
          Thread.goOn { th with stores := th.stores + 1 } (nextPc i gr set)) s' := by
  generalize hL : ((withWord F gr set).map fun t => s.places gr.key (F.target gr t) true).flatten = L
  have hin : ∀ t ∈ withWord F gr set, ∀ x ∈ s.places gr.key (F.target gr t) true, x ∈ L := fun t ht x hx =>
    hL ▸ List.mem_flatten.2 ⟨_, List.mem_map_of_mem ht, hx⟩
  obtain ⟨w, hlower, hrun⟩ := storeRun_qr (i := i) h hu hq hr hm hin
  have hw : w.groups[g]? = some gr := by rw [hlower.rest]; exact h.group
  have hrising : (withWord F gr set).Pairwise (· < ·) := (h.rising.filter _).filter _
  refine ⟨_, hrun, onlyStores_trans (onlyStores_onThreads (onlyStores_overwritten _ _ _ _ (onlyStores_fedStore hlower _)) g _ _) ?_⟩
  exact foldl_stores _ (notStarved F gr set) (withWord F gr set) _ _ (looks_refl _) g (gkeyTeam gr.key) hrising
    (fun t ht => withWord_sub ht) (fedStore_going hw _) _ L
    (fun _ th => Thread.goOn { th with stores := th.stores + 1 } (nextPc i gr set)) (fun _ _ => ⟨rfl, rfl⟩) (fun t => s.places gr.key (F.target gr t) true)
    fun t ht s' x _ hx => storeLane_only s' g t (gkeyTeam gr.key) _ _ L _ _ (nextPc i gr set) (hin t ht) x hx

end Stores

/-- Settles O15: `store_eq` where the data stands in registers, and `storeRun_qr_only` where it comes from qr. -/
theorem storesStore : Obligations.StoresStore := by
  intro i F s g set gr hF h hw hu hr places wait run hm block waiting base
  by_cases hq : F.d = 61
  · simp only [run, wait, if_pos hq] at hm
    obtain ⟨s', hrun, honly⟩ := storeRun_qr_only (i := i) h hu hq hr hm
    refine ⟨s', ?_, ?_⟩
    · rw [exec_store hF, withIssue_eq i s _ g set gr h hw, if_pos hq, ← hrun]
    · simp only [base, waiting, run, wait, if_pos hq]
      exact honly
  · have hrun : run = F.who gr set := by simp [run, wait, if_neg hq, others]
    obtain ⟨s', hexec, honly⟩ := store_eq i F s g set gr h hw hu hq hr (hrun ▸ hm)
    refine ⟨s', ?_, ?_⟩
    · rw [exec_store hF, if_neg hq]
      exact hexec
    · simp only [base, waiting, hrun, wait, if_neg hq, onThreads_nil, onGroup_nil]
      simpa [others] using honly

end Sys2Proof.Proofs

namespace Sys2Proof.Proofs

open Sys2Proof.Machine Sys2Proof.Safety Sys2Proof.Laws
open Host (Cell)

/-! # Register budgets (spec/07_execution_model.md R122) -/

section Budgets

variable {s : State} {g n : Nat} {set : List Nat} {gr : Group}

/-! ## The least of a list -/

theorem leastBy?_eq_none {α : Type} {key : α → Nat} {l : List α} : leastBy? key l = none ↔ l = [] := by
  cases l with
  | nil => simp [leastBy?]
  | cons x xs =>
    unfold leastBy?
    split
    · simp
    · split <;> simp

theorem leastBy?_mem {α : Type} {key : α → Nat} {l : List α} {x : α} (h : leastBy? key l = some x) : x ∈ l := by
  induction l generalizing x with
  | nil => cases h
  | cons y ys ih =>
    unfold leastBy? at h
    split at h
    · cases h; exact List.mem_cons_self
    next z hz =>
      split at h
      · cases h; exact List.mem_cons_of_mem _ (ih hz)
      · cases h; exact List.mem_cons_self

/-! ## Requests -/

theorem mem_asks {q : Nat × Nat} : q ∈ gr.asks ↔ ∃ th ∈ gr.threads, ∃ d w, th.state = .blocked (.reggrow d q.1 w) ∧ th.issued = q.2 := by
  unfold Group.asks
  rw [List.mem_filterMap]
  refine exists_congr fun th => and_congr_right fun _ => ?_
  split
  next d m w hth =>
    constructor
    · intro h
      cases h
      exact ⟨d, w, hth, rfl⟩
    · rintro ⟨d', w', hstate, hissued⟩
      rw [hth] at hstate
      cases hstate
      rw [hissued]
  next hth => exact ⟨fun h => (nomatch h), fun ⟨d, w, hstate, _⟩ => absurd hstate (hth d q.1 w)⟩

theorem asks_eq_nil : gr.asks = [] ↔ ∀ th ∈ gr.threads, ∀ d n w, th.state ≠ .blocked (.reggrow d n w) := by
  rw [List.eq_nil_iff_forall_not_mem]
  constructor
  · exact fun h th hth d n w hstate => h (n, th.issued) (mem_asks.2 ⟨th, hth, d, w, hstate, rfl⟩)
  · intro h q hq
    obtain ⟨th, hth, d, w, hstate, -⟩ := mem_asks.1 hq
    exact h th hth d q.1 w hstate

theorem growWait_eq_none {th : Thread} : growWait n th = none ↔ ∀ d w, th.state ≠ .blocked (.reggrow d n w) := by
  unfold growWait
  split
  next d m w hth =>
    by_cases hm : m = n
    · simp [hm, hth]
    · simp [hm, hth]
  next hth => exact ⟨fun _ d w => hth d n w, fun _ => rfl⟩

theorem mem_growable {x : Nat × Group × Nat × Nat} :
    x ∈ s.growable ↔ s.groups[x.1]? = some x.2.1 ∧ s.active x.2.1 = true ∧ x.2.2 ∈ x.2.1.asks ∧ s.growRoom x.2.1 x.2.2.1 = true := by
  obtain ⟨i, gr, q⟩ := x
  simp only [State.growable, List.mem_flatMap]
  constructor
  · rintro ⟨p, hp, hx⟩
    split at hx
    next hactive =>
      obtain ⟨q', hq, he⟩ := List.mem_map.1 hx
      obtain ⟨hask, hroom⟩ := List.mem_filter.1 hq
      cases he
      exact ⟨by simpa [List.mem_zipIdx_iff_getElem?] using hp, hactive, hask, hroom⟩
    next => exact absurd hx List.not_mem_nil
  · rintro ⟨hgroup, hactive, hask, hroom⟩
    refine ⟨(gr, i), by simpa [List.mem_zipIdx_iff_getElem?] using hgroup, ?_⟩
    rw [if_pos hactive]
    exact List.mem_map.2 ⟨q, List.mem_filter.2 ⟨hask, hroom⟩, rfl⟩

/-- Where nothing can be granted, nothing is. -/
theorem growN_of_growable_nil (h : s.growable = []) (m : Nat) : s.growN m = s := by
  cases m with
  | zero => rfl
  | succ m => simp [State.growN, h, leastBy?]

theorem askCount_pos (hg : s.groups[g]? = some gr) (h : gr.asks ≠ []) : 0 < s.askCount := by
  refine lt_of_lt_of_le (List.length_pos_of_ne_nil h) (List.single_le_sum (fun _ _ => Nat.zero_le _) _ ?_)
  exact List.mem_map_of_mem (List.mem_of_getElem? hg)

/-! ## A grant -/

theorem grow_thread_state {m : Nat} {th : Thread} (h : th ∈ (gr.grow m).threads) : ∃ th₀ ∈ gr.threads, th₀.state = th.state := by
  unfold Group.grow at h
  split at h
  · exact ⟨th, h, rfl⟩
  · obtain ⟨th₀, hth, rfl⟩ := List.mem_map.1 h
    exact ⟨th₀, hth, rfl⟩

/-- After its group is granted what all its threads ask for, none of them asks. -/
theorem asks_grant (h : ∀ q ∈ gr.asks, q.1 = n) (m : Nat) (status : Word) : ((gr.grow m).endGrow n status).asks = [] := by
  rw [asks_eq_nil]
  intro th hth d n' w hstate
  obtain ⟨th₁, hth₁, rfl⟩ := List.mem_map.1 hth
  split at hstate
  next => cases hstate
  next hwait =>
    obtain ⟨th₀, hth₀, hstate₀⟩ := grow_thread_state hth₁
    obtain rfl : n' = n := h (n', th₀.issued) (mem_asks.2 ⟨th₀, hth₀, d, w, hstate₀.trans hstate, rfl⟩)
    exact growWait_eq_none.1 hwait d w hstate

theorem growAll_single (hg : s.groups[g]? = some gr) (hactive : s.active gr = true) (hask : gr.asks ≠ []) (hn : ∀ q ∈ gr.asks, q.1 = n)
    (hroom : s.growRoom gr n = true) (hothers : ∀ j x, s.groups[j]? = some x → j ≠ g → x.asks = []) : s.growAll = s.grantOne g n := by
  have honly : ∀ x ∈ s.growable, x.1 = g ∧ x.2.2.1 = n := by
    intro x hx
    obtain ⟨hgroup, -, hmem, -⟩ := mem_growable.1 hx
    by_cases e : x.1 = g
    · rw [e, hg] at hgroup
      cases hgroup
      exact ⟨e, hn _ hmem⟩
    · rw [hothers _ _ hgroup e] at hmem
      exact absurd hmem List.not_mem_nil
  obtain ⟨q, hq⟩ := List.exists_mem_of_ne_nil _ hask
  have hgrowable : (g, gr, q) ∈ s.growable := mem_growable.2 ⟨hg, hactive, hq, (hn q hq).symm ▸ hroom⟩
  have hdone : (s.grantOne g n).growable = [] := by
    rw [List.eq_nil_iff_forall_not_mem]
    intro x hx
    obtain ⟨hgroup, -, hmem, -⟩ := mem_growable.1 hx
    have hasks : x.2.1.asks = [] := by
      by_cases e : g = x.1
      · subst e
        have hgranted : (gr.grow n).endGrow n 1 = x.2.1 := by simpa [State.grantOne, State.modGroup, hg] using hgroup
        exact hgranted ▸ asks_grant hn n 1
      · exact hothers _ _ (by simpa [State.grantOne, State.modGroup, List.getElem?_modify, e] using hgroup) (Ne.symm e)
    rw [hasks] at hmem
    exact absurd hmem List.not_mem_nil
  obtain ⟨m, hm⟩ := Nat.exists_eq_succ_of_ne_zero (askCount_pos hg hask).ne'
  unfold State.growAll
  rw [hm]
  cases hleast : leastBy? growOrder s.growable with
  | none => rw [leastBy?_eq_none.1 hleast] at hgrowable; exact absurd hgrowable List.not_mem_nil
  | some x =>
    obtain ⟨hx1, hx2⟩ := honly x (leastBy?_mem hleast)
    simp only [State.growN, hleast, hx1, hx2]
    exact growN_of_growable_nil hdone m

/-- A granted group: its budget, the new registers reading zero, and the threads that asked for it go on with 1. -/
theorem grantOne_eq (hg : s.groups[g]? = some gr) (hlt : gr.budget < n) :
    s.grantOne g n = s.modGroup g fun x => { x with
      budget := n
      threads := x.threads.map fun th => match growWait n th with
        | some p => ((th.clearFrom gr.budget).setReg p.1 1).goOn (pcAfter th.pc 4)
        | none => th.clearFrom gr.budget } := by
  unfold State.grantOne State.modGroup
  rw [modify_congr_at hg]
  simp only [Group.grow, if_neg hlt.not_ge, Group.endGrow, List.map_map]
  rfl

/-! ## REGGROW and REGSHRINK -/

theorem budgetChecks_none {n d : BitVec 6} (a : Act) (s : State) (hn : LegalBudget n) (hu : Usable [outF d] gr a.set) :
    budgetChecks n d a gr s = none := by
  obtain ⟨hmod, hlow, hhigh⟩ := hn
  have hpend : firstPending gr (fun t => inThread t (regSpan d.toNat 1)) a.set = none := by
    simpa [ownRegs, outF] using firstPending_usable hu
  unfold budgetChecks
  rw [hu.fields]
  simp only [hmod, ne_eq, not_true_eq_false, false_or, show ¬(n.toNat < 8 ∨ 60 < n.toNat) by omega, if_false, hpend, Option.map_none]

/-- The threads of a REGGROW that has to wait. -/
def growBlocked (s : State) (g : Nat) (set : List Nat) (w : BitVec 1) (n d : BitVec 6) : State :=
  onThreads (idle s) g set fun _ th => th.block (.reggrow d.toNat n.toNat (w == 1))

theorem exec_reggrow {w : BitVec 1} {n d : BitVec 6} (h : Runs (.reggrow w n d) [outF d] s g set gr) (hn : LegalBudget n) :
    exec (.reggrow w n d) s = .next (if n.toNat ≤ gr.budget
      then onThreads (idle s) g set fun _ th => (th.setReg d.toNat 1).goOn (nextPc (.reggrow w n d) gr set)
      else (growBlocked s g set w n d).growAll) := by
  have hnodup := rising_nodup h.issuing.rising
  rw [show exec (.reggrow w n d) s = withIssue (.reggrow w n d) s _ from execReggrow.eq_def .., withIssue_eq _ s _ g set gr h.issuing h.wf,
    budgetChecks_none (theAct (.reggrow w n d) g set gr) (idle s) hn h.usable]
  simp only [each_eq (theAct (.reggrow w n d) g set gr) (idle s) (fun _ th => th.setReg d.toNat 1) hnodup,
    show (theAct (.reggrow w n d) g set gr).set = set from rfl, blockAll_eq (idle s) _ set _ hnodup]
  rfl

theorem exec_regshrink {n d : BitVec 6} (h : Runs (.regshrink n d) [outF d] s g set gr) (hn : LegalBudget n)
    (hfree : gr.lostPending n.toNat = none) :
    exec (.regshrink n d) s = .next (
      let on := onThreads (idle s) g set fun _ th => (th.setReg d.toNat 1).goOn (nextPc (.regshrink n d) gr set)
      if n.toNat < gr.budget then
        on.modGroup g fun x => { x with budget := n.toNat, threads := x.threads.map (Thread.clearFrom n.toNat) }
      else on) := by
  rw [show exec (.regshrink n d) s = withIssue (.regshrink n d) s _ from execRegshrink.eq_def .., withIssue_eq _ s _ g set gr h.issuing h.wf,
    budgetChecks_none (theAct (.regshrink n d) g set gr) (idle s) hn h.usable, hfree]
  simp only [each_eq (theAct (.regshrink n d) g set gr) (idle s) (fun _ th => th.setReg d.toNat 1) (rising_nodup h.issuing.rising)]
  rfl

theorem lostPending_eq_none (h : ∀ th ∈ gr.threads, ∀ r, n ≤ r → r < gr.budget → th.isPend r = false) : gr.lostPending n = none := by
  unfold Group.lostPending
  rw [List.findSome?_eq_none_iff]
  intro i hi
  have hbudget : n + i < gr.budget := by have := List.mem_range.1 hi; omega
  rw [if_neg]
  rw [List.any_eq_true]
  rintro ⟨th, hth, hpend⟩
  rw [h th hth (n + i) (Nat.le_add_right n i) hbudget] at hpend
  cases hpend

/-! ## What a blocked REGGROW asks for -/

theorem growWait_block (th : Thread) (d : Nat) (w : Bool) : growWait n (th.block (.reggrow d n w)) = some (d, w) := if_pos rfl

/-- A thread that goes on keeps nothing of its wait. -/
theorem goOn_clearFrom_block (th : Thread) (x : Wait) (b d : Nat) (v pc : Word) :
    (((th.block x).clearFrom b).setReg d v).goOn pc = ((th.clearFrom b).setReg d v).goOn pc := by
  unfold Thread.setReg
  split <;> rfl

/-- The room for a budget does not depend on what the threads of a group do. -/
theorem growRoom_onThreads (x : Group) (m : Nat) (ts : List Nat) (f : Nat → Thread → Thread) :
    (onThreads s g ts f).growRoom (onGroup ts f x) m = s.growRoom x m := by
  have huse : ∀ core lane, (onThreads s g ts f).laneUse core lane = s.laneUse core lane := by
    intro core lane
    unfold State.laneUse
    congr 1
    apply List.ext_getElem?
    intro j
    simp only [onThreads, List.getElem?_map, List.getElem?_modify]
    cases s.groups[j]? with
    | none => rfl
    | some y =>
      by_cases e : g = j
      · simp only [e, if_true, Option.map_some]; rfl
      · simp only [e, if_false, Option.map_some]; rfl
  unfold State.growRoom
  simp only [huse]
  rfl

theorem noneWait_asks (h : NoneWait s) {j : Nat} {x : Group} (hx : s.groups[j]? = some x) : x.asks = [] := by
  rw [asks_eq_nil]
  intro th hth d m w hstate
  have hblocked := h x (List.mem_of_getElem? hx) th hth
  rw [Thread.isBlocked, hstate] at hblocked
  cases hblocked

/-- Threads of an issue set block at a REGGROW, where no thread waited: what they ask for is all that their group asks for. -/
theorem asks_onGroup_block (h : ∀ th ∈ gr.threads, th.isBlocked = false) (d : Nat) (w : Bool) :
    ∀ q ∈ (onGroup set (fun _ th => th.block (.reggrow d n w)) gr).asks, q.1 = n := by
  intro q hq
  obtain ⟨th, hth, d', w', hstate, -⟩ := mem_asks.1 hq
  obtain ⟨u, hu, rfl⟩ := List.mem_mapIdx.1 hth
  split at hstate
  · cases hstate; rfl
  · have hblocked := h _ (List.getElem_mem hu)
    rw [Thread.isBlocked, hstate] at hblocked
    cases hblocked

theorem growBlocked_group (hg : s.groups[g]? = some gr) (w : BitVec 1) (n d : BitVec 6) :
    (growBlocked s g set w n d).groups[g]? = some (onGroup set (fun _ th => th.block (.reggrow d.toNat n.toNat (w == 1))) gr) :=
  onThreads_group (s := idle s) hg _ _

theorem growBlocked_others (h : NoneWait s) (w : BitVec 1) (n d : BitVec 6) {j : Nat} {x : Group}
    (hx : (growBlocked s g set w n d).groups[j]? = some x) (hj : j ≠ g) : x.asks = [] := by
  refine noneWait_asks h (j := j) ?_
  simpa [growBlocked, onThreads, List.getElem?_modify, hj.symm, idle] using hx

theorem growBlocked_waits (hg : s.groups[g]? = some gr) (h : NoneWait s) {w : BitVec 1} {n d : BitVec 6}
    (hroom : s.growRoom gr n.toNat = false) : (growBlocked s g set w n d).growAll = growBlocked s g set w n d := by
  refine growN_of_growable_nil (List.eq_nil_iff_forall_not_mem.2 fun x hx => ?_) _
  obtain ⟨hgroup, -, hmem, hgrow⟩ := mem_growable.1 hx
  by_cases e : x.1 = g
  · rw [e, growBlocked_group hg] at hgroup
    have hgr := Option.some.inj hgroup
    rw [← hgr] at hmem hgrow
    rw [asks_onGroup_block (h gr (List.mem_of_getElem? hg)) _ _ _ hmem] at hgrow
    exact Bool.false_ne_true (hroom.symm.trans ((growRoom_onThreads (s := idle s) gr n.toNat set _).symm.trans hgrow))
  · rw [growBlocked_others h w n d hgroup e] at hmem
    exact absurd hmem List.not_mem_nil

theorem growBlocked_granted (hg : s.groups[g]? = some gr) (h : NoneWait s) {w : BitVec 1} {n d : BitVec 6} (hlt : gr.budget < n.toNat)
    (hroom : s.growRoom gr n.toNat = true) (hactive : s.active gr = true) (hset : set ≠ []) (hin : ∀ t ∈ set, t < gr.threads.length) :
    (growBlocked s g set w n d).growAll = onThreads
      ((idle s).modGroup g fun x => { x with budget := n.toNat, threads := x.threads.map (Thread.clearFrom x.budget) }) g set
        fun _ th => (th.setReg d.toNat 1).goOn (pcAfter th.pc 4) := by
  have hfree := h gr (List.mem_of_getElem? hg)
  have hroom' := (growRoom_onThreads (s := idle s) (g := g) gr n.toNat set fun _ th => th.block (.reggrow d.toNat n.toNat (w == 1))).trans hroom
  have hask : (onGroup set (fun _ th => th.block (.reggrow d.toNat n.toNat (w == 1))) gr).asks ≠ [] := by
    obtain ⟨t, ht⟩ := List.exists_mem_of_ne_nil _ hset
    have hmem : (gr.threads[t]'(hin t ht)).block (.reggrow d.toNat n.toNat (w == 1)) ∈
        (onGroup set (fun _ th => th.block (.reggrow d.toNat n.toNat (w == 1))) gr).threads :=
      List.mem_mapIdx.2 ⟨t, hin t ht, if_pos (List.contains_iff_mem.2 ht)⟩
    exact List.ne_nil_of_mem ((mem_asks (q := (n.toNat, _))).2 ⟨_, hmem, _, _, rfl, rfl⟩)
  rw [growAll_single (growBlocked_group hg w n d) hactive hask (asks_onGroup_block hfree _ _) hroom'
    (fun j x hx hj => growBlocked_others h w n d hx hj), grantOne_eq (growBlocked_group hg w n d) hlt]
  unfold growBlocked onThreads State.modGroup
  simp only [modify_modify]
  refine congrArg (fun gs => ({ idle s with groups := gs } : State)) (modify_congr_at hg ?_)
  refine congrArg (fun ths => ({ gr with budget := n.toNat, threads := ths } : Group)) (List.ext_getElem? fun j => ?_)
  simp only [onGroup, List.getElem?_map, List.getElem?_mapIdx]
  cases hth : gr.threads[j]? with
  | none => rfl
  | some th =>
    simp only [Option.map_some]
    by_cases hj : j ∈ set
    · simp only [List.contains_iff_mem.2 hj, if_true, growWait_block, goOn_clearFrom_block]
      rfl
    · have hwait : growWait n.toNat th = none := growWait_eq_none.2 fun d w hstate => by
        have hblocked := hfree th (List.mem_of_getElem? hth)
        rw [Thread.isBlocked, hstate] at hblocked
        cases hblocked
      simp only [List.contains_iff_mem, hj, if_false, hwait]

end Budgets

/-- Settles O32: what a request does at once, what a blocked one asks for, and what a grant gives. -/
theorem registerBudgets : Obligations.RegisterBudgets := by
  constructor
  · intro s g set gr w n d h hn i blocked
    refine ⟨fun hle => ?_, fun hlt => ?_, fun hlt hwait hroom => ?_, fun hlt hwait hroom hactive hin => ?_⟩
    · rw [exec_reggrow h hn, if_pos hle]
    · rw [exec_reggrow h hn, if_neg hlt.not_ge]
      rfl
    · rw [exec_reggrow h hn, if_neg hlt.not_ge, growBlocked_waits h.issuing.group hwait hroom]
      rfl
    · rw [exec_reggrow h hn, if_neg hlt.not_ge,
        growBlocked_granted h.issuing.group hwait hlt hroom hactive h.issuing.nonempty hin]
  · intro s g set gr n d h hn hfree on
    exact exec_regshrink h hn (lostPending_eq_none hfree)

end Sys2Proof.Proofs

namespace Sys2Proof.Proofs

open Sys2Proof.Machine Sys2Proof.Safety Sys2Proof.Laws
open Host (Cell)

/-! # The events that end waits (spec/07_execution_model.md R111) -/

section WaitEvents

variable {s : State} {g : GKey} {i t : Nat} {gr : Group}

/-! ## The group and thread of an event -/

/-- Group number i bears the name g, and is gr. -/
structure Named (s : State) (g : GKey) (i : Nat) (gr : Group) : Prop where
  index : s.groupIdx? g = some i
  group : s.groups[i]? = some gr

theorem Named.key (h : Named s g i gr) : gr.key = g := by
  obtain ⟨hi, hkey, -⟩ := List.findIdx?_eq_some_iff_getElem.1 h.index
  have hgr : s.groups[i] = gr := by simpa [hi] using h.group
  simpa [hgr] using hkey

theorem Named.waiter (h : Named s g i gr) (hactive : s.active gr = true) (ht : t < gr.threads.length) :
    s.waiter g t = some (i, gr, gr.thread t) := by
  simp [State.waiter, h.index, h.group, hactive, ht]

/-! ## NAP, loads and stores (R308, R278, R284) -/

theorem exec_napExpire (h : Named s g i gr) (hactive : s.active gr = true) (ht : t < gr.threads.length) {n : Nat}
    (hstate : (gr.thread t).state = .blocked (.nap n)) (hn : n ≤ (gr.thread t).waited) :
    exec (.napExpire g t) s = .next (onThreads s i [t] fun _ th => th.goOn (pcAfter th.pc 4)) := by
  change Host.Outcome.next _ = _
  simp only [h.waiter hactive ht, hstate, hn, if_true, modThread_onThreads]

theorem exec_loadDataArrival (h : Named s g i gr) {n : Nat} {r : LoadRec} (hr : (gr.thread t).loads[n]? = some r)
    (harrived : r.arrived = false) (poisoned : Bool) :
    exec (.loadDataArrival g t n poisoned) s = .next (if poisoned then s.machineCheckAt i t 3 r.pc
      else (s.modGroup i fun x => { x with threads := x.threads.map (Thread.arrive r.pc r.cycle) }).settle) := by
  change Host.Outcome.next _ = _
  simp only [h.index, h.group, Option.bind_some, hr, harrived, Bool.false_eq_true, if_false]

theorem exec_storePerformed (h : Named s g i gr) :
    exec (.storePerformed g t) s = .next (onThreads s i [t] fun _ th => { th with stores := th.stores - 1 }).settle := by
  change Host.Outcome.next _ = _
  simp only [h.index, modThread_onThreads]

/-- A thread in which one access made at a PC in a cycle is outstanding, and writes one register. -/
theorem arrive_eq {th : Thread} {r : LoadRec} {x : Nat} {v : Word}
    (hmine : (th.loads.filter fun q => q.pc == r.pc && q.cycle == r.cycle && !q.arrived) = [r]) (hvals : r.vals = [(x, v)])
    (hexit : th.isExited = false) (hpend : th.isPend x = true) :
    ∃ ls, th.arrive r.pc r.cycle = { (th.setReg x v).writeLate x with loads := ls } := by
  unfold Thread.arrive
  simp only [hexit, hmine, List.flatMap_cons, List.flatMap_nil, hvals, List.append_nil, List.foldl_cons, List.foldl_nil, Thread.land, hpend,
    Bool.false_eq_true, if_true, if_false]
  exact ⟨_, rfl⟩

theorem reg_setReg_same (th : Thread) {x : Nat} (hx : x < 60) (hlen : th.regs.length = 60) (v : Word) : (th.setReg x v).reg x = v := by
  simp [Thread.setReg, Thread.reg, hx, List.getD_eq_getElem?_getD, hlen]

theorem setReg_late (th : Thread) (x : Nat) (v : Word) : (th.setReg x v).late = th.late := by
  unfold Thread.setReg; split <;> rfl

theorem setReg_regs_length (th : Thread) (x : Nat) (v : Word) : (th.setReg x v).regs.length = th.regs.length := by
  unfold Thread.setReg
  split
  · exact List.length_set
  · rfl

theorem setReg_pend (th : Thread) (x : Nat) (v : Word) : (th.setReg x v).pend = th.pend := by
  unfold Thread.setReg; split <;> rfl

theorem writeLate_none {th : Thread} {x : Nat} (h : ∀ p ∈ th.late, p.1 ≠ x) : th.writeLate x = th := by
  have hfind : (th.late.find? fun q => q.1 == x) = none := List.find?_eq_none.2 fun p hp => by simpa using h p hp
  unfold Thread.writeLate
  rw [hfind]

theorem writeLate_some {th : Thread} {x : Nat} {p : Nat × Word} (h : (th.late.find? fun q => q.1 == x) = some p) :
    th.writeLate x = { (th.setReg x p.2).setPend x false with late := th.late.filter fun y => y.1 != x } := by
  unfold Thread.writeLate
  rw [h]

theorem setPend_reg (th : Thread) (x y : Nat) (b : Bool) : (th.setPend x b).reg y = th.reg y := by
  unfold Thread.setPend; split <;> rfl

theorem isPend_setPend_same (th : Thread) {x : Nat} (hx : x < 60) (hlen : th.pend.length = 60) (b : Bool) :
    (th.setPend x b).isPend x = b := by
  simp [Thread.setPend, Thread.isPend, hx, List.getD_eq_getElem?_getD, hlen]

section Arrival

variable {th : Thread} {r : LoadRec} {x : Nat} {v : Word}
  (hmine : (th.loads.filter fun q => q.pc == r.pc && q.cycle == r.cycle && !q.arrived) = [r]) (hvals : r.vals = [(x, v)])
  (hx : x < 60) (hregs : th.regs.length = 60) (hexit : th.isExited = false) (hpend : th.isPend x = true)

include hmine hvals hx hregs hexit hpend

/-- R278. The value of a load stands in its register. -/
theorem arrive_reg (hlate : ∀ p ∈ th.late, p.1 ≠ x) : (th.arrive r.pc r.cycle).reg x = v := by
  obtain ⟨ls, he⟩ := arrive_eq hmine hvals hexit hpend
  rw [he, writeLate_none (by rw [setReg_late]; exact hlate)]
  exact reg_setReg_same th hx hregs v

/-- R184. A window write that has waited for the data stands in its register. -/
theorem arrive_late {p : Nat × Word} (hlate : (th.late.find? fun q => q.1 == x) = some p) :
    (th.arrive r.pc r.cycle).reg x = p.2 ∧ (th.pend.length = 60 → (th.arrive r.pc r.cycle).isPend x = false) := by
  obtain ⟨ls, he⟩ := arrive_eq hmine hvals hexit hpend
  rw [he, writeLate_some (by rw [setReg_late]; exact hlate)]
  constructor
  · exact (setPend_reg _ x x false).trans (reg_setReg_same _ hx (by rw [setReg_regs_length, hregs]) p.2)
  · intro hlen
    exact isPend_setPend_same _ hx (by rw [setReg_pend, setReg_pend, hlen]) false

end Arrival

/-! ## WAITW (R139, R295) -/

theorem exec_waitwWake (h : Named s g i gr) (hactive : s.active gr = true) (ht : t < gr.threads.length) {ins : Instr} {d : Nat}
    {a : DWord} {cmp : Word} (hstate : (gr.thread t).state = .blocked (.waitw ins d a cmp)) :
    exec (.waitwWake g t) s = .next (s.endWaitw i t gr ins d a.toNat cmp) := by
  change Host.Outcome.next _ = _
  simp only [h.waiter hactive ht, hstate]

theorem touchPlaces_group (hg : s.groups[i]? = some gr) (k : TKey) (ls : List (Loc × Nat)) :
    (s.touchPlaces k ls).groups[i]? = some gr := by
  rw [(touch_only s k ls []).rest]; exact hg

/-- A thread pays the flags that it owes. -/
theorem pay_eq {x : Group} (hx : s.groups[i]? = some x) (hk : x.key = gr.key) (ho : (x.thread t).owed = (gr.thread t).owed) :
    s.pay i t = flagged s i gr [t] fun _ => (gr.thread t).owed := by
  unfold State.pay
  rw [hx]
  simp only [ho]
  exact raise_eq s i t gr _ ⟨x, hx, hk⟩

/-- What a WAITW does at its word: it goes on waiting, or takes the word, unless it is poisoned or its block is refused. -/
theorem endWaitw_eq (hg : s.groups[i]? = some gr) {ins : Instr} {d : Nat} {a : DWord} {cmp : Word} (hr : Reaches s gr.key false (wordTarget a)) :
    let ls := s.places gr.key (wordTarget a) false
    let v := BitVec.ofNat 32 (bytesNat (s.readPlaces (gkeyTeam gr.key) ls))
    s.endWaitw i t gr ins d a.toNat cmp = if v = cmp then s
      else if s.mayPerform gr.key false ls then
        if (gr.thread t).tainted then s.machineCheck i t 3
        else onThreads (flagged (s.touchPlaces (gkeyTeam gr.key) ls) i gr [t] fun _ => (gr.thread t).owed) i [t]
          fun _ th => (th.setReg d v).goOn (pcAfter (gr.thread t).pc 4)
      else onThreads s i [t] fun _ th =>
        { th.block (.owner { (wordTarget a).waiting true (pcAfter (gr.thread t).pc 4) with retry := some ins }) with owed := (gr.thread t).owed } := by
  intro ls v
  obtain ⟨⟨l, hlow⟩, -⟩ := hr
  unfold State.endWaitw
  change (match s.lowCheck gr.key false (wordTarget a) with | .ok _ => _ | c => _) = _
  rw [hlow]
  simp only [State.waitOwner, modThread_onThreads, pay_eq (touchPlaces_group hg _ _) rfl rfl]
  rfl

/-! ## Words on their way (R305) -/

theorem exec_queueWordDeliver {n : Nat} {w : QWord} (hw : s.net[n]? = some w)
    (hfirst : ∀ x ∈ s.net.take n, x.src ≠ w.src ∨ x.ctx ≠ w.ctx ∨ x.node ≠ w.node ∨ x.l ≠ w.l) :
    let s1 := { s with net := s.net.eraseIdx n }
    exec (.queueWordDeliver n) s = .next (match s.receiver w with
      | none => (s1.window w.sender false w.node (w.l.toNat / 4096)).settle
      | some none => s1.modNode w.ctx w.node fun x => { x with early := x.early ++ [(w.l, w.value, w.sender)] }
      | some (some p) => match s.groupIdx? p.1 with
        | some i => (onThreads s1 i [p.2] fun _ th => { th with queue := th.queue ++ [(w.value, w.sender)] }).settle
        | none => s1) := by
  intro s1
  have hnone : ((s.net.take n).any fun x => x.src == w.src && x.ctx == w.ctx && x.node == w.node && x.l == w.l) = false := by
    rw [List.any_eq_false]
    intro x hx
    have := hfirst x hx
    simp only [Bool.and_eq_true, beq_iff_eq]
    tauto
  change Host.Outcome.next _ = _
  simp only [hw, hnone, Bool.false_eq_true, if_false, modThread_onThreads]
  rfl

/-! ## Budgets and accumulators (R122, R337) -/

theorem exec_reggrowGrant (h : ∃ x ∈ s.growable, x.2.1.key = g) : exec (.reggrowGrant g) s = .next s.growAll :=
  congrArg event (if_pos (List.any_eq_true.2 (by simpa using h)))

/-- The grant of the one budget that a machine asks for. -/
theorem growAll_one (hg : s.groups[i]? = some gr) (hactive : s.active gr = true) {n since : Nat} (hasks : gr.asks = [(n, since)])
    (hothers : ∀ j x, s.groups[j]? = some x → j ≠ i → x.asks = []) (hlt : gr.budget < n) (hroom : s.growRoom gr n = true) :
    s.growAll = s.modGroup i fun x => { x with
      budget := n
      threads := x.threads.map fun th => match growWait n th with
        | some p => ((th.clearFrom gr.budget).setReg p.1 1).goOn (pcAfter th.pc 4)
        | none => th.clearFrom gr.budget } :=
  (growAll_single hg hactive (by simp [hasks]) (by simp [hasks]) hroom hothers).trans (grantOne_eq hg hlt)

theorem exec_accallocGrant {y : AccAsk} {p : Nat × Nat} (h : s.accNext = some (y, p)) :
    exec (.accallocGrant y.key) s = .next (s.accGrant y p) := by
  change event _ = _
  simp only [h, beq_self_eq_true, if_true]
  rfl

/-! ## Stash windows (R288) -/

theorem thread_flagGroup_other {c : Nat} {ts : List Nat} {fl : Nat → Flags} {x : Group} {u : Nat} (h : u ∉ ts) :
    (flagGroup c ts fl x).thread u = x.thread u :=
  (thread_onGroup ts _ x u).trans (if_neg fun hu => h hu.1)

theorem flagged_group {x : Group} (hx : s.groups[i]? = some x) (ts : List Nat) (fl : Nat → Flags) :
    (flagged s i gr ts fl).groups[i]? = some (flagGroup s.cycle ts fl x) := by simp [flagged, hx]

/-- The waits of a set of threads end together: each pays what it owes, and goes on. -/
theorem endWait_eq {set : List Nat} (hn : set.Nodup) {x : Group} (hx : s.groups[i]? = some x) (hk : x.key = gr.key)
    (ho : ∀ u ∈ set, (x.thread u).owed = (gr.thread u).owed) :
    s.endWait i set = onThreads (flagged s i gr set fun u => (gr.thread u).owed) i set fun _ th => th.goOn (pcAfter th.pc 4) := by
  induction set generalizing s x with
  | nil => rw [onThreads_nil, flagged_nil]; rfl
  | cons t ts ih =>
    obtain ⟨hnt, hn'⟩ := List.nodup_cons.1 hn
    have hne : ∀ u ∈ ts, u ∉ [t] := fun u hu e => hnt (List.mem_singleton.1 e ▸ hu)
    have hfirst : (s.pay i t).modThread i t (fun th => th.goOn (pcAfter th.pc 4)) =
        onThreads (flagged s i gr [t] fun _ => (gr.thread t).owed) i [t] fun _ th => th.goOn (pcAfter th.pc 4) := by
      rw [pay_eq hx hk (ho t List.mem_cons_self), modThread_onThreads]
    have hgroup : (onThreads (flagged s i gr [t] fun _ => (gr.thread t).owed) i [t] fun _ th => th.goOn (pcAfter th.pc 4)).groups[i]? =
        some (onGroup [t] (fun _ th => th.goOn (pcAfter th.pc 4)) (flagGroup s.cycle [t] (fun _ => (gr.thread t).owed) x)) :=
      onThreads_group (flagged_group hx _ _) _ _
    have howed : ∀ u ∈ ts, ((onGroup [t] (fun _ th => th.goOn (pcAfter th.pc 4))
        (flagGroup s.cycle [t] (fun _ => (gr.thread t).owed) x)).thread u).owed = (gr.thread u).owed := by
      intro u hu
      rw [thread_onGroup, if_neg fun h => hne u hu h.1, thread_flagGroup_other (hne u hu)]
      exact ho u (List.mem_cons_of_mem _ hu)
    change ((s.pay i t).modThread i t fun th => th.goOn (pcAfter th.pc 4)).endWait i ts = _
    rw [hfirst, ih hn' hgroup hk howed, ← flagged_onThreads _ _ _ ts _ _ _ (by simpa using hnt),
      ← flagged_cons _ _ _ _ _ _ hnt, ← onThreads_cons _ _ _ _ _ hnt, modThread_onThreads]

/-- The window that the threads of a group flush, where they flush one. -/
theorem exec_stflushWritebackComplete (h : Named s g i gr) (hactive : s.active gr = true) (ht : t < gr.threads.length) {f : Nat}
    (hstate : (gr.thread t).state = .blocked (.stflush f)) (honly : ∀ th ∈ gr.threads, ∀ f', th.state = .blocked (.stflush f') → f' = f) :
    let set := (List.range gr.threads.length).filter fun u => (gr.thread u).state == .blocked (.stflush f)
    exec (.stflushWritebackComplete g) s = .next (onThreads (flagged (s.modTeam (gkeyTeam g) (unmapWindow f)) i gr set
      fun u => (gr.thread u).owed) i set fun _ th => th.goOn (pcAfter th.pc 4)).settle := by
  intro set
  have hmem : gr.thread t ∈ gr.threads := by
    simp [Group.thread, List.getD_eq_getElem?_getD, ht]
  change Host.Outcome.next _ = _
  simp only [h.index, h.group, hactive, if_true]
  split
  next f' hf' =>
    obtain ⟨th, hth, hflush⟩ := List.exists_of_findSome?_eq_some hf'
    split at hflush
    next f'' hf'' =>
      obtain rfl : f'' = f' := Option.some.inj hflush
      obtain rfl := honly th hth f'' hf''
      exact congrArg (fun s => Host.Outcome.next (State.settle s)) (endWait_eq (List.nodup_range.filter _) h.group rfl fun _ _ => rfl)
    next => cases hflush
  next hnone =>
    have hflush := List.findSome?_eq_none_iff.1 hnone _ hmem
    rw [hstate] at hflush
    cases hflush

theorem exec_stashWriteback (k : TKey) (line : Nat) : exec (.stashWriteback k line) s = .next (s.modTeam k fun t => { t with
    windows := t.windows.map fun w => { w with lines := w.lines.filter fun l => l.line != line } }) := rfl

end WaitEvents

end Sys2Proof.Proofs

namespace Sys2Proof.Proofs

open Sys2Proof.Machine Sys2Proof.Safety Sys2Proof.Laws
open Host (Cell)

/-! # The fill of a lookup table (spec/13_isa_rows_special.md R271)

## Updates of a team's tables alone -/

section Tables

variable {s : State} {k : TKey} {i t : Nat} {gr : Group} {tm : Team}

/-- The tables of a team updated; nothing else changes. -/
def onTables (s : State) (k : TKey) (f : List Table → List Table) : State := s.modTeam k fun tm => { tm with tables := f tm.tables }

theorem onTables_team? (f : List Table → List Table) (k' : TKey) :
    (onTables s k f).team? k' = (s.team? k').map fun tm => { tm with tables := if tm.key = k then f tm.tables else tm.tables } := by
  refine (modTeam_team? (fun tm => { tm with tables := f tm.tables }) fun _ => rfl).trans (congrArg (fun f => (s.team? k').map f) (funext fun tm => ?_))
  by_cases e : tm.key = k
  · simp [e]
  · simp [e]

theorem onTables_onTables (f h : List Table → List Table) : onTables (onTables s k f) k h = onTables s k fun ts => h (f ts) := by
  unfold onTables State.modTeam
  simp only [List.map_map]
  refine congrArg (fun ts => ({ s with teams := ts } : State)) (List.map_congr_left fun tm _ => ?_)
  by_cases e : tm.key = k
  · simp [e]
  · simp [e]

theorem onTables_congr {f h : List Table → List Table} (hf : ∀ tm ∈ s.teams, tm.key = k → f tm.tables = h tm.tables) :
    onTables s k f = onTables s k h := by
  unfold onTables State.modTeam
  refine congrArg (fun ts => ({ s with teams := ts } : State)) (List.map_congr_left fun tm htm => ?_)
  by_cases e : tm.key = k
  · simp [e, hf tm htm e]
  · simp [e]

/-- What a table holds decides what an update makes of it. -/
theorem onTables_modify_congr {ts : List Table} {b : Table} {table : Nat} {f h : Table → Table}
    (hts : ∀ tm ∈ s.teams, tm.key = k → tm.tables = ts) (hb : ts[table]? = some b) (hf : f b = h b) :
    onTables s k (fun ts => ts.modify table f) = onTables s k fun ts => ts.modify table h :=
  onTables_congr fun tm htm hkey => modify_congr_at (hts tm htm hkey ▸ hb) hf

/-- The tables of a team are no part of what its accesses reach. -/
theorem checkScratchIn_tables (c : Context) (tm : Team) (ts : List Table) (n : Nat) (w : Bool) (fuel a : Nat) :
    checkScratchIn c { tm with tables := ts } n w fuel a = checkScratchIn c tm n w fuel a := by
  induction fuel generalizing a with
  | zero => rfl
  | succ fuel ih =>
    simp only [checkScratchIn, ih]
    rfl

theorem checkScratch_tables (c : Context) (tm : Team) (ts : List Table) (a n : Nat) (w : Bool) :
    checkScratch c { tm with tables := ts } a n w = checkScratch c tm a n w := checkScratchIn_tables ..

theorem checkGlobal_tables (c : Context) (tm : Team) (ts : List Table) (x n al : Nat) (w : Bool) :
    checkGlobal c (some { tm with tables := ts }) x n al w = checkGlobal c (some tm) x n al w := by
  simp only [checkGlobal, checkScratch_tables]
  rfl

theorem onTables_checkPart (f : List Table → List Table) (k' : GKey) (x : Target) (p : Nat × Nat) :
    (onTables s k f).checkPart k' x false p = s.checkPart k' x false p := by
  unfold State.checkPart
  simp only [onTables_team?, show ∀ c, (onTables s k f).ctx c = s.ctx c from fun _ => rfl]
  cases s.team? (gkeyTeam k') with
  | none => rfl
  | some tm => simp only [Option.map_some, checkGlobal_tables, checkScratch_tables, Bool.false_eq_true, if_false]

theorem onTables_places (f : List Table → List Table) (k' : GKey) (x : Target) :
    (onTables s k f).places k' x false = s.places k' x false := by
  simp only [State.places, onTables_checkPart]

theorem onTables_mayPerform (f : List Table → List Table) (k' : GKey) (w : Bool) (ls : List (Loc × Nat)) :
    (onTables s k f).mayPerform k' w ls = s.mayPerform k' w ls := by
  unfold State.mayPerform
  simp only [onTables_team?]
  cases s.team? (gkeyTeam k') with
  | none => rfl
  | some tm => rfl

theorem onTables_readPlaces (f : List Table → List Table) (k' : TKey) (ls : List (Loc × Nat)) :
    (onTables s k f).readPlaces k' ls = s.readPlaces k' ls := by
  have hread : ∀ l n, (onTables s k f).readLoc k' l n = s.readLoc k' l n := by
    intro l n
    cases l with
    | glob p x line => rfl
    | scr a =>
      simp only [State.readLoc, onTables_team?]
      cases s.team? k' with
      | none => rfl
      | some tm => rfl
  simp only [State.readPlaces, hread]

theorem onTables_touchPlaces (f : List Table → List Table) (ls : List (Loc × Nat)) :
    (onTables s k f).touchPlaces k ls = onTables (s.touchPlaces k ls) k f := by
  have hone : ∀ (s : State) l, (onTables s k f).afterRead k l = onTables (s.afterRead k l) k f := by
    intro s l
    unfold State.afterRead
    split
    · unfold State.touchLine onTables State.modTeam
      simp only [List.map_map]
      refine congrArg (fun ts => ({ s with teams := ts } : State)) (List.map_congr_left fun tm _ => ?_)
      by_cases e : tm.key = k
      · simp [e]
      · simp [e]
    · rfl
  unfold State.touchPlaces
  induction ls generalizing s with
  | nil => rfl
  | cons l ls ih => rw [List.foldl_cons, List.foldl_cons, hone, ih]

/-- Reads leave the tables of every team of a name as they are. -/
theorem touchPlaces_tables (ls : List (Loc × Nat)) {ts : List Table} (h : ∀ tm ∈ s.teams, tm.key = k → tm.tables = ts) :
    ∀ tm ∈ (s.touchPlaces k ls).teams, tm.key = k → tm.tables = ts := by
  intro tm htm hk
  have hplain := (looks_view (view_touch s k ls)).teams
  obtain ⟨tm₀, htm₀, he⟩ := List.mem_map.1 (hplain ▸ List.mem_map_of_mem htm)
  have htables := congrArg Team.tables he
  have hkey := congrArg Team.key he
  exact htables.symm.trans (h tm₀ htm₀ (hkey.trans hk))

theorem touchPlaces_team? (h : s.team? k = some tm) (ls : List (Loc × Nat)) :
    ∃ tm', (s.touchPlaces k ls).team? k = some tm' ∧ tm'.key = k ∧ tm'.tables = tm.tables := by
  have hteam := looks_team (looks_view (view_touch s k ls)) k
  rw [h, Option.map_some, Option.map_eq_some_iff] at hteam
  obtain ⟨tm', htm', he⟩ := hteam
  have htables := congrArg Team.tables he
  exact ⟨tm', htm', team?_key htm', htables⟩

/-! ## Words that are read (R134) -/

/-- Word j of a table source. -/
def sourceWord (s : State) (k : GKey) (x j : Nat) : Word :=
  BitVec.ofNat 32 (bytesNat (s.readPlaces (gkeyTeam k) (s.places k (tableWord x j) false)))

/-- A table whose fill buffer has taken its first words for a TBLLD. -/
def partFilled (job : Option (GKey × Nat × Nat)) (ws : List Word) (b : Table) : Table :=
  { b with fill := ws ++ b.fill.drop ws.length, filler := job, filled := ws.length }

/-- The state in which the first words of a source have been read into a table for a TBLLD. -/
def filledTo (s : State) (k : GKey) (table x : Nat) (job : Option (GKey × Nat × Nat)) (n : Nat) : State :=
  onTables (s.touchPlaces (gkeyTeam k) ((List.range n).flatMap fun j => s.places k (tableWord x j) false)) (gkeyTeam k)
    fun ts => ts.modify table (partFilled job ((List.range n).map (sourceWord s k x)))

section Filling

variable {k : GKey} {table x : Nat} {job : Option (GKey × Nat × Nat)} {ts : List Table} {b : Table}

theorem partFilled_next {ws : List Word} (h : ws.length < b.fill.length) (w : Word) :
    { partFilled job ws b with fill := (partFilled job ws b).fill.set ws.length w, filled := ws.length + 1 } =
      partFilled job (ws ++ [w]) b := by
  have hfill : (ws ++ b.fill.drop ws.length).set ws.length w = (ws ++ [w]) ++ b.fill.drop (ws.length + 1) := by
    rw [List.set_append_right _ _ le_rfl, Nat.sub_self, List.drop_eq_getElem_cons h, List.set_cons_zero, List.append_assoc]
    rfl
  simp only [partFilled, hfill, List.length_append, List.length_singleton]

theorem filledTo_checkPart (n : Nat) (y : Target) (p : Nat × Nat) :
    (filledTo s k table x job n).checkPart k y false p = s.checkPart k y false p := by
  rw [filledTo, onTables_checkPart, ← checkPart_bare, (view_touch s _ _).eq, checkPart_bare]

theorem filledTo_places (n : Nat) (y : Target) : (filledTo s k table x job n).places k y false = s.places k y false := by
  rw [filledTo, onTables_places, (view_touch s _ _).places]

theorem filledTo_mayPerform (n : Nat) (ls : List (Loc × Nat)) :
    (filledTo s k table x job n).mayPerform k false ls = s.mayPerform k false ls := by
  rw [filledTo, onTables_mayPerform, (view_touch s _ _).mayPerform]

theorem filledTo_sourceWord (n j : Nat) : sourceWord (filledTo s k table x job n) k x j = sourceWord s k x j := by
  rw [sourceWord, filledTo_places, filledTo, onTables_readPlaces, (view_touch s _ _).readPlaces]
  rfl

theorem filledTo_groups (n : Nat) : (filledTo s k table x job n).groups = s.groups :=
  (congrArg State.groups (touch_only s _ _ []).rest :)

theorem filledTo_group (hg : s.groups[i]? = some gr) (n : Nat) : (filledTo s k table x job n).groups[i]? = some gr :=
  (congrArg (·[i]?) (filledTo_groups n)).trans hg

theorem filledTo_cycle (n : Nat) : (filledTo s k table x job n).cycle = s.cycle := (view_touch s _ _).cycle

/-- The table of a team in which the first words have been read. -/
theorem filledTo_team? (h : s.team? (gkeyTeam k) = some tm) (hb : tm.tables[table]? = some b) (n : Nat) :
    ∃ tm', (filledTo s k table x job n).team? (gkeyTeam k) = some tm' ∧
      tm'.tables.getD table {} = partFilled job ((List.range n).map (sourceWord s k x)) b := by
  obtain ⟨tm', htm', hkey, htables⟩ := touchPlaces_team? h ((List.range n).flatMap fun j => s.places k (tableWord x j) false)
  have hteam := onTables_team? (s := s.touchPlaces (gkeyTeam k) ((List.range n).flatMap fun j => s.places k (tableWord x j) false))
    (k := gkeyTeam k) (fun ts => ts.modify table (partFilled job ((List.range n).map (sourceWord s k x)))) (gkeyTeam k)
  rw [htm'] at hteam
  refine ⟨_, hteam, ?_⟩
  simp only [if_pos hkey, htables, List.getD_eq_getElem?_getD, List.getElem?_modify, hb, if_true]
  rfl

variable (hts : ∀ tm ∈ s.teams, tm.key = gkeyTeam k → tm.tables = ts) (hb : ts[table]? = some b) (hlen : b.fill.length = 256)

include hts hb hlen

theorem fillWord_filledTo {n : Nat} (hn : n < 256) :
    (filledTo s k table x job n).fillWord k table x n = filledTo s k table x job (n + 1) := by
  have hword : BitVec.ofNat 32 (bytesNat ((filledTo s k table x job n).readPlaces (gkeyTeam k) (s.places k (tableWord x n) false))) =
      sourceWord s k x n := by
    rw [← filledTo_sourceWord (table := table) (job := job) n n, sourceWord, filledTo_places]
  have hwords : ((List.range n).map (sourceWord s k x)).length = n := by simp
  unfold State.fillWord
  simp only [filledTo_places, hword]
  change onTables ((filledTo s k table x job n).touchPlaces _ _) (gkeyTeam k) (fun ts => ts.modify table fun b =>
    { b with fill := b.fill.set n (sourceWord s k x n), filled := n + 1 }) = _
  rw [filledTo, onTables_touchPlaces, onTables_onTables, ← touch_append, filledTo, List.range_succ, List.flatMap_append, List.map_append]
  simp only [List.flatMap_cons, List.flatMap_nil, List.append_nil, List.map_cons, List.map_nil]
  simp only [modify_modify]
  refine onTables_modify_congr (touchPlaces_tables _ hts) hb ?_
  have hnext := partFilled_next (job := job) (b := b) (ws := (List.range n).map (sourceWord s k x)) (by omega) (sourceWord s k x n)
  rwa [hwords] at hnext

/-- Where no word of the source is refused, all those that are left are read. -/
theorem fillWords_filledTo (hg : s.groups[i]? = some gr) (hk : gr.key = k) (hteam : s.team? (gkeyTeam k) = some tm) (htm : tm.tables = ts)
    (hreads : ∀ j, j < 256 → (∃ l, s.tableCheck k x j = .ok l) ∧ s.mayPerform k false (s.places k (tableWord x j) false) = true)
    (m n : Nat) (hmn : n + m = 256) :
    State.fillWords i t table x m (filledTo s k table x job n) = filledTo s k table x job 256 := by
  induction m generalizing n with
  | zero => obtain rfl : n = 256 := hmn; rfl
  | succ m ih =>
    subst hk htm
    obtain ⟨⟨l, hl⟩, hmay⟩ := hreads n (by omega)
    obtain ⟨tm', htm', htable⟩ := filledTo_team? (x := x) (job := job) hteam hb n
    have hcheck : (filledTo s gr.key table x job n).tableCheck gr.key x n = .ok l := (filledTo_checkPart n _ _).trans hl
    have hfilled : ((((filledTo s gr.key table x job n).team? (gkeyTeam gr.key)).map fun tm => (tm.tables.getD table {}).filled).getD 256) = n := by
      rw [htm', Option.map_some, Option.getD_some, htable]
      simp [partFilled]
    rw [State.fillWords, filledTo_group hg]
    simp only [hfilled, hcheck, filledTo_places, filledTo_mayPerform, hmay, if_true, show ¬256 ≤ n by omega, if_false]
    rw [fillWord_filledTo hts hb hlen (by omega)]
    exact ih (n + 1) (by omega)

end Filling

end Tables

end Sys2Proof.Proofs

namespace Sys2Proof.Proofs

open Sys2Proof.Machine Sys2Proof.Safety Sys2Proof.Laws
open Host (Cell)

/-! ## The TBLLDs of a team (R271) -/

section Fills

variable {s : State} {k : TKey} {g : GKey} {i t table at' : Nat} {gr : Group} {tm : Team} {a : Word} {b : Table}

theorem mem_pendingFills {x : Nat × Nat × Nat × Word × Nat} : x ∈ s.pendingFills k ↔
    ∃ gr, s.groups[x.1]? = some gr ∧ gkeyTeam gr.key = k ∧ x.2.1 < gr.threads.length ∧
      (gr.thread x.2.1).fills = some (x.2.2.1, x.2.2.2.1) ∧ (gr.thread x.2.1).issued = x.2.2.2.2 := by
  obtain ⟨i, t, table, a, at'⟩ := x
  simp only [State.pendingFills, List.mem_flatMap, List.mem_filter, List.mem_filterMap, List.mem_range, Option.map_eq_some_iff, Prod.exists,
    List.mem_zipIdx_iff_getElem?, beq_iff_eq]
  constructor
  · rintro ⟨gr, j, ⟨hg, hk⟩, u, hu, table', a', hfills, he⟩
    cases he
    exact ⟨gr, hg, hk, hu, hfills, rfl⟩
  · rintro ⟨gr, hg, hk, hu, hfills, hissued⟩
    exact ⟨gr, i, ⟨hg, hk⟩, t, hu, table, a, hfills, by rw [hissued]⟩

theorem fills_eq_some {th : Thread} : th.fills = some (table, a) ↔ th.state = .blocked (.tblld table a) := by
  unfold Thread.fills
  split
  next k a' h => simp [h]
  next h => exact ⟨fun hn => (nomatch hn), fun hn => absurd hn (h table a)⟩

theorem nextFill_none (h : ∀ x ∈ s.pendingFills k, x.2.2.1 ≠ table) : s.nextFill k table = none := by
  unfold State.nextFill
  rw [leastBy?_eq_none, List.filter_eq_nil_iff]
  simpa using h

/-- A group's TBLLDs end at no table for which its team has none. -/
theorem completeFill_none (h : ∀ gr, s.groups[i]? = some gr → ∀ x ∈ s.pendingFills (gkeyTeam gr.key), x.2.2.1 ≠ table) :
    s.completeFill i table = s := by
  unfold State.completeFill
  cases hg : s.groups[i]? with
  | none => rfl
  | some gr => simp only [nextFill_none (h gr hg)]

/-- A team has one TBLLD: that of thread t of group i. -/
structure OneFill (s : State) (i t table : Nat) (a : Word) (at' : Nat) (gr : Group) : Prop where
  group : s.groups[i]? = some gr
  only : s.pendingFills (gkeyTeam gr.key) = [(i, t, table, a, at')]

namespace OneFill

variable (h : OneFill s i t table a at' gr)

include h

theorem thread : t < gr.threads.length ∧ (gr.thread t).state = .blocked (.tblld table a) ∧ (gr.thread t).issued = at' := by
  obtain ⟨gr', hg, -, ht, hfills, hissued⟩ := mem_pendingFills.1 (h.only ▸ List.mem_singleton.2 rfl)
  obtain rfl : gr = gr' := Option.some.inj (h.group.symm.trans hg)
  exact ⟨ht, fills_eq_some.1 hfills, hissued⟩

theorem nextFill : s.nextFill (gkeyTeam gr.key) table = some (i, t, table, a, at') := by
  unfold State.nextFill
  rw [h.only]
  simp [leastBy?]

theorem sameWait : gr.sameWait t = [t] := by
  obtain ⟨ht, hstate, -⟩ := h.thread
  have honly : ∀ u ∈ List.range gr.threads.length, ((gr.thread u).state == (gr.thread t).state && (gr.thread u).pc == (gr.thread t).pc
      && (gr.thread u).issued == (gr.thread t).issued) = (u == t) := by
    intro u hu
    by_cases e : u = t
    · simp [e]
    · rw [beq_false_of_ne e]
      refine Bool.eq_false_iff.2 fun hsame => e ?_
      simp only [Bool.and_eq_true, beq_iff_eq] at hsame
      have hmem : (i, u, table, a, (gr.thread u).issued) ∈ s.pendingFills (gkeyTeam gr.key) :=
        mem_pendingFills.2 ⟨gr, h.group, rfl, List.mem_range.1 hu, fills_eq_some.2 (hsame.1.1.trans hstate), rfl⟩
      rw [h.only, List.mem_singleton] at hmem
      exact congrArg (fun x => x.2.1) hmem
  unfold Group.sameWait
  rw [List.filter_congr honly, List.filter_beq, List.count_eq_one_of_mem List.nodup_range (List.mem_range.2 ht)]
  rfl

/-- After its thread goes on, the team has no TBLLD. -/
theorem gone {s' : State} {fl : Nat → Flags} {f : Nat → Thread → Thread} (hgroups : s'.groups = s.groups)
    (hready : ∀ th, (f t th).fills = none) : (onThreads (flagged s' i gr [t] fl) i [t] f).pendingFills (gkeyTeam gr.key) = [] := by
  refine List.eq_nil_iff_forall_not_mem.2 fun x hx => ?_
  obtain ⟨gr', hg', hk, hu, hfills, -⟩ := mem_pendingFills.1 hx
  have hnot : ∀ y, s.groups[x.1]? = some y → gkeyTeam y.key = gkeyTeam gr.key → x.2.1 < y.threads.length →
      (y.thread x.2.1).fills = some (x.2.2.1, x.2.2.2.1) → x.1 = i ∧ x.2.1 = t := by
    intro y hy hyk hyu hyfills
    have hmem : (x.1, x.2.1, x.2.2.1, x.2.2.2.1, (y.thread x.2.1).issued) ∈ s.pendingFills (gkeyTeam gr.key) :=
      mem_pendingFills.2 ⟨y, hy, hyk, hyu, hyfills, rfl⟩
    rw [h.only, List.mem_singleton] at hmem
    exact ⟨congrArg Prod.fst hmem, congrArg (fun x => x.2.1) hmem⟩
  by_cases e : i = x.1
  · have hgroup : (onThreads (flagged s' i gr [t] fl) i [t] f).groups[i]? =
        some (onGroup [t] f (flagGroup s'.cycle [t] fl gr)) := onThreads_group (flagged_group (hgroups ▸ h.group) _ _) _ _
    rw [← e, hgroup] at hg'
    obtain rfl := Option.some.inj hg'
    rw [thread_onGroup] at hfills
    split at hfills
    next hin =>
      obtain rfl := List.mem_singleton.1 hin.1
      rw [hready] at hfills
      cases hfills
    next hout =>
      have hne : x.2.1 ∉ [t] := fun hin => hout ⟨hin, by simpa [onGroup] using hu⟩
      rw [thread_flagGroup_other hne] at hfills
      refine hne (List.mem_singleton.2 (hnot gr (e ▸ h.group) rfl ?_ hfills).2)
      simpa [onGroup, flagGroup, Group.raiseBits] using hu
  · exact e (hnot gr' (by simpa [onThreads, flagged, List.getElem?_modify, e, hgroups] using hg') hk hu hfills).1.symm

end OneFill

/-! ## The end of a fill (R271, R272) -/

/-- The buffers of a table exchange, and the thread of its TBLLD goes on. -/
def fillEnded (s : State) (i t table : Nat) (gr : Group) : State :=
  onThreads (flagged (onTables s (gkeyTeam gr.key) fun ts => ts.modify table Table.exchange) i gr [t] fun _ => (gr.thread t).owed) i [t]
    fun _ th => th.goOn (pcAfter th.pc 4)

theorem thread_flagGroup_pc (c : Nat) (ts : List Nat) (fl : Nat → Flags) (x : Group) (u : Nat) :
    ((flagGroup c ts fl x).thread u).pc = (x.thread u).pc := by
  refine (congrArg Thread.pc (thread_onGroup ts _ x u)).trans ?_
  split
  · rfl
  · rfl

/-- A filled table ends its TBLLD, unless a TBL has read it in the cycle. -/
theorem endFill_filled (hg : s.groups[i]? = some gr) (hsame : gr.sameWait t = [t]) (hteam : s.team? (gkeyTeam gr.key) = some tm)
    (hb : tm.tables.getD table {} = b) (hfilled : b.filled = 256) (hfiller : b.filler = some (gr.key, t, (gr.thread t).issued)) :
    s.endFill i gr t table = if b.readAt = some s.cycle then s else fillEnded s i t table gr := by
  unfold State.endFill
  simp only [hteam, Option.map_some, Option.getD_some, hb, hfilled, hfiller, true_and, hsame, ne_eq, ite_not]
  refine if_congr Iff.rfl rfl ?_
  have hgroup : (onTables s (gkeyTeam gr.key) fun ts => ts.modify table Table.exchange).groups[i]? = some gr := hg
  change ((onTables s (gkeyTeam gr.key) fun ts => ts.modify table Table.exchange).pay i t).goAll i [t] _ = _
  rw [goAll_eq _ _ _ _ (List.nodup_singleton t), pay_eq hgroup rfl rfl]
  refine onThreads_congr_at (flagged_group hgroup [t] _) fun u hu _ => ?_
  rw [thread_flagGroup_pc, List.mem_singleton.1 hu]

/-! ## The fill of a table -/

/-- A table whose fill buffer a TBLLD begins to fill, or goes on filling. -/
def fillBegun (job : Option (GKey × Nat × Nat)) (y : Table) : Table := if y.filler == job then y else { y with filler := job, filled := 0 }

/-- A table whose buffers are exchanged, the words of the fill buffer given. -/
def swapTable (ws : List Word) (y : Table) : Table :=
  { y with fill := y.live, live := ws, filler := none, filled := 0, bound := y.bound.map fun b => (b.1, !b.2) }

theorem exchange_partFilled {job : Option (GKey × Nat × Nat)} {ws : List Word} (h : b.fill.length = ws.length) :
    Table.exchange (partFilled job ws b) = swapTable ws b := by
  simp only [Table.exchange, partFilled, ← h, List.drop_length, List.append_nil, swapTable]

/-- The buffers of a table exchange, the words given, and the thread of its TBLLD goes on. -/
def swapEnded (s : State) (i t table : Nat) (gr : Group) (ws : List Word) : State :=
  onThreads (flagged (onTables s (gkeyTeam gr.key) fun ts => ts.modify table (swapTable ws)) i gr [t] fun _ => (gr.thread t).owed) i [t]
    fun _ th => th.goOn (pcAfter th.pc 4)

/-- The tables of a team are those of all teams of its name, one of them is b, and no open SLUT has bound its fill buffer. -/
structure Fillable (s : State) (k : TKey) (tm : Team) (table : Nat) (b : Table) : Prop where
  team : s.team? k = some tm
  all : ∀ tm' ∈ s.teams, tm'.key = k → tm'.tables = tm.tables
  table : tm.tables[table]? = some b
  free : ∀ x ∈ b.bound, x.2 = false

theorem fillEnded_full (hf : Fillable s (gkeyTeam gr.key) tm table b) : fillEnded s i t table gr = swapEnded s i t table gr b.fill := by
  unfold fillEnded swapEnded
  rw [onTables_modify_congr hf.all hf.table (f := Table.exchange) (h := swapTable b.fill) rfl]

/-- The swap after a whole source has been read. -/
theorem fillEnded_filledTo (hf : Fillable s (gkeyTeam gr.key) tm table b) (hlen : b.fill.length = 256) (job : Option (GKey × Nat × Nat))
    (x : Nat) : fillEnded (filledTo s gr.key table x job 256) i t table gr = swapEnded (s.touchPlaces (gkeyTeam gr.key)
      ((List.range 256).flatMap fun j => s.places gr.key (tableWord x j) false)) i t table gr ((List.range 256).map (sourceWord s gr.key x)) := by
  unfold fillEnded filledTo swapEnded
  rw [onTables_onTables]
  simp only [modify_modify]
  rw [onTables_modify_congr (touchPlaces_tables _ hf.all) hf.table (exchange_partFilled (by simp [hlen]))]

section Served

variable (h : OneFill s i t table a at' gr) (hactive : s.active gr = true) (hf : Fillable s (gkeyTeam gr.key) tm table b)

theorem Fillable.getD (hf : Fillable s k tm table b) : tm.tables.getD table {} = b := by
  rw [List.getD_eq_getElem?_getD, hf.table]
  rfl

theorem Fillable.unbound (hf : Fillable s k tm table b) : b.bound.any Prod.snd = false :=
  List.any_eq_false.2 fun x hx => by simp [hf.free x hx]

include h hactive hf

theorem serveFill_eq : s.serveFill (gkeyTeam gr.key) table 256 = State.fillWords i t table a.toNat 256
    (onTables s (gkeyTeam gr.key) fun ts => ts.modify table (fillBegun (some (gr.key, t, at')))) := by
  unfold State.serveFill
  simp only [hf.team, h.nextFill, h.group, hactive, hf.getD, hf.unbound, Bool.not_true, Bool.or_false, Bool.false_eq_true, if_false, Nat.min_self]
  rfl

theorem completeFill_eq : s.completeFill i table = (s.serveFill (gkeyTeam gr.key) table 256).endFill i gr t table := by
  unfold State.completeFill
  simp only [h.group, h.nextFill, hactive, hf.team, Option.any_some, hf.getD, hf.unbound, Bool.not_false, Bool.and_true, decide_true, if_true]

/-- A TBLLD of which every word has been read. -/
theorem completeFill_full (hfiller : b.filler = some (gr.key, t, at')) (hfilled : b.filled = 256) :
    s.completeFill i table = if b.readAt = some s.cycle then s else fillEnded s i t table gr := by
  have hsame : onTables s (gkeyTeam gr.key) (fun ts => ts.modify table (fillBegun (some (gr.key, t, at')))) = s := by
    refine modTeam_same _ _ _ fun tm' htm' hkey => ?_
    have htables : tm'.tables.modify table (fillBegun (some (gr.key, t, at'))) = tm'.tables.modify table id :=
      modify_congr_at (hf.all tm' htm' hkey ▸ hf.table) (if_pos (by rw [hfiller, beq_self_eq_true]))
    simp only [htables, List.modify_id]
  have hserve : s.serveFill (gkeyTeam gr.key) table 256 = s := by
    rw [serveFill_eq h hactive hf, hsame, State.fillWords, h.group]
    simp only [hf.team, Option.map_some, Option.getD_some, hf.getD, hfilled, le_refl, if_true]
  rw [completeFill_eq h hactive hf, hserve]
  exact endFill_filled h.group h.sameWait hf.team hf.getD hfilled (h.thread.2.2 ▸ hfiller)

/-- A TBLLD of which no word has been read yet, and none is refused. -/
theorem completeFill_empty (hfiller : b.filler = none) (hread : b.readAt ≠ some s.cycle) (hlen : b.fill.length = 256)
    (hreads : ∀ j, j < 256 → (∃ l, s.tableCheck gr.key a.toNat j = .ok l) ∧
      s.mayPerform gr.key false (s.places gr.key (tableWord a.toNat j) false) = true) :
    s.completeFill i table = fillEnded (filledTo s gr.key table a.toNat (some (gr.key, t, at')) 256) i t table gr := by
  have hbegun : onTables s (gkeyTeam gr.key) (fun ts => ts.modify table (fillBegun (some (gr.key, t, at')))) =
      filledTo s gr.key table a.toNat (some (gr.key, t, at')) 0 := by
    refine onTables_modify_congr hf.all hf.table ?_
    rw [fillBegun, hfiller]
    rfl
  obtain ⟨tm', hteam', htable'⟩ := filledTo_team? (x := a.toNat) (job := some (gr.key, t, at')) hf.team hf.table 256
  rw [completeFill_eq h hactive hf, serveFill_eq h hactive hf, hbegun,
    fillWords_filledTo hf.all hf.table hlen h.group rfl hf.team rfl hreads 256 0 rfl,
    endFill_filled (filledTo_group h.group 256) h.sameWait hteam' htable' (by simp [partFilled]) (by rw [h.thread.2.2]; rfl)]
  exact if_neg fun hnow => hread (hnow.trans (congrArg some (filledTo_cycle 256)))

end Served

/-! ## TBLLD_COMPLETE -/

/-- A fold that only one entry of a list acts in. -/
theorem foldl_eq_at {α β : Type} {f : β → α → β} {l : List α} (hn : l.Nodup) {x : α} (hx : x ∈ l) {y : β}
    (hbefore : ∀ z, z ≠ x → f y z = y) (hafter : ∀ z, z ≠ x → f (f y x) z = f y x) : l.foldl f y = f y x := by
  obtain ⟨l₁, l₂, rfl⟩ := List.append_of_mem hx
  have hfix : ∀ (l : List α) (y : β), (∀ z ∈ l, f y z = y) → l.foldl f y = y := by
    intro l
    induction l with
    | nil => exact fun _ _ => rfl
    | cons z l ih =>
      intro y hy
      rw [List.foldl_cons, hy z List.mem_cons_self]
      exact ih y fun w hw => hy w (List.mem_cons_of_mem _ hw)
  have hn₁ : ∀ z ∈ l₁, z ≠ x := fun z hz e => (List.nodup_append.1 hn).2.2 z hz x List.mem_cons_self e
  have hn₂ : ∀ z ∈ l₂, z ≠ x := fun z hz e => (List.nodup_cons.1 (List.nodup_append.1 hn).2.1).1 (e ▸ hz)
  rw [List.foldl_append, hfix l₁ y fun z hz => hbefore z (hn₁ z hz), List.foldl_cons]
  exact hfix l₂ _ fun z hz => hafter z (hn₂ z hz)

/-- With one TBLLD pending in the team, its table alone can be filled. -/
theorem exec_tblldComplete (hname : Named s g i gr) (h : OneFill s i t table a at' gr) (htable : table < 4) {s' : State}
    (hs : s.completeFill i table = s')
    (hend : s' = s ∨ ∃ x, x.groups = s.groups ∧ s' = fillEnded x i t table gr) :
    exec (.tblldComplete g) s = .next s' := by
  have hother : ∀ z, z ≠ table → ∀ gr', gr' = gr → ∀ x ∈ s.pendingFills (gkeyTeam gr'.key), x.2.2.1 ≠ z := by
    rintro z hz gr' rfl x hx
    rw [h.only, List.mem_singleton] at hx
    exact hx ▸ hz.symm
  change Host.Outcome.next _ = _
  rw [hname.index]
  refine congrArg Host.Outcome.next ((foldl_eq_at List.nodup_range (List.mem_range.2 htable) (fun z hz => ?_) fun z hz => ?_).trans hs)
  · exact completeFill_none fun gr' hg' => hother z hz gr' (Option.some.inj (h.group.symm.trans hg')).symm
  · rw [hs]
    refine completeFill_none fun gr' hg' => ?_
    rcases hend with rfl | ⟨x, hx, rfl⟩
    · exact hother z hz gr' (Option.some.inj (h.group.symm.trans hg')).symm
    · have hkey : gr'.key = gr.key := by
        have hgroup : (onTables x (gkeyTeam gr.key) fun ts => ts.modify table Table.exchange).groups[i]? = some gr := hx ▸ h.group
        rw [fillEnded, onThreads_group (flagged_group hgroup [t] _)] at hg'
        exact (congrArg Group.key (Option.some.inj hg').symm).trans rfl
      have hgone : (fillEnded x i t table gr).pendingFills (gkeyTeam gr.key) = [] := h.gone hx fun _ => rfl
      rw [hkey, hgone]
      exact fun _ hmem => absurd hmem List.not_mem_nil

end Fills

/-- Settles O58: each event by what it finds; a TBLLD by the words of its source, one after another. -/
theorem waitsEnd : Obligations.WaitsEnd := by
  refine ⟨?threads, fun s g h => exec_reggrowGrant h, ?budget, fun s y p h => exec_accallocGrant h, ?tables, ?words, ?windows,
    fun s k line => exec_stashWriteback k line⟩
  case threads =>
    intro s g i t gr hindex hgroup ht th0
    have h : Named s g i gr := ⟨hindex, hgroup⟩
    refine ⟨fun n hactive hstate hn => exec_napExpire h hactive ht hstate hn, fun n r hr harrived => ⟨?_, ?_, ?_⟩,
      exec_storePerformed h, ?_⟩
    · exact exec_loadDataArrival h hr harrived false
    · exact exec_loadDataArrival h hr harrived true
    · intro th x v hmine hvals hx hregs hexit hpend
      exact ⟨fun hlate => arrive_reg hmine hvals hx hregs hexit hpend hlate,
        fun p hlate => arrive_late hmine hvals hx hregs hexit hpend hlate⟩
    · intro ins d a cmp hactive hstate hreach ls v
      rw [exec_waitwWake h hactive ht hstate, endWaitw_eq hgroup hreach]
      refine ⟨fun hv => ?_, fun hv hmay htainted => ?_, fun hv hmay htainted => ?_, fun hv hmay => ?_⟩
      · rw [if_pos hv]
      · rw [if_neg hv, if_pos hmay, if_pos htainted]
      · rw [if_neg hv, if_pos hmay, if_neg (by rw [htainted]; exact Bool.false_ne_true)]
      · rw [if_neg hv, if_neg (by rw [hmay]; exact Bool.false_ne_true)]
  case budget =>
    intro s g i n since gr hindex hgroup hactive hasks hothers hlt hroom
    have hgrowable : (i, gr, n, since) ∈ s.growable := mem_growable.2 ⟨hgroup, hactive, by simp [hasks], hroom⟩
    rw [exec_reggrowGrant ⟨_, hgrowable, (Named.mk hindex hgroup).key⟩]
    exact congrArg Host.Outcome.next (growAll_one hgroup hactive hasks hothers hlt hroom)
  case tables =>
    intro s g i t table at' gr tm a hindex hgroup hactive hteam honly htable hlt hall b hbound swap ls
    obtain rfl : gr.key = g := (Named.mk hindex hgroup).key
    have h : OneFill s i t table a at' gr := ⟨hgroup, honly⟩
    have hb : tm.tables[table]? = some b := (List.getElem?_eq_getElem hlt).trans (congrArg some (List.getD_eq_getElem _ _ hlt).symm)
    have hf : Fillable s (gkeyTeam gr.key) tm table b := ⟨hteam, fun tm' htm' hkey => hall tm' htm' hkey ▸ rfl, hb, hbound⟩
    constructor
    · intro hfiller hfilled
      have hswap : swap s b.fill = fillEnded s i t table gr := (fillEnded_full hf).symm
      rw [exec_tblldComplete ⟨hindex, hgroup⟩ h htable (completeFill_full h hactive hf hfiller hfilled) ?_, hswap]
      split
      · exact .inl rfl
      · exact .inr ⟨s, rfl, rfl⟩
    · intro hfiller hread hlen hreads
      rw [exec_tblldComplete ⟨hindex, hgroup⟩ h htable (completeFill_empty h hactive hf hfiller hread hlen hreads)
        (.inr ⟨_, filledTo_groups 256, rfl⟩), fillEnded_filledTo hf hlen]
      rfl
  case words =>
    intro s n w hw hfirst s1
    rw [exec_queueWordDeliver hw hfirst]
    refine ⟨fun p i hr hi => ?_, fun hr => ?_, fun hr => ?_⟩
    · simp only [hr, hi]
      rfl
    · simp only [hr]
      rfl
    · simp only [hr]
      rfl
  case windows =>
    intro s g i f t gr hindex hgroup hactive ht hstate honly set
    exact exec_stflushWritebackComplete ⟨hindex, hgroup⟩ hactive ht hstate honly

end Sys2Proof.Proofs

namespace Sys2Proof.Proofs

open Sys2Proof.Machine Sys2Proof.Safety Sys2Proof.Laws

/-! # Loads (spec/14_isa_memory.md R275, R278, spec/08_memory_model.md R140, R277) -/

section Loads

variable {i : Instr} {F : LoadForm} {s : State} {g : Nat} {set : List Nat} {gr : Group}

/-! ## Threads of a set in two parts -/

theorem mem_others {ts who : List Nat} {t : Nat} : t ∈ others ts who ↔ t ∈ ts ∧ t ∉ who := by simp [others]

/-- An update of a whole set, of which a part is updated again, is one update of the part and one of the others. -/
theorem onThreads_part (s : State) (g : Nat) {set who : List Nat} (hw : ∀ t ∈ who, t ∈ set) (m : Thread → Thread)
    (f : Nat → Thread → Thread) :
    onThreads (onThreads s g set fun _ => m) g who f =
      onThreads (onThreads s g who fun t th => f t (m th)) g (others set who) fun _ => m := by
  have hsplit := onThreads_two s g set who hw m m
  simp only [ite_self] at hsplit
  rw [← hsplit, onThreads_comm _ _ (others set who) who _ _ fun t ht => (mem_others.1 ht).2, onThreads_onThreads]

/-! ## The threads of a load that perform, and those that wait -/

/-- The places of a load of thread t, and the threads that the owner states let load. -/
def loadPlaces (F : LoadForm) (s : State) (gr : Group) (t : Nat) : List (Loc × Nat) := s.places gr.key (F.target gr t) false
def loading (F : LoadForm) (s : State) (gr : Group) (set : List Nat) : List Nat :=
  set.filter fun t => s.mayPerform gr.key false (loadPlaces F s gr t)

/-- The threads that load, each from the state before, where the destination of the whole set is marked. -/
theorem foldl_doLoad (next : Word) {s' : State} (hv : SameView s' s) {ts : List Nat} (hn : ts.Nodup) :
    ts.foldl (fun s' t => (s'.doLoad g t (gkeyTeam gr.key) (loadPlaces F s gr t) F.signed F.regs).modThread g t fun th => th.goOn next) s' =
      onThreads (s'.touchPlaces (gkeyTeam gr.key) (ts.map (loadPlaces F s gr)).flatten) g ts fun t th =>
        Thread.goOn { th with loads := th.loads ++ [{ vals := loadVals F.signed F.regs (s.readPlaces (gkeyTeam gr.key) (loadPlaces F s gr t))
                                                      pc := th.pc, cycle := s.cycle }] } next := by
  refine foldl_reads ts s s' hv g (gkeyTeam gr.key) hn _ (loadPlaces F s gr) _ fun t _ s1 hv1 => ?_
  unfold State.doLoad
  rw [hv1.readPlaces, hv1.cycle]
  simp only [State.modThread, State.modGroup, modify_modify]
  congr 2
  funext x
  simp only [Group.modThread, modify_modify]

/-- A thread whose load waits, once its destination is marked. -/
def loadBlocks (F : LoadForm) (gr : Group) (next : Word) (t : Nat) (th : Thread) : Thread :=
  { th.block (.owner { (F.target gr t).waiting true next with regs := F.regs, signed := F.signed }) with
    owed := poisonFlag gr (inThread t (ownReads F.fields)) }

/-- R276, R277. A load whose checks pass: the threads that the owner states let perform load, and the others wait. -/
theorem loadRun_eq (h : Issuing s g set gr) (hu : Usable F.fields gr set) (hr : ∀ t ∈ set, Reaches s gr.key false (F.target gr t)) :
    loadRun F.glob F.signed F.size F.off F.base F.d (theAct i g set gr) gr (idle s) =
      onThreads (onThreads ((poisoned (idle s) g gr (loading F s gr set) F.fields).touchPlaces (gkeyTeam gr.key)
          ((loading F s gr set).map (loadPlaces F s gr)).flatten) g (loading F s gr set)
        fun t th => F.issued (s.readPlaces (gkeyTeam gr.key) (loadPlaces F s gr t)) s.cycle (nextPc i gr set) th)
        g (others set (loading F s gr set)) (F.waits gr (nextPc i gr set)) := by
  have hn := rising_nodup h.rising
  have hrun : (loading F s gr set).Nodup := hn.filter _
  have hsub : ∀ t ∈ loading F s gr set, t ∈ set := fun t ht => List.mem_of_mem_filter ht
  have hf : fieldsFault gr.budget [regF F.base (if F.glob then 2 else 1), outF F.d (max 1 (F.size / 4))] = none := hu.fields
  have htarget : ∀ t, ({ glob := F.glob, addr := formAddr F.glob (gr.thread t) F.base.toNat (F.off.toInt * F.size), size := F.size } : Target)
      = F.target gr t := fun _ => rfl
  have hrounds := rounds_ok (theAct i g set gr) (idle s) set
    (fun t => (pendChk gr (inThread t (ownRegs [regF F.base (if F.glob then 2 else 1), outF F.d (max 1 (F.size / 4))]))).and
      ((idle s).lowCheck gr.key false (F.target gr t)))
    (fun t => (idle s).highCheck gr.key false (F.target gr t)) [] id
    (fun t ht => and_ok ⟨_, pendChk_ok _ _ (hu.ready t ht)⟩ (hr t ht).1) (fun t ht => (hr t ht).2)
  unfold loadRun
  simp only [hf, htarget, show (theAct i g set gr).set = set from rfl, show (theAct i g set gr).g = g from rfl, hrounds]
  simp only [Bool.not_true, Bool.false_eq_true, if_false, id]
  have hmark := fun s0 : State => foldl_modThread set s0 g (fun _ th => F.regs.foldl (fun th r => th.setPend r true) th) hn
  refine (foldl_modThread (others set (loading F s gr set)) _ g (loadBlocks F gr (nextPc i gr set)) (others_nodup hn)).trans ?_
  change onThreads ((loading F s gr set).foldl (fun s' t => (s'.doLoad g t (gkeyTeam gr.key) (loadPlaces F s gr t) F.signed F.regs).modThread g t
    fun th => th.goOn (nextPc i gr set)) (set.foldl (fun s t => s.modThread g t fun th => F.regs.foldl (fun th r => th.setPend r true) th)
      ((idle s).raisePoison g gr (loading F s gr set) fun t => inThread t (ownReads F.fields)))) _ _ _ = _
  rw [raisePoison_eq _ _ _ _ _ hrun ⟨gr, idle_group h, rfl⟩, hmark,
    foldl_doLoad _ ((view_onThreads _ _ _ _).trans ((view_flagged _ _ _ _ _).trans (view_idle s))) hrun, touch_onThreads,
    onThreads_part _ _ hsub, onThreads_onThreads]
  simp only [LoadForm.issued, foldl_setPend_pc]
  rfl

end Loads

/-- Settles O14: `load_eq`, where every thread of the issue set performs. -/
theorem loadsLoad : Obligations.LoadsLoad := by
  intro i F s g set gr hF h hw hu hr hm
  exact (exec_load hF s).trans (load_eq i F s g set gr h hw hu hr hm)

end Sys2Proof.Proofs

namespace Sys2Proof.Proofs

open Sys2Proof.Machine Sys2Proof.Safety Sys2Proof.Laws

/-! # The checks of an access (spec/08_memory_model.md R129 to R131, R140, spec/14_isa_memory.md R275 to R277) -/

/-! ## What the check of a part finds (R129 to R131, R180, R211, log 101) -/

section Parts

variable {c : Context} {x size align a : Nat} {w : Bool}

theorem checkGlobal_noncanon (t : Option Team) (hx : canonical x = false) :
    checkGlobal c t x size align w = .fault tNoncanon (BitVec.ofNat 32 (x / 2 ^ 32)) := if_pos (by rw [hx]; rfl)

section Canonical

variable (hx : canonical x = true)
include hx

theorem checkGlobal_misaligned (t : Option Team) (ha : x % align ≠ 0) :
    checkGlobal c t x size align w = .fault tMisalign (BitVec.ofNat 32 x) := by
  simp [checkGlobal, hx, ha]

variable (ha : x % align = 0)
include ha

/-- R180. Outside the apertures, the mappings of the context decide. -/
theorem checkGlobal_mapped (t : Option Team) (hi : inApertures x = false) :
    checkGlobal c t x size align w = checkMapped c x w none := by simp [checkGlobal, hx, ha, hi]

/-- R130. An aperture that is not the team's own. -/
theorem checkGlobal_foreign {t : Option Team} (hi : inApertures x = true) (hown : ∀ tm, t = some tm → tm.inAperture x = false) :
    checkGlobal c t x size align w = .fault tPerm (BitVec.ofNat 32 x) := by
  cases t with
  | none => simp [checkGlobal, hx, ha, hi]
  | some tm => simp [checkGlobal, hx, ha, hi, hown tm rfl]

/-- R130. The team's own aperture is its scratch. -/
theorem checkGlobal_own {tm : Team} (hi : inApertures x = true) (hown : tm.inAperture x = true) :
    checkGlobal c (some tm) x size align w = checkScratch c tm (x - tm.aperture.toNat) size w := by
  simp [checkGlobal, hx, ha, hi, hown]

end Canonical

variable {t : Team} {v : StashWin}

theorem inAperture_iff : t.inAperture x = true ↔ t.aperture.toNat ≤ x ∧ x < t.aperture.toNat + 0x400000 := by
  simp [Team.inAperture]

theorem inAperture_eq_false (h : ¬(t.aperture.toNat ≤ x ∧ x < t.aperture.toNat + 0x400000)) : t.inAperture x = false :=
  Bool.eq_false_iff.2 fun e => h (inAperture_iff.1 e)

/-- R129. A part that passes the last block. -/
theorem checkScratch_beyond (h : t.owners.length * 4096 < a + size) :
    checkScratch c t a size w = .fault tPerm (BitVec.ofNat 32 (max a (t.owners.length * 4096))) := if_pos h

variable (h : a + size ≤ t.owners.length * 4096)
include h

/-- R129. A part in plain blocks, at any number of windows that may still be passed. -/
theorem checkScratchIn_unwindowed (hw : t.window? a = none) (fuel : Nat) : checkScratchIn c t size w (fuel + 1) a = .ok (.scr a) := by
  rw [checkScratchIn, if_neg (show ¬ t.bytes < a + size from Nat.not_lt.2 h), hw]

/-- R131. A part in a stash window, by the window's global address. -/
theorem checkScratch_window (hv : t.window? a = some v) : checkScratch c t a size w =
    if inApertures (v.target a) = false then checkMapped c (v.target a) w (some (a / 128))
    else if t.inAperture (v.target a) = true then checkScratchIn c t size w t.owners.length (v.target a - t.aperture.toNat)
    else .fault tPerm (BitVec.ofNat 32 (v.target a)) := by
  rw [checkScratch, checkScratchIn, if_neg (show ¬ t.bytes < a + size from Nat.not_lt.2 h), hv]
  simp

/-- R130, log 101. A window onto plain scratch of the team's own reaches that scratch. -/
theorem checkScratch_window_own (hsize : 0 < size) (hv : t.window? a = some v) (hi : inApertures (v.target a) = true)
    (hown : t.inAperture (v.target a) = true) (hplain : t.window? (v.target a - t.aperture.toNat) = none) :
    checkScratch c t a size w = checkScratch c t (v.target a - t.aperture.toNat) size w := by
  rw [checkScratch_window h hv, if_neg (by rw [hi]; exact Bool.false_ne_true.symm), if_pos hown]
  obtain ⟨n, hn⟩ : ∃ n, t.owners.length = n + 1 := Nat.exists_eq_succ_of_ne_zero (by omega)
  by_cases hb : t.owners.length * 4096 < v.target a - t.aperture.toNat + size
  · rw [hn, checkScratchIn, if_pos (show t.bytes < _ from hb), checkScratch_beyond hb]
    rfl
  · have hb' := Nat.not_lt.1 hb
    rw [checkScratch, checkScratchIn_unwindowed hb' hplain, hn, checkScratchIn_unwindowed hb' hplain]

end Parts

/-! ## Checks in rounds (R179, R276) -/

section Rounds

variable {i : Instr} {s : State} {g : Nat} {set : List Nat} {gr : Group} {t : Nat} {x : Chk} {lo hi : Nat → Chk}

theorem firstBad_congr {f f' : Nat → Chk} {ts : List Nat} (h : ∀ t ∈ ts, f t = f' t) : firstBad f ts = firstBad f' ts := by
  induction ts with
  | nil => rfl
  | cons t ts ih =>
    rw [firstBad, firstBad, h t List.mem_cons_self, ih fun u hu => h u (List.mem_cons_of_mem _ hu)]

/-- Threads that pass are skipped. -/
theorem firstBad_filter {f : Nat → Chk} {p : Nat → Bool} {ts : List Nat} (h : ∀ t ∈ ts, p t = false → ∃ l, f t = .ok l) :
    firstBad f ts = firstBad f (ts.filter p) := by
  induction ts with
  | nil => rfl
  | cons t ts ih =>
    have ih := ih fun u hu => h u (List.mem_cons_of_mem _ hu)
    cases hp : p t with
    | true => rw [List.filter_cons_of_pos hp, firstBad, firstBad, ih]
    | false =>
      obtain ⟨l, hl⟩ := h t List.mem_cons_self hp
      rw [List.filter_cons_of_neg (by simp [hp]), firstBad, hl]
      exact ih

theorem stopAt_theAct (who : List Nat) (s : State) : (theAct i g set gr).stopAt s who t x = stopped s g who t x := by
  cases x <;> rfl

/-- R276. The first check that fails among the lower parts stops the set, and nothing is performed. -/
theorem rounds_stop_low {who : List Nat} {low : List Nat} {lower : State → State} (h : firstBad lo set = some (t, x)) (rest : State) :
    (if (!((theAct i g set gr).rounds s who lo hi low lower).2) = true then ((theAct i g set gr).rounds s who lo hi low lower).1 else rest) =
      stopped s g who t x := by
  have h' : firstBad lo (theAct i g set gr).set = some (t, x) := h
  simp only [Act.rounds, h', ← stopAt_theAct (i := i) (set := set) (gr := gr)]
  rfl

/-- R276. The first check that fails among the upper parts stops the set, once the lower parts are performed. -/
theorem rounds_stop_high {who : List Nat} {low : List Nat} {lower : State → State} (hlo : ∀ t ∈ set, ∃ l, lo t = .ok l)
    (h : firstBad hi set = some (t, x)) (rest : State) :
    (if (!((theAct i g set gr).rounds s who lo hi low lower).2) = true then ((theAct i g set gr).rounds s who lo hi low lower).1 else rest) =
      (theAct i g set gr).stopAt (lower s) who t x low := by
  have hlo' : firstBad lo (theAct i g set gr).set = none := firstBad_none lo set hlo
  have h' : firstBad hi (theAct i g set gr).set = some (t, x) := h
  simp only [Act.rounds, hlo', h']
  rfl

/-- R217, R276. A thread in which nothing is pending meets the check of its access. -/
theorem and_of_ready {l : List (Nat × Nat)} (h : NonePending gr l) (c : Chk) : (pendChk gr l).and c = c := by
  rw [pendChk_ok gr l h]
  rfl

variable {n : BitVec 1} {gd : BitVec 6} {fs : List Field} {f : Nat → Chk}

theorem guards_clear (h : GuardUsable fs n gd gr set) : ∀ u ∈ set, (gr.thread u).isPend gd.toNat = false := by
  intro u hu
  by_cases hg : gd.toNat < 60
  · exact h.guards u hu (u, gd.toNat) (by simp [inThread, regSpan, hg])
  · simp [Thread.isPend, hg]

/-- R218. A guarded access fails first in the threads that it acts in. -/
theorem firstBad_accessChk (h : GuardUsable fs n gd gr set) :
    firstBad (accessChk gr gd fs (guarded gr n gd set) f) set = firstBad f (guarded gr n gd set) := by
  have hidle : ∀ t ∈ set, (((gr.thread t).reg gd.toNat != 0) != (n == 1)) = false →
      ∃ l, accessChk gr gd fs (guarded gr n gd set) f t = .ok l := fun t ht hp =>
    accessChk_pass gd fs _ f (h.guards t ht) fun hm => absurd ((List.mem_filter.1 hm).2.symm.trans hp) (by decide)
  rw [firstBad_filter hidle]
  refine firstBad_congr fun t ht => ?_
  change t ∈ guarded gr n gd set at ht
  have hc : (guarded gr n gd set).contains t = true := by simpa using ht
  unfold accessChk guardedCheck
  simp only [hc, if_true]
  rw [and_of_ready (h.guards t (guarded_sub t ht)), and_of_ready (h.ready t ht)]

end Rounds

/-! ## A check that fails (R178, R180, R276) -/

section Stops

variable {i : Instr} {s : State} {g : Nat} {set : List Nat} {gr : Group} {t : Nat} {x : Chk} (h : Issuing s g set gr) (hw : i.wf = true)
include h hw

theorem load_stop_low {F : LoadForm} (hF : loadForm i = some F) (hu : Usable F.fields gr set)
    (hbad : firstBad (fun t => s.lowCheck gr.key false (F.target gr t)) set = some (t, x)) :
    exec i s = .next (stopped (idle s) g set t x) := by
  rw [exec_load hF s, withIssue_eq i s _ g _ gr h hw]
  have hf : fieldsFault gr.budget [regF F.base (if F.glob then 2 else 1), outF F.d (max 1 (F.size / 4))] = none := hu.fields
  have hlo : firstBad (fun t => (pendChk gr (inThread t (ownRegs F.fields))).and ((idle s).lowCheck gr.key false (F.target gr t))) set =
      some (t, x) := (firstBad_congr fun t ht => and_of_ready (hu.ready t ht) _).trans hbad
  refine congrArg Host.Outcome.next ?_
  unfold loadRun
  simp only [hf]
  exact rounds_stop_low hlo _

theorem load_stop_high {F : LoadForm} (hF : loadForm i = some F) (hu : Usable F.fields gr set)
    (hlow : ∀ u ∈ set, ∃ l, s.lowCheck gr.key false (F.target gr u) = .ok l)
    (hbad : firstBad (fun t => s.highCheck gr.key false (F.target gr t)) set = some (t, x)) :
    exec i s = .next (stopped (idle s) g set t x) := by
  rw [exec_load hF s, withIssue_eq i s _ g _ gr h hw]
  have hf : fieldsFault gr.budget [regF F.base (if F.glob then 2 else 1), outF F.d (max 1 (F.size / 4))] = none := hu.fields
  have hlo : ∀ t ∈ set, ∃ l, (pendChk gr (inThread t (ownRegs F.fields))).and ((idle s).lowCheck gr.key false (F.target gr t)) = .ok l :=
    fun t ht => and_ok ⟨_, pendChk_ok _ _ (hu.ready t ht)⟩ (hlow t ht)
  refine congrArg Host.Outcome.next ?_
  unfold loadRun
  simp only [hf]
  exact (rounds_stop_high hlo hbad _).trans (stopAt_theAct set (idle s))

theorem store_stop_low {F : StoreForm} (hF : storeForm i = some F) (hu : GuardUsable F.fields F.n F.guard gr set)
    (hbad : firstBad (fun t => s.lowCheck gr.key true (F.target gr t)) (F.who gr set) = some (t, x)) :
    exec i s = .next (stopped (idle s) g (F.who gr set) t x) := by
  rw [exec_store hF s, withIssue_eq i s _ g _ gr h hw]
  have hf : fieldsFault gr.budget [regF F.base (if F.glob then 2 else 1), regF F.guard,
    { num := F.d.toNat, size := max 1 (F.size / 4), qr := F.size = 4 }] = none := hu.fields
  have hlo := (firstBad_accessChk (f := fun t => s.lowCheck gr.key true (F.target gr t)) hu).trans hbad
  have hset : guardedSet gr F.guard set (F.who gr set) = F.who gr set := guardedSet_clear _ (guards_clear hu)
  refine congrArg Host.Outcome.next ?_
  unfold storeRun
  simp only [hf]
  refine (rounds_stop_low hlo _).trans ?_
  exact congrArg (fun who => stopped (idle s) g who t x) hset

theorem atomic_stop {F : AtomicForm} (hF : atomicForm i = some F) (hu : GuardUsable F.fields F.n F.guard gr set)
    (hbad : firstBad (fun t => s.lowCheck gr.key true (F.target gr t)) (F.who gr set) = some (t, x)) :
    exec i s = .next (stopped (idle s) g (F.who gr set) t x) := by
  rw [exec_atomic hF s, withIssue_eq i s _ g _ gr h hw]
  have hf : fieldsFault gr.budget [regF F.base 2, regF F.guard, updF F.d (atomicSpan F.op)] = none := hu.fields
  have hlo := (firstBad_accessChk (f := fun t => s.lowCheck gr.key true (F.target gr t)) hu).trans hbad
  have hset : guardedSet gr F.guard set (F.who gr set) = F.who gr set := guardedSet_clear _ (guards_clear hu)
  refine congrArg Host.Outcome.next ?_
  unfold atomicRun
  simp only [hf]
  refine (rounds_stop_low hlo _).trans ?_
  exact congrArg (fun who => stopped (idle s) g who t x) hset

end Stops

/-! ## A store whose upper parts fail, or of which some lanes wait (R140, R276, R277, R279) -/

section Held

variable {i : Instr} {F : StoreForm} {s : State} {g : Nat} {set : List Nat} {gr : Group} {t : Nat} {x : Chk}

theorem others_nil (ts : List Nat) : others ts [] = ts := by simp [others]

theorem laneBytes_eq (t : Nat) : laneBytes F gr t = F.bytes gr t := by
  simp [laneBytes, StoreForm.bytes, show (F.target gr t).size = F.size from rfl]

/-- The places of thread t, the threads that the owner states let store, and those that wait. -/
def storePlaces (F : StoreForm) (s : State) (gr : Group) (t : Nat) : List (Loc × Nat) := s.places gr.key (F.target gr t) true
def storing (F : StoreForm) (s : State) (gr : Group) (set : List Nat) : List Nat :=
  (F.who gr set).filter fun t => s.mayPerform gr.key true (storePlaces F s gr t)
def stuck (F : StoreForm) (s : State) (gr : Group) (set : List Nat) : List Nat := others (F.who gr set) (storing F s gr set)

/-- The state in which the lower parts of the threads that store are performed. -/
def lowerStored (F : StoreForm) (s : State) (gr : Group) (set : List Nat) : State :=
  (idle s).lowerParts (gkeyTeam gr.key) (storePlaces F s gr) (fun t => (gr.thread t).higher) (laneBytes F gr)
    ((storing F s gr set).filter fun t => (F.target gr t).crosses)

/-- Lower parts change the bytes of lower parts. -/
theorem lowerParts_take (k : TKey) (ls : Nat → List (Loc × Nat)) (higher : Nat → List Span) (data : Nat → List Byte) (ts : List Nat)
    (s : State) : OnlyStores k (ts.map fun u => (ls u).take 1).flatten s (s.lowerParts k ls higher data ts) := by
  have honly := lowerParts_only k (fun u => (ls u).take 1) higher data (ts.map fun u => (ls u).take 1).flatten ts s
    fun t ht x hx => List.mem_flatten.2 ⟨_, List.mem_map_of_mem ht, hx⟩
  unfold State.lowerParts at honly ⊢
  simpa only [List.take_take, Nat.min_self] using honly

theorem lowerStored_only : OnlyStores (gkeyTeam gr.key)
    (((F.who gr set).filter fun u => (F.target gr u).crosses && s.mayPerform gr.key true (storePlaces F s gr u)).map fun u =>
      (storePlaces F s gr u).take 1).flatten (idle s) (lowerStored F s gr set) := by
  rw [← List.filter_filter]
  exact lowerParts_take ..

/-- The upper part that a thread of the issue set checks, if it stores. -/
def upperCheck (F : StoreForm) (s : State) (gr : Group) (set : List Nat) (t : Nat) : Chk :=
  if (F.who gr set).contains t then s.highCheck gr.key true (F.target gr t) else .ok (.scr 0)

theorem firstBad_upperCheck :
    firstBad (upperCheck F s gr set) set = firstBad (fun t => s.highCheck gr.key true (F.target gr t)) (F.who gr set) := by
  have hidle : ∀ t ∈ set, (((gr.thread t).reg F.guard.toNat != 0) != (F.n == 1)) = false → ∃ l, upperCheck F s gr set t = .ok l := by
    intro t _ hp
    refine ⟨_, if_neg fun hc => ?_⟩
    have hm : t ∈ guarded gr F.n F.guard set := List.mem_of_elem_eq_true hc
    exact absurd ((List.mem_filter.1 hm).2.symm.trans hp) (by decide)
  rw [firstBad_filter hidle]
  exact firstBad_congr fun t ht => if_pos (List.elem_eq_true_of_mem ht)

/-- R276. What a store does where the lower parts pass and an upper part fails. -/
theorem store_stop_high (h : Issuing s g set gr) (hw : i.wf = true) (hF : storeForm i = some F)
    (hu : GuardUsable F.fields F.n F.guard gr set) (hq : F.d ≠ 61)
    (hlow : ∀ u ∈ F.who gr set, ∃ l, s.lowCheck gr.key true (F.target gr u) = .ok l)
    (hbad : firstBad (fun t => s.highCheck gr.key true (F.target gr t)) (F.who gr set) = some (t, x)) :
    exec i s = .next ((theAct i g set gr).stopAt (lowerStored F s gr set) (F.who gr set) t x
      ((F.who gr set).filter fun u => (F.target gr u).crosses && s.mayPerform gr.key true (storePlaces F s gr u))) := by
  rw [exec_store hF s, withIssue_eq i s _ g _ gr h hw]
  have hf : fieldsFault gr.budget [regF F.base (if F.glob then 2 else 1), regF F.guard,
    { num := F.d.toNat, size := max 1 (F.size / 4), qr := F.size = 4 }] = none := hu.fields
  have hset : guardedSet gr F.guard set (F.who gr set) = F.who gr set := guardedSet_clear _ (guards_clear hu)
  have hlo := accessChk_ok (f := fun t => (idle s).lowCheck gr.key true (F.target gr t)) hu hlow
  refine congrArg Host.Outcome.next ?_
  rw [← List.filter_filter]
  unfold storeRun
  simp only [hf, if_neg hq, others_nil]
  refine (rounds_stop_high hlo (firstBad_upperCheck.trans hbad) _).trans ?_
  exact congrArg (fun who => (theAct i g set gr).stopAt (lowerStored F s gr set) who t x _) hset

/-! ### Some lanes wait -/

theorem mem_storing : t ∈ storing F s gr set ↔ t ∈ F.who gr set ∧ s.mayPerform gr.key true (storePlaces F s gr t) = true := List.mem_filter

theorem mem_stuck : t ∈ stuck F s gr set ↔ t ∈ F.who gr set ∧ t ∉ storing F s gr set := mem_others

theorem stuck_disjoint_others (h : t ∈ others set (F.who gr set)) : t ∉ stuck F s gr set :=
  fun hs => (mem_others.1 h).2 (mem_stuck.1 hs).1

theorem storing_free (h : t ∈ storing F s gr set) : t ∈ others set (stuck F s gr set) :=
  mem_others.2 ⟨guarded_sub t (mem_storing.1 h).1, fun hs => (mem_stuck.1 hs).2 h⟩

/-- Of the threads that do not wait, those that do not store are those without a true guard. -/
theorem others_free : others (others set (stuck F s gr set)) (storing F s gr set) = others set (F.who gr set) := by
  unfold others
  rw [List.filter_filter]
  refine List.filter_congr fun t _ => ?_
  have hsub : t ∈ storing F s gr set → t ∈ F.who gr set := fun h => (mem_storing.1 h).1
  by_cases hwho : t ∈ F.who gr set <;> by_cases hrun : t ∈ storing F s gr set <;> simp_all [mem_stuck]

theorem filter_contains_filter (ts : List Nat) (p : Nat → Bool) : ts.filter (fun t => (ts.filter p).contains t) = ts.filter p := by
  refine List.filter_congr fun t ht => ?_
  cases hp : p t <;> simp [ht, hp]

theorem storing_eq_filter : ∃ p : Nat → Bool, storing F s gr set = (others set (stuck F s gr set)).filter p := by
  refine ⟨fun t => (storing F s gr set).contains t, ?_⟩
  have hfree : (others set (stuck F s gr set)).filter (fun t => (storing F s gr set).contains t) =
      set.filter fun t => (storing F s gr set).contains t := by
    unfold others
    rw [List.filter_filter]
    refine List.filter_congr fun t _ => ?_
    by_cases hrun : t ∈ storing F s gr set <;> simp [hrun, mem_stuck]
  rw [hfree, storing, StoreForm.who, guarded, List.filter_filter, filter_contains_filter]

theorem others_others_storing :
    others (others set (stuck F s gr set)) (others (others set (stuck F s gr set)) (storing F s gr set)) = storing F s gr set := by
  obtain ⟨p, hp⟩ := storing_eq_filter (F := F) (s := s) (gr := gr) (set := set)
  rw [hp]
  exact others_others _ p

/-- The threads of a store before its lanes store: PZ is raised in those that store, those that the owner states hold wait, and
those without a true guard have gone on. -/
def heldStore (i : Instr) (F : StoreForm) (s w : State) (g : Nat) (set : List Nat) (gr : Group) : State :=
  onThreads (onThreads (poisoned w g gr (storing F s gr set) F.fields) g (stuck F s gr set) (F.waits gr (nextPc i gr set))) g
    (others set (F.who gr set)) fun _ th => th.goOn (nextPc i gr set)

/-- R276, R277. A store of data in registers whose checks pass: the lower parts, then the lanes that may store in turn. -/
theorem storeRun_held (h : Issuing s g set gr) (hu : GuardUsable F.fields F.n F.guard gr set) (hq : F.d ≠ 61)
    (hr : ∀ t ∈ F.who gr set, Reaches s gr.key true (F.target gr t)) :
    storeRun F.glob F.size F.off F.n F.guard F.base F.d (theAct i g set gr) gr (idle s) =
      (storing F s gr set).foldl (fun s' t =>
        ((s'.storeRest g t (gkeyTeam gr.key) (F.target gr t).crosses (storePlaces F s gr t)
          (laneAbove F (idle s) gr (storing F s gr set) t) (laneBytes F gr t)).overWrite
          g t (storePlaces F s gr t)).modThread g t fun th => th.goOn (nextPc i gr set))
        (heldStore i F s (lowerStored F s gr set) g set gr) := by
  have hn := rising_nodup h.rising
  have hf : fieldsFault gr.budget [regF F.base (if F.glob then 2 else 1), regF F.guard,
      { num := F.d.toNat, size := max 1 (F.size / 4), qr := F.size = 4 }] = none := hu.fields
  have hrounds := fun low lower => rounds_ok (theAct i g set gr) (idle s) (guardedSet gr F.guard set (F.who gr set))
    (accessChk gr F.guard F.fields (F.who gr set) fun t => (idle s).lowCheck gr.key true (F.target gr t))
    (fun t => if (F.who gr set).contains t then (idle s).highCheck gr.key true (F.target gr t) else .ok (.scr 0)) low lower
    (accessChk_ok hu fun t ht => (hr t ht).1) (fun t _ => by
      split
      next hw => exact (hr t (by simpa using hw)).2
      next => exact ⟨_, rfl⟩)
  have hgroup : (lowerStored F s gr set).groups[g]? = some gr := by rw [(lowerStored_only (F := F) (s := s) (set := set)).rest]; exact h.group
  have hbefore : (stuck F s gr set).foldl (fun s t => s.modThread g t (F.waits gr (nextPc i gr set) t))
      (((lowerStored F s gr set).raisePoison g gr (storing F s gr set) fun t => inThread t (ownReads F.fields)).goAll g
        (others set (F.who gr set)) (nextPc i gr set)) = heldStore i F s (lowerStored F s gr set) g set gr := by
    have hstuck : (stuck F s gr set).Nodup := others_nodup (guarded_nodup hn)
    have hstoring : (storing F s gr set).Nodup := (guarded_nodup hn).filter _
    rw [foldl_modThread _ _ _ _ hstuck, goAll_eq _ _ _ _ (others_nodup hn),
      raisePoison_eq _ _ _ _ _ hstoring ⟨gr, hgroup, rfl⟩, onThreads_comm _ _ _ _ _ _ fun t ht => stuck_disjoint_others ht]
    rfl
  have htarget : ∀ t, ({ glob := F.glob, addr := formAddr F.glob (gr.thread t) F.base.toNat ((F.off.toNat * F.size : Nat) : Int), size := F.size } : Target)
      = F.target gr t := fun _ => rfl
  have hwaits : F.waits gr (nextPc i gr set) = fun t th =>
      { th.block (.owner { (F.target gr t).waiting false (nextPc i gr set) with data := laneBytes F gr t }) with
        owed := poisonFlag gr (inThread t (ownReads F.fields)) } := by
    funext t th
    rw [laneBytes_eq]
    rfl
  rw [← hbefore, hwaits]
  unfold storeRun
  simp only [hf, show (theAct i g set gr).lowered = [] from rfl, show ∀ t, (([] : List Nat).contains t) = false from fun _ => rfl,
    Bool.false_eq_true, if_false, if_neg hq, htarget, show guarded gr F.n F.guard (theAct i g set gr).set = F.who gr set from rfl, others_nil]
  rw [show ([regF F.base (if F.glob = true then 2 else 1), regF F.guard,
      { num := F.d.toNat, size := max 1 (F.size / 4), qr := F.size = 4 }] : List Field) = F.fields from rfl,
    show (theAct i g set gr).set = set from rfl, hrounds]
  rfl

/-- Before the lanes store, the threads without a true guard have gone on, beside those that wait. -/
theorem heldStore_going {w : State} (hg : w.groups[g]? = some gr) :
    ∃ x, (heldStore i F s w g set gr).groups[g]? = some x ∧
      Going (onGroup (stuck F s gr set) (F.waits gr (nextPc i gr set)) gr) (others set (stuck F s gr set)) (storing F s gr set) x := by
  generalize hflags : (fun t => poisonFlag gr (inThread t (ownReads F.fields))) = fl
  generalize hwaiting : onGroup (stuck F s gr set) (F.waits gr (nextPc i gr set)) gr = waiting
  have hstart : Going waiting (others set (stuck F s gr set)) (others set (stuck F s gr set)) waiting :=
    ⟨fun _ _ => rfl, fun u hu hn => absurd hu hn, fun _ _ => rfl, fun _ => rfl⟩
  have hthreads : (onGroup (stuck F s gr set) (F.waits gr (nextPc i gr set)) (flagGroup w.cycle (storing F s gr set) fl gr)).threads =
      (onGroup (storing F s gr set) (fun u th => th.raiseBits w.cycle (fl u)) waiting).threads := by
    rw [← hwaiting, ← onGroup_comm _ _ _ _ fun t ht hs => (mem_stuck.1 hs).2 ht]
    rfl
  have hflagged := going_threads hthreads (going_keep hstart _ _ fun _ _ => ⟨rfl, rfl, rfl⟩)
  refine ⟨onGroup (others set (F.who gr set)) (fun _ th => th.goOn (nextPc i gr set))
    (onGroup (stuck F s gr set) (F.waits gr (nextPc i gr set)) (flagGroup w.cycle (storing F s gr set) fl gr)), ?_, ?_⟩
  · simp [heldStore, onThreads, poisoned, flagged, hg, hflags]
  · have hon := going_on hflagged (others (others set (stuck F s gr set)) (storing F s gr set)) (fun _ th => th.goOn (nextPc i gr set))
      (fun u hu => List.mem_of_mem_filter hu) fun _ _ => ⟨rfl, rfl⟩
    rwa [others_others_storing, others_free] at hon

theorem onlyStores_heldStore {k : TKey} {L : List (Loc × Nat)} {a b : State} (h : OnlyStores k L a b) :
    OnlyStores k L (heldStore i F s a g set gr) (heldStore i F s b g set gr) :=
  onlyStores_onThreads (onlyStores_onThreads (onlyStores_flagged h g gr _ _) g _ _) g _ _

/-- R140, R277. A store of which some lanes wait: of memory and scratch only the targets of the others change, and the threads are as
`storedThreads` says. -/
theorem storeRun_held_only (h : Issuing s g set gr) (hu : GuardUsable F.fields F.n F.guard gr set) (hq : F.d ≠ 61)
    (hr : ∀ t ∈ F.who gr set, Reaches s gr.key true (F.target gr t)) :
    OnlyStores (gkeyTeam gr.key) ((storing F s gr set).map (storePlaces F s gr)).flatten
      (onThreads (overwritten (heldStore i F s (idle s) g set gr) g (onGroup (stuck F s gr set) (F.waits gr (nextPc i gr set)) gr)
          (storePlaces F s gr) (others set (stuck F s gr set)) (storing F s gr set)) g (storing F s gr set) fun _ th =>
        Thread.goOn { th with stores := th.stores + 1 } (nextPc i gr set))
      (storeRun F.glob F.size F.off F.n F.guard F.base F.d (theAct i g set gr) gr (idle s)) := by
  generalize hL : ((storing F s gr set).map (storePlaces F s gr)).flatten = L
  have hin : ∀ t ∈ storing F s gr set, ∀ x ∈ storePlaces F s gr t, x ∈ L := fun t ht x hx =>
    hL ▸ List.mem_flatten.2 ⟨_, List.mem_map_of_mem ht, hx⟩
  have hlower : OnlyStores (gkeyTeam gr.key) L (idle s) (lowerStored F s gr set) :=
    lowerParts_only _ _ _ _ _ _ _ fun t ht => hin t (List.mem_of_mem_filter ht)
  have hgroup : (lowerStored F s gr set).groups[g]? = some gr := by rw [hlower.rest]; exact h.group
  have hrising : (storing F s gr set).Pairwise (· < ·) := (h.rising.filter _).filter _
  rw [storeRun_held h hu hq hr]
  refine onlyStores_trans (onlyStores_onThreads (onlyStores_overwritten _ _ _ _ (onlyStores_heldStore hlower)) g _ _) ?_
  exact foldl_stores _ (others set (stuck F s gr set)) (storing F s gr set) _ _ (looks_refl _) g (gkeyTeam gr.key) hrising
    (fun t ht => storing_free ht) (heldStore_going hgroup) _ L
    (fun _ th => Thread.goOn { th with stores := th.stores + 1 } (nextPc i gr set)) (fun _ _ => ⟨rfl, rfl⟩) (storePlaces F s gr)
    fun t ht s' x _ hx => storeLane_only s' g t (gkeyTeam gr.key) _ _ L _ _ (nextPc i gr set) (hin t ht) x hx

end Held

/-! ## An atomic that waits whole (R277) -/

section Whole

variable {i : Instr} {F : AtomicForm} {s : State} {g : Nat} {set : List Nat} {gr : Group}

/-- A lane of an atomic that waits, once its destination is marked. -/
def atomicBlocks (F : AtomicForm) (gr : Group) (who : List Nat) (next : Word) (t : Nat) (th : Thread) : Thread :=
  { th.block (.owner { (F.target gr t).waiting false next with
      regs := F.regs, data := storeBytes (gr.thread t) F.d.toNat (4 * F.span), atomic := some F.op, whole := who }) with
    owed := poisonFlag gr (inThread t (ownReads F.fields)) }

/-- R277. An atomic of which the owner states hold one lane: every lane waits, and the destination is marked in every thread. -/
theorem atomicRun_waits (h : Issuing s g set gr) (hu : GuardUsable F.fields F.n F.guard gr set)
    (hr : ∀ t ∈ F.who gr set, Reaches s gr.key true (F.target gr t))
    (hm : ∃ t ∈ F.who gr set, s.mayPerform gr.key true (s.places gr.key (F.target gr t) true) = false) :
    atomicRun F.op F.off F.n F.guard F.base F.d (theAct i g set gr) gr (idle s) =
      onThreads (onThreads (idle s) g (others set (F.who gr set)) fun _ th => F.marked (nextPc i gr set) th) g (F.who gr set)
        (F.waits gr (F.who gr set) (nextPc i gr set)) := by
  have hn := rising_nodup h.rising
  have hf : fieldsFault gr.budget [regF F.base 2, regF F.guard, updF F.d (atomicSpan F.op)] = none := hu.fields
  have hz : (if F.op = 30 ∨ F.op = 31 then 8 else 4) = F.size := rfl
  have ht : ∀ t, ({ glob := true, addr := formAddr true (gr.thread t) F.base.toNat ((F.off.toNat * F.size : Nat) : Int), size := F.size, align := F.size } : Target)
      = F.target gr t := fun _ => rfl
  obtain ⟨u, hu', hheld⟩ := hm
  have hall : ((F.who gr set).all fun u => (idle s).mayPerform gr.key true ((idle s).places gr.key (F.target gr u) true)) = false :=
    List.all_eq_false.2 ⟨u, hu', Bool.eq_false_iff.1 hheld⟩
  have hempty : (F.who gr set).isEmpty = false := List.isEmpty_eq_false_iff.2 (List.ne_nil_of_mem hu')
  have hwaits : F.waits gr (F.who gr set) (nextPc i gr set) = fun t th =>
      atomicBlocks F gr (F.who gr set) (nextPc i gr set) t (F.regs.foldl (fun th r => th.setPend r true) th) := rfl
  unfold atomicRun
  simp only [hf, hz, ht, show (theAct i g set gr).set = set from rfl, show (theAct i g set gr).g = g from rfl,
    show guarded gr F.n F.guard set = F.who gr set from rfl]
  rw [show ([regF F.base 2, regF F.guard, updF F.d (atomicSpan F.op)] : List Field) = F.fields from rfl, atomicRounds i F s g set gr hu hr,
    show regSpan F.d.toNat (F.size / 4) = F.regs from rfl]
  simp only [Bool.not_true, Bool.false_eq_true, if_false, hempty, hall]
  refine (foldl_modThread (F.who gr set) _ g (atomicBlocks F gr (F.who gr set) (nextPc i gr set)) (guarded_nodup hn)).trans ?_
  rw [show (theAct i g set gr).next = nextPc i gr set from rfl, atomicMarks_eq F _ g gr set _ hn, onThreads_onThreads, hwaits]

end Whole

/-- Settles O20: the check lemmas of a part, then an access that stops (`load_stop_low` and its like) and one of which the owner
states hold some lanes (`loadRun_eq`, `storeRun_held_only`, `atomicRun_waits`). -/
theorem addressChecks : Obligations.AddressChecks := by
  refine ⟨⟨?global, ?mapped, ?scratch⟩, ?loadLow, ?storeLow, ?atomicLow, ?loadHigh, ?storeHigh, ?loadWaits, ?storeWaits, ?atomicWaits⟩
  case global =>
    intro c t x size align w
    refine ⟨checkGlobal_noncanon t, fun hx ha => checkGlobal_misaligned hx t ha, fun hx ha hi => checkGlobal_mapped hx ha t hi,
      fun hx ha hi hown => checkGlobal_foreign hx ha hi fun tm ht => inAperture_eq_false (hown tm ht), ?_⟩
    intro tm hx ha hi ht hlo hhi
    rw [ht]
    exact checkGlobal_own hx ha hi (inAperture_iff.2 ⟨hlo, hhi⟩)
  case mapped =>
    intro c x w line
    refine ⟨fun hm => by rw [checkMapped, hm]; rfl, fun m hm => by rw [checkMapped, hm]; rfl⟩
  case scratch =>
    intro c t a size w
    refine ⟨checkScratch_beyond, fun h hw => checkScratchIn_unwindowed h hw _, ?_⟩
    intro v hsize h hv x own
    refine ⟨fun hi => ?_, fun hi hown => ?_, fun hi hown hplain => ?_⟩
    · rw [checkScratch_window h hv, show v.target a = x from rfl, if_pos hi]
    · rw [checkScratch_window h hv, show v.target a = x from rfl, if_neg (by rw [hi]; exact Bool.false_ne_true.symm),
        if_neg (by rw [inAperture_eq_false hown]; exact Bool.false_ne_true)]
      rfl
    · exact checkScratch_window_own h hsize hv hi (inAperture_iff.2 hown) hplain
  case loadLow => exact fun i F s g set gr t x hF h hw hu hbad => load_stop_low h hw hF hu hbad
  case storeLow => exact fun i F s g set gr t x hF h hw hu hbad => store_stop_low h hw hF hu hbad
  case atomicLow => exact fun i F s g set gr t x hF h hw hu hbad => atomic_stop h hw hF hu hbad
  case loadHigh => exact fun i F s g set gr t x hF h hw hu hlow hbad => load_stop_high h hw hF hu hlow hbad
  case storeHigh =>
    intro i F s g set gr t x hF h hw hu hq hlow hbad who places low
    refine ⟨lowerStored F s gr set, lowerStored_only, ?_⟩
    rw [store_stop_high h hw hF hu hq hlow hbad]
    cases x <;> rfl
  case loadWaits =>
    intro i F s g set gr hF h hw hu hr k places run
    rw [exec_load hF s, withIssue_eq i s _ g set gr h hw, loadRun_eq h hu hr]
    rfl
  case storeWaits =>
    intro i F s g set gr hF h hw hu hq hr next places run wait
    refine ⟨_, by rw [exec_store hF s, withIssue_eq i s _ g set gr h hw], ?_⟩
    have honly := storeRun_held_only (i := i) h hu hq hr
    unfold storedThreads
    rw [show others (others set wait) run = others set (F.who gr set) from others_free]
    exact honly
  case atomicWaits =>
    intro i F s g set gr hF h hw hu who next hr hm
    rw [exec_atomic hF s, withIssue_eq i s _ g set gr h hw, atomicRun_waits h hu hr hm]

end Sys2Proof.Proofs

namespace Sys2Proof.Proofs

open Sys2Proof.Machine Sys2Proof.Safety Sys2Proof.Laws

/-! # Deterministic reductions (spec/14_isa_memory.md R283, spec/08_memory_model.md R145) -/

section Reductions

variable {s : State} {g : Nat} {set : List Nat} {gr : Group} {kind : BitVec 4} {n : BitVec 1} {gd a d : BitVec 6} {node : Node}

/-- Whether the basket and the log have room does not depend on the instruction in issue. -/
theorem firstFull_idle (s : State) (gr : Group) (node : Node) (i : Nat) (ts : List Nat) :
    (idle s).firstFull gr node i ts = s.firstFull gr node i ts := by
  induction ts generalizing i with
  | nil => rfl
  | cons t ts ih => rw [State.firstFull, State.firstFull, ih]; rfl

/-- Table 8.14. The entry that a lane makes, of its operands as they are read from the encoded kind. -/
theorem dredEntry_eq (gr : Group) (kind : BitVec 4) (a d : BitVec 6) (t seq : Nat) (spilled : Option Nat) :
    ({ kind := BitVec.ofNat 4 kind.toNat, target := BitVec.ofNat 64 ((gr.thread t).pair a.toNat).toNat,
       operand := if dredSize kind = 8 then (gr.thread t).pair d.toNat else ((gr.thread t).reg d.toNat).zeroExtend 64, l := gr.l t,
       seq := BitVec.ofNat 32 seq, node := gr.key.node, team := gr.key.team, core := gr.core, spilled := spilled } : BasketEntry)
      = dredEntry gr kind a d t seq spilled := by
  have hsize : dredSize kind = 8 ↔ kind = 5 := by unfold dredSize; split <;> simp_all
  simp only [dredEntry, BitVec.ofNat_toNat, BitVec.setWidth_eq, hsize]

/-- R283. DRED where it may run, its lanes pass and the basket or the log has room: each lane makes its entry, and every thread
goes on. -/
theorem dredRun_eq (h : RunsIf (.dred kind n gd a d) (dredFields kind gd a d) n gd s g set gr) (hkind : gr.key.kind = .lanes)
    (hfeature : s.feature 9 = true) (hnode : s.node? gr.key.ctx gr.key.node = some node) (hdet : node.rec'.det = true)
    (hpass : ∀ t ∈ guarded gr n gd set, ∃ l, s.dredCheck gr node (dredSize kind) ((gr.thread t).pair a.toNat).toNat = .ok l)
    (hroom : s.firstFull gr node 0 (guarded gr n gd set) = none) :
    let act := theAct (.dred kind n gd a d) g set gr
    dredRun kind n gd a d act gr (idle s) = onThreads ((guarded gr n gd set).foldl (fun s t =>
        s.addEntry act gr kind.toNat (dredSize kind) ((gr.thread t).pair a.toNat).toNat d.toNat t)
      (poisoned (idle s) g gr (guarded gr n gd set) (dredFields kind gd a d))) g set fun _ th => th.goOn act.next := by
  intro act
  have hn := rising_nodup h.issuing.rising
  have hmay : ¬ (!(idle s).feature 9 || !node.rec'.det || gr.key.kind != .lanes) = true := by
    simp [show (idle s).feature 9 = true from hfeature, hdet, hkind]
  have hnode' : (idle s).node? gr.key.ctx gr.key.node = some node := hnode
  have hf : fieldsFault gr.budget [regF a 2, regF gd, regF d ((if kind = 5 then 8 else 4) / 4)] = none := h.usable.fields
  have hrounds := rounds_ok act (idle s) (guardedSet gr gd set (guarded gr n gd set))
    (accessChk gr gd (dredFields kind gd a d) (guarded gr n gd set) fun t =>
      (idle s).dredCheck gr node (dredSize kind) ((gr.thread t).pair a.toNat).toNat)
    (fun _ => .ok (.scr 0)) [] id (accessChk_ok h.usable hpass) fun _ _ => ⟨_, rfl⟩
  have hroom' : (idle s).firstFull gr node 0 (guarded gr n gd set) = none := (firstFull_idle ..).trans hroom
  unfold dredRun
  simp only [hnode', if_neg hmay, hf]
  change (let r := act.rounds (idle s) (guardedSet gr gd set (guarded gr n gd set)) (accessChk gr gd (dredFields kind gd a d)
    (guarded gr n gd set) fun t => (idle s).dredCheck gr node (dredSize kind) ((gr.thread t).pair a.toNat).toNat) fun _ => .ok (.scr 0)
    if (!r.2) = true then r.1 else _) = _
  simp only [hrounds, show act.set = set from rfl, show act.g = g from rfl, hroom', Bool.not_true, Bool.false_eq_true, if_false]
  rw [raisePoison_eq _ _ _ _ _ (guarded_nodup hn) ⟨gr, idle_group h.issuing, rfl⟩, goAll_eq _ _ _ _ hn]
  rfl

end Reductions

/-- Settles O18: `dredRun_eq`, and each entry is the one of Table 8.14 (`dredEntry_eq`). -/
theorem dredAppends : Obligations.DredAppends := by
  intro s g set gr kind n gd a d node h hkind hfeature hnode hdet who act entry hpass hroom
  refine ⟨?_, fun s1 t => ?_⟩
  · exact (withIssue_eq _ s _ g set gr h.issuing h.wf).trans (congrArg Host.Outcome.next (dredRun_eq h hkind hfeature hnode hdet hpass hroom))
  · intro seq e
    change State.modThread _ _ _ _ = _
    rw [modThread_onThreads]
    exact congrArg (fun e => onThreads (((s1.logWrite gr.key.ctx e).modCtx gr.key.ctx fun c => { c with basket := c.basket ++ [e] }).modNode
      gr.key.ctx gr.key.node fun n => { n with dredSeqs := bumpSeq (gr.l t) n.dredSeqs }) g [t] fun _ th => { th with stores := th.stores + 1 })
      (dredEntry_eq gr kind a d t seq _)

end Sys2Proof.Proofs

namespace Sys2Proof.Proofs

open Sys2Proof.Machine Sys2Proof.Safety Sys2Proof.Laws

/-! # Cairns (spec/08_memory_model.md R142 to R144, spec/15_isa_control_sync.md R296) -/

section Cairns

variable {s : State} {g : Nat} {set : List Nat} {gr : Group} {m : List Host.Cell} {a : Nat}

/-! ## SWAIT and SYNCSET -/

/-- Threads that each wait with PZ owed, or raise PZ and go on: PZ is raised for those that go on, and every thread is updated. -/
theorem foldl_block_or_raise (p : Nat → Prop) [DecidablePred p] (fl : Nat → Flags) (b go : Nat → Thread → Thread) (hn : set.Nodup)
    (h : ∃ x, s.groups[g]? = some x ∧ x.key = gr.key) :
    set.foldl (fun s t => if p t then s.modThread g t (b t) else (s.raise g t (fl t)).modThread g t (go t)) s =
      onThreads (flagged s g gr (set.filter fun t => ¬ p t) fl) g set fun t => if p t then b t else go t := by
  induction set generalizing s with
  | nil => rw [List.filter_nil, flagged_nil, onThreads_nil]; rfl
  | cons t ts ih =>
    obtain ⟨ht, hts⟩ := List.nodup_cons.1 hn
    have hout : ∀ u ∈ [t], u ∉ ts.filter fun t => ¬ p t := by simp [ht]
    obtain ⟨x, hx, hk⟩ := h
    by_cases hp : p t
    · rw [List.foldl_cons, if_pos hp, ih hts ⟨x.modThread t (b t), by simp [State.modThread, State.modGroup, hx], hk⟩,
        modThread_onThreads, ← flagged_onThreads _ _ _ _ _ _ _ hout, ← modThread_onThreads,
        List.filter_cons_of_neg (by simpa using hp), ← onThreads_cons _ _ _ _ _ ht, if_pos hp]
    · obtain ⟨y, hy, hyk⟩ := Laws.flagged_group _ g gr x [t] (fun _ => fl t) hx
      rw [List.foldl_cons, if_neg hp, raise_eq _ _ _ _ _ ⟨x, hx, hk⟩,
        ih hts ⟨y.modThread t (go t), by simp [State.modThread, State.modGroup, hy], hyk.trans hk⟩,
        modThread_onThreads, ← flagged_onThreads _ _ _ _ _ _ _ hout, ← modThread_onThreads,
        flagged_cons _ _ _ _ _ _ (hout t List.mem_cons_self),
        List.filter_cons_of_pos (by simpa using hp), ← onThreads_cons _ _ _ _ _ ht, if_neg hp]

theorem flagged_one (s : State) (g : Nat) (gr : Group) (t : Nat) (fl : Nat → Flags) :
    (flagged s g gr [t] fun _ => fl t) = flagged s g gr [t] fl := by
  have h := flagged_cons s g gr t [] fl (by simp)
  rwa [flagged_nil] at h

/-- The first thread of a set that meets two conditions, as the first of a selection from a selection. -/
theorem find?_of_filter_filter {p q : Nat → Bool} {t : Nat} {rest : List Nat} (h : (set.filter p).filter q = t :: rest) :
    (set.find? fun t => q t && p t) = some t := by
  rw [← List.head?_filter, ← List.filter_filter, h]; rfl

theorem find?_of_filter {p : Nat → Bool} {t : Nat} {rest : List Nat} (h : set.filter p = t :: rest) : set.find? p = some t := by
  rw [← List.head?_filter, h]; rfl

/-- The checks of an instruction whose threads name cairns that they may use find nothing. -/
theorem cairns_pass {fs : List Field} {r : Nat} (hu : Usable fs gr set)
    (hc : ∀ t ∈ set, s.cairnCheck (gkeyTeam gr.key) ((gr.thread t).reg r).toNat = none) :
    firstBad (sysChk gr fs ((idle s).cairnChk gr r)) set = none :=
  firstBad_none _ _ (sysChk_ok hu fun t ht => ⟨.scr 0, by
    unfold State.cairnChk; rw [show (idle s).cairnCheck _ _ = none from hc t ht]⟩)

/-! ## The words of a cairn -/

theorem cellsWrite_append (m : List Host.Cell) (a : Nat) (x y : List Byte) :
    cellsWrite m a (x ++ y) = cellsWrite (cellsWrite m a x) (a + x.length) y := by
  induction x generalizing m a with
  | nil => rfl
  | cons b bs ih => rw [List.cons_append, cellsWrite, cellsWrite, ih, List.length_cons, Nat.add_right_comm, Nat.add_assoc]

theorem cellsRead_congr {m m' : List Host.Cell} {a n : Nat} (h : ∀ b, a ≤ b → b < a + n → cellsGet m b = cellsGet m' b) :
    cellsRead m a n = cellsRead m' a n := by
  induction n generalizing a with
  | zero => rfl
  | succ n ih => rw [cellsRead, cellsRead, h a (by omega) (by omega), ih fun b h1 h2 => h b (by omega) (by omega)]

theorem bytesNat_natBytes4 (v : Nat) : bytesNat (natBytes 4 v) = v % 2 ^ 32 := by
  simp only [natBytes4, bytesNat, BitVec.toNat_ofNat]; omega

theorem bytesNat_lt (m : List Host.Cell) (a n : Nat) : bytesNat (cellsRead m a n) < 256 ^ n := by
  induction n generalizing a with
  | zero => simp [cellsRead, bytesNat]
  | succ n ih =>
    have hb : (cellsGet m a).toNat < 256 := (cellsGet m a).isLt
    have := ih (a + 1)
    rw [cellsRead, bytesNat, Nat.pow_succ]; omega

theorem cairnWord_lt (m : List Host.Cell) (a i : Nat) : cairnWord m a i < 2 ^ 32 := bytesNat_lt m _ 4

/-- A word of a cairn that has just been written. -/
theorem cairnWord_write_same (h : cellsWf m = true) (a i v : Nat) :
    cairnWord (cellsWrite m (a + 4 * i) (natBytes 4 v)) a i = v % 2 ^ 32 := by
  exact (congrArg bytesNat (read_write (natBytes 4 v) m (a + 4 * i) h)).trans (bytesNat_natBytes4 v)

/-- The other words of a cairn of which one has just been written. -/
theorem cairnWord_write_other (h : cellsWf m = true) (a v : Nat) {i j : Nat} (hij : i ≠ j) :
    cairnWord (cellsWrite m (a + 4 * i) (natBytes 4 v)) a j = cairnWord m a j := by
  refine congrArg bytesNat (cellsRead_congr fun b h1 h2 => ?_)
  rw [get_write _ _ _ _ h, if_neg (by simp only [natBytes4, List.length_cons, List.length_nil]; omega)]

theorem cairnPut_eq (m : List Host.Cell) (a count gen flags : Nat) :
    cairnPut m a count gen flags = cellsWrite (cellsWrite (cellsWrite m (a + 4 * 1) (natBytes 4 count)) (a + 4 * 2) (natBytes 4 gen))
      (a + 4 * 3) (natBytes 4 flags) := by
  rw [cairnPut, cellsWrite_append, cellsWrite_append]; rfl

/-- Table 8.3. The words of a cairn whose COUNT, GEN and FLAGS have just been written. -/
theorem cairnPut_words (h : cellsWf m = true) (a count gen flags : Nat) :
    cairnWord (cairnPut m a count gen flags) a 0 = cairnWord m a 0 ∧
    cairnWord (cairnPut m a count gen flags) a 1 = count % 2 ^ 32 ∧
    cairnWord (cairnPut m a count gen flags) a 2 = gen % 2 ^ 32 ∧
    cairnWord (cairnPut m a count gen flags) a 3 = flags % 2 ^ 32 := by
  have h1 := write_wf (natBytes 4 count) m (a + 4 * 1) h
  have h2 := write_wf (natBytes 4 gen) _ (a + 4 * 2) h1
  rw [cairnPut_eq, cairnWord_write_same h2]
  refine ⟨?_, ?_, ?_, rfl⟩
  · rw [cairnWord_write_other h2 _ _ (by decide), cairnWord_write_other h1 _ _ (by decide), cairnWord_write_other h _ _ (by decide)]
  · rw [cairnWord_write_other h2 _ _ (by decide), cairnWord_write_other h1 _ _ (by decide), cairnWord_write_same h]
  · rw [cairnWord_write_other h2 _ _ (by decide), cairnWord_write_same h1]

theorem get_cairnPut (h : cellsWf m = true) (count gen flags : Nat) {b : Nat} (hb : b < a ∨ a + 16 ≤ b) :
    cellsGet (cairnPut m a count gen flags) b = cellsGet m b := by
  rw [cairnPut, get_write _ _ _ _ h, if_neg (by simp only [natBytes4, List.length_append, List.length_cons, List.length_nil]; omega)]

theorem get_cairnSet (h : cellsWf m = true) (t : Nat) {b : Nat} (hb : b < a ∨ a + 16 ≤ b) :
    cellsGet (cairnSet m a t) b = cellsGet m b := by
  rw [cairnSet, get_cairnPut (write_wf _ _ _ h) _ _ _ hb, get_write _ _ _ _ h,
    if_neg (by simp only [natBytes4, List.length_cons, List.length_nil]; omega)]

/-! An arrival by Table 8.5: at a cairn with ERR set, below TARGET, at TARGET, and past it. -/

theorem cairnArrive_same (h : cairnErr m a = true) (n : Nat) : cairnArrive m a n = m := if_pos h
theorem cairnArrive_below {n : Nat} (h : cairnErr m a = false) (hs : cairnWord m a 1 + n < cairnWord m a 0) :
    cairnArrive m a n = cairnPut m a (cairnWord m a 1 + n) (cairnWord m a 2) (cairnWord m a 3) := by
  simp only [cairnArrive, h, Bool.false_eq_true, if_false, if_pos hs]
theorem cairnArrive_full {n : Nat} (h : cairnErr m a = false) (hs : cairnWord m a 1 + n = cairnWord m a 0) (hp : 0 < cairnWord m a 1 + n) :
    cairnArrive m a n = cairnPut m a 0 (cairnWord m a 2 + 1) (cairnWord m a 3) := by
  simp only [cairnArrive, h, Bool.false_eq_true, if_false, if_neg (show ¬ cairnWord m a 1 + n < cairnWord m a 0 by omega), if_pos (And.intro hs hp)]
theorem cairnArrive_over {n : Nat} (h : cairnErr m a = false) (hs : cairnWord m a 0 < cairnWord m a 1 + n ∨ cairnWord m a 0 = 0) :
    cairnArrive m a n = cairnPut m a 0 (cairnWord m a 2 + 1) 17 := by
  simp only [cairnArrive, h, Bool.false_eq_true, if_false, if_neg (show ¬ cairnWord m a 1 + n < cairnWord m a 0 by omega),
    if_neg (show ¬ (cairnWord m a 1 + n = cairnWord m a 0 ∧ 0 < cairnWord m a 1 + n) by omega)]

/-- An arrival leaves the cairn as it is or writes its COUNT, GEN and FLAGS. -/
theorem cairnArrive_cases (m : List Host.Cell) (a n : Nat) :
    cairnArrive m a n = m ∨ ∃ count gen flags, cairnArrive m a n = cairnPut m a count gen flags := by
  cases he : cairnErr m a with
  | true => exact .inl (cairnArrive_same he n)
  | false =>
    rcases Nat.lt_trichotomy (cairnWord m a 1 + n) (cairnWord m a 0) with hs | hs | hs
    · exact .inr ⟨_, _, _, cairnArrive_below he hs⟩
    · rcases Nat.eq_zero_or_pos (cairnWord m a 1 + n) with hz | hz
      · exact .inr ⟨_, _, _, cairnArrive_over he (.inr (by omega))⟩
      · exact .inr ⟨_, _, _, cairnArrive_full he hs hz⟩
    · exact .inr ⟨_, _, _, cairnArrive_over he (.inl hs)⟩

theorem cairnReport_same (h : cairnErr m a = true) (c : Nat) : cairnReport m a c = m := if_pos h
theorem cairnReport_put (h : cairnErr m a = false) (c : Nat) : cairnReport m a c = cairnPut m a 0 (cairnWord m a 2 + 1) (16 * c + 1) :=
  if_neg (by simp [h])

theorem get_cairnReport (h : cellsWf m = true) (c : Nat) {b : Nat} (hb : b < a ∨ a + 16 ≤ b) :
    cellsGet (cairnReport m a c) b = cellsGet m b := by
  cases he : cairnErr m a with
  | true => rw [cairnReport_same he]
  | false => rw [cairnReport_put he, get_cairnPut h _ _ _ hb]

theorem get_cairnArrive (h : cellsWf m = true) (n : Nat) {b : Nat} (hb : b < a ∨ a + 16 ≤ b) :
    cellsGet (cairnArrive m a n) b = cellsGet m b := by
  obtain he | ⟨count, gen, flags, he⟩ := cairnArrive_cases m a n
  · rw [he]
  · rw [he, get_cairnPut h _ _ _ hb]

/-- The FLAGS word that an error report of cause c writes reads as that report. -/
theorem cairn_reported {m' : List Host.Cell} {c : Nat} (hc : c < 16) (h : cairnWord m' a 3 = (16 * c + 1) % 2 ^ 32) :
    cairnErr m' a = true ∧ cairnCause m' a = c := by
  unfold cairnErr cairnCause
  rw [h, beq_iff_eq]
  omega

end Cairns

/-- Settles O27: `foldl_block_or_raise` for the threads of a SWAIT, and the words that `cairnPut_words` says a cairn then has. -/
theorem cairns : Obligations.Cairns := by
  refine ⟨?_, ?_, fun m a hm => ?_⟩
  · intro s g set gr a d h m x gen hc ends
    have hn := rising_nodup h.issuing.rising
    have hrun : exec (.swait a d) s = _ := bare_eq h.issuing h.wf h.usable.fields legal _ rfl
    simp only [show (theAct (Instr.swait a d) g set gr).set = set from rfl, show (theAct (Instr.swait a d) g set gr).g = g from rfl,
      cairns_pass h.usable hc, show (idle s).scratch (gkeyTeam gr.key) = m from rfl, BitVec.ofNat_toNat, BitVec.setWidth_eq] at hrun
    have hnone : (∀ u ∈ ends, (gr.thread u).tainted = false) →
        (set.find? fun t => (gr.thread t).tainted && (cairnErr m (x t).toNat || gen t != (gr.thread t).reg d.toNat)) = none := by
      intro hclean
      rw [← List.head?_filter, ← List.filter_filter, List.head?_eq_none_iff, List.filter_eq_nil_iff]
      exact fun u hu => by simp [hclean u hu]
    refine ⟨fun t rest hends => ?_, fun t rest hclean herr => ?_, fun hclean herr => ?_⟩
    · have hfind := find?_of_filter_filter hends
      simp only [x, gen] at hfind
      rw [hrun, hfind]
    · have hfind := find?_of_filter herr
      have hnone := hnone hclean
      simp only [x, gen] at hfind hnone
      rw [hrun, hnone, hfind]
      rfl
    · have herr : (set.find? fun t => cairnErr m (x t).toNat) = none := List.find?_eq_none.2 fun t ht => by simp [herr t ht]
      have hnone := hnone hclean
      simp only [x, gen] at herr hnone
      rw [hrun, hnone, herr]
      refine congrArg Host.Outcome.next ((foldl_block_or_raise (fun t => gen t = (gr.thread t).reg d.toNat)
        (sysPoison gr [regF a, updF d]) (fun t th => { th.block (.swait d.toNat (x t) ((gr.thread t).reg d.toNat)) with
          owed := sysPoison gr [regF a, updF d] t }) (fun t th => (th.setReg d.toNat (gen t)).goOn (nextPc (.swait a d) gr set)) hn
        ⟨gr, idle_group h.issuing, rfl⟩).trans ?_)
      exact congrArg (onThreads _ g set) (funext₂ fun t th => ite_apply ..)
  · intro s g t gr a d h k x hc
    refine (bare_eq h.issuing h.wf h.usable.fields legal _ rfl).trans (congrArg Host.Outcome.next ?_)
    simp only [show (theAct (Instr.syncset a d) g [t] gr).set = [t] from rfl, show (theAct (Instr.syncset a d) g [t] gr).g = g from rfl,
      cairns_pass h.usable (r := a.toNat) (set := [t]) (by simpa using hc), List.foldl_cons, List.foldl_nil, goAll_eq _ _ _ _ (List.nodup_singleton t)]
    rw [raise_eq _ _ _ gr _ ⟨gr, idle_group h.issuing, rfl⟩, flagged_one]
    rfl
  · refine ⟨fun t ht => ?_, fun n => ⟨?_, fun he => cairnArrive_same he n, fun he hs => ?_, fun he hs hp => ?_, fun he hs => ?_⟩,
      fun c he => cairnReport_same he c, fun c hc he => ?_,
      fun b hb => ⟨fun t => get_cairnSet hm t hb, fun n => get_cairnArrive hm n hb, fun c => get_cairnReport hm c hb⟩⟩
    · obtain ⟨h0, h1, h2, h3⟩ := cairnPut_words (write_wf (natBytes 4 t) m a hm) a 0 (cairnWord m a 2) 0
      exact ⟨h0.trans ((cairnWord_write_same hm a 0 t).trans (Nat.mod_eq_of_lt ht)), h1,
        h2.trans (Nat.mod_eq_of_lt (cairnWord_lt m a 2)), h3⟩
    · obtain he | ⟨count, gen, flags, he⟩ := cairnArrive_cases m a n
      · rw [he]
      · rw [he]; exact (cairnPut_words hm a count gen flags).1
    · obtain ⟨-, h1, h2, h3⟩ := cairnPut_words hm a (cairnWord m a 1 + n) (cairnWord m a 2) (cairnWord m a 3)
      have hlt := cairnWord_lt m a
      rw [cairnArrive_below he hs]
      exact ⟨h1.trans (Nat.mod_eq_of_lt (hs.trans (hlt 0))), h2.trans (Nat.mod_eq_of_lt (hlt 2)), h3.trans (Nat.mod_eq_of_lt (hlt 3))⟩
    · obtain ⟨-, h1, h2, h3⟩ := cairnPut_words hm a 0 (cairnWord m a 2 + 1) (cairnWord m a 3)
      rw [cairnArrive_full he hs hp]
      exact ⟨h1, h2, h3.trans (Nat.mod_eq_of_lt (cairnWord_lt m a 3))⟩
    · obtain ⟨-, h1, h2, h3⟩ := cairnPut_words hm a 0 (cairnWord m a 2 + 1) 17
      rw [cairnArrive_over he hs]
      exact ⟨h1, h2, cairn_reported (by decide) h3⟩
    · obtain ⟨h0, h1, h2, h3⟩ := cairnPut_words hm a 0 (cairnWord m a 2 + 1) (16 * c + 1)
      rw [cairnReport_put he]
      exact ⟨h0, h1, h2, cairn_reported hc h3⟩

end Sys2Proof.Proofs

namespace Sys2Proof.Proofs

open Sys2Proof.Machine Sys2Proof.Safety Sys2Proof.Laws

/-! # Flush, fence and table loads (spec/15_isa_control_sync.md R314, spec/08_memory_model.md R150, spec/13_isa_rows_special.md R271) -/

section Fences

variable {s : State} {g : Nat} {set : List Nat} {gr : Group}

/-- R146. Whether a basket entry is one of the threads of an issue set: no thread of a sweep or handler has any. -/
def entryOf (gr : Group) (set : List Nat) (e : BasketEntry) : Bool :=
  e.node == gr.key.node && (gr.key.kind == .lanes && (set.map gr.l).contains e.l)

theorem entryOf_eq (gr : Group) (set : List Nat) (e : BasketEntry) :
    (e.node == gr.key.node && (if gr.key.kind == .lanes then set.map gr.l else []).contains e.l) = entryOf gr set e := by
  unfold entryOf
  cases gr.key.kind == GroupKind.lanes
  · rfl
  · rfl

/-- R314. DFLUSH: the entries of its threads that no batch holds become one batch, and the group waits for theirs; it goes on where
they have none. -/
theorem exec_dflush (h : RunsOnce .dflush [] s g set gr) :
    exec .dflush s = .next
      (if ((s.node? gr.key.ctx gr.key.node).map fun n => n.rec'.det).getD false = true ∧
          ∃ e ∈ (s.ctx gr.key.ctx).basket, entryOf gr set e = true then
        let s1 := if ∃ e ∈ (s.ctx gr.key.ctx).basket, e.batch = none ∧ entryOf gr set e = true then
          ((idle s).makeBatch gr.key.ctx (entryOf gr set)).2 else idle s
        s1.modGroup g fun x => { x with fetch := some (.batch ((s1.ctx gr.key.ctx).batchesOf (entryOf gr set)) (nextPc .dflush gr set) set) }
       else onThreads (idle s) g set fun _ th => th.goOn (nextPc .dflush gr set)) := by
  refine (runsOnce_eq h legal _ rfl).trans (congrArg Host.Outcome.next ?_)
  rw [poisoned_same _ _ _ _ _ rfl]
  simp only [show (theAct Instr.dflush g set gr).set = set from rfl, show (theAct Instr.dflush g set gr).g = g from rfl, entryOf_eq,
    goAll_eq _ _ _ _ (rising_nodup h.issuing.rising), Bool.and_eq_true, List.any_eq_true, Option.isNone_iff_eq_none]
  rfl

/-- R150. XFENCE: the group waits for its remote commands; it goes on where it has none. -/
theorem exec_xfence (h : Runs .xfence [] s g set gr) (hfeature : s.feature 11 = true) :
    exec .xfence s = .next (if s.remoteCmds gr.key = [] then onThreads (idle s) g set fun _ th => th.goOn (nextPc .xfence gr set)
      else (idle s).modGroup g fun x => { x with fetch := some (.fence (s.remoteCmds gr.key) (nextPc .xfence gr set) set) }) := by
  refine (runs_eq h _ _ (by simp [show (idle s).feature 11 = true from hfeature])).trans (congrArg Host.Outcome.next ?_)
  rw [acting_nil _ _ _ _ rfl]
  simp only [show (idle s).remoteCmds gr.key = s.remoteCmds gr.key from rfl]
  cases s.remoteCmds gr.key with
  | nil => exact goAll_eq _ _ _ _ (rising_nodup h.issuing.rising)
  | cons id ids => rfl

/-- PZ owed by the threads of a set, thread by thread. -/
theorem owePoison_eq (s : State) (g : Nat) (gr : Group) (fs : List Field) (hn : set.Nodup) :
    (s.owePoison g gr set fun t => inThread t (ownReads fs)) = owing s g gr set fs := foldl_modThread _ _ _ _ hn

/-- R271. TBLLD of 1,024 bytes that its threads may read: they wait for their table, and owe the PZ of what the lead read. -/
theorem exec_tblld {k : BitVec 2} {a : BitVec 6} (h : RunsOnce (.tblld k a) [regF a] s g set gr) (hkind : gr.key.kind ≠ .handler)
    (hread : ∀ j, j < 256 → ∃ l, s.tableCheck gr.key (((gr.thread (leadOf set)).reg a.toNat).toNat / 4 * 4) j = .ok l) :
    exec (.tblld k a) s = .next (owing (onThreads (idle s) g set fun _ th => th.block (.tblld k.toNat
      (BitVec.ofNat 32 (((gr.thread (leadOf set)).reg a.toNat).toNat / 4 * 4)))) g gr [leadOf set] [regF a]) := by
  refine (bare_eq h.issuing h.wf h.usable.fields _ _ (by simp [inHandler, hkind])).trans (congrArg Host.Outcome.next ?_)
  have hpend : pendingIn gr (inThread (theAct (Instr.tblld k a) g set gr).lead (ownRegs [regF a])) = none :=
    pendingIn_none _ _ (h.usable.ready _ List.mem_cons_self)
  have hbad : firstBad ((idle s).tableCheck gr.key (((gr.thread (theAct (Instr.tblld k a) g set gr).lead).reg a.toNat).toNat / 4 * 4))
      (List.range 256) = none := firstBad_none _ _ fun j hj => hread j (List.mem_range.1 hj)
  simp only [hpend, hbad]
  exact (owePoison_eq _ _ _ _ (List.nodup_singleton _)).trans
    (congrArg (fun s => owing s g gr [leadOf set] [regF a]) (blockAll_eq _ _ _ _ (rising_nodup h.issuing.rising)))

end Fences

/-- Settles O33: `exec_dflush`, `exec_xfence` and `exec_tblld`. -/
theorem fencesHold : Obligations.FencesHold :=
  ⟨fun _ _ _ _ h => exec_dflush h, fun _ _ _ _ h hf => exec_xfence h hf, fun _ _ _ _ _ _ h hk hread => exec_tblld h hk hread⟩

end Sys2Proof.Proofs

namespace Sys2Proof.Proofs

open Sys2Proof.Machine Sys2Proof.Safety Sys2Proof.Laws

/-! # Handlers and limits on waits (spec/10_traps_reliability.md R182, R183, R189, spec/08_memory_model.md R140) -/

section Limits

variable {s : State} {g : GKey} {i t : Nat} {gr : Group}

/-- R182. With no handler on the core and one installed, the control core starts it on its next record. -/
theorem exec_handlerStart {core : Nat} {r : TrapRec} (hfree : ∀ x ∈ s.groups, x.key.kind = .handler → x.core ≠ core)
    (hnext : leastBy? trapOrder ((s.core core).trapQueue.filter s.deliverable) = some r)
    (hvec : (s.ctx r.group.ctx).trapVec.val.getLsbD 0 = true) :
    exec (.handlerStart core) s = .next { s.modCore core fun x => { x with trapQueue := x.trapQueue.erase r } with
      groups := s.groups ++ [handlerGroup r core s.cycle ((s.ctx r.group.ctx).trapVec.val &&& 0xFFFFFFFE)] } := by
  have hno : (s.groups.any fun g => g.key.kind == .handler && g.core == core) = false := by simpa using hfree
  change Host.Outcome.next _ = _
  simp only [hno, hnext, hvec, Bool.false_eq_true, if_false, if_true]
  rfl

/-- Whether a trap is fatal depends on the group's kind and the context's trap vector. -/
theorem trapIsFatal_congr {s' : State} {gr' : Group} (hkey : gr'.key = gr.key) (hctx : s'.ctx gr.key.ctx = s.ctx gr.key.ctx) :
    s'.trapIsFatal gr' = s.trapIsFatal gr := by
  unfold State.trapIsFatal; rw [hkey, hctx]

/-- R178. A trap that a handler takes, at a waiting instruction. -/
theorem trapWait_of_handled (hgroup : s.groups[i]? = some gr) (hfatal : s.trapIsFatal gr = false) (set : List Nat) (code : BitVec 8)
    (detail : Word) : s.trapWait i set t code detail = (s.modGroup i fun x => x.unblock set).takeTrap i set t code detail := by
  simp only [State.trapWait, hgroup, hfatal, Bool.false_eq_true, if_false]

theorem withdraw_groups (s : State) (gr : Group) (w : Wait) (set : List Nat) : (s.withdraw gr w set).groups = s.groups := by
  unfold State.withdraw; split <;> rfl

theorem withdraw_ctx (s : State) (gr : Group) (w : Wait) (set : List Nat) (c : Nat) : (s.withdraw gr w set).ctx c = s.ctx c := by
  unfold State.withdraw; split <;> rfl

/-- R189. The whistle of a wait that is not fatal: the arrival is withdrawn, the counts start again, and the threads trap unblocked. -/
theorem exec_whistleFire (h : Named s g i gr) (hactive : s.active gr = true) (hover : s.overdue gr Wait.counted = some t) {w : Wait}
    (hstate : (gr.thread t).state = .blocked w) (hfatal : s.trapIsFatal gr = false) :
    exec (.whistleFire g) s = .next ((((s.withdraw gr w (gr.waitSet Wait.counted t)).modGroup i Group.recount).modGroup i
      fun x => x.unblock (gr.waitSet Wait.counted t)).takeTrap i (gr.waitSet Wait.counted t) t (s.whistleTrap gr w).1 (s.whistleTrap gr w).2) := by
  have hwait : (gr.thread t).wait? = some w := by simp [Thread.wait?, hstate]
  have hgroup : ((s.withdraw gr w (gr.waitSet Wait.counted t)).modGroup i Group.recount).groups[i]? = some gr.recount := by
    simp [State.modGroup, withdraw_groups, h.group]
  have hhandled : ((s.withdraw gr w (gr.waitSet Wait.counted t)).modGroup i Group.recount).trapIsFatal gr.recount = false :=
    (trapIsFatal_congr rfl (withdraw_ctx s gr w _ _)).trans hfatal
  change Host.Outcome.next _ = _
  simp only [h.index, h.group, hactive, hover, hwait, hfatal, Option.getD_some, Bool.not_true, Bool.false_eq_true, if_false,
    trapWait_of_handled hgroup hhandled]

/-- Table 10.1. A wait at a barrier traps BAR_TIMEOUT, any other that the whistle counts WAIT_TIMEOUT. -/
theorem whistleTrap_code (s : State) (gr : Group) (w : Wait) : (s.whistleTrap gr w).1 =
    (match w with
      | .bart _ _ | .barwt _ _ | .barg => 0x20
      | _ => 0x21) := by
  cases w <;> rfl

/-- R140. A wait on an owner state that reaches its limit: the accesses are given up, and the threads trap OWNER_TIMEOUT. -/
theorem exec_ownerTimeout (h : Named s g i gr) (hactive : s.active gr = true) (hover : s.overdue gr Wait.ownerWait = some t) {x : Access}
    (hstate : (gr.thread t).state = .blocked (.owner x)) :
    exec (.ownerTimeout g) s = .next ((onThreads s i (gr.waitSet Wait.ownerWait t) fun _ th => th.dropAccess).trapWait i
      (gr.waitSet Wait.ownerWait t) t 0x08 (BitVec.ofNat 32 (s.waitAddr gr.key (.owner x)))) := by
  have hwait : (gr.thread t).wait? = some (.owner x) := by simp [Thread.wait?, hstate]
  have hn : (gr.waitSet Wait.ownerWait t).Nodup := List.nodup_range.filter _
  change Host.Outcome.next _ = _
  simp only [h.index, h.group, hactive, hover, hwait, Option.getD_some, Bool.not_true, Bool.false_eq_true, if_false,
    foldl_modThread _ _ _ (fun _ => Thread.dropAccess) hn]
  rfl

end Limits

/-- Settles O57: `exec_handlerStart`, `exec_whistleFire` and `exec_ownerTimeout`. -/
theorem trapsHandled : Obligations.TrapsHandled :=
  ⟨fun _ _ _ hfree hnext hvec => exec_handlerStart hfree hnext hvec,
    fun s _ _ _ gr w hi hg hactive hover hstate hfatal =>
      ⟨exec_whistleFire ⟨hi, hg⟩ hactive hover hstate hfatal, whistleTrap_code s gr w⟩,
    fun _ _ _ _ _ _ hi hg hactive hover hstate => exec_ownerTimeout ⟨hi, hg⟩ hactive hover hstate⟩

end Sys2Proof.Proofs

namespace Sys2Proof.Proofs

open Sys2Proof.Machine Sys2Proof.Safety Sys2Proof.Laws

/-! # Barriers and batches (spec/15_isa_control_sync.md R299, spec/08_memory_model.md R146, R147) -/

section Phases

variable {s : State} {k : TKey} {id : Nat} {tm : Team}

/-- R299. A complete phase whose team is on its cores and that no entry holds advances. -/
theorem exec_barrierPhaseComplete_done (hteam : s.team? k = some tm) (hsaved : tm.saved = false)
    (hcomplete : (tm.barriers.getD id {}).complete (s.lanes k) = true)
    (hes : s.phaseEntries k (tm.barriers.getD id {}) (s.lanes k) = []) :
    exec (.barrierPhaseComplete k id) s =
      .next (s.modTeam k fun t => { t with barriers := t.barriers.modify id Barrier.advance }).settle := by
  change Host.Outcome.next _ = _
  simp only [hteam, hsaved, hcomplete, hes, Bool.not_true, Bool.or_self, Bool.false_eq_true, if_false]

/-- R299 step 1. A complete phase that entries hold: those that no batch holds become one. -/
theorem exec_barrierPhaseComplete_entries (hteam : s.team? k = some tm) (hsaved : tm.saved = false)
    (hcomplete : (tm.barriers.getD id {}).complete (s.lanes k) = true)
    (hes : s.phaseEntries k (tm.barriers.getD id {}) (s.lanes k) ≠ []) :
    exec (.barrierPhaseComplete k id) s = .next
      (if ∃ e ∈ s.phaseEntries k (tm.barriers.getD id {}) (s.lanes k), e.batch = none then
        (s.makeBatch k.ctx (flushEntry k (tm.barriers.getD id {}) (s.lanes k))).2 else s) := by
  obtain ⟨e, es, hlist⟩ := List.exists_cons_of_ne_nil hes
  change Host.Outcome.next _ = _
  simp only [hteam, hsaved, hcomplete, hlist, Bool.not_true, Bool.or_self, Bool.false_eq_true, if_false, List.any_eq_true,
    Option.isNone_iff_eq_none]

/-! ## Batches in turn -/

/-- R147. A batch whose turn has come: no earlier batch holds an entry of a team that it holds an entry of. -/
theorem inTurn_iff (c : Context) (n : Nat) : c.inTurn n = true ↔
    ∀ e ∈ c.basket, e.batch = some n → ∀ f ∈ c.basket, ∀ m, f.batch = some m → m ∈ c.batches.takeWhile (· != n) →
      (e.node, e.team) ≠ (f.node, f.team) := by
  have hearly : ∀ f : BasketEntry, (f.batch.any fun m => decide (m ∈ c.batches.takeWhile (· != n))) = true ↔
      ∃ m, f.batch = some m ∧ m ∈ c.batches.takeWhile (· != n) := by
    intro f
    cases f.batch with
    | none => simp
    | some m => simp
  simp only [Context.inTurn, List.all_eq_true, List.mem_filter, beq_iff_eq, Bool.not_eq_true', List.contains_eq_mem, decide_eq_false_iff_not,
    List.mem_map, hearly]
  constructor
  · exact fun h e he hb f hf m hm hw heq => h e ⟨he, hb⟩ ⟨f, ⟨hf, m, hm, hw⟩, heq.symm⟩
  · rintro h e ⟨he, hb⟩ ⟨f, ⟨hf, m, hm, hw⟩, heq⟩
    exact h e he hb f hf m hm hw heq.symm

/-- R146. A batch in its turn: its entries are applied in their order, and it ends. -/
theorem exec_basketBatchApply {n : Nat} (hmem : n ∈ (s.ctx (n % 64)).batches) (hturn : (s.ctx (n % 64)).inTurn n = true) :
    exec (.basketBatchApply ⟨n, none⟩) s =
      .next (((batchEntries (s.ctx (n % 64)) n).foldl (fun s e => s.applyOne (n % 64) e) s).endBatch n) := by
  change Host.Outcome.next _ = _
  simp only [List.contains_eq_mem, hmem, hturn, decide_true, Bool.and_self, if_true, Option.bind_none]

/-- R193. A batch in its turn of which an entry's target is poisoned: a machine check, and nothing is applied. -/
theorem exec_basketBatchApply_poisoned {n j : Nat} {e : BasketEntry} (hmem : n ∈ (s.ctx (n % 64)).batches)
    (hturn : (s.ctx (n % 64)).inTurn n = true) (hj : (batchEntries (s.ctx (n % 64)) n)[j]? = some e) :
    exec (.basketBatchApply ⟨n, some j⟩) s = .next (s.checkNode (s.entryRecord (n % 64) e)) := by
  change Host.Outcome.next _ = _
  simp only [List.contains_eq_mem, hmem, hturn, decide_true, Bool.and_self, if_true, Option.bind_some, hj]

/-- R147. A batch whose turn has not come stays. -/
theorem exec_basketBatchApply_early {n : Nat} (hturn : (s.ctx (n % 64)).inTurn n = false) (p : Option Nat) :
    exec (.basketBatchApply ⟨n, p⟩) s = .next s := by
  change Host.Outcome.next _ = _
  simp only [hturn, Bool.and_false, Bool.false_eq_true, if_false]

end Phases

end Sys2Proof.Proofs

namespace Sys2Proof.Proofs

open Sys2Proof.Machine Sys2Proof.Safety Sys2Proof.Laws

/-! # Engine commands (spec/19_isa_engines_matrix.md R325, R331, spec/08_memory_model.md R140, R149) -/

section Commands

variable {s : State} {core n : Nat} {c : Cmd} {tm : Team}

/-- R140. A command that may start takes its blocks; a remote one seals its node first (R331). -/
theorem exec_engineCommandStart (hq : (s.core core).queue[n]? = some c) (hteam : s.team? c.team = some tm) (hstart : s.mayStart c = true) :
    let s1 := if c.op = 5 ∨ c.op = 6 then s.sealNow c.team.ctx c.team.node 1 else s
    exec (.engineCommandStart core n) s = .next
      (((s1.modTeam c.team fun t => { t with owners := t.owners.mapIdx (takeBlock (c.blocks tm)) }).setCmd core n
        { c with running := true, reads := (c.blocks tm).1, writes := (c.blocks tm).2 }).arraysWork c) := by
  change Host.Outcome.next _ = _
  simp only [hq, hstart, hteam, if_true, Option.map_some, Option.getD_some]

/-- R325. A command that may end, by what the data units report: 0 where nothing is wrong. -/
theorem exec_engineCommandComplete (hq : (s.core core).queue[n]? = some c) (hend : s.mayEnd c = true) (upset : Nat) :
    exec (.engineCommandComplete core n upset) s = .next
      (if upset = 1 && c.isProduct then if c.retried then s.cmdCheck c 2 else s.setCmd core n { c with retried := true }
       else if upset = 2 then s.cmdCheck c 3
       else ((s.team? c.team).map fun t =>
         if c.op = 21 ∨ c.op = 22 ∨ c.op = 23 then (s.arraysWork c).finishLu core n c t
         else State.finishCmd core n c ((s.arraysWork c).endCmd c t)).getD s) := by
  change Host.Outcome.next _ = _
  simp only [hq, hend, Bool.not_true, Bool.false_eq_true, if_false]
  cases s.team? c.team
  · rfl
  · rfl

/-- R149. The answer to a running remote command that has none yet. -/
theorem exec_remoteAck (hq : (s.core core).queue[n]? = some c) (hrun : c.running = true) (hack : c.acked = false)
    (hop : c.op = 5 ∨ c.op = 6) (cause : Nat) (bytes : List Byte) :
    exec (.remoteAck core n cause bytes) s = .next (s.setCmd core n { c with
      acked := true, cause := if cause = 2 ∨ cause = 3 ∨ cause = 5 then cause else 0, remote := bytes }) := by
  change Host.Outcome.next _ = _
  have hremote : (c.op == 5 || c.op == 6) = true := by simpa using hop
  simp only [hq, hrun, hack, hremote, Bool.not_false, Bool.and_self, if_true]

/-! ## What the end of a command leaves (R325) -/

/-- An update that touches no core, no team and no memory, and makes no thread wait. -/
structure Quiet (s t : State) : Prop where
  cores : t.cores = s.cores
  teams : t.teams = s.teams
  mem : t.mem = s.mem
  wait : NoneWait s → NoneWait t

theorem Quiet.refl (s : State) : Quiet s s := ⟨rfl, rfl, rfl, id⟩
theorem Quiet.trans {t u : State} (h : Quiet s t) (h' : Quiet t u) : Quiet s u :=
  ⟨h'.cores.trans h.cores, h'.teams.trans h.teams, h'.mem.trans h.mem, fun hs => h'.wait (h.wait hs)⟩

theorem Quiet.scratch {t : State} (h : Quiet s t) (k : TKey) : t.scratch k = s.scratch k := by
  unfold State.scratch State.team?; rw [h.teams]

theorem quiet_raise (s : State) (g t : Nat) (f : Flags) : Quiet s (s.raise g t f) := by
  cases hg : s.groups[g]? with
  | none => rw [State.raise, hg]; exact .refl s
  | some x =>
    rw [raise_eq s g t x f ⟨x, hg, rfl⟩]
    exact ⟨rfl, rfl, rfl, noneWait_flagged s g x [t] _⟩

theorem quiet_pay (s : State) (g t : Nat) : Quiet s (s.pay g t) := by
  unfold State.pay
  split
  · exact quiet_raise ..
  · exact .refl s

theorem quiet_meters (k : GKey) (ps : List (Nat × Nat)) (s : State) : Quiet s (ps.foldl (fun s p => s.meter k p.1 p.2) s) := by
  induction ps generalizing s with
  | nil => exact .refl s
  | cons p ps ih =>
    refine Quiet.trans ?_ (ih _)
    dsimp only [State.meter]
    split
    · exact .refl s
    · exact ⟨rfl, rfl, rfl, id⟩

theorem quiet_modThread (s : State) (g t : Nat) {f : Thread → Thread} (hf : ∀ th, th.isBlocked = false → (f th).isBlocked = false) :
    Quiet s (s.modThread g t f) := by
  rw [modThread_onThreads]
  exact ⟨rfl, rfl, rfl, fun h => noneWait_onThreads s g [t] _ h fun _ => hf⟩

/-- A group released has no waiting thread where it had none. -/
theorem release_wait (live : List Nat) {gr : Group} (h : ∀ th ∈ gr.threads, th.isBlocked = false) :
    ∀ th ∈ (gr.release live).threads, th.isBlocked = false := by
  have hmove : ∀ (next : Word) (ts : List Nat), ∀ th ∈ gr.threads.mapIdx (fun t th => if ts.contains t && !th.isExited then th.goOn next else th),
      th.isBlocked = false := fun next ts => mapIdx_forall (fun (th : Thread) => th.isBlocked = false) _ _ fun th hth i => by
    split
    · rfl
    · exact h th hth
  unfold Group.release
  split
  · split
    · exact h
    · exact hmove _ _
  · split
    · exact h
    · exact hmove _ _
  · exact h

theorem afterCmd_quiet (h : NoneWait s) : Quiet s s.afterCmd := by
  have hwait : NoneWait { s with groups := s.groups.map (Group.release (s.allCmds.map Cmd.id ++ (s.teams.map fun t => t.commands.map Cmd.id).flatten)) } := by
    intro x hx
    obtain ⟨y, hy, rfl⟩ := List.mem_map.1 hx
    exact release_wait _ (h y hy)
  rw [State.afterCmd, settle_same _ hwait]
  exact ⟨rfl, rfl, rfl, fun _ => hwait⟩

/-- A team with the blocks of a command returned. -/
def returnBlocks (c : Cmd) (t : Team) : Team := { t with owners := t.owners.mapIdx (returnBlock (c.reads, c.writes)) }
/-- A command out of its queue, its blocks returned. -/
def withoutCmd (s : State) (core n : Nat) (c : Cmd) : State := (s.dropCmd core n).modTeam c.team (returnBlocks c)

theorem leaveCmd_quiet : Quiet (withoutCmd s core n c) (s.leaveCmd core n c) := by
  unfold State.leaveCmd
  generalize (if copyOp c.op then 1 else 0) = copies
  generalize (if copyOp c.op then 0 else 1) = tileOps
  extract_lets s1
  split
  · exact .refl _
  · exact quiet_modThread _ _ _ fun _ hth => hth

theorem withoutCmd_queue (hcore : core < s.cores.length) :
    ((withoutCmd s core n c).core core).queue = (s.core core).queue.eraseIdx n :=
  congrArg Core.queue ((modCore_core s core core _).trans (if_pos ⟨rfl, hcore⟩))

theorem withoutCmd_scratch (k : TKey) : (withoutCmd s core n c).scratch k = s.scratch k :=
  scratch_modTeam (f := returnBlocks c) ⟨fun _ => rfl, fun _ => rfl⟩ (s.dropCmd core n) c.team k

theorem withoutCmd_team : ((withoutCmd s core n c).team? c.team).isSome = (s.team? c.team).isSome := by
  rw [withoutCmd, modTeam_team? (returnBlocks c) fun _ => rfl, Option.isSome_map]
  rfl

/-- The scratch of a team that has just been written. -/
theorem scratch_modScratch_same {k : TKey} (h : (s.team? k).isSome = true) (f : List Host.Cell → List Host.Cell) :
    (s.modScratch k f).scratch k = f (s.scratch k) := by
  obtain ⟨t, ht⟩ := Option.isSome_iff_exists.1 h
  have hkey : t.key = k := by simpa using List.find?_some ht
  have hmod : (s.modScratch k f).team? k = some { t with scratch := f t.scratch } := by
    rw [State.modScratch, modTeam_team? (fun t => { t with scratch := f t.scratch }) fun _ => rfl, ht, Option.map_some, if_pos (by simp [hkey])]
  rw [State.scratch, State.scratch, hmod, ht]
  rfl

/-- R325. PZ and flags as a command ends: what its threads owe where it is precise, and its flags. -/
theorem quiet_flags (s : State) (c : Cmd) (e : CmdEnd) : Quiet s (match s.issuer c with
    | some g => (if preciseOp c.op then s.pay g c.elected.2 else s).raise g c.elected.2 e.flags
    | none => s) := by
  split
  · refine Quiet.trans ?_ (quiet_raise ..)
    split
    · exact quiet_pay ..
    · exact .refl s
  · exact .refl s

/-- R325. The end of a command: it is out of its queue, memory is as its accesses left it, and its cairn has what Table 8.5 says. -/
theorem finishCmd_leaves {e : CmdEnd} (hwait : NoneWait e.s) (hteam : (e.s.team? c.team).isSome = true) (hcore : core < e.s.cores.length) :
    ((State.finishCmd core n c e).core core).queue = (e.s.core core).queue.eraseIdx n ∧
    (State.finishCmd core n c e).mem = e.s.mem ∧
    (State.finishCmd core n c e).scratch c.team = match c.cairn with
      | some a => if e.cause = 0 then cairnArrive (e.s.scratch c.team) a.toNat e.bytes else cairnReport (e.s.scratch c.team) a.toNat e.cause
      | none => e.s.scratch c.team := by
  unfold State.finishCmd
  extract_lets k s1 s2 s3 s4
  have h2 : Quiet (withoutCmd e.s core n c) s2 := leaveCmd_quiet.trans (quiet_flags s1 c e)
  have hteam2 : (s2.team? c.team).isSome = true := by
    rw [State.team?, h2.teams]; exact withoutCmd_team.trans hteam
  have hwait2 : NoneWait s2 := h2.wait hwait
  have hcairn : s3.cores = s2.cores ∧ s3.mem = s2.mem ∧ NoneWait s3 ∧ s3.scratch c.team = match c.cairn with
      | some a => if e.cause = 0 then cairnArrive (s2.scratch c.team) a.toNat e.bytes else cairnReport (s2.scratch c.team) a.toNat e.cause
      | none => s2.scratch c.team := by
    cases hc : c.cairn with
    | none =>
      have hs3 : s3 = s2 := by simp only [s3, hc]
      rw [hs3]; exact ⟨rfl, rfl, hwait2, rfl⟩
    | some a =>
      have hs3 : s3 = s2.modScratch c.team fun m =>
          if e.cause = 0 then cairnArrive m a.toNat e.bytes else cairnReport m a.toNat e.cause := by simp only [s3, hc]
      rw [hs3]; exact ⟨rfl, rfl, hwait2, scratch_modScratch_same hteam2 _⟩
  obtain ⟨hcores, hmem, hwait3, hscratch⟩ := hcairn
  have h4 : Quiet s3 s4 := by
    simp only [s4]
    split
    · exact quiet_meters ..
    · exact .refl s3
  have h : Quiet s3 s4.afterCmd := h4.trans (afterCmd_quiet (h4.wait hwait3))
  refine ⟨?_, ?_, ?_⟩
  · rw [State.core, h.cores, hcores, h2.cores]
    exact withoutCmd_queue hcore
  · rw [h.mem, hmem, h2.mem]; rfl
  · rw [h.scratch, hscratch, h2.scratch, withoutCmd_scratch]

end Commands

end Sys2Proof.Proofs

namespace Sys2Proof.Proofs

open Sys2Proof.Machine Sys2Proof.Safety Sys2Proof.Laws

/-! # Remote lines (spec/08_memory_model.md R149, spec/19_isa_engines_matrix.md R331, R332) -/

section RemoteLines

variable {s : State} {part port cmd : Nat} {peerPart : BitVec 8} {owner : BitVec 384} {last : Bool} {a : DWord} {bytes : List Byte} {len : Nat}
  {r : RemoteCmd} {c p : Nat}

/-- R61. A line on a port with no authenticated peer has no effect. -/
theorem exec_remoteLine_unknown (hr : s.remoteCmd part port peerPart owner cmd = none) :
    exec (.remoteLineWrite part port peerPart ⟨owner, cmd, last⟩ a bytes) s = .next s ∧
    exec (.remoteLineRead part port peerPart ⟨owner, cmd, last⟩ a len) s = .next s := by
  constructor
  · change Host.Outcome.next _ = _
    simp only [hr]
  · change Host.Outcome.next _ = _
    simp only [hr]

/-! Taking a command among those accepted changes no translation, no hamper and no registration. -/

theorem partPhys_accept (a : Nat) (write : Bool) : (s.modPart part (Partition.accept r last)).partPhys part a write = s.partPhys part a write := rfl
theorem hampered_accept (x : Nat) : (s.modPart part (Partition.accept r last)).hampered part x = s.hampered part x := rfl
theorem registered_accept (x : Nat) : (s.modPart part (Partition.accept r last)).registered part x = s.registered part x := rfl

section
variable (hr : s.remoteCmd part port peerPart owner cmd = some r)
include hr

/-! ## A line that is written -/

theorem exec_remoteLineWrite_refused (ha : (s.part part).admits r a.toNat bytes.length true = false) :
    exec (.remoteLineWrite part port peerPart ⟨owner, cmd, last⟩ a bytes) s = .next { s with remoteCause := 3 } := by
  change Host.Outcome.next _ = _
  simp only [hr, ha, Bool.false_eq_true, if_false]

theorem exec_remoteLineWrite_unmapped (ha : (s.part part).admits r a.toNat bytes.length true = true)
    (hp : s.partPhys part a.toNat true = none) :
    exec (.remoteLineWrite part port peerPart ⟨owner, cmd, last⟩ a bytes) s =
      .next { s.modPart part (Partition.accept r last) with remoteCause := 3 } := by
  change Host.Outcome.next _ = _
  simp only [hr, ha, if_true, partPhys_accept, hp]

/-- R331, R332, R368. A line whose bytes have a place: a hamper refuses it, then a registration; else it is stored there. -/
theorem exec_remoteLineWrite_placed (ha : (s.part part).admits r a.toNat bytes.length true = true)
    (hp : s.partPhys part a.toNat true = some (c, p)) :
    exec (.remoteLineWrite part port peerPart ⟨owner, cmd, last⟩ a bytes) s = .next
      (if ∃ i, i < bytes.length ∧ s.hampered part (p + i) = true then { s.modPart part (Partition.accept r last) with remoteCause := 3 }
       else if ∃ i, i < bytes.length ∧ s.registered part (p + i) = true then { s.modPart part (Partition.accept r last) with remoteCause := 5 }
       else { (s.modPart part (Partition.accept r last)).outsideStore p bytes with remoteCause := 0 }) := by
  change Host.Outcome.next _ = _
  simp only [hr, ha, if_true, partPhys_accept, hp, hampered_accept, registered_accept, List.any_eq_true, List.mem_range]

/-! ## A line that is read -/

theorem exec_remoteLineRead_refused (ha : (s.part part).admits r a.toNat len false = false) :
    exec (.remoteLineRead part port peerPart ⟨owner, cmd, last⟩ a len) s = .next { s with remoteData := [], remoteCause := 3 } := by
  change Host.Outcome.next _ = _
  simp only [hr, ha, Bool.false_eq_true, if_false]

theorem exec_remoteLineRead_unmapped (ha : (s.part part).admits r a.toNat len false = true)
    (hp : s.partPhys part a.toNat false = none) :
    exec (.remoteLineRead part port peerPart ⟨owner, cmd, last⟩ a len) s =
      .next { s.modPart part (Partition.accept r last) with remoteData := [], remoteCause := 3 } := by
  change Host.Outcome.next _ = _
  simp only [hr, ha, if_true, partPhys_accept, hp]

theorem exec_remoteLineRead_placed (ha : (s.part part).admits r a.toNat len false = true)
    (hp : s.partPhys part a.toNat false = some (c, p)) :
    exec (.remoteLineRead part port peerPart ⟨owner, cmd, last⟩ a len) s =
      .next { s.modPart part (Partition.accept r last) with remoteData := cellsRead s.mem p len, remoteCause := 0 } := by
  change Host.Outcome.next _ = _
  simp only [hr, ha, if_true, partPhys_accept, hp]

end

end RemoteLines

end Sys2Proof.Proofs

namespace Sys2Proof.Proofs

open Sys2Proof.Machine Sys2Proof.Safety Sys2Proof.Laws

/-! # Pages that are served (spec/10_traps_reliability.md R180, log 63) -/

section Pages

variable {s : State} {c v u : Nat} {m : Mapping} {ok : Bool}

/-- Whether a mapping holds a 64 KiB unit. -/
def holds (u : Nat) (m : Mapping) : Bool := decide (m.vpage ≤ u) && decide (u < m.vpage + m.pages)

theorem holds_iff : holds u m = true ↔ m.vpage ≤ u ∧ u < m.vpage + m.pages := by simp [holds]

theorem mapping?_eq (c : Context) (u : Nat) : c.mapping? u = c.maps.find? (holds u) := rfl

/-- The page of a mapping that holds a unit starts at or before it, and ends after it. -/
theorem pageBase_spec (h : m.vpage ≤ v) : m.vpage ≤ pageBase m v ∧ pageBase m v ≤ v ∧ v < pageBase m v + m.size.units := by
  have hunits : 0 < m.size.units := by cases m.size <;> decide
  have hdiv := Nat.div_add_mod (v - m.vpage) m.size.units
  have hmod := Nat.mod_lt (v - m.vpage) hunits
  rw [Nat.mul_comm] at hdiv
  unfold pageBase
  omega

/-- The units of a mapping's page that the mapping has. -/
def pageUnits (m : Mapping) (v : Nat) : Nat := min m.size.units (m.pages - (pageBase m v - m.vpage))

/-- The page that holds a unit, as a mapping of its own; what is before it, and what is after. -/
def pageOf (v : Nat) (m : Mapping) : Mapping :=
  { m with vpage := m.vpage + (pageBase m v - m.vpage), ppage := m.ppage + (pageBase m v - m.vpage), pages := pageUnits m v }
def pagesBefore (v : Nat) (m : Mapping) : Mapping := { m with pages := pageBase m v - m.vpage }
def pagesAfter (v : Nat) (m : Mapping) : Mapping :=
  { m with vpage := m.vpage + (pageBase m v - m.vpage) + pageUnits m v, ppage := m.ppage + (pageBase m v - m.vpage) + pageUnits m v,
           pages := m.pages - (pageBase m v - m.vpage) - pageUnits m v }

/-- What the service of a page leaves of it: the page present, or nothing. -/
def served (ok : Bool) (m : Mapping) : Option Mapping := if ok then some { m with present := true } else none

theorem holds_served {y : Mapping} (h : served ok m = some y) : holds u y = holds u m := by
  cases ok with
  | true => cases h; rfl
  | false => cases h

/-- A mapping without the unit stays whole; one with it is its page and what is before and after. -/
theorem splitMapping_of_not_holds (h : holds v m = false) : splitMapping v (served ok) m = [m] :=
  if_neg fun hv => by simp [holds_iff.2 hv] at h

theorem splitMapping_of_holds (h : holds v m = true) : splitMapping v (served ok) m =
    (if pageBase m v - m.vpage = 0 then [] else [pagesBefore v m]) ++ (served ok (pageOf v m)).toList ++
      (if pageBase m v - m.vpage + pageUnits m v = m.pages then [] else [pagesAfter v m]) :=
  if_pos (holds_iff.1 h)

/-- The parts of a mapping hold what it holds. -/
theorem find?_splitMapping_none (h : holds u m = false) : (splitMapping v (served ok) m).find? (holds u) = none := by
  cases hv : holds v m with
  | false => rw [splitMapping_of_not_holds hv]; simp [h]
  | true =>
    obtain ⟨hlo, hhi⟩ := holds_iff.1 hv
    obtain ⟨hb, hbv, -⟩ := pageBase_spec hlo
    have hout : ¬ (m.vpage ≤ u ∧ u < m.vpage + m.pages) := fun hu => by simp [holds_iff.2 hu] at h
    rw [splitMapping_of_holds hv, List.find?_eq_none]
    intro y hy
    rw [holds_iff]
    rcases List.mem_append.1 hy with hy | hy
    · rcases List.mem_append.1 hy with hy | hy
      · split at hy
        · cases hy
        · obtain rfl := List.mem_singleton.1 hy
          simp only [pagesBefore]; omega
      · rw [← holds_iff, holds_served (Option.mem_toList.1 hy), holds_iff]
        simp only [pageOf, pageUnits]; omega
    · split at hy
      · cases hy
      · obtain rfl := List.mem_singleton.1 hy
        simp only [pagesAfter, pageUnits]; omega

/-- A unit of the page served is in that page, where it is kept. -/
theorem find?_splitMapping_page (hv : holds v m = true) (hu : holds u m = true) (hpage : pageBase m v ≤ u)
    (hend : u < pageBase m v + m.size.units) : (splitMapping v (served ok) m).find? (holds u) = served ok (pageOf v m) := by
  obtain ⟨hlo, hhi⟩ := holds_iff.1 hv
  obtain ⟨hulo, huhi⟩ := holds_iff.1 hu
  obtain ⟨hb, hbv, -⟩ := pageBase_spec hlo
  have hbefore : holds u (pagesBefore v m) = false := by
    rw [Bool.eq_false_iff, Ne, holds_iff]
    simp only [pagesBefore]; omega
  have hin : holds u (pageOf v m) = true := by
    rw [holds_iff]
    simp only [pageOf, pageUnits]; omega
  have hafter : holds u (pagesAfter v m) = false := by
    rw [Bool.eq_false_iff, Ne, holds_iff]
    simp only [pagesAfter, pageUnits]; omega
  have hone : ∀ (p : Prop) [Decidable p] {x : Mapping}, holds u x = false → (if p then [] else [x]).find? (holds u) = none := by
    intro p _ x hx
    split
    · rfl
    · simp [hx]
  have hmid : (served ok (pageOf v m)).toList.find? (holds u) = served ok (pageOf v m) := by
    cases hy : served ok (pageOf v m) with
    | none => rfl
    | some y => exact List.find?_cons_of_pos ((holds_served hy).trans hin)
  rw [splitMapping_of_holds hv, List.find?_append, List.find?_append, hone _ hbefore, hone _ hafter, hmid, Option.none_or, Option.or_none]

/-! ## The mappings of a context -/

/-- A context of which the page that holds a unit has been served, or given up. -/
def afterService (v : Nat) (ok : Bool) (x : Context) : Context := { x with maps := (x.maps.map (splitMapping v (served ok))).flatten }

theorem mapping?_afterService (x : Context) :
    (afterService v ok x).mapping? u = x.maps.findSome? fun m => (splitMapping v (served ok) m).find? (holds u) := by
  rw [mapping?_eq, afterService, List.find?_flatten, List.findSome?_map]
  rfl

/-- A unit of the page served, where the mapping served is the one that holds it. -/
theorem mapping?_served {x : Context} (hu : x.mapping? u = some m) (hv : holds v m = true) (hpage : pageBase m v ≤ u)
    (hend : u < pageBase m v + m.size.units) : (afterService v true x).mapping? u = some { pageOf v m with present := true } := by
  rw [mapping?_afterService]
  rw [mapping?_eq] at hu
  generalize x.maps = maps at hu ⊢
  induction maps with
  | nil => cases hu
  | cons y ys ih =>
    rw [List.findSome?_cons]
    cases hy : holds u y with
    | true =>
      rw [List.find?_cons_of_pos hy] at hu
      obtain rfl := Option.some.inj hu
      rw [find?_splitMapping_page hv hy hpage hend]
      rfl
    | false =>
      rw [List.find?_cons_of_neg (by simp [hy])] at hu
      rw [find?_splitMapping_none hy]
      exact ih hu

/-- A unit that could not be served is mapped no longer. -/
theorem mapping?_lost (x : Context) : (afterService v false x).mapping? v = none := by
  rw [mapping?_afterService, List.findSome?_eq_none_iff]
  intro m _
  cases hv : holds v m with
  | false => exact find?_splitMapping_none hv
  | true =>
    obtain ⟨hb, hbv, hend⟩ := pageBase_spec (holds_iff.1 hv).1
    exact find?_splitMapping_page hv hv hbv hend

/-! ## The event -/

/-- R180. A group of a context that waited for a page that is there now fetches again. -/
def refetch (c base n : Nat) (g : Group) : Group := if g.key.ctx == c && (g.pageWait base n).isSome then { g with fetch := none } else g

theorem refetch_waits {c base n : Nat} {g : Group} (h : (refetch c base n g).key.ctx = c) : (refetch c base n g).pageWait base n = none := by
  unfold refetch at h ⊢
  split
  · rfl
  next hno =>
    rw [if_neg hno] at h
    simpa [h] using hno

theorem exec_pageFaultService_served (hm : (s.ctx c).mapping? v = some m) (hp : m.present = false) :
    exec (.pageFaultService c v true) s = .next { s.modCtx c (afterService v true) with
      groups := s.groups.map (refetch c (pageBase m v) m.size.units) } := by
  change Host.Outcome.next _ = _
  simp only [hm, hp, Bool.false_eq_true, if_false]
  rfl

theorem exec_pageFaultService_lost (hm : (s.ctx c).mapping? v = some m) (hp : m.present = false)
    (hwait : ∀ x ∈ s.groups, x.pageWait (pageBase m v) m.size.units = none) :
    exec (.pageFaultService c v false) s = .next (s.modCtx c (afterService v false)) := by
  have hnone : ((s.groups.filter fun g => g.key.ctx == c && (g.pageWait (pageBase m v) m.size.units).isSome).map Group.key) = [] := by
    rw [List.map_eq_nil_iff, List.filter_eq_nil_iff]
    exact fun x hx => by simp [hwait x hx]
  change Host.Outcome.next _ = _
  simp only [hm, hp, Bool.false_eq_true, if_false]
  change Host.Outcome.next (State.failPage _ _ _ ((s.groups.filter _).map Group.key)) = _
  rw [hnone]
  rfl

/-- R180. The service of one page of a mapping, where the system cores have it and where they do not. -/
theorem pageFaultService_spec (hm : (s.ctx c).mapping? v = some m) (hp : m.present = false) (hc : c < s.ctxs.length) :
    let base := pageBase m v
    let n := m.size.units
    base ≤ v ∧ v < base + n ∧
    (∃ t, exec (.pageFaultService c v true) s = .next t ∧ (∀ u, base ≤ u → u < base + n → u < m.vpage + m.pages →
        (s.ctx c).mapping? u = some m → ∃ m', (t.ctx c).mapping? u = some m' ∧ m'.present = true ∧
          m'.ppage + (u - m'.vpage) = m.ppage + (u - m.vpage)) ∧ t.mem = s.mem ∧
      ∀ x ∈ t.groups, x.key.ctx = c → x.pageWait base n = none) ∧
    ((∀ x ∈ s.groups, x.pageWait base n = none) → ∃ t, exec (.pageFaultService c v false) s = .next t ∧ t.groups = s.groups ∧
      (t.ctx c).mapping? v = none) := by
  have hv : holds v m = true := List.find?_some (mapping?_eq .. ▸ hm)
  obtain ⟨hb, hbv, hend⟩ := pageBase_spec (holds_iff.1 hv).1
  have hctx : ∀ ok, (s.modCtx c (afterService v ok)).ctx c = afterService v ok (s.ctx c) := fun ok =>
    (modCtx_ctx ..).trans (if_pos ⟨rfl, hc⟩)
  refine ⟨hbv, hend, ⟨_, exec_pageFaultService_served hm hp, fun u hlo hhi _ hu => ?_, rfl, ?_⟩, fun hwait =>
    ⟨_, exec_pageFaultService_lost hm hp hwait, rfl, ?_⟩⟩
  · refine ⟨_, (congrArg (Context.mapping? · u) (hctx true)).trans (mapping?_served hu hv hlo hhi), rfl, ?_⟩
    simp only [pageOf]; omega
  · intro x hx hxc
    obtain ⟨y, -, rfl⟩ := List.mem_map.1 hx
    exact refetch_waits hxc
  · rw [hctx false]
    exact mapping?_lost _

end Pages

end Sys2Proof.Proofs

namespace Sys2Proof.Proofs

open Sys2Proof.Machine Sys2Proof.Safety Sys2Proof.Laws

/-! # The answers of rounds (spec/22_isa_shares.md R372, log 104) -/

section Rounds

variable {s s0 s1 : State} {r : ShareReply} {i : Nat} {gr : Group} {x : Session}

/-- R372. What a party's unit takes: nothing before the packet comes; then the answer that its home stile holds, or that it sent. -/
theorem takeReply_of_no_packet {core party n : Nat} {tag : RoundTag} {away : Option RoundAnswer}
    (hp : s.takePacket (core / 32) (core % 32) (roundClass tag.op) (((x.parties[party]?).map Party.part).getD 0) = none) :
    s.takeReply core x party n tag away = none := by
  simp only [State.takeReply, hp]

theorem takeReply_of_home {core party n : Nat} {tag : RoundTag} {away : Option RoundAnswer}
    (hp : s.takePacket (core / 32) (core % 32) (roundClass tag.op) (((x.parties[party]?).map Party.part).getD 0) = some s0)
    (hhome : x.homeOf = s.boot.devId) :
    s.takeReply core x party n tag away = s0.takeAnswer x.id party tag.lbase tag.seq tag.sub := by
  simp only [State.takeReply, hp, hhome, beq_self_eq_true, if_true]

theorem takeReply_of_away {core party n : Nat} {tag : RoundTag} {away : Option RoundAnswer} {a : RoundAnswer}
    (hp : s.takePacket (core / 32) (core % 32) (roundClass tag.op) (((x.parties[party]?).map Party.part).getD 0) = some s0)
    (hhome : x.homeOf ≠ s.boot.devId) (ha : away = some a) (hfits : answerFits n a = true) :
    s.takeReply core x party n tag away = some (a, s0) := by
  simp only [State.takeReply, hp, beq_eq_false_iff_ne.2 hhome, Bool.false_eq_true, if_false, ha, Option.filter_some, hfits, if_true,
    Option.map_some]

/-- R372. A packet is of the class that its operation gives: SMMA's rounds are in class 0, the others in class 1. -/
theorem roundClass_lane {op : Nat} (h : op ≠ 11) : roundClass op = 1 := if_neg h

section
variable (h : Named s r.group i gr) (hactive : s.active gr = true)
include h hactive

section
variable {o : ShareOp} (hfetch : gr.fetch = some (.share o)) (hx : s.session? o.session = some x)
include hfetch hx

theorem exec_shareResultReceive_waits
    (hr : s.takeReply gr.core x ((x.partyOf s.boot.devId r.group.ctx).getD 0) o.sent.length o.tag r.away = none) :
    exec (.shareResultReceive r) s = .next s := by
  change Host.Outcome.next _ = _
  simp only [h.index, h.group, hactive, hfetch, hx, hr, Bool.not_true, Bool.false_eq_true, if_false]

theorem exec_shareResultReceive_sums {v : List Nat}
    (hr : s.takeReply gr.core x ((x.partyOf s.boot.devId r.group.ctx).getD 0) o.sent.length o.tag r.away = some (.sums v, s1)) :
    exec (.shareResultReceive r) s = .next (s1.shareSums i r.group o x v) := by
  change Host.Outcome.next _ = _
  simp only [h.index, h.group, hactive, hfetch, hx, hr, Bool.not_true, Bool.false_eq_true, if_false]

theorem exec_shareResultReceive_trap {code : BitVec 8}
    (hr : s.takeReply gr.core x ((x.partyOf s.boot.devId r.group.ctx).getD 0) o.sent.length o.tag r.away = some (.trap code, s1)) :
    exec (.shareResultReceive r) s =
      .next ((s1.modTeam (gkeyTeam r.group) (unbind r.group o.table)).takeTrap i o.threads (o.threads.headD 0) code o.cursor) := by
  change Host.Outcome.next _ = _
  simp only [h.index, h.group, hactive, hfetch, hx, hr, Bool.not_true, Bool.false_eq_true, if_false]

end

/-- R379. The sums of an SMMA come to its command. -/
theorem exec_shareResultReceive_smma {id n : Nat} {next : Word} {ts : List Nat} {c : Cmd} {v : List Nat}
    (hfetch : gr.fetch = some (.engine id next ts)) (hq : (s.core gr.core).queue[n]? = some c)
    (hx : s.session? c.session = some x)
    (hfind : ((s.core gr.core).queue.findIdx? fun c => c.id == id && c.op == 11 && c.running && c.sums.isNone) = some n)
    (hr : s.takeReply gr.core x ((x.partyOf s.boot.devId r.group.ctx).getD 0) c.smmaLen c.smmaTag r.away = some (.sums v, s1)) :
    exec (.shareResultReceive r) s = .next (s1.setCmd gr.core n { c with sums := some v }) := by
  change Host.Outcome.next _ = _
  simp only [h.index, h.group, hactive, hfetch, hfind, hq, hx, hr, Bool.not_true, Bool.false_eq_true, if_false]

end

end Rounds

/-- Settles O59: each event by the lemma that says what it does, the turn of a batch by `inTurn_iff`, the end of a command by
`finishCmd_leaves`, and a page by `pageFaultService_spec`. -/
theorem workCompletes : Obligations.WorkCompletes := by
  refine ⟨?_, ?_, ?_, fun core n c e hwait hteam hcore => finishCmd_leaves hwait hteam hcore, ?_,
    fun s c v m hm hp hc => pageFaultService_spec hm hp hc, ?_⟩
  · intro s k id tm b es hteam hsaved hcomplete
    refine ⟨fun hes => exec_barrierPhaseComplete_done hteam hsaved hcomplete hes, fun hes hall => ?_, fun hsome => ?_⟩
    · refine (exec_barrierPhaseComplete_entries hteam hsaved hcomplete hes).trans (congrArg Host.Outcome.next (if_neg ?_))
      rintro ⟨e, he, hbatch⟩
      exact hall e he hbatch
    · have hes : es ≠ [] := hsome.elim fun e he => List.ne_nil_of_mem he.1
      exact (exec_barrierPhaseComplete_entries hteam hsaved hcomplete hes).trans (congrArg Host.Outcome.next (if_pos hsome))
  · intro s n hmem es done kept turn
    have hturn : (s.ctx (n % 64)).inTurn n = true ↔ turn := inTurn_iff _ n
    refine ⟨fun h => ⟨exec_basketBatchApply hmem (hturn.2 h), fun j e hj => exec_basketBatchApply_poisoned hmem (hturn.2 h) hj⟩,
      fun h p => exec_basketBatchApply_early (Bool.eq_false_iff.2 fun ht => h (hturn.1 ht)) p, pairwise_sortBy _ _⟩
  · intro s core n c tm hq hteam
    refine ⟨fun hstart => exec_engineCommandStart hq hteam hstart, fun hend => ⟨fun hop => ?_, fun h1 h2 h3 => ?_, fun hprod hretried => ?_,
      fun hprod hretried => ?_, ?_⟩, fun hrun hack hop cause bytes => exec_remoteAck hq hrun hack hop cause bytes⟩
    · rw [exec_engineCommandComplete hq hend]; simp [hteam, hop]
    · rw [exec_engineCommandComplete hq hend]; simp [hteam, h1, h2, h3]
    · rw [exec_engineCommandComplete hq hend]; simp [hprod, hretried]
    · rw [exec_engineCommandComplete hq hend]; simp [hprod, hretried]
    · rw [exec_engineCommandComplete hq hend]; simp
  · intro s part port cmd peerPart owner last a bytes len write read
    refine ⟨fun hr => exec_remoteLine_unknown hr, fun r hr => ?_⟩
    intro s1
    refine ⟨fun ha => exec_remoteLineWrite_refused hr ha, fun ha => ⟨fun hp => exec_remoteLineWrite_unmapped hr ha hp, fun c p hp => ?_⟩,
      fun ha => exec_remoteLineRead_refused hr ha, fun ha => ⟨fun hp => exec_remoteLineRead_unmapped hr ha hp,
        fun c p hp => exec_remoteLineRead_placed hr ha hp⟩⟩
    have hwrite : write = _ := exec_remoteLineWrite_placed hr ha hp
    have hclear : ∀ {P : Nat → Bool}, (∀ i, i < bytes.length → P i = false) → ¬ ∃ i, i < bytes.length ∧ P i = true := by
      rintro P h ⟨i, hi, hP⟩
      simp [h i hi] at hP
    refine ⟨fun hham => hwrite.trans (by rw [if_pos hham]), fun hham => ⟨fun hreg => hwrite.trans ?_, fun hreg => hwrite.trans ?_⟩⟩
    · rw [if_neg (hclear hham), if_pos hreg]
    · rw [if_neg (hclear hham), if_neg (hclear hreg)]
  · intro s r i gr x hi hg hactive me packet now
    have h : Named s r.group i gr := ⟨hi, hg⟩
    refine ⟨?_, fun id next ts n c s0 s1 v hfetch hq hx hfind hp hhome hans => ?_⟩
    · intro o hfetch hx hop failed
      have hclass : roundClass o.tag.op = 1 := roundClass_lane hop
      refine ⟨fun hp => exec_shareResultReceive_waits h hactive hfetch hx (takeReply_of_no_packet (by rw [hclass]; exact hp)), fun s0 hp => ?_⟩
      have hp' := hp
      simp only [packet, ← hclass] at hp'
      refine ⟨fun hhome => ⟨fun v s1 hans => ?_, fun code s1 hans => ?_⟩, fun hhome => ⟨fun v haway hlen => ?_, fun code haway hcode => ?_⟩⟩
      · exact exec_shareResultReceive_sums h hactive hfetch hx ((takeReply_of_home hp' hhome).trans hans)
      · exact exec_shareResultReceive_trap h hactive hfetch hx ((takeReply_of_home hp' hhome).trans hans)
      · exact exec_shareResultReceive_sums h hactive hfetch hx (takeReply_of_away hp' hhome haway (by simpa [answerFits] using hlen))
      · exact exec_shareResultReceive_trap h hactive hfetch hx (takeReply_of_away hp' hhome haway (by
          rcases hcode with rfl | rfl | rfl <;> rfl))
    · exact exec_shareResultReceive_smma h hactive hfetch hq hx hfind ((takeReply_of_home (tag := c.smmaTag) hp hhome).trans hans)

end Sys2Proof.Proofs

namespace Sys2Proof.Proofs

open Sys2Proof.Machine Sys2Proof.Safety Sys2Proof.Laws

/-! # Waits on counts, words and time (spec/15_isa_control_sync.md R294, R295, R308) -/

section CountsAndWords

variable {s : State} {g : Nat} {set : List Nat} {gr : Group}

/-! ## WAITC -/

/-- R294. The limits of a WAITC, one by one. -/
theorem waitcHolds_iff (th : Thread) (l st c t : Nat) : th.waitcHolds l st c t = true ↔
    (th.covered l).all LoadRec.arrived = true ∧ (st = 7 ∨ th.stores ≤ st) ∧ (c = 3 ∨ th.copies ≤ c) ∧ (t = 3 ∨ th.tileOps ≤ t) := by
  simp only [Thread.waitcHolds, Bool.and_eq_true, Bool.or_eq_true, decide_eq_true_eq, and_assoc]

/-- A WAITC meets its limits thread by thread. -/
theorem exec_waitc {im : BitVec 10} (h : Runs (.waitc im) [] s g set gr) :
    let l := (im.extractLsb' 0 3).toNat
    let st := (im.extractLsb' 3 3).toNat
    let c := (im.extractLsb' 6 2).toNat
    let t := (im.extractLsb' 8 2).toNat
    exec (.waitc im) s = .next (onThreads (idle s) g set fun _ th =>
      if th.waitcHolds l st c t then (th.cover l).goOn (nextPc (.waitc im) gr set) else th.block (.waitc l st c t)) := by
  intro l st c t
  refine (runs_eq h legal _ rfl).trans (congrArg Host.Outcome.next ?_)
  rw [acting_nil _ _ _ _ rfl]
  exact foldl_modThread set (idle s) g (fun _ th => if th.waitcHolds l st c t then (th.cover l).goOn (nextPc (.waitc im) gr set)
    else th.block (.waitc l st c t)) (rising_nodup h.issuing.rising)

/-! ## Threads that read a place and raise flags -/

/-- Raising flags comes to the same before or after an update that leaves the flags of a thread alone. -/
theorem onThreads_flagged (s : State) (g : Nat) (gr : Group) (ts us : List Nat) {f : Nat → Thread → Thread} (fl : Nat → Flags)
    (hf : ∀ t th n w, f t (th.raiseBits n w) = (f t th).raiseBits n w) :
    onThreads (flagged s g gr ts fl) g us f = flagged (onThreads s g us f) g gr ts fl := by
  have hgroup : ∀ x, onGroup us f (flagGroup s.cycle ts fl x) = flagGroup s.cycle ts fl (onGroup us f x) := by
    intro x
    have hthreads : (onGroup us f (flagGroup s.cycle ts fl x)).threads = (flagGroup s.cycle ts fl (onGroup us f x)).threads := by
      refine List.ext_getElem? fun j => ?_
      simp only [onGroup, flagGroup, Group.raiseBits, List.getElem?_mapIdx, Option.map_map]
      refine congrArg (fun F => Option.map F x.threads[j]?) (funext fun th => ?_)
      by_cases hu : us.contains j = true
      · by_cases ht : ts.contains j = true
        · simp only [Function.comp, if_pos hu, if_pos ht, hf]
        · simp only [Function.comp, if_pos hu, if_neg ht]
      · simp only [Function.comp, if_neg hu]
    exact congrArg (fun ths => Group.raiseBits s.cycle (orFlags ts fl) { x with threads := ths }) hthreads
  simp only [flagged, onThreads, modify_modify, hgroup]
  rfl

theorem flagged_touchPlaces (s : State) (g : Nat) (gr : Group) (ts : List Nat) (fl : Nat → Flags) (k : TKey) (ls : List (Loc × Nat)) :
    (flagged s g gr ts fl).touchPlaces k ls = flagged (s.touchPlaces k ls) g gr ts fl := by
  unfold State.touchPlaces
  induction ls generalizing s with
  | nil => rfl
  | cons l ls ih =>
    have hone : (flagged s g gr ts fl).afterRead k l.1 = flagged (s.afterRead k l.1) g gr ts fl := by
      unfold State.afterRead
      split
      · rfl
      · rfl
    rw [List.foldl_cons, List.foldl_cons, hone, ih]

/-- Threads that each wait, or take what they read and raise flags: all reads are of the state before, and the lines that they reach are
those of the threads that take. -/
theorem foldl_block_or_take {s₀ : State} (p : Nat → Prop) [DecidablePred p] (k : TKey) (L : Nat → List (Loc × Nat)) (fl : Nat → Flags)
    (b go : Nat → Thread → Thread) (step : State → Nat → State) (hgo : ∀ t th n w, go t (th.raiseBits n w) = (go t th).raiseBits n w)
    (hstep : ∀ t ∈ set, ∀ s, SameView s s₀ → step s t = if p t then s.modThread g t (b t)
      else ((s.touchPlaces k (L t)).modThread g t (go t)).raise g t (fl t))
    (hn : set.Nodup) (hv : SameView s s₀) (hg : ∃ x, s.groups[g]? = some x ∧ x.key = gr.key) :
    set.foldl step s = onThreads ((flagged s g gr (set.filter fun t => ¬ p t) fl).touchPlaces k
      ((set.filter fun t => ¬ p t).map L).flatten) g set fun t => if p t then b t else go t := by
  induction set generalizing s with
  | nil => rw [List.filter_nil, flagged_nil, onThreads_nil]; rfl
  | cons t ts ih =>
    obtain ⟨ht, hts⟩ := List.nodup_cons.1 hn
    have hrest : ∀ u ∈ ts, ∀ s, SameView s s₀ → step s u = _ := fun u hu => hstep u (List.mem_cons_of_mem _ hu)
    have hout : ∀ u ∈ [t], u ∉ ts.filter fun t => ¬ p t := by simp [ht]
    obtain ⟨x, hx, hk⟩ := hg
    rw [List.foldl_cons, hstep t List.mem_cons_self s hv]
    by_cases hp : p t
    · rw [if_pos hp, ih (s := s.modThread g t (b t)) hrest hts ((view_modGroup ..).trans hv) ⟨x.modThread t (b t), by simp [State.modThread, State.modGroup, hx], hk⟩,
        modThread_onThreads, ← flagged_onThreads _ _ _ _ _ _ _ hout, touch_onThreads, ← modThread_onThreads,
        List.filter_cons_of_neg (by simpa using hp), ← onThreads_cons _ _ _ _ _ ht, if_pos hp]
    · have htouched : (s.touchPlaces k (L t)).groups[g]? = some x := touchPlaces_group hx k (L t)
      have hraise : ((s.touchPlaces k (L t)).modThread g t (go t)).raise g t (fl t) =
          ((flagged s g gr [t] fun _ => fl t).touchPlaces k (L t)).modThread g t (go t) := by
        rw [raise_eq _ _ _ gr _ ⟨x.modThread t (go t), by simp [State.modThread, State.modGroup, htouched], hk⟩, modThread_onThreads,
          modThread_onThreads, flagged_touchPlaces, onThreads_flagged _ _ _ _ _ _ fun _ => hgo t]
      obtain ⟨y, hy, hyk⟩ := Laws.flagged_group s g gr x [t] (fun _ => fl t) hx
      have hy' : ((flagged s g gr [t] fun _ => fl t).touchPlaces k (L t)).groups[g]? = some y := touchPlaces_group hy k (L t)
      rw [if_neg hp, hraise, ih (s := ((flagged s g gr [t] fun _ => fl t).touchPlaces k (L t)).modThread g t (go t)) hrest hts
          ((view_modGroup ..).trans ((view_touch ..).trans ((view_flagged ..).trans hv)))
          ⟨y.modThread t (go t), by simp [State.modThread, State.modGroup, hy'], hyk.trans hk⟩,
        modThread_onThreads, ← flagged_onThreads _ _ _ _ _ _ _ hout, touch_onThreads, ← modThread_onThreads,
        ← flagged_touchPlaces _ _ _ (ts.filter fun t => ¬ p t), flagged_cons _ _ _ _ _ _ (hout t List.mem_cons_self), ← touch_append,
        List.filter_cons_of_pos (by simpa using hp), List.map_cons, List.flatten_cons, ← onThreads_cons _ _ _ _ _ ht, if_neg hp]

/-! ## WAITW -/

/-- The places of the word that a WAITW of thread t reads, and the word. -/
def waitPlaces (s : State) (gr : Group) (a : BitVec 6) (t : Nat) : List (Loc × Nat) :=
  s.places gr.key (wordTarget ((gr.thread t).pair a.toNat)) false
def waitedWord (s : State) (gr : Group) (a : BitVec 6) (t : Nat) : Word :=
  BitVec.ofNat 32 (bytesNat (s.readPlaces (gkeyTeam gr.key) (waitPlaces s gr a t)))

/-- A thread takes the word that it has waited for, and goes on. -/
def takesWaited (s : State) (gr : Group) (a d : BitVec 6) (next : Word) (t : Nat) (th : Thread) : Thread :=
  (th.setReg d.toNat (waitedWord s gr a t)).goOn next

/-- A thread whose word is equal: it waits, with what it compares with, and owes the PZ of what it has read. -/
def waitsForWord (gr : Group) (a d : BitVec 6) (t : Nat) (th : Thread) : Thread :=
  { th.block (.waitw (.waitw a d) d.toNat ((gr.thread t).pair a.toNat) ((gr.thread t).reg d.toNat)) with
    owed := poisonFlag gr (inThread t (ownReads [regF a 2, updF d])) }

theorem setReg_raiseBits (th : Thread) (n r : Nat) (w : Flags) (v : Word) :
    (th.raiseBits n w).setReg r v = (th.setReg r v).raiseBits n w := by
  unfold Thread.setReg
  split
  · rfl
  · rfl

theorem takesWaited_raiseBits (a d : BitVec 6) (next : Word) (t : Nat) (th : Thread) (n : Nat) (w : Flags) :
    takesWaited s gr a d next t (th.raiseBits n w) = (takesWaited s gr a d next t th).raiseBits n w := by
  unfold takesWaited
  rw [setReg_raiseBits]
  rfl

variable {a d : BitVec 6} {t : Nat}

theorem waitWord_eq {s' : State} (hv : SameView s' s) (hm : s.mayPerform gr.key false (waitPlaces s gr a t) = true) :
    s'.waitWord gr.key (wordTarget ((gr.thread t).pair a.toNat)) = some (waitedWord s gr a t) := by
  simp only [State.waitWord, hv.places, hv.mayPerform, hv.readPlaces]
  exact if_pos hm

/-- A word that its block lets the thread read is poisoned where it differs and the thread has met an upset (log 102). -/
theorem waitwPoisoned_eq (hm : s.mayPerform gr.key false (waitPlaces s gr a t) = true) :
    s.waitwPoisoned gr (fun t => ((gr.thread t).pair a.toNat).toNat) d.toNat t =
      ((gr.thread t).tainted && decide (waitedWord s gr a t ≠ (gr.thread t).reg d.toNat)) := by
  unfold State.waitwPoisoned
  rw [show s.waitWord gr.key { glob := true, addr := ((gr.thread t).pair a.toNat).toNat, size := 4, align := 4 } = _ from
    waitWord_eq (.refl s) hm, Option.any_some, decide_not]
  rfl

/-- R295. One thread of a WAITW whose block lets it read: an equal word keeps it, another one is taken. -/
theorem waitwTry_eq {s' : State} (hv : SameView s' s) (hm : s.mayPerform gr.key false (waitPlaces s gr a t) = true) (next : Word) :
    s'.waitwTry g t gr.key d.toNat ((gr.thread t).pair a.toNat).toNat ((gr.thread t).reg d.toNat) next =
      if waitedWord s gr a t = (gr.thread t).reg d.toNat then none
      else some ((s'.touchPlaces (gkeyTeam gr.key) (waitPlaces s gr a t)).modThread g t (takesWaited s gr a d next t)) := by
  have hword : s'.waitWord gr.key { glob := true, addr := ((gr.thread t).pair a.toNat).toNat, size := 4, align := 4 } = _ :=
    waitWord_eq hv hm
  simp only [State.waitwTry, hword, hv.places]
  rfl

/-- R193, R295. A WAITW whose checks pass and that no owner state holds: a machine check at the first thread that would take a poisoned
word, or each thread waits or takes its word. -/
theorem exec_waitw (h : Runs (.waitw a d) [regF a 2, updF d] s g set gr)
    (hr : ∀ t ∈ set, Reaches s gr.key false (wordTarget ((gr.thread t).pair a.toNat)))
    (hm : ∀ t ∈ set, s.mayPerform gr.key false (waitPlaces s gr a t) = true) :
    exec (.waitw a d) s = .next (
      match set.find? fun t => (gr.thread t).tainted && decide (waitedWord s gr a t ≠ (gr.thread t).reg d.toNat) with
      | some t => (idle s).machineCheck g t 3
      | none =>
        let changed := set.filter fun t => ¬ waitedWord s gr a t = (gr.thread t).reg d.toNat
        onThreads ((poisoned (idle s) g gr changed [regF a 2, updF d]).touchPlaces (gkeyTeam gr.key)
          (changed.map (waitPlaces s gr a)).flatten) g set fun t =>
            if waitedWord s gr a t = (gr.thread t).reg d.toNat then waitsForWord gr a d t
            else takesWaited s gr a d (nextPc (.waitw a d) gr set) t) := by
  refine (bare_eq h.issuing h.wf h.usable.fields legal _ rfl).trans (congrArg Host.Outcome.next ?_)
  have hchecks : ∀ t ∈ set, ∃ l, sysChk gr [regF a 2, updF d] (fun t => (idle s).lowCheck gr.key false
      { glob := true, addr := ((gr.thread t).pair a.toNat).toNat, size := 4, align := 4 }) t = .ok l :=
    sysChk_ok h.usable fun t ht => (hr t ht).1
  have hfind : (set.find? ((idle s).waitwPoisoned gr (fun t => ((gr.thread t).pair a.toNat).toNat) d.toNat)) =
      set.find? fun t => (gr.thread t).tainted && decide (waitedWord s gr a t ≠ (gr.thread t).reg d.toNat) :=
    List.find?_congr fun t ht => waitwPoisoned_eq (s := idle s) (hm t ht)
  simp only [show (theAct (Instr.waitw a d) g set gr).set = set from rfl, show (theAct (Instr.waitw a d) g set gr).g = g from rfl,
    rounds_ok (theAct (Instr.waitw a d) g set gr) (idle s) set _ _ [] id hchecks fun _ _ => ⟨_, rfl⟩, hfind]
  simp only [Bool.not_true, Bool.false_eq_true, if_false, id]
  cases set.find? fun t => (gr.thread t).tainted && decide (waitedWord s gr a t ≠ (gr.thread t).reg d.toNat) with
  | some t => rfl
  | none =>
    refine foldl_block_or_take (s₀ := s) (fun t => waitedWord s gr a t = (gr.thread t).reg d.toNat) (gkeyTeam gr.key) (waitPlaces s gr a)
      (sysPoison gr [regF a 2, updF d]) (waitsForWord gr a d) (takesWaited s gr a d (nextPc (.waitw a d) gr set)) _
      (takesWaited_raiseBits a d _) (fun t ht s' hv => ?_) (rising_nodup h.issuing.rising) (view_idle s) ⟨gr, idle_group h.issuing, rfl⟩
    have hmay : s'.mayPerform gr.key false (s'.places gr.key
        { glob := true, addr := ((gr.thread t).pair a.toNat).toNat, size := 4, align := 4 } false) = true := by rw [hv.places, hv.mayPerform]; exact hm t ht
    simp only [hmay, if_true, waitwTry_eq hv (hm t ht), BitVec.ofNat_toNat, BitVec.setWidth_eq]
    by_cases hw : waitedWord s gr a t = (gr.thread t).reg d.toNat
    · simp only [if_pos hw]
      rfl
    · simp only [if_neg hw]
      rfl

/-! ## YIELD and NAP -/

theorem exec_yield (h : Runs .yield [] s g set gr) :
    let on := onThreads (idle s) g set fun _ th => th.goOn (nextPc .yield gr set)
    exec .yield s = .next (if gr.yieldReq = true then on.modGroup g fun x => { x with stop := true, yielded := true } else on) := by
  refine (runs_eq h legal _ rfl).trans (congrArg Host.Outcome.next ?_)
  have hon := goAll_eq (idle s) g set (nextPc .yield gr set) (rising_nodup h.issuing.rising)
  rw [acting_nil _ _ _ _ rfl, ← hon]
  rfl

theorem exec_nap {im : BitVec 10} (h : Runs (.nap im) [] s g set gr) :
    exec (.nap im) s = .next (onThreads (idle s) g set fun _ th =>
      if im = 0 then th.goOn (nextPc (.nap im) gr set) else th.block (.nap (16 * im.toNat))) := by
  have hn := rising_nodup h.issuing.rising
  refine (runs_eq h legal _ rfl).trans (congrArg Host.Outcome.next ?_)
  rw [acting_nil _ _ _ _ rfl]
  by_cases him : im = 0
  · simp only [if_pos him]
    exact goAll_eq _ _ _ _ hn
  · simp only [if_neg him]
    exact blockAll_eq _ _ _ _ hn

end CountsAndWords

/-- Settles O26: `exec_waitc`, `exec_waitw`, `exec_yield` and `exec_nap`. -/
theorem waitsBlock : Obligations.WaitsBlock := by
  refine ⟨fun s g set gr im h => ?_, fun s g set gr a d h => ?_, fun s g set gr h => exec_yield h, fun s g set gr im h => exec_nap h⟩
  · refine (exec_waitc h).trans ?_
    simp only [waitcHolds_iff]
  · intro x places word cmp changed hr hm
    refine ⟨fun t rest hends => ?_, fun hclean => ?_⟩
    · have hfind : (set.find? fun t => (gr.thread t).tainted && decide (waitedWord s gr a t ≠ (gr.thread t).reg d.toNat)) = some t :=
        find?_of_filter_filter hends
      rw [exec_waitw h hr hm, hfind]
    · have hnone : (set.find? fun t => (gr.thread t).tainted && decide (waitedWord s gr a t ≠ (gr.thread t).reg d.toNat)) = none := by
        rw [List.find?_eq_none]
        intro t ht
        by_cases hw : waitedWord s gr a t = (gr.thread t).reg d.toNat
        · simp [hw]
        · simp [hclean t (List.mem_filter.2 ⟨ht, decide_eq_true hw⟩)]
      rw [exec_waitw h hr hm, hnone]
      exact congrArg (fun f => Host.Outcome.next (onThreads _ g set f)) (funext₂ fun t th => ite_apply ..)

end Sys2Proof.Proofs

namespace Sys2Proof.Proofs

open Sys2Proof.Machine Sys2Proof.Safety Sys2Proof.Laws

/-! # Stash windows (spec/14_isa_memory.md R286 to R288) -/

section Windows

variable {s : State} {g : Nat} {set : List Nat} {gr : Group}

/-! ## Waits that end within the step (R111) -/

theorem isBlocked_of_wakes {t : Nat} (h : s.wakes gr t = true) : (gr.thread t).isBlocked = true := by
  cases hstate : (gr.thread t).state with
  | blocked w => rw [Thread.isBlocked, hstate]
  | ready => simp only [State.wakes, hstate, Bool.false_eq_true] at h
  | exited => simp only [State.wakes, hstate, Bool.false_eq_true] at h

theorem mem_wakeable {x : Nat × Group × Nat} : x ∈ s.wakeable ↔ s.groups[x.1]? = some x.2.1 ∧ s.active x.2.1 = true ∧
    x.2.2 < x.2.1.threads.length ∧ s.wakes x.2.1 x.2.2 = true := by
  obtain ⟨i, gr, t⟩ := x
  simp only [State.wakeable, List.mem_flatten, List.mem_map]
  constructor
  · rintro ⟨_, ⟨p, hp, rfl⟩, hx⟩
    split at hx
    next hactive =>
      obtain ⟨u, hu, he⟩ := List.mem_map.1 hx
      obtain ⟨hrange, hwakes⟩ := List.mem_filter.1 hu
      cases he
      exact ⟨by simpa [List.mem_zipIdx_iff_getElem?] using hp, hactive, List.mem_range.1 hrange, hwakes⟩
    next => exact absurd hx List.not_mem_nil
  · rintro ⟨hgroup, hactive, ht, hwakes⟩
    refine ⟨_, ⟨(gr, i), by simpa [List.mem_zipIdx_iff_getElem?] using hgroup, rfl⟩, ?_⟩
    rw [if_pos hactive]
    exact List.mem_map.2 ⟨t, List.mem_filter.2 ⟨List.mem_range.2 ht, hwakes⟩, rfl⟩

theorem thread_mem {t : Nat} (h : t < gr.threads.length) : gr.thread t ∈ gr.threads := by
  simp [Group.thread, List.getD_eq_getElem?_getD, h]

theorem wakeable_of_noneWait (h : NoneWait s) : s.wakeable = [] := by
  refine List.eq_nil_iff_forall_not_mem.2 fun x hx => ?_
  obtain ⟨hgroup, -, ht, hwakes⟩ := mem_wakeable.1 hx
  have hblocked := isBlocked_of_wakes hwakes
  rw [h _ (List.mem_of_getElem? hgroup) _ (thread_mem ht)] at hblocked
  cases hblocked

theorem blockedCount_pos {x : Nat × Group × Nat} (h : x ∈ s.wakeable) : 0 < s.blockedCount := by
  obtain ⟨hgroup, -, ht, hwakes⟩ := mem_wakeable.1 h
  have hmem : x.2.1.thread x.2.2 ∈ x.2.1.threads.filter Thread.isBlocked := List.mem_filter.2 ⟨thread_mem ht, isBlocked_of_wakes hwakes⟩
  exact lt_of_lt_of_le (List.length_pos_of_mem hmem)
    (List.single_le_sum (fun _ _ => Nat.zero_le _) _ (List.mem_map_of_mem (List.mem_of_getElem? hgroup)))

/-- Where every wait that may end leaves the same state, in which no thread waits, that state is what is left. -/
theorem settle_once {s' : State} (hsome : s.wakeable ≠ []) (hall : ∀ x ∈ s.wakeable, s.wake x.1 x.2.1 x.2.2 = s') (hdone : NoneWait s') :
    s.settle = s' := by
  obtain ⟨y, hy⟩ := List.exists_mem_of_ne_nil _ hsome
  obtain ⟨m, hm⟩ := Nat.exists_eq_succ_of_ne_zero (blockedCount_pos hy).ne'
  unfold State.settle
  rw [hm]
  cases hleast : leastBy? wakeOrder s.wakeable with
  | none => exact absurd (leastBy?_eq_none.1 hleast) hsome
  | some x =>
    simp only [State.settleN, hleast, hall x (leastBy?_mem hleast)]
    cases m with
    | zero => rfl
    | succ m => simp [State.settleN, wakeable_of_noneWait hdone, leastBy?]

/-! ## The threads of an issue set in one wait, of which the lowest owes PZ -/

/-- PZ of the lowest thread of an issue set, for the fields that it reads. -/
def leadPoison (gr : Group) (set : List Nat) (fs : List Field) : Flags := poisonFlag gr (inThread (leadOf set) (ownReads fs))

/-- The threads of the issue set wait, and the lowest owes the PZ of what it has read. -/
def waitingOnce (s : State) (g : Nat) (set : List Nat) (gr : Group) (fs : List Field) (w : Wait) : State :=
  owing (onThreads (idle s) g set fun _ th => th.block w) g gr [leadOf set] fs

/-- A thread that owes the PZ of what it has read. -/
def owesPoison (gr : Group) (fs : List Field) (t : Nat) (th : Thread) : Thread := { th with owed := poisonFlag gr (inThread t (ownReads fs)) }

/-- Their group. -/
def onceGroup (gr : Group) (set : List Nat) (fs : List Field) (w : Wait) : Group :=
  onGroup [leadOf set] (owesPoison gr fs) (onGroup set (fun _ th => th.block w) gr)

variable {fs : List Field} {w : Wait}

theorem waitingOnce_group (hg : s.groups[g]? = some gr) : (waitingOnce s g set gr fs w).groups[g]? = some (onceGroup gr set fs w) :=
  onThreads_group (onThreads_group (s := idle s) hg _ _) _ _

theorem waitingOnce_others {j : Nat} (hj : j ≠ g) : (waitingOnce s g set gr fs w).groups[j]? = s.groups[j]? := by
  simp [waitingOnce, owing, onThreads, hj.symm, idle]

theorem onceGroup_length : (onceGroup gr set fs w).threads.length = gr.threads.length := by simp [onceGroup, onGroup]

theorem leadOf_mem (h : set ≠ []) : leadOf set ∈ set := by
  cases set with
  | nil => exact absurd rfl h
  | cons t ts => exact List.mem_cons_self

theorem thread_onceGroup (hset : set ≠ []) (hin : ∀ t ∈ set, t < gr.threads.length) (u : Nat) : (onceGroup gr set fs w).thread u =
    if u ∈ set then { (gr.thread u).block w with owed := if u = leadOf set then leadPoison gr set fs else 0 } else gr.thread u := by
  have hlength : (onGroup set (fun _ th => th.block w) gr).threads.length = gr.threads.length := by simp [onGroup]
  unfold onceGroup
  rw [thread_onGroup, thread_onGroup, hlength]
  by_cases hu : u ∈ set
  · by_cases hl : u = leadOf set
    · simp only [hl, leadOf_mem hset, hin _ (leadOf_mem hset), List.mem_singleton, and_self, if_true]
      rfl
    · simp only [hl, hu, hin u hu, List.mem_singleton, and_self, if_true, false_and, if_false]
      rfl
  · have hl : u ≠ leadOf set := fun e => hu (e ▸ leadOf_mem hset)
    simp only [hl, hu, List.mem_singleton, false_and, if_false]

/-- Where no other thread of the group waits, the threads in the wait of one of the issue set are those of the issue set. -/
theorem sameWait_onceGroup {t : Nat} {pc : Word} {at' : Nat} (hrising : set.Pairwise (· < ·)) (hfree : ∀ th ∈ gr.threads, th.isBlocked = false)
    (hsame : ∀ u ∈ set, u < gr.threads.length ∧ (gr.thread u).pc = pc ∧ (gr.thread u).issued = at') (ht : t ∈ set) :
    (onceGroup gr set fs w).sameWait t = set := by
  have hset : set ≠ [] := List.ne_nil_of_mem ht
  have hthread := thread_onceGroup (fs := fs) (w := w) hset fun u hu => (hsame u hu).1
  have hin : ∀ u ∈ set, (onceGroup gr set fs w).thread u =
      { (gr.thread u).block w with owed := if u = leadOf set then leadPoison gr set fs else 0 } := fun u hu => (hthread u).trans (if_pos hu)
  unfold Group.sameWait
  refine List.Pairwise.eq_of_mem_iff (List.pairwise_lt_range.filter _) hrising fun u => ?_
  rw [List.mem_filter, List.mem_range, onceGroup_length, hin t ht]
  constructor
  · rintro ⟨hu, hwait⟩
    by_contra hnot
    have hblocked := hfree _ (thread_mem hu)
    rw [(hthread u).trans (if_neg hnot)] at hwait
    simp only [Bool.and_eq_true, beq_iff_eq] at hwait
    rw [Thread.isBlocked, hwait.1.1] at hblocked
    cases hblocked
  · intro hu
    obtain ⟨hlength, hpc, hissued⟩ := hsame u hu
    obtain ⟨-, hpc', hissued'⟩ := hsame t ht
    refine ⟨hlength, ?_⟩
    rw [hin u hu]
    simp [Thread.block, hpc, hpc', hissued, hissued']

/-- A blocked thread of the state is one of the issue set, where no thread waited before. -/
theorem waitingOnce_blocked {j u : Nat} {x : Group} (hg : s.groups[g]? = some gr) (hset : set ≠ []) (hin : ∀ t ∈ set, t < gr.threads.length)
    (hnone : NoneWait s) (hx : (waitingOnce s g set gr fs w).groups[j]? = some x) (hu : u < x.threads.length)
    (hblocked : (x.thread u).isBlocked = true) : j = g ∧ x = onceGroup gr set fs w ∧ u ∈ set := by
  by_cases hj : j = g
  · obtain rfl : onceGroup gr set fs w = x := by
      rw [hj, waitingOnce_group hg] at hx
      exact Option.some.inj hx
    refine ⟨hj, rfl, ?_⟩
    by_contra hnot
    rw [onceGroup_length] at hu
    rw [(thread_onceGroup hset hin u).trans (if_neg hnot), hnone gr (List.mem_of_getElem? hg) _ (thread_mem hu)] at hblocked
    cases hblocked
  · rw [waitingOnce_others hj] at hx
    rw [hnone x (List.mem_of_getElem? hx) _ (thread_mem hu)] at hblocked
    cases hblocked

/-! ## The wait ends -/

/-- An update that a later one overwrites, whatever flags are raised between them, leaves nothing. -/
theorem onThreads_flagged_onThreads (s : State) (g : Nat) (gr : Group) {us vs : List Nat} (ts : List Nat) {f h : Nat → Thread → Thread}
    (fl : Nat → Flags) (hsub : ∀ t ∈ us, t ∈ vs) (hover : ∀ t th n v, h t ((f t th).raiseBits n v) = h t (th.raiseBits n v)) :
    onThreads (flagged (onThreads s g us f) g gr ts fl) g vs h = onThreads (flagged s g gr ts fl) g vs h := by
  have hplain : ∀ t th, h t (f t th) = h t th := fun t th => by
    have hzero := hover t th 0 0
    rwa [threadRaise_zero, threadRaise_zero] at hzero
  have hgroup : ∀ x, onGroup vs h (flagGroup s.cycle ts fl (onGroup us f x)) = onGroup vs h (flagGroup s.cycle ts fl x) := by
    intro x
    have hthreads : (onGroup vs h (flagGroup s.cycle ts fl (onGroup us f x))).threads = (onGroup vs h (flagGroup s.cycle ts fl x)).threads := by
      refine List.ext_getElem? fun j => ?_
      simp only [onGroup, flagGroup, Group.raiseBits, List.getElem?_mapIdx, Option.map_map]
      refine congrArg (fun F => Option.map F x.threads[j]?) (funext fun th => ?_)
      by_cases hu : us.contains j = true
      · have hv : vs.contains j = true := List.contains_iff_mem.2 (hsub j (List.contains_iff_mem.1 hu))
        by_cases ht : ts.contains j = true
        · simp only [Function.comp, if_pos hu, if_pos hv, if_pos ht, hover]
        · simp only [Function.comp, if_pos hu, if_pos hv, if_neg ht, hplain]
      · simp only [Function.comp, if_neg hu]
    exact congrArg (fun ths => Group.raiseBits s.cycle (orFlags ts fl) { x with threads := ths }) hthreads
  simp only [flagged, onThreads, modify_modify]
  exact congrArg (fun F => ({ s with groups := s.groups.modify g F, ctxs := _ } : State)) (funext hgroup)

/-- Flags that the lowest thread of a set alone has. -/
theorem flagged_lead (s : State) (g : Nat) (gr : Group) (hn : set.Nodup) (hset : set ≠ []) (f : Flags) :
    flagged s g gr set (fun u => if u = leadOf set then f else 0) = flagged s g gr [leadOf set] fun _ => f := by
  cases set with
  | nil => exact absurd rfl hset
  | cons t ts =>
    obtain ⟨ht, -⟩ := List.nodup_cons.1 hn
    have hrest : ∀ u ∈ ts, (if u = leadOf (t :: ts) then f else 0) = 0 := fun u hu => if_neg fun (e : u = t) => ht (e ▸ hu)
    rw [← flagged_cons _ _ _ _ _ _ ht, flagged_congr _ _ _ ts _ (fun _ => 0) hrest, flagged_zero _ _ _ _ _ fun _ => rfl]
    simp only [leadOf, List.headD_cons, if_true]

/-- Flags are raised in the context that the group's name gives. -/
theorem flagged_key {x y : Group} (h : x.key = y.key) (ts : List Nat) (fl : Nat → Flags) : flagged s g x ts fl = flagged s g y ts fl := by
  unfold flagged
  rw [h]

/-- The threads of the issue set go on together: the lowest raises the PZ that it owed, and nothing is left of their wait. -/
theorem endWait_waitingOnce (m : Team → Team) (hissuing : Issuing s g set gr) (hin : ∀ t ∈ set, t < gr.threads.length) :
    ((waitingOnce s g set gr fs w).modTeam (gkeyTeam gr.key) m).endWait g set =
      onThreads ((poisoned (idle s) g gr [leadOf set] fs).modTeam (gkeyTeam gr.key) m) g set fun _ th => th.goOn (pcAfter th.pc 4) := by
  have hn := rising_nodup hissuing.rising
  have howed : ∀ u ∈ set, ((onceGroup gr set fs w).thread u).owed = if u = leadOf set then leadPoison gr set fs else 0 := by
    intro u hu
    rw [thread_onceGroup hissuing.nonempty hin u, if_pos hu]
  have hgroup : ((waitingOnce s g set gr fs w).modTeam (gkeyTeam gr.key) m).groups[g]? = some (onceGroup gr set fs w) :=
    waitingOnce_group hissuing.group
  have hmodified : (waitingOnce s g set gr fs w).modTeam (gkeyTeam gr.key) m = onThreads (onThreads ((idle s).modTeam (gkeyTeam gr.key) m)
      g set fun _ th => th.block w) g [leadOf set] (owesPoison gr fs) := rfl
  have hlead : ∀ t ∈ [leadOf set], t ∈ set := fun t ht => List.mem_singleton.1 ht ▸ leadOf_mem hissuing.nonempty
  rw [endWait_eq (gr := onceGroup gr set fs w) hn hgroup rfl fun _ _ => rfl, flagged_congr _ _ _ set _ _ howed,
    flagged_lead _ _ _ hn hissuing.nonempty, hmodified, flagged_key (x := onceGroup gr set fs w) (y := gr) rfl,
    onThreads_flagged_onThreads (f := owesPoison gr fs) _ _ _ [leadOf set] _ hlead fun _ _ _ _ => rfl,
    onThreads_flagged_onThreads (f := fun _ th => th.block w) _ _ _ [leadOf set] _ (fun _ ht => ht) fun _ _ _ _ => rfl]
  exact congrArg (fun s => onThreads s g set fun _ th => th.goOn (pcAfter th.pc 4))
    (flagged_one _ _ _ (leadOf set) fun t => poisonFlag gr (inThread t (ownReads fs)))

/-! ## STMAP -/

/-- R287. STMAP that its checks let pass: its threads wait for its blocks, and the lowest owes the PZ of what it has read. -/
theorem exec_stmap {im : BitVec 10} {a d : BitVec 6} {t : Team} (h : RunsOnce (.stmap im a d) [regF a 2, regF d] s g set gr)
    (hfeature : s.feature 12 = true) (hkind : gr.key.kind ≠ .handler) (hteam : s.team? (gkeyTeam gr.key) = some t)
    (hblocks : stmapBad t (mapFirst gr set d) (im.toNat + 1) = none) (hfirst : canonical (mapBase gr set a) = true)
    (hlast : canonical ((mapBase gr set a + (im.toNat + 1) * 4096 - 1) % 2 ^ 64) = true)
    (hplain : s.rangeRegistered gr.key.ctx (mapBase gr set a) ((im.toNat + 1) * 4096) = false) :
    exec (.stmap im a d) s = .next (waitingOnce s g set gr [regF a 2, regF d]
      (.stmap (mapFirst gr set d) (im.toNat + 1) (mapBase gr set a))).settle := by
  refine (withIssue_eq _ s (stmapRun im a d) g set gr h.issuing h.wf).trans (congrArg Host.Outcome.next ?_)
  have hruns : ¬ (!(idle s).feature 12 || gr.key.kind == .handler) = true := by simp [show (idle s).feature 12 = true from hfeature, hkind]
  have hpend : firstPending gr (fun t => inThread t (ownRegs [regF a 2, regF d])) [leadOf set] = none := firstPending_usable h.usable
  have hplain' : (idle s).rangeRegistered gr.key.ctx (mapBase gr set a) ((im.toNat + 1) * 4096) = false := hplain
  simp only [mapFirst, mapBase] at hblocks hfirst hlast hplain'
  unfold stmapRun
  simp only [if_neg hruns, h.usable.fields, theAct_lead, hpend, show (idle s).team? (gkeyTeam gr.key) = some t from hteam, hblocks, hfirst,
    hlast, hplain', Bool.not_true, Bool.false_eq_true, if_false, show (theAct (.stmap im a d) g set gr).set = set from rfl,
    show (theAct (.stmap im a d) g set gr).g = g from rfl, blockAll_eq _ _ _ _ (rising_nodup h.issuing.rising)]
  exact congrArg State.settle (owePoison_eq _ _ _ _ (List.nodup_singleton _))

/-- R287. Where no other thread waits and the blocks are free, the wait of a STMAP ends at once, and maps its window. -/
theorem stmap_settles {fs : List Field} {first count base : Nat} {pc : Word} {at' : Nat} (hissuing : Issuing s g set gr) (hnone : NoneWait s)
    (hactive : s.active gr = true) (hfree : s.blocksFree (gkeyTeam gr.key) first count = true)
    (hsame : ∀ t ∈ set, t < gr.threads.length ∧ (gr.thread t).pc = pc ∧ (gr.thread t).issued = at') :
    (waitingOnce s g set gr fs (.stmap first count base)).settle =
      onThreads ((poisoned (idle s) g gr [leadOf set] fs).modTeam (gkeyTeam gr.key) (mapWindow first count base)) g set
        fun _ th => th.goOn (pcAfter th.pc 4) := by
  have hin : ∀ t ∈ set, t < gr.threads.length := fun t ht => (hsame t ht).1
  have hstate : ∀ t ∈ set, ((onceGroup gr set fs (.stmap first count base)).thread t).state = .blocked (.stmap first count base) := by
    intro t ht
    rw [thread_onceGroup hissuing.nonempty hin t, if_pos ht]
    rfl
  have hlead := leadOf_mem hissuing.nonempty
  have hwakes : (g, onceGroup gr set fs (.stmap first count base), leadOf set) ∈ (waitingOnce s g set gr fs (.stmap first count base)).wakeable := by
    refine mem_wakeable.2 ⟨waitingOnce_group hissuing.group, hactive, onceGroup_length.symm ▸ hin _ hlead, ?_⟩
    unfold State.wakes
    simp only [hstate _ hlead]
    exact hfree
  refine settle_once (List.ne_nil_of_mem hwakes) (fun x hx => ?_) ?_
  · obtain ⟨hgroup, -, hlength, hwake⟩ := mem_wakeable.1 hx
    obtain ⟨hg, hgr, ht⟩ := waitingOnce_blocked hissuing.group hissuing.nonempty hin hnone hgroup hlength (isBlocked_of_wakes hwake)
    unfold State.wake
    rw [hg, hgr]
    simp only [hstate _ ht, sameWait_onceGroup hissuing.rising (hnone gr (List.mem_of_getElem? hissuing.group)) hsame ht]
    exact endWait_waitingOnce _ hissuing hin
  · exact noneWait_onThreads _ _ _ _ (noneWait_flagged (idle s) g gr [leadOf set] _ hnone) fun _ _ _ => rfl

/-! ## STFLUSH -/

/-- R288. STFLUSH waits for the write-back of the window that holds its address, and goes on where none does. -/
theorem exec_stflush {a : BitVec 6} (h : RunsOnce (.stflush a) [regF a] s g set gr) (hfeature : s.feature 12 = true)
    (hkind : gr.key.kind ≠ .handler) :
    exec (.stflush a) s = .next (match (s.team? (gkeyTeam gr.key)).bind fun t => t.window? ((gr.thread (leadOf set)).reg a.toNat).toNat with
      | some w => waitingOnce s g set gr [regF a] (.stflush w.first)
      | none => onThreads (poisoned (idle s) g gr [leadOf set] [regF a]) g set fun _ th => th.goOn (nextPc (.stflush a) gr set)) := by
  have hn := rising_nodup h.issuing.rising
  refine (withIssue_eq _ s (stflushRun a) g set gr h.issuing h.wf).trans (congrArg Host.Outcome.next ?_)
  have hruns : ¬ (!(idle s).feature 12 || gr.key.kind == .handler) = true := by simp [show (idle s).feature 12 = true from hfeature, hkind]
  have hpend : firstPending gr (fun t => inThread t (ownRegs [regF a])) [leadOf set] = none := firstPending_usable h.usable
  unfold stflushRun
  simp only [if_neg hruns, h.usable.fields, hpend, theAct_lead, show (theAct (.stflush a) g set gr).set = set from rfl,
    show (theAct (.stflush a) g set gr).g = g from rfl, show (idle s).team? (gkeyTeam gr.key) = s.team? (gkeyTeam gr.key) from rfl]
  cases (s.team? (gkeyTeam gr.key)).bind fun t => t.window? ((gr.thread (leadOf set)).reg a.toNat).toNat with
  | some w =>
    exact (owePoison_eq _ _ _ _ (List.nodup_singleton _)).trans
      (congrArg (fun s => owing s g gr [leadOf set] [regF a]) (blockAll_eq _ _ _ _ hn))
  | none =>
    exact (goAll_eq _ _ _ _ hn).trans (congrArg (fun s => onThreads s g set fun _ th => th.goOn (nextPc (.stflush a) gr set))
      (raisePoison_eq _ _ _ _ _ (List.nodup_singleton _) ⟨gr, idle_group h.issuing, rfl⟩))

end Windows

/-- Settles O19: `exec_stmap` and `stmap_settles` for STMAP, `exec_stflush` for STFLUSH. -/
theorem stashWindows : Obligations.StashWindows := by
  refine ⟨fun s g set gr im a d t h hfeature hkind hteam => ?_, fun s g set gr a h hfeature hkind => exec_stflush h hfeature hkind⟩
  intro first base count fs hblocks hfirst hlast hplain
  have hexec := exec_stmap h hfeature hkind hteam hblocks hfirst hlast hplain
  exact ⟨hexec, fun hnone hactive hfree hsame =>
    hexec.trans (congrArg Host.Outcome.next (stmap_settles h.issuing hnone hactive hfree hsame))⟩

end Sys2Proof.Proofs

namespace Sys2Proof.Proofs

open Sys2Proof.Machine Sys2Proof.Safety Sys2Proof.Laws

/-! # Traps that a handler takes, and the debug window (spec/10_traps_reliability.md R178, R182, R184, R185,
spec/15_isa_control_sync.md R317) -/

section Handled

variable {s : State} {g : Nat} {gr : Group}

/-- R182. A context keeps a new record and, of those before it, the last 15. -/
theorem keepTrap_eq (r : TrapRec) :
    keepTrap r = fun c => { c with traps := (c.traps ++ [r]).drop (c.traps.length - 15) } := by
  funext c
  simp only [keepTrap, List.length_append, List.length_singleton, Nat.reduceSubDiff]

/-- R182. A trap that is not fatal is noted in its group and its context, and its record goes to the control core. -/
theorem takeTrap_of_handled (hgroup : s.groups[g]? = some gr) (hfatal : s.trapIsFatal gr = false) (set : List Nat) (t : Nat)
    (code : BitVec 8) (detail : Word) : s.takeTrap g set t code detail =
      (trapNoted s g set gr (s.record gr t code detail false)).modCore gr.core fun x =>
        { x with trapQueue := x.trapQueue ++ [s.record gr t code detail false] } := by
  simp only [State.takeTrap, hgroup, hfatal, Bool.false_eq_true, if_false]
  rfl

end Handled

/-- Settles O36: a trap that is not fatal (`trapIsFatal_iff`) does what `takeTrap_of_handled` says, and the context keeps the record
as in `keepTrap_eq`. -/
theorem trapEntry : Obligations.TrapEntry := by
  intro s g set gr t code detail hgroup hkind hvec
  have hfatal : s.trapIsFatal gr = false := by
    rw [Bool.eq_false_iff, Ne, trapIsFatal_iff, hvec]
    simp [hkind]
  rw [takeTrap_of_handled hgroup hfatal, trapNoted, keepTrap_eq]
  rfl

end Sys2Proof.Proofs

namespace Sys2Proof.Proofs

open Sys2Proof.Machine Sys2Proof.Safety Sys2Proof.Laws

section Window

variable {i : Instr} {fs : List Field} {s : State} {g : Nat} {set : List Nat} {gr : Group} {a d : BitVec 6} {im : BitVec 10}

/-! ## The frame of the debug-window instructions -/

theorem outsideHandler_eq_false (hkind : gr.key.kind = .handler) (s : State) : outsideHandler gr s = false := by
  simp [outsideHandler, hkind]

/-- Table 11.20. A system instruction that the issuing thread may not run traps ILLEGAL_OP, whatever its fields are. -/
theorem withIssue_sysRun_of_illegal {ill : Group → State → Bool} (h : Issuing s g set gr) (hill : ill gr (idle s) = true)
    (f : Act → Group → State → State) :
    withIssue i s (sysRun ill fs f) = .next ((theAct i g set gr).illegal (idle s)) := by
  cases hwf : i.wf with
  | false => exact withIssue_of_not_wf _ h hwf
  | true => rw [withIssue_eq i s _ g set gr h hwf, sysRun, sysChecks, sysFields, if_pos hill]

/-- R317. The instructions that run only in a handler. -/
def handlerOnly : Instr → Bool
  | .dwsel _ _ | .dwrd _ _ | .dwwr _ _ | .dwres _ _ | .dwkill => true
  | _ => false

theorem handlerOnly_of_form
    (h : (∃ a d, i = .dwsel a d ∨ i = .dwrd a d ∨ i = .dwwr a d) ∨ (∃ im a, i = .dwres im a) ∨ i = .dwkill) : handlerOnly i = true := by
  obtain ⟨a, d, rfl | rfl | rfl⟩ | ⟨im, a, rfl⟩ | rfl := h
  all_goals rfl

/-- R317. Each of them is a system instruction that is illegal outside a handler. -/
theorem exec_handlerOnly (h : handlerOnly i = true) (s : State) :
    ∃ fs f, exec i s = withIssue i s (sysRun outsideHandler fs f) := by
  cases i
  case dwsel | dwrd | dwwr | dwres | dwkill => exact ⟨_, _, rfl⟩
  all_goals cases h

/-- R317. Outside a handler they trap ILLEGAL_OP with their word. -/
theorem exec_handlerOnly_outside (hdebug : handlerOnly i = true) (h : Issuing s g set gr) (hkind : gr.key.kind ≠ .handler) :
    exec i s = .next ((idle s).takeTrap g set (leadOf set) 0x01 (BitVec.ofNat 32 (encodeWord i).1)) := by
  obtain ⟨fs, f, hexec⟩ := exec_handlerOnly hdebug s
  rw [hexec, withIssue_sysRun_of_illegal h (by simp [outsideHandler, hkind])]
  rfl

/-! ## Selecting a group, and its window (R184) -/

/-- R317. DWSEL: the group found becomes the handler's selection; without one, nothing is selected anew. -/
theorem exec_dwsel (h : Runs (.dwsel a d) [regF a, outF d] s g set gr) (hkind : gr.key.kind = .handler) :
    let s1 := acting [regF a, outF d] s g set gr
    exec (.dwsel a d) s = .next (match s1.selection gr ((gr.thread (leadOf set)).reg a.toNat) with
      | some k => onThreads (s1.modGroup g fun x => { x with handler := x.handler.map fun h => { h with sel := some k } }) g set
          fun _ th => (th.setReg d.toNat 1).goOn (nextPc (.dwsel a d) gr set)
      | none => onThreads s1 g set fun _ th => (th.setReg d.toNat 0).goOn (nextPc (.dwsel a d) gr set)) := by
  intro s1
  refine (runs_eq h outsideHandler _ (outsideHandler_eq_false hkind _)).trans (congrArg Host.Outcome.next ?_)
  simp only [each_eq (theAct (.dwsel a d) g set gr) _ _ (rising_nodup h.issuing.rising)]
  rfl

/-- R317. DWRD: a word of the selected group's window, or 0. -/
theorem exec_dwrd (h : Runs (.dwrd a d) [regF a, outF d] s g set gr) (hkind : gr.key.kind = .handler) :
    let s1 := acting [regF a, outF d] s g set gr
    let v := (((s1.selected gr).bind fun i => s1.groups[i]?).map fun x => x.windowRead ((gr.thread (leadOf set)).reg a.toNat)).getD 0
    exec (.dwrd a d) s = .next (onThreads s1 g set fun _ th => (th.setReg d.toNat v).goOn (nextPc (.dwrd a d) gr set)) :=
  (runs_eq h outsideHandler _ (outsideHandler_eq_false hkind _)).trans
    (congrArg Host.Outcome.next (each_eq (theAct (.dwrd a d) g set gr) _ _ (rising_nodup h.issuing.rising)))

/-- R184. DWWR: a word of the selected group's window is written, where one is selected. -/
theorem exec_dwwr (h : Runs (.dwwr a d) [regF a, regF d] s g set gr) (hkind : gr.key.kind = .handler) :
    let s1 := acting [regF a, regF d] s g set gr
    let th0 := gr.thread (leadOf set)
    exec (.dwwr a d) s = .next (onThreads (match s1.selected gr with
      | some i => s1.modGroup i fun x => x.windowWrite (th0.reg a.toNat) (th0.reg d.toNat)
      | none => s1) g set fun _ th => th.goOn (nextPc (.dwwr a d) gr set)) :=
  (runs_eq h outsideHandler _ (outsideHandler_eq_false hkind _)).trans
    (congrArg Host.Outcome.next (goAll_eq _ _ _ _ (rising_nodup h.issuing.rising)))

/-! ## The end of a stop (R185) -/

/-- R185. The group that a record holds leaves its stop: the record's hold and the selection of the group end. -/
def stopEnded (s : State) (g : Nat) (h : HandlerData) : State := (s.modGroup g endHold).deselect h.trap.group

/-- R185. DWRES: its threads go on, and the group that the record holds is resumed, after which waits may end. -/
theorem exec_dwres (h : Runs (.dwres im a) [regF a] s g set gr) (hkind : gr.key.kind = .handler) :
    let s0 := onThreads (acting [regF a] s g set gr) g set fun _ th => th.goOn (nextPc (.dwres im a) gr set)
    exec (.dwres im a) s = .next (match s0.heldGroup gr with
      | none => s0
      | some x => ((stopEnded s0 g x.2).resume x.1 (im == 0 && x.2.trap.code == tBreak && x.2.trap.detail == 1)
          (resumePc (stopEnded s0 g x.2) gr.key.ctx im.toNat ((gr.thread (leadOf set)).reg a.toNat))).settle) := by
  intro s0
  refine (runs_eq h outsideHandler _ (outsideHandler_eq_false hkind _)).trans (congrArg Host.Outcome.next ?_)
  simp only [goAll_eq _ _ (theAct (.dwres im a) g set gr).set _ (rising_nodup h.issuing.rising)]
  rfl

/-- R185. The PC at which a trapped thread goes on, by the immediate of DWRES. -/
theorem resumePc_eq (s : State) (c : Nat) (im : BitVec 10) (v : Word) (th : Thread) : resumePc s c im.toNat v th =
    if im = 0 then th.pc else if im = 1 then pcAfter th.pc (s.lengthAt c th.pc) else v &&& 0xFFFFFFFE := by
  by_cases h0 : im = 0
  · rw [if_pos h0, h0]
    rfl
  by_cases h1 : im = 1
  · rw [if_neg h0, if_pos h1, h1]
    rfl
  · rw [if_neg h0, if_neg h1]
    have hn0 : im.toNat ≠ 0 := fun e => h0 (BitVec.eq_of_toNat_eq e)
    have hn1 : im.toNat ≠ 1 := fun e => h1 (BitVec.eq_of_toNat_eq e)
    unfold resumePc
    split
    · exact absurd ‹_› hn0
    · exact absurd ‹_› hn1
    · rfl

/-- R317. DWKILL: its threads go on, and every thread of the group that the record holds exits. -/
theorem exec_dwkill (h : Runs .dwkill [] s g set gr) (hkind : gr.key.kind = .handler) :
    let s0 := onThreads (idle s) g set fun _ th => th.goOn (nextPc .dwkill gr set)
    exec .dwkill s = .next (match s0.heldGroup gr with
      | none => s0
      | some x => ((stopEnded s0 g x.2).modGroup x.1 fun y => { y with
          stop := false
          yielded := false
          trapped := []
          fetch := none
          threads := y.threads.map fun (th : Thread) => { th with state := .exited } }).afterExit x.1) := by
  intro s0
  refine (runs_eq h outsideHandler _ (outsideHandler_eq_false hkind _)).trans (congrArg Host.Outcome.next ?_)
  simp only [acting_nil _ _ _ _ (show ownReads [] = [] from rfl),
    goAll_eq _ _ (theAct .dwkill g set gr).set _ (rising_nodup h.issuing.rising)]
  rfl

end Window

/-- Settles O35: in a handler instruction by instruction, DWRES and DWKILL by whether the record still holds a group; outside one by
`exec_handlerOnly_outside`. -/
theorem debugWindow : Obligations.DebugWindow := by
  refine ⟨⟨fun s g set gr a d h hk => exec_dwsel h hk, fun s g set gr a d h hk => ?dwrd, fun s g set gr a d h hk => exec_dwwr h hk⟩,
    ⟨fun s g set gr im a h hk => ⟨fun hnone => ?kept, fun j hd hheld => ?resumed⟩,
      fun s g set gr h hk => ⟨fun hnone => ?alive, fun j hd hheld => ?killed⟩⟩,
    fun i s g set gr h hk hform => exec_handlerOnly_outside (handlerOnly_of_form hform) h hk⟩
  case dwrd =>
    intro s1 v
    have hv : v = (((s1.selected gr).bind fun i => s1.groups[i]?).map fun x =>
        x.windowRead ((gr.thread (leadOf set)).reg a.toNat)).getD 0 := by
      cases hsel : (s1.selected gr).bind fun i => s1.groups[i]? with
      | none => simp only [v, hsel]; rfl
      | some x => simp only [v, hsel]; rfl
    rw [hv]
    exact exec_dwrd h hk
  case kept =>
    rw [exec_dwres h hk, hnone]
  case resumed =>
    intro s1 pc again
    rw [exec_dwres h hk, hheld]
    simp only [State.resume, Thread.resume, funext (resumePc_eq _ _ _ _)]
    rfl
  case alive =>
    rw [exec_dwkill h hk, hnone]
  case killed =>
    rw [exec_dwkill h hk, hheld]
    rfl

end Sys2Proof.Proofs

namespace Sys2Proof.Proofs

open Sys2Proof.Machine Sys2Proof.Safety Sys2Proof.Laws

/-! # Decoding and encoding (spec/11_isa_encoding.md R203 to R207, R220, R224 to R228) -/

/-! ## Every instruction decodes from its word -/

section RoundTrips

open Sys2Proof.Laws.RoundTrip

/-- The round trip of each row, in the order of the rows: an event has no word. -/
theorem decode_encode (i : Instr) : Statement i :=
  Instr.rec (motive := Statement)
    movA movX movI addA addX addI subA subX subI mulloA mulloX mulloI mulhi mulhu madA madI andA andX andI orA orX orI
    xorA xorX xorI andnA andnX andnI shlA shlI shrA shrI sraA sraI minA minX minI maxA maxX maxI minuA minuX minuI
    maxuA maxuX maxuI seqA seqI sneA sneI sltA sltI sleA sleI sltuA sltuI sleuA sleuI selt self popc clz brevA add64A
    add64I madw faddA faddX fsubA fsubX fmulA fmulX fmaA fmaX fminA fminX fmaxA fmaxX fseq fslt fsle fscaleA fscaleI
    badd2A badd2X bmul2A bmul2X bfma2A bfma2X hfma2A hfma2X hadd2A hadd2X iadd2sA iadd2sX isub2sA isub2sX idot2A
    idot2X ishr2rA ishr2rI ipack2s idot4A idot4X cvt sfu redg scang smxacc smxnorm tbl lget rand mov16 add16 sub16
    and16 or16 xor16 shl16 shr16 sra16 mullo16 fadd16 fsub16 fmul16 fmax16 fmin16 movi16 movi movhi addi movbf lpc
    ldgB ldgSb ldgH ldgSh ldgW ldgD ldgQ ldsH ldsW ldsD ldsQ stgB stgH stgW stgD stgQ stsH stsW stsD stsQ aadd amin
    amax aand aor axor axch acas afadd dred acasD axchD bra call brx ret exit brk tload tstore tgather tzero tpref
    xput xget tscat mma mmar mmas smma accalloc accfree accld accst bfly btwid brevEng atrans lubeg lustep lucand
    lucommit luend smul strunc sltz slut sopen accrow nop barg bart bararv barwt waitc waitw swait syncset mbr mbw
    qroute qstat yield nap reggrow regshrink ident trap flagrd flagclr csrrd csrwr elect vote dflush tblld stmap
    stflush xfence launch mark perfrd dwsel dwrd dwwr dwres dwkill deviceReset firmwareImageReceived diePowerUp
    clusterPowerUp bootStageComplete columnRampStep lifecycleTransition mctpStatusRequest pldmFirmwareUpdate
    pldmMonitoring spdmDeviceAuthentication flitInject slotReserve flitPassStation flitAtDestination
    reassemblyIdleTimeout reassemblyAheadTimeout linkFrameSend linkFlitReceive nakReceive nakResendTimeout
    pauseReceive resumeReceive flowStateRepeat keyswReceive linkAbortReceive keySwitchPoint keyHoldPoint
    keyLoadTimeout keyLoad linkKeyAgreement frameLockLoss linkDownCommand linkUp routeTableWrite deviceIdentityWrite
    ctxSubmit qbaseWrite qcfgWrite featackWrite registerWrite hostBar2Read hostBar2Write tdispRequest vfConfigChange
    partitionAssign partitionReset ownerChange contextActivate contextFree stileSessionOpen hamperRegionName
    consentWithdraw coreReclaimRequest coreReturn yieldDeadline teamEvictSave remoteGrant remoteRevoke
    debugBreakpointSet traceRingEnable meteringStatementRequest jobBegin jobEnd jobRecordRequest nodeConsume
    dispatchOpportunity clusterReserve controlThreadStart teamRetire nodeCommit rollbackRequeue handlerStart
    whistleFire ownerTimeout napExpire loadDataArrival storePerformed waitwWake reggrowGrant accallocGrant
    tblldComplete queueWordDeliver barrierPhaseComplete basketBatchApply engineCommandStart engineCommandComplete
    remoteLineWrite remoteLineRead remoteAck pageFaultService stashWriteback bankSparing shareContributionArrive
    shareResultReceive roundDeadline abortHoldExpiry stflushWritebackComplete i

end RoundTrips

/-- Settles O2, by the round trip of each row. -/
theorem decodeEncode : Obligations.DecodeEncode := decode_encode

/-! ## What decoding gives for the bytes at hand (R203) -/

section Lengths

variable {b0 b1 : Byte}

/-- R203. An answer of the decoder is an instruction of a length, or an error. -/
def LengthIs (n : Nat) (e : Except DecodeError Instr) : Prop := ∀ i, e = .ok i → instrLen i = n

@[simp] theorem lengthIs_ok {n : Nat} {i : Instr} : LengthIs n (.ok i) ↔ instrLen i = n :=
  ⟨fun h => h i rfl, fun h j e => by cases e; exact h⟩

@[simp] theorem lengthIs_error (n : Nat) (e : DecodeError) : LengthIs n (.error e) := fun _ h => by cases h

@[simp] theorem lengthIs_fixedOr {n : Nat} {ok : Bool} {cls op : Nat} {i : Instr} :
    LengthIs n (fixedOr ok cls op i) ↔ (ok = true → instrLen i = n) := by
  unfold fixedOr
  split <;> simp [*]

theorem decode16_length (w : Nat) : LengthIs 2 (decode16 w) := by
  unfold decode16
  split
  · exact lengthIs_error _ _
  · split <;> simp [instrLen, encodeWord]

theorem decodeA_length (w : Nat) : LengthIs 4 (decodeA w) := by
  unfold decodeA
  split <;> simp [instrLen, encodeWord]

theorem decodeX_length (w : Nat) : LengthIs 4 (decodeX w) := by
  unfold decodeX
  split <;> simp [instrLen, encodeWord]

theorem decodeI_length (w : Nat) : LengthIs 4 (decodeI w) := by
  unfold decodeI
  split <;> simp [instrLen, encodeWord]

theorem decodeM_length (w : Nat) : LengthIs 4 (decodeM w) := by
  unfold decodeM
  split <;> simp [instrLen, encodeWord]

theorem decodeB_length (w : Nat) : LengthIs 4 (decodeB w) := by
  unfold decodeB
  split <;> simp [instrLen, encodeWord]

theorem decodeE_length (w : Nat) : LengthIs 4 (decodeE w) := by
  unfold decodeE
  split <;> simp [instrLen, encodeWord]

theorem decodeS_length (w : Nat) : LengthIs 4 (decodeS w) := by
  unfold decodeS
  split <;> simp [instrLen, encodeWord]

theorem decodeW_length (w : Nat) : LengthIs 4 (decodeW w) := by
  unfold decodeW
  split <;> simp [instrLen, encodeWord]

theorem decode32_length (w : Nat) : LengthIs 4 (decode32 w) := by
  unfold decode32
  split
  exacts [decodeA_length w, decodeX_length w, decodeI_length w, decodeM_length w, decodeB_length w, decodeE_length w,
    decodeS_length w, decodeW_length w]

theorem halfword_even (h : b0.getLsbD 0 = false) : (b0.toNat + 256 * b1.toNat) % 2 = 0 := by
  have hbit : b0.toNat % 2 = 0 := by simpa [BitVec.getLsbD, Nat.testBit_zero] using h
  omega

theorem halfword_odd (h : b0.getLsbD 0 = true) : (b0.toNat + 256 * b1.toNat) % 2 ≠ 0 := by
  have hbit : b0.toNat % 2 = 1 := by simpa [BitVec.getLsbD, Nat.testBit_zero] using h
  omega

/-- An instruction decoded of some length, from all the bytes there are. -/
theorem map_rest {n : Nat} {e : Except DecodeError Instr} (hlen : LengthIs n e) {i : Instr} {rest : List Byte}
    (h : e.map (fun j => (j, ([] : List Byte))) = .ok (i, rest)) : instrLen i = n ∧ rest = [] := by
  cases e with
  | error x => cases h
  | ok j =>
    cases h
    exact ⟨lengthIs_ok.1 hlen, rfl⟩

theorem decode_even {i : Instr} {rest : List Byte} (heven : b0.getLsbD 0 = false) (h : decode [b0, b1] = .ok (i, rest)) :
    instrLen i = 2 ∧ rest = [] := by
  simp only [decode, if_pos (halfword_even heven)] at h
  exact map_rest (decode16_length _) h

theorem decode_odd {b2 b3 : Byte} {i : Instr} {rest : List Byte} (hodd : b0.getLsbD 0 = true)
    (h : decode [b0, b1, b2, b3] = .ok (i, rest)) : instrLen i = 4 ∧ rest = [] := by
  simp only [decode, if_neg (halfword_odd hodd)] at h
  exact map_rest (decode32_length _) h

theorem decode_truncated {b2 : Byte} (hodd : b0.getLsbD 0 = true) : decode [b0, b1, b2] = .error .truncated := by
  simp only [decode, if_neg (halfword_odd hodd)]

end Lengths

/-- Settles O1: each word by evaluation, and the lengths by `decode16_length` and `decode32_length`. -/
theorem wordsDecode : Obligations.WordsDecode := by
  refine ⟨⟨rfl, rfl, rfl, rfl, rfl, rfl, rfl, rfl, rfl, rfl, rfl, rfl, rfl, rfl⟩, fun _ => rfl, ?even, ?truncated, ?odd⟩
  case even => exact fun b0 b1 i rest heven h => decode_even heven h
  case truncated => exact fun b0 b1 b2 hodd => decode_truncated hodd
  case odd => exact fun b0 b1 b2 b3 i rest hodd h => decode_odd hodd h

end Sys2Proof.Proofs

namespace Sys2Proof.Proofs

open Sys2Proof.Machine Sys2Proof.Safety Sys2Proof.Laws

/-! # Register fields, and registers read, written and poisoned (spec/11_isa_encoding.md R208, R209, R213) -/

section Registers

variable {b : Nat} {f : Field} {th : Thread} {n m : Nat} {v : Word}

/-! ## What a field finds (R208, R209) -/

theorem fault_63 (h : f.num = 63) : f.fault b = some 63 := by
  simp [Field.fault, h]

theorem fault_vz (h : f.num = 62) : f.fault b = none := by
  simp [Field.fault, h]

theorem fault_qr (h : f.num = 61) : f.fault b = if f.qr = true ∧ f.size = 1 then none else some 61 := by
  simp [Field.fault, h]

theorem fault_qs (h : f.num = 60) : f.fault b = if f.qs = true ∧ f.size = 1 then none else some 60 := by
  simp [Field.fault, h]

/-- R209. A number below the ports is a register: it must be within the budget, aligned to its span, and the span within the budget. -/
theorem fault_register (h : f.num < 60) : f.fault b =
    if b ≤ f.num ∨ f.num % f.size ≠ 0 then some (BitVec.ofNat 32 f.num)
    else if b < f.num + f.size then some (BitVec.ofNat 32 b) else none := by
  have hports : f.num ≠ 63 ∧ f.num ≠ 62 ∧ f.num ≠ 61 ∧ f.num ≠ 60 := by omega
  obtain ⟨h63, h62, h61, h60⟩ := hports
  simp only [Field.fault, h63, h62, h61, h60, if_false]
  by_cases hb : b ≤ f.num <;> simp [hb]

/-! ## Reading after a write, and after a last use (R208, R213) -/

theorem isPoison_setReg (h : n < 60) : (th.setReg n v).isPoison n = false := by
  simp only [Thread.setReg, Thread.isPoison, h, if_true, decide_true, Bool.true_and, List.getD_eq_getElem?_getD, List.getElem?_set]
  split <;> rfl

theorem reg_setReg_other (h : m ≠ n) : (th.setReg n v).reg m = th.reg m := by
  unfold Thread.setReg
  split
  · simp [Thread.reg, List.getD_eq_getElem?_getD, List.getElem?_set_ne h.symm]
  · rfl

theorem reg_vz : th.reg 62 = 0 := rfl

theorem setReg_vz : th.setReg 62 v = th := rfl

theorem reg_poison (hn : n < th.regs.length) (h : n < 60) : (th.poison n).reg n = poisonWord := by
  simp [Thread.poison, Thread.reg, h, hn]

theorem isPoison_poison (hn : n < th.pois.length) (h : n < 60) : (th.poison n).isPoison n = true := by
  simp [Thread.poison, Thread.isPoison, h, hn]

end Registers

/-- Settles O13: a field by what its number names, and a register by whether the number is that of the write. -/
theorem registers : Obligations.Registers := by
  refine ⟨fun b f hb hsize => ⟨fault_63, fault_vz, fault_qr, fault_qs, ?beyond, ?odd, ?span, ?within⟩,
    fun th n m v hregs hpois => ⟨fun h => ⟨reg_setReg_same th h hregs v, isPoison_setReg h⟩, reg_setReg_other, reg_vz, setReg_vz,
      fun h => ⟨reg_poison (hregs ▸ h) h, isPoison_poison (hpois ▸ h) h⟩⟩⟩
  case beyond =>
    intro h hbeyond
    rw [fault_register h, if_pos (.inl hbeyond)]
  case odd =>
    intro h hodd
    rw [fault_register (by omega), if_pos (.inr hodd)]
  case span =>
    intro h heven hspan
    rw [fault_register (by omega), if_neg (by omega), if_pos hspan]
  case within =>
    intro heven hspan
    rw [fault_register (by omega), if_neg (by omega), if_neg (by omega)]

end Sys2Proof.Proofs

namespace Sys2Proof.Proofs

open Sys2Proof.Machine Sys2Proof.Safety Sys2Proof.Laws

/-! # Flags, context registers and trace records (spec/15_isa_control_sync.md R311, R315, spec/11_isa_encoding.md R230, R231) -/

/-! ## The instructions -/

section Writes

variable {s : State} {g : Nat} {set : List Nat} {gr : Group}

/-- R311. FLAGCLR clears flags of the group and of each issuing thread. -/
theorem exec_flagclr {im : BitVec 7} (h : Runs (.flagclr im) [] s g set gr) :
    exec (.flagclr im) s = .next (onThreads
      ((idle s).modGroup g fun x => { x with flags := clearFlags s.cycle im x.flags x.raised }) g set fun _ th =>
        Thread.goOn { th with flags := clearFlags s.cycle im th.flags th.raised } (nextPc (.flagclr im) gr set)) := by
  refine (runs_eq h legal _ rfl).trans (congrArg Host.Outcome.next ?_)
  simp only [acting_nil _ _ _ _ (show ownReads [] = [] from rfl)]
  exact each_eq (theAct (.flagclr im) g set gr) _ _ (rising_nodup h.issuing.rising)

/-- R230. CSRWR writes the register for one thread after another. -/
theorem exec_csrwr {im : BitVec 10} {a : BitVec 6} (h : Runs (.csrwr im a) [regF a] s g set gr) :
    exec (.csrwr im a) s = .next (onThreads
      (set.foldl (fun s t => s.csrWrite gr.key t (gr.l t) im.toNat ((gr.thread t).reg a.toNat)) (acting [regF a] s g set gr)) g set
      fun _ th => th.goOn (nextPc (.csrwr im a) gr set)) :=
  (runs_eq h legal _ rfl).trans (congrArg Host.Outcome.next (goAll_eq _ _ _ _ (rising_nodup h.issuing.rising)))

theorem traceRecord_eq (i : Instr) (id value : Word) :
    traceRecord s (theAct i g set gr) gr id value = markRecord s gr set id value := by
  simp only [traceRecord, markRecord, beq_iff_eq]
  rfl

/-- R315. MARK adds its record to the trace ring of the context. -/
theorem exec_mark {im : BitVec 10} {a : BitVec 6} (h : RunsOnce (.mark im a) [regF a] s g set gr) :
    exec (.mark im a) s = .next (onThreads ((poisoned (idle s) g gr [leadOf set] [regF a]).modCtx gr.key.ctx
      (addTrace (markRecord s gr set (im.zeroExtend 32) ((gr.thread (leadOf set)).reg a.toNat)))) g set fun _ th =>
        th.goOn (nextPc (.mark im a) gr set)) := by
  refine (runsOnce_eq h legal _ rfl).trans (congrArg Host.Outcome.next ?_)
  rw [traceRecord_eq]
  exact goAll_eq _ _ _ _ (rising_nodup h.issuing.rising)

end Writes

/-- Settles O30, instruction by instruction. -/
theorem systemWrites : Obligations.SystemWrites :=
  ⟨fun _ _ _ _ _ h => exec_flagclr h, fun _ _ _ _ _ _ h => exec_csrwr h, fun _ _ _ _ _ _ h => exec_mark h⟩

/-! ## The history of a context register (R231, log 10) -/

section History

variable {s s' : State} {r : Csr} {n : Nat} {who other : GKey × Nat} {l lw v base : Word} {w x : CsrWrite} {ws : List CsrWrite}

/-- R231. A write of the cycle of s by a thread of a higher L than lw, which stands against a write by lw. -/
def Outranks (s : State) (lw : Word) (w : CsrWrite) : Prop := w.cycle = s.cycle ∧ lw.toNat < w.l.toNat

/-- The writes that a write of a register leaves in its history: those of the last 256 cycles. -/
def liveWrites (s : State) (r : Csr) : List CsrWrite := r.writes.takeWhile fun w => decide (s.cycle < w.cycle + 256)

/-- The value that every thread has seen once a register is written: that of the newest write that has left the history. -/
def settledBase (s : State) (r : Csr) : Word := ((r.writes.drop (liveWrites s r).length).head?.map CsrWrite.val).getD r.base

theorem write_eq : r.write s who lw v = { base := settledBase s r, writes := putWrite ⟨v, who, lw, s.cycle⟩ (liveWrites s r) } := rfl

theorem mem_of_mem_live (h : w ∈ liveWrites s r) : w ∈ r.writes := (List.takeWhile_sublist _).subset h

theorem settledBase_from : settledBase s r = r.base ∨ ∃ w ∈ r.writes, settledBase s r = w.val := by
  unfold settledBase
  cases hdrop : r.writes.drop (liveWrites s r).length with
  | nil => exact .inl rfl
  | cons w ws => exact .inr ⟨w, (List.drop_sublist _ _).subset (hdrop ▸ List.mem_cons_self), rfl⟩

/-! ### Where a write is put -/

theorem putWrite_first (h : ∀ x ∈ ws, ¬ Outranks s lw x) : putWrite ⟨v, who, lw, s.cycle⟩ ws = ⟨v, who, lw, s.cycle⟩ :: ws := by
  cases ws with
  | nil => rfl
  | cons x xs => exact if_neg (h x List.mem_cons_self)

theorem mem_putWrite (h : x ∈ putWrite w ws) : x = w ∨ x ∈ ws := by
  induction ws with
  | nil => exact .inl (List.mem_singleton.1 h)
  | cons y ys ih =>
    rw [putWrite] at h
    split at h
    · rcases List.mem_cons.1 h with rfl | h
      · exact .inr List.mem_cons_self
      · exact (ih h).imp_right (List.mem_cons_of_mem _)
    · exact List.mem_cons.1 h

/-! ### What a thread sees of a history -/

theorem seenWrite_newest (h : w.writer = who ∨ w.cycle + 256 ≤ s'.cycle) : seenWrite s' n who l base (w :: ws) = w.val := by
  rw [seenWrite, if_pos]
  rcases h with h | h <;> simp [h]

theorem seenWrite_cons_or : seenWrite s' n who l base (w :: ws) = w.val ∨ seenWrite s' n who l base (w :: ws) = seenWrite s' n who l base ws := by
  rw [seenWrite]
  split
  · exact .inl rfl
  · exact .inr rfl

theorem seenWrite_from : seenWrite s' n who l base ws = base ∨ ∃ w ∈ ws, seenWrite s' n who l base ws = w.val := by
  induction ws with
  | nil => exact .inl rfl
  | cons w ws ih =>
    rcases seenWrite_cons_or (s' := s') (n := n) (who := who) (l := l) (base := base) (w := w) (ws := ws) with h | h
    · exact .inr ⟨w, List.mem_cons_self, h⟩
    · rw [h]
      exact ih.imp_right fun ⟨x, hx, e⟩ => ⟨x, List.mem_cons_of_mem _ hx, e⟩

/-! ### A write that no other of its cycle outranks, and one that the newest outranks -/

theorem write_stands (h : ∀ w ∈ r.writes, ¬ Outranks s lw w) :
    r.write s who lw v = { base := settledBase s r, writes := ⟨v, who, lw, s.cycle⟩ :: liveWrites s r } := by
  rw [write_eq, putWrite_first fun x hx => h x (mem_of_mem_live hx)]

theorem val_write (h : ∀ w ∈ r.writes, ¬ Outranks s lw w) : (r.write s who lw v).val = v := by
  rw [write_stands h]
  rfl

theorem live_cons (hr : r.writes = w :: ws) (hlive : s.cycle < w.cycle + 256) :
    liveWrites s r = w :: ws.takeWhile fun x => decide (s.cycle < x.cycle + 256) := by
  rw [liveWrites, hr, List.takeWhile_cons_of_pos (by simpa using hlive)]

theorem write_outranked (hr : r.writes = w :: ws) (hw : Outranks s lw w) : (r.write s who lw v).writes =
    w :: putWrite ⟨v, who, lw, s.cycle⟩ (ws.takeWhile fun x => decide (s.cycle < x.cycle + 256)) := by
  rw [write_eq, live_cons hr (by rw [hw.1]; omega)]
  exact if_pos hw

theorem see_writer_outranked (hr : r.writes = w :: ws) (hw : Outranks s lw w) (hws : ∀ x ∈ ws, ¬ Outranks s lw x) :
    (r.write s who lw v).see s' n who l = v ∨ (r.write s who lw v).see s' n who l = w.val := by
  rw [Csr.see, write_outranked hr hw, putWrite_first fun x hx => hws x ((List.takeWhile_sublist _).subset hx)]
  rcases seenWrite_cons_or with h | h
  · exact .inr h
  · exact .inl (h.trans (seenWrite_newest (.inl rfl)))

/-- Every thread sees the new value or one that stood before. -/
theorem see_from : (r.write s who lw v).see s' n other l = v ∨ (r.write s who lw v).see s' n other l = r.base ∨
    ∃ w ∈ r.writes, (r.write s who lw v).see s' n other l = w.val := by
  rw [Csr.see, write_eq]
  rcases seenWrite_from with h | ⟨w, hw, h⟩
  · exact .inr (h ▸ settledBase_from)
  · rcases mem_putWrite hw with rfl | hw
    · exact .inl h
    · exact .inr (.inr ⟨w, mem_of_mem_live hw, h⟩)

/-- The writer before sees its own value or the new one: its write stands in the history, or every thread has seen it. -/
theorem see_writer_before (hr : r.writes = w :: ws) :
    (r.write s who lw v).see s' n w.writer l = v ∨ (r.write s who lw v).see s' n w.writer l = w.val := by
  by_cases hlive : s.cycle < w.cycle + 256
  · have hown : ∀ ws', seenWrite s' n w.writer l (settledBase s r) (w :: ws') = w.val := fun _ => seenWrite_newest (.inl rfl)
    rw [Csr.see, write_eq, live_cons hr hlive, putWrite]
    split
    · exact .inr (hown _)
    · exact seenWrite_cons_or.imp_right fun h => h.trans (hown _)
  · have hnone : liveWrites s r = [] := by rw [liveWrites, hr, List.takeWhile_cons_of_neg (by simpa using hlive)]
    have hbase : settledBase s r = w.val := by rw [settledBase, hnone, hr]; rfl
    rw [Csr.see, write_eq, hnone, hbase]
    exact seenWrite_cons_or

end History

/-! ## What CSRWR stores (R230) -/

section Stored

variable {s : State} {k : GKey} {t n : Nat} {lw v : Word}

/-- The context of the group after a CSRWR. -/
def csrStored (s : State) (k : GKey) (t : Nat) (lw : Word) (n : Nat) (v : Word) (c : Context) : Context :=
  match n with
  | 0 => { c with round := c.round.write s (k, t) lw (v &&& 3) }
  | 1 => { c with flags := (c.flags &&& ~~~v) ||| (if c.raised.1 = s.cycle then c.raised.2 else 0) }
  | 2 => { c with whistle := c.whistle.write s (k, t) lw v }
  | 3 => { c with trapVec := c.trapVec.write s (k, t) lw v }
  | 12 => { c with lease := c.lease.write s (k, t) lw (if v &&& 63 = 0 then 1 else v &&& 63) }
  | _ => c

theorem csrWrite_ctx (h : k.ctx < s.ctxs.length) : (s.csrWrite k t lw n v).ctx k.ctx = csrStored s k t lw n v (s.ctx k.ctx) :=
  (modCtx_ctx ..).trans (if_pos ⟨rfl, h⟩)

theorem csrWrite_ctx_other {j : Nat} (h : j ≠ k.ctx) : (s.csrWrite k t lw n v).ctx j = s.ctx j :=
  (modCtx_ctx ..).trans (if_neg fun e => h e.1.symm)

end Stored

/-- Settles O31: what is seen by where the write is put in the history, what is stored by `csrStored`. -/
theorem contextRegisters : Obligations.ContextRegisters := by
  refine ⟨fun s r n who lw v => ⟨fun hfirst s' l => ?stands, fun w ws hr hw hws s' l => ?outranked, fun s' other l => see_from,
      fun s' w ws l hr => see_writer_before hr⟩,
    fun s k t lw v hk => ⟨fun h => ?round, ?flags, fun h => ?whistle, fun h => ?trapVec, fun h => ?lease,
      fun n => ⟨fun j hj => csrWrite_ctx_other hj, rfl⟩⟩⟩
  case stands =>
    simp only [Csr.see, write_stands hfirst]
    exact ⟨seenWrite_newest (.inl rfl), fun other hold => seenWrite_newest (.inr hold)⟩
  case outranked =>
    refine ⟨see_writer_outranked hr hw hws, fun other hold => ?_⟩
    rw [Csr.see, write_outranked hr hw]
    exact seenWrite_newest (.inr (by rw [hw.1]; exact hold))
  case flags => exact congrArg Context.flags (csrWrite_ctx hk)
  case round =>
    simp only [csrWrite_ctx hk]
    exact val_write h
  case whistle =>
    simp only [csrWrite_ctx hk]
    exact val_write h
  case trapVec =>
    simp only [csrWrite_ctx hk]
    exact val_write h
  case lease =>
    simp only [csrWrite_ctx hk]
    exact val_write h

end Sys2Proof.Proofs

namespace Sys2Proof.Proofs

open Sys2Proof.Machine Sys2Proof.Safety Sys2Proof.Laws

/-! # The ports of lane operations, and SELT and SELF (spec/11_isa_encoding.md R210, spec/12_isa_lane_ops.md R244,
spec/15_isa_control_sync.md R303 to R305) -/

/-! ## Threads that begin to wait, and threads that take a word -/

section Ports

variable {s : State} {g : Nat} {set : List Nat} {gr : Group}

/-- Some threads wait, and others take the words that their queues held when the instruction began. -/
theorem takeWords_blockAll {wait ts : List Nat} (hwait : wait.Nodup) (hts : ts.Nodup) (hg : s.groups[g]? = some gr) (w : Wait) :
    ts.foldl (fun s t => s.takeWord g t gr.key) (s.blockAll g wait w) = tookWords (onThreads s g wait fun _ th => th.block w) g gr ts := by
  rw [blockAll_eq _ _ _ _ hwait]
  refine foldl_takeWord hts (onThreads_group hg wait _) fun t _ => ?_
  rw [thread_onGroup]
  split <;> rfl

theorem takeWords_fed (hn : set.Nodup) (hg : s.groups[g]? = some gr) (i : Instr) :
    (fed gr set).foldl (fun s t => s.takeWord g t gr.key) (s.blockAll g (starved gr set) (.qr i)) = fedThreads i s g gr set :=
  takeWords_blockAll (hn.filter _) (hn.filter _) hg _

theorem takeWords_all (hn : set.Nodup) (hg : s.groups[g]? = some gr) :
    set.foldl (fun s t => s.takeWord g t gr.key) s = tookWords s g gr set :=
  foldl_takeWord hn hg fun _ _ => rfl

/-! ## What keeps the routes of a group (R303) -/

/-- Group g of a state is gr, but for what leaves its key and the routes of its threads as they were. -/
def Routed (gr : Group) (g : Nat) (s : State) : Prop :=
  ∃ x, s.groups[g]? = some x ∧ x.key = gr.key ∧ ∀ t, (x.thread t).route = (gr.thread t).route

theorem routed_self (hg : s.groups[g]? = some gr) : Routed gr g s := ⟨gr, hg, rfl, fun _ => rfl⟩

theorem routed_of_groups {s' : State} (h : Routed gr g s) (hgroups : s'.groups = s.groups) : Routed gr g s' := by
  rw [Routed, hgroups]
  exact h

theorem routed_onThreads (h : Routed gr g s) (ts : List Nat) {f : Nat → Thread → Thread} (hf : ∀ t th, (f t th).route = th.route) :
    Routed gr g (onThreads s g ts f) := by
  obtain ⟨x, hx, hkey, hroute⟩ := h
  refine ⟨onGroup ts f x, onThreads_group hx ts f, hkey, fun t => ?_⟩
  rw [thread_onGroup]
  split
  · exact (hf t _).trans (hroute t)
  · exact hroute t

theorem routed_modThread (h : Routed gr g s) (t : Nat) {f : Thread → Thread} (hf : ∀ th, (f th).route = th.route) :
    Routed gr g (s.modThread g t f) := by
  rw [modThread_onThreads]
  exact routed_onThreads h [t] fun _ => hf

theorem routed_flagged (h : Routed gr g s) (ts : List Nat) (fl : Nat → Flags) : Routed gr g (flagged s g gr ts fl) := by
  obtain ⟨x, hx, hkey, hroute⟩ := h
  refine ⟨flagGroup s.cycle ts fl x, by simp [flagged, hx], hkey, fun t => ?_⟩
  have hthread : (flagGroup s.cycle ts fl x).thread t = (onGroup ts (fun u th => th.raiseBits s.cycle (fl u)) x).thread t := rfl
  rw [hthread, thread_onGroup]
  split <;> exact hroute t

theorem routed_finish (h : Routed gr g s) (t : Nat) (f : Flags) (cat inc : Nat) (next : Word) :
    Routed gr g (s.finish g t gr.key f cat inc next) := by
  obtain ⟨x, hx, hkey, -⟩ := id h
  have hraise : s.raise g t f = flagged s g gr [t] fun _ => f := raise_eq _ _ _ _ _ ⟨x, hx, hkey⟩
  have hmeter : (flagged s g gr [t] fun _ => f).groups = ((flagged s g gr [t] fun _ => f).meter gr.key cat inc).groups := by
    unfold State.meter
    split <;> rfl
  rw [State.finish, hraise]
  exact routed_modThread (routed_of_groups (routed_flagged h _ _) hmeter.symm) t fun _ => rfl

theorem sendWord_groups (s : State) (k : GKey) (t : Nat) (d : Word × Word) (v : Word) : (s.sendWord k t d v).groups = s.groups := by
  have hseal : (s.sealNow k.ctx k.node 4).groups = s.groups := by
    obtain ⟨nodes', mem', h⟩ := (sealNow_seals s k.ctx k.node 4).frame
    rw [h]
  unfold State.sendWord
  split
  · rfl
  · exact hseal

theorem routed_tookWords (h : Routed gr g s) (ts : List Nat) : Routed gr g (tookWords s g gr ts) := by
  unfold tookWords
  induction ts generalizing s with
  | nil => exact h
  | cons t ts ih =>
    simp only [List.foldl_cons]
    cases (gr.thread t).queue with
    | nil => exact ih h
    | cons w rest => exact ih (routed_of_groups (routed_onThreads h [t] (f := fun _ => takesWord) fun _ _ => rfl) rfl)

theorem routed_fedThreads (h : Routed gr g s) (i : Instr) : Routed gr g (fedThreads i s g gr set) :=
  routed_tookWords (routed_onThreads h _ (f := fun _ th => th.block (.qr i)) fun _ _ => rfl) _

/-! ## A thread that ends a lane operation (R304) -/

theorem foldl_route {α : Type} {f : Thread → α → Thread} (hf : ∀ th x, (f th x).route = th.route) (l : List α) (th : Thread) :
    (l.foldl f th).route = th.route := by
  induction l generalizing th with
  | nil => rfl
  | cons x l ih => exact (ih (f th x)).trans (hf th x)

theorem poison_route (th : Thread) (n : Nat) : (th.poison n).route = th.route := by
  unfold Thread.poison
  split <;> rfl

theorem setReg_route (th : Thread) (n : Nat) (v : Word) : (th.setReg n v).route = th.route := by
  unfold Thread.setReg
  split <;> rfl

theorem apply_route (th : Thread) (kills : List Nat) (r : LaneRes) : (th.apply kills r).route = th.route :=
  calc (th.apply kills r).route
      = (kills.foldl (fun th n => th.poison n) th).route :=
        foldl_route (α := Nat × Word) (f := fun th w => th.setReg w.1 w.2) (fun th w => setReg_route th w.1 w.2) r.writes _
    _ = th.route := foldl_route poison_route kills th

/-- What a thread retires with does not depend on a word that it also sends. -/
theorem retired_send (s : State) (g : Nat) (gr : Group) (marks : List Nat) (next : Word) (cat inc t : Nat) (r : LaneRes) :
    retired s g gr marks next cat inc [(t, { r with send := none })] = retired s g gr marks next cat inc [(t, r)] := by
  have hgroup : retiredGroup s.cycle marks next [(t, { r with send := none })] = retiredGroup s.cycle marks next [(t, r)] := by
    funext x
    rw [← retiredGroup_one, ← retiredGroup_one]
    rfl
  unfold retired
  rw [hgroup]
  rfl

variable {op : LaneOp} {next : Word}

theorem finish_retired (h : Routed gr g s) (t : Nat) (r : LaneRes) (marks : List Nat) (cat inc : Nat) :
    (s.modThread g t fun th => th.apply marks r).finish g t gr.key r.flags cat inc next = retired s g gr marks next cat inc [(t, r)] := by
  obtain ⟨x, hx, hkey, -⟩ := h
  have hkeys : ∀ res, retired s g x marks next cat inc res = retired s g gr marks next cat inc res := fun res => by
    simp only [retired, hkey]
  have hquiet := deliver_eq s g t x marks cat inc next { r with send := none } hx rfl
  rw [← retired_send, ← hkeys, ← hquiet, hkey]
  rfl

theorem deliver_laneEnds (h : Routed gr g s) (t : Nat) (r : LaneRes) :
    s.deliver g t gr.key op.kills r op.cat op.inc next = laneEnds op g gr next s (t, r) := by
  have hend := finish_retired (next := next) h t r op.kills op.cat op.inc
  obtain ⟨x, hx, -, hroute⟩ := routed_modThread h t (f := fun th => th.apply op.kills r) fun th => apply_route th _ _
  have hdest : ((s.modThread g t fun th => th.apply op.kills r).groups[g]?.bind fun y => (y.thread t).dest gr.key) =
      (gr.thread t).dest gr.key := by
    rw [hx, Option.bind_some, Thread.dest, hroute]
    rfl
  simp only [State.deliver, laneEnds, hdest, hend]
  cases r.send with
  | none => rfl
  | some v =>
    cases (gr.thread t).dest gr.key with
    | none => rfl
    | some d =>
      simp only [modThread_onThreads]
      rfl

theorem routed_laneEnds (h : Routed gr g s) (t : Nat) (r : LaneRes) : Routed gr g (laneEnds op g gr next s (t, r)) := by
  have happly : Routed gr g (s.modThread g t fun th => th.apply op.kills r) := routed_modThread h t fun th => apply_route th _ _
  unfold laneEnds
  split
  next v d hsend hdest =>
    split
    · rw [← modThread_onThreads]
      exact routed_finish (routed_of_groups happly (sendWord_groups ..)) ..
    · exact routed_onThreads (routed_onThreads h [t] fun _ th => apply_route th _ _) [t] fun _ _ => rfl
  next =>
    rw [← finish_retired h]
    exact routed_finish happly ..

theorem deliverAll_laneEnds (h : Routed gr g s) (ts : List Nat) (rs : List LaneRes) :
    s.deliverAll g gr.key op.kills op.cat op.inc next ts rs = (ts.zip rs).foldl (laneEnds op g gr next) s := by
  induction ts generalizing s rs with
  | nil => rfl
  | cons t ts ih =>
    cases rs with
    | nil => rfl
    | cons r rs =>
      rw [State.deliverAll, deliver_laneEnds h, ih (routed_laneEnds h t r)]
      rfl

/-! ## The whole instruction -/

theorem check_passes {a : Act} (h : LaneReady op s gr) (hchecks : ∀ t ∈ a.set, op.threadCheck gr t = .ok (.scr 0)) :
    op.check a gr s = none := by
  have hruns := fun e => (laneRuns_iff op s gr).1 e ⟨h.features, h.kind⟩
  simp only [LaneOp.check, if_neg hruns, h.fields, firstBad_none _ _ fun t ht => ⟨_, hchecks t ht⟩]

/-- R270. TBL, which alone notes something, combines no values. -/
theorem noted_combine {i : Instr} (hF : laneForm i = some op) (hcombine : op.combine ≠ none) (s0 s' : State) :
    noted i s0 g gr set s' = s' := by
  unfold noted
  split
  · cases hF
    exact absurd rfl hcombine
  · rfl

variable {i : Instr}

section Run

variable (hF : laneForm i = some op) (h : Issuing s g set gr) (hw : i.wf = true) (hready : LaneReady op s gr)
  (hchecks : ∀ t ∈ set, op.threadCheck gr t = .ok (.scr 0))
include hF h hw hready hchecks

/-- A lane instruction that meets no trap does what its operation does on its operands. -/
theorem exec_lane_runs : exec i s = .next (noted i (idle s) g gr set
    (if op.takesQr then op.runQr (theAct i g set gr) gr (idle s)
      else (idle s).deliverAll g gr.key op.kills op.cat op.inc (nextPc i gr set) set (op.results (idle s) gr set))) := by
  have hnone : op.check (theAct i g set gr) gr (idle s) = none := check_passes ⟨hready.features, hready.kind, hready.fields⟩ hchecks
  rw [exec_lane i op s hF, withIssue_eq i s _ g set gr h hw]
  simp only [LaneOp.run, hnone]
  rfl

theorem exec_lane_noQr (hqr : op.takesQr = false) : exec i s = .next (noted i (idle s) g gr set
    ((set.zip (op.results (idle s) gr set)).foldl (laneEnds op g gr (nextPc i gr set)) (idle s))) := by
  rw [exec_lane_runs hF h hw hready hchecks, hqr, if_neg Bool.false_ne_true, deliverAll_laneEnds (routed_self (idle_group h))]

theorem exec_lane_qr (hqr : op.takesQr = true) (hcombine : op.combine = none) : exec i s = .next (noted i (idle s) g gr set
    (((fed gr set).zip (op.results (idle s) gr (fed gr set))).foldl (laneEnds op g gr (nextPc i gr set))
      (fedThreads i (idle s) g gr set)).settle) := by
  have hrun : op.runQr (theAct i g set gr) gr (idle s) =
      (((fed gr set).foldl (fun s t => s.takeWord g t gr.key) ((idle s).blockAll g (starved gr set) (.qr i))).deliverAll g gr.key op.kills
        op.cat op.inc (nextPc i gr set) (fed gr set) (op.results (idle s) gr (fed gr set))).settle := by
    simp only [LaneOp.runQr, hcombine]
    rfl
  rw [exec_lane_runs hF h hw hready hchecks, if_pos hqr, hrun, takeWords_fed (rising_nodup h.rising) (idle_group h),
    deliverAll_laneEnds (routed_fedThreads (routed_self (idle_group h)) i)]

theorem exec_lane_qrAll {scan : Bool} {code d : Nat} (hqr : op.takesQr = true) (hcombine : op.combine = some (scan, code, d)) :
    exec i s = .next (if starved gr set = [] then
      ((set.zip (op.results (idle s) gr set)).foldl (laneEnds op g gr (nextPc i gr set)) (tookWords (idle s) g gr set)).settle
      else (onThreads (idle s) g set fun _ th => th.block (.qrAll scan code d set)).settle) := by
  have hn := rising_nodup h.rising
  have hrun : op.runQr (theAct i g set gr) gr (idle s) = if starved gr set = [] then
      ((set.foldl (fun s t => s.takeWord g t gr.key) (idle s)).deliverAll g gr.key op.kills op.cat op.inc (nextPc i gr set) set
        (op.results (idle s) gr set)).settle
      else ((idle s).blockAll g set (.qrAll scan code d set)).settle := by
    simp only [LaneOp.runQr, hcombine, List.isEmpty_iff]
    rfl
  rw [exec_lane_runs hF h hw hready hchecks, noted_combine hF (by rw [hcombine]; exact Option.some_ne_none _), if_pos hqr, hrun,
    takeWords_all hn (idle_group h), deliverAll_laneEnds (routed_tookWords (routed_self (idle_group h)) set), blockAll_eq _ _ _ _ hn]

end Run

end Ports

/-- Settles O11: by whether an operand is qr, and whether the operation combines the values of the set. -/
theorem queuePorts : Obligations.QueuePorts := by
  intro i op s g set gr hF h hw hready hchecks
  exact ⟨exec_lane_noQr hF h hw hready hchecks, exec_lane_qr hF h hw hready hchecks,
    fun scan code d => exec_lane_qrAll hF h hw hready hchecks⟩

/-! ## SELT and SELF (R244) -/

section Select

variable {onTrue : Bool} {y x : BitVec 2} {b a d : BitVec 6} {s : State} {g : Nat} {set : List Nat} {gr : Group}

/-- The guard of a thread, as the model evaluates it. -/
theorem chosen_eq (ts : List Nat) : (ts.filter fun t => ((gr.thread t).reg b.toNat != 0) == onTrue) = chosen onTrue b gr ts := by
  refine List.filter_congr fun t _ => congrArg (· == onTrue) ?_
  simp [bne, Bool.beq_eq_decide_eq]

theorem mem_chosen {t : Nat} (ht : t ∈ set) : (((gr.thread t).reg b.toNat != 0) == onTrue) = true ↔ t ∈ chosen onTrue b gr set := by
  rw [← chosen_eq, List.mem_filter]
  exact (and_iff_right ht).symm

theorem chosen_others (ts wait : List Nat) : chosen onTrue b gr (others ts wait) = others (chosen onTrue b gr ts) wait :=
  List.filter_comm _ _ _

/-- R244. No thread that runs is stopped: no guard is pending, nor what a thread that selects reads or writes. -/
theorem selectBad_none (h : Selects onTrue b a d gr set) :
    selectBad gr b (fun t => if ((gr.thread t).reg b.toNat != 0) == onTrue then regSpan a.toNat 1 ++ regSpan d.toNat 1 else []) set = none := by
  have hguards : firstBad (fun t => pendChk gr (inThread t (regSpan b.toNat 1))) set = none :=
    firstBad_none _ _ fun t ht => ⟨_, pendChk_ok _ _ (h.guards t ht)⟩
  rw [selectBad, hguards]
  refine firstBad_none _ _ fun t ht => ⟨_, pendChk_ok _ _ ?_⟩
  split
  next hholds => exact h.ready t ((mem_chosen ht).1 hholds)
  next => exact fun _ hp => absurd hp List.not_mem_nil

/-- R208. A destination that the operation reads too is no port. -/
theorem updF_ne_qs {fs : List Field} (h : fieldsFault gr.budget (srcF a :: regF b :: updF d :: fs) = none) : d.toNat ≠ 60 := by
  intro hd
  have hfault : (updF d).fault gr.budget = some 60 := by simp [Field.fault, updF, hd]
  simp only [fieldsFault, hfault] at h
  repeat' split at h
  all_goals cases h

/-- R244. The threads of SELT or SELF that select and find qr empty. -/
def selectWaiters (onTrue : Bool) (b a : BitVec 6) (gr : Group) (set : List Nat) : List Nat :=
  if a = 61 then starved gr (chosen onTrue b gr set) else []

/-- The threads that select and write. -/
def selectWriters (onTrue : Bool) (b a : BitVec 6) (gr : Group) (set : List Nat) : List Nat :=
  others (chosen onTrue b gr set) (selectWaiters onTrue b a gr set)

/-- The threads that go on: all but those that wait. -/
def selectGoers (onTrue : Bool) (b a : BitVec 6) (gr : Group) (set : List Nat) : List Nat := others set (selectWaiters onTrue b a gr set)

/-- What a thread that goes on gives. -/
def selectGives (onTrue : Bool) (b a d : BitVec 6) (gr : Group) (set : List Nat) (t : Nat) : LaneRes :=
  if t ∈ selectWriters onTrue b a gr set then selectRes b a d gr t else {}

/-- R210. The state in which they write: where a is qr, some wait and the others have taken a word each. -/
def selectFed (i : Instr) (onTrue : Bool) (b a : BitVec 6) (s : State) (g : Nat) (set : List Nat) (gr : Group) : State :=
  if a = 61 then tookWords (onThreads s g (selectWaiters onTrue b a gr set) fun _ th => th.block (.qr i)) g gr (selectWriters onTrue b a gr set)
  else s

theorem selectFed_eq (hn : set.Nodup) (hg : s.groups[g]? = some gr) (i : Instr) :
    (if a = 61 then (selectWriters onTrue b a gr set).foldl (fun s t => s.takeWord g t gr.key)
        (s.blockAll g (selectWaiters onTrue b a gr set) (.qr i))
      else s.blockAll g (selectWaiters onTrue b a gr set) (.qr i)) = selectFed i onTrue b a s g set gr := by
  unfold selectFed
  by_cases ha : a = 61
  · have hchosen : (chosen onTrue b gr set).Nodup := hn.filter _
    have hwrites : (selectWriters onTrue b a gr set).Nodup := others_nodup hchosen
    have hwaits : (selectWaiters onTrue b a gr set).Nodup := by
      rw [selectWaiters, if_pos ha]
      exact hchosen.filter _
    rw [if_pos ha, if_pos ha, takeWords_blockAll hwaits hwrites hg]
  · rw [if_neg ha, if_neg ha, selectWaiters, if_neg ha]
    rfl

theorem routed_selectFed (h : Routed gr g s) (i : Instr) : Routed gr g (selectFed i onTrue b a s g set gr) := by
  unfold selectFed
  split
  · exact routed_tookWords (routed_onThreads h _ (f := fun _ th => th.block (.qr i)) fun _ _ => rfl) _
  · exact h

theorem selectRes_send (t : Nat) : (selectRes b a d gr t).send = none := by
  unfold selectRes
  split <;> rfl

theorem selectRes_eq (hd : d.toNat ≠ 60) (t : Nat) : ({ oneRes d.toNat ((gr.thread t).reg a.toNat, 0) with
    flags := poisonFlag gr (inThread t (regSpan b.toNat 1 ++ regSpan a.toNat 1)) } : LaneRes) = selectRes b a d gr t := by
  unfold selectRes oneRes
  rw [if_neg hd]
  split <;> rfl

/-- What the model gives a thread that goes on. -/
theorem selectGives_eq (hsel : Selects onTrue b a d gr set) {t : Nat} (ht : t ∈ selectGoers onTrue b a gr set) :
    (if ((gr.thread t).reg b.toNat != 0) == onTrue then
      ({ oneRes d.toNat ((gr.thread t).reg a.toNat, 0) with
          flags := poisonFlag gr (inThread t (regSpan b.toNat 1 ++ regSpan a.toNat 1)) } : LaneRes)
    else {}) = selectGives onTrue b a d gr set t := by
  obtain ⟨hset, hwaits⟩ := mem_others.1 ht
  have hwrites : (((gr.thread t).reg b.toNat != 0) == onTrue) = true ↔ t ∈ selectWriters onTrue b a gr set := by
    rw [mem_chosen hset, selectWriters, mem_others, and_iff_left hwaits]
  simp only [selectRes_eq (updF_ne_qs hsel.fields), hwrites, selectGives]

/-- The threads that go on end with some results, and the ones that write are metered. -/
def selectEnds (i : Instr) (onTrue : Bool) (y x : BitVec 2) (b a : BitVec 6) (s : State) (g : Nat) (set : List Nat) (gr : Group)
    (rs : List LaneRes) : State :=
  let s1 := ((selectFed i onTrue b a s g set gr).deliverAll g gr.key (kill x a ++ kill y b) 12 0 (nextPc i gr set)
    (selectGoers onTrue b a gr set) rs).meter gr.key 12 (selectWriters onTrue b a gr set).length
  if a = 61 then s1.settle else s1

/-- What SELT and SELF do where no check stops them. -/
theorem selectRun_eq (h : Issuing s g set gr) (hsel : Selects onTrue b a d gr set) (i : Instr) :
    selectRun onTrue y x b a d (theAct i g set gr) gr (idle s) =
      selectEnds i onTrue y x b a (idle s) g set gr ((selectGoers onTrue b a gr set).map (selectGives onTrue b a d gr set)) := by
  rw [← List.map_congr_left fun t ht => selectGives_eq hsel ht, selectEnds, ← selectFed_eq (rising_nodup h.rising) (idle_group h) i]
  have hwrites : chosen onTrue b gr (selectGoers onTrue b a gr set) = selectWriters onTrue b a gr set := chosen_others _ _
  rw [← hwrites]
  simp only [selectRun, hsel.fields, show (theAct i g set gr).set = set from rfl, selectBad_none hsel, chosen_eq]
  rfl

/-- R244. The results delivered are a retirement. -/
theorem selectDeliver_eq (h : Issuing s g set gr) (i : Instr) (marks : List Nat) (next : Word) :
    (selectFed i onTrue b a (idle s) g set gr).deliverAll g gr.key marks 12 0 next (selectGoers onTrue b a gr set)
      ((selectGoers onTrue b a gr set).map (selectGives onTrue b a d gr set)) =
    retired (selectFed i onTrue b a (idle s) g set gr) g gr marks next 12 0
      ((selectGoers onTrue b a gr set).map fun t => (t, selectGives onTrue b a d gr set t)) := by
  obtain ⟨z, hz, hkey, -⟩ := routed_selectFed (onTrue := onTrue) (b := b) (a := a) (set := set) (routed_self (idle_group h)) i
  rw [List.map_prod_left_eq_zip]
  refine deliverAll_eq _ _ _ _ _ _ _ _ _ ⟨z, hz, hkey⟩ (others_nodup (rising_nodup h.rising)) fun r hr => ?_
  obtain ⟨t, -, rfl⟩ := List.mem_map.1 hr
  unfold selectGives
  split
  · exact selectRes_send t
  · rfl

end Select

/-- Settles O10: the two instructions are one operation, whose results are delivered as a retirement. -/
theorem selectWrites : Obligations.SelectWrites := by
  intro i onTrue y x b a d s g set gr hi h hw hsel wait who res s0 s1
  have hexec : exec i s = withIssue i s (selectRun onTrue y x b a d) := by
    cases onTrue
    · rw [show i = .self y x b a d from hi]
      rfl
    · rw [show i = .selt y x b a d from hi]
      rfl
  rw [hexec, withIssue_eq i s _ g set gr h hw, selectRun_eq h hsel, selectEnds, selectDeliver_eq h]
  rfl

end Sys2Proof.Proofs

namespace Sys2Proof.Proofs

open Sys2Proof.Machine Sys2Proof.Safety Sys2Proof.Laws

/-! # Mailboxes (spec/15_isa_control_sync.md R302, spec/11_isa_encoding.md R210) -/

section Mailboxes

variable {s : State} {g t : Nat} {set : List Nat} {gr : Group} {k : BitVec 3} {a d : BitVec 6}

/-! ## A wait that does not end (R111) -/

theorem settle_of_wakeable (h : s.wakeable = []) : s.settle = s := by
  unfold State.settle
  cases s.blockedCount with
  | zero => rfl
  | succ n => simp [State.settleN, h, leastBy?]

/-- Where one thread begins a wait that does not end, and no other thread waits, nothing else happens. -/
theorem settle_waits {w : Wait} {f : Thread → Thread} (hg : s.groups[g]? = some gr) (hnone : NoneWait s)
    (hf : ∀ th, (f th).state = .blocked w)
    (hw : ∀ x : Group, x.key = gr.key → x.core = gr.core → (x.thread t).state = .blocked w →
      (onThreads s g [t] fun _ => f).wakes x t = false) :
    (onThreads s g [t] fun _ => f).settle = onThreads s g [t] fun _ => f := by
  refine settle_of_wakeable (List.eq_nil_iff_forall_not_mem.2 fun p hp => ?_)
  obtain ⟨hgroup, -, hlt, hwakes⟩ := mem_wakeable.1 hp
  by_cases hj : p.1 = g
  · rw [hj, onThreads_group hg] at hgroup
    rw [← Option.some.inj hgroup] at hlt hwakes
    have hlt' : p.2.2 < gr.threads.length := by simpa [onGroup] using hlt
    have hthread := thread_onGroup [t] (fun _ => f) gr p.2.2
    by_cases ht : p.2.2 = t
    · rw [if_pos ⟨by simp [ht], hlt'⟩, ht] at hthread
      have hstate : ((onGroup [t] (fun _ => f) gr).thread t).state = .blocked w := by rw [hthread, hf]
      rw [ht, hw (onGroup [t] (fun _ => f) gr) rfl rfl hstate] at hwakes
      cases hwakes
    · rw [if_neg (by simp [ht])] at hthread
      have hblocked := isBlocked_of_wakes hwakes
      rw [hthread, hnone gr (List.mem_of_getElem? hg) _ (thread_mem hlt')] at hblocked
      cases hblocked
  · have hsame : s.groups[p.1]? = some p.2.1 := by
      rw [← hgroup]
      exact (List.getElem?_modify_ne _ _ (Ne.symm hj)).symm
    have hblocked := isBlocked_of_wakes hwakes
    rw [hnone _ (List.mem_of_getElem? hsame) _ (thread_mem hlt)] at hblocked
    cases hblocked

theorem onThreads_core (s : State) (g : Nat) (ts : List Nat) (f : Nat → Thread → Thread) (c : Nat) :
    (onThreads s g ts f).core c = s.core c := rfl

theorem wakes_mbr {x : Group} {m n : Nat} (h : (x.thread t).state = .blocked (.mbr n m)) :
    s.wakes x t = !((s.core x.core).mailbox x.key.ctx m).isEmpty := by
  simp only [State.wakes, h]

theorem wakes_mbw {x : Group} {m : Nat} {v : Word} (h : (x.thread t).state = .blocked (.mbw m v)) :
    s.wakes x t = decide (((s.core x.core).mailbox x.key.ctx m).length < 8) := by
  simp only [State.wakes, h]

theorem wakes_qr {x : Group} {i : Instr} (h : (x.thread t).state = .blocked (.qr i)) : s.wakes x t = false := by
  simp only [State.wakes, h]

/-! ## MBR -/

/-- R302. One thread of MBR takes the oldest word of its mailbox, or waits for one. -/
def mbrLane (k : BitVec 3) (d : BitVec 6) (g : Nat) (gr : Group) (next : Word) (s : State) (t : Nat) : State :=
  match (s.core gr.core).mailbox gr.key.ctx k.toNat with
  | v :: rest => onThreads (s.modCore gr.core fun x => x.setMailbox gr.key.ctx k.toNat rest) g [t] fun _ th => (th.setReg d.toNat v).goOn next
  | [] => onThreads s g [t] fun _ th => th.block (.mbr d.toNat k.toNat)

theorem exec_mbr (h : Runs (.mbr k d) [outF d] s g set gr) :
    exec (.mbr k d) s = .next (set.foldl (mbrLane k d g gr (nextPc (.mbr k d) gr set)) (idle s)).settle := by
  refine (runs_eq h legal _ rfl).trans (congrArg Host.Outcome.next ?_)
  simp only [acting_nil _ _ _ _ (show ownReads [outF d] = [] from rfl), modThread_onThreads]
  rfl

theorem settle_mbrLane (hg : s.groups[g]? = some gr) (hnone : NoneWait s) (next : Word) :
    (mbrLane k d g gr next s t).settle = mbrLane k d g gr next s t := by
  unfold mbrLane
  split
  · exact settle_same _ (noneWait_onThreads _ _ _ _ hnone fun _ _ _ => rfl)
  next hempty =>
    refine settle_waits hg hnone (fun _ => rfl) fun x hkey hcore hstate => ?_
    rw [wakes_mbr hstate, hkey, hcore]
    exact congrArg (fun l : List Word => !l.isEmpty) hempty

/-! ## MBW -/

/-- The threads of MBW that find qr empty. -/
def mbwWaiters (a : BitVec 6) (gr : Group) (set : List Nat) : List Nat := if a = 61 then starved gr set else []

/-- R210. A thread has taken its word of qr, where that is what it appends. -/
def mbwTaken (a : BitVec 6) (g : Nat) (gr : Group) (s : State) (t : Nat) : State := if a = 61 then s.takeWord g t gr.key else s

/-- The mailbox that it then finds. -/
def mbwBox (k : BitVec 3) (a : BitVec 6) (g : Nat) (gr : Group) (s : State) (t : Nat) : List Word :=
  ((mbwTaken a g gr s t).core gr.core).mailbox gr.key.ctx k.toNat

/-- R302. One thread of MBW appends its word to its mailbox, or waits for room with it. -/
def mbwLane (k : BitVec 3) (a : BitVec 6) (g : Nat) (gr : Group) (next : Word) (s : State) (t : Nat) : State :=
  if (mbwBox k a g gr s t).length < 8 then
    onThreads (flagged ((mbwTaken a g gr s t).modCore gr.core fun x => x.setMailbox gr.key.ctx k.toNat
      (mbwBox k a g gr s t ++ [(gr.thread t).reg a.toNat])) g gr [t] fun _ => sysPoison gr [srcF a] t) g [t] fun _ th => th.goOn next
  else onThreads (mbwTaken a g gr s t) g [t] fun _ th =>
    { th.block (.mbw k.toNat ((gr.thread t).reg a.toNat)) with owed := sysPoison gr [srcF a] t }

theorem routed_takeWord (h : Routed gr g s) (t : Nat) (k : GKey) : Routed gr g (s.takeWord g t k) := by
  unfold State.takeWord
  split
  · exact h
  next w rest _ => exact routed_of_groups (routed_modThread h t (f := fun th => { th with queue := rest }) fun _ => rfl) rfl

theorem routed_mbwTaken (h : Routed gr g s) (t : Nat) : Routed gr g (mbwTaken a g gr s t) := by
  unfold mbwTaken
  split
  · exact routed_takeWord h t _
  · exact h

theorem routed_mbwLane (h : Routed gr g s) (t : Nat) (next : Word) : Routed gr g (mbwLane k a g gr next s t) := by
  have htaken := routed_mbwTaken (a := a) h t
  unfold mbwLane
  split
  · exact routed_onThreads (routed_flagged (routed_of_groups htaken rfl) [t] _) [t] fun _ _ => rfl
  · exact routed_onThreads htaken [t] (f := fun _ th =>
      { th.block (.mbw k.toNat ((gr.thread t).reg a.toNat)) with owed := sysPoison gr [srcF a] t }) fun _ _ => rfl

/-- A fold over threads that raise flags, on states whose group is still there. -/
theorem foldl_routed {f h : State → Nat → State} (heq : ∀ s t, Routed gr g s → f s t = h s t)
    (hkeep : ∀ s t, Routed gr g s → Routed gr g (h s t))
    (ts : List Nat) (hs : Routed gr g s) : ts.foldl f s = ts.foldl h s := by
  induction ts generalizing s with
  | nil => rfl
  | cons t ts ih =>
    rw [List.foldl_cons, List.foldl_cons, heq s t hs]
    exact ih (hkeep s t hs)

theorem exec_mbw (h : Runs (.mbw k a) [srcF a] s g set gr) :
    exec (.mbw k a) s = .next ((others set (mbwWaiters a gr set)).foldl (mbwLane k a g gr (nextPc (.mbw k a) gr set))
      (onThreads (idle s) g (mbwWaiters a gr set) fun _ th => th.block (.qr (.mbw k a)))).settle := by
  have hwaiters : (mbwWaiters a gr set).Nodup := by
    unfold mbwWaiters
    split
    · exact (rising_nodup h.issuing.rising).filter _
    · exact List.nodup_nil
  have hchecks : firstBad (sysChk gr [srcF a] fun _ => .ok (.scr 0)) set = none :=
    firstBad_none _ _ (sysChk_ok h.usable fun _ _ => ⟨_, rfl⟩)
  refine (bare_eq h.issuing h.wf h.usable.fields legal _ rfl).trans (congrArg Host.Outcome.next ?_)
  simp only [show (theAct (.mbw k a) g set gr).set = set from rfl, hchecks]
  rw [← blockAll_eq _ _ _ _ hwaiters]
  refine congrArg State.settle (foldl_routed (fun s' t hs => ?_) (fun s' t hs => routed_mbwLane hs t _) _ ?_)
  · obtain ⟨x, hx, hkey, -⟩ := routed_mbwTaken (a := a) hs t
    have hgroup : ∀ f, ∃ y, ((mbwTaken a g gr s' t).modCore gr.core f).groups[g]? = some y ∧ y.key = gr.key := fun _ => ⟨x, hx, hkey⟩
    simp only [mbwLane, modThread_onThreads, ← raise_eq _ g t gr _ (hgroup _)]
    rfl
  · show Routed gr g ((idle s).blockAll g (mbwWaiters a gr set) (.qr (.mbw k a)))
    rw [blockAll_eq _ _ _ _ hwaiters]
    exact routed_onThreads (routed_self (idle_group h.issuing)) _ fun _ _ => rfl

/-! ### MBW by one thread, and by threads that name a register -/

theorem mbwWaiters_register (ha : a ≠ 61) : mbwWaiters a gr set = [] := if_neg ha

theorem mbwTaken_register (ha : a ≠ 61) : mbwTaken a g gr s t = s := if_neg ha

theorem mbwTaken_eq (hg : s.groups[g]? = some gr) : mbwTaken a g gr s t = if a = 61 then tookWords s g gr [t] else s := by
  rw [mbwTaken, ← takeWords_all (List.nodup_singleton t) hg]
  rfl

/-- Taking words changes threads, and windows of teams. -/
theorem tookWords_one_core (c : Nat) : (tookWords s g gr [t]).core c = s.core c := by
  simp only [tookWords, List.foldl_cons, List.foldl_nil]
  split <;> rfl

theorem noneWait_tookWords_one (h : NoneWait s) : NoneWait (tookWords s g gr [t]) := by
  simp only [tookWords, List.foldl_cons, List.foldl_nil]
  split
  · exact noneWait_onThreads _ _ [t] (fun _ => takesWord) h fun _ _ hb => hb
  · exact h

theorem mbwTaken_group (hg : s.groups[g]? = some gr) :
    ∃ x, (mbwTaken a g gr s t).groups[g]? = some x ∧ x.key = gr.key ∧ x.core = gr.core := by
  have hself : ∃ x, s.groups[g]? = some x ∧ x.key = gr.key ∧ x.core = gr.core := ⟨gr, hg, rfl, rfl⟩
  rw [mbwTaken_eq hg]
  split
  · simp only [tookWords, List.foldl_cons, List.foldl_nil]
    split
    · exact ⟨onGroup [t] (fun _ => takesWord) gr, onThreads_group hg _ _, rfl, rfl⟩
    · exact hself
  · exact hself

theorem mbwTaken_core (hg : s.groups[g]? = some gr) (c : Nat) : (mbwTaken a g gr s t).core c = s.core c := by
  rw [mbwTaken_eq hg]
  split
  · exact tookWords_one_core c
  · rfl

theorem mbwBox_eq (hg : s.groups[g]? = some gr) : mbwBox k a g gr s t = (s.core gr.core).mailbox gr.key.ctx k.toNat := by
  rw [mbwBox, mbwTaken_core hg]

theorem noneWait_mbwTaken (hg : s.groups[g]? = some gr) (h : NoneWait s) : NoneWait (mbwTaken a g gr s t) := by
  rw [mbwTaken_eq hg]
  split
  · exact noneWait_tookWords_one h
  · exact h

/-- R213. PZ raised before or after the word is taken: qr is no register, and is never poisoned. -/
theorem flagged_mbwTaken : (flagged (mbwTaken a g gr s t) g gr [t] fun _ => sysPoison gr [srcF a] t) =
    mbwTaken a g gr (poisoned s g gr [t] [srcF a]) t := by
  by_cases ha : a = 61
  · subst ha
    rw [poisoned_same _ _ _ _ _ (show ownReads [srcF 61] = [] from rfl), flagged_zero _ _ _ _ (fun _ => sysPoison gr [srcF 61] t) fun _ => rfl]
  · rw [mbwTaken_register ha, mbwTaken_register ha]
    exact flagged_one _ _ _ _ fun t => poisonFlag gr (inThread t (ownReads [srcF a]))

section One

variable (h : Runs (.mbw k a) [srcF a] s g [t] gr)
include h

theorem exec_mbw_starved (hnone : NoneWait s) (ha : a = 61) (hq : (gr.thread t).queue = []) :
    exec (.mbw k a) s = .next (onThreads (idle s) g [t] fun _ th => th.block (.qr (.mbw k a))) := by
  have hwaiters : mbwWaiters a gr [t] = [t] := by simp [mbwWaiters, ha, starved, hq]
  rw [exec_mbw h, hwaiters, show others [t] [t] = [] by simp [others], List.foldl_nil]
  exact congrArg Host.Outcome.next (settle_waits (idle_group h.issuing) hnone (fun _ => rfl) fun _ _ _ hstate => wakes_qr hstate)

theorem exec_mbw_lane (hq : a = 61 → (gr.thread t).queue ≠ []) :
    exec (.mbw k a) s = .next (mbwLane k a g gr (nextPc (.mbw k a) gr [t]) (idle s) t).settle := by
  have hwaiters : mbwWaiters a gr [t] = [] := by
    unfold mbwWaiters
    split
    next ha => simp [starved, hq ha]
    next => rfl
  rw [exec_mbw h, hwaiters, others_nil, onThreads_nil]
  rfl

theorem exec_mbw_room (hnone : NoneWait s) (hq : a = 61 → (gr.thread t).queue ≠ [])
    (hroom : ((s.core gr.core).mailbox gr.key.ctx k.toNat).length < 8) :
    exec (.mbw k a) s = .next (onThreads ((mbwTaken a g gr (acting [srcF a] s g [t] gr) t).modCore gr.core fun x =>
      x.setMailbox gr.key.ctx k.toNat ((s.core gr.core).mailbox gr.key.ctx k.toNat ++ [(gr.thread t).reg a.toNat])) g [t] fun _ th =>
        th.goOn (nextPc (.mbw k a) gr [t])) := by
  have hg := idle_group h.issuing
  have hnone' : NoneWait (mbwTaken a g gr (acting [srcF a] s g [t] gr) t) := by
    rw [acting, ← flagged_mbwTaken]
    exact noneWait_flagged _ _ _ _ _ (noneWait_mbwTaken hg hnone)
  have hlane : mbwLane k a g gr (nextPc (.mbw k a) gr [t]) (idle s) t = _ := if_pos (by rw [mbwBox_eq hg]; exact hroom)
  rw [exec_mbw_lane h hq, hlane, mbwBox_eq hg]
  rw [acting, ← flagged_mbwTaken] at hnone' ⊢
  exact congrArg Host.Outcome.next (settle_same _ (noneWait_onThreads _ _ _ _ hnone' fun _ _ _ => rfl))

theorem mbwTaken_acting : mbwTaken a g gr (acting [srcF a] s g [t] gr) t =
    if a = 61 then tookWords (acting [srcF a] s g [t] gr) g gr [t] else acting [srcF a] s g [t] gr := by
  by_cases ha : a = 61
  · subst ha
    rw [acting_nil _ _ _ _ (show ownReads [srcF 61] = [] from rfl)]
    exact mbwTaken_eq (idle_group h.issuing)
  · rw [mbwTaken_register ha, if_neg ha]

theorem exec_mbw_full (hnone : NoneWait s) (hq : a = 61 → (gr.thread t).queue ≠ [])
    (hfull : 8 ≤ ((s.core gr.core).mailbox gr.key.ctx k.toNat).length) :
    exec (.mbw k a) s = .next (owing (onThreads (mbwTaken a g gr (idle s) t) g [t] fun _ th =>
      th.block (.mbw k.toNat ((gr.thread t).reg a.toNat))) g gr [t] [srcF a]) := by
  have hg := idle_group h.issuing
  obtain ⟨x, hx, hkey, hcore⟩ := mbwTaken_group (a := a) (t := t) hg
  have hlane : mbwLane k a g gr (nextPc (.mbw k a) gr [t]) (idle s) t = _ := if_neg (by rw [mbwBox_eq hg]; exact Nat.not_lt.2 hfull)
  rw [exec_mbw_lane h hq, hlane, owing, onThreads_onThreads]
  refine congrArg Host.Outcome.next ((settle_waits hx (noneWait_mbwTaken hg hnone) (fun _ => rfl) fun y hykey hycore hstate => ?_).trans
    (onThreads_one _ _ _ fun u th => { th.block (.mbw k.toNat ((gr.thread t).reg a.toNat)) with owed := sysPoison gr [srcF a] u }))
  rw [wakes_mbw hstate, hykey, hycore, hkey, hcore, onThreads_core, mbwTaken_core hg]
  exact decide_eq_false (Nat.not_lt.2 hfull)

end One

theorem exec_mbw_register (h : Runs (.mbw k a) [srcF a] s g set gr) (ha : a ≠ 61) :
    exec (.mbw k a) s = .next (set.foldl (mbwLane k a g gr (nextPc (.mbw k a) gr set)) (idle s)).settle := by
  rw [exec_mbw h, mbwWaiters_register ha, others_nil, onThreads_nil]

theorem mbwLane_register (ha : a ≠ 61) (next : Word) (s : State) (t : Nat) : mbwLane k a g gr next s t =
    if ((s.core gr.core).mailbox gr.key.ctx k.toNat).length < 8 then
      onThreads (flagged (s.modCore gr.core fun x => x.setMailbox gr.key.ctx k.toNat
        ((s.core gr.core).mailbox gr.key.ctx k.toNat ++ [(gr.thread t).reg a.toNat])) g gr [t] fun _ => sysPoison gr [srcF a] t)
        g [t] fun _ th => th.goOn next
    else onThreads s g [t] fun _ th =>
      { th.block (.mbw k.toNat ((gr.thread t).reg a.toNat)) with owed := sysPoison gr [srcF a] t } := by
  simp only [mbwLane, mbwBox, mbwTaken_register ha]

end Mailboxes

/-- Settles O28: each instruction for one thread, where no other wait can end, and for a set as its threads act in turn. -/
theorem mailboxesPass : Obligations.MailboxesPass := by
  refine ⟨fun s g t gr k d h hnone => ?readOne,
    fun s g t gr k a h hnone => ⟨fun ha hq => exec_mbw_starved h hnone ha hq, fun hq hroom => ?room, fun hq hfull => ?full⟩,
    fun s g set gr k d h => exec_mbr h, fun s g set gr k a h ha => ?write⟩
  case readOne =>
    rw [exec_mbr h, List.foldl_cons, List.foldl_nil, settle_mbrLane (idle_group h.issuing) hnone]
    rfl
  case room =>
    rw [exec_mbw_room h hnone hq hroom, mbwTaken_acting h]
  case full =>
    rw [exec_mbw_full h hnone hq hfull, mbwTaken_eq (idle_group h.issuing)]
  case write =>
    intro lane
    rw [exec_mbw_register h ha, funext₂ (mbwLane_register ha _)]
    rfl

end Sys2Proof.Proofs

namespace Sys2Proof.Proofs

open Sys2Proof.Machine Sys2Proof.Safety Sys2Proof.Laws

/-! # Lane operations clear of traps and ports (spec/12_isa_lane_ops.md R237 to R262, spec/13_isa_rows_special.md R261 to R270) -/

section Tables

variable {i : Instr} {op : LaneOp}

/-! ## Every table of lane operations lists operations that send nothing without qs -/

theorem intAForm_lane (h : intAForm i = some op) : laneForm i = some op ∧ Laws.Quiet op := by
  refine ⟨by simp only [laneForm, h, Option.some_or], ?_⟩
  cases i <;> cases h <;> simp only [quiet_formA, quiet_formA1]

theorem int16Form_lane (h : int16Form i = some op) : laneForm i = some op ∧ Laws.Quiet op := by
  cases i <;> cases h <;> exact ⟨rfl, by simp only [quiet_formA, quiet_formA1]⟩

theorem intIForm_lane (h : intIForm i = some op) : laneForm i = some op ∧ Laws.Quiet op := by
  cases i <;> cases h <;> exact ⟨rfl, by simp only [quiet_formI, quiet_formW]⟩

theorem crossForm_lane (h : crossForm i = some op) : laneForm i = some op ∧ Laws.Quiet op := by
  cases i <;> cases h <;> exact ⟨rfl, by simp only [quiet_formX, quiet_formXMov]⟩

theorem fpForm_lane (h : fpForm i = some op) : laneForm i = some op ∧ Laws.Quiet op := by
  cases i <;> cases h <;> exact ⟨rfl, by simp only [quiet_formA, quiet_formI]⟩

theorem packedForm_lane (h : packedForm i = some op) : laneForm i = some op ∧ Laws.Quiet op := by
  cases i <;> cases h <;> exact ⟨rfl, by simp only [quiet_formA, quiet_formI]⟩

theorem dst_ne_qs {d : BitVec 6} (hd : dstF d ∈ op.fields) (hsends : op.sends = false) : d.toNat ≠ 60 := sends_ne hsends hd

theorem upd_ne_qs {d : BitVec 6} (hd : updF d ∈ op.fields) (hsends : op.sends = false) : d.toNat ≠ 60 := sends_ne hsends hd

/-- Single results thread by thread to a field that may be qs. -/
theorem quiet_single {d : BitVec 6} {f : State → Group → Nat → LaneRes} {r : State → Group → Nat → Word × Flags}
    (he : op.eval = perThread f) (hd : dstF d ∈ op.fields)
    (hf : ∀ s gr t, (f s gr t).send = (oneRes d.toNat (r s gr t)).send) : Laws.Quiet op :=
  quiet_perThread op f he fun hsends s gr t => (hf s gr t).trans (oneRes_send _ _ (dst_ne_qs hd hsends))

/-- Register pairs thread by thread. -/
theorem quiet_pairs {f : State → Group → Nat → LaneRes} {d : Nat} {v : State → Group → Nat → DWord} {fl : State → Group → Nat → Flags}
    (he : op.eval = perThread f) (hf : ∀ s gr t, f s gr t = pairRes d (v s gr t) (fl s gr t)) : Laws.Quiet op :=
  quiet_perThread op f he fun _ s gr t => by rw [hf, pairRes_send]

theorem specialForm_lane (h : specialForm i = some op) : laneForm i = some op ∧ Laws.Quiet op := by
  cases i
  case add64A | add64I | madw | smxacc => cases h; exact ⟨rfl, quiet_pairs rfl fun _ _ _ => rfl⟩
  case cvt | sfu | smxnorm | tbl | lget | rand => cases h; exact ⟨rfl, quiet_single rfl (by simp) fun _ _ _ => rfl⟩
  all_goals cases h

theorem redgSmx_send (a d : Nat) (gr : Group) (set : List Nat) : ∀ r ∈ redgSmx a d gr set, r.send = none := by
  intro r hr
  simp only [redgSmx, List.mem_map] at hr
  obtain ⟨t, -, rfl⟩ := hr
  exact pairRes_send ..

/-- Reductions and scans over the issue set. -/
theorem quiet_combined {scan : Bool} {code d : Nat} {x : Group → Nat → Word}
    (he : op.eval = fun _ gr set => groupOp scan code d gr set (x gr)) (hd : op.sends = false → d ≠ 60) : Laws.Quiet op := by
  intro hsends s gr set
  rw [he]
  exact quiet_groupOp (hd hsends) gr set (x gr)

theorem groupForm_lane (h : groupForm i = some op) : laneForm i = some op ∧ Laws.Quiet op := by
  cases i
  case redg c a d =>
    cases h
    refine ⟨rfl, ?_⟩
    split
    · exact fun _ _ gr set => redgSmx_send _ _ gr set
    · refine quiet_combined (scan := false) (code := c.toNat) (d := d.toNat) (x := fun gr t => (gr.thread t).reg a.toNat) rfl fun hsends => ?_
      by_cases hc : c = 1 ∨ c = 10
      · exact upd_ne_qs (List.mem_cons_of_mem _ (by rw [if_pos hc]; exact List.mem_singleton_self _)) hsends
      · exact dst_ne_qs (List.mem_cons_of_mem _ (by rw [if_neg hc]; exact List.mem_singleton_self _)) hsends
  case scang c a d =>
    cases h
    exact ⟨rfl, quiet_combined (scan := true) (code := c.toNat) (d := d.toNat)
      (x := fun gr t => (gr.thread t).reg a.toNat) rfl (dst_ne_qs (d := d) (by simp))⟩
  all_goals cases h

end Tables

/-! ## The three families -/

/-- Settles O6: memory and every scratchpad are empty at reset, and no issue is in progress. -/
theorem resetInvariant : Obligations.ResetInvariant := ⟨rfl, rfl⟩

/-- Settles O7: every table of integer operations lists lane operations, which retire as `exec_lane_clear` says. -/
theorem integerOps : Obligations.IntegerOps := by
  intro i op s g set gr hform h hw hclear
  have hlane : laneForm i = some op ∧ Laws.Quiet op := by
    rcases hform with hA | h16 | hI | hX
    · exact intAForm_lane hA
    · exact int16Form_lane h16
    · exact intIForm_lane hI
    · exact crossForm_lane hX
  exact exec_lane_clear i op s g set gr hlane.1 h hw hclear hlane.2

/-- Settles O8: as O7, for the tables of floating-point and packed operations. -/
theorem floatOps : Obligations.FloatOps := by
  intro i op s g set gr hform h hw hclear
  have hlane : laneForm i = some op ∧ Laws.Quiet op := hform.elim fpForm_lane packedForm_lane
  exact exec_lane_clear i op s g set gr hlane.1 h hw hclear hlane.2

/-- Settles O9: as O7, for the operations thread by thread and those over the whole issue set. -/
theorem specialOps : Obligations.SpecialOps := by
  intro i op s g set gr hform h hw hclear
  have hlane : laneForm i = some op ∧ Laws.Quiet op := hform.elim specialForm_lane groupForm_lane
  exact exec_lane_clear i op s g set gr hlane.1 h hw hclear hlane.2

end Sys2Proof.Proofs

namespace Sys2Proof.Proofs

open Sys2Proof.Machine Sys2Proof.Safety Sys2Proof.Laws

/-! # System instructions that read (spec/15_isa_control_sync.md R291, R303, R307, R310, R311, R316,
spec/11_isa_encoding.md R229, R230) -/

section Reads

variable {i : Instr} {F : SysForm} {s : State} {g : Nat} {set : List Nat} {gr : Group}

/-- The codes at which a handler reads 0 (R229). -/
theorem handlerZero_iff {kind : GroupKind} {n : Nat} : (kind == .handler && handlerZero n) = true ↔
    kind = .handler ∧ (n ≤ 9 ∨ n = 15 ∨ n = 16 ∨ n = 21) := by
  simp [handlerZero, or_assoc]

/-- R310. The votes of codes 2 and 3 collect the threads of one half of 32, those of code 4 compare with the lowest thread. -/
theorem voteResult_eq (code : Nat) (x : Nat → Word) : voteResult code (set.map fun t => (t, x t)) = votes code set x := by
  match code with
  | 0 | 1 | 2 | 3 => simp [voteResult, votes, bit, Function.comp_def, and_assoc]
  | n + 4 =>
    cases set with
    | nil => rfl
    | cons t ts => simp [voteResult, votes, bit, Function.comp_def]

/-- R291. Each of these instructions is the frame `sysRun` about the update of its form, thread by thread. -/
theorem exec_sysForm (hF : sysForm i = some F) (s : State) : ∃ f, exec i s = withIssue i s (sysRun legal F.fields f) ∧
    ∀ (a : Act) (gr : Group) (s' : State), f a gr s' = a.each s' (F.update s' gr a.set) := by
  cases i
  case vote im a d =>
    cases hF
    refine ⟨_, rfl, fun act gr s' => ?_⟩
    simp only [voteResult_eq]
  case ident im d =>
    cases hF
    refine ⟨_, rfl, fun act gr s' => ?_⟩
    simp only [handlerZero_iff]
  case nop | elect | flagrd | csrrd | qroute | qstat | perfrd => cases hF; exact ⟨_, rfl, fun _ _ _ => rfl⟩
  all_goals cases hF

end Reads

/-- Settles O29: in the frame of `exec_sysForm` the threads of the issue set update themselves together. -/
theorem systemReads : Obligations.SystemReads := by
  intro i F s g set gr hF h
  obtain ⟨f, hexec, hf⟩ := exec_sysForm hF s
  have hupdate (a : Act) (s' : State) (_ : a.g = g) (hset : a.set = set) : f a gr s' = a.each s' (F.update s' gr set) := by
    rw [hf, hset]
  exact hexec.trans (sysEach_eq i s g set gr F.fields F.update h.issuing h.wf h.usable f hupdate)

end Sys2Proof.Proofs

namespace Sys2Proof.Proofs

open Sys2Proof.Machine Sys2Proof.Safety Sys2Proof.Laws

/-! # Branches, exits, BRK and TRAP (spec/15_isa_control_sync.md R292, R293, R298, R312) -/

section Guarded

variable {i : Instr} {s : State} {g : Nat} {set : List Nat} {gr : Group}

/-! ## Branches -/

/-- R292. A taken thread of a branch has gone on when it moves to its target, and that is what its form says. -/
theorem exec_branch_taken {F : BranchForm} (hF : branchForm i = some F) (s : State) :
    ∃ taken, exec i s = withIssue i s (branchRun F.n F.guard F.more taken) ∧
      ∀ (a : Act) (th : Thread), taken a (th.goOn th.pc) = F.taken a.pc th := by
  cases i
  case bra | brx | ret => cases hF; exact ⟨_, rfl, fun _ _ => rfl⟩
  case call =>
    cases hF
    refine ⟨_, rfl, fun a th => ?_⟩
    simp only [Thread.setReg, Thread.goOn]
    rfl
  all_goals cases hF

theorem exec_branch_splits {F : BranchForm} (hF : branchForm i = some F) (h : RunsIf i F.fields F.n F.guard s g set gr) :
    exec i s = .next (splitThreads (poisoned (idle s) g gr (guarded gr F.n F.guard set) F.fields) g set (guarded gr F.n F.guard set)
      (nextPc i gr set) (F.taken (pcOf gr set))) := by
  obtain ⟨taken, hexec, htaken⟩ := exec_branch_taken hF s
  rw [hexec, withIssue_eq i s _ g set gr h.issuing h.wf, branchRun_eq h taken]
  simp only [htaken]
  rfl

/-! ## EXIT -/

section Exit

variable {n : BitVec 1} {gd : BitVec 6}

/-- R292. What the threads of an EXIT do before the waits that their exit ends. -/
def exitSplit (n : BitVec 1) (gd : BitVec 6) (s : State) (g : Nat) (set : List Nat) (gr : Group) : State :=
  splitThreads (poisoned (idle s) g gr (guarded gr n gd set) [regF gd]) g set (guarded gr n gd set) (nextPc (.exit n gd) gr set) exitThread

theorem exec_exit (h : RunsIf (.exit n gd) [regF gd] n gd s g set gr) : exec (.exit n gd) s =
    .next (if guarded gr n gd set = [] then exitSplit n gd s g set gr else (exitSplit n gd s g set gr).afterExit g) := by
  have hchecks := guardChecks_none (theAct (.exit n gd) g set gr) gr (idle s) n gd [regF gd] h.usable
  have hsplit : branchRun n gd [] (fun _ th => { th with state := .exited }) (theAct (.exit n gd) g set gr) gr (idle s) =
      exitSplit n gd s g set gr := branchRun_eq h _
  show execExit n gd s = _
  rw [execExit, withIssue_eq _ s _ g set gr h.issuing h.wf]
  simp only [hchecks, hsplit, List.isEmpty_iff]
  rfl

/-- R298. With no phase in progress no group arrives. -/
theorem refreshArrivals_same {k : TKey} (hb : ∀ t ∈ s.teams, t.key = k → ∀ b ∈ t.barriers, b.bits = none) :
    s.refreshArrivals k = s :=
  modTeam_same s k _ fun t ht hk => by rw [refresh_same _ _ (hb t ht hk)]

/-- An exit in a lane group ends no wait where nothing waits and no phase is in progress. -/
theorem afterExit_same {x : Group} (hg : s.groups[g]? = some x) (hkind : x.key.kind = .lanes) (hnone : NoneWait s)
    (hb : ∀ t ∈ s.teams, t.key = gkeyTeam x.key → ∀ b ∈ t.barriers, b.bits = none) : s.afterExit g = s := by
  simp only [State.afterExit, hg, hkind, refreshArrivals_same hb, settle_same s hnone]

theorem exitSplit_group (hg : s.groups[g]? = some gr) : ∃ x, (exitSplit n gd s g set gr).groups[g]? = some x ∧ x.key = gr.key := by
  obtain ⟨y, hy, hkey⟩ := Laws.flagged_group (idle s) g gr gr (guarded gr n gd set) _ hg
  exact ⟨_, onThreads_group hy _ _, hkey⟩

theorem noneWait_exitSplit (h : NoneWait s) : NoneWait (exitSplit n gd s g set gr) := by
  refine noneWait_onThreads _ _ _ _ (noneWait_flagged (idle s) _ _ _ _ h) fun t th _ => ?_
  split <;> rfl

theorem afterExit_exitSplit (hg : s.groups[g]? = some gr) (hkind : gr.key.kind = .lanes) (hnone : NoneWait s)
    (hb : ∀ t ∈ s.teams, t.key = gkeyTeam gr.key → ∀ b ∈ t.barriers, b.bits = none) :
    (exitSplit n gd s g set gr).afterExit g = exitSplit n gd s g set gr := by
  obtain ⟨x, hx, hkey⟩ := exitSplit_group (n := n) (gd := gd) (set := set) hg
  exact afterExit_same hx (hkey ▸ hkind) (noneWait_exitSplit hnone) (hkey ▸ hb)

end Exit

/-! ## BRK and TRAP -/

theorem exec_brk {n : BitVec 1} {gd : BitVec 6} (h : RunsIf (.brk n gd) [regF gd] n gd s g set gr) :
    exec (.brk n gd) s = .next (match guarded gr n gd set with
      | [] => onThreads (idle s) g set fun _ th => th.goOn (nextPc (.brk n gd) gr set)
      | t :: ts => (onThreads (idle s) g (others set (t :: ts)) fun _ th => th.goOn (nextPc (.brk n gd) gr set)).takeTrap
          g (t :: ts) t 0x3D 0) := by
  have hn := rising_nodup h.issuing.rising
  have hchecks := guardChecks_none (theAct (.brk n gd) g set gr) gr (idle s) n gd [regF gd] h.usable
  show execBrk n gd s = _
  rw [execBrk, withIssue_eq _ s _ g set gr h.issuing h.wf]
  simp only [hchecks, show (theAct (.brk n gd) g set gr).set = set from rfl, goAll_eq _ _ _ _ hn, goAll_eq _ _ _ _ (others_nodup hn)]
  rfl

theorem exec_trap {a : BitVec 6} (h : RunsOnce (.trap a) [regF a] s g set gr) :
    exec (.trap a) s = .next ((idle s).takeTrap g set (leadOf set) 0x3C ((gr.thread (leadOf set)).reg a.toNat)) := by
  have hready := pendingIn_none _ _ (h.usable.ready (leadOf set) (List.mem_singleton_self _))
  refine (bare_eq h.issuing h.wf h.usable.fields legal _ rfl).trans ?_
  simp only [theAct_lead, hready]
  rfl

end Guarded

/-- Settles O22: `branchRun` splits the issue set; the exit of threads ends no wait where none is there to end. -/
theorem branchesAndExits : Obligations.BranchesAndExits := by
  refine ⟨fun i F s g set gr hF h => exec_branch_splits hF h, fun s g set gr n gd h => ⟨exec_exit h, fun hkind hnone hb => ?_⟩⟩
  have hgroup : s.groups[g]? = some gr := h.issuing.group
  rw [exec_exit h, afterExit_exitSplit hgroup hkind hnone hb, ite_self]
  rfl

/-- Settles O23: a guard that is true nowhere traps nothing. -/
theorem breakAndTrap : Obligations.BreakAndTrap :=
  ⟨fun _ _ _ _ _ _ h => exec_brk h, fun _ _ _ _ _ h => exec_trap h⟩

end Sys2Proof.Proofs

namespace Sys2Proof.Proofs

open Sys2Proof.Machine Sys2Proof.Safety Sys2Proof.Laws

/-! # BARG (spec/15_isa_control_sync.md R297) -/

/-- Two updates of threads one after the other are one where they are one in each thread that is there. -/
theorem onGroup_after_onGroup {ts us vs : List Nat} {e f h : Nat → Thread → Thread} {x : Group}
    (heq : ∀ u < x.threads.length, (let th := if u ∈ ts then e u (x.thread u) else x.thread u
      if u ∈ us then f u th else th) = if u ∈ vs then h u (x.thread u) else x.thread u) :
    onGroup us f (onGroup ts e x) = onGroup vs h x := by
  have hthreads : (onGroup us f (onGroup ts e x)).threads = (onGroup vs h x).threads := by
    refine List.ext_getElem (by simp [onGroup]) fun u hu _ => ?_
    have hlt : u < x.threads.length := by simpa [onGroup] using hu
    have hth : x.threads[u] = x.thread u := by simp [Group.thread, List.getD_eq_getElem?_getD, hlt]
    simpa only [onGroup, List.getElem_mapIdx, List.contains_iff_mem, hth] using heq u hlt
  show { x with threads := (onGroup us f (onGroup ts e x)).threads } = { x with threads := (onGroup vs h x).threads }
  rw [hthreads]

theorem onThreads_group_other {s : State} {g j : Nat} (hj : j ≠ g) (ts : List Nat) (f : Nat → Thread → Thread) :
    (onThreads s g ts f).groups[j]? = s.groups[j]? := List.getElem?_modify_ne _ _ (Ne.symm hj)

section Barg

variable {s : State} {g : Nat} {set : List Nat} {gr : Group}

theorem exec_barg (h : Runs .barg [] s g set gr) (hkind : gr.key.kind = .lanes) :
    exec .barg s = .next (onThreads (idle s) g set fun _ th => th.block .barg).settle := by
  have hlanes : notLanes gr (idle s) = false := by simp [notLanes, hkind]
  refine (runs_eq h notLanes _ hlanes).trans (congrArg Host.Outcome.next ?_)
  rw [acting_nil _ _ _ _ rfl]
  exact congrArg State.settle (blockAll_eq _ _ _ _ (rising_nodup h.issuing.rising))

/-- The group once its issue set stands in BARG, its threads in BARG, and the group after they have gone on. -/
def bargGroup (set : List Nat) (gr : Group) : Group := onGroup set (fun _ th => th.block .barg) gr
def inBarg (set : List Nat) (gr : Group) : List Nat :=
  (List.range (bargGroup set gr).threads.length).filter fun u => ((bargGroup set gr).thread u).state == .blocked .barg
def passBarg (th : Thread) : Thread := if th.state = .exited then th else th.goOn (pcAfter th.pc 4)

theorem passBarg_free (th : Thread) : (passBarg th).isBlocked = false := by
  unfold passBarg
  split
  next hexit => rw [Thread.isBlocked, hexit]
  next => rfl

theorem bargGroup_length : (bargGroup set gr).threads.length = gr.threads.length := by simp [bargGroup, onGroup]

theorem bargGroup_thread {u : Nat} (hu : u < gr.threads.length) :
    (bargGroup set gr).thread u = if u ∈ set then (gr.thread u).block .barg else gr.thread u := by
  rw [bargGroup, thread_onGroup]
  simp only [hu, and_true]

theorem mem_inBarg {u : Nat} : u ∈ inBarg set gr ↔ u < gr.threads.length ∧ ((bargGroup set gr).thread u).state = .blocked .barg := by
  rw [inBarg, List.mem_filter, List.mem_range, bargGroup_length, beq_iff_eq]

/-- The end of the wait of one thread is that of all in BARG. -/
theorem wake_barg {x : Group} {t : Nat} (hstate : (x.thread t).state = .blocked .barg) (s : State) :
    s.wake g x t = onThreads s g ((List.range x.threads.length).filter fun u => (x.thread u).state == .blocked .barg)
      fun _ th => th.goOn (pcAfter th.pc 4) := by
  unfold State.wake
  simp only [hstate]
  exact foldl_modThread _ s g (fun _ th => th.goOn (pcAfter th.pc 4)) (List.nodup_range.filter _)

section Meets

variable (hall : ∀ t, t < gr.threads.length → t ∈ set ∨ (gr.thread t).state = .exited ∨ (gr.thread t).state = .blocked .barg)
  (hready : ∀ t ∈ set, (gr.thread t).state = .ready)
include hall

/-- Every thread of the group has exited or stands in BARG. -/
theorem bargGroup_states {u : Nat} (hu : u < gr.threads.length) :
    (u ∉ set ∧ (gr.thread u).state = .exited) ∨ u ∈ inBarg set gr := by
  by_cases hset : u ∈ set
  · exact .inr (mem_inBarg.2 ⟨hu, by rw [bargGroup_thread hu, if_pos hset]; rfl⟩)
  · rcases (hall u hu).resolve_left hset with hexit | hbarg
    · exact .inl ⟨hset, hexit⟩
    · exact .inr (mem_inBarg.2 ⟨hu, by rw [bargGroup_thread hu, if_neg hset]; exact hbarg⟩)

theorem mem_inBarg_of_blocked {u : Nat} (hu : u < gr.threads.length) (hblocked : ((bargGroup set gr).thread u).isBlocked = true) :
    u ∈ inBarg set gr := by
  refine (bargGroup_states hall hu).resolve_left fun ⟨hset, hexit⟩ => ?_
  rw [bargGroup_thread hu, if_neg hset, Thread.isBlocked, hexit] at hblocked
  cases hblocked

theorem bargGroup_wakes (s : State) {u : Nat} (hu : u ∈ inBarg set gr) : s.wakes (bargGroup set gr) u = true := by
  unfold State.wakes
  simp only [(mem_inBarg.1 hu).2, List.all_eq_true]
  intro th hth
  obtain ⟨v, hv, rfl⟩ := List.mem_iff_getElem.1 hth
  have hth : (bargGroup set gr).threads[v] = (bargGroup set gr).thread v := by simp [Group.thread, List.getD_eq_getElem?_getD, hv]
  rw [bargGroup_length] at hv
  rw [hth]
  rcases bargGroup_states hall hv with ⟨hset, hexit⟩ | hin
  · rw [bargGroup_thread hv, if_neg hset, Thread.isExited, hexit]; rfl
  · simp [(mem_inBarg.1 hin).2]

include hready

/-- Together the threads that began to wait and those that already did have passed the barrier. -/
theorem bargGroup_passed : onGroup (inBarg set gr) (fun _ th => th.goOn (pcAfter th.pc 4)) (bargGroup set gr) =
    onGroup (List.range gr.threads.length) (fun _ => passBarg) gr := by
  refine onGroup_after_onGroup fun u hu => ?_
  rw [if_pos (List.mem_range.2 hu)]
  rcases bargGroup_states hall hu with ⟨hset, hexit⟩ | hin
  · have hnot : u ∉ inBarg set gr := fun hin => by
      have hstate := (mem_inBarg.1 hin).2
      rw [bargGroup_thread hu, if_neg hset, hexit] at hstate
      cases hstate
    simp only [hset, hnot, if_false, passBarg, hexit, if_true]
  · simp only [hin, if_true, passBarg]
    by_cases hset : u ∈ set
    · simp [hset, hready u hset, Thread.goOn, Thread.block]
    · have hstate := (mem_inBarg.1 hin).2
      rw [bargGroup_thread hu, if_neg hset] at hstate
      simp [hset, hstate]

/-- R297. The last thread of the group has come: every thread that has not exited goes on. -/
theorem settle_barg (hg : s.groups[g]? = some gr) (hactive : s.active gr = true)
    (hothers : ∀ j x, s.groups[j]? = some x → j ≠ g → ∀ th ∈ x.threads, th.isBlocked = false) :
    (onThreads s g set fun _ th => th.block .barg).settle = onThreads s g (List.range gr.threads.length) fun _ => passBarg := by
  have hgroup : (onThreads s g set fun _ th => th.block .barg).groups[g]? = some (bargGroup set gr) := onThreads_group hg _ _
  have hpassed : onThreads (onThreads s g set fun _ th => th.block .barg) g (inBarg set gr) (fun _ th => th.goOn (pcAfter th.pc 4)) =
      onThreads s g (List.range gr.threads.length) fun _ => passBarg := by
    simp only [onThreads, modify_modify]
    rw [modify_congr_at hg (bargGroup_passed hall hready)]
  have hwaiters {x : Nat × Group × Nat} (hx : x ∈ (onThreads s g set fun _ th => th.block .barg).wakeable) :
      x.1 = g ∧ x.2.1 = bargGroup set gr ∧ x.2.2 ∈ inBarg set gr := by
    obtain ⟨hxg, -, hlt, hwakes⟩ := mem_wakeable.1 hx
    have hblocked := isBlocked_of_wakes hwakes
    by_cases hj : x.1 = g
    · rw [hj, hgroup] at hxg
      have hgr := Option.some.inj hxg
      rw [← hgr] at hlt hblocked
      exact ⟨hj, hgr.symm, mem_inBarg_of_blocked hall (bargGroup_length ▸ hlt) hblocked⟩
    · rw [onThreads_group_other hj] at hxg
      rw [hothers _ _ hxg hj _ (thread_mem hlt)] at hblocked
      cases hblocked
  by_cases hsome : inBarg set gr = []
  · rw [← hpassed, hsome, onThreads_nil]
    refine settle_of_wakeable (List.eq_nil_iff_forall_not_mem.2 fun x hx => ?_)
    obtain ⟨-, -, hin⟩ := hwaiters hx
    rw [hsome] at hin
    cases hin
  · refine settle_once ?_ (fun x hx => ?_) fun x hx th hth => ?_
    · obtain ⟨t, ht⟩ := List.exists_mem_of_ne_nil _ hsome
      exact List.ne_nil_of_mem (a := (g, bargGroup set gr, t)) (mem_wakeable.2 ⟨hgroup, hactive, bargGroup_length.symm ▸ (mem_inBarg.1 ht).1,
        bargGroup_wakes hall _ ht⟩)
    · obtain ⟨hj, hgr, hin⟩ := hwaiters hx
      rw [hj, hgr, wake_barg (mem_inBarg.1 hin).2]
      exact hpassed
    · obtain ⟨j, hj⟩ := List.mem_iff_getElem?.1 hx
      by_cases he : j = g
      · rw [he, onThreads_group hg] at hj
        obtain rfl := Option.some.inj hj
        obtain ⟨u, hu, rfl⟩ := List.mem_mapIdx.1 hth
        rw [if_pos (List.contains_iff_mem.2 (List.mem_range.2 hu))]
        exact passBarg_free _
      · rw [onThreads_group_other he] at hj
        exact hothers j x hj he th hth

end Meets

end Barg

/-- Settles O24: the threads block in `exec_barg`, and `settle_barg` says when they go on. -/
theorem bargMeets : Obligations.BargMeets := by
  intro s g set gr h hkind blocked
  refine ⟨exec_barg h hkind, fun hactive hready hall hothers => ?_⟩
  rw [exec_barg h hkind, settle_barg hall hready (idle_group h.issuing) hactive hothers]
  rfl

end Sys2Proof.Proofs

namespace Sys2Proof.Proofs

open Sys2Proof.Machine Sys2Proof.Safety Sys2Proof.Laws

/-! # Team barriers (spec/15_isa_control_sync.md R298, R300) -/

section TeamBarriers

variable {s : State} {g : Nat} {set : List Nat} {gr : Group}

/-- The open phase of a barrier of a group's team, 0 for a team that is not there. -/
def openPhase (s : State) (gr : Group) (id : Nat) : Word :=
  ((s.team? (gkeyTeam gr.key)).map fun t => (t.barriers.getD id {}).phase).getD 0

/-! ## BART, BARARV, BARWT -/

theorem exec_bart {im : BitVec 8} (h : Runs (.bart im) [] s g set gr) (hlegal : barrierIllegal im gr s = false) :
    exec (.bart im) s = .next (onThreads ((idle s).come (theAct (.bart im) g set gr) gr (im.toNat % 16) (im.extractLsb' 4 4)) g set
      fun _ th => th.block (.bart (im.toNat % 16) (openPhase s gr (im.toNat % 16)))) := by
  refine (runs_eq h (barrierIllegal im) _ hlegal).trans (congrArg Host.Outcome.next ?_)
  rw [acting_nil _ _ _ _ rfl]
  exact blockAll_eq _ _ _ _ (rising_nodup h.issuing.rising)

theorem exec_bararv {im : BitVec 8} (h : Runs (.bararv im) [] s g set gr) (hlegal : barrierIllegal im gr s = false) :
    exec (.bararv im) s = .next (onThreads ((idle s).come (theAct (.bararv im) g set gr) gr (im.toNat % 16) (im.extractLsb' 4 4)) g set
      fun _ th => th.goOn (nextPc (.bararv im) gr set)) := by
  refine (runs_eq h (barrierIllegal im) _ hlegal).trans (congrArg Host.Outcome.next ?_)
  rw [acting_nil _ _ _ _ rfl]
  exact goAll_eq _ _ _ _ (rising_nodup h.issuing.rising)

theorem exec_barwt {im : BitVec 4} (h : Runs (.barwt im) [] s g set gr) (hkind : gr.key.kind = .lanes) :
    exec (.barwt im) s = .next (onThreads (idle s) g set fun t th =>
      if (gr.thread t).phases.getD im.toNat none = some (openPhase s gr im.toNat) then th.block (.barwt im.toNat (openPhase s gr im.toNat))
      else th.goOn (nextPc (.barwt im) gr set)) := by
  have hlanes : notLanes gr (idle s) = false := by simp [notLanes, hkind]
  refine (runs_eq h notLanes _ hlanes).trans (congrArg Host.Outcome.next ?_)
  rw [acting_nil _ _ _ _ rfl]
  refine fold_set (rising_nodup h.issuing.rising) (idle s) g (fun t s' =>
    if (gr.thread t).phases.getD im.toNat none = some (openPhase s gr im.toNat) then
      s'.modThread g t fun th => th.block (.barwt im.toNat (openPhase s gr im.toNat))
    else s'.modThread g t fun th => th.goOn (nextPc (.barwt im) gr set)) _ fun t s' => ?_
  split <;> rfl

/-! ## Arrivals -/

/-- R298. The phase's bits, its counts and marks, and each thread's record of the phase; then the groups that have arrived. -/
theorem come_eq (s : State) (a : Act) (gr : Group) (id : Nat) (bits : BitVec 4) (hn : a.set.Nodup) :
    s.come a gr id bits = (onThreads (s.modTeam (gkeyTeam gr.key) fun t => { t with barriers := t.barriers.modify id fun b => { b with
        bits := some (b.bits.getD bits)
        came := b.came ++ a.set.map fun u => (gr.key.idx, u)
        marks := b.marks ++ a.set.map fun u => (gr.l u, ((s.node? gr.key.ctx gr.key.node).map fun n => n.dredSeq (gr.l u)).getD 0) } })
      a.g a.set fun _ th => { th with phases := th.phases.set id (some (openPhase s gr id)) }).refreshArrivals (gkeyTeam gr.key) := by
  have hphases (s' : State) := foldl_modThread a.set s' a.g (fun _ th => { th with phases := th.phases.set id (some (openPhase s gr id)) }) hn
  exact congrArg (fun s' => s'.refreshArrivals (gkeyTeam gr.key)) (hphases _)

theorem reached_iff (b : Barrier) (x : Group) : b.reached x = true ↔
    x.allExited = false ∧ ∀ t, t < x.threads.length → (x.thread t).isExited = true ∨ (x.key.idx, t) ∈ b.came := by
  simp [Barrier.reached]

/-- R298. The groups of the role mask that have reached the phase join those that have arrived. -/
theorem mem_arrived_refreshBarrier {gs : List Group} {b : Barrier} {bits : BitVec 4} {n : Nat} (hbits : b.bits = some bits) :
    n ∈ (refreshBarrier gs b).arrived ↔ n ∈ b.arrived ∨ ∃ x ∈ gs, x.key.idx = n ∧ x.inMask bits = true ∧ b.reached x = true := by
  simp only [refreshBarrier, hbits, List.mem_append, List.mem_map, List.mem_filter, Bool.and_eq_true]
  constructor
  · rintro (hn | ⟨x, ⟨hx, ⟨hmask, hreached⟩, -⟩, rfl⟩)
    · exact .inl hn
    · exact .inr ⟨x, hx, rfl, hmask, hreached⟩
  · rintro (hn | ⟨x, hx, rfl, hmask, hreached⟩)
    · exact .inl hn
    · by_cases hold : x.key.idx ∈ b.arrived
      · exact .inl hold
      · exact .inr ⟨x, ⟨hx, ⟨hmask, hreached⟩, by simpa using hold⟩, rfl⟩

end TeamBarriers

/-- Settles O25: the three instructions, what `come` changes, and which groups have then arrived. -/
theorem teamBarriers : Obligations.TeamBarriers := by
  refine ⟨⟨fun s g set gr im h hlegal => exec_bart h hlegal, fun s g set gr im h hlegal => exec_bararv h hlegal,
    fun s g set gr im h hkind => exec_barwt h hkind⟩, fun s a gr id bits hn => come_eq s a gr id bits hn, fun gs b bits n hbits => ?_⟩
  simp only [mem_arrived_refreshBarrier hbits, reached_iff]
  refine or_congr_right (exists_congr fun x => and_congr_right fun _ => and_congr_right ?_)
  rintro rfl
  exact Iff.rfl

end Sys2Proof.Proofs

namespace Sys2Proof.Proofs

open Sys2Proof.Machine Sys2Proof.Safety Sys2Proof.Laws

/-! # What the issue of an engine command changes (spec/19_isa_engines_matrix.md R323, spec/15_isa_control_sync.md R294) -/

section Enters

variable {s : State} {c : Cmd} {draws : Nat} {a : Act} {gr : Group}

/-- Threads go on once, however often the set names them. -/
theorem goAll_onThreads (s : State) (g : Nat) (set : List Nat) (pc : Word) :
    s.goAll g set pc = onThreads s g set fun _ th => th.goOn pc := by
  induction set generalizing s with
  | nil => rw [onThreads_nil]; rfl
  | cons t ts ih =>
    refine (ih _).trans ?_
    have honce (x : Group) : onGroup ts (fun _ th => th.goOn pc) (x.modThread t fun th => th.goOn pc) =
        onGroup (t :: ts) (fun _ th => th.goOn pc) x := by
      rw [onGroup_single]
      refine onGroup_after_onGroup fun u _ => ?_
      by_cases hu : u = t
      · simp [hu, Thread.goOn]
      · simp [hu]
    simp only [onThreads, State.modThread, State.modGroup, modify_modify, honce]

/-- R294. The elected thread counts its command, with the conversions that it draws. -/
def countsCmd (c : Cmd) (draws : Nat) (th : Thread) : Thread :=
  { th with
    copies := th.copies + (if c.op < 8 then 1 else 0)
    tileOps := th.tileOps + (if c.op < 8 then 0 else 1)
    convs := (th.convs + draws) % 2 ^ 32 }

/-- R347. Of the commands other than SMMA, those whose fetch is held until they complete. -/
theorem preciseOp_iff (hop : c.op ≠ 11) : preciseOp c.op = true ↔ c.op = 21 ∨ c.op = 22 ∨ c.op = 23 := by
  simp [preciseOp, hop, or_assoc]

/-- Then the group's fetch is held, or its issue set goes on. -/
def heldOrGoes (c : Cmd) (a : Act) (x : Group) : Group :=
  if preciseOp c.op then { x with fetch := some (.engine c.id a.next a.set) } else onGroup a.set (fun _ th => th.goOn a.next) x

/-- The group of a command once it has issued. -/
def enteredGroup (c : Cmd) (draws : Nat) (a : Act) (x : Group) : Group := heldOrGoes c a (x.modThread c.elected.2 (countsCmd c draws))

/-- R188. The state whose context has noted the cairn of a command. -/
def cairnNamed (s : State) (c : Cmd) : State :=
  match c.cairn with
  | some x => s.nameCairn c.team x
  | none => s

theorem rampFor_eq (s : State) (core op : Nat) : s.rampFor core op = { s with boot := (s.rampFor core op).boot } := by
  unfold State.rampFor
  split <;> rfl

theorem enqueue_eq (s : State) (gr : Group) (g : Nat) (c : Cmd) (draws : Nat) : s.enqueue gr g c draws = { s with
    cmdIds := s.cmdIds + 1
    cores := s.cores.modify gr.core fun x => { x with queue := x.queue ++ [c] }
    ctxs := (cairnNamed s c).ctxs
    groups := s.groups.modify g fun x => x.modThread c.elected.2 (countsCmd c draws) } := by
  have hcounts : (fun th : Thread => { th with
      copies := th.copies + (if copyOp c.op then 1 else 0)
      tileOps := th.tileOps + (if copyOp c.op then 0 else 1)
      convs := (th.convs + draws) % 2 ^ 32 }) = countsCmd c draws := by
    funext th
    simp only [copyOp, decide_eq_true_eq]
    rfl
  unfold State.enqueue cairnNamed
  rw [hcounts]
  cases c.cairn <;> rfl

theorem heldOrGoes_eq (s : State) (c : Cmd) (a : Act) :
    (if preciseOp c.op then s.modGroup a.g fun x => { x with fetch := some (.engine c.id a.next a.set) } else s.goAll a.g a.set a.next) =
      s.modGroup a.g (heldOrGoes c a) := by
  unfold heldOrGoes
  split
  · rfl
  · exact goAll_onThreads ..

/-- What the issue of a command other than SMMA changes. -/
theorem issueCmd_eq (hop : c.op ≠ 11) : issueCmd c draws a gr s = { s with
    boot := (s.rampFor gr.core c.op).boot
    cmdIds := s.cmdIds + 1
    cores := s.cores.modify gr.core fun x => { x with queue := x.queue ++ [c] }
    ctxs := (cairnNamed s c).ctxs
    teams := s.teams.map fun t => if t.key == c.team then t.afterIssue c else t
    groups := s.groups.modify a.g (enteredGroup c draws a) } := by
  have hmat : (s.rampFor gr.core c.op).consumeMat gr.key a.g a.lead c.op = s.rampFor gr.core c.op := if_neg hop
  have hnamed : (cairnNamed (s.rampFor gr.core c.op) c).ctxs = (cairnNamed s c).ctxs := by
    rw [rampFor_eq]
    unfold cairnNamed
    cases c.cairn <;> rfl
  have hgroups : (s.groups.modify a.g fun x => x.modThread c.elected.2 (countsCmd c draws)).modify a.g (heldOrGoes c a) =
      s.groups.modify a.g (enteredGroup c draws a) := modify_modify ..
  unfold issueCmd
  dsimp only
  rw [heldOrGoes_eq, hmat, enqueue_eq, hnamed, rampFor_eq, ← hgroups]
  rfl

/-! ## The group of the command -/

/-- A thread that counts a command where it is the elected one. -/
def countedThread (c : Cmd) (draws : Nat) (x : Group) (u : Nat) : Thread :=
  if c.elected.2 = u then countsCmd c draws (x.thread u) else x.thread u

theorem enteredGroup_thread {u : Nat} (hu : u < gr.threads.length) : (enteredGroup c draws a gr).thread u =
    if preciseOp c.op = false ∧ u ∈ a.set then (countedThread c draws gr u).goOn a.next else countedThread c draws gr u := by
  have hcounted : (gr.modThread c.elected.2 (countsCmd c draws)).thread u = countedThread c draws gr u := by
    rw [modThread_thread, countedThread]
    simp only [hu, and_true]
  unfold enteredGroup heldOrGoes
  cases hp : preciseOp c.op
  · rw [if_neg Bool.false_ne_true, thread_onGroup, hcounted]
    simp [hu]
  · rw [if_pos rfl, if_neg (by simp)]
    exact hcounted

theorem enteredGroup_other {u : Nat} (hu : u ∉ a.set) (helected : c.elected.2 ∈ a.set) : (enteredGroup c draws a gr).thread u = gr.thread u := by
  have hne : c.elected.2 ≠ u := fun he => hu (he ▸ helected)
  by_cases hlt : u < gr.threads.length
  · rw [enteredGroup_thread hlt, if_neg fun h => hu h.2, countedThread, if_neg hne]
  · have hlength : (enteredGroup c draws a gr).threads.length = gr.threads.length := by
      unfold enteredGroup heldOrGoes
      split <;> simp [onGroup]
    simp only [Group.thread, List.getD_eq_getElem?_getD, List.getElem?_eq_none (Nat.le_of_not_lt hlt),
      List.getElem?_eq_none (hlength ▸ Nat.le_of_not_lt hlt)]

theorem enteredGroup_fetch : (enteredGroup c draws a gr).fetch =
    if preciseOp c.op then some (.engine c.id a.next a.set) else gr.fetch := by
  unfold enteredGroup heldOrGoes
  split <;> rfl

theorem afterIssue_key (t : Team) (c : Cmd) : (t.afterIssue c).key = t.key := by
  unfold Team.afterIssue
  split <;> rfl

/-- R188. The cairn that a command names is among those of its context. -/
theorem mem_cairns_named {x : Word} (hcairn : c.cairn = some x) (hctx : c.team.ctx < s.ctxs.length) :
    (c.team.node, c.team.team, x) ∈ ((cairnNamed s c).ctx c.team.ctx).cairns := by
  have hnamed : (cairnNamed s c).ctx c.team.ctx = if (s.ctx c.team.ctx).cairns.contains (c.team.node, c.team.team, x) then s.ctx c.team.ctx
      else { s.ctx c.team.ctx with cairns := (s.ctx c.team.ctx).cairns ++ [(c.team.node, c.team.team, x)] } := by
    unfold cairnNamed
    simp only [hcairn, State.nameCairn, modCtx_ctx, hctx, and_self, if_true]
  rw [hnamed]
  split
  next hold => exact List.contains_iff_mem.1 hold
  next => exact List.mem_append_right _ (List.mem_singleton_self _)

end Enters

/-- Settles O39: `issueCmd_eq` says what changes; in the command's group the elected thread counts it, and the set goes on or its
fetch is held. -/
theorem commandEnters : Obligations.CommandEnters := by
  intro s c draws a gr hg hset hin hlead hop s'
  have heq : s' = _ := issueCmd_eq (s := s) (draws := draws) (a := a) (gr := gr) hop
  have helected : c.elected.2 ∈ a.set := hlead ▸ leadOf_mem hset
  have hlt : a.lead < gr.threads.length := hin _ (leadOf_mem hset)
  simp only [← preciseOp_iff hop]
  refine ⟨by rw [heq], by rw [heq], by rw [heq], by rw [heq], fun j hj => ?_, fun k hk => ?_, fun x hcairn hctx => ?_,
    enteredGroup c draws a gr, ?_, enteredGroup_fetch, fun u hu => enteredGroup_other hu helected, ?_, ?_, fun u hu => ?_⟩
  · rw [heq]
    exact List.getElem?_modify_ne _ _ (Ne.symm hj)
  · rw [heq]
    refine (modTeam_team? (s := s) (k := c.team) (k' := k) (fun t => t.afterIssue c) fun t => afterIssue_key t c).trans ?_
    cases hteam : s.team? k with
    | none => rfl
    | some t => rw [Option.map_some, if_neg (by simpa [team?_key hteam] using hk)]
  · rw [heq]
    exact mem_cairns_named hcairn hctx
  · rw [heq]
    simp [hg]
  · rw [enteredGroup_thread hlt]
    split <;> simp [countedThread, hlead, countsCmd]
  · rw [enteredGroup_thread hlt]
    split <;> simp [countedThread, hlead, countsCmd]
  · have hcounted : (countedThread c draws gr u).regs = (gr.thread u).regs ∧ (countedThread c draws gr u).pc = (gr.thread u).pc := by
      unfold countedThread
      split <;> exact ⟨rfl, rfl⟩
    rw [enteredGroup_thread (hin u hu)]
    cases hp : preciseOp c.op <;> simp [hu, hcounted]

end Sys2Proof.Proofs

namespace Sys2Proof.Proofs

open Sys2Proof.Machine Sys2Proof.Safety Sys2Proof.Laws

/-! # ACCALLOC (spec/19_isa_engines_matrix.md R337, Table 19.8) -/

section Requests

variable {s : State} {gr : Group} {x : AccAsk}

/-! ## The requests that wait -/

/-- What a list keeps where an element joins only if a test on those kept before it fails. -/
theorem mem_of_mem_foldl_keep {α : Type} {q : List α → α → Bool} (L acc : List α) {y : α}
    (h : y ∈ L.foldl (fun acc z => if q acc z then acc else acc ++ [z]) acc) : y ∈ acc ∨ y ∈ L := by
  induction L generalizing acc with
  | nil => exact .inl h
  | cons z L ih =>
    rcases ih _ h with hacc | hL
    · dsimp only at hacc
      split at hacc
      · exact .inl hacc
      · rcases List.mem_append.1 hacc with hold | hnew
        · exact .inl hold
        · exact .inr (List.mem_cons.2 (.inl (List.mem_singleton.1 hnew)))
    · exact .inr (List.mem_cons_of_mem _ hL)

theorem mem_foldl_keep_of_mem {α : Type} {q : List α → α → Bool} (L acc : List α) {y : α} (h : y ∈ acc) :
    y ∈ L.foldl (fun acc z => if q acc z then acc else acc ++ [z]) acc := by
  induction L generalizing acc with
  | nil => exact h
  | cons z L ih =>
    refine ih _ ?_
    dsimp only
    split
    · exact h
    · exact List.mem_append_left _ h

/-- The request of one thread. -/
def threadAsk (p : Group × Nat) (t : Nat) : Option AccAsk :=
  match (p.1.thread t).state with
  | .blocked (.accalloc d n pair w) => some ⟨p.2, p.1.key, d, n, pair, w, (p.1.thread t).pc, (p.1.thread t).issued, p.1.l t⟩
  | _ => none

theorem threadAsk_of_mem {p : Group × Nat} (h : x ∈ accAsks p) : ∃ t < p.1.threads.length, threadAsk p t = some x := by
  rcases mem_of_mem_foldl_keep _ _ h with hnil | hask
  · cases hnil
  · obtain ⟨t, ht, hask⟩ := List.mem_filterMap.1 hask
    exact ⟨t, List.mem_range.1 ht, hask⟩

theorem accAsks_ne_nil {p : Group × Nat} {t : Nat} (ht : t < p.1.threads.length) (h : threadAsk p t = some x) : accAsks p ≠ [] := by
  have hmem : x ∈ (List.range p.1.threads.length).filterMap (threadAsk p) := List.mem_filterMap.2 ⟨t, List.mem_range.2 ht, h⟩
  show ((List.range p.1.threads.length).filterMap (threadAsk p)).foldl _ [] ≠ []
  cases hL : (List.range p.1.threads.length).filterMap (threadAsk p) with
  | nil => rw [hL] at hmem; cases hmem
  | cons y L => exact List.ne_nil_of_mem (mem_foldl_keep_of_mem (y := y) L _ (List.mem_singleton_self _))

theorem threadAsk_blocked {p : Group × Nat} {t : Nat} (h : threadAsk p t = some x) : (p.1.thread t).isBlocked = true := by
  unfold threadAsk at h
  split at h
  next hstate => rw [Thread.isBlocked, hstate]
  next => cases h

theorem mem_accAll : x ∈ s.accAll ↔ ∃ j gr, s.groups[j]? = some gr ∧ (∃ t, s.team? (gkeyTeam gr.key) = some t ∧ t.saved = false) ∧
    x ∈ accAsks (gr, j) := by
  simp only [State.accAll, List.mem_flatten, List.mem_map, List.mem_filter]
  constructor
  · rintro ⟨_, ⟨⟨gr, j⟩, ⟨hgroup, hteam⟩, rfl⟩, hx⟩
    refine ⟨j, gr, by simpa [List.mem_zipIdx_iff_getElem?] using hgroup, ?_, hx⟩
    cases ht : s.team? (gkeyTeam gr.key) with
    | none => simp [ht] at hteam
    | some t => exact ⟨t, rfl, by simpa [ht] using hteam⟩
  · rintro ⟨j, gr, hgroup, ⟨t, ht, hsaved⟩, hx⟩
    exact ⟨_, ⟨(gr, j), ⟨by simpa [List.mem_zipIdx_iff_getElem?] using hgroup, by simp [ht, hsaved]⟩, rfl⟩, hx⟩

theorem accAll_of_noneWait (h : NoneWait s) : s.accAll = [] := by
  refine List.eq_nil_iff_forall_not_mem.2 fun x hx => ?_
  obtain ⟨j, gr, hgroup, -, hask⟩ := mem_accAll.1 hx
  obtain ⟨t, ht, hask⟩ := threadAsk_of_mem hask
  have hblocked := threadAsk_blocked hask
  rw [h gr (List.mem_of_getElem? hgroup) _ (thread_mem ht)] at hblocked
  cases hblocked

theorem accGrants_of_noneWait (h : NoneWait s) (m : Nat) : s.accGrants m = s := by
  cases m with
  | zero => rfl
  | succ m => simp [State.accGrants, State.accNext, accAll_of_noneWait h, leastBy?]

/-- R337. Where every request can be granted and its grant leaves the same state, in which no thread waits, that state is what is left. -/
theorem accGrants_once {s' : State} {p : Nat × Nat} (hsome : s.accAll ≠ []) (hplace : ∀ x ∈ s.accAll, s.askPlace x = some p)
    (hgrant : ∀ x ∈ s.accAll, s.accGrant x p = s') (hdone : NoneWait s') : s.accGrants s.accAll.length = s' := by
  obtain ⟨m, hm⟩ := Nat.exists_eq_succ_of_ne_zero (List.length_pos_iff.2 hsome).ne'
  have hnext : ∃ x ∈ s.accAll, s.accNext = some (x, p) := by
    cases hleast : s.accNext with
    | none =>
      obtain ⟨x, hx⟩ := List.exists_mem_of_ne_nil _ hsome
      have hnil := leastBy?_eq_none.1 hleast
      exact absurd (List.mem_filterMap.2 ⟨x, hx, by rw [hplace x hx]; rfl⟩ : (x, p) ∈ _) (hnil ▸ List.not_mem_nil)
    | some y =>
      obtain ⟨x, hx, hy⟩ := List.mem_filterMap.1 (leastBy?_mem hleast)
      rw [hplace x hx] at hy
      exact ⟨x, hx, hy ▸ rfl⟩
  obtain ⟨x, hx, hnext⟩ := hnext
  rw [hm]
  simp only [State.accGrants, hnext, hgrant x hx]
  exact accGrants_of_noneWait hdone m

/-- R337. A grant of one request: the bank, the slots and tiles, and the handle in the threads of the request. -/
theorem accGrant_eq {l : Nat} {p : Nat × Nat} (hleader : s.askLeader x = some l) (hgroup : s.groups[x.g]? = some gr) :
    s.accGrant x p = onThreads ((s.modCore l fun c => { c with banks := c.banks.set p.1 (some x.key.ctx) }).modTeam (gkeyTeam x.key)
      fun t => { t with
        grants := t.grants ++ [⟨x.pair, p.1, p.2, x.n, false⟩]
        tiles := t.tiles ++ (List.range x.n).map fun i => ⟨x.pair, p.2 + i, List.replicate 32768 0⟩ }) x.g (x.threads gr)
      fun _ th => (th.setReg x.d (BitVec.ofNat 32 (x.pair * 512 + p.1 * 256 + x.n * 16 + p.2))).goOn (pcAfter th.pc 4) := by
  unfold State.accGrant
  simp only [hleader, modTeam_groups, modCore_groups, hgroup]
  exact foldl_modThread _ _ x.g (fun _ th => (th.setReg x.d _).goOn (pcAfter th.pc 4)) (List.nodup_range.filter _)

end Requests

/-! ## The instruction -/

section Accalloc

variable {s : State} {g : Nat} {set : List Nat} {gr : Group} {tm : Team} {node : Node} {f : BitVec 5} {w : BitVec 6}

/-- R337. The wait of an ACCALLOC, and a thread that begins it in a cycle. -/
def accWait (f : BitVec 5) (w : BitVec 6) : Wait := .accalloc w.toNat (f.toNat % 8) (f.toNat / 16) (f.getLsbD 3)
def asksAt (cycle : Nat) (f : BitVec 5) (w : BitVec 6) (th : Thread) : Thread := { th.block (accWait f w) with issued := cycle }

/-- The state in which the threads of an ACCALLOC wait. -/
def accWaiting (s : State) (g : Nat) (set : List Nat) (f : BitVec 5) (w : BitVec 6) : State :=
  onThreads (idle s) g set fun _ => asksAt s.cycle f w

theorem exec_accalloc_refused (h : RunsOnce (.accalloc f w) [outF w] s g set gr) (hteam : s.team? (gkeyTeam gr.key) = some tm)
    (hnode : s.node? gr.key.ctx gr.key.node = some node)
    (hbad : node.rec'.accSlots < tm.heldSlots + f.toNat % 8 ∨ tm.cores.length < 2 * (f.toNat / 16) + 2) :
    exec (.accalloc f w) s = .next ((idle s).takeTrap g set (leadOf set) 0x10 12) := by
  refine (runsOnce_eq h legal _ rfl).trans (congrArg Host.Outcome.next ?_)
  rw [poisoned_same _ _ _ _ _ (show ownReads [outF w] = [] from rfl)]
  have hteam' : (idle s).team? (gkeyTeam gr.key) = some tm := hteam
  have hnode' : (idle s).node? gr.key.ctx gr.key.node = some node := hnode
  simp only [hteam', hnode', Option.map_some, Option.getD_some, Bool.or_eq_true, decide_eq_true_eq, if_pos hbad]
  rfl

theorem exec_accalloc (h : RunsOnce (.accalloc f w) [outF w] s g set gr) (hteam : s.team? (gkeyTeam gr.key) = some tm)
    (hnode : s.node? gr.key.ctx gr.key.node = some node) (hslots : tm.heldSlots + f.toNat % 8 ≤ node.rec'.accSlots)
    (hpair : 2 * (f.toNat / 16) + 2 ≤ tm.cores.length) :
    exec (.accalloc f w) s = .next ((accWaiting s g set f w).accGrants (accWaiting s g set f w).accAll.length) := by
  have hn := rising_nodup h.issuing.rising
  refine (runsOnce_eq h legal _ rfl).trans (congrArg Host.Outcome.next ?_)
  rw [poisoned_same _ _ _ _ _ (show ownReads [outF w] = [] from rfl)]
  have hteam' : (idle s).team? (gkeyTeam gr.key) = some tm := hteam
  have hnode' : (idle s).node? gr.key.ctx gr.key.node = some node := hnode
  have hok : ¬(node.rec'.accSlots < tm.heldSlots + f.toNat % 8 ∨ tm.cores.length < 2 * (f.toNat / 16) + 2) := by omega
  have hwaits : set.foldl (fun s' u => s'.modThread g u fun x => { x with issued := (idle s).cycle })
      ((idle s).blockAll g set (accWait f w)) = accWaiting s g set f w := by
    rw [blockAll_eq _ _ _ _ hn, foldl_modThread set _ g (fun _ x => { x with issued := (idle s).cycle }) hn, onThreads_onThreads]
    rfl
  simp only [hteam', hnode', Option.map_some, Option.getD_some, Bool.or_eq_true, decide_eq_true_eq, if_neg hok]
  exact congrArg (fun s' => s'.accGrants s'.accAll.length) hwaits

/-- The group in which the threads of an ACCALLOC wait, and the request of one of them. -/
def accGroup (s : State) (set : List Nat) (gr : Group) (f : BitVec 5) (w : BitVec 6) : Group := onGroup set (fun _ => asksAt s.cycle f w) gr
def accAsk (s : State) (g : Nat) (set : List Nat) (gr : Group) (f : BitVec 5) (w : BitVec 6) (t : Nat) : AccAsk :=
  ⟨g, gr.key, w.toNat, f.toNat % 8, f.toNat / 16, f.getLsbD 3, pcOf gr set, s.cycle, gr.l t⟩

theorem accGroup_length : (accGroup s set gr f w).threads.length = gr.threads.length := by simp [accGroup, onGroup]

theorem accGroup_thread {u : Nat} (hu : u < gr.threads.length) :
    (accGroup s set gr f w).thread u = if u ∈ set then asksAt s.cycle f w (gr.thread u) else gr.thread u := by
  rw [accGroup, thread_onGroup]
  simp only [hu, and_true]

/-- Table 19.8. The handle of a grant. -/
def accHandle (f : BitVec 5) (bank slot : Nat) : Word :=
  BitVec.ofNat 32 (f.toNat / 16 * 512 + bank * 256 + f.toNat % 8 * 16 + slot)

/-- R337. What a grant on a leader core changes beside the threads: the bank is the context's, the slots are the team's. -/
def accHeld (s : State) (k : GKey) (f : BitVec 5) (l bank slot : Nat) : State :=
  ((idle s).modCore l fun x => { x with banks := x.banks.set bank (some k.ctx) }).modTeam (gkeyTeam k) fun t => { t with
    grants := t.grants ++ [⟨f.toNat / 16, bank, slot, f.toNat % 8, false⟩]
    tiles := t.tiles ++ (List.range (f.toNat % 8)).map fun i => ⟨f.toNat / 16, slot + i, List.replicate 32768 0⟩ }

theorem accWaiting_group (hgroup : s.groups[g]? = some gr) : (accWaiting s g set f w).groups[g]? = some (accGroup s set gr f w) :=
  onThreads_group (s := idle s) hgroup set _

theorem threadAsk_accGroup {t : Nat} (ht : t ∈ set) (hlt : t < gr.threads.length) (hpc : (gr.thread t).pc = pcOf gr set) :
    threadAsk (accGroup s set gr f w, g) t = some (accAsk s g set gr f w t) := by
  have hthread := (accGroup_thread (s := s) (f := f) (w := w) hlt).trans (if_pos ht)
  unfold threadAsk
  simp only [hthread, asksAt, block_state, accWait, accAsk, block_pc, hpc]
  rfl

theorem accGroup_blocked (hfree : ∀ th ∈ gr.threads, th.isBlocked = false) {u : Nat} (hu : u < gr.threads.length)
    (hblocked : ((accGroup s set gr f w).thread u).isBlocked = true) : u ∈ set := by
  by_contra hnot
  rw [accGroup_thread hu, if_neg hnot, hfree _ (thread_mem hu)] at hblocked
  cases hblocked

/-- Where no other thread of the group waits, the threads of the request are those of the issue set. -/
theorem mem_accAsk_threads (hfree : ∀ th ∈ gr.threads, th.isBlocked = false) (hpc : ∀ t ∈ set, (gr.thread t).pc = pcOf gr set)
    (t : Nat) {u : Nat} (hu : u < gr.threads.length) : u ∈ (accAsk s g set gr f w t).threads (accGroup s set gr f w) ↔ u ∈ set := by
  simp only [AccAsk.threads, List.mem_filter, List.mem_range, accGroup_length, Bool.and_eq_true, beq_iff_eq]
  constructor
  · rintro ⟨-, ⟨hstate, -⟩, -⟩
    exact accGroup_blocked (s := s) (f := f) (w := w) hfree hu (by rw [Thread.isBlocked, hstate])
  · intro hset
    rw [accGroup_thread hu, if_pos hset]
    exact ⟨hu, ⟨rfl, hpc u hset⟩, rfl⟩

/-- A thread that has waited in an ACCALLOC goes on with the handle, as one that has not. -/
theorem granted_asksAt (cycle : Nat) (th : Thread) (d : Nat) (v pc : Word) :
    ((asksAt cycle f w th).setReg d v).goOn pc = (Thread.setReg { th with issued := cycle } d v).goOn pc := by
  unfold Thread.setReg
  split <;> rfl

section Granted

variable (hgroup : s.groups[g]? = some gr) (hnone : NoneWait s)
  (hin : ∀ t ∈ set, t < gr.threads.length ∧ (gr.thread t).pc = pcOf gr set)
include hgroup hnone hin

/-- Every request that waits is one of the instruction's. -/
theorem accAsk_of_mem {x : AccAsk} (h : x ∈ (accWaiting s g set f w).accAll) : ∃ t ∈ set, x = accAsk s g set gr f w t := by
  obtain ⟨j, y, hy, -, hask⟩ := mem_accAll.1 h
  obtain ⟨u, hu, hask⟩ := threadAsk_of_mem hask
  have hblocked := threadAsk_blocked hask
  by_cases hj : j = g
  · rw [hj, accWaiting_group hgroup] at hy
    obtain rfl := Option.some.inj hy
    have hset := accGroup_blocked (hnone gr (List.mem_of_getElem? hgroup)) (accGroup_length (s := s) (f := f) (w := w) ▸ hu) hblocked
    rw [hj] at hask
    exact ⟨u, hset, Option.some.inj (hask.symm.trans (threadAsk_accGroup hset (hin u hset).1 (hin u hset).2))⟩
  · rw [accWaiting, onThreads_group_other hj] at hy
    rw [hnone y (List.mem_of_getElem? hy) _ (thread_mem hu)] at hblocked
    cases hblocked

/-- R337, Table 19.8. The grant gives bank and slots to context and team, and the handle to every thread of the issue set. -/
theorem accGrant_accAsk {l bank slot : Nat} (hteam : s.team? (gkeyTeam gr.key) = some tm) (hlead : tm.cores[2 * (f.toNat / 16)]? = some l)
    (t : Nat) : (accWaiting s g set f w).accGrant (accAsk s g set gr f w t) (bank, slot) =
      onThreads (accHeld s gr.key f l bank slot) g set fun _ th =>
        (Thread.setReg { th with issued := s.cycle } w.toNat (accHandle f bank slot)).goOn (nextPc (.accalloc f w) gr set) := by
  have hleader : (accWaiting s g set f w).askLeader (accAsk s g set gr f w t) = some l := by
    rw [State.askLeader, show (accWaiting s g set f w).team? (gkeyTeam (accAsk s g set gr f w t).key) = some tm from hteam]
    exact hlead
  have hfree := hnone gr (List.mem_of_getElem? hgroup)
  have hpass : onGroup ((accAsk s g set gr f w t).threads (accGroup s set gr f w))
      (fun _ th => (th.setReg w.toNat (accHandle f bank slot)).goOn (pcAfter th.pc 4)) (accGroup s set gr f w) =
      onGroup set (fun _ th => (Thread.setReg { th with issued := s.cycle } w.toNat (accHandle f bank slot)).goOn
        (nextPc (.accalloc f w) gr set)) gr := by
    refine onGroup_after_onGroup fun u hu => ?_
    simp only [mem_accAsk_threads hfree (fun u hu => (hin u hu).2) t hu]
    by_cases hset : u ∈ set
    · rw [if_pos hset, if_pos hset, if_pos hset, granted_asksAt]
      exact congrArg (fun pc => Thread.goOn _ (pcAfter pc 4)) (hin u hset).2
    · simp only [if_neg hset]
  refine (accGrant_eq hleader (accWaiting_group hgroup)).trans ?_
  show onThreads (onThreads (accHeld s gr.key f l bank slot) g set fun _ => asksAt s.cycle f w) g _ _ = _
  simp only [onThreads, modify_modify]
  congr 1
  exact modify_congr_at hgroup hpass

/-- R337. The request is granted at once. -/
theorem accGrants_accWaiting {l bank slot : Nat} (hset : set ≠ []) (hteam : s.team? (gkeyTeam gr.key) = some tm) (hsaved : tm.saved = false)
    (hlead : tm.cores[2 * (f.toNat / 16)]? = some l) (hplace : s.accPlace tm (f.toNat / 16) (f.toNat % 8) = some (bank, slot)) :
    (accWaiting s g set f w).accGrants (accWaiting s g set f w).accAll.length =
      onThreads (accHeld s gr.key f l bank slot) g set fun _ th =>
        (Thread.setReg { th with issued := s.cycle } w.toNat (accHandle f bank slot)).goOn (nextPc (.accalloc f w) gr set) := by
  have hfirst := leadOf_mem hset
  refine accGrants_once (p := (bank, slot)) ?_ (fun x hx => ?_) (fun x hx => ?_) ?_
  · obtain ⟨x, hx⟩ := List.exists_mem_of_ne_nil _ (accAsks_ne_nil (p := (accGroup s set gr f w, g))
      (accGroup_length.symm ▸ (hin _ hfirst).1) (threadAsk_accGroup hfirst (hin _ hfirst).1 (hin _ hfirst).2))
    exact List.ne_nil_of_mem (mem_accAll.2 ⟨g, accGroup s set gr f w, accWaiting_group hgroup, ⟨tm, hteam, hsaved⟩, hx⟩)
  · obtain ⟨t, -, rfl⟩ := accAsk_of_mem hgroup hnone hin hx
    rw [State.askPlace, show (accWaiting s g set f w).team? (gkeyTeam (accAsk s g set gr f w t).key) = some tm from hteam]
    exact hplace
  · obtain ⟨t, -, rfl⟩ := accAsk_of_mem hgroup hnone hin hx
    exact accGrant_accAsk hgroup hnone hin hteam hlead t
  · exact noneWait_onThreads _ _ _ _ (show NoneWait (accHeld s gr.key f l bank slot) from hnone) fun _ _ _ => rfl

end Granted

end Accalloc

/-- Settles O40: the request waits with its issue set (`exec_accalloc`), and where it is the only one it is granted at once. -/
theorem accallocGrants : Obligations.AccallocGrants := by
  intro s g set gr tm f w node h hteam hnode n pair
  refine ⟨fun hbad => exec_accalloc_refused h hteam hnode hbad, fun l bank slot hslots hpair hsaved hnone hin hlead hplace => ?_⟩
  rw [exec_accalloc h hteam hnode hslots hpair,
    accGrants_accWaiting h.issuing.group hnone hin h.issuing.nonempty hteam hsaved hlead hplace]
  rfl

end Sys2Proof.Proofs


/-! ## Products of shares

The proof works in `ZMod (2 ^ k)`: what a party sends and what it keeps are ring expressions in its shares, so the sums over the
parties are ring expressions in the shared values. -/

namespace Sys2Proof.Proofs
open Sys2Proof.Machine Sys2Proof.Safety Sys2Proof.Laws

/-- What one party holds: its shares of the two factors, and its triple. -/
abbrev MulParty := (Nat × Nat) × (Nat × Nat × Nat)

theorem ringMod_cast (k : Nat) (v : Int) : ((ringMod k v : Nat) : ZMod (2 ^ k)) = (v : ZMod (2 ^ k)) := by
  have hpos : (0 : Int) < 2 ^ k := by positivity
  have hv : ((ringMod k v : Nat) : Int) = v % ((2 ^ k : Nat) : Int) := by
    rw [ringMod, Int.toNat_of_nonneg (Int.emod_nonneg _ hpos.ne')]
    push_cast
    rfl
  rw [← Int.cast_natCast, hv, ZMod.intCast_mod]

/-- The masked factor that a party sends first, in the ring. -/
theorem mulSend_first_cast (k : Nat) (p : MulParty) :
    (((mulSend k p.1 p.2).getD 0 0 : Nat) : ZMod (2 ^ k)) = p.1.1 - p.2.1 := by
  simp [mulSend, ringMod_cast]

/-- The masked factor that a party sends second, in the ring. -/
theorem mulSend_second_cast (k : Nat) (p : MulParty) :
    (((mulSend k p.1 p.2).getD 1 0 : Nat) : ZMod (2 ^ k)) = p.1.2 - p.2.2.1 := by
  simp [mulSend, ringMod_cast]

/-- A party's result, in the ring; only the first party adds the product of the two opened values. -/
theorem mulOut_cast (k : Nat) (first : Bool) (p : MulParty) (d e : Nat) :
    ((mulOut k first p.2 d e : Nat) : ZMod (2 ^ k)) =
      p.2.2.2 + d * p.2.2.1 + e * p.2.1 + if first = true then (d * e : ZMod (2 ^ k)) else 0 := by
  cases first <;> simp [mulOut, ZMod.natCast_mod]

/-- The sum of a list of numbers, reduced, in the ring. -/
theorem sum_map_mod_cast {α : Type} (k : Nat) (f : α → Nat) (g : α → ZMod (2 ^ k)) (h : ∀ x, (f x : ZMod (2 ^ k)) = g x)
    (l : List α) : (((l.map f).sum % 2 ^ k : Nat) : ZMod (2 ^ k)) = (l.map g).sum := by
  rw [ZMod.natCast_mod, Nat.cast_list_sum, List.map_map]
  exact congrArg List.sum (List.map_congr_left fun x _ => h x)

/-- The sum of differences is the difference of the sums. -/
theorem sum_map_sub_ring {α R : Type} [CommRing R] (f g : α → R) (l : List α) :
    (l.map fun x => f x - g x).sum = (l.map f).sum - (l.map g).sum := by
  simpa using Multiset.sum_map_sub (m := (l : Multiset α)) (f := f) (g := g)

/-- The parties after the first add no product of the opened values. -/
theorem sum_mulOut_rest_cast (k d e : Nat) (ps : List MulParty) :
    (((ps.map fun p => mulOut k false p.2 d e).sum : Nat) : ZMod (2 ^ k)) =
      (ps.map fun p => (p.2.2.2 : ZMod (2 ^ k))).sum + d * (ps.map fun p => (p.2.2.1 : ZMod (2 ^ k))).sum +
        e * (ps.map fun p => (p.2.1 : ZMod (2 ^ k))).sum := by
  induction ps with
  | nil => simp
  | cons p ps ih =>
    simp only [List.map_cons, List.sum_cons, Nat.cast_add, ih, mulOut_cast, Bool.false_eq_true, if_false]
    ring

/-- The results of all parties: the shared third of the triple, the opened values times the shared factors of the triple, and
once the product of the opened values. -/
theorem sum_mulOut_cast (k d e : Nat) (ps : List MulParty) (hne : ps ≠ []) :
    (((ps.mapIdx fun j p => mulOut k (j == 0) p.2 d e).sum : Nat) : ZMod (2 ^ k)) =
      (ps.map fun p => (p.2.2.2 : ZMod (2 ^ k))).sum + d * (ps.map fun p => (p.2.2.1 : ZMod (2 ^ k))).sum +
        e * (ps.map fun p => (p.2.1 : ZMod (2 ^ k))).sum + d * e := by
  obtain ⟨p, ps, rfl⟩ := List.exists_cons_of_ne_nil hne
  have hrest : (ps.mapIdx fun j p => mulOut k (j + 1 == 0) p.2 d e) = ps.map fun p => mulOut k false p.2 d e := by
    exact List.ext_getElem (by simp) fun n _ _ => by simp
  simp only [List.mapIdx_cons, hrest, List.map_cons, List.sum_cons, Nat.cast_add, sum_mulOut_rest_cast, mulOut_cast,
    beq_self_eq_true, if_true]
  ring

/-- Settles O42: in `ZMod (2 ^ k)` the opened values are `x - a` and `y - b`, and `c = a * b`, so the results sum to
`a * b + (x - a) * b + (y - b) * a + (x - a) * (y - b) = x * y`. -/
theorem sharesMultiply : Obligations.SharesMultiply := by
  intro k ps hne sum sent d e htriple
  have hd : (d : ZMod (2 ^ k)) = (ps.map fun p => (p.1.1 : ZMod (2 ^ k))).sum - (ps.map fun p => (p.2.1 : ZMod (2 ^ k))).sum := by
    simp only [d, sent, List.map_map, Function.comp_def]
    rw [sum_map_mod_cast k _ _ (mulSend_first_cast k) ps, sum_map_sub_ring]
  have he : (e : ZMod (2 ^ k)) =
      (ps.map fun p => (p.1.2 : ZMod (2 ^ k))).sum - (ps.map fun p => (p.2.2.1 : ZMod (2 ^ k))).sum := by
    simp only [e, sent, List.map_map, Function.comp_def]
    rw [sum_map_mod_cast k _ _ (mulSend_second_cast k) ps, sum_map_sub_ring]
  have hc : (ps.map fun p => (p.2.2.2 : ZMod (2 ^ k))).sum =
      (ps.map fun p => (p.2.1 : ZMod (2 ^ k))).sum * (ps.map fun p => (p.2.2.1 : ZMod (2 ^ k))).sum := by
    have h := (ZMod.natCast_eq_natCast_iff' _ _ _).2 htriple
    simpa [sum, Nat.cast_list_sum, List.map_map, Function.comp_def] using h
  refine (ZMod.natCast_eq_natCast_iff' _ _ _).1 ?_
  rw [sum_mulOut_cast k d e ps hne, hc, hd, he]
  simp only [sum, Nat.cast_mul, Nat.cast_list_sum, List.map_map, Function.comp_def]
  ring

end Sys2Proof.Proofs

/-! ## Share lane operations -/

namespace Sys2Proof.Proofs
open Sys2Proof.Machine Sys2Proof.Safety Sys2Proof.Laws

/-- R370. What a thread sends first, as the form says it. -/
theorem shareFirst_eq {i : Instr} {F : ShareForm} (hF : shareForm i = some F) (th : Thread) (e : List Nat) :
    shareFirst F.op F.bits (th.share F.bits F.x.toNat) (if F.op = 25 then th.share F.bits F.y.toNat else 0) e = F.first th e := by
  cases i <;> cases hF <;> rfl

/-- The operation that a share instruction opens with the entries `es`, where its session is x and its hamper at h. -/
def openedShare (i : Instr) (F : ShareForm) (s : State) (set : List Nat) (gr : Group) (x : Session) (h : Nat)
    (es : List (List Nat)) : ShareOp :=
  let xs := set.map fun t => (gr.thread t).share F.bits F.x.toNat
  let ys := set.map fun t => if F.op = 25 then (gr.thread t).share F.bits F.y.toNat else 0
  { op := F.op, session := x.id, width := F.bits, d := F.d.toNat, table := F.table.toNat, lbase := gr.l (leadOf set)
    seq := (gr.thread (leadOf set)).shareSeq, sub := 0, cursor := s.hamperCursor gr.key.ctx h F.op, threads := set
    x := xs, y := ys, entries := es
    bound := if F.op = 28 then (((s.team? (gkeyTeam gr.key)).map fun t => (t.tables.getD F.table.toNat {}).live).getD []) else []
    reads := ownReads F.fields, next := nextPc i gr set
    sent := ((xs.zip ys).mapIdx fun j p => shareFirst F.op F.bits p.1 p.2 (es.getD j [])).flatten }

/-- R370. What an operation sends in round 0 is what its threads send first, in their order. -/
theorem openedShare_sent {i : Instr} {F : ShareForm} (hF : shareForm i = some F) (s : State) (set : List Nat) (gr : Group)
    (x : Session) (h : Nat) (es : List (List Nat)) :
    (openedShare i F s set gr x h es).sent = (set.mapIdx fun j t => F.first (gr.thread t) (es.getD j [])).flatten := by
  refine congrArg List.flatten (List.ext_getElem (by simp) fun n _ _ => ?_)
  simpa using shareFirst_eq hF _ _

/-- R373. What a share instruction leaves as it issues: its node sealed and its entries consumed, SLUT's table bound, and the
fetch of its group held. -/
def shareIssued (F : ShareForm) (s : State) (g : Nat) (set : List Nat) (gr : Group) (h : Nat) (o : ShareOp) : State :=
  State.modGroup
    (let s1 := s.consume gr.key g (leadOf set) h F.op set.length
     if F.op = 28 then s1.modTeam (gkeyTeam gr.key) fun t =>
       { t with tables := t.tables.modify F.table.toNat fun y => { y with bound := y.bound ++ [(gr.key, false)] } }
     else s1) g fun y => { y with fetch := some (.share o) }

section Issue
variable {i : Instr} {F : ShareForm} {s : State} {g : Nat} {set : List Nat} {gr : Group}

/-- R373. Past the checks of every instruction, a share operation asks for an open session, its width, a policy where it opens
a value, and its entries, in this order. -/
theorem exec_share_clear (hF : shareForm i = some F) (h : Runs i F.fields s g set gr) (hfeat : s.feature 4 = true)
    (hkind : gr.key.kind = .lanes) :
    exec i s = .next (match s.shareSession gr.key.ctx with
      | none => (idle s).takeTrap g set (leadOf set) 0x30 0
      | some (x, _, hp) =>
        if x.ring ≠ F.bits then (idle s).takeTrap g set (leadOf set) 0x31 (s.hamperCursor gr.key.ctx hp F.op)
        else if F.op = 29 ∧ x.policy = [] then (idle s).takeTrap g set (leadOf set) 0x33 (s.hamperCursor gr.key.ctx hp F.op)
        else match s.takeEntries gr.key hp F.bits F.op set.length with
          | (.ok _, es) => shareIssued F (idle s) g set gr hp (openedShare i F s set gr x hp es)
          | (y, _) => stopped (idle s) g set (leadOf set) y) := by
  have hill : ¬ (!(idle s).feature 4 || gr.key.kind != .lanes) = true := by
    rw [hkind, show (idle s).feature 4 = true from hfeat]
    decide
  have hfields : fieldsFault gr.budget (shareFields F.op F.width F.d F.y F.x) = none := h.usable.fields
  have hready : firstPending gr (fun t => inThread t (ownRegs (shareFields F.op F.width F.d F.y F.x))) (theAct i g set gr).set = none :=
    firstPending_none _ _ _ h.usable.ready
  rw [exec_share hF, withIssue_eq i s _ g set gr h.issuing h.wf]
  simp only [shareRun, if_neg hill, hfields, hready, show (idle s).shareSession gr.key.ctx = s.shareSession gr.key.ctx from rfl]
  congr 1
  cases s.shareSession gr.key.ctx with
  | none => rfl
  | some ss =>
    obtain ⟨x, party, hp⟩ := ss
    refine if_congr Iff.rfl rfl (if_congr Iff.rfl rfl ?_)
    change (match s.takeEntries gr.key hp F.bits F.op set.length with | (.ok _, es) => _ | (y, _) => _) = _
    rcases s.takeEntries gr.key hp F.bits F.op set.length with ⟨y, es⟩
    cases y with
    | ok l => rfl
    | fault c d => rfl
    | page v => rfl

end Issue

/-- Settles O41: by the session and what the hamper holds. -/
theorem sharesIssue : Obligations.SharesIssue := by
  intro i F s g set gr hF h hfeat hkind trap
  have hexec := exec_share_clear hF h hfeat hkind
  refine ⟨fun hnone => ?session, fun x party hp hsome => ⟨fun hring => ?ring, fun hring hop hpolicy => ?policy,
    fun hring hpolicy => ⟨fun y hy hbad => ?entries, fun l hl => ?issue⟩⟩⟩
  case session => simpa only [hnone] using hexec
  case ring =>
    simp only [hsome, if_pos hring] at hexec
    exact hexec
  case policy =>
    simp only [hsome, if_neg (not_not_intro hring), if_pos (And.intro hop hpolicy)] at hexec
    exact hexec
  all_goals
    have hclear : ¬ (F.op = 29 ∧ x.policy = []) := fun hc => hpolicy hc.1 hc.2
    simp only [hsome, if_neg (not_not_intro hring), if_neg hclear] at hexec
  case entries =>
    rw [hexec]
    revert hy hbad
    rcases s.takeEntries gr.key hp F.bits F.op set.length with ⟨z, es⟩
    rintro rfl hbad
    cases z with
    | ok l => exact absurd rfl (hbad l)
    | fault c d => rfl
    | page v => rfl
  case issue =>
    refine ⟨openedShare i F s set gr x hp (s.takeEntries gr.key hp F.bits F.op set.length).2, ?_, rfl, rfl, rfl, rfl, rfl, rfl, rfl,
      rfl, rfl, openedShare_sent hF s set gr x hp _⟩
    rw [hexec]
    revert hl
    rcases s.takeEntries gr.key hp F.bits F.op set.length with ⟨z, es⟩
    rintro rfl
    rfl

end Sys2Proof.Proofs


/-! ## What a store leaves at its target

A place that has just been written reads what was written, and a later write to a place apart from it, with the STATUS words that
go with it, leaves it so. A store of one thread writes one place, or the two parts of a crossing access. -/

namespace Sys2Proof.Proofs
open Sys2Proof.Machine Sys2Proof.Safety Sys2Proof.Laws

/-! ### Reading back -/

section ReadBack
variable {s s' c : State} {k : TKey} {l : Loc} {n : Nat} {ls : List (Loc × Nat)} {x : Loc × Nat}

/-- A place of scratch is one of a team that the core holds. -/
def PlaceHeld (s : State) (k : TKey) (l : Loc) : Prop := ∀ a, l = .scr a → (s.team? k).isSome = true

/-- The bytes written at a place read back. -/
theorem readLoc_writeLoc_same (hw : s.memWf = true) (hl : PlaceHeld s k l) (bs : List Byte) :
    (s.writeLoc k l bs).readLoc k l bs.length = bs := by
  obtain ⟨hmem, hteams⟩ := (memWf_iff s).1 hw
  cases l with
  | glob p v line =>
    have hstaged := ((memWf_iff _).1 ((stageFor_only s k [] (some (k.ctx, k.node)) (p / 65536)).wf hw)).1
    cases line <;> exact read_write bs _ p hstaged
  | scr a =>
    have hheld := hl a rfl
    have hscratch : cellsWf (s.scratch k) = true := by
      obtain ⟨t, ht⟩ := Option.isSome_iff_exists.1 hheld
      rw [State.scratch, ht]
      exact hteams t (List.mem_of_find?_eq_some ht)
    have hread : (s.writeLoc k (.scr a) bs).scratch k = cellsWrite (s.scratch k) a bs :=
      scratch_modScratch_same hheld fun m => cellsWrite m a bs
    calc (s.writeLoc k (.scr a) bs).readLoc k (.scr a) bs.length
        = cellsRead ((s.writeLoc k (.scr a) bs).scratch k) a bs.length := rfl
      _ = bs := by rw [hread, read_write bs _ a hscratch]

/-- Stores at places apart from a place leave its bytes. -/
theorem readLoc_onlyStores (h : OnlyStores k ls s s') (hw : s.memWf = true) (hapart : ∀ y ∈ ls, Apart (l, n) y)
    (hstatus : ApartStatus s (l, n)) : s'.readLoc k l n = s.readLoc k l n := by
  cases l with
  | glob p v line =>
    refine cellsRead_congr fun b hlo hhi => h.mem hw b (fun y hy => ?_) (hstatus b hlo hhi)
    have hy' := hapart y hy
    obtain ⟨z, m⟩ := y
    cases z with
    | glob q v' line' =>
      simp only [Apart] at hy'
      dsimp only
      omega
    | scr q => trivial
  | scr a =>
    refine cellsRead_congr (m' := s.scratch k) fun b hlo hhi => h.scratch hw k b fun _ y hy => ?_
    have hy' := hapart y hy
    obtain ⟨z, m⟩ := y
    cases z with
    | glob q v' line' => trivial
    | scr q =>
      simp only [Apart] at hy'
      dsimp only
      omega

theorem apart_symm {y : Loc × Nat} (h : Apart x y) : Apart y x := by
  obtain ⟨lx, nx⟩ := x
  obtain ⟨ly, ny⟩ := y
  cases lx with
  | glob p v line =>
    cases ly with
    | glob q v' line' => exact Or.symm h
    | scr q => trivial
  | scr p =>
    cases ly with
    | glob q v' line' => trivial
    | scr q => exact Or.symm h

theorem apartStatus_onlyStores (h : OnlyStores k ls s s') (hx : ApartStatus s x) : ApartStatus s' x := by
  obtain ⟨l, n⟩ := x
  cases l with
  | glob p v line => exact fun a hlo hhi => status_eq h.rest h.nodes a (hx a hlo hhi)
  | scr a => trivial

theorem placeHeld_onlyStores (h : OnlyStores k ls s s') (hl : PlaceHeld s k l) : PlaceHeld s' k l := fun a ha => by
  have hteam := looks_team (looks_stores h) k
  rw [← Option.isSome_map (f := plainTeam), hteam, Option.isSome_map]
  exact hl a ha

/-! ### States that differ in threads only -/

theorem memWf_of_view (h : SameView c s) (hw : s.memWf = true) : c.memWf = true := by
  have hbare : ∀ z : State, (bare z).memWf = z.memWf := fun z => by
    simp only [State.memWf, bare, List.all_map, Function.comp_def, bareTeam]
  rw [← hbare, h.eq, hbare, hw]

theorem readLoc_of_view (h : SameView c s) (l : Loc) (n : Nat) : c.readLoc k l n = s.readLoc k l n := by
  simpa [State.readPlaces] using h.readPlaces k [(l, n)]

theorem yieldBytes_of_view (h : SameView c s) (above : List Span) (x : Loc × Nat) (bs : List Byte) :
    c.yieldBytes k above x bs = s.yieldBytes k above x bs := by
  rw [State.yieldBytes, State.yieldBytes, readLoc_of_view h]

theorem placeHeld_of_view (h : SameView c s) (hl : PlaceHeld s k l) : PlaceHeld c k l := fun a ha => by
  have hteam := looks_team (looks_view h) k
  rw [← Option.isSome_map (f := plainTeam), hteam, Option.isSome_map]
  exact hl a ha

theorem apartStatus_of_view (h : SameView c s) (hx : ApartStatus s x) : ApartStatus c x := by
  obtain ⟨l, n⟩ := x
  cases l with
  | scr a => trivial
  | glob p v line =>
    intro a hlo hhi m hm q hq
    have hnodes : (bare c).nodes = (bare s).nodes := congrArg State.nodes h.eq
    have hctx : (bareCtx (c.ctx m.ctx)).phys? (m.addr + 104) = (bareCtx (s.ctx m.ctx)).phys? (m.addr + 104) := by
      rw [looks_ctx (looks_view h)]
    exact hx a hlo hhi m (hnodes ▸ hm) q (hctx.symm.trans hq)

/-! ### Bytes that yield to higher lanes -/

theorem length_yieldBytes (above : List Span) (x : Loc × Nat) (bs : List Byte) : (s.yieldBytes k above x bs).length = bs.length := by
  unfold State.yieldBytes
  split
  · rfl
  · exact List.length_mapIdx

theorem yieldBytes_nil (x : Loc × Nat) (bs : List Byte) : s.yieldBytes k [] x bs = bs := rfl

/-- Where no higher lane has written, every byte is the thread's own. -/
theorem yieldAll_nil (ls : List (Loc × Nat)) (bs : List Byte) : s.yieldAll k [] ls bs = bs := by
  induction ls generalizing bs with
  | nil => rfl
  | cons x ls ih => rw [State.yieldAll, yieldBytes_nil, ih, List.take_append_drop]

theorem yieldAll_one (above : List Span) (l : Loc) (bs : List Byte) :
    s.yieldAll k above [(l, bs.length)] bs = s.yieldBytes k above (l, bs.length) bs := by
  simp [State.yieldAll]

theorem yieldAll_two (above : List Span) (x y : Loc × Nat) {bs : List Byte} (hlen : bs.length = x.2 + y.2) :
    s.yieldAll k above [x, y] bs = s.yieldBytes k above x (bs.take x.2) ++ s.yieldBytes k above y (bs.drop x.2) := by
  have hy : (bs.drop x.2).length = y.2 := by rw [List.length_drop]; omega
  simp [State.yieldAll, List.take_of_length_le hy.le, List.drop_of_length_le hy.le]

/-! ### A lane that stores -/

/-- The bytes that a lane stores at a place of their length. -/
theorem readLoc_doStore (g t : Nat) (hw : c.memWf = true) (hl : PlaceHeld c k l) {bs : List Byte} (hlen : bs.length = n) :
    (c.doStore g t k [(l, n)] bs).readLoc k l n = bs := by
  subst hlen
  have hread := readLoc_writeLoc_same hw hl bs
  have hall : c.writePlaces k [(l, bs.length)] bs = c.writeLoc k l bs := by
    simp only [State.writePlaces, List.take_length]
  rw [State.doStore, hall]
  exact hread

/-- One place: it holds the thread's bytes, but for those of higher lanes. -/
theorem storeRest_one (hv : SameView c s) (hw : s.memWf = true) (g t : Nat) (above : List Span) {bs : List Byte}
    (hl : PlaceHeld s k l) :
    (c.storeRest g t k false [(l, bs.length)] above bs).readPlaces k [(l, bs.length)] = s.yieldAll k above [(l, bs.length)] bs := by
  rw [yieldAll_one, ← yieldBytes_of_view hv]
  simpa [State.readPlaces, State.storeRest] using
    readLoc_doStore g t (memWf_of_view hv hw) (placeHeld_of_view hv hl) (length_yieldBytes above (l, bs.length) bs)

/-- Two places, the lower written before: the upper is written as in the first state, and the lower stays. -/
theorem storeRest_two {b : State} {x y : Loc × Nat} (g t : Nat) (above : List Span) {bs : List Byte}
    (hb : b = s.writePlaces k [x] (s.yieldAll k above [x] bs)) (hv : SameView c b) (hw : s.memWf = true)
    (hlen : bs.length = x.2 + y.2) (hx : PlaceHeld s k x.1) (hy : PlaceHeld s k y.1) (hapart : Apart x y)
    (hsx : ApartStatus s x) (hsy : ApartStatus s y) :
    (c.storeRest g t k true [x, y] above bs).readPlaces k [x, y] = s.yieldAll k above [x, y] bs := by
  have honly : OnlyStores k [x] s b := hb ▸ writePlaces_only k [x] s _
  have hwb := honly.wf hw
  have hwc := memWf_of_view hv hwb
  have hlower : b.readLoc k x.1 x.2 = s.yieldBytes k above x (bs.take x.2) := by
    have hlenx : (s.yieldBytes k above x (bs.take x.2)).length = x.2 := by
      rw [length_yieldBytes, List.length_take]; omega
    have hwrite : b = s.writeLoc k x.1 (s.yieldBytes k above x (bs.take x.2)) := by
      simp only [hb, State.writePlaces, State.yieldAll, List.take_append_of_le_length hlenx.ge, List.take_of_length_le hlenx.le]
    have hread := readLoc_writeLoc_same hw hx (s.yieldBytes k above x (bs.take x.2))
    rwa [hlenx, ← hwrite] at hread
  have hupper : c.yieldBytes k above y (bs.drop x.2) = s.yieldBytes k above y (bs.drop x.2) := by
    rw [yieldBytes_of_view hv, State.yieldBytes, State.yieldBytes,
      readLoc_onlyStores honly hw (by simpa using apart_symm hapart) hsy]
  have hleny : (c.yieldBytes k above y (bs.drop x.2)).length = y.2 := by
    rw [length_yieldBytes, List.length_drop]; omega
  have hrest : c.storeRest g t k true [x, y] above bs = c.doStore g t k [y] (c.yieldBytes k above y (bs.drop x.2)) := by
    simp [State.storeRest]
  have hstored : OnlyStores k [y] (c.modThread g t fun th => { th with stores := th.stores + 1 })
      (c.doStore g t k [y] (c.yieldBytes k above y (bs.drop x.2))) := doStore_only c g t k [y] [y] _ fun _ h => h
  have hview : SameView (c.modThread g t fun th => { th with stores := th.stores + 1 }) c := ⟨rfl⟩
  have hstays : (c.doStore g t k [y] (c.yieldBytes k above y (bs.drop x.2))).readLoc k x.1 x.2 = b.readLoc k x.1 x.2 := by
    rw [readLoc_onlyStores hstored (memWf_of_view hview hwc) (by simpa using hapart)
      (apartStatus_of_view hview (apartStatus_of_view hv (apartStatus_onlyStores honly hsx))), readLoc_of_view hview, readLoc_of_view hv]
  have hwritten := readLoc_doStore g t hwc (placeHeld_of_view hv (placeHeld_onlyStores honly hy)) hleny
  rw [hrest, yieldAll_two above x y hlen]
  simp only [State.readPlaces, List.map_cons, List.map_nil, List.flatten_cons, List.flatten_nil, List.append_nil]
  rw [hstays, hlower, hwritten, hupper]

end ReadBack

end Sys2Proof.Proofs

/-! ## The store of one thread (R275, R276, R279) -/

namespace Sys2Proof.Proofs
open Sys2Proof.Machine Sys2Proof.Safety Sys2Proof.Laws

/-! ### Places of an access -/

section AccessPlaces
variable {s : State} {k : GKey} {x : Target} {w : Bool} {p q : Nat × Nat} {l : Loc}

/-- Mapped memory is no scratch. -/
theorem checkMapped_ne_scr (c : Context) (y : Nat) (w : Bool) (line : Option Nat) (a : Nat) : checkMapped c y w line ≠ .ok (.scr a) := by
  unfold checkMapped
  split
  · simp
  · split_ifs <;> simp

/-- A part that a thread may reach in scratch is one of a team that the core holds. -/
theorem checkPart_held (h : s.checkPart k x w p = .ok l) : PlaceHeld s (gkeyTeam k) l := by
  rintro a rfl
  by_contra hnone
  have hteam : s.team? (gkeyTeam k) = none := by simpa using hnone
  have hscr : (if x.glob = true then checkGlobal (s.ctx k.ctx) none (p.1 % 2 ^ 64) p.2 x.align w
      else .fault tPerm (BitVec.ofNat 32 p.1)) ≠ .ok (.scr a) := by
    unfold checkGlobal
    split
    · split
      · simp
      · split
        · simp
        · split
          · simp
          · exact checkMapped_ne_scr _ _ _ _ _
    · simp
  unfold State.checkPart at h
  simp only [hteam] at h
  revert h hscr
  generalize (if x.glob = true then checkGlobal (s.ctx k.ctx) none (p.1 % 2 ^ 64) p.2 x.align w
    else Chk.fault tPerm (BitVec.ofNat 32 p.1)) = r
  intro hscr h
  cases r with
  | fault c d => cases h
  | page v => cases h
  | ok y =>
    refine hscr (Eq.trans ?_ h)
    dsimp only
    split
    next hwrite =>
      split
      next f hbar => simp [hwrite, hbar] at h
      next => rfl
    next => rfl

/-- R276. An access of one part. -/
theorem places_one (hp : x.parts = [p]) (h : s.lowCheck k w x = .ok l) : s.places k x w = [(l, p.2)] ∧ PlaceHeld s (gkeyTeam k) l := by
  have hcheck : s.checkPart k x w p = .ok l := by simpa only [State.lowCheck, hp] using h
  exact ⟨by simp [State.places, hp, hcheck, Chk.loc], checkPart_held hcheck⟩

/-- R276. An access of two parts. -/
theorem places_two {l' : Loc} (hp : x.parts = [p, q]) (h : s.lowCheck k w x = .ok l) (h' : s.highCheck k w x = .ok l') :
    s.places k x w = [(l, p.2), (l', q.2)] ∧ PlaceHeld s (gkeyTeam k) l ∧ PlaceHeld s (gkeyTeam k) l' := by
  have hlow : s.checkPart k x w p = .ok l := by simpa only [State.lowCheck, hp] using h
  have hhigh : s.checkPart k x w q = .ok l' := by simpa only [State.highCheck, hp] using h'
  exact ⟨by simp [State.places, hp, hlow, hhigh, Chk.loc], checkPart_held hlow, checkPart_held hhigh⟩

/-- R276. The parts of an access of a size: one, or two whose sizes sum to it. -/
theorem parts_cases (halign : x.align = 1) :
    (∃ p : Nat × Nat, x.parts = [p] ∧ p.2 = x.size) ∨ ∃ p q : Nat × Nat, x.parts = [p, q] ∧ p.2 + q.2 = x.size := by
  unfold Target.parts splitParts
  rw [if_pos halign]
  split
  · exact .inl ⟨_, rfl, rfl⟩
  · exact .inr ⟨_, _, rfl, by dsimp only; omega⟩

end AccessPlaces

/-! ### Bytes of a store -/

theorem length_natBytes (n v : Nat) : (natBytes n v).length = n := by
  induction n generalizing v with
  | zero => rfl
  | succ n ih => rw [natBytes, List.length_cons, ih]

/-- A store stores as many bytes as its form says. -/
theorem length_storeBytes {i : Instr} {F : StoreForm} (hF : storeForm i = some F) (gr : Group) (t : Nat) :
    (F.bytes gr t).length = F.size := by
  have hsize : F.size ≤ 4 ∨ F.size / 4 * 4 = F.size := by cases i <;> cases hF <;> simp
  unfold StoreForm.bytes storeBytes
  split
  · exact length_natBytes ..
  next hlarge =>
    simp [List.length_flatten, List.map_map, Function.comp_def, length_natBytes, hsize.resolve_left hlarge]

/-! ### One thread -/

section OneLane
variable {i : Instr} {F : StoreForm} {s : State} {g : Nat} {set : List Nat} {gr : Group} {t : Nat}

/-- Threads that wait or go on before the lanes store leave what a store sees. -/
theorem view_heldStore (w : State) : SameView (heldStore i F s w g set gr) w :=
  ((view_onThreads _ _ _ _).trans (view_onThreads _ _ _ _)).trans (view_flagged _ _ _ _ _)

/-- What stands against lower threads that wait is their own. -/
theorem view_overWrite (w : State) (ls : List (Loc × Nat)) : SameView (w.overWrite g t ls) w := by
  cases hg : w.groups[g]? with
  | none =>
    rw [State.overWrite, hg]
    exact .refl w
  | some x =>
    rw [overWrite_eq w g t ls x hg]
    exact view_onThreads _ _ _ _

/-- No lane above the only one that stores. -/
theorem laneAbove_one (s' : State) : laneAbove F s' gr [t] t = (gr.thread t).higher := by
  have hnone : ([t].filter fun u => (F.target gr u).crosses).filter (t < ·) = [] := by simp
  simp [laneAbove, hnone]

/-- The state that the store of thread t alone leaves. -/
def oneStored (i : Instr) (F : StoreForm) (s : State) (g : Nat) (set : List Nat) (gr : Group) (t : Nat) : State :=
  (((heldStore i F s (lowerStored F s gr set) g set gr).storeRest g t (gkeyTeam gr.key) (F.target gr t).crosses
    (storePlaces F s gr t) (gr.thread t).higher (F.bytes gr t)).overWrite g t (storePlaces F s gr t)).modThread g t fun th =>
      th.goOn (nextPc i gr set)

theorem storing_one (hwho : F.who gr set = [t]) (hmay : s.mayPerform gr.key true (storePlaces F s gr t) = true) :
    storing F s gr set = [t] := by simp [storing, hwho, hmay]

/-- R276, R279. The store of one thread that may store. -/
theorem exec_store_one (hF : storeForm i = some F) (h : Issuing s g set gr) (hw : i.wf = true)
    (hu : GuardUsable F.fields F.n F.guard gr set) (hq : F.d ≠ 61) (hwho : F.who gr set = [t])
    (hr : Reaches s gr.key true (F.target gr t)) (hmay : s.mayPerform gr.key true (storePlaces F s gr t) = true) :
    exec i s = .next (oneStored i F s g set gr t) := by
  have hreach : ∀ u ∈ F.who gr set, Reaches s gr.key true (F.target gr u) := by simpa [hwho] using hr
  rw [exec_store hF s, withIssue_eq i s _ g set gr h hw, storeRun_held h hu hq hreach, storing_one hwho hmay]
  simp only [List.foldl_cons, List.foldl_nil, laneAbove_one, laneBytes_eq]
  rfl

/-- What the thread leaves at its places is what its lane has stored. -/
theorem oneStored_readPlaces (k : TKey) (ls : List (Loc × Nat)) : (oneStored i F s g set gr t).readPlaces k ls =
    ((heldStore i F s (lowerStored F s gr set) g set gr).storeRest g t (gkeyTeam gr.key) (F.target gr t).crosses
      (storePlaces F s gr t) (gr.thread t).higher (F.bytes gr t)).readPlaces k ls := by
  rw [oneStored, modThread_onThreads]
  exact ((view_onThreads _ _ _ _).trans (view_overWrite _ _)).readPlaces k ls

end OneLane

/-- Settles O16: an access of one part stores once; one of two parts has stored the lower before the upper, which is apart
from it. -/
theorem storedValue : Obligations.StoredValue := by
  intro i F s g set gr t hF h hw hu hq hwho hr places hmay hmem _ hapart hstatus
  have hread : (oneStored i F s g set gr t).readPlaces (gkeyTeam gr.key) places =
      s.yieldAll (gkeyTeam gr.key) (gr.thread t).higher places (F.bytes gr t) := by
    have hlen : (F.bytes gr t).length = (F.target gr t).size := length_storeBytes hF gr t
    have hidle : (idle s).memWf = true := hmem
    obtain ⟨⟨l, hl⟩, ⟨l', hl'⟩⟩ := hr
    rw [oneStored_readPlaces]
    rcases parts_cases (x := F.target gr t) rfl with ⟨p, hp, hsize⟩ | ⟨p, q, hp, hsize⟩
    case inl =>
      have hcross : (F.target gr t).crosses = false := by simp [Target.crosses, hp]
      obtain ⟨hplaces, hheld⟩ := places_one hp hl
      have hlower : lowerStored F s gr set = idle s := by
        simp [lowerStored, storing_one hwho hmay, hcross, State.lowerParts]
      have hall : places = [(l, (F.bytes gr t).length)] := by rw [hlen, ← hsize]; exact hplaces
      rw [show storePlaces F s gr t = places from rfl, hcross, hlower, hall]
      exact storeRest_one ((view_heldStore _).trans (view_idle s)) hmem g t _ hheld
    case inr =>
      have hcross : (F.target gr t).crosses = true := by simp [Target.crosses, hp]
      obtain ⟨hplaces, hlow, hhigh⟩ := places_two hp hl hl'
      have hall : places = [(l, p.2), (l', q.2)] := hplaces
      rw [hall] at hapart hstatus
      have hlower : lowerStored F s gr set = (idle s).writePlaces (gkeyTeam gr.key) [(l, p.2)]
          ((idle s).yieldAll (gkeyTeam gr.key) (gr.thread t).higher [(l, p.2)] (F.bytes gr t)) := by
        simp [lowerStored, storing_one hwho hmay, hcross, State.lowerParts, laneBytes_eq, show storePlaces F s gr t = places from rfl, hall]
      rw [show storePlaces F s gr t = places from rfl, hcross, hall]
      exact storeRest_two (s := idle s) g t _ hlower (view_heldStore _) hidle (hlen.trans hsize.symm) hlow hhigh
        (by simpa using hapart) (hstatus _ (by simp)) (hstatus _ (by simp))
  refine ⟨_, exec_store_one hF h hw hu hq hwho hr hmay, fun hnone => ?own, hread⟩
  rw [hread, hnone, yieldAll_nil]

end Sys2Proof.Proofs
